-- ==== Sys2Proof/Word.lean ====
section
/-! DEFINITION. Word: the widths the manual names for its registers (R32) and bytes in memory (R3). -/

namespace Sys2Proof

/-- One byte of memory. -/
abbrev Byte := BitVec 8

/-- A scalar register, a pointer or a doubleword of memory. -/
abbrev Word := BitVec 64

/-- A vector register or the bits of a wide register. -/
abbrev VWord := BitVec 1024

/-- A predicate register. -/
abbrev PWord := BitVec 128

/-- A command register. -/
abbrev KWord := BitVec 256

/-- The null pointer that instructions produce (R124). -/
def nullPtr : Word := 0x00E0000000000000#64

end Sys2Proof
end

