-- ==== Sys2Proof/Config.lean ====
section
/-! DEFINITION. Config: what the manual leaves to the device or leaves open. A free value is a constant without a body;
nothing can be proved about which value it is. -/

namespace Sys2Proof.Config

/-- Free 64-bit values, indexed by the counter `free` of the state (log entry 1). -/
opaque freeWord : Nat → Word

/-- Free natural numbers, indexed by the same counter (log entry 1). -/
opaque freeNat : Nat → Nat

/-- Free bits, indexed by the same counter (log entry 1). -/
opaque freeBool : Nat → Bool

/-- Whether a special function's result that is not exact takes the neighbour above the exact value, for a function
code, a format code and an operand (R270; log entry 2). -/
opaque neighbourUp : Nat → Nat → Nat → Bool

/-- How many records beyond sixteen a context's completion queue holds (R36 gives at least 16; log entry 3). -/
opaque extraRecords : Nat

/-- The SHA3-512 digest of a byte string (R448; log entry 4). -/
opaque sha3 : List Byte → List Byte

/-- Whether a signature over a byte string verifies under the device's root key (R448; log entry 4). -/
opaque verifies : List Byte → List Byte → Bool

/-- The controller's signature over a byte string, its certificate chain and the digest of its boot ROM (R451; log entry
4). -/
opaque signature : List Byte → List Byte
opaque certificates : List Byte
opaque romDigest : List Byte

/-- Core sites fused off at manufacture (R14; log entry 18). -/
opaque fusedOff : Nat → Bool

/-- The features that the device offers: bits 13 to 0 of `FEATOFF`, whose other bits read as 0 (R421, R422; log entry 10). -/
opaque offered : BitVec 14

/-- Pages that the tier pool holds at most: the share of HBM that the driver sets aside (R176; log entry 11). -/
opaque tierFrames : Nat

/-- The frames of HBM that the tier pool is made of, by number (R176, R337; log entry 11). -/
opaque tierFrame : Nat → Nat

/-- Frames of the KV pool, which the driver sets aside (R358; log entry 12). -/
opaque kvPool : Nat

/-- The HBM channel, modulo 256, on which 4 KiB of a frame of the KV pool lie, by frame and piece, and the place among the
live channels, modulo their number, of the one that takes them when that channel is retired (R358, R453; log entry 117). -/
opaque kvChannel : Nat → Nat → Nat
opaque kvMoveTo : Nat → Nat → Nat

/-- The KV-frame quota that the driver sets for each VF (R358; log entry 12). -/
opaque kvQuota : Nat → Nat

/-- What the driver and management set for the scheduler (R427, R431; log entry 15): the partition that a VF is assigned
to, its slice in cycles, and the weight of an ASID. -/
opaque vfPartition : Nat → Option Nat
opaque sliceLength : Nat → Nat
opaque asidWeight : Nat → Nat

/-- Whether the areas of a pad are laid out from its top downwards, for a level and a cluster or die (R155; log entry 17). -/
opaque areaMirror : Nat → Nat → Bool

/-- The firmware image in the active slot of a module as it is delivered, and the resident handler and the boot program that
another image carries (R388, R448; log entry 16). -/
opaque shippedImage : List Byte
opaque handlerIn : List Byte → List Byte
opaque bootIn : List Byte → List Byte

/-- The parts of the shipped handler that the manual does not give: the code that finds the next value of `timercmp`, and the
services of SYSCALL (log entry 16). -/
opaque timerCode : List Byte
opaque serviceCode : List Byte

/-- Whether a write of the controller's flash fails (R446; log entry 132). -/
opaque flashFails : Nat → Bool

/-- The entries of the route table that the scheduler fills for the module's load-store domain: logical module number to entry
(R120; log entry 102). -/
opaque routeEntry : Nat → Word

/-- The world in which firmware starts the cores of a cluster, and whether it locks it (R93, R439; log entry 103). -/
opaque secureCluster : Nat → Bool
opaque lockedCluster : Nat → Bool

/-- Whether the pages of a retired channel find spare rows of other channels (R453; log entry 19). -/
opaque spareRows : Nat → Bool

end Sys2Proof.Config
end

