-- ==== Sys2Proof/Syntax.lean ====
section
/-! DEFINITION. Syntax: one constructor for each row of the opcode table. A row with an encoding takes its
fields, each a bit vector of the field's width, in the order of the table from bit 31 down. A row without an
encoding is an engine operation, a completion or an outside event (spec/95); its operands say which instance of
it takes place. -/

namespace Sys2Proof

/-- The host's answer to a translation or page request (R136, R178). -/
inductive PageAnswer where
  /-- The page is mapped: its frame number, its write permission and whether it is in HBM; and, when it lies in another
  module, that module's logical number in the load-store domain. -/
  | mapped (frame : Nat) (writable hbm : Bool) (home : Option Nat)
  /-- The page is refused. -/
  | invalid
  deriving DecidableEq, Repr

/-- A host register with no behaviour of its own (R426, R446). -/
inductive HostReg where
  /-- `MBARG0` to `MBARG6` -/
  | mbarg (n : Fin 7)
  /-- a 64-bit word of `MBDATA`, by its number -/
  | mbdata (n : Fin 512)
  /-- `REPLYVAL` of a VF -/
  | replyval (vf : Nat)
  /-- the address and the number of entries of a VF's event ring, or of its request ring, which the driver sets (R426; log
  entry 72) -/
  | ringAddr (request : Bool) (vf : Nat)
  | ringSize (request : Bool) (vf : Nat)
  deriving DecidableEq, Repr

/-- An object that a KV migration moves into a VF (R438). -/
inductive KvObj where
  /-- A page, for a frame of the pool: the bytes of its body. -/
  | page (body : List (BitVec 8))
  /-- A table or an RSTATE, for the heap of an ASID at a virtual address: header and body, and for a table the page
  entries that name pages of the set, with their numbers in it. -/
  | heap (asid va : Nat) (bytes : List (BitVec 8)) (entries : List (Nat × Nat))
  deriving DecidableEq, Repr

/-- What becomes of a KV migration (R438): `peer` is the TDISP state of the VF on the other module. -/
inductive KvMove where
  /-- This module is the source; the target confirms the whole set, or the transfer ends without it. -/
  | sent (peer : Nat) (confirmed : Bool)
  /-- This module is the target, and every flit was authentic, or the transfer ends without it. -/
  | received (peer : Nat) (objs : List KvObj) (authentic : Bool)
  deriving DecidableEq, Repr

/-- An SPDM request (R419, R451). -/
inductive SpdmReq where
  /-- Measurement index. -/
  | measure (index : Nat)
  /-- A VF's TDISP interface is locked, started or stopped. -/
  | lock (vf : Nat)
  | start (vf : Nat)
  | stop (vf : Nat)
  /-- A VF's TDISP interface has failed (log entry 85). -/
  | fail (vf : Nat)
  deriving DecidableEq, Repr

/-- A host access to device memory over CXL.mem (R440): the port and the TDISP interface, if any, that it comes through, its
address, and the bytes it writes or the number it reads. -/
structure HostAccess where
  port : Nat
  iface : Option Nat
  addr : Nat
  size : Nat
  write : Option (List (BitVec 8))
  deriving DecidableEq, Repr

/-- Where an error is found (R450, R453): a core, a byte of a pad by its offset, a byte of HBM by its address, a byte of a
frame of the KV pool, or another unit by its kind and number. -/
inductive ErrUnit where
  | core (site : Nat)
  | corePad (site off : Nat)
  | clusterPad (n off : Nat)
  | diePad (n off : Nat)
  | hbm (addr : Nat)
  | kvPage (frame off : Nat)
  | other (kind n : Nat)
  deriving DecidableEq, Repr

/-- The area of a snapshot (R436): its address in host memory, and how many pages it has places for. -/
structure SnapArea where
  base : BitVec 64
  places : Nat
  deriving DecidableEq, Repr

/-- One self-test that has been run: the unit's kind and number, and whether it passed (R443, R444, R450). -/
structure TestRun where
  kind : Nat
  unit : Nat
  passed : Bool
  deriving DecidableEq, Repr

/-- What another module asks of a heap port (R189). -/
inductive PalbelOp where
  /-- The bytes of a put or a write-back. -/
  | write (bytes : List (BitVec 8))
  /-- An `amo` or a reduction: operation and operand. -/
  | amo (op : Nat) (x : BitVec 64)
  /-- A `cas`: the expected and the new value. -/
  | cas (expected new : BitVec 64)
  deriving DecidableEq, Repr

/-- A request of another module, served at this module's heap port: the object's header address and the body
offset (R189). -/
structure PalbelReq where
  asid : Nat
  va : Nat
  off : Nat
  op : PalbelOp
  deriving DecidableEq, Repr


/-- The instructions of the Wenyan set, the engine operations and the events of the device. -/
inductive Instr where
  /-- ADD (R71). Writes the 64-bit sum of two s registers to sD. -/
  | add (d : BitVec 5) (a : BitVec 5) (b : BitVec 5)
  /-- SUB (R71). Writes the 64-bit difference of two s registers to sD. -/
  | sub (d : BitVec 5) (a : BitVec 5) (b : BitVec 5)
  /-- AND (R71). Writes the bitwise AND of two s registers to sD. -/
  | and (d : BitVec 5) (a : BitVec 5) (b : BitVec 5)
  /-- OR (R71). Writes the bitwise OR of two s registers to sD. -/
  | or (d : BitVec 5) (a : BitVec 5) (b : BitVec 5)
  /-- XOR (R71). Writes the bitwise XOR of two s registers to sD. -/
  | xor (d : BitVec 5) (a : BitVec 5) (b : BitVec 5)
  /-- SLL (R71). Shifts sA left by the low six bits of sB. -/
  | sll (d : BitVec 5) (a : BitVec 5) (b : BitVec 5)
  /-- SRL (R71). Shifts sA right logically by the low six bits of sB. -/
  | srl (d : BitVec 5) (a : BitVec 5) (b : BitVec 5)
  /-- SRA (R71). Shifts sA right arithmetically by the low six bits of sB. -/
  | sra (d : BitVec 5) (a : BitVec 5) (b : BitVec 5)
  /-- SLT (R71). Writes 1 if sA is less than sB as signed numbers, else 0. -/
  | slt (d : BitVec 5) (a : BitVec 5) (b : BitVec 5)
  /-- SLTU (R71). Writes 1 if sA is less than sB as unsigned numbers, else 0. -/
  | sltu (d : BitVec 5) (a : BitVec 5) (b : BitVec 5)
  /-- MIN (R71). Writes the signed minimum of sA and sB. -/
  | min (d : BitVec 5) (a : BitVec 5) (b : BitVec 5)
  /-- MAX (R71). Writes the signed maximum of sA and sB. -/
  | max (d : BitVec 5) (a : BitVec 5) (b : BitVec 5)
  /-- MINU (R71). Writes the unsigned minimum of sA and sB. -/
  | minu (d : BitVec 5) (a : BitVec 5) (b : BitVec 5)
  /-- MAXU (R71). Writes the unsigned maximum of sA and sB. -/
  | maxu (d : BitVec 5) (a : BitVec 5) (b : BitVec 5)
  /-- MUL (R71). Writes the low 64 bits of the product of sA and sB. -/
  | mul (d : BitVec 5) (a : BitVec 5) (b : BitVec 5)
  /-- MULH (R71). Writes the high 64 bits of the signed 128-bit product. -/
  | mulh (d : BitVec 5) (a : BitVec 5) (b : BitVec 5)
  /-- MULHU (R71). Writes the high 64 bits of the unsigned 128-bit product. -/
  | mulhu (d : BitVec 5) (a : BitVec 5) (b : BitVec 5)
  /-- DIV (R72). Signed division truncating towards zero, with fixed results for zero divisor and overflow. -/
  | div (d : BitVec 5) (a : BitVec 5) (b : BitVec 5)
  /-- DIVU (R72). Unsigned division, giving all ones for a zero divisor. -/
  | divu (d : BitVec 5) (a : BitVec 5) (b : BitVec 5)
  /-- REM (R72). Signed remainder with the sign of the dividend. -/
  | rem (d : BitVec 5) (a : BitVec 5) (b : BitVec 5)
  /-- REMU (R72). Unsigned remainder, giving the dividend for a zero divisor. -/
  | remu (d : BitVec 5) (a : BitVec 5) (b : BitVec 5)
  /-- CLZ (R71). Counts the leading zero bits of sA. -/
  | clz (d : BitVec 5) (a : BitVec 5)
  /-- CTZ (R71). Counts the trailing zero bits of sA. -/
  | ctz (d : BitVec 5) (a : BitVec 5)
  /-- POPC (R71). Counts the one bits of sA. -/
  | popc (d : BitVec 5) (a : BitVec 5)
  /-- SEL (R71). Writes sA if sC is nonzero, else sB, popping every named port. -/
  | sel (d : BitVec 5) (a : BitVec 5) (b : BitVec 5) (c : BitVec 5)
  /-- ADDI (R73). Adds a sign-extended immediate to sA. -/
  | addi (d : BitVec 5) (a : BitVec 5) (i : BitVec 16)
  /-- ANDI (R73). ANDs sA with a zero-extended immediate. -/
  | andi (d : BitVec 5) (a : BitVec 5) (i : BitVec 16)
  /-- ORI (R73). ORs sA with a zero-extended immediate. -/
  | ori (d : BitVec 5) (a : BitVec 5) (i : BitVec 16)
  /-- XORI (R73). XORs sA with a zero-extended immediate. -/
  | xori (d : BitVec 5) (a : BitVec 5) (i : BitVec 16)
  /-- SLTI (R73). Signed compare of sA with a sign-extended immediate. -/
  | slti (d : BitVec 5) (a : BitVec 5) (i : BitVec 16)
  /-- SLTIU (R73). Unsigned compare of sA with a sign-extended immediate pattern. -/
  | sltiu (d : BitVec 5) (a : BitVec 5) (i : BitVec 16)
  /-- SLLI (R74). Shifts sA left by an immediate amount of 0 to 63. -/
  | slli (d : BitVec 5) (a : BitVec 5) (s : BitVec 5) (h : BitVec 1)
  /-- SRLI (R74). Shifts sA right logically by an immediate amount. -/
  | srli (d : BitVec 5) (a : BitVec 5) (s : BitVec 5) (h : BitVec 1)
  /-- SRAI (R74). Shifts sA right arithmetically by an immediate amount. -/
  | srai (d : BitVec 5) (a : BitVec 5) (s : BitVec 5) (h : BitVec 1)
  /-- LHI (R75). Replaces 16-bit quarter k of sD with the immediate. -/
  | lhi (d : BitVec 5) (k : BitVec 2) (i : BitVec 16)
  /-- BEQ (R76). Branches when sA equals sB. -/
  | beq (a : BitVec 5) (b : BitVec 5) (o : BitVec 13)
  /-- BNE (R76). Branches when sA differs from sB. -/
  | bne (a : BitVec 5) (b : BitVec 5) (o : BitVec 13)
  /-- BLT (R76). Branches when sA is less than sB, signed. -/
  | blt (a : BitVec 5) (b : BitVec 5) (o : BitVec 13)
  /-- BGE (R76). Branches when sA is at least sB, signed. -/
  | bge (a : BitVec 5) (b : BitVec 5) (o : BitVec 13)
  /-- BLTU (R76). Branches when sA is less than sB, unsigned. -/
  | bltu (a : BitVec 5) (b : BitVec 5) (o : BitVec 13)
  /-- BGEU (R76). Branches when sA is at least sB, unsigned. -/
  | bgeu (a : BitVec 5) (b : BitVec 5) (o : BitVec 13)
  /-- JAL (R77). Jumps by a word offset and writes the return address to sD. -/
  | jal (d : BitVec 5) (o : BitVec 21)
  /-- JALR (R77). Jumps to sA plus a byte offset and writes the return address to sD. -/
  | jalr (d : BitVec 5) (a : BitVec 5) (i : BitVec 16)
  /-- TIDX (R84). Splits a linear index into coordinate k under the context's shape. -/
  | tidx (d : BitVec 5) (a : BitVec 5) (k : BitVec 3)
  /-- SHP (R82). Loads a shape-table entry into the shape register and returns ndim. -/
  | shp (d : BitVec 5) (a : BitVec 4) (b : BitVec 5)
  /-- CRD (R85). Reads a control register into sD. -/
  | crd (d : BitVec 5) (n : BitVec 12)
  /-- CRW (R85). Writes a control register through its writable mask, returning the old value. -/
  | crw (d : BitVec 5) (a : BitVec 5) (n : BitVec 12)
  /-- CRS (R85). Sets bits of a control register indivisibly, returning the old value. -/
  | crs (d : BitVec 5) (a : BitVec 5) (n : BitVec 12)
  /-- CRC (R85). Clears bits of a control register indivisibly, returning the old value. -/
  | crc (d : BitVec 5) (a : BitVec 5) (n : BitVec 12)
  /-- LD (R138). Loads and decodes an element of an object into sD after touch and checks. -/
  | ld (d : BitVec 5) (p : BitVec 4) (x : BitVec 5) (z : BitVec 2) (i : BitVec 10)
  /-- ST (R139). Encodes sD into an element of an object copy and marks it dirty. -/
  | st (d : BitVec 5) (p : BitVec 4) (x : BitVec 5) (z : BitVec 2) (i : BitVec 10)
  /-- LDA (R142). Loads a pointer from a PTRS object into an a register with cursor 0. -/
  | lda (d : BitVec 4) (p : BitVec 4) (x : BitVec 5) (i : BitVec 10)
  /-- STA (R142). Stores an a register's pointer bits into a PTRS object. -/
  | sta (d : BitVec 4) (p : BitVec 4) (x : BitVec 5) (i : BitVec 10)
  /-- TOUCH (R143). Touches the object and returns the pointer's new level. -/
  | touch (d : BitVec 5) (a : BitVec 4)
  /-- ALLOC (R145). Bump-allocates a zeroed object at the level the descriptor names. -/
  | alloc (d : BitVec 4) (a : BitVec 5) (b : BitVec 5)
  /-- ACUR_SET (R146). Copies a pointer to aD with the cursor set to sB. -/
  | acurSet (d : BitVec 4) (a : BitVec 4) (b : BitVec 5)
  /-- ACUR_ADD (R146). Copies a pointer to aD with sB added to its cursor. -/
  | acurAdd (d : BitVec 4) (a : BitVec 4) (b : BitVec 5)
  /-- OLEN (R147). Returns the length, cursor or scale-area size from the bounds shadow. -/
  | olen (d : BitVec 5) (a : BitVec 4) (s : BitVec 2)
  /-- OTYPE (R147). Returns flags, level, format and type of the named object. -/
  | otype (d : BitVec 5) (a : BitVec 4)
  /-- ROOT (R148). Sets the ROOT flag in the header that the pointer names. -/
  | root (a : BitVec 4)
  /-- UNROOT (R148). Clears the ROOT flag in the header that the pointer names. -/
  | unroot (a : BitVec 4)
  /-- ACQ (R152). Refreshes the path copies from the copy serving the scope and returns its version. -/
  | acq (d : BitVec 5) (a : BitVec 4) (s : BitVec 3)
  /-- REL (R149). Writes dirty bytes down to the copy serving the scope and increments its version. -/
  | rel (d : BitVec 5) (a : BitVec 4) (s : BitVec 3)
  /-- FENCE (R198). Waits for the context's accesses at the scope, optionally for engines, and returns and optionally clears the fence status. -/
  | fence (d : BitVec 5) (l : BitVec 1) (e : BitVec 1) (s : BitVec 3)
  /-- AMO (R192). Performs an indivisible read-modify-write at the port of the scope's copy and returns the old value. -/
  | amo (d : BitVec 5) (a : BitVec 4) (s : BitVec 3) (k : BitVec 2) (o : BitVec 5)
  /-- CAS (R193). Compares and swaps an element indivisibly at the scope's port. -/
  | cas (d : BitVec 5) (a : BitVec 4) (s : BitVec 3) (k : BitVec 2) (c : BitVec 5)
  /-- RED (R194). Queues a reduction at the scope's port and retires. -/
  | red (d : BitVec 5) (a : BitVec 4) (s : BitVec 3) (k : BitVec 2) (o : BitVec 5)
  /-- REDUCTION_PERFORMED (R195). A queued or merged reduction entry is performed indivisibly at its port, or dropped with a fence status bit. -/
  | reductionPerformed (k : Nat)
  /-- HRD (R171). Channel core reads a heap object in place. -/
  | hrd (d : BitVec 5) (a : BitVec 4) (b : BitVec 5) (z : BitVec 2)
  /-- HWR (R171). Channel core writes a heap object in place at its canonical location. -/
  | hwr (d : BitVec 5) (a : BitVec 4) (b : BitVec 5) (z : BitVec 2)
  /-- CPOST (R172). Channel core queues a raw copy from a heap object into a cluster-pad or die-pad object. -/
  | cpost (d : BitVec 4) (a : BitVec 4) (b : BitVec 5)
  /-- CPOST_BARRIER (R172). Queues a cpost that credits the copied bytes to a barrier. -/
  | cpostBarrier (d : BitVec 4) (a : BitVec 4) (b : BitVec 5) (c : BitVec 4)
  /-- CPOST_COMPLETE (R172). A posted copy finishes writing its bytes, credits its barrier and returns EREF counts, or stops on a fault. -/
  | cpostComplete (k : Nat)
  /-- CWAIT (R173). Waits until at most m cpost and hwr operations are outstanding. -/
  | cwait (d : BitVec 5) (a : BitVec 5)
  /-- EVW (R201). Pops an event word from a line of the cluster event unit, waiting if empty. -/
  | evw (d : BitVec 5) (a : BitVec 5)
  /-- EVSIG (R202). Sends an event word to a line of a cluster's event unit. -/
  | evsig (a : BitVec 5) (b : BitVec 5)
  /-- EVENT_WORD_ACCEPTED (R202). A sent event word is accepted by the target unit's line and goes to the earliest waiter. -/
  | eventWordAccepted (k : Nat)
  /-- MTXL (R203). Acquires a cluster mutex and returns its abandoned flag. -/
  | mtxl (d : BitVec 5) (a : BitVec 5)
  /-- MTXU (R203). Releases a held cluster mutex after a cluster fence wait. -/
  | mtxu (a : BitVec 5)
  /-- BINIT (R207). Reinitialises a barrier copy to a new phase and mode. -/
  | binit (d : BitVec 5) (a : BitVec 4) (b : BitVec 5) (s : BitVec 3)
  /-- BPOST (R207). Posts the expected count for the current barrier phase. -/
  | bpost (d : BitVec 5) (a : BitVec 4) (b : BitVec 5) (s : BitVec 3)
  /-- BARR (R208). Releases the core's dirty objects and credits units to a barrier. -/
  | barr (d : BitVec 5) (a : BitVec 4) (b : BitVec 5) (s : BitVec 3)
  /-- BWAIT (R209). Waits for a barrier phase and refreshes the core's copies. -/
  | bwait (d : BitVec 5) (a : BitVec 4) (b : BitVec 5) (s : BitVec 3)
  /-- DQPUSH (R213). Pushes a value at the bottom of a deque copy. -/
  | dqpush (d : BitVec 5) (a : BitVec 4) (b : BitVec 5) (s : BitVec 3)
  /-- DQPOP (R213). Pops the newest element of a deque copy, or 0 if empty. -/
  | dqpop (d : BitVec 5) (a : BitVec 4) (s : BitVec 3)
  /-- DQSTEAL (R213). Takes the oldest element of a deque copy, or 0 if empty. -/
  | dqsteal (d : BitVec 5) (a : BitVec 4) (s : BitVec 3)
  /-- SSTEP (R215). Records the context's arrival and waits to move between compute and exchange phases. -/
  | sstep (d : BitVec 5)
  /-- SUPERSTEP_ADVANCE (R215). When every member has arrived and exchange deliveries are done, the instance moves to the next phase. -/
  | superstepAdvance (k : Nat)
  /-- TENANT_SWITCH (R217). The scheduler switches a tenant out at a device-level superstep boundary with no message in flight. -/
  | tenantSwitch (r : Nat)
  /-- SCREE (R166). Requests a collection pass on a pad area or marks a heap pass pending. -/
  | scree (d : BitVec 5) (a : BitVec 5)
  /-- HEAP_PASS (R165). A pending heap pass runs once every record of the ASID is at a device boundary or not running. -/
  | heapPass (asid : Nat)
  /-- SSTAT (R167). Returns a collection or tier statistic. -/
  | sstat (d : BitVec 5) (a : BitVec 5)
  /-- HSTART (R97). Starts the lowest free helper context at an entry offset. -/
  | hstart (d : BitVec 5) (a : BitVec 5) (b : BitVec 5)
  /-- HJOIN (R99). Waits for a helper to exit, acquires its writes and frees it. -/
  | hjoin (d : BitVec 5) (a : BitVec 5)
  /-- HEXIT (R98). Ends a helper after its instructions and engine work complete. -/
  | hexit (a : BitVec 5)
  /-- HID (R101). Returns the context number and the live and exited masks. -/
  | hid (d : BitVec 5)
  /-- YIELD (R102). Passes the context over until other ready contexts have issued. -/
  | yield
  /-- PARK (R104). Writes a register into spill-map slots with tags. -/
  | park (a : BitVec 5) (b : BitVec 5) (f : BitVec 3)
  /-- UNPARK (R104). Reads spill-map slots back into a register. -/
  | unpark (d : BitVec 5) (b : BitVec 5) (f : BitVec 3)
  /-- TUFT (R106). Joins the core with its neighbours into a lock-step Tuft once all members arrive. -/
  | tuft (d : BitVec 5) (a : BitVec 5)
  /-- SPLIT (R107). Dissolves the Tuft. -/
  | split
  /-- GLAUNCH (R118). Validates a launch record, releases at device scope and queues it on the device launch queue. -/
  | glaunch (d : BitVec 5) (a : BitVec 4)
  /-- VADD (R248). Adds vector elements, optionally saturating. -/
  | vadd (d : BitVec 5) (a : BitVec 5) (b : BitVec 5) (p : BitVec 3) (e : BitVec 2)
  /-- VSUB (R248). Subtracts vector elements, optionally saturating. -/
  | vsub (d : BitVec 5) (a : BitVec 5) (b : BitVec 5) (p : BitVec 3) (e : BitVec 2)
  /-- VMUL (R248). Multiplies vector elements, keeping the low bits. -/
  | vmul (d : BitVec 5) (a : BitVec 5) (b : BitVec 5) (p : BitVec 3) (e : BitVec 2)
  /-- VMIN (R248). Takes the elementwise minimum. -/
  | vmin (d : BitVec 5) (a : BitVec 5) (b : BitVec 5) (p : BitVec 3) (e : BitVec 2)
  /-- VMAX (R248). Takes the elementwise maximum. -/
  | vmax (d : BitVec 5) (a : BitVec 5) (b : BitVec 5) (p : BitVec 3) (e : BitVec 2)
  /-- VABS (R248). Takes the elementwise absolute value. -/
  | vabs (d : BitVec 5) (a : BitVec 5) (p : BitVec 3) (e : BitVec 2)
  /-- VNEG (R248). Negates each element. -/
  | vneg (d : BitVec 5) (a : BitVec 5) (p : BitVec 3) (e : BitVec 2)
  /-- VAND (R248). Elementwise bitwise AND. -/
  | vand (d : BitVec 5) (a : BitVec 5) (b : BitVec 5) (p : BitVec 3) (e : BitVec 2)
  /-- VOR (R248). Elementwise bitwise OR. -/
  | vor (d : BitVec 5) (a : BitVec 5) (b : BitVec 5) (p : BitVec 3) (e : BitVec 2)
  /-- VXOR (R248). Elementwise bitwise XOR. -/
  | vxor (d : BitVec 5) (a : BitVec 5) (b : BitVec 5) (p : BitVec 3) (e : BitVec 2)
  /-- VSLL (R248). Elementwise left shift. -/
  | vsll (d : BitVec 5) (a : BitVec 5) (b : BitVec 5) (p : BitVec 3) (e : BitVec 2)
  /-- VSRL (R248). Elementwise logical right shift. -/
  | vsrl (d : BitVec 5) (a : BitVec 5) (b : BitVec 5) (p : BitVec 3) (e : BitVec 2)
  /-- VSRA (R248). Elementwise arithmetic right shift. -/
  | vsra (d : BitVec 5) (a : BitVec 5) (b : BitVec 5) (p : BitVec 3) (e : BitVec 2)
  /-- VMOV (R248). Copies active elements of va to vd. -/
  | vmov (d : BitVec 5) (a : BitVec 5) (p : BitVec 3) (e : BitVec 2)
  /-- VMOV_EXTRACT (R249). Moves one vector element into an s register, sign- or zero-extended. -/
  | vmovExtract (d : BitVec 5) (a : BitVec 5) (b : BitVec 5) (p : BitVec 3) (e : BitVec 2) (sgn : Bool)
  /-- VMOV_INSERT (R249). Moves the low bits of an s register into one vector element. -/
  | vmovInsert (d : BitVec 5) (a : BitVec 5) (b : BitVec 5) (p : BitVec 3) (e : BitVec 2)
  /-- VBCAST (R248). Broadcasts the low bits of an s register to active elements. -/
  | vbcast (d : BitVec 5) (a : BitVec 5) (p : BitVec 3) (e : BitVec 2)
  /-- VFADD (R250). Floating elementwise addition with one rounding. -/
  | vfadd (d : BitVec 5) (a : BitVec 5) (b : BitVec 5) (p : BitVec 3) (e : BitVec 2)
  /-- VFSUB (R250). Floating elementwise subtraction. -/
  | vfsub (d : BitVec 5) (a : BitVec 5) (b : BitVec 5) (p : BitVec 3) (e : BitVec 2)
  /-- VFMUL (R250). Floating elementwise multiplication. -/
  | vfmul (d : BitVec 5) (a : BitVec 5) (b : BitVec 5) (p : BitVec 3) (e : BitVec 2)
  /-- VFMA (R250). Fused multiply-add into vd with one rounding. -/
  | vfma (d : BitVec 5) (a : BitVec 5) (b : BitVec 5) (p : BitVec 3) (e : BitVec 2)
  /-- VFMS (R250). Fused multiply-subtract from vd with one rounding. -/
  | vfms (d : BitVec 5) (a : BitVec 5) (b : BitVec 5) (p : BitVec 3) (e : BitVec 2)
  /-- VFMIN (R251). Floating elementwise minimum. -/
  | vfmin (d : BitVec 5) (a : BitVec 5) (b : BitVec 5) (p : BitVec 3) (e : BitVec 2)
  /-- VFMAX (R251). Floating elementwise maximum. -/
  | vfmax (d : BitVec 5) (a : BitVec 5) (b : BitVec 5) (p : BitVec 3) (e : BitVec 2)
  /-- VFABS (R251). Clears the sign bit of each active element. -/
  | vfabs (d : BitVec 5) (a : BitVec 5) (p : BitVec 3) (e : BitVec 2)
  /-- VFNEG (R251). Inverts the sign bit of each active element. -/
  | vfneg (d : BitVec 5) (a : BitVec 5) (p : BitVec 3) (e : BitVec 2)
  /-- VCMP (R252). Compares every element and writes the result into a predicate. -/
  | vcmp (c : BitVec 5) (a : BitVec 5) (b : BitVec 5) (p : BitVec 3) (e : BitVec 2)
  /-- VSEL (R253). Selects each element from va or vb by a predicate. -/
  | vsel (d : BitVec 5) (a : BitVec 5) (b : BitVec 5) (p : BitVec 3) (e : BitVec 2)
  /-- PAND (R253). ANDs two predicate registers. -/
  | pand (d : BitVec 3) (a : BitVec 3) (b : BitVec 3)
  /-- POR (R253). ORs two predicate registers. -/
  | por (d : BitVec 3) (a : BitVec 3) (b : BitVec 3)
  /-- PXOR (R253). XORs two predicate registers. -/
  | pxor (d : BitVec 3) (a : BitVec 3) (b : BitVec 3)
  /-- PNOT (R253). Inverts a predicate register. -/
  | pnot (d : BitVec 3) (a : BitVec 3)
  /-- PMOV (R253). Copies a predicate register. -/
  | pmov (d : BitVec 3) (a : BitVec 3)
  /-- VPERM (R254). Permutes elements of va by indices in vb. -/
  | vperm (d : BitVec 5) (a : BitVec 5) (b : BitVec 5) (p : BitVec 3) (e : BitVec 2)
  /-- VRSUM (R256). Sums active elements in a fixed pairwise tree into element 0. -/
  | vrsum (d : BitVec 5) (a : BitVec 5) (p : BitVec 3) (e : BitVec 2)
  /-- VRMAX (R256). Reduces active elements to their maximum in element 0. -/
  | vrmax (d : BitVec 5) (a : BitVec 5) (p : BitVec 3) (e : BitVec 2)
  /-- VRMIN (R256). Reduces active elements to their minimum in element 0. -/
  | vrmin (d : BitVec 5) (a : BitVec 5) (p : BitVec 3) (e : BitVec 2)
  /-- VSCAN (R257). Forms inclusive prefix sums of active elements. -/
  | vscan (d : BitVec 5) (a : BitVec 5) (p : BitVec 3) (e : BitVec 2)
  /-- VSMM (R258). Merges an incoming softmax output register into the held one. -/
  | vsmm (d : BitVec 5) (a : BitVec 5) (b : BitVec 5) (p : BitVec 3)
  /-- VSMM_STAT (R258). Merges the softmax statistics m and l of two states. -/
  | vsmmStat (d : BitVec 5) (a : BitVec 5) (b : BitVec 5) (p : BitVec 3)
  /-- VLD (R261). Loads a vector of contiguous elements from an object. -/
  | vld (v : BitVec 5) (p : BitVec 4) (x : BitVec 5) (q : BitVec 3) (w : BitVec 2) (i : BitVec 5)
  /-- VST (R261). Stores active vector elements contiguously into an object. -/
  | vst (v : BitVec 5) (p : BitVec 4) (x : BitVec 5) (q : BitVec 3) (w : BitVec 2) (i : BitVec 5)
  /-- VGTH (R261). Gathers elements at per-lane offsets from an object. -/
  | vgth (v : BitVec 5) (p : BitVec 4) (x : BitVec 5) (q : BitVec 3) (w : BitVec 2) (i : BitVec 5)
  /-- VSCT (R261). Scatters elements to per-lane offsets in an object. -/
  | vsct (v : BitVec 5) (p : BitVec 4) (x : BitVec 5) (q : BitVec 3) (w : BitVec 2) (i : BitVec 5)
  /-- SBIND (R263). Binds a stream register to an object. -/
  | sbind (d : BitVec 5) (a : BitVec 4) (b : BitVec 5)
  /-- SBND (R263). Sets the extent and stride of one stream dimension. -/
  | sbnd (d : BitVec 5) (a : BitVec 5) (b : BitVec 5) (j : BitVec 2)
  /-- SGO (R264). Checks the whole walk and starts a bound stream. -/
  | sgo (d : BitVec 5) (a : BitVec 5)
  /-- SSTOP (R267). Ends a stream after its pushes take effect and returns the position. -/
  | sstop (d : BitVec 5) (a : BitVec 5)
  /-- VEXP (R270). Computes e to the power of each element. -/
  | vexp (d : BitVec 5) (a : BitVec 5) (p : BitVec 3) (e : BitVec 2)
  /-- VLOG (R270). Computes the natural logarithm of each element. -/
  | vlog (d : BitVec 5) (a : BitVec 5) (p : BitVec 3) (e : BitVec 2)
  /-- VRCP (R270). Computes the correctly rounded reciprocal of each element. -/
  | vrcp (d : BitVec 5) (a : BitVec 5) (p : BitVec 3) (e : BitVec 2)
  /-- VRSQRT (R270). Computes the correctly rounded reciprocal square root. -/
  | vrsqrt (d : BitVec 5) (a : BitVec 5) (p : BitVec 3) (e : BitVec 2)
  /-- VTANH (R270). Computes tanh of each element. -/
  | vtanh (d : BitVec 5) (a : BitVec 5) (p : BitVec 3) (e : BitVec 2)
  /-- VSIN (R270). Computes sin of each element. -/
  | vsin (d : BitVec 5) (a : BitVec 5) (p : BitVec 3) (e : BitVec 2)
  /-- VGRANT (R269). Grants up to N(w) elements for a count and sets the predicate. -/
  | vgrant (d : BitVec 5) (a : BitVec 5) (p : BitVec 3) (w : BitVec 2)
  /-- VGRANT_STREAM (R269). Grants the size of a running stream's next piece and sets the predicate. -/
  | vgrantStream (d : BitVec 5) (a : BitVec 5) (p : BitVec 3)
  /-- CVT (R235). Converts vector elements between formats, filling or reading one part. -/
  | cvt (d : BitVec 5) (a : BitVec 5) (b : BitVec 5) (p : BitVec 3) (e : BitVec 2)
  /-- DEC (R236). Decodes 32 codes through a decode table with block scales into E8M10 lanes. -/
  | dec (d : BitVec 5) (a : BitVec 5) (b : BitVec 5) (p : BitVec 3) (t : BitVec 2)
  /-- ENC (R237). Encodes 32 F32 lanes as codes of a decode table. -/
  | enc (d : BitVec 5) (a : BitVec 5) (b : BitVec 5) (p : BitVec 3) (t : BitVec 2)
  /-- BSCALE (R238). Computes the E8 scale bytes of two 16-lane blocks. -/
  | bscale (d : BitVec 5) (a : BitVec 5) (b : BitVec 5) (p : BitVec 3)
  /-- BSCALE_OBJECT (R238). Computes two scale bytes and also writes them into an object's scale area. -/
  | bscaleObject (d : BitVec 5) (a : BitVec 5) (b : BitVec 5) (p : BitVec 3) (e : BitVec 5)
  /-- DTLD (R240). Validates and loads a decode table into a slot. -/
  | dtld (d : BitVec 5) (a : BitVec 4) (b : BitVec 5)
  /-- SRSEED (R241). Selects a stochastic-rounding stream by setting srctr. -/
  | srseed (d : BitVec 5) (a : BitVec 5)
  /-- FCLASS (R242). Classifies a floating value into a mask. -/
  | fclass (d : BitVec 5) (a : BitVec 5) (f : BitVec 3)
  /-- KLD (R295). Loads 32 bytes of a RAW object into a k register. -/
  | kld (d : BitVec 2) (a : BitVec 4) (b : BitVec 5)
  /-- KST (R295). Stores a k register into 32 bytes of a RAW object. -/
  | kst (d : BitVec 2) (a : BitVec 4) (b : BitVec 5)
  /-- KSET (R296). Writes an s register into one 64-bit word of a k register. -/
  | kset (d : BitVec 2) (a : BitVec 5) (q : BitVec 2)
  /-- KSET_POINTER (R296). Writes an a register's pointer bits into one word of a k register. -/
  | ksetPointer (d : BitVec 2) (a : BitVec 4) (q : BitVec 2)
  /-- WPUSH (R297). Checks a command word, releases and queues it to the WMB in the open batch. -/
  | wpush (d : BitVec 5) (k : BitVec 2)
  /-- WCOMMIT (R298). Closes the open WMB batch. -/
  | wcommit (d : BitVec 5)
  /-- WWAIT (R299). Waits for the commands of covered batches, acquires their bytes and returns the WMB status. -/
  | wwait (d : BitVec 5) (a : BitVec 5)
  /-- WRD (R300). Reads one accumulator entry into an s register. -/
  | wrd (d : BitVec 5) (a : BitVec 4) (b : BitVec 5)
  /-- WRD_ROW (R300). Reads one accumulator row into a vector register. -/
  | wrdRow (d : BitVec 5) (a : BitVec 4) (b : BitVec 5)
  /-- WWR (R300). Writes one accumulator entry from an s register. -/
  | wwr (d : BitVec 4) (a : BitVec 5) (b : BitVec 5)
  /-- WWR_ROW (R300). Writes one accumulator row from a vector register. -/
  | wwrRow (d : BitVec 4) (a : BitVec 5) (b : BitVec 5)
  /-- WZERO (R301). Zeroes the tiles named by a mask. -/
  | wzero (a : BitVec 5)
  /-- WRES (R302). Resumes or drops the core's halted WMB command. -/
  | wres (d : BitVec 5) (a : BitVec 5)
  /-- WSTAT (R303). Returns a WMB statistic, optionally clearing the status flags. -/
  | wstat (d : BitVec 5) (a : BitVec 5)
  /-- PACK (R311). Packs vector elements into a wide register as polynomial coefficients with a guard descriptor. -/
  | pack (d : BitVec 3) (a : BitVec 5) (b : BitVec 5) (t : BitVec 3)
  /-- GWID (R312). Re-lays a packed value at a new slot width and optionally measures its bound. -/
  | gwid (d : BitVec 3) (a : BitVec 3) (b : BitVec 5)
  /-- WMULP (R313). Multiplies two packed operands exactly in fused mode after the guard check. -/
  | wmulp (d : BitVec 3) (a : BitVec 3) (b : BitVec 3)
  /-- WMACP (R313). Adds the exact product of two packed operands to wD after the guard check. -/
  | wmacp (d : BitVec 3) (a : BitVec 3) (b : BitVec 3)
  /-- EXTR (R315). Extracts exact coefficients of a packed value into vector lanes. -/
  | extr (d : BitVec 5) (a : BitVec 3) (b : BitVec 5) (l : BitVec 2)
  /-- CPUSH (R344). Checks a copy command, releases and queues it to the core's copy engine. -/
  | cpush (d : BitVec 5) (k : BitVec 2)
  /-- CPWAIT (R345). Waits until at most m copy commands are in flight and acquires completed commands' bytes. -/
  | cpwait (d : BitVec 5) (a : BitVec 5)
  /-- CPSTAT (R346). Returns a copy-engine statistic. -/
  | cpstat (d : BitVec 5) (a : BitVec 5)
  /-- CPPAGE (R177). Pushes a PAGEIN for CXL-resident heap pages without a record. -/
  | cppage (d : BitVec 5) (a : BitVec 4) (b : BitVec 5)
  /-- CPPAGE_REC (R177). Pushes a PAGEIN for heap pages with a completion record. -/
  | cppageRec (d : BitVec 5) (a : BitVec 4) (b : BitVec 5)
  /-- MSEND (R352). Sends a message of up to seven words to one destination. -/
  | msend (a : BitVec 5) (b : BitVec 5) (c : BitVec 5)
  /-- MRECV (R353). Pops the head message of the receive queue into a vector register. -/
  | mrecv (d : BitVec 5) (a : BitVec 5)
  /-- MCAST (R352). Sends one message to each destination of a range. -/
  | mcast (a : BitVec 5) (b : BitVec 5) (c : BitVec 5)
  /-- MPOLL (R355). Returns the head message header or the message count without popping. -/
  | mpoll (d : BitVec 5) (s : BitVec 1)
  /-- XPUT (R356). Puts up to 64 bytes of a vector register into an object through the network. -/
  | xput (a : BitVec 5) (b : BitVec 4) (c : BitVec 5)
  /-- PUT_PERFORMED (R356). A put reaches its destination and is written indivisibly or dropped with a fence status bit. -/
  | putPerformed (k : Nat)
  /-- MESSAGE_DELIVERY (R349). An arriving message is entered in the receive queue, diverted to the CTXBUF, held back or refused. -/
  | messageDelivery (k : Nat)
  /-- MESSAGE_REFUSAL_TIMEOUT (R349). A message held back 4,096 cycles is discarded and MSGREFUSED is set. -/
  | messageRefusalTimeout (k : Nat)
  /-- KVLK (R372). Looks up a KV position and returns its visibility and residency code. -/
  | kvlk (d : BitVec 5) (a : BitVec 5)
  /-- KVFILL (R368). Installs a clamped page translation in the core's KVTB. -/
  | kvfill (d : BitVec 5) (a : BitVec 5) (b : BitVec 5)
  /-- KVINV (R370). Invalidates the KVTB entries of one page of the table. -/
  | kvinv (d : BitVec 5) (a : BitVec 5)
  /-- KVINV_ALL (R370). Invalidates every entry of the core's KVTB. -/
  | kvinvAll (d : BitVec 5)
  /-- KVAPP (R374). Appends one token row at the end of the sequence, taking a frame if needed. -/
  | kvapp (d : BitVec 5) (a : BitVec 4)
  /-- KVAPP_LINK (R374). Links a whole published page at the end of the sequence. -/
  | kvappLink (d : BitVec 5) (a : BitVec 4)
  /-- KVSPEC (R378). Opens a Fiddlehead window on the table. -/
  | kvspec (d : BitVec 5)
  /-- KVCOMMIT (R380). Keeps the accepted prefix of the window and discards the rest in one step. -/
  | kvcommit (d : BitVec 5) (a : BitVec 5)
  /-- KVABORT (R380). Closes the window committing nothing. -/
  | kvabort (d : BitVec 5)
  /-- KVGET (R373). Reads 128 bytes of a visible token row into a vector register. -/
  | kvget (d : BitVec 5) (a : BitVec 5) (b : BitVec 5)
  /-- KVFREE (R375). Truncates the sequence at a page, returning unreferenced frames. -/
  | kvfree (d : BitVec 5) (a : BitVec 5)
  /-- KVFREE_PUB (R376). Publishes full committed pool pages read-only within the VF. -/
  | kvfreePub (d : BitVec 5) (a : BitVec 5)
  /-- KVFREE_PUBX (R376). Publishes full committed pool pages to every VF, privileged only. -/
  | kvfreePubx (d : BitVec 5) (a : BitVec 5)
  /-- RSVER (R379). Writes a new recurrent-state version, speculative in an open window or committed otherwise. -/
  | rsver (d : BitVec 5) (a : BitVec 4) (b : BitVec 4)
  /-- KVRET (R371). Ends the miss shadow, repeating the lookup or raising TRANSLATE. -/
  | kvret (a : BitVec 5)
  /-- TRAP (R399). Raises SYSCALL with the code, completed, trappc after it. -/
  | trap (h : BitVec 5) (l : BitVec 5)
  /-- TRET (R400). Ends the trap shadow, restores s1-s27 from the frame and resumes at trappc. -/
  | tret
  /-- BRK (R399). Raises BREAK with the code, trappc at the brk. -/
  | brk (h : BitVec 5) (l : BitVec 5)
  /-- HALT (R401). Ends the core's part of the record after helpers and engine work finish, or ends it with a fault in the shadow. -/
  | halt
  /-- WFI (R403). Waits until a cause is pending, a message arrives or an event word is accepted. -/
  | wfi
  /-- CKPT (R408). Writes the coded image of the core into its save object, optionally vacating the core. -/
  | ckpt (d : BitVec 5) (a : BitVec 5)
  /-- RSTOR (R411). Checks and restores the core image from the save object. -/
  | rstor (d : BitVec 5)
  /-- XINV (R404). Posts a service request to the host ring and waits for its reply. -/
  | xinv (d : BitVec 5) (a : BitVec 5) (b : BitVec 5)
  /-- PFX_IMM (R44). Supplies the upper 24 bits of the next instruction's immediate or displacement. -/
  | pfxImm (p : BitVec 24)
  /-- PFX_REG (R44). Supplies a fourth register operand to the next instruction. -/
  | pfxReg (e : BitVec 5)
  /-- PFX_FN (R44). Supplies an extended func to the next instruction. -/
  | pfxFn (x : BitVec 6)
  /-- MMA (R284). WMB command accumulating A times B into a region of tiles. -/
  | mma (cl : Nat) (u : Nat)
  /-- MMAZ (R284). WMB command zeroing the region and then accumulating A times B. -/
  | mmaz (cl : Nat) (u : Nat)
  /-- MMAT (R284). WMB matrix command with B supplied transposed, optionally zeroing first. -/
  | mmat (cl : Nat) (u : Nat)
  /-- ACCST (R286). WMB command storing a region of tiles into a memory object with conversion. -/
  | accst (cl : Nat) (u : Nat)
  /-- ACCLD (R286). WMB command loading a region of tiles from a memory object. -/
  | accld (cl : Nat) (u : Nat)
  /-- PCONV (R319). WMB command forming an exact valid-range convolution into I64 tiles. -/
  | pconv (cl : Nat) (u : Nat)
  /-- PDOT (R321). WMB command forming exact dot products into I64 tiles. -/
  | pdot (cl : Nat) (u : Nat)
  /-- WMB_TILE_JOB_DISPATCH (R272). A freed multiplier is given the next dispatchable tile job by weighted round-robin. -/
  | wmbTileJobDispatch (cl : Nat) (u : Nat) (core : Nat)
  /-- WMB_COMMAND_COMPLETE (R291). A command finishes, returns EREF counts and posts its completion record. -/
  | wmbCommandComplete (core : Nat)
  /-- COPY (R333). Copy-engine command copying rows of raw elements. -/
  | copy (core : Nat) (e : Nat)
  /-- XPOSE (R334). Copy-engine command writing the transpose of a region, possibly in place. -/
  | xpose (core : Nat) (e : Nat)
  /-- GATHER (R335). Copy-engine command copying rows selected by an index list. -/
  | gather (core : Nat) (e : Nat)
  /-- FILL (R336). Copy-engine command writing a pattern over a range. -/
  | fill (core : Nat) (e : Nat)
  /-- PAGEIN (R337). Copy-engine command making heap pages HBM-resident in the tier pool. -/
  | pagein (core : Nat) (e : Nat)
  /-- MIGR (R338). Copy-engine command evicting tier-pool pages or moving them between channel groups. -/
  | migr (core : Nat) (e : Nat)
  /-- COPY_COMMAND_COMPLETE (R340). A copy command finishes or faults, frees its entry, credits and posts its record. -/
  | copyCommandComplete (core : Nat) (e : Nat)
  /-- COPY_IN_COMPLETE (R130). A touch copy-in of an object into a pad finishes and the waiting access proceeds. -/
  | copyInComplete (k : Nat)
  /-- PAGE_REQUEST_ANSWER (R178). The host answers a translation or page request, resuming or failing the waiting access or command. -/
  | pageRequestAnswer (k : Nat) (ans : PageAnswer)
  /-- ATS_INVALIDATION (R179). A host translation invalidation completes after accesses using the old translation. -/
  | atsInvalidation (asid : Nat) (page : Nat) (count : Nat)
  /-- TIER_POOL_RECALL (R176). A host access to a tier-pool page recalls it and writes its dirty lines back. -/
  | tierPoolRecall (asid : Nat) (page : Nat)
  /-- RECORD_DISPATCH (R115). The scheduler places an eligible fitting record on a contiguous interval and starts its cores. -/
  | recordDispatch (q : Nat)
  /-- RECORD_END (R425). When every control context has ended, the record releases its writes, completes and credits its signal. -/
  | recordEnd (r : Nat)
  /-- SLICE_END (R428). A VF's scheduling slice expires and its pre-emptible records are switched out. -/
  | sliceEnd (vf : Nat)
  /-- SWITCH_OUT_TIMEOUT (R428). A record reaching no boundary within 20 us is pre-empted with INTERRUPT PREEMPT. -/
  | switchOutTimeout (r : Nat)
  /-- RESERVATION (R429). A head record waiting 1 ms takes the partition reservation of a window. -/
  | reservation (part : Nat)
  /-- TIMER (R88). TIMER is raised when cycle reaches timercmp with interrupts enabled. -/
  | timer (core : Nat)
  /-- ENGINE_REPORT_TIMEOUT (R397). An unreported engine fault is reported by interrupt after 65,536 cycles. -/
  | engineReportTimeout (core : Nat)
  /-- INTERRUPT_PREEMPT (R405). The scheduler interrupts the core to switch the record out. -/
  | interruptPreempt (core : Nat)
  /-- INTERRUPT_RESUME (R411). The scheduler starts a core to be restored from an image. -/
  | interruptResume (core : Nat) (r : Nat) (lc : Nat)
  /-- INTERRUPT_DEBUG (R394). A host debugger request interrupts the core. -/
  | interruptDebug (core : Nat) (req : BitVec 32)
  /-- CORNICE_TRAP (R415). A checkpoint outcome raises CORNICE at the core's next boundary. -/
  | corniceTrap (core : Nat)
  /-- CORNICE_DISCARD (R416). At D minus T_d any unfinished run or checkpoint is discarded. -/
  | corniceDiscard (k : Nat)
  /-- CORNICE_REPORT (R435). Once the target is vacant, the report is written, released and announced by an event. -/
  | corniceReport (k : Nat)
  /-- PF_DEADLINE_POST (R433). A PF driver posts a Cornice deadline for one of its VFs. -/
  | pfDeadlinePost (pf : Nat) (vf : Nat) (at_ : BitVec 64) (report : BitVec 64)
  /-- DOORBELL (R424). A write of a new tail makes ring records available to the queue. -/
  | doorbell (q : Nat) (tail : BitVec 32)
  /-- FEATACC (R421). The driver writes the accepted feature set while no queue is enabled. -/
  | featacc (fn : Nat) (value : BitVec 64)
  /-- REQHEAD (R426). The host reports its progress through the request ring. -/
  | reqhead (vf : Nat) (value : BitVec 32)
  /-- EVHEAD (R426). The host reports its progress through the event ring. -/
  | evhead (vf : Nat) (value : BitVec 32)
  /-- REPLYSEQ (R426). The host completes the reply to the outstanding request with that sequence number. -/
  | replyseq (vf : Nat) (seq : BitVec 64)
  /-- REGISTER_WRITE (R446). A write to a register with no behaviour of its own stores its value. -/
  | registerWrite (reg : HostReg) (value : BitVec 64)
  /-- QUEUE_CREATE (R423). The driver hands a queue descriptor, which is checked and creates the queue. -/
  | queueCreate (vf : Nat) (num : Nat) (desc : BitVec 512)
  /-- QUEUE_ENABLE (R434). The driver enables a queue again, allowing dispatch and resumption. -/
  | queueEnable (q : Nat)
  /-- QUEUE_DISABLE (R468). The driver disables or deletes a queue, withdrawing undispatched device-launched records. -/
  | queueDisable (q : Nat) (del : Bool)
  /-- ASID_BIND (R420). The driver binds an ASID to a VF and a PASID. -/
  | asidBind (asid : Nat) (vf : Nat) (pasid : Nat) (grants : List Nat)
  /-- ASID_UNBIND (R420). Unbinds an ASID once idle, withdrawing its tier pages and heap regions. -/
  | asidUnbind (asid : Nat)
  /-- SNAPSHOT_REQUEST (R436). Starts a copy-on-write snapshot of a VF's heap pages. -/
  | snapshotRequest (vf : Nat) (area : SnapArea) (dlog : BitVec 64)
  /-- VF_STOP (R437). Stops a VF: checkpoints records, releases writes, writes the dirty log and the stopped status. -/
  | vfStop (vf : Nat)
  /-- KV_MIGRATION (R438). Moves KV objects of a stopped VF to another module over an encrypted session. -/
  | kvMigration (vf : Nat) (mig : KvMove)
  /-- HOST_CXL_MEM_ACCESS (R440). A host CXL.mem access to device HBM, poisoned or dropped for secure memory outside TDISP RUN. -/
  | hostCxlMemAccess (acc : HostAccess)
  /-- SPDM_REQUEST (R451). The responder answers an SPDM request with signed measurements. -/
  | spdmRequest (req : SpdmReq)
  /-- FUNCTION_RESET (R421). A function reset clears FEATACC and the ring head registers. -/
  | functionReset (fn : Nat)
  /-- PCIE_CONVENTIONAL_RESET (R441). A conventional reset returns the device to ROM. -/
  | pcieConventionalReset
  /-- POWER_GOOD (R441). Power good starts the ROM state. -/
  | powerGood
  /-- ROM (R448). Verification of the active or pending image ends ROM in SELFTEST or SAFE. -/
  | rom
  /-- SELFTEST (R443). Self-test completes, passing to LOAD or failing to SAFE. -/
  | selftest (tests : List TestRun)
  /-- LOAD (R441). Firmware placement completes, passing to INIT or failing to SAFE. -/
  | load (pass : Bool)
  /-- INIT (R452). Discovery on every die completes with matching maps, passing to READY or SAFE. -/
  | init
  /-- FATAL_FAULT (R417). A device-level fatal fault discards every record and enters SAFE. -/
  | fatalFault (cls : Nat) (unit : Nat)
  /-- UNCORRECTABLE_ERROR (R453). An uncorrectable error is logged and may poison a KV page or retire its unit. -/
  | uncorrectableError (unit : ErrUnit)
  /-- STATUS (R447). Mailbox command writing state, core and channel counts. -/
  | status
  /-- LOG (R446). Mailbox command copying log entries and clearing EVENT. -/
  | log
  /-- IDENT (R446). Mailbox command copying the identity certificate chain. -/
  | ident
  /-- IMGLOAD (R446). Mailbox command appending bytes to the pending firmware slot. -/
  | imgload
  /-- IMGCOMMIT (R449). Mailbox command verifying the pending image and marking it active for the next reset. -/
  | imgcommit
  /-- RESET (R441). Mailbox command resetting the device to ROM. -/
  | reset
  /-- PARTDEF (R431). Mailbox command writing a Ridge partition descriptor. -/
  | partdef
  /-- REGION (R439). Mailbox command writing a world region-table entry. -/
  | region (secure : Bool)
  /-- DEADLINE (R433). Mailbox command posting a Cornice deadline and choosing outcomes per queue. -/
  | deadline
  /-- RETIRE (R453). Mailbox command retiring a cluster or HBM channel. -/
  | retire
  /-- POWER_LOSS (R449). Loss of power, which may interrupt IMGCOMMIT before its commit flag is written and leave the active slot unchanged. -/
  | powerLoss
  /-- PALBEL_LINK_DEAD (R151). A Palbel link dies, so later write-backs, atomics, reductions and messages across it are dropped with LINKDEAD, and a KV migration aborts. -/
  | palbelLinkDead (port : Nat)
  /-- PALBEL_REQUEST (R189). An access from another module of the load-store domain (atomic, put or write-back) arrives over Palbel and is served at this module's heap port. -/
  | palbelRequest (req : PalbelReq)
  /-- HWR_PERFORMED (R173). A channel core's hwr is performed at the canonical object, which lowers the count of outstanding operations that cwait waits on. -/
  | hwrPerformed (core : Nat)
  /-- MAILBOX_COMMAND_DONE (R446). A running mailbox command finishes, clearing BUSY and setting DONE and LASTERR. -/
  | mailboxCommandDone
  /-- INIT_TIMEOUT (R441). A die reports no map within the INIT bound, and the device enters SAFE. -/
  | initTimeout (die : Nat)
  /-- CORRECTABLE_ERROR (R450). A correctable error in a unit is logged as a class 1 entry. -/
  | correctableError (unit : ErrUnit)
  deriving DecidableEq, Repr

end Sys2Proof
end

