-- ==== Sys2Proof/WellFormed.lean ====
section
/-! DEFINITION. WellFormed: which instructions have no reserved field value (R4, R33, R34), and which units they need
(R49). A field value that a rule refuses with a value of its own, not the word, is refused where the instruction acts. -/

namespace Sys2Proof

/-- The register numbers of a `park` or `unpark` file: `s`, `a`, `v`, tile, wide and command registers (R103). A code of
6 or 7 names no file and is refused with a value of its own. -/
def parkRegFits (f : BitVec 3) (r : BitVec 5) : Bool :=
  if f = 0 then true else if f = 1 then decide (r.toNat < 16) else if f = 2 then true
  else if f = 3 then decide (r.toNat < 16) else if f = 4 then decide (r.toNat < 8)
  else if f = 5 then decide (r.toNat < 4) else true

/-- No field has a value that its entry reserves. -/
def Instr.wf : Instr → Bool
  | .tidx _ _ k => decide (k.toNat ≤ 4)
  | .olen _ _ s => decide (s.toNat ≠ 3)
  | .acq _ _ s => decide (s.toNat ≤ 5)
  | .rel _ _ s => decide (s.toNat ≤ 5)
  | .park a _ f => parkRegFits f a
  | .unpark d _ f => parkRegFits f d
  | .vcmp c _ _ p _ => decide (c.toNat ≤ 5 ∨ (8 ≤ c.toNat ∧ c.toNat ≤ 12)) && decide (p ≠ 0)
  | .pand d _ _ => decide (d ≠ 0)
  | .por d _ _ => decide (d ≠ 0)
  | .pxor d _ _ => decide (d ≠ 0)
  | .pnot d _ => decide (d ≠ 0)
  | .pmov d _ => decide (d ≠ 0)
  | .vmovExtract _ _ _ p _ _ => decide (p = 0)
  | .vmovInsert _ _ _ p _ => decide (p = 0)
  | .vsmmStat _ a _ p => decide (a = 0) && decide (p = 0)
  | .sbind d _ _ => decide (24 ≤ d.toNat)
  | .sbnd d _ _ _ => decide (24 ≤ d.toNat)
  | .sgo _ a => decide (24 ≤ a.toNat)
  | .sstop _ a => decide (24 ≤ a.toNat)
  | .vgrantStream _ a _ => decide (24 ≤ a.toNat)
  | .cvt _ _ b _ e => decide (b.toNat * 4 + e.toNat ≤ 120)
  | .bscale _ _ b _ => decide (b.toNat ≤ 5)
  | .bscaleObject _ _ b _ e => decide (b.toNat ≤ 5) && decide (e.toNat < 16)
  | .fclass _ _ f => decide (f.toNat ≤ 4)
  | .pack _ _ _ t => decide (t.toNat ≤ 6)
  | .extr _ _ _ l => decide (l.toNat ≤ 2)
  | _ => true

/-- Needs the vector unit or the wide arithmetic, which a channel core lacks (R49). -/
def Instr.needsVector : Instr → Bool
  | .vadd .. | .vsub .. | .vmul .. | .vmin .. | .vmax .. | .vabs .. | .vneg .. | .vand .. | .vor .. | .vxor ..
  | .vsll .. | .vsrl .. | .vsra .. | .vmov .. | .vbcast .. | .vfadd .. | .vfsub .. | .vfmul .. | .vfma ..
  | .vfms .. | .vfmin .. | .vfmax .. | .vfabs .. | .vfneg .. | .vcmp .. | .vsel .. | .pand .. | .por ..
  | .pxor .. | .pnot .. | .pmov .. | .vperm .. | .vrsum .. | .vrmax .. | .vrmin .. | .vscan .. | .vsmm ..
  | .vld .. | .vst .. | .vgth .. | .vsct .. | .sbind .. | .sbnd .. | .sgo .. | .sstop .. | .vexp .. | .vlog ..
  | .vrcp .. | .vrsqrt .. | .vtanh .. | .vsin .. | .vgrant .. | .vgrantStream .. | .cvt .. | .dec .. | .enc ..
  | .bscale .. | .wpush .. | .wcommit .. | .wwait .. | .wrd .. | .wrdRow .. | .wwr .. | .wwrRow .. | .wzero ..
  | .wres .. | .wstat .. | .pack .. | .gwid .. | .wmulp .. | .wmacp .. | .extr .. | .vmovExtract ..
  | .vmovInsert .. | .vsmmStat .. | .bscaleObject .. => true
  | _ => false

/-- Runs on channel cores only (R49). -/
def Instr.needsChannel : Instr → Bool
  | .hrd .. | .hwr .. | .cpost .. | .cpostBarrier .. | .cwait .. => true
  | _ => false

end Sys2Proof
end

