-- ==== Sys2Proof/Decode.lean ====
section
/-! DEFINITION. Decode: a word is read by its major opcode and the fields of its format (R40, R48); every word that no
row of the opcode table matches is rejected by name. The words are handled as numbers, bit k of the word being the
coefficient of 2^k, so that a field [hi:lo] is (w / 2^lo) mod 2^(hi-lo+1). -/

namespace Sys2Proof

/-- Why a word is no instruction. All of them raise ILLEGAL (R4, R48). -/
inductive Reject where
  /-- The major opcode is reserved. -/
  | reservedMajor
  /-- The function is unassigned, or a reserved field is not zero. -/
  | unassigned
  /-- Fewer than four bytes are left. -/
  | tooShort
  /-- The prefix may not govern the word after it (R45). -/
  | badPair
  deriving DecidableEq, Repr


/-- Words of major 0x01 (R48). -/
def decodeMajor01 (w : Nat) : Except Reject Instr :=
  if w % 2048 = 0 then .ok (.add (BitVec.ofNat 5 (w / 2097152)) (BitVec.ofNat 5 (w / 65536)) (BitVec.ofNat 5 (w / 2048)))
  else if w % 2048 = 1 then .ok (.sub (BitVec.ofNat 5 (w / 2097152)) (BitVec.ofNat 5 (w / 65536)) (BitVec.ofNat 5 (w / 2048)))
  else if w % 2048 = 2 then .ok (.and (BitVec.ofNat 5 (w / 2097152)) (BitVec.ofNat 5 (w / 65536)) (BitVec.ofNat 5 (w / 2048)))
  else if w % 2048 = 3 then .ok (.or (BitVec.ofNat 5 (w / 2097152)) (BitVec.ofNat 5 (w / 65536)) (BitVec.ofNat 5 (w / 2048)))
  else if w % 2048 = 4 then .ok (.xor (BitVec.ofNat 5 (w / 2097152)) (BitVec.ofNat 5 (w / 65536)) (BitVec.ofNat 5 (w / 2048)))
  else if w % 2048 = 5 then .ok (.sll (BitVec.ofNat 5 (w / 2097152)) (BitVec.ofNat 5 (w / 65536)) (BitVec.ofNat 5 (w / 2048)))
  else if w % 2048 = 6 then .ok (.srl (BitVec.ofNat 5 (w / 2097152)) (BitVec.ofNat 5 (w / 65536)) (BitVec.ofNat 5 (w / 2048)))
  else if w % 2048 = 7 then .ok (.sra (BitVec.ofNat 5 (w / 2097152)) (BitVec.ofNat 5 (w / 65536)) (BitVec.ofNat 5 (w / 2048)))
  else if w % 2048 = 8 then .ok (.slt (BitVec.ofNat 5 (w / 2097152)) (BitVec.ofNat 5 (w / 65536)) (BitVec.ofNat 5 (w / 2048)))
  else if w % 2048 = 9 then .ok (.sltu (BitVec.ofNat 5 (w / 2097152)) (BitVec.ofNat 5 (w / 65536)) (BitVec.ofNat 5 (w / 2048)))
  else if w % 2048 = 10 then .ok (.min (BitVec.ofNat 5 (w / 2097152)) (BitVec.ofNat 5 (w / 65536)) (BitVec.ofNat 5 (w / 2048)))
  else if w % 2048 = 11 then .ok (.max (BitVec.ofNat 5 (w / 2097152)) (BitVec.ofNat 5 (w / 65536)) (BitVec.ofNat 5 (w / 2048)))
  else if w % 2048 = 12 then .ok (.minu (BitVec.ofNat 5 (w / 2097152)) (BitVec.ofNat 5 (w / 65536)) (BitVec.ofNat 5 (w / 2048)))
  else if w % 2048 = 13 then .ok (.maxu (BitVec.ofNat 5 (w / 2097152)) (BitVec.ofNat 5 (w / 65536)) (BitVec.ofNat 5 (w / 2048)))
  else if w % 2048 = 14 then .ok (.mul (BitVec.ofNat 5 (w / 2097152)) (BitVec.ofNat 5 (w / 65536)) (BitVec.ofNat 5 (w / 2048)))
  else if w % 2048 = 15 then .ok (.mulh (BitVec.ofNat 5 (w / 2097152)) (BitVec.ofNat 5 (w / 65536)) (BitVec.ofNat 5 (w / 2048)))
  else if w % 2048 = 16 then .ok (.mulhu (BitVec.ofNat 5 (w / 2097152)) (BitVec.ofNat 5 (w / 65536)) (BitVec.ofNat 5 (w / 2048)))
  else if w % 2048 = 17 then .ok (.div (BitVec.ofNat 5 (w / 2097152)) (BitVec.ofNat 5 (w / 65536)) (BitVec.ofNat 5 (w / 2048)))
  else if w % 2048 = 18 then .ok (.divu (BitVec.ofNat 5 (w / 2097152)) (BitVec.ofNat 5 (w / 65536)) (BitVec.ofNat 5 (w / 2048)))
  else if w % 2048 = 19 then .ok (.rem (BitVec.ofNat 5 (w / 2097152)) (BitVec.ofNat 5 (w / 65536)) (BitVec.ofNat 5 (w / 2048)))
  else if w % 2048 = 20 then .ok (.remu (BitVec.ofNat 5 (w / 2097152)) (BitVec.ofNat 5 (w / 65536)) (BitVec.ofNat 5 (w / 2048)))
  else if w % 65536 = 21 then .ok (.clz (BitVec.ofNat 5 (w / 2097152)) (BitVec.ofNat 5 (w / 65536)))
  else if w % 65536 = 22 then .ok (.ctz (BitVec.ofNat 5 (w / 2097152)) (BitVec.ofNat 5 (w / 65536)))
  else if w % 65536 = 23 then .ok (.popc (BitVec.ofNat 5 (w / 2097152)) (BitVec.ofNat 5 (w / 65536)))
  else if w % 64 = 24 then .ok (.sel (BitVec.ofNat 5 (w / 2097152)) (BitVec.ofNat 5 (w / 65536)) (BitVec.ofNat 5 (w / 2048)) (BitVec.ofNat 5 (w / 64)))
  else .error .unassigned

/-- Words of major 0x02 (R48). -/
def decodeMajor02 (w : Nat) : Except Reject Instr :=
  .ok (.addi (BitVec.ofNat 5 (w / 2097152)) (BitVec.ofNat 5 (w / 65536)) (BitVec.ofNat 16 w))

/-- Words of major 0x03 (R48). -/
def decodeMajor03 (w : Nat) : Except Reject Instr :=
  .ok (.andi (BitVec.ofNat 5 (w / 2097152)) (BitVec.ofNat 5 (w / 65536)) (BitVec.ofNat 16 w))

/-- Words of major 0x04 (R48). -/
def decodeMajor04 (w : Nat) : Except Reject Instr :=
  .ok (.ori (BitVec.ofNat 5 (w / 2097152)) (BitVec.ofNat 5 (w / 65536)) (BitVec.ofNat 16 w))

/-- Words of major 0x05 (R48). -/
def decodeMajor05 (w : Nat) : Except Reject Instr :=
  .ok (.xori (BitVec.ofNat 5 (w / 2097152)) (BitVec.ofNat 5 (w / 65536)) (BitVec.ofNat 16 w))

/-- Words of major 0x06 (R48). -/
def decodeMajor06 (w : Nat) : Except Reject Instr :=
  .ok (.slti (BitVec.ofNat 5 (w / 2097152)) (BitVec.ofNat 5 (w / 65536)) (BitVec.ofNat 16 w))

/-- Words of major 0x07 (R48). -/
def decodeMajor07 (w : Nat) : Except Reject Instr :=
  .ok (.sltiu (BitVec.ofNat 5 (w / 2097152)) (BitVec.ofNat 5 (w / 65536)) (BitVec.ofNat 16 w))

/-- Words of major 0x08 (R48). -/
def decodeMajor08 (w : Nat) : Except Reject Instr :=
  if w / 128 % 16 = 0 ∧ w % 64 = 0 then .ok (.slli (BitVec.ofNat 5 (w / 2097152)) (BitVec.ofNat 5 (w / 65536)) (BitVec.ofNat 5 (w / 2048)) (BitVec.ofNat 1 (w / 64)))
  else if w / 128 % 16 = 0 ∧ w % 64 = 1 then .ok (.srli (BitVec.ofNat 5 (w / 2097152)) (BitVec.ofNat 5 (w / 65536)) (BitVec.ofNat 5 (w / 2048)) (BitVec.ofNat 1 (w / 64)))
  else if w / 128 % 16 = 0 ∧ w % 64 = 2 then .ok (.srai (BitVec.ofNat 5 (w / 2097152)) (BitVec.ofNat 5 (w / 65536)) (BitVec.ofNat 5 (w / 2048)) (BitVec.ofNat 1 (w / 64)))
  else .error .unassigned

/-- Words of major 0x09 (R48). -/
def decodeMajor09 (w : Nat) : Except Reject Instr :=
  if w / 262144 % 8 = 0 then .ok (.lhi (BitVec.ofNat 5 (w / 2097152)) (BitVec.ofNat 2 (w / 65536)) (BitVec.ofNat 16 w))
  else .error .unassigned

/-- Words of major 0x0A (R48). -/
def decodeMajor0A (w : Nat) : Except Reject Instr :=
  if w / 8192 % 8 = 0 then .ok (.beq (BitVec.ofNat 5 (w / 2097152)) (BitVec.ofNat 5 (w / 65536)) (BitVec.ofNat 13 w))
  else if w / 8192 % 8 = 1 then .ok (.bne (BitVec.ofNat 5 (w / 2097152)) (BitVec.ofNat 5 (w / 65536)) (BitVec.ofNat 13 w))
  else if w / 8192 % 8 = 2 then .ok (.blt (BitVec.ofNat 5 (w / 2097152)) (BitVec.ofNat 5 (w / 65536)) (BitVec.ofNat 13 w))
  else if w / 8192 % 8 = 3 then .ok (.bge (BitVec.ofNat 5 (w / 2097152)) (BitVec.ofNat 5 (w / 65536)) (BitVec.ofNat 13 w))
  else if w / 8192 % 8 = 4 then .ok (.bltu (BitVec.ofNat 5 (w / 2097152)) (BitVec.ofNat 5 (w / 65536)) (BitVec.ofNat 13 w))
  else if w / 8192 % 8 = 5 then .ok (.bgeu (BitVec.ofNat 5 (w / 2097152)) (BitVec.ofNat 5 (w / 65536)) (BitVec.ofNat 13 w))
  else .error .unassigned

/-- Words of major 0x0B (R48). -/
def decodeMajor0B (w : Nat) : Except Reject Instr :=
  .ok (.jal (BitVec.ofNat 5 (w / 2097152)) (BitVec.ofNat 21 w))

/-- Words of major 0x0C (R48). -/
def decodeMajor0C (w : Nat) : Except Reject Instr :=
  .ok (.jalr (BitVec.ofNat 5 (w / 2097152)) (BitVec.ofNat 5 (w / 65536)) (BitVec.ofNat 16 w))

/-- Words of major 0x0D (R48). -/
def decodeMajor0D (w : Nat) : Except Reject Instr :=
  if w / 512 % 128 = 0 ∧ w % 64 = 0 then .ok (.tidx (BitVec.ofNat 5 (w / 2097152)) (BitVec.ofNat 5 (w / 65536)) (BitVec.ofNat 3 (w / 64)))
  else if w / 1048576 % 2 = 0 ∧ w % 2048 = 1 then .ok (.shp (BitVec.ofNat 5 (w / 2097152)) (BitVec.ofNat 4 (w / 65536)) (BitVec.ofNat 5 (w / 2048)))
  else .error .unassigned

/-- Words of major 0x0E (R48). -/
def decodeMajor0E (w : Nat) : Except Reject Instr :=
  if w / 4096 % 512 = 0 then .ok (.crd (BitVec.ofNat 5 (w / 2097152)) (BitVec.ofNat 12 w))
  else if w / 4096 % 16 = 1 then .ok (.crw (BitVec.ofNat 5 (w / 2097152)) (BitVec.ofNat 5 (w / 65536)) (BitVec.ofNat 12 w))
  else if w / 4096 % 16 = 2 then .ok (.crs (BitVec.ofNat 5 (w / 2097152)) (BitVec.ofNat 5 (w / 65536)) (BitVec.ofNat 12 w))
  else if w / 4096 % 16 = 3 then .ok (.crc (BitVec.ofNat 5 (w / 2097152)) (BitVec.ofNat 5 (w / 65536)) (BitVec.ofNat 12 w))
  else .error .unassigned

/-- Words of major 0x10 (R48). -/
def decodeMajor10 (w : Nat) : Except Reject Instr :=
  .ok (.ld (BitVec.ofNat 5 (w / 2097152)) (BitVec.ofNat 4 (w / 131072)) (BitVec.ofNat 5 (w / 4096)) (BitVec.ofNat 2 (w / 1024)) (BitVec.ofNat 10 w))

/-- Words of major 0x11 (R48). -/
def decodeMajor11 (w : Nat) : Except Reject Instr :=
  .ok (.st (BitVec.ofNat 5 (w / 2097152)) (BitVec.ofNat 4 (w / 131072)) (BitVec.ofNat 5 (w / 4096)) (BitVec.ofNat 2 (w / 1024)) (BitVec.ofNat 10 w))

/-- Words of major 0x12 (R48). -/
def decodeMajor12 (w : Nat) : Except Reject Instr :=
  if w / 33554432 % 2 = 0 ∧ w / 1024 % 4 = 0 then .ok (.lda (BitVec.ofNat 4 (w / 2097152)) (BitVec.ofNat 4 (w / 131072)) (BitVec.ofNat 5 (w / 4096)) (BitVec.ofNat 10 w))
  else if w / 33554432 % 2 = 0 ∧ w / 1024 % 4 = 1 then .ok (.sta (BitVec.ofNat 4 (w / 2097152)) (BitVec.ofNat 4 (w / 131072)) (BitVec.ofNat 5 (w / 4096)) (BitVec.ofNat 10 w))
  else .error .unassigned

/-- Words of major 0x13 (R48). -/
def decodeMajor13 (w : Nat) : Except Reject Instr :=
  if w / 1048576 % 2 = 0 ∧ w % 65536 = 0 then .ok (.touch (BitVec.ofNat 5 (w / 2097152)) (BitVec.ofNat 4 (w / 65536)))
  else if w / 33554432 % 2 = 0 ∧ w % 2048 = 1 then .ok (.alloc (BitVec.ofNat 4 (w / 2097152)) (BitVec.ofNat 5 (w / 65536)) (BitVec.ofNat 5 (w / 2048)))
  else if w / 33554432 % 2 = 0 ∧ w / 1048576 % 2 = 0 ∧ w % 2048 = 2 then .ok (.acurSet (BitVec.ofNat 4 (w / 2097152)) (BitVec.ofNat 4 (w / 65536)) (BitVec.ofNat 5 (w / 2048)))
  else if w / 33554432 % 2 = 0 ∧ w / 1048576 % 2 = 0 ∧ w % 2048 = 66 then .ok (.acurAdd (BitVec.ofNat 4 (w / 2097152)) (BitVec.ofNat 4 (w / 65536)) (BitVec.ofNat 5 (w / 2048)))
  else if w / 1048576 % 2 = 0 ∧ w / 256 % 256 = 0 ∧ w % 64 = 3 then .ok (.olen (BitVec.ofNat 5 (w / 2097152)) (BitVec.ofNat 4 (w / 65536)) (BitVec.ofNat 2 (w / 64)))
  else if w / 1048576 % 2 = 0 ∧ w % 65536 = 4 then .ok (.otype (BitVec.ofNat 5 (w / 2097152)) (BitVec.ofNat 4 (w / 65536)))
  else if w / 1048576 % 64 = 0 ∧ w % 65536 = 5 then .ok (.root (BitVec.ofNat 4 (w / 65536)))
  else if w / 1048576 % 64 = 0 ∧ w % 65536 = 6 then .ok (.unroot (BitVec.ofNat 4 (w / 65536)))
  else if w / 1048576 % 2 = 0 ∧ w / 512 % 128 = 0 ∧ w % 64 = 7 then .ok (.acq (BitVec.ofNat 5 (w / 2097152)) (BitVec.ofNat 4 (w / 65536)) (BitVec.ofNat 3 (w / 64)))
  else if w / 1048576 % 2 = 0 ∧ w / 512 % 128 = 0 ∧ w % 64 = 8 then .ok (.rel (BitVec.ofNat 5 (w / 2097152)) (BitVec.ofNat 4 (w / 65536)) (BitVec.ofNat 3 (w / 64)))
  else .error .unassigned

/-- Words of major 0x14 (R48). -/
def decodeMajor14 (w : Nat) : Except Reject Instr :=
  if w / 32 % 65536 = 0 then .ok (.fence (BitVec.ofNat 5 (w / 2097152)) (BitVec.ofNat 1 (w / 16)) (BitVec.ofNat 1 (w / 8)) (BitVec.ofNat 3 w))
  else .error .unassigned

/-- Words of major 0x15 (R48). -/
def decodeMajor15 (w : Nat) : Except Reject Instr :=
  if w / 1048576 % 2 = 0 ∧ w % 64 = 0 then .ok (.amo (BitVec.ofNat 5 (w / 2097152)) (BitVec.ofNat 4 (w / 65536)) (BitVec.ofNat 3 (w / 8192)) (BitVec.ofNat 2 (w / 2048)) (BitVec.ofNat 5 (w / 64)))
  else .error .unassigned

/-- Words of major 0x16 (R48). -/
def decodeMajor16 (w : Nat) : Except Reject Instr :=
  if w / 1048576 % 2 = 0 ∧ w % 64 = 0 then .ok (.cas (BitVec.ofNat 5 (w / 2097152)) (BitVec.ofNat 4 (w / 65536)) (BitVec.ofNat 3 (w / 8192)) (BitVec.ofNat 2 (w / 2048)) (BitVec.ofNat 5 (w / 64)))
  else if w / 1048576 % 2 = 0 ∧ w % 64 = 1 then .ok (.red (BitVec.ofNat 5 (w / 2097152)) (BitVec.ofNat 4 (w / 65536)) (BitVec.ofNat 3 (w / 8192)) (BitVec.ofNat 2 (w / 2048)) (BitVec.ofNat 5 (w / 64)))
  else .error .unassigned

/-- Words of major 0x17 (R48). -/
def decodeMajor17 (w : Nat) : Except Reject Instr :=
  if w / 1048576 % 2 = 0 ∧ w / 256 % 8 = 0 ∧ w % 64 = 0 then .ok (.hrd (BitVec.ofNat 5 (w / 2097152)) (BitVec.ofNat 4 (w / 65536)) (BitVec.ofNat 5 (w / 2048)) (BitVec.ofNat 2 (w / 64)))
  else if w / 1048576 % 2 = 0 ∧ w / 256 % 8 = 0 ∧ w % 64 = 1 then .ok (.hwr (BitVec.ofNat 5 (w / 2097152)) (BitVec.ofNat 4 (w / 65536)) (BitVec.ofNat 5 (w / 2048)) (BitVec.ofNat 2 (w / 64)))
  else if w / 33554432 % 2 = 0 ∧ w / 1048576 % 2 = 0 ∧ w % 2048 = 2 then .ok (.cpost (BitVec.ofNat 4 (w / 2097152)) (BitVec.ofNat 4 (w / 65536)) (BitVec.ofNat 5 (w / 2048)))
  else if w / 33554432 % 2 = 0 ∧ w / 1048576 % 2 = 0 ∧ w / 1024 % 2 = 1 ∧ w % 64 = 2 then .ok (.cpostBarrier (BitVec.ofNat 4 (w / 2097152)) (BitVec.ofNat 4 (w / 65536)) (BitVec.ofNat 5 (w / 2048)) (BitVec.ofNat 4 (w / 64)))
  else if w % 65536 = 3 then .ok (.cwait (BitVec.ofNat 5 (w / 2097152)) (BitVec.ofNat 5 (w / 65536)))
  else .error .unassigned

/-- Words of major 0x18 (R48). -/
def decodeMajor18 (w : Nat) : Except Reject Instr :=
  if w % 65536 = 0 then .ok (.evw (BitVec.ofNat 5 (w / 2097152)) (BitVec.ofNat 5 (w / 65536)))
  else if w / 2097152 % 32 = 0 ∧ w % 2048 = 1 then .ok (.evsig (BitVec.ofNat 5 (w / 65536)) (BitVec.ofNat 5 (w / 2048)))
  else if w % 65536 = 2 then .ok (.mtxl (BitVec.ofNat 5 (w / 2097152)) (BitVec.ofNat 5 (w / 65536)))
  else if w / 2097152 % 32 = 0 ∧ w % 65536 = 3 then .ok (.mtxu (BitVec.ofNat 5 (w / 65536)))
  else .error .unassigned

/-- Words of major 0x19 (R48). -/
def decodeMajor19 (w : Nat) : Except Reject Instr :=
  if w / 1048576 % 2 = 0 ∧ w / 512 % 4 = 0 ∧ w % 64 = 0 then .ok (.binit (BitVec.ofNat 5 (w / 2097152)) (BitVec.ofNat 4 (w / 65536)) (BitVec.ofNat 5 (w / 2048)) (BitVec.ofNat 3 (w / 64)))
  else if w / 1048576 % 2 = 0 ∧ w / 512 % 4 = 0 ∧ w % 64 = 1 then .ok (.bpost (BitVec.ofNat 5 (w / 2097152)) (BitVec.ofNat 4 (w / 65536)) (BitVec.ofNat 5 (w / 2048)) (BitVec.ofNat 3 (w / 64)))
  else if w / 1048576 % 2 = 0 ∧ w / 512 % 4 = 0 ∧ w % 64 = 2 then .ok (.barr (BitVec.ofNat 5 (w / 2097152)) (BitVec.ofNat 4 (w / 65536)) (BitVec.ofNat 5 (w / 2048)) (BitVec.ofNat 3 (w / 64)))
  else if w / 1048576 % 2 = 0 ∧ w / 512 % 4 = 0 ∧ w % 64 = 3 then .ok (.bwait (BitVec.ofNat 5 (w / 2097152)) (BitVec.ofNat 4 (w / 65536)) (BitVec.ofNat 5 (w / 2048)) (BitVec.ofNat 3 (w / 64)))
  else .error .unassigned

/-- Words of major 0x1A (R48). -/
def decodeMajor1A (w : Nat) : Except Reject Instr :=
  if w / 1048576 % 2 = 0 ∧ w / 512 % 4 = 0 ∧ w % 64 = 0 then .ok (.dqpush (BitVec.ofNat 5 (w / 2097152)) (BitVec.ofNat 4 (w / 65536)) (BitVec.ofNat 5 (w / 2048)) (BitVec.ofNat 3 (w / 64)))
  else if w / 1048576 % 2 = 0 ∧ w / 512 % 128 = 0 ∧ w % 64 = 1 then .ok (.dqpop (BitVec.ofNat 5 (w / 2097152)) (BitVec.ofNat 4 (w / 65536)) (BitVec.ofNat 3 (w / 64)))
  else if w / 1048576 % 2 = 0 ∧ w / 512 % 128 = 0 ∧ w % 64 = 2 then .ok (.dqsteal (BitVec.ofNat 5 (w / 2097152)) (BitVec.ofNat 4 (w / 65536)) (BitVec.ofNat 3 (w / 64)))
  else .error .unassigned

/-- Words of major 0x1B (R48). -/
def decodeMajor1B (w : Nat) : Except Reject Instr :=
  if w % 2097152 = 0 then .ok (.sstep (BitVec.ofNat 5 (w / 2097152)))
  else if w % 65536 = 1 then .ok (.scree (BitVec.ofNat 5 (w / 2097152)) (BitVec.ofNat 5 (w / 65536)))
  else if w % 65536 = 2 then .ok (.sstat (BitVec.ofNat 5 (w / 2097152)) (BitVec.ofNat 5 (w / 65536)))
  else .error .unassigned

/-- Words of major 0x1C (R48). -/
def decodeMajor1C (w : Nat) : Except Reject Instr :=
  if w % 2048 = 0 then .ok (.hstart (BitVec.ofNat 5 (w / 2097152)) (BitVec.ofNat 5 (w / 65536)) (BitVec.ofNat 5 (w / 2048)))
  else if w % 65536 = 1 then .ok (.hjoin (BitVec.ofNat 5 (w / 2097152)) (BitVec.ofNat 5 (w / 65536)))
  else if w / 2097152 % 32 = 0 ∧ w % 65536 = 2 then .ok (.hexit (BitVec.ofNat 5 (w / 65536)))
  else if w % 2097152 = 3 then .ok (.hid (BitVec.ofNat 5 (w / 2097152)))
  else if w % 67108864 = 4 then .ok (.yield)
  else if w / 2097152 % 32 = 0 ∧ w / 512 % 4 = 0 ∧ w % 64 = 5 then .ok (.park (BitVec.ofNat 5 (w / 65536)) (BitVec.ofNat 5 (w / 2048)) (BitVec.ofNat 3 (w / 64)))
  else if w / 65536 % 32 = 0 ∧ w / 512 % 4 = 0 ∧ w % 64 = 6 then .ok (.unpark (BitVec.ofNat 5 (w / 2097152)) (BitVec.ofNat 5 (w / 2048)) (BitVec.ofNat 3 (w / 64)))
  else .error .unassigned

/-- Words of major 0x1D (R48). -/
def decodeMajor1D (w : Nat) : Except Reject Instr :=
  if w % 65536 = 0 then .ok (.tuft (BitVec.ofNat 5 (w / 2097152)) (BitVec.ofNat 5 (w / 65536)))
  else if w % 67108864 = 1 then .ok (.split)
  else .error .unassigned

/-- Words of major 0x1E (R48). -/
def decodeMajor1E (w : Nat) : Except Reject Instr :=
  if w / 1048576 % 2 = 0 ∧ w % 65536 = 0 then .ok (.glaunch (BitVec.ofNat 5 (w / 2097152)) (BitVec.ofNat 4 (w / 65536)))
  else .error .unassigned

/-- Words of major 0x20 (R48). -/
def decodeMajor20 (w : Nat) : Except Reject Instr :=
  if w % 64 = 0 then .ok (.vadd (BitVec.ofNat 5 (w / 2097152)) (BitVec.ofNat 5 (w / 65536)) (BitVec.ofNat 5 (w / 2048)) (BitVec.ofNat 3 (w / 256)) (BitVec.ofNat 2 (w / 64)))
  else if w % 64 = 1 then .ok (.vsub (BitVec.ofNat 5 (w / 2097152)) (BitVec.ofNat 5 (w / 65536)) (BitVec.ofNat 5 (w / 2048)) (BitVec.ofNat 3 (w / 256)) (BitVec.ofNat 2 (w / 64)))
  else if w % 64 = 2 then .ok (.vmul (BitVec.ofNat 5 (w / 2097152)) (BitVec.ofNat 5 (w / 65536)) (BitVec.ofNat 5 (w / 2048)) (BitVec.ofNat 3 (w / 256)) (BitVec.ofNat 2 (w / 64)))
  else if w % 64 = 3 then .ok (.vmin (BitVec.ofNat 5 (w / 2097152)) (BitVec.ofNat 5 (w / 65536)) (BitVec.ofNat 5 (w / 2048)) (BitVec.ofNat 3 (w / 256)) (BitVec.ofNat 2 (w / 64)))
  else if w % 64 = 4 then .ok (.vmax (BitVec.ofNat 5 (w / 2097152)) (BitVec.ofNat 5 (w / 65536)) (BitVec.ofNat 5 (w / 2048)) (BitVec.ofNat 3 (w / 256)) (BitVec.ofNat 2 (w / 64)))
  else if w / 2048 % 32 = 0 ∧ w % 64 = 5 then .ok (.vabs (BitVec.ofNat 5 (w / 2097152)) (BitVec.ofNat 5 (w / 65536)) (BitVec.ofNat 3 (w / 256)) (BitVec.ofNat 2 (w / 64)))
  else if w / 2048 % 32 = 0 ∧ w % 64 = 6 then .ok (.vneg (BitVec.ofNat 5 (w / 2097152)) (BitVec.ofNat 5 (w / 65536)) (BitVec.ofNat 3 (w / 256)) (BitVec.ofNat 2 (w / 64)))
  else if w % 64 = 7 then .ok (.vand (BitVec.ofNat 5 (w / 2097152)) (BitVec.ofNat 5 (w / 65536)) (BitVec.ofNat 5 (w / 2048)) (BitVec.ofNat 3 (w / 256)) (BitVec.ofNat 2 (w / 64)))
  else if w % 64 = 8 then .ok (.vor (BitVec.ofNat 5 (w / 2097152)) (BitVec.ofNat 5 (w / 65536)) (BitVec.ofNat 5 (w / 2048)) (BitVec.ofNat 3 (w / 256)) (BitVec.ofNat 2 (w / 64)))
  else if w % 64 = 9 then .ok (.vxor (BitVec.ofNat 5 (w / 2097152)) (BitVec.ofNat 5 (w / 65536)) (BitVec.ofNat 5 (w / 2048)) (BitVec.ofNat 3 (w / 256)) (BitVec.ofNat 2 (w / 64)))
  else if w % 64 = 10 then .ok (.vsll (BitVec.ofNat 5 (w / 2097152)) (BitVec.ofNat 5 (w / 65536)) (BitVec.ofNat 5 (w / 2048)) (BitVec.ofNat 3 (w / 256)) (BitVec.ofNat 2 (w / 64)))
  else if w % 64 = 11 then .ok (.vsrl (BitVec.ofNat 5 (w / 2097152)) (BitVec.ofNat 5 (w / 65536)) (BitVec.ofNat 5 (w / 2048)) (BitVec.ofNat 3 (w / 256)) (BitVec.ofNat 2 (w / 64)))
  else if w % 64 = 12 then .ok (.vsra (BitVec.ofNat 5 (w / 2097152)) (BitVec.ofNat 5 (w / 65536)) (BitVec.ofNat 5 (w / 2048)) (BitVec.ofNat 3 (w / 256)) (BitVec.ofNat 2 (w / 64)))
  else if w / 2048 % 32 = 0 ∧ w % 64 = 13 then .ok (.vmov (BitVec.ofNat 5 (w / 2097152)) (BitVec.ofNat 5 (w / 65536)) (BitVec.ofNat 3 (w / 256)) (BitVec.ofNat 2 (w / 64)))
  else if w / 2048 % 32 = 0 ∧ w % 64 = 14 then .ok (.vbcast (BitVec.ofNat 5 (w / 2097152)) (BitVec.ofNat 5 (w / 65536)) (BitVec.ofNat 3 (w / 256)) (BitVec.ofNat 2 (w / 64)))
  else .error .unassigned

/-- Words of major 0x21 (R48). -/
def decodeMajor21 (w : Nat) : Except Reject Instr :=
  if w % 64 = 0 then .ok (.vfadd (BitVec.ofNat 5 (w / 2097152)) (BitVec.ofNat 5 (w / 65536)) (BitVec.ofNat 5 (w / 2048)) (BitVec.ofNat 3 (w / 256)) (BitVec.ofNat 2 (w / 64)))
  else if w % 64 = 1 then .ok (.vfsub (BitVec.ofNat 5 (w / 2097152)) (BitVec.ofNat 5 (w / 65536)) (BitVec.ofNat 5 (w / 2048)) (BitVec.ofNat 3 (w / 256)) (BitVec.ofNat 2 (w / 64)))
  else if w % 64 = 2 then .ok (.vfmul (BitVec.ofNat 5 (w / 2097152)) (BitVec.ofNat 5 (w / 65536)) (BitVec.ofNat 5 (w / 2048)) (BitVec.ofNat 3 (w / 256)) (BitVec.ofNat 2 (w / 64)))
  else if w % 64 = 3 then .ok (.vfma (BitVec.ofNat 5 (w / 2097152)) (BitVec.ofNat 5 (w / 65536)) (BitVec.ofNat 5 (w / 2048)) (BitVec.ofNat 3 (w / 256)) (BitVec.ofNat 2 (w / 64)))
  else if w % 64 = 4 then .ok (.vfms (BitVec.ofNat 5 (w / 2097152)) (BitVec.ofNat 5 (w / 65536)) (BitVec.ofNat 5 (w / 2048)) (BitVec.ofNat 3 (w / 256)) (BitVec.ofNat 2 (w / 64)))
  else if w % 64 = 5 then .ok (.vfmin (BitVec.ofNat 5 (w / 2097152)) (BitVec.ofNat 5 (w / 65536)) (BitVec.ofNat 5 (w / 2048)) (BitVec.ofNat 3 (w / 256)) (BitVec.ofNat 2 (w / 64)))
  else if w % 64 = 6 then .ok (.vfmax (BitVec.ofNat 5 (w / 2097152)) (BitVec.ofNat 5 (w / 65536)) (BitVec.ofNat 5 (w / 2048)) (BitVec.ofNat 3 (w / 256)) (BitVec.ofNat 2 (w / 64)))
  else if w / 2048 % 32 = 0 ∧ w % 64 = 7 then .ok (.vfabs (BitVec.ofNat 5 (w / 2097152)) (BitVec.ofNat 5 (w / 65536)) (BitVec.ofNat 3 (w / 256)) (BitVec.ofNat 2 (w / 64)))
  else if w / 2048 % 32 = 0 ∧ w % 64 = 8 then .ok (.vfneg (BitVec.ofNat 5 (w / 2097152)) (BitVec.ofNat 5 (w / 65536)) (BitVec.ofNat 3 (w / 256)) (BitVec.ofNat 2 (w / 64)))
  else .error .unassigned

/-- Words of major 0x22 (R48). -/
def decodeMajor22 (w : Nat) : Except Reject Instr :=
  if w % 64 = 0 then .ok (.vcmp (BitVec.ofNat 5 (w / 2097152)) (BitVec.ofNat 5 (w / 65536)) (BitVec.ofNat 5 (w / 2048)) (BitVec.ofNat 3 (w / 256)) (BitVec.ofNat 2 (w / 64)))
  else if w % 64 = 1 then .ok (.vsel (BitVec.ofNat 5 (w / 2097152)) (BitVec.ofNat 5 (w / 65536)) (BitVec.ofNat 5 (w / 2048)) (BitVec.ofNat 3 (w / 256)) (BitVec.ofNat 2 (w / 64)))
  else if w / 16777216 % 4 = 0 ∧ w / 524288 % 4 = 0 ∧ w / 16384 % 4 = 0 ∧ w % 2048 = 2 then .ok (.pand (BitVec.ofNat 3 (w / 2097152)) (BitVec.ofNat 3 (w / 65536)) (BitVec.ofNat 3 (w / 2048)))
  else if w / 16777216 % 4 = 0 ∧ w / 524288 % 4 = 0 ∧ w / 16384 % 4 = 0 ∧ w % 2048 = 3 then .ok (.por (BitVec.ofNat 3 (w / 2097152)) (BitVec.ofNat 3 (w / 65536)) (BitVec.ofNat 3 (w / 2048)))
  else if w / 16777216 % 4 = 0 ∧ w / 524288 % 4 = 0 ∧ w / 16384 % 4 = 0 ∧ w % 2048 = 4 then .ok (.pxor (BitVec.ofNat 3 (w / 2097152)) (BitVec.ofNat 3 (w / 65536)) (BitVec.ofNat 3 (w / 2048)))
  else if w / 16777216 % 4 = 0 ∧ w / 524288 % 4 = 0 ∧ w % 65536 = 5 then .ok (.pnot (BitVec.ofNat 3 (w / 2097152)) (BitVec.ofNat 3 (w / 65536)))
  else if w / 16777216 % 4 = 0 ∧ w / 524288 % 4 = 0 ∧ w % 65536 = 6 then .ok (.pmov (BitVec.ofNat 3 (w / 2097152)) (BitVec.ofNat 3 (w / 65536)))
  else .error .unassigned

/-- Words of major 0x23 (R48). -/
def decodeMajor23 (w : Nat) : Except Reject Instr :=
  if w % 64 = 0 then .ok (.vperm (BitVec.ofNat 5 (w / 2097152)) (BitVec.ofNat 5 (w / 65536)) (BitVec.ofNat 5 (w / 2048)) (BitVec.ofNat 3 (w / 256)) (BitVec.ofNat 2 (w / 64)))
  else if w / 2048 % 32 = 0 ∧ w % 64 = 1 then .ok (.vrsum (BitVec.ofNat 5 (w / 2097152)) (BitVec.ofNat 5 (w / 65536)) (BitVec.ofNat 3 (w / 256)) (BitVec.ofNat 2 (w / 64)))
  else if w / 2048 % 32 = 0 ∧ w % 64 = 2 then .ok (.vrmax (BitVec.ofNat 5 (w / 2097152)) (BitVec.ofNat 5 (w / 65536)) (BitVec.ofNat 3 (w / 256)) (BitVec.ofNat 2 (w / 64)))
  else if w / 2048 % 32 = 0 ∧ w % 64 = 3 then .ok (.vrmin (BitVec.ofNat 5 (w / 2097152)) (BitVec.ofNat 5 (w / 65536)) (BitVec.ofNat 3 (w / 256)) (BitVec.ofNat 2 (w / 64)))
  else if w / 2048 % 32 = 0 ∧ w % 64 = 4 then .ok (.vscan (BitVec.ofNat 5 (w / 2097152)) (BitVec.ofNat 5 (w / 65536)) (BitVec.ofNat 3 (w / 256)) (BitVec.ofNat 2 (w / 64)))
  else if w % 256 = 133 then .ok (.vsmm (BitVec.ofNat 5 (w / 2097152)) (BitVec.ofNat 5 (w / 65536)) (BitVec.ofNat 5 (w / 2048)) (BitVec.ofNat 3 (w / 256)))
  else .error .unassigned

/-- Words of major 0x24 (R48). -/
def decodeMajor24 (w : Nat) : Except Reject Instr :=
  if w / 32 % 4 = 0 then .ok (.vld (BitVec.ofNat 5 (w / 2097152)) (BitVec.ofNat 4 (w / 131072)) (BitVec.ofNat 5 (w / 4096)) (BitVec.ofNat 3 (w / 512)) (BitVec.ofNat 2 (w / 128)) (BitVec.ofNat 5 w))
  else if w / 32 % 4 = 1 then .ok (.vst (BitVec.ofNat 5 (w / 2097152)) (BitVec.ofNat 4 (w / 131072)) (BitVec.ofNat 5 (w / 4096)) (BitVec.ofNat 3 (w / 512)) (BitVec.ofNat 2 (w / 128)) (BitVec.ofNat 5 w))
  else if w / 32 % 4 = 2 then .ok (.vgth (BitVec.ofNat 5 (w / 2097152)) (BitVec.ofNat 4 (w / 131072)) (BitVec.ofNat 5 (w / 4096)) (BitVec.ofNat 3 (w / 512)) (BitVec.ofNat 2 (w / 128)) (BitVec.ofNat 5 w))
  else if w / 32 % 4 = 3 then .ok (.vsct (BitVec.ofNat 5 (w / 2097152)) (BitVec.ofNat 4 (w / 131072)) (BitVec.ofNat 5 (w / 4096)) (BitVec.ofNat 3 (w / 512)) (BitVec.ofNat 2 (w / 128)) (BitVec.ofNat 5 w))
  else .error .unassigned

/-- Words of major 0x25 (R48). -/
def decodeMajor25 (w : Nat) : Except Reject Instr :=
  if w / 1048576 % 2 = 0 ∧ w % 2048 = 0 then .ok (.sbind (BitVec.ofNat 5 (w / 2097152)) (BitVec.ofNat 4 (w / 65536)) (BitVec.ofNat 5 (w / 2048)))
  else if w / 256 % 8 = 0 ∧ w % 64 = 1 then .ok (.sbnd (BitVec.ofNat 5 (w / 2097152)) (BitVec.ofNat 5 (w / 65536)) (BitVec.ofNat 5 (w / 2048)) (BitVec.ofNat 2 (w / 64)))
  else if w % 65536 = 2 then .ok (.sgo (BitVec.ofNat 5 (w / 2097152)) (BitVec.ofNat 5 (w / 65536)))
  else if w % 65536 = 3 then .ok (.sstop (BitVec.ofNat 5 (w / 2097152)) (BitVec.ofNat 5 (w / 65536)))
  else .error .unassigned

/-- Words of major 0x26 (R48). -/
def decodeMajor26 (w : Nat) : Except Reject Instr :=
  if w / 2048 % 32 = 0 ∧ w % 64 = 0 then .ok (.vexp (BitVec.ofNat 5 (w / 2097152)) (BitVec.ofNat 5 (w / 65536)) (BitVec.ofNat 3 (w / 256)) (BitVec.ofNat 2 (w / 64)))
  else if w / 2048 % 32 = 0 ∧ w % 64 = 1 then .ok (.vlog (BitVec.ofNat 5 (w / 2097152)) (BitVec.ofNat 5 (w / 65536)) (BitVec.ofNat 3 (w / 256)) (BitVec.ofNat 2 (w / 64)))
  else if w / 2048 % 32 = 0 ∧ w % 64 = 2 then .ok (.vrcp (BitVec.ofNat 5 (w / 2097152)) (BitVec.ofNat 5 (w / 65536)) (BitVec.ofNat 3 (w / 256)) (BitVec.ofNat 2 (w / 64)))
  else if w / 2048 % 32 = 0 ∧ w % 64 = 3 then .ok (.vrsqrt (BitVec.ofNat 5 (w / 2097152)) (BitVec.ofNat 5 (w / 65536)) (BitVec.ofNat 3 (w / 256)) (BitVec.ofNat 2 (w / 64)))
  else if w / 2048 % 32 = 0 ∧ w % 64 = 4 then .ok (.vtanh (BitVec.ofNat 5 (w / 2097152)) (BitVec.ofNat 5 (w / 65536)) (BitVec.ofNat 3 (w / 256)) (BitVec.ofNat 2 (w / 64)))
  else if w / 2048 % 32 = 0 ∧ w % 64 = 5 then .ok (.vsin (BitVec.ofNat 5 (w / 2097152)) (BitVec.ofNat 5 (w / 65536)) (BitVec.ofNat 3 (w / 256)) (BitVec.ofNat 2 (w / 64)))
  else .error .unassigned

/-- Words of major 0x27 (R48). -/
def decodeMajor27 (w : Nat) : Except Reject Instr :=
  if w / 16384 % 4 = 0 ∧ w / 256 % 8 = 0 ∧ w % 64 = 0 then .ok (.vgrant (BitVec.ofNat 5 (w / 2097152)) (BitVec.ofNat 5 (w / 65536)) (BitVec.ofNat 3 (w / 2048)) (BitVec.ofNat 2 (w / 64)))
  else if w / 16384 % 4 = 0 ∧ w % 2048 = 256 then .ok (.vgrantStream (BitVec.ofNat 5 (w / 2097152)) (BitVec.ofNat 5 (w / 65536)) (BitVec.ofNat 3 (w / 2048)))
  else .error .unassigned

/-- Words of major 0x28 (R48). -/
def decodeMajor28 (w : Nat) : Except Reject Instr :=
  if w % 64 = 0 then .ok (.cvt (BitVec.ofNat 5 (w / 2097152)) (BitVec.ofNat 5 (w / 65536)) (BitVec.ofNat 5 (w / 2048)) (BitVec.ofNat 3 (w / 256)) (BitVec.ofNat 2 (w / 64)))
  else if w % 64 = 1 then .ok (.dec (BitVec.ofNat 5 (w / 2097152)) (BitVec.ofNat 5 (w / 65536)) (BitVec.ofNat 5 (w / 2048)) (BitVec.ofNat 3 (w / 256)) (BitVec.ofNat 2 (w / 64)))
  else if w % 64 = 2 then .ok (.enc (BitVec.ofNat 5 (w / 2097152)) (BitVec.ofNat 5 (w / 65536)) (BitVec.ofNat 5 (w / 2048)) (BitVec.ofNat 3 (w / 256)) (BitVec.ofNat 2 (w / 64)))
  else if w % 256 = 3 then .ok (.bscale (BitVec.ofNat 5 (w / 2097152)) (BitVec.ofNat 5 (w / 65536)) (BitVec.ofNat 5 (w / 2048)) (BitVec.ofNat 3 (w / 256)))
  else .error .unassigned

/-- Words of major 0x29 (R48). -/
def decodeMajor29 (w : Nat) : Except Reject Instr :=
  if w / 1048576 % 2 = 0 ∧ w % 2048 = 0 then .ok (.dtld (BitVec.ofNat 5 (w / 2097152)) (BitVec.ofNat 4 (w / 65536)) (BitVec.ofNat 5 (w / 2048)))
  else if w % 65536 = 1 then .ok (.srseed (BitVec.ofNat 5 (w / 2097152)) (BitVec.ofNat 5 (w / 65536)))
  else if w / 512 % 128 = 0 ∧ w % 64 = 2 then .ok (.fclass (BitVec.ofNat 5 (w / 2097152)) (BitVec.ofNat 5 (w / 65536)) (BitVec.ofNat 3 (w / 64)))
  else .error .unassigned

/-- Words of major 0x2A (R48). -/
def decodeMajor2A (w : Nat) : Except Reject Instr :=
  if w / 8388608 % 8 = 0 ∧ w / 1048576 % 2 = 0 ∧ w % 2048 = 0 then .ok (.kld (BitVec.ofNat 2 (w / 2097152)) (BitVec.ofNat 4 (w / 65536)) (BitVec.ofNat 5 (w / 2048)))
  else if w / 8388608 % 8 = 0 ∧ w / 1048576 % 2 = 0 ∧ w % 2048 = 1 then .ok (.kst (BitVec.ofNat 2 (w / 2097152)) (BitVec.ofNat 4 (w / 65536)) (BitVec.ofNat 5 (w / 2048)))
  else if w / 8388608 % 8 = 0 ∧ w / 256 % 256 = 0 ∧ w % 64 = 2 then .ok (.kset (BitVec.ofNat 2 (w / 2097152)) (BitVec.ofNat 5 (w / 65536)) (BitVec.ofNat 2 (w / 64)))
  else if w / 8388608 % 8 = 0 ∧ w / 1048576 % 2 = 0 ∧ w / 256 % 256 = 1 ∧ w % 64 = 2 then .ok (.ksetPointer (BitVec.ofNat 2 (w / 2097152)) (BitVec.ofNat 4 (w / 65536)) (BitVec.ofNat 2 (w / 64)))
  else .error .unassigned

/-- Words of major 0x2B (R48). -/
def decodeMajor2B (w : Nat) : Except Reject Instr :=
  if w / 262144 % 8 = 0 ∧ w % 65536 = 0 then .ok (.wpush (BitVec.ofNat 5 (w / 2097152)) (BitVec.ofNat 2 (w / 65536)))
  else if w % 2097152 = 1 then .ok (.wcommit (BitVec.ofNat 5 (w / 2097152)))
  else if w % 65536 = 2 then .ok (.wwait (BitVec.ofNat 5 (w / 2097152)) (BitVec.ofNat 5 (w / 65536)))
  else if w / 1048576 % 2 = 0 ∧ w % 2048 = 3 then .ok (.wrd (BitVec.ofNat 5 (w / 2097152)) (BitVec.ofNat 4 (w / 65536)) (BitVec.ofNat 5 (w / 2048)))
  else if w / 1048576 % 2 = 0 ∧ w % 2048 = 67 then .ok (.wrdRow (BitVec.ofNat 5 (w / 2097152)) (BitVec.ofNat 4 (w / 65536)) (BitVec.ofNat 5 (w / 2048)))
  else if w / 33554432 % 2 = 0 ∧ w % 2048 = 4 then .ok (.wwr (BitVec.ofNat 4 (w / 2097152)) (BitVec.ofNat 5 (w / 65536)) (BitVec.ofNat 5 (w / 2048)))
  else if w / 33554432 % 2 = 0 ∧ w % 2048 = 68 then .ok (.wwrRow (BitVec.ofNat 4 (w / 2097152)) (BitVec.ofNat 5 (w / 65536)) (BitVec.ofNat 5 (w / 2048)))
  else if w / 2097152 % 32 = 0 ∧ w % 65536 = 5 then .ok (.wzero (BitVec.ofNat 5 (w / 65536)))
  else if w % 65536 = 6 then .ok (.wres (BitVec.ofNat 5 (w / 2097152)) (BitVec.ofNat 5 (w / 65536)))
  else if w % 65536 = 7 then .ok (.wstat (BitVec.ofNat 5 (w / 2097152)) (BitVec.ofNat 5 (w / 65536)))
  else .error .unassigned

/-- Words of major 0x2C (R48). -/
def decodeMajor2C (w : Nat) : Except Reject Instr :=
  if w / 16777216 % 4 = 0 ∧ w / 512 % 4 = 0 ∧ w % 64 = 0 then .ok (.pack (BitVec.ofNat 3 (w / 2097152)) (BitVec.ofNat 5 (w / 65536)) (BitVec.ofNat 5 (w / 2048)) (BitVec.ofNat 3 (w / 64)))
  else if w / 16777216 % 4 = 0 ∧ w / 524288 % 4 = 0 ∧ w % 2048 = 1 then .ok (.gwid (BitVec.ofNat 3 (w / 2097152)) (BitVec.ofNat 3 (w / 65536)) (BitVec.ofNat 5 (w / 2048)))
  else if w / 16777216 % 4 = 0 ∧ w / 524288 % 4 = 0 ∧ w / 16384 % 4 = 0 ∧ w % 2048 = 2 then .ok (.wmulp (BitVec.ofNat 3 (w / 2097152)) (BitVec.ofNat 3 (w / 65536)) (BitVec.ofNat 3 (w / 2048)))
  else if w / 16777216 % 4 = 0 ∧ w / 524288 % 4 = 0 ∧ w / 16384 % 4 = 0 ∧ w % 2048 = 3 then .ok (.wmacp (BitVec.ofNat 3 (w / 2097152)) (BitVec.ofNat 3 (w / 65536)) (BitVec.ofNat 3 (w / 2048)))
  else if w / 524288 % 4 = 0 ∧ w / 256 % 8 = 0 ∧ w % 64 = 4 then .ok (.extr (BitVec.ofNat 5 (w / 2097152)) (BitVec.ofNat 3 (w / 65536)) (BitVec.ofNat 5 (w / 2048)) (BitVec.ofNat 2 (w / 64)))
  else .error .unassigned

/-- Words of major 0x2E (R48). -/
def decodeMajor2E (w : Nat) : Except Reject Instr :=
  if w / 262144 % 8 = 0 ∧ w % 65536 = 0 then .ok (.cpush (BitVec.ofNat 5 (w / 2097152)) (BitVec.ofNat 2 (w / 65536)))
  else if w % 65536 = 1 then .ok (.cpwait (BitVec.ofNat 5 (w / 2097152)) (BitVec.ofNat 5 (w / 65536)))
  else if w % 65536 = 2 then .ok (.cpstat (BitVec.ofNat 5 (w / 2097152)) (BitVec.ofNat 5 (w / 65536)))
  else if w / 1048576 % 2 = 0 ∧ w % 2048 = 3 then .ok (.cppage (BitVec.ofNat 5 (w / 2097152)) (BitVec.ofNat 4 (w / 65536)) (BitVec.ofNat 5 (w / 2048)))
  else if w / 1048576 % 2 = 0 ∧ w % 2048 = 67 then .ok (.cppageRec (BitVec.ofNat 5 (w / 2097152)) (BitVec.ofNat 4 (w / 65536)) (BitVec.ofNat 5 (w / 2048)))
  else .error .unassigned

/-- Words of major 0x2F (R48). -/
def decodeMajor2F (w : Nat) : Except Reject Instr :=
  if w / 2097152 % 32 = 0 ∧ w % 64 = 0 then .ok (.msend (BitVec.ofNat 5 (w / 65536)) (BitVec.ofNat 5 (w / 2048)) (BitVec.ofNat 5 (w / 64)))
  else if w % 65536 = 1 then .ok (.mrecv (BitVec.ofNat 5 (w / 2097152)) (BitVec.ofNat 5 (w / 65536)))
  else if w / 2097152 % 32 = 0 ∧ w % 64 = 2 then .ok (.mcast (BitVec.ofNat 5 (w / 65536)) (BitVec.ofNat 5 (w / 2048)) (BitVec.ofNat 5 (w / 64)))
  else if w / 128 % 16384 = 0 ∧ w % 64 = 3 then .ok (.mpoll (BitVec.ofNat 5 (w / 2097152)) (BitVec.ofNat 1 (w / 64)))
  else if w / 2097152 % 32 = 0 ∧ w / 32768 % 2 = 0 ∧ w % 64 = 4 then .ok (.xput (BitVec.ofNat 5 (w / 65536)) (BitVec.ofNat 4 (w / 2048)) (BitVec.ofNat 5 (w / 64)))
  else .error .unassigned

/-- Words of major 0x30 (R48). -/
def decodeMajor30 (w : Nat) : Except Reject Instr :=
  if w % 65536 = 0 then .ok (.kvlk (BitVec.ofNat 5 (w / 2097152)) (BitVec.ofNat 5 (w / 65536)))
  else if w % 2048 = 1 then .ok (.kvfill (BitVec.ofNat 5 (w / 2097152)) (BitVec.ofNat 5 (w / 65536)) (BitVec.ofNat 5 (w / 2048)))
  else if w % 65536 = 2 then .ok (.kvinv (BitVec.ofNat 5 (w / 2097152)) (BitVec.ofNat 5 (w / 65536)))
  else if w % 2097152 = 66 then .ok (.kvinvAll (BitVec.ofNat 5 (w / 2097152)))
  else if w / 1048576 % 2 = 0 ∧ w % 65536 = 3 then .ok (.kvapp (BitVec.ofNat 5 (w / 2097152)) (BitVec.ofNat 4 (w / 65536)))
  else if w / 1048576 % 2 = 0 ∧ w % 65536 = 67 then .ok (.kvappLink (BitVec.ofNat 5 (w / 2097152)) (BitVec.ofNat 4 (w / 65536)))
  else if w % 2097152 = 4 then .ok (.kvspec (BitVec.ofNat 5 (w / 2097152)))
  else if w % 65536 = 5 then .ok (.kvcommit (BitVec.ofNat 5 (w / 2097152)) (BitVec.ofNat 5 (w / 65536)))
  else if w % 2097152 = 6 then .ok (.kvabort (BitVec.ofNat 5 (w / 2097152)))
  else if w % 2048 = 7 then .ok (.kvget (BitVec.ofNat 5 (w / 2097152)) (BitVec.ofNat 5 (w / 65536)) (BitVec.ofNat 5 (w / 2048)))
  else if w % 65536 = 8 then .ok (.kvfree (BitVec.ofNat 5 (w / 2097152)) (BitVec.ofNat 5 (w / 65536)))
  else if w % 65536 = 72 then .ok (.kvfreePub (BitVec.ofNat 5 (w / 2097152)) (BitVec.ofNat 5 (w / 65536)))
  else if w % 65536 = 200 then .ok (.kvfreePubx (BitVec.ofNat 5 (w / 2097152)) (BitVec.ofNat 5 (w / 65536)))
  else if w / 1048576 % 2 = 0 ∧ w / 32768 % 2 = 0 ∧ w % 2048 = 9 then .ok (.rsver (BitVec.ofNat 5 (w / 2097152)) (BitVec.ofNat 4 (w / 65536)) (BitVec.ofNat 4 (w / 2048)))
  else if w / 2097152 % 32 = 0 ∧ w % 65536 = 10 then .ok (.kvret (BitVec.ofNat 5 (w / 65536)))
  else .error .unassigned

/-- Words of major 0x32 (R48). -/
def decodeMajor32 (w : Nat) : Except Reject Instr :=
  if w / 65536 % 1024 = 0 ∧ w % 64 = 0 then .ok (.trap (BitVec.ofNat 5 (w / 2048)) (BitVec.ofNat 5 (w / 64)))
  else if w % 67108864 = 1 then .ok (.tret)
  else if w / 65536 % 1024 = 0 ∧ w % 64 = 2 then .ok (.brk (BitVec.ofNat 5 (w / 2048)) (BitVec.ofNat 5 (w / 64)))
  else if w % 67108864 = 3 then .ok (.halt)
  else if w % 67108864 = 4 then .ok (.wfi)
  else if w % 65536 = 5 then .ok (.ckpt (BitVec.ofNat 5 (w / 2097152)) (BitVec.ofNat 5 (w / 65536)))
  else if w % 2097152 = 6 then .ok (.rstor (BitVec.ofNat 5 (w / 2097152)))
  else if w % 2048 = 7 then .ok (.xinv (BitVec.ofNat 5 (w / 2097152)) (BitVec.ofNat 5 (w / 65536)) (BitVec.ofNat 5 (w / 2048)))
  else .error .unassigned

/-- Words of major 0x3F (R48). -/
def decodeMajor3F (w : Nat) : Except Reject Instr :=
  if w / 16777216 % 4 = 0 then .ok (.pfxImm (BitVec.ofNat 24 w))
  else if w / 32 % 2097152 = 524288 then .ok (.pfxReg (BitVec.ofNat 5 w))
  else if w / 64 % 1048576 = 524288 then .ok (.pfxFn (BitVec.ofNat 6 w))
  else .error .unassigned

/-- The words of the opcode map (R40, R48): bits [31:26] choose the major opcode. -/
def decodeNat (w : Nat) : Except Reject Instr :=
  if w / 67108864 = 1 then decodeMajor01 w
  else if w / 67108864 = 2 then decodeMajor02 w
  else if w / 67108864 = 3 then decodeMajor03 w
  else if w / 67108864 = 4 then decodeMajor04 w
  else if w / 67108864 = 5 then decodeMajor05 w
  else if w / 67108864 = 6 then decodeMajor06 w
  else if w / 67108864 = 7 then decodeMajor07 w
  else if w / 67108864 = 8 then decodeMajor08 w
  else if w / 67108864 = 9 then decodeMajor09 w
  else if w / 67108864 = 10 then decodeMajor0A w
  else if w / 67108864 = 11 then decodeMajor0B w
  else if w / 67108864 = 12 then decodeMajor0C w
  else if w / 67108864 = 13 then decodeMajor0D w
  else if w / 67108864 = 14 then decodeMajor0E w
  else if w / 67108864 = 16 then decodeMajor10 w
  else if w / 67108864 = 17 then decodeMajor11 w
  else if w / 67108864 = 18 then decodeMajor12 w
  else if w / 67108864 = 19 then decodeMajor13 w
  else if w / 67108864 = 20 then decodeMajor14 w
  else if w / 67108864 = 21 then decodeMajor15 w
  else if w / 67108864 = 22 then decodeMajor16 w
  else if w / 67108864 = 23 then decodeMajor17 w
  else if w / 67108864 = 24 then decodeMajor18 w
  else if w / 67108864 = 25 then decodeMajor19 w
  else if w / 67108864 = 26 then decodeMajor1A w
  else if w / 67108864 = 27 then decodeMajor1B w
  else if w / 67108864 = 28 then decodeMajor1C w
  else if w / 67108864 = 29 then decodeMajor1D w
  else if w / 67108864 = 30 then decodeMajor1E w
  else if w / 67108864 = 32 then decodeMajor20 w
  else if w / 67108864 = 33 then decodeMajor21 w
  else if w / 67108864 = 34 then decodeMajor22 w
  else if w / 67108864 = 35 then decodeMajor23 w
  else if w / 67108864 = 36 then decodeMajor24 w
  else if w / 67108864 = 37 then decodeMajor25 w
  else if w / 67108864 = 38 then decodeMajor26 w
  else if w / 67108864 = 39 then decodeMajor27 w
  else if w / 67108864 = 40 then decodeMajor28 w
  else if w / 67108864 = 41 then decodeMajor29 w
  else if w / 67108864 = 42 then decodeMajor2A w
  else if w / 67108864 = 43 then decodeMajor2B w
  else if w / 67108864 = 44 then decodeMajor2C w
  else if w / 67108864 = 46 then decodeMajor2E w
  else if w / 67108864 = 47 then decodeMajor2F w
  else if w / 67108864 = 48 then decodeMajor30 w
  else if w / 67108864 = 50 then decodeMajor32 w
  else if w / 67108864 = 63 then decodeMajor3F w
  else .error .reservedMajor

/-- The fields of the word of an instruction, from the encoding lines of spec/: the number the word stands for.
A row that has no word of its own stands for 0. -/
def wordNat : Instr → Nat
  | .add d a b => 67108864 + d.toNat * 2097152 + a.toNat * 65536 + b.toNat * 2048
  | .sub d a b => 67108865 + d.toNat * 2097152 + a.toNat * 65536 + b.toNat * 2048
  | .and d a b => 67108866 + d.toNat * 2097152 + a.toNat * 65536 + b.toNat * 2048
  | .or d a b => 67108867 + d.toNat * 2097152 + a.toNat * 65536 + b.toNat * 2048
  | .xor d a b => 67108868 + d.toNat * 2097152 + a.toNat * 65536 + b.toNat * 2048
  | .sll d a b => 67108869 + d.toNat * 2097152 + a.toNat * 65536 + b.toNat * 2048
  | .srl d a b => 67108870 + d.toNat * 2097152 + a.toNat * 65536 + b.toNat * 2048
  | .sra d a b => 67108871 + d.toNat * 2097152 + a.toNat * 65536 + b.toNat * 2048
  | .slt d a b => 67108872 + d.toNat * 2097152 + a.toNat * 65536 + b.toNat * 2048
  | .sltu d a b => 67108873 + d.toNat * 2097152 + a.toNat * 65536 + b.toNat * 2048
  | .min d a b => 67108874 + d.toNat * 2097152 + a.toNat * 65536 + b.toNat * 2048
  | .max d a b => 67108875 + d.toNat * 2097152 + a.toNat * 65536 + b.toNat * 2048
  | .minu d a b => 67108876 + d.toNat * 2097152 + a.toNat * 65536 + b.toNat * 2048
  | .maxu d a b => 67108877 + d.toNat * 2097152 + a.toNat * 65536 + b.toNat * 2048
  | .mul d a b => 67108878 + d.toNat * 2097152 + a.toNat * 65536 + b.toNat * 2048
  | .mulh d a b => 67108879 + d.toNat * 2097152 + a.toNat * 65536 + b.toNat * 2048
  | .mulhu d a b => 67108880 + d.toNat * 2097152 + a.toNat * 65536 + b.toNat * 2048
  | .div d a b => 67108881 + d.toNat * 2097152 + a.toNat * 65536 + b.toNat * 2048
  | .divu d a b => 67108882 + d.toNat * 2097152 + a.toNat * 65536 + b.toNat * 2048
  | .rem d a b => 67108883 + d.toNat * 2097152 + a.toNat * 65536 + b.toNat * 2048
  | .remu d a b => 67108884 + d.toNat * 2097152 + a.toNat * 65536 + b.toNat * 2048
  | .clz d a => 67108885 + d.toNat * 2097152 + a.toNat * 65536
  | .ctz d a => 67108886 + d.toNat * 2097152 + a.toNat * 65536
  | .popc d a => 67108887 + d.toNat * 2097152 + a.toNat * 65536
  | .sel d a b c => 67108888 + d.toNat * 2097152 + a.toNat * 65536 + b.toNat * 2048 + c.toNat * 64
  | .addi d a i => 134217728 + d.toNat * 2097152 + a.toNat * 65536 + i.toNat
  | .andi d a i => 201326592 + d.toNat * 2097152 + a.toNat * 65536 + i.toNat
  | .ori d a i => 268435456 + d.toNat * 2097152 + a.toNat * 65536 + i.toNat
  | .xori d a i => 335544320 + d.toNat * 2097152 + a.toNat * 65536 + i.toNat
  | .slti d a i => 402653184 + d.toNat * 2097152 + a.toNat * 65536 + i.toNat
  | .sltiu d a i => 469762048 + d.toNat * 2097152 + a.toNat * 65536 + i.toNat
  | .slli d a s h => 536870912 + d.toNat * 2097152 + a.toNat * 65536 + s.toNat * 2048 + h.toNat * 64
  | .srli d a s h => 536870913 + d.toNat * 2097152 + a.toNat * 65536 + s.toNat * 2048 + h.toNat * 64
  | .srai d a s h => 536870914 + d.toNat * 2097152 + a.toNat * 65536 + s.toNat * 2048 + h.toNat * 64
  | .lhi d k i => 603979776 + d.toNat * 2097152 + k.toNat * 65536 + i.toNat
  | .beq a b o => 671088640 + a.toNat * 2097152 + b.toNat * 65536 + o.toNat
  | .bne a b o => 671096832 + a.toNat * 2097152 + b.toNat * 65536 + o.toNat
  | .blt a b o => 671105024 + a.toNat * 2097152 + b.toNat * 65536 + o.toNat
  | .bge a b o => 671113216 + a.toNat * 2097152 + b.toNat * 65536 + o.toNat
  | .bltu a b o => 671121408 + a.toNat * 2097152 + b.toNat * 65536 + o.toNat
  | .bgeu a b o => 671129600 + a.toNat * 2097152 + b.toNat * 65536 + o.toNat
  | .jal d o => 738197504 + d.toNat * 2097152 + o.toNat
  | .jalr d a i => 805306368 + d.toNat * 2097152 + a.toNat * 65536 + i.toNat
  | .tidx d a k => 872415232 + d.toNat * 2097152 + a.toNat * 65536 + k.toNat * 64
  | .shp d a b => 872415233 + d.toNat * 2097152 + a.toNat * 65536 + b.toNat * 2048
  | .crd d n => 939524096 + d.toNat * 2097152 + n.toNat
  | .crw d a n => 939528192 + d.toNat * 2097152 + a.toNat * 65536 + n.toNat
  | .crs d a n => 939532288 + d.toNat * 2097152 + a.toNat * 65536 + n.toNat
  | .crc d a n => 939536384 + d.toNat * 2097152 + a.toNat * 65536 + n.toNat
  | .ld d p x z i => 1073741824 + d.toNat * 2097152 + p.toNat * 131072 + x.toNat * 4096 + z.toNat * 1024 + i.toNat
  | .st d p x z i => 1140850688 + d.toNat * 2097152 + p.toNat * 131072 + x.toNat * 4096 + z.toNat * 1024 + i.toNat
  | .lda d p x i => 1207959552 + d.toNat * 2097152 + p.toNat * 131072 + x.toNat * 4096 + i.toNat
  | .sta d p x i => 1207960576 + d.toNat * 2097152 + p.toNat * 131072 + x.toNat * 4096 + i.toNat
  | .touch d a => 1275068416 + d.toNat * 2097152 + a.toNat * 65536
  | .alloc d a b => 1275068417 + d.toNat * 2097152 + a.toNat * 65536 + b.toNat * 2048
  | .acurSet d a b => 1275068418 + d.toNat * 2097152 + a.toNat * 65536 + b.toNat * 2048
  | .acurAdd d a b => 1275068482 + d.toNat * 2097152 + a.toNat * 65536 + b.toNat * 2048
  | .olen d a s => 1275068419 + d.toNat * 2097152 + a.toNat * 65536 + s.toNat * 64
  | .otype d a => 1275068420 + d.toNat * 2097152 + a.toNat * 65536
  | .root a => 1275068421 + a.toNat * 65536
  | .unroot a => 1275068422 + a.toNat * 65536
  | .acq d a s => 1275068423 + d.toNat * 2097152 + a.toNat * 65536 + s.toNat * 64
  | .rel d a s => 1275068424 + d.toNat * 2097152 + a.toNat * 65536 + s.toNat * 64
  | .fence d l e s => 1342177280 + d.toNat * 2097152 + l.toNat * 16 + e.toNat * 8 + s.toNat
  | .amo d a s k o => 1409286144 + d.toNat * 2097152 + a.toNat * 65536 + s.toNat * 8192 + k.toNat * 2048 + o.toNat * 64
  | .cas d a s k c => 1476395008 + d.toNat * 2097152 + a.toNat * 65536 + s.toNat * 8192 + k.toNat * 2048 + c.toNat * 64
  | .red d a s k o => 1476395009 + d.toNat * 2097152 + a.toNat * 65536 + s.toNat * 8192 + k.toNat * 2048 + o.toNat * 64
  | .reductionPerformed _ => 0
  | .hrd d a b z => 1543503872 + d.toNat * 2097152 + a.toNat * 65536 + b.toNat * 2048 + z.toNat * 64
  | .hwr d a b z => 1543503873 + d.toNat * 2097152 + a.toNat * 65536 + b.toNat * 2048 + z.toNat * 64
  | .cpost d a b => 1543503874 + d.toNat * 2097152 + a.toNat * 65536 + b.toNat * 2048
  | .cpostBarrier d a b c => 1543504898 + d.toNat * 2097152 + a.toNat * 65536 + b.toNat * 2048 + c.toNat * 64
  | .cpostComplete _ => 0
  | .cwait d a => 1543503875 + d.toNat * 2097152 + a.toNat * 65536
  | .evw d a => 1610612736 + d.toNat * 2097152 + a.toNat * 65536
  | .evsig a b => 1610612737 + a.toNat * 65536 + b.toNat * 2048
  | .eventWordAccepted _ => 0
  | .mtxl d a => 1610612738 + d.toNat * 2097152 + a.toNat * 65536
  | .mtxu a => 1610612739 + a.toNat * 65536
  | .binit d a b s => 1677721600 + d.toNat * 2097152 + a.toNat * 65536 + b.toNat * 2048 + s.toNat * 64
  | .bpost d a b s => 1677721601 + d.toNat * 2097152 + a.toNat * 65536 + b.toNat * 2048 + s.toNat * 64
  | .barr d a b s => 1677721602 + d.toNat * 2097152 + a.toNat * 65536 + b.toNat * 2048 + s.toNat * 64
  | .bwait d a b s => 1677721603 + d.toNat * 2097152 + a.toNat * 65536 + b.toNat * 2048 + s.toNat * 64
  | .dqpush d a b s => 1744830464 + d.toNat * 2097152 + a.toNat * 65536 + b.toNat * 2048 + s.toNat * 64
  | .dqpop d a s => 1744830465 + d.toNat * 2097152 + a.toNat * 65536 + s.toNat * 64
  | .dqsteal d a s => 1744830466 + d.toNat * 2097152 + a.toNat * 65536 + s.toNat * 64
  | .sstep d => 1811939328 + d.toNat * 2097152
  | .superstepAdvance _ => 0
  | .tenantSwitch _ => 0
  | .scree d a => 1811939329 + d.toNat * 2097152 + a.toNat * 65536
  | .heapPass _ => 0
  | .sstat d a => 1811939330 + d.toNat * 2097152 + a.toNat * 65536
  | .hstart d a b => 1879048192 + d.toNat * 2097152 + a.toNat * 65536 + b.toNat * 2048
  | .hjoin d a => 1879048193 + d.toNat * 2097152 + a.toNat * 65536
  | .hexit a => 1879048194 + a.toNat * 65536
  | .hid d => 1879048195 + d.toNat * 2097152
  | .yield => 1879048196
  | .park a b f => 1879048197 + a.toNat * 65536 + b.toNat * 2048 + f.toNat * 64
  | .unpark d b f => 1879048198 + d.toNat * 2097152 + b.toNat * 2048 + f.toNat * 64
  | .tuft d a => 1946157056 + d.toNat * 2097152 + a.toNat * 65536
  | .split => 1946157057
  | .glaunch d a => 2013265920 + d.toNat * 2097152 + a.toNat * 65536
  | .vadd d a b p e => 2147483648 + d.toNat * 2097152 + a.toNat * 65536 + b.toNat * 2048 + p.toNat * 256 + e.toNat * 64
  | .vsub d a b p e => 2147483649 + d.toNat * 2097152 + a.toNat * 65536 + b.toNat * 2048 + p.toNat * 256 + e.toNat * 64
  | .vmul d a b p e => 2147483650 + d.toNat * 2097152 + a.toNat * 65536 + b.toNat * 2048 + p.toNat * 256 + e.toNat * 64
  | .vmin d a b p e => 2147483651 + d.toNat * 2097152 + a.toNat * 65536 + b.toNat * 2048 + p.toNat * 256 + e.toNat * 64
  | .vmax d a b p e => 2147483652 + d.toNat * 2097152 + a.toNat * 65536 + b.toNat * 2048 + p.toNat * 256 + e.toNat * 64
  | .vabs d a p e => 2147483653 + d.toNat * 2097152 + a.toNat * 65536 + p.toNat * 256 + e.toNat * 64
  | .vneg d a p e => 2147483654 + d.toNat * 2097152 + a.toNat * 65536 + p.toNat * 256 + e.toNat * 64
  | .vand d a b p e => 2147483655 + d.toNat * 2097152 + a.toNat * 65536 + b.toNat * 2048 + p.toNat * 256 + e.toNat * 64
  | .vor d a b p e => 2147483656 + d.toNat * 2097152 + a.toNat * 65536 + b.toNat * 2048 + p.toNat * 256 + e.toNat * 64
  | .vxor d a b p e => 2147483657 + d.toNat * 2097152 + a.toNat * 65536 + b.toNat * 2048 + p.toNat * 256 + e.toNat * 64
  | .vsll d a b p e => 2147483658 + d.toNat * 2097152 + a.toNat * 65536 + b.toNat * 2048 + p.toNat * 256 + e.toNat * 64
  | .vsrl d a b p e => 2147483659 + d.toNat * 2097152 + a.toNat * 65536 + b.toNat * 2048 + p.toNat * 256 + e.toNat * 64
  | .vsra d a b p e => 2147483660 + d.toNat * 2097152 + a.toNat * 65536 + b.toNat * 2048 + p.toNat * 256 + e.toNat * 64
  | .vmov d a p e => 2147483661 + d.toNat * 2097152 + a.toNat * 65536 + p.toNat * 256 + e.toNat * 64
  | .vmovExtract d a b p e sgn => 2147483661 + d.toNat * 2097152 + a.toNat * 65536 + b.toNat * 2048 + p.toNat * 256 + e.toNat * 64 + 0 * sgn.toNat
  | .vmovInsert d a b p e => 2147483661 + d.toNat * 2097152 + a.toNat * 65536 + b.toNat * 2048 + p.toNat * 256 + e.toNat * 64
  | .vbcast d a p e => 2147483662 + d.toNat * 2097152 + a.toNat * 65536 + p.toNat * 256 + e.toNat * 64
  | .vfadd d a b p e => 2214592512 + d.toNat * 2097152 + a.toNat * 65536 + b.toNat * 2048 + p.toNat * 256 + e.toNat * 64
  | .vfsub d a b p e => 2214592513 + d.toNat * 2097152 + a.toNat * 65536 + b.toNat * 2048 + p.toNat * 256 + e.toNat * 64
  | .vfmul d a b p e => 2214592514 + d.toNat * 2097152 + a.toNat * 65536 + b.toNat * 2048 + p.toNat * 256 + e.toNat * 64
  | .vfma d a b p e => 2214592515 + d.toNat * 2097152 + a.toNat * 65536 + b.toNat * 2048 + p.toNat * 256 + e.toNat * 64
  | .vfms d a b p e => 2214592516 + d.toNat * 2097152 + a.toNat * 65536 + b.toNat * 2048 + p.toNat * 256 + e.toNat * 64
  | .vfmin d a b p e => 2214592517 + d.toNat * 2097152 + a.toNat * 65536 + b.toNat * 2048 + p.toNat * 256 + e.toNat * 64
  | .vfmax d a b p e => 2214592518 + d.toNat * 2097152 + a.toNat * 65536 + b.toNat * 2048 + p.toNat * 256 + e.toNat * 64
  | .vfabs d a p e => 2214592519 + d.toNat * 2097152 + a.toNat * 65536 + p.toNat * 256 + e.toNat * 64
  | .vfneg d a p e => 2214592520 + d.toNat * 2097152 + a.toNat * 65536 + p.toNat * 256 + e.toNat * 64
  | .vcmp c a b p e => 2281701376 + c.toNat * 2097152 + a.toNat * 65536 + b.toNat * 2048 + p.toNat * 256 + e.toNat * 64
  | .vsel d a b p e => 2281701377 + d.toNat * 2097152 + a.toNat * 65536 + b.toNat * 2048 + p.toNat * 256 + e.toNat * 64
  | .pand d a b => 2281701378 + d.toNat * 2097152 + a.toNat * 65536 + b.toNat * 2048
  | .por d a b => 2281701379 + d.toNat * 2097152 + a.toNat * 65536 + b.toNat * 2048
  | .pxor d a b => 2281701380 + d.toNat * 2097152 + a.toNat * 65536 + b.toNat * 2048
  | .pnot d a => 2281701381 + d.toNat * 2097152 + a.toNat * 65536
  | .pmov d a => 2281701382 + d.toNat * 2097152 + a.toNat * 65536
  | .vperm d a b p e => 2348810240 + d.toNat * 2097152 + a.toNat * 65536 + b.toNat * 2048 + p.toNat * 256 + e.toNat * 64
  | .vrsum d a p e => 2348810241 + d.toNat * 2097152 + a.toNat * 65536 + p.toNat * 256 + e.toNat * 64
  | .vrmax d a p e => 2348810242 + d.toNat * 2097152 + a.toNat * 65536 + p.toNat * 256 + e.toNat * 64
  | .vrmin d a p e => 2348810243 + d.toNat * 2097152 + a.toNat * 65536 + p.toNat * 256 + e.toNat * 64
  | .vscan d a p e => 2348810244 + d.toNat * 2097152 + a.toNat * 65536 + p.toNat * 256 + e.toNat * 64
  | .vsmm d a b p => 2348810373 + d.toNat * 2097152 + a.toNat * 65536 + b.toNat * 2048 + p.toNat * 256
  | .vsmmStat d a b p => 2348810373 + d.toNat * 2097152 + a.toNat * 65536 + b.toNat * 2048 + p.toNat * 256
  | .vld v p x q w i => 2415919104 + v.toNat * 2097152 + p.toNat * 131072 + x.toNat * 4096 + q.toNat * 512 + w.toNat * 128 + i.toNat
  | .vst v p x q w i => 2415919136 + v.toNat * 2097152 + p.toNat * 131072 + x.toNat * 4096 + q.toNat * 512 + w.toNat * 128 + i.toNat
  | .vgth v p x q w i => 2415919168 + v.toNat * 2097152 + p.toNat * 131072 + x.toNat * 4096 + q.toNat * 512 + w.toNat * 128 + i.toNat
  | .vsct v p x q w i => 2415919200 + v.toNat * 2097152 + p.toNat * 131072 + x.toNat * 4096 + q.toNat * 512 + w.toNat * 128 + i.toNat
  | .sbind d a b => 2483027968 + d.toNat * 2097152 + a.toNat * 65536 + b.toNat * 2048
  | .sbnd d a b j => 2483027969 + d.toNat * 2097152 + a.toNat * 65536 + b.toNat * 2048 + j.toNat * 64
  | .sgo d a => 2483027970 + d.toNat * 2097152 + a.toNat * 65536
  | .sstop d a => 2483027971 + d.toNat * 2097152 + a.toNat * 65536
  | .vexp d a p e => 2550136832 + d.toNat * 2097152 + a.toNat * 65536 + p.toNat * 256 + e.toNat * 64
  | .vlog d a p e => 2550136833 + d.toNat * 2097152 + a.toNat * 65536 + p.toNat * 256 + e.toNat * 64
  | .vrcp d a p e => 2550136834 + d.toNat * 2097152 + a.toNat * 65536 + p.toNat * 256 + e.toNat * 64
  | .vrsqrt d a p e => 2550136835 + d.toNat * 2097152 + a.toNat * 65536 + p.toNat * 256 + e.toNat * 64
  | .vtanh d a p e => 2550136836 + d.toNat * 2097152 + a.toNat * 65536 + p.toNat * 256 + e.toNat * 64
  | .vsin d a p e => 2550136837 + d.toNat * 2097152 + a.toNat * 65536 + p.toNat * 256 + e.toNat * 64
  | .vgrant d a p w => 2617245696 + d.toNat * 2097152 + a.toNat * 65536 + p.toNat * 2048 + w.toNat * 64
  | .vgrantStream d a p => 2617245952 + d.toNat * 2097152 + a.toNat * 65536 + p.toNat * 2048
  | .cvt d a b p e => 2684354560 + d.toNat * 2097152 + a.toNat * 65536 + b.toNat * 2048 + p.toNat * 256 + e.toNat * 64
  | .dec d a b p t => 2684354561 + d.toNat * 2097152 + a.toNat * 65536 + b.toNat * 2048 + p.toNat * 256 + t.toNat * 64
  | .enc d a b p t => 2684354562 + d.toNat * 2097152 + a.toNat * 65536 + b.toNat * 2048 + p.toNat * 256 + t.toNat * 64
  | .bscale d a b p => 2684354563 + d.toNat * 2097152 + a.toNat * 65536 + b.toNat * 2048 + p.toNat * 256
  | .bscaleObject d a b p e => 2684354563 + d.toNat * 2097152 + a.toNat * 65536 + b.toNat * 2048 + p.toNat * 256 + 0 * e.toNat
  | .dtld d a b => 2751463424 + d.toNat * 2097152 + a.toNat * 65536 + b.toNat * 2048
  | .srseed d a => 2751463425 + d.toNat * 2097152 + a.toNat * 65536
  | .fclass d a f => 2751463426 + d.toNat * 2097152 + a.toNat * 65536 + f.toNat * 64
  | .kld d a b => 2818572288 + d.toNat * 2097152 + a.toNat * 65536 + b.toNat * 2048
  | .kst d a b => 2818572289 + d.toNat * 2097152 + a.toNat * 65536 + b.toNat * 2048
  | .kset d a q => 2818572290 + d.toNat * 2097152 + a.toNat * 65536 + q.toNat * 64
  | .ksetPointer d a q => 2818572546 + d.toNat * 2097152 + a.toNat * 65536 + q.toNat * 64
  | .wpush d k => 2885681152 + d.toNat * 2097152 + k.toNat * 65536
  | .wcommit d => 2885681153 + d.toNat * 2097152
  | .wwait d a => 2885681154 + d.toNat * 2097152 + a.toNat * 65536
  | .wrd d a b => 2885681155 + d.toNat * 2097152 + a.toNat * 65536 + b.toNat * 2048
  | .wrdRow d a b => 2885681219 + d.toNat * 2097152 + a.toNat * 65536 + b.toNat * 2048
  | .wwr d a b => 2885681156 + d.toNat * 2097152 + a.toNat * 65536 + b.toNat * 2048
  | .wwrRow d a b => 2885681220 + d.toNat * 2097152 + a.toNat * 65536 + b.toNat * 2048
  | .wzero a => 2885681157 + a.toNat * 65536
  | .wres d a => 2885681158 + d.toNat * 2097152 + a.toNat * 65536
  | .wstat d a => 2885681159 + d.toNat * 2097152 + a.toNat * 65536
  | .pack d a b t => 2952790016 + d.toNat * 2097152 + a.toNat * 65536 + b.toNat * 2048 + t.toNat * 64
  | .gwid d a b => 2952790017 + d.toNat * 2097152 + a.toNat * 65536 + b.toNat * 2048
  | .wmulp d a b => 2952790018 + d.toNat * 2097152 + a.toNat * 65536 + b.toNat * 2048
  | .wmacp d a b => 2952790019 + d.toNat * 2097152 + a.toNat * 65536 + b.toNat * 2048
  | .extr d a b l => 2952790020 + d.toNat * 2097152 + a.toNat * 65536 + b.toNat * 2048 + l.toNat * 64
  | .cpush d k => 3087007744 + d.toNat * 2097152 + k.toNat * 65536
  | .cpwait d a => 3087007745 + d.toNat * 2097152 + a.toNat * 65536
  | .cpstat d a => 3087007746 + d.toNat * 2097152 + a.toNat * 65536
  | .cppage d a b => 3087007747 + d.toNat * 2097152 + a.toNat * 65536 + b.toNat * 2048
  | .cppageRec d a b => 3087007811 + d.toNat * 2097152 + a.toNat * 65536 + b.toNat * 2048
  | .msend a b c => 3154116608 + a.toNat * 65536 + b.toNat * 2048 + c.toNat * 64
  | .mrecv d a => 3154116609 + d.toNat * 2097152 + a.toNat * 65536
  | .mcast a b c => 3154116610 + a.toNat * 65536 + b.toNat * 2048 + c.toNat * 64
  | .mpoll d s => 3154116611 + d.toNat * 2097152 + s.toNat * 64
  | .xput a b c => 3154116612 + a.toNat * 65536 + b.toNat * 2048 + c.toNat * 64
  | .putPerformed _ => 0
  | .messageDelivery _ => 0
  | .messageRefusalTimeout _ => 0
  | .kvlk d a => 3221225472 + d.toNat * 2097152 + a.toNat * 65536
  | .kvfill d a b => 3221225473 + d.toNat * 2097152 + a.toNat * 65536 + b.toNat * 2048
  | .kvinv d a => 3221225474 + d.toNat * 2097152 + a.toNat * 65536
  | .kvinvAll d => 3221225538 + d.toNat * 2097152
  | .kvapp d a => 3221225475 + d.toNat * 2097152 + a.toNat * 65536
  | .kvappLink d a => 3221225539 + d.toNat * 2097152 + a.toNat * 65536
  | .kvspec d => 3221225476 + d.toNat * 2097152
  | .kvcommit d a => 3221225477 + d.toNat * 2097152 + a.toNat * 65536
  | .kvabort d => 3221225478 + d.toNat * 2097152
  | .kvget d a b => 3221225479 + d.toNat * 2097152 + a.toNat * 65536 + b.toNat * 2048
  | .kvfree d a => 3221225480 + d.toNat * 2097152 + a.toNat * 65536
  | .kvfreePub d a => 3221225544 + d.toNat * 2097152 + a.toNat * 65536
  | .kvfreePubx d a => 3221225672 + d.toNat * 2097152 + a.toNat * 65536
  | .rsver d a b => 3221225481 + d.toNat * 2097152 + a.toNat * 65536 + b.toNat * 2048
  | .kvret a => 3221225482 + a.toNat * 65536
  | .trap h l => 3355443200 + h.toNat * 2048 + l.toNat * 64
  | .tret => 3355443201
  | .brk h l => 3355443202 + h.toNat * 2048 + l.toNat * 64
  | .halt => 3355443203
  | .wfi => 3355443204
  | .ckpt d a => 3355443205 + d.toNat * 2097152 + a.toNat * 65536
  | .rstor d => 3355443206 + d.toNat * 2097152
  | .xinv d a b => 3355443207 + d.toNat * 2097152 + a.toNat * 65536 + b.toNat * 2048
  | .pfxImm p => 4227858432 + p.toNat
  | .pfxReg e => 4244635648 + e.toNat
  | .pfxFn x => 4261412864 + x.toNat
  | .mma _ _ => 0
  | .mmaz _ _ => 0
  | .mmat _ _ => 0
  | .accst _ _ => 0
  | .accld _ _ => 0
  | .pconv _ _ => 0
  | .pdot _ _ => 0
  | .wmbTileJobDispatch _ _ _ => 0
  | .wmbCommandComplete _ => 0
  | .copy _ _ => 0
  | .xpose _ _ => 0
  | .gather _ _ => 0
  | .fill _ _ => 0
  | .pagein _ _ => 0
  | .migr _ _ => 0
  | .copyCommandComplete _ _ => 0
  | .copyInComplete _ => 0
  | .pageRequestAnswer _ _ => 0
  | .atsInvalidation _ _ _ => 0
  | .tierPoolRecall _ _ => 0
  | .recordDispatch _ => 0
  | .recordEnd _ => 0
  | .sliceEnd _ => 0
  | .switchOutTimeout _ => 0
  | .reservation _ => 0
  | .timer _ => 0
  | .engineReportTimeout _ => 0
  | .interruptPreempt _ => 0
  | .interruptResume _ _ _ => 0
  | .interruptDebug _ _ => 0
  | .corniceTrap _ => 0
  | .corniceDiscard _ => 0
  | .corniceReport _ => 0
  | .pfDeadlinePost _ _ _ _ => 0
  | .doorbell _ _ => 0
  | .featacc _ _ => 0
  | .reqhead _ _ => 0
  | .evhead _ _ => 0
  | .replyseq _ _ => 0
  | .registerWrite _ _ => 0
  | .queueCreate _ _ _ => 0
  | .queueEnable _ => 0
  | .queueDisable _ _ => 0
  | .asidBind _ _ _ _ => 0
  | .asidUnbind _ => 0
  | .snapshotRequest _ _ _ => 0
  | .vfStop _ => 0
  | .kvMigration _ _ => 0
  | .hostCxlMemAccess _ => 0
  | .spdmRequest _ => 0
  | .functionReset _ => 0
  | .pcieConventionalReset => 0
  | .powerGood => 0
  | .rom => 0
  | .selftest _ => 0
  | .load _ => 0
  | .init => 0
  | .fatalFault _ _ => 0
  | .uncorrectableError _ => 0
  | .status => 0
  | .log => 0
  | .ident => 0
  | .imgload => 0
  | .imgcommit => 0
  | .reset => 0
  | .partdef => 0
  | .region _ => 0
  | .deadline => 0
  | .retire => 0
  | .powerLoss => 0
  | .palbelLinkDead _ => 0
  | .palbelRequest _ => 0
  | .hwrPerformed _ => 0
  | .mailboxCommandDone => 0
  | .initTimeout _ => 0
  | .correctableError _ => 0

/-- The latch of a prefix that has issued: what the governed instruction reads from it (R44). -/
inductive Pfx where
  | none
  | imm (payload : BitVec 24)
  | reg (e : BitVec 5)
  | fn (x : BitVec 6)
  deriving DecidableEq, Repr

/-- The instruction of one word by itself. -/
def decodeWord (w : BitVec 32) : Except Reject Instr := decodeNat w.toNat

/-- The words that a `pfx imm` may govern (R45). -/
def immGoverns : Instr → Bool
  | .addi .. | .andi .. | .ori .. | .xori .. | .slti .. | .sltiu .. => true
  | .ld .. | .st .. | .lda .. | .sta .. => true
  | .vld .. | .vst .. | .vgth .. | .vsct .. => true
  | _ => false

/-- The rounding field and the part of an extended function (R234, R250). -/
def fnRound (x : BitVec 6) : Nat := x.toNat % 8
def fnPart (x : BitVec 6) : Nat := x.toNat / 8

/-- The widths of the conversion codes of R235. -/
def cvtWidth (c : Nat) : Nat :=
  if c ≤ 1 then 8 else if c ≤ 3 then 16 else if c ≤ 5 then 32 else if c = 6 then 64
  else if c ≤ 8 then 16 else if c = 9 then 32 else if c = 10 then 64 else 32

/-- Source and target codes of a `cvt` selector (R235). -/
def cvtSrc (sel : Nat) : Nat := sel / 11
def cvtDst (sel : Nat) : Nat := if sel % 11 < sel / 11 then sel % 11 else sel % 11 + 1

/-- The parts that a `cvt` has (R235). -/
def cvtParts (sel : Nat) : Nat :=
  let a := cvtWidth (cvtSrc sel)
  let b := cvtWidth (cvtDst sel)
  Nat.max a b / Nat.min a b

/-- Element types that the extended function of a reduction or scan may name (R255): `e` is the width code. -/
def reducePair (x e : Nat) : Bool := (x = 1 && e ≥ 1) || (x = 2 && e = 1) || x = 3

/-- The instruction that a `pfx fn` with extended function x makes of a word that decodes by itself, where that
pairing is assigned (R44, R45; R248, R250, R251, R255, R257, R258, R234 name the assigned values). -/
def fnGoverned (x : BitVec 6) (i : Instr) : Except Reject Instr :=
  let n := x.toNat
  let only (b : Bool) : Except Reject Instr := if b then .ok i else .error .badPair
  match i with
  | .vadd .. | .vsub .. => only (n ≤ 2)
  | .vmin .. | .vmax .. => only (n ≤ 1)
  | .vfadd .. | .vfsub .. | .vfmul .. | .vfma .. | .vfms .. => only (n ≤ 6)
  | .vrsum _ _ _ e => only (n ≤ 2 && reducePair n e.toNat)
  | .vscan _ _ _ e => only (n ≤ 2 && reducePair n e.toNat)
  | .vrmax _ _ _ e => only (reducePair n e.toNat)
  | .vrmin _ _ _ e => only (reducePair n e.toNat)
  | .vsmm d a b p => if n = 1 then .ok (.vsmmStat d a b p) else .error .badPair
  | .cvt .. | .enc .. => only (fnRound x ≤ 6)
  | .dec .. | .bscale .. => only (fnRound x = 0)
  | _ => .error .badPair

/-- The moves between a vector element and a scalar, words of `vmov` under an extended function 1 to 3 (R249). -/
def vmovElement (x w : Nat) : Except Reject Instr :=
  let d := BitVec.ofNat 5 (w / 2097152)
  let a := BitVec.ofNat 5 (w / 65536)
  let b := BitVec.ofNat 5 (w / 2048)
  let p := BitVec.ofNat 3 (w / 256)
  let e := BitVec.ofNat 2 (w / 64)
  if x = 1 then .ok (.vmovExtract d a b p e true)
  else if x = 2 then .ok (.vmovExtract d a b p e false)
  else if x = 3 then .ok (.vmovInsert d a b p e)
  else .error .badPair

/-- The instruction of a word governed by a prefix. An extended function of 0 is outside the payload's limits. -/
def decodeUnder (p : Pfx) (w : Nat) : Except Reject Instr :=
  match p with
  | .none => decodeNat w
  | .imm _ =>
    match decodeNat w with
    | .ok i => if immGoverns i then .ok i else .error .badPair
    | .error e => .error e
  | .reg e =>
    match decodeNat w with
    | .ok (.bscale d a b q) => .ok (.bscaleObject d a b q e)
    | .ok _ => .error .badPair
    | .error r => .error r
  | .fn x =>
    if x = 0 then .error .badPair
    else if w / 67108864 = 32 ∧ w % 64 = 13 then vmovElement x.toNat w
    else
      match decodeNat w with
      | .ok i => fnGoverned x i
      | .error e => .error e

/-- The prefix an instruction stands under because its row is a form of another row's word: none for the rows that
have a word of their own. -/
def formPfx : Instr → Pfx
  | .vmovExtract _ _ _ _ _ sgn => .fn (if sgn then 1 else 2)
  | .vmovInsert .. => .fn 3
  | .vsmmStat .. => .fn 1
  | .bscaleObject _ _ _ _ e => .reg e
  | _ => .none

/-- The word of a prefix (R44). -/
def pfxWord : Pfx → List Nat
  | .none => []
  | .imm p => [wordNat (.pfxImm p)]
  | .reg e => [wordNat (.pfxReg e)]
  | .fn x => [wordNat (.pfxFn x)]

/-- The words of an instruction of the set, the prefix of its form first. -/
def encode (i : Instr) : List (BitVec 32) :=
  (pfxWord (formPfx i) ++ [wordNat i]).map (BitVec.ofNat 32)

/-- The prefix that a word is, if it is one. -/
def asPfx : Instr → Option Pfx
  | .pfxImm p => some (.imm p)
  | .pfxReg e => some (.reg e)
  | .pfxFn x => some (.fn x)
  | _ => none

/-- The instruction of one word, or of a prefix word and the word it governs. -/
def decodeWords : List (BitVec 32) → Except Reject Instr
  | [w] => decodeNat w.toNat
  | [v, w] =>
    match decodeNat v.toNat with
    | .ok i =>
      match asPfx i with
      | some p => decodeUnder p w.toNat
      | none => .error .badPair
    | .error e => .error e
  | _ => .error .tooShort

/-- The four bytes of a word, lowest address first (R3). -/
def wordBytes (w : BitVec 32) : List Byte :=
  [w.extractLsb' 0 8, w.extractLsb' 8 8, w.extractLsb' 16 8, w.extractLsb' 24 8]

/-- The word of four bytes. -/
def bytesWord (b0 b1 b2 b3 : Byte) : BitVec 32 :=
  BitVec.ofNat 32 (b0.toNat + b1.toNat * 256 + b2.toNat * 65536 + b3.toNat * 16777216)

/-- Reads one instruction word from a list of bytes and returns the bytes after it. -/
def decodeBytes : List Byte → Except Reject (Instr × List Byte)
  | b0 :: b1 :: b2 :: b3 :: rest =>
    match decodeNat (bytesWord b0 b1 b2 b3).toNat with
    | .ok i => .ok (i, rest)
    | .error e => .error e
  | _ => .error .tooShort

/-- The instruction that the decoder reads from an instruction whose bits are `w`. -/
def decodeTableWord (nbits w : Nat) : Option Instr :=
  if nbits > 32 then none else
  match decodeBytes (wordBytes (BitVec.ofNat 32 w)) with
  | .ok (i, _) => some i
  | .error _ => none

end Sys2Proof
end

