-- ==== Sys2Proof/Machine/State.lean ====
section
/-! DEFINITION. State: everything the manual gives the machine, as plain data, and the state right after reset.

A module holds thousands of cores; a table lists those that differ from a core after reset, in rising order of site.
Sites 0 to 8191 are package core indices (R13), site 8192 + n is channel core n (R168).
Memory is one table of bytes under one key: the heap's physical bytes lie below 2^56, core pad c begins at
2^60 + c * 2^18, cluster pad n at 2^61 + n * 2^22, die pad d at 2^62 + d * 2^28, page frame f of the KV pool at
2^63 + f * 2^17 (log entry 5). -/

namespace Sys2Proof.Machine

/-- Why a step stops for good. -/
inductive Fault where
  /-- Raised by `step` when the device is in a state in which no further step of the kind asked for exists: the agenda
  names a core site that the package does not have. Safe: the machine stops. -/
  | noSuchSite
  deriving DecidableEq, Repr

/-- Why an instruction is given no effect. -/
inductive Refusal where
  /-- The instruction has no meaning yet. Raised by the dispatch. Safe. -/
  | notModelled (mnemonic : String)
  deriving DecidableEq, Repr

/-- Memory: a listed byte is not zero, and an unlisted one reads as zero (log entry 6). -/
abbrev Mem := List Host.Cell

/-- Bounds shadow of a pointer register (R125); `flags` are PADCOPY, POISON, SECURE, ROOT, SHARED from bit 4 down. -/
structure Shadow where
  valid : Bool := false
  len : BitVec 40 := 0
  typ : BitVec 8 := 0
  fmt : BitVec 5 := 0
  blog : BitVec 3 := 0
  flags : BitVec 5 := 0
  deriving DecidableEq, Repr

/-- A pointer register with its cursor and bounds shadow (R32, R125). -/
structure AReg where
  ptr : Word := nullPtr
  cur : BitVec 32 := 0
  sh : Shadow := {}
  deriving DecidableEq, Repr

/-- One dimension of a shape (R80). -/
structure Dim where
  n : BitVec 32 := 0
  m : BitVec 40 := 0
  l : BitVec 8 := 0
  deriving DecidableEq, Repr

/-- The shape register (R82, R83). -/
structure Shape where
  ndim : Nat := 1
  dims : List Dim := [{ n := 1, m := 4294967296#40, l := 0 }]
  deriving DecidableEq, Repr

/-- States of a context (R95). -/
inductive CtxState where
  | free | ready | waiting | exited
  deriving DecidableEq, Repr

/-- An entry of the acquired set: the object's canonical pointer, the level of the copy refreshed, and its cluster or
die (R184). -/
structure AcqEntry where
  obj : Word
  level : Nat
  place : Nat
  deriving DecidableEq, Repr

/-- Where an object's header lies: a key of a pad, or a virtual address of an ASID. -/
inductive Loc where
  | pad (key : Nat)
  | heap (asid va : Nat)
  deriving DecidableEq, Repr

/-- A completion record waiting in `s29` with the destination bytes whose pop acquires (R38, R187): each range is a
canonical pointer, the place of the copy written, the body offset and the length. -/
structure CompRec where
  word : Word
  dests : List (Word × Loc × Nat × Nat) := []
  deriving DecidableEq, Repr

/-- One context with its registers (R32, R88). -/
structure Context where
  st : CtxState := .free
  pc : Word := 0
  s : Vector Word 32 := Vector.replicate 32 0
  a : Vector AReg 16 := Vector.replicate 16 {}
  p : Vector PWord 8 := Vector.replicate 8 0
  shape : Shape := {}
  level : BitVec 3 := 0
  portbind : Word := 0
  fpctl : Word := 0
  jobseed : Word := 0
  srctr : Word := 0
  wbatch : BitVec 16 := 0
  lcore : BitVec 13 := 0
  ctxtag : BitVec 16 := 0
  codeptr : Word := nullPtr
  kvtbase : Word := nullPtr
  instret : Word := 0
  priv : Bool := false
  pfx : Pfx := .none
  exitval : Word := 0
  fence : BitVec 4 := 0
  acquired : List AcqEntry := []
  scount : BitVec 63 := 0
  sphase : Bool := false
  recs : List CompRec := []
  misses : Word := 0
  xinv : Option Nat := none
  xreply : Option Word := none
  passed : List Nat := []
  held : Bool := false
  deriving DecidableEq, Repr

/-- An allocation area of a pad (R154): `base` is the key of its first byte, `bump` the bytes used, `hdrs` the keys at
which an object's header begins (R162), `dir` the copy directory from canonical pointers to header keys (R131), `rem`
the remembered set (R158). -/
structure Area where
  base : Nat := 0
  size : Nat := 0
  dirCap : Nat := 0
  bump : Nat := 0
  hdrs : List Nat := []
  dir : List (Nat × Nat) := []
  rem : List Nat := []
  passes : BitVec 32 := 0
  lastLive : Nat := 0
  lastPause : Nat := 0
  lastMoved : Nat := 0
  deriving DecidableEq, Repr

/-- A wide register: bits and guard descriptor (R304). -/
structure WReg where
  bits : VWord := 0
  desc : Word := 0
  deriving DecidableEq, Repr

/-- One stream of the vector unit (R262): `loc` is the place of the bound object, which does not move while bound. -/
structure Stream where
  bound : Bool := false
  run : Bool := false
  dir : Bool := false
  wcode : Nat := 0
  a : AReg := {}
  loc : Loc := .pad 0
  base : Nat := 0
  n : List Nat := [1, 1, 1, 1]
  st : List Int := [1, 0, 0, 0]
  pos : Nat := 0
  /-- elements of a read stream fetched ahead (R268): number in the walk, the context that they were fetched for, value -/
  buf : List (Nat × Nat × Nat) := []
  deriving DecidableEq, Repr

/-- A KV translation buffer entry (R364): `table` is bits [52:5] of the KVTABLE pointer. -/
structure KvtbEntry where
  valid : Bool := false
  table : BitVec 48 := 0
  page : BitVec 21 := 0
  own : Bool := false
  octx : BitVec 4 := 0
  stop : Bool := false
  limit : BitVec 5 := 0
  rowq : BitVec 6 := 0
  ptr : Word := nullPtr
  deriving DecidableEq, Repr

/-- A command in a WMB or copy-engine queue (R53, R272, R325): the context that pushed it, the command word, its batch,
what it takes from the push, what is done of it, and the fault that halted it. -/
structure Cmd where
  ctx : Nat := 0
  /-- its number among the engine work of its core -/
  num : Nat := 0
  word : KWord := 0
  batch : Nat := 0
  /-- rounding mode, generator seed, logical core and counter, and decode tables, as at the push (R223, R280) -/
  rm : Nat := 0
  seed : Nat := 0
  lcore : Nat := 0
  ctr : Nat := 0
  dts : List (List (BitVec 32)) := []
  /-- the copies that it reads and writes, in the order of its pointer fields, once their EREF counts it -/
  erefs : List Loc := []
  /-- the barrier copy to credit -/
  barrier : Option Loc := none
  started : Bool := false
  /-- tile jobs to dispatch, by number in the region; and those never dispatched, for which the command takes a queue
  entry (R272) -/
  todo : List Nat := []
  fresh : List Nat := []
  /-- it asked for a page and waits while a request of its engine is unanswered (R178, R285) -/
  parked : Bool := false
  /-- tile jobs that run: number in the region and multiplier -/
  jobs : List (Nat × Nat) := []
  /-- tile jobs that have zeroed their tile -/
  zeroed : List Nat := []
  /-- rows finished of each tile of the region (R293) -/
  rows : List Nat := []
  /-- pieces, bytes or pages done by a copy command -/
  prog : Nat := 0
  /-- the order of its pieces, with channel-grouped reads (R339); ascending when empty -/
  order : List Nat := []
  /-- length of the device's list of overwritten bytes at the push: a read may give what a later store overwrote (R290,
  R342) -/
  since : Nat := 0
  /-- readings of the aligned blocks: operand, row or column, first depth index; elements and scale bytes (R290) -/
  readings : List ((Nat × Nat × Nat) × List (Nat × Nat)) := []
  /-- copy commands: elements read and not yet written, by byte offset, size and value; number and index of the row
  under way; the source page read last; and the fault that stops the command once they are written -/
  buf : List (Nat × Nat × Nat) := []
  cur : Option (Nat × Nat) := none
  seen : Option Nat := none
  stop : Option (BitVec 8) := none
  bytes : Nat := 0
  dests : List (Word × Loc × Nat × Nat) := []
  fault : Option (BitVec 8) := none
  reported : Bool := false
  /-- accumulator tiles that the command names -/
  tiles : List Nat := []
  deriving DecidableEq, Repr

/-- A completion record of a halted command that waits for room in its context's record queue (R38, R292). -/
structure Owed where
  ctx : Nat
  batch : Nat
  record : CompRec
  deriving DecidableEq, Repr

/-- A completed command whose written bytes its context has not yet acquired by a wait (R299, R345). -/
structure Done where
  ctx : Nat
  batch : Nat
  dests : List (Word × Loc × Nat × Nat)
  deriving DecidableEq, Repr

/-- A cause that has fallen due and is pending, with the `trappc` and `trapval` that it had then (R396); `work` is the number
of the engine work for which a STEP waits (R414), or whose fault an ENGINE reports. -/
structure Pending where
  code : BitVec 8
  val : Word
  pc : Word
  ctx : Nat
  work : Option Nat := none
  deriving DecidableEq, Repr

/-- The miss shadow in use: the context whose KV lookup missed and the position that it looked up (R366, R371). -/
structure Miss where
  ctx : Nat
  pos : Word
  deriving DecidableEq, Repr

/-- A message with its header word and payload (R347). -/
structure Msg where
  hdr : Word
  body : List Word
  deriving DecidableEq, Repr

/-- An outstanding engine fault of a context (R397): the completion record, the cycle of the fault, the kind of work (1 WMB,
2 copy engine, 3 `cpost`) with its batch, and its number among the core's engine work. -/
structure EngFault where
  ctx : Nat
  record : Word
  at_ : Nat
  kind : Nat
  id : Nat
  num : Nat := 0
  deriving DecidableEq, Repr

/-- An `hwr` under way (R171): its context, the object, the body offset and the bytes. -/
structure HeapWrite where
  ctx : Nat
  obj : Loc
  off : Nat
  bytes : List Byte
  deriving DecidableEq, Repr

/-- The trap shadow's registers as firmware leaves them (R389): `a0` names the staging object, `codeptr` the resident
handler (R388); the others are zero (log entry 13). -/
def shadowStart : Context :=
  { st := .ready
    a := (Vector.replicate 16 {}).setIfInBounds 0 { ptr := 0x006000000003C020#64 }
    codeptr := 0x0060000000038000#64 }

/-- One core (R17): contexts 0 to 10, the trap shadow 11 and the miss shadow 12, and what they share. -/
structure Core where
  ctxs : Vector Context 13 := (Vector.replicate 13 {}).setIfInBounds 11 shadowStart
  /-- the context that executes -/
  act : Nat := 0
  /-- the context that issued last (R96) -/
  last : Nat := 10
  tshadow : Bool := false
  miss : Option Miss := none
  v : Vector VWord 32 := Vector.replicate 32 0
  /-- accumulator entries by slot: tile t is slots 64 t to 64 t + 63, spill slot n is 1024 + n; unlisted entries are 0 -/
  acc : List (Nat × Word) := []
  /-- spill slots tagged PTR (R103) -/
  ptrSlots : List Nat := []
  /-- bounds shadows of the pointers in spill slots, by slot (R34, R125; log entry 21) -/
  parked : List (Nat × Shadow) := []
  w : Vector WReg 8 := Vector.replicate 8 {}
  k : Vector KWord 4 := Vector.replicate 4 0
  /-- decode tables dt0 to dt3: entries as 32-bit values (R239) -/
  dt : Vector (List (BitVec 32)) 4 := Vector.replicate 4 []
  streams : Vector Stream 8 := Vector.replicate 8 {}
  ie : Bool := true
  tuft : Bool := false
  leader : Bool := false
  tidx : Nat := 0
  /-- the size a context waiting in `tuft` has given -/
  tuftAsk : Option Word := none
  tuftSize : Nat := 0
  /-- the GANG code that a waiting `tuft` will raise -/
  tuftFail : Option Nat := none
  trapcause : BitVec 8 := 0
  trapval : Word := 0
  trappc : Word := 0
  trapflags : BitVec 8 := 0
  dbgctl : BitVec 3 := 0
  watch : Word := nullPtr
  timercmp : Word := BitVec.allOnes 64
  secure : Bool := false
  lock : Bool := false
  /-- the record resident on the core -/
  recId : Option Nat := none
  halted : Bool := false
  pad : Area := {}
  /-- WMB (R272, R304): commands in flight, the status flags in the order of `fpctl`, tile jobs dispatched since launch,
  and completed commands not yet acquired -/
  wmb : List Cmd := []
  owed : List Owed := []
  /-- commands and posts pushed, by which each has a number -/
  works : Nat := 0
  wflags : Nat := 0
  wjobs : Nat := 0
  wdone : List Done := []
  /-- copy engine (R325, R346): commands in flight, completed commands not yet acquired, bytes written and pages made
  resident since launch -/
  copies : List Cmd := []
  cpdone : List Done := []
  cpbytes : Nat := 0
  cppages : Nat := 0
  faults : List EngFault := []
  /-- interrupts raised and not yet due at a boundary: cause code and value (R395) -/
  raised : List (BitVec 8 × Word) := []
  /-- causes that fell due at a boundary where an earlier one was taken (R396) -/
  pending : List Pending := []
  rx : List Msg := []
  rxpos : Nat := 0
  kvtb : Vector KvtbEntry 64 := Vector.replicate 64 {}
  kvnext : Nat := 0
  /-- `hwr` writes of the core not yet performed, oldest first (R171, R173) -/
  hwrs : List HeapWrite := []
  deriving DecidableEq, Repr

/-- A mutex of an event unit (R203): its holder, as logical core and context, and ABANDONED. -/
structure Mutex where
  holder : Option (Nat × Nat) := none
  abandoned : Bool := false
  deriving DecidableEq, Repr

/-- The event unit's state for one record in one cluster (R199): words of lines 0 to 30, and those of line 31, the
tier-miss events that the record caused (R175). -/
structure EventSet where
  lines : List (Nat × List Word) := []
  misses : List Word := []
  mutexes : List (Nat × Mutex) := []
  deriving DecidableEq, Repr

/-- An arrival at a superstep: logical core, level, count and phase (R215). -/
structure Arrival where
  lcore : Nat
  level : Nat
  count : Nat
  phase : Bool
  /-- the instance has moved on; the context has yet to retire its `sstep` -/
  moved : Bool := false
  deriving DecidableEq, Repr

/-- What is saved of a core that has left its record (R408): the core, the bytes, dirty bytes, poisoned granules and
written units of its pad, the raw sections of its record's areas that its image in memory holds, by kind, and whether the
hardware saved it at a boundary, without an image in memory. -/
structure Image where
  core : Core
  mem : Mem := []
  dirty : List Nat := []
  poison : List Nat := []
  units : List Nat := []
  areas : List (Nat × List Byte) := []
  direct : Bool := false
  deriving DecidableEq, Repr

/-- The state of a launch record on the device. -/
inductive RecState where
  | waiting | running | switched | ended
  deriving DecidableEq, Repr

/-- The 128-byte gang launch record, field by field (R113). -/
structure Launch where
  code : Word := nullPtr
  entry : Nat := 0
  base : Word := 0
  count : Nat := 0
  cores : Nat := 1
  groups : Nat := 1
  domain : Nat := 0
  prio : Nat := 0
  vf : Nat := 0
  steps : Nat := 0
  asid : Nat := 0
  lsdrecs : Nat := 0
  parts : List Nat := []
  wait : List Word := []
  signal : Word := nullPtr
  seed : Word := 0
  arg : Word := nullPtr
  deriving DecidableEq, Repr

/-- A launch record the device has taken: its fields, where it came from and where it runs (R115, R119, R155). -/
structure Rec where
  l : Launch := {}
  st : RecState := .waiting
  /-- the host queue it was taken from, or whose device launch queue it stands in -/
  queue : Option Nat := none
  fromHost : Bool := true
  /-- host-queue index of the record, for its completion -/
  index : Nat := 0
  chan : Bool := false
  boot : Bool := false
  part : Nat := 0
  ctxtag : Nat := 0
  /-- phases of the wait objects when the record was queued -/
  waitPhases : List Nat := []
  /-- wait objects whose WAITERS count the record while it is queued (R205) -/
  counted : List Word := []
  /-- site of each logical core (R119) -/
  place : List Nat := []
  careas : List (Nat × Area) := []
  dareas : List (Nat × Area) := []
  /-- the copy of its code that the launch placed, which lies outside the areas of objects (R68; log entry 20) -/
  text : List Byte := []
  evsets : List (Nat × EventSet) := []
  arrivals : List Arrival := []
  /-- logical cores whose control context has ended, and the cause and value of the first that faulted -/
  ended : List Nat := []
  /-- keys of the headers of the stack objects that the launch made (R117, R148) -/
  stackObjs : List Nat := []
  endFault : Option (BitVec 8 × Word) := none
  /-- offset of the first offending field of an invalid record (R425) -/
  field : Nat := 0
  /-- its end has been reported and its cores given back -/
  closed : Bool := false
  /-- the cycle from which its core-cycles have not been counted as served (R427) -/
  ranFrom : Nat := 0
  steps : Nat := 0
  queuedAt : Nat := 0
  startedAt : Nat := 0
  lastStep : Nat := 0
  stepTime : Nat := 0
  images : List (Nat × Image) := []
  /-- logical cores whose core has been vacated and not resumed -/
  vacated : List Nat := []
  /-- bytes, dirty bytes, poison and units of the record's areas while it is switched out -/
  areaSave : Image := { core := {} }
  /-- raw and coded bytes of the record's last `ckpt` (R433) -/
  lastCkpt : Option (Nat × Nat) := none
  ctxbufs : List (Nat × Word) := []
  boundary : Bool := false
  /-- the cycle since which the scheduler wants it switched out (R428) -/
  switchAsked : Option Nat := none
  /-- the cycle since which it has been eligible (R429) -/
  eligibleAt : Option Nat := none
  /-- withdrawn or discarded: the completion status, once it has ended otherwise than by itself -/
  status : Option Nat := none
  deriving DecidableEq, Repr

/-- A page-table entry held by the translation agent (R136, R178): the frame of 4 KiB, of HBM or beyond it (log entry 104),
write permission, whether the page lies in HBM exposed as HDM-DB, and its logical module when its home is another one. -/
structure Pte where
  frame : Nat
  write : Bool
  hbm : Bool
  home : Option Nat := none
  deriving DecidableEq, Repr

/-- Who waits for a page. -/
inductive Owner where
  | ctx (site ctx : Nat)
  /-- a command of the WMB, by its number among the core's engine work: a page request parks that command alone (R285) -/
  | wmb (site num : Nat)
  | copy (site : Nat)
  /-- the device itself: rings, save images, CTXBUF objects, completions -/
  | device
  deriving DecidableEq, Repr

/-- A page of the tier pool (R176, R337): its ASID and page, the frame whose bytes it holds, and its frame of HBM. -/
structure TierPage where
  asid : Nat
  page : Nat
  frame : Nat
  hbm : Nat
  deriving DecidableEq, Repr

/-- A translation or page request (R136, R178); `refused` once the host has answered it as invalid. -/
structure PageReq where
  asid : Nat
  page : Nat
  write : Bool
  owner : Owner
  refused : Bool := false
  deriving DecidableEq, Repr

/-- What a waiting context stands in line for, in order of arrival (R200, R203, R213). -/
inductive WaitKey where
  | line (r cluster k : Nat)
  | mutex (r cluster m : Nat)
  | deque (v : Loc)
  /-- counted in WAITERS of the BARRIER copy at `v` (R209) -/
  | barrier (v : Loc)
  /-- a sender that waits for a free entry of a line (R202) -/
  | space (r cluster k : Nat)
  deriving DecidableEq, Repr

/-- A context in line; in a barrier's line the phase it awaits and word 0 as read when that phase completed. -/
structure Waiter where
  key : WaitKey
  site : Nat
  ctx : Nat
  phase : Nat := 0
  got : Option Word := none
  deriving DecidableEq, Repr

/-- A term of a queued reduction: body offset, value, and the site and context it came from, none once that core has been
discarded. -/
structure RedTerm where
  off : Nat
  val : Word
  sender : Option (Nat × Nat)
  deriving DecidableEq, Repr

/-- A pending entry of an atomic port (R194, R195): operation, scope and format, the copy and its 64-byte line, and the
terms in order of arrival. -/
structure Red where
  op : Nat
  scope : Nat
  v : Loc
  line : Nat
  fmt : Nat
  terms : List RedTerm
  deriving DecidableEq, Repr

/-- Bytes that a store overwrote while an engine command was in flight: the place, the body offset and the bytes (R290). -/
structure OldBytes where
  v : Loc
  off : Nat
  bytes : List Byte
  deriving DecidableEq, Repr

/-- A queued `cpost` (R172): source and destination with their body offsets, the length, and the barrier to credit. -/
structure Post where
  site : Nat
  ctx : Nat
  src : Loc
  srcOff : Nat
  dst : Loc
  dstOff : Nat
  n : Nat
  bar : Option Loc
  /-- its number among the engine work of its core -/
  num : Nat := 0
  deriving DecidableEq, Repr

/-- A message or put under way (R349, R356). The sender is a context of a logical core of a record, whatever site that core
has moved to since (R188, R412); `srcSite` is the site that it was sent from. `target` is the target record of a message;
`site` the destination site when it goes to a core of another record (modes 1 and 2). -/
structure Flit where
  put : Bool
  srcSite : Nat
  srcLc : Nat := 0
  srcCtx : Nat
  srcRec : Nat
  msg : Msg
  target : Option Nat := none
  /-- destination logical core -/
  dst : Nat := 0
  site : Option Nat := none
  /-- for a put: the pointer, the body offset and the bytes -/
  ptr : Word := nullPtr
  off : Nat := 0
  bytes : List Byte := []
  /-- the ASID and the world of the sender, under which a put is performed -/
  asid : Nat := 0
  secure : Bool := false
  /-- it has left the send buffer -/
  sent : Bool := false
  /-- the cycle since which the receiver holds it back -/
  since : Option Nat := none
  deriving DecidableEq, Repr

/-- A turn of the schedule: an outside event or engine step, an issue of a named context, or the passing of time. -/
inductive Turn where
  | event (i : Instr)
  | issue (site ctx : Nat)
  | cycles (n : Nat)
  /-- a dirty cluster-pad or die-pad copy is carried down of itself (R185) -/
  | carry (rid key : Nat)
  /-- a read stream fetches an element ahead for a context (R268) -/
  | fetch (site k elem ctx : Nat)
  /-- message or put number k leaves its send buffer (R349) -/
  | depart (k : Nat)
  /-- the network interface of a site moves its oldest buffered message into the queue (R349) -/
  | refill (site : Nat)
  deriving DecidableEq, Repr

/-- What belongs to the instruction under way and takes effect when it retires (R37, R263): words taken from the ports,
records popped from streams, the words it pushes at `s28`, the next pc when it transfers control, and the canonical
pointer of a watched object it has written. -/
structure Tx where
  pops28 : Nat := 0
  pops29 : Nat := 0
  pops30 : Nat := 0
  pops31 : Nat := 0
  /-- words of the line of `s31` that are for contexts which began to wait earlier (R200) -/
  skip31 : Nat := 0
  deque : Option Loc := none
  /-- pieces popped from streams: stream, elements, and the register's new value -/
  spops : List (Nat × Nat × VWord) := []
  /-- the word of the instruction, and `portbind` and `dbgctl` as they stood when it issued: a write of either takes effect
  for the next instruction (R87) -/
  word : Word := 0
  bind : Word := 0
  dbg : BitVec 3 := 0
  /-- `ctxtag` and `status.CTX` as they stood then, for the messages that it sends (R87, R347) -/
  ctag : BitVec 16 := 0
  sctx : Nat := 0
  pushes : List Word := []
  npc : Option Word := none
  watch : Option Word := none
  /-- the cause that the instruction raises once it has completed (R391) -/
  after : Option (BitVec 8 × Word) := none
  pushed : Bool := false
  /-- a write of `s28` was refused: the instruction has no effect (R352) -/
  undone : Bool := false
  deriving DecidableEq, Repr

/-- The states of start-up (R441). -/
inductive Phase where
  | off | rom | selftest | load | init | ready
  /-- READY, with the discard of a fatal fault under way (R381, R417) -/
  | failing
  | safe
  deriving DecidableEq, Repr

/-- A heap region of an ASID (R165): virtual base, bytes used, and whether it is on the free list. -/
structure HeapRegion where
  base : Nat
  used : Nat := 0
  deriving DecidableEq, Repr

/-- What the device holds for an ASID (R165, R420): its VF and PASID, granted regions in filling order, headers of
its heap objects, the heap-pass state: pending number, number of the last completed pass, regions freed by it; and the
core-cycles served to it (R427). -/
structure AsidSt where
  served : Nat := 0
  vf : Nat := 0
  pasid : Nat := 0
  regions : List HeapRegion := []
  objs : List Nat := []
  /-- headers of objects that `root` has marked and the device has not placed (R148) -/
  roots : List Nat := []
  passPending : Option Nat := none
  passDone : Nat := 0
  passFreed : Nat := 0
  deriving DecidableEq, Repr

/-- A world region-table entry (R439): `base` and `units` count 2 MiB units. -/
structure WorldRegion where
  valid : Bool := false
  base : Nat := 0
  units : Nat := 0
  secure : Bool := false
  lock : Bool := false
  deriving DecidableEq, Repr

/-- A touch's copy-in that is under way (R130, R132). -/
structure CopyIn where
  site : Nat
  ctx : Nat
  canon : Word
  deriving DecidableEq, Repr

/-- A partition descriptor (R431). -/
structure Partition where
  base : Nat := 0
  len : Nat := 0
  minCores : Nat := 0
  minBw : Nat := 0
  upper : Bool := false
  deriving DecidableEq, Repr

/-- A snapshot of a VF (R436): its epoch, the addresses of the dirty log and of the area in host memory, the places of the
area, the pages copied there in the order of their places, the pages written since, and whether a page found no place. -/
structure Snap where
  epoch : Nat
  dlog : Word
  area : Word
  places : Nat
  copies : List Nat := []
  written : List Nat := []
  failed : Bool := false
  deriving DecidableEq, Repr

/-- What the device holds for a function: VF v under its number, PF n under 256 + n (R421). -/
structure Vf where
  featAcc : Nat := 0
  /-- KV-pool frames charged to the VF (R358) -/
  kvUsed : Nat := 0
  /-- event ring: the host's index and the device's next write index (R426) -/
  evHead : BitVec 32 := 0
  evTail : BitVec 32 := 0
  /-- request ring: the same -/
  reqHead : BitVec 32 := 0
  reqTail : BitVec 32 := 0
  /-- sequence number of the last request -/
  seq : Nat := 0
  snap : Option Snap := none
  epoch : Nat := 0
  stopping : Bool := false
  /-- `STOPSTAT` holds the stopped status (R437) -/
  stopped : Bool := false
  /-- TDISP interface state: 0 CONFIG_UNLOCKED, 1 CONFIG_LOCKED, 2 RUN, 3 ERROR (R419) -/
  tdisp : Nat := 0
  deriving DecidableEq, Repr

/-- A host queue (R423): its descriptor, and the 32-bit indices of the next record to fetch, of the tail and of the
next completion entry; `passed` is the count k of R427. -/
structure Queue where
  vf : Nat := 0
  num : Nat := 0
  ring : Nat := 0
  cring : Nat := 0
  entries : Nat := 2
  asid : Nat := 0
  prio : Nat := 0
  chan : Bool := false
  part : Nat := 0
  save : Word := nullPtr
  saveSz : Nat := 0
  ctxSlots : Nat := 1
  enabled : Bool := true
  head : BitVec 32 := 0
  tail : BitVec 32 := 0
  chead : BitVec 32 := 0
  passed : Nat := 0
  deriving DecidableEq, Repr

/-- A partition's reservation (R429): the record that holds it and the sites of its window. -/
structure Resv where
  rid : Nat
  sites : List Nat
  deriving DecidableEq, Repr

/-- A partition's slice (R427): the VF and the cycle at which it began. -/
structure Slice where
  vf : Nat
  start : Nat
  deriving DecidableEq, Repr

/-- Cornice outcomes (R434, R435). -/
inductive Outcome where
  | run | checkpoint | discard | withdrawn
  deriving DecidableEq, Repr

/-- A queue of a deadline's target (R434, R435); estimates of none are infinite. -/
structure DlQueue where
  q : Nat
  /-- records resident at the post -/
  recs : List Nat := []
  outcome : Outcome
  /-- 0 none, 1 discarded at D - T_d, 2 `ckpt` failed -/
  fallback : Nat := 0
  remaining : Option Nat := some 0
  ckptEst : Option Nat := some 0
  vacant : Option Nat := none
  deriving DecidableEq, Repr

/-- A posted deadline (R433) whose report has not been written. -/
structure Deadline where
  isVf : Bool
  target : Nat
  at_ : Nat
  report : Word
  posted : Nat
  queues : List DlQueue
  deriving DecidableEq, Repr

/-- A target of a posted deadline and its D: until then nothing of it is dispatched or resumed (R26, R433). -/
structure Bar where
  isVf : Bool
  target : Nat
  at_ : Nat
  deriving DecidableEq, Repr

/-- What the host has asked for and the device has not yet done, for it waits for a page, for accesses in flight or for records
to end: an invalidation (R179), a deadline of a PF driver (R433), a queue (R423), the unbind of an ASID (R420), and the discards
of a fatal fault (R381, R417). -/
inductive HostWait where
  | invalidation (asid page count : Nat)
  | deadline (pf vf : Nat) (at_ report : Word)
  | queue (vf num : Nat) (desc : BitVec 512)
  | unbind (asid : Nat)
  | fatal (cls unit : Nat)
  deriving DecidableEq, Repr

/-- An entry of the controller's log (R450). -/
structure LogEntry where
  cycle : Nat
  cls : Nat
  kind : Nat
  unit : Nat
  d0 : Word := 0
  d1 : Word := 0
  deriving DecidableEq, Repr

/-- The mailbox (R446) beside its plain registers: `result` is the error code that the running command will show, `commit`
marks an `IMGCOMMIT` whose commit flag is still to be written, `held` are the target, D and report object of a `DEADLINE` that
waits for a page of the object, and `msi` counts the messages of MSI-X vector 0 of PF 0. -/
structure Mailbox where
  commit : Bool := false
  busy : Bool := false
  done : Bool := false
  event : Bool := false
  lastErr : Nat := 0
  result : Nat := 0
  resp : Word := 0
  held : Option (Bool × Nat × Nat × Word) := none
  msi : Nat := 0
  deriving DecidableEq, Repr

/-- Controller flash and fuses (R448, R449, R453). -/
structure Flash where
  active : List Byte := []
  pend : List Byte := []
  commit : Bool := false
  counter : Nat := 0
  /-- retirement record: clusters and channels -/
  clusters : List Nat := []
  channels : List Nat := []
  deriving DecidableEq, Repr

/-- A KVTABLE that an instruction has named, of those whose pages R386 finds: its ASID and address, the record whose
context opened its last window, the owner of an open window as logical core and context, an abort of that window (R381) and a
stop of the table (R386) that wait for the table's pages, and the poisoned pages that it may name, which the device does not see
until the table's pages are mapped. -/
structure KvTab where
  asid : Nat
  va : Nat
  rid : Option Nat := none
  owner : Option (Nat × Nat) := none
  abort : Bool := false
  stop : Bool := false
  suspects : List Loc := []
  deriving DecidableEq, Repr

/-- A unit that can be retired (R453). -/
inductive RetUnit where
  | cluster (n : Nat)
  | channel (n : Nat)
  deriving DecidableEq, Repr

/-- An entry for a VF's event ring that has not been written (R426). -/
structure HostEvent where
  vf : Nat
  kind : Nat
  data : Nat := 0
  ptr : Word := 0
  deriving DecidableEq, Repr
/-- The whole module. -/
structure State where
  /-- the executing core's site -/
  site : Nat := 0
  cycle : Word := 0
  cores : List (Nat × Core) := []
  mem : Mem := []
  /-- keys of the dirty bytes of pad copies, rising (R130) -/
  dirty : List Nat := []
  /-- numbers of the poisoned 32-byte granules, rising (R135; log entry 8) -/
  poison : List Nat := []
  recs : List (Nat × Rec) := []
  nextRec : Nat := 0
  /-- page tables: entry of page VA[52:12] of an ASID at key asid * 2^41 + page -/
  ptes : List (Nat × Pte) := []
  pageReqs : List PageReq := []
  /-- tier pool, oldest page first (R176) -/
  tier : List TierPage := []
  /-- route table of the load-store domain: entry of a logical module; those not listed are 0 (R120) -/
  routes : List (Nat × Word) := []
  waitq : List Waiter := []
  reds : List Red := []
  posts : List Post := []
  net : List Flit := []
  /-- dropped tier-miss events by cluster (R175, selector 9 of R167) -/
  missDrops : List (Nat × Nat) := []
  deadPorts : List Nat := []
  fused : List Nat := []
  phase : Phase := .off
  tx : Tx := {}
  agenda : List Turn := []
  turn : Nat := 0
  /-- `FEATOFF`, the same at every function (R421; log entry 10) -/
  featOff : BitVec 256 := 0
  /-- the model's own counter of free values drawn -/
  free : Nat := 0
  asids : List (Nat × AsidSt) := []
  regionTbl : List (Nat × WorldRegion) := []
  copyins : List CopyIn := []
  /-- numbers of the 1-KiB pad units written since launch, rising (R406) -/
  units : List Nat := []
  /-- what stores have overwritten while engine commands are in flight, newest first (R290) -/
  olds : List OldBytes := []
  /-- valid partitions (R431) -/
  partitions : List (Nat × Partition) := []
  /-- the WMB arbiter (R272): for a core with a dispatchable tile job, the jobs dispatched to every other core since its
  last one -/
  arb : List (Nat × List (Nat × Nat)) := []
  vfs : List (Nat × Vf) := []
  kvTabs : List KvTab := []
  /-- KV-pool frames in use, rising (R358) -/
  kvFrames : List Nat := []
  /-- event-ring entries not yet written, in the order in which they arose (R426) -/
  hostEvents : List HostEvent := []
  queues : List (Nat × Queue) := []
  slices : List (Nat × Slice) := []
  resvs : List (Nat × Resv) := []
  deadlines : List Deadline := []
  bars : List Bar := []
  hostWaits : List HostWait := []
  mailbox : Mailbox := {}
  /-- log entries kept, and those beyond the log's capacity (R444) -/
  log : List LogEntry := []
  logLost : Nat := 0
  flash : Flash := {}
  /-- plain registers: MBARG0 to MBARG6 and MBDATA under their offsets, REPLYVAL and the like under function times 2^32 -/
  regs : List (Nat × Word) := []
  /-- code of the resident handler as LOAD places it on every core (R388), and on the cores where INIT has installed another
  (R463) -/
  handler : List Byte := []
  handlers : List (Nat × List Byte) := []
  /-- what the device has written to host memory by host address: ring entries, snapshot areas and dirty logs (R426, R436; log
  entry 72) -/
  hostMem : Mem := []
  /-- HBM channels whose pages are lost (R453), and the channel of each 4 KiB of a frame of the KV pool that has been moved -/
  lostChannels : List Nat := []
  kvMoved : List (Nat × Nat) := []
  /-- units that are being retired: they take nothing new (R453) -/
  fencing : List RetUnit := []
  /-- uncorrectable errors by unit since reset (R453) -/
  errors : List (RetUnit × Nat) := []
  /-- answers given to SPDM requests (R451), and what host reads returned, none for poisoned data (R440) -/
  spdm : List (List Byte) := []
  hostReads : List (Option (List Byte)) := []
  deriving DecidableEq, Repr

/-- The module right after reset: start-up is in ROM (R441), the flash holds the image that the module is delivered with
(log entry 16), `FEATOFF` lists what the device offers, nothing lies in memory and no record runs; every core is as R88, R103
and the structures above give it. -/
def State.reset : State := { phase := .rom, flash := { active := Config.shippedImage }, featOff := Config.offered.setWidth 256 }

end Sys2Proof.Machine
end

