-- ==== Sys2Proof/Machine/Tables.lean ====
section
/-! DEFINITION. Tables: the sorted tables that hold cores, records and memory, and the bytes of memory. -/

namespace Sys2Proof.Machine

/-- The entry of a key in a table, or the default. -/
def lookup {α : Type} (d : α) (k : Nat) : List (Nat × α) → α
  | [] => d
  | (j, v) :: t => if j = k then v else lookup d k t

/-- The entry of a key, if it is listed. -/
def find {α : Type} (k : Nat) : List (Nat × α) → Option α
  | [] => none
  | (j, v) :: t => if j = k then some v else find k t

/-- Sets the entry of a key, keeping the keys rising. -/
def store {α : Type} (k : Nat) (v : α) : List (Nat × α) → List (Nat × α)
  | [] => [(k, v)]
  | (j, u) :: t =>
    if k < j then (k, v) :: (j, u) :: t
    else if k = j then (k, v) :: t
    else (j, u) :: store k v t

/-- Removes the entry of a key. -/
def erase {α : Type} (k : Nat) : List (Nat × α) → List (Nat × α)
  | [] => []
  | (j, u) :: t => if j = k then erase k t else (j, u) :: erase k t

/-- Adds a number to a rising list. -/
def insertKey (k : Nat) : List Nat → List Nat
  | [] => [k]
  | j :: t => if k < j then k :: j :: t else if k = j then j :: t else j :: insertKey k t

/-- Whether a number lies in [a, a + n). -/
def within (a n k : Nat) : Bool := decide (a ≤ k) && decide (k < a + n)

/-- Removes the numbers of [a, a + n) from a list. -/
def dropRange (a n : Nat) (l : List Nat) : List Nat := l.filter fun k => !within a n k

/-- The numbers of [a, a + n) in a list. -/
def takeRange (a n : Nat) (l : List Nat) : List Nat := l.filter fun k => within a n k

/-- The byte at a key. -/
def Mem.byte (m : Mem) (a : Nat) : Byte := lookup 0 a m

/-- Writes the byte at a key. -/
def Mem.set (m : Mem) (a : Nat) (b : Byte) : Mem := if b = 0 then erase a m else store a b m

/-- Zeroes the bytes of [a, a + n). -/
def Mem.clear (m : Mem) (a n : Nat) : Mem := m.filter fun c => !within a n c.1

/-- Writes bytes at rising keys. -/
def Mem.setBytes (m : Mem) (a : Nat) : List Byte → Mem
  | [] => m
  | b :: t => Mem.setBytes (m.set a b) (a + 1) t

/-- The n bytes from a key on. -/
def Mem.bytes (m : Mem) (a : Nat) : Nat → List Byte
  | 0 => []
  | n + 1 => m.byte a :: m.bytes (a + 1) n

/-- Copies the n bytes at `src` to `dst`: every source byte is read before a destination byte is written. -/
def Mem.copy (m : Mem) (src dst n : Nat) : Mem :=
  (m.filter fun c => within src n c.1).foldl (fun acc c => acc.set (dst + (c.1 - src)) c.2) (m.clear dst n)

/-- The number of n little-endian bytes (R3). -/
def Mem.read (m : Mem) (a : Nat) : Nat → Nat
  | 0 => 0
  | n + 1 => (m.byte a).toNat + 256 * m.read (a + 1) n

/-- The n low bytes of a number, least significant first (R3). -/
def leBytes (v : Nat) : Nat → List Byte
  | 0 => []
  | n + 1 => BitVec.ofNat 8 v :: leBytes (v / 256) n

/-- The number of little-endian bytes. -/
def ofBytes : List Byte → Nat
  | [] => 0
  | b :: t => b.toNat + 256 * ofBytes t

/-- Writes the n low bytes of a number. -/
def Mem.write (m : Mem) (a n v : Nat) : Mem := m.setBytes a (leBytes v n)

/-- The 64-bit word at a key. -/
def Mem.word (m : Mem) (a : Nat) : Word := BitVec.ofNat 64 (m.read a 8)

/-- Keys rise strictly and no listed byte is zero. -/
def Mem.wf : Mem → Bool
  | [] => true
  | [c] => c.2 != 0
  | c :: d :: t => c.2 != 0 && decide (c.1 < d.1) && Mem.wf (d :: t)

/-- A field [hi:lo] of a number. -/
def fieldN (v lo width : Nat) : Nat := v / 2 ^ lo % 2 ^ width

/-- A field of a word, as a number. -/
def bitsOf (w : Word) (lo width : Nat) : Nat := fieldN w.toNat lo width

/-- A word with one field replaced. -/
def setBits (w : Word) (lo width v : Nat) : Word :=
  BitVec.ofNat 64 (w.toNat - fieldN w.toNat lo width * 2 ^ lo + v % 2 ^ width * 2 ^ lo)

/-- The low n bits of a number read as two's complement (R8). -/
def signExt (n v : Nat) : Int :=
  if v % 2 ^ n < 2 ^ (n - 1) then (v % 2 ^ n : Nat) else ((v % 2 ^ n : Nat) : Int) - (2 ^ n : Nat)

/-- A word from an exact integer, truncated (R6). -/
def toWord (x : Int) : Word := BitVec.ofInt 64 x

/-- floor(a / b) rounded up. -/
def ceilDiv (a b : Nat) : Nat := (a + b - 1) / b

end Sys2Proof.Machine
end

