-- ==== Sys2Proof/Machine/Base.lean ====
section
/-! DEFINITION. Base: how an instruction's effect is written, and the registers it reads and writes. An effect is a
computation over the state that ends normally or leaves early with a trap or a wait; every state change made before it
leaves stands (R7). -/

namespace Sys2Proof.Machine

/-- Trap causes (R391). -/
inductive Cause where
  | illegal | priv | misalign | bounds | nullptr | type | translate | poison | padfull | guard | quota | engine
  | copyovl | barrier | world | gang | brk | syscall | step | watch | interrupt | cornice | timer
  deriving DecidableEq, Repr

/-- Cause codes (R391). -/
def Cause.code : Cause → BitVec 8
  | .illegal => 0x01 | .priv => 0x02 | .misalign => 0x03 | .bounds => 0x04 | .nullptr => 0x05 | .type => 0x06
  | .translate => 0x07 | .poison => 0x08 | .padfull => 0x09 | .guard => 0x0A | .quota => 0x0B | .engine => 0x0C
  | .copyovl => 0x0D | .barrier => 0x0E | .world => 0x0F | .gang => 0x10 | .brk => 0x11 | .syscall => 0x12
  | .step => 0x13 | .watch => 0x14 | .interrupt => 0x20 | .cornice => 0x21 | .timer => 0x22

/-- Asynchronous causes (R391). -/
def Cause.async : Cause → Bool
  | .engine | .interrupt | .cornice | .timer => true
  | _ => false

/-- How an effect leaves early. -/
inductive Exit where
  /-- `Raise(cause, val)` (R7). -/
  | trap (c : Cause) (val : Word)
  /-- The instruction waits and nothing of it takes effect (R37). -/
  | wait
  /-- The instruction waits; what it has recorded so far stands (a page request, an arrival, a place in a line). -/
  | waitKeep
  /-- An area of a level has too little room for some bytes: a Scree pass is made there and the instruction goes on
  (R131, R145, R150, R156). -/
  | room (level bytes : Nat)
  /-- The instruction stops without effect and the miss shadow takes its context's turns (R366). -/
  | shadow
  /-- The effect stands, and there is nothing left to retire: `tret`, `halt`, and a `ckpt` that vacates (R400, R401,
  R408). -/
  | gone
  /-- An event that is not due changes nothing. -/
  | stutter
  deriving DecidableEq, Repr

/-- The effect of an instruction or event. -/
abbrev Op := EStateM Exit State

def raise {α : Type} (c : Cause) (v : Word) : Op α := throw (.trap c v)
def illegal {α : Type} (v : Word) : Op α := raise .illegal v
def waitHere {α : Type} : Op α := throw .wait
def waitKeep {α : Type} : Op α := throw .waitKeep
def stutter {α : Type} : Op α := throw .stutter

/-- Goes on only when the condition holds; otherwise traps. -/
def require (b : Bool) (c : Cause) (v : Word) : Op Unit := if b then pure () else raise c v

/-- The instructions that the miss shadow refuses (R366, R398). -/
def notInMiss : Op Unit := fun s => if (lookup {} s.site s.cores).act = 12 then .error (.trap .illegal 0) s else .ok () s

/-- Goes on only when an event is due. -/
def due (b : Bool) : Op Unit := if b then pure () else stutter

/-- Keeps what the host has asked for until the device has done it, where that must wait for a page or for work to end. -/
def keepTrying (i : HostWait) (body : Op Unit) : Op Unit := fun s =>
  let keep := fun (t : State) => if t.hostWaits.contains i then t else { t with hostWaits := t.hostWaits ++ [i] }
  let drop := fun (t : State) => { t with hostWaits := t.hostWaits.filter fun j => decide (j ≠ i) }
  match body s with
  | .ok _ t => .ok () (drop t)
  | .error .wait _ => .ok () (keep s)
  | .error .waitKeep t => .ok () (keep t)
  | .error _ _ => .ok () (drop s)

/-- An option that must be present for an event to be due. -/
def dueSome {α : Type} : Option α → Op α
  | some x => pure x
  | none => stutter

/-! Cores and contexts. -/

def State.coreAt (s : State) (n : Nat) : Core := lookup {} n s.cores
def State.setCore (s : State) (n : Nat) (c : Core) : State := { s with cores := store n c s.cores }
def Core.ctxAt (c : Core) (n : Nat) : Context := c.ctxs[n]?.getD {}
def Core.setCtx (c : Core) (n : Nat) (x : Context) : Core := { c with ctxs := c.ctxs.setIfInBounds n x }
def State.core (s : State) : Core := s.coreAt s.site
def State.ctx (s : State) : Context := s.core.ctxAt s.core.act
def State.setCtx (s : State) (x : Context) : State := s.setCore s.site (s.core.setCtx s.core.act x)
def State.recAt (s : State) (r : Nat) : Rec := lookup {} r s.recs
def State.setRec (s : State) (r : Nat) (x : Rec) : State := { s with recs := store r x s.recs }

def getCore : Op Core := return (← get).core
def getCtx : Op Context := return (← get).ctx
def modCore (f : Core → Core) : Op Unit := modify fun s => s.setCore s.site (f s.core)
def modCtx (f : Context → Context) : Op Unit := modify fun s => s.setCtx (f s.ctx)
def modCoreAt (n : Nat) (f : Core → Core) : Op Unit := modify fun s => s.setCore n (f (s.coreAt n))
def modCtxAt (n x : Nat) (f : Context → Context) : Op Unit :=
  modCoreAt n fun c => c.setCtx x (f (c.ctxAt x))
def modRec (r : Nat) (f : Rec → Rec) : Op Unit := modify fun s => s.setRec r (f (s.recAt r))
def modTx (f : Tx → Tx) : Op Unit := modify fun s => { s with tx := f s.tx }

/-- Writes an entry of the controller's log (R444, R450): 16,384 entries are kept, and classes 2 to 6 set EVENT,
which raises MSI-X vector 0 of PF 0 (R446). -/
def State.addLog (s : State) (cls kind unit : Nat) (d0 d1 : Word) : State :=
  let e : LogEntry := { cycle := if s.phase = .ready ∨ s.phase = .failing then s.cycle.toNat else 0, cls := cls, kind := kind, unit := unit, d0 := d0, d1 := d1 }
  { s with
    log := if s.log.length < 16384 then s.log ++ [e] else s.log
    logLost := if s.log.length < 16384 then s.logLost else s.logLost + 1
    mailbox := { s.mailbox with
      event := s.mailbox.event || decide (2 ≤ cls)
      msi := s.mailbox.msi + if !s.mailbox.event && decide (2 ≤ cls) then 1 else 0 } }

/-- The next free value of a kind (log entry 1). -/
def freeWord : Op Word := do
  let s ← get
  set { s with free := s.free + 1 }
  return Config.freeWord s.free

/-! Places (R13, R16, R168, R430). -/

/-- The number of the first channel-core site. -/
def chanBase : Nat := 8192

/-- The sites of the package. -/
def siteCount : Nat := 8192 + 256

/-- Whether a site is a channel core (R168). -/
def isChan (site : Nat) : Bool := decide (chanBase ≤ site)

/-- The (x, y) place of a Hilbert index (R430): the levels still to do, the scale s and the index left. -/
def hilbertXY : Nat → Nat → Nat → Nat × Nat → Nat × Nat
  | 0, _, _, p => p
  | n + 1, s, t, (x, y) =>
    let rx := t / 2 % 2
    let ry := (t ^^^ rx) % 2
    let (x, y) := if ry = 0 then (if rx = 1 then (s - 1 - y, s - 1 - x) else (y, x)) else (x, y)
    hilbertXY n (s * 2) (t / 4) (x + s * rx, y + s * ry)

/-- Column and row of a site in its die's mesh. -/
def siteXY (site : Nat) : Nat × Nat := hilbertXY 5 1 (site % 1024) (0, 0)

/-- The die of a site. -/
def dieOf (site : Nat) : Nat := if isChan site then (site - chanBase) / 32 else site / 1024

/-- The cluster of an ordinary site, numbered die × 128 + cluster row × 8 + cluster column (R16). A channel core belongs
to no cluster and answers a number that no cluster has. -/
def clusterOf (site : Nat) : Nat :=
  if isChan site then 1024 + (site - chanBase)
  else
    let p := siteXY site
    dieOf site * 128 + p.2 / 2 * 8 + p.1 / 4

/-- The position of a site in its cluster, column + 4 × row (R105). -/
def positionOf (site : Nat) : Nat :=
  let p := siteXY site
  p.1 % 4 + 4 * (p.2 % 2)

/-- Keys of the pads. -/
def corePadKey (site : Nat) : Nat := 2 ^ 60 + site * 2 ^ 18
def clusterPadKey (n : Nat) : Nat := 2 ^ 61 + n * 2 ^ 22
def diePadKey (n : Nat) : Nat := 2 ^ 62 + n * 2 ^ 28
def kvFrameKey (f : Nat) : Nat := 2 ^ 63 + f * 2 ^ 17

/-- Body offset 0 of the staging object, where the frame lies (R388, R390). -/
def frameKey (site : Nat) : Nat := corePadKey site + 0x3C020 + 32

/-- Header of the resident handler (R388). -/
def handlerKey (site : Nat) : Nat := corePadKey site + 0x38000

/-- Sites fused off at manufacture, at most 32 a die (R14). -/
def fuseMap : List Nat :=
  ((List.range 8).map fun d => (((List.range 1024).map (· + d * 1024)).filter Config.fusedOff).take 32).flatten

/-- Sites that are fused off or named in the retirement record: cores of retired clusters, and channel cores (R453). -/
def State.offSites (s : State) : List Nat :=
  fuseMap ++ ((List.range chanBase).filter fun x => s.flash.clusters.contains (clusterOf x))
    ++ s.flash.channels.map fun c => chanBase + c

/-! Status (R89). -/

/-- The trap shadow executes. -/
def Core.inTrap (c : Core) : Bool := c.act = 11
/-- The miss shadow executes. -/
def Core.inMiss (c : Core) : Bool := c.act = 12
/-- `status.PRIV`. -/
def Core.isPriv (c : Core) : Bool := c.inTrap || (c.ctxAt c.act).priv
/-- `status.CTX`: the shadows repeat the number of the context they serve (R389). -/
def Core.ctxNo (c : Core) : Nat :=
  if c.act = 11 then c.trapflags.toNat / 16 else if c.act = 12 then (c.miss.map (·.ctx)).getD 0 else c.act

def boolBit (b : Bool) (n : Nat) : Nat := if b then 2 ^ n else 0

/-- The value of `status` (R89). -/
def statusWord (site : Nat) (c : Core) : Word :=
  BitVec.ofNat 64 (c.ctxNo * 4096 + boolBit c.inTrap 11 + boolBit c.inMiss 10 + boolBit c.isPriv 9
    + boolBit c.tuft 8 + boolBit c.leader 7 + c.tidx % 4 * 16 + boolBit c.ie 3 + boolBit (isChan site) 1
    + boolBit c.secure 0)

/-! Features (R421, R422). -/

def State.vfAt (s : State) (v : Nat) : Vf := lookup {} v s.vfs
def State.setVf (s : State) (v : Nat) (x : Vf) : State := { s with vfs := store v x s.vfs }

/-- A VF has a feature in its accepted set: it and its PF have accepted it, and the device offers it. -/
def State.accepted (s : State) (vf bit : Nat) : Bool :=
  (lookup {} vf s.vfs).featAcc.testBit bit && (lookup {} (256 + vf / 128) s.vfs).featAcc.testBit bit && s.featOff.getLsbD bit

/-! Plain registers, and the rings of a VF (R426). -/

/-- The key of a host register without behaviour of its own. -/
def regKey : HostReg → Nat
  | .mbarg n => n.val
  | .mbdata n => 0x1000 + n.val
  | .replyval vf => 2 ^ 32 + 5 * vf
  | .ringAddr request vf => 2 ^ 32 + 5 * vf + 1 + boolBit request 0
  | .ringSize request vf => 2 ^ 32 + 5 * vf + 3 + boolBit request 0

def State.reg (s : State) (r : HostReg) : Word := lookup 0 (regKey r) s.regs
def State.setReg (s : State) (r : HostReg) (v : Word) : State := { s with regs := store (regKey r) v s.regs }

/-- A VF's ring: its address in host memory and its size, once the driver has set a size that a ring can have (log entry
72). -/
def State.ring (s : State) (request : Bool) (vf : Nat) : Option (Nat × Nat) :=
  let n := (s.reg (.ringSize request vf)).toNat
  if n = 2 ^ Nat.log2 n ∧ 2 ≤ n ∧ n ≤ 4096 then some ((s.reg (.ringAddr request vf)).toNat, n) else none

/-- A ring is full (R426). -/
def ringFull (tail head : BitVec 32) (size : Nat) : Bool := decide ((tail - head).toNat = size)

/-- The ring of a VF, when it has room for an entry. -/
def State.ringRoom (s : State) (request : Bool) (vf : Nat) : Option (Nat × Nat) :=
  let v := s.vfAt vf
  (s.ring request vf).filter fun r =>
    !(if request then ringFull v.reqTail v.reqHead r.2 else ringFull v.evTail v.evHead r.2)

/-- The device writes an entry of a ring at an index. -/
def State.putEntry (s : State) (ring : Nat × Nat) (index : BitVec 32) (bs : List Byte) : State :=
  { s with hostMem := s.hostMem.setBytes (ring.1 + bs.length * (index.toNat % ring.2)) bs }

/-- An event entry: `PHASE` is 1 on the first lap of the ring and alternates. -/
def eventEntry (tail : BitVec 32) (size : Nat) (e : HostEvent) : List Byte :=
  leBytes ((if tail.toNat / size % 2 = 0 then 2 ^ 63 else 0) + e.kind % 256 * 2 ^ 48 + e.data % 2 ^ 48) 8 ++ leBytes e.ptr.toNat 8

/-- Writes the events that have found their rings full and now fit, each VF's in the order in which they arose. -/
def State.drainEvents (s : State) : State :=
  s.hostEvents.foldl (fun (t : State) e =>
    let v := t.vfAt e.vf
    match if t.hostEvents.any (fun x => x.vf = e.vf) then none else t.ringRoom false e.vf with
    | none => { t with hostEvents := t.hostEvents ++ [e] }
    | some r => (t.putEntry r v.evTail (eventEntry v.evTail r.2 e)).setVf e.vf { v with evTail := v.evTail + 1 })
    { s with hostEvents := [] }

/-- An event for a VF arises. -/
def State.postEvent (s : State) (e : HostEvent) : State := { s with hostEvents := s.hostEvents ++ [e] }.drainEvents

/-! The record of the executing core. -/

def ownRecId : Op (Option Nat) := return (← getCore).recId
def State.ownRec (s : State) : Rec :=
  match s.core.recId with
  | some r => s.recAt r
  | none => {}
def ownRec : Op Rec := return (← get).ownRec
def State.asid (s : State) : Nat := s.ownRec.l.asid
/-- The VF of the executing core's record has accepted a feature. -/
def State.feature (s : State) (bit : Nat) : Bool := s.accepted s.ownRec.l.vf bit

/-- The site of a VALID entry of a record's core table (R119); a boot record has no table (R463). -/
def Rec.tableSite (r : Rec) (lc : Nat) : Option Nat := if r.boot then none else r.place[lc]?

/-- The partner of a channel core's record (R170): the single running record on ordinary cores with its ASID and seed. -/
def State.partner (s : State) (r : Rec) : Option Rec :=
  match s.recs.filter fun x => !x.2.chan && decide (x.2.st = .running) && decide (x.2.l.asid = r.l.asid)
      && decide (x.2.l.seed = r.l.seed) with
  | [x] => some x.2
  | _ => none

/-- The record whose core table and areas resolve the pad pointers of the executing core (R119, R170). -/
def State.tableRec (s : State) : Option Rec :=
  match s.core.recId with
  | some r => if (s.recAt r).chan then s.partner (s.recAt r) else some (s.recAt r)
  | none => none

/-- The number of that record. -/
def State.tableRecId (s : State) : Option Nat :=
  match s.core.recId with
  | some r =>
    if (s.recAt r).chan then
      match s.recs.filter fun x => !x.2.chan && decide (x.2.st = .running) && decide (x.2.l.asid = (s.recAt r).l.asid)
          && decide (x.2.l.seed = (s.recAt r).l.seed) with
      | [x] => some x.1
      | _ => none
    else some r
  | none => none

/-! Lines of waiting contexts (R200, R203, R213). -/

/-- The executing context is first in line, or nobody is. -/
def firstInLine (k : WaitKey) : Op Bool := do
  let s ← get
  match s.waitq.filter fun w => decide (w.key = k) with
  | [] => return true
  | w :: _ => return decide (w.site = s.site) && decide (w.ctx = s.core.act)

/-- The waiters that stand before the executing context in a line, all of them when it is not in it (R200). -/
def State.ahead (s : State) (k : WaitKey) : Nat :=
  ((s.waitq.filter fun w => decide (w.key = k)).takeWhile fun w => !(decide (w.site = s.site) && decide (w.ctx = s.core.act))).length

/-- A waiter of a line. -/
def Waiter.isAt (w : Waiter) (k : WaitKey) (site ctx : Nat) : Bool :=
  decide (w.key = k) && decide (w.site = site) && decide (w.ctx = ctx)

/-- Joins a line, unless in it already. -/
def enterLine (k : WaitKey) (phase : Nat) : Op Unit := do
  let s ← get
  let me : Waiter := { key := k, site := s.site, ctx := s.core.act, phase := phase }
  set { s with waitq := if s.waitq.any fun w => w.isAt k s.site s.core.act then s.waitq else s.waitq ++ [me] }

/-- Joins a line and waits. -/
def joinLine {α : Type} (k : WaitKey) : Op α := do
  enterLine k 0
  waitKeep

/-- Leaves a line. -/
def leaveLine (k : WaitKey) : Op Unit := do
  let s ← get
  set { s with waitq := s.waitq.filter fun w => !w.isAt k s.site s.core.act }

/-! Queue ports (R36, R37): a read looks at the head and counts a pop, which takes effect when the instruction
retires. -/

/-- The payload words of the receive queue not yet read, in order (R354). -/
def Core.rxWords (c : Core) : List Word :=
  match c.rx with
  | [] => []
  | m :: t => m.body.drop c.rxpos ++ (t.map (·.body)).flatten

/-- Takes n unread words from the receive queue; a message whose last word is read leaves it (R354). -/
def takeWords : Nat → List Msg → Nat → List Msg × Nat
  | 0, q, pos => (q, pos)
  | _ + 1, [], _ => ([], 0)
  | n + 1, m :: t, pos => if m.body.length ≤ pos + 1 then takeWords n t 0 else takeWords n (m :: t) (pos + 1)

/-- NB flag of a port (R91). -/
def Context.nonBlocking (x : Context) (bit : Nat) : Bool := x.portbind.toNat.testBit bit

/-- NB flag of a port for the instruction under way, whose own write of `portbind` does not bind it (R87). -/
def Tx.nonBlocking (t : Tx) (bit : Nat) : Bool := t.bind.toNat.testBit bit

/-- A read of `s28` (R354). -/
def port28 : Op Word := do
  let s ← get
  match s.core.rxWords[s.tx.pops28]? with
  | some w => do modTx fun t => { t with pops28 := t.pops28 + 1 }; return w
  | none => if s.tx.nonBlocking 32 then return 0 else waitHere

/-- Words of an event line of a record in a cluster (R199). -/
def Rec.line (r : Rec) (cl k : Nat) : List Word := lookup [] k (lookup {} cl r.evsets).lines

def Rec.setLine (r : Rec) (cl k : Nat) (ws : List Word) : Rec :=
  let e := lookup {} cl r.evsets
  { r with evsets := store cl { e with lines := store k ws e.lines } r.evsets }

/-- The words of a line that the contexts of a record may take: line 31 holds its tier-miss events (R175, R199). -/
def Rec.wordsFor (r : Rec) (cl k : Nat) : List Word :=
  if k = 31 then (lookup {} cl r.evsets).misses else r.line cl k

/-- Takes n words of a line behind the first `skip`. -/
def Rec.takeFor (r : Rec) (cl k skip n : Nat) : Rec :=
  let take := fun (l : List Word) => l.take skip ++ l.drop (skip + n)
  if k = 31 then
    let e := lookup {} cl r.evsets
    { r with evsets := store cl { e with misses := take e.misses } r.evsets }
  else r.setLine cl k (take (r.line cl k))

/-- The line of a cluster in the set of the executing context's record. -/
def State.lineKey (s : State) (k : Nat) : WaitKey := .line (s.core.recId.getD 0) (clusterOf s.site) k

/-- Looks at word n of a line for the executing context, behind one word for each context that began to wait earlier; a
context that finds none joins the line (R200, R201). -/
def lineWord (k n : Nat) (block : Bool) : Op Word := do
  let s ← get
  match (s.ownRec.wordsFor (clusterOf s.site) k)[s.ahead (s.lineKey k) + n]? with
  | some w => return w
  | none => if block then joinLine (s.lineKey k) else return 0

/-- A read of `s31` (R201). -/
def port31 : Op Word := do
  let s ← get
  if isChan s.site then illegal 0
  let k := bitsOf s.tx.bind 22 5
  let w ← lineWord k s.tx.pops31 (!s.tx.nonBlocking 35)
  if w ≠ 0 then modTx fun t => { t with pops31 := t.pops31 + 1, skip31 := s.ahead (s.lineKey k) }
  return w

/-- The value of an `s` register that is not a port. -/
def Context.sreg (x : Context) (r : Nat) : Word := if r = 0 then 0 else x.s[r]?.getD 0

/-- Writes an `s` register that is not a port; `s0` discards the value (R34). -/
def Context.setS (x : Context) (r : Nat) (v : Word) : Context :=
  if r = 0 then x else { x with s := x.s.setIfInBounds r v }

def Context.areg (x : Context) (r : Nat) : AReg := x.a[r]?.getD {}
def Context.setA (x : Context) (r : Nat) (v : AReg) : Context := { x with a := x.a.setIfInBounds r v }

/-- A predicate register; `p0` is all ones (R32). -/
def Context.preg (x : Context) (r : Nat) : PWord := if r = 0 then BitVec.allOnes 128 else x.p[r]?.getD 0
def Context.setP (x : Context) (r : Nat) (v : PWord) : Context := { x with p := x.p.setIfInBounds r v }

def rdA (r : Nat) : Op AReg := return (← getCtx).areg r
def wrA (r : Nat) (v : AReg) : Op Unit := modCtx fun x => x.setA r v
def rdP (r : Nat) : Op PWord := return (← getCtx).preg r
def wrP (r : Nat) (v : PWord) : Op Unit := modCtx fun x => x.setP r v
def Core.vreg (c : Core) (r : Nat) : VWord := c.v[r]?.getD 0
def wrVraw (r : Nat) (v : VWord) : Op Unit := modCore fun c => { c with v := c.v.setIfInBounds r v }
def Core.kreg (c : Core) (r : Nat) : KWord := c.k[r]?.getD 0
def wrK (r : Nat) (v : KWord) : Op Unit := modCore fun c => { c with k := c.k.setIfInBounds r v }
def Core.wreg (c : Core) (r : Nat) : WReg := c.w[r]?.getD {}
def wrW (r : Nat) (v : WReg) : Op Unit := modCore fun c => { c with w := c.w.setIfInBounds r v }

/-- Entry of the accumulator store by slot (R17, R103). -/
def Core.accSlot (c : Core) (n : Nat) : Word := lookup 0 n c.acc
def Core.setAcc (c : Core) (n : Nat) (v : Word) : Core :=
  { c with acc := if v = 0 then erase n c.acc else store n v c.acc }

/-- The control transfer of an instruction: its target replaces the next address. -/
def jump (t : Word) : Op Unit := modTx fun x => { x with npc := some t }

end Sys2Proof.Machine
end

