-- ==== Sys2Proof/Machine/Firmware.lean ====
section
/-! DEFINITION. Firmware: the code that the firmware image carries: the shipped handler (R388, R395) and the boot program
(R463), as words. -/

namespace Sys2Proof.Machine

/-- n bytes of a list, padded with zeros. -/
def padTo (n : Nat) (l : List Byte) : List Byte := l.take n ++ List.replicate (n - l.length) 0

/-- Code bytes of a list of words. -/
def programBytes (ws : List (BitVec 32)) : List Byte := (ws.map fun w => leBytes w.toNat 4).flatten

/-! The shipped handler acts on each cause as the table of the chapter on traps gives: SYSCALL and TIMER are served, PREEMPT and
CORNICE run `ckpt` with VACATE, RESUME runs `rstor`, and every other cause halts, as does a failure. Which instructions it
is made of is the model's choice, and no debugger is attached (log entry 16). -/

/-- The dispatch of the shipped handler, part 1. -/
def handlerWords0 : List (BitVec 32) :=
  [0x3A800100,  -- crd s20, trapcause
   0x0AA00012,  -- addi s21, s0, 18 ; SYSCALL
   0x2A950016,  -- beq s20, s21, syscall
   0x0AA00022,  -- addi s21, s0, 34 ; TIMER
   0x2A950016,  -- beq s20, s21, timer
   0x0AA00021,  -- addi s21, s0, 33 ; CORNICE
   0x2A95000A,  -- beq s20, s21, save
   0x0AA00020,  -- addi s21, s0, 32 ; INTERRUPT
   0x2A952007,  -- bne s20, s21, stop
   0x3A800101,  -- crd s20, trapval
   0x0E9400FF,  -- andi s20, s20, 255
   0x0AA00001,  -- addi s21, s0, 1 ; PREEMPT
   0x2A950004,  -- beq s20, s21, save
   0x0AA00002,  -- addi s21, s0, 2 ; RESUME
   0x2A950005,  -- beq s20, s21, resume
   0xC8000003,  -- stop: halt
   0x0AA00001,  -- save: addi s21, s0, 1 ; VACATE
   0xCA950005]  -- ckpt s20, s21

/-- The dispatch of the shipped handler, part 2. -/
def handlerWords1 : List (BitVec 32) :=
  [0xC8000003,  -- halt
   0xCA800006,  -- resume: rstor s20
   0x2A803FFB,  -- bne s20, s0, stop
   0x0AA00008,  -- leave: addi s21, s0, 8 ; IE
   0x38152000,  -- crs s0, s21, status
   0xC8000001,  -- tret
   0x2F6001E8,  -- syscall: jal s27, services
   0x2C1FFFFC,  -- jal s0, leave
   0x2F6000E6,  -- timer: jal s27, tnext
   0x38151106,  -- crw s0, s21, timercmp
   0x2C1FFFF9]  -- jal s0, leave

/-- The shipped handler: its dispatch, the code that finds the next value of `timercmp`, and the services of SYSCALL; the last two
are not in the manual (log entry 16). -/
def shippedHandler : List Byte :=
  padTo 1024 (programBytes (handlerWords0 ++ handlerWords1)) ++ padTo 1024 Config.timerCode ++ padTo 14336 Config.serviceCode

/-! The boot program, word by word as R463 lists it. -/

/-- The boot program of R463, part 1. -/
def bootWords0 : List (BitVec 32) :=
  [0x0B400007,  -- start: addi s26, s0, 7
   0x9F7A08C0,  -- vgrant.i64 s27, s26, p1 ; p1: elements 0-6
   0x27010400,  -- lhi s24, 0x0400, 1 ; mode 2 descriptor
   0x27210001,  -- lhi s25, 1, 1
   0x0B390003,  -- addi s25, s25, 3 ; UTAG 1, LEN 3
   0x2840200A,  -- bne s2, s0, flood
   0xBE810001,  -- mrecv s20, v1 ; first discovery copy
   0xFE000001, 0x808100CD,  -- vmov.i64 s4, v1, s0 ; root's package index
   0x0AC00001,  -- addi s22, s0, 1
   0xFE000001, 0x80A1B0CD,  -- vmov.i64 s5, v1, s22 ; own column
   0x0AC00002,  -- addi s22, s0, 2
   0xFE000001, 0x80C1B0CD,  -- vmov.i64 s6, v1, s22 ; own row
   0x0AC00001,  -- flood: addi s22, s0, 1
   0x0AE00002,  -- addi s23, s0, 2
   0xFE000003, 0x804400CD,  -- vmov.i64 v2, s4, s0
   0x0A86FFFF,  -- addi s20, s6, -1 ; north
   0xFE000003, 0x8045B0CD,  -- vmov.i64 v2, s5, s22
   0xFE000003, 0x8054B8CD]  -- vmov.i64 v2, s20, s23

/-- The boot program of R463, part 2. -/
def bootWords1 : List (BitVec 32) :=
  [0xBC02C640,  -- msend v2, s24, s25
   0x0A850001,  -- addi s20, s5, 1 ; east
   0xFE000003, 0x8054B0CD,  -- vmov.i64 v2, s20, s22
   0xFE000003, 0x8046B8CD,  -- vmov.i64 v2, s6, s23
   0x0AB80001,  -- addi s21, s24, 1
   0xBC02AE40,  -- msend v2, s21, s25
   0x0A860001,  -- addi s20, s6, 1 ; south
   0xFE000003, 0x8045B0CD,  -- vmov.i64 v2, s5, s22
   0xFE000003, 0x8054B8CD,  -- vmov.i64 v2, s20, s23
   0x0AB80002,  -- addi s21, s24, 2
   0xBC02AE40,  -- msend v2, s21, s25
   0x0A85FFFF,  -- addi s20, s5, -1 ; west
   0xFE000003, 0x8054B0CD,  -- vmov.i64 v2, s20, s22
   0xFE000003, 0x8046B8CD,  -- vmov.i64 v2, s6, s23
   0x0AB80003,  -- addi s21, s24, 3
   0xBC02AE40,  -- msend v2, s21, s25
   0x2840200C,  -- bne s2, s0, steps
   0x22864000]  -- slli s20, s6, 8

/-- The boot program of R463, part 3. -/
def bootWords2 : List (BitVec 32) :=
  [0x06942803,  -- or s20, s20, s5
   0x26818000,  -- lhi s20, 0x8000, 1 ; present | row << 8 | column
   0xFE000003, 0x805400CD,  -- vmov.i64 v2, s20, s0
   0x0AA00000,  -- addi s21, s0, 0
   0x26A10200,  -- lhi s21, 0x0200, 1
   0x06B52003,  -- or s21, s21, s4 ; mode 1, to the root
   0x0AC00001,  -- addi s22, s0, 1
   0x26C10003,  -- lhi s22, 3, 1 ; UTAG 3, LEN 1
   0xBC02AD80,  -- msend v2, s21, s22
   0x6E800000,  -- steps: sstep s20
   0x6E800000,  -- sstep s20 ; every report delivered
   0x2840003E,  -- beq s2, s0, fimg
   0x48400001,  -- lda a2, [a0 + 8] ; map
   0x48600002,  -- lda a3, [a0 + 16] ; byh
   0x0EA403FF,  -- andi s21, s4, 1023
   0x22864000,  -- slli s20, s6, 8
   0x06942803,  -- or s20, s20, s5
   0x26818000]  -- lhi s20, 0x8000, 1

/-- The boot program of R463, part 4. -/
def bootWords3 : List (BitVec 32) :=
  [0x46875800,  -- st.w s20, [a3 + s21] ; the root's own entry
   0xBF400043,  -- mpoll s26, 1
   0x2B40000D,  -- coll: beq s26, s0, build
   0xBE810001,  -- mrecv s20, v1
   0x0B5AFFFF,  -- addi s26, s26, -1
   0x22B48001,  -- srli s21, s20, 16
   0x0EB5FFFF,  -- andi s21, s21, 0xFFFF
   0x0AC00003,  -- addi s22, s0, 3
   0x2AB63FFA,  -- bne s21, s22, coll ; discovery echoes are dropped
   0x22B49841,  -- srli s21, s20, 51 ; SLCORE: sender's package index
   0x0EB503FF,  -- andi s21, s21, 1023
   0xFE000001, 0x82C100CD,  -- vmov.i64 s22, v1, s0
   0x46C75800,  -- st.w s22, [a3 + s21]
   0x2C1FFFF4,  -- jal s0, coll
   0x0AA00000,  -- build: addi s21, s0, 0
   0x0AE00000,  -- addi s23, s0, 0 ; logical number, from 0
   0x0B200400,  -- addi s25, s0, 1024
   0x23635000]  -- slli s27, s3, 10

/-- The boot program of R463, part 5. -/
def bootWords4 : List (BitVec 32) :=
  [0x42C75800,  -- bld: ld.w s22, [a3 + s21]
   0x2AC00008,  -- beq s22, s0, skip ; fused: no entry
   0x069BA800,  -- add s20, s27, s21
   0x26818000,  -- lhi s20, 0x8000, 1 ; VALID | PCORE (R119)
   0x23170800,  -- slli s24, s23, 1
   0x46858800,  -- st.w s20, [a2 + s24]
   0x0B180001,  -- addi s24, s24, 1
   0x46C58800,  -- st.w s22, [a2 + s24]
   0x0AF70001,  -- addi s23, s23, 1 ; logical number
   0x0AB50001,  -- skip: addi s21, s21, 1
   0x2AB93FF6,  -- bne s21, s25, bld
   0x48800000,  -- lda a4, [a0 + 0] ; img
   0x0EA403FF,  -- andi s21, s4, 1023
   0x0A8003FE,  -- addi s20, s0, 1022
   0x0694A801,  -- sub s20, s20, s21
   0x2294D800,  -- slli s20, s20, 27 ; CNT
   0x0AC00001,  -- addi s22, s0, 1
   0x22D6C800]  -- slli s22, s22, 25 ; MODE 1

/-- The boot program of R463, part 6. -/
def bootWords5 : List (BitVec 32) :=
  [0x0694B003,  -- or s20, s20, s22
   0x0AC40001,  -- addi s22, s4, 1
   0x0694B003,  -- or s20, s20, s22 ; DEST: next package index
   0x0B200007,  -- addi s25, s0, 7
   0x27210002,  -- lhi s25, 2, 1 ; UTAG 2, LEN 7
   0x0AA00000,  -- addi s21, s0, 0
   0x0B0007FC,  -- addi s24, s0, 2044
   0x90295380,  -- isend: vld.d v1, [a4 + s21], p1
   0xBC01A642,  -- mcast v1, s20, s25
   0x0AB50007,  -- addi s21, s21, 7
   0x2AB83FFD,  -- bne s21, s24, isend
   0x0B400004,  -- addi s26, s0, 4
   0x9F7A10C0,  -- vgrant.i64 s27, s26, p2
   0x90295580,  -- vld.d v1, [a4 + s21], p2 ; last 32 bytes
   0x0B39FFFD,  -- addi s25, s25, -3 ; LEN 4
   0xBC01A642,  -- mcast v1, s20, s25
   0x52C00003,  -- fence.die s22
   0xC8000003]  -- halt

/-- The boot program of R463, part 7. -/
def bootWords6 : List (BitVec 32) :=
  [0x0A800000,  -- fimg: addi s20, s0, 0
   0x26810003,  -- lhi s20, 3, 1
   0x0AA04000,  -- addi s21, s0, 16384
   0x4CB5A001,  -- alloc a5, s21, s20 ; the follower's image object
   0x0AA00000,  -- addi s21, s0, 0
   0xBE810001,  -- irecv: mrecv s20, v1
   0x22D48001,  -- srli s22, s20, 16
   0x0ED6FFFF,  -- andi s22, s22, 0xFFFF
   0x0B000002,  -- addi s24, s0, 2
   0x2AD83FFC,  -- bne s22, s24, irecv ; late discovery copies are dropped
   0x22D44041,  -- srli s22, s20, 40
   0x0ED60007,  -- andi s22, s22, 7 ; LEN
   0x9F1610C0,  -- vgrant.i64 s24, s22, p2
   0x902B55A0,  -- vst.d v1, [a5 + s21], p2
   0x06B5B000,  -- add s21, s21, s22
   0x0B000800,  -- addi s24, s0, 2048
   0x2AB83FF5,  -- bne s21, s24, irecv
   0xC8000003]  -- halt

/-- The boot program that the module is delivered with (R463). -/
def shippedBoot : List Byte := programBytes (bootWords0 ++ bootWords1 ++ bootWords2 ++ bootWords3 ++ bootWords4 ++ bootWords5 ++ bootWords6)

/-- The resident handler that an image carries (R448): that of the image in the module as it is delivered is the shipped
handler; what another image carries is not known (log entry 16). -/
def imageHandler (img : List Byte) : List Byte := if img = Config.shippedImage then shippedHandler else padTo 16384 (Config.handlerIn img)

/-- The boot program that an image carries, in the same way. -/
def imageBoot (img : List Byte) : List Byte := if img = Config.shippedImage then shippedBoot else (Config.bootIn img).take 16777216

end Sys2Proof.Machine
end

