-- ==== Sys2Proof/Machine/Objects.lean ====
section
/-! DEFINITION. Objects: pointers, headers, where an object's bytes lie, and translation of heap pages. -/

namespace Sys2Proof.Machine

/-! Pointers (R122, R123). -/

def ptrFmt (p : Word) : Nat := bitsOf p 59 5
def ptrBlog (p : Word) : Nat := bitsOf p 56 3
def ptrLevel (p : Word) : Nat := bitsOf p 53 3
def ptrLoc (p : Word) : Nat := bitsOf p 0 53
def ptrTag (p : Word) : Nat := bitsOf p 40 13

/-- A pointer from its fields; the upper byte holds FMT and BLOG. -/
def mkPtr (hi8 level loc : Nat) : Word :=
  BitVec.ofNat 64 (hi8 % 256 * 2 ^ 56 + level % 8 * 2 ^ 53 + loc % 2 ^ 53)

/-- A pointer with the FMT and BLOG of another. -/
def keepFmt (old new : Word) : Word := setBits new 56 8 (bitsOf old 56 8)

/-! Headers (R126). -/

/-- The four words of a header. -/
structure Hdr where
  w0 : Word := 0
  w1 : Word := 0
  w2 : Word := nullPtr
  w3 : Word := 0
  deriving DecidableEq, Repr

def Hdr.len (h : Hdr) : Nat := bitsOf h.w0 0 40
def Hdr.typ (h : Hdr) : Nat := bitsOf h.w0 40 8
def Hdr.hi (h : Hdr) : Nat := bitsOf h.w0 48 8
def Hdr.fmt (h : Hdr) : Nat := bitsOf h.w0 51 5
def Hdr.blog (h : Hdr) : Nat := bitsOf h.w0 48 3
def Hdr.shared (h : Hdr) : Bool := h.w0.getLsbD 56
def Hdr.root (h : Hdr) : Bool := h.w0.getLsbD 57
def Hdr.secure (h : Hdr) : Bool := h.w0.getLsbD 58
def Hdr.poison (h : Hdr) : Bool := h.w0.getLsbD 59
def Hdr.padcopy (h : Hdr) : Bool := h.w0.getLsbD 60
def Hdr.flags (h : Hdr) : Nat := bitsOf h.w0 56 5
def Hdr.version (h : Hdr) : Nat := bitsOf h.w1 0 32
def Hdr.link (h : Hdr) : Word := h.w2
/-- The header stands at the old place of an object that has moved; LINK names the new one (R126, R150). -/
def Hdr.forward (h : Hdr) : Bool := !h.padcopy && ptrLevel h.w2 ≤ 3
def Hdr.eref (h : Hdr) : Nat := bitsOf h.w3 32 16
def Hdr.setFlag (h : Hdr) (bit : Nat) (b : Bool) : Hdr := { h with w0 := setBits h.w0 bit 1 (if b then 1 else 0) }

/-- Every reserved field of a header is zero (R126, R466). -/
def Hdr.reservedZero (h : Hdr) : Bool := bitsOf h.w0 61 3 = 0 && bitsOf h.w1 35 29 = 0 && bitsOf h.w3 48 16 = 0

/-- Object types (R127). -/
def tDATA : Nat := 0
def tPTRS : Nat := 1
def tBARRIER : Nat := 2
def tDEQUE : Nat := 3
def tKVTABLE : Nat := 4
def tKVPAGE : Nat := 5
def tRSTATE : Nat := 6
def tCODE : Nat := 7
def tCTXBUF : Nat := 8
def tSHAPES : Nat := 9

/-- Element bits of a format (R128). -/
def fmtBits (f : Nat) : Nat :=
  if f ≤ 2 then 8 else if f ≤ 4 then 16 else if f ≤ 6 then 32 else if f = 7 then 64
  else if f ≤ 9 then 16 else if f = 10 then 32 else if f = 11 then 64 else if f ≤ 13 then 8
  else if f ≤ 16 then 4 else 64

/-- BLOG may be nonzero (R128). -/
def fmtScaled (f : Nat) : Bool := f = 1 || (12 ≤ f && f ≤ 16)

/-- Scale bytes of an object (R129). -/
def scaleBytes (fmt blog len : Nat) : Nat :=
  if blog = 0 then 0 else ceilDiv (len * 8 / fmtBits fmt) (2 ^ blog)

/-- Footprint of an object in a pad (R129). -/
def footprint (fmt blog len : Nat) : Nat := 32 + ceilDiv (len + scaleBytes fmt blog len) 32 * 32

def Hdr.scales (h : Hdr) : Nat := scaleBytes h.fmt h.blog h.len
def Hdr.foot (h : Hdr) : Nat := footprint h.fmt h.blog h.len

/-- Body and scale bytes of an object, the span that dirty masks cover. -/
def Hdr.span (h : Hdr) : Nat := h.len + h.scales

/-- The bounds shadow a header gives (R125). -/
def Hdr.shadow (h : Hdr) : Shadow :=
  { valid := true, len := BitVec.ofNat 40 h.len, typ := BitVec.ofNat 8 h.typ, fmt := BitVec.ofNat 5 h.fmt
    blog := BitVec.ofNat 3 h.blog, flags := BitVec.ofNat 5 h.flags }

/-! Places of objects. -/

/-- The sites of a record that lie in a cluster or on a die. -/
def Rec.sitesIn (r : Rec) (p : Nat → Bool) : List Nat := r.place.filter p

/-- The lowest logical core of a record whose site satisfies p (R123). -/
def lowestLcore (p : Nat → Bool) : List Nat → Nat → Nat
  | [], _ => 0
  | x :: t, i => if p x then i else lowestLcore p t (i + 1)

/-- The level of a pad key and its pointer within a record: placement tag of the owning place (R123). -/
def padPtr (r : Rec) (hi8 key : Nat) : Word :=
  if key < 2 ^ 61 then
    let site := (key - 2 ^ 60) / 2 ^ 18
    mkPtr hi8 3 (lowestLcore (fun x => x = site) r.place 0 * 2 ^ 40 + (key - 2 ^ 60) % 2 ^ 18)
  else if key < 2 ^ 62 then
    let c := (key - 2 ^ 61) / 2 ^ 22
    mkPtr hi8 2 (lowestLcore (fun x => clusterOf x = c) r.place 0 * 2 ^ 40 + (key - 2 ^ 61) % 2 ^ 22)
  else
    let d := (key - 2 ^ 62) / 2 ^ 28
    mkPtr hi8 1 (lowestLcore (fun x => dieOf x = d) r.place 0 * 2 ^ 40 + (key - 2 ^ 62) % 2 ^ 28)

/-- The level of a pad key. -/
def keyLevel (key : Nat) : Nat :=
  if key < 2 ^ 60 then 0 else if key < 2 ^ 61 then 3 else if key < 2 ^ 62 then 2 else if key < 2 ^ 63 then 1 else 4

/-- The reserved 32 KiB of a core pad begins here (R18). -/
def padTop : Nat := 0x38000

/-- The key that a pad pointer names within a record; `site` is the core whose reserved area an offset beyond the
allocatable pad names (R389). None when the tag is not VALID or a bit that R123 keeps zero is set. -/
def padKeyOf (r : Rec) (site : Nat) (p : Word) : Option Nat :=
  let off := ptrLoc p % 2 ^ 40
  if ptrLevel p = 3 then
    if off ≥ 2 ^ 18 then none
    else if off ≥ padTop then some (corePadKey site + off)
    else ((r.place[ptrTag p]?).filter fun x => !r.boot || decide (x = site)).map fun x => corePadKey x + off
  else if ptrLevel p = 2 then
    if off ≥ 2 ^ 22 then none else (r.tableSite (ptrTag p)).map fun x => clusterPadKey (clusterOf x) + off
  else if ptrLevel p = 1 then
    if off ≥ 2 ^ 28 then none else (r.tableSite (ptrTag p)).map fun x => diePadKey (dieOf x) + off
  else none

/-- A header begins at a pad key (R162): in the core pad of a core of the record, or in one of its areas. -/
def State.headerAt (s : State) (rid key : Nat) : Bool :=
  let r := s.recAt rid
  let lv := keyLevel key
  if lv = 3 then
    let site := (key - 2 ^ 60) / 2 ^ 18
    decide ((s.coreAt site).recId = some rid) && (s.coreAt site).pad.hdrs.contains key
  else if lv = 2 then r.careas.any fun a => a.2.hdrs.contains key
  else r.dareas.any fun a => a.2.hdrs.contains key

/-- The two headers of the reserved area (R388). -/
def reservedHeader (site key : Nat) : Bool := key = handlerKey site || key = corePadKey site + 0x3C020

/-! Heap pages (R136, R174, R178). -/

def pageKey (asid page : Nat) : Nat := asid * 2 ^ 41 + page

/-- Pages of HBM: 16 stacks of 48 GiB (R13). Frames below are HBM frames; host frame n has number n beyond them (log entry
104). -/
def hbmFrames : Nat := 16 * 48 * 2 ^ 18

/-- The page of an ASID in the tier pool (R176), which holds the frame that the page is mapped to. -/
def State.inTier (s : State) (asid page : Nat) : Option TierPage :=
  s.tier.find? fun t => decide (t.asid = asid) && decide (t.page = page)
    && (match find (pageKey asid page) s.ptes with | some e => decide (e.frame = t.frame) | none => true)

/-- A page is HBM-resident (R174). -/
def State.hbmResident (s : State) (asid page : Nat) : Bool :=
  (match find (pageKey asid page) s.ptes with | some e => e.hbm | none => false) || (s.inTier asid page).isSome

/-- The home channel of a physical address (R168). -/
def homeChannel (pa : Nat) : Nat := (fieldN pa 12 8) ^^^ (fieldN pa 20 8)

/-- The home channel of a frame: by its device address in HBM, its own or in the tier pool, and else by its host address. -/
def State.channelOf (s : State) (frame : Nat) : Nat :=
  match s.tier.find? fun t => decide (t.frame = frame) with
  | some t => homeChannel (t.hbm * 4096)
  | none => homeChannel ((if frame < hbmFrames then frame else frame - hbmFrames) * 4096)

/-! Other modules of the load-store domain (R120). -/

/-- The route-table entry of a logical module. -/
def State.route (s : State) (m : Nat) : Word := lookup 0 m s.routes
def routeValid (w : Word) : Bool := w.getLsbD 63
/-- The local Palbel ports on the first hop to a module. -/
def routePorts (w : Word) : List Nat := (List.range 16).filter fun q => (bitsOf w 22 16).testBit q
/-- No link leads to a module. -/
def State.moduleDead (s : State) (m : Nat) : Bool :=
  !routeValid (s.route m) || (routePorts (s.route m)).all fun q => s.deadPorts.contains q

/-- A page lies behind dead Palbel links (R151). -/
def State.pteDead (s : State) (e : Pte) : Bool := (e.home.map s.moduleDead).getD false

/-- The cluster event unit drops the word when its 64 places of line 31 are taken (R175). -/
def State.missWords (s : State) (cl : Nat) : Nat :=
  (s.recs.map fun r => (lookup {} cl r.2.evsets).misses.length).sum

/-- The record and the cluster whose event unit a miss of a core is posted to (R175, R199): its own; a channel core has no
cluster, and its misses go to its partner, to the cluster of the partner's logical core 0 (log entry 7). -/
def State.missUnit (s : State) (site : Nat) : Option (Nat × Nat) :=
  if isChan site then
    ({ s with site := site } : State).tableRecId.bind fun rid => ((s.recAt rid).place[0]?).map fun x => (rid, clusterOf x)
  else (s.coreAt site).recId.map fun rid => (rid, clusterOf site)

/-- Posts a tier-miss event of a logical core to a record's set in a cluster (R175): dropped and counted when the unit has
no place for it. `site` is the core that caused it. -/
def postMissTo (unit : Option (Nat × Nat)) (site lc kind page : Nat) : Op Unit := do
  let s ← get
  let drop := fun (cl : Nat) => modify fun s => { s with missDrops := store cl (lookup 0 cl s.missDrops + 1) s.missDrops }
  match unit with
  | none => drop (clusterOf site)
  | some (rid, cl) =>
    let w := BitVec.ofNat 64 (lc * 2 ^ 51 + kind * 2 ^ 48 + page % 2 ^ 41)
    if s.missWords cl < 64 then
      modRec rid fun r =>
        let e := lookup {} cl r.evsets
        { r with evsets := store cl { e with misses := e.misses ++ [w] } r.evsets }
    else drop cl

/-- Posts a tier-miss event of a kind for the given context of a core (R175). -/
def postMissAt (site ctx kind page : Nat) : Op Unit := do
  let s ← get
  modCtxAt site ctx fun x => { x with misses := x.misses + 1 }
  postMissTo (s.missUnit site) site ((s.coreAt site).ctxAt ctx).lcore.toNat kind page

/-- 512 page requests of the ASID's port await an answer (R419). -/
def State.portFull (s : State) (asid : Nat) : Bool :=
  let port := fun (a : Nat) => (lookup {} a s.asids : AsidSt).vf / 128
  decide (512 ≤ ((s.pageReqs.filter fun q => !q.refused && decide (port q.asid = port asid)).map fun q => (q.asid, q.page)).dedup.length)

/-- The physical key of a heap byte for a waiting party: the frame of its page, or a request that waits, or TRANSLATE
once the host has refused it; without the PRI feature, TRANSLATE at once (R136, R178, R422). No request is made while the port
has as many as it takes. -/
def translateFor (o : Owner) (asid va : Nat) (write : Bool) (val : Word) : Op Nat := do
  let s ← get
  let page := va / 4096
  match find (pageKey asid page) s.ptes with
  | some e =>
    if write && !e.write then ask s page
    else return e.frame * 4096 + va % 4096
  | none => ask s page
where
  ask (s : State) (page : Nat) : Op Nat := do
    match s.pageReqs.filter fun q => decide (q.asid = asid) && decide (q.page = page) && decide (q.owner = o) with
    | [] =>
      if !s.accepted (lookup {} asid s.asids).vf 1 then raise .translate val
      if s.portFull asid then waitHere
      let q : PageReq := { asid := asid, page := page, write := write, owner := o }
      set { s with pageReqs := s.pageReqs ++ [q] }
      waitKeep
    | q :: _ =>
      if q.refused then
        set { s with pageReqs := s.pageReqs.filter fun x => decide (x ≠ q) }
        raise .translate val
      else waitKeep

/-- Translation for the executing context. -/
def translate (asid va : Nat) (write : Bool) (val : Word) : Op Nat := do
  let s ← get
  translateFor (.ctx s.site s.core.act) asid va write val

/-- The pages that [va, va + n) touches, by their first addresses within the range. -/
def pageStarts (va n : Nat) : List Nat :=
  if n = 0 then [] else
    (List.range ((va + n - 1) / 4096 - va / 4096 + 1)).map fun i => Nat.max va ((va / 4096 + i) * 4096)

/-- Translates every page of a range. -/
def translateRange (asid va n : Nat) (write : Bool) (val : Word) : Op Unit := do
  for a in pageStarts va n do
    let _ ← translate asid a write val

/-- Posts one tier-miss event for the first page of a range that is not HBM-resident, for the executing context. -/
def missRange (asid va n kind : Nat) : Op Unit := do
  let s ← get
  match (pageStarts va n).find? fun a => !s.hbmResident asid (a / 4096) with
  | some a => postMissAt s.site s.core.act kind (a / 4096)
  | none => pure ()

/-- The physical chunks of a virtual range that is translated: key and length (untranslated pages are left out). -/
def State.chunks (s : State) (asid va n : Nat) : List (Nat × Nat × Nat) :=
  (pageStarts va n).filterMap fun a =>
    (find (pageKey asid (a / 4096)) s.ptes).map fun e =>
      (e.frame * 4096 + a % 4096, a - va, Nat.min (va + n) ((a / 4096 + 1) * 4096) - a)

/-- The memory key of body offset `off` of the object at a place, its page being translated. -/
def State.keyAt (s : State) (l : Loc) (off : Nat) : Nat :=
  match l with
  | .pad k => k + 32 + off
  | .heap asid va =>
    match find (pageKey asid ((va + 32 + off) / 4096)) s.ptes with
    | some e => e.frame * 4096 + (va + 32 + off) % 4096
    | none => 0

/-- The name under which a remembered set keeps the PTRS word at a body offset of an object (R158): the key of a pad's byte,
or the ASID and virtual address of a heap byte beyond all keys, under which its page may be mapped anew. -/
def wordName (l : Loc) (off : Nat) : Nat :=
  match l with
  | .pad k => k + 32 + off
  | .heap asid va => 2 ^ 64 + asid * 2 ^ 53 + (va + 32 + off)

/-- The page-table key of a remembered heap word's page. -/
def namePage (name : Nat) : Option Nat := if name < 2 ^ 64 then none else some ((name - 2 ^ 64) / 4096)

/-- The memory key of a remembered word, none while its page is not translated. -/
def State.nameKey (s : State) (name : Nat) : Option Nat :=
  match namePage name with
  | none => some name
  | some pg => (find pg s.ptes).map fun e => e.frame * 4096 + (name - 2 ^ 64) % 4096

/-- A remembered word; 0 while its page is not translated. -/
def State.nameWord (s : State) (name : Nat) : Word := ((s.nameKey name).map s.mem.word).getD 0

/-- A key at which the resident handler's header begins. -/
def isHandler (key : Nat) : Bool := decide (2 ^ 60 ≤ key) && decide (key < 2 ^ 61) && decide (key % 2 ^ 18 = 0x38000)

/-- Bytes of the code of a core's resident handler (R388), by the key of its header. -/
def State.handlerBytes (s : State) (key off n : Nat) : List Byte :=
  let code := lookup s.handler ((key - 2 ^ 60) / 2 ^ 18) s.handlers
  (List.range n).map fun i => (code[off + i]?).getD 0

/-- The bytes from a virtual address of an ASID on, whose pages are translated. -/
def State.heapBytes (s : State) (asid va n : Nat) : List Byte := ((s.chunks asid va n).map fun c => s.mem.bytes c.1 c.2.2).flatten

/-- The bytes at body offset `off` of an object whose pages are translated. -/
def State.bodyBytes (s : State) (l : Loc) (off n : Nat) : List Byte :=
  match l with
  | .pad k => if isHandler k then s.handlerBytes k off n else s.mem.bytes (k + 32 + off) n
  | .heap asid va => s.heapBytes asid (va + 32 + off) n

/-- Sets bit k of a bitmap that begins at an address (R436; log entry 77). -/
def Mem.setBit (m : Mem) (base k : Nat) : Mem :=
  m.set (base + k / 8) (m.byte (base + k / 8) ||| BitVec.ofNat 8 (2 ^ (k % 8)))

/-- A device write is about to reach one heap page of a VF with a snapshot (R436): the page's contents go to a place of the
snapshot area before the first such write, and its bit is set in the dirty log (log entry 77). -/
def State.notePage (s : State) (asid vf page : Nat) : State :=
  match (s.vfAt vf).snap, find (pageKey asid page) s.ptes with
  | some n, some e =>
    let k := pageKey asid page
    let n1 := { n with written := insertKey k n.written }
    let t := { s with hostMem := s.hostMem.setBit n.dlog.toNat k }
    let note := fun (t : State) (x : Snap) => t.setVf vf { s.vfAt vf with snap := some x }
    if n.copies.contains k then note t n1
    else if n.copies.length < n.places then
      note { t with hostMem := t.hostMem.setBytes (n.area.toNat + 4096 * n.copies.length) (s.mem.bytes (e.frame * 4096) 4096) }
        { n1 with copies := n1.copies ++ [k] }
    else note t { n1 with failed := true }
  | _, _ => s

/-- Device writes to a range of an ASID's heap are about to take place. -/
def State.noteHeap (s : State) (asid va n : Nat) : State :=
  let vf := (lookup {} asid s.asids).vf
  match (s.vfAt vf).snap with
  | none => s
  | some _ => (pageStarts va n).foldl (fun t a => t.notePage asid vf (a / 4096)) s

/-- A device write is about to reach the heap page that a physical key lies in. -/
def State.noteKey (s : State) (key : Nat) : State :=
  if key ≥ 2 ^ 60 || s.vfs.all (fun v => v.2.snap.isNone) then s
  else (s.ptes.filter fun e => decide (e.2.frame = key / 4096)).foldl (fun t e =>
    let asid := e.1 / 2 ^ 41
    t.notePage asid (lookup {} asid s.asids).vf (e.1 % 2 ^ 41)) s

/-- Writes bytes from a virtual address of an ASID on, whose pages are translated. -/
def State.putHeap (s : State) (asid va : Nat) (bs : List Byte) : State :=
  let m := (s.chunks asid va bs.length).foldl (fun (m : Mem) c => m.setBytes c.1 ((bs.drop c.2.1).take c.2.2)) s.mem
  { s.noteHeap asid va bs.length with mem := m }

/-- Writes bytes at body offset `off` of an object whose pages are translated. -/
def State.putBody (s : State) (l : Loc) (off : Nat) (bs : List Byte) : State :=
  match l with
  | .pad k => { s with mem := s.mem.setBytes (k + 32 + off) bs }
  | .heap asid va => s.putHeap asid (va + 32 + off) bs

/-- A byte range of HBM lies in part on a channel whose pages are lost (R453). -/
def State.channelLost (s : State) (key n : Nat) : Bool :=
  !s.lostChannels.isEmpty && decide (key < hbmFrames * 4096) && (pageStarts key n).any fun a => s.lostChannels.contains (homeChannel a)

/-- A byte range of memory is poisoned (R135). -/
def State.poisoned (s : State) (key n : Nat) : Bool :=
  (s.poison.any fun l => decide (l * 32 < key + n) && decide (key < l * 32 + 32)) || s.channelLost key n

def State.bodyPoisoned (s : State) (l : Loc) (off n : Nat) : Bool :=
  match l with
  | .pad k => s.poisoned (k + 32 + off) n
  | .heap asid va => (s.chunks asid (va + 32 + off) n).any fun c => s.poisoned c.1 c.2.2

/-- Reads the header at a key. -/
def Mem.hdr (m : Mem) (k : Nat) : Hdr :=
  { w0 := m.word k, w1 := m.word (k + 8), w2 := m.word (k + 16), w3 := m.word (k + 24) }

/-- Writes the header at a key. -/
def Mem.setHdr (m : Mem) (k : Nat) (h : Hdr) : Mem :=
  (((m.write k 8 h.w0.toNat).write (k + 8) 8 h.w1.toNat).write (k + 16) 8 h.w2.toNat).write (k + 24) 8 h.w3.toNat

/-- Key of the header of an object whose header page is translated: a header is 32-byte aligned, so it lies in one
page. -/
def State.hdrKey (s : State) (l : Loc) : Nat :=
  match l with
  | .pad k => k
  | .heap asid va =>
    match find (pageKey asid (va / 4096)) s.ptes with
    | some e => e.frame * 4096 + va % 4096
    | none => 0

def State.hdr (s : State) (l : Loc) : Hdr := s.mem.hdr (s.hdrKey l)
def State.setHdr (s : State) (l : Loc) (h : Hdr) : State :=
  let s1 := match l with | .pad _ => s | .heap asid va => s.noteHeap asid va 32
  { s1 with mem := s.mem.setHdr (s.hdrKey l) h }

/-- The key at which a header begins that a pad pointer of the executing context names (R124, R162, R170, R389); none when
the tag is not VALID, no header begins there, or an ordinary context names the reserved area. A core-pad pointer with the
core's own tag names its own pad on a channel core too (R130; log entry 121). -/
def State.padFind (s : State) (p : Word) : Option Nat :=
  let off := ptrLoc p % 2 ^ 40
  let own := corePadKey s.site + off
  if ptrLevel p = 3 && decide (padTop ≤ off) && decide (off < 2 ^ 18) then
    if s.core.inTrap && reservedHeader s.site own then some own else none
  else if ptrLevel p = 3 && decide (ptrTag p = (s.core.ctxAt 0).lcore.toNat) then
    if s.core.pad.hdrs.contains own then some own else none
  else s.tableRecId.bind fun rid => (padKeyOf (s.recAt rid) s.site p).filter (s.headerAt rid)

/-- The place of pad pointer `q`; without one, TYPE with the pointer `p` of the access. -/
def padLoc (p q : Word) : Op Nat := do
  match (← get).padFind q with
  | some k => return k
  | none => raise .type p

/-- The pointer of an object at a place, with the upper byte of another pointer (R123). -/
def State.ptrTo (s : State) (hi8 : Nat) : Loc → Word
  | .heap _ va => mkPtr hi8 0 va
  | .pad k =>
    if keyLevel k = 3 ∧ (k - 2 ^ 60) / 2 ^ 18 = s.site then
      mkPtr hi8 3 ((s.core.ctxAt 0).lcore.toNat * 2 ^ 40 + (k - 2 ^ 60) % 2 ^ 18)
    else padPtr ((s.tableRec).getD {}) hi8 k

/-- The checks of R466 on the header that a heap pointer names. -/
def heapHeaderOk (p : Word) (h : Hdr) : Bool :=
  ptrLoc p % 32 = 0 && h.reservedZero && h.typ ≤ 9 && h.fmt ≤ 17 && h.hi = bitsOf p 56 8

/-- A page of the secure world (R135, R439). -/
def State.securePage (s : State) (pa : Nat) : Bool :=
  s.regionTbl.any fun r => r.2.valid && r.2.secure && decide (r.2.base * 2 ^ 21 ≤ pa) && decide (pa < (r.2.base + r.2.units) * 2 ^ 21)

/-- The header of a heap object that pointer `q` names is about to be read: its page is translated and the header passes
the checks of R466. A trap reports the pointer `p` of the access. -/
def readHeaderFor (o : Owner) (p q : Word) : Loc → Op Unit
  | .pad _ => pure ()
  | .heap asid va => do
    let _ ← translateFor o asid va false p
    require (heapHeaderOk q ((← get).hdr (.heap asid va))) .type p

def readHeader (p q : Word) (l : Loc) : Op Unit := do
  let s ← get
  readHeaderFor (.ctx s.site s.core.act) p q l

/-- Where the object of pointer `q` of level 0 to 3 lies, with its header page translated (R124, R130, R466), at the end of
at most n forwarding pointers (R132, R150). A trap reports the pointer `p` of the access. -/
def locateFrom (p : Word) : Nat → Word → Op Loc
  | n, q => do
    if ptrLevel q = 7 then raise .nullptr p
    if ptrLevel q ≥ 4 then raise .type p
    if ptrLevel q = 0 then
      let l := Loc.heap (← get).asid (ptrLoc q)
      readHeader p q l
      return l
    else
      let k ← padLoc p q
      let h := (← get).mem.hdr k
      match n with
      | n + 1 => if h.forward then locateFrom p n h.link else return .pad k
      | 0 => return .pad k

/-- Where the object that a pointer names lies: a move leads outward, so three forwarding pointers are the most. -/
def locate (p : Word) : Op Loc := locateFrom p 3 p

/-- The object at a place of an ASID lies in a heap region of the secure world, or is a pad copy of such an object (R135). -/
def State.secureRegion (s : State) (asid : Nat) : Loc → Bool
  | .heap a va => s.securePage (s.hdrKey (.heap a va))
  | .pad k =>
    let h := s.mem.hdr k
    h.padcopy && ptrLevel h.link = 0
      && (match find (pageKey asid (ptrLoc h.link / 4096)) s.ptes with | some e => s.securePage (e.frame * 4096) | none => false)

/-- Only the secure world may use an object (R135). -/
def State.secured (s : State) (asid : Nat) (l : Loc) : Bool := (s.hdr l).secure || s.secureRegion asid l

/-- World and poison checks on an object that is located (R135). -/
def worldCheck (p : Word) (l : Loc) : Op Unit := do
  let s ← get
  if s.secured s.asid l && !s.core.secure then raise .world p

/-- The object holds data lost to an uncorrectable error (R126): its flag says so, or the bytes of its header and body in the
heap do, where no header of an object that the device has not seen was marked. -/
def State.lost (s : State) (l : Loc) : Bool :=
  (s.hdr l).poison || (match l with
    | .heap .. => s.poisoned (s.hdrKey l) 32 || s.bodyPoisoned l 0 (s.hdr l).span
    | .pad _ => false)

def poisonCheck (p : Word) (l : Loc) : Op Unit := do
  if (← get).lost l then raise .poison p

/-- The canonical pointer of the object that a pointer names: the LINK of a pad copy, else the pointer (R130). -/
def canonOf (p : Word) (h : Hdr) : Word := if ptrLevel p ≠ 0 && h.padcopy then h.link else p

/-- Where the object that a canonical pointer names lies; nothing of a heap object is read. -/
def State.homeOf (s : State) (canon : Word) : Option Loc :=
  if ptrLevel canon = 0 then (if ptrLoc canon % 32 = 0 then some (.heap s.asid (ptrLoc canon)) else none)
  else (s.padFind canon).map .pad

/-- The canonical pointer of the object that a pointer names, and where that object lies, at the end of at most n forwarding
pointers (R124, R130, R132). -/
def State.objectOf (s : State) : Nat → Word → Option (Word × Loc)
  | n, p =>
    if ptrLevel p = 0 then (s.homeOf p).map fun l => (p, l)
    else
      match s.padFind p with
      | none => none
      | some k =>
        let h := s.mem.hdr k
        if h.padcopy then (s.homeOf h.link).map fun l => (h.link, l)
        else if h.forward then (match n with | n + 1 => State.objectOf s n h.link | 0 => none)
        else some (s.ptrTo h.hi (.pad k), .pad k)

/-- The canonical pointer of the object that a pointer names and its place; NULLPTR or TYPE without one (R124). -/
def named (p : Word) : Op (Word × Loc) := do
  if ptrLevel p = 7 then raise .nullptr p
  if ptrLevel p ≥ 4 then raise .type p
  match (← get).objectOf 3 p with
  | some x => return x
  | none => raise .type p

/-! Areas (R154, R155). -/

/-- The record's area of a cluster pad or die pad. -/
def Rec.carea (r : Rec) (cl : Nat) : Option Area := find cl r.careas
def Rec.darea (r : Rec) (d : Nat) : Option Area := find d r.dareas

/-- The area of a level for a site within a record. -/
def State.areaFor (s : State) (rid site level : Nat) : Option Area :=
  if level = 3 then some (s.coreAt site).pad
  else if level = 2 then (s.recAt rid).carea (clusterOf site)
  else if level = 1 then (s.recAt rid).darea (dieOf site)
  else none

def State.setArea (s : State) (rid site level : Nat) (a : Area) : State :=
  if level = 3 then s.setCore site { (s.coreAt site) with pad := a }
  else
    let r := s.recAt rid
    if level = 2 then s.setRec rid { r with careas := store (clusterOf site) a r.careas }
    else s.setRec rid { r with dareas := store (dieOf site) a r.dareas }

/-- Free bytes of an area (R166). -/
def Area.free (a : Area) : Nat := a.size - a.bump

/-- Looks a canonical pointer up in a copy directory (R131). -/
def Area.copyOf (a : Area) (canon : Word) : Option Nat := find canon.toNat a.dir

/-- The copy of an object in the area of a level for a site. -/
def State.copyAt (s : State) (rid site level : Nat) (canon : Word) : Option Nat :=
  match s.areaFor rid site level with
  | some a => a.copyOf canon
  | none => none

/-- Copies longer than this do not fit a level (R20). -/
def copyLimit (level : Nat) : Nat :=
  if level = 3 then 32768 else if level = 2 then 524288 else if level = 1 then 16777216 else 2 ^ 40

/-- Marks a range of bytes dirty. -/
def State.markDirty (s : State) (key n : Nat) : State :=
  { s with dirty := (List.range n).foldl (fun l i => insertKey (key + i) l) s.dirty }

/-- Gives the n bytes at body offset `off` of the pad object at a key the poison of the same bytes at another place (R135,
R137). Body granules of all places have the same bounds. -/
def State.copyPoison (s : State) (src : Loc) (key off n : Nat) : State :=
  if n = 0 then s
  else
    let lost := ((List.range ((off + n - 1) / 32 - off / 32 + 1)).map (· + off / 32)).filter fun g =>
      s.bodyPoisoned src (Nat.max off (g * 32)) (Nat.min (off + n) ((g + 1) * 32) - Nat.max off (g * 32))
    let whole := (key + 32 + off + 31) / 32
    let kept := dropRange whole ((key + 32 + off + n) / 32 - whole) s.poison
    { s with poison := lost.foldl (fun l g => insertKey ((key + 32) / 32 + g) l) kept }

def State.markClean (s : State) (key n : Nat) : State := { s with dirty := dropRange key n s.dirty }

/-- Marks the 1-KiB units of a core pad, a cluster-pad area or a die-pad area that a write reaches (R406). -/
def State.markUnits (s : State) (key n : Nat) : State :=
  if n = 0 then s
  else
    let u := (List.range ((key + n - 1) / 1024 - key / 1024 + 1)).foldl (fun l i => insertKey (key / 1024 + i) l) s.units
    { s with units := u }

/-- Writes bytes at the body of a pad object, marking them dirty where the object is a pad copy. -/
def State.putPad (s : State) (key off : Nat) (bs : List Byte) : State :=
  let s1 := ({ s with mem := s.mem.setBytes (key + 32 + off) bs }).markUnits (key + 32 + off) bs.length
  s1.markDirty (key + 32 + off) bs.length

/-- An engine command is in flight somewhere on the device. -/
def State.engineBusy (s : State) : Bool := s.cores.any fun c => !c.2.wmb.isEmpty || !c.2.copies.isEmpty

/-- A store is about to overwrite n bytes of an object: a command in flight may still read them (R290). -/
def State.noteOld (s : State) (l : Loc) (off n : Nat) : State :=
  if s.engineBusy then { s with olds := { v := l, off := off, bytes := s.bodyBytes l off n } :: s.olds } else s

/-- What was overwritten is of no use once no command is in flight. -/
def State.dropOlds (s : State) : State := if s.engineBusy then s else { s with olds := [] }

/-- Writes bytes at the body of an object wherever it lies. -/
def State.putObj (s : State) (l : Loc) (off : Nat) (bs : List Byte) : State :=
  match l with
  | .pad k => (s.noteOld l off bs.length).putPad k off bs
  | .heap .. => (s.noteOld l off bs.length).putBody l off bs

end Sys2Proof.Machine
end

