-- ==== Sys2Proof/Machine/Scree.lean ====
section
/-! DEFINITION. Scree: allocation in areas and the collection passes of R154 to R164. A pass is one indivisible step of
the model. -/

namespace Sys2Proof.Machine

/-- Bit offsets of the pointer fields of a command word, by its operation (R51, R157). -/
def cmdPtrFields (op : Nat) : List Nat :=
  if 1 ≤ op ∧ op ≤ 4 then [64, 128]
  else if op = 5 then [64]
  else if op = 6 ∨ op = 7 then [64, 128]
  else if op = 0x11 ∨ op = 0x12 then [64, 128]
  else if op = 0x13 then [64, 128, 192]
  else if op = 0x14 then [64, 192]
  else if op = 0x15 ∨ op = 0x16 then [64, 128]
  else []

def kOp (k : KWord) : Nat := k.toNat % 256
def kField (k : KWord) (lo width : Nat) : Nat := fieldN k.toNat lo width
def kPtr (k : KWord) (lo : Nat) : Word := BitVec.ofNat 64 (k.toNat / 2 ^ lo)
def kSetPtr (k : KWord) (lo : Nat) (p : Word) : KWord :=
  BitVec.ofNat 256 (k.toNat - fieldN k.toNat lo 64 * 2 ^ lo + p.toNat * 2 ^ lo)

/-- Contexts whose `a` registers are roots: live ones and both shadows (R157). -/
def Core.rootCtxs (c : Core) : List Nat :=
  (List.range 13).filter fun i => i ≥ 11 || (c.ctxAt i).st = .ready || (c.ctxAt i).st = .waiting

/-- The pointers that a core's registers and its queued commands hold (R53, R157). -/
def Core.rootPtrs (c : Core) : List Word :=
  (c.rootCtxs.map fun i => (c.ctxAt i).a.toList.map (·.ptr)).flatten
    ++ (c.ptrSlots.map fun n => c.accSlot (1024 + n))
    ++ (c.k.toList.map fun k => (cmdPtrFields (kOp k)).map (kPtr k)).flatten
    ++ ((c.streams.toList.filter (·.bound)).map fun x => x.a.ptr)
    ++ ((c.wmb ++ c.copies).map fun m => (cmdPtrFields (kOp m.word)).map (kPtr m.word)).flatten

/-- The words of a PTRS object. -/
def State.ptrWords (s : State) (key : Nat) : List Word :=
  (List.range ((s.mem.hdr key).len / 8)).map fun i => s.mem.word (key + 32 + 8 * i)

def State.isPtrs (s : State) (key : Nat) : Bool := (s.mem.hdr key).typ = tPTRS && !(s.mem.hdr key).forward

/-- The sites whose cores hold the roots of a pass and stop for it (R157, R163). -/
def State.passSites (s : State) (rid site level : Nat) : List Nat :=
  let r := s.recAt rid
  if level = 3 then [site]
  else if level = 2 then r.place.filter fun x => clusterOf x = clusterOf site
  else r.place.filter fun x => dieOf x = dieOf site

/-- Object keys that a list of pointers names. -/
def State.keysOf (s : State) (rid site : Nat) (ps : List Word) : List Nat :=
  ps.filterMap fun p => padKeyOf (s.recAt rid) site p

/-- An object stays whatever names it: ROOT set, or a barrier or deque copy (R157, R204). -/
def State.heldInPlace (s : State) (key : Nat) : Bool :=
  let h := s.mem.hdr key
  h.root || h.typ = tBARRIER || h.typ = tDEQUE

/-- Engine commands, streams or pending reductions hold an object in its place (R157, R189, R263). -/
def State.pinned (s : State) (key : Nat) : Bool :=
  (s.mem.hdr key).eref ≠ 0 || s.reds.any fun r => decide (r.v = .pad key)

/-- Keys that the roots of a pass name (R157). -/
def State.rootKeys (s : State) (rid site level : Nat) (a : Area) : List Nat :=
  let sites := s.passSites rid site level
  let regs := (sites.map fun x => s.keysOf rid x (s.coreAt x).rootPtrs).flatten
  let padPtrs := if level = 3 then [] else
    (sites.map fun x => (((s.coreAt x).pad.hdrs.filter s.isPtrs).map fun k => s.keysOf rid x (s.ptrWords k)).flatten).flatten
  let objs := a.hdrs.filter fun k => s.heldInPlace k || s.pinned k
  let rem := s.keysOf rid site (a.rem.map s.nameWord)
  regs ++ padPtrs ++ objs ++ rem

/-- Objects of the area reached from a set of keys through PTRS objects (R159), with fuel. -/
def State.reach (s : State) (rid site : Nat) (hdrs : List Nat) : Nat → List Nat → List Nat
  | 0, live => live
  | n + 1, live =>
    let more := ((live.filter s.isPtrs).map fun k => s.keysOf rid site (s.ptrWords k)).flatten
    let next := hdrs.filter fun k => live.contains k || more.contains k
    if next.length = live.length then live else State.reach s rid site hdrs n next

/-- Places an object of footprint f at the bump pointer of an area. -/
def Area.bumpAlloc (a : Area) (f : Nat) : Area × Nat :=
  ({ a with bump := a.bump + f, hdrs := insertKey (a.base + a.bump) a.hdrs }, a.base + a.bump)

/-- The next regions of a list are empty and adjoin each other from an address on, for n more bytes. -/
def emptyRun : Nat → Nat → List HeapRegion → Bool
  | _, 0, _ => true
  | _, _, [] => false
  | base, n, r :: t => decide (r.base = base) && decide (r.used = 0) && emptyRun (base + 2097152) (n - 2097152) t

/-- Fills n bytes of the next regions of a list. -/
def useRun : Nat → List HeapRegion → List HeapRegion
  | _, [] => []
  | 0, l => l
  | n, r :: t => { r with used := Nat.min n 2097152 } :: useRun (n - 2097152) t

/-- Places an object in the heap of an ASID: the first region with room, in filling order, or for a longer object the
first adjoining empty regions (R165). -/
def fillRegions (f : Nat) : List HeapRegion → Option (List HeapRegion × Nat)
  | [] => none
  | r :: t =>
    if r.used + f ≤ 2097152 then some ({ r with used := r.used + f } :: t, r.base + r.used)
    else if 2097152 < f && emptyRun r.base f (r :: t) then some (useRun f (r :: t), r.base)
    else (fillRegions f t).map fun (t', va) => (r :: t', va)

def State.heapAlloc (s : State) (asid f : Nat) : Option (State × Nat) :=
  let x := lookup {} asid s.asids
  (fillRegions f x.regions).map fun (rs, va) =>
    ({ s with asids := store asid { x with regions := rs, objs := insertKey va x.objs } s.asids }, va)

/-- Every page of a virtual range is mapped with write permission. -/
def State.writable (s : State) (asid va n : Nat) : Bool :=
  (pageStarts va n).all fun a =>
    match find (pageKey asid (a / 4096)) s.ptes with
    | some e => e.write && !s.pteDead e
    | none => false

/-- A heap page of the range lies behind dead Palbel links (R151). -/
def State.acrossDead (s : State) (asid va n : Nat) : Bool :=
  (pageStarts va n).any fun a =>
    match find (pageKey asid (a / 4096)) s.ptes with
    | some e => s.pteDead e
    | none => false

/-- The nearest copy below a cluster-pad or die-pad copy, as seen from a site (R133). -/
def State.below (s : State) (rid site level : Nat) (canon : Word) : Loc :=
  let canonLoc : Loc :=
    if ptrLevel canon = 0 then .heap (s.recAt rid).l.asid (ptrLoc canon)
    else match padKeyOf (s.recAt rid) site canon with | some k => .pad k | none => .pad 0
  if level ≥ 2 then
    match s.copyAt rid site 1 canon with
    | some k => .pad k
    | none => canonLoc
  else canonLoc

/-- A dirty byte of a copy is written back into its canonical object (R360): of a KVTABLE only `MHENTRY`'s word and the
page entries. -/
def carriedByte (typ off : Nat) : Bool := typ ≠ tKVTABLE || (0x20 ≤ off && off < 0x28) || 0x80 ≤ off

/-- The keys of the dirty bytes of the copy at `src` that a write to a place carries. -/
def State.carriedKeys (s : State) (src n : Nat) (dst : Loc) : List Nat :=
  let ks := takeRange (src + 32) n s.dirty
  match dst with
  | .pad _ => ks
  | .heap .. => ks.filter fun k => carriedByte (s.mem.hdr src).typ (k - (src + 32))

/-- Writes bytes of the copy at `src`, given by their keys, into the object at `dst`, with their poison. -/
def State.carryBytes (s : State) (src : Nat) (ks : List Nat) (dst : Loc) : State :=
  let t := ks.foldl (fun (t : State) k => t.putObj dst (k - (src + 32)) [t.mem.byte k]) s
  let lost := (ks.filter fun k => s.poisoned k 1).map fun k => s.keyAt dst (k - (src + 32)) / 32
  { t with poison := lost.foldl (fun l g => insertKey g l) t.poison }

/-- Writes the dirty bytes of the copy at `src` into the object at `dst`; they stay dirty at `src`. -/
def State.carry (s : State) (src n : Nat) (dst : Loc) : State := s.carryBytes src (s.carriedKeys src n dst) dst

/-- A reduction is queued on some byte of the object at a place, at its port (R195). -/
def State.queuedOn (s : State) (v : Loc) : Bool := s.reds.any fun r => decide (r.v = v)

/-- Moves an object's bytes, dirty marks and poison from one pad key to another. -/
def State.moveBytes (s : State) (src dst f : Nat) : State :=
  if src = dst then s
  else
    let ds := takeRange src f s.dirty
    let ps := takeRange (src / 32) (f / 32) s.poison
    let s1 := { s with
      mem := s.mem.copy src dst f
      dirty := ds.foldl (fun l k => insertKey (dst + (k - src)) l) (dropRange dst f (dropRange src f s.dirty))
      poison := ps.foldl (fun l k => insertKey (dst / 32 + (k - src / 32)) l)
        (dropRange (dst / 32) (f / 32) (dropRange (src / 32) (f / 32) s.poison)) }
    s1.markUnits dst f

/-- Rewrites the pointers that name moved objects; `m` gives the new pointer of an old key. A register patched to a
level other than the core pad has its shadow marked not valid (R161). -/
def patchPtr (r : Rec) (site : Nat) (m : List (Nat × Word)) (p : Word) : Word :=
  match padKeyOf r site p with
  | some k => (match find k m with | some q => keepFmt p q | none => p)
  | none => p

def patchA (r : Rec) (site : Nat) (m : List (Nat × Word)) (a : AReg) : AReg :=
  let q := patchPtr r site m a.ptr
  if q = a.ptr then a
  else { a with ptr := q, sh := { a.sh with valid := a.sh.valid && ptrLevel q = 3 } }

def patchCtx (r : Rec) (site : Nat) (m : List (Nat × Word)) (x : Context) : Context :=
  { x with a := x.a.map (patchA r site m) }

/-- Patches the pointer fields of a command word. -/
def patchWord (r : Rec) (site : Nat) (m : List (Nat × Word)) (k : KWord) : KWord :=
  (cmdPtrFields (kOp k)).foldl (fun k lo => kSetPtr k lo (patchPtr r site m (kPtr k lo))) k

/-- Patches the roots that a core holds (R157). -/
def patchCore (r : Rec) (site : Nat) (m : List (Nat × Word)) (c : Core) : Core :=
  let c1 := c.ptrSlots.foldl (fun c n => c.setAcc (1024 + n) (patchPtr r site m (c.accSlot (1024 + n)))) c
  { c1 with
    parked := c.parked.filter fun e => decide (c1.accSlot (1024 + e.1) = c.accSlot (1024 + e.1)) || ptrLevel (c1.accSlot (1024 + e.1)) = 3
    ctxs := c1.ctxs.map (patchCtx r site m)
    k := c1.k.map (patchWord r site m)
    wmb := c1.wmb.map fun x => { x with word := patchWord r site m x.word }
    copies := c1.copies.map fun x => { x with word := patchWord r site m x.word }
    streams := c1.streams.map fun x => { x with a := patchA r site m x.a } }

/-- Canonical pointers that a core keeps of objects follow them: acquired sets, and the destinations of commands (R184,
R187). -/
def patchCanons (r : Rec) (site : Nat) (m : List (Nat × Word)) (c : Core) : Core :=
  let f := patchPtr r site m
  let ds := fun (l : List (Word × Loc × Nat × Nat)) => l.map fun d => (f d.1, d.2)
  { c with
    ctxs := c.ctxs.map fun x => { x with
      acquired := x.acquired.map fun e => { e with obj := f e.obj }
      recs := x.recs.map fun q => { q with dests := ds q.dests } }
    wmb := c.wmb.map fun x => { x with dests := ds x.dests }
    owed := c.owed.map fun x => { x with record := { x.record with dests := ds x.record.dests } }
    copies := c.copies.map fun x => { x with dests := ds x.dests }
    wdone := c.wdone.map fun x => { x with dests := ds x.dests }
    cpdone := c.cpdone.map fun x => { x with dests := ds x.dests } }

/-- Patches the words of a PTRS object in memory. -/
def patchWords (r : Rec) (site : Nat) (m : List (Nat × Word)) (mem : Mem) (key : Nat) : Mem :=
  (List.range ((mem.hdr key).len / 8)).foldl (fun mem i =>
    let w := mem.word (key + 32 + 8 * i)
    let q := patchPtr r site m w
    if q = w then mem else mem.write (key + 32 + 8 * i) 8 q.toNat) mem

/-- Patches the directory keys of an area. -/
def patchArea (r : Rec) (site : Nat) (m : List (Nat × Word)) (a : Area) : Area :=
  { a with dir := a.dir.foldl (fun d e =>
      let q := patchPtr r site m (BitVec.ofNat 64 e.1)
      store q.toNat e.2 d) [] }

/-- Patches the LINK of a pad copy whose canonical object has moved, or of a forwarding header (R126). -/
def patchLink (r : Rec) (site : Nat) (m : List (Nat × Word)) (mem : Mem) (key : Nat) : Mem :=
  let h := mem.hdr key
  let q := patchPtr r site m h.link
  if q = h.link then mem else mem.setHdr key { h with w2 := q }

/-- Patches what names moved or discarded objects of a record (R150, R161): the roots of the cores `sites`, every PTRS word
and remembered word, and every LINK, directory key and canonical pointer that the device keeps. -/
def State.patchAll (s : State) (rid : Nat) (sites : List Nat) (m : List (Nat × Word)) : State :=
  if m = [] then s
  else
    let r := s.recAt rid
    let mine := s.cores.filter fun e => decide (e.2.recId = some rid)
    let cores := s.cores.map fun (n, c) =>
      if c.recId = some rid then
        (n, patchCanons r n m { (if sites.contains n then patchCore r n m c else c) with pad := patchArea r n m c.pad })
      else (n, c)
    let at0 := r.place.headD 0
    let areas := r.careas ++ r.dareas
    let hdrs := (mine.map fun e => e.2.pad.hdrs.map fun k => (e.1, k)).flatten ++ (areas.map fun a => a.2.hdrs.map fun k => (at0, k)).flatten
    let rems := (mine.map fun e => e.2.pad.rem.map fun k => (e.1, k)).flatten ++ (areas.map fun a => a.2.rem.map fun k => (at0, k)).flatten
    let mem1 := hdrs.foldl (fun (mem : Mem) (e : Nat × Nat) =>
      if (mem.hdr e.2).typ = tPTRS && !(mem.hdr e.2).forward then patchWords r e.1 m mem e.2 else mem) s.mem
    let mem2 := hdrs.foldl (fun (mem : Mem) (e : Nat × Nat) => patchLink r e.1 m mem e.2) mem1
    let words := rems.filterMap fun e => (s.nameKey e.2).map fun k => (e.1, k)
    let mem3 := words.foldl (fun (mem : Mem) (e : Nat × Nat) =>
      let w := mem.word e.2
      let q := patchPtr r e.1 m w
      if q = w then mem else mem.write e.2 8 q.toNat) mem2
    let fix := fun (a : Area) => patchArea r at0 m a
    let noted := (words.filter fun e => decide (mem2.word e.2 ≠ mem3.word e.2)).foldl (fun (t : State) e => t.noteKey e.2) s
    { noted with
      cores := cores
      mem := mem3
      recs := store rid { r with careas := r.careas.map fun e => (e.1, fix e.2), dareas := r.dareas.map fun e => (e.1, fix e.2) } s.recs }

/-- An object that has moved: its old key and footprint, its new place, and the memory key of its header there. -/
structure Moved where
  old : Nat
  foot : Nat
  dst : Loc
  key : Nat

/-- The new name of a remembered word when objects have moved (R158). -/
def shiftName (moves : List Moved) (k : Nat) : Nat :=
  match moves.find? fun e => within e.old e.foot k with
  | some e => wordName e.dst (k - e.old) - 32
  | none => k

/-- The new place of a memory key when objects have moved. -/
def shiftKey (moves : List Moved) (k : Nat) : Nat :=
  match moves.find? fun e => within e.old e.foot k with
  | some e => e.key + (k - e.old)
  | none => k

/-- The new place of an object. -/
def shiftLoc (moves : List Moved) : Loc → Loc
  | .pad k => (match moves.find? fun e => within e.old e.foot k with
    | some e => if k = e.old then e.dst else .pad (e.key + (k - e.old))
    | none => .pad k)
  | l => l

def shiftDests (moves : List Moved) (l : List (Word × Loc × Nat × Nat)) : List (Word × Loc × Nat × Nat) :=
  l.map fun d => (d.1, shiftLoc moves d.2.1, d.2.2)

def shiftCmd (moves : List Moved) (m : Cmd) : Cmd :=
  { m with erefs := m.erefs.map (shiftLoc moves), barrier := m.barrier.map (shiftLoc moves), dests := shiftDests moves m.dests }

def shiftWaitKey (moves : List Moved) : WaitKey → WaitKey
  | .deque v => .deque (shiftLoc moves v)
  | .barrier v => .barrier (shiftLoc moves v)
  | k => k

/-- What a core keeps of the places of objects follows them. -/
def shiftCore (moves : List Moved) (c : Core) : Core :=
  { c with
    wmb := c.wmb.map (shiftCmd moves)
    owed := c.owed.map fun d => { d with record := { d.record with dests := shiftDests moves d.record.dests } }
    copies := c.copies.map (shiftCmd moves)
    wdone := c.wdone.map fun d => { d with dests := shiftDests moves d.dests }
    cpdone := c.cpdone.map fun d => { d with dests := shiftDests moves d.dests }
    streams := c.streams.map fun x => { x with loc := shiftLoc moves x.loc }
    ctxs := c.ctxs.map fun x => { x with recs := x.recs.map fun q => { q with dests := shiftDests moves q.dests } } }

/-- What the device keeps of an object's place follows it: the remembered sets (R158), the lines of waiting contexts, stack
objects, and the operands, streams and destinations of the engines. -/
def State.relocate (s : State) (rid : Nat) (moves : List Moved) : State :=
  let fix := fun (a : Area) => { a with rem := a.rem.map (shiftName moves) }
  let r := s.recAt rid
  { s with
    waitq := s.waitq.map fun w => { w with key := shiftWaitKey moves w.key }
    olds := s.olds.map fun o => { o with v := shiftLoc moves o.v }
    posts := s.posts.map fun p => { p with src := shiftLoc moves p.src, dst := shiftLoc moves p.dst, bar := p.bar.map (shiftLoc moves) }
    cores := s.cores.map fun (n, c) => if c.recId = some rid then (n, shiftCore moves { c with pad := fix c.pad }) else (n, c)
    recs := store rid { r with
      careas := r.careas.map fun e => (e.1, fix e.2), dareas := r.dareas.map fun e => (e.1, fix e.2)
      stackObjs := r.stackObjs.map (shiftKey moves) } s.recs }

/-- Places an object of footprint f and pointer byte `hi8` in the record's area of a level, or in the heap for level 0, if
there is room: the state, the place and the pointer. -/
def State.reserve (s : State) (rid site level hi8 f : Nat) : Option (State × Loc × Word) :=
  if level = 0 then
    let asid := (s.recAt rid).l.asid
    (s.heapAlloc asid f).map fun (t, va) => (t, .heap asid va, mkPtr hi8 0 va)
  else
    match s.areaFor rid site level with
    | none => none
    | some a =>
      if a.free < f then none
      else
        let (a', key) := a.bumpAlloc f
        let t := s.setArea rid site level a'
        some (t, .pad key, padPtr (t.recAt rid) hi8 key)

/-- Moves the private object at a pad key to a reserved place, whose pages are mapped (R150, R160). In a pad its EPOCH is
the pass count of the area; a heap object is SHARED, and has EPOCH 0 (log entry 100). -/
def State.moveInto (s : State) (rid site level key : Nat) : Loc → State
  | .pad dst =>
    let h := s.mem.hdr key
    let t := s.moveBytes key dst h.foot
    let epoch := ((t.areaFor rid site level).map (·.passes.toNat)).getD 0
    { t with mem := t.mem.setHdr dst { h with w3 := setBits h.w3 0 32 epoch } }
  | .heap asid va =>
    let h := s.mem.hdr key
    let t := s.putHeap asid (va + 32) (s.mem.bytes (key + 32) h.span)
    let lost := (List.range (ceilDiv h.span 32)).filter fun g => s.poisoned (key + 32 + g * 32) (Nat.min 32 (h.span - g * 32))
    let u := { t with poison := lost.foldl (fun l g => insertKey (t.keyAt (.heap asid va) (g * 32) / 32) l) t.poison }
    (u.setHdr (.heap asid va) { (h.setFlag 56 true) with w2 := nullPtr, w3 := setBits h.w3 0 32 0 }).markClean key h.foot

/-- The memory key of the header at a place whose page is mapped. -/
def State.movedTo (s : State) (old foot : Nat) (l : Loc) : Moved := { old := old, foot := foot, dst := l, key := s.hdrKey l }

/-- Takes the header at a key out of an area, with its directory entry. -/
def Area.drop (a : Area) (key : Nat) : Area :=
  { a with hdrs := a.hdrs.filter fun k => decide (k ≠ key), dir := a.dir.filter fun e => decide (e.2 ≠ key) }

def State.dropHeader (s : State) (rid site level key : Nat) : State :=
  match s.areaFor rid site level with
  | some a => s.setArea rid site level (a.drop key)
  | none => s

/-! Pages that the host must answer for first (R178). -/

/-- A context has asked for write permission for a page and was refused. -/
def State.refusedPage (s : State) (o : Owner) (asid page : Nat) : Bool :=
  s.pageReqs.any fun q => decide (q.asid = asid) && decide (q.page = page) && decide (q.owner = o) && q.refused

/-- What a pass finds of a heap range that it has to write. -/
inductive Reach where
  /-- every page is mapped for writing -/
  | free
  /-- the host refuses a page, or a page lies behind a dead link -/
  | shut
  /-- these pages must be asked for first -/
  | ask (pages : List Nat)
  deriving DecidableEq, Repr

/-- How a range of an ASID's heap can be written for an owner; without the PRI feature a page cannot be asked for (R422). -/
def State.reachOf (s : State) (o : Owner) (asid : Nat) (pages : List Nat) : Reach :=
  let mapped := fun (pg : Nat) => s.writable asid (pg * 4096) 1
  let dead := fun (pg : Nat) => s.acrossDead asid (pg * 4096) 1
  let missing := pages.filter fun pg => !mapped pg
  if missing.any fun pg => dead pg || s.refusedPage o asid pg || !s.accepted (lookup {} asid s.asids).vf 1 then .shut
  else if missing.isEmpty then .free
  else .ask missing

/-- How the dirty bytes of a copy can be written at a place. -/
def State.canCarry (s : State) (o : Owner) (src n : Nat) (dst : Loc) : Reach :=
  match dst with
  | .pad k => if k = 0 then .shut else .free
  | .heap asid va => s.reachOf o asid (((s.carriedKeys src n dst).map fun k => (va + 32 + (k - (src + 32))) / 4096).dedup)

/-- A pass while it goes through its objects: the state, the context that started it, the objects that stay, whether
each is fixed, and the bytes moved; the heap pages that must be asked for first, and whether a queued reduction on an
object that it writes must be performed first. -/
structure PassAcc where
  s : State
  o : Owner
  stay : List (Nat × Bool) := []
  moved : Nat := 0
  ask : List (Nat × Nat) := []
  hold : Bool := false

/-- A discarded or moved object leaves its area, and what named it is patched (R161). -/
def PassAcc.gone (acc : PassAcc) (rid site level key : Nat) (sites : List Nat) (p : Word) : PassAcc :=
  { acc with s := (acc.s.patchAll rid sites [(key, p)]).dropHeader rid site level key }

/-- Carries the dirty bytes of a shared copy into the nearest copy below (R160). -/
def PassAcc.carryDown (acc : PassAcc) (rid site level key : Nat) : PassAcc :=
  let s := acc.s
  let h := s.mem.hdr key
  if h.padcopy && level ≤ 2 && h.typ ≠ tBARRIER && h.typ ≠ tDEQUE && !(takeRange (key + 32) h.span s.dirty).isEmpty then
    let dst := s.below rid site level h.link
    let held := s.queuedOn dst || s.queuedOn (.pad key)
    match s.canCarry acc.o key h.span dst with
    | .free => { acc with s := (s.carry key h.span dst).markClean (key + 32) h.span, hold := acc.hold || held }
    | .shut => acc
    | .ask pages => { acc with ask := acc.ask ++ pages.map fun pg => ((s.recAt rid).l.asid, pg) }
  else acc

/-- Moves a private object one level down if there is room (R160). -/
def PassAcc.moveDown (acc : PassAcc) (rid site level key : Nat) (sites : List Nat) : Option PassAcc :=
  let s := acc.s
  let h := s.mem.hdr key
  match s.reserve rid site (level - 1) h.hi h.foot with
  | none => none
  | some (t, l, p) =>
    let go : PassAcc :=
      { acc with
        s := ((t.moveInto rid site (level - 1) key l).relocate rid [t.movedTo key h.foot l]).patchAll rid sites [(key, p)]
              |>.dropHeader rid site level key
        moved := acc.moved + h.foot }
    match l with
    | .pad _ => some go
    | .heap asid va =>
      match s.reachOf acc.o asid ((pageStarts va h.foot).map (· / 4096)) with
      | .free => some go
      | .shut => none
      | .ask pages => some { acc with ask := acc.ask ++ pages.map fun pg => (asid, pg) }

/-- Disposes of one object (R160). `down` runs a pass on the next level down and is tried once when there is no room. The
old place of an object that has moved is discarded, and what names it names the new place. -/
def disposeOne (rid site level : Nat) (sites live : List Nat) (down : PassAcc → PassAcc) (acc0 : PassAcc) (key : Nat) : PassAcc :=
  let h := acc0.s.mem.hdr key
  if h.forward then acc0.gone rid site level key sites h.link
  else if !live.contains key then { acc0 with s := acc0.s.dropHeader rid site level key }
  else
    let acc := acc0.carryDown rid site level key
    if acc.s.pinned key then { acc with stay := (key, true) :: acc.stay }
    else if acc.s.heldInPlace key then { acc with stay := (key, false) :: acc.stay }
    else if h.padcopy then
      if (takeRange (key + 32) h.span acc.s.dirty).isEmpty then acc.gone rid site level key sites (acc.s.mem.hdr key).link
      else { acc with stay := (key, false) :: acc.stay }
    else
      match acc.moveDown rid site level key sites with
      | some a => a
      | none =>
        let acc1 := down acc
        match acc1.moveDown rid site level key sites with
        | some a => a
        | none => { acc1 with stay := (key, false) :: acc1.stay }

/-- Slides the objects that stay towards the base of the area, around those that keep their place (R160): the end of the
last one, the state, the moves and the new keys. -/
def slide : List (Nat × Bool) → Nat → State → List Moved → List Nat → Nat × State × List Moved × List Nat
  | [], cur, s, ms, out => (cur, s, ms, out)
  | (key, fixedHere) :: t, cur, s, ms, out =>
    let f := (s.mem.hdr key).foot
    if fixedHere || key = cur then slide t (key + f) s ms (insertKey key out)
    else slide t (cur + f) (s.moveBytes key cur f) ({ old := key, foot := f, dst := .pad cur, key := cur } :: ms) (insertKey cur out)

/-- The pages of the remembered heap words of an area, which a pass re-scans, are asked for (R158, R178). -/
def PassAcc.readNames (acc : PassAcc) (a : Area) : PassAcc :=
  let pages := (a.rem.filterMap namePage).filter fun pg => (find pg acc.s.ptes).isNone
  let askable := fun (p : Nat × Nat) => decide (acc.s.reachOf acc.o p.1 [p.2] ≠ .shut)
  { acc with ask := acc.ask ++ (pages.map fun pg => (pg / 2 ^ 41, pg % 2 ^ 41)).filter askable }

/-- A pass on one area (R154 to R161). -/
def PassAcc.passWith (acc0 : PassAcc) (rid site level : Nat) (down : PassAcc → PassAcc) : PassAcc :=
  let s := acc0.s
  match s.areaFor rid site level with
  | none => acc0
  | some a =>
    let sites := s.passSites rid site level
    let acc0 := acc0.readNames a
    let live := s.reach rid site a.hdrs (a.hdrs.length + 1) (a.hdrs.filter fun k => (s.rootKeys rid site level a).contains k)
    let liveBytes := (live.map fun k => (s.mem.hdr k).foot).sum
    let acc := a.hdrs.foldl (disposeOne rid site level sites live down) { acc0 with stay := [], moved := 0 }
    let (top, s1, ms, keys) := slide acc.stay.reverse a.base acc.s [] []
    match s1.areaFor rid site level with
    | none => { acc with s := s1 }
    | some a1 =>
      let placed := s1.setArea rid site level { a1 with hdrs := keys, dir := a1.dir.map fun e => (e.1, shiftKey ms e.2) }
      let r := placed.recAt rid
      let s2 := (placed.relocate rid ms).patchAll rid sites (ms.foldl (fun l e => store e.old (padPtr r (s1.mem.hdr e.key).hi e.key) l) [])
      match s2.areaFor rid site level with
      | none => { acc with s := s2 }
      | some a2 =>
        let inArea := fun (k : Nat) => decide (a.base ≤ k) && decide (k < a.base + a.size)
        let pause := if level = 3 then 200 + liveBytes / 128 else if level = 2 then 400 + liveBytes / 256
          else 1000 + liveBytes / 512
        let a3 := { a2 with
          bump := top - a.base, passes := a2.passes + 1
          rem := a2.rem.filter fun k => (s2.keysOf rid site [s2.nameWord k]).any inArea
          lastLive := liveBytes, lastPause := pause, lastMoved := acc.moved }
        let gap := { s2 with dirty := s2.dirty.filter fun k => !(inArea k) || keys.any fun h => within h (s2.mem.hdr h).foot k }
        { acc with s := gap.setArea rid site level a3, stay := acc0.stay, moved := acc0.moved }

/-- Asks for write permission for pages, each once. -/
def State.askWrites (s : State) (o : Owner) (pages : List (Nat × Nat)) : State :=
  pages.foldl (fun (t : State) p =>
    if t.pageReqs.any fun q => decide (q.asid = p.1) && decide (q.page = p.2) && decide (q.owner = o) then t
    else { t with pageReqs := t.pageReqs ++ [{ asid := p.1, page := p.2, write := true, owner := o }] }) s

/-- A pass on the area of a level; a narrower pass may start one on the next level down (R154). `o` is the context that
started it. -/
def State.pass (s : State) (o : Owner) (rid site level : Nat) : PassAcc :=
  let die := fun (t : PassAcc) => t.passWith rid site 1 id
  let cluster := fun (t : PassAcc) => t.passWith rid site 2 die
  let acc : PassAcc := { s := s, o := o }
  if level = 3 then acc.passWith rid site 3 cluster
  else if level = 2 then cluster acc
  else die acc

/-- The executing core makes a pass on its area of a level. The pass waits until the host has answered for every heap page
that it has to write (R178), and until the reductions queued on what it carries are performed (R195). -/
def scree (level : Nat) : Op Unit := do
  let s ← get
  let o : Owner := .ctx s.site s.core.act
  let acc := s.pass o (s.core.recId.getD 0) s.site level
  if acc.ask.isEmpty then
    if acc.hold then waitHere
    set { acc.s with pageReqs := acc.s.pageReqs.filter fun q => !(decide (q.owner = o) && q.refused) }
  else
    modify fun s => s.askWrites o acc.ask.dedup
    waitKeep

/-- Bytes are free at the bump pointer of an area. -/
def State.roomIn (s : State) (rid site level f : Nat) : Bool :=
  match s.areaFor rid site level with
  | some a => decide (f ≤ a.free)
  | none => false

/-- Asks for room in the executing core's area of a level, and with `entry` for a place in the directory (R131, R145). -/
def needRoom (level f : Nat) (entry : Bool) : Op Unit := do
  let s ← get
  match s.areaFor (s.core.recId.getD 0) s.site level with
  | some a => if f ≤ a.free && (!entry || decide (a.dir.length < a.dirCap)) then return ()
  | none => pure ()
  throw (.room level f)

/-- An effect that finds too little room in an area: a pass is made there and the effect begins again; when it finds too
little room there again it ends with PADFULL and the bytes needed (R131, R145, R150, R156). What has passed is listed. -/
def withRoom {α : Type} (f : Op α) : Nat → List Nat → Op α
  | n, passed => fun s =>
    match f s with
    | .error (.room level v) t =>
      let full : EStateM.Result Exit State α := .error (.trap .padfull (BitVec.ofNat 64 v)) t
      match n with
      | 0 => full
      | n + 1 =>
        if passed.contains level then full
        else
          match scree level s with
          | .ok _ u => withRoom f n (level :: passed) u
          | .error e u => .error e u
    | r => r

/-- Takes footprint f at the bump pointer of an area with room, with every byte zero and clean; answers its key. -/
def takeRoom (rid site level f : Nat) : Op Nat := do
  let s ← get
  match s.areaFor rid site level with
  | none => throw (.room level f)
  | some a =>
    let (a', key) := a.bumpAlloc f
    let s1 := s.setArea rid site level a'
    let s2 := { s1 with mem := s1.mem.clear key f, poison := dropRange (key / 32) (f / 32) s1.poison }
    set ((s2.markClean key f).markUnits key f)
    return key

/-- Enters a copy in the directory of an area. -/
def State.enterCopy (s : State) (rid site level : Nat) (canon : Word) (key : Nat) : State :=
  match s.areaFor rid site level with
  | some a => s.setArea rid site level { a with dir := store canon.toNat key a.dir }
  | none => s

end Sys2Proof.Machine
end

