-- ==== Sys2Proof/Machine/Touch.lean ====
section
/-! DEFINITION. Touch: bringing an object near (R130), the copies that serve a scope (R180, R189), release and acquire
(R149 to R152, R184, R467). -/

namespace Sys2Proof.Machine

/-- The level of a place. -/
def Loc.level : Loc → Nat
  | .pad k => keyLevel k
  | .heap .. => 0

/-- A key lies in a core's own place of a level: its core pad, its cluster's pad, its die's pad. -/
def ownPlace (site key : Nat) : Bool :=
  let lv := keyLevel key
  if lv = 3 then (key - 2 ^ 60) / 2 ^ 18 = site
  else if lv = 2 then !isChan site && (key - 2 ^ 61) / 2 ^ 22 = clusterOf site
  else lv = 1 && (key - 2 ^ 62) / 2 ^ 28 = dieOf site

/-- The copy of an object at a level for the executing core: the object itself when it lies there, else the copy that the
directory of its area names (R133). A channel core has an area in its core pad only (R155). -/
def State.copyHere (s : State) (level : Nat) (canon : Word) (home : Loc) : Option Loc :=
  let here := match home with
    | .pad k => home.level = level && ownPlace s.site k
    | .heap .. => decide (level = 0)
  if here then some home else (s.copyAt (s.core.recId.getD 0) s.site level canon).map .pad

/-- The nearest copy of an object at a level from `top` outward (R133). -/
def State.nearest (s : State) (top : Nat) (canon : Word) (home : Loc) : Loc :=
  (([3, 2, 1].filter fun lv => decide (lv ≤ top)).findSome? fun lv => s.copyHere lv canon home).getD home

/-- The nearest copy, whose header is read next: a trap reports `p` (R130, R466). -/
def nearestFrom (p : Word) (top : Nat) (canon : Word) (home : Loc) : Op Loc := do
  let l := (← get).nearest top canon home
  readHeader p canon l
  return l

/-- The 64-byte line of a body offset of the object at a place. -/
def lineOf (l : Loc) (off : Nat) : Nat :=
  match l with
  | .pad k => (k + 32 + off) / 64
  | .heap _ va => (va + 32 + off) / 64

/-- A line that n bytes at a body offset reach has a pending reduction. -/
def State.redsOn (s : State) (l : Loc) (off n : Nat) : Bool :=
  s.reds.any fun r => decide (r.v = l) && decide (lineOf l off ≤ r.line) && decide (r.line ≤ lineOf l (off + n - 1))

/-- An access to a line with a pending reduction takes effect after it (R195). -/
def awaitReds (l : Loc) (off n : Nat) : Op Unit := do
  if (← get).redsOn l off n then waitHere

/-- Accesses of one context to one object take effect in program order (R182): an access waits for the context's own `hwr`
to the object. -/
def ownWrites (l : Loc) : Op Unit := do
  let c ← getCore
  if c.hwrs.any fun h => decide (h.ctx = c.act) && decide (h.obj = l) then waitHere

/-- An access that writes an object waits for the context's own posted copies that read or write it (R182). -/
def ownPosts (l : Loc) : Op Unit := do
  let s ← get
  if s.posts.any fun p => decide (p.site = s.site) && decide (p.ctx = s.core.act) && (decide (p.src = l) || decide (p.dst = l)) then
    waitHere

/-- Copies header and body of the object at `src` to a fresh place of a level (R130): the copy is clean, and its LINK
is the canonical pointer. Lost bytes stay marked. -/
def makeCopy (level : Nat) (canon : Word) (src : Loc) : Op Nat := do
  let s ← get
  let rid := s.core.recId.getD 0
  let h := s.hdr src
  ownWrites src
  awaitReds src 0 h.span
  needRoom level h.foot true
  let key ← takeRoom rid s.site level h.foot
  let s ← get
  let epoch := ((s.areaFor rid s.site level).map (·.passes.toNat)).getD 0
  let h' := { (h.setFlag 60 true) with w2 := canon, w3 := BitVec.ofNat 64 epoch }
  let bs := s.bodyBytes src 0 h.span
  let s1 := { s with mem := (s.mem.setHdr key h').setBytes (key + 32) bs }.copyPoison src key 0 h.span
  set ((s1.markUnits key h.foot).enterCopy rid s.site level canon key)
  return key

/-- The level a touch copies an object of a type and body length n into; 0 when no pad takes it (R20, R130): a KVPAGE is
never copied (R363). -/
def touchLevel (typ n : Nat) : Nat :=
  if typ = tKVPAGE then 0 else if n ≤ 32768 then 3 else if n ≤ 524288 then 2 else if n ≤ 16777216 then 1 else 0

def Hdr.touchLevel (h : Hdr) : Nat := Sys2Proof.Machine.touchLevel h.typ h.len

/-- Sets the pointer and the bounds shadow of a register, keeping its cursor (R130). -/
def setPointer (r : Nat) (p : Word) (h : Hdr) : Op Unit :=
  modCtx fun x => x.setA r { x.areg r with ptr := p, sh := h.shadow }

/-- A copy-in of an object for a core is under way. -/
def State.copyingIn (s : State) (site : Nat) (canon : Word) : Bool :=
  s.copyins.any fun c => decide (c.site = site) && decide (c.canon = canon)

/-- A touch of an object that is not in the core pad (R130): the place at which the object is accessed; none when its
body exceeds 16 MiB. A copy that must be made is a copy-in under way; the instruction waits for it (R132). -/
def touchFar (r : Nat) (p : Word) : Op (Option Loc) := do
  let (canon, home) ← named p
  let src ← nearestFrom p 2 canon home
  worldCheck p src
  poisonCheck p src
  let h := (← get).hdr src
  require (decide (h.typ < 10) && decide (h.fmt < 18)) .type p
  let t := h.touchLevel
  if t = 0 then
    if let .heap asid va := src then missRange asid va 32 1
    modCtx fun x => x.setA r { x.areg r with sh := h.shadow }
    return none
  else if src.level ≥ t then
    setPointer r (keepFmt p ((← get).ptrTo 0 src)) h
    return some src
  else
    let s ← get
    match s.copyAt (s.core.recId.getD 0) s.site t canon with
    | some k =>
      setPointer r (keepFmt p (s.ptrTo 0 (.pad k))) (s.mem.hdr k)
      return some (.pad k)
    | none =>
      if s.copyingIn s.site canon then waitKeep
      if let .heap asid va := src then translateRange asid va (32 + h.span) false p
      needRoom t h.foot true
      if let .heap asid va := src then missRange asid va (32 + h.span) 1
      modify fun s => { s with copyins := s.copyins ++ [{ site := s.site, ctx := s.core.act, canon := canon }] }
      waitKeep

/-- `Touch(a)` (R130): a pointer into the core's own pad is in reach already, unless its object has moved away (R132). -/
def touch (r : Nat) : Op (Option Loc) := do
  let p := (← rdA r).ptr
  if ptrLevel p = 7 then raise .nullptr p
  if ptrLevel p ≥ 4 then raise .type p
  if ptrLevel p = 3 then
    let k ← padLoc p p
    let s ← get
    if (k - 2 ^ 60) / 2 ^ 18 ≠ s.site then raise .type p
    if (s.mem.hdr k).forward then touchFar r p
    else
      if !(← rdA r).sh.valid then setPointer r p (s.mem.hdr k)
      return some (.pad k)
  else touchFar r p

/-- `Touch(a)` for an access that needs the body: TYPE with the offset when the body exceeds 16 MiB (R136). -/
def touchBody (r : Nat) (off : Int) : Op Loc := do
  match ← touch r with
  | some l => return l
  | none => raise .type (toWord off)

/-- The bounds shadow, touching the object when it is not valid (R125). -/
def shadowOf (r : Nat) : Op Shadow := do
  if !(← rdA r).sh.valid then
    let _ ← touch r
  return (← rdA r).sh

/-- `Bounds(a, off, n)` (R8) against a length. -/
def boundsCheck (off : Int) (n len : Nat) : Op Unit :=
  require (decide (0 ≤ off) && decide (off + n ≤ len)) .bounds (toWord off)

/-! Scopes (R180). -/

/-- L(S). -/
def scopeLevel (scope : Nat) : Nat := if scope ≤ 1 then 3 else if scope = 2 then 2 else if scope = 3 then 1 else 0

/-- The scope that a level serves (R213). -/
def levelScope (level : Nat) : Nat := if level = 3 then 1 else if level = 2 then 2 else if level = 1 then 3 else 4

/-- Runs an effect that must take place whole or not at all: a trap or a wait leaves the state as it was, but for the
page requests that it made (R150, R178, R184). -/
def whole {α : Type} (f : Op α) : Op α := fun s =>
  match f s with
  | .ok x t => .ok x t
  | .error e t => .error e { s with pageReqs := t.pageReqs }

/-- An earlier access of a context has not yet been performed: reductions at their ports, `hwr` and `cpost` writes
(R149, R198). -/
def State.accessPending (s : State) (site ctx : Nat) : Bool :=
  (s.reds.any fun r => r.terms.any fun t => decide (t.sender = some (site, ctx)))
    || (s.posts.any fun p => decide (p.site = site) && decide (p.ctx = ctx))
    || ((s.coreAt site).hwrs.any fun h => decide (h.ctx = ctx))

def waitAccesses : Op Unit := do
  let s ← get
  if s.accessPending s.site s.core.act then waitHere

/-- Sets bits of the context's fence status (R197): 0 LINKDEAD, 1 REFUSED, 2 POISONED, 3 MSGREFUSED. -/
def setFenceAt (site ctx bit : Nat) : Op Unit :=
  modCtxAt site ctx fun x => { x with fence := x.fence ||| (1#4 <<< bit) }

def setFence (bit : Nat) : Op Unit := do
  let s ← get
  setFenceAt s.site s.core.act bit

/-- The pages of an object's dirty bytes that a write to the heap needs, with write permission (R178). -/
def translateDirty (src n : Nat) (dst : Loc) (val : Word) : Op Unit := do
  match dst with
  | .pad _ => pure ()
  | .heap asid va =>
    let s ← get
    let offs := ((s.carriedKeys src n dst).map fun k => (va + 32 + (k - (src + 32))) / 4096).dedup
    for pg in offs do
      let _ ← translate asid (pg * 4096) true val

/-- The keys of the dirty bytes of a copy that reach a place: not those bound for a dead Palbel link (R151). -/
def State.reachKeys (s : State) (src n : Nat) (dst : Loc) : List Nat :=
  match dst with
  | .pad _ => s.carriedKeys src n dst
  | .heap asid va => (s.carriedKeys src n dst).filter fun k => !s.acrossDead asid (va + 32 + (k - (src + 32))) 1

/-- Writes the dirty bytes of a copy into a place; bytes bound for a dead Palbel link are lost and LINKDEAD is set
(R151). -/
def carryTo (src n : Nat) (dst : Loc) : Op Unit := do
  let s ← get
  let live := s.reachKeys src n dst
  if live.length < (s.carriedKeys src n dst).length then setFence 0
  modify fun s => s.carryBytes src live dst

/-- The copies of an object at the levels from 3 outward that are narrower than a place, narrowest first. -/
def State.pathCopies (s : State) (canon : Word) (home v : Loc) : List Nat :=
  ([3, 2, 1].filter fun lv => decide (lv > v.level)).filterMap fun lv =>
    match s.copyHere lv canon home with
    | some (.pad k) => if Loc.pad k ≠ v then some k else none
    | _ => none

/-- The copy that a release at scope S writes, created if it is absent and fits (R149). An object that has no place below
L(S) is its own; a KVPAGE is never copied (R363). -/
def releaseTarget (p : Word) (scope : Nat) (canon : Word) (home : Loc) : Op Loc := do
  let lv := scopeLevel scope
  match (← get).copyHere lv canon home with
  | some l => return l
  | none =>
    let src ← nearestFrom p (lv - 1) canon home
    let h := (← get).hdr src
    if lv ≥ 1 && decide (src.level < lv) && decide (h.len ≤ copyLimit lv) && decide (h.typ ≠ tKVPAGE) then
      if let .heap asid va := src then
        translateRange asid va (32 + h.span) false p
      return .pad (← makeCopy lv canon src)
    else return src

/-- Writes one object's dirty copies down to v (R149): each path copy's dirty bytes go into v and into every copy
between, and the path copy becomes clean. -/
def writeBack (p canon : Word) (home v : Loc) : Op Unit := do
  let path := (← get).pathCopies canon home v
  let n := ((← get).hdr v).span
  for c in path do
    translateDirty c n v p
    awaitReds (.pad c) 0 n
  awaitReds v 0 n
  let s ← get
  if (s.hdr v).poison || s.bodyPoisoned v 0 n then raise .poison p
  for c in path do
    for d in path do
      if keyLevel d < keyLevel c then carryTo c n (.pad d)
    carryTo c n v
    modify fun s => s.markClean (c + 32) n

/-- Pushes one entry of the acquired set down to scope S (R184): the entry afterwards, none when its copy is gone. -/
def pushEntry (scope : Nat) (e : AcqEntry) : Op (Option AcqEntry) := do
  let s ← get
  if e.level ≤ scopeLevel scope then return some e
  else
    match (s.homeOf e.obj).bind fun home => (s.copyHere e.level e.obj home).map fun c => (home, c) with
    | some (home, .pad c) =>
      if (s.mem.hdr c).forward then return none
      else if home = .pad c then return some e
      else
        let t ← releaseTarget e.obj scope e.obj home
        let n := ((← get).mem.hdr c).span
        translateDirty c n t e.obj
        awaitReds (.pad c) 0 n
        awaitReds t 0 n
        for d in (← get).pathCopies e.obj home t do
          if keyLevel d < keyLevel c then awaitReds (.pad d) 0 n
        for d in (← get).pathCopies e.obj home t do
          if keyLevel d < keyLevel c then carryTo c n (.pad d)
        carryTo c n t
        modify fun s => s.markClean (c + 32) n
        return some { e with level := scopeLevel scope }
    | _ => return none

/-- The cumulative push of a release at scope S (R184), oldest entry first. -/
def cumulativePush (scope : Nat) : Op Unit := do
  let mut out : List AcqEntry := []
  for e in (← getCtx).acquired do
    if let some e' ← pushEntry scope e then out := out ++ [e']
  let kept := out
  modCtx fun x => { x with acquired := kept }

/-- The watched object has been written or released (R140, R151); the shadows never raise WATCH (R93). -/
def noteWatch (canon : Word) : Op Unit := do
  let s ← get
  if s.core.dbgctl.getLsbD 2 && !s.core.inTrap && !s.core.inMiss && canon = s.core.watch then
    modTx fun t => { t with watch := some canon }

/-- Releases one object at scope S after the push (R149): its new version. A release at cluster scope or wider makes it
SHARED (R126). -/
def releaseObj (p : Word) (scope : Nat) (canon : Word) (home : Loc) : Op Nat := do
  let v ← releaseTarget p scope canon home
  if let .heap asid va := v then
    let _ ← translate asid va true p
  writeBack p canon home v
  let s ← get
  let h := s.hdr v
  let n := (h.version + 1) % 2 ^ 32
  let h' := if scope ≥ 2 then h.setFlag 56 true else h
  set (s.setHdr v { h' with w1 := BitVec.ofNat 64 (n + scope % 8 * 2 ^ 32) })
  noteWatch canon
  return n

/-- The canonical pointers, rising, of the objects with dirty bytes in copies that the executing core holds at a level
narrower than L(S) (R467). -/
def State.dirtyCanons (s : State) (scope : Nat) : List Nat :=
  let rid := s.core.recId.getD 0
  let dirtyIn := fun (e : Nat × Nat) => !(takeRange (e.2 + 32) (s.mem.hdr e.2).span s.dirty).isEmpty
  let held := fun (lv : Nat) =>
    if lv > scopeLevel scope then ((s.areaFor rid s.site lv).map fun a => (a.dir.filter dirtyIn).map (·.1)).getD []
    else ([] : List Nat)
  (held 3 ++ held 2 ++ held 1).foldl (fun l k => insertKey k l) []

/-- BARRIER and DEQUE copies are never carried (R204). -/
def carriedType (h : Hdr) : Bool := h.typ ≠ tBARRIER && h.typ ≠ tDEQUE

/-- Moves the private object at a pad key to level L(S) and marks it shared (R150): a forwarding LINK stays at the old
place, and what the core names it by is patched. `total` is what all moves of the promotion need. -/
def promote (p : Word) (level total key : Nat) : Op (Word × Loc) := do
  let s ← get
  let rid := s.core.recId.getD 0
  let h := s.mem.hdr key
  match s.reserve rid s.site level h.hi h.foot with
  | none => raise .padfull (BitVec.ofNat 64 total)
  | some (t, l, q) =>
    if let .heap asid va := l then translateRange asid va h.foot true p
    let u := { t with pageReqs := (← get).pageReqs }.moveInto rid s.site level key l
    let u1 := u.setHdr l ((u.hdr l).setFlag 56 true)
    let u2 := (u1.relocate rid [u1.movedTo key h.foot l]).patchAll rid [s.site] [(key, q)]
    set ({ u2 with mem := u2.mem.setHdr key { (h.setFlag 57 false) with w2 := q } }.markClean key h.foot)
    return (q, l)

/-- The pages, as ASID and virtual address, that reading the words of an object needs and that are not translated: that of its
header, and those of the body of a PTRS object. -/
def State.viewPages (s : State) (canon : Word) : Loc → List (Nat × Nat)
  | .pad _ => []
  | .heap asid va =>
    let away := fun (a : Nat) => (find (pageKey asid (a / 4096)) s.ptes).isNone
    if away va then [(asid, va)]
    else
      let h := s.hdr (.heap asid va)
      if heapHeaderOk canon h && h.typ = tPTRS then ((pageStarts (va + 32) h.len).filter away).map fun a => (asid, a) else []

/-- The places that hold the executing core's view of an object: its copies and, where it can be read, the object itself. -/
def State.viewOf (s : State) (canon : Word) (home : Loc) : List Loc :=
  let readable := match home with
    | .pad _ => true
    | .heap .. => (s.viewPages canon home).isEmpty && heapHeaderOk canon (s.hdr home)
  ([3, 2, 1].filterMap fun lv => (s.copyHere lv canon home).filter fun l => decide (l ≠ home)) ++ (if readable then [home] else [])

/-- What a list of objects reaches through PTRS objects (R149), with fuel: the private pad objects narrower than a level, and the
heap pages whose words could not be read. -/
def State.escaping (s : State) (level : Nat) :
    Nat → List (Word × Loc) → List Word → List Nat → List (Nat × Nat) → List Nat × List (Nat × Nat)
  | 0, _, _, out, pages => (out, pages)
  | _ + 1, [], _, out, pages => (out, pages)
  | n + 1, (canon, home) :: todo, seen, out, pages =>
    if seen.contains canon then State.escaping s level n todo seen out pages
    else
      let out' := match home with
        | .pad k => if keyLevel k > level then out ++ [k] else out
        | .heap .. => out
      let ws := ((s.viewOf canon home).map fun l =>
        if (s.hdr l).typ = tPTRS then
          (List.range ((s.hdr l).len / 8)).map fun i => BitVec.ofNat 64 (ofBytes (s.bodyBytes l (8 * i) 8))
        else []).flatten
      let next := (ws.filter fun w => decide (w ≠ 0) && decide (ptrLevel w ≤ 3)).filterMap (s.objectOf 3)
      State.escaping s level n (todo ++ next) (canon :: seen) out' (pages ++ s.viewPages canon home)

/-- Waits until the host has answered for a page that the words of an object lie in (R178). Nothing can be read of a page that it
refuses (log entry 101). -/
def awaitPage (asid va : Nat) : Op Unit := do
  let s ← get
  if !s.refusedPage (.ctx s.site s.core.act) asid (va / 4096) && s.accepted (lookup {} asid s.asids).vf 1 then
    let _ ← translate asid va false 0

/-- Forgets the refusals that the executing context has been given. -/
def forgetRefused : Op Unit :=
  modify fun s => { s with pageReqs := s.pageReqs.filter fun q => !(q.refused && decide (q.owner = .ctx s.site s.core.act)) }

/-- Escape promotion of an object at scope S (R149, R150): the pages of the PTRS objects are waited for (R178), room for every
move is found before anything moves, and a reduction on what moves is performed first (R189). Its canonical pointer and place
afterwards. -/
def escape (p : Word) (scope : Nat) (canon : Word) (home : Loc) : Op (Word × Loc) := do
  let lv := scopeLevel scope
  if lv = 3 then return (canon, home)
  let s ← get
  let (keys, pages) := s.escaping lv (s.mem.length + 2) [(canon, home)] [] [] []
  for q in pages do awaitPage q.1 q.2
  forgetRefused
  let total := (keys.map fun k => (s.mem.hdr k).foot).sum
  if keys.any fun k => s.queuedOn (.pad k) then waitHere
  if lv ≥ 1 && !keys.isEmpty && !s.roomIn (s.core.recId.getD 0) s.site lv total then throw (.room lv total)
  let mut at' := (canon, home)
  for k in keys do
    let x ← promote p lv total k
    if Loc.pad k = home then at' := x
  return at'

/-- Escape promotion of the object that a register names: the register names the new place (R149, R189). -/
def escapeReg (r scope : Nat) : Op (Word × Loc) := do
  let p := (← rdA r).ptr
  let (canon, home) ← named p
  let x ← escape p scope canon home
  if x.2 ≠ home then modCtx fun y => y.setA r { y.areg r with ptr := keepFmt p x.1 }
  return x

/-- A release that names no object (R467). -/
def releaseAll (scope : Nat) : Op Unit := do
  waitAccesses
  whole (cumulativePush scope)
  for c in (← get).dirtyCanons scope do
    let canon := BitVec.ofNat 64 c
    let _ ← whole (do
      let (canon, home) ← named canon
      let (canon, home) ← escape canon scope canon home
      releaseObj canon scope canon home)

/-- An acquired set with an object as its newest entry, and the entry that gave way to it (R184). -/
def acquire (l : List AcqEntry) (e : AcqEntry) : List AcqEntry × Option AcqEntry :=
  let rest := l.filter fun x => decide (x.obj ≠ e.obj)
  if rest.length < 16 then (rest ++ [e], none) else (rest.drop 1 ++ [e], rest.head?)

/-- The entry of an object whose copy at a level the executing core refreshes. -/
def State.acqEntry (s : State) (canon : Word) (level : Nat) : AcqEntry :=
  { obj := canon, level := level, place := if level = 2 then clusterOf s.site else if level = 1 then dieOf s.site else 0 }

/-- Enters an object in the acquired set as its newest entry (R184); a seventeenth entry first pushes the oldest at
system scope. -/
def enterAcquired (canon : Word) (level : Nat) : Op Unit := do
  let s ← get
  let e := s.acqEntry canon level
  if let some old := (acquire s.ctx.acquired e).2 then
    let _ ← whole (pushEntry 5 old)
  modCtx fun x => { x with acquired := (acquire x.acquired e).1 }

/-- Refreshes a copy from v (R152, R209): a core-pad copy takes the whole body and becomes clean, a shared copy, or any
copy with `keepDirty`, takes v's bytes where it is clean. -/
def State.refresh (s : State) (c : Nat) (v : Loc) (n : Nat) (keepDirty : Bool) : State :=
  let bs := s.bodyBytes v 0 n
  if keyLevel c = 3 && !keepDirty then
    (({ s with mem := s.mem.setBytes (c + 32) bs }).copyPoison v c 0 n).markClean (c + 32) n
  else
    let clean := (List.range n).filter fun i => !s.dirty.contains (c + 32 + i)
    let lost := (clean.filter fun i => s.bodyPoisoned v i 1).map fun i => (c + 32 + i) / 32
    { s with
      mem := clean.foldl (fun (m : Mem) i => m.set (c + 32 + i) (bs[i]?.getD 0)) s.mem
      poison := lost.foldl (fun l g => insertKey g l) s.poison }

/-- Acquires one object at scope S (R152): the version of the copy it refreshed from. -/
def acquireObj (p : Word) (scope : Nat) (canon : Word) (home : Loc) : Op Nat := do
  let v ← nearestFrom p (scopeLevel scope) canon home
  worldCheck p v
  poisonCheck p v
  let s ← get
  let h := s.hdr v
  let path := if scope ≥ 2 then s.pathCopies canon home v else []
  if !path.isEmpty then
    if let .heap asid va := v then
      translateRange asid va (32 + h.span) false p
    ownWrites v
    awaitReds v 0 h.span
    for c in path do awaitReds (.pad c) 0 h.span
    for c in path.reverse do
      modify fun s => s.refresh c v h.span false
  if scope ≤ 4 then enterAcquired canon v.level
  return h.version

end Sys2Proof.Machine
end

