-- ==== Sys2Proof/Machine/Atomic.lean ====
section
/-! DEFINITION. Atomic: the copy that an atomic, a barrier or a deque operation acts on (R189, R204), the fields of
BARRIER and DEQUE bodies, and the counts an object keeps of the engine commands that name it. -/

namespace Sys2Proof.Machine

/-- The copy that an atomic of register `r` at scope S acts on (R189), with the object's canonical pointer and place. At ctx
and core scope a body that no pad takes raises TYPE with `big`: for an atomic its offset, as R136 has for accesses (log entry
112). -/
def atomicCopy (r scope : Nat) (big : Word) : Op (Loc × Word × Loc) := do
  let p := (← rdA r).ptr
  if ptrLevel p = 7 then raise .nullptr p
  if scope ≤ 1 then
    match ← touch r with
    | some l => return (l, canonOf (← rdA r).ptr ((← get).hdr l), l)
    | none => raise .type big
  else
    let (canon, home) ← whole (escapeReg r scope)
    let v ← whole (releaseTarget p scope canon home)
    return (v, canon, home)

/-- The copy that a barrier or deque instruction acts on (R204), with the checks of R207 after the null pointer: the
type, the world, translation for writing, poison of the `n` bytes that hold the counts. -/
def syncCopy (r scope n : Nat) (ok : Hdr → Bool) : Op Loc := do
  let p := (← rdA r).ptr
  let (v, _, _) ← atomicCopy r scope p
  let p := (← rdA r).ptr
  let h := (← get).hdr v
  require (ok h) .type p
  worldCheck p v
  if let .heap asid va := v then
    translateRange asid va (32 + h.len) true p
    missRange asid va (32 + h.len) 6
  let s ← get
  require (!(s.hdr v).poison && !s.bodyPoisoned v 0 n) .poison p
  return v

/-- A number in the body of an object. -/
def State.field (s : State) (v : Loc) (off n : Nat) : Nat := ofBytes (s.bodyBytes v off n)

/-- Writes a number in the body of an object at its port, without marking it dirty (R204, R406). -/
def State.setFieldAt (s : State) (v : Loc) (off n x : Nat) : State :=
  let t := s.putBody v off (leBytes x n)
  match v with
  | .pad k => t.markUnits (k + 32 + off) n
  | .heap .. => t

/-! Reads of RSTATE bodies (R361): the bytes past the control words are those of the visible version. -/

/-- Bytes of one version. -/
def versionBytes (len : Nat) : Nat := (len - 128) / 8

/-- The slots of an RSTATE that hold a speculative version, with their POS. -/
def State.specSlots (s : State) (l : Loc) : List (Nat × Nat) :=
  (List.range 8).filterMap fun j =>
    let w := s.field l (0x40 + 8 * j) 8
    if w.testBit 63 && w.testBit 62 then some (fieldN w 0 40, j) else none

/-- The slot of greatest POS. -/
def topSlot : List (Nat × Nat) → Option (Nat × Nat)
  | [] => none
  | e :: t => match topSlot t with
    | some b => if b.1 ≥ e.1 then some b else some e
    | none => some e

/-- The slot of the version visible to a reader: a context, as logical core and number, or none for an engine. -/
def State.visibleSlot (s : State) (l : Loc) (reader : Option (Nat × Nat)) : Option Nat :=
  let w := s.field l 0 8
  let committed := if w.testBit 3 then some (fieldN w 0 3) else none
  match reader with
  | none => committed
  | some (lc, cx) =>
    if w.testBit 30 && fieldN w 51 13 = lc && fieldN w 47 4 = cx then
      match topSlot (s.specSlots l) with
      | some e => some e.2
      | none => committed
    else committed

/-- The executing context as a reader. -/
def State.me (s : State) : Option (Nat × Nat) := some ((s.ctx).lcore.toNat, s.core.ctxNo)

/-- The length that bounds a read of a body (R361). -/
def readLen (typ len : Nat) : Nat := if typ = tRSTATE then 128 + versionBytes len else len

/-- The n bytes that a reader reads at a body offset. -/
def State.readBody (s : State) (reader : Option (Nat × Nat)) (l : Loc) (off n : Nat) : List Byte :=
  let h := s.hdr l
  if h.typ = tRSTATE then
    let k := Nat.min n (128 - off)
    let tail := match s.visibleSlot l reader with
      | some j => s.bodyBytes l (128 + j * versionBytes h.len + (off + k - 128)) (n - k)
      | none => List.replicate (n - k) 0
    s.bodyBytes l off k ++ tail
  else s.bodyBytes l off n

/-- The bytes that a reader reads at a body offset are poisoned. -/
def State.readPoisoned (s : State) (reader : Option (Nat × Nat)) (l : Loc) (off n : Nat) : Bool :=
  let h := s.hdr l
  if h.typ = tRSTATE then
    let k := Nat.min n (128 - off)
    s.bodyPoisoned l off k || (match s.visibleSlot l reader with
      | some j => s.bodyPoisoned l (128 + j * versionBytes h.len + (off + k - 128)) (n - k)
      | none => false)
  else s.bodyPoisoned l off n

/-- The body ranges that a read of n bytes at an offset goes to: of an RSTATE the control words and the bytes of the version
that the reader sees. -/
def State.readSpans (s : State) (reader : Option (Nat × Nat)) (l : Loc) (off n : Nat) : List (Nat × Nat) :=
  let h := s.hdr l
  if h.typ = tRSTATE then
    let k := Nat.min n (128 - off)
    (0, 128) :: match s.visibleSlot l reader with
      | some j => [(128 + j * versionBytes h.len + (off + k - 128), n - k)]
      | none => []
  else [(off, n)]

/-- Some page that a read goes to is not translated. -/
def State.readAbsent (s : State) (reader : Option (Nat × Nat)) (l : Loc) (off n : Nat) : Bool :=
  match l with
  | .pad _ => false
  | .heap asid va => (s.readSpans reader l off n).any fun x =>
      (pageStarts (va + 32 + x.1) x.2).any fun a => (find (pageKey asid (a / 4096)) s.ptes).isNone

/-- Translates the pages of a body range of a heap object. -/
def translateSpan (o : Owner) (asid va : Nat) (x : Nat × Nat) (write : Bool) (val : Word) : Op Unit := do
  for a in pageStarts (va + 32 + x.1) x.2 do
    let _ ← translateFor o asid a write val

/-- Translates the pages that a read of n bytes at a body offset goes to (R361): those of the control words of an RSTATE first,
for they name the version. -/
def translateRead (o : Owner) (reader : Option (Nat × Nat)) (l : Loc) (off n : Nat) (val : Word) : Op Unit := do
  match l with
  | .pad _ => pure ()
  | .heap asid va =>
    if ((← get).hdr l).typ = tRSTATE then translateSpan o asid va (0, 128) false val
    for x in (← get).readSpans reader l off n do translateSpan o asid va x false val

/-! BARRIER bodies (R205, R206). -/

def State.barPhase (s : State) (v : Loc) : Nat := s.field v 0 4
def State.barPosted (s : State) (v : Loc) : Bool := (s.field v 0 8).testBit 32
def State.barStrict (s : State) (v : Loc) : Bool := (s.field v 0 8).testBit 33
def State.barSerr (s : State) (v : Loc) : Bool := (s.field v 0 8).testBit 35
def State.barExpect (s : State) (v : Loc) : Nat := s.field v 8 6
def State.barArrived (s : State) (v : Loc) : Nat := s.field v 16 6
def State.barPending (s : State) (v : Loc) : Nat := s.field v 0x18 4
def State.barWaiters (s : State) (v : Loc) : Nat := s.field v 0x1C 4

/-- Replaces a field of word 0 of a BARRIER body. -/
def State.setBar0 (s : State) (v : Loc) (lo width x : Nat) : State :=
  let w := s.field v 0 8
  s.setFieldAt v 0 8 (w - fieldN w lo width * 2 ^ lo + x % 2 ^ width * 2 ^ lo)

/-- Phase p is complete (R206). -/
def State.barDone (s : State) (v : Loc) (p : Nat) : Bool :=
  let d := (s.barPhase v + 2 ^ 32 - p % 2 ^ 32) % 2 ^ 32
  decide (1 ≤ d) && decide (d ≤ 2 ^ 31 - 1)

/-- A context waits on a copy for a phase that is now complete. -/
def State.barWakes (s : State) (v : Loc) (w : Waiter) : Bool :=
  decide (w.key = .barrier v) && w.got.isNone && s.barDone v w.phase

/-- Wakes the waiters of a copy whose phase is now complete: each takes word 0 and is no longer counted in WAITERS (R206,
R209). -/
def State.barWake (s : State) (v : Loc) : State :=
  let n := (s.waitq.filter (s.barWakes v)).length
  let wake := fun (w : Waiter) => if s.barWakes v w then { w with got := some (BitVec.ofNat 64 (s.field v 0 8)) } else w
  if n = 0 then s else { s with waitq := s.waitq.map wake }.setFieldAt v 0x1C 4 (s.barWaiters v - n)

/-- `Complete(v)` without the waking (R206). -/
def State.barFinish (s : State) (v : Loc) : State :=
  if s.barPosted v && s.barArrived v ≥ s.barExpect v then
    let x := s.barArrived v - s.barExpect v
    let s1 := (((s.setBar0 v 0 32 (s.barPhase v + 1)).setBar0 v 32 1 0).setFieldAt v 8 6 0).setFieldAt v 16 6 0
    if x > 0 then
      let s2 := s1.setBar0 v 34 1 1
      if s.barStrict v then s2.setBar0 v 35 1 1 else s2.setFieldAt v 16 6 x
    else s1
  else s

/-- `Complete(v)` (R206). -/
def State.barComplete (s : State) (v : Loc) : State := (s.barFinish v).barWake v

/-- A credit of n units (R208, R210): a sum beyond 48 bits is clipped and sets OVERRUN. -/
def State.barCredit (s : State) (v : Loc) (n : Nat) : State :=
  let sum := s.barArrived v + n
  let s1 := s.setFieldAt v 16 6 (Nat.min sum (2 ^ 48 - 1))
  (if sum > 2 ^ 48 - 1 then s1.setBar0 v 34 1 1 else s1).barComplete v

/-- PENDING and WAITERS move by one (R205). -/
def State.barPendingUp (s : State) (v : Loc) : State := s.setFieldAt v 0x18 4 (s.barPending v + 1)
def State.barPendingDown (s : State) (v : Loc) : State := s.setFieldAt v 0x18 4 (s.barPending v - 1)
def State.barWaitersUp (s : State) (v : Loc) : State := s.setFieldAt v 0x1C 4 (s.barWaiters v + 1)
def State.barWaitersDown (s : State) (v : Loc) : State := s.setFieldAt v 0x1C 4 (s.barWaiters v - 1)

/-- Contexts leave their lines; a barrier's WAITERS falls with each that still waited on it (R209). -/
def State.leaveLines (s : State) (p : Waiter → Bool) : State :=
  let s1 := { s with waitq := s.waitq.filter fun w => !p w }
  (s.waitq.filter p).foldl (fun t w => match w.key, w.got with | .barrier v, none => t.barWaitersDown v | _, _ => t) s1

/-! EREF (R126): the number of queued or running engine commands that name an object. -/

def State.erefUp (s : State) (l : Loc) : State :=
  let h := s.hdr l
  s.setHdr l { h with w3 := setBits h.w3 32 16 (h.eref + 1) }

def State.erefDown (s : State) (l : Loc) : State :=
  let h := s.hdr l
  s.setHdr l { h with w3 := setBits h.w3 32 16 (h.eref - 1) }

/-- A command that is dropped gives back what it holds and credits nothing (R210). -/
def State.dropCmd (s : State) (c : Cmd) : State :=
  let s1 := c.erefs.foldl State.erefDown s
  match c.barrier with
  | some v => s1.barPendingDown v
  | none => s1

/-- A posted copy is dropped: the counts that it raised go back (R172). -/
def State.dropPost (s : State) (p : Post) : State :=
  let s1 := (s.erefDown p.src).erefDown p.dst
  match p.bar with
  | some v => (s1.barPendingDown v).erefDown v
  | none => s1

/-! DEQUE bodies (R212, R213). -/

def State.dqTop (s : State) (v : Loc) : Nat := s.field v 0 4
def State.dqBottom (s : State) (v : Loc) : Nat := s.field v 8 4
def State.dqCount (s : State) (v : Loc) : Nat := (s.dqBottom v + 2 ^ 32 - s.dqTop v) % 2 ^ 32
/-- The capacity of a DEQUE of body length n, if the length is legal. -/
def dqCap (n : Nat) : Option Nat :=
  let c := (n - 32) / 8
  if n = 32 + 8 * c && c = 2 ^ Nat.log2 c && 1 ≤ Nat.log2 c && Nat.log2 c ≤ 20 then some c else none
def State.dqSlot (s : State) (v : Loc) (cap i : Nat) : Word := BitVec.ofNat 64 (s.field v (32 + 8 * (i % cap)) 8)

/-- The type checks of the barrier and the deque instructions (R205, R212). -/
def barrierOk (h : Hdr) : Bool := h.typ = tBARRIER && h.len = 64
def dequeOk (h : Hdr) : Bool := h.typ = tDEQUE && (dqCap h.len).isSome

/-- An element that is to be taken holds no lost byte (R207): POISON with the pointer `p`. -/
def takeSlot (p : Word) (v : Loc) (cap i : Nat) : Op Word := do
  let s ← get
  require (!s.bodyPoisoned v (32 + 8 * (i % cap)) 8) .poison p
  return s.dqSlot v cap i

/-- Removes the newest element (R213). -/
def State.dqDropBottom (s : State) (v : Loc) : State := s.setFieldAt v 8 4 (s.dqBottom v + 2 ^ 32 - 1)

/-- What comes before the acquire of destination bytes (R187): the reductions queued on them are performed (R195), and an
entry of the acquired set that gives way to one of theirs is pushed at system scope (R184); it leaves the set with the
acquire. -/
def readyDests (ds : List (Word × Loc × Nat × Nat)) : Op Unit := do
  for d in ds do awaitReds d.2.1 d.2.2.1 d.2.2.2
  let s ← get
  let mut set' := s.ctx.acquired
  for d in ds do
    let (l, old) := acquire set' (s.acqEntry d.1 d.2.1.level)
    set' := l
    if let some o := old then
      if o.level ≠ 0 && (← getCtx).acquired.contains o then
        if let some o' ← whole (pushEntry 5 o) then
          modCtx fun x => { x with acquired := x.acquired.map fun y => if y = o then o' else y }

/-- A read of `s29` (R38): the pop acquires the bytes of the record's destinations when the instruction retires (R187). -/
def port29 : Op Word := do
  let s ← get
  match s.ctx.recs[s.tx.pops29]? with
  | some r =>
    readyDests ((s.ctx.recs.take (s.tx.pops29 + 1)).map (·.dests)).flatten
    modTx fun t => { t with pops29 := t.pops29 + 1 }
    return r.word
  | none => if s.tx.nonBlocking 33 then return 0 else waitHere

/-- The contexts that began to wait for a DEQUE before the executing one and wake before it; none when it does not wait: only
an empty deque makes a context wait (R213, R214). -/
def State.dqAhead (s : State) (v : Loc) : Nat :=
  if s.waitq.any fun w => w.isAt (.deque v) s.site s.core.act then s.ahead (.deque v) else 0

/-- A read of `s30` (R213): element n from the bottom of the bound DEQUE, at the scope its level serves. The TYPE of a read
with no register bound has `trapval` 0, which R91 does not give (log entry 105). -/
def port30 : Op Word := do
  let s ← get
  let pb := s.tx.bind
  if !pb.getLsbD 21 then raise .type 0
  let r := bitsOf pb 17 4
  let p := (← rdA r).ptr
  if ptrLevel p = 7 then raise .nullptr p
  let v ← syncCopy r (levelScope (ptrLevel p)) 32 dequeOk
  let s ← get
  let cap := (dqCap (s.hdr v).len).getD 2
  let block := !s.tx.nonBlocking 34
  if s.dqAhead v + s.tx.pops30 < s.dqCount v then
    let x ← takeSlot p v cap (s.dqBottom v + 2 ^ 32 - 1 - s.tx.pops30)
    modTx fun t => { t with pops30 := t.pops30 + 1, deque := some v }
    return x
  else if block then joinLine (.deque v)
  else return 0

/-- The value of an `s` register read as a source (R34, R36). -/
def rdS (r : BitVec 5) : Op Word :=
  if r = 28 then port28
  else if r = 29 then port29
  else if r = 30 then port30
  else if r = 31 then port31
  else return (← getCtx).sreg r.toNat

end Sys2Proof.Machine
end

