-- ==== Sys2Proof/Machine/KvBase.lean ====
section
/-! DEFINITION. KvBase: the fields of KVTABLE, KVPAGE and RSTATE bodies, the KV pool's frames, shoot-downs, and how a
window closes with its context or with its table (R358 to R361, R380, R381, R385, R386). -/

namespace Sys2Proof.Machine

/-! Body fields. -/

/-- A bit field of a 64-bit word of a body. -/
def State.bodyField (s : State) (l : Loc) (off lo w : Nat) : Nat := fieldN (s.field l off 8) lo w

/-- Replaces a bit field of a 64-bit word of a body, at its port. -/
def State.setBodyField (s : State) (l : Loc) (off lo w v : Nat) : State :=
  let x := s.field l off 8
  s.setFieldAt l off 8 (x - fieldN x lo w * 2 ^ lo + v % 2 ^ w * 2 ^ lo)

/-! KVTABLE (R360). -/

/-- `STOPPED` of a table, or a stop that waits for its page to be mapped for writing (R386). -/
def State.kvStopped (s : State) (t : Loc) : Bool :=
  decide (s.bodyField t 0 63 1 = 1) || s.kvTabs.any fun k => k.stop && decide (Loc.heap k.asid k.va = t)
def State.kvOpen (s : State) (t : Loc) : Bool := s.bodyField t 0 62 1 = 1
def State.kvWid (s : State) (t : Loc) : Nat := s.bodyField t 0 40 16
def State.kvNtok (s : State) (t : Loc) : Nat := s.bodyField t 0 0 40
def State.kvOwner (s : State) (t : Loc) : Nat × Nat := (s.bodyField t 8 51 13, s.bodyField t 8 47 4)
def State.kvWtok (s : State) (t : Loc) : Nat := s.bodyField t 8 0 40
def State.kvWpg0 (s : State) (t : Loc) : Nat := s.bodyField t 0x10 0 21
def State.kvRst (s : State) (t : Loc) : Word := BitVec.ofNat 64 (s.field t 0x18 8)
def State.kvEntry (s : State) (t : Loc) : Nat := s.bodyField t 0x20 0 32
def State.kvRowq (s : State) (t : Loc) : Nat := s.bodyField t 0x28 0 6
def State.kvPage (s : State) (t : Loc) (i : Nat) : Word := BitVec.ofNat 64 (s.field t (0x80 + 8 * i) 8)
def State.setKvPage (s : State) (t : Loc) (i : Nat) (p : Word) : State := s.setFieldAt t (0x80 + 8 * i) 8 p.toNat

/-- `WPG0` for none. -/
def noPage : Nat := 0x1FFFFF

/-- `CAP` of a KVTABLE of body length n, if the length is legal. -/
def kvCap (n : Nat) : Option Nat :=
  let c := (n - 128) / 8
  if n = 128 + 8 * c ∧ 1 ≤ c ∧ c ≤ 2 ^ 21 - 16 then some c else none

/-- The table's open window belongs to a context, named by logical core and number. -/
def State.kvOwns (s : State) (t : Loc) (me : Nat × Nat) : Bool := s.kvOpen t && decide (s.kvOwner t = me)

/-- The end of the sequence (R360). -/
def State.kvEnd (s : State) (t : Loc) (own : Bool) : Nat := s.kvNtok t + (if own then s.kvWtok t else 0)

/-! Pages and frames (R358, R359). -/

/-- Length of a KVPAGE's body. -/
def pageLen (rowq : Nat) : Nat := 64 + 2048 * rowq

/-- The pointer of a pool frame. -/
def framePtr (f : Nat) : Word := mkPtr 0 4 (f * 2 ^ 32)

/-- The frame that a pool pointer names. -/
def frameOf (p : Word) : Nat := bitsOf p 32 21

/-- A pointer that names a page of the pool: `LEVEL` 4, FMT RAW, BLOG 0 and a zero offset. -/
def poolPtr (p : Word) : Bool := decide (p = framePtr (frameOf p))

/-- The place of the page that a page entry of an ASID's table names. -/
def pagePlace (asid : Nat) (p : Word) : Option Loc :=
  if poolPtr p then some (.pad (kvFrameKey (frameOf p)))
  else if ptrLevel p = 0 then some (.heap asid (ptrLoc p))
  else none

def State.pageVf (s : State) (l : Loc) : Nat := s.bodyField l 0 56 8
def State.pageRefs (s : State) (l : Loc) : Nat := s.bodyField l 0 32 13
def State.pageXvf (s : State) (l : Loc) : Bool := s.bodyField l 0 2 1 = 1
def State.pagePub (s : State) (l : Loc) : Bool := s.bodyField l 0 1 1 = 1
def State.pageRo (s : State) (l : Loc) : Bool := s.bodyField l 0 0 1 = 1

/-- Frames of the pool. -/
def poolFrames : Nat := Nat.min Config.kvPool (2 ^ 21)

/-- Number k of the numbers below which a rising list leaves out. -/
def gapAt : Nat → List Nat → Nat
  | k, [] => k
  | k, f :: t => if k < f then k else gapAt (k + 1) t

/-- Takes a frame for a page of a VF (R374): any free one, as it may fall out (log entry 1). -/
def State.takeFrame (s : State) (vf rowq : Nat) : State × Nat :=
  let f := gapAt (Config.freeNat s.free % (poolFrames - s.kvFrames.length)) s.kvFrames
  let key := kvFrameKey f
  let h : Hdr := { w0 := BitVec.ofNat 64 (tKVPAGE * 2 ^ 40 + pageLen rowq) }
  let s1 := { s with
    free := s.free + 1
    kvFrames := insertKey f s.kvFrames
    mem := (s.mem.clear key (2 ^ 17)).setHdr key h
    poison := dropRange (key / 32) (2 ^ 12) s.poison }
  let l := Loc.pad key
  let s2 := ((s1.setFieldAt l 0 8 (vf % 256 * 2 ^ 56 + 2 ^ 32)).setFieldAt l 8 8 rowq)
  (s2.setVf vf { s2.vfAt vf with kvUsed := (s2.vfAt vf).kvUsed + 1 }, f)

/-- One reference to a pool page goes; at zero its frame is returned (R375, R380): the state, and the frame if so. -/
def State.dropRef (s : State) (f : Nat) : State × Option Nat :=
  let l := Loc.pad (kvFrameKey f)
  let r := s.pageRefs l - 1
  let s1 := s.setBodyField l 0 32 13 r
  if r = 0 then
    let v := s1.pageVf l
    ({ s1.setVf v { s1.vfAt v with kvUsed := (s1.vfAt v).kvUsed - 1 } with kvFrames := s1.kvFrames.filter fun x => x ≠ f }, some f)
  else (s1, none)

/-- Nulls the page entries of a table from f on (R375, R380): the state and the frames returned. A heap page is never
freed. -/
def State.dropPages (s : State) (t : Loc) (f cap : Nat) : State × List Nat :=
  (List.range (cap - f)).foldl (fun (acc : State × List Nat) n =>
    let p := acc.1.kvPage t (f + n)
    if ptrLevel p = 7 then acc
    else
      let (s1, g) := if poolPtr p then acc.1.dropRef (frameOf p) else (acc.1, none)
      (s1.setKvPage t (f + n) nullPtr, acc.2 ++ g.toList)) (s, [])

/-! Shoot-downs (R385). -/

/-- The ASID of the record on a core. -/
def State.coreAsid (s : State) (c : Core) : Nat := ((c.recId.map fun r => (s.recAt r).l.asid)).getD 0

/-- Invalidates entries of one core's KVTB. -/
def Core.kvDrop (c : Core) (p : KvtbEntry → Bool) : Core :=
  { c with kvtb := c.kvtb.map fun e => if e.valid && p e then {} else e }

/-- Invalidates, in every KVTB of the device, the entries of an ASID's table that satisfy p. -/
def State.shootTable (s : State) (asid va : Nat) (p : KvtbEntry → Bool) : State :=
  { s with cores := s.cores.map fun (n, c) =>
      if s.coreAsid c = asid then (n, c.kvDrop fun e => decide (e.table.toNat = va / 32) && p e) else (n, c) }

/-- Invalidates, in every KVTB of the device, the entries that name returned frames. -/
def State.shootFrames (s : State) (fs : List Nat) : State :=
  if fs = [] then s
  else { s with cores := s.cores.map fun (n, c) => (n, c.kvDrop fun e => poolPtr e.ptr && fs.contains (frameOf e.ptr)) }

/-! RSTATE (R361). -/

def State.rsTag (s : State) (r : Loc) (j : Nat) : Nat := s.field r (0x40 + 8 * j) 8
def rsUsed (t : Nat) : Bool := t.testBit 63
def rsSpec (t : Nat) : Bool := t.testBit 62
def rsPos (t : Nat) : Nat := fieldN t 0 40
def State.rsCur (s : State) (r : Loc) : Nat := s.bodyField r 0 0 3
def State.rsValid (s : State) (r : Loc) : Bool := s.bodyField r 0 3 1 = 1
def State.setTag (s : State) (r : Loc) (j : Nat) (used spec : Bool) (pos : Nat) : State :=
  s.setFieldAt r (0x40 + 8 * j) 8 (boolBit used 63 + boolBit spec 62 + pos % 2 ^ 40)
/-- Makes slot j the committed version, with POS p. -/
def State.setCommitted (s : State) (r : Loc) (j p : Nat) : State :=
  ((s.setBodyField r 0 0 3 j).setBodyField r 0 3 1 1).setBodyField r 8 0 40 p

/-- The RSTATE of a table, if its pointer is a heap pointer to an object of that type. -/
def State.kvRstLoc (s : State) (asid : Nat) (t : Loc) : Option Loc :=
  let p := s.kvRst t
  let l := Loc.heap asid (ptrLoc p)
  if ptrLevel p = 0 && (s.hdr l).typ = tRSTATE then some l else none

/-- The version that becomes or stays the committed one when a window closes at E (R380): the slot of greatest POS not
above E, of the committed one and those of the window; `tie` takes a window's slot at the committed version's POS. -/
def State.closingSlot (s : State) (r : Loc) (E : Nat) (tie : Bool) : Option Nat :=
  let committed := if s.rsValid r && rsUsed (s.rsTag r (s.rsCur r)) && rsPos (s.rsTag r (s.rsCur r)) ≤ E
    then some (rsPos (s.rsTag r (s.rsCur r)), s.rsCur r) else none
  let window := topSlot ((s.specSlots r).filter fun e => e.1 ≤ E)
  match committed, window with
  | some c, some w => if w.1 > c.1 || (w.1 = c.1 && tie) then some w.2 else some c.2
  | some c, none => some c.2
  | none, some w => some w.2
  | none, none => none

/-- The versions when a window closes at E (R380). -/
def State.closeVersions (s : State) (r : Loc) (E : Nat) (tie : Bool) : State :=
  let s1 := match s.closingSlot r E tie with
    | some j => (s.setCommitted r j (rsPos (s.rsTag r j))).setTag r j true false (rsPos (s.rsTag r j))
    | none => s
  let cur := s1.rsCur r
  let s2 := (List.range 8).foldl (fun (t : State) j => if j = cur then t else t.setBodyField r (0x40 + 8 * j) 63 1 0) s1
  s2.setBodyField r 0 30 1 0

/-- The window of a table closes with a tokens kept (R380), its pages and those of its RSTATE being translated: the
state, and the frames returned. -/
def State.closeWindow (s : State) (asid va a : Nat) : State :=
  let t := Loc.heap asid va
  let E := s.kvNtok t + a
  let tie := decide (0 < a) && Config.freeBool s.free
  let s0 := { s with free := s.free + 1 }
  let (s1, fs) := s0.dropPages t (Nat.max (s.kvWpg0 t) (ceilDiv E 16)) ((kvCap (s.hdr t).len).getD 0)
  let s2 := match s1.kvRstLoc asid t with
    | some r => s1.closeVersions r E tie
    | none => s1
  let s3 := (((s2.setBodyField t 0 0 40 E).setBodyField t 8 0 40 0).setBodyField t 0 62 1 0).setBodyField t 0x10 0 21 noPage
  let s4 : State := { s3 with
    kvTabs := s3.kvTabs.map fun (x : KvTab) => if x.asid = asid ∧ x.va = va then { x with owner := none } else x }
  s4.shootFrames fs

/-- The entries of a core's KVTB that cover window tokens of a table. -/
def Core.dropOwn (c : Core) (va : Nat) : Core := c.kvDrop fun e => e.own && decide (e.table.toNat = va / 32)

/-- Every page of a heap object is mapped for writing. -/
def State.allWritable (s : State) (asid va : Nat) : Bool :=
  s.writable asid va 32 && s.writable asid va (32 + (s.hdr (.heap asid va)).len)

/-- The pages that a window's closing writes are mapped. -/
def State.closable (s : State) (asid va : Nat) : Bool :=
  s.allWritable asid va && (ptrLevel (s.kvRst (.heap asid va)) ≠ 0 || s.allWritable asid (ptrLoc (s.kvRst (.heap asid va))))

/-- An abort by the device (R381): at once when the table's pages are mapped, else when they next are. -/
def State.autoAbort (s : State) (k : KvTab) : State :=
  if s.closable k.asid k.va then
    let s1 := s.closeWindow k.asid k.va 0
    { s1 with
      cores := s1.cores.map fun (n, c) => if s1.coreAsid c = k.asid then (n, c.dropOwn k.va) else (n, c)
      kvTabs := s1.kvTabs.map fun x => if x.asid = k.asid ∧ x.va = k.va then { x with abort := false } else x }
  else { s with kvTabs := s.kvTabs.map fun x => if x.asid = k.asid ∧ x.va = k.va then { x with abort := true } else x }

/-- Aborts the windows that a context of a record owns, by logical core and number (R381): those that its record opened,
or whose record has ended. -/
def State.kvAbortOwner (s : State) (rid lc ctx : Nat) : State :=
  let asid := (s.recAt rid).l.asid
  (s.kvTabs.filter fun k => decide (k.asid = asid) && decide (k.owner = some (lc, ctx))
    && (match k.rid with | some r => r = rid || decide ((s.recAt r).st = .ended) | none => true)).foldl State.autoAbort s

/-- Aborts the windows that a context of a core owns. -/
def State.kvAbortCtx (s : State) (site ctx : Nat) : State :=
  match (s.coreAt site).recId with
  | none => s
  | some rid => s.kvAbortOwner rid ((s.coreAt site).ctxAt ctx).lcore.toNat ctx

/-- The page that holds a virtual address is mapped. -/
def State.mapped (s : State) (asid va : Nat) : Bool := (find (pageKey asid (va / 4096)) s.ptes).isSome

/-- `STOPPED` is set, at once where its page is mapped for writing, else when it next is (R386). -/
def State.markStopped (s : State) (k : KvTab) : State :=
  let now := s.writable k.asid (k.va + 32) 8
  let s1 := if now then s.setBodyField (.heap k.asid k.va) 0 63 1 1 else s
  { s1 with kvTabs := s1.kvTabs.map fun x => if x.asid = k.asid ∧ x.va = k.va then { x with stop := !now } else x }

/-- A table stops (R386): `STOPPED`, its window aborted, its entries shot down and an event to the VF that owns it. -/
def State.stopTable (s : State) (k : KvTab) : State :=
  let s1 := s.markStopped k
  let s2 := if k.owner.isSome then s1.autoAbort k else s1
  let s3 := s2.shootTable k.asid k.va fun _ => true
  s3.postEvent { vf := (lookup {} k.asid s3.asids).vf, kind := 1, ptr := mkPtr 0 0 k.va }

/-- A table names a page. -/
def State.namesPage (s : State) (k : KvTab) (page : Loc) : Bool :=
  let t := Loc.heap k.asid k.va
  (List.range ((kvCap (s.hdr t).len).getD 0)).any fun i => decide (pagePlace k.asid (s.kvPage t i) = some page)

/-- Every page of a table is mapped. -/
def State.tableMapped (s : State) (k : KvTab) : Bool :=
  s.mapped k.asid k.va && (pageStarts k.va (32 + (s.hdr (.heap k.asid k.va)).len)).all (s.mapped k.asid)

/-- A table is stopped, or is to be when its page is mapped. -/
def State.stops (s : State) (k : KvTab) : Bool :=
  k.stop || (s.mapped k.asid (k.va + 32) && s.kvStopped (.heap k.asid k.va))

/-- The KVTABLEs of the device: those that an instruction has named, and the other heap objects of that type. -/
def State.tables (s : State) : List KvTab :=
  s.kvTabs ++ (s.asids.map fun e => (e.2.objs.filter fun va =>
    s.mapped e.1 va && decide ((s.hdr (.heap e.1 va)).typ = tKVTABLE)
      && !(s.kvTabs.any fun k => decide (k.asid = e.1) && decide (k.va = va))).map fun va => ({ asid := e.1, va := va } : KvTab)).flatten

/-- Names a table of an ASID among those that the device keeps. -/
def State.knowTable (s : State) (asid va : Nat) : State :=
  if s.kvTabs.any fun k => decide (k.asid = asid) && decide (k.va = va) then s
  else { s with kvTabs := s.kvTabs ++ [{ asid := asid, va := va }] }

/-- A table that may name a poisoned page and whose pages are not all mapped: the device asks for those pages, and forgets the
table's entries, so that the next lookup comes to the table itself. -/
def State.suspect (s : State) (k : KvTab) (page : Loc) : State :=
  let s1 := s.knowTable k.asid k.va
  let want := (pageStarts k.va (32 + if s.mapped k.asid k.va then (s.hdr (.heap k.asid k.va)).len else 0)).filter fun a =>
    !s.mapped k.asid a && !(s.pageReqs.any fun q => decide (q.asid = k.asid) && decide (q.page = a / 4096) && decide (q.owner = .device))
  { s1.shootTable k.asid k.va fun _ => true with
    kvTabs := s1.kvTabs.map fun x => if x.asid = k.asid ∧ x.va = k.va ∧ !x.suspects.contains page then { x with suspects := x.suspects ++ [page] } else x
    pageReqs := s1.pageReqs ++ want.map fun a => { asid := k.asid, page := a / 4096, write := false, owner := .device } }

/-- An uncorrectable error strikes a KVPAGE, or its page is found poisoned (R386): every table that names it stops; one whose
pages are not all mapped is looked at once they are. -/
def State.poisonPage (s : State) (page : Loc) : State :=
  let s1 := s.setHdr page ((s.hdr page).setFlag 59 true)
  (s1.tables.filter fun k => !s1.stops k).foldl (fun t k =>
    if !s1.tableMapped k then t.suspect k page
    else if s1.namesPage k page then (t.knowTable k.asid k.va).stopTable k
    else t) s1

/-- What waits for the pages of a table, as far as they are mapped now: whether it names a poisoned page and stops, its
`STOPPED`, and the abort of its window (R381, R386). -/
def State.settleTable (s : State) (k : KvTab) : State :=
  let now := fun (t : State) => (t.kvTabs.find? fun x => decide (x.asid = k.asid) && decide (x.va = k.va)).getD k
  let s1 := if k.suspects.isEmpty || !s.tableMapped k then s
    else
      let clear := { s with kvTabs := s.kvTabs.map fun x => if x.asid = k.asid ∧ x.va = k.va then { x with suspects := [] } else x }
      if k.suspects.any (s.namesPage k) && !s.stops k then clear.stopTable k else clear
  let s2 := if (now s1).stop then s1.markStopped (now s1) else s1
  if (now s2).abort && s2.closable k.asid k.va then s2.autoAbort (now s2) else s2

/-- Every table that something waits for. -/
def State.settleTables (s : State) : State :=
  (s.kvTabs.filter fun k => k.abort || k.stop || !k.suspects.isEmpty).foldl State.settleTable s

end Sys2Proof.Machine
end

