-- ==== Sys2Proof/Machine/Net.lean ====
section
/-! DEFINITION. Net: sending messages, and writing the scalar registers, one of which sends. -/

namespace Sys2Proof.Machine

/-- The header of a message (R347). -/
def msgHeader (src srcCtx dstCtx len kind : Nat) (phys : Bool) (utag ctag : Nat) : Word :=
  BitVec.ofNat 64 (src % 8192 * 2 ^ 51 + srcCtx % 16 * 2 ^ 47 + dstCtx % 16 * 2 ^ 43 + len % 8 * 2 ^ 40
    + kind % 8 * 2 ^ 37 + boolBit phys 32 + utag % 65536 * 65536 + ctag % 65536)

/-- Messages and puts of a core that are still in its send buffer (R349). -/
def State.sendUsed (s : State) (site : Nat) : Nat :=
  let c := s.coreAt site
  (s.net.filter fun f => decide (f.srcRec = c.recId.getD 0) && decide (f.srcLc = (c.ctxAt 0).lcore.toNat) && !f.sent).length

/-- A message or put of the executing context, with what names its sender. -/
def State.flit (s : State) : Flit :=
  { put := false, srcSite := s.site, srcLc := (s.core.ctxAt 0).lcore.toNat, srcCtx := s.core.act
    srcRec := s.core.recId.getD 0, msg := { hdr := 0, body := [] }, asid := s.asid, secure := s.core.secure }

/-- VALID entries of a record's core table: a boot record has none (R463). -/
def Rec.tableSize (r : Rec) : Nat := if r.boot then 0 else r.place.length

/-- The send buffer has room for one more, beside what the instruction has pushed already. -/
def sendRoom : Op Unit := do
  let s ← get
  if s.sendUsed s.site + s.tx.pushes.length ≥ 8 then waitHere

/-- Puts a flit into the send buffer. -/
def State.send (s : State) (f : Flit) : State := { s with net := s.net ++ [f] }

/-- A one-word message to the bound destination (R354). -/
def State.portMessage (s : State) (w : Word) : Flit :=
  let x := s.ctx
  let dst := bitsOf s.tx.bind 0 13
  { s.flit with
    msg := { hdr := msgHeader x.lcore.toNat s.tx.sctx (bitsOf s.tx.bind 13 4) 1 1 false 0 s.tx.ctag.toNat, body := [w] }
    target := s.tableRecId, dst := dst }

/-- Writes an `s` register: a write of `s28` sends a one-word message when the instruction retires, and waits for room
in the send buffer; writes of `s29` to `s31` are discarded (R36, R354). The message needs a VALID destination (R352). -/
def wrS (d : BitVec 5) (v : Word) : Op Unit := do
  if d = 28 then
    let s ← get
    let bound := bitsOf s.tx.bind 0 17
    if ((s.tableRec.map Rec.tableSize).getD 0) ≤ bitsOf s.tx.bind 0 13 then
      modTx fun t => { t with undone := true }
      raise .type (BitVec.ofNat 64 bound)
    sendRoom
    modTx fun t => { t with pushes := t.pushes ++ [v] }
  else if d.toNat ≥ 29 then pure ()
  else modCtx fun x => x.setS d.toNat v

/-- Writes a number. -/
def wrNat (d : BitVec 5) (n : Nat) : Op Unit := wrS d (BitVec.ofNat 64 n)

end Sys2Proof.Machine
end

