-- ==== Sys2Proof/Machine/Ops.lean ====
section
/-! DEFINITION. Ops: taking an exception (R391, R392), returning from one (R400), the end of a core's part of a record
by a fault (R402, R418), and the frame in which an instruction runs: its traps, its waits and its retirement. -/

namespace Sys2Proof.Machine

/-- The core's part of the record ends: its contexts become free, its engine commands and posted copies are
dropped, its windows aborted and its lines left; the record notes the end and the first fault (R401, R402). -/
def State.endCore (s : State) (site : Nat) (fault : Option (BitVec 8 × Word)) : State :=
  let c := s.coreAt site
  let s1 := (List.range 11).foldl (fun t i => t.kvAbortCtx site i) s
  let s2 := (c.streams.toList.filter (·.bound)).foldl (fun (t : State) x => t.erefDown x.loc)
    ((c.wmb ++ c.copies).foldl State.dropCmd s1)
  let mine := fun (p : Post) => decide (p.site = site)
  let s2 := { (s2.posts.filter mine).foldl State.dropPost s2 with posts := s2.posts.filter fun p => !mine p }
  let s3 := s2.leaveLines fun w => decide (w.site = site)
  let c3 := s3.coreAt site
  let freed := (List.range 11).foldl (fun c i => c.setCtx i { c.ctxAt i with st := .free }) c3
  let c4 := { freed with
    wmb := [], owed := [], wdone := [], copies := [], cpdone := [], faults := [], pending := [], raised := []
    streams := Vector.replicate 8 {}
    tshadow := false, act := 0, halted := true, miss := none, tuft := false, leader := false, tidx := 0, tuftAsk := none }
  let s4 := { s3.setCore site c4 with
    copyins := s3.copyins.filter fun x => decide (x.site ≠ site)
    pageReqs := s3.pageReqs.filter fun q => match q.owner with
      | .ctx n _ => decide (n ≠ site)
      | .wmb n _ => decide (n ≠ site)
      | .copy n => decide (n ≠ site)
      | .device => true }
  match c.recId with
  | none => s4
  | some rid =>
    let r := s4.recAt rid
    let lc := (c.ctxAt 0).lcore.toNat
    s4.setRec rid { r with
      ended := insertKey lc r.ended
      endFault := match r.endFault with | some f => some f | none => fault
      evsets := r.evsets.map fun e => (e.1, { e.2 with mutexes := e.2.mutexes.map fun m =>
        match m.2.holder with
        | some h => if h.1 = lc then (m.1, { holder := none, abandoned := true }) else m
        | none => m }) }

/-- A double fault (R418): cause and value are overwritten, `trappc` stays, the core's part of the record ends and
management gets a report. -/
def State.doubleFault (s : State) (site : Nat) (code : BitVec 8) (val : Word) : State :=
  let c := s.coreAt site
  let s1 := s.setCore site { c with trapcause := code, trapval := val }
  (s1.endCore site (some (code, val))).addLog 4 0 site (code.setWidth 64) val

/-- The 64 bits of `s0` to `s27` of a context and zeros for the ports, as the frame holds them (R390). -/
def Context.frameBytes (x : Context) : List Byte :=
  ((List.range 32).map fun i => leBytes (if i ≥ 28 then 0 else (x.sreg i).toNat) 8).flatten

/-- The headers of the two objects of the reserved area (R388), as firmware places them. -/
def reservedHeaders (m : Mem) (site : Nat) : Mem :=
  if m.word (corePadKey site + 0x3C020) ≠ 0 then m
  else (m.setHdr (handlerKey site) { w0 := BitVec.ofNat 64 (tCODE * 2 ^ 40 + 16384) }).setHdr (corePadKey site + 0x3C020)
    { w0 := BitVec.ofNat 64 16320 }

/-- The trap shadow as it begins to run: at the handler's first word, with its counter of draws at 0 and the job seed and
logical core of the record, from which R231 forms its key; its other registers stay as the last trap left them (R389). A request
of a shadow that was discarded is answered by nobody (R404). -/
def Context.shadowed (x x0 : Context) : Context :=
  { x with pc := 0, st := .ready, pfx := .none, srctr := 0, jobseed := x0.jobseed, lcore := x0.lcore, xinv := none, xreply := none }

/-- Trap entry (R392): `X` is the context of the cause, `pc` what `trappc` receives. An instruction that waits is cancelled:
a `tuft` whose Tuft has not formed takes its request back (R106). In the trap shadow a trap is a double fault (R418). -/
def State.enterTrap (s : State) (site X : Nat) (code : BitVec 8) (val pc : Word) (async pfx : Bool) : State :=
  let c := s.coreAt site
  if c.tshadow then s.doubleFault site code val
  else
    let s1 := s.leaveLines fun w => decide (w.site = site)
    let s2 := { s1 with mem := (reservedHeaders s1.mem site).setBytes (frameKey site) (c.ctxAt X).frameBytes }
    let c1 := c.setCtx X { c.ctxAt X with pfx := .none }
    let c2 := c1.setCtx 11 ((c1.ctxAt 11).shadowed (c.ctxAt 0))
    s2.setCore site { c2 with
      trapcause := code, trapval := val, trappc := pc
      trapflags := BitVec.ofNat 8 (X % 16 * 16 + boolBit c.tuft 2 + boolBit async 1 + boolBit pfx 0)
      ie := false, tshadow := true, act := 11, miss := none, tuftAsk := if c.tuft then c.tuftAsk else none }

/-- The address that a trap at the instruction under way records: its own, or that of its prefix (R46). -/
def Context.faultPc (x : Context) : Word := if x.pfx = .none then x.pc else x.pc - 4

/-- A trap raised by the instruction under way: the state it left, without the ports it read (R7, R37). An instruction
of the miss shadow that faults discards the shadow, and the fault is that of the context it served (R367). -/
def State.trapHere (s : State) (code : BitVec 8) (val : Word) (async : Bool) : State :=
  let c := s.core
  let s1 := { s with tx := {} }
  let x := if c.act = 12 then (c.miss.map (·.ctx)).getD 0 else c.act
  if c.act = 11 then s1.doubleFault s.site code val
  else s1.enterTrap s.site x code val (c.ctxAt x).faultPc async ((c.ctxAt x).pfx ≠ .none)

/-- One destination of a popped completion record is acquired (R187): its bytes in the core-pad copy are refreshed and
clean, and it enters the acquired set, whose oldest entry the pop has pushed when it must give way (R184). -/
def State.acquireDest (t : State) (d : Word × Loc × Nat × Nat) : State :=
  let canon := d.1
  let v := d.2.1
  let off := d.2.2.1
  let n := d.2.2.2
  let t1 : State := match t.core.pad.copyOf canon with
    | some c =>
      if v = Loc.pad c then t
      else (({ t with mem := t.mem.setBytes (c + 32 + off) (t.bodyBytes v off n) }).copyPoison v c off n).markClean (c + 32 + off) n
    | none => t
  t1.setCtx { t1.ctx with acquired := (acquire t1.ctx.acquired (t1.acqEntry canon v.level)).1 }

/-- Popping a completion record acquires the bytes that its command wrote (R187). -/
def State.acquireRecord (s : State) (r : CompRec) : State := r.dests.foldl State.acquireDest s

/-- A popped piece: the stream's position moves on and its register keeps the piece (R266). -/
def State.popStream (s : State) (e : Nat × Nat × VWord) : State :=
  match s.core.streams[e.1]? with
  | some x => s.setCore s.site { s.core with
      streams := s.core.streams.setIfInBounds e.1 { x with pos := x.pos + e.2.1, buf := x.buf.filter fun y => decide (x.pos + e.2.1 ≤ y.1) }
      v := s.core.v.setIfInBounds (24 + e.1) e.2.2 }
  | none => s

/-- Takes what an instruction popped and sends what it pushed (R37). -/
def State.commitPorts (s : State) : State :=
  let t := s.tx
  let c := s.core
  let (rx, pos) := takeWords t.pops28 c.rx c.rxpos
  let s1 := s.setCore s.site { c with rx := rx, rxpos := pos }
  let s2 := (s1.ctx.recs.take t.pops29).foldl State.acquireRecord s1
  let s3 := s2.setCtx { s2.ctx with recs := s2.ctx.recs.drop t.pops29 }
  let s4 := match t.deque with
    | some v => (List.range t.pops30).foldl (fun (u : State) _ => u.dqDropBottom v) s3
    | none => s3
  let s5 := if t.pops31 = 0 then s4 else
    match s4.core.recId with
    | some rid => s4.setRec rid ((s4.recAt rid).takeFor (clusterOf s4.site) (bitsOf t.bind 22 5) t.skip31 t.pops31)
    | none => s4
  let s6 := t.pushes.foldl (fun (u : State) w => u.send ({ u with tx := t }.portMessage w)) s5
  let me := fun (w : Waiter) => decide (w.site = s.site) && decide (w.ctx = s.core.act)
  let s7 := { s6 with waitq := s6.waitq.filter fun w => !me w }
  let s8 := t.spops.foldl State.popStream s7
  { s8 with tx := {} }

/-- The instruction retires: ports, the next address, the prefix and `instret` (a prefix pair counts once, R88). -/
def State.retire (s : State) : State :=
  let npc := s.tx.npc
  let s1 := s.commitPorts
  let x := s1.ctx
  s1.setCtx { x with
    pc := npc.getD (x.pc + 4), pfx := .none, instret := x.instret + 1
    st := if x.st = .waiting then .ready else x.st }

/-- The STEP of an instruction that retires, when `dbgctl.STEP` was 1 as it issued (R87, R413), falls due: it stays pending
until the next boundary, where a cause of a higher rank comes before it (R396). With DRAIN the step of a push waits for its
engine work (R414). -/
def State.stepped (s : State) (t : Tx) (pc : Word) : State :=
  let c := s.core
  if t.dbg.getLsbD 0 && c.act ≤ 10 && !c.halted then
    s.setCore s.site { c with pending := c.pending ++ [{ code := Cause.step.code, val := pc, pc := (c.ctxAt c.act).pc, ctx := c.act
                                                         work := if t.pushed && t.dbg.getLsbD 1 then some (c.works - 1) else none }] }
  else s

/-- An instruction retires, and then a cause that it completes into is taken, SYSCALL or WATCH, or a single step falls due
(R391, R396, R413). `pc` is the address of the instruction or its prefix. -/
def State.complete (s : State) (pc : Word) (pfx : Bool) : State :=
  let t := s.tx
  let s1 := s.retire
  let c := s1.core
  let x := c.ctxAt c.act
  match t.after with
  | some (code, val) => if c.act = 11 then s1.doubleFault s1.site code val else s1.enterTrap s1.site c.act code val x.pc false false
  | none =>
    match t.watch with
    | some p => s1.enterTrap s1.site c.act Cause.watch.code p x.pc false pfx
    | none => s1.stepped t pc

/-- The outcome of an instruction's effect. -/
def finish (s0 : State) : EStateM.Result Exit State Unit → Host.Outcome State Fault Refusal
  | .ok _ s => .next (s.complete s0.ctx.faultPc (s0.ctx.pfx ≠ .none))
  | .error (.trap c v) s => .next ((if s.tx.undone then s0 else s).trapHere c.code v c.async)
  | .error (.room _ v) s => .next (s.trapHere Cause.padfull.code (BitVec.ofNat 64 v) false)
  | .error .wait _ => .next (s0.setCtx { s0.ctx with st := .waiting })
  | .error .waitKeep s => .next ({ s with tx := {} }.setCtx { s.ctx with st := .waiting })
  | .error .shadow s => .next ({ s with tx := {} }.setCtx { s.ctx with st := .ready })
  | .error .gone s => .next { s with tx := {} }
  | .error .stutter _ => .next s0

/-- The state in which the effect of an instruction begins. -/
def State.starts (s : State) (i : Instr) : State :=
  { s with tx := { word := BitVec.ofNat 64 (wordNat i), bind := s.ctx.portbind, dbg := s.core.dbgctl, ctag := s.ctx.ctxtag
                   sctx := s.core.ctxNo } }

/-- An instruction of the set at the executing context: ILLEGAL with the word when a reserved field is not zero (R4,
R33) or the core lacks the unit (R49), else its effect, with the passes that it needs for room. -/
def runInstr (i : Instr) (body : Op Unit) (s : State) : Host.Outcome State Fault Refusal :=
  let s0 := s.starts i
  if !i.wf || (isChan s.site && i.needsVector) || (!isChan s.site && i.needsChannel) then
    .next (s0.trapHere Cause.illegal.code (BitVec.ofNat 64 (wordNat i)) false)
  else finish s0 (withRoom body 3 [] s0)

/-- An event: it takes place whole, or changes nothing when it is not due. -/
def runEvent (body : Op Unit) (s : State) : Host.Outcome State Fault Refusal :=
  match body s with
  | .ok _ s' => .next s'
  | .error _ _ => .next s

/-- `tret` (R400): the frame returns to `s1` to `s27` of the trapped context, its pc is `trappc`, and the shadow
ends. -/
def State.trapReturn (s : State) : State :=
  let c := s.core
  let x := c.trapflags.toNat / 16
  let ctx := (List.range 27).foldl (fun (k : Context) i => k.setS (i + 1) (s.mem.word (frameKey s.site + 8 * (i + 1)))) (c.ctxAt x)
  let c1 := c.setCtx x { ctx with pc := c.trappc, pfx := .none, st := if ctx.st = .waiting then .ready else ctx.st }
  s.setCore s.site { c1 with tshadow := false, act := x }

end Sys2Proof.Machine
end

