-- ==== Sys2Proof/Machine/Scalar.lean ====
section
/-! DEFINITION. Scalar: the arithmetic group, immediates, control transfers, shapes and control registers. -/

namespace Sys2Proof.Machine

/-! Values (R71, R72). -/

def sInt (x : Word) : Int := x.toInt
def ofBool (b : Bool) : Word := if b then 1 else 0

def aluAdd (x y : Word) : Word := x + y
def aluSub (x y : Word) : Word := x - y
def aluAnd (x y : Word) : Word := x &&& y
def aluOr (x y : Word) : Word := x ||| y
def aluXor (x y : Word) : Word := x ^^^ y
def aluSll (x y : Word) : Word := x <<< (y.toNat % 64)
def aluSrl (x y : Word) : Word := x >>> (y.toNat % 64)
def aluSra (x y : Word) : Word := x.sshiftRight (y.toNat % 64)
def aluSlt (x y : Word) : Word := ofBool (decide (x.toInt < y.toInt))
def aluSltu (x y : Word) : Word := ofBool (decide (x.toNat < y.toNat))
def aluMin (x y : Word) : Word := if x.toInt ≤ y.toInt then x else y
def aluMax (x y : Word) : Word := if x.toInt ≥ y.toInt then x else y
def aluMinu (x y : Word) : Word := if x.toNat ≤ y.toNat then x else y
def aluMaxu (x y : Word) : Word := if x.toNat ≥ y.toNat then x else y
def aluMul (x y : Word) : Word := toWord (x.toInt * y.toInt)
def aluMulh (x y : Word) : Word := toWord ((x.toInt * y.toInt) / (2 ^ 64 : Int))
def aluMulhu (x y : Word) : Word := BitVec.ofNat 64 (x.toNat * y.toNat / 2 ^ 64)

/-- `div` (R72): toward zero; all ones for a zero divisor; the most negative number for the overflow case. -/
def aluDiv (x y : Word) : Word :=
  if y.toInt = 0 then toWord (-1)
  else if x.toInt = -(2 ^ 63 : Int) ∧ y.toInt = -1 then toWord (-(2 ^ 63 : Int))
  else toWord (x.toInt.tdiv y.toInt)
def aluDivu (x y : Word) : Word := if y.toNat = 0 then BitVec.allOnes 64 else BitVec.ofNat 64 (x.toNat / y.toNat)
def aluRem (x y : Word) : Word :=
  if y.toInt = 0 then x
  else if x.toInt = -(2 ^ 63 : Int) ∧ y.toInt = -1 then 0
  else toWord (x.toInt - y.toInt * x.toInt.tdiv y.toInt)
def aluRemu (x y : Word) : Word := if y.toNat = 0 then x else BitVec.ofNat 64 (x.toNat % y.toNat)

/-- Leading zeros of the low n bits, counted from bit n - 1 down. -/
def leadingZeros (x : Word) : Nat → Nat
  | 0 => 0
  | n + 1 => if x.getLsbD n then 0 else leadingZeros x n + 1

/-- Trailing zeros among the n bits from bit i up. -/
def trailingZeros (x : Word) (i : Nat) : Nat → Nat
  | 0 => 0
  | n + 1 => if x.getLsbD i then 0 else trailingZeros x (i + 1) n + 1

/-- One bits among the low n bits. -/
def onesCount (x : Word) : Nat → Nat
  | 0 => 0
  | n + 1 => (if x.getLsbD n then 1 else 0) + onesCount x n

def aluClz (x : Word) : Word := BitVec.ofNat 64 (leadingZeros x 64)
def aluCtz (x : Word) : Word := BitVec.ofNat 64 (trailingZeros x 0 64)
def aluPopc (x : Word) : Word := BitVec.ofNat 64 (onesCount x 64)

/-- A three-register instruction: the sources are read in the order a, b (R37), then the destination is written. -/
def alu2 (f : Word → Word → Word) (d a b : BitVec 5) : Op Unit := do
  let x ← rdS a
  let y ← rdS b
  wrS d (f x y)

/-- A two-register instruction. -/
def alu1 (f : Word → Word) (d a : BitVec 5) : Op Unit := do
  let x ← rdS a
  wrS d (f x)

/-- The immediate field of an I-format instruction with its width: 16 bits, or 40 under a `pfx imm` (R44, R73). -/
def immField (i : BitVec 16) : Op (Nat × Nat) := do
  match (← getCtx).pfx with
  | .imm p => return (40, p.toNat * 65536 + i.toNat)
  | _ => return (16, i.toNat)

def immSigned (i : BitVec 16) : Op Word := do
  let (w, v) ← immField i
  return toWord (signExt w v)

def immUnsigned (i : BitVec 16) : Op Word := do
  let (_, v) ← immField i
  return BitVec.ofNat 64 v

/-- An immediate instruction (R73). -/
def aluImm (f : Word → Word → Word) (signed : Bool) (d a : BitVec 5) (i : BitVec 16) : Op Unit := do
  let x ← rdS a
  let y ← (if signed then immSigned i else immUnsigned i)
  wrS d (f x y)

/-- A shift by an immediate amount (R74). -/
def aluShift (f : Word → Word → Word) (d a s : BitVec 5) (h : BitVec 1) : Op Unit := do
  let x ← rdS a
  wrS d (f x (BitVec.ofNat 64 (h.toNat * 32 + s.toNat)))

/-- `add` (R71). -/
def execAdd (d a b : BitVec 5) (s : State) : Host.Outcome State Fault Refusal :=
  runInstr (.add d a b) (alu2 aluAdd d a b) s

/-- `sub` (R71). -/
def execSub (d a b : BitVec 5) (s : State) : Host.Outcome State Fault Refusal :=
  runInstr (.sub d a b) (alu2 aluSub d a b) s

/-- `and` (R71). -/
def execAnd (d a b : BitVec 5) (s : State) : Host.Outcome State Fault Refusal :=
  runInstr (.and d a b) (alu2 aluAnd d a b) s

/-- `or` (R71). -/
def execOr (d a b : BitVec 5) (s : State) : Host.Outcome State Fault Refusal :=
  runInstr (.or d a b) (alu2 aluOr d a b) s

/-- `xor` (R71). -/
def execXor (d a b : BitVec 5) (s : State) : Host.Outcome State Fault Refusal :=
  runInstr (.xor d a b) (alu2 aluXor d a b) s

/-- `sll` (R71). -/
def execSll (d a b : BitVec 5) (s : State) : Host.Outcome State Fault Refusal :=
  runInstr (.sll d a b) (alu2 aluSll d a b) s

/-- `srl` (R71). -/
def execSrl (d a b : BitVec 5) (s : State) : Host.Outcome State Fault Refusal :=
  runInstr (.srl d a b) (alu2 aluSrl d a b) s

/-- `sra` (R71). -/
def execSra (d a b : BitVec 5) (s : State) : Host.Outcome State Fault Refusal :=
  runInstr (.sra d a b) (alu2 aluSra d a b) s

/-- `slt` (R71). -/
def execSlt (d a b : BitVec 5) (s : State) : Host.Outcome State Fault Refusal :=
  runInstr (.slt d a b) (alu2 aluSlt d a b) s

/-- `sltu` (R71). -/
def execSltu (d a b : BitVec 5) (s : State) : Host.Outcome State Fault Refusal :=
  runInstr (.sltu d a b) (alu2 aluSltu d a b) s

/-- `min` (R71). -/
def execMin (d a b : BitVec 5) (s : State) : Host.Outcome State Fault Refusal :=
  runInstr (.min d a b) (alu2 aluMin d a b) s

/-- `max` (R71). -/
def execMax (d a b : BitVec 5) (s : State) : Host.Outcome State Fault Refusal :=
  runInstr (.max d a b) (alu2 aluMax d a b) s

/-- `minu` (R71). -/
def execMinu (d a b : BitVec 5) (s : State) : Host.Outcome State Fault Refusal :=
  runInstr (.minu d a b) (alu2 aluMinu d a b) s

/-- `maxu` (R71). -/
def execMaxu (d a b : BitVec 5) (s : State) : Host.Outcome State Fault Refusal :=
  runInstr (.maxu d a b) (alu2 aluMaxu d a b) s

/-- `mul` (R71). -/
def execMul (d a b : BitVec 5) (s : State) : Host.Outcome State Fault Refusal :=
  runInstr (.mul d a b) (alu2 aluMul d a b) s

/-- `mulh` (R71). -/
def execMulh (d a b : BitVec 5) (s : State) : Host.Outcome State Fault Refusal :=
  runInstr (.mulh d a b) (alu2 aluMulh d a b) s

/-- `mulhu` (R71). -/
def execMulhu (d a b : BitVec 5) (s : State) : Host.Outcome State Fault Refusal :=
  runInstr (.mulhu d a b) (alu2 aluMulhu d a b) s

/-- `div` (R72). -/
def execDiv (d a b : BitVec 5) (s : State) : Host.Outcome State Fault Refusal :=
  runInstr (.div d a b) (alu2 aluDiv d a b) s

/-- `divu` (R72). -/
def execDivu (d a b : BitVec 5) (s : State) : Host.Outcome State Fault Refusal :=
  runInstr (.divu d a b) (alu2 aluDivu d a b) s

/-- `rem` (R72). -/
def execRem (d a b : BitVec 5) (s : State) : Host.Outcome State Fault Refusal :=
  runInstr (.rem d a b) (alu2 aluRem d a b) s

/-- `remu` (R72). -/
def execRemu (d a b : BitVec 5) (s : State) : Host.Outcome State Fault Refusal :=
  runInstr (.remu d a b) (alu2 aluRemu d a b) s

/-- `clz` (R71). -/
def execClz (d a : BitVec 5) (s : State) : Host.Outcome State Fault Refusal :=
  runInstr (.clz d a) (alu1 aluClz d a) s

/-- `ctz` (R71). -/
def execCtz (d a : BitVec 5) (s : State) : Host.Outcome State Fault Refusal :=
  runInstr (.ctz d a) (alu1 aluCtz d a) s

/-- `popc` (R71). -/
def execPopc (d a : BitVec 5) (s : State) : Host.Outcome State Fault Refusal :=
  runInstr (.popc d a) (alu1 aluPopc d a) s

/-- `sel` (R70, R71): every source is read, the one not selected too. -/
def selBody (d a b c : BitVec 5) : Op Unit := do
  let x ← rdS a
  let y ← rdS b
  let z ← rdS c
  wrS d (if z ≠ 0 then x else y)

def execSel (d a b c : BitVec 5) (s : State) : Host.Outcome State Fault Refusal :=
  runInstr (.sel d a b c) (selBody d a b c) s

/-- `addi` (R73). -/
def execAddi (d a : BitVec 5) (i : BitVec 16) (s : State) : Host.Outcome State Fault Refusal :=
  runInstr (.addi d a i) (aluImm aluAdd true d a i) s

/-- `andi` (R73). -/
def execAndi (d a : BitVec 5) (i : BitVec 16) (s : State) : Host.Outcome State Fault Refusal :=
  runInstr (.andi d a i) (aluImm aluAnd false d a i) s

/-- `ori` (R73). -/
def execOri (d a : BitVec 5) (i : BitVec 16) (s : State) : Host.Outcome State Fault Refusal :=
  runInstr (.ori d a i) (aluImm aluOr false d a i) s

/-- `xori` (R73). -/
def execXori (d a : BitVec 5) (i : BitVec 16) (s : State) : Host.Outcome State Fault Refusal :=
  runInstr (.xori d a i) (aluImm aluXor false d a i) s

/-- `slti` (R73). -/
def execSlti (d a : BitVec 5) (i : BitVec 16) (s : State) : Host.Outcome State Fault Refusal :=
  runInstr (.slti d a i) (aluImm aluSlt true d a i) s

/-- `sltiu` (R73). -/
def execSltiu (d a : BitVec 5) (i : BitVec 16) (s : State) : Host.Outcome State Fault Refusal :=
  runInstr (.sltiu d a i) (aluImm aluSltu true d a i) s

/-- `slli` (R74). -/
def execSlli (d a sh : BitVec 5) (h : BitVec 1) (s : State) : Host.Outcome State Fault Refusal :=
  runInstr (.slli d a sh h) (aluShift aluSll d a sh h) s

/-- `srli` (R74). -/
def execSrli (d a sh : BitVec 5) (h : BitVec 1) (s : State) : Host.Outcome State Fault Refusal :=
  runInstr (.srli d a sh h) (aluShift aluSrl d a sh h) s

/-- `srai` (R74). -/
def execSrai (d a sh : BitVec 5) (h : BitVec 1) (s : State) : Host.Outcome State Fault Refusal :=
  runInstr (.srai d a sh h) (aluShift aluSra d a sh h) s

/-- The old value that `lhi` reads: 0 for the ports, none of which is popped (R75). -/
def lhiOld (x : Context) (d : BitVec 5) : Word := if d.toNat ≥ 28 then 0 else x.sreg d.toNat

/-- One 16-bit quarter of a word replaced (R75). -/
def setQuarter (old : Word) (k : BitVec 2) (i : BitVec 16) : Word := setBits old (16 * k.toNat) 16 i.toNat

/-- `lhi` (R75). -/
def execLhi (d : BitVec 5) (k : BitVec 2) (i : BitVec 16) (s : State) : Host.Outcome State Fault Refusal :=
  runInstr (.lhi d k i) (do wrS d (setQuarter (lhiOld (← getCtx) d) k i)) s

/-! Control transfers (R76 to R78). -/

/-- The length of the CODE object that a context runs: the resident handler in the trap shadow (R388), else the record's
code (R68). -/
def State.codeLen (s : State) : Nat :=
  if s.core.act = 11 then (s.hdr (.pad (handlerKey s.site))).len else s.ownRec.text.length

/-- Transfers control to a byte offset: BOUNDS with the target outside the CODE object (R76, R77). -/
def transfer (t : Int) : Op Unit := do
  let s ← get
  require (decide (0 ≤ t) && decide (t + 4 ≤ s.codeLen)) .bounds (toWord t)
  jump (toWord t)

/-- A conditional branch (R76). -/
def branch (test : Word → Word → Bool) (a b : BitVec 5) (o : BitVec 13) : Op Unit := do
  let x ← rdS a
  let y ← rdS b
  if test x y then
    let pc := (← getCtx).pc
    transfer (pc.toNat + 4 * o.toInt)

/-- `beq` (R76). -/
def execBeq (a b : BitVec 5) (o : BitVec 13) (s : State) : Host.Outcome State Fault Refusal :=
  runInstr (.beq a b o) (branch (fun x y => decide (x = y)) a b o) s

/-- `bne` (R76). -/
def execBne (a b : BitVec 5) (o : BitVec 13) (s : State) : Host.Outcome State Fault Refusal :=
  runInstr (.bne a b o) (branch (fun x y => decide (x ≠ y)) a b o) s

/-- `blt` (R76). -/
def execBlt (a b : BitVec 5) (o : BitVec 13) (s : State) : Host.Outcome State Fault Refusal :=
  runInstr (.blt a b o) (branch (fun x y => decide (x.toInt < y.toInt)) a b o) s

/-- `bge` (R76). -/
def execBge (a b : BitVec 5) (o : BitVec 13) (s : State) : Host.Outcome State Fault Refusal :=
  runInstr (.bge a b o) (branch (fun x y => decide (x.toInt ≥ y.toInt)) a b o) s

/-- `bltu` (R76). -/
def execBltu (a b : BitVec 5) (o : BitVec 13) (s : State) : Host.Outcome State Fault Refusal :=
  runInstr (.bltu a b o) (branch (fun x y => decide (x.toNat < y.toNat)) a b o) s

/-- `bgeu` (R76). -/
def execBgeu (a b : BitVec 5) (o : BitVec 13) (s : State) : Host.Outcome State Fault Refusal :=
  runInstr (.bgeu a b o) (branch (fun x y => decide (x.toNat ≥ y.toNat)) a b o) s

/-- `jal` (R77): the link is written only when the target is inside the object. -/
def execJal (d : BitVec 5) (o : BitVec 21) (s : State) : Host.Outcome State Fault Refusal :=
  runInstr (.jal d o) (do
    let pc := (← getCtx).pc
    transfer (pc.toNat + 4 * o.toInt)
    wrS d (pc + 4)) s

/-- `jalr` (R77): `s[a]` is read before the link is written; MISALIGN comes before BOUNDS. -/
def execJalr (d a : BitVec 5) (i : BitVec 16) (s : State) : Host.Outcome State Fault Refusal :=
  runInstr (.jalr d a i) (do
    let x ← rdS a
    let t : Int := x.toNat + i.toInt
    require (decide (t % 4 = 0)) .misalign (toWord t)
    let pc := (← getCtx).pc
    transfer t
    wrS d (pc + 4)) s

/-! Shapes (R80 to R84). -/

/-- ceil(log2 n), for n at least 1. -/
def clog2 (n : Nat) : Nat := if n ≤ 1 then 0 else Nat.log2 (n - 1) + 1

/-- One dimension of a shape-table entry, from its 12 bytes. -/
def parseDim (b : List Byte) : Dim :=
  { n := BitVec.ofNat 32 (ofBytes (b.take 4)), m := BitVec.ofNat 40 (ofBytes ((b.drop 4).take 5))
    l := BitVec.ofNat 8 (ofBytes ((b.drop 9).take 1)) }

/-- A dimension is valid (R81). -/
def Dim.valid (x : Dim) : Bool :=
  let n := x.n.toNat
  decide (1 ≤ n) && decide (x.l.toNat = clog2 n) && decide (x.m.toNat = ceilDiv (2 ^ (32 + clog2 n)) n)

/-- The shape of a 64-byte entry, if the entry is valid (R80, R81). -/
def parseShape (b : List Byte) : Option Shape :=
  let ndim := ofBytes (b.take 1)
  let dim := fun j => (b.drop (4 + 12 * j)).take 12
  if 1 ≤ ndim ∧ ndim ≤ 5 ∧ ofBytes ((b.drop 1).take 3) = 0
      ∧ (List.range 5).all (fun j => ofBytes ((dim j).drop 10) = 0)
      ∧ (List.range 5).all (fun j => if j < ndim then (parseDim (dim j)).valid else ofBytes (dim j) = 0) then
    some { ndim := ndim, dims := (List.range ndim).map fun j => parseDim (dim j) }
  else none

/-- `shp` (R82). A body that no pad takes raises TYPE with the offset (R136). R82 names no POISON: lost bytes of the entry are
read as the bytes that stand there (log entry 109). -/
def execShp (d : BitVec 5) (a : BitVec 4) (b : BitVec 5) (s : State) : Host.Outcome State Fault Refusal :=
  runInstr (.shp d a b) (do
    let n ← rdS b
    let off := (← rdA a.toNat).cur.toNat + 64 * n.toNat
    let l ← touchBody a.toNat off
    let r ← rdA a.toNat
    require (decide (r.sh.typ.toNat = tSHAPES)) .type n
    require (decide (off % 64 = 0)) .misalign (BitVec.ofNat 64 off)
    boundsCheck off 64 r.sh.len.toNat
    match parseShape ((← get).bodyBytes l off 64) with
    | none => raise .type n
    | some sh =>
      modCtx fun x => { x with shape := sh }
      wrS d (BitVec.ofNat 64 sh.ndim)) s

/-- Coordinate k of a linear index, by the loop of R84: j counts up while dimensions are divided out. -/
def coordinate (sh : Shape) (k : Nat) : List Dim → Nat → Nat → Nat
  | [], _, _ => 0
  | dm :: t, j, x =>
    let q := x * dm.m.toNat / 2 ^ (32 + dm.l.toNat)
    if j = sh.ndim - 1 then (if k = j then x else 0)
    else if j = k then x - q * dm.n.toNat
    else coordinate sh k t (j + 1) q

/-- `tidx` (R84). -/
def execTidx (d a : BitVec 5) (k : BitVec 3) (s : State) : Host.Outcome State Fault Refusal :=
  runInstr (.tidx d a k) (do
    let x ← rdS a
    let sh := (← getCtx).shape
    wrS d (BitVec.ofNat 64 (coordinate sh k.toNat sh.dims 0 (x.toNat % 2 ^ 32)))) s

/-! Control registers (R85 to R94). -/

/-- Access classes (R86). -/
inductive Access where
  | urw | uro | ro | p
  deriving DecidableEq, Repr

/-- The class of a control register; none for a number not in the map (R88). -/
def crAccess (n : Nat) : Option Access :=
  if n = 0 then some .uro
  else if n = 1 ∨ n = 2 ∨ n = 3 ∨ n = 5 ∨ n = 0xB then some .urw
  else if n = 4 ∨ n = 9 then some .uro
  else if n = 6 ∨ n = 7 ∨ n = 8 ∨ n = 0xA ∨ n = 0x10 ∨ n = 0x11 then some .ro
  else if 0x100 ≤ n ∧ n ≤ 0x107 then some .p
  else none

/-- The value of a control register (R88). -/
def crValue (s : State) (n : Nat) : Word :=
  let c := s.core
  let x := s.ctx
  if n = 0 then statusWord s.site c
  else if n = 1 then x.level.setWidth 64
  else if n = 2 then x.portbind
  else if n = 3 then x.fpctl
  else if n = 4 then x.jobseed
  else if n = 5 then x.srctr
  else if n = 6 then 32
  else if n = 7 then x.wbatch.setWidth 64
  else if n = 8 then x.lcore.setWidth 64
  else if n = 9 then x.ctxtag.setWidth 64
  else if n = 0xA then x.codeptr
  else if n = 0xB then x.kvtbase
  else if n = 0x10 then s.cycle
  else if n = 0x11 then x.instret
  else if n = 0x100 then c.trapcause.setWidth 64
  else if n = 0x101 then c.trapval
  else if n = 0x102 then c.trappc
  else if n = 0x103 then c.trapflags.setWidth 64
  else if n = 0x104 then c.dbgctl.setWidth 64
  else if n = 0x105 then c.watch
  else if n = 0x106 then c.timercmp
  else BitVec.ofNat 64 (boolBit c.lock 1 + boolBit c.secure 0)

/-- The writable fields of a control register (R85, R89 to R93): for `status`, IE alone; `domain` [2:0]; `portbind`
[35:32] and [26:0]; `fpctl` [12:8] and [2:0]; `trapcause` [7:0]; `trapflags` [7:4] and [2:0]; `dbgctl` [2:0]; `world`
[1:0]. -/
def crMask (n : Nat) : Word :=
  if n = 0 then 0x8
  else if n = 1 then 0x7
  else if n = 2 then 0xF07FFFFFF
  else if n = 3 then 0x1F07
  else if n = 9 then 0xFFFF
  else if n = 0x100 then 0xFF
  else if n = 0x103 then 0xF7
  else if n = 0x104 then 0x7
  else if n = 0x107 then 0x3
  else BitVec.allOnes 64

/-- A field value that the map refuses (R90 to R92). -/
def crRefused (n : Nat) (v : Word) : Bool :=
  (n = 1 && bitsOf v 0 3 ≥ 5) || (n = 2 && bitsOf v 13 4 ≥ 11) || (n = 3 && bitsOf v 0 3 ≥ 6)

/-- Stores the merged value of a control register. A write of `timercmp` removes a pending TIMER whose condition it ends
(R395). -/
def setCr (n : Nat) (v : Word) : Op Unit :=
  if n = 0 then modCore fun c => { c with ie := v.getLsbD 3 }
  else if n = 1 then modCtx fun x => { x with level := v.setWidth 3 }
  else if n = 2 then modCtx fun x => { x with portbind := v }
  else if n = 3 then modCtx fun x => { x with fpctl := v }
  else if n = 4 then modCtx fun x => { x with jobseed := v }
  else if n = 5 then modCtx fun x => { x with srctr := v }
  else if n = 9 then modCtx fun x => { x with ctxtag := v.setWidth 16 }
  else if n = 0xB then modCtx fun x => { x with kvtbase := v }
  else if n = 0x100 then modCore fun c => { c with trapcause := v.setWidth 8 }
  else if n = 0x101 then modCore fun c => { c with trapval := v }
  else if n = 0x102 then modCore fun c => { c with trappc := v }
  else if n = 0x103 then modCore fun c => { c with trapflags := v.setWidth 8 }
  else if n = 0x104 then modCore fun c => { c with dbgctl := v.setWidth 3 }
  else if n = 0x105 then modCore fun c => { c with watch := v }
  else if n = 0x106 then modify fun s => s.setCore s.site { s.core with
    timercmp := v
    pending := s.core.pending.filter fun p => decide (p.code ≠ Cause.timer.code) || decide (v.toNat ≤ s.cycle.toNat) }
  else modCore fun c => { c with secure := v.getLsbD 0, lock := c.lock || v.getLsbD 1 }

/-- Whether a register's class lets the access through (R86, R94): the class is checked first, then, for a write of
`world`, the world and LOCK. -/
def crPermit (n : Nat) (write : Bool) : Op Unit := do
  let s ← get
  let num := BitVec.ofNat 64 n
  match crAccess n with
  | none => illegal num
  | some .urw => pure ()
  | some .uro => require (!write || s.core.isPriv) .priv num
  | some .ro => require (!write) .illegal num
  | some .p =>
    require s.core.isPriv .priv num
    if write && n = 0x107 then require (s.core.secure && !s.core.lock) .world num

/-- `crw`, `crs` and `crc`: the merge of the old value with the new one (R85). -/
def crUpdate (merge : Word → Word → Word) (d a : BitVec 5) (n : BitVec 12) : Op Unit := do
  crPermit n.toNat true
  let v ← rdS a
  let old := crValue (← get) n.toNat
  let new := merge old v
  require (!crRefused n.toNat new) .illegal (BitVec.ofNat 64 n.toNat)
  let w := crMask n.toNat
  setCr n.toNat ((old &&& ~~~w) ||| (new &&& w))
  wrS d old

/-- `crd` (R85). -/
def execCrd (d : BitVec 5) (n : BitVec 12) (s : State) : Host.Outcome State Fault Refusal :=
  runInstr (.crd d n) (do
    crPermit n.toNat false
    wrS d (crValue (← get) n.toNat)) s

/-- `crw` (R85). -/
def execCrw (d a : BitVec 5) (n : BitVec 12) (s : State) : Host.Outcome State Fault Refusal :=
  runInstr (.crw d a n) (crUpdate (fun _ v => v) d a n) s

/-- `crs` (R85). -/
def execCrs (d a : BitVec 5) (n : BitVec 12) (s : State) : Host.Outcome State Fault Refusal :=
  runInstr (.crs d a n) (crUpdate (fun old v => old ||| v) d a n) s

/-- `crc` (R85). -/
def execCrc (d a : BitVec 5) (n : BitVec 12) (s : State) : Host.Outcome State Fault Refusal :=
  runInstr (.crc d a n) (crUpdate (fun old v => old &&& ~~~v) d a n) s

/-! The prefix (R44 to R47). -/

/-- The word at an offset of the CODE object, when it lies wholly inside (R69). -/
def State.codeWord (s : State) (pc : Nat) : Option Nat :=
  if pc + 4 ≤ s.codeLen then
    some (ofBytes (if s.core.act = 11 then s.bodyBytes (.pad (handlerKey s.site)) pc 4 else (s.ownRec.text.drop pc).take 4))
  else none

/-- A prefix: BOUNDS when its governed word cannot be fetched, ILLEGAL when it may not govern it, both at the prefix;
otherwise it is latched for the governed instruction, which is next (R45, R46). -/
def pfxBody (i : Instr) (p : Pfx) (s : State) : Host.Outcome State Fault Refusal :=
  let s0 := { s with tx := {} }
  let x := s.ctx
  let here := fun (code : BitVec 8) (v : Word) =>
    (s0.setCtx { x with pfx := p, pc := x.pc + 4 }).trapHere code v false
  match s.codeWord (x.pc.toNat + 4) with
  | none => .next (here Cause.bounds.code (x.pc + 4))
  | some w =>
    match decodeUnder p w with
    | .ok _ => .next (s0.setCtx { x with pfx := p, pc := x.pc + 4 })
    | .error .badPair => .next (here Cause.illegal.code (BitVec.ofNat 64 (wordNat i)))
    | .error _ => .next (here Cause.illegal.code (BitVec.ofNat 64 w))

/-- `pfx imm` (R44). -/
def execPfxImm (p : BitVec 24) (s : State) : Host.Outcome State Fault Refusal := pfxBody (.pfxImm p) (.imm p) s

/-- `pfx reg` (R44). -/
def execPfxReg (e : BitVec 5) (s : State) : Host.Outcome State Fault Refusal := pfxBody (.pfxReg e) (.reg e) s

/-- `pfx fn` (R44). -/
def execPfxFn (x : BitVec 6) (s : State) : Host.Outcome State Fault Refusal := pfxBody (.pfxFn x) (.fn x) s

end Sys2Proof.Machine
end

