-- ==== Sys2Proof/Machine/Contexts.lean ====
section
/-! DEFINITION. Contexts: helpers, parking and Tufts. -/

namespace Sys2Proof.Machine

/-! Helpers (R97 to R102). -/

/-- The lowest-numbered FREE helper. -/
def Core.freeHelper (c : Core) : Option Nat :=
  (List.range 11).find? fun n => decide (1 ≤ n) && decide ((c.ctxAt n).st = .free)

/-- The state a helper starts with (R97); its count of tier misses, which runs since launch (R167), goes on. -/
def helperStart (x0 : Context) (entry arg : Word) : Context :=
  { st := .ready, pc := entry
    s := (Vector.replicate 32 0).setIfInBounds 2 arg
    a := (Vector.range 16).map fun i => if i < 8 then x0.areg i else {}
    level := x0.level, jobseed := x0.jobseed, codeptr := x0.codeptr, priv := x0.priv
    lcore := x0.lcore, ctxtag := x0.ctxtag
    fpctl := x0.fpctl &&& 7 }

/-- `hstart` (R97). -/
def execHstart (d a b : BitVec 5) (s : State) : Host.Outcome State Fault Refusal :=
  runInstr (.hstart d a b) (do
    notInMiss
    let s ← get
    require (!s.core.tuft) .gang 5
    require (decide (s.core.ctxNo = 0)) .illegal 0
    let e ← rdS a
    let arg ← rdS b
    require (decide (e.toNat % 4 = 0)) .misalign e
    require (decide (e.toNat + 4 ≤ (← get).codeLen)) .bounds e
    let s ← get
    match s.core.freeHelper with
    | none => wrS d 0
    | some h =>
      modCore fun c => c.setCtx h { helperStart (c.ctxAt 0) e arg with misses := (c.ctxAt h).misses }
      wrS d (BitVec.ofNat 64 h)) s

/-- A context of a core has an engine command that has not completed. -/
def Core.commandsOf (c : Core) (ctx : Nat) : List Cmd := (c.wmb ++ c.copies).filter fun m => decide (m.ctx = ctx)

/-- The mutexes that a context holds become free and abandoned (R203). -/
def Rec.freeMutexes (r : Rec) (p : Nat × Nat → Bool) : Rec :=
  { r with evsets := r.evsets.map fun e => (e.1, { e.2 with mutexes := e.2.mutexes.map fun m =>
      match m.2.holder with
      | some h => if p h then (m.1, { holder := none, abandoned := true }) else m
      | none => m }) }

/-- `hexit` (R98): a release at core scope writes nothing; it orders. A window that the context owns is aborted (R381). -/
def execHexit (a : BitVec 5) (s : State) : Host.Outcome State Fault Refusal :=
  runInstr (.hexit a) (do
    let s ← get
    require (decide (s.core.ctxNo ≠ 0) && decide (s.core.act ≤ 10)) .illegal 0
    waitAccesses
    if !(s.core.commandsOf s.core.act).isEmpty || s.core.owed.any (fun r => decide (r.ctx = s.core.act)) then waitHere
    let v ← rdS a
    match s.core.recId with
    | some rid => modRec rid fun r => r.freeMutexes fun h => decide (h = (s.ctx.lcore.toNat, s.core.act))
    | none => pure ()
    modify fun s => s.kvAbortCtx s.site s.core.act
    modCtx fun x => { x with exitval := v, recs := [], st := .exited }
    modTx fun t => { t with pops29 := 0 }) s

/-- `hjoin` (R99). -/
def execHjoin (d a : BitVec 5) (s : State) : Host.Outcome State Fault Refusal :=
  runInstr (.hjoin d a) (do
    notInMiss
    let s ← get
    require (!s.core.tuft) .gang 5
    require (decide (s.core.ctxNo = 0)) .illegal 0
    let h ← rdS a
    require (decide (1 ≤ h.toNat) && decide (h.toNat ≤ 10) && decide ((s.core.ctxAt h.toNat).st ≠ .free)) .illegal h
    if (s.core.ctxAt h.toNat).st ≠ .exited then waitHere
    modCtxAt s.site h.toNat fun x => { x with st := .free }
    wrS d (s.core.ctxAt h.toNat).exitval) s

/-- The word of `hid` (R101). -/
def hidWord (c : Core) : Word :=
  let bits := fun (p : Context → Bool) => ((List.range 11).map fun n => if p (c.ctxAt n) then 2 ^ n else 0).sum
  let live := bits fun x => x.st = .ready || x.st = .waiting
  BitVec.ofNat 64 (bits (fun x => x.st = .exited) * 2 ^ 32 + (live ||| 1) * 2 ^ 16 + c.ctxNo)

/-- `hid` (R101). -/
def execHid (d : BitVec 5) (s : State) : Host.Outcome State Fault Refusal :=
  runInstr (.hid d) (do wrS d (hidWord (← getCore))) s

/-- A context of a core other than a given one is READY. -/
def Core.otherReady (c : Core) (n : Nat) : Bool := (List.range 11).any fun m => decide (m ≠ n) && decide ((c.ctxAt m).st = .ready)

/-- A context that has yielded is passed over while the others it waits for have not issued and one is READY (R102). -/
def Core.passedOver (c : Core) (n : Nat) : Bool := !(c.ctxAt n).passed.isEmpty && c.otherReady n

/-- A yield has ended once no other context is READY (R102). -/
def Core.endYields (c : Core) : Core :=
  if c.ctxs.toList.all fun x => x.passed.isEmpty then c
  else (List.range 11).foldl (fun (k : Core) n =>
    if !(k.ctxAt n).passed.isEmpty && !k.otherReady n then k.setCtx n { k.ctxAt n with passed := [] } else k) c

/-- The context whose issue turn the executing one takes: its own, and in the miss shadow that of the context it serves
(R96). -/
def Core.turnOf (c : Core) : Nat := if c.act = 12 then (c.miss.map (·.ctx)).getD 12 else c.act

/-- `yield` (R102): the contexts that were READY must each issue before this one is considered again. The miss shadow yields
the turns of the context it serves. -/
def execYield (s : State) : Host.Outcome State Fault Refusal :=
  runInstr .yield (do
    let c ← getCore
    let others := (List.range 11).filter fun n => decide (n ≠ c.turnOf) && decide ((c.ctxAt n).st = .ready)
    modCore fun c => c.setCtx c.turnOf { c.ctxAt c.turnOf with passed := others }) s

/-! Parking (R103, R104). -/

/-- Slots that a register of a file takes, and the multiple its first slot must be. -/
def parkSlots (f : Nat) : Nat :=
  if f = 0 then 1 else if f = 1 then 2 else if f = 2 then 16 else if f = 3 then 64 else if f = 4 then 17 else 4
def parkAlign (f : Nat) : Nat := if f = 4 then 16 else parkSlots f

/-- A tile is named by a command that is queued or running and has not halted (R289). -/
def Core.tileBusy (c : Core) (t : Nat) : Bool := c.wmb.any fun m => m.fault.isNone && m.tiles.contains t

/-- The 64-bit slots of a register. -/
def Core.slotsOf (c : Core) (x : Context) (f r : Nat) : List Word :=
  if f = 1 then [(x.areg r).ptr, (x.areg r).cur.setWidth 64]
  else if f = 2 then (List.range 16).map fun i => (c.vreg r).extractLsb' (64 * i) 64
  else if f = 3 then (List.range 64).map fun i => c.accSlot (64 * r + i)
  else if f = 4 then ((List.range 16).map fun i => (c.wreg r).bits.extractLsb' (64 * i) 64) ++ [(c.wreg r).desc]
  else (List.range 4).map fun i => (c.kreg r).extractLsb' (64 * i) 64

/-- Writes slots from n on. -/
def Core.putSlots (c : Core) (n : Nat) : List Word → Core
  | [] => c
  | w :: t => (c.setAcc (1024 + n) w).putSlots (n + 1) t

/-- The number that slots make, the first the least significant. -/
def slotsNat : List Word → Nat
  | [] => 0
  | w :: t => w.toNat + 2 ^ 64 * slotsNat t

/-- The checks on file and slot of `park` and `unpark`, in the order of R104. -/
def parkChecks (f n : Nat) : Op Unit := do
  require (decide (f < 6)) .illegal (BitVec.ofNat 64 f)
  require (decide (n % parkAlign f = 0)) .misalign (BitVec.ofNat 64 n)
  require (decide (n + parkSlots f ≤ 3072)) .bounds (BitVec.ofNat 64 n)

/-! The guard descriptor (R306). -/

def descValid (d : Word) : Bool := d.getLsbD 63
def descN (d : Word) : Nat := bitsOf d 54 9
def descS (d : Word) : Nat := bitsOf d 48 6
def descM (d : Word) : Nat := bitsOf d 0 47

/-- A valid descriptor. -/
def mkDesc (n s m : Nat) : Word := BitVec.ofNat 64 (2 ^ 63 + n % 512 * 2 ^ 54 + s % 64 * 2 ^ 48 + m % 2 ^ 47)

/-- Coefficient i of a packed value (R308). -/
def coeff (v : Int) (n s i : Nat) : Int :=
  if i ≥ n then 0
  else
    let u := if i = 0 then v else (v + 2 ^ (s * i - 1)) / 2 ^ (s * i)
    signExt s (u % (2 ^ s : Nat)).toNat

def WReg.coeff (w : WReg) (i : Nat) : Int := Sys2Proof.Machine.coeff w.bits.toInt (descN w.desc) (descS w.desc) i
def WReg.coeffs (w : WReg) : List Int := (List.range (descN w.desc)).map w.coeff

/-- The largest magnitude of a list. -/
def maxAbs (l : List Int) : Nat := l.foldl (fun m c => Nat.max m c.natAbs) 0

/-- The invariants of R307, with every coefficient within the bound: what `unpark` asks of a valid descriptor. -/
def WReg.ok (w : WReg) : Bool :=
  let n := descN w.desc
  let s := descS w.desc
  !descValid w.desc ||
    (decide (4 ≤ s) && decide (s ≤ 48) && decide (1 ≤ n) && decide (n ≤ 256) && decide (n * s ≤ 1024)
      && decide (descM w.desc ≤ 2 ^ (s - 1) - 1)
      && decide (w.bits.toInt.natAbs < 2 ^ (n * s - 1)) && decide (maxAbs w.coeffs ≤ descM w.desc))

/-! Tufts (R105 to R111). -/

/-- The positions of the legal Tuft of a size that holds a position (R105). -/
def tuftPositions (size pos : Nat) : List Nat :=
  if size = 2 then [pos / 2 * 2, pos / 2 * 2 + 1]
  else
    let x := pos % 4 / 2 * 2
    [x, x + 1, x + 4, x + 5]

/-- The sites of the Tuft of a size around a site within a record, in order of Tuft index. -/
def Rec.tuftSites (r : Rec) (size site : Nat) : List Nat :=
  (tuftPositions size (positionOf site)).filterMap fun p =>
    r.place.find? fun x => decide (clusterOf x = clusterOf site) && decide (positionOf x = p)

/-- The sites of the Tuft that a core is a member of. -/
def State.tuftOf (s : State) (site : Nat) : List Nat :=
  match (s.coreAt site).recId with
  | some rid => (s.recAt rid).tuftSites (s.coreAt site).tuftSize site
  | none => [site]

/-- Dissolves a Tuft (R107). -/
def State.dissolve (s : State) (site : Nat) : State :=
  (s.tuftOf site).foldl (fun t x =>
    let c := t.coreAt x
    t.setCore x { c.setCtx 0 { c.ctxAt 0 with held := false } with tuft := false, leader := false, tidx := 0, tuftSize := 0 }) s

/-- The rank of a site in a list. -/
def rankOf (site : Nat) : List Nat → Nat
  | [] => 0
  | x :: t => if x = site then 0 else rankOf site t + 1

/-- A member leaves `tuft`: its index, and the address after the leader's `tuft` (R106). -/
def leaveWith (d : BitVec 5) : Op Unit := do
  let s ← get
  let leader := (s.tuftOf s.site).headD s.site
  let lc := s.coreAt leader
  let lpc := (lc.ctxAt 0).pc
  modCore fun c => { c with tuftAsk := none }
  wrS d (BitVec.ofNat 64 s.core.tidx)
  jump (if leader = s.site || lc.tuftAsk.isSome then lpc + 4 else lpc)

/-- A member that has waited leaves `tuft`: its size field is read in the instruction that retires, so that a port which it
names pops once (R37). -/
def tuftLeave (d a : BitVec 5) : Op Unit := do
  let _ ← rdS a
  leaveWith d

/-- `tuft` (R106). -/
def tuftBody (d a : BitVec 5) : Op Unit := do
  notInMiss
  let s ← get
  let c := s.core
  match c.tuftFail with
  | some code =>
    modCore fun c => { c with tuftFail := none, tuftAsk := none }
    raise .gang (BitVec.ofNat 64 code)
  | none =>
    if c.tuft && c.tuftAsk.isSome then tuftLeave d a
    else
      require (decide (c.ctxNo = 0)) .illegal 0
      require (!c.tuft) .gang 3
      let size ← rdS a
      require (decide (size = 2) || decide (size = 4)) .gang 2
      require ((List.range 11).all fun n => n = 0 || decide ((c.ctxAt n).st = .free)) .gang 4
      let ms := s.ownRec.tuftSites size.toNat s.site
      require (decide (ms.length = size.toNat) && ms.all fun m =>
        !s.fused.contains m && decide ((s.coreAt m).recId = c.recId) && !(s.coreAt m).halted
          && (!(s.coreAt m).tuft)) .gang 1
      modCore fun c => { c with tuftAsk := some size }
      let s ← get
      let asks := ms.map fun m => (s.coreAt m).tuftAsk
      if asks.all fun x => x.isSome then
        if asks.all fun x => decide (x = some size) then
          for m in ms do
            modCoreAt m fun k => { k with tuft := true, leader := decide (rankOf m ms = 0), tidx := rankOf m ms, tuftSize := size.toNat }
          leaveWith d
        else
          for m in ms do
            if m ≠ s.site then modCoreAt m fun k => { k with tuftFail := some 2 }
          modCore fun k => { k with tuftAsk := none }
          raise .gang 2
      else waitKeep

def execTuft (d a : BitVec 5) (s : State) : Host.Outcome State Fault Refusal := runInstr (.tuft d a) (tuftBody d a) s

/-- `split` (R107): the Tuft dissolves; outside a Tuft it has no effect. -/
def execSplit (s : State) : Host.Outcome State Fault Refusal :=
  runInstr .split (do
    notInMiss
    if (← getCore).tuft then modify fun s => s.dissolve s.site) s

end Sys2Proof.Machine
end

