-- ==== Sys2Proof/Machine/Float.lean ====
section
/-! DEFINITION. Float: exact values, rounding, and the conversions between formats (R218 to R233). A finite value is a
sign, a whole number m and an exponent e, standing for m * 2^e; a result that is not such a number is given by the m
below it and a mark that something is left over. -/

namespace Sys2Proof.Machine

/-! Flags, in the order of `fpctl`[12:8] (R92). -/
def fNV : Nat := 1
def fDZ : Nat := 2
def fOF : Nat := 4
def fUF : Nat := 8
def fNX : Nat := 16

/-- A floating format (R218): exponent bits, fraction bits, zero bits below the fraction (E8M10 in an F32 lane). -/
structure FFmt where
  ebits : Nat
  fbits : Nat
  low : Nat := 0
  deriving DecidableEq, Repr

def F16 : FFmt := { ebits := 5, fbits := 10 }
def BF16 : FFmt := { ebits := 8, fbits := 7 }
def F32 : FFmt := { ebits := 8, fbits := 23 }
def F64 : FFmt := { ebits := 11, fbits := 52 }
def E8M10 : FFmt := { ebits := 8, fbits := 10, low := 13 }

def FFmt.bias (f : FFmt) : Nat := 2 ^ (f.ebits - 1) - 1
def FFmt.width (f : FFmt) : Nat := 1 + f.ebits + f.fbits + f.low
def FFmt.emin (f : FFmt) : Int := 1 - f.bias
def FFmt.ones (f : FFmt) : Nat := 2 ^ f.ebits - 1

/-- A value: a NaN with sign, quietness and its payload below the quiet bit, aligned to 51 bits; an infinity; or a
finite number. -/
inductive Val where
  | nan (neg signalling : Bool) (payload : Nat)
  | inf (neg : Bool)
  | fin (neg : Bool) (m : Nat) (e : Int)
  deriving DecidableEq, Repr

def Val.isNan : Val → Bool
  | .nan .. => true
  | _ => false
def Val.isSig : Val → Bool
  | .nan _ s _ => s
  | _ => false
def Val.isZero : Val → Bool
  | .fin _ m _ => m = 0
  | _ => false
def Val.neg : Val → Bool
  | .nan n _ _ => n
  | .inf n => n
  | .fin n _ _ => n

/-- Reads an encoding (R218, R219). -/
def FFmt.decode (f : FFmt) (bits : Nat) : Val :=
  let b := bits / 2 ^ f.low
  let frac := b % 2 ^ f.fbits
  let ex := b / 2 ^ f.fbits % 2 ^ f.ebits
  let neg := b / 2 ^ (f.fbits + f.ebits) % 2 = 1
  if ex = f.ones then
    if frac = 0 then .inf neg
    else .nan neg (frac / 2 ^ (f.fbits - 1) = 0) (frac % 2 ^ (f.fbits - 1) * 2 ^ (52 - f.fbits))
  else if ex = 0 then .fin neg frac (f.emin - f.fbits)
  else .fin neg (2 ^ f.fbits + frac) ((ex : Int) - f.bias - f.fbits)

/-- Assembles an encoding. -/
def FFmt.pack (f : FFmt) (neg : Bool) (ex frac : Nat) : Nat :=
  ((if neg then 2 ^ (f.ebits + f.fbits) else 0) + ex * 2 ^ f.fbits + frac) * 2 ^ f.low

def FFmt.infBits (f : FFmt) (neg : Bool) : Nat := f.pack neg f.ones 0
def FFmt.maxBits (f : FFmt) (neg : Bool) : Nat := f.pack neg (f.ones - 1) (2 ^ f.fbits - 1)
def FFmt.nanBits (f : FFmt) : Nat := f.pack false f.ones (2 ^ (f.fbits - 1))

/-- A NaN made of a NaN (R219). -/
def FFmt.quiet (f : FFmt) (neg : Bool) (payload : Nat) : Nat :=
  f.pack neg f.ones (2 ^ (f.fbits - 1) + payload / 2 ^ (52 - f.fbits))

/-- Whether a magnitude between n and n + 1 is rounded up (R228, R230): `rem` of `den` is left over, `more` a remainder
below that; `r` is the draw of STOCH. -/
def roundsUp (mode : Nat) (neg : Bool) (n rem den : Nat) (more : Bool) (r : Nat) : Bool :=
  let inexact := decide (rem ≠ 0) || more
  if mode = 0 then decide (2 * rem > den) || (decide (2 * rem = den) && (more || decide (n % 2 = 1)))
  else if mode = 1 then false
  else if mode = 2 then neg && inexact
  else if mode = 3 then !neg && inexact
  else if mode = 4 then decide (2 * rem ≥ den)
  else decide (r < rem * 2 ^ 24 / den)

/-- A magnitude m * 2^e cut at the quantum 2^q: the whole part and what is left over it. -/
def cutAt (m : Nat) (e q : Int) : Nat × Nat × Nat :=
  if q ≤ e then (m * 2 ^ (e - q).toNat, 0, 1)
  else
    let k := (q - e).toNat
    (m / 2 ^ k, m % 2 ^ k, 2 ^ k)

/-- `RoundTo` a floating format (R228, R229): the encoding and the flags. An inexact tiny result sets `UF` beside `NX`, as
R229 gives, though the cells of R233 for inexact results name `NX` alone (log entry 113). -/
def FFmt.round (f : FFmt) (mode : Nat) (neg : Bool) (m : Nat) (e : Int) (more : Bool) (r : Nat) : Nat × Nat :=
  if m = 0 then
    if more then
      let up := roundsUp mode neg 0 0 1 true r
      (f.pack neg 0 (if up then 1 else 0), fUF + fNX)
    else (f.pack neg 0 0, 0)
  else
    let top : Int := (Nat.log2 m : Int) + e
    let q := max (top - f.fbits) (f.emin - f.fbits)
    let (n, rem, den) := cutAt m e q
    let inexact := decide (rem ≠ 0) || more
    let n' := if roundsUp mode neg n rem den more r then n + 1 else n
    let (n2, q2) := if n' = 2 ^ (f.fbits + 1) then (2 ^ f.fbits, q + 1) else (n', q)
    if n2 ≥ 2 ^ f.fbits ∧ q2 + f.fbits > f.bias then
      let big := if mode = 1 then f.maxBits neg
        else if mode = 2 then (if neg then f.infBits neg else f.maxBits neg)
        else if mode = 3 then (if neg then f.maxBits neg else f.infBits neg)
        else f.infBits neg
      (big, fOF + fNX)
    else
      let bits := if n2 < 2 ^ f.fbits then f.pack neg 0 n2
        else f.pack neg (q2 + f.fbits + f.bias).toNat (n2 - 2 ^ f.fbits)
      let tiny :=
        if top ≥ f.emin then false
        else if top < f.emin - 1 then true
        else
          let (u, urem, uden) := cutAt m e (top - f.fbits)
          let u' := if roundsUp mode neg u urem uden more r then u + 1 else u
          decide (u' < 2 ^ (f.fbits + 1))
      (bits, if inexact then fNX + (if tiny then fUF else 0) else 0)

/-- A value in a floating format (R233). -/
def FFmt.ofVal (f : FFmt) (mode : Nat) (v : Val) (r : Nat) : Nat × Nat :=
  match v with
  | .nan n s p => (f.quiet n p, if s then fNV else 0)
  | .inf n => (f.infBits n, 0)
  | .fin n m e => f.round mode n m e false r

/-- A value rounded to an integer in [lo, hi], saturating (R228, R233). -/
def intOfVal (lo hi : Int) (mode : Nat) (v : Val) (r : Nat) : Int × Nat :=
  match v with
  | .nan .. => (0, fNV)
  | .inf n => (if n then lo else hi, fNV)
  | .fin n m e =>
    let (k, rem, den) := cutAt m e 0
    let k' := if roundsUp mode n k rem den false r then k + 1 else k
    let x : Int := if n then -(k' : Int) else k'
    if x < lo then (lo, fNV) else if x > hi then (hi, fNV)
    else (x, if rem ≠ 0 then fNX else 0)

/-- An integer as a value. -/
def Val.ofInt (x : Int) : Val := .fin (decide (x < 0)) x.natAbs 0

/-- A value times a power of two. -/
def Val.scale (v : Val) (k : Int) : Val :=
  match v with
  | .fin n m e => .fin n m (e + k)
  | x => x

/-- The value of a scale byte's exponent (R222). -/
def scaleExp (s : Nat) : Int := (s : Int) - 127

/-! Exact arithmetic. -/

/-- The signed mantissa of a finite number at a lower exponent. -/
def atExp (neg : Bool) (m : Nat) (e q : Int) : Int :=
  let x := (m * 2 ^ (e - q).toNat : Nat)
  if neg then -(x : Int) else x

/-- Sum of two finite numbers: sign, magnitude, exponent, with the sign of an exact zero for a rounding mode
(R250). -/
def addFin (mode : Nat) (n1 : Bool) (m1 : Nat) (e1 : Int) (n2 : Bool) (m2 : Nat) (e2 : Int) : Val :=
  let q := min e1 e2
  let x := atExp n1 m1 e1 q + atExp n2 m2 e2 q
  if x = 0 then
    if m1 = 0 ∧ m2 = 0 ∧ n1 = n2 then .fin n1 0 q
    else .fin (decide (mode = 2)) 0 q
  else .fin (decide (x < 0)) x.natAbs q

/-- The order of two numbers that are not NaNs, −0 below +0 when `zeros` is set (R191). -/
def Val.lt (zeros : Bool) (a b : Val) : Bool :=
  match a, b with
  | .nan .., _ => false
  | _, .nan .. => false
  | .inf n, .inf k => n && !k
  | .inf n, .fin .. => n
  | .fin .., .inf k => !k
  | .fin n1 m1 e1, .fin n2 m2 e2 =>
    let q := min e1 e2
    let x := atExp n1 m1 e1 q
    let y := atExp n2 m2 e2 q
    decide (x < y) || (zeros && decide (m1 = 0) && decide (m2 = 0) && n1 && !n2)

/-- Equality of two numbers, −0 = +0. -/
def Val.eq (a b : Val) : Bool :=
  match a, b with
  | .inf n, .inf k => n = k
  | .fin n1 m1 e1, .fin n2 m2 e2 =>
    let q := min e1 e2
    decide (atExp n1 m1 e1 q = atExp n2 m2 e2 q)
  | _, _ => false

/-! Stochastic rounding (R231). -/

def mixH (z0 : Nat) : Nat :=
  let z1 := ((z0 ^^^ (z0 / 2 ^ 29)) * 0x9E6D52B1C4F30A87) % 2 ^ 64
  let z2 := ((z1 ^^^ (z1 / 2 ^ 31)) * 0xD1B34C5E8F27A693) % 2 ^ 64
  let z3 := ((z2 ^^^ (z2 / 2 ^ 27)) * 0xB5E92D74C1A83F5D) % 2 ^ 64
  z3 ^^^ (z3 / 2 ^ 33)

/-- The draw at a counter value for a job seed, logical core and context number. -/
def drawAt (seed lcore ctx ctr : Nat) : Nat :=
  let k := mixH (seed ^^^ (lcore * 16 + ctx))
  mixH ((ctr + k) % 2 ^ 64) / 2 ^ 40

/-- The context number of the generator: 11 in the trap shadow, 12 in the miss shadow. -/
def Core.drawCtx (c : Core) : Nat := c.act

/-- The draw number `i` after the present counter, for the executing context. -/
def State.draw (s : State) (i : Nat) : Nat :=
  let x := s.ctx
  drawAt x.jobseed.toNat x.lcore.toNat s.core.drawCtx (x.srctr.toNat + i)

/-- Adds flags to `fpctl` and moves the counter on by the draws taken (R232, R246). -/
def noteFp (flags draws : Nat) : Op Unit :=
  modCtx fun x => { x with
    fpctl := x.fpctl ||| BitVec.ofNat 64 (flags * 256)
    srctr := x.srctr + BitVec.ofNat 64 draws }

/-- `fpctl.RM`. -/
def Context.rm (x : Context) : Nat := bitsOf x.fpctl 0 3

/-! Decode tables (R223 to R227). -/

/-- Entry of a shipped 8-bit table with exponent and fraction widths. -/
def tableFloat (neg : Bool) (e m fb bias : Nat) : Nat :=
  let v : Val := if e = 0 then .fin neg m (1 - (bias : Int) - fb) else .fin neg (2 ^ fb + m) ((e : Int) - bias - fb)
  (E8M10.ofVal 0 v 0).1

def shipped0 (c : Nat) : BitVec 32 :=
  let neg := decide (c ≥ 128)
  let e := c / 8 % 16
  let m := c % 8
  BitVec.ofNat 32 (if e = 15 ∧ m = 7 then E8M10.quiet neg 0 else tableFloat neg e m 3 7)

def shipped1 (c : Nat) : BitVec 32 :=
  let neg := decide (c ≥ 128)
  let e := c / 4 % 32
  let m := c % 4
  BitVec.ofNat 32 (if e = 31 then (if m = 0 then E8M10.infBits neg else E8M10.quiet neg 0) else tableFloat neg e m 2 15)

def shipped2 : List (BitVec 32) :=
  [0x00000000, 0x3F000000, 0x3F800000, 0x3FC00000, 0x40000000, 0x40400000, 0x40800000, 0x40C00000]

def shipped3 : List (BitVec 32) :=
  [0x00000000, 0x3D800000, 0x3E000000, 0x3E800000, 0x3EC00000, 0x3F000000, 0x3F400000, 0x3F800000]

/-- The shipped table of a slot. -/
def shippedTable (t : Nat) : List (BitVec 32) :=
  if t = 0 then (List.range 256).map shipped0
  else if t = 1 then (List.range 256).map shipped1
  else
    let l := if t = 2 then shipped2 else shipped3
    l ++ l.map fun x => x ||| 0x80000000#32

/-- The table in a slot of a core. -/
def Core.table (c : Core) (t : Nat) : List (BitVec 32) := c.dt[t]?.getD []

/-- The value of an entry. -/
def entryVal (t : List (BitVec 32)) (c : Nat) : Val := F32.decode (t.getD c 0).toNat

/-- An entry as it stands, scaled (R233, R236): NaN and infinity entries as stored, others times 2^k rounded to a
format. An overflow sets its flags (R229); a scaled underflow sets none. -/
def decodeEntry (f : FFmt) (t : List (BitVec 32)) (c : Nat) (k : Int) : Nat × Nat :=
  match entryVal t c with
  | .fin n m e =>
    let r := f.round 0 n m (e + k) false 0
    (r.1, if r.2.testBit 2 then r.2 else 0)
  | _ => ((t.getD c 0).toNat, 0)

/-- Position of the first entry of a half that satisfies a test. -/
def firstCode (t : List (BitVec 32)) (start : Nat) (p : Val → Bool) : Nat → Option Nat
  | 0 => none
  | n + 1 => if p (entryVal t start) then some start else firstCode t (start + 1) p n

/-- The magnitude order of finite values. -/
def magLe (m1 : Nat) (e1 : Int) (m2 : Nat) (e2 : Int) : Bool :=
  let q := min e1 e2
  decide (atExp false m1 e1 q ≤ atExp false m2 e2 q)

/-- Finite codes of a half, in rising magnitude (R224). -/
def finiteCodes (t : List (BitVec 32)) (h : Bool) : List Nat :=
  let n := t.length / 2
  ((List.range n).map fun i => if h then n + i else i).filter fun c => match entryVal t c with | .fin .. => true | _ => false

/-- Chooses between the adjacent codes of a magnitude (R237). -/
def pickCode (t : List (BitVec 32)) (mode : Nat) (neg : Bool) (m : Nat) (e : Int) (r : Nat) : List Nat → Nat × Nat
  | [] => (0, fNV)
  | [c] =>
    match entryVal t c with
    | .fin _ m1 e1 => if magLe m e m1 e1 then (c, 0) else (c, fOF + fNX)
    | _ => (c, 0)
  | c :: d :: rest =>
    match entryVal t c, entryVal t d with
    | .fin _ m1 e1, .fin _ m2 e2 =>
      if magLe m e m1 e1 then (c, 0)
      else if magLe m e m2 e2 then
        if magLe m2 e2 m e then (d, 0)
        else
          let q := min e (min e1 e2)
          let lo := atExp false m1 e1 q
          let hi := atExp false m2 e2 q
          let x := atExp false m e q
          let up := if mode = 0 then decide (2 * (x - lo) > hi - lo) || (decide (2 * (x - lo) = hi - lo) && decide (c % 2 = 1))
            else roundsUp mode neg 0 (x - lo).toNat (hi - lo).toNat false r
          let code := if up then d else c
          (code, fNX + (if (entryVal t code).isZero then fUF else 0))
      else pickCode t mode neg m e r (d :: rest)
    | _, _ => (c, 0)

/-- The code of a value in a table (R233, R237). -/
def codeOfVal (t : List (BitVec 32)) (mode : Nat) (v : Val) (r : Nat) : Nat × Nat :=
  let h := t.length / 2
  let start := if v.neg then h else 0
  let largest := (finiteCodes t v.neg).getLastD start
  match v with
  | .nan _ s _ =>
    match firstCode t start Val.isNan h with
    | some c => (c, if s then fNV else 0)
    | none => (0, fNV)
  | .inf _ =>
    match firstCode t start (fun x => match x with | .inf _ => true | _ => false) h with
    | some c => (c, 0)
    | none => (largest, fNV)
  | .fin n m e =>
    if m = 0 then (if n && decide (t.getD h 0 ≠ 0) then h else 0, 0)
    else pickCode t mode n m e r (finiteCodes t n)

/-- A half of a table is in order (R224): index of the first offending entry of the half, from code c on; `prev` is the
last finite magnitude, `st` 0 while finite, 1 after an infinity, 2 after a NaN. -/
def halfBad (neg : Bool) : List (BitVec 32) → Nat → Nat → Nat × Int → Option Nat
  | [], _, _, _ => none
  | x :: t, i, st, prev =>
    let low := x.toNat % 8192 ≠ 0
    match F32.decode x.toNat with
    | .nan .. => if low || i = 0 then some i else halfBad neg t (i + 1) 2 prev
    | .inf n => if low || i = 0 || st ≠ 0 || n ≠ neg then some i else halfBad neg t (i + 1) 1 prev
    | .fin n m e =>
      if low then some i
      else if i = 0 then (if m = 0 then halfBad neg t 1 0 (m, e) else some i)
      else if st ≠ 0 || n ≠ neg || magLe m e prev.1 prev.2 then some i
      else halfBad neg t (i + 1) 0 (m, e)

/-- The first offending entry of a table, if it is not valid (R224). -/
def tableBad (t : List (BitVec 32)) : Option Nat :=
  let h := t.length / 2
  match halfBad false (t.take h) 0 0 (0, 0) with
  | some i => some i
  | none => (halfBad true (t.drop h) 0 0 (0, 0)).map (· + h)

/-- The largest finite positive entry of a table. -/
def largestFinite (t : List (BitVec 32)) : Option (BitVec 32) :=
  ((finiteCodes t false).filter fun c => !(entryVal t c).isZero && !(entryVal t c).neg).getLast?.map fun c => t.getD c 0

end Sys2Proof.Machine
end

