-- ==== Sys2Proof/Machine/VecBase.lean ====
section
/-! DEFINITION. VecBase: elements of vector registers (R35, R243) and the streams tied to them (R262 to R266). -/

namespace Sys2Proof.Machine

/-- Element i of width w. -/
def elemOf (v : VWord) (w i : Nat) : Nat := v.toNat / 2 ^ (w * i) % 2 ^ w

/-- The number whose element i of width w is f i, for i below n. -/
def packElems (w : Nat) (f : Nat → Nat) : Nat → Nat
  | 0 => 0
  | n + 1 => packElems w f n + f n % 2 ^ w * 2 ^ (w * n)

/-- The vector whose elements of width w are f 0, f 1, …. -/
def mkVec (w : Nat) (f : Nat → Nat) : VWord := BitVec.ofNat 1024 (packElems w f (1024 / w))

/-- Element i is active under a predicate (R35). -/
def active (p : PWord) (w i : Nat) : Bool := p.getLsbD (i * (w / 8))

/-- The active elements of width w among the first n. -/
def activeList (p : PWord) (w n : Nat) : List Nat := (List.range n).filter fun i => active p w i

/-- A vector with its active elements replaced. -/
def mergeVec (old : VWord) (p : PWord) (w : Nat) (f : Nat → Nat) : VWord :=
  mkVec w fun i => if active p w i then f i else elemOf old w i

/-- Element width of a code (R43). -/
def widthOf (code : Nat) : Nat := 8 * 2 ^ code

/-! Streams. -/

def Stream.width (x : Stream) : Nat := widthOf x.wcode
def Stream.ext (x : Stream) (j : Nat) : Nat := x.n.getD j 1
def Stream.stride (x : Stream) (j : Nat) : Int := x.st.getD j 0
def Stream.total (x : Stream) : Nat := x.ext 0 * x.ext 1 * x.ext 2 * x.ext 3

/-- The offset of element number i of the walk (R265). -/
def Stream.offset (x : Stream) (i : Nat) : Int :=
  let c0 := i % x.ext 0
  let i1 := i / x.ext 0
  let c1 := i1 % x.ext 1
  let i2 := i1 / x.ext 1
  let c2 := i2 % x.ext 2
  let c3 := i2 / x.ext 2
  (x.base : Int) + (x.width / 8 : Nat) * (c0 * x.stride 0 + c1 * x.stride 1 + c2 * x.stride 2 + c3 * x.stride 3)

/-- Elements of the piece that begins at element `pos` (R265). -/
def Stream.piece (x : Stream) (pos : Nat) : Nat := Nat.min (1024 / x.width) (x.ext 0 - pos % x.ext 0)

/-- The value of an element that has been fetched ahead for a context (R268). -/
def Stream.ahead (x : Stream) (i ctx : Nat) : Option Nat :=
  (x.buf.find? fun e => decide (e.1 = i) && decide (e.2.1 = ctx)).map (·.2.2)

def Core.stream (c : Core) (k : Nat) : Stream := c.streams[k]?.getD {}
def setStream (k : Nat) (x : Stream) : Op Unit := modCore fun c => { c with streams := c.streams.setIfInBounds k x }

/-- The ILLEGAL of the instruction under way with its own word as value (R391). -/
def illegalWord {α : Type} : Op α := do raise .illegal (← get).tx.word

/-- Reads a vector register as a source: a running read stream pops a piece (R266). -/
def rdV (r : BitVec 5) : Op VWord := do
  let s ← get
  let raw := s.core.vreg r.toNat
  if r.toNat < 24 then return raw
  let k := r.toNat - 24
  let x := s.core.stream k
  if !x.run || x.dir then return raw
  let pos := x.pos + ((s.tx.spops.filter fun e => decide (e.1 = k)).map fun e => e.2.1).sum
  require (decide (pos < x.total)) .bounds (BitVec.ofNat 64 k)
  let g := x.piece pos
  let b := x.width / 8
  for j in List.range g do
    if (x.ahead (pos + j) s.core.act).isNone then
      if s.readPoisoned s.me x.loc (x.offset (pos + j)).toNat b then raise .poison (toWord (x.offset (pos + j)))
      awaitReds x.loc (x.offset (pos + j)).toNat b
  let elem := fun (j : Nat) => match x.ahead (pos + j) s.core.act with
    | some e => e
    | none => ofBytes (s.readBody s.me x.loc (x.offset (pos + j)).toNat b)
  let v := BitVec.ofNat 1024 (packElems x.width elem g)
  modTx fun t => { t with spops := t.spops ++ [(k, g, v)] }
  return v

/-- A vector register may be a destination: a running read stream may not (R266), and a write stream must have an
element left to push. -/
def checkVd (r : BitVec 5) : Op Unit := do
  if r.toNat ≥ 24 then
    let x := (← getCore).stream (r.toNat - 24)
    if x.run && !x.dir then illegalWord
    if x.run && x.dir then require (decide (x.pos < x.total)) .bounds (BitVec.ofNat 64 (r.toNat - 24))

/-- Pushes the elements of a piece to a write stream (R266). -/
def pushPiece (k : Nat) (v : VWord) : Op Unit := do
  let x := (← getCore).stream k
  let g := x.piece x.pos
  let b := x.width / 8
  for j in List.range g do awaitReds x.loc (x.offset (x.pos + j)).toNat b
  modify fun s => (List.range g).foldl (fun t j => t.putObj x.loc (x.offset (x.pos + j)).toNat (leBytes (elemOf v x.width j) b)) s
  setStream k { x with pos := x.pos + g }

/-- Writes a vector register: a running write stream pushes the result's elements (R266). -/
def wrV (r : BitVec 5) (v : VWord) : Op Unit := do
  checkVd r
  wrVraw r.toNat v
  if r.toNat ≥ 24 then
    let x := (← getCore).stream (r.toNat - 24)
    if x.run && x.dir then pushPiece (r.toNat - 24) v

/-- The old value of a destination register. -/
def oldV (r : BitVec 5) : Op VWord := return (← getCore).vreg r.toNat

/-- A register of a running stream may not be named here (R266). -/
def noStream (r : BitVec 5) : Op Unit := do
  if r.toNat ≥ 24 then
    if ((← getCore).stream (r.toNat - 24)).run then illegalWord

/-- Writes a floating result: active elements of width w take the given bits, the flags join `fpctl`, and under STOCH
each active element took one draw (R246). -/
def wrVfp (d : BitVec 5) (p : PWord) (w n mode : Nat) (f : Nat → Nat × Nat) : Op Unit := do
  checkVd d
  let old ← oldV d
  let act := activeList p w n
  let flags := act.foldl (fun a i => a ||| (f i).2) 0
  wrV d (mergeVec old p w fun i => if i < n then (f i).1 else elemOf old w i)
  noteFp flags (if mode = 5 then act.length else 0)

/-- The rank of element i among the active ones: its draw. -/
def drawRank (p : PWord) (w i : Nat) : Nat := (activeList p w i).length

/-- The prefix's extended function; 0 without one. -/
def fnX : Op Nat := do
  match (← getCtx).pfx with
  | .fn x => return x.toNat
  | _ => return 0

/-- The rounding mode of a rounding field (R234): `fpctl.RM` for 0. -/
def fnMode : Op Nat := do
  let x ← fnX
  let c ← getCtx
  return if x % 8 = 0 then c.rm else x % 8 - 1

end Sys2Proof.Machine
end

