-- ==== Sys2Proof/Machine/Formats.lean ====
section
/-! DEFINITION. Formats: the instructions of majors 0x28 and 0x29 (R234 to R242). -/

namespace Sys2Proof.Machine

/-- Value of an element under a conversion code (R235). -/
def cvtVal (code bits : Nat) : Val :=
  if code = 0 then .ofInt (signExt 8 bits) else if code = 1 then .ofInt bits
  else if code = 2 then .ofInt (signExt 16 bits) else if code = 3 then .ofInt bits
  else if code = 4 then .ofInt (signExt 32 bits) else if code = 5 then .ofInt bits
  else if code = 6 then .ofInt (signExt 64 bits)
  else if code = 7 then F16.decode bits else if code = 8 then BF16.decode bits
  else if code = 9 then F32.decode bits else F64.decode bits

/-- An integer result as an element of width w. -/
def intBits (w : Nat) (x : Int) : Nat := (x % (2 ^ w : Nat)).toNat

/-- A value under a target code (R233, R235): element bits and flags. -/
def cvtTo (code mode : Nat) (v : Val) (r : Nat) : Nat × Nat :=
  let int := fun (w : Nat) (lo hi : Int) => let x := intOfVal lo hi mode v r; (intBits w x.1, x.2)
  if code = 0 then int 8 (-128) 127 else if code = 1 then int 8 0 255
  else if code = 2 then int 16 (-32768) 32767 else if code = 3 then int 16 0 65535
  else if code = 4 then int 32 (-2147483648) 2147483647 else if code = 5 then int 32 0 4294967295
  else if code = 6 then int 64 (-9223372036854775808) 9223372036854775807
  else if code = 7 then F16.ofVal mode v r else if code = 8 then BF16.ofVal mode v r
  else if code = 9 then F32.ofVal mode v r else if code = 10 then F64.ofVal mode v r
  else E8M10.ofVal mode v r

/-- `cvt` (R235). -/
def execCvt (d a b : BitVec 5) (p : BitVec 3) (e : BitVec 2) (s : State) : Host.Outcome State Fault Refusal :=
  runInstr (.cvt d a b p e) (do
    let x ← fnX
    let sel := b.toNat * 4 + e.toNat
    let src := cvtSrc sel
    let dst := cvtDst sel
    let ws := cvtWidth src
    let wd := cvtWidth dst
    let w := Nat.max ws wd
    let n := 1024 / w
    let q := x / 8
    require (decide (q < cvtParts sel)) .illegal (BitVec.ofNat 64 q)
    let mode ← fnMode
    let pr ← rdP p.toNat
    let va ← rdV a
    let old ← oldV d
    checkVd d
    let s ← get
    let act := activeList pr w n
    let res := fun i => cvtTo dst mode (cvtVal src (elemOf va ws (if ws ≥ wd then i else q * n + i))) (s.draw (drawRank pr w i))
    let first := if ws ≥ wd then q * n else 0
    wrV d (mkVec wd fun o => if first ≤ o ∧ o < first + n ∧ active pr w (o - first) then (res (o - first)).1 else elemOf old wd o)
    noteFp (act.foldl (fun f i => f ||| (res i).2) 0) (if mode = 5 then act.length else 0)) s

/-- Bits per code and number of parts of a table (R236). -/
def codeBits (t : Nat) : Nat := if t ≤ 1 then 8 else 4
def codeParts (t : Nat) : Nat := if t ≤ 1 then 4 else 8

/-- `dec` (R236). -/
def execDec (d a b : BitVec 5) (p : BitVec 3) (t : BitVec 2) (s : State) : Host.Outcome State Fault Refusal :=
  runInstr (.dec d a b p t) (do
    let q := (← fnX) / 8
    let k := codeBits t.toNat
    require (decide (q < codeParts t.toNat)) .illegal (BitVec.ofNat 64 q)
    let pr ← rdP p.toNat
    let va ← rdV a
    let vb ← rdV b
    let table := (← getCore).table t.toNat
    wrVfp d pr 32 32 0 fun i =>
      let g := 32 * q + i
      let sc := elemOf vb 8 (g / 16)
      if sc = 255 then (0x7FC00000, 0) else decodeEntry E8M10 table (elemOf va k g) (scaleExp sc)) s

/-- `enc` (R237). -/
def execEnc (d a b : BitVec 5) (p : BitVec 3) (t : BitVec 2) (s : State) : Host.Outcome State Fault Refusal :=
  runInstr (.enc d a b p t) (do
    let q := (← fnX) / 8
    let k := codeBits t.toNat
    require (decide (q < codeParts t.toNat)) .illegal (BitVec.ofNat 64 q)
    let mode ← fnMode
    let pr ← rdP p.toNat
    let va ← rdV a
    let vb ← rdV b
    let old ← oldV d
    checkVd d
    let s ← get
    let table := s.core.table t.toNat
    let act := activeList pr 32 32
    let res := fun i =>
      let sc := elemOf vb 8 ((32 * q + i) / 16)
      let v := F32.decode (elemOf va 32 i)
      let y := if sc = 255 then Val.nan v.neg v.isSig 0 else v.scale (-(scaleExp sc))
      codeOfVal table mode y (s.draw (drawRank pr 32 i))
    wrV d (mkVec k fun o => if 32 * q ≤ o ∧ o < 32 * q + 32 ∧ active pr 32 (o - 32 * q) then (res (o - 32 * q)).1 else elemOf old k o)
    noteFp (act.foldl (fun f i => f ||| (res i).2) 0) (if mode = 5 then act.length else 0)) s

/-- floor(log2) of a finite nonzero magnitude. -/
def floorLog2 (m : Nat) (e : Int) : Int := (Nat.log2 m : Int) + e

/-- E(T) of a `bscale` target (R238). -/
def scaleTop (c : Core) (tgt : Nat) : Int :=
  if tgt = 0 then 6 else if tgt = 1 then 2
  else match largestFinite (c.table (tgt - 2)) with
    | some x => (match F32.decode x.toNat with | .fin _ m e => floorLog2 m e | _ => 0)
    | none => 0

/-- The scale byte of the active lanes of one block, none when it has none (R238). -/
def blockScale (et : Int) (pr : PWord) (va : VWord) (blk : Nat) : Option Nat :=
  let lanes := ((List.range 16).map fun i => 16 * blk + i).filter fun i => active pr 32 i
  let vals := lanes.map fun i => F32.decode (elemOf va 32 i)
  if lanes = [] then none
  else if vals.any Val.isNan then some 255
  else
    let tops := vals.filterMap fun v => match v with | .fin _ m e => if m = 0 then none else some (floorLog2 m e) | _ => none
    match tops with
    | [] => some 127
    | t :: ts => some (min (max (ts.foldl max t - et + 127) 0) 254).toNat

/-- Writes the bytes of the blocks that have an active lane. -/
def putScales (old : VWord) (q : Nat) (b0 b1 : Option Nat) : VWord :=
  mkVec 8 fun i => if i = 2 * q then b0.getD (elemOf old 8 i) else if i = 2 * q + 1 then b1.getD (elemOf old 8 i) else elemOf old 8 i

/-- `bscale` (R238). -/
def execBscale (d a b : BitVec 5) (p : BitVec 3) (s : State) : Host.Outcome State Fault Refusal :=
  runInstr (.bscale d a b p) (do
    let q := (← fnX) / 8
    let pr ← rdP p.toNat
    let va ← rdV a
    let et := scaleTop (← getCore) b.toNat
    let old ← oldV d
    wrV d (putScales old q (blockScale et pr va 0) (blockScale et pr va 1))) s

/-- The object format that goes with a `bscale` target. -/
def scaleFmt (tgt : Nat) : Nat := if tgt = 0 then 1 else if tgt = 1 then 16 else tgt + 10

/-- `bscale` with an object (R238). -/
def execBscaleObject (d a b : BitVec 5) (p : BitVec 3) (e : BitVec 5) (s : State) : Host.Outcome State Fault Refusal :=
  runInstr (.bscaleObject d a b p e) (do
    let pr ← rdP p.toNat
    let va ← rdV a
    checkVd d
    let o ← touch e.toNat
    let r ← rdA e.toNat
    let f := r.sh.fmt.toNat
    require (decide (r.sh.typ.toNat = tDATA) && decide (r.sh.blog = 4) && decide (f = scaleFmt b.toNat)) .type r.ptr
    let el := r.cur.toNat * 8 / fmtBits f
    require (decide (el % 16 = 0)) .misalign (r.cur.setWidth 64)
    let k := el / 16
    require (decide (k + 1 < scaleBytes f 4 r.sh.len.toNat)) .bounds (BitVec.ofNat 64 k)
    let l ← (match o with | some l => pure l | none => raise .type (r.cur.setWidth 64) : Op Loc)
    awaitReds l (r.sh.len.toNat + k) 2
    let et := scaleTop (← getCore) b.toNat
    let b0 := blockScale et pr va 0
    let b1 := blockScale et pr va 1
    let old ← oldV d
    wrV d (putScales old 0 b0 b1)
    let put := fun (o : Option Nat) (i : Nat) => match o with
      | some x => modify fun s => s.putObj l (r.sh.len.toNat + k + i) [BitVec.ofNat 8 x]
      | none => pure ()
    put b0 0
    put b1 1
    noteWatch (canonOf r.ptr ((← get).hdr l))) s

/-- `dtld` (R240). -/
def execDtld (d : BitVec 5) (a : BitVec 4) (b : BitVec 5) (s : State) : Host.Outcome State Fault Refusal :=
  runInstr (.dtld d a b) (do
    let t ← rdS b
    require (decide (t.toNat < 4)) .illegal t
    let n := if t.toNat ≤ 1 then 256 else 16
    let l ← touch a.toNat
    let r ← rdA a.toNat
    let f := r.sh.fmt.toNat
    require (decide (r.sh.typ.toNat = tDATA) && (f = 0 || f = 6 || f = 10)) .type r.ptr
    let off := r.cur.toNat
    require (decide (off % 4 = 0)) .misalign (BitVec.ofNat 64 off)
    boundsCheck off (4 * n) r.sh.len.toNat
    match l with
    | none => raise .type (BitVec.ofNat 64 off)
    | some l =>
      awaitReds l off (4 * n)
      let s ← get
      if s.bodyPoisoned l off (4 * n) then raise .poison (BitVec.ofNat 64 off)
      let tab := (List.range n).map fun i => BitVec.ofNat 32 (ofBytes (s.bodyBytes l (off + 4 * i) 4))
      match tableBad tab with
      | some i => raise .type (BitVec.ofNat 64 i)
      | none =>
        modCore fun c => { c with dt := c.dt.setIfInBounds t.toNat tab }
        wrS d ((largestFinite tab).map (·.setWidth 64) |>.getD 0)) s

/-- `srseed` (R241). -/
def execSrseed (d a : BitVec 5) (s : State) : Host.Outcome State Fault Refusal :=
  runInstr (.srseed d a) (do
    let v ← rdS a
    let old := (← getCtx).srctr
    modCtx fun x => { x with srctr := BitVec.ofNat 64 (v.toNat % 2 ^ 32 * 2 ^ 32) }
    wrS d old) s

/-- The class mask of a value (R242). -/
def classMask (f : FFmt) (bits : Nat) : Nat :=
  match f.decode bits with
  | .nan _ sig _ => if sig then 2 ^ 8 else 2 ^ 9
  | .inf n => if n then 1 else 2 ^ 7
  | .fin n m e =>
    let sub := decide (m < 2 ^ f.fbits) && decide (e = f.emin - f.fbits)
    if m = 0 then (if n then 2 ^ 3 else 2 ^ 4)
    else if sub then (if n then 2 ^ 2 else 2 ^ 5)
    else if n then 2 else 2 ^ 6

/-- `fclass` (R242). -/
def execFclass (d a : BitVec 5) (f : BitVec 3) (s : State) : Host.Outcome State Fault Refusal :=
  runInstr (.fclass d a f) (do
    let v ← rdS a
    let fmt := if f = 0 then F16 else if f = 1 then BF16 else if f = 3 then F64 else F32
    let bits := v.toNat % 2 ^ fmt.width
    wrNat d (classMask fmt bits + (if f = 4 ∧ bits % 2 ^ 13 ≠ 0 then 2 ^ 10 else 0))) s

end Sys2Proof.Machine
end

