-- ==== Sys2Proof/Machine/Memory.lean ====
section
/-! DEFINITION. Memory: the object and memory access instructions (R137 to R152). -/

namespace Sys2Proof.Machine

/-- The kinds of access that R127 permits by type. -/
inductive ObjAccess where
  | ld | st | lda | sta | acq | rel
  deriving DecidableEq, Repr

/-- The types table of R127; `ms` is MSHADOW or PRIV, `priv` PRIV. -/
def typeAllows (typ : Nat) (k : ObjAccess) (ms priv : Bool) : Bool :=
  if typ = tDATA || typ = tSHAPES then k ≠ .lda && k ≠ .sta
  else if typ = tPTRS then k ≠ .st
  else if typ = tKVTABLE then ms && k ≠ .lda && k ≠ .sta
  else if typ = tRSTATE || typ = tCODE then k = .ld || k = .acq
  else if typ = tCTXBUF then priv
  else false

/-- R127 for the executing context. -/
def allowed (typ : Nat) (k : ObjAccess) : Op Bool := do
  let c ← getCore
  return typeAllows typ k (c.inMiss || c.isPriv) c.isPriv

/-- The size field of a scalar access fits the format (R128). -/
def sizeFits (fmt size : Nat) : Bool :=
  fmt = 0 || fmtBits fmt = 8 * 2 ^ size || (fmtBits fmt = 4 && size = 0)

/-- The displacement of an M-format instruction: 10 bits, or 34 under a `pfx imm` (R44). -/
def dispField (i : BitVec 10) : Op Int := do
  match (← getCtx).pfx with
  | .imm p => return signExt 34 (p.toNat * 1024 + i.toNat)
  | _ => return signExt 10 i.toNat

/-- The access offset: cursor plus n times index and displacement (R137). -/
def accessOffset (r : Nat) (x : BitVec 5) (i : BitVec 10) (n : Nat) : Op Int := do
  let k ← rdS x
  let disp ← dispField i
  return ((← rdA r).cur.toNat : Int) + n * k.toInt + n * disp

/-- The checks of R137 after the touch: type and size, bounds, alignment, poison. -/
def accessChecks (r : Nat) (l : Loc) (kind : ObjAccess) (size : Nat) (off : Int) : Op Unit := do
  let sh := (← rdA r).sh
  let n := 2 ^ size
  let ok ← allowed sh.typ.toNat kind
  require (ok && sizeFits sh.fmt.toNat size && (sh.typ.toNat ≠ tPTRS || size = 3)) .type (toWord off)
  boundsCheck off n (if kind = .ld then readLen sh.typ.toNat sh.len.toNat else sh.len.toNat)
  require (decide (off % n = 0)) .misalign (toWord off)
  let s ← get
  require (!s.readPoisoned s.me l off.toNat n) .poison (toWord off)
  awaitReds l off.toNat n

/-- Scale byte of the block that holds the element at a byte offset (R129). -/
def State.scaleAt (s : State) (l : Loc) (sh : Shadow) (off : Nat) : Nat :=
  if sh.blog = 0 then 127
  else ofBytes (s.bodyBytes l (sh.len.toNat + off * 8 / fmtBits sh.fmt.toNat / 2 ^ sh.blog.toNat) 1)

/-- An F32 as `ld` forms it from an integer element and its scale byte. -/
def scaledInt (x : Int) (sc : Nat) : Nat × Nat :=
  if sc = 255 then (F32.nanBits, 0) else F32.ofVal 0 ((Val.ofInt x).scale (scaleExp sc)) 0

/-- An F32 as `ld` forms it from a code and its scale byte: rounded once to F32, as R138 says of block-scaled values, where
the row of R233 for codes rounds at E8M10 (log entry 114). -/
def scaledCode (t : List (BitVec 32)) (c sc : Nat) : Nat × Nat :=
  if sc = 255 then (F32.nanBits, 0) else decodeEntry F32 t c (scaleExp sc)

/-- Decoding of a loaded element (R138): value and flags. `v` is the number of the n bytes, `blog` the block logarithm,
`sc` the scale byte. -/
def loadValue (c : Core) (f blog n v sc : Nat) : Nat × Nat :=
  let two := fun (g : Nat → Nat × Nat) =>
    let lo := g (v % 16)
    let hi := g (v / 16 % 16)
    (lo.1 + hi.1 * 2 ^ 32, lo.2 ||| hi.2)
  let sext := (intBits 64 (signExt (8 * n) v), 0)
  if f = 1 then (if blog = 0 then sext else scaledInt (signExt 8 v) sc)
  else if f = 3 ∨ f = 5 ∨ f = 7 then sext
  else if f = 8 then F32.ofVal 0 (F16.decode v) 0
  else if f = 9 then F32.ofVal 0 (BF16.decode v) 0
  else if f = 12 ∨ f = 13 then scaledCode (c.table (f - 12)) v sc
  else if f = 14 ∨ f = 15 then two fun x => scaledCode (c.table (f - 12)) x sc
  else if f = 16 then two fun x => if blog = 0 then (intBits 32 (signExt 4 x), 0) else scaledInt (signExt 4 x) sc
  else (v, 0)

/-- `ld` (R138). -/
def execLd (d : BitVec 5) (p : BitVec 4) (x : BitVec 5) (z : BitVec 2) (i : BitVec 10) (s : State) :
    Host.Outcome State Fault Refusal :=
  runInstr (.ld d p x z i) (do
    let n := 2 ^ z.toNat
    let off ← accessOffset p.toNat x i n
    let l ← touchBody p.toNat off
    accessChecks p.toNat l .ld z.toNat off
    let s ← get
    let sh := (s.ctx.areg p.toNat).sh
    let v := ofBytes (s.readBody s.me l off.toNat n)
    let r := loadValue s.core sh.fmt.toNat sh.blog.toNat n v (s.scaleAt l sh off.toNat)
    noteFp r.2 0
    wrNat d r.1) s

/-- A value that `st` converts, divided by the block's scale; a NaN in a block marked as NaN (R139). -/
def unscaled (bits sc : Nat) : Val :=
  let v := F32.decode bits
  if sc = 255 then .nan v.neg v.isSig 0 else v.scale (-(scaleExp sc))

/-- Encoding of a stored element (R139): bytes as a number, flags, and draws taken. `draw` gives draw number i. -/
def storeValue (c : Core) (f blog n mode w sc : Nat) (draw : Nat → Nat) : Nat × Nat × Nat :=
  let lo := w % 2 ^ 32
  let hi := w / 2 ^ 32 % 2 ^ 32
  let one := fun (r : Nat × Nat) => (r.1, r.2, if mode = 5 then 1 else 0)
  let two := fun (g : Nat → Nat → Nat × Nat) =>
    let a := g lo (draw 0)
    let b := g hi (draw 1)
    (a.1 % 16 + b.1 % 16 * 16, a.2 ||| b.2, if mode = 5 then 2 else 0)
  let int := fun (bits : Nat) (lo hi : Int) (r : Nat) (wd : Nat) =>
    let x := intOfVal lo hi mode (unscaled bits sc) r
    (intBits wd x.1, x.2)
  if f = 1 ∧ blog ≠ 0 then one (int lo (-128) 127 (draw 0) 8)
  else if f = 8 then one (F16.ofVal mode (F32.decode lo) (draw 0))
  else if f = 9 then one (BF16.ofVal mode (F32.decode lo) (draw 0))
  else if f = 12 ∨ f = 13 then one (codeOfVal (c.table (f - 12)) mode (unscaled lo sc) (draw 0))
  else if f = 14 ∨ f = 15 then two fun b r => codeOfVal (c.table (f - 12)) mode (unscaled b sc) r
  else if f = 16 then
    if blog = 0 then (lo % 16 + hi % 16 * 16, 0, 0)
    else two fun b r => int b (-8) 7 r 4
  else (w % 2 ^ (8 * n), 0, 0)

/-- `st` (R139, R140). R182 leaves open in what order accesses to different objects take effect for others: here a store takes
effect at once, so in program order (log entry 106). -/
def execSt (d : BitVec 5) (p : BitVec 4) (x : BitVec 5) (z : BitVec 2) (i : BitVec 10) (s : State) :
    Host.Outcome State Fault Refusal :=
  runInstr (.st d p x z i) (do
    let n := 2 ^ z.toNat
    let off ← accessOffset p.toNat x i n
    let w ← rdS d
    let l ← touchBody p.toNat off
    accessChecks p.toNat l .st z.toNat off
    let s ← get
    let r := s.ctx.areg p.toNat
    let y := storeValue s.core r.sh.fmt.toNat r.sh.blog.toNat n s.ctx.rm w.toNat (s.scaleAt l r.sh off.toNat) s.draw
    set (s.putObj l off.toNat (leBytes y.1 n))
    noteFp y.2.1 y.2.2
    noteWatch (canonOf r.ptr (s.hdr l))) s

/-- `lda` (R142). -/
def execLda (d p : BitVec 4) (x : BitVec 5) (i : BitVec 10) (s : State) : Host.Outcome State Fault Refusal :=
  runInstr (.lda d p x i) (do
    let off ← accessOffset p.toNat x i 8
    let l ← touchBody p.toNat off
    accessChecks p.toNat l .lda 3 off
    let w := BitVec.ofNat 64 (ofBytes ((← get).bodyBytes l off.toNat 8))
    wrA d.toNat { ptr := w }) s

/-- A site of a record in the place of a pad key, and the key's level. -/
def Rec.siteOfKey (r : Rec) (key : Nat) : Option Nat :=
  if keyLevel key = 3 then some ((key - 2 ^ 60) / 2 ^ 18)
  else if keyLevel key = 2 then r.place.find? fun x => decide (clusterOf x = (key - 2 ^ 61) / 2 ^ 22)
  else if keyLevel key = 1 then r.place.find? fun x => decide (dieOf x = (key - 2 ^ 62) / 2 ^ 28)
  else none

/-- Two keys lie in one area of a record. -/
def Rec.sameArea (r : Rec) (k j : Nat) : Bool :=
  decide (keyLevel k = keyLevel j) && decide (r.siteOfKey k = r.siteOfKey j)

/-- A pointer is stored into a PTRS object at `l` (R158): an area other than the PTRS object's remembers the word; a set
that is full has the named object promoted instead, unless the PTRS object is not wider than it, where a promotion to its level
is no move and the word is stored without an entry (log entry 120). The pointer to store is the answer. -/
def remember (l : Loc) (off : Nat) (p : Word) : Op Word := do
  let s ← get
  match (if 1 ≤ ptrLevel p ∧ ptrLevel p ≤ 3 then s.padFind p else none) with
  | none => return p
  | some k =>
    let rid := (if keyLevel k = 3 && ownPlace s.site k then s.core.recId else s.tableRecId).getD 0
    let r := s.recAt rid
    let word := wordName l off
    if r.sameArea k word then return p
    else
      match r.siteOfKey k with
      | none => return p
      | some site =>
        match s.areaFor rid site (keyLevel k) with
        | none => return p
        | some a =>
          if a.rem.contains word then return p
          else if a.rem.length < 4096 then
            set (s.setArea rid site (keyLevel k) { a with rem := a.rem ++ [word] })
            return p
          else if l.level < keyLevel k then
            if s.queuedOn (.pad k) then waitHere
            let f := (s.mem.hdr k).foot
            if l.level ≥ 1 && !s.roomIn (s.core.recId.getD 0) s.site l.level f then throw (.room l.level f)
            let q ← whole (promote p l.level f k)
            return keepFmt p q.1
          else return p

/-- `sta` (R142, R158). -/
def execSta (d p : BitVec 4) (x : BitVec 5) (i : BitVec 10) (s : State) : Host.Outcome State Fault Refusal :=
  runInstr (.sta d p x i) (do
    let off ← accessOffset p.toNat x i 8
    let l ← touchBody p.toNat off
    accessChecks p.toNat l .sta 3 off
    let w ← remember l off.toNat (← rdA d.toNat).ptr
    let s ← get
    let r := s.ctx.areg p.toNat
    set (s.putObj l off.toNat (leBytes w.toNat 8))
    noteWatch (canonOf r.ptr (s.hdr l))) s

/-- `touch` (R143). -/
def execTouch (d : BitVec 5) (a : BitVec 4) (s : State) : Host.Outcome State Fault Refusal :=
  runInstr (.touch d a) (do
    let _ ← Sys2Proof.Machine.touch a.toNat
    wrNat d (ptrLevel (← rdA a.toNat).ptr)) s

/-- The descriptor of `alloc` is legal with a length (R144, R145). -/
def allocLegal (len desc : Nat) : Bool :=
  let typ := fieldN desc 0 8
  let fmt := fieldN desc 8 5
  let blog := fieldN desc 13 3
  desc / 2 ^ 20 = 0 && fieldN desc 16 3 < 4 && (typ = tDATA || typ = tPTRS || typ = tSHAPES || typ = tRSTATE)
    && fmt ≤ 17 && decide ((typ = tPTRS) = (fmt = 17)) && (blog = 0 || fmtScaled fmt) && len * 8 % Nat.max 8 (fmtBits fmt) = 0

/-- The header of a new object (R126, R145). -/
def newHeader (len desc epoch : Nat) (heap secure : Bool) : Hdr :=
  let hi := fieldN desc 8 5 * 8 + fieldN desc 13 3
  { w0 := BitVec.ofNat 64 (len + fieldN desc 0 8 * 2 ^ 40 + hi * 2 ^ 48 + boolBit heap 56
      + boolBit (desc.testBit 19) 57 + boolBit secure 58)
    w3 := BitVec.ofNat 64 epoch }

/-- `alloc` (R145). A heap object waits for its pages, and a page that the host refuses raises TRANSLATE with the pointer that the
object would have (log entry 119). -/
def execAlloc (d : BitVec 4) (a b : BitVec 5) (s : State) : Host.Outcome State Fault Refusal :=
  runInstr (.alloc d a b) (do
    let len ← rdS a
    let desc ← rdS b
    let n := len.toNat
    let level := bitsOf desc 16 3
    require (allocLegal n desc.toNat) .type desc
    require (if level = 0 then decide (n < 2 ^ 40) else decide (n ≤ copyLimit level)) .bounds len
    let fmt := bitsOf desc 8 5
    let blog := bitsOf desc 13 3
    let f := footprint fmt blog n
    let s ← get
    let secure := s.core.secure
    let scales := List.replicate (scaleBytes fmt blog n) (127#8)
    if level = 0 then
      match s.heapAlloc s.asid f with
      | none => raise .quota (BitVec.ofNat 64 f)
      | some (_, va) =>
        let p := mkPtr (fmt * 8 + blog) 0 va
        translateRange s.asid va f true p
        let s ← get
        match s.heapAlloc s.asid f with
        | none => raise .quota (BitVec.ofNat 64 f)
        | some (s1, _) =>
          let l := Loc.heap s.asid va
          let s2 := (s1.putBody l 0 (List.replicate n 0)).putBody l n scales
          let h := newHeader n desc.toNat 0 true secure
          set (s2.setHdr l h)
          wrA d.toNat { ptr := p, sh := h.shadow }
    else
      let rid := s.core.recId.getD 0
      needRoom level f false
      let epoch := (((← get).areaFor rid s.site level).map (·.passes.toNat)).getD 0
      let key ← takeRoom rid s.site level f
      let h := newHeader n desc.toNat epoch false secure
      modify fun s => { s with mem := (s.mem.setHdr key h).setBytes (key + 32 + n) scales }
      let p := (← get).ptrTo (fmt * 8 + blog) (.pad key)
      wrA d.toNat { ptr := p, sh := h.shadow }) s

/-- A copy of a pointer with a new cursor: BOUNDS when it does not fit 32 bits (R146). -/
def setCursor (d a : BitVec 4) (k : Int) : Op Unit := do
  require (decide (0 ≤ k) && decide (k < 2 ^ 32)) .bounds (toWord k)
  let r ← rdA a.toNat
  wrA d.toNat { r with cur := BitVec.ofInt 32 k }

/-- `acur.set` (R146). -/
def execAcurSet (d a : BitVec 4) (b : BitVec 5) (s : State) : Host.Outcome State Fault Refusal :=
  runInstr (.acurSet d a b) (do
    let k ← rdS b
    setCursor d a k.toNat) s

/-- `acur.add` (R146). -/
def execAcurAdd (d a : BitVec 4) (b : BitVec 5) (s : State) : Host.Outcome State Fault Refusal :=
  runInstr (.acurAdd d a b) (do
    let k ← rdS b
    setCursor d a (((← rdA a.toNat).cur.toNat : Int) + k.toInt)) s

/-- `olen` (R147). -/
def execOlen (d : BitVec 5) (a : BitVec 4) (sel : BitVec 2) (s : State) : Host.Outcome State Fault Refusal :=
  runInstr (.olen d a sel) (do
    let sh ← shadowOf a.toNat
    let cur := (← rdA a.toNat).cur
    wrNat d (if sel = 0 then sh.len.toNat else if sel = 1 then cur.toNat
      else scaleBytes sh.fmt.toNat sh.blog.toNat sh.len.toNat)) s

/-- `otype` (R147). -/
def execOtype (d : BitVec 5) (a : BitVec 4) (s : State) : Host.Outcome State Fault Refusal :=
  runInstr (.otype d a) (do
    let sh ← shadowOf a.toNat
    let p := (← rdA a.toNat).ptr
    wrNat d (sh.flags.toNat * 2 ^ 19 + ptrLevel p * 2 ^ 16 + sh.blog.toNat * 2 ^ 13 + sh.fmt.toNat * 2 ^ 8 + sh.typ.toNat)) s

/-- The stack objects that the executing core's pointers can name: those of its record, and of the record whose core table
resolves them (R148, R170). -/
def State.stackObjects (s : State) : List Nat := s.ownRec.stackObjs ++ (s.tableRec.map (·.stackObjs)).getD []

/-- Sets ROOT in a header or clears it (R148); the device keeps the heap objects that it has marked so. -/
def State.markRoot (s : State) (l : Loc) (on : Bool) : State :=
  let t := s.setHdr l ((s.hdr l).setFlag 57 on)
  match l with
  | .pad _ => t
  | .heap asid va =>
    let x : AsidSt := lookup {} asid t.asids
    if on && !x.objs.contains va then { t with asids := store asid { x with roots := insertKey va x.roots } t.asids } else t

/-- Sets or clears ROOT in the header that a register names (R148). -/
def rootBody (a : BitVec 4) (on : Bool) : Op Unit := do
  let p := (← rdA a.toNat).ptr
  let l ← locate p
  let s ← get
  if !on then
    require (!s.stackObjects.contains (s.hdrKey l)) .type p
  if let .heap asid va := l then
    let _ ← translate asid va true p
  modify fun s => s.markRoot l on

/-- `root` (R148). -/
def execRoot (a : BitVec 4) (s : State) : Host.Outcome State Fault Refusal := runInstr (.root a) (rootBody a true) s

/-- `unroot` (R148). -/
def execUnroot (a : BitVec 4) (s : State) : Host.Outcome State Fault Refusal := runInstr (.unroot a) (rootBody a false) s

/-- The object that a register names with the type check of `acq` and `rel` (R149, R152), made on the nearest copy: TYPE
with the body offset that the cursor gives (R127; log entry 33). -/
def scopeTarget (a : BitVec 4) (kind : ObjAccess) : Op (Word × Loc) := do
  let r ← rdA a.toNat
  let (canon, home) ← named r.ptr
  let l ← nearestFrom r.ptr 3 canon home
  let ok ← allowed ((← get).hdr l).typ kind
  require ok .type (r.cur.setWidth 64)
  return (canon, home)

/-- `rel` (R149, R150, R184). -/
def execRel (d : BitVec 5) (a : BitVec 4) (sc : BitVec 3) (s : State) : Host.Outcome State Fault Refusal :=
  runInstr (.rel d a sc) (do
    let _ ← scopeTarget a .rel
    waitAccesses
    let p := (← rdA a.toNat).ptr
    let v ← whole (do
      let (canon, home) ← escapeReg a.toNat sc.toNat
      cumulativePush sc.toNat
      releaseObj p sc.toNat canon home)
    wrNat d v) s

/-- `acq` (R152, R184). -/
def execAcq (d : BitVec 5) (a : BitVec 4) (sc : BitVec 3) (s : State) : Host.Outcome State Fault Refusal :=
  runInstr (.acq d a sc) (do
    let (canon, home) ← scopeTarget a .acq
    let p := (← rdA a.toNat).ptr
    let v ← whole (acquireObj p sc.toNat canon home)
    wrNat d v) s

/-- The copy of a copy-in is made, unless one exists by now (R130). -/
def copyInto (canon0 : Word) : Op Unit := do
  let (canon, home) ← named canon0
  let src ← nearestFrom canon 2 canon home
  let s ← get
  let h := s.hdr src
  let t := h.touchLevel
  if t ≠ 0 && decide (src.level < t) && (s.copyAt (s.core.recId.getD 0) s.site t canon).isNone then
    if let .heap asid va := src then translateRange asid va (32 + h.span) false canon
    let _ ← makeCopy t canon src

/-- A copy-in of a touch is complete (R130, R132): the copy stands in its pad and its directory, and the instruction
that waits finds it there. It is not complete while a reduction is queued on what it reads (R195). A copy-in whose pad has
no room left, or whose page has gone, ends without a copy, and the waiting instruction begins its touch again. -/
def copyInBody (k : Nat) : Op Unit := fun s =>
  match s.copyins[k]? with
  | none => .error .stutter s
  | some c =>
    let core := s.coreAt c.site
    let s0 := ({ s with site := c.site, copyins := s.copyins.filter fun x => decide (x ≠ c) } : State).setCore c.site { core with act := c.ctx }
    let back := fun (t : State) => ({ t with site := s.site } : State).setCore c.site { (t.coreAt c.site) with act := core.act }
    match withRoom (copyInto c.canon) 3 [] s0 with
    | .ok _ t => .ok () (back t)
    | .error .wait _ => .error .stutter s
    | .error (.trap .padfull _) t => .ok () (back t)
    | .error _ _ => .ok () (back s0)

/-- COPY_IN_COMPLETE (R130). -/
def execCopyInComplete (k : Nat) (s : State) : Host.Outcome State Fault Refusal := runEvent (copyInBody k) s

end Sys2Proof.Machine
end

