-- ==== Sys2Proof/Machine/Collect.lean ====
section
/-! DEFINITION. Collect: collection on request, the heap accesses of channel cores, and the host's answers to page
requests (R165 to R179). -/

namespace Sys2Proof.Machine

/-- Free bytes of the area of a level, 0 without one. -/
def State.freeBytes (s : State) (rid level : Nat) : Nat := ((s.areaFor rid s.site level).map Area.free).getD 0

/-- A heap pass is pending for the ASID: the number of the pass that will serve the request (R166). -/
def State.askHeapPass (s : State) (asid : Nat) : State × Nat :=
  let x := lookup {} asid s.asids
  match x.passPending with
  | some n => (s, n)
  | none => ({ s with asids := store asid { x with passPending := some (x.passDone + 1) } s.asids }, x.passDone + 1)

/-- `scree` (R166). -/
def execScree (d a : BitVec 5) (s : State) : Host.Outcome State Fault Refusal :=
  runInstr (.scree d a) (do
    let t ← rdS a
    require (decide (t.toNat < 4)) .illegal t
    let s ← get
    if t = 0 then
      let r := s.askHeapPass s.asid
      set r.1
      wrNat d r.2
    else
      Sys2Proof.Machine.scree t.toNat
      wrNat d ((← get).freeBytes (s.core.recId.getD 0) t.toNat)) s

/-- The heap state word of `sstat` 7. -/
def AsidSt.word (x : AsidSt) : Nat :=
  x.passFreed % 2 ^ 32 * 2 ^ 32 + x.passDone % 2 ^ 30 * 4 + (if x.passPending.isSome then 1 else 0)

/-- A statistic of `sstat` (R167). -/
def sstatValue (s : State) (n : Nat) : Option Nat :=
  let a := s.core.pad
  let rid := s.core.recId.getD 0
  if n = 0 then some a.free else if n = 1 then some a.passes.toNat else if n = 2 then some a.lastLive
  else if n = 3 then some a.lastPause else if n = 4 then some a.lastMoved
  else if n = 5 then some (s.freeBytes rid 2) else if n = 6 then some (s.freeBytes rid 1)
  else if n = 7 then some (lookup {} s.asid s.asids).word
  else if n = 8 then some s.ctx.misses.toNat
  else if n = 9 then some (lookup 0 (clusterOf s.site) s.missDrops)
  else if n = 10 then some a.rem.length
  else none

/-- `sstat` (R167). -/
def execSstat (d a : BitVec 5) (s : State) : Host.Outcome State Fault Refusal :=
  runInstr (.sstat d a) (do
    let n ← rdS a
    match sstatValue (← get) n.toNat with
    | some v => wrNat d v
    | none => illegal n) s

/-! Channel cores (R170 to R173). -/

/-- The heap object of a channel-core access: level, world and header checks (R171). -/
def heapObject (a : BitVec 4) : Op Loc := do
  let p := (← rdA a.toNat).ptr
  if ptrLevel p = 7 then raise .nullptr p
  if ptrLevel p ≠ 0 then raise .type p
  let l ← locate p
  worldCheck p l
  return l

/-- The offset and the checks of `hrd` and `hwr` (R171): the place and the offset of the bytes. -/
def heapAccess (a : BitVec 4) (b : BitVec 5) (size : Nat) (kind : ObjAccess) : Op (Loc × Nat) := do
  let k ← rdS b
  let r ← rdA a.toNat
  let l ← heapObject a
  let h := (← get).hdr l
  let n := 2 ^ size
  let off := (r.cur.toNat : Int) + k.toInt
  let ok ← allowed h.typ kind
  require (ok && (h.typ ≠ tPTRS || size = 3)) .type (toWord off)
  boundsCheck off n (if kind = .ld then readLen h.typ h.len else h.len)
  require (decide (off % n = 0)) .misalign (toWord off)
  let va := ptrLoc r.ptr + 32 + off.toNat
  let asid := (← get).asid
  if kind = .st then let _ ← translate asid va true r.ptr
  else let s ← get; translateRead (.ctx s.site s.core.act) s.me l off.toNat n r.ptr
  let s ← get
  require (!s.readPoisoned s.me l off.toNat n) .poison (toWord off)
  missRange asid va n 5
  awaitReds l off.toNat n
  return (l, off.toNat)

/-- `hrd` (R171). -/
def execHrd (d : BitVec 5) (a : BitVec 4) (b : BitVec 5) (z : BitVec 2) (s : State) : Host.Outcome State Fault Refusal :=
  runInstr (.hrd d a b z) (do
    let (l, off) ← heapAccess a b z.toNat .ld
    ownWrites l
    let s ← get
    wrNat d (ofBytes (s.readBody s.me l off (2 ^ z.toNat)))) s

/-- `hwr` (R171): the write is performed later. -/
def execHwr (d : BitVec 5) (a : BitVec 4) (b : BitVec 5) (z : BitVec 2) (s : State) : Host.Outcome State Fault Refusal :=
  runInstr (.hwr d a b z) (do
    let (l, off) ← heapAccess a b z.toNat .st
    let v ← rdS d
    let s ← get
    if s.posts.any fun q => decide (q.site = s.site) && decide (q.ctx = s.core.act) && decide (q.src = l) then waitHere
    modCore fun c => { c with hwrs := c.hwrs ++ [{ ctx := c.act, obj := l, off := off, bytes := leBytes v.toNat (2 ^ z.toNat) }] }) s

/-- HWR_PERFORMED (R173): the oldest `hwr` of a core takes effect at the canonical object, after the reductions queued on
its lines (R195). The words of a KVTABLE that only the instructions of its chapter change keep their values (R360). -/
def hwrPerformedBody (core : Nat) : Op Unit := do
  let s ← get
  match (s.coreAt core).hwrs with
  | [] => stutter
  | h :: t =>
    due (!s.redsOn h.obj h.off h.bytes.length)
    modCoreAt core fun c => { c with hwrs := t }
    modify fun s => if carriedByte (s.hdr h.obj).typ h.off then s.putObj h.obj h.off h.bytes else s

def execHwrPerformed (core : Nat) (s : State) : Host.Outcome State Fault Refusal := runEvent (hwrPerformedBody core) s

/-- `cpost` (R172), with the barrier register when one is named. The n source bytes are checked as `hrd` checks its own. -/
def cpostBody (d a : BitVec 4) (b : BitVec 5) (c : Option (BitVec 4)) : Op Unit := do
  let len ← rdS b
  let n := len.toNat
  let src ← rdA a.toNat
  let dst ← rdA d.toNat
  let ls ← heapObject a
  let hs := (← get).hdr ls
  let ok ← allowed hs.typ .ld
  require ok .type (src.cur.setWidth 64)
  boundsCheck src.cur.toNat n (if hs.typ = tRSTATE then readLen hs.typ hs.len else hs.span)
  let s ← get
  translateRead (.ctx s.site s.core.act) none ls src.cur.toNat n src.ptr
  require (!(← get).readPoisoned none ls src.cur.toNat n) .poison (src.cur.setWidth 64)
  ownWrites ls
  require (decide (ptrLevel dst.ptr = 1) || decide (ptrLevel dst.ptr = 2)) .type dst.ptr
  let ld ← locate dst.ptr
  let hd := (← get).hdr ld
  require (decide (hd.typ = tDATA) && decide (hd.hi = hs.hi)) .type dst.ptr
  require (decide (1 ≤ n) && decide (n ≤ 524288)) .bounds len
  boundsCheck dst.cur.toNat n hd.span
  let bar ← (match c with
    | none => pure none
    | some r => do
      let p := (← rdA r.toNat).ptr
      let l ← locate p
      require (decide (((← get).hdr l).typ = tBARRIER)) .type p
      pure (some l) : Op (Option Loc))
  let s ← get
  if (s.posts.filter fun q => decide (q.site = s.site)).length ≥ 16 then waitHere
  let s1 := (s.erefUp ls).erefUp ld
  let s2 := match bar with
    | some v => (s1.erefUp v).barPendingUp v
    | none => s1
  let post : Post := { site := s.site, ctx := s.core.act, src := ls, srcOff := src.cur.toNat, dst := ld
                       dstOff := dst.cur.toNat, n := n, bar := bar, num := s.core.works }
  set { s2 with posts := s2.posts ++ [post] }
  modCore fun c => { c with works := c.works + 1 }
  modTx fun t => { t with pushed := true }

/-- `cpost` without a barrier (R172). -/
def execCpost (d a : BitVec 4) (b : BitVec 5) (s : State) : Host.Outcome State Fault Refusal :=
  runInstr (.cpost d a b) (cpostBody d a b none) s

/-- `cpost` with a barrier (R172). -/
def execCpostBarrier (d a : BitVec 4) (b : BitVec 5) (c : BitVec 4) (s : State) : Host.Outcome State Fault Refusal :=
  runInstr (.cpostBarrier d a b c) (cpostBody d a b (some c)) s

/-- The bytes that a post may copy before it meets a page that is not translated or a poisoned line (R172). -/
def State.postReach (s : State) (p : Post) : Nat :=
  let bad := fun (i : Nat) => s.readAbsent none p.src (p.srcOff + i) 1 || s.readPoisoned none p.src (p.srcOff + i) 1
  ((List.range p.n).find? bad).getD p.n

/-- The completion record of a faulted `cpost` (R391). -/
def cpostRecord (code : BitVec 8) : Word := BitVec.ofNat 64 (code.toNat * 2 ^ 56 + 2 * 2 ^ 52)

/-- CPOST_COMPLETE (R172): once no reduction is queued on what it reads and writes (R195), the posted copy writes its bytes,
credits its barrier and gives the counts back; one that stops on a fault leaves the bytes before it and credits nothing. -/
def cpostCompleteBody (k : Nat) : Op Unit := do
  let s ← get
  let p ← dueSome s.posts[k]?
  due (!s.redsOn p.src p.srcOff p.n && !s.redsOn p.dst p.dstOff p.n)
  let m := s.postReach p
  if let .heap asid va := p.src then
    match (pageStarts (va + 32 + p.srcOff) m).find? fun a => !s.hbmResident asid (a / 4096) with
    | some a => postMissAt p.site p.ctx 5 (a / 4096)
    | none => pure ()
  let s ← get
  let s1 := s.putObj p.dst p.dstOff (s.readBody none p.src p.srcOff m)
  let s2 := match p.bar with
    | some v => if m = p.n then s1.barCredit v p.n else s1
    | none => s1
  set ({ s2 with posts := s2.posts.eraseIdx k }.dropPost p)
  if m < p.n then
    let code := if s.readPoisoned none p.src (p.srcOff + m) 1 then Cause.poison.code else Cause.translate.code
    modCoreAt p.site fun c => { c with faults := c.faults ++ [
      { ctx := p.ctx, record := cpostRecord code, at_ := s.cycle.toNat, kind := 3, id := 0, num := p.num }] }

def execCpostComplete (k : Nat) (s : State) : Host.Outcome State Fault Refusal := runEvent (cpostCompleteBody k) s

/-- Reports the engine faults of the executing context of given kinds (1 WMB, 2 copy engine, 3 `cpost`): the oldest is
raised as ENGINE and counts as reported, so that no interrupt reports it again (R397). -/
def reportFault (p : EngFault → Bool) : Op Unit := do
  let c ← getCore
  match c.faults.find? fun f => decide (f.ctx = c.act) && p f with
  | none => pure ()
  | some f =>
    let note := fun (m : Cmd) => if m.fault.isSome && decide (m.num = f.num) then { m with reported := true } else m
    modCore fun c => { c with
      faults := c.faults.erase f
      pending := c.pending.filter fun q => !(decide (q.code = Cause.engine.code) && decide (q.work = some f.num))
      wmb := if f.kind = 1 then c.wmb.map note else c.wmb }
    raise .engine f.record

/-- `cwait` (R173). -/
def execCwait (d a : BitVec 5) (s : State) : Host.Outcome State Fault Refusal :=
  runInstr (.cwait d a) (do
    let m ← rdS a
    let s ← get
    let out := (s.posts.filter fun q => decide (q.site = s.site) && decide (q.ctx = s.core.act)).length
      + (s.core.hwrs.filter fun h => decide (h.ctx = s.core.act)).length
    if out > m.toNat then waitHere
    if m = 0 then reportFault fun f => f.kind = 3
    wrNat d out) s

/-! The host's side of translation (R136, R176, R178, R179). -/

/-- Two ASIDs are translated through one page table of the host: they are one, or are bound to one PASID of one function
(R178, R420). -/
def State.oneTable (s : State) (a b : Nat) : Bool :=
  decide (a = b) || (match find a s.asids, find b s.asids with
    | some x, some y => decide (x.vf = y.vf) && decide (x.pasid = y.pasid)
    | _, _ => false)

/-- The ASIDs that are translated through the page table of an ASID. -/
def State.tableMates (s : State) (asid : Nat) : List Nat :=
  asid :: (s.asids.filter fun e => decide (e.1 ≠ asid) && s.oneTable asid e.1).map (·.1)

/-- A function without `SECWORLD` is refused a page of the secure world (R422, R440). -/
def State.refusesPage (s : State) (asid frame : Nat) : Bool :=
  s.securePage (frame * 4096) && !s.accepted (lookup {} asid s.asids).vf 11

/-- PAGE_REQUEST_ANSWER: the host maps a page for request number k, or refuses it, for every ASID of the page table. A mapping
without write permission refuses the requests that asked for it. A page of the secure world is refused to a VF without
`SECWORLD` (R422, R440), a page in HBM lies in it (R13), and a page of another module is one that the route table leads to
(R120). -/
def pageAnswerBody (k : Nat) (ans : PageAnswer) : Op Unit := do
  let s ← get
  let q ← dueSome s.pageReqs[k]?
  let same := fun (x : PageReq) => s.oneTable q.asid x.asid && decide (x.page = q.page)
  let refused := { s with pageReqs := s.pageReqs.map fun x => if same x then { x with refused := true } else x }
  match ans with
  | .invalid => set refused
  | .mapped frame w hbm home =>
    due (decide (frame < if hbm then hbmFrames else 2 ^ 43) && (home.map fun m => !hbm && routeValid (s.route m)).getD true)
    let e : Pte := { frame := if hbm then frame else hbmFrames + frame, write := w, hbm := hbm, home := home }
    if s.refusesPage q.asid e.frame then set refused
    else
      set { s with
        ptes := (s.tableMates q.asid).foldl (fun l a => store (pageKey a q.page) e l) s.ptes
        pageReqs := (s.pageReqs.filter fun x => !same x || (x.write && !w)).map fun x =>
          if same x then { x with refused := true } else x }

def execPageRequestAnswer (k : Nat) (ans : PageAnswer) (s : State) : Host.Outcome State Fault Refusal :=
  runEvent (pageAnswerBody k ans) s

/-- An access in flight uses the translation of a page. -/
def State.inFlight (s : State) (asid page : Nat) : Bool :=
  let on := fun (l : Loc) (off n : Nat) => match l with
    | .heap x va => decide (x = asid) && decide ((va + 32 + off) / 4096 ≤ page) && decide (page ≤ (va + 32 + off + n) / 4096)
    | .pad _ => false
  (s.cores.any fun c => c.2.hwrs.any fun h => on h.obj h.off h.bytes.length)
    || (s.reds.any fun r => r.terms.any fun t => on r.v t.off 8)
    || s.posts.any fun p => on p.src p.srcOff p.n

/-- Translation invalidations of an ASID's port that have not completed. -/
def State.invalidations (s : State) (asid : Nat) : Nat :=
  let port := fun (a : Nat) => (lookup {} a s.asids : AsidSt).vf / 128
  (s.hostWaits.filter fun i => match i with
    | .invalidation a _ _ => decide (port a = port asid)
    | _ => false).length

/-- ATS_INVALIDATION (R179): the translations of a range of pages of an ASID's page table end, once no access in flight uses
them; until then the invalidation is outstanding, of which a port takes 64 (R419). A page leaves the tier pool by R176 only. -/
def atsInvalidationBody (asid page count : Nat) : Op Unit := do
  let s ← get
  due (s.hostWaits.contains (.invalidation asid page count) || decide (s.invalidations asid < 64))
  let mine := fun (k : Nat) => (s.tableMates asid).any fun a => within (pageKey a page) (Nat.min count (2 ^ 41 - page % 2 ^ 41)) k
  if !((s.ptes.filter fun e => mine e.1).all fun e => !s.inFlight (e.1 / 2 ^ 41) (e.1 % 2 ^ 41)) then waitHere
  set { s with ptes := s.ptes.filter fun e => !mine e.1 }

def execAtsInvalidation (asid page count : Nat) (s : State) : Host.Outcome State Fault Refusal :=
  runEvent (keepTrying (.invalidation asid page count) (atsInvalidationBody asid page count)) s

/-- TIER_POOL_RECALL (R176): the page leaves the pool; its bytes are those that the pool held. -/
def tierPoolRecallBody (asid page : Nat) : Op Unit := do
  let s ← get
  due ((s.tier.any fun t => decide (t.asid = asid) && decide (t.page = page)) && !s.inFlight asid page)
  set { s with tier := s.tier.filter fun t => !(decide (t.asid = asid) && decide (t.page = page)) }

def execTierPoolRecall (asid page : Nat) (s : State) : Host.Outcome State Fault Refusal :=
  runEvent (tierPoolRecallBody asid page) s

end Sys2Proof.Machine
end

