-- ==== Sys2Proof/Machine/Order.lean ====
section
/-! DEFINITION. Order: atomics, reductions and fences (R189 to R198). -/

namespace Sys2Proof.Machine

/-- Formats of atomics (R190): I32, N32, I64, F32, F64. -/
def atomicFmt (f : Nat) : Bool := f = 5 || f = 6 || f = 7 || f = 10 || f = 11

/-- An operation fits a format (R190). -/
def atomicOpFits (op f : Nat) : Bool :=
  atomicFmt f &&
  (if op ≤ 7 then f ≤ 7 else if op = 8 then true else if op = 9 then f = 10 else if op = 10 then f = 11 else f ≥ 10)

/-- Element bytes. -/
def atomicBytes (f : Nat) : Nat := fmtBits f / 8

/-- The exact sum of two floating numbers, infinities and NaNs apart (R191). -/
def addBits (f : FFmt) (x y : Nat) : Nat :=
  match f.decode x, f.decode y with
  | .nan .., _ => f.nanBits
  | _, .nan .. => f.nanBits
  | .inf n, .inf k => if n = k then f.infBits n else f.nanBits
  | .inf n, .fin .. => f.infBits n
  | .fin .., .inf k => f.infBits k
  | .fin n1 m1 e1, .fin n2 m2 e2 => (f.ofVal 0 (addFin 0 n1 m1 e1 n2 m2 e2) 0).1

/-- `fmin` and `fmax` (R191). -/
def minMaxBits (f : FFmt) (max : Bool) (x y : Nat) : Nat :=
  let a := f.decode x
  let b := f.decode y
  if a.isNan then (if b.isNan then f.nanBits else y)
  else if b.isNan then x
  else if Val.lt true a b = max then y else x

/-- The floating format of an object format. -/
def fmtFloat (f : Nat) : FFmt := if f = 10 then F32 else F64

/-- The new element of an operation (R190, R191). -/
def atomicOp (op f x y : Nat) : Nat :=
  let w := fmtBits f
  let sx := signExt w x
  let sy := signExt w y
  if op = 0 then (x + y) % 2 ^ w
  else if op = 1 then x &&& y else if op = 2 then x ||| y else if op = 3 then x ^^^ y
  else if op = 4 then (if sy < sx then y else x) else if op = 5 then (if sx < sy then y else x)
  else if op = 6 then Nat.min x y else if op = 7 then Nat.max x y
  else if op = 8 then y
  else if op = 9 ∨ op = 10 then addBits (fmtFloat f) x y
  else minMaxBits (fmtFloat f) (op = 12) x y

/-- The old value as it is returned (R191). -/
def atomicOld (f x : Nat) : Word := if f = 5 then toWord (signExt 32 x) else BitVec.ofNat 64 x

/-- The port of an element (R180): a pad, or the home channel of a heap page (R168). -/
def State.portOf (s : State) (v : Loc) (off : Nat) : Nat × Nat :=
  match v with
  | .pad k =>
    let lv := keyLevel k
    (lv, if lv = 3 then (k - 2 ^ 60) / 2 ^ 18 else if lv = 2 then (k - 2 ^ 61) / 2 ^ 22 else (k - 2 ^ 62) / 2 ^ 28)
  | .heap .. => (0, s.channelOf (s.keyAt v off / 4096))

/-- Pending entries of a port. -/
def State.portQueue (s : State) (p : Nat × Nat) : Nat :=
  (s.reds.filter fun r => match r.terms with
    | t :: _ => decide (s.portOf r.v t.off = p)
    | [] => false).length

/-- What an atomic has selected and checked: the copy, the canonical pointer and place, the offset, the format. -/
structure Target where
  v : Loc
  canon : Word
  home : Loc
  off : Nat
  fmt : Nat
  deriving DecidableEq, Repr

/-- The checks of `amo` from the null pointer up to translation (R192). -/
def atomicTarget (a : BitVec 4) (scope : Nat) (k : BitVec 2) (fits : Nat → Bool) : Op Target := do
  let (v, canon, home) ← atomicCopy a.toNat scope (BitVec.ofNat 64 ((← rdA a.toNat).cur.toNat + 8 * k.toNat))
  let r ← rdA a.toNat
  let h := (← get).hdr v
  require (decide (h.typ = tDATA) && fits h.fmt) .type r.ptr
  let n := atomicBytes h.fmt
  let off := r.cur.toNat + 8 * k.toNat
  boundsCheck off n h.len
  require (decide (off % n = 0)) .misalign (BitVec.ofNat 64 off)
  worldCheck r.ptr v
  if let .heap asid va := v then
    let _ ← translate asid (va + 32 + off) true r.ptr
    missRange asid (va + 32 + off) n 6
  let s ← get
  if let some l := s.homeOf canon then
    ownWrites l
    ownPosts l
  ownPosts v
  if s.portQueue (s.portOf v off) ≥ 64 then waitHere
  return { v := v, canon := canon, home := home, off := off, fmt := h.fmt }

/-- The element lies behind a dead Palbel link (R192). -/
def State.deadTarget (s : State) (v : Loc) (off n : Nat) : Bool :=
  match v with
  | .heap asid va => s.acrossDead asid (va + 32 + off) n
  | .pad _ => false

/-- The path copies take a new element (R192): the core-pad copy takes it and is clean there, the others take it where
they are clean. -/
def pathUpdate (t : Target) (bs : List Byte) : Op Unit := do
  for c in (← get).pathCopies t.canon t.home t.v do
    modify fun s =>
      if keyLevel c = 3 then ({ s with mem := s.mem.setBytes (c + 32 + t.off) bs }).markClean (c + 32 + t.off) bs.length
      else { s with mem := (bs.zipIdx).foldl (fun (m : Mem) b =>
        if s.dirty.contains (c + 32 + t.off + b.2) then m else m.set (c + 32 + t.off + b.2) b.1) s.mem }

/-- A read-modify-write at the port (R192): the old element and whether the port was reached; `path` tells whether the path
copies follow. -/
def atomicStep (t : Target) (f : Nat → Option Nat) (path : Nat → Nat → Bool) : Op (Option Nat) := do
  let n := atomicBytes t.fmt
  let s ← get
  if s.deadTarget t.v t.off n then
    setFence 0
    return none
  else
    awaitReds t.v t.off n
    require (!s.bodyPoisoned t.v t.off n) .poison (BitVec.ofNat 64 t.off)
    let old := s.field t.v t.off n
    match f old with
    | none => pure ()
    | some new =>
      set (s.putObj t.v t.off (leBytes new n))
      if path old new then pathUpdate t (leBytes new n)
    return some old

/-- The value returned: 0 over a dead link. -/
def atomicResult (t : Target) : Option Nat → Word
  | some x => atomicOld t.fmt x
  | none => 0

/-- The scope of an atomic (R190): a scope code, and system scope only where the VF has accepted `SYSATOM` (R422). -/
def atomicScope (sc : BitVec 3) : Op Unit := do
  require (decide (sc.toNat < 6)) .illegal (sc.setWidth 64)
  if sc = 5 && !(← get).feature 0 then illegalWord

/-- `amo` (R192). -/
def execAmo (d : BitVec 5) (a : BitVec 4) (sc : BitVec 3) (k : BitVec 2) (o : BitVec 5) (s : State) :
    Host.Outcome State Fault Refusal :=
  runInstr (.amo d a sc k o) (do
    atomicScope sc
    require (decide (o.toNat < 13)) .illegal (o.setWidth 64)
    let t ← atomicTarget a sc.toNat k (atomicOpFits o.toNat)
    let x ← rdS d
    let old ← atomicStep t (fun e => some (atomicOp o.toNat t.fmt e (x.toNat % 2 ^ fmtBits t.fmt))) fun _ _ => true
    wrS d (atomicResult t old)) s

/-- `cas` (R193): the path copies follow only when the element changed. -/
def execCas (d : BitVec 5) (a : BitVec 4) (sc : BitVec 3) (k : BitVec 2) (c : BitVec 5) (s : State) :
    Host.Outcome State Fault Refusal :=
  runInstr (.cas d a sc k c) (do
    atomicScope sc
    let t ← atomicTarget a sc.toNat k atomicFmt
    let new ← rdS c
    let expected ← rdS d
    let w := fmtBits t.fmt
    let old ← atomicStep t (fun e => if e = expected.toNat % 2 ^ w then some (new.toNat % 2 ^ w) else none) fun old new => decide (new ≠ old)
    wrS d (atomicResult t old)) s

/-- An entry holds a term of the same context on the same element of the same copy. -/
def Red.holds (x : Red) (v : Loc) (t : RedTerm) : Bool :=
  decide (x.v = v) && x.terms.any fun u => decide (u.off = t.off) && t.sender.isSome && decide (u.sender = t.sender)

/-- A term joins the pending entry of its operation, scope and line, or makes one (R195); it passes no entry that holds an
earlier term of its context on its element (R182). -/
def addTerm (r : Red) (t : RedTerm) : List Red → List Red
  | [] => [{ r with terms := [t] }]
  | x :: l =>
    if x.op = r.op ∧ x.scope = r.scope ∧ x.v = r.v ∧ x.line = r.line ∧ !(l.any fun y => y.holds r.v t) then
      { x with terms := x.terms ++ [t] } :: l
    else x :: addTerm r t l

/-- `red` (R194). For `swap` the trap value is the operation c, which R190 does not give for that row (log entry 111). -/
def execRed (d : BitVec 5) (a : BitVec 4) (sc : BitVec 3) (k : BitVec 2) (o : BitVec 5) (s : State) :
    Host.Outcome State Fault Refusal :=
  runInstr (.red d a sc k o) (do
    atomicScope sc
    require (decide (o.toNat < 13) && decide (o ≠ 8)) .illegal (o.setWidth 64)
    let t ← atomicTarget a sc.toNat k (atomicOpFits o.toNat)
    let x ← rdS d
    modify fun s =>
      let r : Red := { op := o.toNat, scope := sc.toNat, v := t.v, line := lineOf t.v t.off, fmt := t.fmt, terms := [] }
      { s with reds := addTerm r { off := t.off, val := x, sender := some (s.site, s.core.act) } s.reds }) s

/-- The offsets of an entry's elements, each once. -/
def redOffsets (ts : List RedTerm) : List Nat := ts.foldl (fun l t => if l.contains t.off then l else l ++ [t.off]) []

/-- Terms of one element combined in arrival order (R195). -/
def mergeTerms (op f : Nat) : List Nat → Option Nat
  | [] => none
  | x :: t => some (t.foldl (atomicOp op f) x)

/-- Performs the terms of one element, or drops them with a fence status bit for each context (R194). -/
def State.performTerms (s : State) (r : Red) (off : Nat) : State :=
  let n := atomicBytes r.fmt
  let ts := r.terms.filter fun t => decide (t.off = off)
  let drop := fun (bit : Nat) => (ts.filterMap (·.sender)).foldl (fun (u : State) (f : Nat × Nat) =>
    let c := u.coreAt f.1
    let x := c.ctxAt f.2
    u.setCore f.1 (c.setCtx f.2 { x with fence := x.fence ||| (1#4 <<< bit) })) s
  let refused := match r.v with
    | .heap asid va => !(match find (pageKey asid ((va + 32 + off) / 4096)) s.ptes with | some e => e.write | none => false)
    | .pad _ => false
  if s.deadTarget r.v off n then drop 0
  else if refused then drop 1
  else if s.bodyPoisoned r.v off n then drop 2
  else
    match mergeTerms r.op r.fmt (ts.map fun t => t.val.toNat % 2 ^ fmtBits r.fmt) with
    | some x => s.putObj r.v off (leBytes (atomicOp r.op r.fmt (s.field r.v off n) x) n)
    | none => s

/-- REDUCTION_PERFORMED (R195): pending entry number k takes effect as one step, after the entries that hold an earlier
term of one of its contexts on the same element (R182). -/
def reductionBody (k : Nat) : Op Unit := do
  let s ← get
  let r ← dueSome s.reds[k]?
  due (!(s.reds.take k).any fun x => r.terms.any (x.holds r.v))
  let t := (redOffsets r.terms).foldl (fun (u : State) off => u.performTerms r off) s
  set { t with reds := t.reds.eraseIdx k }

def execReductionPerformed (k : Nat) (s : State) : Host.Outcome State Fault Refusal := runEvent (reductionBody k) s

/-! Fences (R198). -/

/-- A site lies in the instance of a scope around another site (R180). -/
def siteIn (scope site x : Nat) : Bool :=
  if scope ≤ 1 then site = x
  else if scope = 2 then clusterOf site = clusterOf x
  else if scope = 3 then dieOf site = dieOf x
  else true

/-- A place lies in the instance of a scope around a site. -/
def placeIn (scope site : Nat) : Loc → Bool
  | .heap .. => scope ≥ 4
  | .pad k =>
    if keyLevel k = 3 then siteIn scope site ((k - 2 ^ 60) / 2 ^ 18)
    else if keyLevel k = 2 then
      scope ≥ 4 || (scope = 3 && (k - 2 ^ 61) / 2 ^ 22 / 128 = dieOf site) || (scope = 2 && (k - 2 ^ 61) / 2 ^ 22 = clusterOf site)
    else scope ≥ 4 || (scope = 3 && (k - 2 ^ 62) / 2 ^ 28 = dieOf site)

/-- The site that a message goes to. -/
def State.flitSite (s : State) (f : Flit) : Option Nat :=
  match f.site with
  | some x => some x
  | none => match f.target with
    | some r => (s.recAt r).place[f.dst]?
    | none => none

/-- The key of the pad object that a put is bound for; none when it goes to the heap. -/
def State.putKey (s : State) (f : Flit) : Option Nat := f.target.bind fun rid => padKeyOf (s.recAt rid) f.srcSite f.ptr

/-- The core that a message or put goes to; none for a put into the heap, a cluster pad or a die pad. -/
def State.flitCore (s : State) (f : Flit) : Option Nat :=
  if f.put then (s.putKey f).bind fun k => if keyLevel k = 3 then some ((k - 2 ^ 60) / 2 ^ 18) else none
  else s.flitSite f

/-- The destination of a flit lies in the instance of a scope around a site. -/
def State.flitIn (s : State) (scope site : Nat) (f : Flit) : Bool :=
  if f.put then (match s.putKey f with | some k => placeIn scope site (.pad k) | none => scope ≥ 4)
  else match s.flitSite f with | some x => siteIn scope site x | none => scope ≥ 4

/-- A flit was sent by a context of a site's logical core (R188, R412). -/
def State.sentBy (s : State) (site ctx : Nat) (f : Flit) : Bool :=
  let c := s.coreAt site
  decide (f.srcRec = c.recId.getD 0) && decide (f.srcLc = (c.ctxAt 0).lcore.toNat) && decide (f.srcCtx = ctx)

/-- Accesses of a context that a fence at a scope waits for are under way: at ctx and core scope those whose place is the core
pad, and a message until it has left the send buffer (R198). -/
def State.fencePending (s : State) (scope site ctx : Nat) : Bool :=
  let wide := decide (2 ≤ scope)
  (s.reds.any fun r => (wide || placeIn scope site r.v) && r.terms.any fun t => decide (t.sender = some (site, ctx)))
    || (wide && s.posts.any fun p => decide (p.site = site) && decide (p.ctx = ctx))
    || (wide && (s.coreAt site).hwrs.any fun h => decide (h.ctx = ctx))
    || (s.net.any fun f => s.sentBy site ctx f && (!f.sent || s.flitIn scope site f))

/-- An engine command of the executing context is neither done nor halted with a fault still to report (R198). -/
def Core.enginePending (c : Core) : Bool := (c.commandsOf c.act).any fun m => !(m.fault.isSome && !m.reported)

/-- `fence` (R198). -/
def execFence (d : BitVec 5) (l e : BitVec 1) (sc : BitVec 3) (s : State) : Host.Outcome State Fault Refusal :=
  runInstr (.fence d l e sc) (do
    require (decide (sc.toNat < 6)) .illegal (BitVec.ofNat 64 (l.toNat * 16 + e.toNat * 8 + sc.toNat))
    let s ← get
    if s.fencePending sc.toNat s.site s.core.act then waitHere
    if e = 1 && s.core.enginePending then waitHere
    reportFault fun _ => true
    let st := (← getCtx).fence
    if l = 1 then modCtx fun x => { x with fence := 0 }
    wrNat d st.toNat) s

/-! Palbel (R151, R189). -/

/-- PALBEL_LINK_DEAD (R151): what is bound across the port is lost from now on. -/
def execPalbelLinkDead (port : Nat) (s : State) : Host.Outcome State Fault Refusal :=
  runEvent (do
    due (decide (port < 16))
    modify fun s => { s with deadPorts := insertKey port s.deadPorts }) s

/-- PALBEL_REQUEST (R189): the heap port of this module serves another module's write or atomic; a page that is not
mapped for writing, or an element that the operation does not fit, serves nothing. -/
def palbelBody (q : PalbelReq) : Op Unit := do
  let s ← get
  let l := Loc.heap q.asid q.va
  due ((find (pageKey q.asid (q.va / 4096)) s.ptes).isSome)
  let h := s.hdr l
  let put := fun (n : Nat) (v : Nat) => do
    due (s.writable q.asid (q.va + 32 + q.off) n && !s.bodyPoisoned l q.off n)
    awaitReds l q.off n
    set (s.putObj l q.off (leBytes v n))
  match q.op with
  | .write bs =>
    due (decide (q.off + bs.length ≤ h.span) && s.writable q.asid (q.va + 32 + q.off) bs.length)
    awaitReds l q.off bs.length
    set (s.putObj l q.off bs)
  | .amo op x =>
    let n := atomicBytes h.fmt
    due (decide (h.typ = tDATA) && atomicOpFits op h.fmt && decide (op < 13) && decide (q.off + n ≤ h.len) && decide (q.off % n = 0))
    put n (atomicOp op h.fmt (s.field l q.off n) (x.toNat % 2 ^ fmtBits h.fmt))
  | .cas e new =>
    let n := atomicBytes h.fmt
    due (decide (h.typ = tDATA) && atomicFmt h.fmt && decide (q.off + n ≤ h.len) && decide (q.off % n = 0))
    awaitReds l q.off n
    if s.field l q.off n = e.toNat % 2 ^ fmtBits h.fmt then put n (new.toNat % 2 ^ fmtBits h.fmt)

def execPalbelRequest (req : PalbelReq) (s : State) : Host.Outcome State Fault Refusal := runEvent (palbelBody req) s

end Sys2Proof.Machine
end

