-- ==== Sys2Proof/Machine/Sync.lean ====
section
/-! DEFINITION. Sync: event words, mutexes, barriers, deques and supersteps (R199 to R217). -/

namespace Sys2Proof.Machine

/-! The cluster event unit. -/

/-- `evw` (R201). -/
def execEvw (d a : BitVec 5) (s : State) : Host.Outcome State Fault Refusal :=
  runInstr (.evw d a) (do
    let s ← get
    require (!isChan s.site) .illegal 0
    let k ← rdS a
    require (decide (k.toNat < 32)) .illegal k
    let s ← get
    let taken := if bitsOf s.tx.bind 22 5 = k.toNat then s.tx.pops31 else 0
    let w ← lineWord k.toNat taken true
    wrS d w
    match s.core.recId with
    | some rid => modRec rid fun r => r.takeFor (clusterOf s.site) k.toNat (s.ahead (s.lineKey k.toNat) + taken) 1
    | none => pure ()) s

/-- The record and the cluster that an `evsig` descriptor names (R202). -/
def evTarget (t : Word) : Op (Nat × Nat) := do
  let s ← get
  if t.getLsbD 13 then
    require (!isChan s.site) .illegal t
    return (s.tableRecId.getD 0, clusterOf s.site)
  else
    match s.tableRecId with
    | none => raise .type t
    | some rid =>
      match (s.recAt rid).tableSite (bitsOf t 0 13) with
      | some x => return (rid, clusterOf x)
      | none => raise .type t

/-- `evsig` (R202): the word is accepted when its line has a free entry. -/
def execEvsig (a b : BitVec 5) (s : State) : Host.Outcome State Fault Refusal :=
  runInstr (.evsig a b) (do
    let t ← rdS a
    let line := bitsOf t 16 5
    require (decide (t.toNat / 2 ^ 21 = 0) && decide (bitsOf t 14 2 = 0) && decide (line ≠ 31)) .illegal t
    let w ← rdS b
    require (decide (w ≠ 0)) .illegal 0
    let (rid, cl) ← evTarget t
    let ws := ((← get).recAt rid).line cl line
    if ws.length ≥ 16 then joinLine (.space rid cl line)
    else modRec rid fun r => r.setLine cl line (ws ++ [w])) s

/-- The senders that wait for a free entry of a line. -/
def State.senders (s : State) : List Waiter := s.waitq.filter fun w => match w.key with | .space .. => true | _ => false

/-- EVENT_WORD_ACCEPTED (R202): the word of sender number k, whose line has a free entry, is accepted and its `evsig`
retires. -/
def execEventWordAccepted (k : Nat) (s : State) : Host.Outcome State Fault Refusal :=
  match s.senders[k]? with
  | none => .next s
  | some w =>
    let s1 := { s with site := w.site }
    let s2 := s1.setCore w.site { s1.core with act := w.ctx }
    match s2.codeWord s2.ctx.pc.toNat with
    | none => .next s
    | some c =>
      match decodeUnder .none c with
      | .ok (.evsig a b) =>
        if s1.core.tshadow then .next s
        else
          match execEvsig a b s2 with
          | .next t => .next { t with site := s.site }
          | o => o
      | _ => .next s

/-! Mutexes (R203). -/

def Rec.mutex (r : Rec) (cl m : Nat) : Mutex := lookup {} m (lookup {} cl r.evsets).mutexes
def Rec.setMutex (r : Rec) (cl m : Nat) (x : Mutex) : Rec :=
  let e := lookup {} cl r.evsets
  { r with evsets := store cl { e with mutexes := store m x e.mutexes } r.evsets }

/-- The name under which a context holds a mutex: its logical core and context number. -/
def State.holderName (s : State) : Nat × Nat := (s.ctx.lcore.toNat, s.core.ctxNo)

/-- `mtxl` (R203). -/
def execMtxl (d a : BitVec 5) (s : State) : Host.Outcome State Fault Refusal :=
  runInstr (.mtxl d a) (do
    let m ← rdS a
    let s ← get
    let cl := clusterOf s.site
    let rid := s.core.recId.getD 0
    let x := (s.recAt rid).mutex cl m.toNat
    require (decide (m.toNat < 16) && !isChan s.site && decide (x.holder ≠ some s.holderName)) .illegal m
    let first ← firstInLine (.mutex rid cl m.toNat)
    if x.holder.isSome || !first then joinLine (.mutex rid cl m.toNat)
    else
      modRec rid fun r => r.setMutex cl m.toNat { holder := some s.holderName, abandoned := false }
      wrS d (ofBool x.abandoned)) s

/-- `mtxu` (R203). -/
def execMtxu (a : BitVec 5) (s : State) : Host.Outcome State Fault Refusal :=
  runInstr (.mtxu a) (do
    let m ← rdS a
    let s ← get
    let cl := clusterOf s.site
    let rid := s.core.recId.getD 0
    let x := (s.recAt rid).mutex cl m.toNat
    require (decide (m.toNat < 16) && decide (x.holder = some s.holderName)) .illegal m
    if s.fencePending 2 s.site s.core.act then waitHere
    modRec rid fun r => r.setMutex cl m.toNat { x with holder := none }) s

/-! Barriers (R207 to R209). -/

/-- The scope check and the copy of a barrier instruction (R207). -/
def barrierCopy (a : BitVec 4) (sc : BitVec 3) : Op Loc := do
  require (decide (sc.toNat < 6)) .illegal (sc.setWidth 64)
  syncCopy a.toNat sc.toNat 64 barrierOk

/-- The context that posted the current or last count (R205). -/
def State.barPoster (s : State) (v : Loc) : Nat × Nat :=
  let w := s.field v 0 8
  (fieldN w 40 13, fieldN w 36 4)

/-- A strict overrun is reported to its poster (R207). -/
def reportOverrun (v : Loc) : Op Unit := do
  let s ← get
  if s.barSerr v && decide (s.barPoster v = s.holderName) then
    set (s.setBar0 v 35 1 0)
    raise .barrier 4

/-- A barrier begins its next phase with nothing posted or arrived; `m` is its mode (R207). -/
def State.barReset (s : State) (v : Loc) (m : Nat) : State :=
  (((s.setBar0 v 0 32 (s.barPhase v + 1)).setBar0 v 32 4 (m * 2)).setFieldAt v 8 6 0).setFieldAt v 16 6 0

/-- The executing context posts a count of n units (R207). -/
def State.barPost (s : State) (v : Loc) (n : Nat) : State :=
  (((s.setFieldAt v 8 6 n).setBar0 v 32 1 1).setBar0 v 36 17 (s.holderName.2 % 16 + s.holderName.1 % 8192 * 16)).barComplete v

/-- `binit` (R207). -/
def execBinit (d : BitVec 5) (a : BitVec 4) (b : BitVec 5) (sc : BitVec 3) (s : State) : Host.Outcome State Fault Refusal :=
  runInstr (.binit d a b sc) (do
    let v ← barrierCopy a sc
    let m ← rdS b
    require (decide (m.toNat < 2)) .illegal m
    let s ← get
    require (decide (s.barPending v = 0)) .barrier 1
    require (decide (s.barWaiters v = 0)) .barrier 2
    let s1 := s.barReset v m.toNat
    set s1
    wrNat d (s1.barPhase v)) s

/-- `bpost` (R207). -/
def execBpost (d : BitVec 5) (a : BitVec 4) (b : BitVec 5) (sc : BitVec 3) (s : State) : Host.Outcome State Fault Refusal :=
  runInstr (.bpost d a b sc) (do
    let v ← barrierCopy a sc
    let n ← rdS b
    require (decide (n ≠ 0) && decide (n.toNat < 2 ^ 48)) .bounds n
    reportOverrun v
    let s ← get
    require (!s.barPosted v) .barrier 3
    require (!(s.barStrict v && decide (s.barArrived v > n.toNat))) .barrier 4
    let p := s.barPhase v
    set (s.barPost v n.toNat)
    wrNat d p) s

/-- `barr` (R208). -/
def execBarr (d : BitVec 5) (a : BitVec 4) (b : BitVec 5) (sc : BitVec 3) (s : State) : Host.Outcome State Fault Refusal :=
  runInstr (.barr d a b sc) (do
    let v ← barrierCopy a sc
    let n ← rdS b
    require (decide (n.toNat < 2 ^ 48)) .bounds n
    reportOverrun v
    let s ← get
    if s.fencePending sc.toNat s.site s.core.act then waitHere
    releaseAll sc.toNat
    let v ← barrierCopy a sc
    let s ← get
    let p := s.barPhase v
    set (s.barCredit v n.toNat)
    wrNat d p) s

/-- The refresh of `bwait` (R209): the clean bytes of every core-pad copy are read again as `acq` would read them; a BARRIER or
DEQUE copy, which R204 never carries, is left as it is (log entry 122). -/
def refreshClean (scope : Nat) : Op Unit := do
  if scope ≥ 2 then
    for e in (← getCore).pad.dir do
      let s ← get
      if carriedType (s.mem.hdr e.2) then
        let (canon, home) ← named (BitVec.ofNat 64 e.1)
        let v ← nearestFrom canon (scopeLevel scope) canon home
        let n := ((← get).hdr v).span
        if let .heap asid va := v then
          translateRange asid va (32 + n) false canon
        awaitReds v 0 n
        modify fun s => s.refresh e.2 v n true

/-- `bwait` (R209). -/
def execBwait (d : BitVec 5) (a : BitVec 4) (b : BitVec 5) (sc : BitVec 3) (s : State) : Host.Outcome State Fault Refusal :=
  runInstr (.bwait d a b sc) (do
    let v ← barrierCopy a sc
    let p ← rdS b
    let me := (← get).waitq.find? fun w => w.isAt (.barrier v) s.site s.core.act
    if me.isNone then reportOverrun v
    let s ← get
    let w ← (match me with
      | some w => match w.got with
        | some x => pure x
        | none => waitKeep
      | none =>
        if s.barDone v (p.toNat % 2 ^ 32) then pure (BitVec.ofNat 64 (s.field v 0 8))
        else do
          set (s.barWaitersUp v)
          enterLine (.barrier v) (p.toNat % 2 ^ 32)
          waitKeep : Op Word)
    refreshClean sc.toNat
    if me.isSome then leaveLine (.barrier v)
    wrS d w) s

/-! Deques (R213). -/

def dequeCopy (a : BitVec 4) (sc : BitVec 3) : Op (Loc × Nat) := do
  require (decide (sc.toNat < 6)) .illegal (sc.setWidth 64)
  let v ← syncCopy a.toNat sc.toNat 32 dequeOk
  return (v, (dqCap ((← get).hdr v).len).getD 2)

/-- `dqpush` (R213). The slot that it overwrites is not checked for poison (log entry 123). -/
def execDqpush (d : BitVec 5) (a : BitVec 4) (b : BitVec 5) (sc : BitVec 3) (s : State) : Host.Outcome State Fault Refusal :=
  runInstr (.dqpush d a b sc) (do
    let (v, cap) ← dequeCopy a sc
    let x ← rdS b
    require (decide (x ≠ 0)) .illegal 0
    let s ← get
    if s.fencePending sc.toNat s.site s.core.act then waitHere
    let n := s.dqCount v
    if n = cap then wrS d 0
    else
      let i := s.dqBottom v
      set ((s.setFieldAt v (32 + 8 * (i % cap)) 8 x.toNat).setFieldAt v 8 4 (i + 1))
      wrNat d (n + 1)) s

/-- `dqpop` (R213). -/
def execDqpop (d : BitVec 5) (a : BitVec 4) (sc : BitVec 3) (s : State) : Host.Outcome State Fault Refusal :=
  runInstr (.dqpop d a sc) (do
    let (v, cap) ← dequeCopy a sc
    let s ← get
    if s.dqCount v = 0 then wrS d 0
    else
      let x ← takeSlot (← rdA a.toNat).ptr v cap (s.dqBottom v + 2 ^ 32 - 1)
      set (s.dqDropBottom v)
      wrS d x) s

/-- `dqsteal` (R213). -/
def execDqsteal (d : BitVec 5) (a : BitVec 4) (sc : BitVec 3) (s : State) : Host.Outcome State Fault Refusal :=
  runInstr (.dqsteal d a sc) (do
    let (v, cap) ← dequeCopy a sc
    let s ← get
    if s.dqCount v = 0 then wrS d 0
    else
      let x ← takeSlot (← rdA a.toNat).ptr v cap (s.dqTop v)
      set (s.setFieldAt v 0 4 (s.dqTop v + 1))
      wrS d x) s

/-! Supersteps (R215 to R217). -/

/-- The scope of a synchronisation level. -/
def stepScope (level : Nat) : Nat := level + 1

/-- The logical cores of a record in the instance of a level around a logical core (R112). -/
def Rec.instanceAt (r : Rec) (level lc : Nat) : List Nat :=
  let site := r.place.getD lc 0
  (List.range r.place.length).filter fun j =>
    if level = 0 then j = lc else siteIn (level + 1) site (r.place.getD j 0)

/-- The arrival of a logical core. -/
def Rec.arrivalOf (r : Rec) (lc : Nat) : Option Arrival := r.arrivals.find? fun x => decide (x.lcore = lc)

/-- The members of the instance of an arrival, as record and logical core (R112): at level 4 the control contexts of
every record of the module with the same ASID and job seed launched at level 4; a record with `lsdrecs` 0 is alone (R113). -/
def State.members (s : State) (rid : Nat) (me : Arrival) : List (Nat × Nat) :=
  let r := s.recAt rid
  if me.level ≤ 3 then (r.instanceAt me.level me.lcore).map fun j => (rid, j)
  else
    (s.recs.map fun e =>
      if e.1 = rid || (decide (e.2.l.asid = r.l.asid) && decide (e.2.l.seed = r.l.seed) && decide (e.2.l.domain = 4)
          && decide (e.2.l.lsdrecs ≠ 0) && decide (r.l.lsdrecs ≠ 0) && decide (e.2.st ≠ .waiting)) then
        (List.range e.2.place.length).map fun j => (e.1, j)
      else []).flatten

/-- Every record of a load-store-domain instance has been launched on this module (R112). -/
def State.lsdWhole (s : State) (rid : Nat) (me : Arrival) : Bool :=
  me.level ≤ 3 || decide ((s.recAt rid).l.lsdrecs ≤ (((s.members rid me).map (·.1)).dedup).length)

/-- Two arrivals stand at the same step. -/
def Arrival.agrees (x y : Arrival) : Bool :=
  decide (x.level = y.level) && decide (x.count = y.count) && decide (x.phase = y.phase)

/-- The arrivals of the module that have not moved on, with their records. -/
def State.standing (s : State) : List (Nat × Arrival) :=
  (s.recs.map fun e => (e.2.arrivals.filter fun x => !x.moved).map fun x => (e.1, x)).flatten

/-- A member of the instance has arrived at the step with another level, count or phase, or one has of whose instance the
arrival is a member (R216). -/
def State.disagrees (s : State) (rid : Nat) (me : Arrival) : Bool :=
  s.standing.any fun e => decide ((e.1, e.2.lcore) ≠ (rid, me.lcore)) && !e.2.agrees me
    && ((s.members rid me).contains (e.1, e.2.lcore) || (s.members e.1 e.2).contains (rid, me.lcore))

/-- Every member has arrived, or has halted; from exchange, all that the members sent is delivered or refused
(R215, R216). -/
def State.stepReady (s : State) (rid : Nat) (me : Arrival) : Bool :=
  let ms := s.members rid me
  !s.disagrees rid me && s.lsdWhole rid me
    && (ms.all fun m => (s.recAt m.1).ended.contains m.2 || (match (s.recAt m.1).arrivalOf m.2 with
      | some x => !x.moved && x.agrees me
      | none => false))
    && (!me.phase || s.net.all fun f =>
      !(decide (f.srcCtx = 0) && ms.contains (f.srcRec, f.srcLc)))

/-- The instance of an arrival moves to the next phase. The end of an exchange at level 3 or 4 is a device-level
boundary (R217). -/
def State.moveOn (s : State) (rid : Nat) (me : Arrival) : State :=
  let ms := s.members rid me
  { s with recs := s.recs.map fun e =>
      if ms.any fun m => decide (m.1 = e.1) then
        (e.1, { e.2 with
          arrivals := e.2.arrivals.map fun x => if ms.contains (e.1, x.lcore) then { x with moved := true } else x
          boundary := e.2.boundary || (me.phase && decide (me.level ≥ 3)) })
      else e }

/-- The superstep count after the step of an arrival (R215). -/
def Arrival.nextCount (me : Arrival) (x : Context) : BitVec 63 := if me.phase then x.scount + 1 else x.scount

/-- The executing context goes on past its step: its arrival ends, its phase and count move, and the record notes a
superstep of its logical core 0 (R215, R217). -/
def State.stepPast (s : State) (rid : Nat) (me : Arrival) : State :=
  let r := s.recAt rid
  let r1 := { r with arrivals := r.arrivals.filter fun y => decide (y.lcore ≠ me.lcore), boundary := false }
  let s1 := s.setRec rid (if me.phase && me.lcore = 0 then
    { r1 with steps := r1.steps + 1, stepTime := s.cycle.toNat - r1.lastStep, lastStep := s.cycle.toNat } else r1)
  s1.setCtx { s1.ctx with sphase := !s1.ctx.sphase, scount := me.nextCount s.ctx }

/-- `sstep` (R215). At the end of an exchange at level 3 or 4 the last to arrive retires after a turn at the device-level boundary,
at which the device may switch the record (R217). -/
def execSstep (d : BitVec 5) (s : State) : Host.Outcome State Fault Refusal :=
  runInstr (.sstep d) (do
    notInMiss
    let s ← get
    require (decide (s.core.ctxNo = 0)) .illegal 0
    let x := s.ctx
    let rid := s.core.recId.getD 0
    let level := x.level.toNat
    let me : Arrival := { lcore := x.lcore.toNat, level := level, count := x.scount.toNat, phase := x.sphase }
    if ((s.recAt rid).arrivalOf me.lcore).isNone then
      if s.fencePending (stepScope level) s.site s.core.act then waitHere
      modRec rid fun r => { r with arrivals := r.arrivals ++ [me] }
    let s ← get
    let moved := (((s.recAt rid).arrivalOf me.lcore).map (·.moved)).getD false
    if !moved && s.disagrees rid me then raise .barrier 5
    if !moved && !s.stepReady rid me then waitKeep
    if !moved then
      modify fun s => s.moveOn rid me
      if me.phase && decide (me.level ≥ 3) then waitKeep
    modify fun s => s.stepPast rid me
    wrNat d (boolBit (!me.phase) 63 + (me.nextCount x).toNat)) s

/-- SUPERSTEP_ADVANCE (R215): the instance of arrival number k of a record moves on; the records are counted in order
of their numbers. -/
def superstepBody (k : Nat) : Op Unit := do
  let s ← get
  let all := (s.recs.map fun e => e.2.arrivals.map fun x => (e.1, x)).flatten
  let (rid, me) ← dueSome all[k]?
  due (!me.moved && s.stepReady rid me)
  set (s.moveOn rid me)

def execSuperstepAdvance (k : Nat) (s : State) : Host.Outcome State Fault Refusal := runEvent (superstepBody k) s

end Sys2Proof.Machine
end

