-- ==== Sys2Proof/Machine/Vector.lean ====
section
/-! DEFINITION. Vector: the vector instructions of majors 0x20 to 0x24 (R243 to R261) but the softmax merge. -/

namespace Sys2Proof.Machine

/-! Integer instructions (R248). `x` is the extended func. -/

/-- A clamped value as an element. -/
def clampBits (w : Nat) (lo hi x : Int) : Nat := intBits w (if x < lo then lo else if x > hi then hi else x)

def minInt (w : Nat) : Int := -(2 ^ (w - 1) : Nat)
def maxInt (w : Nat) : Int := ((2 ^ (w - 1) : Nat) : Int) - 1

/-- `vadd` and `vsub`: wrapping, clamped signed, clamped unsigned. -/
def vAddSub (sub : Bool) (x w a b : Nat) : Nat :=
  let f := fun (p q : Int) => if sub then p - q else p + q
  if x = 1 then clampBits w (minInt w) (maxInt w) (f (signExt w a) (signExt w b))
  else if x = 2 then clampBits w 0 ((2 ^ w : Nat) - 1) (f a b)
  else intBits w (f a b)

/-- `vmin` and `vmax`. -/
def vMinMax (max : Bool) (x w a b : Nat) : Nat :=
  let lt := if x = 1 then decide (a < b) else decide (signExt w a < signExt w b)
  if lt = max then b else a

/-- A predicated instruction of two vectors: sources in the order a, b, then the destination (R37, R245). -/
def vec2 (f : Nat → Nat → Nat → Nat → Nat) (d a b : BitVec 5) (p : BitVec 3) (e : BitVec 2) : Op Unit := do
  let x ← fnX
  let w := widthOf e.toNat
  let pr ← rdP p.toNat
  let va ← rdV a
  let vb ← rdV b
  let old ← oldV d
  wrV d (mergeVec old pr w fun i => f x w (elemOf va w i) (elemOf vb w i))

/-- A predicated instruction of one vector. -/
def vec1 (f : Nat → Nat → Nat) (d a : BitVec 5) (p : BitVec 3) (e : BitVec 2) : Op Unit := do
  let w := widthOf e.toNat
  let pr ← rdP p.toNat
  let va ← rdV a
  let old ← oldV d
  wrV d (mergeVec old pr w fun i => f w (elemOf va w i))

/-- `vadd` (R248). -/
def execVadd (d a b : BitVec 5) (p : BitVec 3) (e : BitVec 2) (s : State) : Host.Outcome State Fault Refusal :=
  runInstr (.vadd d a b p e) (vec2 (vAddSub false) d a b p e) s

/-- `vsub` (R248). -/
def execVsub (d a b : BitVec 5) (p : BitVec 3) (e : BitVec 2) (s : State) : Host.Outcome State Fault Refusal :=
  runInstr (.vsub d a b p e) (vec2 (vAddSub true) d a b p e) s

/-- `vmul` (R248). -/
def execVmul (d a b : BitVec 5) (p : BitVec 3) (e : BitVec 2) (s : State) : Host.Outcome State Fault Refusal :=
  runInstr (.vmul d a b p e) (vec2 (fun _ w x y => x * y % 2 ^ w) d a b p e) s

/-- `vmin` (R248). -/
def execVmin (d a b : BitVec 5) (p : BitVec 3) (e : BitVec 2) (s : State) : Host.Outcome State Fault Refusal :=
  runInstr (.vmin d a b p e) (vec2 (vMinMax false) d a b p e) s

/-- `vmax` (R248). -/
def execVmax (d a b : BitVec 5) (p : BitVec 3) (e : BitVec 2) (s : State) : Host.Outcome State Fault Refusal :=
  runInstr (.vmax d a b p e) (vec2 (vMinMax true) d a b p e) s

/-- `vabs` (R248). -/
def execVabs (d a : BitVec 5) (p : BitVec 3) (e : BitVec 2) (s : State) : Host.Outcome State Fault Refusal :=
  runInstr (.vabs d a p e) (vec1 (fun w x => intBits w (signExt w x).natAbs) d a p e) s

/-- `vneg` (R248). -/
def execVneg (d a : BitVec 5) (p : BitVec 3) (e : BitVec 2) (s : State) : Host.Outcome State Fault Refusal :=
  runInstr (.vneg d a p e) (vec1 (fun w x => intBits w (-(signExt w x))) d a p e) s

/-- `vand` (R248). -/
def execVand (d a b : BitVec 5) (p : BitVec 3) (e : BitVec 2) (s : State) : Host.Outcome State Fault Refusal :=
  runInstr (.vand d a b p e) (vec2 (fun _ _ x y => x &&& y) d a b p e) s

/-- `vor` (R248). -/
def execVor (d a b : BitVec 5) (p : BitVec 3) (e : BitVec 2) (s : State) : Host.Outcome State Fault Refusal :=
  runInstr (.vor d a b p e) (vec2 (fun _ _ x y => x ||| y) d a b p e) s

/-- `vxor` (R248). -/
def execVxor (d a b : BitVec 5) (p : BitVec 3) (e : BitVec 2) (s : State) : Host.Outcome State Fault Refusal :=
  runInstr (.vxor d a b p e) (vec2 (fun _ _ x y => x ^^^ y) d a b p e) s

/-- `vsll` (R248). -/
def execVsll (d a b : BitVec 5) (p : BitVec 3) (e : BitVec 2) (s : State) : Host.Outcome State Fault Refusal :=
  runInstr (.vsll d a b p e) (vec2 (fun _ w x y => x * 2 ^ (y % w) % 2 ^ w) d a b p e) s

/-- `vsrl` (R248). -/
def execVsrl (d a b : BitVec 5) (p : BitVec 3) (e : BitVec 2) (s : State) : Host.Outcome State Fault Refusal :=
  runInstr (.vsrl d a b p e) (vec2 (fun _ w x y => x / 2 ^ (y % w)) d a b p e) s

/-- `vsra` (R248). -/
def execVsra (d a b : BitVec 5) (p : BitVec 3) (e : BitVec 2) (s : State) : Host.Outcome State Fault Refusal :=
  runInstr (.vsra d a b p e) (vec2 (fun _ w x y => intBits w (signExt w x / (2 ^ (y % w) : Nat))) d a b p e) s

/-- `vmov` (R248). -/
def execVmov (d a : BitVec 5) (p : BitVec 3) (e : BitVec 2) (s : State) : Host.Outcome State Fault Refusal :=
  runInstr (.vmov d a p e) (vec1 (fun _ x => x) d a p e) s

/-- `vmov`, extract (R249). -/
def execVmovExtract (d a b : BitVec 5) (p : BitVec 3) (e : BitVec 2) (sgn : Bool) (s : State) :
    Host.Outcome State Fault Refusal :=
  runInstr (.vmovExtract d a b p e sgn) (do
    let w := widthOf e.toNat
    let va ← rdV a
    let k ← rdS b
    let x := elemOf va w (k.toNat % (1024 / w))
    wrS d (if sgn then toWord (signExt w x) else BitVec.ofNat 64 x)) s

/-- `vmov`, insert (R249). -/
def execVmovInsert (d a b : BitVec 5) (p : BitVec 3) (e : BitVec 2) (s : State) : Host.Outcome State Fault Refusal :=
  runInstr (.vmovInsert d a b p e) (do
    let w := widthOf e.toNat
    let v ← rdS a
    let k ← rdS b
    let lane := k.toNat % (1024 / w)
    let old ← oldV d
    wrV d (mkVec w fun i => if i = lane then v.toNat else elemOf old w i)) s

/-- `vbcast` (R248). -/
def execVbcast (d a : BitVec 5) (p : BitVec 3) (e : BitVec 2) (s : State) : Host.Outcome State Fault Refusal :=
  runInstr (.vbcast d a p e) (do
    let w := widthOf e.toNat
    let pr ← rdP p.toNat
    let v ← rdS a
    let old ← oldV d
    wrV d (mergeVec old pr w fun _ => v.toNat)) s

/-! Floating instructions (R250, R251). -/

/-- The format of an element-type field of majors 0x21 and 0x26 (R43). -/
def fltFmt (e : Nat) : FFmt := if e = 0 then F16 else if e = 1 then BF16 else if e = 2 then F32 else F64

/-- The first NaN among operands, made quiet, with `NV` if any is signalling. -/
def nanOf (f : FFmt) (l : List Val) : Option (Nat × Nat) :=
  match l.find? Val.isNan with
  | some (.nan n _ q) => some (f.quiet n q, if l.any Val.isSig then fNV else 0)
  | _ => none

/-- Sum of two values that are not NaNs; none for ∞ − ∞. -/
def sumVal (mode : Nat) (a b : Val) : Option Val :=
  match a, b with
  | .fin n1 m1 e1, .fin n2 m2 e2 => some (addFin mode n1 m1 e1 n2 m2 e2)
  | .inf n, .inf k => if n = k then some (.inf n) else none
  | .inf n, _ => some (.inf n)
  | _, .inf n => some (.inf n)
  | _, _ => none

/-- Product of two values that are not NaNs; none for 0 × ∞. -/
def mulVal (a b : Val) : Option Val :=
  match a, b with
  | .fin n1 m1 e1, .fin n2 m2 e2 => some (.fin (n1 != n2) (m1 * m2) (e1 + e2))
  | .inf n, .inf k => some (.inf (n != k))
  | .inf n, .fin k m _ => if m = 0 then none else some (.inf (n != k))
  | .fin k m _, .inf n => if m = 0 then none else some (.inf (n != k))
  | _, _ => none

/-- The opposite of a number. -/
def Val.negate : Val → Val
  | .fin n m e => .fin (!n) m e
  | .inf n => .inf (!n)
  | x => x

/-- A result in a format: the default NaN with `NV` for an invalid case. -/
def roundOpt (f : FFmt) (mode r : Nat) : Option Val → Nat × Nat
  | some v => f.ofVal mode v r
  | none => (f.nanBits, fNV)

def fpAdd (f : FFmt) (mode a b r : Nat) : Nat × Nat :=
  match nanOf f [f.decode a, f.decode b] with
  | some x => x
  | none => roundOpt f mode r (sumVal mode (f.decode a) (f.decode b))

def fpSub (f : FFmt) (mode a b r : Nat) : Nat × Nat :=
  match nanOf f [f.decode a, f.decode b] with
  | some x => x
  | none => roundOpt f mode r (sumVal mode (f.decode a) (f.decode b).negate)

def fpMul (f : FFmt) (mode a b r : Nat) : Nat × Nat :=
  match nanOf f [f.decode a, f.decode b] with
  | some x => x
  | none => roundOpt f mode r (mulVal (f.decode a) (f.decode b))

/-- `vfma` and, with the product negated, `vfms`: one rounding. 0 × ∞ is invalid even beside a quiet NaN. -/
def fmaVal (neg : Bool) (f : FFmt) (mode : Nat) (x y z : Val) (r : Nat) : Nat × Nat :=
  let invalid := if !x.isNan && !y.isNan && (mulVal x y).isNone then fNV else 0
  match nanOf f [x, y, z] with
  | some q => (q.1, q.2 ||| invalid)
  | none =>
    match mulVal x y with
    | none => (f.nanBits, fNV)
    | some pr => roundOpt f mode r (sumVal mode (if neg then pr.negate else pr) z)

def fpMulAdd (neg : Bool) (f : FFmt) (mode a b d r : Nat) : Nat × Nat :=
  fmaVal neg f mode (f.decode a) (f.decode b) (f.decode d) r

/-- A predicated floating instruction of two vectors, with the old destination as third operand. -/
def fvec (g : FFmt → Nat → Nat → Nat → Nat → Nat → Nat × Nat) (d a b : BitVec 5) (p : BitVec 3) (e : BitVec 2) : Op Unit := do
  let mode ← fnMode
  let f := fltFmt e.toNat
  let w := f.width
  let pr ← rdP p.toNat
  let va ← rdV a
  let vb ← rdV b
  let old ← oldV d
  let s ← get
  wrVfp d pr w (1024 / w) mode fun i =>
    g f mode (elemOf va w i) (elemOf vb w i) (elemOf old w i) (s.draw (drawRank pr w i))

/-- `vfadd` (R250). -/
def execVfadd (d a b : BitVec 5) (p : BitVec 3) (e : BitVec 2) (s : State) : Host.Outcome State Fault Refusal :=
  runInstr (.vfadd d a b p e) (fvec (fun f m x y _ r => fpAdd f m x y r) d a b p e) s

/-- `vfsub` (R250). -/
def execVfsub (d a b : BitVec 5) (p : BitVec 3) (e : BitVec 2) (s : State) : Host.Outcome State Fault Refusal :=
  runInstr (.vfsub d a b p e) (fvec (fun f m x y _ r => fpSub f m x y r) d a b p e) s

/-- `vfmul` (R250). -/
def execVfmul (d a b : BitVec 5) (p : BitVec 3) (e : BitVec 2) (s : State) : Host.Outcome State Fault Refusal :=
  runInstr (.vfmul d a b p e) (fvec (fun f m x y _ r => fpMul f m x y r) d a b p e) s

/-- `vfma` (R250). -/
def execVfma (d a b : BitVec 5) (p : BitVec 3) (e : BitVec 2) (s : State) : Host.Outcome State Fault Refusal :=
  runInstr (.vfma d a b p e) (fvec (fpMulAdd false) d a b p e) s

/-- `vfms` (R250). -/
def execVfms (d a b : BitVec 5) (p : BitVec 3) (e : BitVec 2) (s : State) : Host.Outcome State Fault Refusal :=
  runInstr (.vfms d a b p e) (fvec (fpMulAdd true) d a b p e) s

/-- `vfmin` and `vfmax` (R251): `NV` for a signalling operand. -/
def fpMinMax (max : Bool) (f : FFmt) (x y : Nat) : Nat × Nat :=
  (minMaxBits f max x y, if (f.decode x).isSig || (f.decode y).isSig then fNV else 0)

/-- `vfmin` (R251). -/
def execVfmin (d a b : BitVec 5) (p : BitVec 3) (e : BitVec 2) (s : State) : Host.Outcome State Fault Refusal :=
  runInstr (.vfmin d a b p e) (do
    let f := fltFmt e.toNat
    let pr ← rdP p.toNat
    let va ← rdV a
    let vb ← rdV b
    wrVfp d pr f.width (1024 / f.width) 0 fun i => fpMinMax false f (elemOf va f.width i) (elemOf vb f.width i)) s

/-- `vfmax` (R251). -/
def execVfmax (d a b : BitVec 5) (p : BitVec 3) (e : BitVec 2) (s : State) : Host.Outcome State Fault Refusal :=
  runInstr (.vfmax d a b p e) (do
    let f := fltFmt e.toNat
    let pr ← rdP p.toNat
    let va ← rdV a
    let vb ← rdV b
    wrVfp d pr f.width (1024 / f.width) 0 fun i => fpMinMax true f (elemOf va f.width i) (elemOf vb f.width i)) s

/-- An instruction on the sign bit of each active element (R251). -/
def signVec (g : Nat → Nat → Nat) (d a : BitVec 5) (p : BitVec 3) (e : BitVec 2) : Op Unit := do
  let w := (fltFmt e.toNat).width
  let pr ← rdP p.toNat
  let va ← rdV a
  let old ← oldV d
  wrV d (mergeVec old pr w fun i => g w (elemOf va w i))

/-- `vfabs` (R251). -/
def execVfabs (d a : BitVec 5) (p : BitVec 3) (e : BitVec 2) (s : State) : Host.Outcome State Fault Refusal :=
  runInstr (.vfabs d a p e) (signVec (fun w x => x % 2 ^ (w - 1)) d a p e) s

/-- `vfneg` (R251). -/
def execVfneg (d a : BitVec 5) (p : BitVec 3) (e : BitVec 2) (s : State) : Host.Outcome State Fault Refusal :=
  runInstr (.vfneg d a p e) (signVec (fun w x => (x + 2 ^ (w - 1)) % 2 ^ w) d a p e) s

/-! Compare, select, predicates (R252, R253). -/

/-- A condition on two elements: its truth and the flags (R252). -/
def vcmpHolds (c e a b : Nat) : Bool × Nat :=
  if c ≤ 5 then
    let w := widthOf e
    let lt := decide (signExt w a < signExt w b)
    (if c = 0 then a = b else if c = 1 then a ≠ b else if c = 2 then lt else if c = 3 then !lt
      else if c = 4 then a < b else !decide (a < b), 0)
  else
    let f := fltFmt e
    let x := f.decode a
    let y := f.decode b
    let nan := x.isNan || y.isNan
    let sig := if x.isSig || y.isSig then fNV else 0
    if c = 8 then (!nan && Val.eq x y, sig)
    else if c = 9 then (!(!nan && Val.eq x y), sig)
    else if c = 10 then (!nan && Val.lt false x y, if nan then fNV else 0)
    else if c = 11 then (!nan && (Val.lt false x y || Val.eq x y), if nan then fNV else 0)
    else (nan, sig)

/-- A predicate whose element i holds when f i does. -/
def mkPred (w : Nat) (f : Nat → Bool) : PWord :=
  BitVec.ofNat 128 (packElems (w / 8) (fun i => if f i then 2 ^ (w / 8) - 1 else 0) (1024 / w))

/-- `vcmp` (R252). -/
def execVcmp (c a b : BitVec 5) (p : BitVec 3) (e : BitVec 2) (s : State) : Host.Outcome State Fault Refusal :=
  runInstr (.vcmp c a b p e) (do
    let w := if c.toNat ≤ 5 then widthOf e.toNat else (fltFmt e.toNat).width
    let va ← rdV a
    let vb ← rdV b
    let r := fun i => vcmpHolds c.toNat e.toNat (elemOf va w i) (elemOf vb w i)
    wrP p.toNat (mkPred w fun i => (r i).1)
    noteFp ((List.range (1024 / w)).foldl (fun f i => f ||| (r i).2) 0) 0) s

/-- `vsel` (R253). -/
def execVsel (d a b : BitVec 5) (p : BitVec 3) (e : BitVec 2) (s : State) : Host.Outcome State Fault Refusal :=
  runInstr (.vsel d a b p e) (do
    let w := widthOf e.toNat
    let pr ← rdP p.toNat
    let va ← rdV a
    let vb ← rdV b
    wrV d (mkVec w fun i => if active pr w i then elemOf va w i else elemOf vb w i)) s

/-- An operation on predicate registers (R253). -/
def predOp (f : PWord → PWord → PWord) (d a b : BitVec 3) : Op Unit := do
  let x ← rdP a.toNat
  let y ← rdP b.toNat
  wrP d.toNat (f x y)

/-- `pand` (R253). -/
def execPand (d a b : BitVec 3) (s : State) : Host.Outcome State Fault Refusal :=
  runInstr (.pand d a b) (predOp (· &&& ·) d a b) s

/-- `por` (R253). -/
def execPor (d a b : BitVec 3) (s : State) : Host.Outcome State Fault Refusal :=
  runInstr (.por d a b) (predOp (· ||| ·) d a b) s

/-- `pxor` (R253). -/
def execPxor (d a b : BitVec 3) (s : State) : Host.Outcome State Fault Refusal :=
  runInstr (.pxor d a b) (predOp (· ^^^ ·) d a b) s

/-- `pnot` (R253). -/
def execPnot (d a : BitVec 3) (s : State) : Host.Outcome State Fault Refusal :=
  runInstr (.pnot d a) (predOp (fun x _ => ~~~x) d a a) s

/-- `pmov` (R253). -/
def execPmov (d a : BitVec 3) (s : State) : Host.Outcome State Fault Refusal :=
  runInstr (.pmov d a) (predOp (fun x _ => x) d a a) s

/-! Permutes, reductions, scans (R254 to R257). -/

/-- `vperm` (R254). -/
def execVperm (d a b : BitVec 5) (p : BitVec 3) (e : BitVec 2) (s : State) : Host.Outcome State Fault Refusal :=
  runInstr (.vperm d a b p e) (do
    let w := widthOf e.toNat
    let pr ← rdP p.toNat
    let va ← rdV a
    let vb ← rdV b
    let old ← oldV d
    wrV d (mergeVec old pr w fun i => elemOf va w (elemOf vb w i % (1024 / w)))) s

/-- The floating format of a reduction (R255). -/
def redFmt (x w : Nat) : FFmt := if x = 2 then BF16 else if w = 16 then F16 else if w = 32 then F32 else F64

/-- One node of a reduction tree (R256): kind 0 sum, 1 maximum, 2 minimum. -/
def redNode (kind x w a b : Nat) : Nat × Nat :=
  if x = 1 ∨ x = 2 then
    let f := redFmt x w
    if kind = 0 then fpAdd f 0 a b 0 else fpMinMax (kind = 1) f a b
  else if kind = 0 then ((a + b) % 2 ^ w, 0)
  else (vMinMax (kind = 1) (if x = 3 then 1 else 0) w a b, 0)

/-- One level of the tree. -/
def treeLevel (op : Nat → Nat → Nat × Nat) : List (Option Nat) → List (Option Nat) × Nat
  | l :: r :: t =>
    let (rest, fl) := treeLevel op t
    match l, r with
    | some a, some b => (some (op a b).1 :: rest, fl ||| (op a b).2)
    | some a, none => (some a :: rest, fl)
    | none, y => (y :: rest, fl)
  | l => (l, 0)

/-- The levels of the tree. -/
def treeFold (op : Nat → Nat → Nat × Nat) : Nat → List (Option Nat) → Option Nat × Nat
  | 0, l => (l.headD none, 0)
  | n + 1, l =>
    let (l', fl) := treeLevel op l
    let (r, fl') := treeFold op n l'
    (r, fl ||| fl')

/-- The identity of a reduction (R256). -/
def redIdentity (kind x w : Nat) : Nat :=
  if kind = 0 then 0
  else if x = 1 ∨ x = 2 then (redFmt x w).infBits (kind = 1)
  else if x = 3 then (if kind = 1 then 0 else 2 ^ w - 1)
  else if kind = 1 then 2 ^ (w - 1) else 2 ^ (w - 1) - 1

/-- A reduction (R256). -/
def reduction (kind : Nat) (d a : BitVec 5) (p : BitVec 3) (e : BitVec 2) : Op Unit := do
  let x ← fnX
  let w := widthOf e.toNat
  let n := 1024 / w
  let pr ← rdP p.toNat
  let va ← rdV a
  let leaves := (List.range n).map fun i => if active pr w i then some (elemOf va w i) else none
  let (root, fl) := treeFold (redNode kind x w) (Nat.log2 n) leaves
  let sig := (x = 1 || x = 2) && leaves.any fun o => match o with
    | some b => ((redFmt x w).decode b).isSig
    | none => false
  let old ← oldV d
  wrV d (mkVec w fun i => if i = 0 then root.getD (redIdentity kind x w) else elemOf old w i)
  noteFp (fl ||| (if sig then fNV else 0)) 0

/-- `vrsum` (R256). -/
def execVrsum (d a : BitVec 5) (p : BitVec 3) (e : BitVec 2) (s : State) : Host.Outcome State Fault Refusal :=
  runInstr (.vrsum d a p e) (reduction 0 d a p e) s

/-- `vrmax` (R256). -/
def execVrmax (d a : BitVec 5) (p : BitVec 3) (e : BitVec 2) (s : State) : Host.Outcome State Fault Refusal :=
  runInstr (.vrmax d a p e) (reduction 1 d a p e) s

/-- `vrmin` (R256). -/
def execVrmin (d a : BitVec 5) (p : BitVec 3) (e : BitVec 2) (s : State) : Host.Outcome State Fault Refusal :=
  runInstr (.vrmin d a p e) (reduction 2 d a p e) s

/-- Prefix sums of the active elements in ascending order: the value after each, with the flags (R257). -/
def scanFrom (op : Nat → Nat → Nat × Nat) : List (Option Nat) → Option Nat → List (Option Nat) × Nat
  | [], _ => ([], 0)
  | none :: t, acc =>
    let (r, fl) := scanFrom op t acc
    (none :: r, fl)
  | some x :: t, none =>
    let (r, fl) := scanFrom op t (some x)
    (some x :: r, fl)
  | some x :: t, some a =>
    let y := op a x
    let (r, fl) := scanFrom op t (some y.1)
    (some y.1 :: r, fl ||| y.2)

/-- `vscan` (R257). -/
def execVscan (d a : BitVec 5) (p : BitVec 3) (e : BitVec 2) (s : State) : Host.Outcome State Fault Refusal :=
  runInstr (.vscan d a p e) (do
    let x ← fnX
    let w := widthOf e.toNat
    let pr ← rdP p.toNat
    let va ← rdV a
    let old ← oldV d
    let items := (List.range (1024 / w)).map fun i => if active pr w i then some (elemOf va w i) else none
    let (out, fl) := scanFrom (redNode 0 x w) items none
    wrV d (mkVec w fun i => ((out.getD i none).getD (elemOf old w i)))
    noteFp fl 0) s

/-! Loads and stores (R259 to R261). -/

/-- The displacement of a VM-format instruction in bytes: 128 times 5 bits, or 29 under a `pfx imm` (R41, R44). -/
def dispVm (i : BitVec 5) : Op Int := do
  match (← getCtx).pfx with
  | .imm p => return 128 * signExt 29 (p.toNat * 32 + i.toNat)
  | _ => return 128 * signExt 5 i.toNat

/-- The format of an object suits an element width (R260). -/
def vecFits (fmt w : Nat) : Bool := fmt = 0 || fmtBits fmt = w || (fmtBits fmt = 4 && w = 8)

/-- The length that bounds a vector access (R260). -/
def vecLimit (sh : Shadow) (load : Bool) : Nat :=
  let n := sh.len.toNat
  if sh.typ.toNat = tRSTATE && load then readLen tRSTATE n
  else if load then n + scaleBytes sh.fmt.toNat sh.blog.toNat n else n

/-- The checks of each active element, in ascending order (R260). -/
def vecChecks (l : Loc) (sh : Shadow) (load : Bool) (b : Nat) (offs : List (Nat × Int)) : Op Unit := do
  for e in offs do
    boundsCheck e.2 b (vecLimit sh load)
    require (decide (e.2 % b = 0)) .misalign (toWord e.2)
    let s ← get
    require (!s.readPoisoned s.me l e.2.toNat b) .poison (toWord e.2)
    awaitReds l e.2.toNat b

/-- The touch and the checks of a vector access: the place and the offsets of the active elements (R260). -/
def vecAccess (p : BitVec 4) (q : BitVec 3) (w : Nat) (load : Bool) (n : Nat) (off : Nat → Int) : Op (Loc × List (Nat × Int)) := do
  let l ← touchBody p.toNat (off 0)
  let r ← rdA p.toNat
  let sh := r.sh
  let ok ← allowed sh.typ.toNat (if load then .ld else .st)
  require (ok && decide (sh.typ.toNat ≠ tPTRS)) .type (toWord (off 0))
  require (vecFits sh.fmt.toNat w) .type r.ptr
  let pr ← rdP q.toNat
  let offs := (activeList pr w n).map fun i => (i, off i)
  vecChecks l sh load (w / 8) offs
  return (l, offs)

/-- A contiguous access (R259). -/
def contiguous (p : BitVec 4) (x : BitVec 5) (i : BitVec 5) (w : Nat) : Op (Nat → Int) := do
  let k ← rdS x
  let disp ← dispVm i
  let cur := (← rdA p.toNat).cur.toNat
  return fun j => (cur : Int) + (w / 8 : Nat) * k.toInt + disp + (j * (w / 8) : Nat)

/-- Lanes of a gather or scatter (R259). -/
def gatherLanes (w : Nat) : Nat := if w = 64 then 16 else 32

/-- An indexed access (R259). -/
def indexed (p : BitVec 4) (x : BitVec 5) (i : BitVec 5) (w : Nat) : Op (Nat → Int) := do
  noStream x
  let vx ← oldV x
  let disp ← dispVm i
  let cur := (← rdA p.toNat).cur.toNat
  return fun j => (cur : Int) + (w / 8 : Nat) * signExt 32 (elemOf vx 32 j) + disp

/-- Loads the active elements at their offsets (R261). -/
def vecLoad (v : BitVec 5) (w : Nat) (l : Loc) (offs : List (Nat × Int)) : Op Unit := do
  let old ← oldV v
  let s ← get
  wrV v (mkVec w fun j => match offs.find? fun e => decide (e.1 = j) with
    | some e => ofBytes (s.readBody s.me l e.2.toNat (w / 8))
    | none => elemOf old w j)

/-- Stores the active elements at their offsets, in ascending order (R261). -/
def vecStore (p : BitVec 4) (val : VWord) (w : Nat) (l : Loc) (offs : List (Nat × Int)) : Op Unit := do
  modify fun s => offs.foldl (fun (t : State) e => t.putObj l e.2.toNat (leBytes (elemOf val w e.1) (w / 8))) s
  let s ← get
  if !offs.isEmpty then noteWatch (canonOf (s.ctx.areg p.toNat).ptr (s.hdr l))

/-- `vld` (R261). -/
def execVld (v : BitVec 5) (p : BitVec 4) (x : BitVec 5) (q : BitVec 3) (w : BitVec 2) (i : BitVec 5) (s : State) :
    Host.Outcome State Fault Refusal :=
  runInstr (.vld v p x q w i) (do
    let wd := widthOf w.toNat
    checkVd v
    let off ← contiguous p x i wd
    let (l, offs) ← vecAccess p q wd true (1024 / wd) off
    vecLoad v wd l offs) s

/-- `vst` (R261). -/
def execVst (v : BitVec 5) (p : BitVec 4) (x : BitVec 5) (q : BitVec 3) (w : BitVec 2) (i : BitVec 5) (s : State) :
    Host.Outcome State Fault Refusal :=
  runInstr (.vst v p x q w i) (do
    let wd := widthOf w.toNat
    let off ← contiguous p x i wd
    let val ← rdV v
    let (l, offs) ← vecAccess p q wd false (1024 / wd) off
    vecStore p val wd l offs) s

/-- `vgth` (R261). -/
def execVgth (v : BitVec 5) (p : BitVec 4) (x : BitVec 5) (q : BitVec 3) (w : BitVec 2) (i : BitVec 5) (s : State) :
    Host.Outcome State Fault Refusal :=
  runInstr (.vgth v p x q w i) (do
    let wd := widthOf w.toNat
    checkVd v
    let off ← indexed p x i wd
    let (l, offs) ← vecAccess p q wd true (gatherLanes wd) off
    vecLoad v wd l offs) s

/-- `vsct` (R261). -/
def execVsct (v : BitVec 5) (p : BitVec 4) (x : BitVec 5) (q : BitVec 3) (w : BitVec 2) (i : BitVec 5) (s : State) :
    Host.Outcome State Fault Refusal :=
  runInstr (.vsct v p x q w i) (do
    let wd := widthOf w.toNat
    let off ← indexed p x i wd
    let val ← rdV v
    let (l, offs) ← vecAccess p q wd false (gatherLanes wd) off
    vecStore p val wd l offs) s

end Sys2Proof.Machine
end

