-- ==== Sys2Proof/Machine/Special.lean ====
section
/-! DEFINITION. Special: the special functions (R270) and the softmax merge (R258). A transcendental value is formed to
many more bits than any format holds, with its last bits cut off, and then rounded (log entry 9). -/

namespace Sys2Proof.Machine

/-- floor or ceiling of a quotient. -/
def divDir (up : Bool) (a b : Nat) : Nat := if up then ceilDiv a b else a / b

/-- Terms of the series of e^y for y < 1/2 in units of 2^-Q. -/
def expTerms (up : Bool) (Q y : Nat) : Nat → Nat → Nat → Nat → Nat
  | 0, _, term, acc => if up then acc + term + 1 else acc
  | k + 1, n, term, acc =>
    let t := divDir up (term * y) (n * 2 ^ Q)
    expTerms up Q y k (n + 1) t (acc + t)

/-- x^(2^k) in units of 2^-Q. -/
def squareTimes (up : Bool) (Q : Nat) : Nat → Nat → Nat
  | 0, x => x
  | k + 1, x => squareTimes up Q k (divDir up (x * x) (2 ^ Q))

/-- The number of fraction bits that the functions work with. -/
def fracBits : Nat := 2048

/-- e^x in units of 2^-2048, for x below 1024 in the same units. -/
def expFix (up : Bool) (x : Nat) : Nat :=
  squareTimes up fracBits 20 (expTerms up fracBits (divDir up x (2 ^ 20)) 300 1 (2 ^ fracBits) (2 ^ fracBits))

/-- A magnitude m × 2^e in units of 2^-2048. -/
def toFix (m : Nat) (e : Int) : Nat := if 0 ≤ e + fracBits then m * 2 ^ (e + fracBits).toNat else m / 2 ^ (-(e + fracBits)).toNat

/-- e^(−x) in units of 2^-2048. -/
def expNegFix (x : Nat) : Nat := 2 ^ (2 * fracBits) / expFix true x

/-- A number just below or above a magnitude: 2^64 finer, one unit off, with something left over. -/
def nudge (m : Nat) (e : Int) (above : Bool) : Nat × Int := (if above then m * 2 ^ 64 else m * 2 ^ 64 - 1, e - 64)

/-- e^a of a finite nonzero number: whole part and exponent of a magnitude a little larger. -/
def expVal (neg : Bool) (m : Nat) (e : Int) : Nat × Int :=
  let top := (Nat.log2 m : Int) + e
  if top < -80 then nudge 1 0 (!neg)
  else if top ≥ 10 then (if neg then (0, 0) else (1, 100000))
  else if neg then (expNegFix (toFix m e), -(fracBits : Int))
  else (expFix false (toFix m e), -(fracBits : Int))

/-- atanh of 1/k times k-th powers: the sum of t^(2i+1)/(2i+1) in units of 2^-Q, for t below 1/2 in those units. -/
def atanhTerms (Q t2 : Nat) : Nat → Nat → Nat → Nat → Nat
  | 0, _, _, acc => acc
  | k + 1, n, term, acc => atanhTerms Q t2 k (n + 2) (term * t2 / 2 ^ Q) (acc + term / n)

def atanhFix (t : Nat) : Nat := atanhTerms fracBits (t * t / 2 ^ fracBits) 1100 1 t 0

/-- ln 2 in units of 2^-2048. -/
def ln2Fix : Nat := 2 * atanhFix (2 ^ fracBits / 3)

/-- ln of m × 2^e with m nonzero, as a signed number in units of 2^-2048. -/
def lnFix (m : Nat) (e : Int) : Int :=
  let k := Nat.log2 m
  let big := decide (m * 4 > 3 * 2 ^ (k + 1))
  let x : Int := if big then toFix m (-(k : Int) - 1) else toFix m (-(k : Int))
  let one : Int := (2 ^ fracBits : Nat)
  let ex : Int := (k : Int) + e + (if big then 1 else 0)
  let t := ((x - one).natAbs * 2 ^ fracBits) / (x + one).toNat
  let l : Int := 2 * (atanhFix t : Int)
  ex * (ln2Fix : Int) + (if x < one then -l else l)

/-- tanh of a finite nonzero magnitude. -/
def tanhVal (m : Nat) (e : Int) : Nat × Int :=
  let top := (Nat.log2 m : Int) + e
  if top < -40 then nudge m e false
  else if top ≥ 6 then nudge 1 0 false
  else
    let x := expFix false (2 * toFix m e)
    let one := 2 ^ fracBits
    ((x - one) * one / (x + one), -(fracBits : Int))

/-- Terms of arctan(1/k) in units of 2^-Q. -/
def atanTerms (k2 : Nat) : Nat → Nat → Nat → Bool → Int → Int
  | 0, _, _, _, acc => acc
  | i + 1, n, term, minus, acc =>
    atanTerms k2 i (n + 2) (term / k2) (!minus) (if minus then acc - (term / n : Nat) else acc + (term / n : Nat))

/-- π in units of 2^-Q, by π/4 = 4 arctan(1/5) − arctan(1/239). -/
def piFix (Q : Nat) : Nat :=
  (4 * (4 * atanTerms 25 (Q / 4) 1 (2 ^ Q / 5) false 0 - atanTerms 57121 (Q / 4) 1 (2 ^ Q / 239) false 0)).toNat

/-- Terms of sin x in units of 2^-2048. -/
def sinTerms (x2 : Nat) : Nat → Nat → Nat → Bool → Int → Int
  | 0, _, _, _, acc => acc
  | i + 1, n, term, minus, acc =>
    let acc' := if minus then acc - (term : Int) else acc + (term : Int)
    sinTerms x2 i (n + 2) (term * x2 / 2 ^ fracBits / ((n + 1) * (n + 2))) (!minus) acc'

/-- sin of a finite nonzero magnitude: its sign, whole part and exponent. -/
def sinVal (m : Nat) (e : Int) : Bool × Nat × Int :=
  let top := (Nat.log2 m : Int) + e
  if top < -40 then (false, nudge m e false)
  else
    let Q := fracBits + 1100
    let x := m * 2 ^ (e + Q).toNat
    let pi := piFix Q
    let k := x / pi
    let r := (x - k * pi) / 2 ^ 1100
    let y := sinTerms (r * r / 2 ^ fracBits) 400 1 r false 0
    (decide (k % 2 = 1), y.toNat, -(fracBits : Int))

/-- A value within one unit in the last place of a number that the format does not hold: the neighbour that the device
takes; an overflow is an infinity (R270). -/
def nearValue (fn e : Nat) (f : FFmt) (bits : Nat) (neg : Bool) (m : Nat) (ex : Int) : Nat × Nat :=
  let away := if neg then 2 else 3
  let up := Config.neighbourUp fn e bits
  let r := f.round (if up then away else 1) neg m ex true 0
  if r.2 / fOF % 2 = 1 then (f.infBits neg, fOF + fNX) else r

/-- Integer square root by bits, from bit k down. -/
def isqrt (n : Nat) : Nat → Nat → Nat
  | 0, r => r
  | k + 1, r =>
    let t := r + 2 ^ k
    isqrt n k (if t * t ≤ n then t else r)

/-- 1/a of a finite nonzero number, rounded to nearest. -/
def rcpBits (f : FFmt) (neg : Bool) (m : Nat) (e : Int) : Nat × Nat :=
  let k := Nat.log2 m + 2 * f.fbits + 64
  f.round 0 neg (2 ^ k / m) (-e - k) (decide (2 ^ k % m ≠ 0)) 0

/-- 1/√a of a positive number, rounded to nearest. -/
def rsqrtBits (f : FFmt) (m : Nat) (e : Int) : Nat × Nat :=
  let (m2, e2) := if e % 2 = 0 then (m, e) else (2 * m, e - 1)
  let k := Nat.log2 m2 + 2 * f.fbits + 64
  let n := isqrt (2 ^ (2 * k) / m2) (k + 2) 0
  f.round 0 false n (-(e2 / 2) - k) (decide (n * n * m2 ≠ 2 ^ (2 * k))) 0

/-- A special function of an element (R270): function code 0 `vexp` to 5 `vsin`. -/
def specialFn (fn e bits : Nat) : Nat × Nat :=
  let f := fltFmt e
  let one := f.pack false f.bias 0
  match f.decode bits with
  | .nan n sig q => (f.quiet n q, if sig then fNV else 0)
  | .inf n =>
    if fn = 0 then (if n then 0 else f.infBits false, 0)
    else if fn = 1 ∨ fn = 3 then (if n then (f.nanBits, fNV) else (if fn = 1 then f.infBits false else 0, 0))
    else if fn = 2 then (f.pack n 0 0, 0)
    else if fn = 4 then (f.pack n f.bias 0, 0)
    else (f.nanBits, fNV)
  | .fin n m ex =>
    if m = 0 then
      if fn = 0 then (one, 0)
      else if fn = 1 then (f.infBits true, fDZ)
      else if fn = 2 ∨ fn = 3 then (f.infBits n, fDZ)
      else (f.pack n 0 0, 0)
    else if fn = 0 then
      let r := expVal n m ex
      nearValue fn e f bits false r.1 r.2
    else if fn = 1 then
      if n then (f.nanBits, fNV)
      else if bits = one then (0, 0)
      else
        let l := lnFix m ex
        nearValue fn e f bits (decide (l < 0)) l.natAbs (-(fracBits : Int))
    else if fn = 2 then rcpBits f n m ex
    else if fn = 3 then (if n then (f.nanBits, fNV) else rsqrtBits f m ex)
    else if fn = 4 then
      let r := tanhVal m ex
      nearValue fn e f bits n r.1 r.2
    else
      let r := sinVal m ex
      nearValue fn e f bits (n != r.1) r.2.1 r.2.2

/-- A special-function instruction. -/
def specialVec (fn : Nat) (d a : BitVec 5) (p : BitVec 3) (e : BitVec 2) : Op Unit := do
  let w := (fltFmt e.toNat).width
  let pr ← rdP p.toNat
  let va ← rdV a
  wrVfp d pr w (1024 / w) 0 fun i => specialFn fn e.toNat (elemOf va w i)

/-- `vexp` (R270). -/
def execVexp (d a : BitVec 5) (p : BitVec 3) (e : BitVec 2) (s : State) : Host.Outcome State Fault Refusal :=
  runInstr (.vexp d a p e) (specialVec 0 d a p e) s

/-- `vlog` (R270). -/
def execVlog (d a : BitVec 5) (p : BitVec 3) (e : BitVec 2) (s : State) : Host.Outcome State Fault Refusal :=
  runInstr (.vlog d a p e) (specialVec 1 d a p e) s

/-- `vrcp` (R270). -/
def execVrcp (d a : BitVec 5) (p : BitVec 3) (e : BitVec 2) (s : State) : Host.Outcome State Fault Refusal :=
  runInstr (.vrcp d a p e) (specialVec 2 d a p e) s

/-- `vrsqrt` (R270). -/
def execVrsqrt (d a : BitVec 5) (p : BitVec 3) (e : BitVec 2) (s : State) : Host.Outcome State Fault Refusal :=
  runInstr (.vrsqrt d a p e) (specialVec 3 d a p e) s

/-- `vtanh` (R270). -/
def execVtanh (d a : BitVec 5) (p : BitVec 3) (e : BitVec 2) (s : State) : Host.Outcome State Fault Refusal :=
  runInstr (.vtanh d a p e) (specialVec 4 d a p e) s

/-- `vsin` (R270). -/
def execVsin (d a : BitVec 5) (p : BitVec 3) (e : BitVec 2) (s : State) : Host.Outcome State Fault Refusal :=
  runInstr (.vsin d a p e) (specialVec 5 d a p e) s

/-! The softmax merge (R258). -/

/-- The weight of a state whose maximum is mX when the merged maximum is m: none for 0, else the exponent −δ of
e^(−δ), as mantissa and exponent, with 0 for the weight 1. -/
def smWeight (mx m : Val) : Option (Nat × Int) :=
  match mx, m with
  | .inf true, .inf true => some (0, 0)
  | .inf false, .inf false => some (0, 0)
  | .fin n1 m1 e1, .fin n2 m2 e2 =>
    let q := min e1 e2
    some ((atExp n2 m2 e2 q - atExp n1 m1 e1 q).natAbs, q)
  | _, _ => none

/-- A finite term e^(−δ) × y as a number: sign, magnitude and exponent. A weight below e^(−1024) leaves a magnitude far
below every rounding position. -/
def smTerm (wt : Nat × Int) (n : Bool) (m : Nat) (e : Int) : Bool × Nat × Int :=
  if wt.1 = 0 ∨ m = 0 then (n, m, e)
  else if (Nat.log2 wt.1 : Int) + wt.2 ≥ 10 then (n, 1, -4000)
  else if (Nat.log2 wt.1 : Int) + wt.2 < -200 then
    let r := nudge 1 0 false
    (n, m * (r.1 * 2 ^ 136 + (2 ^ 136 - 1)), e + r.2 - 136)
  else (n, m * expNegFix (toFix wt.1 wt.2), e - fracBits)

/-- A lane of a merge: the remaining terms, D's before A's, each a weight and a value (R258). -/
def smLane (terms : List ((Nat × Int) × Val)) : Nat × Nat :=
  match (terms.map (·.2)).find? Val.isNan with
  | some (.nan n sig q) => (F32.quiet n q, if sig then fNV else 0)
  | _ =>
    let infs := terms.filterMap fun t => match t.2 with | .inf n => some n | _ => none
    match infs with
    | n :: r => if r.all fun k => k = n then (F32.infBits n, 0) else (F32.nanBits, fNV)
    | [] =>
      let vals := terms.filterMap fun t => match t.2 with
        | .fin n m e => some (smTerm t.1 n m e)
        | _ => none
      match vals with
      | [] => (0, 0)
      | [(n, m, e)] => F32.round 0 n m e false 0
      | (n1, m1, e1) :: (n2, m2, e2) :: _ => F32.ofVal 0 (addFin 0 n1 m1 e1 n2 m2 e2) 0

/-- The greater of two maxima, −0 below +0. -/
def smMax (a b : Val) : Val := if Val.lt true a b then b else a

/-- The merged lane of two values under the statistics in a register. -/
def smMerge (md ma : Val) (xd xa : Nat) : Nat × Nat :=
  let m := smMax md ma
  let one := fun (mx : Val) (x : Nat) => match smWeight mx m with
    | some w => [(w, F32.decode x)]
    | none => []
  smLane (one md xd ++ one ma xa)

/-- `vsmm`, output form (R258). -/
def execVsmm (d a b : BitVec 5) (p : BitVec 3) (s : State) : Host.Outcome State Fault Refusal :=
  runInstr (.vsmm d a b p) (do
    noStream d
    noStream a
    noStream b
    let pr ← rdP p.toNat
    let va ← rdV a
    let vb ← rdV b
    let old ← oldV d
    let md := F32.decode (elemOf vb 32 0)
    let ma := F32.decode (elemOf vb 32 2)
    wrVfp d pr 32 32 0 fun i =>
      if md.isNan || ma.isNan then (F32.nanBits, fNV) else smMerge md ma (elemOf old 32 i) (elemOf va 32 i)) s

/-- The encoding of a merged maximum. -/
def smMaxBits (d a : Nat) : Nat := if Val.lt true (F32.decode d) (F32.decode a) then a else d

/-- `vsmm`, statistics form (R258). -/
def execVsmmStat (d a b : BitVec 5) (p : BitVec 3) (s : State) : Host.Outcome State Fault Refusal :=
  runInstr (.vsmmStat d a b p) (do
    noStream d
    noStream b
    let vb ← rdV b
    let old ← oldV d
    let md := elemOf vb 32 0
    let ma := elemOf vb 32 2
    let nan := (F32.decode md).isNan || (F32.decode ma).isNan
    let l := if nan then (F32.nanBits, fNV) else smMerge (F32.decode md) (F32.decode ma) (elemOf vb 32 1) (elemOf vb 32 3)
    let m := if nan then F32.nanBits else smMaxBits md ma
    wrV d (mkVec 32 fun i => if i = 0 then m else if i = 1 then l.1 else elemOf old 32 i)
    noteFp l.2 0) s

end Sys2Proof.Machine
end

