-- ==== Sys2Proof/Machine/Streams.lean ====
section
/-! DEFINITION. Streams: binding, running and ending streams, and strip-mining (R262 to R269). -/

namespace Sys2Proof.Machine

/-- `sbind` (R263). -/
def execSbind (d : BitVec 5) (a : BitVec 4) (b : BitVec 5) (s : State) : Host.Outcome State Fault Refusal :=
  runInstr (.sbind d a b) (do
    let k := d.toNat - 24
    let mode ← rdS b
    let x := (← getCore).stream k
    require (decide (mode.toNat < 8) && !x.bound) .illegal (BitVec.ofNat 64 k)
    let write := mode.getLsbD 0
    let code := bitsOf mode 1 2
    let w := widthOf code
    let off : Int := (← rdA a.toNat).cur.toNat
    let l ← touchBody a.toNat off
    let r ← rdA a.toNat
    let ok ← allowed r.sh.typ.toNat (if write then .st else .ld)
    require (ok && decide (r.sh.typ.toNat ≠ tPTRS)) .type (toWord off)
    require (vecFits r.sh.fmt.toNat w) .type r.ptr
    require (decide (r.cur.toNat % (w / 8) = 0)) .misalign (r.cur.setWidth 64)
    modify fun s => s.erefUp l
    setStream k { bound := true, dir := write, wcode := code, a := r, loc := l, base := r.cur.toNat }) s

/-- `sbnd` (R263). -/
def execSbnd (d a b : BitVec 5) (j : BitVec 2) (s : State) : Host.Outcome State Fault Refusal :=
  runInstr (.sbnd d a b j) (do
    let k := d.toNat - 24
    let n ← rdS a
    let st ← rdS b
    let x := (← getCore).stream k
    require (x.bound && !x.run) .illegal (BitVec.ofNat 64 k)
    require (decide (1 ≤ n.toNat) && decide (n.toNat < 2 ^ 24)) .bounds n
    setStream k { x with n := x.n.set j.toNat n.toNat, st := x.st.set j.toNat (signExt 32 st.toNat) }) s

/-- The reach of a walk below and above its base, in elements (R264). -/
def Stream.low (x : Stream) : Int :=
  ((List.range 4).map fun j => min 0 (((x.ext j : Int) - 1) * x.stride j)).sum
def Stream.high (x : Stream) : Int :=
  ((List.range 4).map fun j => max 0 (((x.ext j : Int) - 1) * x.stride j)).sum

/-- `sgo` (R264). -/
def execSgo (d a : BitVec 5) (s : State) : Host.Outcome State Fault Refusal :=
  runInstr (.sgo d a) (do
    let k := a.toNat - 24
    let x := (← getCore).stream k
    require (x.bound && !x.run) .illegal (BitVec.ofNat 64 k)
    require (decide (x.total < 2 ^ 40)) .bounds (BitVec.ofNat 64 x.total)
    let b : Int := (x.width / 8 : Nat)
    let lo := (x.base : Int) + b * x.low
    let hi := (x.base : Int) + b * (x.high + 1)
    require (decide (0 ≤ lo)) .bounds (toWord lo)
    require (decide (hi ≤ vecLimit x.a.sh (!x.dir))) .bounds (toWord hi)
    setStream k { x with pos := 0, run := true, buf := [] }
    wrNat d x.total) s

/-- `sstop` (R267). -/
def execSstop (d a : BitVec 5) (s : State) : Host.Outcome State Fault Refusal :=
  runInstr (.sstop d a) (do
    let k := a.toNat - 24
    let x := (← getCore).stream k
    require x.bound .illegal (BitVec.ofNat 64 k)
    modify fun s => s.erefDown x.loc
    setStream k { x with run := false, bound := false, buf := [] }
    wrNat d x.pos) s

/-- A predicate with its first g elements set (R269). -/
def firstPred (w g : Nat) : PWord := mkPred w fun i => i < g

/-- `vgrant`, count form (R269). -/
def execVgrant (d a : BitVec 5) (p : BitVec 3) (w : BitVec 2) (s : State) : Host.Outcome State Fault Refusal :=
  runInstr (.vgrant d a p w) (do
    require (decide (p ≠ 0)) .illegal 0
    let n ← rdS a
    let wd := widthOf w.toNat
    let g := Nat.min n.toNat (1024 / wd)
    wrP p.toNat (firstPred wd g)
    wrNat d g) s

/-- `vgrant`, stream form (R269). -/
def execVgrantStream (d a : BitVec 5) (p : BitVec 3) (s : State) : Host.Outcome State Fault Refusal :=
  runInstr (.vgrantStream d a p) (do
    require (decide (p ≠ 0)) .illegal 0
    let k := a.toNat - 24
    let x := (← getCore).stream k
    require x.run .illegal (BitVec.ofNat 64 k)
    let g := if x.pos = x.total then 0 else x.piece x.pos
    wrP p.toNat (firstPred x.width g)
    wrNat d g) s

/-- A read stream of a core fetches element i of its walk ahead, for a context that may pop it (R268). -/
def State.fetchAhead (s : State) (site k i ctx : Nat) : State :=
  let c := s.coreAt site
  let x := c.stream k
  let b := x.width / 8
  let off := (x.offset i).toNat
  let reader := some (((c.ctxAt 0).lcore).toNat, ({ c with act := ctx }).ctxNo)
  if x.run && !x.dir && decide (x.pos ≤ i) && decide (i < x.total) && (x.ahead i ctx).isNone
      && !s.readPoisoned reader x.loc off b && !s.redsOn x.loc off b then
    let e := ofBytes (s.readBody reader x.loc off b)
    s.setCore site { c with streams := c.streams.setIfInBounds k { x with buf := x.buf ++ [(i, ctx, e)] } }
  else s

end Sys2Proof.Machine
end

