-- ==== Sys2Proof/Machine/Engine.lean ====
section
/-! DEFINITION. Engine: what the WMB and the copy engines share: the copies that a command names (R285), reads that race
with stores (R290, R342), faults (R292, R340), and completion records (R38). -/

namespace Sys2Proof.Machine

/-- Runs an effect at a core's site and comes back to the site of before. -/
def atSite {α : Type} (site : Nat) (f : Op α) : Op α := do
  let old := (← get).site
  modify fun s => { s with site := site }
  let x ← f
  modify fun s => { s with site := old }
  return x

/-- How a piece of an engine's work ends. -/
inductive Ran where
  | done
  /-- it waits for a page -/
  | parked
  /-- it stops with a fault -/
  | stopped (code : BitVec 8)
  deriving DecidableEq, Repr

/-- Runs a piece of an engine's work: a trap stops the command, a wait parks it; what was recorded stands. -/
def tryRun (f : Op Unit) : Op Ran := fun s =>
  match f s with
  | .ok _ t => .ok .done t
  | .error (.trap c _) t => .ok (.stopped c.code) t
  | .error .wait _ => .ok .parked s
  | .error .waitKeep t => .ok .parked t
  | .error e t => .error e t

/-- The object that a pointer field of a command of context `ctx` names, as canonical pointer and place (R297): TYPE for
another core's core pad, a tag that is not VALID, or a place where no header begins. The trap shadow may name its staging
object (R389). -/
def engNamed (ctx : Nat) (p : Word) : Op (Word × Loc) := do
  let s ← get
  let own := corePadKey s.site + ptrLoc p % 2 ^ 40
  if ptrLevel p = 3 then
    if ctx = 11 && reservedHeader s.site own then return (p, .pad own)
    require (decide (ptrTag p = (s.core.ctxAt 0).lcore.toNat) && decide (ptrLoc p % 2 ^ 40 < padTop)) .type p
  named p

/-- The same object in its own place, whose header is read (R466). -/
def engHome (o : Owner) (ctx : Nat) (p : Word) : Op Loc := do
  let (canon, home) ← engNamed ctx p
  readHeaderFor o p canon home
  return home

/-- The checks that a push makes on a pointer field, without its header (R297). -/
def pushPointer (p : Word) : Op Unit := do
  if ptrLevel p = 7 then raise .nullptr p
  if ptrLevel p ≥ 4 then raise .type p
  let s ← get
  if ptrLevel p = 3 then
    if ptrLoc p % 2 ^ 40 ≥ padTop then require (s.core.inTrap && decide (ptrLoc p % 2 ^ 40 < 2 ^ 18)) .type p
    else require (decide (ptrTag p = (s.core.ctxAt 0).lcore.toNat)) .type p
  else if ptrLevel p ≥ 1 then
    match s.tableRec with
    | none => raise .type p
    | some r => require (padKeyOf r s.site p).isSome .type p

/-- The copy that a command of context `ctx` reads or writes for a pointer, with the canonical pointer of its object
(R285). -/
def engCopy (o : Owner) (ctx : Nat) (p : Word) : Op (Loc × Word) := do
  let (canon, home) ← engNamed ctx p
  let l := (← get).nearest 3 canon home
  readHeaderFor o p canon l
  return (l, canon)

/-- Translates the pages of a range of an object's body for an engine (R178). -/
def engTranslate (o : Owner) (l : Loc) (off n : Nat) (write : Bool) : Op Unit := do
  match l with
  | .pad _ => pure ()
  | .heap asid va => if write then translateSpan o asid va (off, n) true 0 else translateRead o none l off n 0

/-- One tier-miss event of a kind for each page of a list that is not HBM-resident (R175). -/
def engMissPages (ctx kind asid : Nat) (pages : List Nat) : Op Unit := do
  for pg in pages do
    let s ← get
    if !s.hbmResident asid pg then postMissAt s.site ctx kind pg

/-- One tier-miss event for the first page of a range that is not HBM-resident (R175). -/
def engMiss (ctx kind : Nat) (l : Loc) (off n : Nat) : Op Unit := do
  match l with
  | .pad _ => pure ()
  | .heap asid va =>
    let s ← get
    let far := (pageStarts (va + 32 + off) n).filter fun a => !s.hbmResident asid (a / 4096)
    engMissPages ctx kind asid ((far.take 1).map (· / 4096))

/-- The barrier copy that a pushed command is to credit (R204, R210): that of the command's scope, relative to the pushing
core. -/
def pushBarrier (p : Word) (scope : Nat) : Op Loc := do
  let (canon, home) ← named p
  readHeader p canon home
  require (barrierOk ((← get).hdr home)) .type p
  let (canon, home) ← whole (escape p scope canon home)
  whole (releaseTarget p scope canon home)

/-- The canonical pointer of the object at a place. -/
def State.canonAt (s : State) (l : Loc) : Word :=
  let h := s.hdr l
  match l with
  | .heap _ va => mkPtr h.hi 0 va
  | .pad k => if h.padcopy then h.link else s.ptrTo h.hi (.pad k)

/-- A free bit (log entry 1). -/
def freeBit : Op Bool := do
  let s ← get
  set { s with free := s.free + 1 }
  return Config.freeBool s.free

/-- What stood at n bytes of a body before each of a list of stores to it, newest first, given what stands there now. -/
def pastBytes (l : Loc) (off : Nat) : List OldBytes → List Byte → List (List Byte)
  | [], _ => []
  | o :: t, cur =>
    if o.v = l ∧ o.off < off + cur.length ∧ off < o.off + o.bytes.length then
      let was := cur.zipIdx.map fun b =>
        if o.off ≤ off + b.2 then (o.bytes[off + b.2 - o.off]?).getD b.1 else b.1
      was :: pastBytes l off t was
    else pastBytes l off t cur

/-- What one element may be to a command that reads it (R290, R342): what stands there now, or what a store since the push
has overwritten. -/
def State.raceReads (s : State) (m : Cmd) (l : Loc) (off n : Nat) : List (List Byte) :=
  let cur := s.readBody none l off n
  (cur :: pastBytes l off (s.olds.take (s.olds.length - m.since)) cur).dedup

/-- One of the values that a read may give, as it falls out. -/
def pick {α : Type} (d : α) : List α → Op α
  | [] => return d
  | [x] => return x
  | x :: t => do if ← freeBit then return x else pick d t

/-- The bytes of one element as a command reads them. -/
def raceBytes (m : Cmd) (l : Loc) (off n : Nat) : Op (List Byte) := do pick [] ((← get).raceReads m l off n)

/-- The bits of element e of a format of 4 bits or more within the bytes that hold it (R221). -/
def rawElem (bits e : Nat) (bs : List Byte) : Nat := if bits = 4 then ofBytes bs / 2 ^ (4 * (e % 2)) % 16 else ofBytes bs

/-- What element e of an object of a format may be, raw (R221, R278, R290). A read waits for a reduction that is queued on
it (R195); a poisoned byte is a fault. -/
def raceElems (m : Cmd) (l : Loc) (fmt e : Nat) : Op (List Nat) := do
  let bits := fmtBits fmt
  let off := e * bits / 8
  let n := Nat.max 1 (bits / 8)
  awaitReds l off n
  let s ← get
  if s.readPoisoned none l off n then raise .poison 0
  return ((s.raceReads m l off n).map (rawElem bits e)).dedup

/-- Element e of an object of a format, as one read gives it. -/
def raceElem (m : Cmd) (l : Loc) (fmt e : Nat) : Op Nat := do pick 0 (← raceElems m l fmt e)

/-- An effect that a trap leaves undone, with none for its answer. -/
def orNone {α : Type} (f : Op α) : Op (Option α) := fun s =>
  match f s with
  | .ok x t => .ok (some x) t
  | .error (.trap _ _) _ => .ok none s
  | .error e t => .error e t

/-- Completion records that a context's queue holds (R36). -/
def recCapacity : Nat := 16 + Config.extraRecords

/-- Posts a completion record to a context, if there is room (R38). -/
def State.postRecord (s : State) (site ctx : Nat) (word : Word) (dests : List (Word × Loc × Nat × Nat)) : Option State :=
  let c := s.coreAt site
  let x := c.ctxAt ctx
  if x.recs.length < recCapacity then
    some (s.setCore site (c.setCtx ctx { x with recs := x.recs ++ [{ word := word, dests := dests }] }))
  else none

/-- The word of a completion record (R38). -/
def recordWord (status : BitVec 8) (engine batch tag : Nat) : Word :=
  BitVec.ofNat 64 (status.toNat * 2 ^ 56 + engine * 2 ^ 52 + batch % 2 ^ 16 * 2 ^ 32 + tag % 2 ^ 12)

def kTag (k : KWord) : Nat := kField k 20 12
def kScope (k : KWord) : Nat := kField k 16 3
def kArrive (k : KWord) : Bool := k.getLsbD 9
def kRec (k : KWord) : Bool := k.getLsbD 8

/-- The engine of a command: 1 WMB, 2 copy engine. -/
def Cmd.engine (m : Cmd) : Nat := if kOp m.word ≤ 7 then 1 else 2

def Cmd.record (m : Cmd) (status : BitVec 8) : Word := recordWord status m.engine m.batch (kTag m.word)

/-- ILLEGAL with the low word of a command (R297). -/
def kLow (k : KWord) : Word := BitVec.ofNat 64 (k.toNat % 2 ^ 32)

/-- Every bit of a range of a command word is zero. -/
def kZero (k : KWord) (lo width : Nat) : Bool := kField k lo width = 0

/-- Batch b is covered by n (R288). -/
def covered (b n : Nat) : Bool := decide ((n + 65536 - b % 65536) % 65536 < 32768)

/-- Acquires written bytes for the executing context (R187). -/
def acquireDests (ds : List (Word × Loc × Nat × Nat)) : Op Unit := do
  readyDests ds
  modify fun s => ds.foldl State.acquireDest s

/-- What the pushing context gives a command (R223, R232, R280). -/
def State.newCmd (s : State) (k : KWord) (batch : Nat) : Cmd :=
  let x := s.ctx
  { ctx := s.core.act, word := k, batch := batch, rm := x.rm, seed := x.jobseed.toNat, lcore := x.lcore.toNat
    ctr := x.srctr.toNat, dts := s.core.dt.toList, since := s.olds.length }

/-- Draw i of a command. -/
def Cmd.draw (m : Cmd) (i : Nat) : Nat := drawAt m.seed m.lcore m.ctx (m.ctr + i)

end Sys2Proof.Machine
end

