-- ==== Sys2Proof/Machine/Wide.lean ====
section
/-! DEFINITION. Wide: the instructions of majors 0x2A and 0x2B: building command words, pushing them to the WMB, waiting
for batches, and reading and writing accumulator tiles (R295 to R304). -/

namespace Sys2Proof.Machine

/-! Building command words (R295, R296). -/

/-- The access of `kld` and `kst`: the place and the offset of 32 bytes (R295). -/
def kAccess (a : BitVec 4) (b : BitVec 5) : Op (Loc × Nat) := do
  let k ← rdS b
  let r ← rdA a.toNat
  let off := (r.cur.toNat : Int) + 32 * k.toInt
  let l ← touchBody a.toNat off
  let sh := (← rdA a.toNat).sh
  require (decide (sh.typ.toNat = tDATA) && decide (sh.fmt = 0)) .type (toWord off)
  boundsCheck off 32 sh.len.toNat
  require (decide (off % 32 = 0)) .misalign (toWord off)
  let s ← get
  require (!s.bodyPoisoned l off.toNat 32) .poison (toWord off)
  awaitReds l off.toNat 32
  return (l, off.toNat)

/-- `kld` (R295). -/
def execKld (d : BitVec 2) (a : BitVec 4) (b : BitVec 5) (s : State) : Host.Outcome State Fault Refusal :=
  runInstr (.kld d a b) (do
    let (l, off) ← kAccess a b
    wrK d.toNat (BitVec.ofNat 256 (ofBytes ((← get).bodyBytes l off 32)))) s

/-- `kst` (R295). -/
def execKst (d : BitVec 2) (a : BitVec 4) (b : BitVec 5) (s : State) : Host.Outcome State Fault Refusal :=
  runInstr (.kst d a b) (do
    let (l, off) ← kAccess a b
    let k := (← getCore).kreg d.toNat
    modify fun s => s.putObj l off (leBytes k.toNat 32)
    noteWatch (canonOf (← rdA a.toNat).ptr ((← get).hdr l))) s

/-- A `k` register with word q replaced (R296). -/
def kSetWord (k : KWord) (q : Nat) (v : Word) : KWord := kSetPtr k (64 * q) v

/-- `kset` (R296). -/
def execKset (d : BitVec 2) (a : BitVec 5) (q : BitVec 2) (s : State) : Host.Outcome State Fault Refusal :=
  runInstr (.kset d a q) (do
    let v ← rdS a
    wrK d.toNat (kSetWord ((← getCore).kreg d.toNat) q.toNat v)) s

/-- `kset` from a pointer register (R296). -/
def execKsetPointer (d : BitVec 2) (a : BitVec 4) (q : BitVec 2) (s : State) : Host.Outcome State Fault Refusal :=
  runInstr (.ksetPointer d a q) (do
    let r ← rdA a.toNat
    wrK d.toNat (kSetWord ((← getCore).kreg d.toNat) q.toNat r.ptr)) s

/-! Fields of WMB command words (R275, R276, R318, R320). -/

def kMT (k : KWord) : Nat := kField k 249 3 + 1
def kNT (k : KWord) : Nat := kField k 252 4 + 1
def kAcc (k : KWord) : Nat := kField k 14 2
def kTile (k : KWord) : Nat := kField k 56 6

/-- Output tiles of the streamed operations. -/
def kOuts (k : KWord) : Nat := kField k 222 10 + 1
def kTaps (k : KWord) : Nat := kField k 232 20 + 1

/-- The first tile and the number of tiles of a command's region (R275, R322). -/
def kRegion (k : KWord) : Nat × Nat :=
  if kOp k = 6 then (kField k 216 6, ceilDiv (kOuts k) 64)
  else if kOp k = 7 then (kTile k, kField k 252 4 + 1)
  else (kTile k, kMT k * kNT k)

/-- Tiles of a command. -/
def kTiles (k : KWord) : List Nat := (List.range (kRegion k).2).map (· + (kRegion k).1)

/-- A WMB command word that a push accepts: reserved bits zero and fields within their limits (R52, R297, R322). -/
def wmbWordOk (k : KWord) : Bool :=
  let op := kOp k
  decide (1 ≤ op) && decide (op ≤ 7) && kZero k 19 1 && decide (kScope k ≤ 5)
    && (!kArrive k || decide (op = 4))
    && decide ((kRegion k).1 + (kRegion k).2 ≤ 64) && decide (kAcc k ≠ 3)
    && (if op ≤ 3 then
          kZero k 10 3 && (decide (op = 3) || kZero k 13 1) && kZero k 62 2
            && decide (kField k 240 9 ≠ 0) && decide (kField k 216 12 ≠ 0) && decide (kField k 228 12 ≠ 0)
        else if op ≤ 5 then
          kZero k 10 4 && kZero k 62 2 && kZero k 192 24 && kZero k 228 21 && decide (kField k 216 12 ≠ 0)
            && (decide (op = 4) || kZero k 128 64)
        else if op = 6 then kZero k 10 3 && kZero k 252 4
        else kZero k 10 3 && kZero k 62 2 && decide (kField k 216 12 ≠ 0) && decide (kField k 240 12 ≠ 0))

/-- The pointer fields that a push checks: all of them but a null `pb` of `ACCST` (R297). -/
def wmbPointers (k : KWord) : List Word :=
  let ps := (cmdPtrFields (kOp k)).map (kPtr k)
  if kOp k = 4 ∧ ptrLevel (kPtr k 128) = 7 then ps.take 1 else ps

/-! Modes of the matrix operations (R277). -/

/-- The mode of an operand format and block length: a number that A and B must share, and the alignment width W, 0
where nothing is aligned. I8 with scales pairs with itself, C8A with C8B, and C4A with C4B. -/
def matMode (fmt blog : Nat) : Option (Nat × Nat) :=
  if blog ≠ 0 ∧ blog ≠ 4 then none
  else if fmt = 11 then some (1, 0) else if fmt = 10 then some (2, 0)
  else if fmt = 8 then some (3, 16) else if fmt = 9 then some (4, 10)
  else if fmt = 1 then (if blog = 4 then some (5, 8) else some (8, 0))
  else if fmt = 12 ∨ fmt = 13 then some (6, 8)
  else if fmt = 14 ∨ fmt = 15 then some (7, 5)
  else if fmt = 16 ∧ blog = 0 then some (9, 0)
  else none

/-- The accumulator formats of a mode. -/
def modeAcc (mode acc : Nat) : Bool := if mode = 1 then acc = 1 else if mode ≤ 7 then acc ≤ 1 else acc = 2

/-- The mode that a command's two pointers select, if they may pair. -/
def kMode (k : KWord) : Option (Nat × Nat) :=
  match matMode (ptrFmt (kPtr k 64)) (ptrBlog (kPtr k 64)), matMode (ptrFmt (kPtr k 128)) (ptrBlog (kPtr k 128)) with
  | some x, some y => if x.1 = y.1 && modeAcc x.1 (kAcc k) then some x else none
  | _, _ => none

def kDepth (k : KWord) : Nat := 8 * kField k 240 9

/-- Stochastic draws that a push reserves (R280). -/
def kDraws (k : KWord) (rm : Nat) : Nat :=
  if rm = 5 ∧ kOp k ≤ 3 then
    match kMode k with
    | some (_, w) => if w ≠ 0 then (8 * kMT k + 8 * kNT k) * kDepth k else 0
    | none => 0
  else 0

/-- Queue entries occupied: commands with tile jobs that have never been dispatched (R272). -/
def Core.wmbQueued (c : Core) : Nat := (c.wmb.filter fun m => decide (m.fresh ≠ [])).length

/-- ARRIVE without a barrier (R297). -/
def arriveNull (k : KWord) : Bool := kArrive k && decide (ptrLevel (kPtr k 128) = 7)

/-- `wpush` (R297). An `ACCST` with ARRIVE takes hold of its barrier's copy (R210); where `pb` names none, its execution
start finds that (R286). -/
def execWpush (d : BitVec 5) (k : BitVec 2) (s : State) : Host.Outcome State Fault Refusal :=
  runInstr (.wpush d k) (do
    let w := (← getCore).kreg k.toNat
    require (wmbWordOk w) .illegal (kLow w)
    for p in wmbPointers w do pushPointer p
    require (!arriveNull w) .illegal (kLow w)
    if (← getCore).wmbQueued ≥ 2 then waitHere
    releaseAll (kScope w)
    let bar ← (if kArrive w then orNone (pushBarrier (kPtr w 128) (kScope w)) else pure none)
    if let some v := bar then modify fun s => s.barPendingUp v
    let s ← get
    let w1 := s.core.kreg k.toNat
    let x := s.ctx
    let m0 := s.newCmd w1 x.wbatch.toNat
    let n := (kRegion w1).2
    let m := { m0 with
      num := s.core.works, todo := List.range n, fresh := List.range n, rows := List.replicate n 0, tiles := kTiles w1, barrier := bar }
    modCore fun c => { c with wmb := c.wmb ++ [m], works := c.works + 1 }
    modCtx fun x => { x with srctr := x.srctr + BitVec.ofNat 64 (kDraws w1 x.rm) }
    modTx fun t => { t with pushed := true }
    wrS d (x.wbatch.setWidth 64)) s

/-- `wcommit` (R298). -/
def execWcommit (d : BitVec 5) (s : State) : Host.Outcome State Fault Refusal :=
  runInstr (.wcommit d) (do
    let b := (← getCtx).wbatch
    modCtx fun x => { x with wbatch := b + 1 }
    wrS d (b.setWidth 64)) s

/-! Status (R303, R304). -/

/-- The halted command of a core: the first, where two were running and both have halted (log entry 115). -/
def Core.haltedCmd (c : Core) : Option Cmd := c.wmb.find? fun m => m.fault.isSome

/-- The status flags as the status word places them: NV in bit 8, OF 10, UF 11, NX 12 (R304). -/
def wmbFlagBits (f : Nat) : Nat := f % 32 * 256

/-- The WMB status word of a core (R304). -/
def Core.wmbStatus (c : Core) : Word :=
  let base := wmbFlagBits c.wflags + c.wmbQueued * 2 ^ 17
  match c.haltedCmd with
  | none => BitVec.ofNat 64 base
  | some m => BitVec.ofNat 64 (base + 2 ^ 16 + (m.fault.getD 0).toNat * 2 ^ 24 + m.batch % 65536 * 2 ^ 32
      + kTag m.word * 2 ^ 48)

/-- `wwait` (R299). A command of which a record is still held for a full queue is in flight (R38). -/
def execWwait (d a : BitVec 5) (s : State) : Host.Outcome State Fault Refusal :=
  runInstr (.wwait d a) (do
    let v ← rdS a
    require (decide (v.toNat < 65536)) .illegal v
    let n := v.toNat
    let x ← getCtx
    let ahead := (n + 65536 - x.wbatch.toNat) % 65536
    require (!(decide (1 ≤ ahead) && decide (ahead < 32768))) .illegal v
    reportFault fun f => f.kind = 1 && covered f.id n
    let c ← getCore
    if (c.wmb.any fun m => decide (m.ctx = c.act) && covered m.batch n)
        || (c.owed.any fun r => decide (r.ctx = c.act) && covered r.batch n) then waitHere
    let mine := fun (e : Done) => decide (e.ctx = c.act) && covered e.batch n
    acquireDests ((c.wdone.filter mine).map (·.dests)).flatten
    modCore fun c => { c with wdone := c.wdone.filter fun e => !mine e }
    wrS d (← getCore).wmbStatus) s

/-! Tiles (R300, R301). -/

/-- The index of `wrd` and `wwr` below a limit. -/
def tileIndex (b : BitVec 5) (limit : Nat) : Op Nat := do
  let v ← rdS b
  require (decide (v.toNat < limit)) .bounds v
  return v.toNat

/-- Waits while a command that is in flight names a tile (R289). -/
def awaitTile (t : Nat) : Op Unit := do
  if (← getCore).tileBusy t then waitHere

/-- `wrd`, one entry (R300). -/
def execWrd (d : BitVec 5) (a : BitVec 4) (b : BitVec 5) (s : State) : Host.Outcome State Fault Refusal :=
  runInstr (.wrd d a b) (do
    let e ← tileIndex b 64
    awaitTile a.toNat
    wrS d ((← getCore).accSlot (64 * a.toNat + e))) s

/-- `wrd`, one row (R300). -/
def execWrdRow (d : BitVec 5) (a : BitVec 4) (b : BitVec 5) (s : State) : Host.Outcome State Fault Refusal :=
  runInstr (.wrdRow d a b) (do
    let e ← tileIndex b 8
    awaitTile a.toNat
    let c ← getCore
    wrV d (mkVec 64 fun i => if i < 8 then (c.accSlot (64 * a.toNat + 8 * e + i)).toNat else 0)) s

/-- `wwr`, one entry (R300). -/
def execWwr (d : BitVec 4) (a b : BitVec 5) (s : State) : Host.Outcome State Fault Refusal :=
  runInstr (.wwr d a b) (do
    let v ← rdS a
    let e ← tileIndex b 64
    awaitTile d.toNat
    modCore fun c => c.setAcc (64 * d.toNat + e) v) s

/-- `wwr`, one row (R300). -/
def execWwrRow (d : BitVec 4) (a b : BitVec 5) (s : State) : Host.Outcome State Fault Refusal :=
  runInstr (.wwrRow d a b) (do
    let v ← rdV a
    let e ← tileIndex b 8
    awaitTile d.toNat
    modCore fun c => (List.range 8).foldl (fun (c : Core) i =>
      c.setAcc (64 * d.toNat + 8 * e + i) (BitVec.ofNat 64 (elemOf v 64 i))) c) s

/-- Writes entries of a tile from entry e on; a spill slot that is written is tagged DATA (R274). -/
def Core.putTile (c : Core) (t e : Nat) (ws : List Word) : Core :=
  let c1 := (ws.zipIdx).foldl (fun (c : Core) x => c.setAcc (64 * t + e + x.2) x.1) c
  if t < 16 then c1 else { c1 with ptrSlots := dropRange (64 * (t - 16) + e) ws.length c1.ptrSlots }

/-- `wzero` (R301). -/
def execWzero (a : BitVec 5) (s : State) : Host.Outcome State Fault Refusal :=
  runInstr (.wzero a) (do
    let v ← rdS a
    let ts := (List.range 64).filter fun t => v.getLsbD t
    for t in ts do awaitTile t
    modCore fun c => ts.foldl (fun (c : Core) t => c.putTile t 0 (List.replicate 64 0)) c) s

/-! The halted command (R302, R303). -/

/-- The halted command goes on: it starts again with its checks and continues from its rows (R302). -/
def Cmd.resume (m : Cmd) : Cmd := { m with fault := none, reported := false, started := false }

/-- Changes the first of a list of commands that has halted. -/
def mapFirstHalted (f : Cmd → Cmd) : List Cmd → List Cmd
  | [] => []
  | m :: t => if m.fault.isSome then f m :: t else m :: mapFirstHalted f t

/-- A list of commands without the first that has halted. -/
def dropFirstHalted : List Cmd → List Cmd
  | [] => []
  | m :: t => if m.fault.isSome then t else m :: dropFirstHalted t

/-- `wres` (R302). A record of the halt that is held for a full queue is still posted (R38). With x = 0 a fault that has not
been reported goes with the halt (log entry 50). -/
def execWres (d a : BitVec 5) (s : State) : Host.Outcome State Fault Refusal :=
  runInstr (.wres d a) (do
    let x ← rdS a
    require (decide (x.toNat < 2)) .illegal x
    match (← getCore).haltedCmd with
    | none => wrS d 0
    | some m =>
      if x = 0 then
        modCore fun c => { c with
          wmb := mapFirstHalted Cmd.resume c.wmb
          faults := c.faults.filter fun f => decide (f.num ≠ m.num) }
      else
        modify fun s => s.dropCmd m
        modCore fun c => { c with
          wmb := dropFirstHalted c.wmb
          wdone := c.wdone ++ [{ ctx := m.ctx, batch := m.batch, dests := m.dests }] }
      wrS d 1) s

/-- The value of a `wstat` selector (R303); `mult` and `weight` are those of selector 2. -/
def wstatValue (c : Core) (mult weight n : Nat) : Option Word :=
  if n = 0 ∨ n = 3 then some c.wmbStatus
  else if n = 1 then some (BitVec.ofNat 64 c.wjobs)
  else if n = 2 then some (BitVec.ofNat 64 (weight % 16 * 16 + mult % 16))
  else if 4 ≤ n ∧ n ≤ 7 then
    some (match c.haltedCmd with | some m => kPtr m.word (64 * (n - 4)) | none => 0)
  else if n = 8 then
    some (match c.haltedCmd with
      | some m => BitVec.ofNat 64 (((List.range m.rows.length).map fun i =>
          if m.todo.contains i then 0 else 2 ^ i).sum)
      | none => 0)
  else if 256 ≤ n ∧ n < 320 then
    some (match c.haltedCmd with | some m => BitVec.ofNat 64 (m.rows.getD (n - 256) 0) | none => 0)
  else none

/-- The partition that holds a site (R431). -/
def State.partitionOf (s : State) (site : Nat) : Option Nat :=
  (s.partitions.find? fun p => within p.2.base p.2.len site).map (·.1)

/-- The enabled core sites of a cluster in the order of their Hilbert index: multiplier u belongs to number u (R271). -/
def State.multipliers (s : State) (cl : Nat) : List Nat :=
  ((List.range 1024).map (· + cl / 128 * 1024)).filter fun x => decide (clusterOf x = cl) && !s.fused.contains x

/-- The multipliers of a core's side of its WMB (R273). -/
def State.sideSize (s : State) (site : Nat) : Nat :=
  ((s.multipliers (clusterOf site)).filter fun x => decide (s.partitionOf x = s.partitionOf site)).length

/-- A core's weight (R272). -/
def State.weight (s : State) (site : Nat) : Nat :=
  match (s.coreAt site).recId with
  | some r => (s.recAt r).l.prio + 1
  | none => 1

/-- `wstat` (R303). -/
def execWstat (d a : BitVec 5) (s : State) : Host.Outcome State Fault Refusal :=
  runInstr (.wstat d a) (do
    let n ← rdS a
    let s ← get
    match wstatValue s.core (s.sideSize s.site) (s.weight s.site) n.toNat with
    | none => illegal n
    | some v =>
      if n = 3 then modCore fun c => { c with wflags := 0 }
      wrS d v) s

end Sys2Proof.Machine
end

