-- ==== Sys2Proof/Machine/WmbEngine.lean ====
section
/-! DEFINITION. WmbEngine: the arbiter of the WMB and the tile jobs of its commands: matrix products, stores and loads of
tiles, and the streamed packed operations (R271 to R294, R317 to R324). A step of a tile job is one depth block, one row of
`ACCST` or `ACCLD`, or one block of the streamed operations; between two steps anything else may happen. -/

namespace Sys2Proof.Machine

/-! Commands of a core. -/

/-- Changes command number i of the core under way. -/
def modCmd (i : Nat) (f : Cmd → Cmd) : Op Unit := modCore fun c => { c with wmb := c.wmb.modify i f }

/-- Rows of a tile of a command when it is finished: the depth, 8 rows, or the taps. -/
def Cmd.fullRows (m : Cmd) : Nat :=
  let op := kOp m.word
  if op ≤ 3 then kDepth m.word else if op ≤ 5 then 8 else if op = 6 then kTaps m.word else 8 * kField m.word 240 12

/-- Region tile j of a command is finished. -/
def Cmd.tileDone (m : Cmd) (j : Nat) : Bool := decide (m.fullRows ≤ m.rows.getD j 0)

/-- A command halts (R292): its running jobs stop where they are and stand again among the jobs to do, a record is
posted if REC is set, or held until the context's queue has room (R38), and the fault is noted for the pushing context. -/
def haltCmd (i : Nat) (code : BitVec 8) : Op Unit := do
  let s ← get
  match s.core.wmb[i]? with
  | none => pure ()
  | some m =>
    let word := m.record code
    if kRec m.word then
      match s.postRecord s.site m.ctx word m.dests with
      | some t => set t
      | none => modCore fun c => { c with
          owed := c.owed ++ [{ ctx := m.ctx, batch := m.batch, record := { word := word, dests := m.dests } }] }
    modCmd i fun m => { m with
      fault := some code, reported := false, jobs := []
      todo := (m.jobs.map (·.1)).foldl (fun l j => insertKey j l) m.todo }
    modCore fun c => { c with faults := c.faults ++ [
      { ctx := m.ctx, record := word, at_ := s.cycle.toNat, kind := 1, id := m.batch, num := m.num }] }

/-! Execution start (R277, R278, R284, R286). -/

/-- Element index at a byte cursor: that of the element which holds the byte (log entry 124). -/
def elemAt (fmt cursor : Nat) : Nat := cursor * 8 / fmtBits fmt

/-- Cursors of the two operands of a command, in bytes. -/
def kCursorA (k : KWord) : Nat := if kOp k = 6 then kField k 32 32 else 16 * kField k 32 24
def kCursorB (k : KWord) : Nat := if kOp k = 6 then kField k 192 24 else 16 * kField k 192 24

/-- Row stride of an operand, in elements. -/
def kStrideA (k : KWord) : Nat := 8 * kField k 216 12
def kStrideB (k : KWord) : Nat := 8 * kField k 228 12

/-- The runs of elements, by first index and length, that a command reads or writes of its first operand. -/
def runsA (k : KWord) (a0 : Nat) : List (Nat × Nat) :=
  let op := kOp k
  if op ≤ 3 then (List.range (8 * kMT k)).map fun m => (a0 + m * kStrideA k, kDepth k)
  else if op ≤ 5 then (List.range (8 * kMT k)).map fun m => (a0 + m * kStrideA k, 8 * kNT k)
  else if op = 6 then [(a0, kOuts k + kTaps k - 1)]
  else (List.range (64 * (kRegion k).2)).map fun r => (a0 + r * kStrideA k, 8 * kField k 240 12)

/-- The runs of elements of its second operand. -/
def runsB (k : KWord) (b0 : Nat) : List (Nat × Nat) :=
  let op := kOp k
  if op ≤ 2 then (List.range (kDepth k)).map fun i => (b0 + i * kStrideB k, 8 * kNT k)
  else if op = 3 then (List.range (8 * kNT k)).map fun i => (b0 + i * kStrideB k, kDepth k)
  else if op = 6 then [(b0, kTaps k)]
  else (List.range (64 * (kRegion k).2)).map fun r => (b0 + r * kStrideB k, 8 * kField k 240 12)

/-- The bytes of a run of elements. -/
def runBytes (fmt : Nat) (r : Nat × Nat) : Nat × Nat :=
  let lo := r.1 * fmtBits fmt / 8
  (lo, ceilDiv ((r.1 + r.2) * fmtBits fmt) 8 - lo)

/-- Format and block length of operand A (0) or B (1): those of its pointer (R277, R319, R321), and for `ACCST` and `ACCLD`
the object's own (R286). -/
def opFmt (k : KWord) (side : Nat) (h : Hdr) : Nat := if kOp k = 4 ∨ kOp k = 5 then h.fmt else ptrFmt (kPtr k (64 + 64 * side))
def opBlog (k : KWord) (side : Nat) : Nat := if kOp k = 4 ∨ kOp k = 5 then 0 else ptrBlog (kPtr k (64 + 64 * side))

/-- The first element of an operand. -/
def opFirst (k : KWord) (side : Nat) (h : Hdr) : Nat :=
  elemAt (opFmt k side h) (if side = 0 then kCursorA k else kCursorB k)

def opRuns (k : KWord) (side : Nat) (h : Hdr) : List (Nat × Nat) :=
  if side = 0 then runsA k (opFirst k 0 h) else runsB k (opFirst k 1 h)

/-- A run of elements and its scale bytes lie in an object (R284). -/
def runFits (fmt blog : Nat) (h : Hdr) (r : Nat × Nat) : Bool :=
  let b := runBytes fmt r
  decide (b.1 + b.2 ≤ h.len) && (decide (blog = 0) || decide (h.len + (r.1 + r.2 - 1) / 16 < h.span))

/-- Translation and bounds of an operand of a command (R284): pages of the object's own bytes are asked for, and then
every run must lie in it. -/
def checkRuns (o : Owner) (k : KWord) (side : Nat) (l : Loc) : Op Unit := do
  let h := (← get).hdr l
  let fmt := opFmt k side h
  let blog := opBlog k side
  for r in opRuns k side h do
    if runFits fmt blog h r then
      engTranslate o l (runBytes fmt r).1 (runBytes fmt r).2 (kOp k = 4)
      if blog ≠ 0 then engTranslate o l (h.len + r.1 / 16) ((r.1 + r.2 - 1) / 16 - r.1 / 16 + 1) false
  for r in opRuns k side h do require (runFits fmt blog h r) .bounds 0

/-- Object formats of the streamed operations (R317): the object format and the block of products k. -/
def streamFmt (op fmt : Nat) : Nat × Nat :=
  if op = 6 then (if fmt = 0 then (1, 21) else if fmt = 1 then (16, 32) else (3, 11))
  else if fmt = 0 then (1, 21) else if fmt = 1 then (3, 12) else (5, 7)

/-- Object formats of `ACCST` and `ACCLD` (R286). -/
def accFmtOk (acc fmt : Nat) : Bool :=
  if acc = 0 then fmt = 10 || fmt = 8 || fmt = 9 else if acc = 1 then fmt = 11 || fmt = 10 else fmt = 7 || fmt = 5

/-- An operand of a command has a format that the operation takes (R277, R278, R286, R319, R321). -/
def formatOk (k : KWord) (side : Nat) (h : Hdr) : Bool :=
  let op := kOp k
  let p := kPtr k (64 + 64 * side)
  if op ≤ 3 then
    let own := match matMode (ptrFmt p) (ptrBlog p) with | some x => modeAcc x.1 (kAcc k) | none => false
    let stride := if side = 0 then kStrideA k else kStrideB k
    own && (decide (side = 0) || (kMode k).isSome)
      && (decide (ptrBlog p ≠ 4)
        || ((decide (side = 0) || decide (op = 3)) && decide (opFirst k side h % 16 = 0) && decide (stride % 16 = 0)))
  else if op ≤ 5 then accFmtOk (kAcc k) h.fmt
  else ptrFmt p = (streamFmt op (kAcc k)).1 && ptrBlog p = 0

/-- The checks on one operand at the start of a command's execution, in their order (R284): the copy that it reads or
writes. -/
def checkOperand (o : Owner) (m : Cmd) (side : Nat) : Op Loc := do
  let k := m.word
  let p := kPtr k (64 + 64 * side)
  let (l, _) ← engCopy o m.ctx p
  worldCheck p l
  let h := (← get).hdr l
  require (decide (h.typ = tDATA)) .type p
  require (formatOk k side h) .type p
  checkRuns o k side l
  return l

/-- The pages that an operand of a command reads across CXL post their events (R285). -/
def missOperand (m : Cmd) (side : Nat) (l : Loc) : Op Unit := do
  let h := (← get).hdr l
  for r in opRuns m.word side h do
    let b := runBytes (opFmt m.word side h) r
    engMiss m.ctx 3 l b.1 b.2

/-- The checks at the start of a command's execution, and what they take hold of (R284, R286, R319, R321). -/
def startChecks (i : Nat) : Op Unit := do
  let s ← get
  match s.core.wmb[i]? with
  | none => pure ()
  | some m =>
    let k := m.word
    let o := Owner.wmb s.site m.num
    let la ← checkOperand o m 0
    let two := kOp k ≠ 4 && kOp k ≠ 5
    let lb ← (if two then do pure [← checkOperand o m 1] else pure [])
    if kArrive k && m.barrier.isNone then
      let l ← engHome o m.ctx (kPtr k 128)
      worldCheck (kPtr k 128) l
      raise .type (kPtr k 128)
    missOperand m 0 la
    for l in lb do missOperand m 1 l
    if m.erefs = [] then modify fun s => (la :: lb).foldl State.erefUp s
    modCmd i fun m => { m with started := true, parked := false, erefs := if m.erefs = [] then la :: lb else m.erefs }

/-! The arbiter (R272, R273, R283). -/

/-- A command of a core waits for a page (R178, R285). -/
def State.pageWait (s : State) (site : Nat) (m : Cmd) : Bool :=
  m.parked && s.pageReqs.any fun q => decide (q.owner = .wmb site m.num) && !q.refused

/-- The next tile job of a list of commands: command number and region tile. None from a halted command on, or when an
earlier command has still to finish the same tile. A command that waits for a page is passed over. -/
def nextJob (waits : Cmd → Bool) : List Cmd → List Cmd → Nat → Option (Nat × Nat)
  | _, [], _ => none
  | before, m :: t, i =>
    if m.fault.isSome then none
    else match (if waits m then [] else m.todo) with
      | [] => nextJob waits (before ++ [m]) t (i + 1)
      | j :: _ =>
        let tile := (kRegion m.word).1 + j
        let blocked := before.any fun e =>
          e.tiles.contains tile && !e.tileDone (tile - (kRegion e.word).1)
        if blocked then none else some (i, j)

/-- The next tile job of the core at a site. -/
def State.nextJob (s : State) (site : Nat) : Option (Nat × Nat) :=
  Sys2Proof.Machine.nextJob (s.pageWait site) [] (s.coreAt site).wmb 0

/-- A core has a dispatchable tile job: its record runs and the core is not halted. -/
def State.dispatchable (s : State) (site : Nat) : Bool :=
  let c := s.coreAt site
  (s.nextJob site).isSome && !c.halted && (match c.recId with | some r => (s.recAt r).st = .running | none => false)

/-- The cores of a multiplier's side: the enabled cores of the cluster in the same partition. -/
def State.sideOf (s : State) (cl u : Nat) : List Nat :=
  let ms := s.multipliers cl
  match ms[u]? with
  | some m => ms.filter fun x => decide (s.partitionOf x = s.partitionOf m)
  | none => []

/-- Multiplier u of a cluster has a tile job: the core, the command and the region tile. -/
def State.jobOn (s : State) (cl u : Nat) : Option (Nat × Nat × Nat) :=
  (s.multipliers cl).findSome? fun x =>
    ((s.coreAt x).wmb.zipIdx).findSome? fun e =>
      (e.1.jobs.find? fun j => decide (j.2 = u)).map fun j => (x, e.2, j.1)

/-- The arbiter may give a job to a core: no core with a dispatchable job has seen this one take its weight in jobs since
its own last one (R272). -/
def State.arbiterAllows (s : State) (side : List Nat) (core : Nat) : Bool :=
  (side.filter fun x => decide (x ≠ core) && s.dispatchable x).all fun x =>
    decide (lookup 0 core (lookup [] x s.arb) < s.weight core)

/-- The arbiter's counts after a dispatch to a core. -/
def State.arbiterNote (s : State) (side : List Nat) (core : Nat) : State :=
  { s with arb := side.foldl (fun a x =>
      if x = core || !s.dispatchable x then erase x a
      else store x (store core (lookup 0 core (lookup [] x a) + 1) (lookup [] x a)) a) s.arb }

/-- A command zeroes the tiles of its region as their jobs begin (R284, R319, R321). -/
def kZeroes (k : KWord) : Bool :=
  let op := kOp k
  op = 2 || (op = 3 && k.getLsbD 13) || (op ≥ 6 && !k.getLsbD 13)

/-- Entries of region tile j that a command writes (R319). -/
def kEntries (k : KWord) (j : Nat) : Nat := if kOp k = 6 then Nat.min 64 (kOuts k - 64 * j) else 64

/-- WMB_TILE_JOB_DISPATCH (R272): the arbiter of multiplier u's side gives it the next tile job of a core. A command that
has not started makes its checks first, and halts or waits for a page instead. -/
def tileJobDispatchBody (cl u core : Nat) : Op Unit := do
  let s ← get
  due ((s.jobOn cl u).isNone && (s.sideOf cl u).contains core && s.dispatchable core && s.arbiterAllows (s.sideOf cl u) core)
  let (i, j) ← dueSome (s.nextJob core)
  atSite core do
    let fresh := ((← getCore).wmb.getD i {}).started
    let r ← (if fresh then pure .done else tryRun (startChecks i))
    match r with
    | .parked => modCmd i fun m => { m with parked := true }
    | .stopped code => haltCmd i code
    | .done =>
      modify fun s => s.arbiterNote (s.sideOf cl u) core
      let m := (← getCore).wmb.getD i {}
      let zero := !m.zeroed.contains j && kZeroes m.word
      if zero then
        modCore fun c => c.putTile ((kRegion m.word).1 + j) 0 (List.replicate (kEntries m.word j) 0)
      modCmd i fun m => { m with
        todo := m.todo.filter fun x => decide (x ≠ j), fresh := m.fresh.filter fun x => decide (x ≠ j)
        jobs := m.jobs ++ [(j, u)]
        zeroed := if zero then j :: m.zeroed else m.zeroed }
      modCore fun c => { c with wjobs := c.wjobs + 1 }

def execWmbTileJobDispatch (cl u core : Nat) (s : State) : Host.Outcome State Fault Refusal :=
  runEvent (tileJobDispatchBody cl u core) s

/-! Operand blocks (R278, R280, R290). -/

/-- Element index of term t of row or column `idx` of operand A (0) or B (1). -/
def matElem (k : KWord) (a0 b0 side idx t : Nat) : Nat :=
  if side = 0 then a0 + idx * kStrideA k + t
  else if kOp k = 3 then b0 + idx * kStrideB k + t
  else b0 + t * kStrideB k + idx

/-- What the terms k0 to k1 − 1 of a row or column may be: raw elements with their scale bytes (R290). -/
def readTerms (m : Cmd) (l : Loc) (a0 b0 side idx k0 k1 : Nat) : Op (List (List (Nat × Nat))) := do
  let h := (← get).hdr l
  (List.range (k1 - k0)).mapM fun t => do
    let e := matElem m.word a0 b0 side idx (k0 + t)
    let xs ← raceElems m l (opFmt m.word side h) e
    if opBlog m.word side = 0 then return xs.map fun x => (x, 127)
    else
      let ss ← raceElems m l 0 (h.len + e / 16)
      return (xs.map fun x => ss.map fun y => (x, y)).flatten

/-- One reading of terms. -/
def pickTerms (ts : List (List (Nat × Nat))) : Op (List (Nat × Nat)) := ts.mapM (pick (0, 127))

/-- The terms of an aligned block: those of the first reading, which serves every product (R290). -/
def blockTerms (i : Nat) (m : Cmd) (l : Loc) (a0 b0 side idx k0 k1 : Nat) : Op (List (Nat × Nat)) := do
  let c ← getCore
  match (c.wmb.getD i {}).readings.find? fun r => decide (r.1 = (side, idx, k0)) with
  | some r => return r.2
  | none =>
    let ts ← pickTerms (← readTerms m l a0 b0 side idx k0 k1)
    modCmd i fun m => { m with readings := ((side, idx, k0), ts) :: m.readings }
    return ts

/-- The value of a raw element of a format, with its scale byte (R222, R280). -/
def termVal (m : Cmd) (fmt : Nat) (t : Nat × Nat) : Val :=
  let v := if fmt = 8 then F16.decode t.1 else if fmt = 9 then BF16.decode t.1
    else if fmt = 1 then Val.ofInt (signExt 8 t.1)
    else entryVal (m.dts.getD (fmt - 12) []) t.1
  v.scale (scaleExp t.2)

/-- An aligned block: none when it is invalid, else its exponent and its integers; with the flags (R280). -/
def alignBlock (w mode : Nat) (draw : Nat → Nat) (vals : List Val) (bad : Bool) : Option (Int × List Int) × Nat :=
  let tops := vals.filterMap fun v => match v with
    | .fin _ x e => if x = 0 then none else some (floorLog2 x e)
    | _ => none
  if bad || vals.any (fun v => match v with | .fin .. => false | _ => true) then (none, 0)
  else match tops with
    | [] => (some (0, vals.map fun _ => 0), 0)
    | t :: ts =>
      let top := ts.foldl max t
      let lim : Int := 2 ^ (w - 1) - 1
      let qs := vals.zipIdx.map fun v => intOfVal (-(2 ^ w)) (2 ^ w) mode (v.1.scale ((w : Int) - 2 - top)) (draw v.2)
      (some (top, qs.map fun q => min (max q.1 (-lim)) lim), qs.foldl (fun f q => f ||| q.2) 0)

/-- Accumulator format. -/
def accFmt (acc : Nat) : FFmt := if acc = 0 then F32 else F64

/-- An entry with a slot sum added at a power of two (R281): the entry and the flags. A NaN stays as it is; bits [63:32] of
a written F32 entry are zero (R274). -/
def addSlot (acc : Nat) (old : Word) (sum : Int) (e : Int) : Word × Nat :=
  let f := accFmt acc
  let x := old.toNat % 2 ^ f.width
  if sum = 0 then (old, 0)
  else match f.decode x with
    | .fin n m x =>
      let r := f.ofVal 0 (addFin 0 n m x (decide (sum < 0)) sum.natAbs e) 0
      (BitVec.ofNat 64 r.1, r.2)
    | _ => (BitVec.ofNat 64 x, 0)

/-- An entry after a block of a float narrow or block mode (R281). -/
def addAligned (acc w : Nat) (old : Word) (a b : Option (Int × List Int)) : Word × Nat :=
  match a, b with
  | some (ea, qa), some (eb, qb) =>
    addSlot acc old ((qa.zip qb).map fun x => x.1 * x.2).sum (ea + eb - 2 * ((w : Int) - 2))
  | _, _ => (BitVec.ofNat 64 (accFmt acc).nanBits, fNV)

/-- An entry after a block of FP64 or FP32: each product is added with one rounding (R279). -/
def addFused (acc fmt : Nat) (old : Word) (a b : List (Nat × Nat)) : Word × Nat :=
  let f := accFmt acc
  let g := if fmt = 10 then F32 else F64
  (a.zip b).foldl (fun c t =>
    let r := fmaVal false f 0 (g.decode t.1.1) (g.decode t.2.1) (f.decode (c.1.toNat % 2 ^ f.width)) 0
    (BitVec.ofNat 64 r.1, c.2 ||| r.2)) (old, 0)

/-- The range of an I64 entry. -/
def inRange64 (x : Int) : Bool := decide (-(2 ^ 63) ≤ x) && decide (x < 2 ^ 63)

/-- An entry after a block of INT8 or INT4 (R282): none when a part of a group of p terms leaves its range. `k0` is the
block's first depth index. -/
def addInts (p k0 : Nat) (old : Word) (a b : List Int) : Option Word :=
  let n := a.length
  let step := fun (st : Int × Bool) (t : (Int × Int) × Nat) =>
    let x := st.1 + t.1.1 * t.1.2
    let ends := decide ((k0 + t.2 + 1) % p = 0) || decide (t.2 + 1 = n)
    (x, st.2 && (!ends || inRange64 x))
  let r := (a.zip b).zipIdx.foldl step (old.toInt, true)
  if r.2 then some (toWord r.1) else none

/-- Entries of a tile. -/
def Core.tileEntries (c : Core) (t : Nat) : List Word := (List.range 64).map fun e => c.accSlot (64 * t + e)

/-- The matrix step of a tile job (R284): one depth block of region tile j of command i. -/
def matStep (i j : Nat) : Op Unit := do
  let s ← get
  let m := s.core.wmb.getD i {}
  let k := m.word
  let la := m.erefs.getD 0 (.pad 0)
  let lb := m.erefs.getD 1 (.pad 0)
  let ha := s.hdr la
  let hb := s.hdr lb
  let o := Owner.wmb s.site m.num
  let fa := opFmt k 0 ha
  let a0 := opFirst k 0 ha
  let b0 := opFirst k 1 hb
  checkRuns o k 0 la
  checkRuns o k 1 lb
  let k0 := m.rows.getD j 0
  let k1 := Nat.min (k0 + 16) (kDepth k)
  let (mode, w) := (kMode k).getD (0, 0)
  let rows := (List.range 8).map fun r => 8 * (j / kNT k) + r
  let cols := (List.range 8).map fun c => 8 * (j % kNT k) + c
  let tile := (kRegion k).1 + j
  let old := (← getCore).tileEntries tile
  let finish := fun (out : List (Word × Nat)) => do
    modCore fun c => { c.putTile tile 0 (out.map (·.1)) with
      wflags := out.foldl (fun f x => f ||| x.2) c.wflags }
    modCmd i fun m => { m with rows := m.rows.set j k1 }
  if w ≠ 0 then
    let as ← rows.mapM fun r => blockTerms i m la a0 b0 0 r k0 k1
    let bs ← cols.mapM fun c => blockTerms i m lb a0 b0 1 c k0 k1
    let bad := fun (side : Nat) (ts : List (Nat × Nat)) => opBlog k side ≠ 0 && ts.any fun t => decide (t.2 = 255)
    let al := fun (side fmt base idx : Nat) (ts : List (Nat × Nat)) =>
      alignBlock w m.rm (fun t => m.draw (base + idx * kDepth k + k0 + t)) (ts.map (termVal m fmt)) (bad side ts)
    let qa := (rows.zip as).map fun x => al 0 fa 0 x.1 x.2
    let qb := (cols.zip bs).map fun x => al 1 (opFmt k 1 hb) (8 * kMT k * kDepth k) x.1 x.2
    modCore fun c => { c with wflags := (qa ++ qb).foldl (fun f x => f ||| x.2) c.wflags }
    finish (old.zipIdx.map fun e =>
      addAligned (kAcc k) w e.1 ((qa.getD (e.2 / 8) (none, 0)).1) ((qb.getD (e.2 % 8) (none, 0)).1))
  else
    let as ← rows.mapM fun r => readTerms m la a0 b0 0 r k0 k1
    let bs ← cols.mapM fun c => readTerms m lb a0 b0 1 c k0 k1
    let reads ← old.zipIdx.mapM fun e => do
      let a ← pickTerms (as.getD (e.2 / 8) [])
      let b ← pickTerms (bs.getD (e.2 % 8) [])
      return (e.1, a, b)
    if mode ≤ 2 then finish (reads.map fun e => addFused (kAcc k) fa e.1 e.2.1 e.2.2)
    else
      let p := if mode = 8 then 3 else 6
      let int := fun (ts : List (Nat × Nat)) => ts.map fun t => signExt (fmtBits fa) t.1
      let out := reads.map fun e => addInts p k0 e.1 (int e.2.1) (int e.2.2)
      if out.any Option.isNone then raise .guard 0
      finish (out.map fun x => (x.getD 0, 0))

/-! ACCST and ACCLD (R286). -/

/-- An entry as an element of an object format: bits and flags. -/
def storeEntry (acc fmt : Nat) (v : Word) : Nat × Nat :=
  if acc = 0 then
    let x := v.toNat % 2 ^ 32
    if fmt = 10 then (x, 0) else (if fmt = 8 then F16 else BF16).ofVal 0 (F32.decode x) 0
  else if acc = 1 then (if fmt = 11 then (v.toNat, 0) else F32.ofVal 0 (F64.decode v.toNat) 0)
  else if fmt = 7 then (v.toNat, 0)
  else
    let x := v.toInt
    if x < -(2 ^ 31) then (2 ^ 31, fNV) else if x ≥ 2 ^ 31 then (2 ^ 31 - 1, fNV) else (intBits 32 x, 0)

/-- An element as an entry, and the flags: a signalling NaN that is converted sets NV (R219). -/
def loadEntry (acc fmt x : Nat) : Word × Nat :=
  if acc = 2 then (if fmt = 7 then BitVec.ofNat 64 x else toWord (signExt 32 x), 0)
  else
    let r := if acc = 0 then (if fmt = 10 then (x, 0) else F32.ofVal 0 ((if fmt = 8 then F16 else BF16).decode x) 0)
      else (if fmt = 11 then (x, 0) else F64.ofVal 0 (F32.decode x) 0)
    (BitVec.ofNat 64 r.1, r.2)

/-- One row of region tile j of an `ACCST` or `ACCLD`. -/
def accStep (i j : Nat) : Op Unit := do
  let s ← get
  let m := s.core.wmb.getD i {}
  let k := m.word
  let l := m.erefs.getD 0 (.pad 0)
  let h := s.hdr l
  let o := Owner.wmb s.site m.num
  let r := m.rows.getD j 0
  let nb := fmtBits h.fmt / 8
  let off := (elemAt h.fmt (kCursorA k) + (8 * (j / kNT k) + r) * kStrideA k + 8 * (j % kNT k)) * nb
  engTranslate o l off (8 * nb) (kOp k = 4)
  let tile := (kRegion k).1 + j
  if kOp k = 4 then
    let c ← getCore
    let out := (List.range 8).map fun x => storeEntry (kAcc k) h.fmt (c.accSlot (64 * tile + 8 * r + x))
    awaitReds l off (8 * nb)
    modify fun s => s.putObj l off (out.map fun x => leBytes x.1 nb).flatten
    modCore fun c => { c with wflags := out.foldl (fun f x => f ||| x.2) c.wflags }
    let canon := (← get).canonAt l
    modCmd i fun m => { m with
      rows := m.rows.set j (r + 1), bytes := m.bytes + 8 * nb, dests := m.dests ++ [(canon, l, off, 8 * nb)] }
  else
    awaitReds l off (8 * nb)
    if s.readPoisoned none l off (8 * nb) then raise .poison 0
    let xs ← (List.range 8).mapM fun x => raceBytes m l (off + x * nb) nb
    let es := xs.map fun b => loadEntry (kAcc k) h.fmt (ofBytes b)
    modCore fun c => { c.putTile tile (8 * r) (es.map (·.1)) with wflags := es.foldl (fun f x => f ||| x.2) c.wflags }
    modCmd i fun m => { m with rows := m.rows.set j (r + 1) }

/-! PCONV and PDOT (R319, R321). -/

/-- The exact sum of products of a block for an output: element indices of the two factors of each term. Each output reads
its elements anew (R290; log entry 116). -/
def dotBlock (m : Cmd) (la lb : Loc) (fmt : Nat) (terms : List (Nat × Nat)) : Op Int := do
  let xs ← terms.mapM fun t => do
    let x ← raceElem m la fmt t.1
    let y ← raceElem m lb fmt t.2
    return signExt (fmtBits fmt) x * signExt (fmtBits fmt) y
  return xs.sum

/-- One block of region tile j of a `PCONV` or `PDOT`. -/
def polyStep (i j : Nat) : Op Unit := do
  let s ← get
  let m := s.core.wmb.getD i {}
  let k := m.word
  let op := kOp k
  let la := m.erefs.getD 0 (.pad 0)
  let lb := m.erefs.getD 1 (.pad 0)
  let o := Owner.wmb s.site m.num
  let (fmt, blk) := streamFmt op (kAcc k)
  let a0 := elemAt fmt (kCursorA k)
  let b0 := elemAt fmt (kCursorB k)
  checkRuns o k 0 la
  checkRuns o k 1 lb
  let j0 := m.rows.getD j 0
  let j1 := Nat.min (j0 + blk) m.fullRows
  let outs := kEntries k j
  let tile := (kRegion k).1 + j
  let c ← getCore
  let ys ← (List.range outs).mapM fun t => do
    let r := 64 * j + t
    let terms := (List.range (j1 - j0)).map fun d =>
      if op = 6 then (a0 + r + kTaps k - 1 - (j0 + d), b0 + j0 + d)
      else (a0 + r * kStrideA k + j0 + d, b0 + r * kStrideB k + j0 + d)
    let sum ← dotBlock m la lb fmt terms
    return (c.accSlot (64 * tile + t)).toInt + sum
  if ys.any fun y => !inRange64 y then raise .guard 0
  modCore fun c => c.putTile tile 0 (ys.map toWord)
  modCmd i fun m => { m with rows := m.rows.set j j1 }

/-! Running a job. -/

/-- A step of the tile job on multiplier u of cluster cl, if its command's operation is the one asked for: the multiplier
is free again when the tile is finished, or when the job waits for a page (R285). -/
def jobBody (op cl u : Nat) (step : Nat → Nat → Op Unit) : Op Unit := do
  let s ← get
  let (core, i, j) ← dueSome (s.jobOn cl u)
  due (decide (kOp ((s.coreAt core).wmb.getD i {}).word = op))
  atSite core do
    match ← tryRun (step i j) with
    | .parked => modCmd i fun m => { m with
        parked := true, jobs := m.jobs.filter fun x => decide (x ≠ (j, u)), todo := insertKey j m.todo }
    | .stopped code => haltCmd i code
    | .done => modCmd i fun m => if m.tileDone j then { m with jobs := m.jobs.filter fun x => decide (x ≠ (j, u)) } else m

/-- `MMA` (R284). -/
def execMma (cl u : Nat) (s : State) : Host.Outcome State Fault Refusal := runEvent (jobBody 1 cl u matStep) s
/-- `MMAZ` (R284). -/
def execMmaz (cl u : Nat) (s : State) : Host.Outcome State Fault Refusal := runEvent (jobBody 2 cl u matStep) s
/-- `MMAT` (R284). -/
def execMmat (cl u : Nat) (s : State) : Host.Outcome State Fault Refusal := runEvent (jobBody 3 cl u matStep) s
/-- `ACCST` (R286). -/
def execAccst (cl u : Nat) (s : State) : Host.Outcome State Fault Refusal := runEvent (jobBody 4 cl u accStep) s
/-- `ACCLD` (R286). -/
def execAccld (cl u : Nat) (s : State) : Host.Outcome State Fault Refusal := runEvent (jobBody 5 cl u accStep) s
/-- `PCONV` (R319). -/
def execPconv (cl u : Nat) (s : State) : Host.Outcome State Fault Refusal := runEvent (jobBody 6 cl u polyStep) s
/-- `PDOT` (R321). -/
def execPdot (cl u : Nat) (s : State) : Host.Outcome State Fault Refusal := runEvent (jobBody 7 cl u polyStep) s

/-- A command has done all its tile jobs. -/
def Cmd.complete (m : Cmd) : Bool := m.started && m.fault.isNone && m.todo.isEmpty && m.jobs.isEmpty

/-- A context of the core has room for a record (R38). -/
def State.recRoom (s : State) (ctx : Nat) : Bool := decide ((s.core.ctxAt ctx).recs.length < recCapacity)

/-- WMB_COMMAND_COMPLETE (R291): a finished command of a core returns its counts, credits its barrier, posts its record
and leaves; it is held back while its context's record queue is full (R38). A record held since a halt goes first. -/
def commandCompleteBody (core : Nat) : Op Unit := atSite core do
  let s ← get
  let c := s.core
  match c.owed.find? fun r => s.recRoom r.ctx with
  | some r =>
    set (← dueSome (s.postRecord s.site r.ctx r.record.word r.record.dests))
    modCore fun c => { c with owed := c.owed.erase r }
  | none =>
    let (m, i) ← dueSome (c.wmb.zipIdx.find? fun e => e.1.complete && (!kRec e.1.word || s.recRoom e.1.ctx))
    let s1 ← (if kRec m.word then dueSome (s.postRecord s.site m.ctx (m.record 0) m.dests) else pure s)
    let s2 := m.erefs.foldl State.erefDown s1
    let s3 := match m.barrier with
      | some v => (s2.barCredit v m.bytes).barPendingDown v
      | none => s2
    set s3
    modCore fun c => { c with
      wmb := c.wmb.eraseIdx i
      wdone := c.wdone ++ [{ ctx := m.ctx, batch := m.batch, dests := m.dests }] }
    modify State.dropOlds

def execWmbCommandComplete (core : Nat) (s : State) : Host.Outcome State Fault Refusal :=
  runEvent (commandCompleteBody core) s

end Sys2Proof.Machine
end

