-- ==== Sys2Proof/Machine/Packed.lean ====
section
/-! DEFINITION. Packed: the packed-polynomial instructions of major 0x2C (R305 to R316). -/

namespace Sys2Proof.Machine

/-! Packed values. -/

/-- Coefficients at a slot width as one number. -/
def packCoeffs (s : Nat) : List Int → Int
  | [] => 0
  | c :: t => c + 2 ^ s * packCoeffs s t

/-- The largest magnitude that a slot holds. -/
def slotBound (s : Nat) : Nat := 2 ^ (s - 1) - 1

/-- Element bits, sign and bound of a `pack` type (R311). -/
def packType (t : Nat) : Nat × Bool × Nat :=
  if t = 0 then (8, true, 128) else if t = 1 then (8, false, 255)
  else if t = 2 then (16, true, 32768) else if t = 3 then (16, false, 65535)
  else if t = 4 then (32, true, 2 ^ 31) else if t = 5 then (32, false, 2 ^ 32 - 1)
  else (4, true, 8)

/-- A bound as a trap value, clipped (R309). -/
def clip64 (n : Nat) : Word := BitVec.ofNat 64 (Nat.min n (2 ^ 64 - 1))

/-- A wide register that must hold a packed value (R312, R313, R315): TYPE with its number. -/
def rdPacked (r : Nat) : Op WReg := do
  let w := (← getCore).wreg r
  require (descValid w.desc) .type (BitVec.ofNat 64 r)
  return w

/-- `pack` (R311). -/
def execPack (d : BitVec 3) (a b : BitVec 5) (t : BitVec 3) (s : State) : Host.Outcome State Fault Refusal :=
  runInstr (.pack d a b t) (do
    let va ← rdV a
    let cw ← rdS b
    let sw := bitsOf cw 0 6
    let n := bitsOf cw 8 9
    let f := bitsOf cw 17 9
    require (decide (bitsOf cw 6 2 = 0) && decide (bitsOf cw 27 37 = 0) && decide (4 ≤ sw) && decide (sw ≤ 48)
      && decide (1 ≤ n) && decide (n ≤ 256)) .illegal cw
    let (e, sgn, m) := packType t.toNat
    require (decide (f + n ≤ 1024 / e) && decide (n * sw ≤ 512)) .bounds cw
    require (decide (m ≤ slotBound sw)) .guard (clip64 m)
    let c := fun (i : Nat) =>
      let x := elemOf va e (if cw.getLsbD 26 then f + n - 1 - i else f + i)
      if sgn then signExt e x else (x : Int)
    wrW d.toNat { bits := BitVec.ofInt 1024 (packCoeffs sw ((List.range n).map c)), desc := mkDesc n sw m }) s

/-- `gwid` (R312). -/
def execGwid (d a : BitVec 3) (b : BitVec 5) (s : State) : Host.Outcome State Fault Refusal :=
  runInstr (.gwid d a b) (do
    let cw ← rdS b
    let sw := bitsOf cw 0 6
    require (decide (bitsOf cw 7 57 = 0) && (decide (sw = 0) || (decide (4 ≤ sw) && decide (sw ≤ 48)))) .illegal cw
    let w ← rdPacked a.toNat
    let sw' := if sw = 0 then descS w.desc else sw
    let cs := w.coeffs
    let n' := if cw.getLsbD 6 then Nat.max 1 ((cs.zipIdx.filter fun c => decide (c.1 ≠ 0)).foldl (fun m c => Nat.max m (c.2 + 1)) 0)
      else descN w.desc
    let m' := if cw.getLsbD 6 then maxAbs cs else descM w.desc
    require (decide (n' * sw' ≤ 1024)) .bounds (BitVec.ofNat 64 (n' * sw'))
    require (decide (m' ≤ slotBound sw')) .guard (clip64 m')
    wrW d.toNat { bits := BitVec.ofInt 1024 (packCoeffs sw' (cs.take n')), desc := mkDesc n' sw' m' }) s

/-- The product of two packed values (R313): its bits as a number, N, S and its bound. -/
def packedProduct (a b : Nat) (d : Option Nat) : Op (Int × Nat × Nat × Nat) := do
  let wa ← rdPacked a
  let wb ← rdPacked b
  match d with
  | some r => let _ ← rdPacked r
  | none => pure ()
  let sw := descS wa.desc
  require (decide (descS wb.desc = sw)) .type (BitVec.ofNat 64 b)
  match d with
  | some r => require (decide (descS ((← getCore).wreg r).desc = sw)) .type (BitVec.ofNat 64 r)
  | none => pure ()
  let na := descN wa.desc
  let nb := descN wb.desc
  require (decide (na * sw ≤ 512)) .bounds (BitVec.ofNat 64 a)
  require (decide (nb * sw ≤ 512)) .bounds (BitVec.ofNat 64 b)
  let low := fun (w : WReg) => (w.bits.setWidth 512).toInt
  return (low wa * low wb, na + nb - 1, sw, Nat.min na nb * descM wa.desc * descM wb.desc)

/-- `wmulp` (R313). -/
def execWmulp (d a b : BitVec 3) (s : State) : Host.Outcome State Fault Refusal :=
  runInstr (.wmulp d a b) (do
    let (v, n, sw, m) ← packedProduct a.toNat b.toNat none
    require (decide (m ≤ slotBound sw)) .guard (clip64 m)
    wrW d.toNat { bits := BitVec.ofInt 1024 v, desc := mkDesc n sw m }) s

/-- `wmacp` (R313). -/
def execWmacp (d a b : BitVec 3) (s : State) : Host.Outcome State Fault Refusal :=
  runInstr (.wmacp d a b) (do
    let (v, n, sw, m) ← packedProduct a.toNat b.toNat (some d.toNat)
    let wd := (← getCore).wreg d.toNat
    let m' := descM wd.desc + m
    require (decide (m' ≤ slotBound sw)) .guard (clip64 m')
    wrW d.toNat { bits := BitVec.ofInt 1024 (wd.bits.toInt + v), desc := mkDesc (Nat.max (descN wd.desc) n) sw m' }) s

/-- Element bits and largest value of a lane type (R315). -/
def laneType (e : Nat) : Nat × Nat := if e = 0 then (16, 2 ^ 15 - 1) else if e = 1 then (32, 2 ^ 31 - 1) else (64, 2 ^ 63 - 1)

/-- `extr` (R315). -/
def execExtr (d : BitVec 5) (a : BitVec 3) (b : BitVec 5) (e : BitVec 2) (s : State) : Host.Outcome State Fault Refusal :=
  runInstr (.extr d a b e) (do
    let f ← rdS b
    let w ← rdPacked a.toNat
    let (bits, top) := laneType e.toNat
    require (decide (descM w.desc ≤ top)) .guard (BitVec.ofNat 64 (descM w.desc))
    wrV d (mkVec bits fun i => intBits bits (w.coeff (f.toNat + i)))) s

end Sys2Proof.Machine
end

