-- ==== Sys2Proof/Machine/CopyMsg.lean ====
section
/-! DEFINITION. CopyMsg: the instructions of major 0x2E: pushing commands to the core's copy engine, waiting for them, and
their state (R177, R325 to R332, R344 to R346). -/

namespace Sys2Proof.Machine

/-! Fields of copy command words (R326 to R329). -/

def kE (k : KWord) : Nat := 2 ^ kField k 14 2
def kRows (k : KWord) : Nat := kField k 56 8 + 1
def kCols (k : KWord) : Nat := kField k 216 16 + 1
def kSrc (k : KWord) : Nat := kField k 32 24
def kDst (k : KWord) : Nat := kField k 192 24
def kSs (k : KWord) : Nat := 8 * kField k 232 12
def kDs (k : KWord) : Nat := 8 * kField k 244 12

/-- `GATHER`: indices, row bytes and the first index (R327). -/
def kNi (k : KWord) : Nat := kField k 32 10 + 1
def kLam (k : KWord) : Nat := 16 * (kField k 42 12 + 1)
def kCi (k : KWord) : Nat := 16 * kField k 54 10

/-- `FILL`: cursor, length and pattern (R328). -/
def kFillAt (k : KWord) : Nat := kField k 32 32
def kFillLen (k : KWord) : Nat := kField k 160 32
def kFillVal (k : KWord) : Nat := kField k 128 32

/-- `PAGEIN` and `MIGR`: cursor, pages and channel group (R329). -/
def kPageAt (k : KWord) : Nat := kField k 32 32
def kPages (k : KWord) : Nat := kField k 192 9 + 1
def kGroup (k : KWord) : Nat := kField k 201 4

/-- A copy command word whose header and reserved bits a push accepts (R52, R326 to R329). -/
def copyWordOk (k : KWord) : Bool :=
  let op := kOp k
  decide (0x11 ≤ op) && decide (op ≤ 0x16) && kZero k 19 1 && decide (kScope k ≤ 5)
    && (!kArrive k || decide (op ≥ 0x14))
    && (if op ≤ 0x12 then kZero k 10 3
        else if op = 0x13 then kZero k 14 2 && kZero k 10 3
        else if op = 0x14 then kZero k 10 4
        else kZero k 14 2 && kZero k 10 3 && (decide (op = 0x16) || kZero k 13 1) && kZero k 205 51)
    && (!kArrive k || decide (ptrLevel (kPtr k (if op = 0x14 then 192 else 128)) ≠ 7))

/-- The pointer field of a command's barrier, if the operation has one. -/
def kBar (k : KWord) : Option Word :=
  if kOp k = 0x14 then some (kPtr k 192) else if kOp k ≥ 0x15 then some (kPtr k 128) else none

/-- The pointers of a command's objects: source, destination and index, as far as the operation has them. -/
def kObjects (k : KWord) : List Word :=
  if kOp k ≤ 0x12 then [kPtr k 64, kPtr k 128]
  else if kOp k = 0x13 then [kPtr k 64, kPtr k 128, kPtr k 192]
  else [kPtr k 64]

/-- The limits of the geometry (R330). -/
def copyGeometryOk (k : KWord) : Bool :=
  let op := kOp k
  if op = 0x11 then decide (1 ≤ kDs k) && (decide (kRows k = 1) || decide (kCols k ≤ kDs k))
  else if op = 0x12 then decide (1 ≤ kDs k) && decide (kCols k ≤ 256) && (decide (kCols k = 1) || decide (kRows k ≤ kDs k))
  else if op = 0x13 then true
  else if op = 0x14 then decide (kField k 14 2 ≠ 3) && decide (kFillLen k ≠ 0) && decide (kFillLen k % kE k = 0)
  else decide (kGroup k ≤ 8)

/-! Extents (R264, R330, R332). -/

/-- Rows of elements that an operand touches: first element, length, stride and number of rows. -/
structure Extent where
  first : Nat
  len : Nat
  stride : Nat := 0
  rows : Nat := 1
  deriving DecidableEq, Repr

/-- Bytes from the first to one past the last, for elements of E bytes. -/
def Extent.bytes (x : Extent) (e : Nat) : Nat × Nat := (x.first * e, (x.first + (x.rows - 1) * x.stride + x.len) * e)

/-- The lowest offset of an element that ends beyond a limit. -/
def Extent.beyond (x : Extent) (e limit : Nat) : Option Nat :=
  (List.range x.rows).findSome? fun r =>
    let lo := x.first + r * x.stride
    if (lo + x.len) * e > limit then some (Nat.max lo (limit / e) * e) else none

def srcExtent (k : KWord) : Extent := { first := kSrc k, len := kCols k, stride := kSs k, rows := kRows k }

def dstExtent (k : KWord) : Extent :=
  if kOp k = 0x11 then { first := kDst k, len := kCols k, stride := kDs k, rows := kRows k }
  else { first := kDst k, len := kRows k, stride := kDs k, rows := kCols k }

/-- Bytes of a body that an engine may read. -/
def engineLen (h : Hdr) : Nat := if h.typ = tRSTATE then readLen h.typ h.len else h.span

/-- The elements of an object are of E bytes, or raw, or 4-bit ones counted in bytes (R330). -/
def copyFmtOk (op e : Nat) (h : Hdr) : Bool :=
  h.fmt = 0 || (if fmtBits h.fmt = 4 then decide (op ≠ 0x12) && decide (e = 1) else decide (fmtBits h.fmt = 8 * e))

/-- BOUNDS with an offset, when there is one. -/
def boundsAt (x : Option Nat) : Op Unit := do
  if let some o := x then raise .bounds (BitVec.ofNat 64 o)

/-- The index of the page after the last of a heap object, counted from the page of a byte cursor. -/
def pagesLeft (va cursor span : Nat) : Nat := (va + 32 + span - 1) / 4096 + 1 - (va + 32 + cursor) / 4096

/-- First and last byte offsets of two ranges meet: the first offset of the second range inside the first. -/
def overlapAt (src dst : Nat × Nat) : Option Nat :=
  if src.1 < dst.2 ∧ dst.1 < src.2 then some (Nat.max src.1 dst.1) else none

/-- The geometry of an in-place transpose, whose source and destination are one object (R332). -/
def inPlace (k : KWord) : Bool :=
  kOp k = 0x12 && decide (kSrc k = kDst k) && decide (kSs k = kDs k) && decide (kRows k = kCols k)

/-- The byte ranges of source and destination within their bodies. -/
def copyRanges (k : KWord) (hs : Hdr) : (Nat × Nat) × (Nat × Nat) :=
  if kOp k ≤ 0x12 then ((srcExtent k).bytes (kE k), (dstExtent k).bytes (kE k))
  else ((0, engineLen hs), (0, kLam k * kNi k))

/-- Type checks of a command's objects (R330). -/
def copyTypesOk (k : KWord) (i : Nat) (h : Hdr) : Bool :=
  let op := kOp k
  if op ≤ 0x13 then
    if i = 0 then h.typ = tDATA || h.typ = tRSTATE || h.typ = tCODE || h.typ = tSHAPES
    else if i = 1 then h.typ = tDATA
    else h.typ = tDATA && (h.fmt = 5 || h.fmt = 6)
  else if op = 0x14 then h.typ = tDATA
  else h.typ ≠ tBARRIER && h.typ ≠ tDEQUE && h.typ ≠ tCTXBUF

/-- Format checks (R330). -/
def copyFmtsOk (k : KWord) (i : Nat) (h : Hdr) : Bool :=
  let op := kOp k
  if op ≤ 0x12 then copyFmtOk op (kE k) h && (decide (op ≠ 0x12) || decide (h.blog = 0))
  else if op = 0x13 then i = 2 || 8 * kLam k % fmtBits h.fmt = 0
  else if op = 0x14 then copyFmtOk op (kE k) h
  else true

/-- Bounds of a command's objects (R330). -/
def copyBounds (k : KWord) (i : Nat) (l : Loc) (h : Hdr) : Option Nat :=
  let op := kOp k
  if op ≤ 0x12 then (if i = 0 then srcExtent k else dstExtent k).beyond (kE k) (engineLen h)
  else if op = 0x13 then
    if i = 0 then none
    else if i = 1 then ({ first := 0, len := kLam k * kNi k : Extent }).beyond 1 (engineLen h)
    else ({ first := kCi k, len := kNi k : Extent }).beyond 4 (engineLen h)
  else if op = 0x14 then ({ first := kFillAt k, len := kFillLen k : Extent }).beyond 1 (engineLen h)
  else match l with
    | .heap _ va =>
      let left := pagesLeft va (kPageAt k) h.span
      if kPages k ≤ left then none
      else some (if left = 0 then kPageAt k else ((va + 32 + kPageAt k) / 4096 + left) * 4096 - va - 32)
    | .pad _ => none

/-- The place of an object of a command: the copy of R285, or for `PAGEIN` and `MIGR` the heap object. -/
def copyPlace (k : KWord) (p : Word) : Op Loc := do
  let s ← get
  let o := Owner.ctx s.site s.core.act
  if kOp k ≥ 0x15 then engHome o s.core.act p else return (← engCopy o s.core.act p).1

/-- The checks of R330 and R332 on a copy command, for the executing context. -/
def copyChecks (k : KWord) : Op Unit := do
  let s ← get
  let o := Owner.ctx s.site s.core.act
  let objs := kObjects k
  let bar := (kBar k).filter fun p => decide (ptrLevel p ≠ 7)
  for p in objs ++ bar.toList do pushPointer p
  if kOp k ≥ 0x15 then require (decide (ptrLevel (kPtr k 64) = 0)) .type (kPtr k 64)
  let ls ← objs.mapM (copyPlace k)
  let lb ← bar.toList.mapM (engHome o s.core.act)
  for x in (objs.zip ls) ++ (bar.toList.zip lb) do worldCheck x.1 x.2
  let s ← get
  let hs := ls.map s.hdr
  for x in (objs.zip hs).zipIdx do require (copyTypesOk k x.2 x.1.2) .type x.1.1
  for x in bar.toList.zip lb do require (barrierOk (s.hdr x.2)) .type x.1
  for x in (objs.zip hs).zipIdx do require (copyFmtsOk k x.2 x.1.2) .type x.1.1
  for x in (ls.zip hs).zipIdx do boundsAt (copyBounds k x.2 x.1.1 x.1.2)
  require (copyGeometryOk k) .illegal (kLow k)
  if kOp k ≤ 0x13 then
    let r := copyRanges k (hs.getD 0 {})
    let dst := ls.getD 1 (.pad 0)
    if ls.getD 0 (.pad 0) = dst && !inPlace k then
      if let some o := overlapAt r.1 r.2 then raise .copyovl (BitVec.ofNat 64 o)
    if kOp k = 0x13 && ls.getD 2 (.pad 0) = dst then
      if let some o := overlapAt (4 * kCi k, 4 * (kCi k + kNi k)) r.2 then raise .copyovl (BitVec.ofNat 64 o)

/-- Copy commands of the executing context in flight. -/
def copiesInFlight : Op Nat := do
  let c ← getCore
  return (c.copies.filter fun m => decide (m.ctx = c.act)).length

/-- The barrier object of a command, if it names one: with ARRIVE the copy that it is to credit (R210, R344). -/
def copyBarrier (k : KWord) : Op (Option Loc) := do
  let s ← get
  match (kBar k).filter fun p => decide (ptrLevel p ≠ 7) with
  | none => return none
  | some p =>
    if kArrive k then return some (← pushBarrier p (kScope k))
    else return some (← engHome (.ctx s.site s.core.act) s.core.act p)

/-- Pieces of a row of a `COPY`, of at most 64 bytes (R325, R333). -/
def rowPieces (k : KWord) : Nat := ceilDiv (kCols k) (64 / kE k)

/-- The page of a body offset, to tell pages apart. -/
def pageOf (l : Loc) (off : Nat) : Nat :=
  match l with
  | .heap _ va => (va + 32 + off) / 4096
  | .pad _ => 0

/-- Items taken round-robin over channels, in their order within each channel; with fuel. -/
def roundRobin (chan : Nat → Nat) : Nat → List Nat → List Nat
  | 0, l => l
  | n + 1, l =>
    let turn := ((l.map chan).dedup).filterMap fun c => l.find? fun x => decide (chan x = c)
    if turn = [] then [] else turn ++ roundRobin chan n (l.filter fun x => !turn.contains x)

/-- What is read of a heap object, taken by its pages round-robin over their home channels, the pages ascending within each
(R339); a page that is not mapped yet has no channel. Reads of a pad keep their order. -/
def State.grouped {α : Type} (s : State) (src : Loc) (off : α → Nat) (l : List α) : List α :=
  match src with
  | .pad _ => l
  | .heap asid _ =>
    let page := fun (x : α) => pageOf src (off x)
    let pages := l.foldl (fun t x => insertKey (page x) t) []
    let chan := fun (pg : Nat) => match find (pageKey asid pg) s.ptes with | some e => s.channelOf e.frame | none => 256
    ((roundRobin chan pages.length pages).map fun pg => l.filter fun x => decide (page x = pg)).flatten

/-- Channel-grouped reads (R339). -/
def kGrouped (k : KWord) : Bool := k.getLsbD 13

/-- The order in which a `COPY` with channel-grouped reads takes its pieces (R339). -/
def State.groupedOrder (s : State) (k : KWord) (src : Loc) : List Nat :=
  let n := rowPieces k
  if kOp k ≠ 0x11 || !kGrouped k then []
  else s.grouped src (fun i => (kSrc k + i / n * kSs k + i % n * (64 / kE k)) * kE k) (List.range (kRows k * n))

/-- Queues a copy command that has been checked and released, with its barrier: counts, and the copy of the word (R344). -/
def queueCopy (k : KWord) (bar : Option Loc) : Op Unit := do
  let ls ← (kObjects k).mapM (copyPlace k)
  let all := ls ++ bar.toList
  modify fun s => all.foldl State.erefUp s
  if kArrive k then
    if let some v := bar then modify fun s => s.barPendingUp v
  let s ← get
  let m := { s.newCmd k 0 with
    num := s.core.works, erefs := all, barrier := if kArrive k then bar else none, started := true
    order := s.groupedOrder k (ls.getD 0 (.pad 0)) }
  modCore fun c => { c with copies := c.copies ++ [m], works := c.works + 1 }
  modTx fun t => { t with pushed := true }

/-- Waits for a free entry of the copy engine (R325). -/
def awaitEntry : Op Unit := do
  if (← getCore).copies.length ≥ 2 then waitHere

/-- `cpush` (R344). A command word that is refused leaves its low 32 bits in `trapval`, as R297 has it for `wpush` (log
entry 108). -/
def execCpush (d : BitVec 5) (k : BitVec 2) (s : State) : Host.Outcome State Fault Refusal :=
  runInstr (.cpush d k) (do
    let w := (← getCore).kreg k.toNat
    require (copyWordOk w) .illegal (kLow w)
    copyChecks w
    awaitEntry
    releaseAll (kScope w)
    let bar ← copyBarrier ((← getCore).kreg k.toNat)
    queueCopy ((← getCore).kreg k.toNat) bar
    wrNat d (← copiesInFlight)) s

/-- `cpwait` (R345). -/
def execCpwait (d a : BitVec 5) (s : State) : Host.Outcome State Fault Refusal :=
  runInstr (.cpwait d a) (do
    let m ← rdS a
    let n ← copiesInFlight
    if n > m.toNat then waitHere
    reportFault fun f => f.kind = 2
    let c ← getCore
    let mine := fun (e : Done) => decide (e.ctx = c.act)
    acquireDests ((c.cpdone.filter mine).map (·.dests)).flatten
    modCore fun c => { c with cpdone := c.cpdone.filter fun e => !mine e }
    wrNat d n) s

/-- The value of a `cpstat` selector (R346). -/
def cpstatValue (c : Core) (n : Nat) : Option Nat :=
  if n = 0 then some c.copies.length
  else if n = 1 then some (c.copies.filter fun m => decide (m.ctx = c.act)).length
  else if n = 2 then some c.cpbytes
  else if n = 3 then some c.cppages
  else if n = 4 then
    some (match (c.faults.filter fun f => decide (f.kind = 2) && decide (f.ctx = c.act)).getLast? with
      | some f => bitsOf f.record 56 8
      | none => 0)
  else none

/-- `cpstat` (R346). -/
def execCpstat (d a : BitVec 5) (s : State) : Host.Outcome State Fault Refusal :=
  runInstr (.cpstat d a) (do
    let n ← rdS a
    match cpstatValue (← getCore) n.toNat with
    | some v => wrNat d v
    | none => illegal n) s

/-- The command word that `cppage` pushes (R177, R329). -/
def cppageWord (p : Word) (cursor pages : Nat) (rec : Bool) : KWord :=
  BitVec.ofNat 256 (0x15 + (if rec then 2 ^ 8 else 0) + cursor % 2 ^ 32 * 2 ^ 32 + p.toNat * 2 ^ 64
    + nullPtr.toNat * 2 ^ 128 + (pages - 1) * 2 ^ 192)

/-- `cppage` (R177): its own checks, and then those of the push, of which R330 leaves the type of the object. -/
def cppageBody (d : BitVec 5) (a : BitVec 4) (b : BitVec 5) (rec : Bool) : Op Unit := do
  let r ← rdA a.toNat
  if ptrLevel r.ptr = 7 then raise .nullptr r.ptr
  if ptrLevel r.ptr ≠ 0 then raise .type r.ptr
  let n ← rdS b
  let l ← locate r.ptr
  worldCheck r.ptr l
  let s ← get
  require (decide (1 ≤ n.toNat) && decide (n.toNat ≤ 512)) .bounds n
  let va := ptrLoc r.ptr
  require (decide (n.toNat ≤ pagesLeft va r.cur.toNat (s.hdr l).span)) .bounds n
  let first := (va + 32 + r.cur.toNat) / 4096
  if (List.range n.toNat).all fun i => s.hbmResident s.asid (first + i) then wrS d 0
  else
    require (copyTypesOk (cppageWord r.ptr 0 1 rec) 0 (s.hdr l)) .type r.ptr
    awaitEntry
    releaseAll 0
    queueCopy (cppageWord r.ptr r.cur.toNat n.toNat rec) none
    wrS d 1

/-- `cppage` without a record (R177). -/
def execCppage (d : BitVec 5) (a : BitVec 4) (b : BitVec 5) (s : State) : Host.Outcome State Fault Refusal :=
  runInstr (.cppage d a b) (cppageBody d a b false) s

/-- `cppage` with a record (R177). -/
def execCppageRec (d : BitVec 5) (a : BitVec 4) (b : BitVec 5) (s : State) : Host.Outcome State Fault Refusal :=
  runInstr (.cppageRec d a b) (cppageBody d a b true) s

end Sys2Proof.Machine
end

