-- ==== Sys2Proof/Machine/CopyEngine.lean ====
section
/-! DEFINITION. CopyEngine: the operations of the copy engine (R333 to R342). A command reads a piece, at most a granule of
64 bytes, a transposed tile or pair of tiles, or a page, and then writes what it read, one granule at a time; anything else
may happen between two such steps. -/

namespace Sys2Proof.Machine

/-- Changes entry i of the copy engine under way. -/
def modCopy (i : Nat) (f : Cmd → Cmd) : Op Unit := modCore fun c => { c with copies := c.copies.modify i f }

/-- What a command reads next: the source bytes of each element with the place it goes to, and the progress afterwards.
`whole` pieces are written only when all of them has been read, in the order of their destination offsets in `writes`. -/
structure Piece where
  /-- source offset, destination offset -/
  elems : List (Nat × Nat)
  size : Nat
  next : Nat
  whole : Bool := false
  writes : List Nat := []
  deriving DecidableEq, Repr

/-- Piece number `i` of a `COPY`, the one with which it is at `n`: elements of one row, at most 64 bytes (R333). -/
def copyPiece (k : KWord) (i n : Nat) : Piece :=
  let e := kE k
  let r := i / rowPieces k
  let c := i % rowPieces k * (64 / e)
  let g := Nat.min (64 / e) (kCols k - c)
  { elems := (List.range g).map fun i => ((kSrc k + r * kSs k + c + i) * e, (kDst k + r * kDs k + c + i) * e)
    size := e, next := n + 1 }

/-- Element (r, c) of a tile of a transpose: its source and destination offsets. -/
def tileElem (k : KWord) (ti tj r c : Nat) : Nat × Nat :=
  ((kSrc k + kSs k * (32 * ti + r) + 32 * tj + c) * kE k, (kDst k + kDs k * (32 * tj + c) + 32 * ti + r) * kE k)

/-- Rows and columns of a tile, 32 each but at the edges. -/
def tileSize (k : KWord) (ti tj : Nat) : Nat × Nat := (Nat.min 32 (kRows k - 32 * ti), Nat.min 32 (kCols k - 32 * tj))

/-- The elements of a tile as they are read, by source rows (R334). -/
def tileElems (k : KWord) (ti tj : Nat) : List (Nat × Nat) :=
  ((List.range (tileSize k ti tj).1).map fun r => (List.range (tileSize k ti tj).2).map fun c => tileElem k ti tj r c).flatten

/-- The destination offsets of a tile as they are written, by columns, which become destination rows (R334). -/
def tileWrites (k : KWord) (ti tj : Nat) : List Nat :=
  ((List.range (tileSize k ti tj).2).map fun c => (List.range (tileSize k ti tj).1).map fun r => (tileElem k ti tj r c).2).flatten

/-- Tile rows and columns of a transpose. -/
def tileGrid (k : KWord) : Nat × Nat := (ceilDiv (kRows k) 32, ceilDiv (kCols k) 32)

/-- The tiles (I, J) with I ≤ J of a square grid, in row-major order. -/
def upperTiles (n : Nat) : List (Nat × Nat) :=
  ((List.range n).map fun i => (List.range (n - i)).map fun j => (i, i + j)).flatten

/-- A command transposes one object in place (R332). -/
def Cmd.inPlace (m : Cmd) : Bool := Machine.inPlace m.word && decide (m.erefs[0]? = m.erefs[1]?)

/-- The next piece of an `XPOSE`: a tile, or in place a diagonal tile or a pair (R334). -/
def xposePiece (k : KWord) (place : Bool) (n : Nat) : Piece :=
  let g := tileGrid k
  let tiles := if place then
      match (upperTiles g.1)[n]? with
      | some t => if t.1 = t.2 then [t] else [t, (t.2, t.1)]
      | none => []
    else [(n / g.2, n % g.2)]
  { elems := (tiles.map fun t => tileElems k t.1 t.2).flatten, writes := (tiles.map fun t => tileWrites k t.1 t.2).flatten
    size := kE k, next := n + 1, whole := true }

/-- Pieces, bytes or pages of a command in all. -/
def Cmd.total (m : Cmd) : Nat :=
  let k := m.word
  let op := kOp k
  if op = 0x11 then kRows k * rowPieces k
  else if op = 0x12 then (if m.inPlace then (upperTiles (tileGrid k).1).length else (tileGrid k).1 * (tileGrid k).2)
  else if op = 0x13 then kNi k * kLam k
  else if op = 0x14 then kFillLen k
  else kPages k

/-- The element size in which a `GATHER` moves bytes. -/
def gatherSize (h : Hdr) : Nat := Nat.max 1 (fmtBits h.fmt / 8)

/-- The pieces of a row of a `GATHER`, by offset in the row and bytes. -/
def gatherRow (lam : Nat) : List (Nat × Nat) := (List.range (ceilDiv lam 64)).map fun i => (64 * i, Nat.min 64 (lam - 64 * i))

/-- The piece of a list that begins once n bytes of it have been moved. -/
def pieceAt : List (Nat × Nat) → Nat → Nat × Nat
  | [], _ => (0, 0)
  | p :: t, n => if n < p.2 then p else pieceAt t (n - p.2)

/-- The next piece of a `GATHER`, of row number `cur` of the source, when n bytes have been moved: the pieces of the row are
taken in the order `row` (R335, R339). -/
def gatherPiece (k : KWord) (e cur n : Nat) (row : List (Nat × Nat)) : Piece :=
  let lam := kLam k
  let p := pieceAt row (n % lam)
  { elems := (List.range (p.2 / e)).map fun i => (lam * cur + p.1 + i * e, n / lam * lam + p.1 + i * e), size := e, next := n + p.2 }

/-- Reads the elements of a piece from the first on, until one cannot be read: what was read, and the fault. -/
def readPiece (m : Cmd) (l : Loc) (size : Nat) : List (Nat × Nat) → Op (List (Nat × Nat × Nat) × Option (BitVec 8))
  | [] => return ([], none)
  | x :: t => do
    awaitReds l x.1 size
    if (← get).readPoisoned none l x.1 size then return ([], some Cause.poison.code)
    let v := ofBytes (← raceBytes m l x.1 size)
    let (rest, f) ← readPiece m l size t
    return ((x.2, size, v) :: rest, f)

/-- The pages of the elements that a command is about to read post their events where they lie across CXL (R331); the page
that it read last has posted its own. -/
def missPiece (m : Cmd) (l : Loc) (elems : List (Nat × Nat)) : Op Unit := do
  match l with
  | .pad _ => pure ()
  | .heap asid _ => engMissPages m.ctx 2 asid (((elems.map fun x => pageOf l x.1).dedup).filter fun pg => decide (some pg ≠ m.seen))

/-- Reads a piece: its pages are translated first; a page that the host refuses stops the command before the elements on
it. With channel-grouped reads the pages of a tile are taken in the order of R339. -/
def fetchPiece (i : Nat) (p : Piece) : Op Unit := do
  let s ← get
  let m := s.core.copies.getD i {}
  let src := m.erefs.getD 0 (.pad 0)
  let o := Owner.copy s.site
  let mut ok : List (Nat × Nat) := []
  let mut fault : Option (BitVec 8) := none
  for x in (if p.whole && kGrouped m.word then s.grouped src (·.1) p.elems else p.elems) do
    if fault.isNone then
      match ← tryRun (engTranslate o src x.1 p.size false) with
      | .done => ok := ok ++ [x]
      | .parked => waitKeep
      | .stopped c => fault := some c
  let (got, f) ← readPiece m src p.size ok
  missPiece m src ok
  modCopy i fun m => { m with seen := (ok.getLast?.map fun x => pageOf src x.1).or m.seen }
  let stop := match f with | some c => some c | none => fault
  if stop.isSome && p.whole then modCopy i fun m => { m with stop := stop }
  else modCopy i fun m => { m with
    buf := if p.whole then p.writes.filterMap fun d => got.find? fun x => decide (x.1 = d) else got
    stop := stop, prog := p.next }

/-- The destination of a command. -/
def Cmd.dst (m : Cmd) : Loc := if kOp m.word = 0x14 then m.erefs.getD 0 (.pad 0) else m.erefs.getD 1 (.pad 0)

/-- Writes the elements at the front of the buffer, at most 64 bytes (R325, R331). -/
def drainBuf (i : Nat) : Op Unit := do
  let s ← get
  let m := s.core.copies.getD i {}
  let l := m.dst
  let n := match m.buf with | x :: _ => Nat.max 1 (64 / x.2.1) | [] => 0
  let front := m.buf.take n
  let o := Owner.copy s.site
  match ← tryRun (do for x in front do { engTranslate o l x.1 x.2.1 true; awaitReds l x.1 x.2.1 }) with
  | .parked => waitKeep
  | .stopped c => modCopy i fun m => { m with buf := [], stop := some c }
  | .done =>
    let canon := (← get).canonAt l
    modify fun s => front.foldl (fun (t : State) x => t.putObj l x.1 (leBytes x.2.2 x.2.1)) s
    let bytes := (front.map fun x => x.2.1).sum
    modCore fun c => { c with cpbytes := c.cpbytes + bytes }
    modCopy i fun m => { m with
      buf := m.buf.drop n, bytes := m.bytes + bytes
      dests := m.dests ++ front.map fun x => (canon, l, x.1, x.2.1) }

/-- A step of entry `e` of a core's copy engine, if its operation is the one asked for. -/
def copyStep (op core e : Nat) (fetch : Cmd → Op Unit) : Op Unit := do
  let m ← dueSome ((← get).coreAt core).copies[e]?
  due (decide (kOp m.word = op) && !(m.buf = [] && (m.stop.isSome || decide (m.total ≤ m.prog))))
  atSite core do
    match ← tryRun (if m.buf = [] then fetch m else drainBuf e) with
    | .stopped c => modCopy e fun m => { m with stop := some c }
    | _ => pure ()

/-- `COPY` (R333). -/
def execCopy (core e : Nat) (s : State) : Host.Outcome State Fault Refusal :=
  runEvent (copyStep 0x11 core e fun m => fetchPiece e (copyPiece m.word ((m.order[m.prog]?).getD m.prog) m.prog)) s

/-- `XPOSE` (R334). -/
def execXpose (core e : Nat) (s : State) : Host.Outcome State Fault Refusal :=
  runEvent (copyStep 0x12 core e fun m => fetchPiece e (xposePiece m.word m.inPlace m.prog)) s

/-- The order in which a `GATHER` with channel-grouped reads takes the pieces of row number x of its source (R339). -/
def State.rowOrder (s : State) (k : KWord) (src : Loc) (x : Nat) : List Nat :=
  if kGrouped k then s.grouped src (fun j => kLam k * x + 64 * j) (List.range (gatherRow (kLam k)).length) else []

/-- The index of the row that a `GATHER` begins: none when the row does not lie in the source (R335). -/
def gatherIndex (m : Cmd) (i : Nat) : Op (Option Nat) := do
  let s ← get
  let l := m.erefs.getD 2 (.pad 0)
  let off := 4 * (kCi m.word + i)
  engTranslate (.copy s.site) l off 4 false
  if (← get).readPoisoned none l off 4 then raise .poison 0
  if i = 0 || decide (pageOf l off ≠ pageOf l (off - 4)) then engMiss m.ctx 2 l off 4
  awaitReds l off 4
  let v := ofBytes (← raceBytes m l off 4)
  let x := if (s.hdr l).fmt = 5 then signExt 32 v else (v : Int)
  let lam := kLam m.word
  if x < 0 then return none
  else if lam * (x.toNat + 1) ≤ engineLen (s.hdr (m.erefs.getD 0 (.pad 0))) then return some x.toNat else return none

/-- `GATHER` (R335). -/
def execGather (core e : Nat) (s : State) : Host.Outcome State Fault Refusal :=
  runEvent (copyStep 0x13 core e fun m => do
    let i := m.prog / kLam m.word
    let src := m.erefs.getD 0 (.pad 0)
    if (m.cur.filter fun c => decide (c.1 = i)).isNone then
      match ← gatherIndex m i with
      | none => raise .bounds 0
      | some x =>
        let s ← get
        modCopy e fun m => { m with cur := some (i, x), order := s.rowOrder m.word src x }
    let m ← dueSome (← getCore).copies[e]?
    let row := gatherRow (kLam m.word)
    let x := (m.cur.map (·.2)).getD 0
    fetchPiece e (gatherPiece m.word (gatherSize ((← get).hdr src)) x m.prog
      (if m.order = [] then row else m.order.filterMap fun j => row[j]?))) s

/-- `FILL` (R336). -/
def execFill (core e : Nat) (s : State) : Host.Outcome State Fault Refusal :=
  runEvent (copyStep 0x14 core e fun m => do
    let k := m.word
    let g := Nat.min 64 (kFillLen k - m.prog)
    modCopy e fun m => { m with
      buf := (List.range (g / kE k)).map fun i => (kFillAt k + m.prog + i * kE k, kE k, kFillVal k % 2 ^ (8 * kE k))
      prog := m.prog + g }) s

/-- The virtual page number of page n of a `PAGEIN` or `MIGR`, with its ASID. -/
def Cmd.pageNo (m : Cmd) (n : Nat) : Nat × Nat :=
  match m.erefs.getD 0 (.pad 0) with
  | .heap asid va => (asid, (va + 32 + kPageAt m.word) / 4096 + n)
  | .pad _ => (0, 0)

/-- Counts a page of a command for its barrier. -/
def pageDone (e : Nat) : Op Unit := modCopy e fun m => { m with prog := m.prog + 1, bytes := m.bytes + 4096 }

/-- A channel takes nothing new: it is retired, or is being retired (R453). -/
def State.channelOff (s : State) (c : Nat) : Bool := s.flash.channels.contains c || s.fencing.contains (.channel c)

/-- Frames of the tier pool that hold no page and may take one. -/
def State.poolFree (s : State) : List Nat :=
  (((List.range Config.tierFrames).map fun i => Config.tierFrame i % hbmFrames).dedup).filter fun f =>
    !(s.tier.any fun t => decide (t.hbm = f)) && !s.channelOff (homeChannel (f * 4096))

/-- A frame's home channel lies in a channel group (R329). -/
def inGroup (grp frame : Nat) : Bool := decide (grp = 0) || decide (homeChannel (frame * 4096) / 32 + 1 = grp)

/-- A mapped page comes into the tier pool (R176, R337): into a free frame of the group, else into any free frame; where there
is none, the oldest page that no access in flight reads makes place. None while every page is being read. -/
def State.pageIn (s : State) (asid page grp : Nat) : Option State :=
  let room := if s.poolFree ≠ [] then some s
    else (s.tier.find? fun t => !s.inFlight t.asid t.page).map fun t => { s with tier := s.tier.erase t }
  match room, find (pageKey asid page) s.ptes with
  | some u, some e =>
    ((u.poolFree.find? (inGroup grp)).or u.poolFree.head?).map fun f =>
      { u with tier := u.tier ++ [{ asid := asid, page := page, frame := e.frame, hbm := f }] }
  | _, _ => none

/-- `PAGEIN` (R337). -/
def execPagein (core e : Nat) (s : State) : Host.Outcome State Fault Refusal :=
  runEvent (copyStep 0x15 core e fun m => do
    let (asid, page) := m.pageNo m.prog
    let s ← get
    if s.feature 2 && !s.hbmResident asid page then
      let _ ← translateFor (.copy s.site) asid (page * 4096) false 0
      if 0 < Config.tierFrames then
        match (← get).pageIn asid page (kGroup m.word) with
        | some t =>
          set t
          modCore fun c => { c with cppages := c.cppages + 1 }
        | none => waitHere
    pageDone e) s

/-- `MIGR` (R338): a page in flight to a reader waits; one for which the group has no free frame stays where it is. -/
def execMigr (core e : Nat) (s : State) : Host.Outcome State Fault Refusal :=
  runEvent (copyStep 0x16 core e fun m => do
    let (asid, page) := m.pageNo m.prog
    let s ← get
    match (if s.feature 2 then s.inTier asid page else none) with
    | none => pure ()
    | some t =>
      if m.word.getLsbD 13 then
        if s.inFlight asid page then waitHere
        modify fun s => { s with tier := s.tier.erase t }
      else if !inGroup (kGroup m.word) t.hbm then
        match s.poolFree.find? (inGroup (kGroup m.word)) with
        | none => pure ()
        | some f =>
          if s.inFlight asid page then waitHere
          modify fun s => { s with tier := s.tier.map fun x => if x = t then { x with hbm := f } else x }
    pageDone e) s

/-- COPY_COMMAND_COMPLETE (R340): a command that has done its work, or stopped on a fault with what it read written,
frees its entry, gives its counts back, credits its barrier if nothing went wrong, and posts its record; while the record
queue is full it is held back. -/
def copyCompleteBody (core e : Nat) : Op Unit := do
  let m ← dueSome ((← get).coreAt core).copies[e]?
  due (decide (m.buf = []) && (m.stop.isSome || decide (m.total ≤ m.prog)))
  let s ← get
  let status := m.stop.getD 0
  let s1 ← (if kRec m.word then dueSome (s.postRecord core m.ctx (m.record status) m.dests) else pure s)
  let s2 := m.erefs.foldl State.erefDown s1
  let s3 := match m.barrier with
    | some v => (if m.stop.isNone then s2.barCredit v m.bytes else s2).barPendingDown v
    | none => s2
  set s3
  modCoreAt core fun c =>
    let c1 := { c with copies := c.copies.eraseIdx e }
    if m.stop.isNone then { c1 with cpdone := c1.cpdone ++ [{ ctx := m.ctx, batch := 0, dests := m.dests }] }
    else { c1 with faults := c1.faults ++ [
      { ctx := m.ctx, record := m.record status, at_ := s.cycle.toNat, kind := 2, id := 0, num := m.num }] }
  modify State.dropOlds

def execCopyCommandComplete (core e : Nat) (s : State) : Host.Outcome State Fault Refusal :=
  runEvent (copyCompleteBody core e) s

end Sys2Proof.Machine
end

