-- ==== Sys2Proof/Machine/Messages.lean ====
section
/-! DEFINITION. Messages: the network interface: messages, puts, their delivery and refusal (R347 to R357). -/

namespace Sys2Proof.Machine

/-! CTXBUF objects (R351). -/

/-- The CTXBUF of a logical core of a record. -/
def Rec.ctxbuf (r : Rec) (lc : Nat) : Option Loc :=
  (find lc r.ctxbufs).map fun p => Loc.heap r.l.asid (ptrLoc p)

def State.bufHead (s : State) (l : Loc) : Nat := s.field l 0 4
def State.bufTail (s : State) (l : Loc) : Nat := s.field l 8 4
def State.bufCount (s : State) (l : Loc) : Nat := (s.bufTail l + 2 ^ 32 - s.bufHead l) % 2 ^ 32
def State.bufCap (s : State) (l : Loc) : Nat := ((s.hdr l).len - 64) / 64

/-- The message in slot i. -/
def State.bufMsg (s : State) (l : Loc) (i : Nat) : Msg :=
  let off := 64 + 64 * (i % s.bufCap l)
  let h := BitVec.ofNat 64 (s.field l off 8)
  { hdr := h, body := (List.range (bitsOf h 40 3)).map fun j => BitVec.ofNat 64 (s.field l (off + 8 + 8 * j) 8) }

/-- Adds a message at the tail. -/
def State.bufPush (s : State) (l : Loc) (m : Msg) : State :=
  let t := s.bufTail l
  let off := 64 + 64 * (t % s.bufCap l)
  let words := m.hdr :: m.body
  let s1 := s.putBody l off ((words.map fun w => leBytes w.toNat 8).flatten ++ List.replicate (64 - 8 * words.length) 0)
  s1.setFieldAt l 8 4 (t + 1)

/-- Puts a message before the oldest (R407). -/
def State.bufUnshift (s : State) (l : Loc) (m : Msg) : State :=
  let h := (s.bufHead l + 2 ^ 32 - 1) % 2 ^ 32
  let off := 64 + 64 * (h % s.bufCap l)
  let words := m.hdr :: m.body
  let s1 := s.putBody l off ((words.map fun w => leBytes w.toNat 8).flatten ++ List.replicate (64 - 8 * words.length) 0)
  s1.setFieldAt l 0 4 h

/-- Removes the oldest message. -/
def State.bufPop (s : State) (l : Loc) : State := s.setFieldAt l 0 4 (s.bufHead l + 1)

/-- Every page of a CTXBUF is mapped for the device. -/
def bufPages (l : Loc) : Op Unit := do
  match l with
  | .pad _ => pure ()
  | .heap asid va =>
    let _ ← translateFor .device asid va true 0
    let n := ((← get).hdr l).len
    for a in pageStarts (va + 32) n do
      let _ ← translateFor .device asid a true 0

/-- A record is resident on the site of one of its logical cores. -/
def State.residentAt (s : State) (rid lc : Nat) : Option Nat :=
  match (s.recAt rid).place[lc]? with
  | some x => if (s.coreAt x).recId = some rid && (s.recAt rid).st = .running then some x else none
  | none => none

/-! Sending (R348, R352, R356). -/

/-- The checks of a control word (R352): its length and tag. -/
def msgControl (c : Word) : Op (Nat × Nat) := do
  let n := bitsOf c 0 3
  require (decide (n ≠ 0) && decide (bitsOf c 3 13 = 0) && decide (bitsOf c 32 32 = 0)) .illegal c
  return (n, bitsOf c 16 16)

/-- The checks of a destination descriptor (R348): mode, destination context and destination. -/
def msgDescriptor (b : Word) (multi : Bool) : Op (Nat × Nat × Nat) := do
  let mode := bitsOf b 25 2
  let dctx := bitsOf b 13 4
  let dest := bitsOf b 0 13
  require (decide (bitsOf b 40 24 = 0) && decide (bitsOf b 17 8 = 0) && decide (mode ≠ 3) && decide (dctx ≤ 10)
    && (multi || decide (bitsOf b 27 13 = 0)) && (decide (mode ≠ 2) || (!multi && decide (dest < 4)))) .illegal b
  require (decide (mode = 0) || (← getCore).isPriv) .priv b
  return (mode, dctx, dest)

/-- The site next to a site in a direction, within its die's mesh. -/
def neighbour (site dir : Nat) : Option Nat :=
  if isChan site then none
  else
    let p := siteXY site
    let q : Option (Nat × Nat) :=
      if dir = 0 then (if p.2 = 0 then none else some (p.1, p.2 - 1))
      else if dir = 1 then (if p.1 = 31 then none else some (p.1 + 1, p.2))
      else if dir = 2 then (if p.2 = 31 then none else some (p.1, p.2 + 1))
      else (if p.1 = 0 then none else some (p.1 - 1, p.2))
    match q with
    | none => none
    | some q => ((List.range 1024).map (· + site / 1024 * 1024)).find? fun x => decide (siteXY x = q)

/-- A message to a place: its target record and destination, or the site it goes to (R349). For a channel core the sender's
record is its partner, through whose core table its destinations resolve (log entry 126). -/
def State.address (s : State) (mode dest : Nat) : Option Nat × Nat × Option Nat :=
  if mode = 0 then (s.tableRecId, dest, none)
  else
    let site := if mode = 1 then some dest else neighbour s.site dest
    match site with
    | none => (none, 0, none)
    | some x =>
      match s.tableRecId with
      | some rid =>
        let r := s.recAt rid
        if r.place.contains x then (some rid, lowestLcore (fun y => decide (y = x)) r.place 0, none) else (none, 0, some x)
      | none => (none, 0, some x)

/-- Puts a message for one destination on its way; the copies of a multicast beyond the first are made in the routers. -/
def State.postMsg (s : State) (mode dest dctx kind n utag : Nat) (body : List Word) (first : Bool) : State :=
  let x := s.ctx
  let (target, dst, site) := s.address mode dest
  let src := if mode = 0 then x.lcore.toNat else s.site
  s.send { s.flit with
    msg := { hdr := msgHeader src s.core.ctxNo dctx n kind (mode ≠ 0) utag x.ctxtag.toNat, body := body }
    target := target, dst := dst, site := site, sent := !first }

/-- `msend` and `mcast` (R352). A multicast in mode 1 skips the package core indices past 8,191, where no site lies, as it
skips the sites that are fused off (log entry 125). -/
def sendBody (a b c : BitVec 5) (multi : Bool) : Op Unit := do
  let v ← rdV a
  let desc ← rdS b
  let ctl ← rdS c
  let (n, utag) ← msgControl ctl
  let (mode, dctx, dest) ← msgDescriptor desc multi
  let last := if multi then dest + bitsOf desc 27 13 else dest
  let s ← get
  if mode = 0 then
    require (decide (last < (s.tableRec.map Rec.tableSize).getD 0)) .type desc
  sendRoom
  let body := (List.range n).map fun i => BitVec.ofNat 64 (elemOf v 64 i)
  let dests := ((List.range (last - dest + 1)).map (· + dest)).filter fun x =>
    !(multi && decide (mode = 1) && (s.fused.contains x || decide (8192 ≤ x)))
  modify fun s => (dests.zipIdx).foldl (fun (t : State) x =>
    t.postMsg mode x.1 dctx (if multi then 2 else 0) n utag body (decide (x.2 = 0))) s

/-- `msend` (R352). -/
def execMsend (a b c : BitVec 5) (s : State) : Host.Outcome State Fault Refusal :=
  runInstr (.msend a b c) (sendBody a b c false) s

/-- `mcast` (R352). -/
def execMcast (a b c : BitVec 5) (s : State) : Host.Outcome State Fault Refusal :=
  runInstr (.mcast a b c) (sendBody a b c true) s

/-- A header with another length. -/
def withLen (h : Word) (n : Nat) : Word := setBits h 40 3 n

/-- Unread words of the head message. -/
def Core.headWords (c : Core) : List Word :=
  match c.rx with
  | [] => []
  | m :: _ => m.body.drop c.rxpos

/-- `mrecv` (R353). -/
def execMrecv (d a : BitVec 5) (s : State) : Host.Outcome State Fault Refusal :=
  runInstr (.mrecv d a) (do
    let c ← getCore
    match c.rx with
    | [] =>
      if (← get).tx.nonBlocking 32 then wrS d 0 else waitHere
    | m :: _ =>
      let ws := c.headWords
      modTx fun t => { t with pops28 := t.pops28 + ws.length }
      wrV a (mkVec 64 fun i => (ws.getD i 0).toNat)
      wrS d (withLen m.hdr ws.length)) s

/-- `mpoll` (R355). -/
def execMpoll (d : BitVec 5) (sel : BitVec 1) (s : State) : Host.Outcome State Fault Refusal :=
  runInstr (.mpoll d sel) (do
    let s ← get
    let c := s.core
    if sel = 0 then
      wrS d (match c.rx with | [] => 0 | m :: _ => withLen m.hdr c.headWords.length)
    else
      let held := match s.ownRec.ctxbuf (c.ctxAt 0).lcore.toNat with
        | some l => s.bufCount l
        | none => 0
      wrNat d (c.rx.length + held)) s

/-- `xput` (R356). The trap shadow may name its staging object (R389). -/
def execXput (a : BitVec 5) (b : BitVec 4) (c : BitVec 5) (s : State) : Host.Outcome State Fault Refusal :=
  runInstr (.xput a b c) (do
    let v ← rdV a
    let r ← rdA b.toNat
    let ctl ← rdS c
    require (decide (1 ≤ ctl.toNat) && decide (ctl.toNat ≤ 64)) .illegal ctl
    let p := r.ptr
    if ptrLevel p = 7 then raise .nullptr p
    if ptrLevel p ≥ 4 then raise .type p
    let s ← get
    let own := decide (ptrLevel p = 3) && decide (ptrTag p = (s.core.ctxAt 0).lcore.toNat)
    let f : Flit := { s.flit with
      put := true, target := if own then s.core.recId else s.tableRecId, ptr := p, off := r.cur.toNat
      bytes := leBytes (v.toNat % 2 ^ 512) ctl.toNat }
    if ptrLevel p ≥ 1 then
      match s.putKey f with
      | none => raise .type p
      | some k =>
        require (decide (keyLevel k ≠ 3) || decide ((k - 2 ^ 60) % 2 ^ 18 < padTop) || (s.core.inTrap && reservedHeader s.site k)) .type p
    sendRoom
    modify fun s => s.send f) s

/-! Delivery (R349, R350, R357). -/

/-- No earlier message or put of the same context goes to the same core (R350, R357). -/
def State.headOfLine (s : State) (k : Nat) (f : Flit) : Bool :=
  (s.flitCore f).isNone || (s.net.take k).all fun g =>
    !(decide (g.srcRec = f.srcRec) && decide (g.srcLc = f.srcLc) && decide (g.srcCtx = f.srcCtx) && decide (s.flitCore g = s.flitCore f))

/-- The site at which the sender of a flit is now, if its record is resident there (R412). -/
def State.senderSite (s : State) (f : Flit) : Option Nat :=
  ((s.recAt f.srcRec).place[f.srcLc]?).filter fun x => decide ((s.coreAt x).recId = some f.srcRec)

/-- A flit is gone. -/
def dropFlit (k : Nat) : Op Unit := modify fun s => { s with net := s.net.eraseIdx k }

/-- Changes the context that sent a flit: where it runs, or in what is saved of its core. The trap shadow belongs to the core
that it runs on (R389). -/
def modSender (f : Flit) (g : Context → Context) : Op Unit := do
  let s ← get
  if f.srcCtx = 11 then modCtxAt f.srcSite 11 g
  else match s.senderSite f with
  | some x => modCtxAt x f.srcCtx g
  | none =>
    if let some img := find f.srcLc (s.recAt f.srcRec).images then
      let c := img.core.setCtx f.srcCtx (g (img.core.ctxAt f.srcCtx))
      modRec f.srcRec fun r => { r with images := store f.srcLc { img with core := c } r.images }

/-- A status bit of the fence status of a flit's sender (R197). -/
def fenceOf (f : Flit) (bit : Nat) : Op Unit := modSender f fun x => { x with fence := x.fence ||| (1#4 <<< bit) }

/-- A flit is discarded with a status bit for its sender. -/
def refuseFlit (k : Nat) (f : Flit) (bit : Nat) : Op Unit := do
  dropFlit k
  fenceOf f bit

/-- A message enters the receive queue of a site. -/
def enqueue (site : Nat) (m : Msg) : Op Unit := modCoreAt site fun c => { c with rx := c.rx ++ [m] }

/-- A flit is held back from now on. -/
def holdBack (k : Nat) (f : Flit) : Op Unit :=
  modify fun s => { s with net := s.net.set k { f with sent := true, since := some (f.since.getD s.cycle.toNat) } }

/-- A message to its target record: into the queue, or into the CTXBUF, of which 32 slots stay free while the record is
resident (R407), or held back, or refused (R349). A page of the CTXBUF that the host refuses is a permission refusal of the
message (R197), which overtakes nothing that the CTXBUF holds. -/
def deliverTo (k : Nat) (f : Flit) (rid : Nat) : Op Unit := do
  let s ← get
  let r := s.recAt rid
  if r.st = .ended || decide (r.place.length ≤ f.dst) then refuseFlit k f 1
  else
    let buf := r.ctxbuf f.dst
    let r1 ← (match buf with | some l => tryRun (bufPages l) | none => pure .done)
    let s ← get
    let waiting := match buf with | some l => s.bufCount l | none => 0
    match r1 with
    | .parked => pure ()
    | .stopped _ => refuseFlit k f 1
    | .done =>
      match (s.residentAt rid f.dst).filter fun x => decide ((s.coreAt x).rx.length < 32) && decide (waiting = 0) with
      | some x =>
        dropFlit k
        enqueue x f.msg
      | none =>
        match buf with
        | none => refuseFlit k f 1
        | some l =>
          if waiting + (if (s.residentAt rid f.dst).isSome then 32 else 1) ≤ s.bufCap l then
            dropFlit k
            modify fun s => s.bufPush l f.msg
          else holdBack k f

/-- A message to a site that holds no core of the sender's record (R349). -/
def deliverSite (k : Nat) (f : Flit) (site : Nat) : Op Unit := do
  let s ← get
  let c := s.coreAt site
  match c.recId with
  | some rid =>
    if s.fused.contains site || decide ((s.recAt rid).ctxtag ≠ bitsOf f.msg.hdr 0 16) || (s.recAt rid).st ≠ .running then
      refuseFlit k f 1
    else if c.rx.length < 32 then
      dropFlit k
      enqueue site f.msg
    else holdBack k f
  | none => refuseFlit k f 1

/-- MESSAGE_DELIVERY (R349, R350): message number k reaches its destination. -/
def messageDeliveryBody (k : Nat) : Op Unit := do
  let s ← get
  let f ← dueSome s.net[k]?
  due (!f.put && s.headOfLine k f)
  match f.target with
  | some rid => deliverTo k f rid
  | none =>
    match f.site with
    | some x => deliverSite k f x
    | none => refuseFlit k f 1

def execMessageDelivery (k : Nat) (s : State) : Host.Outcome State Fault Refusal := runEvent (messageDeliveryBody k) s

/-- MESSAGE_REFUSAL_TIMEOUT (R349): a message that has been held back for 4,096 cycles is discarded, and its CTXBUF counts
it. -/
def messageTimeoutBody (k : Nat) : Op Unit := do
  let s ← get
  let f ← dueSome s.net[k]?
  let t ← dueSome f.since
  due (decide (t + 4096 ≤ s.cycle.toNat))
  match f.target.bind fun rid => (s.recAt rid).ctxbuf f.dst with
  | some l => modify fun s => s.setFieldAt l 0x18 6 (s.field l 0x18 6 + 1)
  | none => pure ()
  refuseFlit k f 3

def execMessageRefusalTimeout (k : Nat) (s : State) : Host.Outcome State Fault Refusal := runEvent (messageTimeoutBody k) s

/-- The place of a put's destination, with the checks that the destination makes (R356). -/
def putTarget (f : Flit) : Op Loc := do
  let p := f.ptr
  let s ← get
  let l ← (if ptrLevel p = 0 then pure (Loc.heap f.asid (ptrLoc p))
    else
      let here := fun (k : Nat) =>
        (f.target.any fun rid => s.headerAt rid k) || (decide (f.srcCtx = 11) && reservedHeader f.srcSite k)
      match (s.putKey f).filter here with
      | some k => pure (Loc.pad k)
      | none => raise .type p : Op Loc)
  readHeaderFor .device p p l
  let s ← get
  let h := s.hdr l
  require (decide (f.off + f.bytes.length ≤ h.len)) .bounds 0
  require (decide (h.typ = tDATA)) .type p
  if s.secured f.asid l && !f.secure then raise .world p
  engTranslate .device l f.off f.bytes.length true
  let s ← get
  if h.poison || s.bodyPoisoned l f.off f.bytes.length then raise .poison p
  awaitReds l f.off f.bytes.length
  return l

/-- The tier-miss event of a put's first page that is not HBM-resident (R175, R356), on the line of the cluster in which its
sender runs, or ran before it was switched out. -/
def putMiss (f : Flit) (l : Loc) : Op Unit := do
  let s ← get
  match l, (s.recAt f.srcRec).place[f.srcLc]? with
  | .heap asid va, some x =>
    if let some a := (pageStarts (va + 32 + f.off) f.bytes.length).find? fun a => !s.hbmResident asid (a / 4096) then
      if (s.senderSite f).isSome then atSite x (postMissAt x f.srcCtx 6 (a / 4096))
      else if (s.recAt f.srcRec).st ≠ .ended then
        modSender f fun y => { y with misses := y.misses + 1 }
        postMissTo (if isChan x then none else some (f.srcRec, clusterOf x)) x f.srcLc 6 (a / 4096)
  | _, _ => pure ()

/-- A put is performed: the write, or what became of it. -/
def performPut (k : Nat) (f : Flit) : Op Unit := do
  let l ← putTarget f
  if let .heap asid va := l then
    if (← get).acrossDead asid (va + 32 + f.off) f.bytes.length then
      refuseFlit k f 0
      return
  putMiss f l
  dropFlit k
  modify fun s => s.putObj l f.off f.bytes

/-- PUT_PERFORMED (R356, R357): put number k writes its bytes, or is dropped whole. -/
def putPerformedBody (k : Nat) : Op Unit := do
  let s ← get
  let f ← dueSome s.net[k]?
  due (f.put && s.headOfLine k f)
  match ← tryRun (performPut k f) with
  | .done => pure ()
  | .parked => pure ()
  | .stopped c => refuseFlit k f (if c = Cause.poison.code then 2 else 1)

def execPutPerformed (k : Nat) (s : State) : Host.Outcome State Fault Refusal := runEvent (putPerformedBody k) s

/-! What the network interface does of itself. -/

/-- Message or put number k leaves its send buffer. -/
def State.departFlit (s : State) (k : Nat) : State := { s with net := s.net.modify k fun f => { f with sent := true } }

/-- The oldest message of a core's CTXBUF moves into its queue, when there is a slot (R349). -/
def refillBody (site : Nat) : Op Unit := do
  let s ← get
  let c := s.coreAt site
  let rid ← dueSome c.recId
  let l ← dueSome ((s.recAt rid).ctxbuf (c.ctxAt 0).lcore.toNat)
  due (decide (c.rx.length < 32))
  match ← tryRun (bufPages l) with
  | .done =>
    let s ← get
    due (decide (0 < s.bufCount l))
    enqueue site (s.bufMsg l (s.bufHead l))
    modify fun s => s.bufPop l
  | _ => pure ()

end Sys2Proof.Machine
end

