-- ==== Sys2Proof/Machine/Checkpoint.lean ====
section
/-! DEFINITION. Checkpoint: saving a core with its record's state and bringing it back (R405 to R412): the coded image,
`ckpt`, `rstor`, and the move of a record to other cores. -/

namespace Sys2Proof.Machine

/-! The coder (R409). -/

/-- The first n granules of 64 bytes, padded with zeros. -/
def granules : Nat → List Byte → List (List Byte)
  | 0, _ => []
  | n + 1, l => (l.take 64 ++ List.replicate (64 - (l.take 64).length) 0) :: granules n (l.drop 64)

def codeGranule (g : List Byte) : List Byte :=
  if g.all fun b => decide (b = 0) then [0]
  else if g = (List.replicate 16 (g.take 4)).flatten then 1 :: g.take 4
  else 2 :: g

def codeBytes (raw : List Byte) : List Byte := ((granules (ceilDiv raw.length 64) raw).map codeGranule).flatten

/-- Decodes n granules from the image offset `at_`: the raw bytes and what is left, or the offset of a token that is
never written or of a section that ends too soon. -/
def decodeBytes : Nat → Nat → List Byte → Except Nat (List Byte × List Byte)
  | 0, _, l => .ok ([], l)
  | _ + 1, at_, [] => .error at_
  | n + 1, at_, t :: l =>
    let go := fun (g : List Byte) (k : Nat) =>
      (decodeBytes n (at_ + 1 + k) (l.drop k)).map fun (r : List Byte × List Byte) => (g ++ r.1, r.2)
    if t = 0 then go (List.replicate 64 0) 0
    else if t = 1 then if l.length < 4 then .error at_ else go ((List.replicate 16 (l.take 4)).flatten) 4
    else if t = 2 then if l.length < 64 then .error at_ else go (l.take 64) 64
    else .error at_

/-! The image (R410). -/

/-- A section: kind, context and raw bytes. -/
structure ImgSec where
  kind : Nat
  ctx : Nat := 0
  raw : List Byte
  deriving DecidableEq, Repr

def ImgSec.bytes (x : ImgSec) : List Byte :=
  let coded := codeBytes x.raw
  leBytes x.kind 2 ++ leBytes x.ctx 2 ++ leBytes (ceilDiv x.raw.length 64 * 64) 4 ++ leBytes coded.length 4 ++ leBytes 0 4 ++ coded

/-- A map of units and then the dirty units of a pad that begins at a key, within n units (R410). -/
def State.unitSection (s : State) (kind base n mapBytes : Nat) : ImgSec :=
  let us := (takeRange (base / 1024) n s.units).map fun u => u - base / 1024
  { kind := kind
    raw := leBytes ((us.map fun u => 2 ^ u).sum) mapBytes ++ (us.map fun u => s.mem.bytes (base + 1024 * u) 1024).flatten }

/-- The map of the units of an area and then its dirty units (R410). -/
def State.areaSection (s : State) (kind : Nat) (a : Area) (mapBytes : Nat) : ImgSec :=
  s.unitSection kind a.base (a.size / 1024) mapBytes

/-- The lowest logical core of a record whose site satisfies p is this one. -/
def Rec.isLowest (r : Rec) (p : Nat → Bool) (lc : Nat) : Bool := decide (lowestLcore p r.place 0 = lc)

/-- The sections of a core of a record (R410). The bytes of CORE and CONTEXT sections stand in an order that the device
keeps to itself: they are free, one value a section from `n` on (log entries 1 and 14). -/
def State.sections (s : State) (r : Rec) (lc site n : Nat) : List ImgSec :=
  let c := s.coreAt site
  let live := (List.range 11).filter fun x => decide ((c.ctxAt x).st ≠ .free)
  [{ kind := 1, raw := leBytes (Config.freeNat n) 98304 }]
    ++ (live.zipIdx.map fun x => { kind := 2, ctx := x.1, raw := leBytes (Config.freeNat (n + 1 + x.2)) 2048 })
    ++ [s.unitSection 3 (corePadKey site) 224 64]
    ++ (if r.isLowest (fun x => clusterOf x = clusterOf site) lc
        then ((r.carea (clusterOf site)).map fun a => s.areaSection 4 a 512).toList else [])
    ++ (if r.isLowest (fun x => dieOf x = dieOf site) lc
        then ((r.darea (dieOf site)).map fun a => s.areaSection 5 a 24576).toList else [])

/-- The whole image (R410). -/
def imageBytes (lc ctag seed : Nat) (ss : List ImgSec) : List Byte :=
  let body := (ss.map ImgSec.bytes).flatten
  [0x43, 0x4B, 0x50, 0x31] ++ leBytes 1 2 ++ leBytes ss.length 2 ++ leBytes (64 + body.length) 8 ++ leBytes lc 2
    ++ leBytes ctag 2 ++ leBytes 0 4 ++ leBytes seed 8 ++ List.replicate 32 0 ++ body

/-- The sections of cluster-pad and die-pad areas, by kind. -/
def areaRaws (ss : List ImgSec) : List (Nat × List Byte) := (ss.filter fun x => decide (4 ≤ x.kind)).map fun x => (x.kind, x.raw)

/-- Reads a little-endian field. -/
def fieldAt (l : List Byte) (off n : Nat) : Nat := ofBytes ((l.drop off).take n)

/-- Bytes of the map of a pad section, and the units that it maps (R410). -/
def ImgSec.map (x : ImgSec) : Nat × Nat := if x.kind = 3 then (64, 224) else if x.kind = 4 then (512, 4096) else (24576, 196608)

/-- The raw length of a section is the one that R410 gives: for a pad that of its map and of the units which the map names. -/
def ImgSec.lenOk (x : ImgSec) : Bool :=
  if x.kind = 1 then decide (x.raw.length = 98304)
  else if x.kind = 2 then decide (x.raw.length = 2048)
  else
    let m := ofBytes (x.raw.take x.map.1)
    decide (m < 2 ^ x.map.2) && decide (x.raw.length = x.map.1 + 1024 * ((List.range x.map.2).filter m.testBit).length)

/-- A section may follow one of kind k and context c in the order of R410; k is 0 before the first. -/
def ImgSec.follows (x : ImgSec) (k c : Nat) : Bool :=
  if x.kind = 1 then k = 0 && x.ctx = 0
  else if x.kind = 2 then (k = 1 && x.ctx ≤ 10) || (k = 2 && c < x.ctx && x.ctx ≤ 10)
  else x.ctx = 0 && ((x.kind = 3 && (k = 1 || k = 2)) || (x.kind = 4 && k = 3) || (x.kind = 5 && (k = 3 || k = 4)))

/-- The sections of an image from an offset on, after one of kind k and context c: kind, context and raw bytes of each, or the
offset of what is wrong (R410, R411). -/
def readSections : Nat → Nat → Nat → Nat → List Byte → Except Nat (List ImgSec)
  | 0, at_, k, _, l => if l = [] && decide (3 ≤ k) then .ok [] else .error at_
  | n + 1, at_, k, c, l =>
    let raw := fieldAt l 4 4
    let coded := fieldAt l 8 4
    if l.length < 16 + coded || raw % 64 ≠ 0 || fieldAt l 12 4 ≠ 0 then .error at_
    else
      match decodeBytes (raw / 64) (at_ + 16) ((l.drop 16).take coded) with
      | .error e => .error e
      | .ok (bs, rest) =>
        let x : ImgSec := { kind := fieldAt l 0 2, ctx := fieldAt l 2 2, raw := bs }
        if rest ≠ [] then .error (at_ + 16 + coded - rest.length)
        else if !x.follows k c || !x.lenOk then .error at_
        else (readSections n (at_ + 16 + coded) x.kind x.ctx (l.drop (16 + coded))).map fun t => x :: t

/-! What the device keeps of a saved core beside the image. -/

/-- A running command stops: its jobs stand again among the jobs to do, with the rows they have finished (R294). -/
def Cmd.stopped (m : Cmd) : Cmd :=
  { m with jobs := [], todo := (m.jobs.map (·.1)).foldl (fun l j => insertKey j l) m.todo }

/-- The engines of a core stop, and what its streams have fetched ahead is discarded (R268). -/
def Core.engineStop (c : Core) : Core :=
  { c with wmb := c.wmb.map Cmd.stopped, streams := c.streams.map fun x => { x with buf := [] } }

/-- The registers of the trapped context as the frame holds them (R410). -/
def State.framed (s : State) (site : Nat) : Core :=
  let c := s.coreAt site
  let x := c.trapflags.toNat / 16
  let k := (List.range 27).foldl (fun (k : Context) i => k.setS (i + 1) (s.mem.word (frameKey site + 8 * (i + 1)))) (c.ctxAt x)
  c.setCtx x k

/-- An interrupt by which the scheduler or Cornice moves a core: a core that leaves has answered it. -/
def movesCore (r : BitVec 8 × Word) : Bool :=
  decide (r.1 = Cause.cornice.code) || (decide (r.1 = Cause.interrupt.code) && decide (r.2.toNat % 256 ≤ 2))

/-- A core that is saved. -/
def State.saveImage (s : State) (site : Nat) (c : Core) (direct : Bool) : Image :=
  let base := corePadKey site
  { core := { c.engineStop with raised := c.raised.filter fun r => !movesCore r }
    mem := (s.mem.filter fun x => within base padTop x.1).map fun x => (x.1 - base, x.2)
    dirty := (takeRange base padTop s.dirty).map fun k => k - base
    poison := (takeRange (base / 32) (padTop / 32) s.poison).map fun k => k - base / 32
    units := (takeRange (base / 1024) 224 s.units).map fun k => k - base / 1024
    direct := direct }

/-- A core pad with nothing in it. -/
def State.clearPad (s : State) (key n : Nat) : State :=
  { s with
    mem := s.mem.clear key n, dirty := dropRange key n s.dirty
    poison := dropRange (key / 32) (n / 32) s.poison, units := dropRange (key / 1024) (n / 1024) s.units }

/-- A core without a record: what belongs to the core itself stays (R88, R389). -/
def Core.bare (c : Core) : Core :=
  { ctxs := (Vector.replicate 13 {}).setIfInBounds 11 (c.ctxAt 11), dbgctl := c.dbgctl, watch := c.watch
    timercmp := c.timercmp, secure := c.secure, lock := c.lock, trapcause := c.trapcause, trapval := c.trapval
    trappc := c.trappc, trapflags := c.trapflags }

/-- The areas of a record, as keys and sizes. -/
def Rec.areaKeys (r : Rec) : List (Nat × Nat) := (r.careas ++ r.dareas).map fun a => (a.2.base, a.2.size)

/-- Adds the core-cycles of a running record since they were last counted to what its ASID has been served (R427). -/
def State.countServed (s : State) (rid : Nat) : State :=
  let r := s.recAt rid
  if r.st = .running then
    let x : AsidSt := lookup {} r.l.asid s.asids
    let n := r.place.length * (s.cycle.toNat - r.ranFrom)
    { s.setRec rid { r with ranFrom := s.cycle.toNat } with asids := store r.l.asid { x with served := x.served + n } s.asids }
  else s

/-- The areas' bytes leave the pads once the whole record is switched out. -/
def State.saveAreas (s : State) (rid : Nat) : State :=
  let s := s.countServed rid
  let r := s.recAt rid
  let inArea := fun (k : Nat) => r.areaKeys.any fun a => within a.1 a.2 k
  let img : Image := {
    core := {}, mem := s.mem.filter fun x => inArea x.1, dirty := s.dirty.filter inArea
    poison := s.poison.filter fun k => inArea (k * 32), units := s.units.filter fun k => inArea (k * 1024) }
  let s1 := r.areaKeys.foldl (fun (t : State) a => t.clearPad a.1 a.2) s
  s1.setRec rid { s1.recAt rid with areaSave := img, st := .switched, switchAsked := none }

/-- A core leaves its record, which ceases to be resident there (R408). -/
def State.leave (s : State) (site rid lc : Nat) (img : Image) : State :=
  let s1 := s.setCore site (s.coreAt site).bare
  let s2 := s1.clearPad (corePadKey site) padTop
  let s3 := { s2 with
    copyins := s2.copyins.filter fun x => decide (x.site ≠ site)
    pageReqs := s2.pageReqs.filter fun q => match q.owner with
      | .ctx n _ => decide (n ≠ site)
      | .wmb n _ => decide (n ≠ site)
      | .copy n => decide (n ≠ site)
      | .device => true }
  let r := s3.recAt rid
  s3.setRec rid { r with images := store lc img r.images, vacated := insertKey lc r.vacated }

/-- A core is vacated; with the last one that runs, the cores that have halted go too, and the record is switched out. -/
def State.vacate (s : State) (site rid lc : Nat) (img : Image) : State :=
  let s1 := s.leave site rid lc img
  let r := s1.recAt rid
  if (List.range r.place.length).all fun n => r.vacated.contains n || r.ended.contains n then
    (((List.range r.place.length).filter fun n => !r.vacated.contains n).foldl (fun (t : State) n =>
      let x := r.place.getD n 0
      t.leave x rid n (t.saveImage x (t.coreAt x) true)) s1).saveAreas rid
  else s1

/-- An access of a core is still on its way, or a reduction or copy to one of its record's pads (R405): the core is not
vacated before it is performed. -/
def State.padBusy (s : State) (site rid : Nat) : Bool :=
  let here := fun (l : Loc) => match l with
    | .pad k => within (corePadKey site) (2 ^ 18) k || (s.recAt rid).areaKeys.any fun a => within a.1 a.2 k
    | .heap .. => false
  (s.reds.any fun r => here r.v || r.terms.any fun t => decide (t.sender.map (·.1) = some site))
    || (s.posts.any fun p => decide (p.site = site) || here p.dst) || !(s.coreAt site).hwrs.isEmpty

/-! `ckpt` (R408). -/

/-- Runs an effect whose trap becomes a failure code. -/
def attempt (code : Nat) (f : Op Unit) : Op (Option Nat) := fun s =>
  match f s with
  | .ok _ t => .ok none t
  | .error (.trap _ _) t => .ok (some code) t
  | .error e t => .error e t

/-- Result word of a failure. -/
def failWord (code at_ : Nat) : Nat := 2 ^ 63 + at_ % 2 ^ 40 * 256 + code

/-- The save object of the executing core (R423): the place of `SAVE`, the offset of its share and its size. -/
def State.saveObject (s : State) : Option (Loc × Nat × Nat) :=
  let r := s.ownRec
  match r.queue with
  | none => none
  | some q =>
    let x : Queue := lookup {} q s.queues
    if x.saveSz = 0 || ptrLevel x.save ≠ 0 then none
    else some (.heap r.l.asid (ptrLoc x.save), (s.core.ctxAt 0).lcore.toNat * x.saveSz, x.saveSz)

/-- Every page of a range of a heap object is translated for writing, or reading. -/
def savePages (l : Loc) (off n : Nat) (write : Bool) : Op Unit := do
  match l with
  | .pad _ => pure ()
  | .heap asid va =>
    let _ ← translate asid va false 0
    translateRange asid (va + 32 + off) n write 0

/-- The receive queue goes to the front of the CTXBUF (R407). Without a CTXBUF it stays with what is saved of the core. -/
def State.spill (s : State) (site rid lc : Nat) : State :=
  match (s.recAt rid).ctxbuf lc with
  | none => s
  | some l =>
    let c := s.coreAt site
    let s1 := c.rx.reverse.foldl (fun (t : State) m => t.bufUnshift l m) s
    s1.setCore site { c with rx := [] }

/-- `ckpt` (R408). -/
def execCkpt (d a : BitVec 5) (s : State) : Host.Outcome State Fault Refusal :=
  runInstr (.ckpt d a) (do
    let c ← getCore
    if c.inMiss then illegal 0
    require c.inTrap .priv 0
    let mode ← rdS a
    require (decide (mode.toNat < 2)) .illegal mode
    let s ← get
    let lc := (c.ctxAt 0).lcore.toNat
    match c.recId, s.saveObject with
    | some rid, some (l, off, size) =>
      let vacate := mode.getLsbD 0
      if s.padBusy s.site rid then waitHere
      let r := s.recAt rid
      let ss := s.sections r lc s.site s.free
      let bs := imageBytes lc (c.ctxAt 0).ctxtag.toNat r.l.seed.toNat ss
      let raw := (ss.map fun x => x.raw.length).sum
      let fail ← (if bs.length > size then pure (some 2) else attempt 3 (savePages l off bs.length true))
      let spillFail ← (match r.ctxbuf lc, vacate with
        | some b, true => attempt 3 (bufPages b)
        | _, _ => pure none)
      let s ← get
      match fail, spillFail with
      | some code, _ => wrNat d (failWord code 0)
      | none, some code => wrNat d (failWord code 0)
      | none, none =>
        let asid := s.asid
        let va := match l with | .heap _ v => v | .pad k => k
        if off + size > (s.hdr l).len then wrNat d (failWord 2 0)
        else if (s.hdr l).poison || s.bodyPoisoned l off bs.length then wrNat d (failWord 4 0)
        else if s.acrossDead asid (va + 32 + off) bs.length then wrNat d (failWord 5 0)
        else
          let s1 := { s with free := s.free + ss.length }.putBody l off bs
          let h := s1.hdr l
          let s2 := s1.setHdr l { h with w1 := BitVec.ofNat 64 ((h.version + 1) % 2 ^ 32 + 4 * 2 ^ 32) }
          let s3 := s2.setRec rid { s2.recAt rid with lastCkpt := some (raw, bs.length) }
          if vacate then
            let s4 := s3.spill s3.site rid lc
            let img := { s4.saveImage s4.site (s4.framed s4.site) false with areas := areaRaws ss }
            set ((s4.vacate s4.site rid lc img))
            throw .gone
          else
            let img := { s3.saveImage s3.site (s3.framed s3.site) false with areas := areaRaws ss }
            let s4 := s3.setCore s3.site s3.core.engineStop
            set (s4.setRec rid { s4.recAt rid with images := store lc { img with core := { img.core with rx := [] } } (s4.recAt rid).images })
            wrNat d bs.length
    | _, _ => wrNat d (failWord 1 0)) s

/-! Moving a record to other cores (R412). -/

/-- A whole pad that takes the place of another. -/
def padMove (old size new : Nat) : Moved := { old := old, foot := size, dst := .pad new, key := new }

/-- Where the pads of a record's places go when logical core n moves from site `old[n]` to `new[n]`. A channel-core record has
core pads alone (R155). -/
def placeMoves (r : Rec) (new : List Nat) : List Moved :=
  let pairs := r.place.zip new
  (pairs.map fun p => padMove (corePadKey p.1) (2 ^ 18) (corePadKey p.2)) ++ if r.chan then [] else
    (pairs.map fun p => padMove (clusterPadKey (clusterOf p.1)) (2 ^ 22) (clusterPadKey (clusterOf p.2)))
    ++ (pairs.map fun p => padMove (diePadKey (dieOf p.1)) (2 ^ 28) (diePadKey (dieOf p.2)))

/-- A number of a cluster or die after the move. -/
def placeNum (f : Nat → Nat) (r : Rec) (new : List Nat) (n : Nat) : Nat :=
  match (r.place.zip new).find? fun p => decide (f p.1 = n) with
  | some p => f p.2
  | none => n

def relocMem (mv : List Moved) (m : Mem) : Mem := m.foldl (fun acc c => acc.set (shiftKey mv c.1) c.2) []

/-- Keys after the move, rising; of units of n bytes under their numbers. -/
def relocKeys (mv : List Moved) (n : Nat) (l : List Nat) : List Nat :=
  l.foldl (fun acc k => insertKey (shiftKey mv (k * n) / n) acc) []

def relocArea (mv : List Moved) (a : Area) : Area :=
  { a with
    base := shiftKey mv a.base, hdrs := relocKeys mv 1 a.hdrs, dir := a.dir.map fun e => (e.1, shiftKey mv e.2)
    rem := a.rem.map (shiftKey mv) }

/-- The acquired set's places after the move. -/
def relocAcq (r : Rec) (new : List Nat) (e : AcqEntry) : AcqEntry :=
  { e with place := if e.level = 2 then placeNum clusterOf r new e.place else if e.level = 1 then placeNum dieOf r new e.place else e.place }

def relocCore (r : Rec) (new : List Nat) (c : Core) : Core :=
  let mv := placeMoves r new
  let c := shiftCore mv c
  { c with
    pad := relocArea mv c.pad
    ctxs := c.ctxs.map fun x => { x with acquired := x.acquired.map (relocAcq r new) } }

/-- The record's areas, event sets and saved bytes after the move. -/
def relocRecord (r : Rec) (new : List Nat) : Rec :=
  let mv := placeMoves r new
  { r with
    place := new
    careas := r.careas.map fun a => (placeNum clusterOf r new a.1, relocArea mv a.2)
    dareas := r.dareas.map fun a => (placeNum dieOf r new a.1, relocArea mv a.2)
    evsets := r.evsets.map fun e => (placeNum clusterOf r new e.1, e.2)
    stackObjs := r.stackObjs.map (shiftKey mv)
    images := r.images.map fun i => (i.1, { i.2 with core := relocCore r new i.2.core })
    areaSave := { r.areaSave with
      mem := relocMem mv r.areaSave.mem, dirty := relocKeys mv 1 r.areaSave.dirty
      poison := relocKeys mv 32 r.areaSave.poison, units := relocKeys mv 1024 r.areaSave.units } }

/-- The logical cores keep their companions (R412): the same cluster and die partners as before, each at its position in
its cluster, and so the same Tufts; a channel core belongs to no cluster (R168). -/
def keepsCompanions (old new : List Nat) : Bool :=
  let ps := old.zip new
  (ps.all fun p => isChan p.1 || decide (positionOf p.1 = positionOf p.2)) && ps.all fun p => ps.all fun q =>
    (decide (clusterOf p.1 = clusterOf q.1) == decide (clusterOf p.2 = clusterOf q.2))
      && (decide (dieOf p.1 = dieOf q.1) == decide (dieOf p.2 = dieOf q.2))

/-- The areas' bytes come back into the pads when the record takes its cores again. -/
def State.restoreAreas (s : State) (rid : Nat) : State :=
  let r := s.recAt rid
  let img := r.areaSave
  let s1 := { s with
    mem := img.mem.foldl (fun (m : Mem) (c : Nat × Byte) => m.set c.1 c.2) s.mem
    dirty := img.dirty.foldl (fun l k => insertKey k l) s.dirty
    poison := img.poison.foldl (fun l k => insertKey k l) s.poison
    units := img.units.foldl (fun l k => insertKey k l) s.units }
  s1.setRec rid { r with areaSave := { core := {} }, st := .running, ranFrom := s.cycle.toNat }

/-- A stopped command that comes back with its core: what was overwritten before it reads again is not read (R294, R341). -/
def Cmd.resumed (n : Nat) (m : Cmd) : Cmd := { m with since := n, parked := false }

/-- A saved core comes back on a site (R411): `pad` are the bytes of its allocatable core pad. The shadow's own
registers, and what belongs to the site, stay; what has been raised at the site meanwhile stays raised, the fence status bits
set meanwhile stay set (R197), and the messages received and the tier misses counted meanwhile are added to those that were
saved. -/
def State.restoreCore (s : State) (site rid lc : Nat) (img : Image) (pad : Mem) : State :=
  let c := s.coreAt site
  let base := corePadKey site
  let s1 := s.clearPad base padTop
  let s2 := { s1 with
    mem := pad.foldl (fun (m : Mem) (x : Nat × Byte) => m.set (base + x.1) x.2) s1.mem
    dirty := img.dirty.foldl (fun l k => insertKey (base + k) l) s1.dirty
    poison := img.poison.foldl (fun l k => insertKey (base / 32 + k) l) s1.poison
    units := img.units.foldl (fun l k => insertKey (base / 1024 + k) l) s1.units }
  let g := img.core
  let g0 := (List.range 11).foldl (fun (k : Core) n => k.setCtx n { k.ctxAt n with
    fence := (k.ctxAt n).fence ||| (c.ctxAt n).fence, misses := (k.ctxAt n).misses + (c.ctxAt n).misses }) g
  let g1 := { g0 with
    ctxs := g0.ctxs.setIfInBounds 11 (c.ctxAt 11), dbgctl := c.dbgctl, watch := c.watch, timercmp := c.timercmp
    secure := c.secure, lock := c.lock, ie := c.ie, kvtb := Vector.replicate 64 {}, kvnext := 0, miss := none
    wmb := g.wmb.map (Cmd.resumed s.olds.length), copies := g.copies.map (Cmd.resumed s.olds.length)
    trapcause := c.trapcause, trapval := c.trapval, tshadow := c.tshadow, act := c.act, recId := some rid, halted := g.halted, rx := g.rx ++ c.rx
    raised := g.raised ++ c.raised }
  let x := g1.trapflags.toNat / 16
  let s3 := { s2 with mem := s2.mem.setBytes (frameKey site) (g1.ctxAt x).frameBytes }
  let r := s3.recAt rid
  (s3.setCore site g1).setRec rid { r with vacated := r.vacated.filter fun n => n ≠ lc }

/-- The pad or area that a section describes, from its first byte on; units absent from its map are zero (R411). -/
def ImgSec.pad (x : ImgSec) : Mem :=
  let m := ofBytes (x.raw.take x.map.1)
  ((List.range x.map.2).filter m.testBit).zipIdx.foldl (fun (mem : Mem) u =>
    mem.setBytes (1024 * u.1) ((x.raw.drop (x.map.1 + 1024 * u.2)).take 1024)) []

/-- The section of a kind, empty when there is none. -/
def sectionOf (ss : List ImgSec) (kind : Nat) : ImgSec := (ss.find? fun x => decide (x.kind = kind)).getD { kind := kind, raw := [] }

/-- The section of an area takes effect (R411): where the image no longer holds what `ckpt` wrote, the area takes the image's
bytes; else it stands as the record left it, which is what the image holds and what the record's other cores wrote before they
were vacated (R405; log entry 65). -/
def State.restoreArea (s : State) (img : Image) (ss : List ImgSec) (kind : Nat) (a : Option Area) : State :=
  match a, ss.find? fun x => decide (x.kind = kind) with
  | some a, some x =>
    if find kind img.areas = some x.raw then s
    else { s with mem := x.pad.foldl (fun (m : Mem) (b : Nat × Byte) => if b.1 < a.size then m.set (a.base + b.1) b.2 else m)
                    (s.mem.clear a.base a.size) }
  | _, _ => s

/-- A saved core comes back from the sections of its image (R411). -/
def State.restoreImage (s : State) (site rid lc : Nat) (img : Image) (ss : List ImgSec) : State :=
  let r := s.recAt rid
  ((s.restoreCore site rid lc img (sectionOf ss 3).pad).restoreArea img ss 4 (r.carea (clusterOf site))).restoreArea img ss 5
    (r.darea (dieOf site))

/-- What `rstor` finds in an image (R411): a failure word, or its sections. -/
def readImage (bs : List Byte) (lc seed : Nat) : Except Nat (List ImgSec) :=
  let total := fieldAt bs 8 8
  if bs.take 4 ≠ [0x43, 0x4B, 0x50, 0x31] then .error (failWord 2 0)
  else if fieldAt bs 4 2 ≠ 1 then .error (failWord 2 4)
  else if total < 64 || bs.length < total then .error (failWord 2 8)
  else if fieldAt bs 0x10 2 ≥ 8192 then .error (failWord 2 0x10)
  else if fieldAt bs 0x14 4 ≠ 0 then .error (failWord 2 0x14)
  else if fieldAt bs 0x20 32 ≠ 0 then .error (failWord 2 0x20)
  else
    match readSections (fieldAt bs 6 2) 64 0 0 ((bs.take total).drop 64) with
    | .error e => .error (failWord 2 e)
    | .ok ss => if fieldAt bs 0x10 2 ≠ lc || fieldAt bs 0x18 8 ≠ seed then .error (failWord 3 0) else .ok ss

/-- The bytes of an image that a share of n bytes of a save object holds, its header before them (R410). -/
def imageSpan (header : List Byte) (n : Nat) : Nat := Nat.min n (Nat.max 64 (fieldAt header 8 8))

/-- `rstor` (R411). -/
def execRstor (d : BitVec 5) (s : State) : Host.Outcome State Fault Refusal :=
  runInstr (.rstor d) (do
    let c ← getCore
    if c.inMiss then illegal 0
    require c.inTrap .priv 0
    let s ← get
    let lc := (c.ctxAt 0).lcore.toNat
    match c.recId, s.saveObject with
    | some rid, some (l, off, size) =>
      match find lc (s.recAt rid).images with
      | none => wrNat d (failWord 1 0)
      | some img =>
        let head ← attempt 4 (savePages l off (Nat.min 64 size) false)
        let s ← get
        let n := imageSpan (s.bodyBytes l off (Nat.min 64 size)) size
        let rest ← (match head with
          | some code => pure (some code)
          | none => attempt 4 (savePages l off n false))
        match rest with
        | some code => wrNat d (failWord code 0)
        | none =>
          let s ← get
          if (s.hdr l).poison || s.bodyPoisoned l off n then wrNat d (failWord 4 0)
          else
            match readImage (s.bodyBytes l off n) lc (s.recAt rid).l.seed.toNat with
            | .error w => wrNat d w
            | .ok ss =>
              set (s.restoreImage s.site rid lc img ss)
              wrNat d 0
    | _, _ => wrNat d (failWord 1 0)) s

/-- A site on which a record can start: no record is resident on it, and none that runs has it among its places and is still to
come back there (R412). -/
def State.freeSite (s : State) (x : Nat) : Bool :=
  (s.coreAt x).recId.isNone && (s.recs.all fun e => decide (e.2.st ≠ .running) || !e.2.place.contains x) && !s.fencing.contains (if isChan x then .channel (x - chanBase) else .cluster (clusterOf x))

/-- The sites that other records' reservations hold. -/
def State.reservedFrom (s : State) (rid : Nat) : List Nat :=
  (s.resvs.map fun e => if e.2.rid = rid then [] else e.2.sites).flatten

/-- A record of a VF may be loaded in a partition: the outgoing tenant's records have left (R428). -/
def State.mayLoad (s : State) (part vf : Nat) : Bool :=
  s.recs.all fun e => e.2.part ≠ part || e.2.l.vf = vf || e.2.switchAsked.isNone || decide (e.2.st ≠ .running)

/-- A place for a switched-out record that puts logical core `lc` on a site: every core as far along the package index
as before, enabled, free, with the companions of before and the areas free in the new pads (R412). -/
def State.resumePlace (s : State) (rid site lc : Nat) : Option (List Nat) :=
  let r := s.recAt rid
  match r.place[lc]? with
  | none => none
  | some old =>
    let new := r.place.map fun x => x + site - old
    let fits := fun (n : Nat) (a : Nat × Area) (f : Nat → Nat) (g : Rec → List (Nat × Area)) (key : Nat → Nat) =>
      s.recs.all fun e => e.1 = rid || decide (e.2.st ≠ .running) || (g e.2).all fun b =>
        b.1 ≠ placeNum f r new n || decide (b.2.base + b.2.size ≤ a.2.base - key n + key (placeNum f r new n))
          || decide (a.2.base - key n + key (placeNum f r new n) + a.2.size ≤ b.2.base)
    if r.place.all (fun x => decide (old ≤ x + site)) && new.all (fun x => decide (isChan x = r.chan) && decide (x < siteCount)
        && !s.fused.contains x && s.freeSite x && !(s.reservedFrom rid).contains x)
      && keepsCompanions r.place new
      && r.careas.all (fun a => fits a.1 a clusterOf (·.careas) clusterPadKey)
      && r.dareas.all (fun a => fits a.1 a dieOf (·.dareas) diePadKey) then some new else none

/-- A deadline that has not come stops whatever a VF does in a partition (R26, R433; log entry 129). -/
def State.barred (s : State) (vf part : Nat) : Bool :=
  s.bars.any fun x => decide (x.target = if x.isVf then vf else part) && decide (s.cycle.toNat < x.at_)

/-- Nothing keeps a switched-out record from coming back in a slice of its VF: its queue is enabled (R434), and no deadline of
its VF or partition is to come. -/
def State.canReturn (s : State) (r : Rec) : Bool :=
  (r.queue.all fun q => (lookup {} q s.queues : Queue).enabled) && !s.barred r.l.vf r.part

/-- The scheduler may bring a record back: the slice is its VF's (R427), and the outgoing tenant has left. -/
def State.mayResume (s : State) (r : Rec) : Bool :=
  s.canReturn r && (r.queue.isNone || (match find r.part s.slices with | some x => decide (x.vf = r.l.vf) | none => true))
    && s.mayLoad r.part r.l.vf && r.switchAsked.isNone

/-- INTERRUPT_RESUME (R394, R411, R412): the scheduler gives a switched-out record its cores, and starts the core of one
logical core. A record that the hardware switched at a boundary comes back without a trap. -/
def resumeBody (core rid lc : Nat) : Op Unit := do
  let s ← get
  let r := s.recAt rid
  due (s.mayResume r)
  if r.st = .switched then
    match s.resumePlace rid core lc with
    | none => stutter
    | some new => modify fun s => (s.setRec rid (relocRecord (s.recAt rid) new)).restoreAreas rid
  let s ← get
  let r := s.recAt rid
  due (decide (r.st = .running) && r.vacated.contains lc && decide (r.place[lc]? = some core) && (s.coreAt core).recId.isNone)
  let img ← dueSome (find lc r.images)
  if img.direct then
    set (s.restoreCore core rid lc img img.mem)
  else
    let c := s.coreAt core
    let start := { (c.ctxAt 0) with lcore := BitVec.ofNat 13 lc, st := .free }
    let s1 := s.setCore core { c.setCtx 0 start with recId := some rid, halted := false }
    set (s1.enterTrap core 0 Cause.interrupt.code 2 0 true false)

def execInterruptResume (core r lc : Nat) (s : State) : Host.Outcome State Fault Refusal := runEvent (resumeBody core r lc) s

end Sys2Proof.Machine
end

