-- ==== Sys2Proof/Machine/Kv.lean ====
section
/-! DEFINITION. Kv: the key-value instructions and the miss shadow (R362 to R387). -/

namespace Sys2Proof.Machine

/-- Runs a KV instruction: without the KVPOOL feature the encoding is not one (R422), and the miss shadow allows three
(R366). -/
def kvGuard (inShadow : Bool) : Op Unit := do
  if !(← get).feature 3 then illegalWord
  if !inShadow && (← getCore).inMiss then illegal 0

/-- `KvTable()` (R369): the table's address and its CAP. -/
def kvTable (write : Bool) : Op (Nat × Nat) := do
  let t := (← getCtx).kvtbase
  if ptrLevel t = 7 then raise .nullptr t
  if ptrLevel t ≠ 0 then raise .type t
  let asid := (← get).asid
  let va := ptrLoc t
  let l ← locate t
  worldCheck t l
  let h := (← get).hdr l
  match kvCap h.len with
  | none => raise .type t
  | some cap =>
    require (h.typ = tKVTABLE && h.fmt = 0) .type t
    translateRange asid va (32 + h.len) write t
    modify fun s => s.knowTable asid va
    if let some k := (← get).kvTabs.find? fun k => decide (k.asid = asid) && decide (k.va = va) then
      modify fun s => s.settleTable k
    return (va, cap)

/-- The executing context as a window owner: logical core and `status.CTX`. -/
def kvMe : Op (Nat × Nat) := do
  let s ← get
  return (s.ctx.lcore.toNat, s.core.ctxNo)

/-- The VF of the executing record. -/
def kvVf : Op Nat := return (← ownRec).l.vf

/-- A page belongs to a VF or is published to it (R368). -/
def State.pageOurs (s : State) (l : Loc) (vf : Nat) : Bool :=
  s.pageVf l = vf % 256 || (s.pagePub l && s.pageXvf l)

/-- The check of a page pointer (R368): its place; TYPE with the pointer on failure. -/
def kvPageCheck (q : Word) (rowq : Nat) : Op Loc := do
  let s ← get
  let vf ← kvVf
  if ptrLevel q = 4 then
    let l := Loc.pad (kvFrameKey (frameOf q))
    if poolPtr q && s.kvFrames.contains (frameOf q) && s.pageOurs l vf then return l else raise .type q
  else if ptrLevel q = 0 then
    if ptrLoc q % 32 ≠ 0 then raise .type q
    let l := Loc.heap s.asid (ptrLoc q)
    let _ ← translate s.asid (ptrLoc q) false q
    let h := (← get).hdr l
    let sec := h.secure || (← get).securePage ((← get).hdrKey l)
    require (heapHeaderOk q h && h.typ = tKVPAGE && h.len = pageLen rowq && (!sec || s.core.secure)) .type q
    translateRange s.asid (ptrLoc q) 96 false q
    if (← get).pageOurs l vf then return l else raise .type q
  else raise .type q

/-- `kvfill`'s effect (R368) on page entry i and pointer bits q: the number of the entry. -/
def kvInstall (va cap i : Nat) (q : Word) : Op Nat := do
  require (decide (i < cap)) .bounds (BitVec.ofNat 64 i)
  let s ← get
  let t := Loc.heap s.asid va
  let me ← kvMe
  let own := s.kvOwns t me
  let seen := s.kvEnd t own - 16 * i
  let stop := s.kvStopped t
  let l := if stop then 0 else Nat.min seen 16
  if 0 < l && ptrLevel q ≠ 7 then
    let _ ← kvPageCheck q (s.kvRowq t)
  let covers := own && decide (16 * i + 16 > s.kvNtok t)
  let e : KvtbEntry := {
    valid := true, table := BitVec.ofNat 48 (va / 32), page := BitVec.ofNat 21 i, own := covers
    octx := BitVec.ofNat 4 me.2, stop := stop, limit := BitVec.ofNat 5 l, rowq := BitVec.ofNat 6 (s.kvRowq t)
    ptr := if l = 0 then nullPtr else q }
  let c ← getCore
  let same := fun (x : KvtbEntry) => x.valid && x.table = e.table && x.page = e.page && x.own = covers
  match (List.range 64).find? fun n => same (c.kvtb[n]?.getD {}) with
  | some n =>
    modCore fun c => { c with kvtb := c.kvtb.setIfInBounds n e }
    return n
  | none =>
    modCore fun c => { c with kvtb := c.kvtb.setIfInBounds c.kvnext e, kvnext := (c.kvnext + 1) % 64 }
    return c.kvnext

/-- The entry that a lookup of page i by the executing context hits (R365). -/
def Core.kvHit (c : Core) (va i ctx : Nat) : Option Nat :=
  (List.range 64).find? fun n =>
    let e := c.kvtb[n]?.getD {}
    e.valid && decide (e.table.toNat = va / 32) && decide (e.page.toNat = i) && (!e.own || decide (e.octx.toNat = ctx))

/-- The miss shadow's registers at entry (R366). -/
def missStart (x : Context) (entry i : Nat) (p : Word) (kind : Nat) : Context :=
  { st := .ready, pc := BitVec.ofNat 64 entry
    s := ((((Vector.replicate 32 0).setIfInBounds 2 (BitVec.ofNat 64 i)).setIfInBounds 3 p).setIfInBounds 4
      (BitVec.ofNat 64 kind))
    a := (Vector.replicate 16 {}).setIfInBounds 0 { ptr := x.kvtbase }
    kvtbase := x.kvtbase, codeptr := x.codeptr, jobseed := x.jobseed, lcore := x.lcore, priv := x.priv }

/-- What a lookup answers (R365): no entry, or the entry and the result code. -/
inductive Found where
  | beyond
  | entry (e : KvtbEntry) (code : Nat)
  deriving DecidableEq, Repr

/-- The result of a lookup that has its entry (R365). Nothing is translated for it (R372): a page that is not mapped is not
HBM-resident. -/
def kvResult (e : KvtbEntry) (p : Nat) : Op Found := do
  let s ← get
  let t := p % 16
  if e.stop then return .entry e 3
  else
    match pagePlace s.asid e.ptr with
    | none => return .entry e 1
    | some l =>
      if t ≥ e.limit.toNat then return .entry e 1
      else
        let row := 128 * e.rowq.toNat
        let off := 64 + row * t
        let seen := match l with | .heap asid va => s.mapped asid va | .pad _ => true
        if (seen && (s.hdr l).poison) || s.bodyPoisoned l off row then
          set (s.poisonPage l)
          return .entry e 4
        else
          match l with
          | .heap asid va =>
            if (pageStarts (va + 32 + off) row).any fun a => !s.hbmResident asid (a / 4096) then
              missRange asid (va + 32 + off) row 4
              return .entry e 2
            else return .entry e 0
          | .pad _ => return .entry e 0

/-- A lookup of position p (R365, R366); `kind` is 0 for `kvlk` and 1 for `kvget`. -/
def kvLookup (p : Word) (kind : Nat) : Op Found := do
  require (decide (p.toNat < 2 ^ 40)) .bounds p
  let i := p.toNat / 16
  let x ← getCtx
  let c ← getCore
  let hit := if ptrLevel x.kvtbase = 0 then c.kvHit (ptrLoc x.kvtbase) i c.ctxNo else none
  match hit with
  | some n => kvResult (c.kvtb[n]?.getD {}) p.toNat
  | none =>
    let (va, cap) ← kvTable false
    if i ≥ cap then return .beyond
    else
      let s ← get
      let t := Loc.heap s.asid va
      let entry := s.kvEntry t
      if entry = 0xFFFFFFFF then
        let n ← kvInstall va cap i (s.kvPage t i)
        kvResult ((← getCore).kvtb[n]?.getD {}) p.toNat
      else
        if c.miss.isSome then waitHere
        require (decide (entry + 4 ≤ s.codeLen)) .bounds (BitVec.ofNat 64 entry)
        modCore fun c => { c.setCtx 12 (missStart x entry i p kind) with miss := some { ctx := c.act, pos := p } }
        throw .shadow

/-- `kvlk` (R372). -/
def execKvlk (d a : BitVec 5) (s : State) : Host.Outcome State Fault Refusal :=
  runInstr (.kvlk d a) (do
    kvGuard false
    let p ← rdS a
    match ← kvLookup p 0 with
    | .beyond => wrNat d (2 ^ 61 + p.toNat / 16 % 2 ^ 21 * 2 ^ 40)
    | .entry e code => wrNat d (code * 2 ^ 61 + p.toNat / 16 % 2 ^ 21 * 2 ^ 40 + e.limit.toNat)) s

/-- `kvfill` (R368). -/
def execKvfill (d a b : BitVec 5) (s : State) : Host.Outcome State Fault Refusal :=
  runInstr (.kvfill d a b) (do
    kvGuard true
    let q ← rdS a
    let i ← rdS b
    let c ← getCore
    require (c.inMiss || c.isPriv) .illegal 0
    let (va, cap) ← kvTable false
    let n ← kvInstall va cap i.toNat q
    wrNat d n) s

/-- `kvinv` (R370): invalidates the entries that p picks and counts them. -/
def kvInvalidate (d : BitVec 5) (p : KvtbEntry → Bool) : Op Unit := do
  let c ← getCore
  modCore fun c => c.kvDrop p
  wrNat d (c.kvtb.toList.filter fun e => e.valid && p e).length

def execKvinv (d a : BitVec 5) (s : State) : Host.Outcome State Fault Refusal :=
  runInstr (.kvinv d a) (do
    kvGuard true
    let i ← rdS a
    let t := (← getCtx).kvtbase
    kvInvalidate d fun e => ptrLevel t = 0 && decide (e.table.toNat = ptrLoc t / 32) && decide (e.page.toNat = i.toNat)) s

def execKvinvAll (d : BitVec 5) (s : State) : Host.Outcome State Fault Refusal :=
  runInstr (.kvinvAll d) (do
    kvGuard true
    kvInvalidate d fun _ => true) s

/-- `kvret` (R371): the missing instruction repeats its lookup or raises TRANSLATE. -/
def execKvret (a : BitVec 5) (s : State) : Host.Outcome State Fault Refusal :=
  runInstr (.kvret a) (do
    kvGuard true
    let v ← rdS a
    let c ← getCore
    match c.inMiss, c.miss with
    | true, some m =>
      if v = 0 then modCore fun c => { c with miss := none }
      else if v = 1 then raise .translate m.pos
      else illegal 0
    | _, _ => illegal 0) s

/-- `kvget` (R373). -/
def execKvget (d a b : BitVec 5) (s : State) : Host.Outcome State Fault Refusal :=
  runInstr (.kvget d a b) (do
    kvGuard false
    let s ← get
    require (!isChan s.site) .illegal 0
    checkVd d
    let p ← rdS a
    let q ← rdS b
    match ← kvLookup p 1 with
    | .beyond => raise .bounds p
    | .entry e code =>
      require (decide (q.toNat < e.rowq.toNat)) .bounds q
      if code = 1 then raise .bounds p
      if code = 3 then raise .poison (← getCtx).kvtbase
      if code = 4 then raise .poison p
      match pagePlace (← get).asid e.ptr with
      | none => raise .bounds p
      | some l =>
        let row := 64 + 128 * e.rowq.toNat * (p.toNat % 16)
        if let .heap asid va := l then
          translateRange asid va 32 false p
          translateRange asid (va + 32 + row) (128 * e.rowq.toNat) false p
        let s ← get
        if (s.hdr l).poison || s.bodyPoisoned l row (128 * e.rowq.toNat) then
          set (s.poisonPage l)
          raise .poison p
        wrV d (BitVec.ofNat 1024 (ofBytes (s.bodyBytes l (row + 128 * q.toNat) 128)))) s

/-- The source of `kvapp` and `rsver`: n bytes of a DATA object at its cursor, in the copy that R285 names. -/
def kvSource (r n : Nat) : Op (List Byte) := do
  let _ ← touch r
  let x ← rdA r
  let s ← get
  let (l, _) ← engCopy (.ctx s.site s.core.act) s.core.act x.ptr
  let h := (← get).hdr l
  require (h.typ = tDATA) .type x.ptr
  boundsCheck x.cur.toNat n h.len
  if let .heap asid va := l then translateRange asid (va + 32 + x.cur.toNat) n false x.ptr
  awaitReds l x.cur.toNat n
  return (← get).bodyBytes l x.cur.toNat n

/-- `WPG0` and the counts after an append of k tokens (R374). -/
def State.kvCount (s : State) (t : Loc) (own fresh : Bool) (i k : Nat) : State :=
  let s1 := if own && decide (s.kvWpg0 t = noPage) && fresh then s.setBodyField t 0x10 0 21 i else s
  if own then s1.setBodyField t 8 0 40 (s1.kvWtok t + k) else s1.setBodyField t 0 0 40 (s1.kvNtok t + k)

/-- What an append checks first at the port: the end, its page, its slot, and whether the window is the context's own
(R374). -/
def kvAppendAt (va cap : Nat) : Op (Loc × Nat × Bool) := do
  waitAccesses
  let s ← get
  let t := Loc.heap s.asid va
  let me ← kvMe
  let base := s.ctx.kvtbase
  require (!s.kvStopped t) .poison base
  let own := s.kvOwns t me
  require (!(s.kvOpen t && !own)) .type base
  let e := s.kvEnd t own
  require (decide (e / 16 < cap)) .bounds (BitVec.ofNat 64 e)
  return (t, e, own)

/-- The KVTB and the result after an append of k tokens at e (R374). -/
def kvAppended (d : BitVec 5) (va e k : Nat) (own : Bool) : Op Unit := do
  let c ← getCore
  match c.kvHit va (e / 16) c.ctxNo with
  | some n =>
    let x := c.kvtb[n]?.getD {}
    let y := { x with limit := BitVec.ofNat 5 (e % 16 + k) }
    let z := if own then { y with own := true, octx := BitVec.ofNat 4 c.ctxNo } else y
    modCore fun c => { c with kvtb := c.kvtb.setIfInBounds n z }
  | none => pure ()
  wrNat d (e + k)

/-- The place of page i of a table, to be written at a slot (R374): the page that stands there, or a fresh frame. -/
def kvAppendPage (t : Loc) (e rowq : Nat) : Op (Loc × Bool) := do
  let s ← get
  let i := e / 16
  let p := s.kvPage t i
  if ptrLevel p = 7 then
    let vf ← kvVf
    require (decide ((s.vfAt vf).kvUsed < Config.kvQuota vf)) .quota 1
    require (decide (s.kvFrames.length < poolFrames)) .quota 2
    let (s1, f) := s.takeFrame vf rowq
    set (s1.setKvPage t i (framePtr f))
    return (.pad (kvFrameKey f), true)
  else
    match pagePlace s.asid p with
    | none => raise .type (BitVec.ofNat 64 e)
    | some l =>
      if let .heap asid va := l then translateRange asid va (32 + pageLen rowq) true p
      require (!(← get).pageRo l) .type (BitVec.ofNat 64 e)
      return (l, false)

/-- `kvapp` (R374). -/
def execKvapp (d : BitVec 5) (a : BitVec 4) (s : State) : Host.Outcome State Fault Refusal :=
  runInstr (.kvapp d a) (do
    kvGuard false
    let (va, cap) ← kvTable true
    let s ← get
    let rowq := s.kvRowq (.heap s.asid va)
    let bs ← kvSource a.toNat (128 * rowq)
    let (t, e, own) ← kvAppendAt va cap
    let (l, fresh) ← kvAppendPage t e rowq
    modify fun s => (s.putBody l (64 + 128 * rowq * (e % 16)) bs).kvCount t own fresh (e / 16) 1
    kvAppended d va e 1 own) s

/-- `kvapp.link` (R374). `REFS` counts references to pool pages only (R359). -/
def execKvappLink (d : BitVec 5) (a : BitVec 4) (s : State) : Host.Outcome State Fault Refusal :=
  runInstr (.kvappLink d a) (do
    kvGuard false
    let (va, cap) ← kvTable true
    let s ← get
    let q := (← rdA a.toNat).ptr
    if ptrLevel q = 7 then raise .type q
    let l ← kvPageCheck q (s.kvRowq (.heap s.asid va))
    require ((← get).pagePub l) .type q
    let (t, e, own) ← kvAppendAt va cap
    require (decide (e % 16 = 0)) .illegal (BitVec.ofNat 64 e)
    let s ← get
    let pool := poolPtr q
    require (!pool || decide (s.pageRefs l ≠ 4096)) .quota 3
    let s1 := if pool then s.setBodyField l 0 32 13 (s.pageRefs l + 1) else s
    set ((s1.setKvPage t (e / 16) q).kvCount t own true (e / 16) 16)
    kvAppended d va e 16 own) s

/-- `kvspec` (R378). -/
def execKvspec (d : BitVec 5) (s : State) : Host.Outcome State Fault Refusal :=
  runInstr (.kvspec d) (do
    kvGuard false
    if !(← get).feature 4 then illegalWord
    let (va, _) ← kvTable true
    let base := (← getCtx).kvtbase
    let s ← get
    let t := Loc.heap s.asid va
    require (!s.kvStopped t) .poison base
    require (!s.kvOpen t) .illegal base
    let rst := s.kvRst t
    if ptrLevel rst = 0 then translateRange s.asid (ptrLoc rst) 160 true rst
    let s ← get
    let me ← kvMe
    let wid := (s.kvWid t + 1) % 2 ^ 16
    let s1 := (s.setBodyField t 0 62 1 1).setBodyField t 0 40 16 wid
    let s2 := ((s1.setBodyField t 8 51 13 me.1).setBodyField t 8 47 4 me.2).setBodyField t 8 0 40 0
    let s3 := s2.setBodyField t 0x10 0 21 noPage
    let s4 := match s3.kvRstLoc s3.asid t with
      | some r => (((s3.setBodyField r 0 51 13 me.1).setBodyField r 0 47 4 me.2).setBodyField r 0 31 16 wid).setBodyField r 0 30 1 1
      | none => s3
    set { s4 with kvTabs := s4.kvTabs.map fun (k : KvTab) => if k.asid = s4.asid ∧ k.va = va then { k with rid := s4.core.recId, owner := some me } else k }
    wrNat d wid) s

/-- `kvcommit` (R380) of n tokens; `kvabort` is that of none. -/
def kvClose (d : BitVec 5) (n : Word) : Op Unit := do
  let (va, _) ← kvTable true
  let base := (← getCtx).kvtbase
  waitAccesses
  let s ← get
  let t := Loc.heap s.asid va
  let rst := s.kvRst t
  if ptrLevel rst = 0 then
    let _ ← translate s.asid (ptrLoc rst) true rst
    translateRange s.asid (ptrLoc rst) 160 true rst
  let s ← get
  let me ← kvMe
  require (s.kvOwns t me) .illegal base
  require (decide (n.toNat ≤ s.kvWtok t)) .bounds n
  let E := s.kvNtok t + n.toNat
  set (s.closeWindow s.asid va n.toNat)
  modCore fun c => c.dropOwn va
  wrNat d E

def execKvcommit (d a : BitVec 5) (s : State) : Host.Outcome State Fault Refusal :=
  runInstr (.kvcommit d a) (do
    kvGuard false
    let n ← rdS a
    kvClose d n) s

def execKvabort (d : BitVec 5) (s : State) : Host.Outcome State Fault Refusal :=
  runInstr (.kvabort d) (do
    kvGuard false
    kvClose d 0) s

/-- `kvfree` (R375). -/
def execKvfree (d a : BitVec 5) (s : State) : Host.Outcome State Fault Refusal :=
  runInstr (.kvfree d a) (do
    kvGuard false
    let f ← rdS a
    let (va, cap) ← kvTable true
    let s ← get
    let t := Loc.heap s.asid va
    require (!s.kvOpen t) .illegal s.ctx.kvtbase
    require (decide (f.toNat ≤ cap)) .bounds f
    let (s1, fs) := s.dropPages t f.toNat cap
    let s2 := s1.setBodyField t 0 0 40 (Nat.min (s1.kvNtok t) (16 * f.toNat))
    set ((s2.shootTable s2.asid va fun e => decide (f.toNat ≤ e.page.toNat)).shootFrames fs)
    wrNat d fs.length) s

/-- `kvfree.pub` and `kvfree.pubx` (R376). -/
def kvPublish (d a : BitVec 5) (x : Bool) : Op Unit := do
  let f ← rdS a
  let (va, _) ← kvTable false
  let s ← get
  let t := Loc.heap s.asid va
  require (!s.kvOpen t) .illegal s.ctx.kvtbase
  let is := (List.range (s.kvNtok t / 16 - f.toNat)).map fun n => f.toNat + n
  let full := is.filter fun i => decide (ptrLevel (s.kvPage t i) ≠ 7)
  match full.find? fun i => !poolPtr (s.kvPage t i) with
  | some i => raise .type (BitVec.ofNat 64 i)
  | none =>
    set (full.foldl (fun (u : State) i =>
      let l := Loc.pad (kvFrameKey (frameOf (s.kvPage t i)))
      let u1 := (u.setBodyField l 0 0 1 1).setBodyField l 0 1 1 1
      if x then u1.setBodyField l 0 2 1 1 else u1) s)
    wrNat d full.length

def execKvfreePub (d a : BitVec 5) (s : State) : Host.Outcome State Fault Refusal :=
  runInstr (.kvfreePub d a) (do
    kvGuard false
    kvPublish d a false) s

def execKvfreePubx (d a : BitVec 5) (s : State) : Host.Outcome State Fault Refusal :=
  runInstr (.kvfreePubx d a) (do
    kvGuard false
    let s ← get
    require (s.core.isPriv && s.feature 12) .priv s.ctx.kvtbase
    kvPublish d a true) s

/-- The slot that a new version takes (R379). -/
def State.versionSlot (s : State) (r : Loc) (own : Bool) (p : Nat) : Option Nat :=
  let free := fun (j : Nat) => !rsUsed (s.rsTag r j)
  if own then
    match (List.range 8).find? fun j => rsUsed (s.rsTag r j) && rsSpec (s.rsTag r j) && decide (rsPos (s.rsTag r j) = p) with
    | some j => some j
    | none => pick free
  else pick fun j => free j && decide (j ≠ s.rsCur r)
where
  /-- any one of the slots that qualify, as it may fall out (log entry 1) -/
  pick (ok : Nat → Bool) : Option Nat :=
    let l := (List.range 8).filter ok
    l[Config.freeNat s.free % l.length]?

/-- `rsver` (R379). -/
def execRsver (d : BitVec 5) (a b : BitVec 4) (s : State) : Host.Outcome State Fault Refusal :=
  runInstr (.rsver d a b) (do
    kvGuard false
    let (va, _) ← kvTable false
    let s ← get
    let t := Loc.heap s.asid va
    let base := s.ctx.kvtbase
    let p := (← rdA a.toNat).ptr
    let rst := s.kvRst t
    if ptrLevel rst ≠ 0 || ptrLevel p = 7 || ptrLevel p ≥ 4 then raise .type p
    let (canon, r) ← named p
    require (decide (ptrLevel canon = 0) && decide (ptrLoc canon = ptrLoc rst)) .type p
    readHeader p canon r
    let h := (← get).hdr r
    let sb := versionBytes h.len
    require (h.typ = tRSTATE && decide (32 ≤ sb) && decide (sb % 32 = 0) && decide (h.len = 128 + 8 * sb)) .type p
    translateRange s.asid (ptrLoc canon) (32 + h.len) true p
    let bs ← kvSource b.toNat sb
    waitAccesses
    let s ← get
    let me ← kvMe
    let own := s.kvOwns t me
    require (!(s.kvOpen t && !own)) .type base
    let pos := s.kvEnd t own
    match s.versionSlot r own pos with
    | none => raise .quota 4
    | some j =>
      let s1 := ({ s with free := s.free + 1 }.putBody r (128 + j * sb) bs).setTag r j true own pos
      let s2 := if own then s1
        else
          let s3 := if s1.rsValid r then s1.setBodyField r (0x40 + 8 * s1.rsCur r) 63 1 0 else s1
          s3.setCommitted r j pos
      set s2
      for c in s2.pathCopies canon r r do
        modify fun u => u.refresh c r h.len false
      wrNat d j) s

end Sys2Proof.Machine
end

