-- ==== Sys2Proof/Machine/System.lean ====
section
/-! DEFINITION. System: the instructions of major 0x32 that are not in Checkpoint, and what interrupts a core (R394 to
R404, R413 to R416). -/

namespace Sys2Proof.Machine

/-! Asynchronous causes (R391, R394 to R397). -/

/-- The context that would issue next (R96, R102), or context 0 when none is READY. -/
def Core.nextReady (c : Core) : Nat :=
  (((List.range 11).map fun i => (c.last + 1 + i) % 11).find? fun n =>
    decide ((c.ctxAt n).st = .ready) && !c.passedOver n).getD 0

/-- Cycles after which an unreported engine fault is reported by interrupt (R397), and for T_d (R434). -/
def reportCycles : Nat := 65536
def discardCycles : Nat := 35000

/-- The oldest engine fault that is to be reported by interrupt, of those whose report is not yet pending. -/
def State.staleFault (s : State) (c : Core) : Option EngFault :=
  c.faults.find? fun f => decide (f.at_ + reportCycles ≤ s.cycle.toNat)
    && !(c.pending.any fun q => decide (q.code = Cause.engine.code) && decide (q.work = some f.num))

/-- A number of engine work of a core names a posted copy that is under way (R172). -/
def State.posting (s : State) (c : Core) (num : Nat) : Bool :=
  s.posts.any fun p => decide (p.num = num) && decide ((s.coreAt p.site).recId = c.recId)
    && decide (((s.coreAt p.site).ctxAt 0).lcore = (c.ctxAt 0).lcore)

/-- A pending STEP with DRAIN whose engine work is still under way (R414). -/
def State.draining (s : State) (c : Core) (p : Pending) : Bool :=
  match p.work with
  | some n => decide (p.code = Cause.step.code)
      && (s.posting c n || (c.wmb ++ c.copies).any fun m => decide (m.num = n) && m.fault.isNone)
  | none => false

/-- No instruction of a core issues while the STEP of a push waits for its engine work: the trap stands after the push (R414). -/
def State.drains (s : State) (c : Core) : Bool := !c.tshadow && c.pending.any (s.draining c)

/-- The causes due at a boundary of a core, first those that are taken first (R396), each as it would be taken now. -/
def State.dueCauses (s : State) (c : Core) : List Pending :=
  let x := c.nextReady
  let at_ := fun (code : BitVec 8) (val : Word) => ({ code := code, val := val, pc := (c.ctxAt x).pc, ctx := x } : Pending)
  let kept := fun (code : BitVec 8) (p : Pending → Bool) => c.pending.filter fun q => decide (q.code = code) && p q
  let new := fun (code : BitVec 8) (p : Word → Bool) =>
    (c.raised.filter fun q => decide (q.1 = code) && p q.2).map fun q => at_ q.1 q.2
  let isSource := fun (n : Nat) (v : Word) => decide (v.toNat % 256 = n)
  let int := Cause.interrupt.code
  kept Cause.cornice.code (fun _ => true) ++ new Cause.cornice.code (fun _ => true)
    ++ kept int (fun q => isSource 1 q.val) ++ new int (isSource 1)
    ++ (if c.ie then
          kept Cause.engine.code (fun _ => true)
            ++ (match s.staleFault c with
              | some f => [{ code := Cause.engine.code, val := f.record, pc := (c.ctxAt f.ctx).pc, ctx := f.ctx, work := some f.num }]
              | none => [])
            ++ kept int (fun q => isSource 3 q.val) ++ new int (isSource 3)
            ++ (match kept Cause.timer.code (fun _ => true) with
              | [] => if c.timercmp.toNat ≤ s.cycle.toNat then [at_ Cause.timer.code s.cycle] else []
              | l => l)
        else [])
    ++ kept Cause.step.code (fun q => !s.draining c q)

/-- A core that can take an asynchronous cause: it runs part of a record and is not in the trap shadow (R395). -/
def Core.interruptible (c : Core) : Bool := c.recId.isSome && !c.halted && !c.tshadow

/-- The cause `p` leaves the lists in which it stood, taken as `q`; a report by interrupt counts as the report (R397). -/
def Core.takeCause (c : Core) (p q : Pending) (rest : List Pending) : Core :=
  let stays := c.pending.filter fun x => decide (x ≠ p) && !rest.contains x
  let reports := fun (num : Nat) => decide (q.code = Cause.engine.code) && decide (q.work = some num)
  { c with
    raised := c.raised.filter fun r => !((p :: rest).any fun x => decide (x.code = r.1) && decide (x.val = r.2))
    pending := stays ++ rest
    faults := c.faults.filter fun f => !reports f.num
    wmb := c.wmb.map fun m => if m.fault.isSome && reports m.num then { m with reported := true } else m }

/-- A pending STEP whose drained work has faulted is an ENGINE in its place (R414). -/
def Core.stepOrEngine (c : Core) (p : Pending) : Pending × Bool :=
  match if p.code = Cause.step.code then p.work.bind fun n => c.faults.find? fun f => decide (f.num = n) else none with
  | some f => ({ p with code := Cause.engine.code, val := f.record }, true)
  | none => (p, decide (p.code.toNat ≥ 0x20) || decide (p.code = Cause.engine.code))

/-- Something is pending for a core, whatever `IE` holds (R403). -/
def State.causePending (s : State) (c : Core) : Bool :=
  !c.raised.isEmpty || !c.pending.isEmpty || (s.staleFault c).isSome || decide (c.timercmp.toNat ≤ s.cycle.toNat)

/-- `wfi` (R403). -/
def execWfi (s : State) : Host.Outcome State Fault Refusal :=
  runInstr .wfi (do
    notInMiss
    let s ← get
    let line := bitsOf s.tx.bind 22 5
    let event := !isChan s.site && !(s.ownRec.wordsFor (clusterOf s.site) line).isEmpty
    if !(s.causePending s.core || !s.core.rx.isEmpty || event) then waitHere) s

/-- Context n of a core stands at `wfi`, which it has issued and where it waits; `src` is the core that fetches for it. -/
def State.atWfi (s : State) (src site n : Nat) : Bool :=
  let c := s.coreAt site
  decide ((c.ctxAt n).st = .waiting)
    && decide ((({ s with site := src }.setCore src { s.coreAt src with act := n }).codeWord (c.ctxAt n).pc.toNat) = some (wordNat .wfi))

/-- A context that waits at `wfi` retires it once its condition holds, so that a cause taken then has `trappc` after it
(R403). -/
def State.retireWfi (s : State) (site n : Nat) : State :=
  let c := s.coreAt site
  if s.atWfi site site n then
    match execWfi ({ s with site := site }.setCore site { c with act := n }) with
    | .next u => if ((u.coreAt site).ctxAt n).st = .waiting then s
      else { u.setCore site { u.coreAt site with act := c.act } with site := s.site, tx := s.tx }
    | _ => s
  else s

/-- A core takes the first cause that is due at its boundary; the others stay pending as they fell due (R396). In a Tuft the
members retire a `wfi` together or not at all (R108), which is the boundary's to see to. -/
def State.takeDue (s : State) (site : Nat) : State :=
  let c := s.coreAt site
  if !c.interruptible || (s.dueCauses c).isEmpty then s
  else
    let s := if c.tuft then s else (List.range 11).foldl (fun (t : State) n => t.retireWfi site n) s
    let c := s.coreAt site
    match if c.interruptible then s.dueCauses c else [] with
    | [] => s
    | p :: rest =>
      let (q, async) := c.stepOrEngine p
      (s.setCore site (c.takeCause p q rest)).enterTrap site q.ctx q.code q.val q.pc async false

/-- An interrupt is raised at a core. -/
def State.raiseAt (s : State) (site : Nat) (code : BitVec 8) (val : Word) : State :=
  let c := s.coreAt site
  (s.setCore site { c with raised := c.raised ++ [(code, val)] }).takeDue site

/-- TIMER (R88, R91): the condition of a core's `timercmp` is met. -/
def execTimer (core : Nat) (s : State) : Host.Outcome State Fault Refusal :=
  runEvent (do
    let s ← get
    let c := s.coreAt core
    due (c.interruptible && c.ie && decide (c.timercmp.toNat ≤ s.cycle.toNat))
    set (s.takeDue core)) s

/-- ENGINE_REPORT_TIMEOUT (R397). -/
def execEngineReportTimeout (core : Nat) (s : State) : Host.Outcome State Fault Refusal :=
  runEvent (do
    let s ← get
    let c := s.coreAt core
    due (c.interruptible && c.ie && (s.staleFault c).isSome)
    set (s.takeDue core)) s

/-- A record whose queue has save objects and CTXBUFs of at least 64 slots (R423), each of its cores with its CTXBUF, which
takes the receive queue of the core that leaves (R407). -/
def State.preemptible (s : State) (r : Rec) : Bool :=
  match r.queue with
  | some q =>
    let x : Queue := lookup {} q s.queues
    decide (x.saveSz ≠ 0) && decide (64 ≤ x.ctxSlots) && (List.range r.place.length).all fun lc => (r.ctxbuf lc).isSome
  | none => false

/-- The cores that an interrupt or a stop of a core reaches: in a Tuft every member (R111). -/
def State.reached (s : State) (core : Nat) : List Nat := if (s.coreAt core).tuft then s.tuftOf core else [core]

/-- An interrupt is raised at a core and, in a Tuft, at every member, which take it at one boundary (R111). -/
def State.raiseAll (s : State) (core : Nat) (code : BitVec 8) (val : Word) : State :=
  (s.reached core).foldl (fun (t : State) n => t.raiseAt n code val) s

/-- INTERRUPT PREEMPT is raised at a core and, in a Tuft, at every member (R405). -/
def State.preempt (s : State) (core : Nat) : State :=
  (s.reached core).foldl (fun (t : State) n =>
    if (t.coreAt n).raised.contains (Cause.interrupt.code, 1) then t else t.raiseAt n Cause.interrupt.code 1) s

/-- INTERRUPT_PREEMPT (R394, R405). -/
def execInterruptPreempt (core : Nat) (s : State) : Host.Outcome State Fault Refusal :=
  runEvent (do
    let s ← get
    let c := s.coreAt core
    let rid ← dueSome c.recId
    due (!c.halted && s.preemptible (s.recAt rid))
    set (s.preempt core)) s

/-- INTERRUPT_DEBUG (R394): never raised for a function that has not accepted DEBUG (R422). -/
def execInterruptDebug (core : Nat) (req : BitVec 32) (s : State) : Host.Outcome State Fault Refusal :=
  runEvent (do
    let s ← get
    let c := s.coreAt core
    let rid ← dueSome c.recId
    due (!c.halted && s.accepted (s.recAt rid).l.vf 13)
    set (s.raiseAll core Cause.interrupt.code (BitVec.ofNat 64 (req.toNat * 2 ^ 32 + 3)))) s

/-- The deadline by which a record is to be checkpointed (R415, R434): the earliest of those posted while it was resident whose
checkpoint has not yet made its queue vacant. -/
def State.corniceStop (s : State) (rid : Nat) : Option Nat :=
  (s.deadlines.filter fun d => d.queues.any fun x =>
    x.recs.contains rid && decide (x.outcome = .checkpoint) && x.vacant.isNone).map (·.at_) |>.min?

/-- CORNICE_TRAP (R415): a checkpoint outcome of the core's record; `trapval` is the cycle of D - T_d. -/
def execCorniceTrap (core : Nat) (s : State) : Host.Outcome State Fault Refusal :=
  runEvent (do
    let s ← get
    let c := s.coreAt core
    let rid ← dueSome c.recId
    let d ← dueSome (s.corniceStop rid)
    due (!c.halted && (c.raised.all fun r => decide (r.1 ≠ Cause.cornice.code))
      && !(c.tshadow && decide (c.trapcause = Cause.cornice.code)))
    set (s.raiseAll core Cause.cornice.code (BitVec.ofNat 64 (d - discardCycles)))) s

/-! Major 0x32. -/

/-- The refusals of the miss shadow (R398). -/
def execTrap (h l : BitVec 5) (s : State) : Host.Outcome State Fault Refusal :=
  runInstr (.trap h l) (do
    notInMiss
    modTx fun t => { t with after := some (Cause.syscall.code, BitVec.ofNat 64 (h.toNat * 32 + l.toNat)) }) s

/-- `brk` (R399). -/
def execBrk (h l : BitVec 5) (s : State) : Host.Outcome State Fault Refusal :=
  runInstr (.brk h l) (do
    notInMiss
    raise .brk (BitVec.ofNat 64 (h.toNat * 32 + l.toNat))) s

/-- `tret` (R400), an instruction of the trap shadow that retires there (R88). -/
def execTret (s : State) : Host.Outcome State Fault Refusal :=
  runInstr .tret (do
    notInMiss
    require (← getCore).inTrap .priv 0
    modCtx fun x => { x with instret := x.instret + 1 }
    modify State.trapReturn
    throw .gone) s

/-- The halted commands of the core are dropped as by `wres` with action 1, with the faults of theirs that no report has
come for (R302, R401). -/
def dropHalted : Op Unit := do
  let halted := (← getCore).wmb.filter fun m => m.fault.isSome
  modify fun s => halted.foldl State.dropCmd s
  modCore fun c => { c with
    wmb := c.wmb.filter fun m => m.fault.isNone
    faults := c.faults.filter fun f => !(halted.any fun m => decide (m.num = f.num)) }

/-- `halt` in a control context (R401). -/
def haltControl : Op Unit := do
  let s ← get
  require (decide (s.core.ctxNo = 0)) .illegal 0
  reportFault fun _ => true
  if (List.range 10).any fun n => decide ((s.core.ctxAt (n + 1)).st = .ready) || decide ((s.core.ctxAt (n + 1)).st = .waiting) then
    waitHere
  modCore fun c => (List.range 10).foldl (fun (c : Core) n => c.setCtx (n + 1) { c.ctxAt (n + 1) with st := .free }) c
  modify fun s => s.kvAbortCtx s.site 0
  dropHalted
  let s ← get
  if !s.core.wmb.isEmpty || !s.core.copies.isEmpty || s.posts.any (fun p => decide (p.site = s.site)) then waitKeep
  modify fun s => (s.core.streams.toList.filter (·.bound)).foldl (fun (t : State) x => t.erefDown x.loc) s
  modCore fun c => { c with owed := [], faults := [], halted := true, streams := c.streams.map fun x =>
    { x with bound := false, run := false, buf := [] } }
  let s ← get
  match s.core.recId with
  | none => pure ()
  | some rid => modRec rid fun r =>
    { r.freeMutexes (fun h => decide (h.1 = s.ctx.lcore.toNat)) with ended := insertKey s.ctx.lcore.toNat r.ended }

/-- `halt` (R401, R402). -/
def execHalt (s : State) : Host.Outcome State Fault Refusal :=
  runInstr .halt (do
    notInMiss
    let s ← get
    if s.core.inTrap then
      set (s.endCore s.site (some (s.core.trapcause, s.core.trapval)))
    else haltControl
    throw .gone) s

/-- The words of a request (R426). -/
def requestWords (service arg : Word) (lcore ctx asid seq : Nat) : List Word :=
  [service, arg, BitVec.ofNat 64 (lcore + ctx * 2 ^ 16 + asid * 2 ^ 32), BitVec.ofNat 64 seq]

/-- `xinv` (R404). -/
def execXinv (d a b : BitVec 5) (s : State) : Host.Outcome State Fault Refusal :=
  runInstr (.xinv d a b) (do
    notInMiss
    let service ← rdS a
    let arg ← rdS b
    let s ← get
    match s.ctx.xinv, s.ctx.xreply with
    | some _, some r =>
      modCtx fun x => { x with xinv := none, xreply := none }
      wrS d r
    | some _, none => waitHere
    | none, _ =>
      if s.fencePending 5 s.site s.core.act then waitHere
      let vf := s.ownRec.l.vf
      if !s.feature 9 then wrS d (BitVec.allOnes 64)
      else
        let v := s.vfAt vf
        match s.ringRoom true vf with
        | none => waitHere
        | some ring =>
          let seq := v.seq + 1
          let entry := requestWords service arg s.ctx.lcore.toNat s.core.ctxNo s.asid seq
          set ((s.putEntry ring v.reqTail (entry.map fun w => leBytes w.toNat 8).flatten).setVf vf { v with seq := seq, reqTail := v.reqTail + 1 })
          modCtx fun x => { x with xinv := some seq }
          waitKeep) s

/-! Switching a record out (R217, R428). -/

/-- A core as the hardware saves it at a superstep boundary, its receive queue in its CTXBUF (R407). -/
def State.switchCore (s : State) (rid lc : Nat) : State :=
  let site := (s.recAt rid).place.getD lc 0
  let s1 := (s.leaveLines fun w => decide (w.site = site)).spill site rid lc
  s1.vacate site rid lc (s1.saveImage site { s1.coreAt site with miss := none } true)

/-- The pages of CTXBUF objects are mapped for the device; pages that are not are asked for. -/
def bufsReady : List Loc → Op Bool
  | [] => return true
  | l :: t => do
    let ran ← tryRun (bufPages l)
    let rest ← bufsReady t
    return rest && decide (ran = .done)

/-- TENANT_SWITCH (R217, R428): at a device-level boundary with no message in flight. A Cornice stop of the record takes
precedence. -/
def execTenantSwitch (r : Nat) (s : State) : Host.Outcome State Fault Refusal :=
  runEvent (do
    let s ← get
    let x := s.recAt r
    let live := (List.range x.place.length).filter fun n => !x.ended.contains n
    due (decide (x.st = .running) && s.preemptible x && x.switchAsked.isSome && x.boundary && x.vacated.isEmpty
      && (s.corniceStop r).isNone
      && (s.net.all fun f => decide (f.srcRec ≠ r) && decide (f.target ≠ some r))
      && live.all fun n => !(s.coreAt (x.place.getD n 0)).tshadow && !s.padBusy (x.place.getD n 0) r)
    if ← bufsReady (live.filterMap x.ctxbuf) then
      modify fun s => live.foldl (fun (t : State) n => t.switchCore r n) s) s

/-- SWITCH_OUT_TIMEOUT (R428): no boundary within 20 µs, which is 14,000 cycles. -/
def execSwitchOutTimeout (r : Nat) (s : State) : Host.Outcome State Fault Refusal :=
  runEvent (do
    let s ← get
    let x := s.recAt r
    let t ← dueSome x.switchAsked
    due (decide (x.st = .running) && s.preemptible x && (s.corniceStop r).isNone && decide (t + 14000 ≤ s.cycle.toNat))
    let live := (List.range x.place.length).filter fun n => !x.ended.contains n && !x.vacated.contains n
    set (live.foldl (fun (t : State) n => t.preempt (x.place.getD n 0)) s)) s

/-! Discards (R416). -/

/-- The terms of a core's queued reductions stand, but no fence status awaits them any more (R416). -/
def State.forgetSender (s : State) (site : Nat) : State :=
  { s with reds := s.reds.map fun r => { r with terms := r.terms.map fun t =>
      { t with sender := t.sender.filter fun f => decide (f.1 ≠ site) } } }

/-- Every core of a record is vacated without a trap, and everything on its pads is lost (R416). -/
def State.discardCore (s : State) (site : Nat) : State :=
  let s1 := (s.endCore site none).forgetSender site
  (s1.setCore site (s1.coreAt site).bare).clearPad (corePadKey site) padTop

/-- What a vacated core of a record still holds in the heap is given back (R341, R381): its windows are aborted, and the
commands and streams that its image keeps no longer count in EREF or PENDING. -/
def State.dropSaved (s : State) (rid lc : Nat) : State :=
  let s1 := (List.range 11).foldl (fun (t : State) i => t.kvAbortOwner rid lc i) s
  match find lc (s.recAt rid).images with
  | none => s1
  | some img =>
    let inHeap := fun (l : Loc) => match l with | .heap .. => true | .pad _ => false
    let cmds := (img.core.wmb ++ img.core.copies).map fun m => { m with erefs := m.erefs.filter inHeap, barrier := m.barrier.filter inHeap }
    (img.core.streams.toList.filter fun x => x.bound && inHeap x.loc).foldl (fun (t : State) x => t.erefDown x.loc)
      (cmds.foldl State.dropCmd s1)

/-- A record is discarded (R416): it completes with STATUS 3. What its vacated cores hold is given back as well. A message
on its way to it is refused when it arrives (R349). -/
def State.discardRecord (s : State) (rid : Nat) : State :=
  let r := s.recAt rid
  let sites := r.place.filter fun x => decide ((s.coreAt x).recId = some rid)
  let s0 := r.vacated.foldl (fun (t : State) lc => t.dropSaved rid lc) (s.countServed rid)
  let s1 := sites.foldl State.discardCore s0
  let s2 := r.areaKeys.foldl (fun (t : State) a => t.clearPad a.1 a.2) s1
  let s3 := { s2 with
    reds := s2.reds.filter fun x => match x.v with
      | .pad k => !(r.areaKeys.any fun a => within a.1 a.2 k) && !(sites.any fun n => within (corePadKey n) (2 ^ 18) k)
      | .heap .. => true }
  s3.setRec rid { s3.recAt rid with
    st := .ended, status := some 3, careas := [], dareas := [], evsets := [], arrivals := [], images := [], vacated := []
    areaSave := { core := {} }, ctxbufs := [] }

end Sys2Proof.Machine
end

