-- ==== Sys2Proof/Machine/Retire.lean ====
section
/-! DEFINITION. Retire: taking clusters and HBM channels out of service, and the guarantees of the partitions when they
shrink (R432, R453). -/

namespace Sys2Proof.Machine

/-- Enabled core sites of a die, and of the package (R14, R453). -/
def State.enabledOn (s : State) (d : Nat) : Nat :=
  let off := s.offSites
  (((List.range 1024).map (· + d * 1024)).filter fun x => !off.contains x).length

def State.enabledCores (s : State) : Nat := ((List.range 8).map s.enabledOn).sum

/-- Live HBM channels. -/
def State.liveChannels (s : State) : List Nat := (List.range 256).filter fun c => !s.flash.channels.contains c

/-- Bandwidth of the live channels in GB/s (R431, R432): 150 for each. -/
def State.bandwidth (s : State) : Nat := 150 * s.liveChannels.length

/-- An effective minimum (R432), where A is available, U is the sum over the upper class and L that over the lower. -/
def effectiveMin (A U L minimum : Nat) (upper : Bool) : Nat :=
  if U + L ≤ A then minimum
  else if U ≤ A then if upper then minimum else minimum * (A - U) / L
  else if upper then minimum * A / U else 0

/-- Sum of a field over the partitions of a class. -/
def State.classSum (s : State) (upper : Bool) (f : Partition → Nat) : Nat :=
  ((s.partitions.filter fun p => p.2.upper == upper).map fun p => f p.2).sum

/-- Effective minima of a partition: cores and bandwidth. -/
def State.effective (s : State) (p : Partition) : Nat × Nat :=
  let min := fun (A : Nat) (f : Partition → Nat) => effectiveMin A (s.classSum true f) (s.classSum false f) (f p) p.upper
  (min s.enabledCores (·.minCores), min s.bandwidth (·.minBw))

/-- Enabled cores of a partition's interval. -/
def State.coresOf (s : State) (p : Partition) : Nat :=
  let off := s.offSites
  ((List.range p.len).filter fun i => !off.contains (p.base + i)).length

/-- The reports of R432: when the minima are cut, every partition with its effective minima, and every partition that
holds fewer enabled cores than its minimum. -/
def State.reportShortfall (s : State) : State :=
  let cut := decide (s.enabledCores < s.classSum true (·.minCores) + s.classSum false (·.minCores))
    || decide (s.bandwidth < s.classSum true (·.minBw) + s.classSum false (·.minBw))
  let t := if cut then s.partitions.foldl (fun (t : State) p =>
    let e := s.effective p.2
    t.addLog 5 6 p.1 (BitVec.ofNat 64 e.1) (BitVec.ofNat 64 e.2)) s else s
  s.partitions.foldl (fun (t : State) p =>
    if s.coresOf p.2 < (s.effective p.2).1 then t.addLog 5 6 p.1 (BitVec.ofNat 64 (s.coresOf p.2)) 0 else t) t

/-- The core sites of a unit: those of a cluster, or a channel's core. -/
def RetUnit.sites : RetUnit → List Nat
  | .cluster n => ((List.range 1024).map (· + n / 128 * 1024)).filter fun x => clusterOf x = n
  | .channel c => [chanBase + c]

/-- The heap pages of an ASID that its tables name, as far as they are mapped (R386). -/
def State.linkedPages (s : State) (asid : Nat) : List Nat :=
  ((s.tables.filter fun k => decide (k.asid = asid) && s.mapped asid k.va).map fun k =>
    let t := Loc.heap asid k.va
    (List.range ((kvCap (s.hdr t).len).getD 0)).filterMap fun i =>
      let p := s.kvPage t i
      if ptrLevel p = 0 && s.mapped asid (ptrLoc p) && decide ((s.hdr (.heap asid (ptrLoc p))).typ = tKVPAGE) then some (ptrLoc p)
      else none).flatten

/-- The heap objects that the device knows of in n bytes from a place of a frame on: those that it has made, and the pages that
tables name. -/
def State.heapObjectsIn (s : State) (frame off n : Nat) : List Loc :=
  ((s.ptes.filter fun e => decide (e.2.frame = frame)).map fun e =>
    let asid := e.1 / 2 ^ 41
    let va := e.1 % 2 ^ 41 * 4096 + off
    (((lookup {} asid s.asids : AsidSt).objs ++ s.linkedPages asid).dedup.filter fun o =>
      (find (pageKey asid (o / 4096)) s.ptes).isSome && decide (o < va + n)
        && decide (va < o + (s.hdr (.heap asid o)).foot)).map fun o => Loc.heap asid o).flatten

/-- An object is marked as holding lost data (R126, R386). -/
def State.markLost (s : State) (l : Loc) : State :=
  if (s.hdr l).typ = tKVPAGE then s.poisonPage l else s.setHdr l ((s.hdr l).setFlag 59 true)

/-- The pages of a channel are lost (R453): all of them read as poisoned, and the objects that the device knows of in them are
marked. -/
def State.loseChannel (s : State) (c : Nat) : State :=
  let frames := ((s.ptes.filter fun e => decide (e.2.frame < hbmFrames) && decide (homeChannel (e.2.frame * 4096) = c)).map
    fun e => e.2.frame).dedup
  frames.foldl (fun (t : State) f => (t.heapObjectsIn f 0 4096).foldl State.markLost t)
    { s with lostChannels := insertKey c s.lostChannels }

/-- The HBM channel on which a byte of a frame of the KV pool lies (R358; log entry 117). -/
def State.kvChannelOf (s : State) (f off : Nat) : Nat :=
  lookup (Config.kvChannel f (off / 4096) % 256) (f * 32 + off / 4096) s.kvMoved

/-- What lies on a channel of the KV frames in use moves to live channels. -/
def State.moveKv (s : State) (c : Nat) : State :=
  let live := s.liveChannels.filter fun x => decide (x ≠ c)
  let pieces := ((s.kvFrames.map fun f => (List.range 32).map fun i => (f, i)).flatten).filter fun p =>
    decide (s.kvChannelOf p.1 (p.2 * 4096) = c)
  { s with kvMoved := pieces.foldl (fun m p =>
      match live[Config.kvMoveTo p.1 p.2 % live.length]? with
      | some x => store (p.1 * 32 + p.2) x m
      | none => m) s.kvMoved }

/-- The tier-pool pages of a channel move to frames of other channels; one that finds none leaves the pool. -/
def State.movePool (s : State) (c : Nat) : State :=
  (s.tier.filter fun t => decide (homeChannel (t.hbm * 4096) = c)).foldl (fun (u : State) t =>
    match u.poolFree with
    | f :: _ => { u with tier := u.tier.map fun x => if x = t then { x with hbm := f } else x }
    | [] => { u with tier := u.tier.erase t }) s

/-- A unit is fenced: it is written into the retirement record. A channel's tier-pool pages and KV frames move first, and its
pages are lost where no spare rows take them (R453). -/
def State.fence (s : State) (u : RetUnit) : State :=
  let s1 := match u with
    | .cluster n => { s with flash := { s.flash with clusters := insertKey n s.flash.clusters } }
    | .channel c =>
      let t := (s.movePool c).moveKv c
      let u := { t with flash := { t.flash with channels := insertKey c t.flash.channels } }
      if Config.spareRows c then u else u.loseChannel c
  ({ s1 with
    fencing := s1.fencing.filter fun x => decide (x ≠ u)
    fused := u.sites.foldl (fun l x => insertKey x l) s1.fused }).reportShortfall

/-- Units that are being retired and hold no resident record any more are fenced (R453). -/
def State.fenceIdle (s : State) : State :=
  (s.fencing.filter fun u => u.sites.all fun x => (s.coreAt x).recId.isNone).foldl State.fence s

/-- A unit is to be retired (R453). -/
def State.retireUnit (s : State) (u : RetUnit) : State :=
  let gone := match u with
    | .cluster n => s.flash.clusters.contains n
    | .channel c => s.flash.channels.contains c
  if gone || s.fencing.contains u then s else ({ s with fencing := s.fencing ++ [u] }).fenceIdle

/-- The unit that a place of an error belongs to. -/
def State.errUnit (s : State) : ErrUnit → Option RetUnit
  | .core x | .corePad x _ => if isChan x then some (.channel (x - chanBase)) else some (.cluster (clusterOf x))
  | .clusterPad n _ => some (.cluster n)
  | .hbm a => some (.channel (homeChannel a))
  | .kvPage f off => some (.channel (s.kvChannelOf f off))
  | _ => none

/-- Unit kind and number of a log entry (R450). -/
def State.errKind (s : State) : ErrUnit → Nat × Nat
  | .core x | .corePad x _ => if isChan x then (5, x - chanBase) else (0, x)
  | .clusterPad n _ => (1, n)
  | .diePad n _ => (2, n)
  | .hbm a => (5, homeChannel a)
  | .kvPage f off => (5, s.kvChannelOf f off)
  | .other k n => (k, n)

/-- The memory key of a place of an error: in HBM by device address, whose frame may hold a page of the tier pool (R13,
R176). -/
def State.errKey (s : State) : ErrUnit → Option Nat
  | .corePad x off => if off < 2 ^ 18 then some (corePadKey x + off) else none
  | .clusterPad n off => if off < 2 ^ 22 then some (clusterPadKey n + off) else none
  | .diePad n off => if off < 2 ^ 28 then some (diePadKey n + off) else none
  | .hbm a =>
    if a < hbmFrames * 4096 then
      match s.tier.find? fun t => decide (t.hbm = a / 4096) with
      | some t => some (t.frame * 4096 + a % 4096)
      | none => some a
    else none
  | .kvPage f off => if off < 2 ^ 17 then some (kvFrameKey f + off) else none
  | _ => none

/-- The pad object that holds a key. -/
def State.padObject (s : State) (key : Nat) : Option Loc :=
  let hdrs := (s.cores.map fun c => c.2.pad.hdrs).flatten
    ++ (s.recs.map fun r => ((r.2.careas ++ r.2.dareas).map fun a => a.2.hdrs).flatten).flatten
  (hdrs.find? fun k => within k (s.mem.hdr k).foot key).map Loc.pad

/-- Data are lost at a place (R126, R386): its granule is poisoned, and the object that holds it is marked; one that the host
has placed counts as marked by its bytes (`State.lost`). -/
def State.strike (s : State) (u : ErrUnit) : State :=
  match s.errKey u with
  | none => s
  | some key =>
    let s1 := { s with poison := insertKey (key / 32) s.poison }
    let ls := match u with
      | .kvPage f _ => [Loc.pad (kvFrameKey f)]
      | .hbm _ => s1.heapObjectsIn (key / 4096) (key % 4096) 1
      | _ => (s1.padObject key).toList
    ls.foldl State.markLost s1

/-- UNCORRECTABLE_ERROR (R386, R450, R453): logged; the third in one cluster or channel since reset retires it. -/
def execUncorrectableError (unit : ErrUnit) (s : State) : Host.Outcome State Fault Refusal :=
  runEvent (do
    let s ← get
    due (decide (s.phase ≠ .off))
    let k := s.errKind unit
    let s1 := (s.strike unit).addLog 2 k.1 k.2 0 0
    match s.errUnit unit with
    | none => set s1
    | some u =>
      let n := ((s1.errors.find? fun e => decide (e.1 = u)).map (·.2)).getD 0 + 1
      let s2 := { s1 with errors := (s1.errors.filter fun (e : RetUnit × Nat) => decide (e.1 ≠ u)) ++ [(u, n)] }
      set (if 3 ≤ n then s2.retireUnit u else s2)) s

/-- CORRECTABLE_ERROR (R450). -/
def execCorrectableError (unit : ErrUnit) (s : State) : Host.Outcome State Fault Refusal :=
  runEvent (do
    let s ← get
    due (decide (s.phase ≠ .off))
    set (s.addLog 1 (s.errKind unit).1 (s.errKind unit).2 0 0)) s

end Sys2Proof.Machine
end

