-- ==== Sys2Proof/Machine/Launch.lean ====
section
/-! DEFINITION. Launch: gang launch records: their validity, `glaunch`, the scheduler, the start of a record's cores and
its end (R113 to R118, R423 to R429, R468). -/

namespace Sys2Proof.Machine

/-! The record (R113, R114). -/

/-- A pointer field that is null: `LEVEL` 7, or no pointer at all. -/
def noPtr (p : Word) : Bool := decide (p = 0) || decide (ptrLevel p = 7)

/-- The fields of a 128-byte record. -/
def parseLaunch (raw : List Byte) : Launch :=
  let w := fun (off : Nat) => BitVec.ofNat 64 (fieldAt raw off 8)
  let opt := fun (off : Nat) => if noPtr (w off) then nullPtr else w off
  { code := w 0, entry := fieldAt raw 0x08 4, base := w 0x10, count := fieldAt raw 0x18 8, cores := fieldAt raw 0x20 2
    groups := fieldAt raw 0x22 1, domain := fieldAt raw 0x23 1 % 8, prio := fieldAt raw 0x24 1 % 8
    vf := fieldAt raw 0x26 2, steps := fieldAt raw 0x28 4, asid := fieldAt raw 0x2C 2, lsdrecs := fieldAt raw 0x2E 2
    parts := (List.range 8).map fun i => fieldAt raw (0x30 + 2 * i) 2
    wait := ((List.range 4).map fun i => w (0x40 + 8 * i)).filter fun p => !noPtr p
    signal := opt 0x60, seed := w 0x68, arg := opt 0x70 }

/-- The enabled sites of a partition, or its channel cores in number order, in the order in which records take them
(R115, R170, R431). -/
def State.ridge (s : State) (part : Nat) (chan : Bool) : List Nat :=
  if chan then ((List.range 256).map (· + chanBase)).filter fun x => !s.fused.contains x
  else
    let p : Partition := lookup {} part s.partitions
    ((List.range p.len).map (· + p.base)).filter fun x => !s.fused.contains x

/-- Cores that a record may take at most: the enabled cores of its partition; without a queue, those of the package. -/
def State.coreLimit (s : State) (q : Option Nat) : Nat :=
  match q with
  | some q =>
    let x : Queue := lookup {} q s.queues
    if x.chan then Nat.min (s.ridge x.part true).length (s.ridge x.part false).length else (s.ridge x.part false).length
  | none => ((List.range chanBase).filter fun x => !s.fused.contains x).length

/-- The heap object that a pointer field names, with its header page translated for a party; a refused page names none. -/
def fieldObject (o : Owner) (asid : Nat) (p : Word) : Op (Option Hdr) := do
  if ptrLevel p ≠ 0 || ptrLoc p % 32 ≠ 0 then return none
  match ← attempt 1 (do let _ ← translateFor o asid (ptrLoc p) false p) with
  | some _ => return none
  | none =>
    let h := (← get).hdr (.heap asid (ptrLoc p))
    return if heapHeaderOk p h then some h else none

def barrierField (o : Owner) (asid : Nat) (p : Word) : Op Bool := do
  if noPtr p then return true
  match ← fieldObject o asid p with
  | some h => return barrierOk h
  | none => return false

/-- The offset of the first field that fails. -/
def firstBad : List (Nat × Op Bool) → Op (Option Nat)
  | [] => return none
  | (off, f) :: t => do if ← f then firstBad t else return some off

/-- The checks of R114, field by field in ascending offset: the offset of the first offending field, if any. -/
def checkLaunch (o : Owner) (asid vf limit : Nat) (raw : List Byte) : Op (Option Nat) := do
  let l := parseLaunch raw
  let s ← get
  let codeLen : Op Nat := return (((← fieldObject o asid l.code).map fun h => if h.typ = tCODE then h.len else 0)).getD 0
  let is := fun (b : Bool) => (pure b : Op Bool)
  let waits := (List.range 4).map fun i => (0x40, barrierField o asid (BitVec.ofNat 64 (fieldAt raw (0x40 + 8 * i) 8)))
  firstBad ([
    (0x00, do match ← fieldObject o asid l.code with
      | some h => return decide (h.typ = tCODE) && decide (h.len ≤ 16777216)
      | none => return false),
    (0x08, do return decide (l.entry % 4 = 0) && decide (l.entry < (← codeLen))),
    (0x0C, is (decide (fieldAt raw 0x0C 4 = 0))),
    (0x18, is (decide (l.count ≤ 2 ^ 48))),
    (0x20, is (decide (1 ≤ l.cores) && decide (l.cores ≤ 7936) && decide (l.cores * l.groups ≤ limit))),
    (0x22, is (decide (1 ≤ l.groups) && decide (l.groups ≤ 16))),
    (0x23, is (decide (fieldAt raw 0x23 1 / 8 = 0) && decide (l.domain ≤ 4)
      && (decide (l.domain < 4) || s.accepted vf 7))),
    (0x24, is (decide (fieldAt raw 0x24 1 / 8 = 0))),
    (0x25, is (decide (fieldAt raw 0x25 1 = 0))),
    (0x30, is (decide (l.parts.sum = 65536)))]
    ++ waits ++ [
    (0x60, barrierField o asid (BitVec.ofNat 64 (fieldAt raw 0x60 8))),
    (0x70, is (noPtr (BitVec.ofNat 64 (fieldAt raw 0x70 8)) || (decide (ptrLevel l.arg = 0) && decide (ptrLoc l.arg % 32 = 0)))),
    (0x78, is (decide (fieldAt raw 0x78 4 = 0))),
    (0x7C, is (decide (fieldAt raw 0x7C 4 = 0)))])

/-- A record that the device takes for a queue: the queue's own ASID and VF, and a priority of at most the queue's
(R118, R424). -/
def newRecord (s : State) (l : Launch) (q : Nat) (host : Bool) (index : Nat) : Rec :=
  let x : Queue := lookup {} q s.queues
  let l := { l with asid := x.asid, vf := x.vf, prio := Nat.min l.prio x.prio }
  { l := l, queue := some q, fromHost := host, index := index, chan := x.chan, part := x.part
    waitPhases := l.wait.map fun p => s.barPhase (.heap x.asid (ptrLoc p)), queuedAt := s.cycle.toNat }

def State.addRecord (s : State) (r : Rec) : State := { s.setRec s.nextRec r with nextRec := s.nextRec + 1 }

/-- The wait objects of a record whose pages take the count in WAITERS: not those that the host refuses for writing. -/
def countable (o : Owner) (asid : Nat) : List Word → Op (List Word)
  | [] => return []
  | p :: t => do
    let refused ← attempt 1 (do
      let _ ← translateFor o asid (ptrLoc p) false p
      for a in pageStarts (ptrLoc p + 32) 64 do
        let _ ← translateFor o asid a true p)
    let rest ← countable o asid t
    return if refused.isSome then rest else p :: rest

/-- A valid record is queued: it counts in WAITERS of its wait objects until it becomes eligible (R205, R210). -/
def State.queueRecord (s : State) (r : Rec) (ws : List Word) : State :=
  ws.foldl (fun (t : State) p => t.barWaitersUp (.heap r.l.asid (ptrLoc p))) (s.addRecord { r with counted := ws })

/-- A queued record has become eligible, or leaves its queue: WAITERS counts it no longer. -/
def State.uncount (s : State) (rid : Nat) : State :=
  let r := s.recAt rid
  (r.counted.foldl (fun (t : State) p => t.barWaitersDown (.heap r.l.asid (ptrLoc p))) s).setRec rid { r with counted := [] }

/-- Each pointer field that names a pad copy is replaced by its `LINK` (R114). -/
def linkFields (raw : List Byte) : List Nat → Op (List Byte)
  | [] => return raw
  | off :: t => do
    let p := BitVec.ofNat 64 (fieldAt raw off 8)
    if 1 ≤ ptrLevel p && ptrLevel p ≤ 3 then
      let s ← get
      match s.tableRecId.bind fun rid => (padKeyOf (s.recAt rid) s.site p).filter fun k => s.headerAt rid k && (s.mem.hdr k).padcopy with
      | some k => linkFields (raw.take off ++ leBytes (s.mem.hdr k).link.toNat 8 ++ raw.drop (off + 8)) t
      | none => linkFields raw t
    else linkFields raw t

/-- Records of a queue's device launch queue that have not been dispatched (R468). -/
def State.deviceRecs (s : State) (q : Nat) : List (Nat × Rec) :=
  s.recs.filter fun e => decide (e.2.queue = some q) && !e.2.fromHost && decide (e.2.st = .waiting)

/-- `glaunch` (R118). A record that was itself launched by `glaunch` was not taken from a host queue. -/
def execGlaunch (d : BitVec 5) (a : BitVec 4) (s : State) : Host.Outcome State Fault Refusal :=
  runInstr (.glaunch d a) (do
    notInMiss
    let off := (← rdA a.toNat).cur.toNat
    let l ← touchBody a.toNat off
    let h := (← get).hdr l
    require (decide (h.typ = tDATA)) .type (BitVec.ofNat 64 off)
    require (decide (off % 128 = 0)) .misalign (BitVec.ofNat 64 off)
    boundsCheck off 128 h.len
    awaitReds l off 128
    require (!(← get).bodyPoisoned l off 128) .poison (BitVec.ofNat 64 off)
    let s ← get
    let r := s.ownRec
    let raw ← linkFields (s.bodyBytes l off 128) [0x00, 0x40, 0x48, 0x50, 0x58, 0x60, 0x70]
    match ← checkLaunch (.ctx s.site s.core.act) r.l.asid r.l.vf (s.coreLimit r.queue) raw with
    | some bad => illegal (BitVec.ofNat 64 bad)
    | none =>
      let ws ← countable (.ctx s.site s.core.act) r.l.asid (parseLaunch raw).wait
      releaseAll 4
      let s ← get
      match if r.fromHost then r.queue else none with
      | none => wrS d 0
      | some q =>
        if (s.deviceRecs q).length ≥ 64 then wrS d 0
        else
          set (s.queueRecord (newRecord s (parseLaunch raw) q false 0) ws)
          wrS d 1) s

/-! Fetching (R424). -/

/-- Runs an effect of the device itself: done, waiting for a page, or refused. -/
def deviceRun (f : Op Unit) : Op Ran := tryRun f

/-- Fetches the next record of a queue: what it made, or that it waits for a page. -/
def fetchOne (q : Nat) : Op Ran := do
  let x : Queue := lookup {} q (← get).queues
  let va := x.ring + 128 * (x.head.toNat % x.entries)
  let take := fun (r : Rec) (ws : List Word) => modify fun s => ({ s with
    queues := store q { x with head := x.head + 1 } s.queues } : State).queueRecord r ws
  match ← tryRun (do let _ ← translateFor .device x.asid va false 0) with
  | .parked => return .parked
  | .stopped _ =>
    take { newRecord (← get) {} q true x.head.toNat with st := .ended, status := some 1 } []
    return .done
  | .done =>
    let s ← get
    let raw := s.heapBytes x.asid va 128
    let done := (do
      match ← checkLaunch .device x.asid x.vf (s.coreLimit (some q)) raw with
      | some bad => take { newRecord s (parseLaunch raw) q true x.head.toNat with st := .ended, status := some 1, field := bad } []
      | none =>
        let ws ← countable .device x.asid (parseLaunch raw).wait
        take (newRecord (← get) (parseLaunch raw) q true x.head.toNat) ws : Op Unit)
    tryRun done

/-- Fetches up to n records. -/
def fetchSome (q : Nat) : Nat → Op Unit
  | 0 => pure ()
  | n + 1 => do
    let x : Queue := lookup {} q (← get).queues
    if x.enabled && decide (x.head ≠ x.tail) then
      match ← fetchOne q with
      | .done => fetchSome q n
      | _ => pure ()

/-- The device fetches what a queue has available. -/
def fetchQueue (q : Nat) : Op Unit := do
  let x : Queue := lookup {} q (← get).queues
  fetchSome q (x.tail - x.head).toNat

/-! Eligibility and fit (R115, R429). -/

/-- Every wait object has completed the phase that was current when the record was queued (R115). -/
def State.waitsDone (s : State) (r : Rec) : Bool :=
  (r.l.wait.zip r.waitPhases).all fun e =>
    (find (pageKey r.l.asid (ptrLoc e.1 / 4096)) s.ptes).isSome
      && (find (pageKey r.l.asid ((ptrLoc e.1 + 32) / 4096)) s.ptes).isSome
      && s.barDone (.heap r.l.asid (ptrLoc e.1)) e.2

/-- The head records of a queue, that of the device launch queue first (R468). A record of the ring is no head while an
earlier one that has failed has not completed (R424). -/
def State.headsOf (s : State) (q : Nat) : List Nat :=
  let mine := s.recs.filter fun e => decide (e.2.queue = some q)
  let waits := fun (e : Nat × Rec) => decide (e.2.st = .waiting)
  let ring := mine.filter fun e => e.2.fromHost && (waits e || (!e.2.closed && decide (e.2.place = [])))
  (((mine.filter fun e => !e.2.fromHost && waits e).take 1) ++ (ring.take 1).filter waits).map (·.1)

/-- Asks for the pages of the wait objects of a record. -/
def askWaits (r : Rec) : Op Unit := do
  for p in r.l.wait do
    let _ ← tryRun (do let _ ← translateFor .device r.l.asid (ptrLoc p) false 0)
    let _ ← tryRun (do let _ ← translateFor .device r.l.asid (ptrLoc p + 32) false 0)

/-- Asks for the pages of the wait objects of the queued records of a queue that are not yet eligible. -/
def askQueued (q : Nat) : Op Unit := do
  for e in (← get).recs do
    if e.2.queue = some q && e.2.st = .waiting && e.2.eligibleAt.isNone then askWaits e.2

/-- A queued record whose wait objects are done becomes eligible, whatever its place in its queue: `WAITERS` counts it no longer,
and its wait begins (R115, R210, R429). -/
def State.noteEligibleAt (s : State) (rid : Nat) : State :=
  let r := s.recAt rid
  if r.st = .waiting && r.eligibleAt.isNone && s.waitsDone r then
    let t := s.uncount rid
    t.setRec rid { t.recAt rid with eligibleAt := some s.cycle.toNat }
  else s

/-- Every queued record that has become eligible. -/
def State.noteEligible (s : State) : State := s.recs.foldl (fun (t : State) e => t.noteEligibleAt e.1) s

/-- The first n sites of a list, with those before them kept, all of which are good: the lowest such interval. -/
def firstRun (n : Nat) (good : Nat → Bool) : List Nat → List Nat → Option (List Nat)
  | acc, l =>
    if acc.length = n then some acc.reverse
    else match l with
      | [] => none
      | x :: t => if good x then firstRun n good (x :: acc) t else firstRun n good [] t

/-- Where a record fits (R429): its window when it holds the reservation, else the lowest free interval outside the
windows of other records. -/
def State.fitSites (s : State) (rid : Nat) : Option (List Nat) :=
  let r := s.recAt rid
  match s.resvs.find? fun e => decide (e.2.rid = rid) with
  | some e => if e.2.sites.all s.freeSite then some e.2.sites else none
  | none =>
    let held := s.reservedFrom rid
    firstRun (r.l.cores * r.l.groups) (fun x => s.freeSite x && !held.contains x) [] (s.ridge r.part r.chan)

/-! The choice (R427). -/

/-- A queue's effective priority. -/
def Queue.effective (x : Queue) : Nat := Nat.min 7 (x.prio + x.passed / 64)

/-- A record that takes part: its queue, number and sites. -/
structure Cand where
  q : Nat
  rid : Nat
  sites : List Nat
  deriving DecidableEq, Repr

/-- What a queue puts up: its first eligible head that fits, one that holds the reservation before the other (R429). Nothing
starts that a deadline forbids (R433). -/
def State.candOf (s : State) (q : Nat) : Option Cand :=
  let holds := fun (rid : Nat) => s.resvs.any fun e => decide (e.2.rid = rid)
  let heads := s.headsOf q
  (heads.filter holds ++ heads.filter fun rid => !holds rid).findSome? fun rid =>
    let r := s.recAt rid
    if r.eligibleAt.isSome && !s.barred r.l.vf r.part then (s.fitSites rid).map fun l => { q := q, rid := rid, sites := l } else none

/-- Enabled queues of a partition. -/
def State.partQueues (s : State) (part : Nat) : List (Nat × Queue) :=
  s.queues.filter fun e => decide (e.2.part = part) && e.2.enabled

/-- Core-cycles served to an ASID, those of its running records included. -/
def State.servedTo (s : State) (asid : Nat) : Nat :=
  (lookup {} asid s.asids : AsidSt).served
    + ((s.recs.filter fun e => decide (e.2.l.asid = asid) && decide (e.2.st = .running) && !e.2.boot).map fun e =>
        e.2.place.length * (s.cycle.toNat - e.2.ranFrom)).sum

/-- An ASID's weight, 1 to 255. -/
def weightOf (asid : Nat) : Nat := Nat.max 1 (Nat.min 255 (Config.asidWeight asid))

/-- ASID x comes before ASID y at level 2. -/
def State.before (s : State) (x y : Nat) : Bool :=
  let a := s.servedTo x * weightOf y
  let b := s.servedTo y * weightOf x
  decide (a < b) || (decide (a = b) && decide (x < y))

/-- Candidate c comes before candidate d within a VF (R427, R429). -/
def State.candBefore (s : State) (c d : Cand) : Bool :=
  let holds := fun (x : Cand) => s.resvs.any fun e => decide (e.2.rid = x.rid)
  let a := (lookup {} c.q s.queues : Queue)
  let b := (lookup {} d.q s.queues : Queue)
  if holds c != holds d then holds c
  else if a.asid ≠ b.asid then s.before a.asid b.asid
  else decide (b.effective < a.effective) || (decide (a.effective = b.effective) && decide (c.q < d.q))

/-- The first of a list in an order. -/
def bestOf {α : Type} (before : α → α → Bool) : List α → Option α
  | [] => none
  | x :: t => match bestOf before t with
    | some y => if before y x then some y else some x
    | none => some x

/-- The VFs with queues in a partition, from one on in ascending order and round. -/
def vfOrder (first : Nat) (vfs : List Nat) : List Nat :=
  let l := vfs.foldl (fun l v => insertKey v l) []
  l.filter (fun v => decide (first ≤ v)) ++ l.filter fun v => decide (v < first)

/-- The record that a partition dispatches next (R427): within the VF of the slice, or of the next VF whose head fits. -/
def State.chosen (s : State) (part : Nat) : Option Cand :=
  let qs := s.partQueues part
  let first := ((find part s.slices).map (·.vf)).getD 0
  (vfOrder first (qs.map fun e => e.2.vf)).findSome? fun v =>
    bestOf s.candBefore ((qs.filter fun e => decide (e.2.vf = v)).filterMap fun e => s.candOf e.1)

/-! Starting a record (R115 to R117, R155). -/

/-- The dies that hold cores of a record, rising. -/
def diesOf (place : List Nat) : List Nat := place.foldl (fun l x => insertKey (dieOf x) l) []

/-- The index range of a die (R116): with the ranges of the following dies that hold no core, and of those before the
lowest. -/
def dieRange (l : Launch) (dies : List Nat) (d : Nat) : Nat × Nat :=
  let F := fun (i : Nat) => l.count * (l.parts.take i).sum / 65536
  let lo := if dies.headD 0 = d then 0 else d
  let hi := ((dies.filter fun e => decide (d < e)).headD 8)
  (F lo, F hi)

/-- First index and number of indices of a core (R116). -/
def coreShare (l : Launch) (place : List Nat) (lc : Nat) : Word × Nat :=
  let site := place.getD lc 0
  let d := dieOf site
  let (a, b) := dieRange l (diesOf place) d
  let m := (place.filter fun x => dieOf x = d).length
  let j := ((place.take lc).filter fun x => dieOf x = d).length
  let lo := (b - a) * j / m
  let hi := (b - a) * (j + 1) / m
  (l.base + BitVec.ofNat 64 (a + lo), hi - lo)

/-- The area of a record in a cluster pad or die pad (R155): `unit` bytes and `entries` directory entries for each of its
n cores, from the place of the first of them on. -/
def areaAt (level num key unit entries slots first n : Nat) : Area :=
  let slot := if Config.areaMirror level num then slots - first - n else first
  { base := key + unit * slot, size := unit * n, dirCap := entries * n }

def clusterArea (place : List Nat) (cl : Nat) : Area :=
  let mine := place.filter fun x => clusterOf x = cl
  let first := mine.headD 0
  let rank := ((List.range 1024).filter fun i =>
    let x := first / 1024 * 1024 + i
    decide (clusterOf x = cl) && decide (x < first)).length
  areaAt 2 cl (clusterPadKey cl) 524288 1024 8 rank mine.length

def dieArea (place : List Nat) (d : Nat) : Area :=
  let mine := place.filter fun x => dieOf x = d
  areaAt 1 d (diePadKey d) 196608 64 1024 (mine.headD 0 % 1024) mine.length

/-- The control context of a core at its start (R117). -/
def startContext (r : Rec) (lc : Nat) (stack : Word) : Context :=
  let l := r.l
  let share := coreShare l r.place lc
  let s0 : Vector Word 32 := Vector.replicate 32 0
  { st := .ready, pc := BitVec.ofNat 64 l.entry
    s := ((((s0.setIfInBounds 2 share.1).setIfInBounds 3 (BitVec.ofNat 64 share.2)).setIfInBounds 4
      (BitVec.ofNat 64 (lc / l.cores))).setIfInBounds 5 (BitVec.ofNat 64 (lc % l.cores))).setIfInBounds 6 (BitVec.ofNat 64 l.cores)
    a := ((Vector.replicate 16 {}).setIfInBounds 0 { ptr := l.arg }).setIfInBounds 15 { ptr := stack }
    level := BitVec.ofNat 3 l.domain, jobseed := l.seed, codeptr := l.code, lcore := BitVec.ofNat 13 lc
    ctxtag := BitVec.ofNat 16 r.ctxtag, priv := r.boot }

/-- Bytes of the stack object (R117). -/
def stackLen : Nat := 8192

/-- A core of a record starts: an empty core pad with its stack object (R117, R406). -/
def State.startCore (s : State) (rid lc : Nat) : State :=
  let r := s.recAt rid
  let site := r.place.getD lc 0
  let base := corePadKey site
  let s1 := s.clearPad base padTop
  let area : Area := { base := base, size := padTop, dirCap := 1024 }
  let (a1, key) := area.bumpAlloc (32 + stackLen)
  let h : Hdr := { w0 := BitVec.ofNat 64 (stackLen + 2 ^ 57) }
  let s2 := ({ s1 with mem := s1.mem.setHdr key h }).markUnits key 32
  let c := (s2.coreAt site).bare
  let s3 := s2.setCore site { c.setCtx 0 (startContext r lc (mkPtr 0 3 (lc * 2 ^ 40))) with
    recId := some rid, pad := a1, dt := Vector.ofFn fun (i : Fin 4) => shippedTable i.val }
  s3.setRec rid { r with stackObjs := r.stackObjs ++ [key] }

/-- Logical modules of a load-store domain: 8 × 8 × 16 (R27). -/
def domainModules : Nat := 1024

/-- The scheduler fills the route table before the first record starts: one entry for each logical module of the load-store
domain, with the reserved bits zero (R120; log entry 102). -/
def State.fillRoutes (s : State) : State :=
  if s.routes = [] then { s with routes := (List.range domainModules).map fun m => (m, setBits (Config.routeEntry m) 38 25 0) }
  else s

/-- A record starts on its sites: all of its cores at once (R21, R115). Its code and its CTXBUF objects have been
prepared. -/
def State.startRecord (s : State) (rid : Nat) (sites : List Nat) : State :=
  let r := s.recAt rid
  let cls := if r.chan then [] else sites.foldl (fun l x => insertKey (clusterOf x) l) []
  let dies := if r.chan then [] else diesOf sites
  let r1 := { r with
    st := .running, place := sites, ctxtag := Config.freeNat s.free % 65536
    careas := cls.map fun c => (c, clusterArea sites c), dareas := dies.map fun d => (d, dieArea sites d)
    startedAt := s.cycle.toNat, ranFrom := s.cycle.toNat, lastStep := s.cycle.toNat }
  let s := s.fillRoutes
  let s1 := { s.setRec rid r1 with free := s.free + 1, resvs := s.resvs.filter fun e => decide (e.2.rid ≠ rid) }
  let s2 := r1.areaKeys.foldl (fun (t : State) a => t.clearPad a.1 a.2) s1
  let s3 := (List.range sites.length).foldl (fun (t : State) lc => t.startCore rid lc) s2
  let src := Loc.heap r.l.asid (ptrLoc r.l.code)
  s3.setRec rid { s3.recAt rid with text := s3.bodyBytes src 0 (s3.hdr src).len }

/-- The CTXBUF objects of a record's logical cores (R351), from the ASID's heap; without room there are none. -/
def State.makeCtxbufs (s : State) (rid : Nat) (slots : Nat) : State :=
  let r := s.recAt rid
  (List.range (r.l.cores * r.l.groups)).foldl (fun (t : State) lc =>
    match t.heapAlloc r.l.asid (footprint 0 0 (64 + 64 * slots)) with
    | some (t1, va) => t1.setRec rid { t1.recAt rid with ctxbufs := store lc (mkPtr 0 0 va) (t1.recAt rid).ctxbufs }
    | none => t) s

/-- Writes an empty CTXBUF. -/
def State.initCtxbuf (s : State) (asid lc va slots : Nat) : State :=
  let n := 64 + 64 * slots
  let s1 := s.putHeap asid va (List.replicate (32 + n) 0)
  let s2 := s1.setHdr (.heap asid va) { w0 := BitVec.ofNat 64 (n + tCTXBUF * 2 ^ 40 + 2 ^ 56) }
  s2.setFieldAt (.heap asid va) 0x10 8 lc

/-- What a record needs before it starts: its CTXBUF objects, and the pages of those and of its code. A CTXBUF whose pages
the host refuses is not made. -/
def prepare (rid : Nat) : Op Unit := do
  let r := (← get).recAt rid
  let s ← get
  let slots := ((r.queue.bind fun q => find q s.queues).map (·.ctxSlots)).getD 0
  if r.ctxbufs.isEmpty && 0 < slots then modify fun s => s.makeCtxbufs rid slots
  let asid := r.l.asid
  let va := ptrLoc r.l.code
  let _ ← translateFor .device asid va false r.l.code
  let n := 32 + ((← get).hdr (.heap asid va)).span
  for a in pageStarts va n do
    let _ ← translateFor .device asid a false r.l.code
  for b in ((← get).recAt rid).ctxbufs do
    let refused ← attempt 1 (do
      for a in pageStarts (ptrLoc b.2) (footprint 0 0 (64 + 64 * slots)) do
        let _ ← translateFor .device asid a true r.l.code)
    if refused.isSome then modRec rid fun (x : Rec) => { x with ctxbufs := erase b.1 x.ctxbufs }
  modify fun s => (s.recAt rid).ctxbufs.foldl (fun (t : State) b => t.initCtxbuf asid b.1 (ptrLoc b.2) slots) s

/-- The counts k of R427 after a dispatch from a queue, in its ASID. -/
def State.countPassed (s : State) (q : Nat) : State :=
  let me : Queue := lookup {} q s.queues
  { s with queues := s.queues.map fun e =>
      if e.1 = q then (e.1, { e.2 with passed := 0 })
      else if e.2.asid = me.asid ∧ (s.headsOf e.1).any (fun r => (s.recAt r).eligibleAt.isSome) then
        (e.1, { e.2 with passed := e.2.passed + 1 })
      else e }

/-- RECORD_DISPATCH (R115, R424, R427, R428): the device fetches what the queue has available, and dispatches its head when
the scheduler's choice falls on it. -/
def dispatchBody (q : Nat) : Op Unit := do
  let x ← dueSome (find q (← get).queues)
  due (decide ((← get).phase = .ready))
  fetchQueue q
  modify State.fenceIdle
  for e in (← get).partQueues x.part do
    askQueued e.1
  modify State.noteEligible
  match (← get).chosen x.part with
  | none => pure ()
  | some c =>
    if c.q = q && (← get).mayLoad x.part x.vf then
      match ← tryRun (prepare c.rid) with
      | .parked => pure ()
      | .stopped code =>
        modRec c.rid fun r => { r with st := .ended, endFault := some (code, r.l.code), status := some 2 }
      | .done =>
        let s := (← get).startRecord c.rid c.sites
        let s1 := s.countPassed q
        set (if (find x.part s1.slices).isSome then s1
          else { s1 with slices := store x.part { vf := x.vf, start := s1.cycle.toNat } s1.slices })

def execRecordDispatch (q : Nat) (s : State) : Host.Outcome State Fault Refusal := runEvent (dispatchBody q) s

/-- Cycles of 1 ms. -/
def reserveCycles : Nat := 700000

/-- The busy sites of an interval. -/
def State.busyIn (s : State) (l : List Nat) : Nat := (l.filter fun x => !s.freeSite x).length

/-- The intervals of n sites of a list. -/
def windows (n : Nat) (l : List Nat) : List (List Nat) :=
  (List.range (l.length + 1 - n)).map fun i => (l.drop i).take n

/-- RESERVATION (R429): the head record of a partition that has waited longest, for 1 ms, takes the reservation. -/
def execReservation (part : Nat) (s : State) : Host.Outcome State Fault Refusal :=
  runEvent (do
    let s ← get
    due ((find part s.resvs).isNone)
    let heads := ((s.partQueues part).map fun e => s.headsOf e.1).flatten
    let late := heads.filterMap fun rid => match (s.recAt rid).eligibleAt with
      | some t => if t + reserveCycles ≤ s.cycle.toNat then some (rid, t) else none
      | none => none
    let w ← dueSome (bestOf (fun (a b : Nat × Nat) => decide (a.2 < b.2) || (decide (a.2 = b.2) && decide (a.1 < b.1))) late)
    let r := s.recAt w.1
    let window ← dueSome (bestOf (fun a b => decide (s.busyIn a < s.busyIn b)) (windows (r.l.cores * r.l.groups) (s.ridge part r.chan)))
    set { s with resvs := store part { rid := w.1, sites := window } s.resvs }) s

/-- A slice in cycles: 10 µs to 100 ms (R427). -/
def sliceCycles (vf : Nat) : Nat := Nat.max 7000 (Nat.min 70000000 (Config.sliceLength vf))

/-- A VF has a record in a partition that could run in its slice: one that may come back, or an eligible head (R427). -/
def State.hasWork (s : State) (part vf : Nat) : Bool :=
  (s.recs.any fun e => decide (e.2.part = part) && decide (e.2.l.vf = vf) && decide (e.2.st = .switched) && s.canReturn e.2)
    || !s.barred vf part && (s.partQueues part).any fun e => decide (e.2.vf = vf) && (s.headsOf e.1).any fun r => (s.recAt r).eligibleAt.isSome

/-- SLICE_END (R427, R428): the slice passes to the next VF in ascending order with an eligible record, and the outgoing
VF's resident pre-emptible records are to be switched out. -/
def execSliceEnd (vf : Nat) (s : State) : Host.Outcome State Fault Refusal :=
  runEvent (do
    let s ← get
    let e ← dueSome (s.slices.find? fun e => decide (e.2.vf = vf))
    let part := e.1
    let now := s.cycle.toNat
    let mine := fun (r : Rec) => decide (r.part = part) && decide (r.l.vf = vf) && decide (r.st = .running)
    let idle := !s.hasWork part vf && !(s.recs.any fun r => mine r.2)
    due (idle || decide (e.2.start + sliceCycles vf ≤ now))
    let vfs := (s.queues.filter fun q => decide (q.2.part = part)).map fun q => q.2.vf
    match (vfOrder (vf + 1) vfs).find? fun v => s.hasWork part v with
    | none =>
      set (if idle then { s with slices := erase part s.slices } else { s with slices := store part { vf := vf, start := now } s.slices })
    | some v =>
      let asked := if v = vf then s else
        { s with recs := s.recs.map fun r =>
            if mine r.2 && s.preemptible r.2 && r.2.switchAsked.isNone then (r.1, { r.2 with switchAsked := some now }) else r }
      set { asked with slices := store part { vf := v, start := now } asked.slices }) s

/-! The end of a record (R115, R425). -/

/-- The keys of the pad copies of the heap objects of a record with dirty bytes, by canonical pointer, rising: within one
object the core-pad copies first, then those of the clusters, then those of the dies. -/
def State.endCopies (s : State) (rid : Nat) : List (Nat × List Nat) :=
  let r := s.recAt rid
  let pads := (r.place.filter fun x => decide ((s.coreAt x).recId = some rid)).map fun x => (s.coreAt x).pad
  let all := ((pads ++ r.careas.map (·.2) ++ r.dareas.map (·.2)).map (·.dir)).flatten
  (all.filter fun e => ptrLevel (BitVec.ofNat 64 e.1) = 0 && carriedType (s.mem.hdr e.2)
      && !(takeRange (e.2 + 32) (s.mem.hdr e.2).span s.dirty).isEmpty).foldl
    (fun l e => store e.1 ((lookup [] e.1 l) ++ [e.2]) l) []

/-- The copies that lie between a copy and the heap, for the core or cluster that it belongs to. -/
def widerCopies (copies : List Nat) (c : Nat) : List Nat :=
  copies.filter fun d => decide (keyLevel d < keyLevel c)
    && (let site := if keyLevel c = 3 then (c - 2 ^ 60) / 2 ^ 18 else 0
        let cl := if keyLevel c = 3 then clusterOf site else (c - 2 ^ 61) / 2 ^ 22
        if keyLevel d = 2 then (d - 2 ^ 61) / 2 ^ 22 = cl else (d - 2 ^ 62) / 2 ^ 28 = cl / 128)

/-- Writes the dirty bytes of copies of one object to the heap at the end of a record: bytes bound for a page that the host
refuses are lost, and the record notes the first such object (R115, R425); bytes bound for a dead link are lost (R151). A
poisoned object takes no byte. It answers whether the object's page takes writes. -/
def endCarry (rid canon : Nat) (copies : List Nat) : Op Bool := do
  let s ← get
  let asid := (s.recAt rid).l.asid
  let p := BitVec.ofNat 64 canon
  let va := ptrLoc p
  let dst := Loc.heap asid va
  let lost : Op Unit := modRec rid fun r => { r with endFault := match r.endFault with
    | some f => some f
    | none => some (Cause.translate.code, p) }
  match ← attempt 1 (do let _ ← translateFor .device asid va true p) with
  | some _ =>
    lost
    modify fun s => copies.foldl (fun t c => t.markClean (c + 32) (t.mem.hdr c).span) s
    return false
  | none =>
    for c in copies do
      let s ← get
      let n := (s.mem.hdr c).span
      let pages := ((s.carriedKeys c n dst).map fun k => (va + 32 + (k - (c + 32))) / 4096).dedup
      for pg in pages do
        match ← attempt 1 (do let _ ← translateFor .device asid (pg * 4096) true p) with
        | some _ =>
          lost
          modify fun s => { s with dirty := s.dirty.filter fun k =>
            !(within (c + 32) n k && decide ((va + 32 + (k - (c + 32))) / 4096 = pg)) }
        | none => pure ()
    let s ← get
    let free := !((s.hdr dst).poison || s.bodyPoisoned dst 0 (s.hdr dst).span)
    for c in copies do
      let s ← get
      let n := (s.mem.hdr c).span
      if free then
        set ((widerCopies copies c).foldl (fun (t : State) d => t.carry c n (.pad d)) s)
        modify fun s => s.carryBytes c (s.reachKeys c n dst) dst
      modify fun s => s.markClean (c + 32) n
    return true

/-- Releases one object at the end of its record, and its VERSION advances (R115, R151). -/
def endObject (rid canon : Nat) (copies : List Nat) (scope : Nat) : Op Unit := do
  if ← endCarry rid canon copies then
    let s ← get
    let asid := (s.recAt rid).l.asid
    let va := ptrLoc (BitVec.ofNat 64 canon)
    let dst := Loc.heap asid va
    let h := s.hdr dst
    if !s.acrossDead asid va 32 then
      set (s.setHdr dst { h with w1 := BitVec.ofNat 64 ((h.version + 1) % 2 ^ 32 + scope % 8 * 2 ^ 32) })

/-- The copies that the acquired sets of a record's contexts name, each with its object, in the order of the cores and
contexts and oldest entry first (R184). -/
def State.endAcquired (s : State) (rid : Nat) : List (Nat × Nat) :=
  let r := s.recAt rid
  ((r.place.filter fun x => decide ((s.coreAt x).recId = some rid)).map fun x =>
    ((List.range 11).map fun i => ((s.coreAt x).ctxAt i).acquired.filterMap fun e =>
      let area := if e.level = 3 then some (s.coreAt x).pad else if e.level = 2 then r.carea e.place else r.darea e.place
      if ptrLevel e.obj ≠ 0 then none
      else ((area.bind fun a => a.copyOf e.obj).filter fun k => carriedType (s.mem.hdr k)).map fun k => (e.obj.toNat, k)).flatten).flatten

/-- The release at the end of a record (R115, R467): the cumulative push of R184, then its objects in ascending
canonical-pointer order. -/
def endRelease (rid : Nat) : Op Unit := do
  let scope := if ((← get).recAt rid).fromHost then 5 else 4
  for e in (← get).endAcquired rid do
    let _ ← endCarry rid e.1 [e.2]
  for e in (← get).endCopies rid do
    endObject rid e.1 e.2 scope

/-- Accesses of a record's cores, or to its pads, that have not yet been performed. -/
def State.recordBusy (s : State) (rid : Nat) : Bool :=
  let r := s.recAt rid
  (s.net.any fun f => decide (f.srcRec = rid) && f.put)
    || r.place.any fun x => decide ((s.coreAt x).recId = some rid) && s.padBusy x rid

/-- The cores and areas of a record return to the device, and what it was served is counted (R427). -/
def State.freeCores (s : State) (rid : Nat) : State :=
  let r := s.recAt rid
  let sites := r.place.filter fun x => decide ((s.coreAt x).recId = some rid)
  let s1 := sites.foldl (fun (t : State) x => (t.setCore x (t.coreAt x).bare).clearPad (corePadKey x) padTop) s
  let s2 := r.areaKeys.foldl (fun (t : State) a => t.clearPad a.1 a.2) s1
  let bufs := r.ctxbufs.map fun b => ptrLoc b.2
  let s2 := s2.countServed rid
  let x : AsidSt := lookup {} r.l.asid s2.asids
  let s3 := { s2 with asids := store r.l.asid { x with objs := x.objs.filter fun v => !bufs.contains v } s2.asids }
  s3.setRec rid { s3.recAt rid with
    st := .ended, closed := true, careas := [], dareas := [], evsets := [], arrivals := [], ctxbufs := [], stackObjs := []
    images := [], vacated := [] }

/-- A completion entry (R425). -/
def completionWords (x : Queue) (index status field cause : Nat) (value : Word) : List Byte :=
  let lap := x.chead.toNat / x.entries
  leBytes (boolBit (lap % 2 = 0) 63 + index % 2 ^ 31 * 2 ^ 32 + field % 65536 * 65536 + cause % 256 * 256 + status % 256) 8
    ++ leBytes value.toNat 8

/-- The address of the next completion entry. -/
def Queue.nextEntry (x : Queue) : Nat := x.cring + 16 * (x.chead.toNat % x.entries)

/-- Writes the completion entry of a record taken from a host queue. -/
def State.writeCompletion (s : State) (rid : Nat) (status : Nat) : State :=
  let r := s.recAt rid
  match r.queue.bind fun q => (find q s.queues).map fun x => (q, x) with
  | some (q, x) =>
    if !r.fromHost then s
    else
      let f := if status = 2 then r.endFault else none
      let bs := completionWords x r.index status (if status = 1 then r.field else 0) ((f.map fun e => e.1.toNat).getD 0)
        ((f.map fun e => e.2).getD 0)
      let s1 := if s.writable x.asid x.nextEntry 16 then s.putHeap x.asid x.nextEntry bs else s
      { s1 with queues := store q { x with chead := x.chead + 1 } s1.queues }
  | none => s

/-- The page that the next completion entry of a record needs. -/
def completionPage (r : Rec) : Op Unit := do
  let s ← get
  match r.queue.bind fun q => find q s.queues with
  | some x => if r.fromHost then let _ ← translateFor .device x.asid x.nextEntry true 0
  | none => pure ()

/-- The pages of the `signal` object. -/
def signalPages (r : Rec) : Op Unit := do
  if ptrLevel r.l.signal = 0 then
    let _ ← translateFor .device r.l.asid (ptrLoc r.l.signal) true 0
    let _ ← translateFor .device r.l.asid (ptrLoc r.l.signal + 32) true 0

/-- One arrival for the `signal` object (R115), where it still is a barrier that takes one. -/
def State.creditSignal (s : State) (r : Rec) : State :=
  let v := Loc.heap r.l.asid (ptrLoc r.l.signal)
  if ptrLevel r.l.signal = 0 && s.writable r.l.asid (ptrLoc r.l.signal) 96 && barrierOk (s.hdr v)
      && !(s.hdr v).poison && !s.bodyPoisoned v 0 64 then s.barCredit v 1 else s

/-- The address of the image object among the boot arguments of a die's boot record (R463). -/
def bootImg : Nat := 0x10000

/-- The resident handlers that a boot record leaves behind (R463): that of a follower is the body of the first object that it has
allocated, that of the root the body of `img`. -/
def State.installHandlers (s : State) (rid : Nat) : State :=
  let r := s.recAt rid
  let first := fun (site : Nat) => (s.coreAt site).pad.hdrs.foldl (fun (m : Option Nat) k => some (Nat.min (m.getD k) k)) none
  r.place.zipIdx.foldl (fun (t : State) x =>
    let obj := if x.2 = 0 then some (Loc.heap r.l.asid bootImg) else (first x.1).map Loc.pad
    match obj with
    | none => t
    | some l =>
      let code := s.bodyBytes l 0 16384
      { t with handlers := if code = t.handler then erase x.1 t.handlers else store x.1 code t.handlers }) s

/-- The pages that the abort of a window writes (R380, R381). -/
def abortPages (k : KvTab) : Op Unit := do
  let _ ← translateFor .device k.asid k.va true 0
  let t := Loc.heap k.asid k.va
  translateSpan .device k.asid k.va (0, ((← get).hdr t).len) true 0
  let rst := (← get).kvRst t
  if ptrLevel rst = 0 then
    let _ ← translateFor .device k.asid (ptrLoc rst) true 0
    translateSpan .device k.asid (ptrLoc rst) (0, ((← get).hdr (.heap k.asid (ptrLoc rst))).len) true 0

/-- Aborts the windows of a list, whose pages are asked for: whether one is still awaited. A window whose pages the host refuses
cannot be aborted. -/
def finishAborts : List KvTab → Op Bool
  | [] => return false
  | k :: t => do
    let ran ← tryRun (abortPages k)
    if ran = .done then modify fun s => s.settleTable k
    return (← finishAborts t) || decide (ran = .parked)

/-- The windows of a record's contexts that are still to be aborted (R381). -/
def State.abortsOf (s : State) (rid : Nat) : List KvTab := s.kvTabs.filter fun k => k.abort && decide (k.rid = some rid)

/-- RECORD_END (R115, R425): a record that has ended, by itself or otherwise, is released, reported and cleared away. One
whose `ckpt` failed under CORNICE waits for its discard (R415). The windows of its contexts are aborted first (R381). -/
def recordEndBody (rid : Nat) : Op Unit := do
  let s ← get
  let r ← dueSome (find rid s.recs)
  due (!r.closed)
  let byItself := r.status.isNone
  due (!byItself || (decide (r.st = .running) && decide (0 < r.place.length)
    && ((List.range r.place.length).all fun n => r.ended.contains n) && !s.recordBusy rid
    && (r.endFault.map (·.1)) ≠ some Cause.cornice.code))
  if ← finishAborts ((← get).abortsOf rid) then return
  let released ← (if byItself then tryRun (endRelease rid) else pure .done)
  if released = .parked then return
  let r := (← get).recAt rid
  let status := r.status.getD (if r.endFault.isSome then 2 else 0)
  let page ← tryRun (completionPage r)
  if page = .parked then return
  let signals := decide (status = 0) || decide (status = 2)
  let sig ← (if signals then tryRun (signalPages r) else pure .done)
  if sig = .parked then return
  let s ← get
  let s0 := if r.boot then s.installHandlers rid else s
  let s1 := s0.writeCompletion rid status
  let s2 := if signals then s1.creditSignal r else s1
  set ({ s2.freeCores rid with resvs := s2.resvs.filter fun e => decide (e.2.rid ≠ rid) } : State).fenceIdle

def execRecordEnd (r : Nat) (s : State) : Host.Outcome State Fault Refusal := runEvent (recordEndBody r) s

end Sys2Proof.Machine
end

