-- ==== Sys2Proof/Machine/Cornice.lean ====
section
/-! DEFINITION. Cornice: deadlines, what becomes of the queues of their target, and the report (R433 to R435). -/

namespace Sys2Proof.Machine

/-- Runs an effect of the device that may have to wait for a page: its answer, or nothing yet. -/
def tryAsk {α : Type} (f : Op α) : Op (Option α) := fun s =>
  match f s with
  | .ok x t => .ok (some x) t
  | .error .waitKeep t => .ok none t
  | .error .wait _ => .ok none s
  | .error e t => .error e t

/-- The queues of a target, by their numbers: of a VF, or of a partition. -/
def State.targetQueues (s : State) (isVf : Bool) (target : Nat) : List (Nat × Queue) :=
  s.queues.filter fun e => if isVf then decide (e.2.vf = target) else decide (e.2.part = target)

/-- The ASID under which the report object is reached: that of the target's first queue, else the lowest bound to its
VF. -/
def State.reportAsid (s : State) (isVf : Bool) (target : Nat) : Option Nat :=
  match s.targetQueues isVf target with
  | e :: _ => some e.2.asid
  | [] => ((s.asids.find? fun a => if isVf then decide (a.2.vf = target) else decide (Config.vfPartition a.2.vf = some target))).map (·.1)

/-- The report object is a heap DATA object of format RAW with room for the report of n queues. -/
def reportOk (asid : Option Nat) (report : Word) (n : Nat) : Op Bool := do
  match asid with
  | none => return false
  | some a =>
    match ← fieldObject .device a report with
    | some h => return decide (h.typ = tDATA) && decide (h.fmt = 0) && decide (32 + 32 * n ≤ h.len)
    | none => return false

/-- Resident records of a queue. -/
def State.residents (s : State) (q : Nat) : List (Nat × Rec) :=
  s.recs.filter fun e => decide (e.2.queue = some q) && decide (e.2.st = .running)

/-- An estimate of R433: a fraction, or infinite. -/
abbrev Est := Option (Nat × Nat)

/-- The larger of two estimates. -/
def maxEst : Est → Est → Est
  | some a, some b => some (if a.1 * b.2 < b.1 * a.2 then b else a)
  | _, _ => none

/-- Remaining time of a record (R433). -/
def remainingTime (r : Rec) (now : Nat) : Est :=
  if r.l.steps = 0 then none else some ((r.l.steps - r.steps) * (now - r.startedAt), Nat.max r.steps 1)

/-- Checkpoint time of a record (R433): of the core that needs longest. -/
def State.checkpointTime (s : State) (r : Rec) : Est :=
  if !s.preemptible r then none
  else
    let core := fun (lc : Nat) =>
      if r.vacated.contains lc then 0
      else
        let R := ((s.sections r lc (r.place.getD lc 0) 0).map fun x => x.raw.length).sum
        let W := match r.lastCkpt with
          | some (raw, coded) => ceilDiv (R * coded) (raw * 64)
          | none => ceilDiv R 64
        200 + ceilDiv R 128 + W
    some (((List.range r.place.length).map core).foldl Nat.max 0, 1)

/-- The choice of R434: `B` cycles are left. -/
def chooseOutcome (B : Int) (remaining ckpt : Est) : Outcome :=
  if B ≤ 0 then .discard
  else match remaining with
    | some m => if (11 * m.1 : Int) ≤ 10 * B * m.2 then .run else ck
    | none => ck
where
  ck : Outcome := match ckpt with
    | some c => if (c.1 : Int) ≤ B * c.2 then .checkpoint else .discard
    | none => .discard

/-- An estimate in whole cycles, as the report gives it (log entry 96). -/
def Est.cycles (e : Est) : Option Nat := e.map fun x => x.1 / x.2

/-- How far an outcome is on the way to a discard. -/
def Outcome.rank : Outcome → Nat
  | .run => 1 | .checkpoint => 2 | .discard => 3 | .withdrawn => 0

def Outcome.worse (a b : Outcome) : Outcome := if a.rank < b.rank then b else a

/-- The entry of a queue at a post (R433, R434): an earlier deadline for the same queue keeps its choice, or moves towards
discard when the new one is earlier. -/
def State.postQueue (s : State) (q : Nat) (at_ : Nat) : DlQueue :=
  let now := s.cycle.toNat
  match s.residents q with
  | [] => { q := q, outcome := .withdrawn, vacant := some now }
  | rs =>
    let remaining := rs.foldl (fun e r => maxEst e (remainingTime r.2 now)) (some (0, 1))
    let ckpt := rs.foldl (fun e r => maxEst e (s.checkpointTime r.2)) (some (0, 1))
    let new := chooseOutcome ((at_ : Int) - discardCycles - now) remaining ckpt
    let old := (s.deadlines.filterMap fun d => (d.queues.find? fun x => decide (x.q = q) && x.vacant.isNone).map fun x => (d.at_, x.outcome))
    let outcome := match old with
      | [] => new
      | _ =>
        let worst := old.foldl (fun o e => o.worse e.2) Outcome.run
        if old.all fun e => decide (at_ < e.1) then worst.worse new else worst
    { q := q, recs := rs.map (·.1), outcome := outcome, remaining := remaining.cycles, ckptEst := ckpt.cycles }

/-- A record that has not been dispatched is withdrawn, and its wait objects count it no longer (R205), and it holds no
reservation. -/
def State.withdraw (s : State) (rid : Nat) (closed : Bool) : State :=
  let t := s.uncount rid
  { t.setRec rid { t.recAt rid with st := .ended, status := some 4, closed := closed } with
    resvs := t.resvs.filter fun e => decide (e.2.rid ≠ rid) }

/-- Records of a queue that have not been dispatched complete with STATUS 4: those fetched, those still in the ring, and
those of its device launch queue, which report nothing (R433, R468). -/
def State.withdrawDevice (s : State) (q : Nat) : State :=
  (s.deviceRecs q).foldl (fun (t : State) e => t.withdraw e.1 true) s

def State.withdrawAll (s : State) (q : Nat) : State :=
  let s0 := s.withdrawDevice q
  let s1 := (s0.recs.filter fun e => decide (e.2.queue = some q) && decide (e.2.st = .waiting)).foldl
    (fun (t : State) e => t.withdraw e.1 false) s0
  match find q s1.queues with
  | none => s1
  | some x =>
    let s2 := (List.range (x.tail - x.head).toNat).foldl (fun (t : State) i =>
      t.addRecord { newRecord t {} q true (x.head.toNat + i) with st := .ended, status := some 4 }) s1
    { s2 with queues := store q { x with head := x.tail } s2.queues }

/-- A queue is disabled. -/
def State.disableQueue (s : State) (q : Nat) : State :=
  match find q s.queues with
  | some x => { s with queues := store q { x with enabled := false } s.queues }
  | none => s

/-- Notes the queues of deadlines that have become vacant, and when (R435). -/
def State.noteVacant (s : State) : State :=
  { s with deadlines := s.deadlines.map fun d => { d with queues := d.queues.map fun x =>
      if x.vacant.isNone ∧ (x.recs.all fun r => decide ((s.recAt r).st ≠ .running)) then
        { x with vacant := some ((x.recs.map fun r => (s.recAt r).ranFrom).foldl Nat.max d.posted) }
      else x } }

/-- A deadline is posted (R433, R434). From now on, until D, nothing of the target starts or comes back, even of a queue that
the driver enables or creates meanwhile (R26; log entry 129). -/
def State.postDeadline (s : State) (isVf : Bool) (target at_ : Nat) (report : Word) : State :=
  let qs := s.targetQueues isVf target
  let entries := qs.map fun e => s.postQueue e.1 at_
  let outcomeOf := fun (q : Nat) => (entries.find? fun x => decide (x.q = q)).map (·.outcome)
  let worsen := fun (x : DlQueue) => match outcomeOf x.q with
    | some o => if x.vacant.isNone then { x with outcome := x.outcome.worse o } else x
    | none => x
  let s1 := { s with deadlines := s.deadlines.map fun d => { d with queues := d.queues.map worsen } }
  let s2 := qs.foldl (fun (t : State) e => (t.withdrawAll e.1).disableQueue e.1) s1
  let new : Deadline := { isVf := isVf, target := target, at_ := at_, report := report, posted := s.cycle.toNat, queues := entries }
  let bars := s2.bars.filter fun b => decide (s.cycle.toNat < b.at_)
  let s3 := { s2 with deadlines := s2.deadlines ++ [new], bars := bars ++ [{ isVf := isVf, target := target, at_ := at_ }] }
  ((entries.filter fun x => decide (x.outcome = .discard)).foldl (fun (t : State) x =>
    x.recs.foldl State.discardRecord t) s3).noteVacant

/-- A deadline's target may be posted (R433). -/
def State.deadlineTarget (s : State) (isVf : Bool) (target : Nat) : Bool :=
  if isVf then decide (target < 256) && s.accepted target 5
  else decide (target < 20) && (List.range 256).all fun v => decide (Config.vfPartition v ≠ some target) || s.accepted v 5

/-- PF_DEADLINE_POST (R433): a PF driver posts a deadline for one of its own VFs; a post that R433 refuses changes
nothing. While the report object's page is awaited the post is kept. -/
def execPfDeadlinePost (pf vf : Nat) (at_ report : BitVec 64) (s : State) : Host.Outcome State Fault Refusal :=
  runEvent (keepTrying (.deadline pf vf at_ report) (do
    let s ← get
    due (decide (s.phase = .ready) && decide (vf / 128 = pf) && s.deadlineTarget true vf)
    if ← reportOk (s.reportAsid true vf) report (s.targetQueues true vf).length then
      modify fun s => s.postDeadline true vf at_.toNat report)) s

/-- The queues of a deadline of which something still runs. -/
def State.lateQueues (s : State) (d : Deadline) : List DlQueue :=
  d.queues.filter fun x => x.vacant.isNone && x.recs.any fun r => decide ((s.recAt r).st = .running)

/-- D - T_d of a deadline has come, and something of its queues still runs (R434). -/
def State.discardDue (s : State) (d : Deadline) : Bool :=
  decide (d.at_ ≤ s.cycle.toNat + discardCycles) && !(s.lateQueues d).isEmpty

/-- What still runs of the queues of deadline number k is discarded (R416, R434). -/
def State.discardLate (s : State) (k : Nat) : State :=
  match s.deadlines[k]? with
  | none => s
  | some d =>
    let late := s.lateQueues d
    let failed := fun (x : DlQueue) => x.recs.any fun r => decide (((s.recAt r).endFault.map (·.1)) = some Cause.cornice.code)
    let s1 := late.foldl (fun (t : State) x =>
      (x.recs.filter fun r => decide ((t.recAt r).st = .running)).foldl State.discardRecord t) s
    let qs := late.map (·.q)
    let mark := fun (x : DlQueue) => if qs.contains x.q then { x with fallback := if failed x then 2 else 1 } else x
    ({ s1 with deadlines := s1.deadlines.modify k fun d => { d with queues := d.queues.map mark } } : State).noteVacant

/-- CORNICE_DISCARD (R415, R416, R434): at D - T_d of deadline number k. Time does not pass that point with anything of the
target still running, for it starts the discard itself (R26); see `State.wait`. -/
def execCorniceDiscard (k : Nat) (s : State) : Host.Outcome State Fault Refusal :=
  runEvent (do
    let s ← get
    let d ← dueSome s.deadlines[k]?
    due (s.discardDue d)
    set (s.discardLate k)) s

/-- The discards that are due now (R434). -/
def State.discardNow (s : State) : State :=
  (List.range s.deadlines.length).foldl (fun (t : State) k =>
    match t.deadlines[k]? with
    | some d => if t.discardDue d then t.discardLate k else t
    | none => t) s

/-- The cycles within the next n at which the discard of a deadline falls due, rising. -/
def State.discardPoints (s : State) (n : Nat) : List Nat :=
  ((s.deadlines.map fun d => d.at_ - discardCycles).filter fun p =>
    decide (s.cycle.toNat < p) && decide (p ≤ s.cycle.toNat + n)).foldl (fun l p => insertKey p l) []

/-- Time passes: n cycles, in which each discard that falls due starts at its own cycle, so that every core of a deadline's
target is vacant by the deadline (R26, R434). -/
def State.wait (s : State) (n : Nat) : State :=
  let t := (s.discardPoints n).foldl (fun (t : State) p => ({ t with cycle := BitVec.ofNat 64 p } : State).discardNow) s
  ({ t with cycle := s.cycle + BitVec.ofNat 64 n } : State).discardNow

/-- An estimate as the report gives it. -/
def estWord : Option Nat → Nat
  | some n => n
  | none => 2 ^ 64 - 1

def Outcome.code : Outcome → Nat
  | .run => 1 | .checkpoint => 2 | .discard => 3 | .withdrawn => 4

/-- The report (R435). -/
def reportBytes (d : Deadline) : List Byte :=
  let vacant := d.queues.foldl (fun m x => Nat.max m (x.vacant.getD d.posted)) d.posted
  leBytes d.at_ 8 ++ leBytes d.posted 8 ++ leBytes d.queues.length 4 ++ leBytes 0 4 ++ leBytes vacant 8
    ++ (d.queues.map fun x => leBytes (x.q / 64) 2 ++ leBytes (x.q % 64) 2 ++ leBytes x.outcome.code 1 ++ leBytes x.fallback 1
      ++ leBytes 0 2 ++ leBytes (estWord x.remaining) 8 ++ leBytes (estWord x.ckptEst) 8
      ++ leBytes (x.vacant.getD d.posted) 8).flatten

/-- The pages of the report. -/
def reportPages (asid va n : Nat) : Op Unit := do
  for a in pageStarts va (32 + n) do
    let _ ← translateFor .device asid a true 0

/-- The VFs whose event rings announce a report: the named VF, or every VF with a queue in the partition. -/
def State.reportVfs (s : State) (d : Deadline) : List Nat :=
  if d.isVf then [d.target] else (s.targetQueues false d.target).foldl (fun l e => insertKey e.2.vf l) []

/-- CORNICE_REPORT (R435): once the target is vacant the report is written and released, and only then announced: one whose
page the host refuses is not written, and not announced (log entry 128). -/
def execCorniceReport (k : Nat) (s : State) : Host.Outcome State Fault Refusal :=
  runEvent (do
    modify State.noteVacant
    let s ← get
    let d ← dueSome s.deadlines[k]?
    due (d.queues.all fun x => x.vacant.isSome)
    let asid := (s.reportAsid d.isVf d.target).getD 0
    let va := ptrLoc d.report
    let bs := reportBytes d
    let ran ← tryRun (reportPages asid va bs.length)
    if ran = .parked then return
    let s ← get
    let l := Loc.heap asid va
    let s0 := { s with deadlines := s.deadlines.eraseIdx k }
    if ran = .done then
      let w := s0.putBody l 0 bs
      let h := w.hdr l
      let s1 := w.setHdr l { h with w1 := BitVec.ofNat 64 ((h.version + 1) % 2 ^ 32 + 5 * 2 ^ 32) }
      set ((s.reportVfs d).foldl (fun (t : State) v => t.postEvent { vf := v, kind := 2, ptr := d.report }) s1)
    else set s0) s

end Sys2Proof.Machine
end

