-- ==== Sys2Proof/Machine/Host.lean ====
section
/-! DEFINITION. Host: what the driver and the host do to the device: features, queues, rings, ASIDs, snapshots, stops,
migration and accesses to device memory (R419 to R426, R436 to R440). -/

namespace Sys2Proof.Machine

/-- The device is READY; until then no function, queue or decoder is enabled (R442). -/
def whenReady : Op Unit := do due (decide ((← get).phase = .ready))

/-! Functions and rings. -/

/-- The function under a number, VF v as v and PF n as 256 + n, exists (R419). -/
def isFunction (fn : Nat) : Bool := decide (fn < 258)

/-- Pages of the secure world do not stay mapped for a function without `SECWORLD` (R422, R440). -/
def State.refuseSecure (s : State) : State :=
  { s with ptes := s.ptes.filter fun e => decide (8192 ≤ e.1 / 2 ^ 41) || !s.refusesPage (e.1 / 2 ^ 41) e.2.frame }

/-- FEATACC (R421): ignored while a queue of the function is enabled. Its reserved bits, 14 to 255, ignore what is written
(R4, R422). -/
def execFeatacc (fn : Nat) (value : BitVec 64) (s : State) : Host.Outcome State Fault Refusal :=
  runEvent (do
    whenReady
    let s ← get
    due (isFunction fn && s.queues.all fun q => q.2.vf ≠ fn || !q.2.enabled)
    set (s.setVf fn { s.vfAt fn with featAcc := value.toNat % 2 ^ 14 }).refuseSecure) s

/-- REQHEAD (R426). -/
def execReqhead (vf : Nat) (value : BitVec 32) (s : State) : Host.Outcome State Fault Refusal :=
  runEvent (do
    whenReady
    due (decide (vf < 256))
    modify fun s => s.setVf vf { s.vfAt vf with reqHead := value }) s

/-- EVHEAD (R426): events that found the ring full are written as slots free. -/
def execEvhead (vf : Nat) (value : BitVec 32) (s : State) : Host.Outcome State Fault Refusal :=
  runEvent (do
    whenReady
    due (decide (vf < 256))
    modify fun s => (s.setVf vf { s.vfAt vf with evHead := value }).drainEvents) s

/-- The VF that a host register belongs to, if any. -/
def regVf : HostReg → Option Nat
  | .mbarg _ | .mbdata _ => none
  | .replyval vf | .ringAddr _ vf | .ringSize _ vf => some vf

/-- REGISTER_WRITE (R446): the mailbox answers in every state but without power; the others belong to a VF (R426). An event that
waits for a ring is written once there is one. -/
def execRegisterWrite (reg : HostReg) (value : BitVec 64) (s : State) : Host.Outcome State Fault Refusal :=
  runEvent (do
    match regVf reg with
    | some vf =>
      whenReady
      due (decide (vf < 256))
    | none => due (decide ((← get).phase ≠ .off))
    modify fun s => s.setReg reg value
    match reg with
    | .ringAddr .. | .ringSize .. => modify State.drainEvents
    | _ => pure ()) s

/-- A context that waits in `xinv` for a reply. -/
def Context.takesReply (x : Context) (seq : Nat) (v : Word) : Context :=
  if x.xinv = some seq ∧ x.xreply = none then { x with xreply := some v } else x

def Core.takesReply (c : Core) (seq : Nat) (v : Word) : Core := { c with ctxs := c.ctxs.map fun x => x.takesReply seq v }

/-- A core's record belongs to a VF. -/
def State.coreVf (s : State) (c : Core) (vf : Nat) : Bool :=
  match c.recId with
  | some r => decide ((s.recAt r).l.vf = vf)
  | none => false

/-- REPLYSEQ (R426): the reply value goes to the outstanding request with the number, on its core or in the image of its
core. -/
def execReplyseq (vf : Nat) (seq : BitVec 64) (s : State) : Host.Outcome State Fault Refusal :=
  runEvent (do
    whenReady
    let s ← get
    let v := s.reg (.replyval vf)
    let n := seq.toNat
    let core := fun (e : Nat × Core) => if s.coreVf e.2 vf then (e.1, e.2.takesReply n v) else e
    let image := fun (i : Nat × Image) => (i.1, { i.2 with core := i.2.core.takesReply n v })
    let rec_ := fun (e : Nat × Rec) => if e.2.l.vf = vf then (e.1, { e.2 with images := e.2.images.map image }) else e
    set { s with cores := s.cores.map core, recs := s.recs.map rec_ }) s

/-- FUNCTION_RESET (R421, R426): `FEATACC` and the ring registers read 0, and the rings are to be set again (log entry 84). -/
def execFunctionReset (fn : Nat) (s : State) : Host.Outcome State Fault Refusal :=
  runEvent (do
    due (isFunction fn)
    modify fun (s : State) =>
      let t := s.setVf fn { s.vfAt fn with
        featAcc := 0, evHead := 0, evTail := 0, reqHead := 0, reqTail := 0, stopping := false, stopped := false }
      ([true, false].foldl (fun (u : State) r => (u.setReg (.ringAddr r fn) 0).setReg (.ringSize r fn) 0) t).refuseSecure) s

/-! Queues (R423, R424). -/

def queueKey (vf num : Nat) : Nat := vf * 64 + num

/-- A valid partition to which a VF is assigned. -/
def State.partOf (s : State) (vf part : Nat) : Bool :=
  decide (part < 20) && (find part s.partitions).isSome && decide (Config.vfPartition vf = some part)

/-- A queue descriptor (R423), as a number of 512 bits. -/
def parseQueue (vf num d : Nat) : Queue :=
  let f := fun (off n : Nat) => fieldN d (8 * off) (8 * n)
  let save := BitVec.ofNat 64 (f 0x20 8)
  { vf := vf, num := num, ring := f 0x00 8, cring := f 0x08 8, entries := f 0x10 4, asid := f 0x14 2
    prio := f 0x16 1, chan := decide (f 0x17 1 = 1), part := f 0x18 1
    save := if noPtr save then nullPtr else save, saveSz := f 0x28 4, ctxSlots := f 0x2C 2 }

/-- The checks of R423 on a descriptor that need no memory. -/
def State.queueOk (s : State) (x : Queue) (d : Nat) : Bool :=
  let f := fun (off n : Nat) => fieldN d (8 * off) (8 * n)
  decide (x.ring % 128 = 0) && decide (x.cring % 16 = 0)
    && decide (x.ring + 128 * x.entries ≤ 2 ^ 53) && decide (x.cring + 16 * x.entries ≤ 2 ^ 53)
    && decide (x.entries = 2 ^ Nat.log2 x.entries) && decide (2 ≤ x.entries) && decide (x.entries ≤ 65536)
    && decide (x.asid < 8192) && decide ((find x.asid s.asids).map (·.vf) = some x.vf)
    && decide (x.prio < 8) && decide (f 0x17 1 < 2) && (!x.chan || s.accepted x.vf 8)
    && s.partOf x.vf x.part && decide (f 0x19 7 = 0) && decide (f 0x2E 18 = 0)
    && decide (x.saveSz % 4096 = 0) && (decide (x.save ≠ nullPtr) || decide (x.saveSz = 0))
    && decide (1 ≤ x.ctxSlots) && decide (x.ctxSlots ≤ 4096)

/-- `SAVE` names a heap DATA object of format RAW, or nothing. -/
def saveOk (x : Queue) : Op Bool := do
  if x.save = nullPtr then return true
  match ← fieldObject .device x.asid x.save with
  | some h => return decide (h.typ = tDATA) && decide (h.fmt = 0)
  | none => return false

/-- QUEUE_CREATE (R423). While the page of the `SAVE` object is awaited the descriptor is kept. -/
def execQueueCreate (vf num : Nat) (desc : BitVec 512) (s : State) : Host.Outcome State Fault Refusal :=
  runEvent (keepTrying (.queue vf num desc) (do
    whenReady
    let s ← get
    let x := parseQueue vf num desc.toNat
    due (decide (vf < 256) && decide (num < 64) && (find (queueKey vf num) s.queues).isNone && s.queueOk x desc.toNat)
    if ← saveOk x then modify fun s => { s with queues := store (queueKey vf num) x s.queues })) s

/-- QUEUE_ENABLE (R433, R434). No queue of a VF that is stopping or stopped is enabled (R437; log entry 127). -/
def execQueueEnable (q : Nat) (s : State) : Host.Outcome State Fault Refusal :=
  runEvent (do
    whenReady
    let s ← get
    let x ← dueSome (find q s.queues)
    due (!(s.vfAt x.vf).stopping)
    set { s with queues := store q { x with enabled := true } s.queues }
    fetchQueue q) s

/-- QUEUE_DISABLE (R468): the records of the device launch queue are withdrawn. A queue is deleted once its records have
ended. -/
def execQueueDisable (q : Nat) (del : Bool) (s : State) : Host.Outcome State Fault Refusal :=
  runEvent (do
    whenReady
    let s ← get
    let x ← dueSome (find q s.queues)
    let s1 := (s.withdrawDevice q).disableQueue q
    let ended := decide (x.head = x.tail) && s1.recs.all fun r => decide (r.2.queue ≠ some q) || r.2.closed
    set (if del && ended then { s1 with queues := erase q s1.queues } else s1)) s

/-- DOORBELL (R424): a tail that would leave more records outstanding than the ring has slots, as one behind the records already
fetched would, disables the queue. -/
def execDoorbell (q : Nat) (tail : BitVec 32) (s : State) : Host.Outcome State Fault Refusal :=
  runEvent (do
    whenReady
    let s ← get
    let x ← dueSome (find q s.queues)
    if (tail - x.chead).toNat > x.entries || (tail - x.head).toNat > x.entries then
      set ((s.withdrawDevice q |>.disableQueue q).postEvent { vf := x.vf, kind := 3, data := x.num })
    else
      set { s with queues := store q { x with tail := tail } s.queues }
      fetchQueue q) s

/-! ASIDs (R165, R420). -/

/-- What the device holds of the page table of an ASID's PASID (R178, R420). -/
def State.shareTable (s : State) (asid : Nat) : State :=
  match (s.tableMates asid)[1]? with
  | none => s
  | some b =>
    let theirs := s.ptes.filter fun e => decide (e.1 / 2 ^ 41 = b)
    { s with ptes := theirs.foldl (fun l e => store (pageKey asid (e.1 % 2 ^ 41)) e.2 l) s.ptes }

/-- ASID_BIND (R420), with the heap regions that the driver grants to it (R165). -/
def execAsidBind (asid vf pasid : Nat) (grants : List Nat) (s : State) : Host.Outcome State Fault Refusal :=
  runEvent (do
    whenReady
    let s ← get
    due (decide (asid < 8192) && decide (vf < 256) && decide (pasid < 2 ^ 20) && (find asid s.asids).isNone
      && grants.all fun b => decide (b % 2097152 = 0) && decide (b + 2097152 ≤ 2 ^ 53))
    let x : AsidSt := { vf := vf, pasid := pasid, regions := grants.map fun b => { base := b } }
    set (({ s with asids := store asid x s.asids } : State).shareTable asid)) s

/-- ASID_UNBIND (R420, R468): the records that no host queue holds are withdrawn; the unbind waits until none is resident or
queued, and then the ASID's tier-pool pages and heap regions go, with what the device knows of its pages and tables. -/
def execAsidUnbind (asid : Nat) (s : State) : Host.Outcome State Fault Refusal :=
  runEvent (keepTrying (.unbind asid) (do
    whenReady
    let s ← get
    due ((find asid s.asids).isSome)
    let mine := s.queues.filter fun q => decide (q.2.asid = asid)
    let s1 := mine.foldl (fun (t : State) q => t.withdrawDevice q.1) s
    set s1
    let idle := (s1.recs.all fun r => decide (r.2.l.asid ≠ asid) || r.2.closed)
      && (mine.all fun q => decide (q.2.head = q.2.tail))
    if !idle then waitKeep
    set { s1 with
      asids := erase asid s1.asids
      tier := s1.tier.filter fun e => e.asid ≠ asid
      ptes := s1.ptes.filter fun e => e.1 / 2 ^ 41 ≠ asid
      pageReqs := s1.pageReqs.filter fun r => r.asid ≠ asid
      kvTabs := s1.kvTabs.filter fun k => k.asid ≠ asid })) s

/-! Snapshots and stops (R436, R437). -/

/-- A VF's running snapshot is complete: event kind 4, with epoch 0 when a page found no place. -/
def State.endSnapshot (s : State) (vf : Nat) : State :=
  match (s.vfAt vf).snap with
  | none => s
  | some n => s.postEvent { vf := vf, kind := 4, data := if n.failed then 0 else n.epoch, ptr := n.dlog }

/-- SNAPSHOT_REQUEST (R436): an area at an address of host memory has room for a number of pages; refused without the feature
(R422). -/
def execSnapshotRequest (vf : Nat) (area : SnapArea) (dlog : BitVec 64) (s : State) : Host.Outcome State Fault Refusal :=
  runEvent (do
    whenReady
    let s ← get
    due (decide (vf < 256) && s.accepted vf 6)
    let s1 := s.endSnapshot vf
    let v := s1.vfAt vf
    set (s1.setVf vf { v with epoch := v.epoch + 1, snap := some { epoch := v.epoch + 1, dlog := dlog, area := area.base, places := area.places } })) s

/-- A write of a VF is still on its way. -/
def State.vfBusy (s : State) (vf : Nat) : Bool :=
  let mine := fun (asid : Nat) => decide ((lookup {} asid s.asids : AsidSt).vf = vf)
  let heap := fun (l : Loc) => match l with | .heap a _ => mine a | .pad _ => false
  (s.reds.any fun r => heap r.v) || (s.posts.any fun p => heap p.dst) || (s.net.any fun f => f.put && mine f.asid)
    || s.recs.any fun r => decide (r.2.l.vf = vf) && (decide (r.2.st = .running) || (decide (r.2.st = .ended) && !r.2.closed))

/-- The cores of a VF's records that are to be vacated for a stop: those of pre-emptible records. -/
def State.stopCores (s : State) (vf : Nat) : List Nat :=
  ((s.recs.filter fun r => decide (r.2.l.vf = vf) && decide (r.2.st = .running) && s.preemptible r.2).map fun r =>
    (r.2.place.zipIdx.filter fun x => !r.2.vacated.contains x.2 && !r.2.ended.contains x.2).map (·.1)).flatten

/-- The dirty log of a VF's running snapshot, as the device writes it whole at a stop (R437). -/
def State.writeLog (s : State) (vf : Nat) : State :=
  match (s.vfAt vf).snap with
  | none => s
  | some n => { s with hostMem := n.written.foldl (fun (m : Mem) k => m.setBit n.dlog.toNat k) s.hostMem }

/-- VF_STOP (R437): the first step disables the VF's queues and has its records checkpointed; once no record of it is
resident and every write has been performed, the final dirty log is written, and then the stopped status. -/
def execVfStop (vf : Nat) (s : State) : Host.Outcome State Fault Refusal :=
  runEvent (do
    whenReady
    let s ← get
    due (decide (vf < 256) && !(s.vfAt vf).stopped)
    if !(s.vfAt vf).stopping then
      let s1 := (s.queues.filter fun q => decide (q.2.vf = vf)).foldl (fun (t : State) q =>
        (t.withdrawDevice q.1).disableQueue q.1) s
      let s2 := s1.setVf vf { s1.vfAt vf with stopping := true }
      set ((s2.stopCores vf).foldl (fun (t : State) x => t.preempt x) s2)
    else
      due (!s.vfBusy vf)
      let s1 := (s.writeLog vf).endSnapshot vf
      set (s1.setVf vf { s1.vfAt vf with snap := none, stopped := true })) s

/-! KV migration (R438). -/

/-- TDISP states in which objects may move. -/
def tdispMoves (n : Nat) : Bool := decide (n = 1) || decide (n = 2)

/-- The source gives up what has moved: every frame of the VF, and its tables' page entries. -/
def State.moveAway (s : State) (vf : Nat) : State :=
  let mine := fun (k : KvTab) => decide ((lookup {} k.asid s.asids : AsidSt).vf = vf)
  let s1 := (s.kvTabs.filter mine).foldl (fun (t : State) k =>
    if t.allWritable k.asid k.va then (t.dropPages (.heap k.asid k.va) 0 ((kvCap (t.hdr (.heap k.asid k.va)).len).getD 0)).1 else t) s
  let gone := s1.kvFrames.filter fun f => decide (s1.pageVf (.pad (kvFrameKey f)) = vf)
  let s2 := s1.shootFrames gone
  { s2.setVf vf { s2.vfAt vf with kvUsed := 0 } with
    kvFrames := s2.kvFrames.filter fun f => !gone.contains f
    kvTabs := s2.kvTabs.filter fun k => !mine k }

/-- Pages of a set take frames; the numbers of the frames, in the set's order of pages. -/
def State.takePages (s : State) (vf : Nat) (objs : List KvObj) : State × List Nat :=
  objs.foldl (fun (acc : State × List Nat) o =>
    match o with
    | .page body =>
      let (t, f) := acc.1.takeFrame vf ((body.length - 64) / 2048)
      (t.putBody (.pad (kvFrameKey f)) 0 body |>.setBodyField (.pad (kvFrameKey f)) 0 56 8 vf, acc.2 ++ [f])
    | .heap .. => acc) (s, [])

/-- The tables and RSTATE objects of a set are written, their page entries naming the new frames. The owner of an open window
is the context that the table names, whichever record runs it here (log entry 130). -/
def State.placeMoved (s : State) (frames : List Nat) (objs : List KvObj) : State :=
  objs.foldl (fun (t : State) o =>
    match o with
    | .page _ => t
    | .heap asid va bs entries =>
      let t1 := t.putHeap asid va bs
      let t2 := entries.foldl (fun (u : State) e => match frames[e.2]? with
        | some f => u.setKvPage (.heap asid va) e.1 (framePtr f)
        | none => u) t1
      if (t2.hdr (.heap asid va)).typ = tKVTABLE then
        let l := Loc.heap asid va
        { t2 with kvTabs := t2.kvTabs ++ [{ asid := asid, va := va, owner := if t2.kvOpen l then some (t2.kvOwner l) else none }] }
      else t2) s

/-- A set can be taken: its page bodies have the length of pages, and the places of the others are mapped in an ASID of
the VF. -/
def State.setFits (s : State) (vf : Nat) (objs : List KvObj) : Bool :=
  let n := (objs.filter fun o => match o with | .page _ => true | .heap .. => false).length
  decide (n + s.kvFrames.length ≤ poolFrames) && decide (n + (s.vfAt vf).kvUsed ≤ Config.kvQuota vf)
    && objs.all fun o => match o with
      | .page b => decide ((b.length - 64) % 2048 = 0) && decide (64 ≤ b.length) && decide (b.length ≤ 2 ^ 17 - 32)
      | .heap asid va bs _ => decide ((find asid s.asids).map (·.vf) = some vf) && decide (va % 32 = 0) && s.writable asid va bs.length

/-- KV_MIGRATION (R438): of the two ends, this module is the source or the target; a set that does not arrive whole and
authentic, or that the quota does not hold, changes nothing. -/
def execKvMigration (vf : Nat) (mig : KvMove) (s : State) : Host.Outcome State Fault Refusal :=
  runEvent (do
    whenReady
    let s ← get
    due (decide (vf < 256) && s.accepted vf 10 && tdispMoves (s.vfAt vf).tdisp)
    match mig with
    | .sent peer confirmed =>
      due (tdispMoves peer && (s.vfAt vf).stopped && confirmed)
      set (s.moveAway vf)
    | .received peer objs authentic =>
      due (tdispMoves peer && authentic && s.setFits vf objs)
      let (s1, fs) := s.takePages vf objs
      set (s1.placeMoved fs objs)) s

/-! Device memory as the host reaches it (R440). -/

/-- The body offset of a heap object of body length n at which a memory key lies. -/
def State.bodyAt (s : State) (l : Loc) (n key : Nat) : Option Nat :=
  match l with
  | .heap asid va => (s.chunks asid (va + 32) n).findSome? fun c => if within c.1 c.2.2 key then some (c.2.1 + (key - c.1)) else none
  | .pad _ => none

/-- The RSTATE objects that the device has made, or that a table which it knows names. -/
def State.rstates (s : State) : List Loc :=
  let mapped := fun (l : Loc) => match l with | .heap asid va => s.mapped asid va | .pad _ => false
  let made := (s.asids.map fun a => a.2.objs.map fun va => Loc.heap a.1 va).flatten
  (made ++ s.kvTabs.filterMap fun k => if s.mapped k.asid k.va then s.kvRstLoc k.asid (.heap k.asid k.va) else none).filter
    fun l => mapped l && decide ((s.hdr l).typ = tRSTATE)

/-- The rows of heap pages that belong to open windows: page, body offset and length. -/
def State.windowRows (s : State) : List (Loc × Nat × Nat) :=
  ((s.kvTabs.filter fun k => k.owner.isSome && s.mapped k.asid k.va && s.kvOpen (.heap k.asid k.va)).map fun k =>
    let t := Loc.heap k.asid k.va
    ((List.range (s.kvWtok t)).map (· + s.kvNtok t)).filterMap fun p =>
      match pagePlace k.asid (s.kvPage t (p / 16)) with
      | some (.heap a va) => some (Loc.heap a va, 64 + 128 * s.kvRowq t * (p % 16), 128 * s.kvRowq t)
      | _ => none).flatten

/-- What the host sees at a byte of device memory whose contents are not for it: in an RSTATE the committed version, and
nothing of the other slots (R361); nothing of a row of an open window (R25). None where it reaches memory itself. What such a
read returns is the model's choice (log entry 118). -/
def State.hostSees (s : State) (key : Nat) : Option Byte :=
  match s.rstates.findSome? fun l => ((s.bodyAt l (s.hdr l).len key).filter (128 ≤ ·)).map fun o => (l, o) with
  | some (l, o) => some (if o < readLen tRSTATE (s.hdr l).len then (s.readBody none l o 1).headD 0 else 0)
  | none =>
    if s.windowRows.any fun w => match s.bodyAt w.1 (w.2.1 + w.2.2) key with | some o => decide (w.2.1 ≤ o) | none => false
    then some 0 else none

/-- A port's HDM decoder reaches a device address (R419): 384 GiB of HBM at each of the two ports (log entry 104). -/
def decodes (port addr : Nat) : Bool := decide (port < 2) && decide (addr / (hbmFrames * 2048) = port)

/-- HOST_CXL_MEM_ACCESS (R440): an access to a 64-byte line of device HBM (R13) that the decoder of the port reaches, apart from
the frames of the tier pool.
Secure memory outside a TDISP interface in RUN reads as poisoned data and takes no write, and both are reported. What is not
for the host takes no write either. -/
def execHostCxlMemAccess (acc : HostAccess) (s : State) : Host.Outcome State Fault Refusal :=
  runEvent (do
    whenReady
    let s ← get
    let n := (acc.write.map (·.length)).getD acc.size
    due (decide (1 ≤ n) && decide (acc.addr % 64 + n ≤ 64) && decodes acc.port acc.addr
      && s.tier.all fun t => decide (t.hbm ≠ acc.addr / 4096))
    let trusted := match acc.iface with | some v => decide ((s.vfAt v).tdisp = 2) | none => false
    let barred := s.securePage acc.addr && !trusted
    let report := fun (t : State) => if barred then t.addLog 6 5 (homeChannel acc.addr) (BitVec.ofNat 64 acc.addr) 0 else t
    match acc.write with
    | none =>
      let answer := if barred || s.poisoned acc.addr n then none else
        some ((List.range n).map fun i => (s.hostSees (acc.addr + i)).getD (s.mem.byte (acc.addr + i)))
      set (report { s with hostReads := s.hostReads ++ [answer] })
    | some bs =>
      let whole := (List.range 2).map (· + acc.addr / 64 * 2) |>.filter fun g => decide (acc.addr ≤ g * 32) && decide (g * 32 + 32 ≤ acc.addr + n)
      set (report (if barred then s else
        { s with mem := bs.zipIdx.foldl (fun (m : Mem) b =>
                   if (s.hostSees (acc.addr + b.2)).isSome then m else m.set (acc.addr + b.2) b.1) s.mem
                 poison := s.poison.filter fun g => !whole.contains g }))) s

end Sys2Proof.Machine
end

