-- ==== Sys2Proof/Machine/Bringup.lean ====
section
/-! DEFINITION. Bringup: start-up, the safe state, the mailbox and the firmware (R441 to R453, R463). -/

namespace Sys2Proof.Machine

/-! Reset and power (R441, R442, R449). -/

/-- What outlives a reset: flash, `FEATOFF`, host memory, the log, and the schedule and answers of the model. Memory of the pads and
of the KV pool is lost. -/
def State.resetTo (s : State) (p : Phase) : State :=
  { mem := s.mem.filter fun c => decide (c.1 < 2 ^ 60), poison := s.poison.filter fun k => decide (k * 32 < 2 ^ 60)
    phase := p, flash := s.flash, log := s.log, logLost := s.logLost, agenda := s.agenda, turn := s.turn, free := s.free
    spdm := s.spdm, hostReads := s.hostReads, featOff := s.featOff }

/-- POWER_GOOD (R441). -/
def execPowerGood (s : State) : Host.Outcome State Fault Refusal :=
  runEvent (do
    due (decide ((← get).phase = .off))
    modify fun s => s.resetTo .rom) s

/-- POWER_LOSS (R449): an `IMGCOMMIT` whose commit flag has not been written leaves flash as it was. -/
def execPowerLoss (s : State) : Host.Outcome State Fault Refusal := runEvent (modify fun s => s.resetTo .off) s

/-- PCIE_CONVENTIONAL_RESET (R441). -/
def execPcieConventionalReset (s : State) : Host.Outcome State Fault Refusal :=
  runEvent (do
    due (decide ((← get).phase ≠ .off))
    modify fun s => s.resetTo .rom) s

/-! The firmware image (R448). -/

def imgSvn (b : List Byte) : Nat := fieldAt b 0x08 4

/-- Everything that R448 asks of an image but the rollback counter. -/
def imgGenuine (b : List Byte) : Bool :=
  let len := fieldAt b 0x10 8
  let body := (b.drop 0x1300).take len
  decide (b.take 4 = [0x4F, 0x50, 0x46, 0x57]) && decide (fieldAt b 4 2 = 1) && decide (len ≤ 67108864)
    && decide (body.length = len) && decide (Config.sha3 body = (b.drop 0x40).take 64)
    && Config.verifies (b.take 0x80) ((b.drop 0x80).take 4627)

/-- The image verifies (R448). -/
def imgVerifies (b : List Byte) (counter : Nat) : Bool := imgGenuine b && decide (counter ≤ imgSvn b)

/-- ROM (R441, R449): a committed pending image that verifies becomes active and raises the rollback counter; then the
active image is verified, and failing that the pending one. -/
def execRom (s : State) : Host.Outcome State Fault Refusal :=
  runEvent (do
    due (decide ((← get).phase = .rom))
    let s ← get
    let f := s.flash
    let f1 := if f.commit && imgVerifies f.pend f.counter then
        { f with active := f.pend, pend := [], commit := false, counter := Nat.max f.counter (imgSvn f.pend) }
      else { f with commit := false }
    set (if imgVerifies f1.active f1.counter then { s with flash := f1, phase := .selftest }
      else if imgVerifies f1.pend f1.counter then { s with flash := { f1 with active := f1.pend, pend := [] }, phase := .selftest }
      else { s with flash := f1, phase := .safe })) s

/-- How many units there are of each kind of R450: core sites, clusters, die pads, mesh links, die-to-die links, HBM channels and
the controller (R13). A mesh link of die d is one of its 2 * 31 * 32 (log entry 131). -/
def unitCount : Nat → Nat
  | 0 => 8192 | 1 => 1024 | 2 => 8 | 3 => 15872 | 4 => 10 | 5 => 256 | 6 => 1 | _ => 0

/-- Self-test covers a unit: it exists, and is neither fused off nor retired (R443). -/
def State.testable (s : State) (kind unit : Nat) : Bool :=
  decide (unit < unitCount kind)
    && !(if kind = 0 then s.offSites.contains unit
      else if kind = 1 then s.flash.clusters.contains unit
      else if kind = 5 then s.flash.channels.contains unit
      else false)

/-- A list of tests leaves out no unit that self-test covers (R443). -/
def State.testsAll (s : State) (tests : List TestRun) : Bool :=
  (List.range 7).all fun k => (List.range (unitCount k)).all fun n =>
    !s.testable k n || tests.any fun t => decide (t.kind = k) && decide (t.unit = n)

/-- SELFTEST (R441, R443, R444): tests of every unit, or up to one that fails, with one log entry for each that is run. -/
def execSelftest (tests : List TestRun) (s : State) : Host.Outcome State Fault Refusal :=
  runEvent (do
    let s ← get
    let tests := tests.filter fun t => s.testable t.kind t.unit
    due (decide (s.phase = .selftest) && ((tests.any fun t => !t.passed) || s.testsAll tests))
    let t := tests.foldl (fun (t : State) x => t.addLog (if x.passed then 0 else 2) x.kind x.unit 0 0) s
    set { t with phase := if tests.all (·.passed) then .load else .safe }) s

/-! The boot records (R452, R463). -/

/-- The address space of the boot program of a die, which is the firmware's own, and its layout. -/
def bootAsid (d : Nat) : Nat := 8192 + d
def bootMap : Nat := 0x20000
def bootByh : Nat := 0x30000
def bootArgs : Nat := 0x40000
def bootBuf (lc : Nat) : Nat := 0x100000 + lc * 0x20000
def bootCode : Nat := 0x10000000

/-- Page-table entries of a die's boot program. -/
def bootPtes (d : Nat) : List (Nat × Pte) :=
  (List.range 69636).map fun i => (pageKey (bootAsid d) i, { frame := 2 ^ 43 + 2 ^ 28 + d * 2 ^ 17 + i, write := true, hbm := true })

/-- Writes an object of the boot program. -/
def State.bootObject (s : State) (d va typ fmt : Nat) (root : Bool) (body : List Byte) : State :=
  let l := Loc.heap (bootAsid d) va
  let s1 := s.setHdr l { w0 := BitVec.ofNat 64 (body.length + typ * 2 ^ 40 + fmt * 2 ^ 51 + boolBit root 57 + 2 ^ 56) }
  s1.putBody l 0 body

/-- CTXBUF capacity of a boot record (R463). -/
def bootSlots (lc : Nat) : Nat := if lc = 0 then 1024 else 512

/-- The control context of a core of a boot record (R463). -/
def bootContext (d lc site : Nat) : Context :=
  let p := siteXY site
  let w := fun (n : Nat) => BitVec.ofNat 64 n
  let s0 := ((Vector.replicate 32 (0 : Word)).setIfInBounds 2 (if lc = 0 then 1 else 0)).setIfInBounds 3 (w d)
  { st := .ready, priv := true, lcore := BitVec.ofNat 13 lc, level := 2
    s := if lc = 0 then ((s0.setIfInBounds 4 (w site)).setIfInBounds 5 (w p.1)).setIfInBounds 6 (w p.2) else s0
    a := (Vector.replicate 16 {}).setIfInBounds 0 { ptr := mkPtr (17 * 8) 0 bootArgs }
    codeptr := mkPtr 0 0 bootCode }

/-- The boot record of a die starts: the root is its first enabled site, and the others follow in Hilbert order. Firmware has
set the world of each cluster; a channel core, which belongs to none (R168), is not secure and not locked (R93, R439; log entry
103). -/
def State.startBoot (s : State) (d : Nat) : State :=
  let sites := ((List.range 1024).map (· + d * 1024)).filter fun x => !s.fused.contains x
  let code := imageBoot s.flash.active
  let s1 := { s with ptes := s.ptes ++ bootPtes d }
  let s2 := (((s1.bootObject d bootImg tDATA 0 true (imageHandler s.flash.active)).bootObject d bootMap tDATA 6 true
    (List.replicate 8192 0)).bootObject d bootByh tDATA 6 true (List.replicate 4096 0)).bootObject d bootArgs tPTRS 17 true
      ((leBytes (mkPtr 0 0 bootImg).toNat 8 ++ leBytes (mkPtr (6 * 8) 0 bootMap).toNat 8 ++ leBytes (mkPtr (6 * 8) 0 bootByh).toNat 8))
  let s3 := s2.bootObject d bootCode tCODE 0 true code
  let l : Launch := { code := mkPtr 0 0 bootCode, cores := sites.length, domain := 2, prio := 7, asid := bootAsid d, arg := mkPtr (17 * 8) 0 bootArgs }
  let r : Rec := { l := l, fromHost := false, boot := true, part := 20
                   ctxbufs := (List.range sites.length).map fun lc => (lc, mkPtr 0 0 (bootBuf lc)) }
  let s4 := (List.range sites.length).foldl (fun (t : State) lc => t.initCtxbuf (bootAsid d) lc (bootBuf lc) (bootSlots lc)) (s3.addRecord r)
  let rid := s3.nextRec
  let s5 := s4.startRecord rid sites
  let s6 := (sites.zipIdx).foldl (fun (t : State) x =>
    let c := t.coreAt x.1
    let key := corePadKey x.1
    let u := t.setCore x.1 { c.setCtx 0 (bootContext d x.2 x.1) with
      pad := { base := key, size := padTop, dirCap := 1024 }, secure := Config.secureCluster (clusterOf x.1)
      lock := Config.lockedCluster (clusterOf x.1) }
    u.clearPad key padTop) s5
  s6.setRec rid { s6.recAt rid with ctxtag := 0, stackObjs := [] }

/-- LOAD (R388, R441): the firmware is placed in every base die and core pad, and INIT begins with the boot records. -/
def execLoad (pass : Bool) (s : State) : Host.Outcome State Fault Refusal :=
  runEvent (do
    due (decide ((← get).phase = .load))
    let s ← get
    set (if pass then
        (List.range 8).foldl State.startBoot { s with
          phase := .init, fused := s.offSites.foldl (fun l x => insertKey x l) []
          handler := imageHandler s.flash.active, handlers := [] }
      else { s with phase := .safe })) s

/-- Entries of a die's map that name a core (R119, R452). -/
def State.mapCount (s : State) (d : Nat) : Nat :=
  ((List.range 1024).filter fun i => (s.field (.heap (bootAsid d) bootMap) (8 * i) 4).testBit 31).length

/-- What INIT leaves behind of the boot records. -/
def State.endBoot (s : State) : State :=
  { s with
    ptes := s.ptes.filter fun e => decide (e.1 / 2 ^ 41 < 8192), asids := s.asids.filter fun e => decide (e.1 < 8192)
    recs := s.recs.filter fun r => !r.2.boot }

/-- Everything on the compute side is held in reset (R445). -/
def State.toSafe (s : State) : State := { s.resetTo .safe with regs := s.regs, mailbox := s.mailbox, errors := s.errors }

/-- INIT (R441, R452): every die's boot record has ended; the device is READY when every map's core count equals the
die's enabled count. -/
def execInit (s : State) : Host.Outcome State Fault Refusal :=
  runEvent (do
    due (decide ((← get).phase = .init))
    let s ← get
    due (s.recs.all fun r => !r.2.boot || r.2.closed)
    let bad := (List.range 8).filter fun d => decide (s.mapCount d ≠ s.enabledOn d)
    set (if bad = [] then { s.endBoot with phase := .ready }
      else bad.foldl (fun (t : State) d => t.addLog 2 3 d 0 0) s.toSafe)) s

/-- INIT_TIMEOUT (R441): a die has reported no map. -/
def execInitTimeout (die : Nat) (s : State) : Host.Outcome State Fault Refusal :=
  runEvent (do
    let s ← get
    due (decide (s.phase = .init) && decide (die < 8) && s.recs.any fun r => r.2.boot && !r.2.closed && decide (r.2.l.asid = bootAsid die))
    set s.toSafe) s

/-- FATAL_FAULT (R417, R441): every record is discarded at once, and none completes; the device is in SAFE when the windows of
their contexts have been aborted (R381, R416), whose pages may have to be waited for. -/
def execFatalFault (cls unit : Nat) (s : State) : Host.Outcome State Fault Refusal :=
  runEvent (keepTrying (.fatal cls unit) (do
    let s ← get
    due (decide (s.phase = .ready) || decide (s.phase = .failing))
    if s.phase = .ready then
      let live := (s.recs.filter fun r => decide (r.2.st = .running) || decide (r.2.st = .switched)).map (·.1)
      set { (live.foldl State.discardRecord s).addLog 3 cls unit 0 0 with phase := .failing }
    if ← finishAborts ((← get).kvTabs.filter (·.abort)) then waitKeep
    modify State.toSafe)) s

/-! The mailbox (R446). -/

/-- State codes (R441). -/
def Phase.code : Phase → Nat
  | .off => 0 | .rom => 0 | .selftest => 1 | .load => 2 | .init => 3 | .ready => 4 | .failing => 4 | .safe => 5

/-- `MBSTAT` (R446). -/
def State.mbstat (s : State) : Word :=
  BitVec.ofNat 64 (s.mailbox.lastErr % 256 * 2 ^ 24 + s.phase.code * 2 ^ 16 + boolBit s.mailbox.event 2 + boolBit s.mailbox.done 1
    + boolBit s.mailbox.busy 0)

/-- Arguments and data window. -/
def State.mbarg (s : State) (n : Fin 7) : Nat := (s.reg (.mbarg n)).toNat
def State.mbdata (s : State) (n : Nat) : List Byte :=
  ((List.range 512).map fun i => leBytes (lookup 0 (0x1000 + i) s.regs : Word).toNat 8).flatten.take n

/-- Puts bytes at the start of the data window. -/
def State.setMbdata (s : State) (bs : List Byte) : State :=
  let all := bs ++ (s.mbdata 4096).drop bs.length
  { s with regs := (List.range 512).foldl (fun l i => store (0x1000 + i) (BitVec.ofNat 64 (fieldAt all (8 * i) 8)) l) s.regs }

/-- A mailbox command (R445, R446): ignored but for `LASTERR` while another runs; refused where its states do not hold.
Otherwise it runs, with the error code that it will show when it finishes. -/
def mailbox (readyOnly : Bool) (body : Op Nat) : Op Unit := do
  let s ← get
  due (decide (s.phase ≠ .off))
  if s.mailbox.busy then set { s with mailbox := { s.mailbox with lastErr := 1 } }
  else
    set { s with mailbox := { s.mailbox with busy := true, done := false } }
    let e ← (if readyOnly && decide (s.phase ≠ .ready) then pure 3 else body)
    modify fun s => { s with mailbox := { s.mailbox with result := e } }

/-- The effect of `DEADLINE` (R433), with its error code. While a page of the report object is awaited the command goes on. -/
def deadlineCommand (isVf : Bool) (target at_ : Nat) (report : Word) : Op Nat := do
  let s ← get
  match ← tryAsk (reportOk (s.reportAsid isVf target) report (s.targetQueues isVf target).length) with
  | none =>
    modify fun s => { s with mailbox := { s.mailbox with held := some (isVf, target, at_, report) } }
    return 0
  | some ok =>
    if ok then modify fun s => s.postDeadline isVf target at_ report
    modify fun s => { s with mailbox := { s.mailbox with held := none } }
    return if ok then 0 else 2

/-- MAILBOX_COMMAND_DONE (R446): an `IMGCOMMIT` writes its commit flag (R449). A `DEADLINE` whose report object's page was awaited
goes on, and has finished when it is no longer awaited. -/
def execMailboxCommandDone (s : State) : Host.Outcome State Fault Refusal :=
  runEvent (do
    due (← get).mailbox.busy
    match (← get).mailbox.held with
    | some (isVf, target, at_, report) =>
      let e ← deadlineCommand isVf target at_ report
      modify fun s => { s with mailbox := { s.mailbox with result := e } }
    | none => pure ()
    let s ← get
    let m := s.mailbox
    if m.held.isSome then return
    set { s with
      flash := { s.flash with commit := s.flash.commit || m.commit }
      mailbox := { m with busy := false, done := true, lastErr := m.result, result := 0, commit := false } }) s

/-- The bytes of R447. -/
def State.statusBytes (s : State) : List Byte :=
  ((List.range 8).map fun d => leBytes (s.enabledOn d) 2).flatten ++ leBytes ((s.liveChannels.map fun c => 2 ^ c).sum) 32

/-- `MBRESP` of `STATUS` (R447). -/
def State.statusWord (s : State) : Word :=
  BitVec.ofNat 64 (boolBit ((List.range 8).any fun d => decide (s.enabledOn d < 992)) 31 + s.enabledCores * 2 ^ 17
    + s.liveChannels.length * 2 ^ 8 + s.phase.code)

/-- STATUS (R447). -/
def execStatus (s : State) : Host.Outcome State Fault Refusal :=
  runEvent (mailbox false (do
    modify fun s => { s.setMbdata s.statusBytes with mailbox := { s.mailbox with resp := s.statusWord } }
    return 0)) s

/-- A log entry (R450). -/
def LogEntry.bytes (e : LogEntry) : List Byte :=
  leBytes e.cycle 8 ++ leBytes e.cls 1 ++ leBytes e.kind 1 ++ leBytes e.unit 2 ++ leBytes 0 4 ++ leBytes e.d0.toNat 8 ++ leBytes e.d1.toNat 8

/-- LOG (R446). -/
def execLog (s : State) : Host.Outcome State Fault Refusal :=
  runEvent (mailbox false (do
    modify fun s => { s.setMbdata (((s.log.drop (s.mbarg 0)).take 128).map LogEntry.bytes).flatten with
      mailbox := { s.mailbox with event := false } }
    return 0)) s

/-- IDENT (R446). -/
def execIdent (s : State) : Host.Outcome State Fault Refusal :=
  runEvent (mailbox false (do
    modify fun s => s.setMbdata ((Config.certificates.drop (s.mbarg 0)).take 4096)
    return 0)) s

/-- A write of flash: 6 when it fails and nothing is written (R446; log entry 132), else the error code of what follows it. -/
def writeFlash (body : Op Nat) : Op Nat := do
  let s ← get
  set { s with free := s.free + 1 }
  if Config.flashFails s.free then return 6 else body

/-- IMGLOAD (R446): bytes join the pending slot at an offset at which it ends, or within it. -/
def execImgload (s : State) : Host.Outcome State Fault Refusal :=
  runEvent (mailbox false (do
    let s ← get
    let off := s.mbarg 0
    let n := s.mbarg 1
    let f := s.flash
    if n > 4096 || off > f.pend.length || off + n > 0x1300 + 67108864 then return 2
    else writeFlash (do
      modify fun s => { s with flash := { f with pend := f.pend.take off ++ s.mbdata n ++ f.pend.drop (off + n) } }
      return 0))) s

/-- IMGCOMMIT (R449). -/
def execImgcommit (s : State) : Host.Outcome State Fault Refusal :=
  runEvent (mailbox false (do
    let s ← get
    if !imgGenuine s.flash.pend then return 4
    else if !imgVerifies s.flash.pend s.flash.counter then return 5
    else writeFlash (do
      modify fun s => { s with mailbox := { s.mailbox with commit := true } }
      return 0))) s

/-- RESET (R441, R446). -/
def execReset (s : State) : Host.Outcome State Fault Refusal :=
  runEvent (do
    let s ← get
    due (decide (s.phase ≠ .off))
    if s.mailbox.busy then set { s with mailbox := { s.mailbox with lastErr := 1 } } else set (s.resetTo .rom)) s

/-- A record or a queue holds a partition. -/
def State.partBusy (s : State) (part : Nat) : Bool :=
  (s.recs.any fun r => decide (r.2.part = part) && !r.2.closed)
    || s.queues.any fun q => decide (q.2.part = part) && decide (q.2.head ≠ q.2.tail)

/-- A partition descriptor (R431). -/
def parsePartition (b : List Byte) : Partition :=
  { base := fieldAt b 0 2, len := fieldAt b 2 2, minCores := fieldAt b 4 2, minBw := fieldAt b 6 2, upper := (fieldAt b 8 1).testBit 1 }

/-- The checks of R431 and R432 on a descriptor with `VALID` set. -/
def State.partitionOk (s : State) (n : Nat) (p : Partition) : Bool :=
  let others := s.partitions.filter fun e => decide (e.1 ≠ n)
  let sites := ((List.range p.len).map (· + p.base)).filter fun x => !s.fused.contains x
  decide (1 ≤ p.len) && decide (p.len ≤ 8192 - p.base)
    && decide (p.minBw ≤ 38400) && !sites.isEmpty
    && (others.all fun e => decide (e.2.base + e.2.len ≤ p.base) || decide (p.base + p.len ≤ e.2.base))
    && (sites.all fun x => (s.coreAt x).secure == (s.coreAt (sites.headD 0)).secure)
    && decide ((others.map fun e => e.2.minCores).sum + p.minCores ≤ s.enabledCores)
    && decide ((others.map fun e => e.2.minBw).sum + p.minBw ≤ s.bandwidth)

/-- The reserved bits of a partition descriptor are zero. -/
def partitionClear (b : List Byte) : Bool :=
  decide (fieldAt b 0 2 < 2 ^ 13) && decide (fieldAt b 2 2 < 2 ^ 14) && decide (fieldAt b 4 2 < 2 ^ 13) && decide (fieldAt b 8 1 < 4)
    && decide (fieldAt b 9 7 = 0)

/-- PARTDEF (R431). A nonzero reserved field refuses the descriptor, as in a queue descriptor (R423); R431 does not list it
(log entry 107). -/
def execPartdef (s : State) : Host.Outcome State Fault Refusal :=
  runEvent (mailbox true (do
    let s ← get
    let n := s.mbarg 0
    let b := s.mbdata 16
    let p := parsePartition b
    if n ≥ 20 || !partitionClear b || s.partBusy n then return 2
    else if (fieldAt b 8 1).testBit 0 then
      if s.partitionOk n p then
        set { s with partitions := store n p s.partitions }
        return 0
      else return 2
    else if s.queues.any fun q => decide (q.2.part = n) then return 2
    else
      set { s with partitions := erase n s.partitions }
      return 0)) s

/-- REGION (R439): a region-table entry, by the secure firmware alone. A nonzero reserved field refuses it, which R439 does not
say (log entry 107). What a function without `SECWORLD` has mapped of it stays mapped no longer (R422, R440). -/
def execRegion (secure : Bool) (s : State) : Host.Outcome State Fault Refusal :=
  runEvent (mailbox true (do
    let s ← get
    let n := s.mbarg 0
    let lo := s.mbarg 1
    let hi := s.mbarg 2
    let old : WorldRegion := lookup {} n s.regionTbl
    let r : WorldRegion := { valid := lo.testBit 0, base := fieldN lo 21 43, units := fieldN hi 0 32, secure := lo.testBit 1, lock := lo.testBit 2 }
    let clear := s.regionTbl.all fun e => e.1 = n || !e.2.valid || decide (e.2.base + e.2.units ≤ r.base)
      || decide (r.base + r.units ≤ e.2.base)
    if !secure || n ≥ 64 || old.lock || fieldN lo 3 18 ≠ 0 || fieldN hi 32 32 ≠ 0 || (r.valid && (r.units = 0 || !clear)) then return 2
    else
      set ({ s with regionTbl := store n r s.regionTbl } : State).refuseSecure
      return 0)) s

/-- DEADLINE (R433). -/
def execDeadline (s : State) : Host.Outcome State Fault Refusal :=
  runEvent (mailbox true (do
    let s ← get
    let kind := s.mbarg 0
    let isVf := decide (kind = 2)
    if (kind = 1 || isVf) && s.deadlineTarget isVf (s.mbarg 1) then
      deadlineCommand isVf (s.mbarg 1) (s.mbarg 2) (s.reg (.mbarg 3))
    else return 2)) s

/-- RETIRE (R453). -/
def execRetire (s : State) : Host.Outcome State Fault Refusal :=
  runEvent (mailbox true (do
    let s ← get
    let kind := s.mbarg 0
    let n := s.mbarg 1
    if kind = 1 && n < 1024 then
      set (s.retireUnit (.cluster n))
      return 0
    else if kind = 2 && n < 256 then
      set (s.retireUnit (.channel n))
      return 0
    else return 2)) s

/-! Attestation (R419, R451). -/

/-- A measurement (R451). -/
def State.measurement (s : State) (n : Nat) : Option (List Byte) :=
  let nums := fun (l : List Nat) => (l.map fun x => leBytes x 2).flatten
  if n = 1 then some Config.romDigest
  else if n = 2 then some ((s.flash.active.drop 0x40).take 64)
  else if n = 3 then some (leBytes (imgSvn s.flash.active) 4 ++ leBytes s.flash.counter 4)
  else if n = 4 then some (Config.sha3 (nums (fuseMap ++ s.flash.clusters ++ s.flash.channels)))
  else if n = 5 then some (Config.sha3
    ((s.partitions.map fun p => nums [p.1, p.2.base, p.2.len, p.2.minCores, p.2.minBw, boolBit p.2.upper 1]).flatten
      ++ (s.regionTbl.map fun r => nums [r.1] ++ leBytes (r.2.base * 2 ^ 21 + boolBit r.2.lock 2 + boolBit r.2.secure 1
        + boolBit r.2.valid 0) 8 ++ leBytes r.2.units 8).flatten))
  else none

/-- SPDM_REQUEST (R419, R451): a signed measurement, or a step of a VF's TDISP interface; one that has failed is in ERROR until it is
stopped (log entry 85). -/
def execSpdmRequest (req : SpdmReq) (s : State) : Host.Outcome State Fault Refusal :=
  runEvent (do
    due (decide ((← get).phase ≠ .off))
    let s ← get
    let step := fun (vf old new : Nat) => do
      due (decide (s.phase = .ready) && decide (vf < 256) && decide ((s.vfAt vf).tdisp = old))
      set (s.setVf vf { s.vfAt vf with tdisp := new })
    match req with
    | .measure n =>
      let m ← dueSome (s.measurement n)
      set { s with spdm := s.spdm ++ [m ++ Config.signature m] }
    | .lock vf => step vf 0 1
    | .start vf => step vf 1 2
    | .stop vf =>
      due (decide (s.phase = .ready) && decide (vf < 256))
      set (s.setVf vf { s.vfAt vf with tdisp := 0 })
    | .fail vf =>
      due (decide (s.phase = .ready) && decide (vf < 256))
      set (s.setVf vf { s.vfAt vf with tdisp := 3 })) s

end Sys2Proof.Machine
end

