-- ==== Sys2Proof/Machine/HeapPass.lean ====
section
/-! DEFINITION. HeapPass: a pass over the heap of an ASID (R165). -/

namespace Sys2Proof.Machine

/-- Pointers of a launch record. -/
def Launch.ptrs (l : Launch) : List Word := [l.code, l.signal, l.arg] ++ l.wait

/-- A record as a heap pass sees it: its number, the device with the pads that the record has left brought back, its cores
with their sites, and the keys of the headers in its pads. -/
structure PassRec where
  rid : Nat
  s : State
  cores : List (Nat × Core)
  hdrs : List Nat

/-- A traced object: its place, with the record that holds it for a pad. -/
abbrev Traced := Option Nat × Loc

/-- A core of a record, or its image where the record has left it. -/
def State.coreOrImage (s : State) (r : Rec) (lc : Nat) : Core :=
  match (if r.vacated.contains lc then find lc r.images else none) with
  | some img => img.core
  | none => s.coreAt (r.place.getD lc 0)

/-- The pads of a record as they stand, those that it has left included (R408). -/
def State.withPads (s : State) (rid : Nat) : State :=
  let r := s.recAt rid
  let put := fun (base : Nat) (m : Mem) (img : Mem) => img.foldl (fun (m : Mem) (x : Nat × Byte) => m.set (base + x.1) x.2) m
  let m1 := if r.st = .switched then put 0 (r.areaKeys.foldl (fun (m : Mem) a => m.clear a.1 a.2) s.mem) r.areaSave.mem else s.mem
  { s with mem := r.vacated.foldl (fun (m : Mem) lc =>
      match find lc r.images with
      | some img => let base := corePadKey (r.place.getD lc 0); put base (m.clear base padTop) img.mem
      | none => m) m1 }

/-- A record of the ASID for a pass. -/
def State.passRec (s : State) (rid : Nat) : PassRec :=
  let r := s.recAt rid
  let cores := (List.range r.place.length).map fun lc => (r.place.getD lc 0, s.coreOrImage r lc)
  { rid := rid, s := s.withPads rid, cores := cores
    hdrs := (cores.map fun c => c.2.pad.hdrs).flatten ++ ((r.careas ++ r.dareas).map fun a => a.2.hdrs).flatten }

/-- What a pointer of a core of a record names. -/
def PassRec.named (x : PassRec) (site : Nat) (p : Word) : Option Traced :=
  let r := x.s.recAt x.rid
  if ptrLevel p = 0 then some (none, .heap r.l.asid (ptrLoc p))
  else ((padKeyOf r site p).filter x.hdrs.contains).map fun k => (some x.rid, .pad k)

def PassRec.namedAll (x : PassRec) (site : Nat) (ps : List Word) : List Traced := ps.filterMap (x.named site)

/-- The roots that a record holds (R157, R165): its cores' pointers, the PTRS objects of their pads, the objects that stay
whatever names them, the remembered words, and the pointers of its launch record. -/
def PassRec.roots (x : PassRec) : List Traced :=
  let r := x.s.recAt x.rid
  let site := r.place.headD 0
  let rems := (x.cores.map fun c => c.2.pad.rem).flatten ++ ((r.careas ++ r.dareas).map fun a => a.2.rem).flatten
  let kept := x.hdrs.filter fun k => x.s.heldInPlace k || x.s.pinned k || (keyLevel k = 3 && x.s.isPtrs k)
  (x.cores.map fun c => x.namedAll c.1 c.2.rootPtrs).flatten ++ (kept.map fun k => (some x.rid, Loc.pad k))
    ++ x.namedAll site (rems.map x.s.nameWord) ++ x.namedAll site (r.l.ptrs ++ r.ctxbufs.map (·.2))

/-- A page of an ASID that is not translated. -/
def State.unmapped (s : State) (asid va : Nat) : Bool := (find (pageKey asid (va / 4096)) s.ptes).isNone

/-- The pages that tracing an object needs and that are not translated: that of its header, and those of the words of a PTRS
object. -/
def State.tracePages (s : State) (n : Traced) : List Nat :=
  match n.2 with
  | .pad _ => []
  | .heap asid va =>
    if s.unmapped asid va then [va]
    else if (s.hdr n.2).typ = tPTRS then (pageStarts (va + 32) (s.hdr n.2).len).filter (s.unmapped asid)
    else []

/-- What a live object makes live: what its words name, when it is a PTRS object, each copy of it in a pad, whose words may be
newer, and the object that a copy or a forwarding header links to. -/
def successors (s : State) (mine : List PassRec) (n : Traced) : List Traced :=
  match n with
  | (some rid, .pad k) =>
    match mine.find? fun x => decide (x.rid = rid) with
    | none => []
    | some x =>
      let h := x.s.mem.hdr k
      let site := (x.s.recAt rid).place.headD 0
      (if h.padcopy || h.forward then x.namedAll site [h.link] else [])
        ++ (if x.s.isPtrs k then x.namedAll site (x.s.ptrWords k) else [])
  | (_, .heap asid va) =>
    let canon := va
    let copies := (mine.map fun x => (x.hdrs.filter fun k =>
      (x.s.mem.hdr k).padcopy && decide (ptrLevel (x.s.mem.hdr k).link = 0) && decide (ptrLoc (x.s.mem.hdr k).link = canon)).map
        fun k => (some x.rid, Loc.pad k)).flatten
    let l := Loc.heap asid va
    let words := if !s.unmapped asid va && decide ((s.hdr l).typ = tPTRS) then
        (List.range ((s.hdr l).len / 8)).map fun i => BitVec.ofNat 64 (ofBytes (s.bodyBytes l (8 * i) 8))
      else []
    copies ++ (words.filter fun w => decide (ptrLevel w = 0)).map (fun w => (none, Loc.heap asid (ptrLoc w)))
      ++ (mine.map fun x => x.namedAll ((x.s.recAt x.rid).place.headD 0) (words.filter fun w => decide (ptrLevel w ≠ 0))).flatten
  | (none, .pad _) => []

/-- The objects reached from a list, in at most n rounds. -/
def traceFrom (s : State) (mine : List PassRec) : Nat → List Traced → List Traced
  | 0, l => l
  | n + 1, l =>
    let next := ((l.map (successors s mine)).flatten).foldl (fun acc x => if acc.contains x then acc else acc ++ [x]) l
    if next.length = l.length then l else traceFrom s mine n next

/-- A record does not hinder a heap pass: it is not running, or stands at a device-level boundary with no message in flight. -/
def State.atRest (s : State) (rid : Nat) (r : Rec) : Bool :=
  r.st ≠ .running || (r.boundary && s.net.all fun f => decide (f.srcRec ≠ rid) && decide (f.target ≠ some rid))

/-- Records of an ASID that have not ended. -/
def State.recsOf (s : State) (asid : Nat) : List (Nat × Rec) :=
  s.recs.filter fun e => decide (e.2.l.asid = asid) && decide (e.2.st ≠ .ended)

/-- The records of an ASID's queues that stand in the rings and have not been fetched, where their pages are translated. -/
def State.ringRecords (s : State) (asid : Nat) : List Launch :=
  ((s.queues.filter fun q => decide (q.2.asid = asid)).map fun q =>
    ((List.range (q.2.tail - q.2.head).toNat).map fun i => q.2.ring + 128 * ((q.2.head.toNat + i) % q.2.entries)).filterMap fun va =>
      if s.unmapped asid va then none else some (parseLaunch (s.heapBytes asid va 128))).flatten

/-- The pages of those records that are not translated. -/
def State.ringPages (s : State) (asid : Nat) : List Nat :=
  ((s.queues.filter fun q => decide (q.2.asid = asid)).map fun q =>
    ((List.range (q.2.tail - q.2.head).toNat).map fun i => q.2.ring + 128 * ((q.2.head.toNat + i) % q.2.entries)).filter
      (s.unmapped asid)).flatten

/-- The objects that a heap pass of an ASID finds live (R165). A round reaches an object more or is the last, and no more
objects can be named than words lie in the pads and the translated pages. -/
def State.heapLive (s : State) (asid : Nat) : List Traced :=
  let mine := (s.recsOf asid).map fun e => s.passRec e.1
  let x : AsidSt := lookup {} asid s.asids
  let heapRoots := ((x.objs ++ x.roots).filter fun va => !s.unmapped asid va
    && ((s.hdr (.heap asid va)).root || decide ((s.hdr (.heap asid va)).eref ≠ 0))).map fun va => ((none, Loc.heap asid va) : Traced)
  let rings := ((s.ringRecords asid).map fun l => (l.ptrs.filter fun p => decide (ptrLevel p = 0)).map
    fun p => ((none, Loc.heap asid (ptrLoc p)) : Traced)).flatten
  let start := (mine.map PassRec.roots).flatten ++ heapRoots ++ rings
  traceFrom s mine (start.length + 512 * s.ptes.length + s.mem.length + 1) start.dedup

/-- A heap pass that has been asked for can take place. -/
def State.heapPassDue (s : State) (asid : Nat) : Bool :=
  (lookup {} asid s.asids : AsidSt).passPending.isSome && (s.recsOf asid).all fun e => s.atRest e.1 e.2

/-- A live object reaches into a region of the heap. -/
def State.liveIn (s : State) (asid : Nat) (live : List Traced) (r : HeapRegion) : Bool :=
  (lookup {} asid s.asids : AsidSt).objs.any fun va =>
    live.contains (none, .heap asid va) && decide (va < r.base + 2097152)
      && (s.unmapped asid va || decide (r.base < va + (s.hdr (.heap asid va)).foot))

/-- Asks for pages of an ASID for the device: whether one is still awaited. A page that the host refuses is passed over. -/
def askPages (asid : Nat) : List Nat → Op Bool
  | [] => return false
  | va :: t => do
    let ran ← tryRun (do let _ ← translateFor .device asid va false 0)
    let more ← askPages asid t
    return more || decide (ran = .parked)

/-- The pages, by their first addresses, that a heap pass of an ASID needs and that are not translated. -/
def State.passPages (s : State) (asid : Nat) : List Nat :=
  ((s.ringPages asid ++ ((s.heapLive asid).map s.tracePages).flatten).map fun va => va / 4096 * 4096).dedup

/-- HEAP_PASS (R165): the pass waits for the pages of the objects that it traces and of the records in the rings; then the
regions without a live object go back to the free list, and their pages leave the tier pool. -/
def heapPassBody (asid : Nat) : Op Unit := do
  let s ← get
  due (s.heapPassDue asid)
  let live := s.heapLive asid
  let waits ← askPages asid (s.passPages asid)
  if waits then return
  let s ← get
  let x : AsidSt := lookup {} asid s.asids
  let keep := x.regions.filter fun r => decide (r.used = 0) || s.liveIn asid live r
  let gone := x.regions.filter fun r => decide (r.used ≠ 0) && !s.liveIn asid live r
  let freed := fun (va : Nat) => gone.any fun r => within r.base 2097152 va
  set { s with
    asids := store asid { x with
      regions := keep ++ gone.map (fun (r : HeapRegion) => { r with used := 0 })
      objs := x.objs.filter fun va => !freed va
      passPending := none, passDone := x.passPending.getD 0, passFreed := gone.length } s.asids
    tier := s.tier.filter fun e => !(decide (e.asid = asid) && freed (e.page * 4096))
    kvTabs := s.kvTabs.filter fun k => !(decide (k.asid = asid) && freed k.va) }

def execHeapPass (asid : Nat) (s : State) : Host.Outcome State Fault Refusal := runEvent (heapPassBody asid) s

end Sys2Proof.Machine
end

