-- ==== Sys2Proof/Machine/Parking.lean ====
section
/-! DEFINITION. Parking: `park` and `unpark` (R103, R104). -/

namespace Sys2Proof.Machine

/-- The register of a file that a field names, as its slots: a port pops (R37), and so does a running read stream (R266). -/
def parkWords (f : Nat) (a : BitVec 5) : Op (List Word) := do
  if f = 0 then return [← rdS a]
  else if f = 2 then
    let v ← rdV a
    return (List.range 16).map fun i => v.extractLsb' (64 * i) 64
  else return (← getCore).slotsOf (← getCtx) f a.toNat

/-- Slots from n on hold the words of a register, with its tag, and for a pointer the bounds shadow that travels with it (R34,
R103, R125; log entry 21). -/
def Core.parkAt (c : Core) (n : Nat) (ws : List Word) (sh : Option Shadow) : Core :=
  let tags := dropRange n ws.length c.ptrSlots
  let kept := c.parked.filter fun e => !within n ws.length e.1
  { c.putSlots n ws with
    ptrSlots := if sh.isSome then insertKey n tags else tags
    parked := match sh.filter (·.valid) with | some x => store n x kept | none => kept }

/-- `park` (R104). -/
def execPark (a b : BitVec 5) (f : BitVec 3) (s : State) : Host.Outcome State Fault Refusal :=
  runInstr (.park a b f) (do
    let early ← (if f = 0 || f = 2 then parkWords f.toNat a else pure [])
    let n ← rdS b
    let n := n.toNat
    parkChecks f.toNat n
    let c ← getCore
    if f = 3 && c.tileBusy a.toNat then waitHere
    let ws ← (if f = 0 || f = 2 then pure early else parkWords f.toNat a)
    let x ← getCtx
    modCore fun c => c.parkAt n ws (if f = 1 then some (x.areg a.toNat).sh else none)) s

/-- Writes a register of a file, other than `s`, from slots. A vector register is written as by any instruction: a running read
stream is no destination, and a write stream pushes (R266). -/
def unparkReg (f : Nat) (d : BitVec 5) (ws : List Word) (sh : Shadow) : Op Unit :=
  let v := slotsNat ws
  if f = 1 then wrA d.toNat { ptr := ws.headD 0, cur := (ws.getD 1 0).setWidth 32, sh := sh }
  else if f = 2 then wrV d (BitVec.ofNat 1024 v)
  else if f = 3 then modCore fun c => (List.range 64).foldl (fun (c : Core) i => c.setAcc (64 * d.toNat + i) (ws.getD i 0)) c
  else if f = 4 then wrW d.toNat { bits := BitVec.ofNat 1024 (v % 2 ^ 1024), desc := ws.getD 16 0 }
  else wrK d.toNat (BitVec.ofNat 256 v)

/-- The bounds shadow of a parked pointer: not valid, as `lda` leaves it, unless the pointer was parked valid (R104, R125; log
entry 21). -/
def Core.parkedShadow (c : Core) (n : Nat) : Shadow := (find n c.parked).getD {}

/-- `unpark` (R104). -/
def execUnpark (d b : BitVec 5) (f : BitVec 3) (s : State) : Host.Outcome State Fault Refusal :=
  runInstr (.unpark d b f) (do
    let n ← rdS b
    let n := n.toNat
    parkChecks f.toNat n
    let c ← getCore
    if f = 1 then require (c.ptrSlots.contains n) .type (BitVec.ofNat 64 n)
    if f = 3 && c.tileBusy d.toNat then waitHere
    let ws := (List.range (parkSlots f.toNat)).map fun i => c.accSlot (1024 + n + i)
    if f = 4 then
      let w : WReg := { bits := BitVec.ofNat 1024 (slotsNat (ws.take 16)), desc := ws.getD 16 0 }
      require w.ok .type (BitVec.ofNat 64 n)
    if f = 0 then wrS d (ws.headD 0) else unparkReg f.toNat d ws (c.parkedShadow n)) s

end Sys2Proof.Machine
end

