-- ==== Sys2Proof/Machine/Dispatch.lean ====
section
/-! DEFINITION. Dispatch: one arm for each constructor of Instr, each a direct call of its meaning. -/

namespace Sys2Proof.Machine

def exec (i : Instr) (s : State) : Host.Outcome State Fault Refusal :=
  match i with
  | .add d a b => Sys2Proof.Machine.execAdd d a b s
  | .sub d a b => Sys2Proof.Machine.execSub d a b s
  | .and d a b => Sys2Proof.Machine.execAnd d a b s
  | .or d a b => Sys2Proof.Machine.execOr d a b s
  | .xor d a b => Sys2Proof.Machine.execXor d a b s
  | .sll d a b => Sys2Proof.Machine.execSll d a b s
  | .srl d a b => Sys2Proof.Machine.execSrl d a b s
  | .sra d a b => Sys2Proof.Machine.execSra d a b s
  | .slt d a b => Sys2Proof.Machine.execSlt d a b s
  | .sltu d a b => Sys2Proof.Machine.execSltu d a b s
  | .min d a b => Sys2Proof.Machine.execMin d a b s
  | .max d a b => Sys2Proof.Machine.execMax d a b s
  | .minu d a b => Sys2Proof.Machine.execMinu d a b s
  | .maxu d a b => Sys2Proof.Machine.execMaxu d a b s
  | .mul d a b => Sys2Proof.Machine.execMul d a b s
  | .mulh d a b => Sys2Proof.Machine.execMulh d a b s
  | .mulhu d a b => Sys2Proof.Machine.execMulhu d a b s
  | .div d a b => Sys2Proof.Machine.execDiv d a b s
  | .divu d a b => Sys2Proof.Machine.execDivu d a b s
  | .rem d a b => Sys2Proof.Machine.execRem d a b s
  | .remu d a b => Sys2Proof.Machine.execRemu d a b s
  | .clz d a => Sys2Proof.Machine.execClz d a s
  | .ctz d a => Sys2Proof.Machine.execCtz d a s
  | .popc d a => Sys2Proof.Machine.execPopc d a s
  | .sel d a b c => Sys2Proof.Machine.execSel d a b c s
  | .addi d a im => Sys2Proof.Machine.execAddi d a im s
  | .andi d a im => Sys2Proof.Machine.execAndi d a im s
  | .ori d a im => Sys2Proof.Machine.execOri d a im s
  | .xori d a im => Sys2Proof.Machine.execXori d a im s
  | .slti d a im => Sys2Proof.Machine.execSlti d a im s
  | .sltiu d a im => Sys2Proof.Machine.execSltiu d a im s
  | .slli d a sc h => Sys2Proof.Machine.execSlli d a sc h s
  | .srli d a sc h => Sys2Proof.Machine.execSrli d a sc h s
  | .srai d a sc h => Sys2Proof.Machine.execSrai d a sc h s
  | .lhi d k im => Sys2Proof.Machine.execLhi d k im s
  | .beq a b o => Sys2Proof.Machine.execBeq a b o s
  | .bne a b o => Sys2Proof.Machine.execBne a b o s
  | .blt a b o => Sys2Proof.Machine.execBlt a b o s
  | .bge a b o => Sys2Proof.Machine.execBge a b o s
  | .bltu a b o => Sys2Proof.Machine.execBltu a b o s
  | .bgeu a b o => Sys2Proof.Machine.execBgeu a b o s
  | .jal d o => Sys2Proof.Machine.execJal d o s
  | .jalr d a im => Sys2Proof.Machine.execJalr d a im s
  | .tidx d a k => Sys2Proof.Machine.execTidx d a k s
  | .shp d a b => Sys2Proof.Machine.execShp d a b s
  | .crd d n => Sys2Proof.Machine.execCrd d n s
  | .crw d a n => Sys2Proof.Machine.execCrw d a n s
  | .crs d a n => Sys2Proof.Machine.execCrs d a n s
  | .crc d a n => Sys2Proof.Machine.execCrc d a n s
  | .ld d p x z im => Sys2Proof.Machine.execLd d p x z im s
  | .st d p x z im => Sys2Proof.Machine.execSt d p x z im s
  | .lda d p x im => Sys2Proof.Machine.execLda d p x im s
  | .sta d p x im => Sys2Proof.Machine.execSta d p x im s
  | .touch d a => Sys2Proof.Machine.execTouch d a s
  | .alloc d a b => Sys2Proof.Machine.execAlloc d a b s
  | .acurSet d a b => Sys2Proof.Machine.execAcurSet d a b s
  | .acurAdd d a b => Sys2Proof.Machine.execAcurAdd d a b s
  | .olen d a sc => Sys2Proof.Machine.execOlen d a sc s
  | .otype d a => Sys2Proof.Machine.execOtype d a s
  | .root a => Sys2Proof.Machine.execRoot a s
  | .unroot a => Sys2Proof.Machine.execUnroot a s
  | .acq d a sc => Sys2Proof.Machine.execAcq d a sc s
  | .rel d a sc => Sys2Proof.Machine.execRel d a sc s
  | .fence d l e sc => Sys2Proof.Machine.execFence d l e sc s
  | .amo d a sc k o => Sys2Proof.Machine.execAmo d a sc k o s
  | .cas d a sc k c => Sys2Proof.Machine.execCas d a sc k c s
  | .red d a sc k o => Sys2Proof.Machine.execRed d a sc k o s
  | .reductionPerformed k => Sys2Proof.Machine.execReductionPerformed k s
  | .hrd d a b z => Sys2Proof.Machine.execHrd d a b z s
  | .hwr d a b z => Sys2Proof.Machine.execHwr d a b z s
  | .cpost d a b => Sys2Proof.Machine.execCpost d a b s
  | .cpostBarrier d a b c => Sys2Proof.Machine.execCpostBarrier d a b c s
  | .cpostComplete k => Sys2Proof.Machine.execCpostComplete k s
  | .cwait d a => Sys2Proof.Machine.execCwait d a s
  | .evw d a => Sys2Proof.Machine.execEvw d a s
  | .evsig a b => Sys2Proof.Machine.execEvsig a b s
  | .eventWordAccepted k => Sys2Proof.Machine.execEventWordAccepted k s
  | .mtxl d a => Sys2Proof.Machine.execMtxl d a s
  | .mtxu a => Sys2Proof.Machine.execMtxu a s
  | .binit d a b sc => Sys2Proof.Machine.execBinit d a b sc s
  | .bpost d a b sc => Sys2Proof.Machine.execBpost d a b sc s
  | .barr d a b sc => Sys2Proof.Machine.execBarr d a b sc s
  | .bwait d a b sc => Sys2Proof.Machine.execBwait d a b sc s
  | .dqpush d a b sc => Sys2Proof.Machine.execDqpush d a b sc s
  | .dqpop d a sc => Sys2Proof.Machine.execDqpop d a sc s
  | .dqsteal d a sc => Sys2Proof.Machine.execDqsteal d a sc s
  | .sstep d => Sys2Proof.Machine.execSstep d s
  | .superstepAdvance k => Sys2Proof.Machine.execSuperstepAdvance k s
  | .tenantSwitch r => Sys2Proof.Machine.execTenantSwitch r s
  | .scree d a => Sys2Proof.Machine.execScree d a s
  | .heapPass asid => Sys2Proof.Machine.execHeapPass asid s
  | .sstat d a => Sys2Proof.Machine.execSstat d a s
  | .hstart d a b => Sys2Proof.Machine.execHstart d a b s
  | .hjoin d a => Sys2Proof.Machine.execHjoin d a s
  | .hexit a => Sys2Proof.Machine.execHexit a s
  | .hid d => Sys2Proof.Machine.execHid d s
  | .yield => Sys2Proof.Machine.execYield s
  | .park a b f => Sys2Proof.Machine.execPark a b f s
  | .unpark d b f => Sys2Proof.Machine.execUnpark d b f s
  | .tuft d a => Sys2Proof.Machine.execTuft d a s
  | .split => Sys2Proof.Machine.execSplit s
  | .glaunch d a => Sys2Proof.Machine.execGlaunch d a s
  | .vadd d a b p e => Sys2Proof.Machine.execVadd d a b p e s
  | .vsub d a b p e => Sys2Proof.Machine.execVsub d a b p e s
  | .vmul d a b p e => Sys2Proof.Machine.execVmul d a b p e s
  | .vmin d a b p e => Sys2Proof.Machine.execVmin d a b p e s
  | .vmax d a b p e => Sys2Proof.Machine.execVmax d a b p e s
  | .vabs d a p e => Sys2Proof.Machine.execVabs d a p e s
  | .vneg d a p e => Sys2Proof.Machine.execVneg d a p e s
  | .vand d a b p e => Sys2Proof.Machine.execVand d a b p e s
  | .vor d a b p e => Sys2Proof.Machine.execVor d a b p e s
  | .vxor d a b p e => Sys2Proof.Machine.execVxor d a b p e s
  | .vsll d a b p e => Sys2Proof.Machine.execVsll d a b p e s
  | .vsrl d a b p e => Sys2Proof.Machine.execVsrl d a b p e s
  | .vsra d a b p e => Sys2Proof.Machine.execVsra d a b p e s
  | .vmov d a p e => Sys2Proof.Machine.execVmov d a p e s
  | .vmovExtract d a b p e sgn => Sys2Proof.Machine.execVmovExtract d a b p e sgn s
  | .vmovInsert d a b p e => Sys2Proof.Machine.execVmovInsert d a b p e s
  | .vbcast d a p e => Sys2Proof.Machine.execVbcast d a p e s
  | .vfadd d a b p e => Sys2Proof.Machine.execVfadd d a b p e s
  | .vfsub d a b p e => Sys2Proof.Machine.execVfsub d a b p e s
  | .vfmul d a b p e => Sys2Proof.Machine.execVfmul d a b p e s
  | .vfma d a b p e => Sys2Proof.Machine.execVfma d a b p e s
  | .vfms d a b p e => Sys2Proof.Machine.execVfms d a b p e s
  | .vfmin d a b p e => Sys2Proof.Machine.execVfmin d a b p e s
  | .vfmax d a b p e => Sys2Proof.Machine.execVfmax d a b p e s
  | .vfabs d a p e => Sys2Proof.Machine.execVfabs d a p e s
  | .vfneg d a p e => Sys2Proof.Machine.execVfneg d a p e s
  | .vcmp c a b p e => Sys2Proof.Machine.execVcmp c a b p e s
  | .vsel d a b p e => Sys2Proof.Machine.execVsel d a b p e s
  | .pand d a b => Sys2Proof.Machine.execPand d a b s
  | .por d a b => Sys2Proof.Machine.execPor d a b s
  | .pxor d a b => Sys2Proof.Machine.execPxor d a b s
  | .pnot d a => Sys2Proof.Machine.execPnot d a s
  | .pmov d a => Sys2Proof.Machine.execPmov d a s
  | .vperm d a b p e => Sys2Proof.Machine.execVperm d a b p e s
  | .vrsum d a p e => Sys2Proof.Machine.execVrsum d a p e s
  | .vrmax d a p e => Sys2Proof.Machine.execVrmax d a p e s
  | .vrmin d a p e => Sys2Proof.Machine.execVrmin d a p e s
  | .vscan d a p e => Sys2Proof.Machine.execVscan d a p e s
  | .vsmm d a b p => Sys2Proof.Machine.execVsmm d a b p s
  | .vsmmStat d a b p => Sys2Proof.Machine.execVsmmStat d a b p s
  | .vld v p x q w im => Sys2Proof.Machine.execVld v p x q w im s
  | .vst v p x q w im => Sys2Proof.Machine.execVst v p x q w im s
  | .vgth v p x q w im => Sys2Proof.Machine.execVgth v p x q w im s
  | .vsct v p x q w im => Sys2Proof.Machine.execVsct v p x q w im s
  | .sbind d a b => Sys2Proof.Machine.execSbind d a b s
  | .sbnd d a b j => Sys2Proof.Machine.execSbnd d a b j s
  | .sgo d a => Sys2Proof.Machine.execSgo d a s
  | .sstop d a => Sys2Proof.Machine.execSstop d a s
  | .vexp d a p e => Sys2Proof.Machine.execVexp d a p e s
  | .vlog d a p e => Sys2Proof.Machine.execVlog d a p e s
  | .vrcp d a p e => Sys2Proof.Machine.execVrcp d a p e s
  | .vrsqrt d a p e => Sys2Proof.Machine.execVrsqrt d a p e s
  | .vtanh d a p e => Sys2Proof.Machine.execVtanh d a p e s
  | .vsin d a p e => Sys2Proof.Machine.execVsin d a p e s
  | .vgrant d a p w => Sys2Proof.Machine.execVgrant d a p w s
  | .vgrantStream d a p => Sys2Proof.Machine.execVgrantStream d a p s
  | .cvt d a b p e => Sys2Proof.Machine.execCvt d a b p e s
  | .dec d a b p t => Sys2Proof.Machine.execDec d a b p t s
  | .enc d a b p t => Sys2Proof.Machine.execEnc d a b p t s
  | .bscale d a b p => Sys2Proof.Machine.execBscale d a b p s
  | .bscaleObject d a b p e => Sys2Proof.Machine.execBscaleObject d a b p e s
  | .dtld d a b => Sys2Proof.Machine.execDtld d a b s
  | .srseed d a => Sys2Proof.Machine.execSrseed d a s
  | .fclass d a f => Sys2Proof.Machine.execFclass d a f s
  | .kld d a b => Sys2Proof.Machine.execKld d a b s
  | .kst d a b => Sys2Proof.Machine.execKst d a b s
  | .kset d a q => Sys2Proof.Machine.execKset d a q s
  | .ksetPointer d a q => Sys2Proof.Machine.execKsetPointer d a q s
  | .wpush d k => Sys2Proof.Machine.execWpush d k s
  | .wcommit d => Sys2Proof.Machine.execWcommit d s
  | .wwait d a => Sys2Proof.Machine.execWwait d a s
  | .wrd d a b => Sys2Proof.Machine.execWrd d a b s
  | .wrdRow d a b => Sys2Proof.Machine.execWrdRow d a b s
  | .wwr d a b => Sys2Proof.Machine.execWwr d a b s
  | .wwrRow d a b => Sys2Proof.Machine.execWwrRow d a b s
  | .wzero a => Sys2Proof.Machine.execWzero a s
  | .wres d a => Sys2Proof.Machine.execWres d a s
  | .wstat d a => Sys2Proof.Machine.execWstat d a s
  | .pack d a b t => Sys2Proof.Machine.execPack d a b t s
  | .gwid d a b => Sys2Proof.Machine.execGwid d a b s
  | .wmulp d a b => Sys2Proof.Machine.execWmulp d a b s
  | .wmacp d a b => Sys2Proof.Machine.execWmacp d a b s
  | .extr d a b l => Sys2Proof.Machine.execExtr d a b l s
  | .cpush d k => Sys2Proof.Machine.execCpush d k s
  | .cpwait d a => Sys2Proof.Machine.execCpwait d a s
  | .cpstat d a => Sys2Proof.Machine.execCpstat d a s
  | .cppage d a b => Sys2Proof.Machine.execCppage d a b s
  | .cppageRec d a b => Sys2Proof.Machine.execCppageRec d a b s
  | .msend a b c => Sys2Proof.Machine.execMsend a b c s
  | .mrecv d a => Sys2Proof.Machine.execMrecv d a s
  | .mcast a b c => Sys2Proof.Machine.execMcast a b c s
  | .mpoll d sc => Sys2Proof.Machine.execMpoll d sc s
  | .xput a b c => Sys2Proof.Machine.execXput a b c s
  | .putPerformed k => Sys2Proof.Machine.execPutPerformed k s
  | .messageDelivery k => Sys2Proof.Machine.execMessageDelivery k s
  | .messageRefusalTimeout k => Sys2Proof.Machine.execMessageRefusalTimeout k s
  | .kvlk d a => Sys2Proof.Machine.execKvlk d a s
  | .kvfill d a b => Sys2Proof.Machine.execKvfill d a b s
  | .kvinv d a => Sys2Proof.Machine.execKvinv d a s
  | .kvinvAll d => Sys2Proof.Machine.execKvinvAll d s
  | .kvapp d a => Sys2Proof.Machine.execKvapp d a s
  | .kvappLink d a => Sys2Proof.Machine.execKvappLink d a s
  | .kvspec d => Sys2Proof.Machine.execKvspec d s
  | .kvcommit d a => Sys2Proof.Machine.execKvcommit d a s
  | .kvabort d => Sys2Proof.Machine.execKvabort d s
  | .kvget d a b => Sys2Proof.Machine.execKvget d a b s
  | .kvfree d a => Sys2Proof.Machine.execKvfree d a s
  | .kvfreePub d a => Sys2Proof.Machine.execKvfreePub d a s
  | .kvfreePubx d a => Sys2Proof.Machine.execKvfreePubx d a s
  | .rsver d a b => Sys2Proof.Machine.execRsver d a b s
  | .kvret a => Sys2Proof.Machine.execKvret a s
  | .trap h l => Sys2Proof.Machine.execTrap h l s
  | .tret => Sys2Proof.Machine.execTret s
  | .brk h l => Sys2Proof.Machine.execBrk h l s
  | .halt => Sys2Proof.Machine.execHalt s
  | .wfi => Sys2Proof.Machine.execWfi s
  | .ckpt d a => Sys2Proof.Machine.execCkpt d a s
  | .rstor d => Sys2Proof.Machine.execRstor d s
  | .xinv d a b => Sys2Proof.Machine.execXinv d a b s
  | .pfxImm p => Sys2Proof.Machine.execPfxImm p s
  | .pfxReg e => Sys2Proof.Machine.execPfxReg e s
  | .pfxFn x => Sys2Proof.Machine.execPfxFn x s
  | .mma cl u => Sys2Proof.Machine.execMma cl u s
  | .mmaz cl u => Sys2Proof.Machine.execMmaz cl u s
  | .mmat cl u => Sys2Proof.Machine.execMmat cl u s
  | .accst cl u => Sys2Proof.Machine.execAccst cl u s
  | .accld cl u => Sys2Proof.Machine.execAccld cl u s
  | .pconv cl u => Sys2Proof.Machine.execPconv cl u s
  | .pdot cl u => Sys2Proof.Machine.execPdot cl u s
  | .wmbTileJobDispatch cl u core => Sys2Proof.Machine.execWmbTileJobDispatch cl u core s
  | .wmbCommandComplete core => Sys2Proof.Machine.execWmbCommandComplete core s
  | .copy core e => Sys2Proof.Machine.execCopy core e s
  | .xpose core e => Sys2Proof.Machine.execXpose core e s
  | .gather core e => Sys2Proof.Machine.execGather core e s
  | .fill core e => Sys2Proof.Machine.execFill core e s
  | .pagein core e => Sys2Proof.Machine.execPagein core e s
  | .migr core e => Sys2Proof.Machine.execMigr core e s
  | .copyCommandComplete core e => Sys2Proof.Machine.execCopyCommandComplete core e s
  | .copyInComplete k => Sys2Proof.Machine.execCopyInComplete k s
  | .pageRequestAnswer k ans => Sys2Proof.Machine.execPageRequestAnswer k ans s
  | .atsInvalidation asid page count => Sys2Proof.Machine.execAtsInvalidation asid page count s
  | .tierPoolRecall asid page => Sys2Proof.Machine.execTierPoolRecall asid page s
  | .recordDispatch q => Sys2Proof.Machine.execRecordDispatch q s
  | .recordEnd r => Sys2Proof.Machine.execRecordEnd r s
  | .sliceEnd vf => Sys2Proof.Machine.execSliceEnd vf s
  | .switchOutTimeout r => Sys2Proof.Machine.execSwitchOutTimeout r s
  | .reservation part => Sys2Proof.Machine.execReservation part s
  | .timer core => Sys2Proof.Machine.execTimer core s
  | .engineReportTimeout core => Sys2Proof.Machine.execEngineReportTimeout core s
  | .interruptPreempt core => Sys2Proof.Machine.execInterruptPreempt core s
  | .interruptResume core r lc => Sys2Proof.Machine.execInterruptResume core r lc s
  | .interruptDebug core req => Sys2Proof.Machine.execInterruptDebug core req s
  | .corniceTrap core => Sys2Proof.Machine.execCorniceTrap core s
  | .corniceDiscard k => Sys2Proof.Machine.execCorniceDiscard k s
  | .corniceReport k => Sys2Proof.Machine.execCorniceReport k s
  | .pfDeadlinePost pf vf at_ report => Sys2Proof.Machine.execPfDeadlinePost pf vf at_ report s
  | .doorbell q tail => Sys2Proof.Machine.execDoorbell q tail s
  | .featacc fn value => Sys2Proof.Machine.execFeatacc fn value s
  | .reqhead vf value => Sys2Proof.Machine.execReqhead vf value s
  | .evhead vf value => Sys2Proof.Machine.execEvhead vf value s
  | .replyseq vf seq => Sys2Proof.Machine.execReplyseq vf seq s
  | .registerWrite reg value => Sys2Proof.Machine.execRegisterWrite reg value s
  | .queueCreate vf num desc => Sys2Proof.Machine.execQueueCreate vf num desc s
  | .queueEnable q => Sys2Proof.Machine.execQueueEnable q s
  | .queueDisable q del => Sys2Proof.Machine.execQueueDisable q del s
  | .asidBind asid vf pasid grants => Sys2Proof.Machine.execAsidBind asid vf pasid grants s
  | .asidUnbind asid => Sys2Proof.Machine.execAsidUnbind asid s
  | .snapshotRequest vf area dlog => Sys2Proof.Machine.execSnapshotRequest vf area dlog s
  | .vfStop vf => Sys2Proof.Machine.execVfStop vf s
  | .kvMigration vf mig => Sys2Proof.Machine.execKvMigration vf mig s
  | .hostCxlMemAccess acc => Sys2Proof.Machine.execHostCxlMemAccess acc s
  | .spdmRequest req => Sys2Proof.Machine.execSpdmRequest req s
  | .functionReset fn => Sys2Proof.Machine.execFunctionReset fn s
  | .pcieConventionalReset => Sys2Proof.Machine.execPcieConventionalReset s
  | .powerGood => Sys2Proof.Machine.execPowerGood s
  | .rom => Sys2Proof.Machine.execRom s
  | .selftest tests => Sys2Proof.Machine.execSelftest tests s
  | .load pass => Sys2Proof.Machine.execLoad pass s
  | .init => Sys2Proof.Machine.execInit s
  | .fatalFault cls unit => Sys2Proof.Machine.execFatalFault cls unit s
  | .uncorrectableError unit => Sys2Proof.Machine.execUncorrectableError unit s
  | .status => Sys2Proof.Machine.execStatus s
  | .log => Sys2Proof.Machine.execLog s
  | .ident => Sys2Proof.Machine.execIdent s
  | .imgload => Sys2Proof.Machine.execImgload s
  | .imgcommit => Sys2Proof.Machine.execImgcommit s
  | .reset => Sys2Proof.Machine.execReset s
  | .partdef => Sys2Proof.Machine.execPartdef s
  | .region secure => Sys2Proof.Machine.execRegion secure s
  | .deadline => Sys2Proof.Machine.execDeadline s
  | .retire => Sys2Proof.Machine.execRetire s
  | .powerLoss => Sys2Proof.Machine.execPowerLoss s
  | .palbelLinkDead port => Sys2Proof.Machine.execPalbelLinkDead port s
  | .palbelRequest req => Sys2Proof.Machine.execPalbelRequest req s
  | .hwrPerformed core => Sys2Proof.Machine.execHwrPerformed core s
  | .mailboxCommandDone => Sys2Proof.Machine.execMailboxCommandDone s
  | .initTimeout die => Sys2Proof.Machine.execInitTimeout die s
  | .correctableError unit => Sys2Proof.Machine.execCorrectableError unit s

end Sys2Proof.Machine
end

