-- ==== Sys2Proof/Machine/Issue.lean ====
section
/-! DEFINITION. Issue: which context of a core issues (R96), the fetch of its instruction (R68, R69), prefixes (R46), Tufts in
lock-step (R108 to R111), and what the device does of itself in a turn of the schedule. -/

namespace Sys2Proof.Machine

abbrev Result := Host.Outcome State Fault Refusal

/-- Goes on from a next state. -/
def thenDo (r : Result) (f : State → Result) : Result :=
  match r with
  | .next t => f t
  | .fault e => .fault e
  | .refused e => .refused e

/-! Fetch (R68, R69, R400). -/

/-- The trap value of ILLEGAL for a word that has no row of the table: the word, but the field that the rules of `fence`
(R198) and `kvfree` (R375) name. -/
def illegalValue (w : Nat) (miss : Bool) : Word :=
  if w / 67108864 = 20 && w / 65536 % 32 = 0 then BitVec.ofNat 64 (w % 65536)
  else if w / 67108864 = 48 && w % 65536 = 136 then (if miss then 0 else 2)
  else BitVec.ofNat 64 w

/-- What stands at the pc of the context that executes, read from the code of a core: an instruction, or a fault of the
fetch (R69, R400) or of the word (R48). -/
def State.fetched (s : State) (src : Nat) : Except (BitVec 8 × Word) Instr :=
  let pc := s.ctx.pc
  if pc.toNat % 4 ≠ 0 then .error (Cause.misalign.code, pc)
  else
    match { s with site := src }.codeWord pc.toNat with
    | none => .error (Cause.bounds.code, pc)
    | some w =>
      match decodeUnder s.ctx.pfx w with
      | .ok i => .ok i
      | .error _ => .error (Cause.illegal.code, illegalValue w s.core.inMiss)

/-- Context n of a core executes. -/
def State.focus (s : State) (site n : Nat) : State :=
  let s1 := { s with site := site }
  s1.setCore site { s1.coreAt site with act := n }

/-- One word of the context that executes. -/
def State.runWord (s : State) (src : Nat) : Result :=
  match s.fetched src with
  | .error e => .next (s.trapHere e.1 e.2 false)
  | .ok i => exec i s

/-- A prefix is latched for the context that executes. -/
def State.latched (s : State) (n : Nat) : Bool := decide (s.core.act = n) && decide (s.ctx.pfx ≠ .none)

/-- A governed instruction that has not issued takes its prefix back with it: the pair issues together (R46). -/
def State.unlatch (s : State) (site n : Nat) : State :=
  let c := s.coreAt site
  let x := c.ctxAt n
  if x.pfx = .none then s else s.setCore site (c.setCtx n { x with pc := x.pc - 4, pfx := .none })

/-- The next instruction of context n of a core, with its prefix. -/
def State.runNext (s : State) (src site n : Nat) : Result :=
  thenDo ((s.focus site n).runWord src) fun t =>
    if t.latched n then thenDo (t.runWord src) fun u => .next (u.unlatch site n) else .next t

/-! Arbitration (R95, R96, R102). -/

/-- Context `of` of a core has issued: the round goes on from it, and no `yield` waits for it any longer. -/
def State.noteIssue (s : State) (site n of : Nat) : State :=
  let c := s.coreAt site
  if (c.ctxAt n).st = .waiting then s
  else s.setCore site { c with
    last := of
    ctxs := c.ctxs.map fun (x : Context) => { x with passed := x.passed.filter fun m => decide (m ≠ of) } }

/-- The context whose turn it is when context n of a core issues: the miss shadow takes the turns of the context that it
serves, and the trap shadow leaves the round where it stood (R96). -/
def Core.turnAt (c : Core) (n : Nat) : Nat := if n = 12 then (c.miss.map (·.ctx)).getD c.last else if n = 11 then c.last else n

/-- Context n of a core issues. -/
def State.issue (s : State) (site n : Nat) : Result :=
  thenDo (s.runNext site site n) fun t => .next (t.noteIssue site n ((s.coreAt site).turnAt n))

/-- The context that takes the issue turn of context n (R96): the trap shadow while it executes, the miss shadow for the
context it serves. Only READY contexts are considered, and a miss shadow that does not wait. -/
def Core.issuer (c : Core) (n : Nat) : Option Nat :=
  if c.recId.isNone || c.halted then none
  else if c.tshadow then some 11
  else if n ≤ 10 && decide ((c.ctxAt n).st = .ready) && !c.passedOver n then
    (if c.miss.map (·.ctx) = some n then (if (c.ctxAt 12).st = .ready then some 12 else none) else some n)
  else none

/-- The contexts of a core in the order in which they may issue. -/
def Core.round (c : Core) : List Nat :=
  if c.tshadow then (c.issuer 0).toList
  else ((List.range 11).map fun i => (c.last + 1 + i) % 11).filterMap c.issuer

/-- The first context of a list that does not begin to wait issues: one that blocks uses no issue slot (R37), and what it
has noted as it began to wait stands. -/
def State.issueFirst (s : State) (site : Nat) : List Nat → Result
  | [] => .next s
  | n :: rest =>
    match s.issue site n with
    | .next t => if ((t.coreAt site).ctxAt n).st = .waiting then t.issueFirst site rest else .next t
    | r => r

/-- The members of a core's Tuft that still run, in order of Tuft index. -/
def State.tuftMembers (s : State) (site : Nat) : List Nat :=
  (s.tuftOf site).filter fun m => (s.coreAt m).tuft && !(s.coreAt m).halted

/-- The core that fetches for a core: the leader of its Tuft (R108), or itself. -/
def State.leadOf (s : State) (site : Nat) : Nat :=
  if (s.coreAt site).tuft then (s.tuftMembers site).headD site else site

/-- The contexts of a core that may wait for something: the normal ones and the miss shadow. -/
def liveCtxs : List Nat := [0, 1, 2, 3, 4, 5, 6, 7, 8, 9, 10, 12]

/-- A context of a core waits: a normal one, or the miss shadow while it is in use. -/
def Core.waits (c : Core) (n : Nat) : Bool := decide ((c.ctxAt n).st = .waiting) && (n ≠ 12 || c.miss.isSome)

/-- What context n of a core waits for has come: its instruction, issued now, would not wait (R95). -/
def State.awaited (s : State) (site n : Nat) : Bool :=
  match s.runNext (s.leadOf site) site n with
  | .next t =>
    let c := s.coreAt site
    let u := t.coreAt site
    decide ((u.ctxAt n).st ≠ .waiting) || (u.tshadow && !c.tshadow) || (u.halted && !c.halted)
  | _ => true

/-- A context that waits looks again, without an issue slot: what it notes while it goes on waiting (a page request, a
copy-in, a place in a line) stands. -/
def State.poll (s : State) (site n : Nat) : State :=
  if (s.coreAt site).tshadow || !(s.coreAt site).waits n then s
  else
    match s.runNext site site n with
    | .next t => if ((t.coreAt site).ctxAt n).st = .waiting && !(t.coreAt site).tshadow then t else s
    | _ => s

/-- The contexts of a core that wait look again. -/
def State.pollAll (s : State) (site : Nat) : State := liveCtxs.foldl (fun (t : State) n => t.poll site n) s

/-- A waiting context of a core becomes READY when the awaited condition holds (R95); a `wfi` has its whole effect then, and
retires (R403). -/
def State.wakeCtx (s : State) (site n : Nat) : State :=
  let t := if (s.coreAt site).tuft || (s.coreAt site).tshadow then s else s.retireWfi site n
  let c := t.coreAt site
  if c.waits n && c.recId.isSome && !c.halted && t.awaited site n then
    t.setCore site (c.setCtx n { c.ctxAt n with st := .ready })
  else t

/-- Yields that have ended (R102). -/
def State.endYields (s : State) : State := { s with cores := s.cores.map fun e => (e.1, e.2.endYields) }

/-- Every context of the module whose awaited condition holds becomes READY (R95). -/
def State.wake (s : State) : State :=
  s.cores.foldl (fun (t : State) e => liveCtxs.foldl (fun (u : State) n =>
    if (u.coreAt e.1).waits n then u.wakeCtx e.1 n else u) t) s

/-- What comes to hold of itself between turns: the yields that no READY context upholds have ended (R102), queued records whose
wait objects have completed their phases are eligible and counted no longer (R115, R210), the queues of deadlines whose cores are
vacant are noted (R435), the stops and aborts of tables whose pages are there are done (R381, R386), and every waiting context
whose condition holds is READY (R95). -/
def State.settled (s : State) : State := s.endYields.noteEligible.noteVacant.settleTables.wake

/-! Tufts (R108 to R111). -/

/-- A member holds before its next instruction (R110), or is let go. -/
def State.setHeld (s : State) (b : Bool) (m : Nat) : State :=
  let c := s.coreAt m
  s.setCore m (c.setCtx 0 { c.ctxAt 0 with held := b })

/-- A member is in a shadow. -/
def Core.away (c : Core) : Bool := c.tshadow || c.miss.isSome

/-- A member has not retired the instruction that it issued. -/
def Core.behind (c : Core) : Bool := c.away || decide ((c.ctxAt 0).st = .waiting)

/-- Once every member holds, lock-step goes on. -/
def State.release (s : State) (ms : List Nat) : State :=
  if ms.all fun m => ((s.coreAt m).ctxAt 0).held then ms.foldl (State.setHeld · false) s else s

/-- A member has reached the held address, or another one (R110). -/
def State.rejoin (s : State) (site : Nat) (pc : Word) (ms : List Nat) : State :=
  let c := s.coreAt site
  if c.behind || c.halted then s
  else if (c.ctxAt 0).pc = pc then (s.setHeld true site).release ms
  else s.dissolve site

/-- A member would wait at its next instruction. -/
def State.wouldWait (s : State) (lead m : Nat) : Bool :=
  match s.runNext lead m 0 with
  | .next t => !(t.coreAt m).away && decide (((t.coreAt m).ctxAt 0).st = .waiting)
  | _ => false

/-- Runs members one after another. -/
def State.runAll (s : State) (lead : Nat) : List Nat → Result
  | [] => .next s
  | m :: rest =>
    match s.runNext lead m 0 with
    | .next t => (t.noteIssue m 0 0).runAll lead rest
    | r => r

/-- The addresses at which the members that have retired their instruction go on: more than one when a control transfer has
given different outcomes (R109). -/
def State.goOn (s : State) (ms : List Nat) : List Word :=
  ((ms.filter fun m => !(s.coreAt m).behind && !(s.coreAt m).halted).map fun m => ((s.coreAt m).ctxAt 0).pc).dedup

/-- GANG for a divergent transfer, on a Tuft that has dissolved (R109). -/
def State.diverge (s : State) (ms : List Nat) : State :=
  ms.foldl (fun (t : State) m => t.enterTrap m 0 Cause.gang.code 6 ((t.coreAt m).ctxAt 0).pc false false) (s.dissolve (ms.headD 0))

/-- The members that have retired hold, while some are behind. -/
def State.holdRest (s : State) (ms : List Nat) : State :=
  ms.foldl (fun (u : State) m => if (u.coreAt m).behind || (u.coreAt m).halted then u else u.setHeld true m) s

/-- A single step that a member of a Tuft takes, the members that have retired with it take as well (R413). -/
def State.stepAll (s t : State) (ms : List Nat) : State :=
  let new := fun (m : Nat) => (t.coreAt m).pending.find? fun p =>
    decide (p.code = Cause.step.code) && !(s.coreAt m).pending.contains p
  match ms.findSome? new with
  | none => t
  | some p => ms.foldl (fun (u : State) m =>
      let c := u.coreAt m
      if c.behind || c.halted || (new m).isSome then u
      else u.setCore m { c with pending := c.pending ++ [{ p with pc := (c.ctxAt 0).pc, ctx := 0 }] }) t

/-- An instruction of a Tuft (R108 to R110): it issues on every member once none has to wait; members that have to wait look
again meanwhile. A transfer that differs among the members that take it has no effect on any of them, and dissolves the
Tuft. -/
def State.lockStep (s : State) (ms : List Nat) : Result :=
  let lead := ms.headD 0
  let late := ms.filter (s.wouldWait lead)
  if !late.isEmpty then s.runAll lead late
  else
    match s.runAll lead ms with
    | .next r =>
      let t := s.stepAll r ms
      if 1 < (t.goOn ms).length then .next (s.diverge ms)
      else if ms.any fun m => (t.coreAt m).behind then .next (t.holdRest ms)
      else .next t
    | r => r

/-- A member's place in the Tuft is vacant: its core has been saved and is not back yet (R111). -/
def State.tuftAbsent (s : State) (site : Nat) : Bool :=
  match (s.coreAt site).recId with
  | none => false
  | some rid =>
    let r := s.recAt rid
    r.vacated.any fun lc => match r.place[lc]? with
      | some x => (s.tuftOf site).contains x
      | none => false

/-- The turn of a member of a Tuft. While members are still on their way out of `tuft` (R106), and while some have not
come back from a switch (R111), the others do not issue. -/
def State.tuftTurn (s : State) (site : Nat) : Result :=
  let c := s.coreAt site
  let ms := s.tuftMembers site
  if c.halted || c.recId.isNone then .next s
  else if c.tshadow then s.issue site 11
  else if c.miss.isSome then s.issue site 12
  else if ms.any fun m => (s.coreAt m).tuftAsk.isSome then (if c.tuftAsk.isSome then s.issue site 0 else .next s)
  else if s.tuftAbsent site then .next s
  else
    match ms.find? fun m => ((s.coreAt m).ctxAt 0).held with
    | some h =>
      let pc := ((s.coreAt h).ctxAt 0).pc
      if (c.ctxAt 0).held then .next s
      else if (c.ctxAt 0).pc = pc then .next ((s.setHeld true site).release ms)
      else thenDo (s.issue site 0) fun t => .next (t.rejoin site pc ms)
    | none =>
      if ms.any fun m => (s.coreAt m).away then .next (s.setHeld true site)
      else if ms.any fun m => decide (((s.coreAt m).ctxAt 0).pc ≠ (c.ctxAt 0).pc) then .next (s.dissolve site)
      else s.lockStep ms

/-! Turns of the schedule. -/

/-- The members of a Tuft that wait at one `wfi` retire it when every core has a cause pending (R108, R403). -/
def State.retireTuftWfi (s : State) (ms : List Nat) : State :=
  let lead := ms.headD 0
  if ms.all fun m => s.atWfi lead m 0 && s.causePending (s.coreAt m) then ms.foldl (fun (t : State) m => t.retireWfi m 0) s else s

/-- The boundary of a core: a cause that is due is taken (R396), in a Tuft on each member (R111). -/
def State.boundary (s : State) (site : Nat) : State :=
  if (s.coreAt site).tuft then (s.tuftMembers site).foldl State.takeDue (s.retireTuftWfi (s.tuftMembers site)) else s.takeDue site

/-- A cause was taken at the boundary. -/
def tookCause (s t : State) (site : Nat) : Bool := (t.coreAt site).tshadow && !(s.coreAt site).tshadow

/-- A core, or a member of its Tuft, waits for the engine work of a push to take the STEP of that push (R414). -/
def State.drainsAt (s : State) (site : Nat) : Bool :=
  if (s.coreAt site).tuft then (s.tuftMembers site).any fun m => s.drains (s.coreAt m) else s.drains (s.coreAt site)

/-- The turn of a named context of a core: a context that waits looks again, and one that is READY issues when the round-robin
of the core has come to it (R21, R96); otherwise nothing happens. -/
def State.issueTurn (s : State) (site n : Nat) : Result :=
  let t := s.boundary site
  if tookCause s t site || t.drainsAt site then .next t
  else if (t.coreAt site).tuft then t.tuftTurn site
  else
    match (t.coreAt site).issuer n with
    | some x => if (t.coreAt site).round.head? = some x then t.issue site x else .next t
    | none => .next (t.poll site (if (t.coreAt site).miss.map (·.ctx) = some n then 12 else n))

/-- The turn of a core: its round-robin chooses the context. -/
def State.coreTurn (s : State) (site : Nat) : Result :=
  let t := s.boundary site
  if tookCause s t site || t.drainsAt site then .next t
  else if (t.coreAt site).tuft then t.tuftTurn site
  else
    let u := t.pollAll site
    u.issueFirst site (u.coreAt site).round

/-- The dirty bytes of a cluster-pad or die-pad copy are carried further down (R185), once the heap pages that they go to are
mapped for writing. -/
def State.carryDown (s : State) (rid key : Nat) : State :=
  let r := s.recAt rid
  let go := fun (level : Nat) (home : Nat → Nat) (e : Nat × Area) =>
    match e.2.dir.find? fun d => decide (d.2 = key), r.place.find? fun x => decide (home x = e.1) with
    | some d, some site =>
      let n := (s.mem.hdr key).span
      let dst := s.below rid site level (BitVec.ofNat 64 d.1)
      if !carriedType (s.mem.hdr key) || s.queuedOn dst then none
      else match s.canCarry .device key n dst with
        | .free => some ((s.carryBytes key (s.reachKeys key n dst) dst).markClean (key + 32) n)
        | .ask pages => some (s.askWrites .device (pages.map fun pg => (r.l.asid, pg)))
        | .shut => none
    | _, _ => none
  match r.careas.findSome? (go 2 clusterOf) with
  | some t => t
  | none => (r.dareas.findSome? (go 1 dieOf)).getD s

/-- The rows of the table that are events, not instructions of the set: no word begins with a major opcode of 0 (R48). -/
def isEvent (i : Instr) : Bool := decide (wordNat i = 0)

/-- A turn of the agenda. -/
def runTurn (t : Turn) (s : State) : Result :=
  match t with
  | .event i => if isEvent i then exec i s else .next s
  | .issue site n => if site < siteCount then s.issueTurn site n else .fault .noSuchSite
  | .cycles n => .next (s.wait n)
  | .carry rid key => .next (s.carryDown rid key)
  | .fetch site k i ctx => .next (s.fetchAhead site k i ctx)
  | .depart k => .next (s.departFlit k)
  | .refill site => runEvent (refillBody site) s

/-! What the device does when the agenda is empty: each piece of work that could be due has its turn, in rotation. -/

/-- A piece of work: what it makes of a state. -/
abbrev Work := State → Result

/-- Work of the engines and timers of a core. -/
def engineWork (e : Nat × Core) : List Work :=
  let x := e.1
  let n := e.2.copies.length
  [execWmbCommandComplete x, execHwrPerformed x, execTimer x, execEngineReportTimeout x, execCorniceTrap x]
    ++ ((List.range n).map fun k => [execCopy x k, execXpose x k, execGather x k, execFill x k, execPagein x k, execMigr x k,
        execCopyCommandComplete x k]).flatten

/-- Work of the multipliers of the clusters in which a core has WMB commands. -/
def State.multiplierWork (s : State) : List Work :=
  let busy := s.cores.filter fun e => !e.2.wmb.isEmpty
  let cls := busy.foldl (fun l e => insertKey (clusterOf e.1) l) []
  (cls.map fun cl => ((List.range (s.multipliers cl).length).map fun u =>
    [execMma cl u, execMmaz cl u, execMmat cl u, execAccst cl u, execAccld cl u, execPconv cl u, execPdot cl u]
      ++ (busy.map fun e => execWmbTileJobDispatch cl u e.1)).flatten).flatten

/-- What the host has asked for and the device keeps trying. -/
def retryHost : HostWait → Work
  | .invalidation asid page count => execAtsInvalidation asid page count
  | .deadline pf vf at_ report => execPfDeadlinePost pf vf at_ report
  | .queue vf num desc => execQueueCreate vf num desc
  | .unbind asid => execAsidUnbind asid
  | .fatal cls unit => execFatalFault cls unit

/-- Everything that could be due. -/
def State.work (s : State) : List Work :=
  let upTo := fun (n : Nat) (f : Nat → Work) => (List.range n).map f
  let flits := s.net.length
  let live := s.cores.filter fun e => e.2.recId.isSome && !e.2.halted
  (live.map fun e (t : State) => t.coreTurn e.1)
    ++ [execRom, execInit, execMailboxCommandDone] ++ upTo s.reds.length execReductionPerformed
    ++ upTo s.posts.length execCpostComplete ++ upTo s.senders.length execEventWordAccepted
    ++ upTo s.copyins.length execCopyInComplete ++ upTo flits execPutPerformed ++ upTo flits execMessageDelivery
    ++ upTo flits execMessageRefusalTimeout ++ (live.map engineWork).flatten ++ s.multiplierWork
    ++ upTo (s.recs.map fun e => e.2.arrivals.length).sum execSuperstepAdvance
    ++ (s.asids.map fun e => execHeapPass e.1)
    ++ ((s.recs.filter fun e => !e.2.closed).map fun e =>
        [execRecordEnd e.1, execTenantSwitch e.1, execSwitchOutTimeout e.1]).flatten
    ++ (s.queues.map fun e => execRecordDispatch e.1) ++ (s.partitions.map fun e => execReservation e.1)
    ++ (s.slices.map fun e => execSliceEnd e.2.vf)
    ++ (s.recs.map fun e => (e.2.vacated.map fun lc => s.cores.map fun c => execInterruptResume c.1 e.1 lc).flatten).flatten
    ++ upTo s.deadlines.length execCorniceDiscard ++ upTo s.deadlines.length execCorniceReport
    ++ s.hostWaits.map retryHost ++ upTo flits (fun k => runTurn (.depart k)) ++ (live.map fun e => runTurn (.refill e.1))

/-- The first piece of work of a list that changes something. -/
def State.firstWork (s : State) : List Work → Result
  | [] => .next s
  | w :: rest =>
    match w s with
    | .next t => if t = s then s.firstWork rest else .next t
    | r => r

/-- A turn of the device by itself: the next piece of work in rotation, and one cycle. -/
def State.ownTurn (s : State) : Result :=
  let l := s.work
  let k := s.turn % Nat.max 1 l.length
  thenDo (s.firstWork (l.drop k ++ l.take k)) fun t => .next { t.wait 1 with turn := s.turn + 1 }

/-! The word that a test places (R68). -/

/-- The pointer under which a placed word's code stands. -/
def slotCode : Word := 0x10000

/-- An instruction stands where context 0 of core 0 fetches next, and it is the next to issue. -/
def State.placeWord (s : State) (w : BitVec 32) : State :=
  let c := s.coreAt 0
  let x := c.ctxAt 0
  let l : Launch := { code := slotCode }
  let s1 := s.setRec 0 { s.recAt 0 with l := l, st := .running, place := [0], text := wordBytes w ++ [0, 0, 0, 0] }
  let s2 := s1.setCore 0 { c.setCtx 0 { x with st := .ready, pc := 0, codeptr := slotCode } with
    recId := some 0, act := 0, tshadow := false, miss := none, halted := false
    pad := { base := corePadKey 0, size := padTop, dirCap := 1024 }
    dt := Vector.ofFn fun (i : Fin 4) => shippedTable i.val }
  { s2 with phase := .ready, site := 0, nextRec := Nat.max 1 s.nextRec, agenda := [.issue 0 0] }

end Sys2Proof.Machine
end

