-- ==== Sys2Proof/Machine/Step.lean ====
section
/-! DEFINITION. Step: one turn of the machine. -/

namespace Sys2Proof.Machine

/-- One turn: the first of the agenda, which is the schedule and what comes from outside, or one of the device by itself when
the agenda is empty. -/
def turnOf (s : State) : Host.Outcome State Fault Refusal :=
  match s.agenda with
  | [] => s.ownTurn
  | t :: rest => runTurn t { s with agenda := rest }

/-- One step: a turn, after which everything that comes to hold of itself has come to hold. -/
def step (s : State) : Host.Outcome State Fault Refusal := thenDo (turnOf s) fun t => .next t.settled

/-- The state with an instruction stored where the next step fetches it. -/
def State.withFetchWord (s : State) (_nbits w : Nat) : State := s.placeWord (BitVec.ofNat 32 w)

end Sys2Proof.Machine
end

