-- ==== Sys2Proof/Safety.lean ====
section
/-! DEFINITION. Safety: the terms in which the statements speak of a run: a machine that neither faults nor refuses, what an
instruction finds when nothing hinders it, the state it leaves when it retires, and the results of the families whose
instructions have one shape. -/

namespace Sys2Proof.Machine

/-- A step that neither faults nor refuses. -/
def Safe (s : State) : Prop := ∃ t, step s = .next t

/-- Every turn that stands in the agenda names a site of the package. -/
def State.sitesOk (s : State) : Bool :=
  s.agenda.all fun t => match t with | .issue site _ => decide (site < siteCount) | _ => true

/-! What an instruction finds. -/

/-- A register that is no queue port (R36). -/
def plain (r : BitVec 5) : Bool := decide (r.toNat < 28)

/-- The value of a register that is no port. -/
def State.src (s : State) (r : BitVec 5) : Word := s.ctx.sreg r.toNat

/-- The single step of R413 is off, or does not apply to what executes. -/
def State.calm (s : State) : Bool := !(s.core.dbgctl.getLsbD 0 && s.core.act ≤ 10 && !s.core.halted)

/-- The executing core has the unit of an instruction (R49). -/
def State.hasUnit (s : State) (i : Instr) : Bool := !(isChan s.site && i.needsVector) && (isChan s.site || !i.needsChannel)

/-! What an instruction leaves. -/

/-- An instruction of the executing context has taken effect in `s` and retires, going on at `npc` or at the next word:
the next address, the end of a prefix, `instret`, and the context's leaving every line in which it waited. -/
def State.retiresTo (s : State) (npc : Option Word) : State :=
  let x := s.ctx
  let t := s.setCtx { x with
    pc := npc.getD (x.pc + 4), pfx := .none, instret := x.instret + 1, st := if x.st = .waiting then .ready else x.st }
  { t with waitq := t.waitq.filter fun w => !(decide (w.site = s.site) && decide (w.ctx = s.core.act)), tx := {} }

/-- Retires to the next word. -/
def State.retires (s : State) : State := s.retiresTo none

/-- The executing context has become `x`, and the instruction retires. -/
def State.becomes (s : State) (x : Context) : State := (s.setCtx x).retires

/-- The executing context writes one `s` register and retires. -/
def State.gives (s : State) (d : BitVec 5) (v : Word) : State := s.becomes (s.ctx.setS d.toNat v)

/-! Results of the arithmetic group (R71 to R74, R76). -/

/-- Three-register instructions and their results (R71, R72). -/
def aluOps : List ((BitVec 5 → BitVec 5 → BitVec 5 → Instr) × (Word → Word → Word)) :=
  [(.add, fun x y => x + y), (.sub, fun x y => x - y), (.and, fun x y => x &&& y), (.or, fun x y => x ||| y),
   (.xor, fun x y => x ^^^ y), (.sll, fun x y => x <<< (y.toNat % 64)), (.srl, fun x y => x >>> (y.toNat % 64)),
   (.sra, fun x y => x.sshiftRight (y.toNat % 64)),
   (.slt, fun x y => if x.toInt < y.toInt then 1 else 0), (.sltu, fun x y => if x.toNat < y.toNat then 1 else 0),
   (.min, fun x y => if x.toInt ≤ y.toInt then x else y), (.max, fun x y => if x.toInt ≥ y.toInt then x else y),
   (.minu, fun x y => if x.toNat ≤ y.toNat then x else y), (.maxu, fun x y => if x.toNat ≥ y.toNat then x else y),
   (.mul, fun x y => BitVec.ofInt 64 (x.toInt * y.toInt)),
   (.mulh, fun x y => BitVec.ofInt 64 (x.toInt * y.toInt / 2 ^ 64)),
   (.mulhu, fun x y => BitVec.ofNat 64 (x.toNat * y.toNat / 2 ^ 64))]

/-- The divisions and their results (R72): toward zero; a zero divisor gives all ones, or leaves the dividend as the
remainder; the quotient of the most negative number by -1 is that number, with remainder 0. -/
def divOps : List ((BitVec 5 → BitVec 5 → BitVec 5 → Instr) × (Word → Word → Word)) :=
  [(.div, fun x y => if y.toInt = 0 then BitVec.ofInt 64 (-1)
      else if x.toInt = -(2 ^ 63) ∧ y.toInt = -1 then BitVec.ofInt 64 (-(2 ^ 63)) else BitVec.ofInt 64 (x.toInt.tdiv y.toInt)),
   (.divu, fun x y => if y.toNat = 0 then BitVec.allOnes 64 else BitVec.ofNat 64 (x.toNat / y.toNat)),
   (.rem, fun x y => if y.toInt = 0 then x else if x.toInt = -(2 ^ 63) ∧ y.toInt = -1 then 0
      else BitVec.ofInt 64 (x.toInt - y.toInt * x.toInt.tdiv y.toInt)),
   (.remu, fun x y => if y.toNat = 0 then x else BitVec.ofNat 64 (x.toNat % y.toNat))]

/-- The number that a 16-bit immediate field stands for: 40 bits under a `pfx imm` (R44, R73). -/
def Context.immS (x : Context) (i : BitVec 16) : Int :=
  match x.pfx with
  | .imm p => (p ++ i).toInt
  | _ => i.toInt
def Context.immU (x : Context) (i : BitVec 16) : Nat :=
  match x.pfx with
  | .imm p => (p ++ i).toNat
  | _ => i.toNat

/-- Instructions with a signed immediate, and with an unsigned one (R73). -/
def immSOps : List ((BitVec 5 → BitVec 5 → BitVec 16 → Instr) × (Word → Word → Word)) :=
  [(.addi, fun x y => x + y), (.slti, fun x y => if x.toInt < y.toInt then 1 else 0),
   (.sltiu, fun x y => if x.toNat < y.toNat then 1 else 0)]
def immUOps : List ((BitVec 5 → BitVec 5 → BitVec 16 → Instr) × (Word → Word → Word)) :=
  [(.andi, fun x y => x &&& y), (.ori, fun x y => x ||| y), (.xori, fun x y => x ^^^ y)]

/-- Shifts by a constant (R74). -/
def shiftOps : List ((BitVec 5 → BitVec 5 → BitVec 5 → BitVec 1 → Instr) × (Word → Nat → Word)) :=
  [(.slli, fun x n => x <<< n), (.srli, fun x n => x >>> n), (.srai, fun x n => x.sshiftRight n)]

/-- Conditional branches and their conditions (R76). -/
def branchOps : List ((BitVec 5 → BitVec 5 → BitVec 13 → Instr) × (Word → Word → Bool)) :=
  [(.beq, fun x y => decide (x = y)), (.bne, fun x y => decide (x ≠ y)), (.blt, fun x y => decide (x.toInt < y.toInt)),
   (.bge, fun x y => decide (x.toInt ≥ y.toInt)), (.bltu, fun x y => decide (x.toNat < y.toNat)),
   (.bgeu, fun x y => decide (x.toNat ≥ y.toNat))]

/-! Control registers (R85 to R93). -/

/-- A control register with how it is read: its number, whether a read needs `status.PRIV`, and its value. -/
def crMap : List (Nat × Bool × (State → Word)) :=
  [(0x000, false, fun s => statusWord s.site s.core), (0x001, false, fun s => s.ctx.level.setWidth 64),
   (0x002, false, fun s => s.ctx.portbind), (0x003, false, fun s => s.ctx.fpctl), (0x004, false, fun s => s.ctx.jobseed),
   (0x005, false, fun s => s.ctx.srctr), (0x006, false, fun _ => 32), (0x007, false, fun s => s.ctx.wbatch.setWidth 64),
   (0x008, false, fun s => s.ctx.lcore.setWidth 64), (0x009, false, fun s => s.ctx.ctxtag.setWidth 64),
   (0x00A, false, fun s => s.ctx.codeptr), (0x00B, false, fun s => s.ctx.kvtbase), (0x010, false, fun s => s.cycle),
   (0x011, false, fun s => s.ctx.instret), (0x100, true, fun s => s.core.trapcause.setWidth 64),
   (0x101, true, fun s => s.core.trapval), (0x102, true, fun s => s.core.trappc),
   (0x103, true, fun s => s.core.trapflags.setWidth 64), (0x104, true, fun s => s.core.dbgctl.setWidth 64),
   (0x105, true, fun s => s.core.watch), (0x106, true, fun s => s.core.timercmp),
   (0x107, true, fun s => BitVec.ofNat 64 (boolBit s.core.lock 1 + boolBit s.core.secure 0))]

/-- A control register that unprivileged code writes, or one that `status.PRIV` lets write: its number, whether the write
needs it, the bits that a write can change, and what holding a value means. -/
def crWrites : List (Nat × Bool × Word × (State → Word → State)) :=
  [(0x000, true, 0x8, fun s v => s.setCore s.site { s.core with ie := v.getLsbD 3 }),
   (0x001, false, 0x7, fun s v => s.setCtx { s.ctx with level := v.setWidth 3 }),
   (0x002, false, 0xF07FFFFFF, fun s v => s.setCtx { s.ctx with portbind := v }),
   (0x003, false, 0x1F07, fun s v => s.setCtx { s.ctx with fpctl := v }),
   (0x004, true, BitVec.allOnes 64, fun s v => s.setCtx { s.ctx with jobseed := v }),
   (0x005, false, BitVec.allOnes 64, fun s v => s.setCtx { s.ctx with srctr := v }),
   (0x009, true, 0xFFFF, fun s v => s.setCtx { s.ctx with ctxtag := v.setWidth 16 }),
   (0x00B, false, BitVec.allOnes 64, fun s v => s.setCtx { s.ctx with kvtbase := v }),
   (0x100, true, 0xFF, fun s v => s.setCore s.site { s.core with trapcause := v.setWidth 8 }),
   (0x101, true, BitVec.allOnes 64, fun s v => s.setCore s.site { s.core with trapval := v }),
   (0x102, true, BitVec.allOnes 64, fun s v => s.setCore s.site { s.core with trappc := v }),
   (0x103, true, 0xF7, fun s v => s.setCore s.site { s.core with trapflags := v.setWidth 8 }),
   (0x104, true, 0x7, fun s v => s.setCore s.site { s.core with dbgctl := v.setWidth 3 }),
   (0x105, true, BitVec.allOnes 64, fun s v => s.setCore s.site { s.core with watch := v }),
   (0x106, true, BitVec.allOnes 64, fun s v => s.setCore s.site { s.core with
      timercmp := v
      pending := s.core.pending.filter fun p => decide (p.code ≠ Cause.timer.code) || decide (v.toNat ≤ s.cycle.toNat) })]

/-- The instructions that write a control register, and how each merges the old value with `s[a]` (R85). -/
def crOps : List ((BitVec 5 → BitVec 5 → BitVec 12 → Instr) × (Word → Word → Word)) :=
  [(.crw, fun _ v => v), (.crs, fun o v => o ||| v), (.crc, fun o v => o &&& ~~~v)]

/-! Queue ports (R36, R354). -/

/-- One unread word has left the receive queue; its message leaves with its last word (R354). -/
def State.tookWord (s : State) : State :=
  s.setCore s.site { s.core with rx := (takeWords 1 s.core.rx s.core.rxpos).1, rxpos := (takeWords 1 s.core.rx s.core.rxpos).2 }

/-- The same for n words. -/
def State.tookWords (s : State) (n : Nat) : State :=
  s.setCore s.site { s.core with rx := (takeWords n s.core.rx s.core.rxpos).1, rxpos := (takeWords n s.core.rx s.core.rxpos).2 }

/-- The oldest completion record has been popped, and what its command wrote is acquired (R187). -/
def State.tookRecord (s : State) (r : CompRec) : State :=
  let t := s.acquireRecord r
  t.setCtx { t.ctx with recs := t.ctx.recs.drop 1 }

/-- The context waits and the instruction has had no effect; `x` is what it leaves behind to be discarded (R37). -/
def State.waits (s : State) (x : Tx) : State := { s.setCtx { s.ctx with st := .waiting } with tx := x }

/-! The course of an instruction: what the operations that find its operands answer. -/

/-- In the course of instruction `i` an operation answers `a`, and what it does to the machine makes `t` of `s`. -/
def leads {α : Type} (i : Instr) (x : Op α) (s : State) (a : α) (t : State) : Prop := x (s.starts i) = .ok a (t.starts i)

/-- In the course of instruction `i` an operation traps. -/
def traps {α : Type} (i : Instr) (x : Op α) (s : State) (c : Cause) (v : Word) (t : State) : Prop :=
  x (s.starts i) = .error (.trap c v) (t.starts i)

/-! Accesses to objects (R137 to R142). -/

/-- The number that the displacement field of an access stands for: 34 bits under a `pfx imm` (R44, R137). -/
def Context.disp (x : Context) (i : BitVec 10) : Int :=
  match x.pfx with
  | .imm p => (p ++ i).toInt
  | _ => i.toInt

/-- The offset of an access of n bytes: the cursor, and n times the index and the displacement (R137). -/
def State.accessAt (s : State) (p : BitVec 4) (x : BitVec 5) (i : BitVec 10) (n : Nat) : Int :=
  ((s.ctx.areg p.toNat).cur.toNat : Int) + n * (s.src x).toInt + n * s.ctx.disp i

/-- The first check of R137 that an access of a size at an offset of the object at `l` fails. -/
def State.accessFault (s : State) (r : Nat) (l : Loc) (kind : ObjAccess) (size : Nat) (off : Int) : Option (Cause × Word) :=
  let sh := (s.ctx.areg r).sh
  let n : Nat := 2 ^ size
  if !(typeAllows sh.typ.toNat kind (s.core.inMiss || s.core.isPriv) s.core.isPriv && sizeFits sh.fmt.toNat size
      && (sh.typ.toNat ≠ tPTRS || size = 3)) then some (.type, BitVec.ofInt 64 off)
  else if off < 0 ∨ (if kind = .ld then readLen sh.typ.toNat sh.len.toNat else sh.len.toNat) < off + n then
    some (.bounds, BitVec.ofInt 64 off)
  else if off % n ≠ 0 then some (.misalign, BitVec.ofInt 64 off)
  else if s.readPoisoned s.me l off.toNat n then some (.poison, BitVec.ofInt 64 off)
  else none

/-- No reduction is pending on a 64-byte line that the bytes touch (R195). -/
def State.clearOfReds (s : State) (l : Loc) (off n : Nat) : Bool :=
  !(s.reds.any fun r => decide (r.v = l) && decide (lineOf l off ≤ r.line) && decide (r.line ≤ lineOf l (off + n - 1)))

/-- A conversion has noted its flags and the draws that it took (R222, R229). -/
def State.noted (s : State) (flags draws : Nat) : State :=
  s.setCtx { s.ctx with fpctl := s.ctx.fpctl ||| BitVec.ofNat 64 (flags * 256), srctr := s.ctx.srctr + BitVec.ofNat 64 draws }

/-- A write of the object is a cause of WATCH (R140, R93). -/
def State.watches (s : State) (canon : Word) : Bool :=
  s.core.dbgctl.getLsbD 2 && !s.core.inTrap && !s.core.inMiss && canon = s.core.watch

/-- Register `r` names an object of the executing core's own pad, whose header stands at the answer's key and which has not moved
away, and its bounds shadow is valid (R123, R125, R130). -/
def State.ownObject (s : State) (r : Nat) : Option Nat :=
  let a := s.ctx.areg r
  let off := ptrLoc a.ptr % 2 ^ 40
  if ptrLevel a.ptr = 3 ∧ off < padTop ∧ ptrTag a.ptr = (s.core.ctxAt 0).lcore.toNat
      ∧ corePadKey s.site + off ∈ s.core.pad.hdrs ∧ (s.mem.hdr (corePadKey s.site + off)).forward = false ∧ a.sh.valid = true then some (corePadKey s.site + off)
  else none

/-- The header page of the object at a place lets the device write (R136, R178). -/
def State.headerWritable (s : State) (l : Loc) : Bool :=
  match l with
  | .pad _ => true
  | .heap asid va => match find (pageKey asid (va / 4096)) s.ptes with | some e => e.write | none => false

/-! Order and synchronisation. -/

/-- A bit of the executing context's fence status is set (R197). -/
def State.fenceBit (s : State) (bit : Nat) : State := s.setCtx { s.ctx with fence := s.ctx.fence ||| (1#4 <<< bit) }

/-- The executing context stands in a line, at its end unless it was in it already (R200). -/
def State.inLine (s : State) (k : WaitKey) (phase : Nat) : State :=
  { s with waitq := if s.waitq.any fun w => w.isAt k s.site s.core.act then s.waitq
      else s.waitq ++ [{ key := k, site := s.site, ctx := s.core.act, phase := phase }] }

/-- No other context stands in a line before the executing one (R200). -/
def State.foremost (s : State) (k : WaitKey) : Bool :=
  match s.waitq.filter fun w => decide (w.key = k) with
  | [] => true
  | w :: _ => decide (w.site = s.site) && decide (w.ctx = s.core.act)

/-- An engine fault has been reported (R397): it is no longer kept nor pending, and its WMB command is marked. -/
def State.reports (s : State) (f : EngFault) : State :=
  let note := fun (m : Cmd) => if m.fault.isSome && decide (m.num = f.num) then { m with reported := true } else m
  s.setCore s.site { s.core with
    faults := s.core.faults.erase f
    pending := s.core.pending.filter fun q => !(decide (q.code = Cause.engine.code) && decide (q.work = some f.num))
    wmb := if f.kind = 1 then s.core.wmb.map note else s.core.wmb }

/-- The arrival of the executing context at a superstep (R215). -/
def State.arriving (s : State) : Arrival :=
  { lcore := s.ctx.lcore.toNat, level := s.ctx.level.toNat, count := s.ctx.scount.toNat, phase := s.ctx.sphase }

/-! Vectors (R243 to R270). -/

/-- A vector register is tied to no running stream (R266). -/
def State.still (s : State) (r : BitVec 5) : Bool := decide (r.toNat < 24) || !(s.core.stream (r.toNat - 24)).run
def State.vec (s : State) (r : BitVec 5) : VWord := s.core.vreg r.toNat
def State.pred (s : State) (p : BitVec 3) : PWord := s.ctx.preg p.toNat
def State.setV (s : State) (d : BitVec 5) (v : VWord) : State :=
  s.setCore s.site { s.core with v := s.core.v.setIfInBounds d.toNat v }

/-- The extended function of a `pfx fn`, and the rounding mode that it selects (R45, R234). -/
def Context.fn (x : Context) : Nat := match x.pfx with | .fn n => n.toNat | _ => 0
def Context.mode (x : Context) : Nat := if x.fn % 8 = 0 then x.rm else x.fn % 8 - 1

/-- An instruction retires with `v[d]` written alone: element k of width w is f k. -/
def vecResult (i : Instr) (s : State) (d : BitVec 5) (w : Nat) (f : Nat → Nat) : Prop :=
  ∃ v, exec i s = .next (s.setV d v).retires ∧ ∀ k, k < 1024 / w → elemOf v w k = f k % 2 ^ w

/-- The same with floating flags noted and draws taken (R246). -/
def fpResult (i : Instr) (s : State) (d : BitVec 5) (w : Nat) (f : Nat → Nat) (flags draws : Nat) : Prop :=
  ∃ v, exec i s = .next ((s.setV d v).noted flags draws).retires ∧ ∀ k, k < 1024 / w → elemOf v w k = f k % 2 ^ w

/-- An exact integer held between the bounds of a signed or an unsigned element (R248). -/
def satSigned (w : Nat) (x : Int) : Nat := intBits w (max (-(2 ^ (w - 1) : Nat)) (min ((2 ^ (w - 1) : Nat) - 1) x))
def satUnsigned (w : Nat) (x : Int) : Nat := intBits w (max 0 (min ((2 ^ w : Nat) - 1) x))

/-- Integer instructions of two vectors: the element from the extended function, the width and the two elements (R248). -/
def vec2Ops : List ((BitVec 5 → BitVec 5 → BitVec 5 → BitVec 3 → BitVec 2 → Instr) × (Nat → Nat → Nat → Nat → Nat)) :=
  [(.vadd, fun x w a b => if x = 1 then satSigned w (signExt w a + signExt w b) else if x = 2 then satUnsigned w (a + b) else a + b),
   (.vsub, fun x w a b => if x = 1 then satSigned w (signExt w a - signExt w b) else if x = 2 then satUnsigned w (a - b)
      else intBits w (a - b)),
   (.vmul, fun _ _ a b => a * b),
   (.vmin, fun x w a b => if x = 1 then Nat.min a b else if signExt w a ≤ signExt w b then a else b),
   (.vmax, fun x w a b => if x = 1 then Nat.max a b else if signExt w a ≥ signExt w b then a else b),
   (.vand, fun _ _ a b => a &&& b), (.vor, fun _ _ a b => a ||| b), (.vxor, fun _ _ a b => a ^^^ b),
   (.vsll, fun _ w a b => a * 2 ^ (b % w)), (.vsrl, fun _ w a b => a / 2 ^ (b % w)),
   (.vsra, fun _ w a b => intBits w (signExt w a / (2 ^ (b % w) : Nat)))]

/-- Integer instructions of one vector (R248). -/
def vec1Ops : List ((BitVec 5 → BitVec 5 → BitVec 3 → BitVec 2 → Instr) × (Nat → Nat → Nat)) :=
  [(.vabs, fun w a => (signExt w a).natAbs), (.vneg, fun w a => intBits w (-(signExt w a))), (.vmov, fun _ a => a)]

/-- Floating instructions of two vectors, with the old destination and a draw: the element and its flags (R250). -/
def floatOps : List ((BitVec 5 → BitVec 5 → BitVec 5 → BitVec 3 → BitVec 2 → Instr)
    × (FFmt → Nat → Nat → Nat → Nat → Nat → Nat × Nat)) :=
  [(.vfadd, fun f m a b _ r => fpAdd f m a b r), (.vfsub, fun f m a b _ r => fpSub f m a b r),
   (.vfmul, fun f m a b _ r => fpMul f m a b r), (.vfma, fpMulAdd false), (.vfms, fpMulAdd true)]

/-- Floating minimum and maximum, which round nothing (R251). -/
def minMaxOps : List ((BitVec 5 → BitVec 5 → BitVec 5 → BitVec 3 → BitVec 2 → Instr) × Bool) := [(.vfmin, false), (.vfmax, true)]

/-- Instructions on sign bits (R251). -/
def signOps : List ((BitVec 5 → BitVec 5 → BitVec 3 → BitVec 2 → Instr) × (Nat → Nat → Nat)) :=
  [(.vfabs, fun w a => a % 2 ^ (w - 1)), (.vfneg, fun w a => a ^^^ 2 ^ (w - 1))]

/-- Instructions on predicates (R253). -/
def pred2Ops : List ((BitVec 3 → BitVec 3 → BitVec 3 → Instr) × (PWord → PWord → PWord)) :=
  [(.pand, fun x y => x &&& y), (.por, fun x y => x ||| y), (.pxor, fun x y => x ^^^ y)]
def pred1Ops : List ((BitVec 3 → BitVec 3 → Instr) × (PWord → PWord)) := [(.pnot, fun x => ~~~x), (.pmov, fun x => x)]

/-- Reductions, by kind: sum, maximum, minimum (R256). -/
def reduceOps : List ((BitVec 5 → BitVec 5 → BitVec 3 → BitVec 2 → Instr) × Nat) := [(.vrsum, 0), (.vrmax, 1), (.vrmin, 2)]

/-- Special functions, by code (R270). -/
def specialOps : List ((BitVec 5 → BitVec 5 → BitVec 3 → BitVec 2 → Instr) × Nat) :=
  [(.vexp, 0), (.vlog, 1), (.vrcp, 2), (.vrsqrt, 3), (.vtanh, 4), (.vsin, 5)]

/-- The displacement of a vector access in bytes: 128 times 5 bits, or 29 under a `pfx imm` (R41, R44). -/
def Context.vdisp (x : Context) (i : BitVec 5) : Int :=
  match x.pfx with
  | .imm p => 128 * (p ++ i).toInt
  | _ => 128 * i.toInt

/-- Offset of element k of a contiguous access, and of lane k of an indexed one (R259). -/
def State.vecAt (s : State) (p : BitVec 4) (x i : BitVec 5) (w k : Nat) : Int :=
  ((s.ctx.areg p.toNat).cur.toNat : Int) + (w / 8 : Nat) * (s.src x).toInt + s.ctx.vdisp i + (k * (w / 8) : Nat)
def State.laneAt (s : State) (p : BitVec 4) (x i : BitVec 5) (w k : Nat) : Int :=
  ((s.ctx.areg p.toNat).cur.toNat : Int) + (w / 8 : Nat) * signExt 32 (elemOf (s.vec x) 32 k) + s.ctx.vdisp i

/-- The active elements among the first n of width w are summed. -/
def sumActive (p : PWord) (v : VWord) (w n : Nat) : Nat := ((activeList p w n).map (elemOf v w)).sum

def State.setStream (s : State) (k : Nat) (x : Stream) : State :=
  s.setCore s.site { s.core with streams := s.core.streams.setIfInBounds k x }

/-! Wide registers and command words (R295 to R316). -/

def State.setK (s : State) (d : BitVec 2) (v : KWord) : State :=
  s.setCore s.site { s.core with k := s.core.k.setIfInBounds d.toNat v }
def State.setW (s : State) (d : BitVec 3) (v : WReg) : State :=
  s.setCore s.site { s.core with w := s.core.w.setIfInBounds d.toNat v }
def State.wide (s : State) (r : BitVec 3) : WReg := s.core.wreg r.toNat

/-- The command that a push of a word enters in the queue of the WMB, with the barrier copy that it is to credit (R210,
R297). -/
def State.wmbCmd (s : State) (k : KWord) (bar : Option Loc) : Cmd :=
  { s.newCmd k s.ctx.wbatch.toNat with
    num := s.core.works, todo := List.range (kRegion k).2, fresh := List.range (kRegion k).2, rows := List.replicate (kRegion k).2 0
    tiles := kTiles k, barrier := bar }

/-! Tile jobs (R278 to R284). -/

/-- Element e of an object of a format, raw, and a term of it: the element with its scale byte (R278, R280). -/
def State.rawElem (s : State) (l : Loc) (fmt e : Nat) : Nat :=
  let v := ofBytes (s.readBody none l (e * fmtBits fmt / 8) (Nat.max 1 (fmtBits fmt / 8)))
  if fmtBits fmt = 4 then v / 2 ^ (4 * (e % 2)) % 16 else v
def State.rawTerm (s : State) (k : KWord) (side : Nat) (l : Loc) (e : Nat) : Nat × Nat :=
  (s.rawElem l (opFmt k side (s.hdr l)) e,
    if opBlog k side = 0 then 127 else ofBytes (s.readBody none l ((s.hdr l).len + e / 16) 1))

/-- The n terms of row or column `idx` of operand `side` from depth index k0 on, for a command with operands at la and lb, in
the formats that its pointers give (R277, R278). -/
def State.matTerms (s : State) (m : Cmd) (la lb : Loc) (side idx k0 n : Nat) : List (Nat × Nat) :=
  (List.range n).map fun t => s.rawTerm m.word side (if side = 0 then la else lb)
    (matElem m.word (opFirst m.word 0 (s.hdr la)) (opFirst m.word 1 (s.hdr lb)) side idx (k0 + t))

/-- The runs of a command lie in its two pad objects, nothing of them is poisoned, no reduction is queued on them, and nothing
has been stored over their bytes since the push. -/
def State.operandsFit (s : State) (m : Cmd) (la lb : Loc) : Prop :=
  (∀ r ∈ opRuns m.word 0 (s.hdr la), runFits (opFmt m.word 0 (s.hdr la)) (opBlog m.word 0) (s.hdr la) r = true)
  ∧ (∀ r ∈ opRuns m.word 1 (s.hdr lb), runFits (opFmt m.word 1 (s.hdr lb)) (opBlog m.word 1) (s.hdr lb) r = true)
  ∧ (∀ l ∈ [la, lb], ∀ off n, s.readPoisoned none l off n = false)
  ∧ (∀ r ∈ s.reds, r.v ≠ la ∧ r.v ≠ lb)
  ∧ s.olds.length ≤ m.since ∧ m.readings = []

/-- What a step of tile job j of command i of a core leaves: entry e of its tile is `f e`, the rows done are `k1` and the
job ends when that is all; memory and every other entry stay. -/
def tileStep (s t : State) (core i j u k1 : Nat) (m : Cmd) (f : Nat → Word) : Prop :=
  let tile := (kRegion m.word).1 + j
  (∀ e, e < 64 → (t.coreAt core).accSlot (64 * tile + e) = f e)
  ∧ (∀ n, n < 64 * tile ∨ 64 * tile + 64 ≤ n → (t.coreAt core).accSlot n = (s.coreAt core).accSlot n)
  ∧ t.mem = s.mem ∧ t.site = s.site ∧ t.recs = s.recs ∧ (t.coreAt core).ctxs = (s.coreAt core).ctxs
  ∧ ∃ c, (t.coreAt core).wmb[i]? = some c ∧ c.rows = m.rows.set j k1 ∧ c.todo = m.todo ∧ c.fault = m.fault
    ∧ c.jobs = if m.fullRows ≤ k1 then m.jobs.filter (fun x => decide (x ≠ (j, u))) else m.jobs

/-- Coefficient i of the product of two polynomials (R313). -/
def convolve (a b : List Int) (i : Nat) : Int := ((List.range (i + 1)).map fun j => a.getD j 0 * b.getD (i - j) 0).sum

/-! Copy commands (R325 to R344). -/

/-- The copy engine takes a command word: the barrier, which with ARRIVE is the copy to credit, the places of its objects, the
counts that go up, and the entry, which keeps its own copy of the word and, for grouped reads, the order of its pieces (R210,
R339, R344). -/
def queues (i : Instr) (w : KWord) (u z : State) : Prop :=
  ∃ (ls : List Loc) (v x : State) (b : Option Loc),
    (match (kBar w).filter fun p => decide (ptrLevel p ≠ 7) with
      | none => b = none ∧ v = u
      | some p => ∃ l, b = some l
          ∧ if kArrive w then leads i (pushBarrier p (kScope w)) u l v
            else leads i (engHome (.ctx u.site u.core.act) u.core.act p) u l v)
    ∧ leads i ((kObjects w).mapM (copyPlace w)) v ls x
    ∧ let y := (ls ++ b.toList).foldl State.erefUp x
      let y1 := match b with
        | some l => if kArrive w then y.barPendingUp l else y
        | none => y
      z = y1.setCore y1.site { y1.core with works := y1.core.works + 1, copies := y1.core.copies ++ [{ y1.newCmd w 0 with
        num := y1.core.works, erefs := ls ++ b.toList, barrier := if kArrive w then b else none, started := true
        order := y1.groupedOrder w (ls.getD 0 (.pad 0)) }] }

/-- A step of a copy command leaves the entry as `m`, and neither memory nor the rest of the entries. -/
def copyStepTo (s t : State) (core e : Nat) (m : Cmd) : Prop :=
  (t.coreAt core).copies = (s.coreAt core).copies.set e m ∧ t.site = s.site ∧ (t.coreAt core).ctxs = (s.coreAt core).ctxs

/-! Messages (R348 to R357). -/

/-- A context of a core has a bit of its fence status set (R197). -/
def Core.withFence (c : Core) (ctx bit : Nat) : Core :=
  let x := c.ctxAt ctx
  c.setCtx ctx { x with fence := x.fence ||| (1#4 <<< bit) }

/-- Message or put number k is gone, with a status bit for its sender: where the sender's logical core is now, or in what is
saved of it, if its record is still there (R197, R412); a trap shadow belongs to the core that it runs on (R389). -/
def State.refused (s : State) (k : Nat) (f : Flit) (bit : Nat) : State :=
  let t := { s with net := s.net.eraseIdx k }
  if f.srcCtx = 11 then t.setCore f.srcSite ((s.coreAt f.srcSite).withFence 11 bit)
  else match s.senderSite f with
  | some x => t.setCore x ((s.coreAt x).withFence f.srcCtx bit)
  | none => match find f.srcLc (s.recAt f.srcRec).images with
    | some m => t.setRec f.srcRec { s.recAt f.srcRec with
        images := store f.srcLc { m with core := m.core.withFence f.srcCtx bit } (s.recAt f.srcRec).images }
    | none => t

/-- A message enters the receive queue of a site, and has left the network. -/
def State.arrives (s : State) (k site : Nat) (m : Msg) : State :=
  let t := { s with net := s.net.eraseIdx k }
  t.setCore site { s.coreAt site with rx := (s.coreAt site).rx ++ [m] }

/-- Message number k is held back from now on. -/
def State.heldBack (s : State) (k : Nat) (f : Flit) : State :=
  { s with net := s.net.set k { f with sent := true, since := some (f.since.getD s.cycle.toNat) } }

/-- A word that the checks of a destination descriptor let through (R348). -/
def descriptorOk (b : Word) (multi : Bool) : Bool :=
  decide (bitsOf b 40 24 = 0) && decide (bitsOf b 17 8 = 0) && decide (bitsOf b 25 2 ≠ 3) && decide (bitsOf b 13 4 ≤ 10)
    && (multi || decide (bitsOf b 27 13 = 0)) && (decide (bitsOf b 25 2 ≠ 2) || (!multi && decide (bitsOf b 0 13 < 4)))

/-! KV tables (R365 to R380). -/

/-- The entry that installing page i of a table with pointer bits q makes (R368). -/
def State.kvtbFor (s : State) (va i : Nat) (q : Word) : KvtbEntry :=
  let t := Loc.heap s.asid va
  let me := (s.ctx.lcore.toNat, s.core.ctxNo)
  let own := s.kvOwns t me
  let l := if s.kvStopped t then 0 else Nat.min (s.kvEnd t own - 16 * i) 16
  { valid := true, table := BitVec.ofNat 48 (va / 32), page := BitVec.ofNat 21 i
    own := own && decide (16 * i + 16 > s.kvNtok t), octx := BitVec.ofNat 4 me.2, stop := s.kvStopped t
    limit := BitVec.ofNat 5 l, rowq := BitVec.ofNat 6 (s.kvRowq t), ptr := if l = 0 then nullPtr else q }

/-- The KVTB of a core with entry n replaced. -/
def Core.putKvtb (c : Core) (n : Nat) (e : KvtbEntry) : Core := { c with kvtb := c.kvtb.setIfInBounds n e }

/-- The KVTB after an append of k tokens at e (R374). -/
def Core.kvGrown (c : Core) (va e k : Nat) (own : Bool) : Core :=
  match c.kvHit va (e / 16) c.ctxNo with
  | some n =>
    let x := c.kvtb[n]?.getD {}
    let y := { x with limit := BitVec.ofNat 5 (e % 16 + k) }
    c.putKvtb n (if own then { y with own := true, octx := BitVec.ofNat 4 c.ctxNo } else y)
  | none => c

/-- The executing core's record. -/
def State.rid (s : State) : Nat := s.core.recId.getD 0

/-! Asynchronous causes (R396). -/

/-- The order in which the causes are taken: CORNICE, PREEMPT, ENGINE, DEBUG, TIMER, and a STEP that waited for the engines. -/
def Pending.rank (p : Pending) : Nat :=
  if p.code = Cause.cornice.code then 0
  else if p.code = Cause.interrupt.code then (if p.val.toNat % 256 = 1 then 1 else 3)
  else if p.code = Cause.engine.code then 2
  else if p.code = Cause.timer.code then 4
  else 5

/-! Records (R113 to R118, R424 to R429). -/

/-- Asks for what the queued records of a partition wait for, and notes which of all records have become eligible (R115). -/
def noteAll (part : Nat) : Op Unit := do
  for e in (← get).partQueues part do
    askQueued e.1
  modify State.noteEligible

/-- The heads of the queues of a partition that have been eligible for 1 ms, and since when (R429). -/
def State.lateHeads (s : State) (part : Nat) : List (Nat × Nat) :=
  (((s.partQueues part).map fun e => s.headsOf e.1).flatten).filterMap fun rid => match (s.recAt rid).eligibleAt with
    | some t => if t + 700000 ≤ s.cycle.toNat then some (rid, t) else none
    | none => none

/-- A record that has ended by itself: every core has ended, nothing of it is under way, and it does not wait for its
discard (R115, R415). -/
def State.endsByItself (s : State) (rid : Nat) : Prop :=
  let r := s.recAt rid
  r.status = none ∧ r.st = .running ∧ 0 < r.place.length ∧ (∀ n, n < r.place.length → n ∈ r.ended) ∧ s.recordBusy rid = false
    ∧ r.endFault.map (·.1) ≠ some Cause.cornice.code

/-! What the host asks for (R179, R420, R423, R433). -/

/-- The device keeps what the host has asked for until it has done it. -/
def State.keepsWait (s : State) (i : HostWait) : State :=
  if i ∈ s.hostWaits then s else { s with hostWaits := s.hostWaits ++ [i] }

/-- The device is done with what the host has asked for. -/
def State.dropsWait (s : State) (i : HostWait) : State := { s with hostWaits := s.hostWaits.filter fun j => decide (j ≠ i) }

/-! The mailbox (R446). -/

/-- A mailbox command runs, and will show this error code when it finishes. -/
def State.commanded (s : State) (e : Nat) : State :=
  { s with mailbox := { s.mailbox with busy := true, done := false, result := e } }

/-- A mailbox command runs. -/
def State.begun (s : State) : State := { s with mailbox := { s.mailbox with busy := true, done := false } }

end Sys2Proof.Machine
end

