-- ==== Sys2Proof/Certificates/Slice0/Obligations.lean ====
section
/-! DEFINITION. The statements for the provers. -/

open Sys2Proof Sys2Proof.Machine

/-! The arithmetic group. -/

/-- R71: the three-register instructions write their result to `s[d]`, leave every other register, and go on at the next word.
R71: the bit counts and `sel`. The bits counted are named: every bit above the result of `clz` is zero, and the bit that
ends the count is one. R73 to R75: immediates of 16 bits, or of 40 under a `pfx imm`; shifts by a constant; one quarter of
a word. -/
def Obligations.ScalarResults : Prop :=
  (
    ∀ e ∈ aluOps, ∀ (d a b : BitVec 5) (s : State), plain d = true → plain a = true → plain b = true → s.calm = true →
      exec (e.1 d a b) s = .next (s.gives d (e.2 (s.src a) (s.src b))))
  ∧ (
    (∀ (d a : BitVec 5) (s : State), plain d = true → plain a = true → s.calm = true →
      ∃ n : Nat, exec (.clz d a) s = .next (s.gives d (BitVec.ofNat 64 n)) ∧ n ≤ 64
        ∧ (∀ k, k < n → (s.src a).getLsbD (63 - k) = false) ∧ (n < 64 → (s.src a).getLsbD (63 - n) = true))
    ∧ (∀ (d a : BitVec 5) (s : State), plain d = true → plain a = true → s.calm = true →
      ∃ n : Nat, exec (.ctz d a) s = .next (s.gives d (BitVec.ofNat 64 n)) ∧ n ≤ 64
        ∧ (∀ k, k < n → (s.src a).getLsbD k = false) ∧ (n < 64 → (s.src a).getLsbD n = true))
    ∧ (∀ (d a : BitVec 5) (s : State), plain d = true → plain a = true → s.calm = true →
      exec (.popc d a) s = .next (s.gives d (BitVec.ofNat 64 (((List.range 64).filter fun k => (s.src a).getLsbD k).length))))
    ∧ ∀ (d a b c : BitVec 5) (s : State), plain d = true → plain a = true → plain b = true → plain c = true → s.calm = true →
      exec (.sel d a b c) s = .next (s.gives d (if s.src c ≠ 0 then s.src a else s.src b)))
  ∧ (
    (∀ e ∈ immSOps, ∀ (d a : BitVec 5) (i : BitVec 16) (s : State), plain d = true → plain a = true → s.calm = true →
      exec (e.1 d a i) s = .next (s.gives d (e.2 (s.src a) (BitVec.ofInt 64 (s.ctx.immS i)))))
    ∧ (∀ e ∈ immUOps, ∀ (d a : BitVec 5) (i : BitVec 16) (s : State), plain d = true → plain a = true → s.calm = true →
      exec (e.1 d a i) s = .next (s.gives d (e.2 (s.src a) (BitVec.ofNat 64 (s.ctx.immU i)))))
    ∧ (∀ e ∈ shiftOps, ∀ (d a n : BitVec 5) (h : BitVec 1) (s : State), plain d = true → plain a = true → s.calm = true →
      exec (e.1 d a n h) s = .next (s.gives d (e.2 (s.src a) (32 * h.toNat + n.toNat))))
    ∧ ∀ (d : BitVec 5) (k : BitVec 2) (i : BitVec 16) (s : State), plain d = true → s.calm = true →
      exec (.lhi d k i) s = .next (s.gives d (BitVec.ofNat 64 ((s.src d).toNat
        - (s.src d).toNat / 2 ^ (16 * k.toNat) % 2 ^ 16 * 2 ^ (16 * k.toNat) + i.toNat * 2 ^ (16 * k.toNat)))))

/-- R72: the divisions, with every corner of theirs. -/
def Obligations.DivisionResults : Prop :=
  ∀ e ∈ divOps, ∀ (d a b : BitVec 5) (s : State), plain d = true → plain a = true → plain b = true → s.calm = true →
    exec (e.1 d a b) s = .next (s.gives d (e.2 (s.src a) (s.src b)))

/-- R76: a conditional branch goes on at the next word when its condition fails, at its target when it holds, and raises
BOUNDS with the target when that lies outside the CODE object. R77: `jal` and `jalr` write the address of the next word to
`s[d]` and go on at their target; a target outside the CODE object raises BOUNDS, and before it MISALIGN when it is no
multiple of 4, with no link written. -/
def Obligations.BranchAndJumpTargets : Prop :=
  (
    ∀ e ∈ branchOps, ∀ (a b : BitVec 5) (o : BitVec 13) (s : State), plain a = true → plain b = true → s.calm = true →
      let t : Int := s.ctx.pc.toNat + 4 * o.toInt
      (e.2 (s.src a) (s.src b) = false → exec (e.1 a b o) s = .next s.retires)
      ∧ (e.2 (s.src a) (s.src b) = true → 0 ≤ t → t + 4 ≤ s.codeLen →
          exec (e.1 a b o) s = .next (s.retiresTo (some (BitVec.ofInt 64 t))))
      ∧ (e.2 (s.src a) (s.src b) = true → ¬ (0 ≤ t ∧ t + 4 ≤ s.codeLen) →
          exec (e.1 a b o) s = .next (s.trapHere Cause.bounds.code (BitVec.ofInt 64 t) false)))
  ∧ (
    (∀ (d : BitVec 5) (o : BitVec 21) (s : State), plain d = true → s.calm = true →
      let t : Int := s.ctx.pc.toNat + 4 * o.toInt
      (0 ≤ t → t + 4 ≤ s.codeLen → exec (.jal d o) s
        = .next ((s.setCtx (s.ctx.setS d.toNat (s.ctx.pc + 4))).retiresTo (some (BitVec.ofInt 64 t))))
      ∧ (¬ (0 ≤ t ∧ t + 4 ≤ s.codeLen) → exec (.jal d o) s = .next (s.trapHere Cause.bounds.code (BitVec.ofInt 64 t) false)))
    ∧ ∀ (d a : BitVec 5) (i : BitVec 16) (s : State), plain d = true → plain a = true → s.calm = true →
      let t : Int := (s.src a).toNat + i.toInt
      (t % 4 ≠ 0 → exec (.jalr d a i) s = .next (s.trapHere Cause.misalign.code (BitVec.ofInt 64 t) false))
      ∧ (t % 4 = 0 → 0 ≤ t → t + 4 ≤ s.codeLen → exec (.jalr d a i) s
        = .next ((s.setCtx (s.ctx.setS d.toNat (s.ctx.pc + 4))).retiresTo (some (BitVec.ofInt 64 t))))
      ∧ (t % 4 = 0 → ¬ (0 ≤ t ∧ t + 4 ≤ s.codeLen) →
          exec (.jalr d a i) s = .next (s.trapHere Cause.bounds.code (BitVec.ofInt 64 t) false)))

/-! Shapes, control registers, prefixes and ports. -/

/-- R82 to R84, R136: `shp` loads a shape of a SHAPES object, and raises TYPE, MISALIGN or BOUNDS for what is none, and TYPE
with the offset for a body that no pad takes; `tidx` gives coordinate k of the linear index by the loop of R84, for a k that
R83 admits. The multiplier and shift of a valid dimension divide every 32-bit index exactly. The model's choice in it: log
entry 109. -/
def Obligations.ShapeCoordinate : Prop :=
  (∀ (d a : BitVec 5) (k : BitVec 3) (s : State), plain d = true → plain a = true → k.toNat ≤ 4 → s.calm = true →
    exec (.tidx d a k) s = .next (s.gives d
      (BitVec.ofNat 64 (coordinate s.ctx.shape k.toNat s.ctx.shape.dims 0 ((s.src a).toNat % 2 ^ 32)))))
  ∧ ∀ (d : BitVec 5) (a : BitVec 4) (b : BitVec 5) (s t : State) (l : Loc), plain d = true → plain b = true → t.calm = true →
    let i : Instr := .shp d a b
    let n := s.src b
    let off := (t.ctx.areg a.toNat).cur.toNat + 64 * n.toNat
    let sh := (t.ctx.areg a.toNat).sh
    leads i (touch a.toNat) s (some l) t →
    (sh.typ.toNat ≠ tSHAPES → exec i s = .next (t.trapHere Cause.type.code n false))
    ∧ (sh.typ.toNat = tSHAPES → off % 64 ≠ 0 → exec i s = .next (t.trapHere Cause.misalign.code (BitVec.ofNat 64 off) false))
    ∧ (sh.typ.toNat = tSHAPES → off % 64 = 0 → sh.len.toNat < off + 64 →
      exec i s = .next (t.trapHere Cause.bounds.code (BitVec.ofNat 64 off) false))
    ∧ (sh.typ.toNat = tSHAPES → off % 64 = 0 → off + 64 ≤ sh.len.toNat →
      (parseShape (t.bodyBytes l off 64) = none → exec i s = .next (t.trapHere Cause.type.code n false))
      ∧ ∀ x, parseShape (t.bodyBytes l off 64) = some x →
        exec i s = .next ((t.setCtx { t.ctx with shape := x }).gives d (BitVec.ofNat 64 x.ndim)))
  ∧ (∀ (d : BitVec 5) (a : BitVec 4) (b : BitVec 5) (s t : State), plain b = true →
    leads (.shp d a b) (touch a.toNat) s none t → exec (.shp d a b) s = .next (t.trapHere Cause.type.code
      (BitVec.ofNat 64 ((s.ctx.areg a.toNat).cur.toNat + 64 * (s.src b).toNat)) false))
  ∧ ∀ (x : Dim) (n : Nat), x.valid = true → n < 2 ^ 32 → n * x.m.toNat / 2 ^ (32 + x.l.toNat) = n / x.n.toNat

/-- R85, R86, R88: `crd` reads every register of the map, with PRIV and the register's number when it may not be read without
`status.PRIV`; a number outside the map raises ILLEGAL with it. R85 to R93: `crw`, `crs` and `crc` give the old value to
`s[d]` and change the writable bits of the register alone; they raise PRIV where the register needs it, ILLEGAL where it
is read-only or no register, and ILLEGAL with the register's number for a value that the register refuses. A write of `timercmp`
that ends the condition of a pending TIMER drops it. The model's choice in it: log entry 71. -/
def Obligations.ControlRegisters : Prop :=
  (
    (∀ e ∈ crMap, ∀ (d : BitVec 5) (s : State), plain d = true → s.calm = true → (e.2.1 = true → s.core.isPriv = true) →
      exec (.crd d (BitVec.ofNat 12 e.1)) s = .next (s.gives d (e.2.2 s)))
    ∧ (∀ e ∈ crMap, ∀ (d : BitVec 5) (s : State), e.2.1 = true → s.core.isPriv = false →
      exec (.crd d (BitVec.ofNat 12 e.1)) s = .next (s.trapHere Cause.priv.code (BitVec.ofNat 64 e.1) false))
    ∧ ∀ (d : BitVec 5) (n : BitVec 12) (s : State), n.toNat ∉ crMap.map (·.1) →
      exec (.crd d n) s = .next (s.trapHere Cause.illegal.code (BitVec.ofNat 64 n.toNat) false))
  ∧ (
    (∀ o ∈ crOps, ∀ e ∈ crWrites, ∀ (d a : BitVec 5) (s : State), plain d = true → plain a = true →
      (e.2.1 = true → s.core.isPriv = true) →
      let old := crValue s e.1
      let new := o.2 old (s.src a)
      let t := e.2.2.2 s ((old &&& ~~~e.2.2.1) ||| (new &&& e.2.2.1))
      crRefused e.1 new = false → s.calm = true → exec (o.1 d a (BitVec.ofNat 12 e.1)) s = .next (t.gives d old))
    ∧ (∀ o ∈ crOps, ∀ e ∈ crWrites, ∀ (d a : BitVec 5) (s : State), e.2.1 = true → s.core.isPriv = false →
      exec (o.1 d a (BitVec.ofNat 12 e.1)) s = .next (s.trapHere Cause.priv.code (BitVec.ofNat 64 e.1) false))
    ∧ (∀ o ∈ crOps, ∀ (d a : BitVec 5) (n : BitVec 12) (s : State), n.toNat ∉ crWrites.map (·.1) → n.toNat ≠ 0x107 →
      exec (o.1 d a n) s = .next (s.trapHere Cause.illegal.code (BitVec.ofNat 64 n.toNat) false))
    ∧ (∀ o ∈ crOps, ∀ e ∈ crWrites, ∀ (d a : BitVec 5) (s : State), plain a = true → (e.2.1 = true → s.core.isPriv = true) →
      crRefused e.1 (o.2 (crValue s e.1) (s.src a)) = true →
      exec (o.1 d a (BitVec.ofNat 12 e.1)) s = .next (s.trapHere Cause.illegal.code (BitVec.ofNat 64 e.1) false))
    ∧ (∀ (v : Word), crRefused 1 v = decide (5 ≤ v.toNat % 8) ∧ crRefused 2 v = decide (11 ≤ v.toNat / 2 ^ 13 % 16)
        ∧ crRefused 3 v = decide (6 ≤ v.toNat % 8))
    ∧ (∀ o ∈ crOps, ∀ (d a : BitVec 5) (s : State), plain d = true → plain a = true → s.calm = true →
      s.core.isPriv = true → (s.core.secure && !s.core.lock) = true →
      let new := o.2 (crValue s 0x107) (s.src a)
      exec (o.1 d a 0x107) s = .next ((s.setCore s.site { s.core with
        secure := new.getLsbD 0, lock := s.core.lock || new.getLsbD 1 }).gives d (crValue s 0x107)))
    ∧ ∀ o ∈ crOps, ∀ (d a : BitVec 5) (s : State), s.core.isPriv = true → (s.core.secure && !s.core.lock) = false →
      exec (o.1 d a 0x107) s = .next (s.trapHere Cause.world.code 0x107 false))

/-- R44 to R46: `pfx imm`, `pfx reg` and `pfx fn` before a word that they may govern are latched, and the word is next; a
prefix whose governed word lies outside the CODE object raises BOUNDS with that word's address, and one before a word that it
may not govern ILLEGAL with its own word, both at the prefix. R36, R38, R201, R354: a source of `s28`
pops one word of the receive queue, of `s29` one completion record, of `s31` one word of the bound event line; an empty port
gives 0 where its NB flag is set, and else the context waits with nothing done. A destination of `s28` sends the result, and
one of `s29` to `s31` discards it. R91, R213: a source of `s30` takes the newest element of the bound DEQUE, whose copy
`syncCopy` finds, and raises TYPE when no register is bound. The model's choices in it: log entries 30, 31, 91 and 105. -/
def Obligations.PrefixesAndQueuePorts : Prop :=
  (
    (∀ (p : BitVec 24) (s : State) (w : Nat) (i : Instr), s.codeWord (s.ctx.pc.toNat + 4) = some w →
      decodeUnder (.imm p) w = .ok i →
      exec (.pfxImm p) s = .next { s.setCtx { s.ctx with pfx := .imm p, pc := s.ctx.pc + 4 } with tx := {} })
    ∧ (∀ (r : BitVec 5) (s : State) (w : Nat) (i : Instr), s.codeWord (s.ctx.pc.toNat + 4) = some w →
      decodeUnder (.reg r) w = .ok i →
      exec (.pfxReg r) s = .next { s.setCtx { s.ctx with pfx := .reg r, pc := s.ctx.pc + 4 } with tx := {} })
    ∧ (∀ (x : BitVec 6) (s : State) (w : Nat) (i : Instr), s.codeWord (s.ctx.pc.toNat + 4) = some w →
      decodeUnder (.fn x) w = .ok i →
      exec (.pfxFn x) s = .next { s.setCtx { s.ctx with pfx := .fn x, pc := s.ctx.pc + 4 } with tx := {} })
    ∧ ∀ e ∈ ([fun p => (.pfxImm p, .imm p), fun p => (.pfxReg (p.setWidth 5), .reg (p.setWidth 5)),
        fun p => (.pfxFn (p.setWidth 6), .fn (p.setWidth 6))] : List (BitVec 24 → Instr × Pfx)), ∀ (p : BitVec 24) (s : State),
      let t := s.setCtx { s.ctx with pfx := (e p).2, pc := s.ctx.pc + 4 }
      (s.codeWord (s.ctx.pc.toNat + 4) = none → exec (e p).1 s = .next (t.trapHere Cause.bounds.code (s.ctx.pc + 4) false))
      ∧ ∀ w, s.codeWord (s.ctx.pc.toNat + 4) = some w → decodeUnder (e p).2 w = .error .badPair →
        exec (e p).1 s = .next (t.trapHere Cause.illegal.code (BitVec.ofNat 64 (wordNat (e p).1)) false))
  ∧ (
    ∀ e ∈ aluOps, ∀ (d a b : BitVec 5) (s : State), plain d = true → plain a = true → plain b = true → s.calm = true →
      (∀ w, s.core.rxWords[0]? = some w →
        exec (e.1 d 28 b) s = .next (s.setCtx (s.ctx.setS d.toNat (e.2 w (s.src b)))).tookWord.retires)
      ∧ (s.core.rxWords = [] → s.ctx.nonBlocking 32 = true → exec (e.1 d 28 b) s = .next (s.gives d (e.2 0 (s.src b))))
      ∧ (s.core.rxWords = [] → s.ctx.nonBlocking 32 = false → ∃ x, exec (e.1 d 28 b) s = .next (s.waits x))
      ∧ (∀ r, s.ctx.recs[0]? = some r → s.core.act < 13 → s.ctx.acquired.length + r.dests.length ≤ 16 →
        (∀ x ∈ r.dests, s.redsOn x.2.1 x.2.2.1 x.2.2.2 = false) →
        exec (e.1 d 29 b) s = .next ((s.setCtx (s.ctx.setS d.toNat (e.2 r.word (s.src b)))).tookRecord r).retires)
      ∧ (∀ w rid, isChan s.site = false → s.core.recId = some rid →
        (∀ x ∈ s.waitq, x.key ≠ .line rid (clusterOf s.site) (bitsOf s.ctx.portbind 22 5)) → w ≠ 0 → s.core.act < 13 →
        ((s.recAt rid).wordsFor (clusterOf s.site) (bitsOf s.ctx.portbind 22 5))[0]? = some w →
        exec (e.1 d 31 b) s = .next (((s.setCtx (s.ctx.setS d.toNat (e.2 w (s.src b)))).setRec rid
          ((s.recAt rid).takeFor (clusterOf s.site) (bitsOf s.ctx.portbind 22 5) 0 1)).retires))
      ∧ (s.ctx.portbind.getLsbD 21 = false → exec (e.1 d 30 b) s = .next (s.trapHere Cause.type.code 0 false))
      ∧ (∀ (v : Loc) (t : State), s.ctx.portbind.getLsbD 21 = true →
        let r := bitsOf s.ctx.portbind 17 4
        let l := ptrLevel (s.ctx.areg r).ptr
        let i := t.dqBottom v + 2 ^ 32 - 1
        let cap := (dqCap (t.hdr v).len).getD 2
        l ≠ 7 → leads (e.1 d 30 b) (syncCopy r (levelScope l) 32 dequeOk) s v t → (∀ x ∈ t.waitq, x.key ≠ .deque v) →
        t.core.act < 13 → t.calm = true →
        (t.dqCount v ≠ 0 → t.bodyPoisoned v (32 + 8 * (i % cap)) 8 = false → exec (e.1 d 30 b) s
          = .next ((t.setCtx (t.ctx.setS d.toNat (e.2 (t.dqSlot v cap i) (t.src b)))).dqDropBottom v).retires)
        ∧ (t.dqCount v = 0 → t.ctx.nonBlocking 34 = true → exec (e.1 d 30 b) s = .next (t.gives d (e.2 0 (t.src b))))
        ∧ (t.dqCount v = 0 → t.ctx.nonBlocking 34 = false → exec (e.1 d 30 b) s
          = .next ((t.inLine (.deque v) 0).waits {})))
      ∧ (bitsOf s.ctx.portbind 0 13 < (s.tableRec.map Rec.tableSize).getD 0 → s.sendUsed s.site < 8 →
        exec (e.1 28 a b) s
          = .next ((s.setCtx s.ctx).send ((s.starts (e.1 28 a b)).portMessage (e.2 (s.src a) (s.src b)))).retires)
      ∧ ∀ z ∈ ([29, 30, 31] : List (BitVec 5)), exec (e.1 z a b) s = .next s.retires)

/-! Objects. -/

/-- R143, R146, R147: an object of the core's own pad stays where it is; its level, cursor, length, scale bytes and type
word are read without memory; a cursor that does not fit 32 bits raises BOUNDS with it and changes nothing. A null pointer
raises NULLPTR. -/
def Obligations.PointerResults : Prop :=
  (∀ (i : Instr) (r k : Nat) (s : State), s.ownObject r = some k → leads i (touch r) s (some (.pad k)) s)
  ∧ (∀ (d : BitVec 5) (a : BitVec 4) (s : State), (s.ownObject a.toNat).isSome = true → plain d = true → s.calm = true →
      exec (.touch d a) s = .next (s.gives d 3))
  ∧ (∀ (d : BitVec 5) (a : BitVec 4) (s : State), ptrLevel (s.ctx.areg a.toNat).ptr = 7 →
      exec (.touch d a) s = .next (s.trapHere Cause.nullptr.code (s.ctx.areg a.toNat).ptr false))
  ∧ (∀ (d a : BitVec 4) (b : BitVec 5) (s : State), plain b = true → s.calm = true →
      let r := s.ctx.areg a.toNat
      exec (.acurSet d a b) s = .next (if (s.src b).toNat < 2 ^ 32 then
        s.becomes (s.ctx.setA d.toNat { r with cur := (s.src b).setWidth 32 }) else s.trapHere Cause.bounds.code (s.src b) false))
  ∧ (∀ (d a : BitVec 4) (b : BitVec 5) (s : State), plain b = true → s.calm = true →
      let r := s.ctx.areg a.toNat
      let n : Int := r.cur.toNat + (s.src b).toInt
      exec (.acurAdd d a b) s = .next (if 0 ≤ n ∧ n < 2 ^ 32 then
        s.becomes (s.ctx.setA d.toNat { r with cur := BitVec.ofInt 32 n }) else s.trapHere Cause.bounds.code (BitVec.ofInt 64 n) false))
  ∧ (∀ (d : BitVec 5) (a : BitVec 4) (sel : BitVec 2) (s : State), (s.ctx.areg a.toNat).sh.valid = true → sel ≠ 3 →
      plain d = true → s.calm = true →
      let r := s.ctx.areg a.toNat
      exec (.olen d a sel) s = .next (s.gives d (if sel = 0 then r.sh.len.setWidth 64 else if sel = 1 then r.cur.setWidth 64
        else BitVec.ofNat 64 (scaleBytes r.sh.fmt.toNat r.sh.blog.toNat r.sh.len.toNat))))
  ∧ ∀ (d : BitVec 5) (a : BitVec 4) (s : State), (s.ctx.areg a.toNat).sh.valid = true → plain d = true → s.calm = true →
      let r := s.ctx.areg a.toNat
      exec (.otype d a) s = .next (s.gives d (BitVec.ofNat 64 (r.sh.typ.toNat + 2 ^ 8 * r.sh.fmt.toNat + 2 ^ 13 * r.sh.blog.toNat
        + 2 ^ 16 * ptrLevel r.ptr + 2 ^ 19 * r.sh.flags.toNat)))

/-- R137, R138: `ld` of an operand that the touch finds at `l`: the first check that fails raises its trap with the offset;
else the element is decoded, and `s[d]` receives it. Integer elements are sign-extended, N elements zero-extended. R136: an
access to a body that no pad takes raises TYPE with the offset. The model's choice in it: log entry 114. -/
def Obligations.LoadResults : Prop :=
  (∀ (d : BitVec 5) (p : BitVec 4) (x : BitVec 5) (z : BitVec 2) (i : BitVec 10) (s t : State) (l : Loc),
    plain d = true → plain x = true → t.calm = true →
    let n := 2 ^ z.toNat
    let off := s.accessAt p x i n
    let f := (t.ctx.areg p.toNat).sh.fmt.toNat
    let blog := (t.ctx.areg p.toNat).sh.blog.toNat
    let v := ofBytes (t.readBody t.me l off.toNat n)
    let r := loadValue t.core f blog n v (t.scaleAt l (t.ctx.areg p.toNat).sh off.toNat)
    leads (.ld d p x z i) (touch p.toNat) s (some l) t →
    (∀ c w, t.accessFault p.toNat l .ld z.toNat off = some (c, w) →
      exec (.ld d p x z i) s = .next (t.trapHere c.code w false))
    ∧ (t.accessFault p.toNat l .ld z.toNat off = none → t.clearOfReds l off.toNat n = true →
      exec (.ld d p x z i) s = .next ((t.noted r.2 0).gives d (BitVec.ofNat 64 r.1)))
    ∧ ((f = 1 ∧ blog = 0) ∨ f = 3 ∨ f = 5 ∨ f = 7 → r.2 = 0 ∧ BitVec.ofNat 64 r.1 = BitVec.ofInt 64 (signExt (8 * n) v))
    ∧ (f = 0 ∨ f = 2 ∨ f = 4 ∨ f = 6 ∨ f = 10 ∨ f = 11 ∨ f = 17 → r = (v, 0)))
  ∧ ∀ (d : BitVec 5) (e p : BitVec 4) (x : BitVec 5) (z : BitVec 2) (i : BitVec 10) (s y : State), plain d = true → plain x = true →
    let trapped := y.trapHere Cause.type.code (BitVec.ofInt 64 (s.accessAt p x i (2 ^ z.toNat))) false
    let trapped8 := y.trapHere Cause.type.code (BitVec.ofInt 64 (s.accessAt p x i 8)) false
    (leads (.ld d p x z i) (touch p.toNat) s none y → exec (.ld d p x z i) s = .next trapped)
    ∧ (leads (.st d p x z i) (touch p.toNat) s none y → exec (.st d p x z i) s = .next trapped)
    ∧ (leads (.lda e p x i) (touch p.toNat) s none y → exec (.lda e p x i) s = .next trapped8)
    ∧ (leads (.sta e p x i) (touch p.toNat) s none y → exec (.sta e p x i) s = .next trapped8)

/-- R137, R139, R140: `st` of an operand that the touch finds at `l`: the first check that fails raises its trap, and else the
encoded element stands at the offset and no byte of a pad beside it has changed; a write of the watched object raises WATCH
after the instruction. Integer and N elements are the low bytes of `s[d]`. The model's choices in it: log entries 32, 106 and
113. -/
def Obligations.StoreResults : Prop :=
  ∀ (d : BitVec 5) (p : BitVec 4) (x : BitVec 5) (z : BitVec 2) (i : BitVec 10) (s t : State) (l : Loc),
    plain d = true → plain x = true → t.calm = true →
    let n := 2 ^ z.toNat
    let off := s.accessAt p x i n
    let f := (t.ctx.areg p.toNat).sh.fmt.toNat
    let blog := (t.ctx.areg p.toNat).sh.blog.toNat
    let y := storeValue t.core f blog n t.ctx.rm (s.src d).toNat (t.scaleAt l (t.ctx.areg p.toNat).sh off.toNat) t.draw
    let u := t.putObj l off.toNat (leBytes y.1 n)
    leads (.st d p x z i) (touch p.toNat) s (some l) t →
    (∀ c w, t.accessFault p.toNat l .st z.toNat off = some (c, w) →
      exec (.st d p x z i) s = .next (t.trapHere c.code w false))
    ∧ (t.accessFault p.toNat l .st z.toNat off = none → t.clearOfReds l off.toNat n = true →
      let canon := canonOf (t.ctx.areg p.toNat).ptr (t.hdr l)
      let w := (u.noted y.2.1 y.2.2).retires
      ((u.noted y.2.1 y.2.2).watches canon = false → exec (.st d p x z i) s = .next w)
      ∧ ((u.noted y.2.1 y.2.2).watches canon = true → exec (.st d p x z i) s
        = .next (w.enterTrap w.site w.core.act Cause.watch.code canon w.ctx.pc false (decide (s.ctx.pfx ≠ .none)))))
    ∧ (f ≤ 7 ∨ f = 10 ∨ f = 11 ∨ f = 17 → (f = 1 → blog = 0) → y = ((s.src d).toNat % 2 ^ (8 * n), 0, 0))
    ∧ ∀ k, l = .pad k → ∀ a, u.mem.byte a
        = if k + 32 + off.toNat ≤ a ∧ a < k + 32 + off.toNat + n then BitVec.ofNat 8 (y.1 / 256 ^ (a - (k + 32 + off.toNat)))
          else t.mem.byte a

/-- R142, R158: `lda` loads a pointer register from a PTRS object, with cursor 0 and no valid shadow; `sta` stores the
pointer that the remembered set gives for it (`remember`), and no byte of a pad beside the eight changes. R148: `root` and
`unroot` set and clear ROOT in the header that the pointer names, and change no byte outside it; `unroot` of a stack object
raises TYPE with the pointer. The model's choices in it: log entry 70. -/
def Obligations.PointerLoadsStoresAndRoots : Prop :=
  (
    (∀ (d p : BitVec 4) (x : BitVec 5) (i : BitVec 10) (s t : State) (l : Loc), plain x = true → t.calm = true →
      let off := s.accessAt p x i 8
      leads (.lda d p x i) (touch p.toNat) s (some l) t →
      (∀ c w, t.accessFault p.toNat l .lda 3 off = some (c, w) → exec (.lda d p x i) s = .next (t.trapHere c.code w false))
      ∧ (t.accessFault p.toNat l .lda 3 off = none → t.clearOfReds l off.toNat 8 = true →
        exec (.lda d p x i) s = .next (t.becomes (t.ctx.setA d.toNat
          { ptr := BitVec.ofNat 64 (ofBytes (t.bodyBytes l off.toNat 8)), cur := 0, sh := {} }))))
    ∧ ∀ (d p : BitVec 4) (x : BitVec 5) (i : BitVec 10) (s t u : State) (l : Loc) (q : Word), plain x = true → u.calm = true →
      let off := s.accessAt p x i 8
      leads (.sta d p x i) (touch p.toNat) s (some l) t →
      (∀ c w, t.accessFault p.toNat l .sta 3 off = some (c, w) → exec (.sta d p x i) s = .next (t.trapHere c.code w false))
      ∧ (t.accessFault p.toNat l .sta 3 off = none → t.clearOfReds l off.toNat 8 = true →
        leads (.sta d p x i) (remember l off.toNat (t.ctx.areg d.toNat).ptr) t q u →
        let v := u.putObj l off.toNat (leBytes q.toNat 8)
        v.watches (canonOf (u.ctx.areg p.toNat).ptr (u.hdr l)) = false →
        exec (.sta d p x i) s = .next v.retires
        ∧ ∀ k, l = .pad k → ∀ a, v.mem.byte a
            = if k + 32 + off.toNat ≤ a ∧ a < k + 32 + off.toNat + 8 then BitVec.ofNat 8 (q.toNat / 256 ^ (a - (k + 32 + off.toNat)))
              else u.mem.byte a))
  ∧ (
    ∀ (a : BitVec 4) (on : Bool) (s t : State) (l : Loc), t.calm = true →
      let i : Instr := if on then .root a else .unroot a
      let p := (s.ctx.areg a.toNat).ptr
      leads i (locate p) s l t →
      let stack := t.stackObjects.contains (t.hdrKey l)
      let u := t.markRoot l on
      ((on || !stack) = true → t.headerWritable l = true → exec i s = .next u.retires)
      ∧ ((on || !stack) = false → exec i s = .next (t.trapHere Cause.type.code p false))
      ∧ (u.mem.hdr (t.hdrKey l)).root = on
      ∧ ∀ k, k < t.hdrKey l ∨ t.hdrKey l + 32 ≤ k → u.mem.byte k = t.mem.byte k)

/-- R145: `alloc` at a pad level with room places the object at the bump pointer: the header that the descriptor gives, a body
of zeros, scale bytes of 127, and a register with cursor 0 and a valid shadow; no other byte changes. A descriptor that
the rule does not admit raises TYPE with it, a length beyond the level's limit BOUNDS with the length. R149, R152: what
the two do to versions and bytes. A release of an object that lies at its scope's own place gives it the next version
modulo 2^32 in its header, and at cluster scope or wider sets SHARED; a fresh copy of R130 holds the object's header with
PADCOPY set and its LINK, and its body byte for byte. -/
def Obligations.AllocationsVersionsAndCopies : Prop :=
  (
    ∀ (d : BitVec 4) (a b : BitVec 5) (s : State) (ar : Area), plain a = true → plain b = true → s.calm = true →
      let len := (s.src a).toNat
      let desc := (s.src b).toNat
      let level := fieldN desc 16 3
      let fmt := fieldN desc 8 5
      let blog := fieldN desc 13 3
      let key := ar.base + ar.bump
      (allocLegal len desc = false → exec (.alloc d a b) s = .next (s.trapHere Cause.type.code (s.src b) false))
      ∧ (allocLegal len desc = true → level ≠ 0 → copyLimit level < len →
        exec (.alloc d a b) s = .next (s.trapHere Cause.bounds.code (s.src a) false))
      ∧ (allocLegal len desc = true → level ≠ 0 → len ≤ copyLimit level → s.core.act < 13 →
        s.areaFor s.rid s.site level = some ar → footprint fmt blog len ≤ ar.free →
        ∃ t, exec (.alloc d a b) s = .next t
          ∧ t.mem.hdr key = newHeader len desc ar.passes.toNat false s.core.secure
          ∧ (∀ k, key + 32 ≤ k → k < key + 32 + len → t.mem.byte k = 0)
          ∧ (∀ k, key + 32 + len ≤ k → k < key + 32 + len + scaleBytes fmt blog len → t.mem.byte k = 127)
          ∧ (∀ k, k < key ∨ key + footprint fmt blog len ≤ k → t.mem.byte k = s.mem.byte k)
          ∧ t.areaFor s.rid s.site level = some { ar with
              bump := ar.bump + footprint fmt blog len, hdrs := insertKey key ar.hdrs }
          ∧ (t.ctx.areg d.toNat).ptr = s.ptrTo (fmt * 8 + blog) (.pad key)
          ∧ (t.ctx.areg d.toNat).cur = 0 ∧ (t.ctx.areg d.toNat).sh.valid = true
          ∧ (t.ctx.areg d.toNat).sh.len.toNat = len ∧ (t.ctx.areg d.toNat).sh.typ.toNat = fieldN desc 0 8
          ∧ t.ctx.s = s.ctx.s ∧ t.ctx.pc = s.ctx.pc + 4))
  ∧ (
    (∀ (sc : Nat) (p canon : Word) (i : Instr) (s : State) (k : Nat),
      leads i (releaseTarget p sc canon (.pad k)) s (.pad k) s → leads i (writeBack p canon (.pad k) (.pad k)) s () s →
      s.watches canon = false →
      let n := ((s.mem.hdr k).version + 1) % 2 ^ 32
      let h := if 2 ≤ sc then (s.mem.hdr k).setFlag 56 true else s.mem.hdr k
      leads i (releaseObj p sc canon (.pad k)) s n
        { s with mem := s.mem.setHdr k { h with w1 := BitVec.ofNat 64 (n + sc % 8 * 2 ^ 32) } })
    ∧ ∀ (i : Instr) (level k : Nat) (canon : Word) (s : State) (ar : Area),
      s.areaFor s.rid s.site level = some ar → (s.mem.hdr k).foot ≤ ar.free → ar.dir.length < ar.dirCap →
      isHandler k = false → s.clearOfReds (.pad k) 0 (s.mem.hdr k).span = true → (∀ h ∈ s.core.hwrs, h.obj ≠ .pad k) →
      (k + (s.mem.hdr k).foot ≤ ar.base + ar.bump ∨ ar.base + ar.bump + (s.mem.hdr k).foot ≤ k) → 1 ≤ level → level ≤ 3 →
      ∃ key t, leads i (makeCopy level canon (.pad k)) s key t ∧ key = ar.base + ar.bump
        ∧ (t.mem.hdr key).len = (s.mem.hdr k).len ∧ (t.mem.hdr key).typ = (s.mem.hdr k).typ
        ∧ (t.mem.hdr key).padcopy = true ∧ (t.mem.hdr key).link = canon
        ∧ (∀ j, j < (s.mem.hdr k).span → t.mem.byte (key + 32 + j) = s.mem.byte (k + 32 + j))
        ∧ t.copyAt s.rid s.site level canon = some key)

/-- R149, R152, R184: `rel` promotes what escapes, pushes the acquired set down to its scope, writes the object's dirty copies
back and answers its new version; `acq` refreshes the copies from the one that serves its scope and answers that one's
version. They act whole: a trap on the way leaves memory, registers and the acquired set as they were. On an object of the
core's own pad, at ctx or core scope, both complete: `rel` counts the version up, and `acq` answers it and enters the object
in the acquired set. R127: a type that does not permit them raises TYPE with the body offset that the cursor gives. R130, R132:
a copy-in that completes leaves the copy in its pad with its directory entry, and the wait of the instruction that touched the
object ends; one whose record has gone leaves nothing. The model's choices in it: log entries 25 and 33. -/
def Obligations.ReleaseAcquireAndCopyIn : Prop :=
  (
    (∀ (d : BitVec 5) (a : BitVec 4) (sc : BitVec 3) (s t u v w : State) (x y : Word × Loc) (n : Nat),
      plain d = true → sc.toNat < 6 → w.calm = true →
      let i : Instr := .rel d a sc
      leads i (scopeTarget a .rel) s x t → t.accessPending t.site t.core.act = false →
      leads i (escapeReg a.toNat sc.toNat) t y u → leads i (cumulativePush sc.toNat) u ⟨⟩ v →
      leads i (releaseObj (t.ctx.areg a.toNat).ptr sc.toNat y.1 y.2) v n w →
      exec i s = .next (w.gives d (BitVec.ofNat 64 n)))
    ∧ (∀ (d : BitVec 5) (a : BitVec 4) (sc : BitVec 3) (s t w : State) (x : Word × Loc) (n : Nat),
      plain d = true → sc.toNat < 6 → w.calm = true →
      let i : Instr := .acq d a sc
      leads i (scopeTarget a .acq) s x t →
      leads i (acquireObj (t.ctx.areg a.toNat).ptr sc.toNat x.1 x.2) t n w →
      exec i s = .next (w.gives d (BitVec.ofNat 64 n)))
    ∧ (∀ (d : BitVec 5) (a : BitVec 4) (sc : BitVec 3) (rel : Bool) (s t : State) (x : Word × Loc) (l : Loc), sc.toNat < 6 →
      let i : Instr := if rel then .rel d a sc else .acq d a sc
      let r := s.ctx.areg a.toNat
      leads i (named r.ptr) s x s → leads i (nearestFrom r.ptr 3 x.1 x.2) s l t →
      typeAllows (t.hdr l).typ (if rel then .rel else .acq) (t.core.inMiss || t.core.isPriv) t.core.isPriv = false →
      exec i s = .next (t.trapHere Cause.type.code (r.cur.setWidth 64) false))
    ∧ (∀ (d : BitVec 5) (a : BitVec 4) (sc : BitVec 3) (s : State) (k : Nat), plain d = true → sc.toNat ≤ 1 → s.calm = true →
      s.ownObject a.toNat = some k → s.site < siteCount → (∀ r ∈ s.recs, ∀ x ∈ r.2.place, x < siteCount) →
      let h := s.mem.hdr k
      let canon := s.ptrTo h.hi (.pad k)
      let n := (h.version + 1) % 2 ^ 32
      h.padcopy = false → h.poison = false → s.watches canon = false →
      (typeAllows h.typ .rel (s.core.inMiss || s.core.isPriv) s.core.isPriv = true →
        s.accessPending s.site s.core.act = false → (∀ e ∈ s.ctx.acquired, e.level ≤ 3) →
        s.clearOfReds (.pad k) 0 h.span = true → s.bodyPoisoned (.pad k) 0 h.span = false →
        exec (.rel d a sc) s = .next
          (({ s with mem := s.mem.setHdr k { h with w1 := BitVec.ofNat 64 (n + sc.toNat * 2 ^ 32) } } : State).gives d (BitVec.ofNat 64 n)))
      ∧ (typeAllows h.typ .acq (s.core.inMiss || s.core.isPriv) s.core.isPriv = true →
        (s.secured s.asid (.pad k) = true → s.core.secure = true) → s.ctx.acquired.length < 16 →
        exec (.acq d a sc) s = .next ((s.setCtx { s.ctx with
          acquired := (s.ctx.acquired.filter fun e => decide (e.obj ≠ canon)) ++ [{ obj := canon, level := 3, place := 0 }] }).gives d
            (BitVec.ofNat 64 h.version))))
    ∧ ∀ (α : Type) (x : Op α) (s t : State) (e : Exit), x s = .error e t → whole x s = .error e { s with pageReqs := t.pageReqs })
  ∧ (
    (∀ (k : Nat) (c : CopyIn) (s : State) (canon : Word) (home : Loc) (src : Nat) (ar : Area), s.copyins[k]? = some c →
      let core := s.coreAt c.site
      let s0 := ({ s with site := c.site, copyins := s.copyins.filter fun x => decide (x ≠ c) } : State).setCore c.site
        { core with act := c.ctx }
      let h := s.mem.hdr src
      let level := h.touchLevel
      s0.objectOf 3 c.canon = some (canon, home) → ptrLevel c.canon ≤ 3 → s0.nearest 2 canon home = .pad src →
      level ≠ 0 → keyLevel src < level → s0.copyAt s0.rid c.site level canon = none →
      s0.areaFor s0.rid c.site level = some ar → h.foot ≤ ar.free → ar.dir.length < ar.dirCap →
      (src + h.foot ≤ ar.base + ar.bump ∨ ar.base + ar.bump + h.foot ≤ src) → isHandler src = false →
      s.clearOfReds (.pad src) 0 h.span = true → (∀ w ∈ core.hwrs, w.obj ≠ .pad src) →
      ∃ t, exec (.copyInComplete k) s = .next t ∧ t.site = s.site ∧ t.copyins = s.copyins.filter (fun x => decide (x ≠ c))
        ∧ t.copyAt s0.rid c.site level canon = some (ar.base + ar.bump)
        ∧ (t.mem.hdr (ar.base + ar.bump)).padcopy = true ∧ (t.mem.hdr (ar.base + ar.bump)).link = canon
        ∧ (∀ j, j < h.span → t.mem.byte (ar.base + ar.bump + 32 + j) = s.mem.byte (src + 32 + j))
        ∧ (t.coreAt c.site).ctxs = core.ctxs ∧ (t.coreAt c.site).act = core.act)
    ∧ (∀ (k : Nat) (c : CopyIn) (s : State), s.copyins[k]? = some c → (s.coreAt c.site).recId = none → 1 ≤ ptrLevel c.canon →
      (ptrLevel c.canon = 3 → ptrTag c.canon ≠ ((s.coreAt c.site).ctxAt 0).lcore.toNat ∧ ptrLoc c.canon % 2 ^ 40 < padTop) →
      ∃ t, exec (.copyInComplete k) s = .next t ∧ t.mem = s.mem ∧ t.copyins = s.copyins.filter (fun x => decide (x ≠ c)))
    ∧ ∀ (k : Nat) (s : State), s.copyins[k]? = none → exec (.copyInComplete k) s = .next s)

/-! Order and synchronisation. -/

/-- R190 to R193: an atomic reads the element at its port, writes the new one there and into the path copies, and answers the
old one; `cas` writes only when the old element is the expected one, and the path copies only when it changes. Over a dead Palbel link the answer is 0 and LINKDEAD is
set; a poisoned element raises POISON with its offset. R194, R195: `red` queues its term with the pending entry of its
operation, scope and line and answers nothing; an entry takes effect as one step, its terms combined in order of arrival, and
leaves the port; it takes effect after an earlier entry that holds a term of one of its contexts on the same element. One term
of a pad object writes the combined element, and no byte beside it. The model's choices in it: log entries 39, 111 and 112. -/
def Obligations.AtomicsAndReductions : Prop :=
  (
    (∀ (d : BitVec 5) (a : BitVec 4) (sc : BitVec 3) (k : BitVec 2) (o : BitVec 5) (s t u : State) (x : Target),
      plain d = true → sc.toNat < 6 → (sc = 5 → s.feature 0 = true) → o.toNat < 13 →
      let i : Instr := .amo d a sc k o
      let n := atomicBytes x.fmt
      let old := t.field x.v x.off n
      let new := atomicOp o.toNat x.fmt old ((t.src d).toNat % 2 ^ fmtBits x.fmt)
      leads i (atomicTarget a sc.toNat k (atomicOpFits o.toNat)) s x t →
      (t.deadTarget x.v x.off n = false → t.clearOfReds x.v x.off n = true → t.bodyPoisoned x.v x.off n = false →
        leads i (pathUpdate x (leBytes new n)) (t.putObj x.v x.off (leBytes new n)) () u → u.calm = true →
        exec i s = .next (u.gives d (atomicOld x.fmt old)))
      ∧ (t.deadTarget x.v x.off n = true → t.calm = true → exec i s = .next ((t.fenceBit 0).gives d 0))
      ∧ (t.deadTarget x.v x.off n = false → t.clearOfReds x.v x.off n = true → t.bodyPoisoned x.v x.off n = true →
        exec i s = .next (t.trapHere Cause.poison.code (BitVec.ofNat 64 x.off) false)))
    ∧ (∀ (d : BitVec 5) (a : BitVec 4) (sc : BitVec 3) (k : BitVec 2) (c : BitVec 5) (s t u : State) (x : Target),
      plain d = true → plain c = true → sc.toNat < 6 → (sc = 5 → s.feature 0 = true) →
      let i : Instr := .cas d a sc k c
      let n := atomicBytes x.fmt
      let old := t.field x.v x.off n
      let new := (t.src c).toNat % 2 ^ fmtBits x.fmt
      leads i (atomicTarget a sc.toNat k atomicFmt) s x t →
      t.deadTarget x.v x.off n = false → t.clearOfReds x.v x.off n = true → t.bodyPoisoned x.v x.off n = false →
      (old ≠ (t.src d).toNat % 2 ^ fmtBits x.fmt → t.calm = true → exec i s = .next (t.gives d (atomicOld x.fmt old)))
      ∧ (old = (t.src d).toNat % 2 ^ fmtBits x.fmt → new = old → t.calm = true →
        exec i s = .next ((t.putObj x.v x.off (leBytes new n)).gives d (atomicOld x.fmt old)))
      ∧ (old = (t.src d).toNat % 2 ^ fmtBits x.fmt → new ≠ old →
        leads i (pathUpdate x (leBytes new n)) (t.putObj x.v x.off (leBytes new n)) () u → u.calm = true →
        exec i s = .next (u.gives d (atomicOld x.fmt old))))
    ∧ ∀ (x y : Nat), x < 2 ^ 64 → y < 2 ^ 64 →
        atomicOp 0 7 x y = (x + y) % 2 ^ 64 ∧ atomicOp 4 7 x y = (if signExt 64 x ≤ signExt 64 y then x else y)
        ∧ atomicOp 5 7 x y = (if signExt 64 x ≥ signExt 64 y then x else y) ∧ atomicOp 8 7 x y = y
        ∧ atomicOld 7 x = BitVec.ofNat 64 x)
  ∧ (
    (∀ (d : BitVec 5) (a : BitVec 4) (sc : BitVec 3) (k : BitVec 2) (o : BitVec 5) (s t : State) (x : Target),
      plain d = true → sc.toNat < 6 → (sc = 5 → s.feature 0 = true) → o.toNat < 13 → o ≠ 8 → t.calm = true →
      leads (.red d a sc k o) (atomicTarget a sc.toNat k (atomicOpFits o.toNat)) s x t →
      let r : Red := { op := o.toNat, scope := sc.toNat, v := x.v, line := lineOf x.v x.off, fmt := x.fmt, terms := [] }
      let e : RedTerm := { off := x.off, val := t.src d, sender := some (t.site, t.core.act) }
      exec (.red d a sc k o) s = .next (State.retires { t with reds := addTerm r e t.reds }))
    ∧ (∀ (k : Nat) (r : Red) (s : State), s.reds[k]? = some r →
      let behind := (s.reds.take k).any fun x => r.terms.any (x.holds r.v)
      (behind = false → exec (.reductionPerformed k) s
        = .next { (redOffsets r.terms).foldl (fun (u : State) off => u.performTerms r off) s with reds := s.reds.eraseIdx k })
      ∧ (behind = true → exec (.reductionPerformed k) s = .next s))
    ∧ (∀ (k : Nat) (r : Red) (x : RedTerm) (key : Nat) (s : State), s.reds[k]? = some r → r.terms = [x] → r.v = .pad key →
      ((s.reds.take k).any fun y => y.holds r.v x) = false → isHandler key = false → s.poisoned (key + 32 + x.off) (atomicBytes r.fmt) = false →
      let n := atomicBytes r.fmt
      let new := atomicOp r.op r.fmt (ofBytes (s.mem.bytes (key + 32 + x.off) n)) (x.val.toNat % 2 ^ fmtBits r.fmt)
      ∃ t, exec (.reductionPerformed k) s = .next t ∧ t.reds = s.reds.eraseIdx k ∧ t.cores = s.cores ∧ t.recs = s.recs
        ∧ ∀ a, t.mem.byte a = if key + 32 + x.off ≤ a ∧ a < key + 32 + x.off + n
            then BitVec.ofNat 8 (new / 256 ^ (a - (key + 32 + x.off))) else s.mem.byte a)
    ∧ ∀ (k : Nat) (s : State), s.reds[k]? = none → exec (.reductionPerformed k) s = .next s)

/-- R151, R189, R198: `fence` answers the context's status bits and clears them when asked, once nothing that it waits for
is under way; until then the context waits. A scope code that is none raises ILLEGAL, and an engine fault of the context
ENGINE, which is asynchronous and takes the fault off what is still to report. A port that dies is noted. Another module's write, atomic or `cas` is served at the canonical object, and one that the
page or the format does not let through changes nothing. -/
def Obligations.FenceAndPalbel : Prop :=
  (∀ (d : BitVec 5) (l e : BitVec 1) (sc : BitVec 3) (s : State), plain d = true → s.calm = true → sc.toNat < 6 →
    s.fencePending sc.toNat s.site s.core.act = false → (e = 1 → s.core.enginePending = false) →
    (∀ f ∈ s.core.faults, f.ctx ≠ s.core.act) →
    exec (.fence d l e sc) s
      = .next ((if l = 1 then s.setCtx { s.ctx with fence := 0 } else s).gives d (s.ctx.fence.setWidth 64)))
  ∧ (∀ (d : BitVec 5) (l e : BitVec 1) (sc : BitVec 3) (s : State), sc.toNat < 6 →
    s.fencePending sc.toNat s.site s.core.act = true ∨ (e = 1 ∧ s.core.enginePending = true) →
    exec (.fence d l e sc) s = .next (s.waits (s.starts (.fence d l e sc)).tx))
  ∧ (∀ (d : BitVec 5) (l e : BitVec 1) (sc : BitVec 3) (s : State), 6 ≤ sc.toNat →
    exec (.fence d l e sc) s
      = .next (s.trapHere Cause.illegal.code (BitVec.ofNat 64 (l.toNat * 16 + e.toNat * 8 + sc.toNat)) false))
  ∧ (∀ (d : BitVec 5) (l e : BitVec 1) (sc : BitVec 3) (s : State) (f : EngFault), sc.toNat < 6 →
    s.fencePending sc.toNat s.site s.core.act = false → (e = 1 → s.core.enginePending = false) →
    (s.core.faults.find? fun f => decide (f.ctx = s.core.act)) = some f →
      exec (.fence d l e sc) s = .next ((s.reports f).trapHere Cause.engine.code f.record true))
  ∧ (∀ (port : Nat) (s : State), exec (.palbelLinkDead port) s
      = .next (if port < 16 then { s with deadPorts := insertKey port s.deadPorts } else s))
  ∧ (∀ (q : PalbelReq) (bs : List Byte) (s : State), q.op = .write bs →
    (find (pageKey q.asid (q.va / 4096)) s.ptes).isSome = true →
    let l := Loc.heap q.asid q.va
    q.off + bs.length ≤ (s.hdr l).span → s.writable q.asid (q.va + 32 + q.off) bs.length = true →
    s.clearOfReds l q.off bs.length = true → exec (.palbelRequest q) s = .next (s.putObj l q.off bs))
  ∧ (∀ (q : PalbelReq) (bs : List Byte) (s : State), q.op = .write bs →
    let l := Loc.heap q.asid q.va
    (s.hdr l).span < q.off + bs.length ∨ s.writable q.asid (q.va + 32 + q.off) bs.length = false →
    exec (.palbelRequest q) s = .next s)
  ∧ (∀ (q : PalbelReq) (op : Nat) (x : Word) (s : State), q.op = .amo op x →
    (find (pageKey q.asid (q.va / 4096)) s.ptes).isSome = true →
    let l := Loc.heap q.asid q.va
    let f := (s.hdr l).fmt
    let n := atomicBytes f
    (s.hdr l).typ = tDATA → atomicOpFits op f = true → op < 13 → q.off + n ≤ (s.hdr l).len → q.off % n = 0 →
    s.writable q.asid (q.va + 32 + q.off) n = true → s.bodyPoisoned l q.off n = false → s.clearOfReds l q.off n = true →
    exec (.palbelRequest q) s = .next (s.putObj l q.off (leBytes (atomicOp op f (s.field l q.off n) (x.toNat % 2 ^ fmtBits f)) n)))
  ∧ (∀ (q : PalbelReq) (op : Nat) (x : Word) (s : State), q.op = .amo op x →
    let l := Loc.heap q.asid q.va
    let f := (s.hdr l).fmt
    (s.hdr l).typ ≠ tDATA ∨ atomicOpFits op f = false ∨ (s.hdr l).len < q.off + atomicBytes f
      ∨ s.writable q.asid (q.va + 32 + q.off) (atomicBytes f) = false → exec (.palbelRequest q) s = .next s)
  ∧ (∀ (q : PalbelReq) (old new : Word) (s : State), q.op = .cas old new →
    (find (pageKey q.asid (q.va / 4096)) s.ptes).isSome = true →
    let l := Loc.heap q.asid q.va
    let f := (s.hdr l).fmt
    let n := atomicBytes f
    (s.hdr l).typ = tDATA → atomicFmt f = true → q.off + n ≤ (s.hdr l).len → q.off % n = 0 →
    (s.field l q.off n ≠ old.toNat % 2 ^ fmtBits f → exec (.palbelRequest q) s = .next s)
    ∧ (s.field l q.off n = old.toNat % 2 ^ fmtBits f → s.writable q.asid (q.va + 32 + q.off) n = true →
      s.bodyPoisoned l q.off n = false → s.clearOfReds l q.off n = true →
      exec (.palbelRequest q) s = .next (s.putObj l q.off (leBytes (new.toNat % 2 ^ fmtBits f) n))))
  ∧ ∀ (q : PalbelReq) (s : State), find (pageKey q.asid (q.va / 4096)) s.ptes = none → exec (.palbelRequest q) s = .next s

/-- R205 to R209: `binit` begins the next phase of a barrier with nothing posted or arrived and answers its number, unless
contexts wait or commands are pending on it (BARRIER 1 and 2); `bpost` posts a count and answers the phase, unless one is
posted (BARRIER 3); `barr` releases and then credits units to the phase that it answers; `bwait` answers word 0 once the
phase is complete, and until then waits, counted in WAITERS. The model's choices in it: log entry 35. -/
def Obligations.BarrierResults : Prop :=
  (∀ (d : BitVec 5) (a : BitVec 4) (b : BitVec 5) (sc : BitVec 3) (s t : State) (v : Loc), plain d = true → plain b = true →
    sc.toNat < 6 → t.calm = true → (t.src b).toNat < 2 →
    leads (.binit d a b sc) (syncCopy a.toNat sc.toNat 64 barrierOk) s v t →
    let u := t.barReset v (t.src b).toNat
    (t.barPending v = 0 → t.barWaiters v = 0 → u.calm = true →
      exec (.binit d a b sc) s = .next (u.gives d (BitVec.ofNat 64 (u.barPhase v))))
    ∧ (t.barPending v ≠ 0 → exec (.binit d a b sc) s = .next (t.trapHere Cause.barrier.code 1 false))
    ∧ (t.barPending v = 0 → t.barWaiters v ≠ 0 → exec (.binit d a b sc) s = .next (t.trapHere Cause.barrier.code 2 false))
    ∧ ∀ k, v = .pad k → isHandler k = false → u.barPhase v = (t.barPhase v + 1) % 2 ^ 32 ∧ u.barPosted v = false
        ∧ u.barExpect v = 0 ∧ u.barArrived v = 0 ∧ u.barStrict v = decide ((t.src b).toNat = 1))
  ∧ (∀ (d : BitVec 5) (a : BitVec 4) (b : BitVec 5) (sc : BitVec 3) (s t : State) (v : Loc), plain d = true → plain b = true →
    sc.toNat < 6 → t.src b ≠ 0 → (t.src b).toNat < 2 ^ 48 → t.barSerr v = false →
    leads (.bpost d a b sc) (syncCopy a.toNat sc.toNat 64 barrierOk) s v t →
    (t.barPosted v = false → (t.barStrict v = true → t.barArrived v ≤ (t.src b).toNat) → (t.barPost v (t.src b).toNat).calm = true →
      exec (.bpost d a b sc) s = .next ((t.barPost v (t.src b).toNat).gives d (BitVec.ofNat 64 (t.barPhase v))))
    ∧ (t.barPosted v = true → exec (.bpost d a b sc) s = .next (t.trapHere Cause.barrier.code 3 false)))
  ∧ (∀ (d : BitVec 5) (a : BitVec 4) (b : BitVec 5) (sc : BitVec 3) (s t u w : State) (v v' : Loc), plain d = true →
    plain b = true → sc.toNat < 6 → (t.src b).toNat < 2 ^ 48 → t.barSerr v = false →
    leads (.barr d a b sc) (syncCopy a.toNat sc.toNat 64 barrierOk) s v t → t.fencePending sc.toNat t.site t.core.act = false →
    leads (.barr d a b sc) (releaseAll sc.toNat) t () u → leads (.barr d a b sc) (syncCopy a.toNat sc.toNat 64 barrierOk) u v' w →
    (w.barCredit v' (t.src b).toNat).calm = true →
    exec (.barr d a b sc) s = .next ((w.barCredit v' (t.src b).toNat).gives d (BitVec.ofNat 64 (w.barPhase v'))))
  ∧ ∀ (d : BitVec 5) (a : BitVec 4) (b : BitVec 5) (sc : BitVec 3) (s t u : State) (v : Loc), plain d = true → plain b = true →
    sc.toNat < 6 → t.barSerr v = false → leads (.bwait d a b sc) (syncCopy a.toNat sc.toNat 64 barrierOk) s v t →
    let p := (t.src b).toNat % 2 ^ 32
    (t.waitq.find? fun w => w.isAt (.barrier v) t.site t.core.act) = none →
    (t.barDone v p = true → leads (.bwait d a b sc) (refreshClean sc.toNat) t () u → u.calm = true →
      exec (.bwait d a b sc) s = .next (u.gives d (BitVec.ofNat 64 (t.field v 0 8))))
    ∧ (t.barDone v p = false →
      exec (.bwait d a b sc) s = .next (((t.barWaitersUp v).inLine (.barrier v) p).waits {}))

/-- R212, R213: a deque takes an element at its bottom and gives the newest with `dqpop` and the oldest with `dqsteal`;
`dqpush` answers the new count, 0 when the deque is full; a pop or a steal of an empty one answers 0. R199 to R203: `evsig`
puts a nonzero word at the end of a line that has a free entry, and waits in line for one that has none; `evw` takes the
oldest word of a line, and waits in line where there is none. `mtxl` takes a free mutex and answers ABANDONED, or waits in
line; `mtxu` frees the one that the context holds. A waiting sender's word is accepted as its `evsig` runs again, and stands
in the line when that has a free entry. An element that is lost raises POISON with the pointer. The model's choices in it: log
entries 35 and 37. -/
def Obligations.DequesEventsAndMutexes : Prop :=
  (
    (∀ (d : BitVec 5) (a : BitVec 4) (b : BitVec 5) (sc : BitVec 3) (s t : State) (v : Loc) (cap : Nat), plain d = true →
      plain b = true → sc.toNat < 6 → t.src b ≠ 0 → leads (.dqpush d a b sc) (syncCopy a.toNat sc.toNat 32 dequeOk) s v t →
      dqCap (t.hdr v).len = some cap → t.fencePending sc.toNat t.site t.core.act = false →
      let u := (t.setFieldAt v (32 + 8 * (t.dqBottom v % cap)) 8 (t.src b).toNat).setFieldAt v 8 4 (t.dqBottom v + 1)
      (t.dqCount v = cap → t.calm = true → exec (.dqpush d a b sc) s = .next (t.gives d 0))
      ∧ (t.dqCount v ≠ cap → u.calm = true →
        exec (.dqpush d a b sc) s = .next (u.gives d (BitVec.ofNat 64 (t.dqCount v + 1))))
      ∧ ∀ k, v = .pad k → isHandler k = false →
        u.dqSlot v cap (t.dqBottom v) = t.src b ∧ u.dqTop v = t.dqTop v ∧ u.dqBottom v = (t.dqBottom v + 1) % 2 ^ 32)
    ∧ (∀ (d : BitVec 5) (a : BitVec 4) (sc : BitVec 3) (s t : State) (v : Loc) (cap : Nat), plain d = true → sc.toNat < 6 →
      leads (.dqpop d a sc) (syncCopy a.toNat sc.toNat 32 dequeOk) s v t → dqCap (t.hdr v).len = some cap →
      let u := t.setFieldAt v 8 4 (t.dqBottom v + 2 ^ 32 - 1)
      let lost := t.bodyPoisoned v (32 + 8 * ((t.dqBottom v + 2 ^ 32 - 1) % cap)) 8
      (t.dqCount v = 0 → t.calm = true → exec (.dqpop d a sc) s = .next (t.gives d 0))
      ∧ (t.dqCount v ≠ 0 → lost = false → u.calm = true →
        exec (.dqpop d a sc) s = .next (u.gives d (t.dqSlot v cap (t.dqBottom v + 2 ^ 32 - 1))))
      ∧ (t.dqCount v ≠ 0 → lost = true →
        exec (.dqpop d a sc) s = .next (t.trapHere Cause.poison.code (t.ctx.areg a.toNat).ptr false)))
    ∧ ∀ (d : BitVec 5) (a : BitVec 4) (sc : BitVec 3) (s t : State) (v : Loc) (cap : Nat), plain d = true → sc.toNat < 6 →
      leads (.dqsteal d a sc) (syncCopy a.toNat sc.toNat 32 dequeOk) s v t → dqCap (t.hdr v).len = some cap →
      let u := t.setFieldAt v 0 4 (t.dqTop v + 1)
      let lost := t.bodyPoisoned v (32 + 8 * (t.dqTop v % cap)) 8
      (t.dqCount v = 0 → t.calm = true → exec (.dqsteal d a sc) s = .next (t.gives d 0))
      ∧ (t.dqCount v ≠ 0 → lost = false → u.calm = true →
        exec (.dqsteal d a sc) s = .next (u.gives d (t.dqSlot v cap (t.dqTop v))))
      ∧ (t.dqCount v ≠ 0 → lost = true →
        exec (.dqsteal d a sc) s = .next (t.trapHere Cause.poison.code (t.ctx.areg a.toNat).ptr false)))
  ∧ (
    (∀ (d a : BitVec 5) (w : Word) (s : State) (r : Nat), plain d = true → plain a = true → s.calm = true → s.core.act < 13 →
      isChan s.site = false → (s.src a).toNat < 32 → s.core.recId = some r →
      let cl := clusterOf s.site
      let k := (s.src a).toNat
      s.foremost (.line r cl k) = true →
      (((s.recAt r).wordsFor cl k)[0]? = some w →
        exec (.evw d a) s = .next ((s.setCtx (s.ctx.setS d.toNat w)).setRec r ((s.recAt r).takeFor cl k 0 1)).retires)
      ∧ ((s.recAt r).wordsFor cl k = [] →
        exec (.evw d a) s = .next ((s.inLine (.line r cl k) 0).waits {})))
    ∧ (∀ (a b : BitVec 5) (s : State) (rid cl : Nat), plain a = true → plain b = true → s.calm = true →
      let t := s.src a
      let line := bitsOf t 16 5
      t.toNat < 2 ^ 21 → bitsOf t 14 2 = 0 → line ≠ 31 → s.src b ≠ 0 → leads (.evsig a b) (evTarget t) s (rid, cl) s →
      (((s.recAt rid).line cl line).length < 16 →
        exec (.evsig a b) s = .next (s.setRec rid ((s.recAt rid).setLine cl line ((s.recAt rid).line cl line ++ [s.src b]))).retires)
      ∧ (16 ≤ ((s.recAt rid).line cl line).length → exec (.evsig a b) s = .next ((s.inLine (.space rid cl line) 0).waits {})))
    ∧ (∀ (d a : BitVec 5) (s : State), plain d = true → plain a = true → s.calm = true → isChan s.site = false →
      (s.src a).toNat < 16 →
      let cl := clusterOf s.site
      let m := (s.src a).toNat
      let x := (s.recAt s.rid).mutex cl m
      (x.holder = none → s.foremost (.mutex s.rid cl m) = true → exec (.mtxl d a) s
        = .next ((s.setRec s.rid ((s.recAt s.rid).setMutex cl m { holder := some s.holderName, abandoned := false })).gives d
            (if x.abandoned then 1 else 0)))
      ∧ (∀ h, x.holder = some h → h ≠ s.holderName → exec (.mtxl d a) s = .next ((s.inLine (.mutex s.rid cl m) 0).waits {}))
      ∧ (x.holder = some s.holderName → exec (.mtxl d a) s = .next (s.trapHere Cause.illegal.code (s.src a) false)
        ∧ (s.fencePending 2 s.site s.core.act = false →
          exec (.mtxu a) s = .next (s.setRec s.rid ((s.recAt s.rid).setMutex cl m { x with holder := none })).retires))
      ∧ (x.holder ≠ some s.holderName → exec (.mtxu a) s = .next (s.trapHere Cause.illegal.code (s.src a) false)))
    ∧ ∀ (k : Nat) (w : Waiter) (c : Nat) (a b : BitVec 5) (s : State), s.senders[k]? = some w →
      let s1 : State := { s with site := w.site }
      let s2 := s1.setCore w.site { s1.core with act := w.ctx }
      s2.codeWord s2.ctx.pc.toNat = some c → decodeUnder .none c = .ok (.evsig a b) → s1.core.tshadow = false →
      (∀ t, exec (.evsig a b) s2 = .next t → exec (.eventWordAccepted k) s = .next { t with site := s.site })
      ∧ ∀ (rid cl : Nat), plain a = true → plain b = true → s2.calm = true →
        let t := s2.src a
        let line := bitsOf t 16 5
        t.toNat < 2 ^ 21 → bitsOf t 14 2 = 0 → line ≠ 31 → s2.src b ≠ 0 →
        (t.getLsbD 13 = true ∧ isChan s2.site = false ∧ rid = s2.tableRecId.getD 0 ∧ cl = clusterOf s2.site)
          ∨ (t.getLsbD 13 = false ∧ s2.tableRecId = some rid ∧ ((s2.recAt rid).tableSite (bitsOf t 0 13)).map clusterOf = some cl) →
        ((s2.recAt rid).line cl line).length < 16 →
        exec (.eventWordAccepted k) s = .next { (s2.setRec rid
          ((s2.recAt rid).setLine cl line ((s2.recAt rid).line cl line ++ [s2.src b]))).retires with site := s.site })

/-- R215 to R217: `sstep` arrives at its level and phase; it goes on with the phase changed, and with the count one higher
after an exchange, once every member of the instance stands at the same step; until then it waits, and a member that stands
at another step makes it raise BARRIER 5. At the end of an exchange at level 3 or 4 the last to arrive waits a turn at the
device-level boundary; a member whose instance has moved on goes on. The device may move a ready instance on. The model's
choices in it: log entry 38. -/
def Obligations.SuperstepResults : Prop :=
  (∀ (d : BitVec 5) (s : State), plain d = true → s.calm = true → s.core.act ≠ 12 → s.core.ctxNo = 0 →
    (s.recAt s.rid).arrivalOf s.arriving.lcore = none → s.fencePending (s.arriving.level + 1) s.site s.core.act = false →
    let me := s.arriving
    let t := s.setRec s.rid { s.recAt s.rid with arrivals := (s.recAt s.rid).arrivals ++ [me] }
    (t.disagrees s.rid me = true → exec (.sstep d) s = .next (t.trapHere Cause.barrier.code 5 false))
    ∧ (t.disagrees s.rid me = false → t.stepReady s.rid me = false → exec (.sstep d) s = .next (t.waits {}))
    ∧ (t.disagrees s.rid me = false → t.stepReady s.rid me = true → me.phase = true → 3 ≤ me.level →
      exec (.sstep d) s = .next ((t.moveOn s.rid me).waits {}))
    ∧ (t.disagrees s.rid me = false → t.stepReady s.rid me = true → me.phase = false ∨ me.level < 3 →
      exec (.sstep d) s = .next (((t.moveOn s.rid me).stepPast s.rid me).gives d
        (BitVec.ofNat 64 ((if s.ctx.sphase then 0 else 2 ^ 63)
          + (if s.ctx.sphase then s.ctx.scount + 1 else s.ctx.scount).toNat)))))
  ∧ (∀ (d : BitVec 5) (s : State) (x : Arrival), plain d = true → s.calm = true → s.core.act ≠ 12 → s.core.ctxNo = 0 →
    (s.recAt s.rid).arrivalOf s.arriving.lcore = some x → x.moved = true →
    exec (.sstep d) s = .next ((s.stepPast s.rid s.arriving).gives d (BitVec.ofNat 64
      ((if s.ctx.sphase then 0 else 2 ^ 63) + (if s.ctx.sphase then s.ctx.scount + 1 else s.ctx.scount).toNat))))
  ∧ (∀ (d : BitVec 5) (s : State), s.core.act ≠ 12 → s.core.ctxNo ≠ 0 →
    exec (.sstep d) s = .next (s.trapHere Cause.illegal.code 0 false))
  ∧ ∀ (k rid : Nat) (me : Arrival) (s : State),
    ((s.recs.map fun e => e.2.arrivals.map fun x => (e.1, x)).flatten)[k]? = some (rid, me) →
    exec (.superstepAdvance k) s
      = .next (if me.moved = false ∧ s.stepReady rid me = true then s.moveOn rid me else s)

/-! Contexts, collection and channel cores. -/

/-- R97 to R102: `hstart` starts the lowest free helper at its entry with its argument in `s2`, and answers 0 without a free
one; `hexit` leaves its value and ends the helper; `hjoin` frees an exited helper and answers its value; `hid` names the
helpers; `yield` lets every context that is READY issue first, and in the miss shadow yields the turns of the context that it
serves. A window that a helper owns is aborted as it ends. R103, R104: `park` writes the slots of a register of a file, and
tags a slot PTR only when it holds a pointer, whose bounds shadow travels with it; `unpark` writes the register back from its
slots. R266: parking the register of a running read stream pops it, and unparking to one is ILLEGAL. The file, alignment and
bounds of the slot are checked in this order. The model's choices in it: log entries 21, 22 and 110. -/
def Obligations.HelpersAndParking : Prop :=
  (
    (∀ (d a b : BitVec 5) (s : State), plain d = true → plain a = true → plain b = true → s.calm = true → s.core.act ≠ 12 →
      s.core.tuft = false → s.core.ctxNo = 0 →
      ((s.src a).toNat % 4 ≠ 0 → exec (.hstart d a b) s = .next (s.trapHere Cause.misalign.code (s.src a) false))
      ∧ ((s.src a).toNat % 4 = 0 → s.codeLen < (s.src a).toNat + 4 →
        exec (.hstart d a b) s = .next (s.trapHere Cause.bounds.code (s.src a) false))
      ∧ ((s.src a).toNat % 4 = 0 → (s.src a).toNat + 4 ≤ s.codeLen →
        (s.core.freeHelper = none → exec (.hstart d a b) s = .next (s.gives d 0))
        ∧ ∀ h, s.core.freeHelper = some h → exec (.hstart d a b) s = .next ((s.setCore s.site
            (s.core.setCtx h { helperStart (s.core.ctxAt 0) (s.src a) (s.src b) with misses := (s.core.ctxAt h).misses })).gives d (BitVec.ofNat 64 h))))
    ∧ (∀ (d a b : BitVec 5) (s : State), s.core.act ≠ 12 → s.core.tuft = true →
      exec (.hstart d a b) s = .next (s.trapHere Cause.gang.code 5 false) ∧ exec (.hjoin d a) s = .next (s.trapHere Cause.gang.code 5 false))
    ∧ (∀ (x : Context) (e v : Word) (r : Nat), (helperStart x e v).pc = e ∧ (helperStart x e v).st = .ready
        ∧ (helperStart x e v).sreg r = (if r = 2 then v else 0) ∧ (r < 8 → (helperStart x e v).areg r = x.areg r)
        ∧ (helperStart x e v).codeptr = x.codeptr ∧ (helperStart x e v).level = x.level)
    ∧ (∀ (a : BitVec 5) (s : State) (rid : Nat), plain a = true → s.calm = true → s.core.ctxNo ≠ 0 → s.core.act ≤ 10 →
      s.accessPending s.site s.core.act = false → s.core.commandsOf s.core.act = [] → (∀ r ∈ s.core.owed, r.ctx ≠ s.core.act) →
      s.core.recId = some rid →
      let t := s.setRec rid ((s.recAt rid).freeMutexes fun h => decide (h = (s.ctx.lcore.toNat, s.core.act)))
      let u := t.kvAbortCtx t.site t.core.act
      exec (.hexit a) s = .next (u.becomes { u.ctx with exitval := s.src a, recs := [], st := .exited }))
    ∧ (∀ (d a : BitVec 5) (s : State), plain d = true → plain a = true → s.calm = true → s.core.act ≠ 12 →
      s.core.tuft = false → s.core.ctxNo = 0 → 1 ≤ (s.src a).toNat → (s.src a).toNat ≤ 10 →
      let x := s.core.ctxAt (s.src a).toNat
      (x.st = .exited → exec (.hjoin d a) s
        = .next ((s.setCore s.site (s.core.setCtx (s.src a).toNat { x with st := .free })).gives d x.exitval))
      ∧ (x.st = .free → exec (.hjoin d a) s = .next (s.trapHere Cause.illegal.code (s.src a) false))
      ∧ (x.st = .ready ∨ x.st = .waiting → exec (.hjoin d a) s = .next (s.waits (s.starts (.hjoin d a)).tx)))
    ∧ (∀ (d : BitVec 5) (s : State), plain d = true → s.calm = true → s.core.ctxNo < 16 →
      ∃ w, exec (.hid d) s = .next (s.gives d w) ∧ w.toNat % 16 = s.core.ctxNo ∧ ∀ n, n < 11 →
        w.getLsbD (32 + n) = decide ((s.core.ctxAt n).st = .exited)
        ∧ w.getLsbD (16 + n) = (decide (n = 0) || decide ((s.core.ctxAt n).st = .ready) || decide ((s.core.ctxAt n).st = .waiting)))
    ∧ ∀ (s : State), s.calm = true →
      let k := s.core.turnOf
      exec .yield s = .next (s.setCore s.site (s.core.setCtx k { s.core.ctxAt k with
        passed := (List.range 11).filter fun n => decide (n ≠ k) && decide ((s.core.ctxAt n).st = .ready) })).retires)
  ∧ (
    (∀ (a b : BitVec 5) (f : BitVec 3) (s : State), parkRegFits f a = true → plain b = true → (f = 0 → plain a = true) →
      (f = 2 → s.still a = true) → s.calm = true →
      let n := (s.src b).toNat
      let ws := if f = 0 then [s.src a] else s.core.slotsOf s.ctx f.toNat a.toNat
      let c := s.core.putSlots n ws
      (6 ≤ f.toNat → exec (.park a b f) s = .next (s.trapHere Cause.illegal.code (BitVec.ofNat 64 f.toNat) false))
      ∧ (f.toNat < 6 → n % parkAlign f.toNat ≠ 0 → exec (.park a b f) s = .next (s.trapHere Cause.misalign.code (s.src b) false))
      ∧ (f.toNat < 6 → n % parkAlign f.toNat = 0 → 3072 < n + parkSlots f.toNat →
        exec (.park a b f) s = .next (s.trapHere Cause.bounds.code (s.src b) false))
      ∧ (f.toNat < 6 → n % parkAlign f.toNat = 0 → n + parkSlots f.toNat ≤ 3072 → (f = 3 → s.core.tileBusy a.toNat = false) →
        exec (.park a b f) s = .next (s.setCore s.site { c with
          ptrSlots := if f = 1 then insertKey n (dropRange n ws.length s.core.ptrSlots) else dropRange n ws.length s.core.ptrSlots
          parked :=
            let kept := s.core.parked.filter fun e => !within n ws.length e.1
            let sh := (s.ctx.areg a.toNat).sh
            if f = 1 ∧ sh.valid = true then store n sh kept else kept }).retires))
    ∧ (∀ (a b : BitVec 5) (s u : State) (v : VWord), plain b = true → s.calm = true → s.still a = false →
      (s.core.stream (a.toNat - 24)).dir = false → rdV a (s.starts (.park a b 2)) = .ok v u →
      let n := (s.src b).toNat
      let x := s.core.stream (a.toNat - 24)
      n % 16 = 0 → n + 16 ≤ 3072 → exec (.park a b 2) s = .next ((s.setCore s.site
        (s.core.parkAt n ((List.range 16).map fun i => v.extractLsb' (64 * i) 64) none)).popStream
          (a.toNat - 24, x.piece x.pos, v)).retires)
    ∧ (∀ (d b : BitVec 5) (f : BitVec 3) (s : State), parkRegFits f d = true → plain b = true → (f = 0 → plain d = true) →
      (f = 2 → s.still d = true) → s.calm = true →
      let n := (s.src b).toNat
      let ws := (List.range (parkSlots f.toNat)).map fun i => s.core.accSlot (1024 + n + i)
      f.toNat < 6 → n % parkAlign f.toNat = 0 → n + parkSlots f.toNat ≤ 3072 →
      (f = 0 → exec (.unpark d b f) s = .next (s.gives d (s.core.accSlot (1024 + n))))
      ∧ (f = 1 → n ∈ s.core.ptrSlots → exec (.unpark d b f) s = .next (s.becomes (s.ctx.setA d.toNat
          { ptr := s.core.accSlot (1024 + n), cur := (s.core.accSlot (1024 + n + 1)).setWidth 32, sh := s.core.parkedShadow n })))
      ∧ (f = 1 → n ∉ s.core.ptrSlots → exec (.unpark d b f) s = .next (s.trapHere Cause.type.code (s.src b) false))
      ∧ (f = 2 → exec (.unpark d b f) s = .next (s.setCore s.site { s.core with
          v := s.core.v.setIfInBounds d.toNat (BitVec.ofNat 1024 (slotsNat ws)) }).retires)
      ∧ (f = 3 → s.core.tileBusy d.toNat = false → exec (.unpark d b f) s = .next (s.setCore s.site
          ((List.range 64).foldl (fun (c : Core) i => c.setAcc (64 * d.toNat + i) (ws.getD i 0)) s.core)).retires)
      ∧ (f = 4 →
        let w : WReg := { bits := BitVec.ofNat 1024 (slotsNat (ws.take 16)), desc := ws.getD 16 0 }
        (w.ok = true → exec (.unpark d b f) s = .next (s.setCore s.site { s.core with w := s.core.w.setIfInBounds d.toNat w }).retires)
        ∧ (w.ok = false → exec (.unpark d b f) s = .next (s.trapHere Cause.type.code (s.src b) false)))
      ∧ (f = 5 → exec (.unpark d b f) s = .next (s.setCore s.site { s.core with
          k := s.core.k.setIfInBounds d.toNat (BitVec.ofNat 256 (slotsNat ws)) }).retires))
    ∧ (∀ (d b : BitVec 5) (s : State), plain b = true → s.still d = false →
      let n := (s.src b).toNat
      n % 16 = 0 → n + 16 ≤ 3072 →
      ((s.core.stream (d.toNat - 24)).dir = false → exec (.unpark d b 2) s
        = .next (s.trapHere Cause.illegal.code (BitVec.ofNat 64 (wordNat (.unpark d b 2))) false))
      ∧ ((s.core.stream (d.toNat - 24)).dir = true → ∀ t, t.calm = true →
        leads (.unpark d b 2) (wrV d (BitVec.ofNat 1024 (slotsNat ((List.range 16).map fun i => s.core.accSlot (1024 + n + i))))) s () t →
        exec (.unpark d b 2) s = .next t.retires))
    ∧ (∀ (c : Core) (n : Nat) (w w' : Word) (sh : Shadow),
      (c.parkAt n [w, w'] (some sh)).parkedShadow n = if sh.valid = true then sh else {})
    ∧ ∀ (c : Core) (x : Context) (r : Nat), BitVec.ofNat 1024 (slotsNat (c.slotsOf x 2 r)) = c.vreg r
        ∧ BitVec.ofNat 256 (slotsNat (c.slotsOf x 5 r)) = c.kreg r)

/-- R105 to R107: the last control context to ask forms the Tuft: every member is in it with its index, and the context goes
on with its own index after the leader's instruction; one that asks before waits, and leaves with its index and the same
address once the Tuft has formed; a wrong size, an occupied helper and a set
of cores that is no Tuft raise GANG 2, 4 and 1. `split` ends a Tuft, and outside one has no effect. The model's choices in
it: log entry 90. -/
def Obligations.TuftResults : Prop :=
  (∀ (d a : BitVec 5) (s : State), plain d = true → plain a = true → d ≠ 0 → s.calm = true → s.core.act = 0 → s.core.tuft = false →
    s.core.tuftFail = none →
    let size := (s.src a).toNat
    let ms := s.ownRec.tuftSites size s.site
    let free := (List.range 11).all fun n => n = 0 || decide ((s.core.ctxAt n).st = .free)
    let fit := ms.length = size ∧ ∀ m ∈ ms, m ∉ s.fused ∧ (s.coreAt m).recId = s.core.recId ∧ (s.coreAt m).halted = false
      ∧ (s.coreAt m).tuft = false
    (size ≠ 2 → size ≠ 4 → exec (.tuft d a) s = .next (s.trapHere Cause.gang.code 2 false))
    ∧ (size = 2 ∨ size = 4 → free = false → exec (.tuft d a) s = .next (s.trapHere Cause.gang.code 4 false))
    ∧ (size = 2 ∨ size = 4 → free = true → ¬ fit → exec (.tuft d a) s = .next (s.trapHere Cause.gang.code 1 false))
    ∧ (size = 2 ∨ size = 4 → free = true → fit → s.site ∈ ms →
      ((∃ m ∈ ms, m ≠ s.site ∧ (s.coreAt m).tuftAsk = none) → exec (.tuft d a) s
        = .next ((s.setCore s.site { s.core with tuftAsk := some (s.src a) }).waits {}))
      ∧ ((∀ m ∈ ms, m ≠ s.site → (s.coreAt m).tuftAsk = some (s.src a)) →
        ∃ t, exec (.tuft d a) s = .next t ∧ t.src d = BitVec.ofNat 64 (rankOf s.site ms)
          ∧ t.ctx.pc = ((s.coreAt (ms.headD 0)).ctxAt 0).pc + 4 ∧ t.mem = s.mem
          ∧ ∀ m ∈ ms, (t.coreAt m).tuft = true ∧ (t.coreAt m).tidx = rankOf m ms ∧ (t.coreAt m).tuftSize = size
            ∧ (t.coreAt m).leader = decide (rankOf m ms = 0)
            ∧ (t.coreAt m).tuftAsk = if m = s.site then none else some (s.src a))))
  ∧ (∀ (d a : BitVec 5) (s : State), plain d = true → plain a = true → s.calm = true → s.core.act ≠ 12 → s.core.tuft = true →
    s.core.tuftFail = none → s.core.tuftAsk.isSome = true →
    let lead := (s.tuftOf s.site).headD s.site
    let pc := ((s.coreAt lead).ctxAt 0).pc
    let u := s.setCore s.site { s.core with tuftAsk := none }
    exec (.tuft d a) s = .next ((u.setCtx (u.ctx.setS d.toNat (BitVec.ofNat 64 s.core.tidx))).retiresTo
      (some (if lead = s.site ∨ (s.coreAt lead).tuftAsk.isSome = true then pc + 4 else pc))))
  ∧ ∀ (s : State), s.core.act ≠ 12 →
    (s.core.tuft = true → (s.dissolve s.site).calm = true → exec .split s = .next (s.dissolve s.site).retires)
    ∧ (s.core.tuft = false → s.calm = true → exec .split s = .next s.retires)

/-- R165 to R167: `scree` 0 asks for a heap pass and answers its number, 1 to 3 run a pass on the area of a level and answer
its free bytes; `sstat` answers the statistic that it names. A heap pass gives back the regions in which nothing lives, and
every live object of the heap stays; it waits for a page that it needs and that the host has not answered for. The model's
choices in it: log entries 23, 24 and 36. -/
def Obligations.CollectionResults : Prop :=
  (∀ (d a : BitVec 5) (s : State), plain d = true → plain a = true →
    let n := (s.src a).toNat
    (4 ≤ n → exec (.scree d a) s = .next (s.trapHere Cause.illegal.code (s.src a) false))
    ∧ (n = 0 → s.calm = true → exec (.scree d a) s
        = .next ((s.askHeapPass s.asid).1.gives d (BitVec.ofNat 64 (s.askHeapPass s.asid).2)))
    ∧ (1 ≤ n → n < 4 → ∀ t, leads (.scree d a) (Sys2Proof.Machine.scree n) s ⟨⟩ t → t.calm = true →
      exec (.scree d a) s = .next (t.gives d (BitVec.ofNat 64 (t.freeBytes s.rid n)))))
  ∧ (∀ (d a : BitVec 5) (s : State), plain d = true → plain a = true → s.calm = true →
    (∀ v, sstatValue s (s.src a).toNat = some v → exec (.sstat d a) s = .next (s.gives d (BitVec.ofNat 64 v)))
    ∧ (11 ≤ (s.src a).toNat → exec (.sstat d a) s = .next (s.trapHere Cause.illegal.code (s.src a) false)))
  ∧ ∀ (asid : Nat) (s : State),
    (s.heapPassDue asid = false → exec (.heapPass asid) s = .next s)
    ∧ (s.heapPassDue asid = true → ∃ t, exec (.heapPass asid) s = .next t ∧ t.mem = s.mem ∧ t.cores = s.cores ∧ t.recs = s.recs
      ∧ ∀ va ∈ s.passPages asid, ∀ q, (s.pageReqs.filter fun q => decide (q.asid = asid) && decide (q.page = va / 4096)
          && decide (q.owner = .device)) = [q] → q.refused = false → t.asids = s.asids ∧ t.tier = s.tier)
    ∧ (s.heapPassDue asid = true → s.passPages asid = [] → ∃ t, exec (.heapPass asid) s = .next t ∧ t.mem = s.mem
      ∧ t.cores = s.cores ∧ t.recs = s.recs ∧ t.pageReqs = s.pageReqs
      ∧ (lookup {} asid t.asids).passPending = none
      ∧ some (lookup {} asid t.asids).passDone = (lookup {} asid s.asids).passPending
      ∧ ((lookup {} asid t.asids).regions.map (·.base)).Perm ((lookup {} asid s.asids).regions.map (·.base))
      ∧ (∀ va ∈ (lookup {} asid s.asids).objs, (none, Loc.heap asid va) ∈ s.heapLive asid → va ∈ (lookup {} asid t.asids).objs)
      ∧ ∀ r ∈ (lookup {} asid s.asids).regions, r.used ≠ 0 → s.liveIn asid (s.heapLive asid) r = false →
          { r with used := 0 } ∈ (lookup {} asid t.asids).regions
          ∧ (∀ va ∈ (lookup {} asid t.asids).objs, va < r.base ∨ r.base + 2097152 ≤ va)
          ∧ ∀ e ∈ t.tier, e.asid = asid → e.page * 4096 < r.base ∨ r.base + 2097152 ≤ e.page * 4096)

/-- R170 to R173: a channel core's `hrd` answers the heap element as zero-extended bytes; its `hwr` and `cpost` are under
way when they retire and are performed later, an `hwr`'s where R360 lets it change the word, a post's bytes at its destination with its barrier credited; `cwait` goes on,
and answers how many are outstanding, once no more are than it admits. The model's choices in it: log entries 34 and 40. -/
def Obligations.ChannelCoreResults : Prop :=
  (∀ (d : BitVec 5) (a : BitVec 4) (b : BitVec 5) (z : BitVec 2) (s t : State) (l : Loc) (off : Nat), plain d = true →
    isChan s.site = true → t.calm = true → leads (.hrd d a b z) (heapAccess a b z.toNat .ld) s (l, off) t →
    leads (.hrd d a b z) (ownWrites l) t () t →
    exec (.hrd d a b z) s = .next (t.gives d (BitVec.ofNat 64 (ofBytes (t.readBody t.me l off (2 ^ z.toNat))))))
  ∧ (∀ (d : BitVec 5) (a : BitVec 4) (b : BitVec 5) (z : BitVec 2) (s t : State) (l : Loc) (off : Nat), plain d = true →
    isChan s.site = true → t.calm = true → leads (.hwr d a b z) (heapAccess a b z.toNat .st) s (l, off) t →
    (∀ q ∈ t.posts, q.site = t.site → q.ctx = t.core.act → q.src ≠ l) →
    let w : HeapWrite := { ctx := t.core.act, obj := l, off := off, bytes := leBytes (t.src d).toNat (2 ^ z.toNat) }
    exec (.hwr d a b z) s = .next (t.setCore t.site { t.core with hwrs := t.core.hwrs ++ [w] }).retires)
  ∧ (∀ (core : Nat) (h : HeapWrite) (rest : List HeapWrite) (s : State), (s.coreAt core).hwrs = h :: rest →
    exec (.hwrPerformed core) s = .next (if s.clearOfReds h.obj h.off h.bytes.length = true then
      let t := s.setCore core { s.coreAt core with hwrs := rest }
      if carriedByte (s.hdr h.obj).typ h.off = true then t.putObj h.obj h.off h.bytes else t
      else s))
  ∧ (∀ (core : Nat) (s : State), (s.coreAt core).hwrs = [] → exec (.hwrPerformed core) s = .next s)
  ∧ (∀ (d a : BitVec 4) (b : BitVec 5) (c : BitVec 4) (named : Bool) (s t x u v : State) (ls ld : Loc) (bar : Option Loc),
    plain b = true → isChan s.site = true → v.calm = true →
    let i : Instr := if named then .cpostBarrier d a b c else .cpost d a b
    let n := (s.src b).toNat
    let src := s.ctx.areg a.toNat
    let dst := s.ctx.areg d.toNat
    leads i (heapObject a) s ls t →
    typeAllows (t.hdr ls).typ .ld (t.core.inMiss || t.core.isPriv) t.core.isPriv = true →
    src.cur.toNat + n ≤ (if (t.hdr ls).typ = tRSTATE then readLen (t.hdr ls).typ (t.hdr ls).len else (t.hdr ls).span) →
    leads i (translateRead (.ctx t.site t.core.act) none ls src.cur.toNat n src.ptr) t ⟨⟩ x →
    x.readPoisoned none ls src.cur.toNat n = false → leads i (ownWrites ls) x ⟨⟩ x →
    ptrLevel dst.ptr = 1 ∨ ptrLevel dst.ptr = 2 → leads i (locate dst.ptr) x ld u →
    (u.hdr ld).typ = tDATA → (u.hdr ld).hi = (t.hdr ls).hi → 1 ≤ n → n ≤ 524288 → dst.cur.toNat + n ≤ (u.hdr ld).span →
    (if named then ∃ lb, bar = some lb ∧ leads i (locate (u.ctx.areg c.toNat).ptr) u lb v ∧ (v.hdr lb).typ = tBARRIER
      else bar = none ∧ v = u) →
    (v.posts.filter fun q => decide (q.site = v.site)).length < 16 →
    let p : Post := { site := v.site, ctx := v.core.act, src := ls, srcOff := src.cur.toNat, dst := ld
                      dstOff := dst.cur.toNat, n := n, bar := bar, num := v.core.works }
    let w := match bar with
      | some lb => (((v.erefUp ls).erefUp ld).erefUp lb).barPendingUp lb
      | none => (v.erefUp ls).erefUp ld
    exec i s = .next (State.retires ({ w with posts := w.posts ++ [p] }.setCore w.site { w.core with works := w.core.works + 1 })))
  ∧ (∀ (d a : BitVec 5) (s : State), plain d = true → plain a = true → isChan s.site = true → s.calm = true →
    let out := (s.posts.filter fun q => decide (q.site = s.site) && decide (q.ctx = s.core.act)).length
      + (s.core.hwrs.filter fun h => decide (h.ctx = s.core.act)).length
    (out ≤ (s.src a).toNat → (s.src a = 0 → ∀ f ∈ s.core.faults, f.ctx = s.core.act → f.kind ≠ 3) →
      exec (.cwait d a) s = .next (s.gives d (BitVec.ofNat 64 out)))
    ∧ ((s.src a).toNat < out → exec (.cwait d a) s = .next (s.waits (s.starts (.cwait d a)).tx)))
  ∧ ∀ (k : Nat) (p : Post) (s : State), s.posts[k]? = some p → s.postReach p = p.n →
    s.clearOfReds p.src p.srcOff p.n = true → s.clearOfReds p.dst p.dstOff p.n = true →
    (∀ asid va, p.src = .heap asid va → ∀ a ∈ pageStarts (va + 32 + p.srcOff) p.n, s.hbmResident asid (a / 4096) = true) →
    let s1 := s.putObj p.dst p.dstOff (s.readBody none p.src p.srcOff p.n)
    let s2 := match p.bar with
      | some v => s1.barCredit v p.n
      | none => s1
    exec (.cpostComplete k) s = .next ({ s2 with posts := s2.posts.eraseIdx k }.dropPost p)

/-! Vectors. -/

/-- R245, R248: the integer vector instructions write each active element and keep the others; nothing else changes. R246,
R250, R251: the floating vector instructions round each active element once, in the mode that `fpctl` or the prefix
selects, and gather the flags and the draws of the active elements. -/
def Obligations.VectorArithmetic : Prop :=
  (
    (∀ o ∈ vec2Ops, ∀ (d a b : BitVec 5) (p : BitVec 3) (e : BitVec 2) (s : State), s.still d = true → s.still a = true →
      s.still b = true → s.calm = true → isChan s.site = false →
      let w := widthOf e.toNat
      vecResult (o.1 d a b p e) s d w fun k => if active (s.pred p) w k
        then o.2 s.ctx.fn w (elemOf (s.vec a) w k) (elemOf (s.vec b) w k) else elemOf (s.vec d) w k)
    ∧ (∀ o ∈ vec1Ops, ∀ (d a : BitVec 5) (p : BitVec 3) (e : BitVec 2) (s : State), s.still d = true → s.still a = true →
      s.calm = true → isChan s.site = false →
      let w := widthOf e.toNat
      vecResult (o.1 d a p e) s d w fun k => if active (s.pred p) w k then o.2 w (elemOf (s.vec a) w k) else elemOf (s.vec d) w k)
    ∧ (∀ (d a : BitVec 5) (p : BitVec 3) (e : BitVec 2) (s : State), s.still d = true → plain a = true → s.calm = true →
      isChan s.site = false →
      let w := widthOf e.toNat
      vecResult (.vbcast d a p e) s d w fun k => if active (s.pred p) w k then (s.src a).toNat else elemOf (s.vec d) w k)
    ∧ ∀ (i : Instr) (s : State), i.needsVector = true → isChan s.site = true →
      exec i s = .next (s.trapHere Cause.illegal.code (BitVec.ofNat 64 (wordNat i)) false))
  ∧ (
    (∀ o ∈ floatOps, ∀ (d a b : BitVec 5) (p : BitVec 3) (e : BitVec 2) (s : State), s.still d = true → s.still a = true →
      s.still b = true → s.calm = true → isChan s.site = false →
      let f := fltFmt e.toNat
      let act := activeList (s.pred p) f.width (1024 / f.width)
      let r := fun k => o.2 f s.ctx.mode (elemOf (s.vec a) f.width k) (elemOf (s.vec b) f.width k) (elemOf (s.vec d) f.width k)
        (s.draw (drawRank (s.pred p) f.width k))
      fpResult (o.1 d a b p e) s d f.width (fun k => if active (s.pred p) f.width k then (r k).1 else elemOf (s.vec d) f.width k)
        (act.foldl (fun x k => x ||| (r k).2) 0) (if s.ctx.mode = 5 then act.length else 0))
    ∧ (∀ o ∈ minMaxOps, ∀ (d a b : BitVec 5) (p : BitVec 3) (e : BitVec 2) (s : State), s.still d = true → s.still a = true →
      s.still b = true → s.calm = true → isChan s.site = false →
      let f := fltFmt e.toNat
      let act := activeList (s.pred p) f.width (1024 / f.width)
      let r := fun k => fpMinMax o.2 f (elemOf (s.vec a) f.width k) (elemOf (s.vec b) f.width k)
      fpResult (o.1 d a b p e) s d f.width (fun k => if active (s.pred p) f.width k then (r k).1 else elemOf (s.vec d) f.width k)
        (act.foldl (fun x k => x ||| (r k).2) 0) 0)
    ∧ ∀ o ∈ signOps, ∀ (d a : BitVec 5) (p : BitVec 3) (e : BitVec 2) (s : State), s.still d = true → s.still a = true →
      s.calm = true → isChan s.site = false →
      let w := (fltFmt e.toNat).width
      vecResult (o.1 d a p e) s d w fun k => if active (s.pred p) w k then o.2 w (elemOf (s.vec a) w k) else elemOf (s.vec d) w k)

/-- R249, R252 to R254: compares set every bit of an element's predicate field; selects, predicate logic, the permutation, and
single elements to and from scalar registers. R255 to R257: a reduction leaves its result in element 0 and keeps the rest:
over integers the sum of the active elements, or the greatest or least of them; a scan gives each active element the sum
up to it. -/
def Obligations.VectorComparesReductionsAndScans : Prop :=
  (
    (∀ (c a b : BitVec 5) (p : BitVec 3) (e : BitVec 2) (s : State), s.still a = true → s.still b = true → s.calm = true →
      isChan s.site = false → p ≠ 0 → c.toNat ≤ 5 ∨ (8 ≤ c.toNat ∧ c.toNat ≤ 12) →
      let w := if c.toNat ≤ 5 then widthOf e.toNat else (fltFmt e.toNat).width
      let r := fun k => vcmpHolds c.toNat e.toNat (elemOf (s.vec a) w k) (elemOf (s.vec b) w k)
      (∃ v, exec (.vcmp c a b p e) s = .next ((s.setCtx (s.ctx.setP p.toNat v)).noted
          ((List.range (1024 / w)).foldl (fun f k => f ||| (r k).2) 0) 0).retires
        ∧ ∀ j, j < 128 → v.getLsbD j = (r (j / (w / 8))).1)
      ∧ ∀ x y, vcmpHolds 0 e.toNat x y = (decide (x = y), 0) ∧ vcmpHolds 1 e.toNat x y = (decide (x ≠ y), 0)
        ∧ vcmpHolds 2 e.toNat x y = (decide (signExt (widthOf e.toNat) x < signExt (widthOf e.toNat) y), 0)
        ∧ vcmpHolds 3 e.toNat x y = (decide (signExt (widthOf e.toNat) x ≥ signExt (widthOf e.toNat) y), 0)
        ∧ vcmpHolds 4 e.toNat x y = (decide (x < y), 0) ∧ vcmpHolds 5 e.toNat x y = (decide (x ≥ y), 0))
    ∧ (∀ (d a b : BitVec 5) (p : BitVec 3) (e : BitVec 2) (s : State), s.still d = true → s.still a = true → s.still b = true →
      s.calm = true → isChan s.site = false →
      let w := widthOf e.toNat
      vecResult (.vsel d a b p e) s d w (fun k => if active (s.pred p) w k then elemOf (s.vec a) w k else elemOf (s.vec b) w k)
      ∧ vecResult (.vperm d a b p e) s d w fun k => if active (s.pred p) w k
          then elemOf (s.vec a) w (elemOf (s.vec b) w k % (1024 / w)) else elemOf (s.vec d) w k)
    ∧ (∀ o ∈ pred2Ops, ∀ (d a b : BitVec 3) (s : State), d ≠ 0 → s.calm = true → isChan s.site = false →
      exec (o.1 d a b) s = .next (s.becomes (s.ctx.setP d.toNat (o.2 (s.pred a) (s.pred b)))))
    ∧ (∀ o ∈ pred1Ops, ∀ (d a : BitVec 3) (s : State), d ≠ 0 → s.calm = true → isChan s.site = false →
      exec (o.1 d a) s = .next (s.becomes (s.ctx.setP d.toNat (o.2 (s.pred a)))))
    ∧ (∀ (d a b : BitVec 5) (e : BitVec 2) (sgn : Bool) (s : State), plain d = true → s.still a = true → plain b = true →
      s.calm = true → isChan s.site = false →
      let w := widthOf e.toNat
      let x := elemOf (s.vec a) w ((s.src b).toNat % (1024 / w))
      exec (.vmovExtract d a b 0 e sgn) s = .next (s.gives d (if sgn then BitVec.ofInt 64 (signExt w x) else BitVec.ofNat 64 x)))
    ∧ ∀ (d a b : BitVec 5) (e : BitVec 2) (s : State), s.still d = true → plain a = true → plain b = true → s.calm = true →
      isChan s.site = false →
      let w := widthOf e.toNat
      vecResult (.vmovInsert d a b 0 e) s d w fun k => if k = (s.src b).toNat % (1024 / w) then (s.src a).toNat else elemOf (s.vec d) w k)
  ∧ (
    (∀ o ∈ reduceOps, ∀ (d a : BitVec 5) (p : BitVec 3) (e : BitVec 2) (s : State), s.still d = true → s.still a = true →
      s.calm = true → isChan s.site = false →
      let w := widthOf e.toNat
      let x := s.ctx.fn
      let leaves := (List.range (1024 / w)).map fun k => if active (s.pred p) w k then some (elemOf (s.vec a) w k) else none
      let t := treeFold (redNode o.2 x w) (Nat.log2 (1024 / w)) leaves
      ∃ flags, fpResult (o.1 d a p e) s d w
        (fun k => if k = 0 then t.1.getD (redIdentity o.2 x w) else elemOf (s.vec d) w k) flags 0
        ∧ (x ≠ 1 → x ≠ 2 → flags = 0))
    ∧ (∀ (x : Nat) (e : BitVec 2) (p : PWord) (v : VWord), x ≠ 1 → x ≠ 2 →
      let w := widthOf e.toNat
      let leaves := (List.range (1024 / w)).map fun k => if active p w k then some (elemOf v w k) else none
      let act := activeList p w (1024 / w)
      (treeFold (redNode 0 x w) (Nat.log2 (1024 / w)) leaves).1.getD 0 = sumActive p v w (1024 / w) % 2 ^ w
      ∧ (act ≠ [] → ∃ k ∈ act, (treeFold (redNode 1 0 w) (Nat.log2 (1024 / w)) leaves).1 = some (elemOf v w k)
          ∧ ∀ j ∈ act, signExt w (elemOf v w j) ≤ signExt w (elemOf v w k))
      ∧ (act ≠ [] → ∃ k ∈ act, (treeFold (redNode 2 0 w) (Nat.log2 (1024 / w)) leaves).1 = some (elemOf v w k)
          ∧ ∀ j ∈ act, signExt w (elemOf v w k) ≤ signExt w (elemOf v w j)))
    ∧ ∀ (d a : BitVec 5) (p : BitVec 3) (e : BitVec 2) (s : State), s.still d = true → s.still a = true →
      s.calm = true → isChan s.site = false → s.ctx.fn ≠ 1 → s.ctx.fn ≠ 2 →
      let w := widthOf e.toNat
      fpResult (.vscan d a p e) s d w (fun k => if active (s.pred p) w k then sumActive (s.pred p) (s.vec a) w (k + 1)
        else elemOf (s.vec d) w k) 0 0)

/-- R259 to R261: a vector access reaches its active elements at their offsets, contiguous or indexed, in ascending order: a
load writes them into the register and keeps the others; a store writes them to the object and no byte of a pad beside them.
R262 to R269: a stream is bound to an object, given its extents and strides, set going with the number of its elements, and
ended; while it runs, a source of its register pops the piece of elements at its position. `vgrant` sets the first elements
of a predicate and answers how many. The model's choices in it: log entries 41 and 43. -/
def Obligations.VectorMemoryAndStreams : Prop :=
  (
    (∀ (v : BitVec 5) (p : BitVec 4) (x : BitVec 5) (q : BitVec 3) (z : BitVec 2) (i : BitVec 5) (indexed : Bool) (s t : State)
        (l : Loc) (offs : List (Nat × Int)), s.still v = true → t.still v = true → t.calm = true → isChan s.site = false →
      (if indexed then s.still x = true else plain x = true) →
      let w := widthOf z.toNat
      let n := if indexed then gatherLanes w else 1024 / w
      let off := if indexed then s.laneAt p x i w else s.vecAt p x i w
      let c : Instr := if indexed then .vgth v p x q z i else .vld v p x q z i
      leads c (vecAccess p q w true n off) s (l, offs) t →
      (∃ r, exec c s = .next (t.setV v r).retires
        ∧ ∀ k, k < 1024 / w → elemOf r w k = if k < n ∧ active (t.pred q) w k = true
            then ofBytes (t.readBody t.me l (off k).toNat (w / 8)) else elemOf (t.vec v) w k)
      ∧ offs = (activeList (t.pred q) w n).map fun k => (k, off k))
    ∧ ∀ (v : BitVec 5) (p : BitVec 4) (x : BitVec 5) (q : BitVec 3) (z : BitVec 2) (i : BitVec 5) (indexed : Bool) (s t : State)
        (l : Loc) (offs : List (Nat × Int)), s.still v = true → t.calm = true → isChan s.site = false →
      (if indexed then s.still x = true else plain x = true) →
      let w := widthOf z.toNat
      let n := if indexed then gatherLanes w else 1024 / w
      let off := if indexed then s.laneAt p x i w else s.vecAt p x i w
      let c : Instr := if indexed then .vsct v p x q z i else .vst v p x q z i
      leads c (vecAccess p q w false n off) s (l, offs) t →
      let u := offs.foldl (fun (t' : State) e => t'.putObj l e.2.toNat (leBytes (elemOf (s.vec v) w e.1) (w / 8))) t
      u.watches (canonOf (u.ctx.areg p.toNat).ptr (u.hdr l)) = false →
      exec c s = .next u.retires
      ∧ ∀ k, l = .pad k →
        (∀ a, (∀ e ∈ offs, a < k + 32 + e.2.toNat ∨ k + 32 + e.2.toNat + w / 8 ≤ a) → u.mem.byte a = t.mem.byte a)
        ∧ (indexed = false → ∀ e ∈ offs, ofBytes (u.mem.bytes (k + 32 + e.2.toNat) (w / 8)) = elemOf (s.vec v) w e.1))
  ∧ (
    (∀ (d : BitVec 5) (a : BitVec 4) (b : BitVec 5) (s t : State) (l : Loc), 24 ≤ d.toNat → plain b = true → t.calm = true →
      isChan s.site = false → (s.src b).toNat < 8 → (s.core.stream (d.toNat - 24)).bound = false →
      let write := (s.src b).getLsbD 0
      let code := (s.src b).toNat / 2 % 4
      let r := t.ctx.areg a.toNat
      leads (.sbind d a b) (touch a.toNat) s (some l) t →
      (typeAllows r.sh.typ.toNat (if write then .st else .ld) (t.core.inMiss || t.core.isPriv) t.core.isPriv
        && decide (r.sh.typ.toNat ≠ tPTRS) && vecFits r.sh.fmt.toNat (widthOf code)) = true →
      (r.cur.toNat % (widthOf code / 8) = 0 →
        exec (.sbind d a b) s = .next (((t.erefUp l).setStream (d.toNat - 24)
          { bound := true, dir := write, wcode := code, a := r, loc := l, base := r.cur.toNat }).retires))
      ∧ (r.cur.toNat % (widthOf code / 8) ≠ 0 →
        exec (.sbind d a b) s = .next (t.trapHere Cause.misalign.code (r.cur.setWidth 64) false)))
    ∧ (∀ (d a b : BitVec 5) (j : BitVec 2) (s : State), 24 ≤ d.toNat → plain a = true → plain b = true → s.calm = true →
      isChan s.site = false →
      let k := d.toNat - 24
      let x := s.core.stream k
      (x.bound = true → x.run = false → 1 ≤ (s.src a).toNat → (s.src a).toNat < 2 ^ 24 →
        exec (.sbnd d a b j) s = .next (s.setStream k { x with
          n := x.n.set j.toNat (s.src a).toNat, st := x.st.set j.toNat (signExt 32 (s.src b).toNat) }).retires)
      ∧ (x.bound = false ∨ x.run = true →
        exec (.sbnd d a b j) s = .next (s.trapHere Cause.illegal.code (BitVec.ofNat 64 k) false)))
    ∧ (∀ (d a : BitVec 5) (s : State), 24 ≤ a.toNat → plain d = true → s.calm = true → isChan s.site = false →
      let k := a.toNat - 24
      let x := s.core.stream k
      let b : Int := (x.width / 8 : Nat)
      (x.bound = true → x.run = false → x.total < 2 ^ 40 → 0 ≤ (x.base : Int) + b * x.low →
        (x.base : Int) + b * (x.high + 1) ≤ vecLimit x.a.sh (!x.dir) →
        exec (.sgo d a) s = .next ((s.setStream k { x with pos := 0, run := true, buf := [] }).gives d (BitVec.ofNat 64 x.total)))
      ∧ (x.bound = true → (s.erefDown x.loc).calm = true → exec (.sstop d a) s
          = .next (((s.erefDown x.loc).setStream k { x with run := false, bound := false, buf := [] }).gives d (BitVec.ofNat 64 x.pos)))
      ∧ (x.bound = false → exec (.sstop d a) s = .next (s.trapHere Cause.illegal.code (BitVec.ofNat 64 k) false)))
    ∧ (∀ (d a : BitVec 5) (s : State), d.toNat < 24 → 24 ≤ a.toNat → s.calm = true → isChan s.site = false →
      let k := a.toNat - 24
      let x := s.core.stream k
      let g := x.piece x.pos
      x.run = true → x.dir = false → x.buf = [] → x.pos < x.total →
      (∀ j, j < g → s.readPoisoned s.me x.loc (x.offset (x.pos + j)).toNat (x.width / 8) = false
        ∧ s.clearOfReds x.loc (x.offset (x.pos + j)).toNat (x.width / 8) = true) →
      ∃ t, exec (.vmov d a 0 (BitVec.ofNat 2 x.wcode)) s = .next t
        ∧ (t.core.stream k).pos = x.pos + g ∧ t.vec a = t.vec d
        ∧ (x.wcode < 4 → ∀ j, j < g → elemOf (t.vec d) x.width j
            = ofBytes (s.readBody s.me x.loc (x.offset (x.pos + j)).toNat (x.width / 8))))
    ∧ (∀ (d a : BitVec 5) (p : BitVec 3) (z : BitVec 2) (s : State), plain d = true → plain a = true → p ≠ 0 → s.calm = true →
      isChan s.site = false →
      let w := widthOf z.toNat
      let g := Nat.min (s.src a).toNat (1024 / w)
      ∃ v, exec (.vgrant d a p z) s = .next ((s.setCtx (s.ctx.setP p.toNat v)).gives d (BitVec.ofNat 64 g))
        ∧ ∀ j, j < 128 → v.getLsbD j = decide (j / (w / 8) < g))
    ∧ ∀ (d a : BitVec 5) (p : BitVec 3) (s : State), plain d = true → 24 ≤ a.toNat → p ≠ 0 → s.calm = true → isChan s.site = false →
      let x := s.core.stream (a.toNat - 24)
      let g := if x.pos = x.total then 0 else x.piece x.pos
      (x.run = true → exec (.vgrantStream d a p) s
        = .next ((s.setCtx (s.ctx.setP p.toNat (firstPred x.width g))).gives d (BitVec.ofNat 64 g)))
      ∧ (x.run = false → exec (.vgrantStream d a p) s = .next (s.trapHere Cause.illegal.code (BitVec.ofNat 64 (a.toNat - 24)) false)))

/-- R258, R270: the special functions and the softmax merge, with the values of the special operands; where a NaN stands among
the maxima, the merge gives the default NaN. R235 to R242: conversions, decoding and encoding by table, block scales, decode
tables, the generator's seed and the class of a floating number. The model's choices in it: log entries 2, 9, 44, 97, 98, 99,
113 and 114. -/
def Obligations.SpecialFunctionsAndFormats : Prop :=
  (
    (∀ o ∈ specialOps, ∀ (d a : BitVec 5) (p : BitVec 3) (e : BitVec 2) (s : State), s.still d = true → s.still a = true →
      s.calm = true → isChan s.site = false →
      let w := (fltFmt e.toNat).width
      let act := activeList (s.pred p) w (1024 / w)
      let r := fun k => specialFn o.2 e.toNat (elemOf (s.vec a) w k)
      fpResult (o.1 d a p e) s d w (fun k => if active (s.pred p) w k then (r k).1 else elemOf (s.vec d) w k)
        (act.foldl (fun x k => x ||| (r k).2) 0) 0)
    ∧ (specialFn 0 2 0xFF800000 = (0, 0) ∧ specialFn 0 2 0 = (0x3F800000, 0) ∧ specialFn 1 2 0x80000000 = (0xFF800000, fDZ)
      ∧ specialFn 1 2 0xBF800000 = (0x7FC00000, fNV) ∧ specialFn 2 2 0x80000000 = (0xFF800000, fDZ)
      ∧ specialFn 2 2 0xC0000000 = (0xBF000000, 0) ∧ specialFn 3 2 0x40800000 = (0x3F000000, 0)
      ∧ specialFn 3 2 0xBF800000 = (0x7FC00000, fNV) ∧ specialFn 4 2 0xFF800000 = (0xBF800000, 0)
      ∧ specialFn 5 2 0x7F800000 = (0x7FC00000, fNV))
    ∧ (∀ (d a b : BitVec 5) (p : BitVec 3) (s : State), s.still d = true → s.still a = true → s.still b = true →
      s.calm = true → isChan s.site = false →
      let md := F32.decode (elemOf (s.vec b) 32 0)
      let ma := F32.decode (elemOf (s.vec b) 32 2)
      let r := fun k => if md.isNan || ma.isNan then (0x7FC00000, fNV) else smMerge md ma (elemOf (s.vec d) 32 k) (elemOf (s.vec a) 32 k)
      fpResult (.vsmm d a b p) s d 32 (fun k => if active (s.pred p) 32 k then (r k).1 else elemOf (s.vec d) 32 k)
        ((activeList (s.pred p) 32 32).foldl (fun x k => x ||| (r k).2) 0) 0)
    ∧ ∀ (d b : BitVec 5) (s : State), s.still d = true → s.still b = true → s.calm = true → isChan s.site = false →
      let x := elemOf (s.vec b) 32
      let nan := (F32.decode (x 0)).isNan || (F32.decode (x 2)).isNan
      let l := if nan then (0x7FC00000, fNV) else smMerge (F32.decode (x 0)) (F32.decode (x 2)) (x 1) (x 3)
      fpResult (.vsmmStat d 0 b 0) s d 32 (fun k => if k = 0 then (if nan then 0x7FC00000 else smMaxBits (x 0) (x 2))
        else if k = 1 then l.1 else elemOf (s.vec d) 32 k) l.2 0)
  ∧ (
    (∀ (d a b : BitVec 5) (p : BitVec 3) (e : BitVec 2) (s : State), s.still d = true → s.still a = true → s.calm = true →
      isChan s.site = false → b.toNat * 4 + e.toNat ≤ 120 →
      let sel := b.toNat * 4 + e.toNat
      let ws := cvtWidth (cvtSrc sel)
      let wd := cvtWidth (cvtDst sel)
      let w := Nat.max ws wd
      let n := 1024 / w
      let q := s.ctx.fn / 8
      let r := fun k => cvtTo (cvtDst sel) s.ctx.mode (cvtVal (cvtSrc sel) (elemOf (s.vec a) ws (if ws ≥ wd then k else q * n + k)))
        (s.draw (drawRank (s.pred p) w k))
      let first := if ws ≥ wd then q * n else 0
      let act := activeList (s.pred p) w n
      (q < cvtParts sel → fpResult (.cvt d a b p e) s d wd
        (fun k => if first ≤ k ∧ k < first + n ∧ active (s.pred p) w (k - first) = true then (r (k - first)).1 else elemOf (s.vec d) wd k)
        (act.foldl (fun x k => x ||| (r k).2) 0) (if s.ctx.mode = 5 then act.length else 0))
      ∧ (cvtParts sel ≤ q → exec (.cvt d a b p e) s = .next (s.trapHere Cause.illegal.code (BitVec.ofNat 64 q) false)))
    ∧ (∀ (d a b : BitVec 5) (p : BitVec 3) (t : BitVec 2) (s : State), s.still d = true → s.still a = true → s.still b = true →
      s.calm = true → isChan s.site = false → s.ctx.fn / 8 < codeParts t.toNat →
      let q := s.ctx.fn / 8
      let k := codeBits t.toNat
      let act := activeList (s.pred p) 32 32
      let sc := fun i => elemOf (s.vec b) 8 ((32 * q + i) / 16)
      let dr := fun i => if sc i = 255 then (0x7FC00000, 0)
        else decodeEntry E8M10 (s.core.table t.toNat) (elemOf (s.vec a) k (32 * q + i)) (scaleExp (sc i))
      let en := fun i =>
        let v := F32.decode (elemOf (s.vec a) 32 i)
        codeOfVal (s.core.table t.toNat) s.ctx.mode (if sc i = 255 then Val.nan v.neg v.isSig 0 else v.scale (-(scaleExp (sc i))))
          (s.draw (drawRank (s.pred p) 32 i))
      fpResult (.dec d a b p t) s d 32 (fun i => if active (s.pred p) 32 i then (dr i).1 else elemOf (s.vec d) 32 i)
        (act.foldl (fun x i => x ||| (dr i).2) 0) 0
      ∧ fpResult (.enc d a b p t) s d k (fun o => if 32 * q ≤ o ∧ o < 32 * q + 32 ∧ active (s.pred p) 32 (o - 32 * q) = true
          then (en (o - 32 * q)).1 else elemOf (s.vec d) k o)
        (act.foldl (fun x i => x ||| (en i).2) 0) (if s.ctx.mode = 5 then act.length else 0))
    ∧ (∀ (d a b : BitVec 5) (p : BitVec 3) (s : State), s.still d = true → s.still a = true → s.calm = true →
      isChan s.site = false → b.toNat ≤ 5 →
      let q := s.ctx.fn / 8
      let x := fun blk => blockScale (scaleTop s.core b.toNat) (s.pred p) (s.vec a) blk
      vecResult (.bscale d a b p) s d 8 fun k => if k = 2 * q then (x 0).getD (elemOf (s.vec d) 8 k)
        else if k = 2 * q + 1 then (x 1).getD (elemOf (s.vec d) 8 k) else elemOf (s.vec d) 8 k)
    ∧ (∀ (d a b : BitVec 5) (p : BitVec 3) (e : BitVec 5) (s t : State) (l : Loc), s.still a = true → s.still d = true → t.still d = true →
      t.calm = true → isChan s.site = false → b.toNat ≤ 5 → e.toNat < 16 →
      leads (.bscaleObject d a b p e) (touch e.toNat) s (some l) t →
      let r := t.ctx.areg e.toNat
      let f := scaleFmt b.toNat
      let el := r.cur.toNat * 8 / fmtBits f
      r.sh.typ.toNat = tDATA → r.sh.blog = 4 → r.sh.fmt.toNat = f → el % 16 = 0 → el / 16 + 1 < scaleBytes f 4 r.sh.len.toNat →
      t.clearOfReds l (r.sh.len.toNat + el / 16) 2 = true →
      let x := fun blk => blockScale (scaleTop t.core b.toNat) (s.pred p) (s.vec a) blk
      let put := fun (u : State) (i : Nat) => match x i with
        | some v => u.putObj l (r.sh.len.toNat + el / 16 + i) [BitVec.ofNat 8 v]
        | none => u
      let u := put (put (t.setV d (putScales (t.vec d) 0 (x 0) (x 1))) 0) 1
      u.watches (canonOf r.ptr (u.hdr l)) = false → exec (.bscaleObject d a b p e) s = .next u.retires)
    ∧ (∀ (d : BitVec 5) (a : BitVec 4) (b : BitVec 5) (s t : State) (l : Loc), plain d = true → plain b = true → t.calm = true →
      (s.src b).toNat < 4 → leads (.dtld d a b) (touch a.toNat) s (some l) t →
      let n := if (s.src b).toNat ≤ 1 then 256 else 16
      let r := t.ctx.areg a.toNat
      let off := r.cur.toNat
      let tab := (List.range n).map fun i => BitVec.ofNat 32 (ofBytes (t.bodyBytes l (off + 4 * i) 4))
      r.sh.typ.toNat = tDATA → r.sh.fmt = 0 ∨ r.sh.fmt = 6 ∨ r.sh.fmt = 10 → off % 4 = 0 → off + 4 * n ≤ r.sh.len.toNat →
      t.bodyPoisoned l off (4 * n) = false → t.clearOfReds l off (4 * n) = true →
      (tableBad tab = none → exec (.dtld d a b) s = .next ((t.setCore t.site { t.core with
          dt := t.core.dt.setIfInBounds (s.src b).toNat tab }).gives d (((largestFinite tab).map (·.setWidth 64)).getD 0)))
      ∧ (∀ i, tableBad tab = some i → exec (.dtld d a b) s = .next (t.trapHere Cause.type.code (BitVec.ofNat 64 i) false)))
    ∧ (∀ (d a : BitVec 5) (s : State), plain d = true → plain a = true → s.calm = true →
      exec (.srseed d a) s = .next ((s.setCtx { s.ctx with srctr := (s.src a) <<< 32 }).gives d s.ctx.srctr))
    ∧ ∀ (d a : BitVec 5) (f : BitVec 3) (s : State), plain d = true → plain a = true → s.calm = true → f.toNat ≤ 4 →
      let fmt := if f = 0 then F16 else if f = 1 then BF16 else if f = 3 then F64 else F32
      let bits := (s.src a).toNat % 2 ^ fmt.width
      ∃ m, exec (.fclass d a f) s = .next (s.gives d (BitVec.ofNat 64 m)) ∧ (f ≠ 4 → m = classMask fmt bits) ∧ m < 2 ^ 11)

/-! Command words, the WMB and packed values. -/

/-- R295, R296: `kld` and `kst` move 32 bytes between an N8 DATA object and a command register, least significant byte
first; `kset` writes one word of it, from a scalar or a pointer register. R272, R297 to R299: `wpush` of a legal word
releases at its scope, enters the command in the queue with what the context gives it, and answers the batch; a word that is
not legal raises ILLEGAL with its low word, and so does ARRIVE without a barrier once the pointers have passed; a full queue
makes the context wait. With ARRIVE the command holds the copy of its barrier that its scope gives the pushing core, and counts
in its PENDING, from the push on. `wcommit` answers the batch and begins
the next; `wwait` goes on with the status word once every command of the batches that it covers has completed and no record of
one is held for a full queue (R38), and acquires what they wrote. The model's choices in it: log entry 50. -/
def Obligations.WmbCommands : Prop :=
  (
    (∀ (d : BitVec 2) (a : BitVec 4) (b : BitVec 5) (s t : State) (l : Loc), plain b = true → t.calm = true →
      let off : Int := (s.ctx.areg a.toNat).cur.toNat + 32 * (s.src b).toInt
      let sh := (t.ctx.areg a.toNat).sh
      sh.typ.toNat = tDATA → sh.fmt = 0 → 0 ≤ off → off + 32 ≤ sh.len.toNat → off % 32 = 0 →
      t.bodyPoisoned l off.toNat 32 = false → t.clearOfReds l off.toNat 32 = true →
      (leads (.kld d a b) (touch a.toNat) s (some l) t →
        exec (.kld d a b) s = .next (t.setK d (BitVec.ofNat 256 (ofBytes (t.bodyBytes l off.toNat 32)))).retires)
      ∧ (leads (.kst d a b) (touch a.toNat) s (some l) t →
        let u := t.putObj l off.toNat (leBytes (t.core.kreg d.toNat).toNat 32)
        u.watches (canonOf (u.ctx.areg a.toNat).ptr (u.hdr l)) = false →
        exec (.kst d a b) s = .next u.retires
        ∧ ∀ k, l = .pad k → ofBytes (u.mem.bytes (k + 32 + off.toNat) 32) = (t.core.kreg d.toNat).toNat
          ∧ ∀ x, x < k + 32 + off.toNat ∨ k + 32 + off.toNat + 32 ≤ x → u.mem.byte x = t.mem.byte x))
    ∧ (∀ (d : BitVec 2) (a : BitVec 5) (q : BitVec 2) (s : State), plain a = true → s.calm = true →
      ∃ v, exec (.kset d a q) s = .next (s.setK d v).retires ∧ v.extractLsb' (64 * q.toNat) 64 = s.src a
        ∧ ∀ j, j < 4 → j ≠ q.toNat → v.extractLsb' (64 * j) 64 = (s.core.kreg d.toNat).extractLsb' (64 * j) 64)
    ∧ ∀ (d : BitVec 2) (a : BitVec 4) (q : BitVec 2) (s : State), s.calm = true →
      ∃ v, exec (.ksetPointer d a q) s = .next (s.setK d v).retires ∧ v.extractLsb' (64 * q.toNat) 64 = (s.ctx.areg a.toNat).ptr
        ∧ ∀ j, j < 4 → j ≠ q.toNat → v.extractLsb' (64 * j) 64 = (s.core.kreg d.toNat).extractLsb' (64 * j) 64)
  ∧ (
    (∀ (d : BitVec 5) (k : BitVec 2) (s t v : State) (bar : Option Loc), plain d = true → isChan s.site = false → v.calm = true →
      let i : Instr := .wpush d k
      let w := s.core.kreg k.toNat
      (wmbWordOk w = false → exec i s = .next (s.trapHere Cause.illegal.code (BitVec.ofNat 64 (w.toNat % 2 ^ 32)) false))
      ∧ (wmbWordOk w = true → (∀ p ∈ wmbPointers w, leads i (pushPointer p) s () s) →
        (arriveNull w = true → exec i s = .next (s.trapHere Cause.illegal.code (BitVec.ofNat 64 (w.toNat % 2 ^ 32)) false))
        ∧ (arriveNull w = false → 2 ≤ s.core.wmbQueued → exec i s = .next (s.waits (s.starts i).tx))
        ∧ (arriveNull w = false → s.core.wmbQueued < 2 → leads i (releaseAll (kScope w)) s () t →
          (if kArrive w then leads i (orNone (pushBarrier (kPtr w 128) (kScope w))) t bar v else bar = none ∧ v = t) →
          let x := match bar with
            | some l => v.barPendingUp l
            | none => v
          let u := x.setCore x.site { x.core with wmb := x.core.wmb ++ [x.wmbCmd (x.core.kreg k.toNat) bar], works := x.core.works + 1 }
          exec i s = .next ((u.setCtx { u.ctx with
            srctr := u.ctx.srctr + BitVec.ofNat 64 (kDraws (x.core.kreg k.toNat) u.ctx.rm) }).gives d (x.ctx.wbatch.setWidth 64)))))
    ∧ (∀ (d : BitVec 5) (s : State), plain d = true → s.calm = true → isChan s.site = false →
      exec (.wcommit d) s = .next ((s.setCtx { s.ctx with wbatch := s.ctx.wbatch + 1 }).gives d (s.ctx.wbatch.setWidth 64)))
    ∧ ∀ (d a : BitVec 5) (s : State), plain d = true → plain a = true → isChan s.site = false → (s.src a).toNat < 65536 →
      let n := (s.src a).toNat
      let ahead := (n + 65536 - s.ctx.wbatch.toNat) % 65536
      let mine := fun (e : Done) => decide (e.ctx = s.core.act) && covered e.batch n
      let ds := ((s.core.wdone.filter mine).map (·.dests)).flatten
      (1 ≤ ahead → ahead < 32768 → exec (.wwait d a) s = .next (s.trapHere Cause.illegal.code (s.src a) false))
      ∧ (¬ (1 ≤ ahead ∧ ahead < 32768) → (∀ f ∈ s.core.faults, f.ctx = s.core.act → f.kind = 1 → covered f.id n = false) →
        ((∃ m ∈ s.core.wmb, m.ctx = s.core.act ∧ covered m.batch n = true)
            ∨ (∃ r ∈ s.core.owed, r.ctx = s.core.act ∧ covered r.batch n = true) →
          exec (.wwait d a) s = .next (s.waits (s.starts (.wwait d a)).tx))
        ∧ ((∀ m ∈ s.core.wmb, m.ctx = s.core.act → covered m.batch n = false) →
          (∀ r ∈ s.core.owed, r.ctx = s.core.act → covered r.batch n = false) →
          (∀ u, leads (.wwait d a) (acquireDests ds) s ⟨⟩ u →
            let w := u.setCore u.site { u.core with wdone := u.core.wdone.filter fun e => !mine e }
            w.calm = true → exec (.wwait d a) s = .next (w.gives d w.core.wmbStatus))
          ∧ (s.ctx.acquired.length + ds.length ≤ 16 → (∀ x ∈ ds, s.redsOn x.2.1 x.2.2.1 x.2.2.2 = false) →
            leads (.wwait d a) (acquireDests ds) s ⟨⟩ (ds.foldl State.acquireDest s)))))

/-- R289, R300 to R303: single entries and rows of an accumulator tile, and the zeroing of tiles, for tiles that no command
in flight names; the halted command, the first where two have halted, goes on, with its unreported fault, or is dropped, with
its fault still to report; and the statistics. R278 to R284: a step of a matrix tile job
takes one depth block into every entry of its tile: in the FP64 and FP32 modes each product with one rounding; in the float
narrow and block modes the aligned blocks with one; in the integer modes the exact sums, GUARD halting the command with the
tile as it was when one leaves the accumulator's range. R286, R317 to R321: a step of `ACCST` stores one row of its tile in
the format of the object, one of `ACCLD` loads one; a block of `PCONV` and `PDOT` adds its exact sums of products to the
outputs of the tile, GUARD halting the command when one leaves the range. The model's choices in it: log entries 45, 47,
49, 50, 115 and 116. -/
def Obligations.WmbTilesAndJobs : Prop :=
  (
    (∀ (d : BitVec 5) (a : BitVec 4) (b : BitVec 5) (s : State), plain b = true → s.calm = true → isChan s.site = false →
      let e := (s.src b).toNat
      (64 ≤ e → exec (.wrd d a b) s = .next (s.trapHere Cause.bounds.code (s.src b) false))
      ∧ (e < 64 → s.core.tileBusy a.toNat = true → exec (.wrd d a b) s = .next (s.waits (s.starts (.wrd d a b)).tx))
      ∧ (e < 64 → s.core.tileBusy a.toNat = false → plain d = true →
        exec (.wrd d a b) s = .next (s.gives d (s.core.accSlot (64 * a.toNat + e))))
      ∧ (e < 8 → s.core.tileBusy a.toNat = false → s.still d = true →
        vecResult (.wrdRow d a b) s d 64 fun k => if k < 8 then (s.core.accSlot (64 * a.toNat + 8 * e + k)).toNat else 0))
    ∧ (∀ (d : BitVec 4) (a b : BitVec 5) (s : State), plain b = true → s.calm = true → isChan s.site = false →
      s.core.tileBusy d.toNat = false →
      let e := (s.src b).toNat
      (e < 64 → plain a = true →
        exec (.wwr d a b) s = .next (s.setCore s.site (s.core.setAcc (64 * d.toNat + e) (s.src a))).retires)
      ∧ (e < 8 → s.still a = true → ∃ c, exec (.wwrRow d a b) s = .next (s.setCore s.site c).retires
        ∧ (∀ k, k < 8 → (c.accSlot (64 * d.toNat + 8 * e + k)).toNat = elemOf (s.vec a) 64 k)
        ∧ ∀ n, n < 64 * d.toNat + 8 * e ∨ 64 * d.toNat + 8 * e + 8 ≤ n → c.accSlot n = s.core.accSlot n))
    ∧ (∀ (a : BitVec 5) (s : State), plain a = true → s.calm = true → isChan s.site = false →
      (∀ t, t < 64 → (s.src a).getLsbD t = true → s.core.tileBusy t = false) →
      ∃ c, exec (.wzero a) s = .next (s.setCore s.site c).retires
        ∧ ∀ t e, e < 64 → c.accSlot (64 * t + e) = if t < 64 ∧ (s.src a).getLsbD t = true then 0 else s.core.accSlot (64 * t + e))
    ∧ (∀ (d a : BitVec 5) (s : State), plain d = true → plain a = true → isChan s.site = false → (s.src a).toNat < 2 →
      (s.core.haltedCmd = none → s.calm = true → exec (.wres d a) s = .next (s.gives d 0))
      ∧ ∀ m, s.core.haltedCmd = some m →
        (s.src a = 0 → s.calm = true → exec (.wres d a) s = .next ((s.setCore s.site { s.core with
          wmb := mapFirstHalted Cmd.resume s.core.wmb
          faults := s.core.faults.filter fun f => decide (f.num ≠ m.num) }).gives d 1))
        ∧ (s.src a = 1 → ∀ u, leads (.wres d a) (modify fun x => x.dropCmd m) s ⟨⟩ u → u.calm = true →
          exec (.wres d a) s = .next ((u.setCore u.site { u.core with
            wmb := dropFirstHalted u.core.wmb
            wdone := u.core.wdone ++ [{ ctx := m.ctx, batch := m.batch, dests := m.dests }] }).gives d 1)))
    ∧ ∀ (d a : BitVec 5) (s : State), plain d = true → plain a = true → s.calm = true → isChan s.site = false →
      (∀ v, wstatValue s.core (s.sideSize s.site) (s.weight s.site) (s.src a).toNat = some v →
        exec (.wstat d a) s = .next ((if s.src a = 3 then s.setCore s.site { s.core with wflags := 0 } else s).gives d v))
      ∧ (wstatValue s.core (s.sideSize s.site) (s.weight s.site) (s.src a).toNat = none →
        exec (.wstat d a) s = .next (s.trapHere Cause.illegal.code (s.src a) false)))
  ∧ (
    (∀ e ∈ ([(1, .mma), (2, .mmaz), (3, .mmat)] : List (Nat × (Nat → Nat → Instr))), ∀ (cl u core i j ka kb : Nat) (m : Cmd) (s : State),
      s.jobOn cl u = some (core, i, j) → (s.coreAt core).wmb[i]? = some m → kOp m.word = e.1 → m.erefs = [.pad ka, .pad kb] →
      j < m.rows.length → m.fault = none → s.operandsFit m (.pad ka) (.pad kb) →
      let ha := s.hdr (.pad ka)
      let hb := s.hdr (.pad kb)
      let k := m.word
      let k0 := m.rows.getD j 0
      let k1 := Nat.min (k0 + 16) (kDepth k)
      let row := fun r => 8 * (j / kNT k) + r
      let col := fun c => 8 * (j % kNT k) + c
      let ta := fun r => s.matTerms m (.pad ka) (.pad kb) 0 (row r) k0 (k1 - k0)
      let tb := fun c => s.matTerms m (.pad ka) (.pad kb) 1 (col c) k0 (k1 - k0)
      let old := fun n => (s.coreAt core).accSlot (64 * ((kRegion k).1 + j) + n)
      let fa := opFmt k 0 ha
      ∀ mode w, kMode k = some (mode, w) →
      (w = 0 → mode ≤ 2 → ∃ t, exec (e.2 cl u) s = .next t
        ∧ tileStep s t core i j u k1 m fun n => (addFused (kAcc k) fa (old n) (ta (n / 8)) (tb (n % 8))).1)
      ∧ (w ≠ 0 →
        let bad := fun (side : Nat) (ts : List (Nat × Nat)) => decide (opBlog k side ≠ 0) && ts.any fun t => decide (t.2 = 255)
        let al := fun (side fmt base idx : Nat) (ts : List (Nat × Nat)) =>
          (alignBlock w m.rm (fun t => m.draw (base + idx * kDepth k + k0 + t)) (ts.map (termVal m fmt)) (bad side ts)).1
        ∃ t, exec (e.2 cl u) s = .next t ∧ tileStep s t core i j u k1 m fun n =>
          (addAligned (kAcc k) w (old n) (al 0 fa 0 (row (n / 8)) (ta (n / 8)))
            (al 1 (opFmt k 1 hb) (8 * kMT k * kDepth k) (col (n % 8)) (tb (n % 8)))).1)
      ∧ (w = 0 → 2 < mode →
        let int := fun (ts : List (Nat × Nat)) => ts.map fun t => signExt (fmtBits fa) t.1
        let out := fun n => addInts (if mode = 8 then 3 else 6) k0 (old n) (int (ta (n / 8))) (int (tb (n % 8)))
        ((∀ n, n < 64 → (out n).isSome = true) →
          ∃ t, exec (e.2 cl u) s = .next t ∧ tileStep s t core i j u k1 m fun n => (out n).getD 0)
        ∧ ((∃ n, n < 64 ∧ out n = none) → ∃ t, exec (e.2 cl u) s = .next t
            ∧ (∀ n, (t.coreAt core).accSlot n = (s.coreAt core).accSlot n) ∧ t.mem = s.mem
            ∧ ∃ c, (t.coreAt core).wmb[i]? = some c ∧ c.fault = some Cause.guard.code ∧ c.rows = m.rows ∧ c.jobs = [])))
    ∧ (∀ (acc fmt : Nat) (old : Word) (x y : Nat × Nat) (a b : List (Nat × Nat)),
      addFused acc fmt old [] [] = (old, 0)
      ∧ (addFused acc fmt old (x :: a) (y :: b)).1 = (addFused acc fmt (addFused acc fmt old [x] [y]).1 a b).1)
    ∧ (∀ (p k0 : Nat) (old : Word) (a b : List Int) (v : Word), a.length = b.length → addInts p k0 old a b = some v →
      v = BitVec.ofInt 64 (old.toInt + ((a.zip b).map fun x => x.1 * x.2).sum)
        ∧ (a ≠ [] → v.toInt = old.toInt + ((a.zip b).map fun x => x.1 * x.2).sum))
    ∧ ∀ (f : Nat → Nat → Instr) (cl u : Nat) (s : State), f ∈ ([.mma, .mmaz, .mmat, .accst, .accld, .pconv, .pdot] : List _) →
      s.jobOn cl u = none → exec (f cl u) s = .next s)
  ∧ (
    (∀ (cl u core i j k : Nat) (m : Cmd) (s : State), s.jobOn cl u = some (core, i, j) → (s.coreAt core).wmb[i]? = some m →
      kOp m.word = 4 → m.erefs = [.pad k] → j < m.rows.length → isHandler k = false → (∀ r ∈ s.reds, r.v ≠ .pad k) →
      let h := s.hdr (.pad k)
      let w := m.word
      let r := m.rows.getD j 0
      let nb := fmtBits h.fmt / 8
      let off := (elemAt h.fmt (kCursorA w) + (8 * (j / kNT w) + r) * kStrideA w + 8 * (j % kNT w)) * nb
      let x := fun c => (storeEntry (kAcc w) h.fmt ((s.coreAt core).accSlot (64 * ((kRegion w).1 + j) + 8 * r + c))).1
      ∃ t, exec (.accst cl u) s = .next t
        ∧ (∀ c b, c < 8 → b < nb → t.mem.byte (k + 32 + off + c * nb + b) = BitVec.ofNat 8 (x c / 256 ^ b))
        ∧ (∀ a, a < k + 32 + off ∨ k + 32 + off + 8 * nb ≤ a → t.mem.byte a = s.mem.byte a)
        ∧ (∀ n, (t.coreAt core).accSlot n = (s.coreAt core).accSlot n)
        ∧ ∃ c, (t.coreAt core).wmb[i]? = some c ∧ c.rows = m.rows.set j (r + 1) ∧ c.bytes = m.bytes + 8 * nb)
    ∧ (∀ (cl u core i j k : Nat) (m : Cmd) (s : State), s.jobOn cl u = some (core, i, j) → (s.coreAt core).wmb[i]? = some m →
      kOp m.word = 5 → m.erefs = [.pad k] → j < m.rows.length → s.olds.length ≤ m.since → (∀ r ∈ s.reds, r.v ≠ .pad k) →
      let h := s.hdr (.pad k)
      let w := m.word
      let r := m.rows.getD j 0
      let nb := fmtBits h.fmt / 8
      let off := (elemAt h.fmt (kCursorA w) + (8 * (j / kNT w) + r) * kStrideA w + 8 * (j % kNT w)) * nb
      let tile := (kRegion w).1 + j
      s.readPoisoned none (.pad k) off (8 * nb) = false →
      ∃ t, exec (.accld cl u) s = .next t ∧ t.mem = s.mem
        ∧ (∀ c, c < 8 → (t.coreAt core).accSlot (64 * tile + 8 * r + c)
            = (loadEntry (kAcc w) h.fmt (ofBytes (s.readBody none (.pad k) (off + c * nb) nb))).1)
        ∧ (∀ n, n < 64 * tile + 8 * r ∨ 64 * tile + 8 * r + 8 ≤ n → (t.coreAt core).accSlot n = (s.coreAt core).accSlot n)
        ∧ ∃ c, (t.coreAt core).wmb[i]? = some c ∧ c.rows = m.rows.set j (r + 1))
    ∧ ∀ e ∈ ([(6, .pconv), (7, .pdot)] : List (Nat × (Nat → Nat → Instr))), ∀ (cl u core i j ka kb : Nat) (m : Cmd) (s : State),
      s.jobOn cl u = some (core, i, j) → (s.coreAt core).wmb[i]? = some m → kOp m.word = e.1 → m.erefs = [.pad ka, .pad kb] →
      j < m.rows.length → m.fault = none →
      let w := m.word
      let fmt := (streamFmt e.1 (kAcc w)).1
      let blk := (streamFmt e.1 (kAcc w)).2
      s.operandsFit m (.pad ka) (.pad kb) →
      let a0 := elemAt fmt (kCursorA w)
      let b0 := elemAt fmt (kCursorB w)
      let j0 := m.rows.getD j 0
      let j1 := Nat.min (j0 + blk) m.fullRows
      let a := fun x => signExt (fmtBits fmt) (s.rawElem (.pad ka) fmt x)
      let b := fun x => signExt (fmtBits fmt) (s.rawElem (.pad kb) fmt x)
      let old := fun n => (s.coreAt core).accSlot (64 * ((kRegion w).1 + j) + n)
      let y := fun (n : Nat) => (old n).toInt + ((List.range (j1 - j0)).map fun d =>
        if e.1 = 6 then a (a0 + (64 * j + n) + kTaps w - 1 - (j0 + d)) * b (b0 + j0 + d)
        else a (a0 + (64 * j + n) * kStrideA w + j0 + d) * b (b0 + (64 * j + n) * kStrideB w + j0 + d)).sum
      ((∀ n, n < kEntries w j → inRange64 (y n) = true) → ∃ t, exec (e.2 cl u) s = .next t
        ∧ tileStep s t core i j u j1 m fun n => if n < kEntries w j then BitVec.ofInt 64 (y n) else old n)
      ∧ ((∃ n, n < kEntries w j ∧ inRange64 (y n) = false) → ∃ t, exec (e.2 cl u) s = .next t
        ∧ (∀ n, (t.coreAt core).accSlot n = (s.coreAt core).accSlot n) ∧ t.mem = s.mem
        ∧ ∃ c, (t.coreAt core).wmb[i]? = some c ∧ c.fault = some Cause.guard.code ∧ c.rows = m.rows))

/-- R305 to R315: `pack` makes a packed value of a run of elements, `gwid` changes its slot width, `wmulp` and `wmacp`
multiply and accumulate, `extr` gives coefficients as elements; a bound that a slot could not hold raises GUARD with it. -/
def Obligations.PackedResults : Prop :=
  (∀ (d : BitVec 3) (a b : BitVec 5) (t : BitVec 3) (s : State), s.still a = true → plain b = true → s.calm = true →
    isChan s.site = false → t.toNat ≤ 6 →
    let cw := s.src b
    let sw := bitsOf cw 0 6
    let n := bitsOf cw 8 9
    let f := bitsOf cw 17 9
    let e := (packType t.toNat).1
    let m := (packType t.toNat).2.2
    let c := fun (i : Nat) =>
      let x := elemOf (s.vec a) e (if cw.getLsbD 26 then f + n - 1 - i else f + i)
      if (packType t.toNat).2.1 then signExt e x else (x : Int)
    bitsOf cw 6 2 = 0 → bitsOf cw 27 37 = 0 → 4 ≤ sw → sw ≤ 48 → 1 ≤ n → n ≤ 256 →
    (¬ (f + n ≤ 1024 / e ∧ n * sw ≤ 512) → exec (.pack d a b t) s = .next (s.trapHere Cause.bounds.code cw false))
    ∧ (f + n ≤ 1024 / e → n * sw ≤ 512 → slotBound sw < m →
      exec (.pack d a b t) s = .next (s.trapHere Cause.guard.code (BitVec.ofNat 64 m) false))
    ∧ (f + n ≤ 1024 / e → n * sw ≤ 512 → m ≤ slotBound sw →
      ∃ w, exec (.pack d a b t) s = .next (s.setW d w).retires ∧ w.desc = mkDesc n sw m ∧ w.ok = true
        ∧ ∀ i, i < n → w.coeff i = c i))
  ∧ (∀ (d a : BitVec 3) (b : BitVec 5) (s : State), plain b = true → s.calm = true → isChan s.site = false →
    let cw := s.src b
    let w := s.wide a
    let sw := if bitsOf cw 0 6 = 0 then descS w.desc else bitsOf cw 0 6
    bitsOf cw 7 57 = 0 → bitsOf cw 0 6 = 0 ∨ (4 ≤ bitsOf cw 0 6 ∧ bitsOf cw 0 6 ≤ 48) →
    (descValid w.desc = false → exec (.gwid d a b) s = .next (s.trapHere Cause.type.code (a.setWidth 64) false))
    ∧ (descValid w.desc = true → cw.getLsbD 6 = false →
      (1024 < descN w.desc * sw → exec (.gwid d a b) s = .next (s.trapHere Cause.bounds.code (BitVec.ofNat 64 (descN w.desc * sw)) false))
      ∧ (descN w.desc * sw ≤ 1024 → slotBound sw < descM w.desc →
        exec (.gwid d a b) s = .next (s.trapHere Cause.guard.code (BitVec.ofNat 64 (descM w.desc)) false))
      ∧ (descN w.desc * sw ≤ 1024 → descM w.desc ≤ slotBound sw → w.ok = true →
        ∃ u, exec (.gwid d a b) s = .next (s.setW d u).retires ∧ u.desc = mkDesc (descN w.desc) sw (descM w.desc)
          ∧ ∀ i, i < descN w.desc → u.coeff i = w.coeff i)))
  ∧ (∀ (d a b : BitVec 3) (s : State), s.calm = true → isChan s.site = false →
    let x := s.wide a
    let y := s.wide b
    let z := s.wide d
    let sw := descS x.desc
    let m := Nat.min (descN x.desc) (descN y.desc) * descM x.desc * descM y.desc
    let v := (x.bits.setWidth 512).toInt * (y.bits.setWidth 512).toInt
    (descValid x.desc = false → exec (.wmulp d a b) s = .next (s.trapHere Cause.type.code (a.setWidth 64) false))
    ∧ (descValid x.desc = true → descValid y.desc = true → descS y.desc = sw → descN x.desc * sw ≤ 512 → descN y.desc * sw ≤ 512 →
      (m ≤ slotBound sw → exec (.wmulp d a b) s = .next (s.setW d
        { bits := BitVec.ofInt 1024 v, desc := mkDesc (descN x.desc + descN y.desc - 1) sw m }).retires)
      ∧ (slotBound sw < m → exec (.wmulp d a b) s = .next (s.trapHere Cause.guard.code (clip64 m) false))
      ∧ (descValid z.desc = true → descS z.desc = sw → descM z.desc + m ≤ slotBound sw →
        exec (.wmacp d a b) s = .next (s.setW d { bits := BitVec.ofInt 1024 (z.bits.toInt + v)
                                                  desc := mkDesc (Nat.max (descN z.desc) (descN x.desc + descN y.desc - 1)) sw
                                                    (descM z.desc + m) }).retires)))
  ∧ ∀ (d : BitVec 5) (a : BitVec 3) (b : BitVec 5) (e : BitVec 2) (s : State), s.still d = true → plain b = true →
    s.calm = true → isChan s.site = false → e.toNat ≤ 2 → descValid (s.wide a).desc = true →
    (descM (s.wide a).desc ≤ (laneType e.toNat).2 → vecResult (.extr d a b e) s d (laneType e.toNat).1
      fun k => intBits (laneType e.toNat).1 ((s.wide a).coeff ((s.src b).toNat + k)))
    ∧ ((laneType e.toNat).2 < descM (s.wide a).desc →
      exec (.extr d a b e) s = .next (s.trapHere Cause.guard.code (BitVec.ofNat 64 (descM (s.wide a).desc)) false))

/-- R306 to R313: `wmulp` multiplies polynomials. For two packed values that keep the invariants of R307, with one slot
width and within its bounds, the coefficients of the product are those of the polynomial product, none is beyond its
bound, and the result keeps the invariants. -/
def Obligations.PackedProductIsPolynomialProduct : Prop :=
  ∀ (d a b : BitVec 3) (s : State), s.calm = true → isChan s.site = false →
    let x := s.wide a
    let y := s.wide b
    let sw := descS x.desc
    descValid x.desc = true → descValid y.desc = true → x.ok = true → y.ok = true → descS y.desc = sw →
    descN x.desc * sw ≤ 512 → descN y.desc * sw ≤ 512 →
    Nat.min (descN x.desc) (descN y.desc) * descM x.desc * descM y.desc ≤ slotBound sw →
    ∃ w, exec (.wmulp d a b) s = .next (s.setW d w).retires ∧ w.ok = true ∧ descN w.desc = descN x.desc + descN y.desc - 1
      ∧ ∀ i, i < descN w.desc → w.coeff i = convolve x.coeffs y.coeffs i
          ∧ (w.coeff i).natAbs ≤ Nat.min (descN x.desc) (descN y.desc) * descM x.desc * descM y.desc

/-- R272, R284, R291: the arbiter gives a free multiplier the next tile job of a core that its order allows, once the
command's checks have passed; a command that they stop halts with the cause. A finished command leaves the queue with its
counts given back, its barrier credited and its record posted, and waits while its context's record queue is full; it holds
back no command of another context; a record held since a halt goes before it (R38). The model's choices in it: log entry
46. -/
def Obligations.TileJobDispatchAndCompletion : Prop :=
  (∀ (cl u core i j : Nat) (m : Cmd) (s v : State), (s.jobOn cl u).isNone = true → (s.sideOf cl u).contains core = true →
    s.dispatchable core = true → s.arbiterAllows (s.sideOf cl u) core = true → s.nextJob core = some (i, j) →
    (s.coreAt core).wmb[i]? = some m →
    let s1 : State := { s with site := core }
    (∀ n, (if m.started then v = s1 else startChecks i s1 = .ok () v) → (v.coreAt core).wmb[i]? = some n → n.zeroed.contains j = false →
      ∃ t c, exec (.wmbTileJobDispatch cl u core) s = .next t ∧ (t.coreAt core).wmb[i]? = some c
        ∧ c.jobs = n.jobs ++ [(j, u)] ∧ c.todo = n.todo.filter (fun x => decide (x ≠ j))
        ∧ c.fresh = n.fresh.filter (fun x => decide (x ≠ j)) ∧ c.started = n.started
        ∧ c.zeroed = (if kZeroes n.word then j :: n.zeroed else n.zeroed)
        ∧ (t.coreAt core).wjobs = (v.coreAt core).wjobs + 1 ∧ t.mem = v.mem ∧ t.site = s.site
        ∧ ∀ e, e < kEntries n.word j → (t.coreAt core).accSlot (64 * ((kRegion n.word).1 + j) + e)
            = if kZeroes n.word then 0 else (v.coreAt core).accSlot (64 * ((kRegion n.word).1 + j) + e))
    ∧ ∀ c w n, m.started = false → startChecks i s1 = .error (.trap c w) v → (v.coreAt core).wmb[i]? = some n →
      ∃ t x, exec (.wmbTileJobDispatch cl u core) s = .next t ∧ (t.coreAt core).wmb[i]? = some x ∧ x.fault = some c.code
        ∧ x.jobs = [] ∧ t.mem = v.mem ∧ (t.coreAt core).acc = (v.coreAt core).acc)
  ∧ (∀ (cl u core : Nat) (s : State), (s.jobOn cl u).isSome = true ∨ s.dispatchable core = false →
    exec (.wmbTileJobDispatch cl u core) s = .next s)
  ∧ (∀ (core : Nat) (r : Owed) (s t : State),
    let s1 : State := { s with site := core }
    (s.coreAt core).owed.find? (fun r => s1.recRoom r.ctx) = some r →
    s1.postRecord core r.ctx r.record.word r.record.dests = some t →
    exec (.wmbCommandComplete core) s
      = .next { t.setCore core { t.coreAt core with owed := (t.coreAt core).owed.erase r } with site := s.site })
  ∧ ∀ (core i : Nat) (m : Cmd) (s s2 : State),
    let s1 : State := { s with site := core }
    (∀ r ∈ (s.coreAt core).owed, s1.recRoom r.ctx = false) →
    let next := (s.coreAt core).wmb.zipIdx.find? fun e => e.1.complete && (!kRec e.1.word || s1.recRoom e.1.ctx)
    (next = none → exec (.wmbCommandComplete core) s = .next s)
    ∧ (next = some (m, i) →
    (if kRec m.word then s1.postRecord core m.ctx (m.record 0) m.dests else some s1) = some s2 →
      let s3 := m.erefs.foldl State.erefDown s2
      let s4 := match m.barrier with
        | some v => (s3.barCredit v m.bytes).barPendingDown v
        | none => s3
      exec (.wmbCommandComplete core) s = .next { (s4.setCore core { s4.coreAt core with
        wmb := (s4.coreAt core).wmb.eraseIdx i
        wdone := (s4.coreAt core).wdone ++ [{ ctx := m.ctx, batch := m.batch, dests := m.dests }] }).dropOlds with site := s.site })

/-! The copy engine. -/

/-- R177, R325, R330, R344 to R346: `cpush` of a word that passes the checks releases at its scope and queues the command, and
answers how many of the context's are in flight; a full engine makes it wait. `cpwait` goes on once no more are in flight than
it admits, and acquires what they wrote; `cpstat` answers the value of its selector. `cppage` raises BOUNDS for a number of pages
that it does not admit, answers 0 when all its pages are resident, and else, for an object that the push admits, queues a
`PAGEIN` of them and answers 1. The model's choices in it: log entries 52, 56 and 108. -/
def Obligations.CopyPushAndWait : Prop :=
  (∀ (d : BitVec 5) (k : BitVec 2) (s t u z : State), plain d = true → isChan s.site = false →
    let i : Instr := .cpush d k
    let w := s.core.kreg k.toNat
    (copyWordOk w = false → exec i s = .next (s.trapHere Cause.illegal.code (BitVec.ofNat 64 (w.toNat % 2 ^ 32)) false))
    ∧ (copyWordOk w = true → leads i (copyChecks w) s () t →
      (2 ≤ t.core.copies.length → exec i s = .next (s.waits (s.starts i).tx))
      ∧ (t.core.copies.length < 2 → leads i (releaseAll (kScope w)) t () u → queues i (u.core.kreg k.toNat) u z → z.calm = true →
        exec i s = .next (z.gives d (BitVec.ofNat 64 (z.core.copies.filter fun m => decide (m.ctx = z.core.act)).length)))))
  ∧ (∀ (d a : BitVec 5) (s u : State), plain d = true → plain a = true → isChan s.site = false →
    let i : Instr := .cpwait d a
    let n := (s.core.copies.filter fun m => decide (m.ctx = s.core.act)).length
    let mine := fun (e : Done) => decide (e.ctx = s.core.act)
    ((s.src a).toNat < n → exec i s = .next (s.waits (s.starts i).tx))
    ∧ (n ≤ (s.src a).toNat → (∀ f ∈ s.core.faults, f.ctx = s.core.act → f.kind ≠ 2) → leads i (acquireDests ((s.core.cpdone.filter mine).map (·.dests)).flatten) s ⟨⟩ u → u.calm = true →
      exec i s = .next ((u.setCore u.site { u.core with cpdone := u.core.cpdone.filter fun e => !mine e }).gives d
        (BitVec.ofNat 64 n))))
  ∧ (∀ (d a : BitVec 5) (s : State), plain d = true → plain a = true → s.calm = true → isChan s.site = false →
    (∀ v, cpstatValue s.core (s.src a).toNat = some v → exec (.cpstat d a) s = .next (s.gives d (BitVec.ofNat 64 v)))
    ∧ (5 ≤ (s.src a).toNat → exec (.cpstat d a) s = .next (s.trapHere Cause.illegal.code (s.src a) false)))
  ∧ ∀ (d : BitVec 5) (a : BitVec 4) (b : BitVec 5) (rec : Bool) (s t u z : State) (asid va : Nat), plain d = true →
    plain b = true → isChan s.site = false →
    let i : Instr := if rec then .cppageRec d a b else .cppage d a b
    let r := s.ctx.areg a.toNat
    let n := (s.src b).toNat
    let first := (va + 32 + r.cur.toNat) / 4096
    (ptrLevel r.ptr = 7 → exec i s = .next (s.trapHere Cause.nullptr.code r.ptr false))
    ∧ (ptrLevel r.ptr ≠ 7 → ptrLevel r.ptr ≠ 0 → exec i s = .next (s.trapHere Cause.type.code r.ptr false))
    ∧ (ptrLevel r.ptr = 0 → va = ptrLoc r.ptr → asid = t.asid → leads i (locate r.ptr) s (.heap asid va) t →
      leads i (worldCheck r.ptr (.heap asid va)) t () t →
      (n = 0 ∨ 512 < n ∨ pagesLeft va r.cur.toNat (t.hdr (.heap asid va)).span < n →
        exec i s = .next (t.trapHere Cause.bounds.code (s.src b) false))
      ∧ (1 ≤ n → n ≤ 512 → n ≤ pagesLeft va r.cur.toNat (t.hdr (.heap asid va)).span →
        ((∀ j, j < n → t.hbmResident asid (first + j) = true) → t.calm = true → exec i s = .next (t.gives d 0))
        ∧ ((∃ j, j < n ∧ t.hbmResident asid (first + j) = false) →
          (copyTypesOk (cppageWord r.ptr 0 1 rec) 0 (t.hdr (.heap asid va)) = false →
            exec i s = .next (t.trapHere Cause.type.code r.ptr false))
          ∧ (copyTypesOk (cppageWord r.ptr 0 1 rec) 0 (t.hdr (.heap asid va)) = true →
            (2 ≤ t.core.copies.length → exec i s = .next (s.waits (s.starts i).tx))
            ∧ (t.core.copies.length < 2 → leads i (releaseAll 0) t () u →
              queues i (cppageWord r.ptr r.cur.toNat n rec) u z → z.calm = true → exec i s = .next (z.gives d 1))))))

/-- R333 to R336: a `COPY`, `XPOSE` or `GATHER` reads its next piece as it stands in memory, a tile of an `XPOSE` by source rows,
and then writes what it has read, a tile by destination rows, at most 64 bytes a step, each element at its place and no byte of a pad beside them; a `FILL` writes its pattern. A
row of a `GATHER` that does not lie in its source stops the command with BOUNDS. R176, R337, R338, R340: a `PAGEIN` brings
its next page into the tier pool unless it is resident, into a free frame of the channel group where there is one, and takes
out none that an access in flight reads; a `MIGR` takes one out or moves it to another channel group once no access in flight
reads it; both in a VF that has accepted the feature TIERPOOL; each counts its page. A command that has done its work leaves with its counts given
back, its barrier credited and its record posted; one that stopped leaves a fault. The model's choices in it: log entries 48
and 51. -/
def Obligations.CopyEngines : Prop :=
  (
    (∀ e ∈ ([(0x11, .copy, fun m => copyPiece m.word ((m.order[m.prog]?).getD m.prog) m.prog),
        (0x12, .xpose, fun m => xposePiece m.word m.inPlace m.prog)] : List (Nat × (Nat → Nat → Instr) × (Cmd → Piece))),
      ∀ (core n k : Nat) (m : Cmd) (s : State), (s.coreAt core).copies[n]? = some m → kOp m.word = e.1 → m.buf = [] →
      m.stop = none → m.prog < m.total → m.erefs[0]? = some (.pad k) → s.olds.length ≤ m.since →
      (∀ off len, s.readPoisoned none (.pad k) off len = false) → (∀ r ∈ s.reds, r.v ≠ .pad k) →
      let p := e.2.2 m
      let got := p.elems.map fun x => (x.2, p.size, ofBytes (s.readBody none (.pad k) x.1 p.size))
      ∃ t, exec (e.2.1 core n) s = .next t ∧ t.mem = s.mem ∧ copyStepTo s t core n { m with
        buf := if p.whole then p.writes.filterMap fun d => got.find? fun x => decide (x.1 = d) else got
        stop := none, prog := p.next
        seen := (p.elems.getLast?.map fun _ => 0).or m.seen })
    ∧ (∀ (core n ks ki : Nat) (m : Cmd) (s : State), (s.coreAt core).copies[n]? = some m → kOp m.word = 0x13 → m.buf = [] →
      m.stop = none → m.prog < m.total → m.erefs[0]? = some (.pad ks) → m.erefs[2]? = some (.pad ki) →
      s.olds.length ≤ m.since → (∀ l ∈ [Loc.pad ks, .pad ki], ∀ off len, s.readPoisoned none l off len = false) →
      (∀ r ∈ s.reds, r.v ≠ .pad ks ∧ r.v ≠ .pad ki) →
      let lam := kLam m.word
      let i := m.prog / lam
      let v := ofBytes (s.readBody none (.pad ki) (4 * (kCi m.word + i)) 4)
      let x : Int := if (s.hdr (.pad ki)).fmt = 5 then signExt 32 v else (v : Int)
      let inside := 0 ≤ x ∧ lam * (x.toNat + 1) ≤ engineLen (s.hdr (.pad ks))
      let known := m.cur.filter fun c => decide (c.1 = i)
      let row := (known.map (·.2)).getD x.toNat
      let parts := gatherRow lam
      let ord := if known = none then (if kGrouped m.word then List.range parts.length else []) else m.order
      let p := gatherPiece m.word (gatherSize (s.hdr (.pad ks))) row m.prog
        (if ord = [] then parts else ord.filterMap fun j => parts[j]?)
      ((known = none → inside) → ∃ t, exec (.gather core n) s = .next t ∧ t.mem = s.mem ∧ copyStepTo s t core n { m with
        cur := some (i, row), order := ord, buf := p.elems.map fun y => (y.2, p.size, ofBytes (s.readBody none (.pad ks) y.1 p.size))
        stop := none, prog := p.next, seen := (p.elems.getLast?.map fun _ => 0).or m.seen })
      ∧ (known = none → ¬ inside → ∃ t, exec (.gather core n) s = .next t ∧ t.mem = s.mem
        ∧ copyStepTo s t core n { m with stop := some Cause.bounds.code }))
    ∧ (∀ (core n : Nat) (m : Cmd) (s : State), (s.coreAt core).copies[n]? = some m → kOp m.word = 0x14 → m.buf = [] →
      m.stop = none → m.prog < m.total →
      let w := m.word
      let g := Nat.min 64 (kFillLen w - m.prog)
      ∃ t, exec (.fill core n) s = .next t ∧ t.mem = s.mem ∧ copyStepTo s t core n { m with
        buf := (List.range (g / kE w)).map fun i => (kFillAt w + m.prog + i * kE w, kE w, kFillVal w % 2 ^ (8 * kE w))
        prog := m.prog + g })
    ∧ (∀ e ∈ ([(0x11, .copy), (0x12, .xpose), (0x13, .gather), (0x14, .fill)] : List (Nat × (Nat → Nat → Instr))),
      ∀ (core n k : Nat) (m : Cmd) (x : Nat × Nat × Nat) (rest : List (Nat × Nat × Nat)) (s : State),
      (s.coreAt core).copies[n]? = some m → kOp m.word = e.1 → m.buf = x :: rest → m.dst = .pad k →
      (∀ r ∈ s.reds, r.v ≠ .pad k) →
      let c := Nat.max 1 (64 / x.2.1)
      let front := m.buf.take c
      let bytes := (front.map fun y => y.2.1).sum
      ∃ t ds, exec (e.2 core n) s = .next t
        ∧ copyStepTo s t core n { m with buf := m.buf.drop c, bytes := m.bytes + bytes, dests := m.dests ++ ds }
        ∧ (t.coreAt core).cpbytes = (s.coreAt core).cpbytes + bytes
        ∧ (∀ a, (∀ y ∈ front, a < k + 32 + y.1 ∨ k + 32 + y.1 + y.2.1 ≤ a) → t.mem.byte a = s.mem.byte a)
        ∧ (front.Pairwise (fun y z => y.1 + y.2.1 ≤ z.1 ∨ z.1 + z.2.1 ≤ y.1) →
          ∀ y ∈ front, ofBytes (t.mem.bytes (k + 32 + y.1) y.2.1) = y.2.2 % 256 ^ y.2.1))
    ∧ ∀ (f : Nat → Nat → Instr) (core n : Nat) (s : State),
      f ∈ ([.copy, .xpose, .gather, .fill, .pagein, .migr, .copyCommandComplete] : List _) → (s.coreAt core).copies[n]? = none →
      exec (f core n) s = .next s)
  ∧ (
    (∀ (core n asid va frame : Nat) (m : Cmd) (s : State), (s.coreAt core).copies[n]? = some m → kOp m.word = 0x15 → m.buf = [] →
      m.stop = none → m.prog < m.total → m.erefs[0]? = some (.heap asid va) →
      let s1 : State := { s with site := core }
      let page := (va + 32 + kPageAt m.word) / 4096 + m.prog
      let goes := s1.feature 2 && !s.hbmResident asid page
      (goes = true → translateFor (.copy core) asid (page * 4096) false 0 s1 = .ok frame s1) →
      let moved := goes && decide (0 < Config.tierFrames)
      let done := fun (t : State) => exec (.pagein core n) s = .next t ∧ t.mem = s.mem
        ∧ copyStepTo s t core n { m with prog := m.prog + 1, bytes := m.bytes + 4096 }
      (moved = false → ∃ t, done t ∧ t.tier = s.tier ∧ (t.coreAt core).cppages = (s.coreAt core).cppages)
      ∧ (moved = true → s1.pageIn asid page (kGroup m.word) = none → exec (.pagein core n) s = .next s)
      ∧ ∀ u, moved = true → s1.pageIn asid page (kGroup m.word) = some u → ∃ t, done t ∧ t.tier = u.tier
        ∧ t.hbmResident asid page = true ∧ (t.coreAt core).cppages = (s.coreAt core).cppages + 1)
    ∧ (∀ (asid page grp : Nat) (s u : State), s.pageIn asid page grp = some u →
      (∃ x ∈ u.tier, x.asid = asid ∧ x.page = page
        ∧ ((∃ f ∈ s.poolFree, inGroup grp f = true) → inGroup grp x.hbm = true ∧ x.hbm ∈ s.poolFree))
      ∧ ∀ x ∈ s.tier, x ∉ u.tier → s.poolFree = [] ∧ s.inFlight x.asid x.page = false)
    ∧ (∀ (core n asid va : Nat) (m : Cmd) (s : State), (s.coreAt core).copies[n]? = some m → kOp m.word = 0x16 → m.buf = [] →
      m.stop = none → m.prog < m.total → m.erefs[0]? = some (.heap asid va) →
      let page := (va + 32 + kPageAt m.word) / 4096 + m.prog
      let on := ({ s with site := core } : State).feature 2
      let done := fun (l : List TierPage) => ∃ t, exec (.migr core n) s = .next t ∧ t.mem = s.mem
        ∧ copyStepTo s t core n { m with prog := m.prog + 1, bytes := m.bytes + 4096 } ∧ t.tier = l
      (on = false ∨ s.inTier asid page = none → done s.tier)
      ∧ ∀ x, on = true → s.inTier asid page = some x →
        (m.word.getLsbD 13 = true →
          (s.inFlight asid page = true → exec (.migr core n) s = .next s)
          ∧ (s.inFlight asid page = false → done (s.tier.erase x)))
        ∧ (m.word.getLsbD 13 = false →
          (inGroup (kGroup m.word) x.hbm = true ∨ s.poolFree.find? (inGroup (kGroup m.word)) = none → done s.tier)
          ∧ ∀ f, inGroup (kGroup m.word) x.hbm = false → s.poolFree.find? (inGroup (kGroup m.word)) = some f →
            (s.inFlight asid page = true → exec (.migr core n) s = .next s)
            ∧ (s.inFlight asid page = false → done (s.tier.map fun y => if y = x then { y with hbm := f } else y))))
    ∧ (∀ (core n : Nat) (m : Cmd) (s s1 : State), (s.coreAt core).copies[n]? = some m → m.buf = [] →
      (m.stop.isSome = true ∨ m.total ≤ m.prog) →
      (if kRec m.word then s.postRecord core m.ctx (m.record (m.stop.getD 0)) m.dests else some s) = some s1 →
      let s2 := m.erefs.foldl State.erefDown s1
      let s3 := match m.barrier with
        | some v => (if m.stop.isNone then s2.barCredit v m.bytes else s2).barPendingDown v
        | none => s2
      let c := s3.coreAt core
      exec (.copyCommandComplete core n) s = .next (s3.setCore core (if m.stop.isNone then
          { c with copies := c.copies.eraseIdx n, cpdone := c.cpdone ++ [{ ctx := m.ctx, batch := 0, dests := m.dests }] }
        else { c with copies := c.copies.eraseIdx n, faults := c.faults ++ [
          { ctx := m.ctx, record := m.record (m.stop.getD 0), at_ := s.cycle.toNat, kind := 2, id := 0, num := m.num }] })).dropOlds)
    ∧ ∀ (core n : Nat) (m : Cmd) (s : State), (s.coreAt core).copies[n]? = some m →
      (m.buf ≠ [] ∨ (m.stop = none ∧ m.prog < m.total) ∨ (kRec m.word = true
        ∧ s.postRecord core m.ctx (m.record (m.stop.getD 0)) m.dests = none)) →
      exec (.copyCommandComplete core n) s = .next s)

/-! Messages. -/

/-- R347, R348, R352 to R356: `msend` and `mcast` check their control word and their descriptor and put one message for each
destination on its way, with the header of R347; `mrecv` takes what is left of the oldest message and `mpoll` looks at it;
`xput` sends bytes to an object. A full send buffer makes the context wait. R349 to R351, R356, R357, R407: a message that
no earlier one of its context holds up reaches the receive queue of its destination, or its CTXBUF, or is held back, or is
refused with a bit of its sender's fence status; one held back for 4,096 cycles is refused with another. A put writes its
bytes, in a pad or in the heap, and no byte of a pad beside them, or is dropped whole. The model's choices in it: log entries
53, 54, 55 and 125. -/
def Obligations.Messages : Prop :=
  (
    (∀ (a b c : BitVec 5) (multi : Bool) (s : State), s.still a = true → plain b = true → plain c = true → s.calm = true →
      isChan s.site = false →
      let i : Instr := if multi then .mcast a b c else .msend a b c
      let n := bitsOf (s.src c) 0 3
      let mode := bitsOf (s.src b) 25 2
      let dest := bitsOf (s.src b) 0 13
      let last := if multi then dest + bitsOf (s.src b) 27 13 else dest
      let body := (List.range n).map fun j => BitVec.ofNat 64 (elemOf (s.vec a) 64 j)
      let dests := ((List.range (last - dest + 1)).map (· + dest)).filter fun x =>
        !(multi && decide (mode = 1) && (s.fused.contains x || decide (8192 ≤ x)))
      let ctlOk := n ≠ 0 ∧ bitsOf (s.src c) 3 13 = 0 ∧ bitsOf (s.src c) 32 32 = 0
      (¬ ctlOk → exec i s = .next (s.trapHere Cause.illegal.code (s.src c) false))
      ∧ (ctlOk → descriptorOk (s.src b) multi = false → exec i s = .next (s.trapHere Cause.illegal.code (s.src b) false))
      ∧ (ctlOk → descriptorOk (s.src b) multi = true → mode ≠ 0 → s.core.isPriv = false →
        exec i s = .next (s.trapHere Cause.priv.code (s.src b) false))
      ∧ (ctlOk → descriptorOk (s.src b) multi = true → mode = 0 → (s.tableRec.map Rec.tableSize).getD 0 ≤ last →
        exec i s = .next (s.trapHere Cause.type.code (s.src b) false))
      ∧ (ctlOk → descriptorOk (s.src b) multi = true → (mode ≠ 0 → s.core.isPriv = true) →
        (mode = 0 → last < (s.tableRec.map Rec.tableSize).getD 0) →
        (8 ≤ s.sendUsed s.site → exec i s = .next (s.waits (s.starts i).tx))
        ∧ (s.sendUsed s.site < 8 → exec i s = .next ((dests.zipIdx.foldl (fun (t : State) x =>
            t.postMsg mode x.1 (bitsOf (s.src b) 13 4) (if multi then 2 else 0) n (bitsOf (s.src c) 16 16) body (decide (x.2 = 0))) s).retires))))
    ∧ (∀ (src srcCtx dstCtx len kind utag ctag : Nat) (phys : Bool), src < 8192 → srcCtx < 16 → dstCtx < 16 → len < 8 →
      kind < 8 → utag < 65536 → ctag < 65536 →
      let h := msgHeader src srcCtx dstCtx len kind phys utag ctag
      bitsOf h 51 13 = src ∧ bitsOf h 47 4 = srcCtx ∧ bitsOf h 43 4 = dstCtx ∧ bitsOf h 40 3 = len ∧ bitsOf h 37 3 = kind
        ∧ h.getLsbD 32 = phys ∧ bitsOf h 16 16 = utag ∧ bitsOf h 0 16 = ctag ∧ bitsOf h 33 4 = 0)
    ∧ (∀ (d a : BitVec 5) (s : State), plain d = true → s.still a = true → s.calm = true → isChan s.site = false →
      (∀ m rest, s.core.rx = m :: rest →
        let ws := m.body.drop s.core.rxpos
        ∃ v, exec (.mrecv d a) s = .next ((((s.setV a v).setCtx (s.ctx.setS d.toNat (withLen m.hdr ws.length))).tookWords ws.length).retires)
          ∧ ∀ k, k < 16 → elemOf v 64 k = (ws.getD k 0).toNat)
      ∧ (s.core.rx = [] → s.ctx.nonBlocking 32 = true → exec (.mrecv d a) s = .next (s.gives d 0))
      ∧ (s.core.rx = [] → s.ctx.nonBlocking 32 = false → exec (.mrecv d a) s = .next (s.waits (s.starts (.mrecv d a)).tx)))
    ∧ (∀ (d : BitVec 5) (s : State), plain d = true → s.calm = true → isChan s.site = false →
      exec (.mpoll d 0) s = .next (s.gives d (match s.core.rx with
        | [] => 0
        | m :: _ => withLen m.hdr (m.body.drop s.core.rxpos).length))
      ∧ exec (.mpoll d 1) s = .next (s.gives d (BitVec.ofNat 64 (s.core.rx.length
          + ((s.ownRec.ctxbuf (s.core.ctxAt 0).lcore.toNat).map s.bufCount).getD 0))))
    ∧ ∀ (a : BitVec 5) (b : BitVec 4) (c : BitVec 5) (s : State), s.still a = true → plain c = true → s.calm = true →
      isChan s.site = false →
      let p := (s.ctx.areg b.toNat).ptr
      let n := (s.src c).toNat
      (n = 0 ∨ 64 < n → exec (.xput a b c) s = .next (s.trapHere Cause.illegal.code (s.src c) false))
      ∧ (1 ≤ n → n ≤ 64 → ptrLevel p = 7 → exec (.xput a b c) s = .next (s.trapHere Cause.nullptr.code p false))
      ∧
        let own := decide (ptrLevel p = 3) && decide (ptrTag p = (s.core.ctxAt 0).lcore.toNat)
        let f : Flit := { s.flit with
          put := true, target := if own then s.core.recId else s.tableRecId, ptr := p
          off := (s.ctx.areg b.toNat).cur.toNat, bytes := leBytes ((s.vec a).toNat % 2 ^ 512) n }
        (1 ≤ n → n ≤ 64 → 1 ≤ ptrLevel p → ptrLevel p ≤ 3 → s.putKey f = none →
          exec (.xput a b c) s = .next (s.trapHere Cause.type.code p false))
        ∧ (∀ k, 1 ≤ n → n ≤ 64 → 1 ≤ ptrLevel p → ptrLevel p ≤ 3 → s.putKey f = some k → keyLevel k = 3 →
          padTop ≤ (k - 2 ^ 60) % 2 ^ 18 → (s.core.inTrap && reservedHeader s.site k) = false →
          exec (.xput a b c) s = .next (s.trapHere Cause.type.code p false))
        ∧ (1 ≤ n → n ≤ 64 → ptrLevel p ≤ 3 → (1 ≤ ptrLevel p → ∃ k, s.putKey f = some k
            ∧ (keyLevel k = 3 → (k - 2 ^ 60) % 2 ^ 18 < padTop ∨ (s.core.inTrap && reservedHeader s.site k) = true)) →
          (8 ≤ s.sendUsed s.site → exec (.xput a b c) s = .next (s.waits (s.starts (.xput a b c)).tx))
          ∧ (s.sendUsed s.site < 8 → exec (.xput a b c) s = .next (s.send f).retires)))
  ∧ (
    (∀ (k rid : Nat) (f : Flit) (s : State), s.net[k]? = some f → f.put = false → s.headOfLine k f = true → f.target = some rid →
      let r := s.recAt rid
      let i : Instr := .messageDelivery k
      ((r.st = .ended ∨ r.place.length ≤ f.dst) → exec i s = .next (s.refused k f 1))
      ∧ (r.st ≠ .ended → f.dst < r.place.length → r.ctxbuf f.dst = none →
        (∀ x, s.residentAt rid f.dst = some x → (s.coreAt x).rx.length < 32 → exec i s = .next (s.arrives k x f.msg))
        ∧ ((∀ x, s.residentAt rid f.dst = some x → 32 ≤ (s.coreAt x).rx.length) → exec i s = .next (s.refused k f 1)))
      ∧ (∀ l u, r.st ≠ .ended → f.dst < r.place.length → r.ctxbuf f.dst = some l →
        (∀ c v, bufPages l s = .error (.trap c v) u → exec i s = .next (u.refused k f 1))
        ∧ (bufPages l s = .error .waitKeep u → exec i s = .next u))
      ∧ ∀ l, r.st ≠ .ended → f.dst < r.place.length → r.ctxbuf f.dst = some l → bufPages l s = .ok () s →
        let n := s.bufCount l
        (∀ x, s.residentAt rid f.dst = some x →
          ((s.coreAt x).rx.length < 32 → n = 0 → exec i s = .next (s.arrives k x f.msg))
          ∧ (32 ≤ (s.coreAt x).rx.length ∨ n ≠ 0 → exec i s = .next (if n + 32 ≤ s.bufCap l then
              State.bufPush { s with net := s.net.eraseIdx k } l f.msg else s.heldBack k f)))
        ∧ (s.residentAt rid f.dst = none → exec i s = .next (if n + 1 ≤ s.bufCap l then
            State.bufPush { s with net := s.net.eraseIdx k } l f.msg else s.heldBack k f)))
    ∧ (∀ (k x rid : Nat) (f : Flit) (s : State), s.net[k]? = some f → f.put = false → s.headOfLine k f = true → f.target = none →
      f.site = some x → (s.coreAt x).recId = some rid → s.fused.contains x = false → (s.recAt rid).st = .running →
      ((s.recAt rid).ctxtag = bitsOf f.msg.hdr 0 16 → exec (.messageDelivery k) s
          = .next (if (s.coreAt x).rx.length < 32 then s.arrives k x f.msg else s.heldBack k f))
      ∧ ((s.recAt rid).ctxtag ≠ bitsOf f.msg.hdr 0 16 → exec (.messageDelivery k) s = .next (s.refused k f 1)))
    ∧ (∀ (k : Nat) (f : Flit) (s : State), s.net[k]? = some f → f.put = true ∨ s.headOfLine k f = false →
      exec (.messageDelivery k) s = .next s)
    ∧ (∀ (k t : Nat) (f : Flit) (s : State), s.net[k]? = some f → f.since = some t →
      (t + 4096 ≤ s.cycle.toNat → exec (.messageRefusalTimeout k) s = .next (State.refused
        (match f.target.bind fun rid => (s.recAt rid).ctxbuf f.dst with
          | some l => s.setFieldAt l 0x18 6 (s.field l 0x18 6 + 1)
          | none => s) k f 3))
      ∧ (s.cycle.toNat < t + 4096 → exec (.messageRefusalTimeout k) s = .next s))
    ∧ (∀ (k : Nat) (f : Flit) (s : State), s.net[k]? = some f → f.since = none → exec (.messageRefusalTimeout k) s = .next s)
    ∧ (∀ (k : Nat) (f : Flit) (s : State), s.net[k]? = some f → f.put = true → s.headOfLine k f = true → ptrLevel f.ptr = 0 →
      let va := ptrLoc f.ptr
      let l := Loc.heap f.asid va
      (putTarget f s = .ok l s →
        (s.acrossDead f.asid (va + 32 + f.off) f.bytes.length = true → exec (.putPerformed k) s = .next (s.refused k f 0))
        ∧ (s.acrossDead f.asid (va + 32 + f.off) f.bytes.length = false →
          (∀ a ∈ pageStarts (va + 32 + f.off) f.bytes.length, s.hbmResident f.asid (a / 4096) = true) →
          exec (.putPerformed k) s = .next (State.putObj { s with net := s.net.eraseIdx k } l f.off f.bytes)))
      ∧ ∀ c v u, putTarget f s = .error (.trap c v) u →
        exec (.putPerformed k) s = .next (u.refused k f (if c = .poison then 2 else 1)))
    ∧ ∀ (k key rid : Nat) (f : Flit) (s : State), s.net[k]? = some f → f.put = true → s.headOfLine k f = true →
      1 ≤ ptrLevel f.ptr → f.target = some rid → padKeyOf (s.recAt rid) f.srcSite f.ptr = some key → s.headerAt rid key = true →
      let h := s.hdr (.pad key)
      let l := Loc.pad key
      let n := f.bytes.length
      (f.off + n ≤ h.len → h.typ = tDATA → (s.secured f.asid l = true → f.secure = true) →
        (h.poison = false → s.bodyPoisoned l f.off n = false → s.clearOfReds l f.off n = true →
          ∃ t, exec (.putPerformed k) s = .next t ∧ t.net = s.net.eraseIdx k ∧ t.cores = s.cores
            ∧ ∀ a, t.mem.byte a = if key + 32 + f.off ≤ a ∧ a < key + 32 + f.off + n then f.bytes.getD (a - (key + 32 + f.off)) 0
                else s.mem.byte a)
        ∧ (h.poison = true ∨ s.bodyPoisoned l f.off n = true → exec (.putPerformed k) s = .next (s.refused k f 2)))
      ∧ (h.len < f.off + n ∨ h.typ ≠ tDATA ∨ (s.secured f.asid l = true ∧ f.secure = false) →
        exec (.putPerformed k) s = .next (s.refused k f 1)))

/-! KV tables. -/

/-- R364 to R373: `kvlk` answers the result code, the page and the limit of its lookup, and `kvget` a row of the page; an
entry that hits gives the code of R365; without one the lookup goes through the table, or through the miss shadow where the
table names a handler. `kvfill` installs an entry, `kvinv` removes entries and counts them, `kvret` ends the shadow. The
model's choices in it: log entries 61, 62 and 63. -/
def Obligations.KvLookups : Prop :=
  (∀ (d a : BitVec 5) (s t : State), plain d = true → plain a = true → s.feature 3 = true → s.core.inMiss = false →
    t.calm = true →
    let i : Instr := .kvlk d a
    let p := s.src a
    (leads i (kvLookup p 0) s .beyond t →
      exec i s = .next (t.gives d (BitVec.ofNat 64 (2 ^ 61 + p.toNat / 16 % 2 ^ 21 * 2 ^ 40))))
    ∧ (∀ e code, leads i (kvLookup p 0) s (.entry e code) t → exec i s
        = .next (t.gives d (BitVec.ofNat 64 (code * 2 ^ 61 + p.toNat / 16 % 2 ^ 21 * 2 ^ 40 + e.limit.toNat))))
    ∧ (2 ^ 40 ≤ p.toNat → exec i s = .next (s.trapHere Cause.bounds.code p false)))
  ∧ (∀ (d a b : BitVec 5) (s t u v : State) (e : KvtbEntry) (code : Nat) (l : Loc), s.still d = true → v.still d = true →
    plain a = true → plain b = true → s.feature 3 = true → s.core.inMiss = false → isChan s.site = false → v.calm = true →
    let i : Instr := .kvget d a b
    let p := s.src a
    let q := (s.src b).toNat
    leads i (kvLookup p 1) s (.entry e code) t → q < e.rowq.toNat →
    (code = 0 ∨ code = 2 → pagePlace t.asid e.ptr = some l →
      let row := 64 + 128 * e.rowq.toNat * (p.toNat % 16)
      (match l with
        | .pad _ => u = t ∧ v = t
        | .heap asid va => leads i (translateRange asid va 32 false p) t () u
          ∧ leads i (translateRange asid (va + 32 + row) (128 * e.rowq.toNat) false p) u () v) →
      if (v.hdr l).poison || v.bodyPoisoned l row (128 * e.rowq.toNat) then
        exec i s = .next ((v.poisonPage l).trapHere Cause.poison.code p false)
      else ∃ x, exec i s = .next (v.setV d x).retires ∧ x.toNat = ofBytes (v.bodyBytes l (row + 128 * q) 128))
    ∧ (code = 1 → exec i s = .next (t.trapHere Cause.bounds.code p false))
    ∧ (code = 3 → exec i s = .next (t.trapHere Cause.poison.code t.ctx.kvtbase false))
    ∧ (code = 4 → exec i s = .next (t.trapHere Cause.poison.code p false)))
  ∧ (∀ (i : Instr) (p : Word) (kind n : Nat) (s : State), p.toNat < 2 ^ 40 → ptrLevel s.ctx.kvtbase = 0 →
    s.core.kvHit (ptrLoc s.ctx.kvtbase) (p.toNat / 16) s.core.ctxNo = some n →
    let e := s.core.kvtb[n]?.getD {}
    (e.stop = true → leads i (kvLookup p kind) s (.entry e 3) s)
    ∧ (e.stop = false → pagePlace s.asid e.ptr = none ∨ e.limit.toNat ≤ p.toNat % 16 → leads i (kvLookup p kind) s (.entry e 1) s)
    ∧ (e.stop = false → p.toNat % 16 < e.limit.toNat → ∀ k, pagePlace s.asid e.ptr = some (.pad k) →
      (s.hdr (.pad k)).poison = false →
      s.bodyPoisoned (.pad k) (64 + 128 * e.rowq.toNat * (p.toNat % 16)) (128 * e.rowq.toNat) = false →
      leads i (kvLookup p kind) s (.entry e 0) s))
  ∧ (∀ (d a : BitVec 5) (s t : State) (va cap : Nat), plain a = true → s.feature 3 = true → s.core.inMiss = false →
    let i : Instr := .kvlk d a
    let p := s.src a
    p.toNat < 2 ^ 40 → s.core.kvHit (ptrLoc s.ctx.kvtbase) (p.toNat / 16) s.core.ctxNo = none →
    leads i (kvTable false) s (va, cap) t → p.toNat / 16 < cap →
    let entry := t.kvEntry (.heap t.asid va)
    entry ≠ 0xFFFFFFFF → s.core.miss = none → entry + 4 ≤ t.codeLen → t.core.act = s.core.act →
    ∃ u, exec i s = .next u ∧ u.core.miss = some { ctx := s.core.act, pos := p } ∧ (u.core.ctxAt 12).pc = BitVec.ofNat 64 entry
      ∧ (u.core.ctxAt 12).sreg 2 = BitVec.ofNat 64 (p.toNat / 16) ∧ (u.core.ctxAt 12).sreg 3 = p ∧ (u.core.ctxAt 12).sreg 4 = 0
      ∧ u.mem = t.mem)
  ∧ (∀ (d a b : BitVec 5) (s t : State) (va cap : Nat), plain d = true → plain a = true → plain b = true → s.feature 3 = true →
    (s.core.inMiss || s.core.isPriv) = true → t.calm = true →
    let i : Instr := .kvfill d a b
    let n := (s.src b).toNat
    let e := t.kvtbFor va n (s.src a)
    leads i (kvTable false) s (va, cap) t →
    (cap ≤ n → exec i s = .next (t.trapHere Cause.bounds.code (BitVec.ofNat 64 n) false))
    ∧ (n < cap → (e.limit = 0 ∨ ptrLevel (s.src a) = 7 ∨ ∃ l, leads i (kvPageCheck (s.src a) (t.kvRowq (.heap t.asid va))) t l t) →
      ((∀ j, j < 64 → let x : KvtbEntry := t.core.kvtb[j]?.getD {}
          x.valid = false ∨ x.table ≠ e.table ∨ x.page ≠ e.page ∨ x.own ≠ e.own) →
        exec i s = .next ((t.setCore t.site { t.core.putKvtb t.core.kvnext e with kvnext := (t.core.kvnext + 1) % 64 }).gives d
          (BitVec.ofNat 64 t.core.kvnext)))
      ∧ ∀ m, (List.range 64).find? (fun j => let x : KvtbEntry := t.core.kvtb[j]?.getD {}
          x.valid && x.table = e.table && x.page = e.page && x.own = e.own) = some m →
        exec i s = .next ((t.setCore t.site (t.core.putKvtb m e)).gives d (BitVec.ofNat 64 m))))
  ∧ (∀ (d a b : BitVec 5) (s : State), s.feature 3 = true → s.core.inMiss = false → s.core.isPriv = false →
    plain a = true → plain b = true → exec (.kvfill d a b) s = .next (s.trapHere Cause.illegal.code 0 false))
  ∧ (∀ (d a : BitVec 5) (s : State), plain d = true → plain a = true → s.feature 3 = true → s.calm = true →
    let base := s.ctx.kvtbase
    let p := fun (e : KvtbEntry) => decide (ptrLevel base = 0) && decide (e.table.toNat = ptrLoc base / 32)
      && decide (e.page.toNat = (s.src a).toNat)
    exec (.kvinv d a) s = .next ((s.setCore s.site (s.core.kvDrop p)).gives d
      (BitVec.ofNat 64 (s.core.kvtb.toList.filter fun e => e.valid && p e).length))
    ∧ ∃ c, exec (.kvinvAll d) s = .next ((s.setCore s.site c).gives d
        (BitVec.ofNat 64 (s.core.kvtb.toList.filter fun e => e.valid).length))
      ∧ (∀ n, n < 64 → (c.kvtb[n]?.getD {}).valid = false) ∧ c.ctxs = s.core.ctxs)
  ∧ ∀ (a : BitVec 5) (s : State) (m : Miss), plain a = true → s.feature 3 = true → s.core.inMiss = true → s.core.miss = some m →
    (s.src a = 0 → s.calm = true → exec (.kvret a) s = .next (s.setCore s.site { s.core with miss := none }).retires)
    ∧ (s.src a = 1 → exec (.kvret a) s = .next (s.trapHere Cause.translate.code m.pos false))
    ∧ (s.src a ≠ 0 → s.src a ≠ 1 → exec (.kvret a) s = .next (s.trapHere Cause.illegal.code 0 false))

/-- R374 to R376: `kvapp` writes a token at the table's end, into the page that stands there or into a fresh frame, and
`kvapp.link` links a published page; they count the tokens and answer the new end. `kvfree` drops pages and answers the
frames returned, and `kvfree.pub` and `kvfree.pubx` publish the table's whole pages. The model's choices in it: log entries
57, 58 and 59. -/
def Obligations.KvAppendAndFree : Prop :=
  (∀ (d : BitVec 5) (a : BitVec 4) (s t u v w : State) (va cap e : Nat) (bs : List Byte) (own fresh : Bool) (l : Loc),
    plain d = true → s.feature 3 = true → s.core.inMiss = false →
    let i : Instr := .kvapp d a
    leads i (kvTable true) s (va, cap) t →
    let tab := Loc.heap t.asid va
    let row := 128 * t.kvRowq tab
    leads i (kvSource a.toNat row) t bs u → leads i (kvAppendAt va cap) u (tab, e, own) v →
    leads i (kvAppendPage tab e (t.kvRowq tab)) v (l, fresh) w →
    let x := (w.putBody l (64 + row * (e % 16)) bs).kvCount tab own fresh (e / 16) 1
    x.calm = true →
    exec i s = .next ((x.setCore x.site (x.core.kvGrown va e 1 own)).gives d (BitVec.ofNat 64 (e + 1))))
  ∧ (∀ (i : Instr) (s : State) (va cap : Nat), s.accessPending s.site s.core.act = false →
    let t := Loc.heap s.asid va
    let own := s.kvOwns t (s.ctx.lcore.toNat, s.core.ctxNo)
    let e := s.kvEnd t own
    (s.kvStopped t = true → traps i (kvAppendAt va cap) s .poison s.ctx.kvtbase s)
    ∧ (s.kvStopped t = false → s.kvOpen t = true → own = false → traps i (kvAppendAt va cap) s .type s.ctx.kvtbase s)
    ∧ (s.kvStopped t = false → (s.kvOpen t = true → own = true) → cap ≤ e / 16 →
      traps i (kvAppendAt va cap) s .bounds (BitVec.ofNat 64 e) s)
    ∧ (s.kvStopped t = false → (s.kvOpen t = true → own = true) → e / 16 < cap →
      leads i (kvAppendAt va cap) s (t, e, own) s))
  ∧ (∀ (i : Instr) (s : State) (t : Loc) (e rowq : Nat), ptrLevel (s.kvPage t (e / 16)) = 7 →
    let vf := s.ownRec.l.vf
    (Config.kvQuota vf ≤ (s.vfAt vf).kvUsed → traps i (kvAppendPage t e rowq) s .quota 1 s)
    ∧ ((s.vfAt vf).kvUsed < Config.kvQuota vf → poolFrames ≤ s.kvFrames.length → traps i (kvAppendPage t e rowq) s .quota 2 s)
    ∧ ((s.vfAt vf).kvUsed < Config.kvQuota vf → s.kvFrames.length < poolFrames →
      let f := (s.takeFrame vf rowq).2
      leads i (kvAppendPage t e rowq) s (.pad (kvFrameKey f), true) ((s.takeFrame vf rowq).1.setKvPage t (e / 16) (framePtr f))))
  ∧ (∀ (d : BitVec 5) (a : BitVec 4) (s t u v : State) (va cap e : Nat) (own : Bool) (l : Loc), plain d = true →
    s.feature 3 = true → s.core.inMiss = false →
    let i : Instr := .kvappLink d a
    let q := (t.ctx.areg a.toNat).ptr
    leads i (kvTable true) s (va, cap) t →
    let tab := Loc.heap t.asid va
    ptrLevel q ≠ 7 → leads i (kvPageCheck q (t.kvRowq tab)) t l u → u.pagePub l = true →
    leads i (kvAppendAt va cap) u (tab, e, own) v →
    (e % 16 ≠ 0 → exec i s = .next (v.trapHere Cause.illegal.code (BitVec.ofNat 64 e) false))
    ∧ (e % 16 = 0 → poolPtr q = true → v.pageRefs l = 4096 → exec i s = .next (v.trapHere Cause.quota.code 3 false))
    ∧ (e % 16 = 0 → (poolPtr q = true → v.pageRefs l ≠ 4096) →
      let y := if poolPtr q then v.setBodyField l 0 32 13 (v.pageRefs l + 1) else v
      let x := (y.setKvPage tab (e / 16) q).kvCount tab own true (e / 16) 16
      x.calm = true →
      exec i s = .next ((x.setCore x.site (x.core.kvGrown va e 16 own)).gives d (BitVec.ofNat 64 (e + 16)))))
  ∧ (∀ (d a : BitVec 5) (s t : State) (va cap : Nat), plain d = true → plain a = true → s.feature 3 = true →
    s.core.inMiss = false →
    let i : Instr := .kvfree d a
    let f := (s.src a).toNat
    leads i (kvTable true) s (va, cap) t →
    let tab := Loc.heap t.asid va
    (t.kvOpen tab = true → exec i s = .next (t.trapHere Cause.illegal.code t.ctx.kvtbase false))
    ∧ (t.kvOpen tab = false → cap < f → exec i s = .next (t.trapHere Cause.bounds.code (s.src a) false))
    ∧ (t.kvOpen tab = false → f ≤ cap →
      let u := (t.dropPages tab f cap).1
      let fs := (t.dropPages tab f cap).2
      let v := u.setBodyField tab 0 0 40 (Nat.min (u.kvNtok tab) (16 * f))
      let w := (v.shootTable v.asid va fun e => decide (f ≤ e.page.toNat)).shootFrames fs
      w.calm = true → exec i s = .next (w.gives d (BitVec.ofNat 64 fs.length))))
  ∧ ∀ (d a : BitVec 5) (x : Bool) (s t : State) (va cap : Nat), plain d = true → plain a = true → s.feature 3 = true →
    s.core.inMiss = false → (x = true → (s.core.isPriv && s.feature 12) = true) →
    let i : Instr := if x then .kvfreePubx d a else .kvfreePub d a
    let f := (s.src a).toNat
    leads i (kvTable false) s (va, cap) t →
    let tab := Loc.heap t.asid va
    let full := ((List.range (t.kvNtok tab / 16 - f)).map fun n => f + n).filter fun j => decide (ptrLevel (t.kvPage tab j) ≠ 7)
    t.kvOpen tab = false →
    (∀ j, full.find? (fun j => !poolPtr (t.kvPage tab j)) = some j →
      exec i s = .next (t.trapHere Cause.type.code (BitVec.ofNat 64 j) false))
    ∧ ((∀ j ∈ full, poolPtr (t.kvPage tab j) = true) →
      let u := full.foldl (fun (u : State) j =>
        let l := Loc.pad (kvFrameKey (frameOf (t.kvPage tab j)))
        let v := (u.setBodyField l 0 0 1 1).setBodyField l 0 1 1 1
        if x then v.setBodyField l 0 2 1 1 else v) t
      u.calm = true → exec i s = .next (u.gives d (BitVec.ofNat 64 full.length)))

/-- R378 to R380: `kvspec` opens a window for the executing context and answers its number; `kvcommit` closes it with the
tokens it keeps, and `kvabort` with none; `rsver` writes a version of the recurrent state and answers its slot. The model's
choices in it: log entries 58, 61 (the record kept beside the owner of a window) and 64. -/
def Obligations.KvWindows : Prop :=
  (∀ (d : BitVec 5) (s t u : State) (va cap : Nat), plain d = true → s.feature 3 = true → s.feature 4 = true →
    s.core.inMiss = false →
    let i : Instr := .kvspec d
    leads i (kvTable true) s (va, cap) t →
    let tab := Loc.heap t.asid va
    (t.kvStopped tab = true → exec i s = .next (t.trapHere Cause.poison.code t.ctx.kvtbase false))
    ∧ (t.kvStopped tab = false → t.kvOpen tab = true → exec i s = .next (t.trapHere Cause.illegal.code t.ctx.kvtbase false))
    ∧ (t.kvStopped tab = false → t.kvOpen tab = false →
      (if ptrLevel (t.kvRst tab) = 0 then leads i (translateRange t.asid (ptrLoc (t.kvRst tab)) 160 true (t.kvRst tab)) t () u
        else u = t) →
      let me := (u.ctx.lcore.toNat, u.core.ctxNo)
      let wid := (u.kvWid tab + 1) % 2 ^ 16
      let v := (((((u.setBodyField tab 0 62 1 1).setBodyField tab 0 40 16 wid).setBodyField tab 8 51 13 me.1).setBodyField
        tab 8 47 4 me.2).setBodyField tab 8 0 40 0).setBodyField tab 0x10 0 21 noPage
      let w := match v.kvRstLoc v.asid tab with
        | some r => (((v.setBodyField r 0 51 13 me.1).setBodyField r 0 47 4 me.2).setBodyField r 0 31 16 wid).setBodyField r 0 30 1 1
        | none => v
      let x : State := { w with kvTabs := w.kvTabs.map fun (k : KvTab) =>
        if k.asid = w.asid ∧ k.va = va then { k with rid := w.core.recId, owner := some me } else k }
      x.calm = true → exec i s = .next (x.gives d (BitVec.ofNat 64 wid))))
  ∧ (∀ (d a : BitVec 5) (commit : Bool) (s t u v : State) (va cap frame : Nat), plain d = true → plain a = true →
    s.feature 3 = true → s.core.inMiss = false →
    let i : Instr := if commit then .kvcommit d a else .kvabort d
    let n : Word := if commit then s.src a else 0
    leads i (kvTable true) s (va, cap) t → t.accessPending t.site t.core.act = false →
    let tab := Loc.heap t.asid va
    let rst := t.kvRst tab
    (if ptrLevel rst = 0 then leads i (translate t.asid (ptrLoc rst) true rst) t frame u
        ∧ leads i (translateRange t.asid (ptrLoc rst) 160 true rst) u () v else v = t) →
    let own := v.kvOwns tab (v.ctx.lcore.toNat, v.core.ctxNo)
    (own = false → exec i s = .next (v.trapHere Cause.illegal.code t.ctx.kvtbase false))
    ∧ (own = true → v.kvWtok tab < n.toNat → exec i s = .next (v.trapHere Cause.bounds.code n false))
    ∧ (own = true → n.toNat ≤ v.kvWtok tab →
      let w := v.closeWindow v.asid va n.toNat
      w.calm = true → exec i s = .next ((w.setCore w.site (w.core.dropOwn va)).gives d (BitVec.ofNat 64 (v.kvNtok tab + n.toNat)))))
  ∧ (∀ (d : BitVec 5) (a b : BitVec 4) (s t u v w x : State) (va cap : Nat) (canon : Word) (r : Loc) (bs : List Byte),
    plain d = true →
    s.feature 3 = true → s.core.inMiss = false →
    let i : Instr := .rsver d a b
    let p := (t.ctx.areg a.toNat).ptr
    leads i (kvTable false) s (va, cap) t →
    let tab := Loc.heap t.asid va
    let rst := t.kvRst tab
    ptrLevel rst = 0 → ptrLevel p ≤ 3 → leads i (named p) t (canon, r) u →
    ptrLevel canon = 0 → ptrLoc canon = ptrLoc rst → leads i (readHeader p canon r) u () v →
    let n := (v.hdr r).len
    let sb := versionBytes n
    (v.hdr r).typ = tRSTATE → 32 ≤ sb → sb % 32 = 0 → n = 128 + 8 * sb →
    leads i (translateRange t.asid (ptrLoc canon) (32 + n) true p) v () w → leads i (kvSource b.toNat sb) w bs x →
    x.accessPending x.site x.core.act = false →
    let own := x.kvOwns tab (x.ctx.lcore.toNat, x.core.ctxNo)
    (x.kvOpen tab = true → own = false → exec i s = .next (x.trapHere Cause.type.code t.ctx.kvtbase false))
    ∧ ((x.kvOpen tab = true → own = true) →
      (x.versionSlot r own (x.kvEnd tab own) = none → exec i s = .next (x.trapHere Cause.quota.code 4 false))
      ∧ ∀ j, x.versionSlot r own (x.kvEnd tab own) = some j →
        let y := (State.putBody { x with free := x.free + 1 } r (128 + j * sb) bs).setTag r j true own (x.kvEnd tab own)
        let z := if own then y
          else State.setCommitted (if y.rsValid r then y.setBodyField r (0x40 + 8 * y.rsCur r) 63 1 0 else y) r j (x.kvEnd tab own)
        z.pathCopies canon r r = [] → z.calm = true → exec i s = .next (z.gives d (BitVec.ofNat 64 j))))
  ∧ ∀ (s : State) (r : Loc) (own : Bool) (p j : Nat), s.versionSlot r own p = some j →
    j < 8 ∧ (own = false → rsUsed (s.rsTag r j) = false ∧ j ≠ s.rsCur r)
      ∧ (own = true → rsUsed (s.rsTag r j) = false ∨ (rsSpec (s.rsTag r j) = true ∧ rsPos (s.rsTag r j) = p))

/-! System. -/

/-- R398: `tret`, `ckpt` and `rstor` outside the trap shadow raise PRIV with value 0 and change nothing; in the miss shadow
they and `halt`, `wfi`, `trap`, `brk` and `xinv` raise ILLEGAL, for the context that the shadow serves; a fault, SYSCALL or
BREAK of an instruction of the trap shadow is a double fault. The model's choices in it: log entry 22. -/
def Obligations.SystemInstructionModes : Prop :=
  (∀ (d a : BitVec 5) (s : State), s.core.inTrap = false → s.core.inMiss = false →
    ∀ i ∈ [Instr.tret, .ckpt d a, .rstor d], exec i s = .next (s.trapHere Cause.priv.code 0 false))
  ∧ (∀ (d a b h l : BitVec 5) (s : State), s.core.inMiss = true →
    ∀ i ∈ [Instr.tret, .ckpt d a, .rstor d, .halt, .wfi, .trap h l, .brk h l, .xinv d a b],
      exec i s = .next (s.trapHere Cause.illegal.code 0 false))
  ∧ (∀ (s : State) (code : BitVec 8) (v : Word) (async : Bool), s.core.inTrap = true →
    s.trapHere code v async = State.doubleFault { s with tx := {} } s.site code v)
  ∧ ∀ (h l : BitVec 5) (s : State), s.core.inTrap = true →
    exec (.trap h l) s = .next (s.retires.doubleFault s.site Cause.syscall.code (BitVec.ofNat 64 (32 * h.toNat + l.toNat)))
    ∧ exec (.brk h l) s = .next (State.doubleFault { s with tx := {} } s.site Cause.brk.code (BitVec.ofNat 64 (32 * h.toNat + l.toNat)))

/-- R389 to R392: taking a trap outside the trap shadow saves the cause, the value, the pc and the flags, writes the
registers of the context of the cause to the frame, clears IE and enters the trap shadow at body offset 0 of the resident
handler; no other context, core or byte of memory beside the frame and the headers of the reserved area changes, where
nothing waits in line. R400, R418: `tret` in the trap shadow takes `s1` to `s27` of the trapped context from the frame and
its pc from `trappc`, and ends the shadow with IE as the handler leaves it; the other contexts keep their own pc, and memory
stays. A double fault overwrites the cause and the value, keeps `trappc`, ends the core's part of the record with them, and
is reported to management. The model's choices in it: log entry 75. -/
def Obligations.TrapsAndReturns : Prop :=
  (
    ∀ (s : State) (site x : Nat) (code : BitVec 8) (val pc : Word) (async pfx : Bool), (s.coreAt site).tshadow = false → x ≤ 10 →
      let t := s.enterTrap site x code val pc async pfx
      let c := s.coreAt site
      let u := t.coreAt site
      u.trapcause = code ∧ u.trapval = val ∧ u.trappc = pc ∧ u.ie = false ∧ u.tshadow = true ∧ u.act = 11 ∧ u.inTrap = true
        ∧ u.isPriv = true ∧ u.miss = none
        ∧ bitsOf (u.trapflags.setWidth 64) 4 4 = x ∧ u.trapflags.getLsbD 2 = c.tuft ∧ u.trapflags.getLsbD 1 = async
        ∧ u.trapflags.getLsbD 0 = pfx ∧ u.trapflags.getLsbD 3 = false
        ∧ (u.ctxAt 11).pc = 0 ∧ (u.ctxAt 11).st = .ready ∧ (u.ctxAt 11).codeptr = (c.ctxAt 11).codeptr
        ∧ (u.ctxAt 11).srctr = 0 ∧ (u.ctxAt 11).s = (c.ctxAt 11).s ∧ (u.ctxAt 11).a = (c.ctxAt 11).a
        ∧ (u.ctxAt 11).jobseed = (c.ctxAt 0).jobseed ∧ (u.ctxAt 11).lcore = (c.ctxAt 0).lcore
        ∧ u.ctxAt x = { c.ctxAt x with pfx := .none } ∧ (∀ n, n ≠ x → n ≠ 11 → u.ctxAt n = c.ctxAt n)
        ∧ (∀ n, n ≠ site → t.coreAt n = s.coreAt n) ∧ t.recs = s.recs ∧ t.site = s.site
        ∧ (∀ n, n < 32 → t.mem.word (frameKey site + 8 * n) = if n < 28 then (c.ctxAt x).sreg n else 0)
        ∧ ((∀ w ∈ s.waitq, w.site ≠ site) → ∀ a,
          (a < handlerKey site ∨ handlerKey site + 32 ≤ a) → (a < corePadKey site + 0x3C020 ∨ frameKey site + 256 ≤ a) →
          t.mem.byte a = s.mem.byte a))
  ∧ (
    (∀ (s : State), s.core.inTrap = true →
      let c := s.core
      let x := c.trapflags.toNat / 16
      ∃ t, exec .tret s = .next t ∧ t.core.tshadow = false ∧ t.core.act = x ∧ t.core.ie = c.ie ∧ t.mem = s.mem ∧ t.recs = s.recs
        ∧ (x ≤ 10 → (t.core.ctxAt x).pc = c.trappc ∧ (t.core.ctxAt x).pfx = .none
          ∧ (∀ n, 1 ≤ n → n < 28 → (t.core.ctxAt x).sreg n = s.mem.word (frameKey s.site + 8 * n))
          ∧ (t.core.ctxAt x).a = (c.ctxAt x).a ∧ (t.core.ctxAt x).p = (c.ctxAt x).p ∧ (t.core.ctxAt x).priv = (c.ctxAt x).priv)
        ∧ (∀ n, n ≠ x → n ≠ 11 → t.core.ctxAt n = c.ctxAt n)
        ∧ (x ≠ 11 → t.core.ctxAt 11 = { c.ctxAt 11 with instret := (c.ctxAt 11).instret + 1 })
        ∧ t.core.trapcause = c.trapcause ∧ t.core.trapval = c.trapval ∧ t.core.trappc = c.trappc ∧ t.core.trapflags = c.trapflags
        ∧ t.core.v = c.v ∧ t.core.acc = c.acc ∧ t.core.w = c.w ∧ t.core.k = c.k ∧ ∀ n, n ≠ s.site → t.coreAt n = s.coreAt n)
    ∧ (∀ (s : State) (site rid : Nat) (code : BitVec 8) (v : Word), (s.coreAt site).recId = some rid →
      let t := s.doubleFault site code v
      let c := t.coreAt site
      let lc := ((s.coreAt site).ctxAt 0).lcore.toNat
      c.trapcause = code ∧ c.trapval = v ∧ c.trappc = (s.coreAt site).trappc ∧ c.halted = true ∧ c.tshadow = false
        ∧ c.wmb = [] ∧ c.copies = [] ∧ (∀ n, n ≤ 10 → (c.ctxAt n).st = .free)
        ∧ lc ∈ (t.recAt rid).ended ∧ (t.recAt rid).endFault = some ((s.recAt rid).endFault.getD (code, v)))
    ∧ ∀ (s : State) (site : Nat) (code : BitVec 8) (v : Word), s.log.length < 16384 → s.phase = .ready →
      ∃ l, (s.doubleFault site code v).log = l ++ [{ cycle := s.cycle.toNat, cls := 4, kind := 0, unit := site
                                                     d0 := code.setWidth 64, d1 := v }])

/-- R396, R399, R401 to R404, R413: `trap` completes and then enters its trap, with `trappc` after it, and `brk` enters its
trap with `trappc` at it; `halt` ends the core's part of its record; `wfi` waits until a cause is pending, a message is
there or a word stands on the bound line; `xinv` writes a request into the ring of its VF (R426) and waits for its reply. While `dbgctl.STEP` is
1, an instruction that retires leaves a STEP with its own address pending, which the next boundary takes in its order (R396). The model's choices in it: log entry 69. -/
def Obligations.SystemInstructions : Prop :=
  (∀ (h l : BitVec 5) (s : State), s.core.inTrap = false → s.core.inMiss = false →
    let v := BitVec.ofNat 64 (32 * h.toNat + l.toNat)
    exec (.trap h l) s = .next (s.retires.enterTrap s.site s.core.act Cause.syscall.code v s.retires.ctx.pc false false)
    ∧ exec (.brk h l) s = .next (State.enterTrap { s with tx := {} } s.site s.core.act Cause.brk.code v s.ctx.faultPc false
        (decide (s.ctx.pfx ≠ .none))))
  ∧ (∀ (s : State), s.core.inTrap = true →
    exec .halt s = .next { s.endCore s.site (some (s.core.trapcause, s.core.trapval)) with tx := {} })
  ∧ (∀ (s : State), s.core.inTrap = false → s.core.inMiss = false →
    (s.core.ctxNo ≠ 0 → exec .halt s = .next (s.trapHere Cause.illegal.code 0 false))
    ∧ (s.core.ctxNo = 0 → (∀ f ∈ s.core.faults, f.ctx ≠ s.core.act) →
      (∃ n, 1 ≤ n ∧ n ≤ 10 ∧ ((s.core.ctxAt n).st = .ready ∨ (s.core.ctxAt n).st = .waiting)) →
      exec .halt s = .next (s.waits (s.starts .halt).tx))
    ∧ (s.core.ctxNo = 0 → (∀ f ∈ s.core.faults, f.ctx ≠ s.core.act) →
      (∀ n, 1 ≤ n → n ≤ 10 → (s.core.ctxAt n).st ≠ .ready ∧ (s.core.ctxAt n).st ≠ .waiting) →
      let s1 := s.setCore s.site ((List.range 10).foldl (fun (c : Core) n => c.setCtx (n + 1) { c.ctxAt (n + 1) with st := .free }) s.core)
      let s2 := s1.kvAbortCtx s1.site 0
      let dropped := s2.core.wmb.filter fun m => m.fault.isSome
      let s3 := dropped.foldl State.dropCmd s2
      let s4 := s3.setCore s3.site { s3.core with
        wmb := s3.core.wmb.filter fun m => m.fault.isNone
        faults := s3.core.faults.filter fun f => !(dropped.any fun m => decide (m.num = f.num)) }
      s4.core.wmb = [] → s4.core.copies = [] → (∀ p ∈ s4.posts, p.site ≠ s4.site) →
      let s5 := (s4.core.streams.toList.filter (·.bound)).foldl (fun (t : State) x => t.erefDown x.loc) s4
      let s6 := s5.setCore s5.site { s5.core with owed := [], faults := [], halted := true
                                                  streams := s5.core.streams.map fun x => { x with bound := false, run := false, buf := [] } }
      ∀ rid, s6.core.recId = some rid →
        let r := (s6.recAt rid).freeMutexes fun h => decide (h.1 = s6.ctx.lcore.toNat)
        exec .halt s = .next { s6.setRec rid { r with ended := insertKey s6.ctx.lcore.toNat (s6.recAt rid).ended } with tx := {} }))
  ∧ (∀ (s : State), s.core.inMiss = false →
    let word := !isChan s.site
      && !(s.ownRec.wordsFor (clusterOf s.site) (bitsOf s.ctx.portbind 22 5)).isEmpty
    let go := s.causePending s.core || !s.core.rx.isEmpty || word
    (go = true → s.calm = true → exec .wfi s = .next s.retires)
    ∧ (go = false → exec .wfi s = .next (s.waits (s.starts .wfi).tx)))
  ∧ (∀ (d a b : BitVec 5) (s : State), plain d = true → plain a = true → plain b = true → s.core.inMiss = false → s.calm = true →
    let i : Instr := .xinv d a b
    (∀ n r, s.ctx.xinv = some n → s.ctx.xreply = some r → s.core.act < 13 →
      exec i s = .next ((s.setCtx { s.ctx with xinv := none, xreply := none }).gives d r))
    ∧ (∀ n, s.ctx.xinv = some n → s.ctx.xreply = none → exec i s = .next (s.waits (s.starts i).tx))
    ∧ (s.ctx.xinv = none → s.fencePending 5 s.site s.core.act = false →
      (s.feature 9 = false → exec i s = .next (s.gives d (BitVec.allOnes 64)))
      ∧ (s.feature 9 = true →
        let vf := s.ownRec.l.vf
        let v := s.vfAt vf
        (s.ringRoom true vf = none → exec i s = .next (s.waits (s.starts i).tx))
        ∧ ∀ at_ size, s.ring true vf = some (at_, size) → ringFull v.reqTail v.reqHead size = false →
          let entry := (requestWords (s.src a) (s.src b) s.ctx.lcore.toNat s.core.ctxNo s.asid (v.seq + 1)).map fun w => leBytes w.toNat 8
          let t := State.setVf { s with hostMem := s.hostMem.setBytes (at_ + 32 * (v.reqTail.toNat % size)) entry.flatten } vf
            { v with seq := v.seq + 1, reqTail := v.reqTail + 1 }
          s.core.act < 13 → exec i s = .next ((t.setCtx { s.ctx with xinv := some (v.seq + 1) }).waits {}))))
  ∧ ∀ e ∈ aluOps, ∀ (d a b : BitVec 5) (s : State), plain d = true → plain a = true → plain b = true →
    s.core.dbgctl.getLsbD 0 = true → s.core.act ≤ 10 → s.core.halted = false →
    let t := s.gives d (e.2 (s.src a) (s.src b))
    let p : Pending := { code := Cause.step.code, val := s.ctx.faultPc, pc := s.ctx.pc + 4, ctx := s.core.act, work := none }
    exec (e.1 d a b) s = .next (t.setCore t.site { t.core with pending := t.core.pending ++ [p] })

/-- R408 to R411: `ckpt` writes the coded image of the core into its save object, with the object's next version, and
answers its length, or vacates the core; a failure is answered as a word. `rstor` brings the core back from an image that
reads as the save object's, and answers 0, or answers what is wrong with it. Coded granules read back as the bytes. The
model's choices in it: log entries 14, 65 and 66. -/
def Obligations.CheckpointAndRestore : Prop :=
  (∀ (d a : BitVec 5) (s t : State) (rid : Nat) (l : Loc) (off size : Nat), plain d = true → plain a = true →
    s.core.inTrap = true → s.core.recId = some rid → s.saveObject = some (l, off, size) → s.padBusy s.site rid = false →
    let i : Instr := .ckpt d a
    let lc := (s.core.ctxAt 0).lcore.toNat
    let r := s.recAt rid
    let ss := s.sections r lc s.site s.free
    let bs := imageBytes lc (s.core.ctxAt 0).ctxtag.toNat r.l.seed.toNat ss
    bs.length ≤ size → (s.src a = 0 ∨ r.ctxbuf lc = none → leads i (savePages l off bs.length true) s () t) →
    off + size ≤ (t.hdr l).len →
    (t.hdr l).poison = false → t.bodyPoisoned l off bs.length = false →
    (∀ asid va, l = .heap asid va → t.acrossDead t.asid (va + 32 + off) bs.length = false) → (∃ asid va, l = .heap asid va) →
    let s1 := State.putBody { t with free := t.free + ss.length } l off bs
    let s2 := s1.setHdr l { s1.hdr l with w1 := BitVec.ofNat 64 (((s1.hdr l).version + 1) % 2 ^ 32 + 4 * 2 ^ 32) }
    let s3 := s2.setRec rid { s2.recAt rid with lastCkpt := some ((ss.map fun x => x.raw.length).sum, bs.length) }
    (s.src a = 0 →
      let img := { s3.saveImage s3.site (s3.framed s3.site) false with areas := areaRaws ss }
      let s4 := s3.setCore s3.site s3.core.engineStop
      let s5 := s4.setRec rid { s4.recAt rid with images := store lc { img with core := { img.core with rx := [] } } (s4.recAt rid).images }
      s5.calm = true → exec i s = .next (s5.gives d (BitVec.ofNat 64 bs.length)))
    ∧ (s.src a = 1 → r.ctxbuf lc = none →
      let img := { s3.saveImage s3.site (s3.framed s3.site) false with areas := areaRaws ss }
      exec i s = .next { s3.vacate s3.site rid lc img with tx := {} })
    ∧ ∀ b t', s.src a = 1 → r.ctxbuf lc = some b → leads i (savePages l off bs.length true) s () t' →
      leads i (bufPages b) t' () t →
      let s4 := s3.spill s3.site rid lc
      let img := { s4.saveImage s4.site (s4.framed s4.site) false with areas := areaRaws ss }
      exec i s = .next { s4.vacate s4.site rid lc img with tx := {} })
  ∧ (∀ (d a : BitVec 5) (s : State), plain d = true → plain a = true → s.core.inTrap = true → s.calm = true →
    ((s.src a).toNat < 2 → s.core.recId = none ∨ s.saveObject = none →
      exec (.ckpt d a) s = .next (s.gives d (BitVec.ofNat 64 (failWord 1 0))))
    ∧ (2 ≤ (s.src a).toNat → exec (.ckpt d a) s = .next (s.trapHere Cause.illegal.code (s.src a) false)))
  ∧ (∀ (d : BitVec 5) (s t u : State) (rid : Nat) (l : Loc) (off size : Nat) (img : Image), plain d = true → s.core.inTrap = true →
    s.core.recId = some rid → s.saveObject = some (l, off, size) →
    let i : Instr := .rstor d
    let lc := (s.core.ctxAt 0).lcore.toNat
    (find lc (s.recAt rid).images = none → s.calm = true → exec i s = .next (s.gives d (BitVec.ofNat 64 (failWord 1 0))))
    ∧ (find lc (s.recAt rid).images = some img → leads i (savePages l off (Nat.min 64 size) false) s () t →
      let n := imageSpan (t.bodyBytes l off (Nat.min 64 size)) size
      leads i (savePages l off n false) t () u →
      ((u.hdr l).poison = true ∨ u.bodyPoisoned l off n = true → u.calm = true →
        exec i s = .next (u.gives d (BitVec.ofNat 64 (failWord 4 0))))
      ∧ ((u.hdr l).poison = false → u.bodyPoisoned l off n = false →
        (∀ w, readImage (u.bodyBytes l off n) lc (u.recAt rid).l.seed.toNat = .error w → u.calm = true →
          exec i s = .next (u.gives d (BitVec.ofNat 64 w)))
        ∧ ∀ ss, readImage (u.bodyBytes l off n) lc (u.recAt rid).l.seed.toNat = .ok ss →
          (u.restoreImage u.site rid lc img ss).calm = true →
          exec i s = .next ((u.restoreImage u.site rid lc img ss).gives d 0))))
  ∧ (∀ (s : State) (site rid lc : Nat) (img : Image) (ss : List ImgSec) (kind : Nat) (a : Area) (x : ImgSec),
    ss.find? (fun y => decide (y.kind = kind)) = some x →
    (find kind img.areas = some x.raw → s.restoreArea img ss kind (some a) = s)
    ∧ (find kind img.areas ≠ some x.raw →
      let t := s.restoreArea img ss kind (some a)
      t.cores = s.cores ∧ t.recs = s.recs
        ∧ (∀ n, n < a.size → t.mem.byte (a.base + n) = x.pad.byte n)
        ∧ ∀ k, (k < a.base ∨ a.base + a.size ≤ k) → t.mem.byte k = s.mem.byte k)
    ∧ s.restoreImage site rid lc img ss = (State.restoreArea (s.restoreCore site rid lc img (sectionOf ss 3).pad) img ss 4
        ((s.recAt rid).carea (clusterOf site))).restoreArea img ss 5 ((s.recAt rid).darea (dieOf site)))
  ∧ (∀ (s : State) (site rid lc : Nat) (img : Image) (pad : Mem),
    let t := s.restoreCore site rid lc img pad
    let c := t.coreAt site
    (∀ n, n ≤ 10 → c.ctxAt n = { img.core.ctxAt n with
        fence := (img.core.ctxAt n).fence ||| ((s.coreAt site).ctxAt n).fence
        misses := (img.core.ctxAt n).misses + ((s.coreAt site).ctxAt n).misses })
      ∧ c.rx = img.core.rx ++ (s.coreAt site).rx ∧ c.v = img.core.v ∧ c.acc = img.core.acc ∧ c.w = img.core.w ∧ c.k = img.core.k
      ∧ c.dt = img.core.dt ∧ c.wmb = img.core.wmb.map (Cmd.resumed s.olds.length) ∧ c.copies = img.core.copies.map (Cmd.resumed s.olds.length)
      ∧ c.trappc = img.core.trappc
      ∧ c.trapflags = img.core.trapflags ∧ c.recId = some rid ∧ c.ie = (s.coreAt site).ie ∧ c.dbgctl = (s.coreAt site).dbgctl
      ∧ (∀ n, n < 64 → (c.kvtb[n]?.getD {}).valid = false) ∧ lc ∉ (t.recAt rid).vacated)
  ∧ ∀ (raw : List Byte) (at_ : Nat),
    decodeBytes (ceilDiv raw.length 64) at_ (codeBytes raw)
      = .ok (raw ++ List.replicate (64 * ceilDiv raw.length 64 - raw.length) 0, [])

/-! What interrupts a core, and the switching of records. -/

/-- R391, R394 to R397, R413, R414: the causes that are due at a core stand in the order in which they are taken, and with
IE 0 only CORNICE, PREEMPT and STEP are among them. The first one is taken at the boundary, the others stay pending; a core
that is in the trap shadow, halted or without a record takes none. TIMER, ENGINE, PREEMPT, DEBUG and CORNICE arise under
their conditions and change nothing otherwise; an interrupt of a Tuft arises at every member (R111). The model's choices in it: log entry 71. -/
def Obligations.AsynchronousCauses : Prop :=
  (∀ (s : State) (c : Core), (s.dueCauses c).Pairwise fun p q => p.rank ≤ q.rank)
  ∧ (∀ (s : State) (c : Core) (p : Pending), c.ie = false → p ∈ s.dueCauses c → p.rank ≤ 1 ∨ p.rank = 5)
  ∧ (∀ (s : State) (site : Nat) (p : Pending) (rest : List Pending), (s.coreAt site).interruptible = true →
    s.dueCauses (s.coreAt site) = p :: rest → (∀ n, n ≤ 10 → ((s.coreAt site).ctxAt n).st ≠ .waiting) →
    let c := s.coreAt site
    let q := (c.stepOrEngine p).1
    s.takeDue site = (s.setCore site (c.takeCause p q rest)).enterTrap site q.ctx q.code q.val q.pc
      (c.stepOrEngine p).2 false)
  ∧ (∀ (s : State) (site : Nat), (s.coreAt site).interruptible = false ∨ s.dueCauses (s.coreAt site) = [] → s.takeDue site = s)
  ∧ (∀ (core : Nat) (s : State),
    let c := s.coreAt core
    let met := decide (c.timercmp.toNat ≤ s.cycle.toNat)
    (c.interruptible = true → c.ie = true → met = true → exec (.timer core) s = .next (s.takeDue core))
    ∧ ((c.interruptible && c.ie && met) = false → exec (.timer core) s = .next s)
    ∧ (c.interruptible = true → c.ie = true → met = true → c.raised = [] → c.pending = [] → c.faults = [] →
      (∀ n, n ≤ 10 → (c.ctxAt n).st ≠ .waiting) →
      exec (.timer core) s = .next ((s.setCore core c).enterTrap core c.nextReady Cause.timer.code s.cycle (c.ctxAt c.nextReady).pc true false))
    ∧ (c.interruptible = true → c.ie = true → (s.staleFault c).isSome = true →
      exec (.engineReportTimeout core) s = .next (s.takeDue core))
    ∧ ((c.interruptible && c.ie && (s.staleFault c).isSome) = false → exec (.engineReportTimeout core) s = .next s)
    ∧ ∀ f, s.staleFault c = some f → f ∈ c.faults ∧ f.at_ + 65536 ≤ s.cycle.toNat)
  ∧ (∀ (core rid : Nat) (s : State), (s.coreAt core).recId = some rid → (s.coreAt core).halted = false →
    (s.preemptible (s.recAt rid) = true →
      exec (.interruptPreempt core) s = .next (s.preempt core)
      ∧ ((s.coreAt core).tuft = false → (Cause.interrupt.code, 1) ∉ (s.coreAt core).raised →
        s.preempt core = s.raiseAt core Cause.interrupt.code 1))
    ∧ (s.preemptible (s.recAt rid) = false → exec (.interruptPreempt core) s = .next s)
    ∧ (∀ req : BitVec 32,
      (s.accepted (s.recAt rid).l.vf 13 = true → exec (.interruptDebug core req) s
        = .next (s.raiseAll core Cause.interrupt.code (BitVec.ofNat 64 (req.toNat * 2 ^ 32 + 3))))
      ∧ (s.accepted (s.recAt rid).l.vf 13 = false → exec (.interruptDebug core req) s = .next s))
    ∧ (∀ d x, d ∈ s.deadlines → x ∈ d.queues → rid ∈ x.recs → x.outcome = .checkpoint → x.vacant = none →
      (∀ e ∈ s.deadlines, ∀ y ∈ e.queues, rid ∈ y.recs → y.outcome = .checkpoint → y.vacant = none → d.at_ ≤ e.at_) →
      (∀ r ∈ (s.coreAt core).raised, r.1 ≠ Cause.cornice.code) → (s.coreAt core).tshadow = false →
      exec (.corniceTrap core) s = .next (s.raiseAll core Cause.cornice.code (BitVec.ofNat 64 (d.at_ - 35000))))
    ∧ ((∀ d ∈ s.deadlines, ∀ x ∈ d.queues, x.outcome = .checkpoint → x.vacant = none → rid ∉ x.recs) →
      exec (.corniceTrap core) s = .next s))
  ∧ (∀ (core : Nat) (code : BitVec 8) (v : Word) (s : State),
    ((s.coreAt core).tuft = false → s.raiseAll core code v = s.raiseAt core code v)
    ∧ ((s.coreAt core).tuft = true → s.raiseAll core code v = (s.tuftOf core).foldl (fun (t : State) n => t.raiseAt n code v) s))
  ∧ ∀ (core : Nat) (s : State), (s.coreAt core).recId = none ∨ (s.coreAt core).halted = true →
    ∀ i ∈ [Instr.interruptPreempt core, .interruptDebug core 0, .corniceTrap core, .timer core, .engineReportTimeout core],
      exec i s = .next s

/-- R217, R394, R411, R412, R428: at a device-level boundary, with nothing of the record in flight, a record that is to be
switched out has every core saved by the hardware, once the pages of its CTXBUFs are mapped and no Cornice stop of it is due; when no boundary comes within 14,000 cycles its cores are preempted
instead. A vacated core is brought back on a free core of its place: from its image where the hardware saved it, else by a
trap with source 2, in context 0 of the given logical core. A switched-out record is moved to a place that keeps its
companions. The model's choices in it: log entries 67 and 68. -/
def Obligations.SwitchingRecords : Prop :=
  (∀ (r : Nat) (s : State),
    let x := s.recAt r
    let live := (List.range x.place.length).filter fun n => !x.ended.contains n
    x.st = .running → s.preemptible x = true → x.switchAsked.isSome = true → x.boundary = true → x.vacated = [] →
    s.corniceStop r = none → (∀ f ∈ s.net, f.srcRec ≠ r ∧ f.target ≠ some r) →
    (∀ n ∈ live, (s.coreAt (x.place.getD n 0)).tshadow = false ∧ s.padBusy (x.place.getD n 0) r = false) →
    ∀ t, (bufsReady (live.filterMap x.ctxbuf) s = .ok true t →
        exec (.tenantSwitch r) s = .next (live.foldl (fun (t : State) n => t.switchCore r n) t))
      ∧ (bufsReady (live.filterMap x.ctxbuf) s = .ok false t → exec (.tenantSwitch r) s = .next t))
  ∧ (∀ (r : Nat) (s : State),
    let x := s.recAt r
    x.st ≠ .running ∨ s.preemptible x = false ∨ x.switchAsked = none ∨ x.boundary = false ∨ x.vacated ≠ []
      ∨ (s.corniceStop r).isSome = true ∨ (∃ f ∈ s.net, f.srcRec = r ∨ f.target = some r) →
    exec (.tenantSwitch r) s = .next s)
  ∧ (∀ (r t0 : Nat) (s : State),
    let x := s.recAt r
    x.st = .running → s.preemptible x = true → x.switchAsked = some t0 → s.corniceStop r = none →
    (t0 + 14000 ≤ s.cycle.toNat → exec (.switchOutTimeout r) s = .next
      (((List.range x.place.length).filter fun n => !x.ended.contains n && !x.vacated.contains n).foldl
        (fun (t : State) n => t.preempt (x.place.getD n 0)) s))
    ∧ (s.cycle.toNat < t0 + 14000 → exec (.switchOutTimeout r) s = .next s))
  ∧ (∀ (s : State) (site rid lc : Nat) (img : Image), lc ∉ (s.recAt rid).ended →
    (∃ n, n < (s.recAt rid).place.length ∧ n ≠ lc ∧ n ∉ (s.recAt rid).vacated ∧ n ∉ (s.recAt rid).ended) →
    let t := s.vacate site rid lc img
    t = s.leave site rid lc img ∧ (t.coreAt site).recId = none ∧ lc ∈ (t.recAt rid).vacated
      ∧ find lc (t.recAt rid).images = some img ∧ (∀ n, n ≠ site → t.coreAt n = s.coreAt n)
      ∧ ∀ a, (a < corePadKey site ∨ corePadKey site + padTop ≤ a) → t.mem.byte a = s.mem.byte a)
  ∧ (∀ (core rid lc : Nat) (s s1 : State) (img : Image), s.mayResume (s.recAt rid) = true →
    (((s.recAt rid).st ≠ .switched ∧ s1 = s) ∨ ((s.recAt rid).st = .switched ∧ ∃ new, s.resumePlace rid core lc = some new
      ∧ s1 = (s.setRec rid (relocRecord (s.recAt rid) new)).restoreAreas rid)) →
    (s1.recAt rid).st = .running → lc ∈ (s1.recAt rid).vacated → (s1.recAt rid).place[lc]? = some core →
    (s1.coreAt core).recId = none → find lc (s1.recAt rid).images = some img →
    (img.direct = true → exec (.interruptResume core rid lc) s = .next (s1.restoreCore core rid lc img img.mem))
    ∧ (img.direct = false →
      let c := s1.coreAt core
      exec (.interruptResume core rid lc) s = .next ((s1.setCore core { c.setCtx 0 { c.ctxAt 0 with lcore := BitVec.ofNat 13 lc, st := .free } with
        recId := some rid, halted := false }).enterTrap core 0 Cause.interrupt.code 2 0 true false)))
  ∧ (∀ (core rid lc : Nat) (s : State),
    s.mayResume (s.recAt rid) = false ∨ ((s.recAt rid).st = .switched ∧ s.resumePlace rid core lc = none)
      ∨ ((s.recAt rid).st ≠ .switched ∧ ((s.recAt rid).st ≠ .running ∨ lc ∉ (s.recAt rid).vacated)) →
    exec (.interruptResume core rid lc) s = .next s)
  ∧ ∀ (s : State) (rid site lc : Nat) (new : List Nat), s.resumePlace rid site lc = some new →
    keepsCompanions (s.recAt rid).place new = true ∧ new[lc]? = some site
    ∧ ∀ x ∈ new, isChan x = (s.recAt rid).chan ∧ x < 8448 ∧ s.freeSite x = true ∧ x ∉ s.fused ∧ x ∉ s.reservedFrom rid

/-! Records. -/

/-- R114, R118: `glaunch` reads the 128-byte record at the cursor of a DATA object, makes its links, checks it, releases the
acquired set at device scope and puts the record into the device launch queue of its own queue, where WAITERS of its wait
objects counts it (R205); `s[d]` is 0 when that queue is full, or the executing record was not taken from a host queue. A record that R114 does not admit raises ILLEGAL with the offset of its first offending field.
The model's choices in it: log entry 73. -/
def Obligations.LaunchFromDevice : Prop :=
  ∀ (d : BitVec 5) (a : BitVec 4) (s t : State) (l : Loc), plain d = true → s.core.inMiss = false →
    let i : Instr := .glaunch d a
    let off := (s.ctx.areg a.toNat).cur.toNat
    leads i (touch a.toNat) s (some l) t →
    ((t.hdr l).typ ≠ tDATA → exec i s = .next (t.trapHere Cause.type.code (BitVec.ofNat 64 off) false))
    ∧ ((t.hdr l).typ = tDATA → off % 128 ≠ 0 → exec i s = .next (t.trapHere Cause.misalign.code (BitVec.ofNat 64 off) false))
    ∧ ((t.hdr l).typ = tDATA → off % 128 = 0 → (t.hdr l).len < off + 128 →
      exec i s = .next (t.trapHere Cause.bounds.code (BitVec.ofNat 64 off) false))
    ∧ ((t.hdr l).typ = tDATA → off % 128 = 0 → off + 128 ≤ (t.hdr l).len → t.clearOfReds l off 128 = true →
      (t.bodyPoisoned l off 128 = true → exec i s = .next (t.trapHere Cause.poison.code (BitVec.ofNat 64 off) false))
      ∧ (t.bodyPoisoned l off 128 = false → ∀ (raw : List Byte) (u : State) (res : Option Nat),
        leads i (linkFields (t.bodyBytes l off 128) [0x00, 0x40, 0x48, 0x50, 0x58, 0x60, 0x70]) t raw t →
        leads i (checkLaunch (.ctx t.site t.core.act) t.ownRec.l.asid t.ownRec.l.vf (t.coreLimit t.ownRec.queue) raw) t res u →
        (∀ bad, res = some bad → exec i s = .next (u.trapHere Cause.illegal.code (BitVec.ofNat 64 bad) false))
        ∧ (∀ (w v : State) (ws : List Word), res = none →
          leads i (countable (.ctx t.site t.core.act) t.ownRec.l.asid (parseLaunch raw).wait) u ws w →
          leads i (releaseAll 4) w () v → v.calm = true →
          (t.ownRec.fromHost = false ∨ t.ownRec.queue = none → exec i s = .next (v.gives d 0))
          ∧ ∀ q, t.ownRec.fromHost = true → t.ownRec.queue = some q →
            (64 ≤ (v.deviceRecs q).length → exec i s = .next (v.gives d 0))
            ∧ ((v.deviceRecs q).length < 64 →
              let x := v.queueRecord (newRecord v (parseLaunch raw) q false 0) ws
              x.calm = true → exec i s = .next (x.gives d 1)))))

/-- R115, R424, R427 to R429: a queue's dispatch fetches what the ring has available, notes which heads are eligible, and
starts the chosen record on its sites when it is this queue's. The chosen record is an eligible head of an enabled queue of
the partition, and its sites are free. A record whose preparation faults ends with STATUS 2. A head that has waited 1 ms and
longest takes the reservation, of the window with the fewest busy sites; and a slice passes to the next VF with work. The
model's choices in it: log entries 74, 78, 81, 102 and 129. -/
def Obligations.RecordDispatch : Prop :=
  (∀ (q : Nat) (s : State), find q s.queues = none ∨ s.phase ≠ .ready → exec (.recordDispatch q) s = .next s)
  ∧ (∀ (q : Nat) (s : State), (lookup {} q s.queues : Queue).head = (lookup {} q s.queues : Queue).tail → fetchQueue q s = .ok () s)
  ∧ (∀ (q fr : Nat) (s t u : State) (res : Option Nat),
    let x : Queue := lookup {} q s.queues
    let va := x.ring + 128 * (x.head.toNat % x.entries)
    let raw := t.heapBytes x.asid va 128
    let taken := fun (y : State) => { y with queues := store q { x with head := x.head + 1 } y.queues }
    translateFor .device x.asid va false 0 s = .ok fr t → checkLaunch .device x.asid x.vf (t.coreLimit (some q)) raw t = .ok res u →
    (∀ bad, res = some bad → fetchOne q s = .ok .done ((taken u).addRecord
      { newRecord t (parseLaunch raw) q true x.head.toNat with st := .ended, status := some 1, field := bad }))
    ∧ ∀ (ws : List Word) (v : State), res = none → countable .device x.asid (parseLaunch raw).wait u = .ok ws v →
      fetchOne q s = .ok .done ((taken v).queueRecord (newRecord v (parseLaunch raw) q true x.head.toNat) ws))
  ∧ (∀ (s : State) (part : Nat) (c : Cand), s.chosen part = some c →
    (∃ x : Queue, (c.q, x) ∈ s.queues ∧ x.part = part ∧ x.enabled = true) ∧ c.rid ∈ s.headsOf c.q
    ∧ (s.recAt c.rid).eligibleAt.isSome = true ∧ s.barred (s.recAt c.rid).l.vf (s.recAt c.rid).part = false
    ∧ ∀ x ∈ c.sites, s.freeSite x = true)
  ∧ (∀ (q : Nat) (x : Queue) (s s1 s2 : State), find q s.queues = some x → s.phase = .ready → fetchQueue q s = .ok () s1 →
    noteAll x.part s1.fenceIdle = .ok () s2 →
    (∀ c, s2.chosen x.part = some c → c.q = q → s2.mayLoad x.part x.vf = true →
      (∀ s3, prepare c.rid s2 = .ok () s3 →
        let s4 := (s3.startRecord c.rid c.sites).countPassed q
        exec (.recordDispatch q) s = .next (if (find x.part s4.slices).isSome then s4
          else { s4 with slices := store x.part { vf := x.vf, start := s4.cycle.toNat } s4.slices }))
      ∧ (∀ k v s3, prepare c.rid s2 = .error (.trap k v) s3 →
        exec (.recordDispatch q) s = .next (s3.setRec c.rid { s3.recAt c.rid with
          st := .ended, endFault := some (k.code, (s3.recAt c.rid).l.code), status := some 2 })))
    ∧ ((∀ c, s2.chosen x.part = some c → c.q ≠ q ∨ s2.mayLoad x.part x.vf = false) → exec (.recordDispatch q) s = .next s2))
  ∧ (∀ (part : Nat) (s : State),
    ((find part s.resvs).isSome = true ∨ s.lateHeads part = [] → exec (.reservation part) s = .next s)
    ∧ (find part s.resvs = none → s.lateHeads part ≠ [] →
      (∀ e ∈ s.lateHeads part, (s.recAt e.1).l.cores * (s.recAt e.1).l.groups ≤ (s.ridge part (s.recAt e.1).chan).length) →
      ∃ w ∈ s.lateHeads part, (∀ e ∈ s.lateHeads part, w.2 ≤ e.2) ∧
        let r := s.recAt w.1
        ∃ l ∈ windows (r.l.cores * r.l.groups) (s.ridge part r.chan),
          (∀ m ∈ windows (r.l.cores * r.l.groups) (s.ridge part r.chan), s.busyIn l ≤ s.busyIn m)
          ∧ exec (.reservation part) s = .next { s with resvs := store part { rid := w.1, sites := l } s.resvs }))
  ∧ (∀ (vf : Nat) (s : State), (∀ e ∈ s.slices, e.2.vf ≠ vf) → exec (.sliceEnd vf) s = .next s)
  ∧ ∀ (vf part : Nat) (sl : Slice) (s : State), s.slices.find? (fun e => decide (e.2.vf = vf)) = some (part, sl) →
    let now := s.cycle.toNat
    let mine := fun (r : Rec) => decide (r.part = part) && decide (r.l.vf = vf) && decide (r.st = .running)
    let idle := !s.hasWork part vf && !(s.recs.any fun r => mine r.2)
    let next := (vfOrder (vf + 1) ((s.queues.filter fun q => decide (q.2.part = part)).map fun q => q.2.vf)).find? fun v => s.hasWork part v
    (idle = false → now < sl.start + sliceCycles vf → exec (.sliceEnd vf) s = .next s)
    ∧ (idle = true ∨ sl.start + sliceCycles vf ≤ now →
      (next = none → exec (.sliceEnd vf) s = .next (if idle then { s with slices := erase part s.slices }
        else { s with slices := store part { vf := vf, start := now } s.slices }))
      ∧ (next = some vf → exec (.sliceEnd vf) s = .next { s with slices := store part { vf := vf, start := now } s.slices })
      ∧ ∀ v, next = some v → v ≠ vf → ∃ t, exec (.sliceEnd vf) s = .next t ∧ t.slices = store part { vf := v, start := now } s.slices
        ∧ t.recs = s.recs.map (fun r => if mine r.2 && s.preemptible r.2 && r.2.switchAsked.isNone
            then (r.1, { r.2 with switchAsked := some now }) else r)
        ∧ t.mem = s.mem ∧ t.cores = s.cores ∧ t.queues = s.queues)

/-- R115 to R117, R425: a core of a record starts in its control context with the registers of R117 over an empty pad whose
one object is the stack. A record that has ended is released, reported in its completion ring and to its signal, and cleared
away with its cores, once the windows of its contexts have been aborted (R381); one that runs, or waits for a page, stays. A
completion entry holds the fields of R425, and the record of a boot program leaves the handlers of its cores behind (R463). The
model's choices in it: log entries 79 and 80. -/
def Obligations.RecordStartAndEnd : Prop :=
  (∀ (s : State) (rid lc : Nat), lc < (s.recAt rid).place.length →
    let r := s.recAt rid
    let site := r.place.getD lc 0
    let t := s.startCore rid lc
    let c := t.coreAt site
    let x := c.ctxAt 0
    c.recId = some rid ∧ x.st = .ready ∧ x.pc = BitVec.ofNat 64 r.l.entry ∧ x.level = BitVec.ofNat 3 r.l.domain
      ∧ x.jobseed = r.l.seed ∧ x.codeptr = r.l.code ∧ x.lcore = BitVec.ofNat 13 lc ∧ x.priv = r.boot
      ∧ x.sreg 2 = (coreShare r.l r.place lc).1 ∧ x.sreg 3 = BitVec.ofNat 64 (coreShare r.l r.place lc).2
      ∧ x.sreg 4 = BitVec.ofNat 64 (lc / r.l.cores) ∧ x.sreg 5 = BitVec.ofNat 64 (lc % r.l.cores) ∧ x.sreg 6 = BitVec.ofNat 64 r.l.cores
      ∧ (∀ n, n < 32 → n < 2 ∨ 6 < n → x.sreg n = 0)
      ∧ x.areg 0 = { ptr := r.l.arg } ∧ x.areg 15 = { ptr := mkPtr 0 3 (lc * 2 ^ 40) }
      ∧ (∀ n, 1 ≤ n → n < 15 → x.areg n = {}) ∧ (∀ n, 1 ≤ n → n < 8 → x.preg n = 0)
      ∧ (∀ n, 1 ≤ n → n ≤ 10 → (c.ctxAt n).st = .free) ∧ (∀ n, n < 32 → c.vreg n = 0) ∧ c.tshadow = false ∧ c.ie = true
      ∧ (t.mem.hdr (corePadKey site)).len = 8192 ∧ (t.mem.hdr (corePadKey site)).root = true
      ∧ (∀ n, n ≠ site → t.coreAt n = s.coreAt n)
      ∧ (∀ a, corePadKey site + 32 ≤ a → a < corePadKey site + padTop → t.mem.byte a = 0)
      ∧ ∀ a, (a < corePadKey site ∨ corePadKey site + padTop ≤ a) → t.mem.byte a = s.mem.byte a)
  ∧ (∀ (x : Queue) (index status field cause : Nat) (v : Word),
    let bs := completionWords x index status field cause v
    bs.length = 16 ∧ fieldAt bs 0 1 = status % 256 ∧ fieldAt bs 1 1 = cause % 256 ∧ fieldAt bs 2 2 = field % 65536
      ∧ fieldAt bs 4 4 = index % 2 ^ 31 + (if x.chead.toNat / x.entries % 2 = 0 then 2 ^ 31 else 0) ∧ fieldAt bs 8 8 = v.toNat)
  ∧ (∀ (rid : Nat) (s : State), (∀ r, find rid s.recs = some r → r.closed = true ∨ (r.status = none ∧ r.st ≠ .running)
      ∨ (r.status = none ∧ s.recordBusy rid = true) ∨ (r.status = none ∧ ∃ n, n < r.place.length ∧ n ∉ r.ended)) →
    exec (.recordEnd rid) s = .next s)
  ∧ (∀ (rid : Nat) (r : Rec) (s t : State), find rid s.recs = some r → r.closed = false →
    (r.status.isSome = true ∨ s.endsByItself rid) → finishAborts (s.abortsOf rid) s = .ok true t →
    exec (.recordEnd rid) s = .next t)
  ∧ (∀ (rid : Nat) (r : Rec) (s s0 s1 s2 s3 : State) (n1 n2 n3 : Ran), find rid s.recs = some r → r.closed = false →
    finishAborts (s.abortsOf rid) s = .ok false s0 →
    (r.status.isSome = true ∧ s1 = s0 ∨ s.endsByItself rid ∧ tryRun (endRelease rid) s0 = .ok n1 s1 ∧ n1 ≠ .parked) →
    let q := s1.recAt rid
    let status := q.status.getD (if q.endFault.isSome then 2 else 0)
    let signals := decide (status = 0) || decide (status = 2)
    tryRun (completionPage q) s1 = .ok n2 s2 → n2 ≠ .parked →
    (if signals then tryRun (signalPages q) s2 = .ok n3 s3 ∧ n3 ≠ .parked else s3 = s2) →
    let s4 := if q.boot then s3.installHandlers rid else s3
    let w := if signals then (s4.writeCompletion rid status).creditSignal q else s4.writeCompletion rid status
    exec (.recordEnd rid) s = .next (State.fenceIdle { w.freeCores rid with resvs := w.resvs.filter fun e => decide (e.2.rid ≠ rid) }))
  ∧ (∀ (s : State) (rid : Nat) (x : Queue) (q status : Nat),
    let r := s.recAt rid
    r.queue = some q → find q s.queues = some x → r.fromHost = true → s.writable x.asid x.nextEntry 16 = true →
    let t := s.writeCompletion rid status
    let f := if status = 2 then r.endFault else none
    t.heapBytes x.asid x.nextEntry 16 = completionWords x r.index status (if status = 1 then r.field else 0)
        ((f.map fun e => e.1.toNat).getD 0) ((f.map fun e => e.2).getD 0)
      ∧ (lookup {} q t.queues : Queue).chead = x.chead + 1)
  ∧ ∀ (s : State) (rid x : Nat), x ∈ (s.recAt rid).place → (s.coreAt x).recId = some rid →
    ((s.freeCores rid).coreAt x).recId = none ∧ ((s.freeCores rid).recAt rid).closed = true
    ∧ ((s.freeCores rid).recAt rid).st = .ended

/-- R116: the index range of a record is split over its cores without gaps: in the order of the sites the first core begins at the
base, each next core where the one before it ends, and the counts add up to the count of the record. -/
def Obligations.IndexSharesCoverTheRange : Prop :=
  ∀ (l : Launch) (place : List Nat), place ≠ [] → place.Pairwise (· < ·) → (∀ x ∈ place, x < 8192) → l.parts.length = 8 →
    l.parts.sum = 65536 →
    (coreShare l place 0).1 = l.base
    ∧ (∀ lc, lc + 1 < place.length →
      (coreShare l place (lc + 1)).1 = (coreShare l place lc).1 + BitVec.ofNat 64 (coreShare l place lc).2)
    ∧ ((List.range place.length).map fun lc => (coreShare l place lc).2).sum = l.count

/-! Pages, deadlines. -/

/-- R136, R176, R178, R179, R420, R422, R440: a mapping that the host answers enters the page table of the PASID, for every ASID
that is bound to it, and satisfies the requests for its page, but those that ask for a permission it lacks, which are refused, as
all are by an invalid answer; a page of the secure world, in HBM or in host memory, is refused to a VF without SECWORLD, a frame of
HBM is one that the package has (R13), and a page whose home is another module has a valid route (R120). An invalidation ends the
translations of its range, once no access in flight uses them, and is kept until then, of which a port takes 64 (R419); a recall
takes a page out of the tier pool. The model's choices in it: log entries 94, 102 and 104. -/
def Obligations.TranslationAnswers : Prop :=
  (∀ (k : Nat) (q : PageReq) (s : State), s.pageReqs[k]? = some q →
    let same := fun (x : PageReq) => s.oneTable q.asid x.asid && decide (x.page = q.page)
    let refusal : State := { s with pageReqs := s.pageReqs.map fun x => if same x then { x with refused := true } else x }
    exec (.pageRequestAnswer k .invalid) s = .next refusal
    ∧ ∀ (frame : Nat) (w hbm : Bool) (home : Option Nat),
      let vf := (lookup {} q.asid s.asids : AsidSt).vf
      let at_ := if hbm then frame else hbmFrames + frame
      let ok := frame < (if hbm then hbmFrames else 2 ^ 43) ∧ ∀ m, home = some m → hbm = false ∧ routeValid (s.route m) = true
      let barred := s.securePage (at_ * 4096) = true ∧ s.accepted vf 11 = false
      (ok → ¬ barred →
        ∃ t, exec (.pageRequestAnswer k (.mapped frame w hbm home)) s = .next t
          ∧ (∀ a, s.oneTable q.asid a = true →
            find (pageKey a q.page) t.ptes = some { frame := at_, write := w, hbm := hbm, home := home })
          ∧ (∀ j, (∀ a, s.oneTable q.asid a = true → j ≠ pageKey a q.page) → find j t.ptes = find j s.ptes)
          ∧ t.pageReqs = (s.pageReqs.filter fun x => !same x || (x.write && !w)).map
              (fun x => if same x then { x with refused := true } else x)
          ∧ t.mem = s.mem ∧ t.cores = s.cores ∧ t.recs = s.recs)
      ∧ (ok → barred → exec (.pageRequestAnswer k (.mapped frame w hbm home)) s = .next refusal)
      ∧ (¬ ok → exec (.pageRequestAnswer k (.mapped frame w hbm home)) s = .next s))
  ∧ (∀ (s : State) (a b : Nat), s.oneTable a b = true ↔ a = b ∨ ∃ x y, find a s.asids = some x ∧ find b s.asids = some y
    ∧ x.vf = y.vf ∧ x.pasid = y.pasid)
  ∧ (∀ (k : Nat) (ans : PageAnswer) (s : State), s.pageReqs.length ≤ k → exec (.pageRequestAnswer k ans) s = .next s)
  ∧ (∀ (asid page count : Nat) (s : State), page < 2 ^ 41 →
    let i : HostWait := .invalidation asid page count
    let mine := fun (j : Nat) => (s.tableMates asid).any fun a => decide (pageKey a page ≤ j) && decide (j < pageKey a page + count)
      && decide (j < pageKey a page + (2 ^ 41 - page))
    let room := i ∈ s.hostWaits ∨ s.invalidations asid < 64
    (room → (∀ e ∈ s.ptes, mine e.1 = true → s.inFlight (e.1 / 2 ^ 41) (e.1 % 2 ^ 41) = false) →
      ∃ t, exec (.atsInvalidation asid page count) s = .next t
        ∧ t.ptes = s.ptes.filter (fun e => !mine e.1) ∧ t.tier = s.tier ∧ i ∉ t.hostWaits
        ∧ (∀ j, mine j = true → find j t.ptes = none) ∧ t.mem = s.mem ∧ t.recs = s.recs ∧ t.cores = s.cores)
    ∧ (room → (∃ e ∈ s.ptes, mine e.1 = true ∧ s.inFlight (e.1 / 2 ^ 41) (e.1 % 2 ^ 41) = true) →
      exec (.atsInvalidation asid page count) s = .next (s.keepsWait i))
    ∧ (¬ room → exec (.atsInvalidation asid page count) s = .next s))
  ∧ ∀ (asid page : Nat) (s : State),
    let mine := fun (e : TierPage) => decide (e.asid = asid) && decide (e.page = page)
    (s.tier.any mine = true → s.inFlight asid page = false →
      exec (.tierPoolRecall asid page) s = .next { s with tier := s.tier.filter fun e => !mine e })
    ∧ (s.tier.any mine = false ∨ s.inFlight asid page = true → exec (.tierPoolRecall asid page) s = .next s)

/-- R415, R416, R433 to R435: a deadline that is posted withdraws what waits in the target's queues, with STATUS 4, and disables
them, and chooses for each queue by the time that is left and its two estimates, the largest over its records and their cores; at
35,000 cycles before it what still runs is discarded, with STATUS 3, and time does not pass that point without it (R26); once the
target is vacant the report with the fields of R435 is written and only then announced. A post that the rule refuses changes
nothing, and one whose page is awaited is kept. The model's choices in it: log entries 83, 96, 128 (a report whose page the host
refuses) and 129 (nothing of the target starts before the deadline). -/
def Obligations.DeadlineResults : Prop :=
  (∀ (pf vf : Nat) (at_ report : BitVec 64) (s : State),
    let i : HostWait := .deadline pf vf at_ report
    let ask := tryAsk (reportOk (s.reportAsid true vf) report (s.targetQueues true vf).length) s
    (s.phase ≠ .ready ∨ vf / 128 ≠ pf ∨ s.deadlineTarget true vf = false →
      exec (.pfDeadlinePost pf vf at_ report) s = .next (s.dropsWait i))
    ∧ (s.phase = .ready → vf / 128 = pf → s.deadlineTarget true vf = true → ∀ t,
      (ask = .ok (some true) t →
        exec (.pfDeadlinePost pf vf at_ report) s = .next ((t.postDeadline true vf at_.toNat report).dropsWait i))
      ∧ (ask = .ok (some false) t → exec (.pfDeadlinePost pf vf at_ report) s = .next (t.dropsWait i))
      ∧ (ask = .ok none t → exec (.pfDeadlinePost pf vf at_ report) s = .next (t.keepsWait i))))
  ∧ (∀ (B : Int) (m c : Est),
    (B ≤ 0 → chooseOutcome B m c = .discard)
    ∧ (0 < B → (∀ n k, m = some (n, k) → (11 * n : Int) ≤ 10 * B * k → chooseOutcome B m c = .run)
      ∧ ((∀ n k, m = some (n, k) → 10 * B * k < 11 * n) →
        (∀ n k, c = some (n, k) → (n : Int) ≤ B * k → chooseOutcome B m c = .checkpoint)
        ∧ ((∀ n k, c = some (n, k) → B * k < n) → chooseOutcome B m c = .discard))))
  ∧ (∀ (s : State) (q at_ : Nat),
    let now := s.cycle.toNat
    let rs := s.residents q
    (rs = [] → s.postQueue q at_ = { q := q, outcome := .withdrawn, vacant := some now })
    ∧ (rs ≠ [] → s.deadlines = [] →
      let y := s.postQueue q at_
      let left := fun (r : Rec) => (r.l.steps - r.steps) * (now - r.startedAt)
      let cost := fun (r : Rec) (lc : Nat) =>
        let R := ((s.sections r lc (r.place.getD lc 0) 0).map fun x => x.raw.length).sum
        200 + ceilDiv R 128 + (match r.lastCkpt with
          | some (raw, coded) => ceilDiv (R * coded) (raw * 64)
          | none => ceilDiv R 64)
      y.recs = rs.map (·.1) ∧ y.vacant = none ∧ y.fallback = 0
      ∧ ∃ m c : Est, y.outcome = chooseOutcome ((at_ : Int) - 35000 - now) m c
        ∧ y.remaining = m.map (fun x => x.1 / x.2) ∧ y.ckptEst = c.map (fun x => x.1 / x.2)
        ∧ (m = none ↔ ∃ r ∈ rs, r.2.l.steps = 0)
        ∧ (∀ n k, m = some (n, k) → 0 < k ∧ (∀ r ∈ rs, left r.2 * k ≤ n * Nat.max r.2.steps 1)
          ∧ (n = 0 ∨ ∃ r ∈ rs, n = left r.2 ∧ k = Nat.max r.2.steps 1))
        ∧ (c = none ↔ ∃ r ∈ rs, s.preemptible r.2 = false)
        ∧ (∀ n k, c = some (n, k) → k = 1
          ∧ (∀ r ∈ rs, ∀ lc, lc < r.2.place.length → lc ∉ r.2.vacated → cost r.2 lc ≤ n)
          ∧ (n = 0 ∨ ∃ r ∈ rs, ∃ lc, lc < r.2.place.length ∧ lc ∉ r.2.vacated ∧ n = cost r.2 lc))))
  ∧ (∀ (s : State) (isVf : Bool) (target at_ : Nat) (report : Word),
    let t := s.postDeadline isVf target at_ report
    ((∀ e ∈ s.targetQueues isVf target, s.residents e.1 = []) → ∀ rid r q x, find q s.queues = some x →
      (if isVf then x.vf = target else x.part = target) → find rid s.recs = some r → r.queue = some q → r.st = .waiting →
      (t.recAt rid).st = .ended ∧ (t.recAt rid).status = some 4)
    ∧ (s.cycle.toNat < at_ → ∀ vf part, (if isVf then vf else part) = target → t.barred vf part = true))
  ∧ (∀ (s : State) (isVf : Bool) (target at_ : Nat) (report : Word) (q : Nat) (x : Queue), find q s.queues = some x →
    (if isVf then x.vf = target else x.part = target) →
    ∃ y, find q (s.postDeadline isVf target at_ report).queues = some y ∧ y.enabled = false ∧ y.head = x.tail ∧ y.tail = x.tail)
  ∧ (∀ (s : State) (rid x : Nat), x ∈ (s.recAt rid).place → (s.coreAt x).recId = some rid →
    ((s.discardRecord rid).coreAt x).recId = none ∧ ((s.discardRecord rid).recAt rid).st = .ended
    ∧ ((s.discardRecord rid).recAt rid).status = some 3)
  ∧ (∀ (k : Nat) (d : Deadline) (s : State), s.deadlines[k]? = some d →
    let late := d.queues.filter fun x => x.vacant.isNone && x.recs.any fun r => decide ((s.recAt r).st = .running)
    (s.cycle.toNat + 35000 < d.at_ ∨ late = [] → exec (.corniceDiscard k) s = .next s)
    ∧ (d.at_ ≤ s.cycle.toNat + 35000 → late ≠ [] →
      let s1 := late.foldl (fun (t : State) x =>
        (x.recs.filter fun r => decide ((t.recAt r).st = .running)).foldl State.discardRecord t) s
      let failed := fun (x : DlQueue) => x.recs.any fun r => decide (((s.recAt r).endFault.map (·.1)) = some Cause.cornice.code)
      exec (.corniceDiscard k) s = .next (State.noteVacant { s1 with deadlines := s1.deadlines.modify k fun d =>
        { d with queues := d.queues.map fun x => if (late.map (·.q)).contains x.q then
            { x with fallback := if failed x then 2 else 1 } else x } })))
  ∧ (∀ (n : Nat) (s : State), runTurn (.cycles n) s = .next (s.wait n) ∧ (s.wait n).cycle = s.cycle + BitVec.ofNat 64 n
    ∧ (s.deadlines = [] → s.wait n = { s with cycle := s.cycle + BitVec.ofNat 64 n })
    ∧ ∀ d ∈ (s.wait n).deadlines, (s.wait n).discardDue d = false)
  ∧ (∀ (k : Nat) (d : Deadline) (s t : State) (n : Ran), s.noteVacant.deadlines[k]? = some d →
    ((∃ x ∈ d.queues, x.vacant = none) → exec (.corniceReport k) s = .next s)
    ∧ ((∀ x ∈ d.queues, x.vacant.isSome = true) →
      let asid := (s.noteVacant.reportAsid d.isVf d.target).getD 0
      let l := Loc.heap asid (ptrLoc d.report)
      tryRun (reportPages asid (ptrLoc d.report) (reportBytes d).length) s.noteVacant = .ok n t →
      let t0 : State := { t with deadlines := t.deadlines.eraseIdx k }
      (n = .parked → exec (.corniceReport k) s = .next t)
      ∧ (∀ c, n = .stopped c → exec (.corniceReport k) s = .next t0)
      ∧ (n = .done →
        let w := t0.putBody l 0 (reportBytes d)
        let t1 := w.setHdr l { w.hdr l with w1 := BitVec.ofNat 64 (((w.hdr l).version + 1) % 2 ^ 32 + 5 * 2 ^ 32) }
        exec (.corniceReport k) s = .next ((t.reportVfs d).foldl
          (fun (u : State) v => u.postEvent { vf := v, kind := 2, ptr := d.report }) t1))))
  ∧ (∀ (d : Deadline) (j : Nat) (x : DlQueue), d.queues[j]? = some x →
    let bs := reportBytes d
    bs.length = 32 + 32 * d.queues.length ∧ fieldAt bs 0x00 8 = d.at_ % 2 ^ 64 ∧ fieldAt bs 0x08 8 = d.posted % 2 ^ 64
      ∧ fieldAt bs 0x10 4 = d.queues.length % 2 ^ 32
      ∧ fieldAt bs (32 + 32 * j) 2 = x.q / 64 % 2 ^ 16 ∧ fieldAt bs (34 + 32 * j) 2 = x.q % 64 ∧ fieldAt bs (36 + 32 * j) 1 = x.outcome.code
      ∧ fieldAt bs (37 + 32 * j) 1 = x.fallback % 256 ∧ fieldAt bs (40 + 32 * j) 8 = estWord x.remaining % 2 ^ 64
      ∧ fieldAt bs (48 + 32 * j) 8 = estWord x.ckptEst % 2 ^ 64 ∧ fieldAt bs (56 + 32 * j) 8 = x.vacant.getD d.posted % 2 ^ 64)

/-! The host's side of the device. -/

/-- R421, R422, R426, R446: the registers of a function. A feature word is taken while no queue of the function is enabled;
a ring's head, address and size are the host's, and events that found the ring full follow as slots free, each written to its
slot in host memory; a reply goes to the context that waits for the number, with the value of REPLYVAL; a function reset clears
the function's own registers and rings. A function that no longer accepts SECWORLD keeps no page of the secure world (R440). The
model's choices in it: log entries 72 and 84. -/
def Obligations.FunctionRegisters : Prop :=
  (∀ (fn : Nat) (v : BitVec 64) (s : State),
    (s.phase = .ready → fn < 258 → (∀ q ∈ s.queues, q.2.vf = fn → q.2.enabled = false) →
      exec (.featacc fn v) s = .next (s.setVf fn { s.vfAt fn with featAcc := v.toNat % 2 ^ 14 }).refuseSecure)
    ∧ (s.phase ≠ .ready ∨ 258 ≤ fn ∨ (∃ q ∈ s.queues, q.2.vf = fn ∧ q.2.enabled = true) → exec (.featacc fn v) s = .next s))
  ∧ (∀ (s : State), let t := s.refuseSecure
    t = { s with ptes := t.ptes } ∧ ∀ e, e ∈ t.ptes ↔ e ∈ s.ptes ∧ (8192 ≤ e.1 / 2 ^ 41 ∨ s.securePage (e.2.frame * 4096) = false
      ∨ s.accepted (lookup {} (e.1 / 2 ^ 41) s.asids : AsidSt).vf 11 = true))
  ∧ (∀ (vf : Nat) (v : BitVec 32) (s : State), vf < 256 → s.phase = .ready →
    exec (.reqhead vf v) s = .next (s.setVf vf { s.vfAt vf with reqHead := v })
    ∧ (s.hostEvents = [] → exec (.evhead vf v) s = .next { s.setVf vf { s.vfAt vf with evHead := v } with hostEvents := [] })
    ∧ ∀ e, s.hostEvents = [e] → e.vf = vf →
      let x := s.vfAt vf
      (s.ring false vf = none → exec (.evhead vf v) s = .next { s.setVf vf { x with evHead := v } with hostEvents := [e] })
      ∧ ∀ at_ size, s.ring false vf = some (at_, size) →
        ((x.evTail - v).toNat ≠ size → exec (.evhead vf v) s = .next (({ s.setVf vf { x with evHead := v } with
          hostEvents := [], hostMem := s.hostMem.setBytes (at_ + 16 * (x.evTail.toNat % size)) (eventEntry x.evTail size e) } : State).setVf vf
            { x with evHead := v, evTail := x.evTail + 1 }))
        ∧ ((x.evTail - v).toNat = size → exec (.evhead vf v) s = .next { s.setVf vf { x with evHead := v } with hostEvents := [e] }))
  ∧ (∀ (s : State) (request : Bool) (vf : Nat), let n := (s.reg (.ringSize request vf)).toNat
    ((∃ k, 1 ≤ k ∧ k ≤ 12 ∧ n = 2 ^ k) → s.ring request vf = some ((s.reg (.ringAddr request vf)).toNat, n))
    ∧ ((∀ k, 1 ≤ k → k ≤ 12 → n ≠ 2 ^ k) → s.ring request vf = none))
  ∧ (∀ (v : BitVec 64) (s : State), s.phase ≠ .off →
    (∀ n : Fin 7, exec (.registerWrite (.mbarg n) v) s = .next (s.setReg (.mbarg n) v))
    ∧ (∀ n : Fin 512, exec (.registerWrite (.mbdata n) v) s = .next (s.setReg (.mbdata n) v))
    ∧ ∀ vf, vf < 256 → s.phase = .ready → exec (.registerWrite (.replyval vf) v) s = .next (s.setReg (.replyval vf) v)
      ∧ (s.hostEvents = [] → ∀ request, ∀ r ∈ [HostReg.ringAddr request vf, .ringSize request vf],
        exec (.registerWrite r v) s = .next (s.setReg r v)))
  ∧ (∀ (r : HostReg) (v : Word) (s : State), (s.setReg r v).reg r = v
    ∧ ∀ q : HostReg, q ≠ r → (s.setReg r v).reg q = s.reg q)
  ∧ (∀ (vf : Nat) (seq : BitVec 64) (s : State), s.phase = .ready → ∃ t, exec (.replyseq vf seq) s = .next t
    ∧ (∀ n m,
      let x := (s.coreAt n).ctxAt m
      (t.coreAt n).ctxAt m = if s.coreVf (s.coreAt n) vf = true ∧ x.xinv = some seq.toNat ∧ x.xreply = none then
        { x with xreply := some (s.reg (.replyval vf)) } else x)
    ∧ t.mem = s.mem ∧ t.vfs = s.vfs ∧ t.queues = s.queues)
  ∧ ∀ (fn : Nat) (s : State), (258 ≤ fn → exec (.functionReset fn) s = .next s)
    ∧ (fn < 258 → ∃ t, exec (.functionReset fn) s = .next t ∧ (∀ n, n ≠ fn → t.vfAt n = s.vfAt n) ∧ t.mem = s.mem ∧ t.recs = s.recs
      ∧ t.queues = s.queues ∧ (t.vfAt fn).featAcc = 0 ∧ (t.vfAt fn).evHead = 0 ∧ (t.vfAt fn).reqHead = 0 ∧ (t.vfAt fn).evTail = 0
      ∧ (t.vfAt fn).reqTail = 0 ∧ (∀ request, t.ring request fn = none) ∧ t.hostMem = s.hostMem ∧ (t.vfAt fn).tdisp = (s.vfAt fn).tdisp ∧ (t.vfAt fn).kvUsed = (s.vfAt fn).kvUsed)

/-- R165, R420, R423, R424, R434, R468: a queue comes from a descriptor that passes the checks of R423, is enabled and
disabled, and takes the tail of a doorbell; a tail with more records than the ring holds disables it and posts an event of
kind 3. An ASID is bound with its heap regions and shares the translations of its PASID, and goes with all that the device knows
of it once none of its records is resident or queued. What must wait for a page or for that is kept. The model's choices in it:
log entries 73 (a SAVE of 0), 78 (the fetch at the doorbell), 84 and 127 (a queue of a VF that is stopping). -/
def Obligations.QueuesAndAsids : Prop :=
  (∀ (vf num : Nat) (desc : BitVec 512) (s t : State), s.phase = .ready → vf < 256 → num < 64 →
    find (queueKey vf num) s.queues = none →
    let f := fun (off n : Nat) => desc.toNat / 2 ^ (8 * off) % 2 ^ (8 * n)
    let save := BitVec.ofNat 64 (f 0x20 8)
    let x : Queue := { vf := vf, num := num, ring := f 0x00 8, cring := f 0x08 8, entries := f 0x10 4, asid := f 0x14 2
                       prio := f 0x16 1, chan := decide (f 0x17 1 = 1), part := f 0x18 1
                       save := if noPtr save then nullPtr else save, saveSz := f 0x28 4, ctxSlots := f 0x2C 2 }
    x.ring % 128 = 0 → x.cring % 16 = 0 → (∃ k, 1 ≤ k ∧ k ≤ 16 ∧ x.entries = 2 ^ k) → x.asid < 8192 →
    (find x.asid s.asids).map (·.vf) = some vf → x.prio < 8 → f 0x17 1 < 2 → (x.chan = true → s.accepted vf 8 = true) →
    x.part < 20 → (find x.part s.partitions).isSome = true → Config.vfPartition vf = some x.part → f 0x19 7 = 0 → f 0x2E 18 = 0 →
    x.saveSz % 4096 = 0 → (x.save = nullPtr → x.saveSz = 0) → 1 ≤ x.ctxSlots → x.ctxSlots ≤ 4096 →
    x.ring + 128 * x.entries ≤ 2 ^ 53 → x.cring + 16 * x.entries ≤ 2 ^ 53 →
    let i : HostWait := .queue vf num desc
    (tryAsk (saveOk x) s = .ok (some true) t →
      exec (.queueCreate vf num desc) s = .next (State.dropsWait { t with queues := store (queueKey vf num) x t.queues } i))
    ∧ (tryAsk (saveOk x) s = .ok (some false) t → exec (.queueCreate vf num desc) s = .next (t.dropsWait i))
    ∧ (tryAsk (saveOk x) s = .ok none t → exec (.queueCreate vf num desc) s = .next (t.keepsWait i)))
  ∧ (∀ (vf num : Nat) (desc : BitVec 512) (s : State), s.phase ≠ .ready ∨ 256 ≤ vf ∨ 64 ≤ num
      ∨ (find (queueKey vf num) s.queues).isSome = true ∨ s.queueOk (parseQueue vf num desc.toNat) desc.toNat = false →
    exec (.queueCreate vf num desc) s = .next (s.dropsWait (.queue vf num desc)))
  ∧ (∀ (q : Nat) (s : State), s.phase ≠ .ready ∨ find q s.queues = none →
    (∀ tail del, ∀ i ∈ [Instr.queueEnable q, .queueDisable q del, .doorbell q tail], exec i s = .next s))
  ∧ (∀ (q : Nat) (x : Queue) (s t : State), s.phase = .ready → find q s.queues = some x →
    ((s.vfAt x.vf).stopping = true → exec (.queueEnable q) s = .next s)
    ∧ ((s.vfAt x.vf).stopping = false →
      let on : Queue := { x with enabled := true }
      fetchQueue q { s with queues := store q on s.queues } = .ok () t →
      exec (.queueEnable q) s = .next t)
    ∧ exec (.queueDisable q false) s = .next ((s.withdrawDevice q).disableQueue q)
    ∧ (let t := (s.withdrawDevice q).disableQueue q
      exec (.queueDisable q true) s = .next (if x.head = x.tail ∧ ∀ r ∈ t.recs, r.2.queue ≠ some q ∨ r.2.closed = true then
        { t with queues := erase q t.queues } else t))
    ∧ ∀ tail : BitVec 32,
      let rung : Queue := { x with tail := tail }
      ((tail - x.chead).toNat ≤ x.entries → (tail - x.head).toNat ≤ x.entries → fetchQueue q { s with queues := store q rung s.queues } = .ok () t →
        exec (.doorbell q tail) s = .next t)
      ∧ (x.entries < (tail - x.chead).toNat ∨ x.entries < (tail - x.head).toNat →
        exec (.doorbell q tail) s = .next (((s.withdrawDevice q).disableQueue q).postEvent { vf := x.vf, kind := 3, data := x.num })))
  ∧ (∀ (asid vf pasid : Nat) (grants : List Nat) (s : State),
    let ok := s.phase = .ready ∧ asid < 8192 ∧ vf < 256 ∧ pasid < 2 ^ 20 ∧ find asid s.asids = none
      ∧ ∀ b ∈ grants, b % 2097152 = 0 ∧ b + 2097152 ≤ 2 ^ 53
    let x : AsidSt := { vf := vf, pasid := pasid, regions := grants.map fun b => { base := b } }
    (ok → exec (.asidBind asid vf pasid grants) s = .next (State.shareTable { s with asids := store asid x s.asids } asid)
      ∧ ((∀ e ∈ s.asids, e.2.vf ≠ vf ∨ e.2.pasid ≠ pasid) →
        exec (.asidBind asid vf pasid grants) s = .next { s with asids := store asid x s.asids }))
    ∧ (¬ ok → exec (.asidBind asid vf pasid grants) s = .next s))
  ∧ ∀ (asid : Nat) (s : State), (s.phase ≠ .ready ∨ find asid s.asids = none →
      exec (.asidUnbind asid) s = .next (s.dropsWait (.unbind asid)))
    ∧ (s.phase = .ready → (find asid s.asids).isSome = true →
      let mine := s.queues.filter fun q => decide (q.2.asid = asid)
      let t := mine.foldl (fun (t : State) q => t.withdrawDevice q.1) s
      let idle := (∀ r ∈ t.recs, r.2.l.asid = asid → r.2.closed = true) ∧ ∀ q ∈ mine, q.2.head = q.2.tail
      (¬ idle → exec (.asidUnbind asid) s = .next (t.keepsWait (.unbind asid)))
      ∧ (idle → ∃ u, exec (.asidUnbind asid) s = .next u ∧ find asid u.asids = none ∧ (∀ e ∈ u.tier, e.asid ≠ asid)
        ∧ (∀ j, j / 2 ^ 41 = asid → find j u.ptes = none) ∧ (∀ j, j / 2 ^ 41 ≠ asid → find j u.ptes = find j t.ptes)
        ∧ (∀ k ∈ u.kvTabs, k.asid ≠ asid) ∧ u.mem = t.mem ∧ u.recs = t.recs ∧ u.cores = s.cores))

/-- R419, R436 to R438, R440, R451: a snapshot begins a new epoch and ends the one that runs; a stop disables the VF's queues
and has its cores preempted, and ends once nothing of the VF is under way, with its dirty log written; a KV set that leaves takes its frames with it, and
one that arrives whole takes frames here; the host reads and writes the device's HBM, but that of the secure world only
through an interface that runs, and neither the versions of an RSTATE that are not committed nor the rows of open windows; a
measurement is answered signed, and TDISP goes its states. The model's choices in it: log entries 77, 85, 104 and 118.
-/
def Obligations.StopsMigrationAndHostMemory : Prop :=
  (∀ (vf : Nat) (area : SnapArea) (dlog : BitVec 64) (s : State),
    (s.phase = .ready → vf < 256 → s.accepted vf 6 = true →
      let t := s.endSnapshot vf
      let v := t.vfAt vf
      exec (.snapshotRequest vf area dlog) s = .next (t.setVf vf { v with
        epoch := v.epoch + 1, snap := some { epoch := v.epoch + 1, dlog := dlog, area := area.base, places := area.places } }))
    ∧ (s.phase ≠ .ready ∨ 256 ≤ vf ∨ s.accepted vf 6 = false → exec (.snapshotRequest vf area dlog) s = .next s)
    ∧ ((s.vfAt vf).snap = none → s.endSnapshot vf = s)
    ∧ ∀ n, (s.vfAt vf).snap = some n → s.endSnapshot vf = s.postEvent
        { vf := vf, kind := 4, data := if n.failed then 0 else n.epoch, ptr := n.dlog })
  ∧ (∀ (vf : Nat) (s : State), s.phase = .ready → vf < 256 →
    ((s.vfAt vf).stopped = true → exec (.vfStop vf) s = .next s)
    ∧ ((s.vfAt vf).stopped = false → (s.vfAt vf).stopping = false →
      let t := (s.queues.filter fun q => decide (q.2.vf = vf)).foldl (fun (t : State) q => (t.withdrawDevice q.1).disableQueue q.1) s
      let u := t.setVf vf { t.vfAt vf with stopping := true }
      exec (.vfStop vf) s = .next ((u.stopCores vf).foldl (fun (t : State) x => t.preempt x) u)
      ∧ ∀ q x, find q u.queues = some x → x.vf = vf → x.enabled = false)
    ∧ ((s.vfAt vf).stopped = false → (s.vfAt vf).stopping = true →
      (s.vfBusy vf = true → exec (.vfStop vf) s = .next s)
      ∧ (s.vfBusy vf = false →
        let t := (s.writeLog vf).endSnapshot vf
        exec (.vfStop vf) s = .next (t.setVf vf { t.vfAt vf with snap := none, stopped := true }))))
  ∧ (∀ (vf : Nat) (s : State), ((s.vfAt vf).snap = none → s.writeLog vf = s)
    ∧ ∀ n, (s.vfAt vf).snap = some n → let t := s.writeLog vf
      t = { s with hostMem := t.hostMem }
        ∧ (∀ k ∈ n.written, (t.hostMem.byte (n.dlog.toNat + k / 8)).getLsbD (k % 8) = true)
        ∧ ∀ k, (∀ j ∈ n.written, n.dlog.toNat + j / 8 ≠ k) → t.hostMem.byte k = s.hostMem.byte k)
  ∧ (∀ (vf peer : Nat) (s : State), s.phase = .ready → vf < 256 → s.accepted vf 10 = true →
    ((s.vfAt vf).tdisp = 1 ∨ (s.vfAt vf).tdisp = 2) → (peer = 1 ∨ peer = 2) →
    ((s.vfAt vf).stopped = true → exec (.kvMigration vf (.sent peer true)) s = .next (s.moveAway vf))
    ∧ exec (.kvMigration vf (.sent peer false)) s = .next s
    ∧ ∀ objs,
      (s.setFits vf objs = true → exec (.kvMigration vf (.received peer objs true)) s
        = .next ((s.takePages vf objs).1.placeMoved (s.takePages vf objs).2 objs))
      ∧ (s.setFits vf objs = false → exec (.kvMigration vf (.received peer objs true)) s = .next s)
      ∧ exec (.kvMigration vf (.received peer objs false)) s = .next s)
  ∧ (∀ (vf : Nat) (mig : KvMove) (s : State), s.accepted vf 10 = false ∨ (s.vfAt vf).tdisp = 0 → exec (.kvMigration vf mig) s = .next s)
  ∧ (∀ (s : State) (port : Nat) (iface : Option Nat) (addr n : Nat), s.phase = .ready → 1 ≤ n → addr % 64 + n ≤ 64 →
    port < 2 → port * (hbmFrames * 2048) ≤ addr → addr < (port + 1) * (hbmFrames * 2048) → (∀ t ∈ s.tier, t.hbm ≠ addr / 4096) →
    let sees := fun (a : Nat) => (s.hostSees a).getD (s.mem.byte a)
    let barred := s.securePage addr = true ∧ ∀ v, iface = some v → (s.vfAt v).tdisp ≠ 2
    (barred →
      exec (.hostCxlMemAccess { port := port, iface := iface, addr := addr, size := n, write := none }) s
        = .next (State.addLog { s with hostReads := s.hostReads ++ [none] } 6 5 (homeChannel addr) (BitVec.ofNat 64 addr) 0)
      ∧ ∀ bs, bs.length = n → exec (.hostCxlMemAccess { port := port, iface := iface, addr := addr, size := n, write := some bs }) s
        = .next (s.addLog 6 5 (homeChannel addr) (BitVec.ofNat 64 addr) 0))
    ∧ (¬ barred →
      exec (.hostCxlMemAccess { port := port, iface := iface, addr := addr, size := n, write := none }) s
        = .next { s with hostReads := s.hostReads ++ [if s.poisoned addr n then none else some ((List.range n).map fun i => sees (addr + i))] }
      ∧ ∀ bs, bs.length = n → ∃ t, exec (.hostCxlMemAccess { port := port, iface := iface, addr := addr, size := n, write := some bs }) s = .next t
        ∧ (∀ a, t.mem.byte a = if addr ≤ a ∧ a < addr + n ∧ s.hostSees a = none then bs.getD (a - addr) 0 else s.mem.byte a)
        ∧ (∀ g ∈ t.poison, g ∈ s.poison ∧ ¬ (addr ≤ 32 * g ∧ 32 * g + 32 ≤ addr + n))
        ∧ (∀ g ∈ s.poison, ¬ (addr ≤ 32 * g ∧ 32 * g + 32 ≤ addr + n) → g ∈ t.poison)
        ∧ t.cores = s.cores ∧ t.recs = s.recs ∧ t.log = s.log))
  ∧ (∀ (s : State) (acc : HostAccess), 2 ≤ acc.port ∨ acc.addr < acc.port * (hbmFrames * 2048)
      ∨ (acc.port + 1) * (hbmFrames * 2048) ≤ acc.addr ∨ (∃ t ∈ s.tier, t.hbm = acc.addr / 4096) →
    exec (.hostCxlMemAccess acc) s = .next s)
  ∧ (∀ (n : Nat) (m : List Byte) (s : State), s.phase ≠ .off →
    (s.measurement n = some m → exec (.spdmRequest (.measure n)) s = .next { s with spdm := s.spdm ++ [m ++ Config.signature m] })
    ∧ (s.measurement n = none → exec (.spdmRequest (.measure n)) s = .next s))
  ∧ ∀ (vf : Nat) (s : State), s.phase = .ready → vf < 256 →
    exec (.spdmRequest (.lock vf)) s = .next (if (s.vfAt vf).tdisp = 0 then s.setVf vf { s.vfAt vf with tdisp := 1 } else s)
    ∧ exec (.spdmRequest (.start vf)) s = .next (if (s.vfAt vf).tdisp = 1 then s.setVf vf { s.vfAt vf with tdisp := 2 } else s)
    ∧ exec (.spdmRequest (.stop vf)) s = .next (s.setVf vf { s.vfAt vf with tdisp := 0 })
    ∧ exec (.spdmRequest (.fail vf)) s = .next (s.setVf vf { s.vfAt vf with tdisp := 3 })

/-! Start-up, errors, the mailbox. -/

/-- R441, R443 to R445, R448, R449, R452, R453: power and resets begin again in ROM with flash and the log as they are; ROM
takes the committed image, the active one or the pending one, in that order, or goes to the safe state; the tests and the
load go on or go to the safe state, where the tests skip what is off and cover every other unit unless one fails; INIT ends
READY when every die's map counts its enabled cores. The model's choices in it: log entries 16 (the handler of the image), 27, 86,
88, 89 and 131 (the numbers of the mesh links). -/
def Obligations.BringUp : Prop :=
  (∀ (s : State),
    (s.phase = .off → exec .powerGood s = .next (s.resetTo .rom)) ∧ (s.phase ≠ .off → exec .powerGood s = .next s)
    ∧ exec .powerLoss s = .next (s.resetTo .off)
    ∧ (s.phase ≠ .off → exec .pcieConventionalReset s = .next (s.resetTo .rom))
    ∧ (s.phase = .off → exec .pcieConventionalReset s = .next s))
  ∧ (∀ (s : State) (p : Phase),
    let t := s.resetTo p
    t.phase = p ∧ t.flash = s.flash ∧ t.log = s.log ∧ t.cores = [] ∧ t.recs = [] ∧ t.queues = [] ∧ t.asids = [] ∧ t.ptes = [] ∧ t.vfs = []
      ∧ t.mailbox = {} ∧ t.cycle = 0 ∧ (∀ a, a < 2 ^ 60 → t.mem.byte a = s.mem.byte a) ∧ ∀ a, 2 ^ 60 ≤ a → t.mem.byte a = 0)
  ∧ (∀ (s : State), s.phase = .rom →
    let f := s.flash
    let takes := f.commit = true ∧ imgVerifies f.pend f.counter = true
    (takes → exec .rom s = .next { s with
      flash := { f with active := f.pend, pend := [], commit := false, counter := imgSvn f.pend }, phase := .selftest })
    ∧ (¬ takes → imgVerifies f.active f.counter = true →
      exec .rom s = .next { s with flash := { f with commit := false }, phase := .selftest })
    ∧ (¬ takes → imgVerifies f.active f.counter = false → imgVerifies f.pend f.counter = true →
      exec .rom s = .next { s with flash := { f with active := f.pend, pend := [], commit := false }, phase := .selftest })
    ∧ (imgVerifies f.active f.counter = false → imgVerifies f.pend f.counter = false →
      exec .rom s = .next { s with flash := { f with commit := false }, phase := .safe }))
  ∧ (∀ (s : State), s.phase ≠ .rom → exec .rom s = .next s)
  ∧ (∀ (tests : List TestRun) (s : State),
    let tests' := tests.filter fun x => s.testable x.kind x.unit
    let whole := (∃ x ∈ tests', x.passed = false)
      ∨ ∀ k n, k < 7 → s.testable k n = true → ∃ x ∈ tests', x.kind = k ∧ x.unit = n
    (s.phase ≠ .selftest ∨ ¬ whole → exec (.selftest tests) s = .next s)
    ∧ (s.phase = .selftest → whole → ∃ t, exec (.selftest tests) s = .next t ∧ t.mem = s.mem ∧ t.flash = s.flash
      ∧ t.phase = (if ∀ x ∈ tests', x.passed = true then .load else .safe)
      ∧ (s.log.length + tests'.length ≤ 16384 → t.log = s.log ++ tests'.map fun x =>
          { cycle := 0, cls := if x.passed then 0 else 2, kind := x.kind, unit := x.unit, d0 := 0, d1 := 0 })))
  ∧ (∀ (k n : Nat) (s : State), s.testable k n = true ↔ n < [8192, 1024, 8, 15872, 10, 256, 1].getD k 0
    ∧ ¬ (k = 0 ∧ n ∈ s.offSites ∨ k = 1 ∧ n ∈ s.flash.clusters ∨ k = 5 ∧ n ∈ s.flash.channels))
  ∧ (∀ (pass : Bool) (s : State),
    (s.phase ≠ .load → exec (.load pass) s = .next s)
    ∧ (s.phase = .load → exec (.load false) s = .next { s with phase := .safe }
      ∧ exec (.load true) s = .next ((List.range 8).foldl State.startBoot { s with
        phase := .init, fused := s.offSites.foldl (fun l x => insertKey x l) []
        handler := imageHandler s.flash.active, handlers := [] })))
  ∧ (∀ (d lc site : Nat), let x := bootContext d lc site
    x.priv = true ∧ x.ctxtag = 0 ∧ x.level = 2 ∧ x.sreg 3 = BitVec.ofNat 64 d ∧ x.sreg 2 = (if lc = 0 then 1 else 0)
      ∧ (x.areg 0).ptr = mkPtr (17 * 8) 0 bootArgs
      ∧ (lc = 0 → x.sreg 4 = BitVec.ofNat 64 site ∧ x.sreg 5 = BitVec.ofNat 64 (siteXY site).1 ∧ x.sreg 6 = BitVec.ofNat 64 (siteXY site).2)
      ∧ ∀ n, n < 32 → (6 < n ∨ n < 2 ∨ (lc ≠ 0 ∧ 3 < n)) → x.sreg n = 0)
  ∧ (∀ (s : State),
    (s.phase ≠ .init ∨ (∃ r ∈ s.recs, r.2.boot = true ∧ r.2.closed = false) → exec .init s = .next s)
    ∧ (s.phase = .init → (∀ r ∈ s.recs, r.2.boot = true → r.2.closed = true) →
      ((∀ d, d < 8 → s.mapCount d = s.enabledOn d) → exec .init s = .next { s.endBoot with phase := .ready })
      ∧ ((∃ d, d < 8 ∧ s.mapCount d ≠ s.enabledOn d) → ∃ t, exec .init s = .next t ∧ t.phase = .safe ∧ t.cores = [] ∧ t.recs = []
        ∧ t.flash = s.flash)))
  ∧ (∀ (d : Nat) (s : State),
    (s.phase = .init → d < 8 → (∃ r ∈ s.recs, r.2.boot = true ∧ r.2.closed = false ∧ r.2.l.asid = bootAsid d) →
      exec (.initTimeout d) s = .next s.toSafe)
    ∧ (s.phase ≠ .init ∨ 8 ≤ d → exec (.initTimeout d) s = .next s))
  ∧ ∀ (s : State), s.toSafe.phase = .safe ∧ s.toSafe.cores = [] ∧ s.toSafe.recs = [] ∧ s.toSafe.mailbox = s.mailbox ∧ s.toSafe.flash = s.flash

/-- R126, R386, R417, R445, R450, R453: errors enter the log; an uncorrectable one poisons the granule and marks the object
that it strikes, and the third in one unit retires it. A unit without a resident record is fenced at once, its sites are
taken out of service and it enters the retirement record. A fatal fault discards every record, whose windows are aborted, and
holds the compute side in reset. The model's choices in it: log entries 8, 19, 86 (the fatal fault), 87 and 117 (the channels of
the KV pool). -/
def Obligations.ErrorsAndRetirement : Prop :=
  (∀ (u : ErrUnit) (s : State),
    (s.phase = .off → exec (.correctableError u) s = .next s ∧ exec (.uncorrectableError u) s = .next s)
    ∧ (s.phase ≠ .off →
      exec (.correctableError u) s = .next (s.addLog 1 (s.errKind u).1 (s.errKind u).2 0 0)
      ∧ (let t := (s.strike u).addLog 2 (s.errKind u).1 (s.errKind u).2 0 0
        (s.errUnit u = none → exec (.uncorrectableError u) s = .next t)
        ∧ ∀ r, s.errUnit u = some r →
          let n := ((t.errors.find? fun e => decide (e.1 = r)).map (·.2)).getD 0 + 1
          let v := { t with errors := (t.errors.filter fun (e : RetUnit × Nat) => decide (e.1 ≠ r)) ++ [(r, n)] }
          (n < 3 → exec (.uncorrectableError u) s = .next v) ∧ (3 ≤ n → exec (.uncorrectableError u) s = .next (v.retireUnit r)))))
  ∧ (∀ (s : State) (x off : Nat) (l : Loc), off < 2 ^ 18 → s.padObject (corePadKey x + off) = some l → (s.hdr l).typ ≠ tKVPAGE →
    let t := s.strike (.corePad x off)
    (corePadKey x + off) / 32 ∈ t.poison ∧ (t.hdr l).poison = true)
  ∧ (∀ (s : State) (cls kind unit : Nat) (a b : Word),
    let e : LogEntry := { cycle := if s.phase = .ready then s.cycle.toNat else 0, cls := cls, kind := kind, unit := unit, d0 := a, d1 := b }
    let t := s.addLog cls kind unit a b
    (s.log.length < 16384 → t.log = s.log ++ [e] ∧ t.logLost = s.logLost)
    ∧ (16384 ≤ s.log.length → t.log = s.log ∧ t.logLost = s.logLost + 1)
    ∧ t.mailbox.event = (s.mailbox.event || decide (2 ≤ cls)) ∧ t.mem = s.mem ∧ t.cores = s.cores ∧ t.recs = s.recs)
  ∧ (∀ (s : State) (u : RetUnit), u ∉ s.fencing → (∀ n, u = .cluster n → n ∉ s.flash.clusters) →
    (∀ n, u = .channel n → n ∉ s.flash.channels) →
    let t := s.retireUnit u
    (¬ (∀ x ∈ u.sites, (s.coreAt x).recId = none) → u ∈ t.fencing ∧ ∀ x ∈ u.sites, isChan x = false → t.freeSite x = false)
    ∧ ((∀ x ∈ u.sites, (s.coreAt x).recId = none) → u ∉ t.fencing ∧ (∀ x ∈ u.sites, x ∈ t.fused)
      ∧ (∀ n, u = .cluster n → n ∈ t.flash.clusters) ∧ ∀ n, u = .channel n → n ∈ t.flash.channels))
  ∧ (∀ (s : State) (f off : Nat), s.errKind (.kvPage f off) = (5, s.kvChannelOf f off)
    ∧ s.errUnit (.kvPage f off) = some (.channel (s.kvChannelOf f off)))
  ∧ ∀ (cls unit : Nat) (s t : State),
    let i : HostWait := .fatal cls unit
    let live := (s.recs.filter fun r => decide (r.2.st = .running) || decide (r.2.st = .switched)).map (·.1)
    let s1 := if s.phase = .ready then { (live.foldl State.discardRecord s).addLog 3 cls unit 0 0 with phase := .failing } else s
    let open_ := s1.kvTabs.filter (·.abort)
    (s.phase = .ready ∨ s.phase = .failing →
      (finishAborts open_ s1 = .ok false t → exec (.fatalFault cls unit) s = .next t.toSafe)
      ∧ (finishAborts open_ s1 = .ok true t → exec (.fatalFault cls unit) s = .next (t.keepsWait i))
      ∧ (open_ = [] → exec (.fatalFault cls unit) s = .next s1.toSafe))
    ∧ (s.phase ≠ .ready → s.phase ≠ .failing → exec (.fatalFault cls unit) s = .next (s.dropsWait i))

/-- R431, R433, R439, R445 to R449, R453: a mailbox command that finds another one running changes LASTERR alone, and one that
its state does not allow finishes with error 3. Otherwise each has its own effect: the status and the log into the data
window, an image into the pending slot, a partition, a region, a deadline, a retirement, a reset; done, BUSY and DONE change
over, which they do for a deadline once the page of its report object is no longer awaited. The model's choices in it: log entries
76, 83 (the ASID of the report object, and a DEADLINE whose page is awaited), 86, 88, 107 and 132 (a flash error). -/
def Obligations.MailboxCommands : Prop :=
  (∀ i ∈ ([.status, .log, .ident, .imgload, .imgcommit, .reset, .partdef, .region true, .region false, .deadline, .retire] : List Instr), ∀ (s : State), (s.phase = .off → exec i s = .next s)
    ∧ (s.phase ≠ .off → s.mailbox.busy = true → exec i s = .next { s with mailbox := { s.mailbox with lastErr := 1 } }))
  ∧ (∀ i ∈ ([.partdef, .region true, .region false, .deadline, .retire] : List Instr), ∀ (s : State), s.phase ≠ .off → s.phase ≠ .ready → s.mailbox.busy = false → exec i s = .next (s.commanded 3))
  ∧ (∀ (s : State),
    let m := s.mailbox
    (m.busy = false → exec .mailboxCommandDone s = .next s)
    ∧ (∀ isVf target at_ report t, m.busy = true → m.held = some (isVf, target, at_, report) → t.mailbox = m →
      let ask := tryAsk (reportOk (s.reportAsid isVf target) report (s.targetQueues isVf target).length) s
      let finished := fun (u : State) (e : Nat) => ({ u with
        flash := { u.flash with commit := u.flash.commit || u.mailbox.commit }
        mailbox := { u.mailbox with held := none, busy := false, done := true, lastErr := e, result := 0, commit := false } } : State)
      (ask = .ok none t → exec .mailboxCommandDone s = .next { t with mailbox := { m with result := 0 } })
      ∧ (ask = .ok (some false) t → exec .mailboxCommandDone s = .next (finished t 2))
      ∧ (ask = .ok (some true) t → exec .mailboxCommandDone s = .next (finished (t.postDeadline isVf target at_ report) 0)))
    ∧ (m.busy = true → m.held = none → exec .mailboxCommandDone s = .next { s with
      flash := { s.flash with commit := s.flash.commit || m.commit }
      mailbox := { m with busy := false, done := true, lastErr := m.result, result := 0, commit := false } }))
  ∧ (∀ (s : State), s.phase ≠ .off → s.mailbox.busy = false →
    let es := (s.log.drop (s.mbarg 0)).take 128
    let cs := (Config.certificates.drop (s.mbarg 0)).take 4096
    (∃ t, exec .status s = .next t ∧ t.mailbox = { (s.commanded 0).mailbox with resp := s.statusWord } ∧ t.mbdata 48 = s.statusBytes
      ∧ t = { s with mailbox := t.mailbox, regs := t.regs })
    ∧ (∃ t, exec .log s = .next t ∧ t.mailbox = { (s.commanded 0).mailbox with event := false }
      ∧ t.mbdata (32 * es.length) = (es.map LogEntry.bytes).flatten ∧ t = { s with mailbox := t.mailbox, regs := t.regs })
    ∧ (∃ t, exec .ident s = .next t ∧ t.mailbox = (s.commanded 0).mailbox ∧ t.mbdata cs.length = cs
      ∧ t = { s with mailbox := t.mailbox, regs := t.regs })
    ∧ exec .reset s = .next (s.resetTo .rom)
    ∧ (let off := s.mbarg 0
      let n := s.mbarg 1
      let p := s.flash.pend
      (n ≤ 4096 → off ≤ p.length → off + n ≤ 0x1300 + 67108864 → exec .imgload s = .next (if Config.flashFails s.free then
        State.commanded { s with free := s.free + 1 } 6
      else State.commanded { s with
        free := s.free + 1, flash := { s.flash with pend := p.take off ++ s.mbdata n ++ p.drop (off + n) } } 0))
      ∧ (4096 < n ∨ p.length < off ∨ 0x1300 + 67108864 < off + n → exec .imgload s = .next (s.commanded 2)))
    ∧ (imgGenuine s.flash.pend = false → exec .imgcommit s = .next (s.commanded 4))
    ∧ (imgGenuine s.flash.pend = true → imgSvn s.flash.pend < s.flash.counter → exec .imgcommit s = .next (s.commanded 5))
    ∧ (imgGenuine s.flash.pend = true → s.flash.counter ≤ imgSvn s.flash.pend → exec .imgcommit s
        = .next (if Config.flashFails s.free then State.commanded { s with free := s.free + 1 } 6
          else State.commanded { s with free := s.free + 1, mailbox := { s.mailbox with commit := true } } 0)))
  ∧ (∀ (s : State), s.phase = .ready → s.mailbox.busy = false →
    let n := s.mbarg 0
    let b := s.mbdata 16
    let p := parsePartition b
    let formed := n < 20 ∧ fieldAt b 0 2 < 2 ^ 13 ∧ fieldAt b 2 2 < 2 ^ 14 ∧ fieldAt b 4 2 < 2 ^ 13 ∧ fieldAt b 8 1 < 4 ∧ fieldAt b 9 7 = 0
      ∧ s.partBusy n = false
    let valid := (fieldAt b 8 1).testBit 0
    (¬ formed → exec .partdef s = .next (s.commanded 2))
    ∧ (formed → valid = true → s.partitionOk n p = true →
      exec .partdef s = .next (State.commanded { s with partitions := store n p s.partitions } 0))
    ∧ (formed → valid = true → s.partitionOk n p = false → exec .partdef s = .next (s.commanded 2))
    ∧ (formed → valid = false → (∀ q ∈ s.queues, q.2.part ≠ n) →
      exec .partdef s = .next (State.commanded { s with partitions := erase n s.partitions } 0))
    ∧ (formed → valid = false → (∃ q ∈ s.queues, q.2.part = n) → exec .partdef s = .next (s.commanded 2)))
  ∧ (∀ (s : State) (secure : Bool), s.phase = .ready → s.mailbox.busy = false →
    let n := s.mbarg 0
    let lo := s.mbarg 1
    let hi := s.mbarg 2
    let r : WorldRegion := { valid := lo.testBit 0, base := lo / 2 ^ 21 % 2 ^ 43, units := hi % 2 ^ 32, secure := lo.testBit 1, lock := lo.testBit 2 }
    let ok := secure = true ∧ n < 64 ∧ (lookup {} n s.regionTbl : WorldRegion).lock = false ∧ lo / 2 ^ 3 % 2 ^ 18 = 0 ∧ hi / 2 ^ 32 % 2 ^ 32 = 0
      ∧ (r.valid = true → r.units ≠ 0 ∧ ∀ e ∈ s.regionTbl, e.1 ≠ n → e.2.valid = true →
        e.2.base + e.2.units ≤ r.base ∨ r.base + r.units ≤ e.2.base)
    (ok → exec (.region secure) s = .next (State.commanded (State.refuseSecure { s with regionTbl := store n r s.regionTbl }) 0))
    ∧ (¬ ok → exec (.region secure) s = .next (s.commanded 2)))
  ∧ (∀ (s t : State), s.phase = .ready → s.mailbox.busy = false →
    let isVf := decide (s.mbarg 0 = 2)
    let target := s.mbarg 1
    let report := s.reg (.mbarg 3)
    let asks := (s.mbarg 0 = 1 ∨ s.mbarg 0 = 2) ∧ s.deadlineTarget isVf target = true
    let holds := fun (u : State) (h : Option (Bool × Nat × Nat × Word)) => ({ u with mailbox := { u.mailbox with held := h } } : State)
    (¬ asks → exec .deadline s = .next (s.commanded 2))
    ∧ (asks → t.phase = .ready → t.mailbox = s.mailbox → t.regs = s.regs →
      let ask := tryAsk (reportOk (s.reportAsid isVf target) report (s.targetQueues isVf target).length) s
      (ask = .ok (some false) t → exec .deadline s = .next (holds (t.commanded 2) none))
      ∧ (ask = .ok none t → exec .deadline s = .next (holds (t.commanded 0) (some (isVf, target, s.mbarg 2, report))))
      ∧ (ask = .ok (some true) t →
        let u := t.begun.postDeadline isVf target (s.mbarg 2) report
        exec .deadline s = .next { u with mailbox := { u.mailbox with held := none, result := 0 } })))
  ∧ ∀ (s : State), s.phase = .ready → s.mailbox.busy = false →
    let kind := s.mbarg 0
    let n := s.mbarg 1
    let done := fun (u : State) => { u with mailbox := { u.mailbox with result := 0 } }
    (kind = 1 → n < 1024 → exec .retire s = .next (done (s.begun.retireUnit (.cluster n))))
    ∧ (kind = 2 → n < 256 → exec .retire s = .next (done (s.begun.retireUnit (.channel n))))
    ∧ (¬ (kind = 1 ∧ n < 1024 ∨ kind = 2 ∧ n < 256) → exec .retire s = .next (s.commanded 2))

/-! The machine as a whole. -/

/-- R40, R44, R48: words of the spec's own examples decode to the instructions they stand for. -/
def Obligations.DecodeWords : Prop :=
  decodeWords [0x04642800] = .ok (.add 3 4 5) ∧ decodeWords [0x08A53456] = .ok (.addi 5 5 0x3456)
  ∧ decodeWords [0x40C65804] = .ok (.ld 6 3 5 2 4) ∧ decodeWords [0x4CE20108] = .ok (.rel 7 2 4)
  ∧ decodeWords [0x7295B000] = .ok (.hstart 20 21 22) ∧ decodeWords [0xC8000001] = .ok .tret
  ∧ decodeWords [0xBC02A540] = .ok (.msend 2 20 21) ∧ decodeWords [0xFC000012] = .ok (.pfxImm 0x12)
  ∧ decodeWords [0x00000000] = .error .reservedMajor

/-- R2, R40, R44, R48: every well-formed instruction of the set decodes from its words to itself with every operand, from bytes as
from words where it is one word; and the word of an instruction is the only one that decodes to it. -/
def Obligations.DecodeEncode : Prop :=
  (∀ i : Instr, i.wf = true → wordNat i ≠ 0 → decodeWords (encode i) = .ok i)
  ∧ (∀ (i : Instr) (rest : List Byte), i.wf = true → wordNat i ≠ 0 → formPfx i = .none →
    decodeBytes ((encode i).flatMap wordBytes ++ rest) = .ok (i, rest))
  ∧ ∀ (w : BitVec 32) (i : Instr), decodeNat w.toNat = .ok i → encode i = [w]

/-- R68, R69, R96, R46: a turn of a context whose next word decodes runs that instruction, and after a prefix the word that
it governs as well; a fetch that faults traps; an event of the agenda takes its effect. A context issues only in its turn of the
round-robin (R21, R96), and none while the engine work of a stepped push is under way (R414); after each turn a waiting context
whose condition holds is READY (R95). The word that `withFetchWord` places is the one that the next step runs. The model's choices
in it: log entries 26, 28, and 91 and 92 (the value of ILLEGAL for a word without a meaning). -/
def Obligations.StepRunsDecoded : Prop :=
  (∀ (s : State) (site n x : Nat) (rest : List Turn) (i : Instr) (t : State), s.agenda = .issue site n :: rest → site < siteCount →
    let s0 := { s with agenda := rest }
    let c := s0.coreAt site
    s0.dueCauses c = [] → s0.drains c = false → c.tuft = false → c.issuer n = some x → c.round.head? = some x → (s0.focus site x).fetched site = .ok i →
    exec i (s0.focus site x) = .next t →
    (t.latched x = false → step s = .next (t.noteIssue site x (c.turnAt x)).settled)
    ∧ ∀ (j : Instr) (u : State), t.latched x = true → t.fetched site = .ok j → exec j t = .next u →
      step s = .next ((u.unlatch site x).noteIssue site x (c.turnAt x)).settled)
  ∧ (∀ (s : State) (site n x : Nat) (rest : List Turn), s.agenda = .issue site n :: rest → site < siteCount →
    let s0 := { s with agenda := rest }
    let c := s0.coreAt site
    s0.dueCauses c = [] → s0.drains c = false → c.tuft = false → c.issuer n = some x →
    (∀ (code : BitVec 8) (v : Word), c.round.head? = some x → (s0.focus site x).fetched site = .error (code, v) →
      step s = .next (((s0.focus site x).trapHere code v false).noteIssue site x (c.turnAt x)).settled)
    ∧ (c.round.head? ≠ some x → step s = .next s0.settled))
  ∧ (∀ (s : State) (site n : Nat) (rest : List Turn), s.agenda = .issue site n :: rest → site < siteCount →
    let s0 := { s with agenda := rest }
    let c := s0.coreAt site
    s0.dueCauses c = [] → s0.drains c = true → c.tuft = false → step s = .next s0.settled)
  ∧ (∀ (s : State) (site : Nat), (s.fetched site =
    let pc := s.ctx.pc
    if pc.toNat % 4 ≠ 0 then .error (Cause.misalign.code, pc)
    else match { s with site := site }.codeWord pc.toNat with
      | none => .error (Cause.bounds.code, pc)
      | some w => match decodeUnder s.ctx.pfx w with
        | .ok i => .ok i
        | .error _ => .error (Cause.illegal.code, illegalValue w s.core.inMiss)))
  ∧ (∀ (s : State) (i : Instr) (rest : List Turn), s.agenda = .event i :: rest → isEvent i = true →
    ∀ t, exec i { s with agenda := rest } = .next t → step s = .next t.settled)
  ∧ (∀ s : State, s.settled = (State.settleTables s.endYields.noteEligible.noteVacant).wake)
  ∧ (∀ (s : State) (site n : Nat),
    let c := s.coreAt site
    n ≤ 10 → (c.ctxAt n).st = .waiting → c.recId.isSome = true → c.halted = false → s.atWfi site site n = false →
    s.wakeCtx site n = if s.awaited site n = true then s.setCore site (c.setCtx n { c.ctxAt n with st := .ready }) else s)
  ∧ ∀ (w : Nat) (i : Instr) (t : State), w < 2 ^ 32 → decodeNat w = .ok i → asPfx i = none →
    let s := { State.reset.withFetchWord 32 w with agenda := [] }
    exec i s = .next t → t.latched 0 = false → step (State.reset.withFetchWord 32 w) = .next (t.noteIssue 0 0 0).settled

/-- R4, R33, R37, R49: every instruction and event answers a next state, whatever the state, so that a step is safe while
its agenda names sites of the package. An instruction with a reserved field value, or of a unit that the core lacks, raises
ILLEGAL with its word. The model's choices in it: log entries 92 and 93. -/
def Obligations.EveryInstructionAnswers : Prop :=
  (∀ (i : Instr) (s : State), ∃ t, exec i s = .next t)
  ∧ (∀ s : State, s.sitesOk = true → Safe s)
  ∧ (∀ (i : Instr) (s : State), wordNat i ≠ 0 → i.wf = false ∨ s.hasUnit i = false →
    exec i s = .next (s.trapHere Cause.illegal.code (BitVec.ofNat 64 (wordNat i)) false))

/-- R32, R88, R95, R389, R441: right after reset start-up is in ROM, nothing lies in memory, no record runs and no core is in use: every
normal context is FREE, `p0` is all ones, IE is 1 and no shadow executes. The zeros of the registers are the model's choice (log
entry 13), and so are what an empty byte reads as (log entry 6), and the empty lists and the states of cores and contexts (log
entry 29). -/
def Obligations.ResetState : Prop :=
  State.reset.phase = .rom ∧ State.reset.cycle = 0 ∧ State.reset.routes = [] ∧ State.reset.mem.wf = true ∧ (∀ a, State.reset.mem.byte a = 0)
  ∧ State.reset.hostMem = []
  ∧ State.reset.recs = [] ∧ State.reset.queues = [] ∧ State.reset.asids = [] ∧ State.reset.log = []
  ∧ (∀ site, let c := State.reset.coreAt site
    c.recId = none ∧ c.ie = true ∧ c.tshadow = false ∧ c.miss = none ∧ c.rx = [] ∧ c.wmb = [] ∧ c.copies = []
      ∧ ∀ n, n < 13 → let x := c.ctxAt n
        (n ≤ 10 → x.st = .free) ∧ x.instret = 0 ∧ x.fpctl = 0 ∧ x.level = 0 ∧ x.preg 0 = BitVec.allOnes 128 ∧ ∀ r, r < 32 → x.sreg r = 0)
  ∧ (∀ p, (State.reset.vfAt p).featAcc = 0)

/-- The memory, and what the device has written to host memory, keep their one form: keys rise and no byte that is listed is the
one an unlisted key reads as. Every step that answers a next state keeps it, from any state that has it. The form is the model's
own (log entries 5, 6 and 72). -/
def Obligations.StepKeepsMemoryForm : Prop :=
  ∀ s t : State, s.mem.wf = true → s.hostMem.wf = true → step s = .next t → t.mem.wf = true ∧ t.hostMem.wf = true
end

