-- ==== Sys2Proof/Laws/Tables.lean ====
section
/-! SUPPORT. Laws of the sorted tables and of memory: what is read after a write, and that every memory operation keeps
the canonical form. -/

namespace Sys2Proof.Machine

/-! Tables. -/

@[simp] theorem lookup_store_self {α : Type} (d : α) (k : Nat) (v : α) (l : List (Nat × α)) :
    lookup d k (store k v l) = v := by
  induction l with
  | nil => simp [store, lookup]
  | cons e t ih =>
    obtain ⟨j, u⟩ := e
    simp only [store]
    split
    · simp [lookup]
    · split
      · simp [lookup]
      · rename_i h1 h2
        simp [lookup, ih, Ne.symm h2]

theorem lookup_store_ne {α : Type} (d : α) {k j : Nat} (h : j ≠ k) (v : α) (l : List (Nat × α)) :
    lookup d j (store k v l) = lookup d j l := by
  induction l with
  | nil => simp [store, lookup, Ne.symm h]
  | cons e t ih =>
    obtain ⟨i, u⟩ := e
    simp only [store]
    split
    · simp [lookup, Ne.symm h]
    · split
      · rename_i h1 h2
        subst h2
        simp [lookup, Ne.symm h]
      · simp [lookup, ih]

@[simp] theorem store_store {α : Type} (k : Nat) (u v : α) (l : List (Nat × α)) :
    store k v (store k u l) = store k v l := by
  induction l with
  | nil => simp [store]
  | cons e t ih =>
    obtain ⟨j, w⟩ := e
    simp only [store]
    split
    · simp [store]
    · split
      · simp [store]
      · rename_i h1 h2
        simp [store, h1, h2, ih]

@[simp] theorem find_store_self {α : Type} (k : Nat) (v : α) (l : List (Nat × α)) : find k (store k v l) = some v := by
  induction l with
  | nil => simp [store, find]
  | cons e t ih =>
    obtain ⟨j, u⟩ := e
    simp only [store]
    split
    · simp [find]
    · split
      · simp [find]
      · rename_i h1 h2
        simp [find, ih, Ne.symm h2]

theorem find_store_ne {α : Type} {k j : Nat} (h : j ≠ k) (v : α) (l : List (Nat × α)) :
    find j (store k v l) = find j l := by
  induction l with
  | nil => simp [store, find, Ne.symm h]
  | cons e t ih =>
    obtain ⟨i, u⟩ := e
    simp only [store]
    split
    · simp [find, Ne.symm h]
    · split
      · rename_i h1 h2
        subst h2
        simp [find, Ne.symm h]
      · simp [find, ih]

/-! The canonical form of memory. -/

/-- Every key of a table lies above a bound. -/
def above (k : Nat) (m : Mem) : Prop := ∀ c ∈ m, k < c.1

theorem Mem.wf_cons (c : Host.Cell) (m : Mem) :
    Mem.wf (c :: m) = true ↔ c.2 ≠ 0 ∧ above c.1 m ∧ Mem.wf m = true := by
  induction m generalizing c with
  | nil => simp [Mem.wf, above]
  | cons d t ih =>
    simp only [Mem.wf, Bool.and_eq_true, bne_iff_ne, ne_eq, decide_eq_true_eq]
    constructor
    · rintro ⟨⟨h1, h2⟩, h3⟩
      refine ⟨h1, ?_, h3⟩
      intro e he
      rcases List.mem_cons.1 he with rfl | he
      · exact h2
      · exact Nat.lt_trans h2 (((ih d).1 h3).2.1 e he)
    · rintro ⟨h1, h2, h3⟩
      exact ⟨⟨h1, h2 d (by simp)⟩, h3⟩

theorem above_mono {k j : Nat} {m : Mem} (h : k ≤ j) (a : above j m) : above k m :=
  fun c hc => Nat.lt_of_le_of_lt h (a c hc)

theorem above_store {k a : Nat} {b : Byte} {m : Mem} (h : k < a) (w : above k m) : above k (store a b m) := by
  induction m with
  | nil => intro c hc; simp [store] at hc; subst hc; exact h
  | cons e t ih =>
    obtain ⟨j, u⟩ := e
    have hj : k < j := w (j, u) (by simp)
    have ht : above k t := fun c hc => w c (by simp [hc])
    simp only [store]
    split
    · intro c hc
      rcases List.mem_cons.1 hc with rfl | hc
      · exact h
      · exact w c hc
    · split
      · intro c hc
        rcases List.mem_cons.1 hc with rfl | hc
        · exact h
        · exact ht c hc
      · intro c hc
        rcases List.mem_cons.1 hc with rfl | hc
        · exact hj
        · exact ih ht c hc

theorem above_erase {k a : Nat} {m : Mem} (w : above k m) : above k (erase a m) := by
  induction m with
  | nil => simpa [erase] using w
  | cons e t ih =>
    obtain ⟨j, u⟩ := e
    have ht : above k t := fun c hc => w c (by simp [hc])
    simp only [erase]
    split
    · exact ih ht
    · intro c hc
      rcases List.mem_cons.1 hc with rfl | hc
      · exact w (j, u) (by simp)
      · exact ih ht c hc

/-- Storing a byte that is not zero keeps the canonical form. -/
theorem Mem.wf_store {a : Nat} {b : Byte} {m : Mem} (hb : b ≠ 0) (w : m.wf = true) : Mem.wf (store a b m) = true := by
  induction m with
  | nil => simpa [store, Mem.wf] using hb
  | cons e t ih =>
    obtain ⟨j, u⟩ := e
    obtain ⟨h1, h2, h3⟩ := (Mem.wf_cons _ _).1 w
    simp only [store]
    split
    · rename_i h
      refine (Mem.wf_cons _ _).2 ⟨hb, ?_, w⟩
      intro c hc
      rcases List.mem_cons.1 hc with rfl | hc
      · exact h
      · exact Nat.lt_trans h (h2 c hc)
    · split
      · rename_i h
        subst h
        exact (Mem.wf_cons _ _).2 ⟨hb, h2, h3⟩
      · rename_i ha hn
        exact (Mem.wf_cons _ _).2 ⟨h1, above_store (Nat.lt_of_le_of_ne (Nat.le_of_not_lt ha) (Ne.symm hn)) h2, ih h3⟩

theorem Mem.wf_erase {a : Nat} {m : Mem} (w : m.wf = true) : Mem.wf (erase a m) = true := by
  induction m with
  | nil => simpa [erase] using w
  | cons e t ih =>
    obtain ⟨j, u⟩ := e
    obtain ⟨h1, h2, h3⟩ := (Mem.wf_cons _ _).1 w
    simp only [erase]
    split
    · exact ih h3
    · exact (Mem.wf_cons _ _).2 ⟨h1, above_erase h2, ih h3⟩

theorem Mem.wf_filter {p : Host.Cell → Bool} {m : Mem} (w : m.wf = true) : Mem.wf (m.filter p) = true := by
  induction m with
  | nil => simpa using w
  | cons e t ih =>
    obtain ⟨h1, h2, h3⟩ := (Mem.wf_cons _ _).1 w
    by_cases hp : p e = true
    · rw [List.filter_cons_of_pos hp]
      exact (Mem.wf_cons _ _).2 ⟨h1, fun c hc => h2 c (List.mem_filter.1 hc).1, ih h3⟩
    · rw [List.filter_cons_of_neg (by simpa using hp)]
      exact ih h3

/-- Writing a byte keeps the canonical form; a zero removes the entry. -/
theorem Mem.wf_set {a : Nat} {b : Byte} {m : Mem} (w : m.wf = true) : (m.set a b).wf = true := by
  unfold Mem.set
  split
  · exact Mem.wf_erase w
  · rename_i h
    exact Mem.wf_store h w

theorem Mem.wf_clear {a n : Nat} {m : Mem} (w : m.wf = true) : (m.clear a n).wf = true := Mem.wf_filter w

theorem Mem.wf_setBytes {a : Nat} {bs : List Byte} {m : Mem} (w : m.wf = true) : (m.setBytes a bs).wf = true := by
  induction bs generalizing a m with
  | nil => exact w
  | cons b t ih => exact ih (Mem.wf_set w)

theorem Mem.wf_foldl {α : Type} (f : Mem → α → Mem) (hf : ∀ m x, m.wf = true → (f m x).wf = true) (l : List α) {m : Mem}
    (w : m.wf = true) : (l.foldl f m).wf = true := by
  induction l generalizing m with
  | nil => exact w
  | cons x t ih => exact ih (hf m x w)

theorem Mem.wf_copy {src dst n : Nat} {m : Mem} (w : m.wf = true) : (m.copy src dst n).wf = true :=
  Mem.wf_foldl _ (fun _ _ h => Mem.wf_set h) _ (Mem.wf_clear w)

theorem Mem.wf_write {a n v : Nat} {m : Mem} (w : m.wf = true) : (m.write a n v).wf = true := Mem.wf_setBytes w

theorem Mem.wf_setHdr {k : Nat} {h : Hdr} {m : Mem} (w : m.wf = true) : (m.setHdr k h).wf = true :=
  Mem.wf_write (Mem.wf_write (Mem.wf_write (Mem.wf_write w)))

/-! What a byte reads after a write. -/

@[simp] theorem lookup_erase_self {α : Type} (d : α) (a : Nat) (l : List (Nat × α)) : lookup d a (erase a l) = d := by
  induction l with
  | nil => rfl
  | cons e t ih =>
    obtain ⟨j, u⟩ := e
    simp only [erase]
    split
    · exact ih
    · rename_i h
      rw [lookup, if_neg h]
      exact ih

theorem lookup_erase_ne {α : Type} (d : α) {a k : Nat} (h : k ≠ a) (l : List (Nat × α)) :
    lookup d k (erase a l) = lookup d k l := by
  induction l with
  | nil => rfl
  | cons e t ih =>
    obtain ⟨j, u⟩ := e
    simp only [erase]
    split
    · rename_i hj
      subst hj
      rw [ih, lookup, if_neg (Ne.symm h)]
    · rw [lookup, lookup, ih]

/-- A byte that has been written is read back. -/
@[simp] theorem Mem.byte_set_self (a : Nat) (b : Byte) (m : Mem) : (m.set a b).byte a = b := by
  unfold Mem.set Mem.byte
  split
  · rename_i h
    rw [h]
    exact lookup_erase_self 0 a m
  · exact lookup_store_self 0 a b m

/-- A write leaves every other byte. -/
theorem Mem.byte_set_ne {a k : Nat} (h : k ≠ a) (b : Byte) (m : Mem) : (m.set a b).byte k = m.byte k := by
  unfold Mem.set Mem.byte
  split
  · exact lookup_erase_ne 0 h m
  · exact lookup_store_ne 0 h b m

/-- A write of bytes leaves every byte outside them. -/
theorem Mem.byte_setBytes_outside {a k : Nat} {bs : List Byte} (m : Mem) (h : k < a ∨ a + bs.length ≤ k) :
    (m.setBytes a bs).byte k = m.byte k := by
  induction bs generalizing a m with
  | nil => rfl
  | cons b t ih =>
    simp only [List.length_cons] at h
    simp only [Mem.setBytes]
    rw [ih (m.set a b) (by omega), Mem.byte_set_ne (by omega)]

/-- The bytes written are read back. -/
theorem Mem.byte_setBytes_inside {a : Nat} {bs : List Byte} (m : Mem) {i : Nat} (h : i < bs.length) :
    (m.setBytes a bs).byte (a + i) = bs[i] := by
  induction bs generalizing a m i with
  | nil => simp at h
  | cons b t ih =>
    simp only [Mem.setBytes]
    cases i with
    | zero =>
      rw [Mem.byte_setBytes_outside _ (by omega)]
      simp
    | succ j =>
      simp only [List.length_cons] at h
      have := ih (a := a + 1) (m.set a b) (i := j) (by omega)
      rw [show a + (j + 1) = a + 1 + j by omega]
      simpa using this

end Sys2Proof.Machine
end

