-- ==== Sys2Proof/Laws/State.lean ====
section
/-! SUPPORT. Laws of the state's updates: which field each of them changes, and that it leaves every other one. -/

namespace Sys2Proof.Machine

/-! State.setCore changes `cores` alone. -/

@[simp] theorem State.setCore_site (s : State) (n : Nat) (c : Core) : (s.setCore n c).site = s.site := rfl
@[simp] theorem State.setCore_cycle (s : State) (n : Nat) (c : Core) : (s.setCore n c).cycle = s.cycle := rfl
@[simp] theorem State.setCore_mem (s : State) (n : Nat) (c : Core) : (s.setCore n c).mem = s.mem := rfl
@[simp] theorem State.setCore_dirty (s : State) (n : Nat) (c : Core) : (s.setCore n c).dirty = s.dirty := rfl
@[simp] theorem State.setCore_poison (s : State) (n : Nat) (c : Core) : (s.setCore n c).poison = s.poison := rfl
@[simp] theorem State.setCore_recs (s : State) (n : Nat) (c : Core) : (s.setCore n c).recs = s.recs := rfl
@[simp] theorem State.setCore_nextRec (s : State) (n : Nat) (c : Core) : (s.setCore n c).nextRec = s.nextRec := rfl
@[simp] theorem State.setCore_ptes (s : State) (n : Nat) (c : Core) : (s.setCore n c).ptes = s.ptes := rfl
@[simp] theorem State.setCore_pageReqs (s : State) (n : Nat) (c : Core) : (s.setCore n c).pageReqs = s.pageReqs := rfl
@[simp] theorem State.setCore_tier (s : State) (n : Nat) (c : Core) : (s.setCore n c).tier = s.tier := rfl
@[simp] theorem State.setCore_routes (s : State) (n : Nat) (c : Core) : (s.setCore n c).routes = s.routes := rfl
@[simp] theorem State.setCore_waitq (s : State) (n : Nat) (c : Core) : (s.setCore n c).waitq = s.waitq := rfl
@[simp] theorem State.setCore_reds (s : State) (n : Nat) (c : Core) : (s.setCore n c).reds = s.reds := rfl
@[simp] theorem State.setCore_posts (s : State) (n : Nat) (c : Core) : (s.setCore n c).posts = s.posts := rfl
@[simp] theorem State.setCore_net (s : State) (n : Nat) (c : Core) : (s.setCore n c).net = s.net := rfl
@[simp] theorem State.setCore_missDrops (s : State) (n : Nat) (c : Core) : (s.setCore n c).missDrops = s.missDrops := rfl
@[simp] theorem State.setCore_deadPorts (s : State) (n : Nat) (c : Core) : (s.setCore n c).deadPorts = s.deadPorts := rfl
@[simp] theorem State.setCore_fused (s : State) (n : Nat) (c : Core) : (s.setCore n c).fused = s.fused := rfl
@[simp] theorem State.setCore_phase (s : State) (n : Nat) (c : Core) : (s.setCore n c).phase = s.phase := rfl
@[simp] theorem State.setCore_tx (s : State) (n : Nat) (c : Core) : (s.setCore n c).tx = s.tx := rfl
@[simp] theorem State.setCore_agenda (s : State) (n : Nat) (c : Core) : (s.setCore n c).agenda = s.agenda := rfl
@[simp] theorem State.setCore_turn (s : State) (n : Nat) (c : Core) : (s.setCore n c).turn = s.turn := rfl
@[simp] theorem State.setCore_featOff (s : State) (n : Nat) (c : Core) : (s.setCore n c).featOff = s.featOff := rfl
@[simp] theorem State.setCore_free (s : State) (n : Nat) (c : Core) : (s.setCore n c).free = s.free := rfl
@[simp] theorem State.setCore_asids (s : State) (n : Nat) (c : Core) : (s.setCore n c).asids = s.asids := rfl
@[simp] theorem State.setCore_regionTbl (s : State) (n : Nat) (c : Core) : (s.setCore n c).regionTbl = s.regionTbl := rfl
@[simp] theorem State.setCore_copyins (s : State) (n : Nat) (c : Core) : (s.setCore n c).copyins = s.copyins := rfl
@[simp] theorem State.setCore_units (s : State) (n : Nat) (c : Core) : (s.setCore n c).units = s.units := rfl
@[simp] theorem State.setCore_olds (s : State) (n : Nat) (c : Core) : (s.setCore n c).olds = s.olds := rfl
@[simp] theorem State.setCore_partitions (s : State) (n : Nat) (c : Core) : (s.setCore n c).partitions = s.partitions := rfl
@[simp] theorem State.setCore_arb (s : State) (n : Nat) (c : Core) : (s.setCore n c).arb = s.arb := rfl
@[simp] theorem State.setCore_vfs (s : State) (n : Nat) (c : Core) : (s.setCore n c).vfs = s.vfs := rfl
@[simp] theorem State.setCore_kvTabs (s : State) (n : Nat) (c : Core) : (s.setCore n c).kvTabs = s.kvTabs := rfl
@[simp] theorem State.setCore_kvFrames (s : State) (n : Nat) (c : Core) : (s.setCore n c).kvFrames = s.kvFrames := rfl
@[simp] theorem State.setCore_hostEvents (s : State) (n : Nat) (c : Core) : (s.setCore n c).hostEvents = s.hostEvents := rfl
@[simp] theorem State.setCore_queues (s : State) (n : Nat) (c : Core) : (s.setCore n c).queues = s.queues := rfl
@[simp] theorem State.setCore_slices (s : State) (n : Nat) (c : Core) : (s.setCore n c).slices = s.slices := rfl
@[simp] theorem State.setCore_resvs (s : State) (n : Nat) (c : Core) : (s.setCore n c).resvs = s.resvs := rfl
@[simp] theorem State.setCore_deadlines (s : State) (n : Nat) (c : Core) : (s.setCore n c).deadlines = s.deadlines := rfl
@[simp] theorem State.setCore_mailbox (s : State) (n : Nat) (c : Core) : (s.setCore n c).mailbox = s.mailbox := rfl
@[simp] theorem State.setCore_log (s : State) (n : Nat) (c : Core) : (s.setCore n c).log = s.log := rfl
@[simp] theorem State.setCore_logLost (s : State) (n : Nat) (c : Core) : (s.setCore n c).logLost = s.logLost := rfl
@[simp] theorem State.setCore_flash (s : State) (n : Nat) (c : Core) : (s.setCore n c).flash = s.flash := rfl
@[simp] theorem State.setCore_regs (s : State) (n : Nat) (c : Core) : (s.setCore n c).regs = s.regs := rfl
@[simp] theorem State.setCore_handler (s : State) (n : Nat) (c : Core) : (s.setCore n c).handler = s.handler := rfl
@[simp] theorem State.setCore_bars (s : State) (n : Nat) (c : Core) : (s.setCore n c).bars = s.bars := rfl
@[simp] theorem State.setCore_hostWaits (s : State) (n : Nat) (c : Core) : (s.setCore n c).hostWaits = s.hostWaits := rfl
@[simp] theorem State.setCore_handlers (s : State) (n : Nat) (c : Core) : (s.setCore n c).handlers = s.handlers := rfl
@[simp] theorem State.setCore_hostMem (s : State) (n : Nat) (c : Core) : (s.setCore n c).hostMem = s.hostMem := rfl
@[simp] theorem State.setCore_lostChannels (s : State) (n : Nat) (c : Core) : (s.setCore n c).lostChannels = s.lostChannels := rfl
@[simp] theorem State.setCore_kvMoved (s : State) (n : Nat) (c : Core) : (s.setCore n c).kvMoved = s.kvMoved := rfl
@[simp] theorem State.setCore_fencing (s : State) (n : Nat) (c : Core) : (s.setCore n c).fencing = s.fencing := rfl
@[simp] theorem State.setCore_errors (s : State) (n : Nat) (c : Core) : (s.setCore n c).errors = s.errors := rfl
@[simp] theorem State.setCore_spdm (s : State) (n : Nat) (c : Core) : (s.setCore n c).spdm = s.spdm := rfl
@[simp] theorem State.setCore_hostReads (s : State) (n : Nat) (c : Core) : (s.setCore n c).hostReads = s.hostReads := rfl

/-! State.setCtx changes `cores` alone. -/

@[simp] theorem State.setCtx_site (s : State) (x : Context) : (s.setCtx x).site = s.site := rfl
@[simp] theorem State.setCtx_cycle (s : State) (x : Context) : (s.setCtx x).cycle = s.cycle := rfl
@[simp] theorem State.setCtx_mem (s : State) (x : Context) : (s.setCtx x).mem = s.mem := rfl
@[simp] theorem State.setCtx_dirty (s : State) (x : Context) : (s.setCtx x).dirty = s.dirty := rfl
@[simp] theorem State.setCtx_poison (s : State) (x : Context) : (s.setCtx x).poison = s.poison := rfl
@[simp] theorem State.setCtx_recs (s : State) (x : Context) : (s.setCtx x).recs = s.recs := rfl
@[simp] theorem State.setCtx_nextRec (s : State) (x : Context) : (s.setCtx x).nextRec = s.nextRec := rfl
@[simp] theorem State.setCtx_ptes (s : State) (x : Context) : (s.setCtx x).ptes = s.ptes := rfl
@[simp] theorem State.setCtx_pageReqs (s : State) (x : Context) : (s.setCtx x).pageReqs = s.pageReqs := rfl
@[simp] theorem State.setCtx_tier (s : State) (x : Context) : (s.setCtx x).tier = s.tier := rfl
@[simp] theorem State.setCtx_routes (s : State) (x : Context) : (s.setCtx x).routes = s.routes := rfl
@[simp] theorem State.setCtx_waitq (s : State) (x : Context) : (s.setCtx x).waitq = s.waitq := rfl
@[simp] theorem State.setCtx_reds (s : State) (x : Context) : (s.setCtx x).reds = s.reds := rfl
@[simp] theorem State.setCtx_posts (s : State) (x : Context) : (s.setCtx x).posts = s.posts := rfl
@[simp] theorem State.setCtx_net (s : State) (x : Context) : (s.setCtx x).net = s.net := rfl
@[simp] theorem State.setCtx_missDrops (s : State) (x : Context) : (s.setCtx x).missDrops = s.missDrops := rfl
@[simp] theorem State.setCtx_deadPorts (s : State) (x : Context) : (s.setCtx x).deadPorts = s.deadPorts := rfl
@[simp] theorem State.setCtx_fused (s : State) (x : Context) : (s.setCtx x).fused = s.fused := rfl
@[simp] theorem State.setCtx_phase (s : State) (x : Context) : (s.setCtx x).phase = s.phase := rfl
@[simp] theorem State.setCtx_tx (s : State) (x : Context) : (s.setCtx x).tx = s.tx := rfl
@[simp] theorem State.setCtx_agenda (s : State) (x : Context) : (s.setCtx x).agenda = s.agenda := rfl
@[simp] theorem State.setCtx_turn (s : State) (x : Context) : (s.setCtx x).turn = s.turn := rfl
@[simp] theorem State.setCtx_featOff (s : State) (x : Context) : (s.setCtx x).featOff = s.featOff := rfl
@[simp] theorem State.setCtx_free (s : State) (x : Context) : (s.setCtx x).free = s.free := rfl
@[simp] theorem State.setCtx_asids (s : State) (x : Context) : (s.setCtx x).asids = s.asids := rfl
@[simp] theorem State.setCtx_regionTbl (s : State) (x : Context) : (s.setCtx x).regionTbl = s.regionTbl := rfl
@[simp] theorem State.setCtx_copyins (s : State) (x : Context) : (s.setCtx x).copyins = s.copyins := rfl
@[simp] theorem State.setCtx_units (s : State) (x : Context) : (s.setCtx x).units = s.units := rfl
@[simp] theorem State.setCtx_olds (s : State) (x : Context) : (s.setCtx x).olds = s.olds := rfl
@[simp] theorem State.setCtx_partitions (s : State) (x : Context) : (s.setCtx x).partitions = s.partitions := rfl
@[simp] theorem State.setCtx_arb (s : State) (x : Context) : (s.setCtx x).arb = s.arb := rfl
@[simp] theorem State.setCtx_vfs (s : State) (x : Context) : (s.setCtx x).vfs = s.vfs := rfl
@[simp] theorem State.setCtx_kvTabs (s : State) (x : Context) : (s.setCtx x).kvTabs = s.kvTabs := rfl
@[simp] theorem State.setCtx_kvFrames (s : State) (x : Context) : (s.setCtx x).kvFrames = s.kvFrames := rfl
@[simp] theorem State.setCtx_hostEvents (s : State) (x : Context) : (s.setCtx x).hostEvents = s.hostEvents := rfl
@[simp] theorem State.setCtx_queues (s : State) (x : Context) : (s.setCtx x).queues = s.queues := rfl
@[simp] theorem State.setCtx_slices (s : State) (x : Context) : (s.setCtx x).slices = s.slices := rfl
@[simp] theorem State.setCtx_resvs (s : State) (x : Context) : (s.setCtx x).resvs = s.resvs := rfl
@[simp] theorem State.setCtx_deadlines (s : State) (x : Context) : (s.setCtx x).deadlines = s.deadlines := rfl
@[simp] theorem State.setCtx_mailbox (s : State) (x : Context) : (s.setCtx x).mailbox = s.mailbox := rfl
@[simp] theorem State.setCtx_log (s : State) (x : Context) : (s.setCtx x).log = s.log := rfl
@[simp] theorem State.setCtx_logLost (s : State) (x : Context) : (s.setCtx x).logLost = s.logLost := rfl
@[simp] theorem State.setCtx_flash (s : State) (x : Context) : (s.setCtx x).flash = s.flash := rfl
@[simp] theorem State.setCtx_regs (s : State) (x : Context) : (s.setCtx x).regs = s.regs := rfl
@[simp] theorem State.setCtx_handler (s : State) (x : Context) : (s.setCtx x).handler = s.handler := rfl
@[simp] theorem State.setCtx_bars (s : State) (x : Context) : (s.setCtx x).bars = s.bars := rfl
@[simp] theorem State.setCtx_hostWaits (s : State) (x : Context) : (s.setCtx x).hostWaits = s.hostWaits := rfl
@[simp] theorem State.setCtx_handlers (s : State) (x : Context) : (s.setCtx x).handlers = s.handlers := rfl
@[simp] theorem State.setCtx_hostMem (s : State) (x : Context) : (s.setCtx x).hostMem = s.hostMem := rfl
@[simp] theorem State.setCtx_lostChannels (s : State) (x : Context) : (s.setCtx x).lostChannels = s.lostChannels := rfl
@[simp] theorem State.setCtx_kvMoved (s : State) (x : Context) : (s.setCtx x).kvMoved = s.kvMoved := rfl
@[simp] theorem State.setCtx_fencing (s : State) (x : Context) : (s.setCtx x).fencing = s.fencing := rfl
@[simp] theorem State.setCtx_errors (s : State) (x : Context) : (s.setCtx x).errors = s.errors := rfl
@[simp] theorem State.setCtx_spdm (s : State) (x : Context) : (s.setCtx x).spdm = s.spdm := rfl
@[simp] theorem State.setCtx_hostReads (s : State) (x : Context) : (s.setCtx x).hostReads = s.hostReads := rfl

/-! State.setRec changes `recs` alone. -/

@[simp] theorem State.setRec_site (s : State) (r : Nat) (x : Rec) : (s.setRec r x).site = s.site := rfl
@[simp] theorem State.setRec_cycle (s : State) (r : Nat) (x : Rec) : (s.setRec r x).cycle = s.cycle := rfl
@[simp] theorem State.setRec_cores (s : State) (r : Nat) (x : Rec) : (s.setRec r x).cores = s.cores := rfl
@[simp] theorem State.setRec_mem (s : State) (r : Nat) (x : Rec) : (s.setRec r x).mem = s.mem := rfl
@[simp] theorem State.setRec_dirty (s : State) (r : Nat) (x : Rec) : (s.setRec r x).dirty = s.dirty := rfl
@[simp] theorem State.setRec_poison (s : State) (r : Nat) (x : Rec) : (s.setRec r x).poison = s.poison := rfl
@[simp] theorem State.setRec_nextRec (s : State) (r : Nat) (x : Rec) : (s.setRec r x).nextRec = s.nextRec := rfl
@[simp] theorem State.setRec_ptes (s : State) (r : Nat) (x : Rec) : (s.setRec r x).ptes = s.ptes := rfl
@[simp] theorem State.setRec_pageReqs (s : State) (r : Nat) (x : Rec) : (s.setRec r x).pageReqs = s.pageReqs := rfl
@[simp] theorem State.setRec_tier (s : State) (r : Nat) (x : Rec) : (s.setRec r x).tier = s.tier := rfl
@[simp] theorem State.setRec_routes (s : State) (r : Nat) (x : Rec) : (s.setRec r x).routes = s.routes := rfl
@[simp] theorem State.setRec_waitq (s : State) (r : Nat) (x : Rec) : (s.setRec r x).waitq = s.waitq := rfl
@[simp] theorem State.setRec_reds (s : State) (r : Nat) (x : Rec) : (s.setRec r x).reds = s.reds := rfl
@[simp] theorem State.setRec_posts (s : State) (r : Nat) (x : Rec) : (s.setRec r x).posts = s.posts := rfl
@[simp] theorem State.setRec_net (s : State) (r : Nat) (x : Rec) : (s.setRec r x).net = s.net := rfl
@[simp] theorem State.setRec_missDrops (s : State) (r : Nat) (x : Rec) : (s.setRec r x).missDrops = s.missDrops := rfl
@[simp] theorem State.setRec_deadPorts (s : State) (r : Nat) (x : Rec) : (s.setRec r x).deadPorts = s.deadPorts := rfl
@[simp] theorem State.setRec_fused (s : State) (r : Nat) (x : Rec) : (s.setRec r x).fused = s.fused := rfl
@[simp] theorem State.setRec_phase (s : State) (r : Nat) (x : Rec) : (s.setRec r x).phase = s.phase := rfl
@[simp] theorem State.setRec_tx (s : State) (r : Nat) (x : Rec) : (s.setRec r x).tx = s.tx := rfl
@[simp] theorem State.setRec_agenda (s : State) (r : Nat) (x : Rec) : (s.setRec r x).agenda = s.agenda := rfl
@[simp] theorem State.setRec_turn (s : State) (r : Nat) (x : Rec) : (s.setRec r x).turn = s.turn := rfl
@[simp] theorem State.setRec_featOff (s : State) (r : Nat) (x : Rec) : (s.setRec r x).featOff = s.featOff := rfl
@[simp] theorem State.setRec_free (s : State) (r : Nat) (x : Rec) : (s.setRec r x).free = s.free := rfl
@[simp] theorem State.setRec_asids (s : State) (r : Nat) (x : Rec) : (s.setRec r x).asids = s.asids := rfl
@[simp] theorem State.setRec_regionTbl (s : State) (r : Nat) (x : Rec) : (s.setRec r x).regionTbl = s.regionTbl := rfl
@[simp] theorem State.setRec_copyins (s : State) (r : Nat) (x : Rec) : (s.setRec r x).copyins = s.copyins := rfl
@[simp] theorem State.setRec_units (s : State) (r : Nat) (x : Rec) : (s.setRec r x).units = s.units := rfl
@[simp] theorem State.setRec_olds (s : State) (r : Nat) (x : Rec) : (s.setRec r x).olds = s.olds := rfl
@[simp] theorem State.setRec_partitions (s : State) (r : Nat) (x : Rec) : (s.setRec r x).partitions = s.partitions := rfl
@[simp] theorem State.setRec_arb (s : State) (r : Nat) (x : Rec) : (s.setRec r x).arb = s.arb := rfl
@[simp] theorem State.setRec_vfs (s : State) (r : Nat) (x : Rec) : (s.setRec r x).vfs = s.vfs := rfl
@[simp] theorem State.setRec_kvTabs (s : State) (r : Nat) (x : Rec) : (s.setRec r x).kvTabs = s.kvTabs := rfl
@[simp] theorem State.setRec_kvFrames (s : State) (r : Nat) (x : Rec) : (s.setRec r x).kvFrames = s.kvFrames := rfl
@[simp] theorem State.setRec_hostEvents (s : State) (r : Nat) (x : Rec) : (s.setRec r x).hostEvents = s.hostEvents := rfl
@[simp] theorem State.setRec_queues (s : State) (r : Nat) (x : Rec) : (s.setRec r x).queues = s.queues := rfl
@[simp] theorem State.setRec_slices (s : State) (r : Nat) (x : Rec) : (s.setRec r x).slices = s.slices := rfl
@[simp] theorem State.setRec_resvs (s : State) (r : Nat) (x : Rec) : (s.setRec r x).resvs = s.resvs := rfl
@[simp] theorem State.setRec_deadlines (s : State) (r : Nat) (x : Rec) : (s.setRec r x).deadlines = s.deadlines := rfl
@[simp] theorem State.setRec_mailbox (s : State) (r : Nat) (x : Rec) : (s.setRec r x).mailbox = s.mailbox := rfl
@[simp] theorem State.setRec_log (s : State) (r : Nat) (x : Rec) : (s.setRec r x).log = s.log := rfl
@[simp] theorem State.setRec_logLost (s : State) (r : Nat) (x : Rec) : (s.setRec r x).logLost = s.logLost := rfl
@[simp] theorem State.setRec_flash (s : State) (r : Nat) (x : Rec) : (s.setRec r x).flash = s.flash := rfl
@[simp] theorem State.setRec_regs (s : State) (r : Nat) (x : Rec) : (s.setRec r x).regs = s.regs := rfl
@[simp] theorem State.setRec_handler (s : State) (r : Nat) (x : Rec) : (s.setRec r x).handler = s.handler := rfl
@[simp] theorem State.setRec_bars (s : State) (r : Nat) (x : Rec) : (s.setRec r x).bars = s.bars := rfl
@[simp] theorem State.setRec_hostWaits (s : State) (r : Nat) (x : Rec) : (s.setRec r x).hostWaits = s.hostWaits := rfl
@[simp] theorem State.setRec_handlers (s : State) (r : Nat) (x : Rec) : (s.setRec r x).handlers = s.handlers := rfl
@[simp] theorem State.setRec_hostMem (s : State) (r : Nat) (x : Rec) : (s.setRec r x).hostMem = s.hostMem := rfl
@[simp] theorem State.setRec_lostChannels (s : State) (r : Nat) (x : Rec) : (s.setRec r x).lostChannels = s.lostChannels := rfl
@[simp] theorem State.setRec_kvMoved (s : State) (r : Nat) (x : Rec) : (s.setRec r x).kvMoved = s.kvMoved := rfl
@[simp] theorem State.setRec_fencing (s : State) (r : Nat) (x : Rec) : (s.setRec r x).fencing = s.fencing := rfl
@[simp] theorem State.setRec_errors (s : State) (r : Nat) (x : Rec) : (s.setRec r x).errors = s.errors := rfl
@[simp] theorem State.setRec_spdm (s : State) (r : Nat) (x : Rec) : (s.setRec r x).spdm = s.spdm := rfl
@[simp] theorem State.setRec_hostReads (s : State) (r : Nat) (x : Rec) : (s.setRec r x).hostReads = s.hostReads := rfl

/-! State.setVf changes `vfs` alone. -/

@[simp] theorem State.setVf_site (s : State) (v : Nat) (x : Vf) : (s.setVf v x).site = s.site := rfl
@[simp] theorem State.setVf_cycle (s : State) (v : Nat) (x : Vf) : (s.setVf v x).cycle = s.cycle := rfl
@[simp] theorem State.setVf_cores (s : State) (v : Nat) (x : Vf) : (s.setVf v x).cores = s.cores := rfl
@[simp] theorem State.setVf_mem (s : State) (v : Nat) (x : Vf) : (s.setVf v x).mem = s.mem := rfl
@[simp] theorem State.setVf_dirty (s : State) (v : Nat) (x : Vf) : (s.setVf v x).dirty = s.dirty := rfl
@[simp] theorem State.setVf_poison (s : State) (v : Nat) (x : Vf) : (s.setVf v x).poison = s.poison := rfl
@[simp] theorem State.setVf_recs (s : State) (v : Nat) (x : Vf) : (s.setVf v x).recs = s.recs := rfl
@[simp] theorem State.setVf_nextRec (s : State) (v : Nat) (x : Vf) : (s.setVf v x).nextRec = s.nextRec := rfl
@[simp] theorem State.setVf_ptes (s : State) (v : Nat) (x : Vf) : (s.setVf v x).ptes = s.ptes := rfl
@[simp] theorem State.setVf_pageReqs (s : State) (v : Nat) (x : Vf) : (s.setVf v x).pageReqs = s.pageReqs := rfl
@[simp] theorem State.setVf_tier (s : State) (v : Nat) (x : Vf) : (s.setVf v x).tier = s.tier := rfl
@[simp] theorem State.setVf_routes (s : State) (v : Nat) (x : Vf) : (s.setVf v x).routes = s.routes := rfl
@[simp] theorem State.setVf_waitq (s : State) (v : Nat) (x : Vf) : (s.setVf v x).waitq = s.waitq := rfl
@[simp] theorem State.setVf_reds (s : State) (v : Nat) (x : Vf) : (s.setVf v x).reds = s.reds := rfl
@[simp] theorem State.setVf_posts (s : State) (v : Nat) (x : Vf) : (s.setVf v x).posts = s.posts := rfl
@[simp] theorem State.setVf_net (s : State) (v : Nat) (x : Vf) : (s.setVf v x).net = s.net := rfl
@[simp] theorem State.setVf_missDrops (s : State) (v : Nat) (x : Vf) : (s.setVf v x).missDrops = s.missDrops := rfl
@[simp] theorem State.setVf_deadPorts (s : State) (v : Nat) (x : Vf) : (s.setVf v x).deadPorts = s.deadPorts := rfl
@[simp] theorem State.setVf_fused (s : State) (v : Nat) (x : Vf) : (s.setVf v x).fused = s.fused := rfl
@[simp] theorem State.setVf_phase (s : State) (v : Nat) (x : Vf) : (s.setVf v x).phase = s.phase := rfl
@[simp] theorem State.setVf_tx (s : State) (v : Nat) (x : Vf) : (s.setVf v x).tx = s.tx := rfl
@[simp] theorem State.setVf_agenda (s : State) (v : Nat) (x : Vf) : (s.setVf v x).agenda = s.agenda := rfl
@[simp] theorem State.setVf_turn (s : State) (v : Nat) (x : Vf) : (s.setVf v x).turn = s.turn := rfl
@[simp] theorem State.setVf_featOff (s : State) (v : Nat) (x : Vf) : (s.setVf v x).featOff = s.featOff := rfl
@[simp] theorem State.setVf_free (s : State) (v : Nat) (x : Vf) : (s.setVf v x).free = s.free := rfl
@[simp] theorem State.setVf_asids (s : State) (v : Nat) (x : Vf) : (s.setVf v x).asids = s.asids := rfl
@[simp] theorem State.setVf_regionTbl (s : State) (v : Nat) (x : Vf) : (s.setVf v x).regionTbl = s.regionTbl := rfl
@[simp] theorem State.setVf_copyins (s : State) (v : Nat) (x : Vf) : (s.setVf v x).copyins = s.copyins := rfl
@[simp] theorem State.setVf_units (s : State) (v : Nat) (x : Vf) : (s.setVf v x).units = s.units := rfl
@[simp] theorem State.setVf_olds (s : State) (v : Nat) (x : Vf) : (s.setVf v x).olds = s.olds := rfl
@[simp] theorem State.setVf_partitions (s : State) (v : Nat) (x : Vf) : (s.setVf v x).partitions = s.partitions := rfl
@[simp] theorem State.setVf_arb (s : State) (v : Nat) (x : Vf) : (s.setVf v x).arb = s.arb := rfl
@[simp] theorem State.setVf_kvTabs (s : State) (v : Nat) (x : Vf) : (s.setVf v x).kvTabs = s.kvTabs := rfl
@[simp] theorem State.setVf_kvFrames (s : State) (v : Nat) (x : Vf) : (s.setVf v x).kvFrames = s.kvFrames := rfl
@[simp] theorem State.setVf_hostEvents (s : State) (v : Nat) (x : Vf) : (s.setVf v x).hostEvents = s.hostEvents := rfl
@[simp] theorem State.setVf_queues (s : State) (v : Nat) (x : Vf) : (s.setVf v x).queues = s.queues := rfl
@[simp] theorem State.setVf_slices (s : State) (v : Nat) (x : Vf) : (s.setVf v x).slices = s.slices := rfl
@[simp] theorem State.setVf_resvs (s : State) (v : Nat) (x : Vf) : (s.setVf v x).resvs = s.resvs := rfl
@[simp] theorem State.setVf_deadlines (s : State) (v : Nat) (x : Vf) : (s.setVf v x).deadlines = s.deadlines := rfl
@[simp] theorem State.setVf_mailbox (s : State) (v : Nat) (x : Vf) : (s.setVf v x).mailbox = s.mailbox := rfl
@[simp] theorem State.setVf_log (s : State) (v : Nat) (x : Vf) : (s.setVf v x).log = s.log := rfl
@[simp] theorem State.setVf_logLost (s : State) (v : Nat) (x : Vf) : (s.setVf v x).logLost = s.logLost := rfl
@[simp] theorem State.setVf_flash (s : State) (v : Nat) (x : Vf) : (s.setVf v x).flash = s.flash := rfl
@[simp] theorem State.setVf_regs (s : State) (v : Nat) (x : Vf) : (s.setVf v x).regs = s.regs := rfl
@[simp] theorem State.setVf_handler (s : State) (v : Nat) (x : Vf) : (s.setVf v x).handler = s.handler := rfl
@[simp] theorem State.setVf_bars (s : State) (v : Nat) (x : Vf) : (s.setVf v x).bars = s.bars := rfl
@[simp] theorem State.setVf_hostWaits (s : State) (v : Nat) (x : Vf) : (s.setVf v x).hostWaits = s.hostWaits := rfl
@[simp] theorem State.setVf_handlers (s : State) (v : Nat) (x : Vf) : (s.setVf v x).handlers = s.handlers := rfl
@[simp] theorem State.setVf_hostMem (s : State) (v : Nat) (x : Vf) : (s.setVf v x).hostMem = s.hostMem := rfl
@[simp] theorem State.setVf_lostChannels (s : State) (v : Nat) (x : Vf) : (s.setVf v x).lostChannels = s.lostChannels := rfl
@[simp] theorem State.setVf_kvMoved (s : State) (v : Nat) (x : Vf) : (s.setVf v x).kvMoved = s.kvMoved := rfl
@[simp] theorem State.setVf_fencing (s : State) (v : Nat) (x : Vf) : (s.setVf v x).fencing = s.fencing := rfl
@[simp] theorem State.setVf_errors (s : State) (v : Nat) (x : Vf) : (s.setVf v x).errors = s.errors := rfl
@[simp] theorem State.setVf_spdm (s : State) (v : Nat) (x : Vf) : (s.setVf v x).spdm = s.spdm := rfl
@[simp] theorem State.setVf_hostReads (s : State) (v : Nat) (x : Vf) : (s.setVf v x).hostReads = s.hostReads := rfl

/-! Core.setCtx changes `ctxs` alone. -/

@[simp] theorem Core.setCtx_act (c : Core) (n : Nat) (x : Context) : (c.setCtx n x).act = c.act := rfl
@[simp] theorem Core.setCtx_last (c : Core) (n : Nat) (x : Context) : (c.setCtx n x).last = c.last := rfl
@[simp] theorem Core.setCtx_tshadow (c : Core) (n : Nat) (x : Context) : (c.setCtx n x).tshadow = c.tshadow := rfl
@[simp] theorem Core.setCtx_miss (c : Core) (n : Nat) (x : Context) : (c.setCtx n x).miss = c.miss := rfl
@[simp] theorem Core.setCtx_v (c : Core) (n : Nat) (x : Context) : (c.setCtx n x).v = c.v := rfl
@[simp] theorem Core.setCtx_acc (c : Core) (n : Nat) (x : Context) : (c.setCtx n x).acc = c.acc := rfl
@[simp] theorem Core.setCtx_ptrSlots (c : Core) (n : Nat) (x : Context) : (c.setCtx n x).ptrSlots = c.ptrSlots := rfl
@[simp] theorem Core.setCtx_w (c : Core) (n : Nat) (x : Context) : (c.setCtx n x).w = c.w := rfl
@[simp] theorem Core.setCtx_k (c : Core) (n : Nat) (x : Context) : (c.setCtx n x).k = c.k := rfl
@[simp] theorem Core.setCtx_dt (c : Core) (n : Nat) (x : Context) : (c.setCtx n x).dt = c.dt := rfl
@[simp] theorem Core.setCtx_streams (c : Core) (n : Nat) (x : Context) : (c.setCtx n x).streams = c.streams := rfl
@[simp] theorem Core.setCtx_ie (c : Core) (n : Nat) (x : Context) : (c.setCtx n x).ie = c.ie := rfl
@[simp] theorem Core.setCtx_tuft (c : Core) (n : Nat) (x : Context) : (c.setCtx n x).tuft = c.tuft := rfl
@[simp] theorem Core.setCtx_leader (c : Core) (n : Nat) (x : Context) : (c.setCtx n x).leader = c.leader := rfl
@[simp] theorem Core.setCtx_tidx (c : Core) (n : Nat) (x : Context) : (c.setCtx n x).tidx = c.tidx := rfl
@[simp] theorem Core.setCtx_tuftAsk (c : Core) (n : Nat) (x : Context) : (c.setCtx n x).tuftAsk = c.tuftAsk := rfl
@[simp] theorem Core.setCtx_tuftSize (c : Core) (n : Nat) (x : Context) : (c.setCtx n x).tuftSize = c.tuftSize := rfl
@[simp] theorem Core.setCtx_tuftFail (c : Core) (n : Nat) (x : Context) : (c.setCtx n x).tuftFail = c.tuftFail := rfl
@[simp] theorem Core.setCtx_trapcause (c : Core) (n : Nat) (x : Context) : (c.setCtx n x).trapcause = c.trapcause := rfl
@[simp] theorem Core.setCtx_trapval (c : Core) (n : Nat) (x : Context) : (c.setCtx n x).trapval = c.trapval := rfl
@[simp] theorem Core.setCtx_trappc (c : Core) (n : Nat) (x : Context) : (c.setCtx n x).trappc = c.trappc := rfl
@[simp] theorem Core.setCtx_trapflags (c : Core) (n : Nat) (x : Context) : (c.setCtx n x).trapflags = c.trapflags := rfl
@[simp] theorem Core.setCtx_dbgctl (c : Core) (n : Nat) (x : Context) : (c.setCtx n x).dbgctl = c.dbgctl := rfl
@[simp] theorem Core.setCtx_watch (c : Core) (n : Nat) (x : Context) : (c.setCtx n x).watch = c.watch := rfl
@[simp] theorem Core.setCtx_timercmp (c : Core) (n : Nat) (x : Context) : (c.setCtx n x).timercmp = c.timercmp := rfl
@[simp] theorem Core.setCtx_secure (c : Core) (n : Nat) (x : Context) : (c.setCtx n x).secure = c.secure := rfl
@[simp] theorem Core.setCtx_lock (c : Core) (n : Nat) (x : Context) : (c.setCtx n x).lock = c.lock := rfl
@[simp] theorem Core.setCtx_recId (c : Core) (n : Nat) (x : Context) : (c.setCtx n x).recId = c.recId := rfl
@[simp] theorem Core.setCtx_halted (c : Core) (n : Nat) (x : Context) : (c.setCtx n x).halted = c.halted := rfl
@[simp] theorem Core.setCtx_pad (c : Core) (n : Nat) (x : Context) : (c.setCtx n x).pad = c.pad := rfl
@[simp] theorem Core.setCtx_wmb (c : Core) (n : Nat) (x : Context) : (c.setCtx n x).wmb = c.wmb := rfl
@[simp] theorem Core.setCtx_wflags (c : Core) (n : Nat) (x : Context) : (c.setCtx n x).wflags = c.wflags := rfl
@[simp] theorem Core.setCtx_wjobs (c : Core) (n : Nat) (x : Context) : (c.setCtx n x).wjobs = c.wjobs := rfl
@[simp] theorem Core.setCtx_wdone (c : Core) (n : Nat) (x : Context) : (c.setCtx n x).wdone = c.wdone := rfl
@[simp] theorem Core.setCtx_copies (c : Core) (n : Nat) (x : Context) : (c.setCtx n x).copies = c.copies := rfl
@[simp] theorem Core.setCtx_cpdone (c : Core) (n : Nat) (x : Context) : (c.setCtx n x).cpdone = c.cpdone := rfl
@[simp] theorem Core.setCtx_cpbytes (c : Core) (n : Nat) (x : Context) : (c.setCtx n x).cpbytes = c.cpbytes := rfl
@[simp] theorem Core.setCtx_cppages (c : Core) (n : Nat) (x : Context) : (c.setCtx n x).cppages = c.cppages := rfl
@[simp] theorem Core.setCtx_faults (c : Core) (n : Nat) (x : Context) : (c.setCtx n x).faults = c.faults := rfl
@[simp] theorem Core.setCtx_raised (c : Core) (n : Nat) (x : Context) : (c.setCtx n x).raised = c.raised := rfl
@[simp] theorem Core.setCtx_pending (c : Core) (n : Nat) (x : Context) : (c.setCtx n x).pending = c.pending := rfl
@[simp] theorem Core.setCtx_rx (c : Core) (n : Nat) (x : Context) : (c.setCtx n x).rx = c.rx := rfl
@[simp] theorem Core.setCtx_rxpos (c : Core) (n : Nat) (x : Context) : (c.setCtx n x).rxpos = c.rxpos := rfl
@[simp] theorem Core.setCtx_kvtb (c : Core) (n : Nat) (x : Context) : (c.setCtx n x).kvtb = c.kvtb := rfl
@[simp] theorem Core.setCtx_kvnext (c : Core) (n : Nat) (x : Context) : (c.setCtx n x).kvnext = c.kvnext := rfl
@[simp] theorem Core.setCtx_hwrs (c : Core) (n : Nat) (x : Context) : (c.setCtx n x).hwrs = c.hwrs := rfl
@[simp] theorem Core.setCtx_parked (c : Core) (n : Nat) (x : Context) : (c.setCtx n x).parked = c.parked := rfl
@[simp] theorem Core.setCtx_owed (c : Core) (n : Nat) (x : Context) : (c.setCtx n x).owed = c.owed := rfl
@[simp] theorem Core.setCtx_works (c : Core) (n : Nat) (x : Context) : (c.setCtx n x).works = c.works := rfl

/-! Context.setS changes `s` alone. -/

@[simp] theorem Context.setS_st (x : Context) (r : Nat) (v : Word) : (x.setS r v).st = x.st := by unfold Context.setS; split <;> rfl
@[simp] theorem Context.setS_pc (x : Context) (r : Nat) (v : Word) : (x.setS r v).pc = x.pc := by unfold Context.setS; split <;> rfl
@[simp] theorem Context.setS_a (x : Context) (r : Nat) (v : Word) : (x.setS r v).a = x.a := by unfold Context.setS; split <;> rfl
@[simp] theorem Context.setS_p (x : Context) (r : Nat) (v : Word) : (x.setS r v).p = x.p := by unfold Context.setS; split <;> rfl
@[simp] theorem Context.setS_shape (x : Context) (r : Nat) (v : Word) : (x.setS r v).shape = x.shape := by unfold Context.setS; split <;> rfl
@[simp] theorem Context.setS_level (x : Context) (r : Nat) (v : Word) : (x.setS r v).level = x.level := by unfold Context.setS; split <;> rfl
@[simp] theorem Context.setS_portbind (x : Context) (r : Nat) (v : Word) : (x.setS r v).portbind = x.portbind := by unfold Context.setS; split <;> rfl
@[simp] theorem Context.setS_fpctl (x : Context) (r : Nat) (v : Word) : (x.setS r v).fpctl = x.fpctl := by unfold Context.setS; split <;> rfl
@[simp] theorem Context.setS_jobseed (x : Context) (r : Nat) (v : Word) : (x.setS r v).jobseed = x.jobseed := by unfold Context.setS; split <;> rfl
@[simp] theorem Context.setS_srctr (x : Context) (r : Nat) (v : Word) : (x.setS r v).srctr = x.srctr := by unfold Context.setS; split <;> rfl
@[simp] theorem Context.setS_wbatch (x : Context) (r : Nat) (v : Word) : (x.setS r v).wbatch = x.wbatch := by unfold Context.setS; split <;> rfl
@[simp] theorem Context.setS_lcore (x : Context) (r : Nat) (v : Word) : (x.setS r v).lcore = x.lcore := by unfold Context.setS; split <;> rfl
@[simp] theorem Context.setS_ctxtag (x : Context) (r : Nat) (v : Word) : (x.setS r v).ctxtag = x.ctxtag := by unfold Context.setS; split <;> rfl
@[simp] theorem Context.setS_codeptr (x : Context) (r : Nat) (v : Word) : (x.setS r v).codeptr = x.codeptr := by unfold Context.setS; split <;> rfl
@[simp] theorem Context.setS_kvtbase (x : Context) (r : Nat) (v : Word) : (x.setS r v).kvtbase = x.kvtbase := by unfold Context.setS; split <;> rfl
@[simp] theorem Context.setS_instret (x : Context) (r : Nat) (v : Word) : (x.setS r v).instret = x.instret := by unfold Context.setS; split <;> rfl
@[simp] theorem Context.setS_priv (x : Context) (r : Nat) (v : Word) : (x.setS r v).priv = x.priv := by unfold Context.setS; split <;> rfl
@[simp] theorem Context.setS_pfx (x : Context) (r : Nat) (v : Word) : (x.setS r v).pfx = x.pfx := by unfold Context.setS; split <;> rfl
@[simp] theorem Context.setS_exitval (x : Context) (r : Nat) (v : Word) : (x.setS r v).exitval = x.exitval := by unfold Context.setS; split <;> rfl
@[simp] theorem Context.setS_fence (x : Context) (r : Nat) (v : Word) : (x.setS r v).fence = x.fence := by unfold Context.setS; split <;> rfl
@[simp] theorem Context.setS_acquired (x : Context) (r : Nat) (v : Word) : (x.setS r v).acquired = x.acquired := by unfold Context.setS; split <;> rfl
@[simp] theorem Context.setS_scount (x : Context) (r : Nat) (v : Word) : (x.setS r v).scount = x.scount := by unfold Context.setS; split <;> rfl
@[simp] theorem Context.setS_sphase (x : Context) (r : Nat) (v : Word) : (x.setS r v).sphase = x.sphase := by unfold Context.setS; split <;> rfl
@[simp] theorem Context.setS_recs (x : Context) (r : Nat) (v : Word) : (x.setS r v).recs = x.recs := by unfold Context.setS; split <;> rfl
@[simp] theorem Context.setS_misses (x : Context) (r : Nat) (v : Word) : (x.setS r v).misses = x.misses := by unfold Context.setS; split <;> rfl
@[simp] theorem Context.setS_xinv (x : Context) (r : Nat) (v : Word) : (x.setS r v).xinv = x.xinv := by unfold Context.setS; split <;> rfl
@[simp] theorem Context.setS_xreply (x : Context) (r : Nat) (v : Word) : (x.setS r v).xreply = x.xreply := by unfold Context.setS; split <;> rfl
@[simp] theorem Context.setS_passed (x : Context) (r : Nat) (v : Word) : (x.setS r v).passed = x.passed := by unfold Context.setS; split <;> rfl
@[simp] theorem Context.setS_held (x : Context) (r : Nat) (v : Word) : (x.setS r v).held = x.held := by unfold Context.setS; split <;> rfl

/-! Context.setA changes `a` alone. -/

@[simp] theorem Context.setA_st (x : Context) (r : Nat) (v : AReg) : (x.setA r v).st = x.st := rfl
@[simp] theorem Context.setA_pc (x : Context) (r : Nat) (v : AReg) : (x.setA r v).pc = x.pc := rfl
@[simp] theorem Context.setA_s (x : Context) (r : Nat) (v : AReg) : (x.setA r v).s = x.s := rfl
@[simp] theorem Context.setA_p (x : Context) (r : Nat) (v : AReg) : (x.setA r v).p = x.p := rfl
@[simp] theorem Context.setA_shape (x : Context) (r : Nat) (v : AReg) : (x.setA r v).shape = x.shape := rfl
@[simp] theorem Context.setA_level (x : Context) (r : Nat) (v : AReg) : (x.setA r v).level = x.level := rfl
@[simp] theorem Context.setA_portbind (x : Context) (r : Nat) (v : AReg) : (x.setA r v).portbind = x.portbind := rfl
@[simp] theorem Context.setA_fpctl (x : Context) (r : Nat) (v : AReg) : (x.setA r v).fpctl = x.fpctl := rfl
@[simp] theorem Context.setA_jobseed (x : Context) (r : Nat) (v : AReg) : (x.setA r v).jobseed = x.jobseed := rfl
@[simp] theorem Context.setA_srctr (x : Context) (r : Nat) (v : AReg) : (x.setA r v).srctr = x.srctr := rfl
@[simp] theorem Context.setA_wbatch (x : Context) (r : Nat) (v : AReg) : (x.setA r v).wbatch = x.wbatch := rfl
@[simp] theorem Context.setA_lcore (x : Context) (r : Nat) (v : AReg) : (x.setA r v).lcore = x.lcore := rfl
@[simp] theorem Context.setA_ctxtag (x : Context) (r : Nat) (v : AReg) : (x.setA r v).ctxtag = x.ctxtag := rfl
@[simp] theorem Context.setA_codeptr (x : Context) (r : Nat) (v : AReg) : (x.setA r v).codeptr = x.codeptr := rfl
@[simp] theorem Context.setA_kvtbase (x : Context) (r : Nat) (v : AReg) : (x.setA r v).kvtbase = x.kvtbase := rfl
@[simp] theorem Context.setA_instret (x : Context) (r : Nat) (v : AReg) : (x.setA r v).instret = x.instret := rfl
@[simp] theorem Context.setA_priv (x : Context) (r : Nat) (v : AReg) : (x.setA r v).priv = x.priv := rfl
@[simp] theorem Context.setA_pfx (x : Context) (r : Nat) (v : AReg) : (x.setA r v).pfx = x.pfx := rfl
@[simp] theorem Context.setA_exitval (x : Context) (r : Nat) (v : AReg) : (x.setA r v).exitval = x.exitval := rfl
@[simp] theorem Context.setA_fence (x : Context) (r : Nat) (v : AReg) : (x.setA r v).fence = x.fence := rfl
@[simp] theorem Context.setA_acquired (x : Context) (r : Nat) (v : AReg) : (x.setA r v).acquired = x.acquired := rfl
@[simp] theorem Context.setA_scount (x : Context) (r : Nat) (v : AReg) : (x.setA r v).scount = x.scount := rfl
@[simp] theorem Context.setA_sphase (x : Context) (r : Nat) (v : AReg) : (x.setA r v).sphase = x.sphase := rfl
@[simp] theorem Context.setA_recs (x : Context) (r : Nat) (v : AReg) : (x.setA r v).recs = x.recs := rfl
@[simp] theorem Context.setA_misses (x : Context) (r : Nat) (v : AReg) : (x.setA r v).misses = x.misses := rfl
@[simp] theorem Context.setA_xinv (x : Context) (r : Nat) (v : AReg) : (x.setA r v).xinv = x.xinv := rfl
@[simp] theorem Context.setA_xreply (x : Context) (r : Nat) (v : AReg) : (x.setA r v).xreply = x.xreply := rfl
@[simp] theorem Context.setA_passed (x : Context) (r : Nat) (v : AReg) : (x.setA r v).passed = x.passed := rfl
@[simp] theorem Context.setA_held (x : Context) (r : Nat) (v : AReg) : (x.setA r v).held = x.held := rfl

/-! Context.setP changes `p` alone. -/

@[simp] theorem Context.setP_st (x : Context) (r : Nat) (v : PWord) : (x.setP r v).st = x.st := rfl
@[simp] theorem Context.setP_pc (x : Context) (r : Nat) (v : PWord) : (x.setP r v).pc = x.pc := rfl
@[simp] theorem Context.setP_s (x : Context) (r : Nat) (v : PWord) : (x.setP r v).s = x.s := rfl
@[simp] theorem Context.setP_a (x : Context) (r : Nat) (v : PWord) : (x.setP r v).a = x.a := rfl
@[simp] theorem Context.setP_shape (x : Context) (r : Nat) (v : PWord) : (x.setP r v).shape = x.shape := rfl
@[simp] theorem Context.setP_level (x : Context) (r : Nat) (v : PWord) : (x.setP r v).level = x.level := rfl
@[simp] theorem Context.setP_portbind (x : Context) (r : Nat) (v : PWord) : (x.setP r v).portbind = x.portbind := rfl
@[simp] theorem Context.setP_fpctl (x : Context) (r : Nat) (v : PWord) : (x.setP r v).fpctl = x.fpctl := rfl
@[simp] theorem Context.setP_jobseed (x : Context) (r : Nat) (v : PWord) : (x.setP r v).jobseed = x.jobseed := rfl
@[simp] theorem Context.setP_srctr (x : Context) (r : Nat) (v : PWord) : (x.setP r v).srctr = x.srctr := rfl
@[simp] theorem Context.setP_wbatch (x : Context) (r : Nat) (v : PWord) : (x.setP r v).wbatch = x.wbatch := rfl
@[simp] theorem Context.setP_lcore (x : Context) (r : Nat) (v : PWord) : (x.setP r v).lcore = x.lcore := rfl
@[simp] theorem Context.setP_ctxtag (x : Context) (r : Nat) (v : PWord) : (x.setP r v).ctxtag = x.ctxtag := rfl
@[simp] theorem Context.setP_codeptr (x : Context) (r : Nat) (v : PWord) : (x.setP r v).codeptr = x.codeptr := rfl
@[simp] theorem Context.setP_kvtbase (x : Context) (r : Nat) (v : PWord) : (x.setP r v).kvtbase = x.kvtbase := rfl
@[simp] theorem Context.setP_instret (x : Context) (r : Nat) (v : PWord) : (x.setP r v).instret = x.instret := rfl
@[simp] theorem Context.setP_priv (x : Context) (r : Nat) (v : PWord) : (x.setP r v).priv = x.priv := rfl
@[simp] theorem Context.setP_pfx (x : Context) (r : Nat) (v : PWord) : (x.setP r v).pfx = x.pfx := rfl
@[simp] theorem Context.setP_exitval (x : Context) (r : Nat) (v : PWord) : (x.setP r v).exitval = x.exitval := rfl
@[simp] theorem Context.setP_fence (x : Context) (r : Nat) (v : PWord) : (x.setP r v).fence = x.fence := rfl
@[simp] theorem Context.setP_acquired (x : Context) (r : Nat) (v : PWord) : (x.setP r v).acquired = x.acquired := rfl
@[simp] theorem Context.setP_scount (x : Context) (r : Nat) (v : PWord) : (x.setP r v).scount = x.scount := rfl
@[simp] theorem Context.setP_sphase (x : Context) (r : Nat) (v : PWord) : (x.setP r v).sphase = x.sphase := rfl
@[simp] theorem Context.setP_recs (x : Context) (r : Nat) (v : PWord) : (x.setP r v).recs = x.recs := rfl
@[simp] theorem Context.setP_misses (x : Context) (r : Nat) (v : PWord) : (x.setP r v).misses = x.misses := rfl
@[simp] theorem Context.setP_xinv (x : Context) (r : Nat) (v : PWord) : (x.setP r v).xinv = x.xinv := rfl
@[simp] theorem Context.setP_xreply (x : Context) (r : Nat) (v : PWord) : (x.setP r v).xreply = x.xreply := rfl
@[simp] theorem Context.setP_passed (x : Context) (r : Nat) (v : PWord) : (x.setP r v).passed = x.passed := rfl
@[simp] theorem Context.setP_held (x : Context) (r : Nat) (v : PWord) : (x.setP r v).held = x.held := rfl

/-! Cores and contexts. -/

@[simp] theorem State.coreAt_setCore_self (s : State) (n : Nat) (c : Core) : (s.setCore n c).coreAt n = c := by
  simp [State.coreAt, State.setCore]

theorem State.coreAt_setCore_ne (s : State) {n m : Nat} (h : m ≠ n) (c : Core) : (s.setCore n c).coreAt m = s.coreAt m := by
  simp [State.coreAt, State.setCore, lookup_store_ne _ h]

@[simp] theorem State.setCore_setCore (s : State) (n : Nat) (c d : Core) : (s.setCore n c).setCore n d = s.setCore n d := by
  simp [State.setCore]

@[simp] theorem State.recAt_setRec_self (s : State) (r : Nat) (x : Rec) : (s.setRec r x).recAt r = x := by
  simp [State.recAt, State.setRec]

@[simp] theorem State.setRec_setRec (s : State) (r : Nat) (x y : Rec) : (s.setRec r x).setRec r y = s.setRec r y := by
  simp [State.setRec]

@[simp] theorem State.vfAt_setVf_self (s : State) (v : Nat) (x : Vf) : (s.setVf v x).vfAt v = x := by
  simp [State.vfAt, State.setVf]

@[simp] theorem State.recAt_setCore (s : State) (n : Nat) (c : Core) (r : Nat) : (s.setCore n c).recAt r = s.recAt r := rfl
@[simp] theorem State.vfAt_setCore (s : State) (n : Nat) (c : Core) (v : Nat) : (s.setCore n c).vfAt v = s.vfAt v := rfl
@[simp] theorem State.coreAt_setRec (s : State) (r : Nat) (x : Rec) (n : Nat) : (s.setRec r x).coreAt n = s.coreAt n := rfl
@[simp] theorem State.coreAt_setVf (s : State) (v : Nat) (x : Vf) (n : Nat) : (s.setVf v x).coreAt n = s.coreAt n := rfl

@[simp] theorem State.core_setCore (s : State) (c : Core) : (s.setCore s.site c).core = c := by
  simp [State.core]

@[simp] theorem State.core_setCtx (s : State) (x : Context) : (s.setCtx x).core = s.core.setCtx s.core.act x := by
  simp [State.core, State.setCtx]

@[simp] theorem State.core_setRec (s : State) (r : Nat) (x : Rec) : (s.setRec r x).core = s.core := rfl
@[simp] theorem State.ctx_setRec (s : State) (r : Nat) (x : Rec) : (s.setRec r x).ctx = s.ctx := rfl
@[simp] theorem State.core_setVf (s : State) (v : Nat) (x : Vf) : (s.setVf v x).core = s.core := rfl
@[simp] theorem State.ctx_setVf (s : State) (v : Nat) (x : Vf) : (s.setVf v x).ctx = s.ctx := rfl

@[simp] theorem Core.setCtx_setCtx (c : Core) (n : Nat) (x y : Context) : (c.setCtx n x).setCtx n y = c.setCtx n y := by
  simp only [Core.setCtx]
  congr 1
  apply Vector.ext
  intro i hi
  simp [Vector.getElem_setIfInBounds]

@[simp] theorem State.setCtx_setCtx (s : State) (x y : Context) : (s.setCtx x).setCtx y = s.setCtx y := by
  simp [State.setCtx, State.core]

theorem Core.ctxAt_setCtx_self (c : Core) {n : Nat} (h : n < 13) (x : Context) : (c.setCtx n x).ctxAt n = x := by
  simp [Core.ctxAt, Core.setCtx, h]

theorem Core.ctxAt_setCtx_ne (c : Core) {n m : Nat} (h : m ≠ n) (x : Context) : (c.setCtx n x).ctxAt m = c.ctxAt m := by
  simp only [Core.ctxAt, Core.setCtx]
  congr 1
  by_cases hm : m < 13
  · simp [Ne.symm h]
  · simp [Vector.getElem?_eq_none (Nat.le_of_not_lt hm)]

/-- The executing context after it has been replaced; a number beyond the shadows names no context. -/
theorem State.ctx_setCtx (s : State) (h : s.core.act < 13) (x : Context) : (s.setCtx x).ctx = x := by
  simp [State.ctx, Core.ctxAt_setCtx_self _ h]

/-! Registers. -/

@[simp] theorem Context.sreg_zero (x : Context) : x.sreg 0 = 0 := rfl

theorem Context.sreg_setS_self (x : Context) {r : Nat} (h0 : r ≠ 0) (h : r < 32) (v : Word) : (x.setS r v).sreg r = v := by
  simp [Context.sreg, Context.setS, h0, h]

theorem Context.sreg_setS_ne (x : Context) {r q : Nat} (h : q ≠ r) (v : Word) : (x.setS r v).sreg q = x.sreg q := by
  unfold Context.sreg Context.setS
  split
  · rfl
  · split
    · rfl
    · simp [Ne.symm h]

/-- A write of `s0` is discarded (R34). -/
@[simp] theorem Context.setS_zero (x : Context) (v : Word) : x.setS 0 v = x := by simp [Context.setS]

@[simp] theorem Context.preg_zero (x : Context) : x.preg 0 = BitVec.allOnes 128 := rfl

@[simp] theorem Context.sreg_setA (x : Context) (r : Nat) (v : AReg) (q : Nat) : (x.setA r v).sreg q = x.sreg q := rfl
@[simp] theorem Context.sreg_setP (x : Context) (r : Nat) (v : PWord) (q : Nat) : (x.setP r v).sreg q = x.sreg q := rfl
@[simp] theorem Context.areg_setS (x : Context) (r : Nat) (v : Word) (q : Nat) : (x.setS r v).areg q = x.areg q := by
  unfold Context.setS; split <;> rfl
@[simp] theorem Context.preg_setS (x : Context) (r : Nat) (v : Word) (q : Nat) : (x.setS r v).preg q = x.preg q := by
  unfold Context.setS; split <;> rfl

theorem Context.areg_setA_self (x : Context) {r : Nat} (h : r < 16) (v : AReg) : (x.setA r v).areg r = v := by
  simp [Context.areg, Context.setA, h]

theorem Context.areg_setA_ne (x : Context) {r q : Nat} (h : q ≠ r) (v : AReg) : (x.setA r v).areg q = x.areg q := by
  simp [Context.areg, Context.setA, Ne.symm h]

/-! Host registers. -/

@[simp] theorem State.reg_setReg (s : State) (r : HostReg) (v : Word) : (s.setReg r v).reg r = v := by
  simp [State.reg, State.setReg]

theorem State.reg_setReg_ne (s : State) {r q : HostReg} (h : regKey q ≠ regKey r) (v : Word) :
    (s.setReg r v).reg q = s.reg q := lookup_store_ne 0 h v s.regs

@[simp] theorem State.setReg_cores (s : State) (r : HostReg) (v : Word) : (s.setReg r v).cores = s.cores := rfl
@[simp] theorem State.setReg_mem (s : State) (r : HostReg) (v : Word) : (s.setReg r v).mem = s.mem := rfl
@[simp] theorem State.setReg_recs (s : State) (r : HostReg) (v : Word) : (s.setReg r v).recs = s.recs := rfl
@[simp] theorem State.setReg_vfs (s : State) (r : HostReg) (v : Word) : (s.setReg r v).vfs = s.vfs := rfl

/-! The bytes of host memory that the device writes keep the canonical form. -/

theorem Mem.wf_setBit {m : Mem} {base k : Nat} (w : m.wf = true) : (m.setBit base k).wf = true := Mem.wf_set w

theorem State.putEntry_wf {s : State} {ring : Nat × Nat} {index : BitVec 32} {bs : List Byte} (w : s.hostMem.wf = true) :
    (s.putEntry ring index bs).hostMem.wf = true := Mem.wf_setBytes w

/-- A page noted for a snapshot changes host memory and its VF alone, and keeps the form. -/
theorem State.notePage_wf {s : State} {asid vf page : Nat} (w : s.hostMem.wf = true) :
    (s.notePage asid vf page).hostMem.wf = true ∧ (s.notePage asid vf page).mem = s.mem
      ∧ (s.notePage asid vf page).cores = s.cores := by
  unfold State.notePage
  split
  · rename_i n e _ _
    have h := Mem.wf_setBit (base := n.dlog.toNat) (k := pageKey asid page) w
    by_cases c : pageKey asid page ∈ n.copies <;> by_cases p : n.copies.length < n.places <;>
      simp [c, p, h, Mem.wf_setBytes h]
  · exact ⟨w, rfl, rfl⟩

/-- What `keepTrying` can do: where what was asked for is done it is kept no longer. -/
theorem keepTrying_ok {i : HostWait} {body : Op Unit} {s t : State} (h : body s = .ok () t) :
    keepTrying i body s = .ok () { t with hostWaits := t.hostWaits.filter fun j => decide (j ≠ i) } := by
  simp only [keepTrying, h]

/-- Where it must wait with nothing noted, it is kept and nothing else changes. -/
theorem keepTrying_wait {i : HostWait} {body : Op Unit} {s t : State} (h : body s = .error .wait t) :
    keepTrying i body s
      = .ok () (if s.hostWaits.contains i then s else { s with hostWaits := s.hostWaits ++ [i] }) := by
  simp only [keepTrying, h]

/-- Where it waits for what it has asked for, it is kept beside that. -/
theorem keepTrying_waitKeep {i : HostWait} {body : Op Unit} {s t : State} (h : body s = .error .waitKeep t) :
    keepTrying i body s
      = .ok () (if t.hostWaits.contains i then t else { t with hostWaits := t.hostWaits ++ [i] }) := by
  simp only [keepTrying, h]

end Sys2Proof.Machine
end

