-- ==== Sys2Proof/Laws/Ops.lean ====
section
/-! SUPPORT. Laws of the shared operations: how an effect runs, and everything `runInstr` and `runEvent` can answer. -/

namespace Sys2Proof.Machine

/-! Running an effect. -/

theorem Op.bind_run {α β : Type} (x : Op α) (f : α → Op β) (s : State) :
    (x >>= f) s = match x s with
      | .ok a t => f a t
      | .error e t => .error e t := by
  show EStateM.bind x f s = _
  unfold EStateM.bind
  cases x s <;> rfl

@[simp] theorem Op.pure_run {α : Type} (a : α) (s : State) : (pure a : Op α) s = .ok a s := rfl
@[simp] theorem Op.get_run (s : State) : (get : Op State) s = .ok s s := rfl
@[simp] theorem Op.set_run (s t : State) : (set t : Op PUnit) s = .ok ⟨⟩ t := rfl
@[simp] theorem Op.modify_run (f : State → State) (s : State) : (modify f : Op PUnit) s = .ok ⟨⟩ (f s) := rfl
@[simp] theorem Op.throw_run {α : Type} (e : Exit) (s : State) : (throw e : Op α) s = .error e s := rfl
theorem Op.bind_ok {α β : Type} {x : Op α} {f : α → Op β} {s t : State} {a : α} (h : x s = .ok a t) :
    (x >>= f) s = f a t := by rw [Op.bind_run, h]
theorem Op.bind_error {α β : Type} {x : Op α} {f : α → Op β} {s t : State} {e : Exit} (h : x s = .error e t) :
    (x >>= f) s = .error e t := by rw [Op.bind_run, h]

/-! Retiring. -/

/-- What an instruction that used no port and raised nothing notes while it executes. -/
def Tx.quiet (t : Tx) : Prop :=
  t.pops28 = 0 ∧ t.pops29 = 0 ∧ t.pops31 = 0 ∧ t.deque = none ∧ t.spops = [] ∧ t.pushes = [] ∧ t.watch = none
    ∧ t.after = none ∧ t.pushed = false

/-- The ports of such an instruction change nothing. -/
theorem State.commitPorts_quiet (s : State) (h : s.tx.quiet) :
    s.commitPorts = { s.setCtx s.ctx with
      waitq := s.waitq.filter fun w => !(decide (w.site = s.site) && decide (w.ctx = s.core.act)), tx := {} } := by
  obtain ⟨h1, h2, h3, h4, h5, h6, -, -, -⟩ := h
  simp [State.commitPorts, h1, h2, h3, h4, h5, h6, takeWords, State.ctx, State.setCtx]

@[simp] theorem State.ctx_setCtx_ctx (s : State) : (s.setCtx s.ctx).ctx = s.ctx := by
  by_cases h : s.core.act < 13
  · exact State.ctx_setCtx s h _
  · simp only [State.ctx, State.core_setCtx, Core.ctxAt, Core.setCtx]
    simp [Vector.getElem?_eq_none (Nat.le_of_not_lt h)]

/-- An instruction that used no port retires to its next address and changes nothing else. -/
theorem State.retire_quiet (s : State) (h : s.tx.quiet) : s.retire = s.retiresTo s.tx.npc := by
  have hc : ∀ (t : State) (w : List Waiter), ({ t with waitq := w, tx := {} } : State).ctx = t.ctx := fun _ _ => rfl
  have hs : ∀ (t : State) (w : List Waiter) (x : Context),
      ({ t with waitq := w, tx := {} } : State).setCtx x = { t.setCtx x with waitq := w, tx := {} } := fun _ _ _ => rfl
  simp only [State.retire, State.commitPorts_quiet s h, State.retiresTo, hc, hs, State.ctx_setCtx_ctx,
    State.setCtx_setCtx, State.setCtx_waitq]

@[simp] theorem State.retiresTo_site (s : State) (n : Option Word) : (s.retiresTo n).site = s.site := rfl
@[simp] theorem State.retiresTo_mem (s : State) (n : Option Word) : (s.retiresTo n).mem = s.mem := rfl
theorem State.core_retiresTo (s : State) (n : Option Word) :
    (s.retiresTo n).core = s.core.setCtx s.core.act { s.ctx with
      pc := n.getD (s.ctx.pc + 4), pfx := .none, instret := s.ctx.instret + 1
      st := if s.ctx.st = .waiting then .ready else s.ctx.st } := by
  exact State.core_setCtx s _

/-- Nothing is raised when such an instruction retires, and no single step falls due. -/
theorem State.complete_quiet (s : State) (pc : Word) (b : Bool) (h : s.tx.quiet) (hd : s.tx.dbg = s.core.dbgctl)
    (hf : s.calm = true) : s.complete pc b = s.retiresTo s.tx.npc := by
  have hq := h
  obtain ⟨-, -, -, -, -, -, h7, h8, h9⟩ := h
  simp only [State.complete, h7, h8, State.retire_quiet s hq, State.stepped, State.core_retiresTo, Core.setCtx_act,
    Core.setCtx_halted, hd]
  rw [if_neg]
  intro hs
  simp only [State.calm] at hf
  rw [hs] at hf
  exact absurd hf (by simp)

/-! Passes for room. -/

/-- An effect that finds room runs once. -/
theorem withRoom_ok {α : Type} {f : Op α} {n : Nat} {l : List Nat} {s t : State} {a : α} (h : f s = .ok a t) :
    withRoom f n l s = .ok a t := by
  unfold withRoom; simp [h]

/-- So does one that leaves early for another reason. -/
theorem withRoom_error {α : Type} {f : Op α} {n : Nat} {l : List Nat} {s t : State} {e : Exit} (h : f s = .error e t)
    (he : ∀ k v, e ≠ .room k v) : withRoom f n l s = .error e t := by
  unfold withRoom
  cases e <;> simp_all

/-! What an instruction or an event can answer. -/

theorem runInstr_eq (i : Instr) (body : Op Unit) (s : State) (hw : i.wf = true) (hu : s.hasUnit i = true) :
    runInstr i body s = finish (s.starts i) (withRoom body 3 [] (s.starts i)) := by
  simp only [runInstr, State.starts]
  rw [if_neg]
  simp only [State.hasUnit, Bool.and_eq_true, Bool.not_eq_true', Bool.or_eq_true, Bool.and_eq_false_iff] at hu
  simp [hw]
  obtain ⟨h1, h2⟩ := hu
  constructor
  · rcases h1 with h | h <;> simp [h]
  · rcases h2 with h | h <;> simp [h]

/-- An instruction whose effect ends in `t`, with no port used, retires from `t`. -/
theorem runInstr_ok {i : Instr} {body : Op Unit} {s t : State} (hw : i.wf = true) (hu : s.hasUnit i = true)
    (hb : body (s.starts i) = .ok () t) (hq : t.tx.quiet) (hd : t.tx.dbg = t.core.dbgctl) (hf : t.calm = true) :
    runInstr i body s = .next (t.retiresTo t.tx.npc) := by
  rw [runInstr_eq i body s hw hu, withRoom_ok hb]
  simp only [finish, State.complete_quiet t _ _ hq hd hf]

/-- An instruction whose effect traps enters the trap from the state its effect left. -/
theorem runInstr_trap {i : Instr} {body : Op Unit} {s t : State} {c : Cause} {v : Word} (hw : i.wf = true)
    (hu : s.hasUnit i = true) (hb : body (s.starts i) = .error (.trap c v) t) (hn : t.tx.undone = false) :
    runInstr i body s = .next (t.trapHere c.code v c.async) := by
  rw [runInstr_eq i body s hw hu, withRoom_error hb (by simp)]
  simp [finish, hn]

/-- Every instruction answers a next state. -/
theorem runInstr_next (i : Instr) (body : Op Unit) (s : State) : ∃ t, runInstr i body s = .next t := by
  simp only [runInstr]
  split
  · exact ⟨_, rfl⟩
  · unfold finish
    split <;> exact ⟨_, rfl⟩

/-- Every event answers a next state. -/
theorem runEvent_next (body : Op Unit) (s : State) : ∃ t, runEvent body s = .next t := by
  unfold runEvent
  split <;> exact ⟨_, rfl⟩

theorem runEvent_ok {body : Op Unit} {s t : State} (h : body s = .ok () t) : runEvent body s = .next t := by
  simp [runEvent, h]

/-- An event that is not due changes nothing. -/
theorem runEvent_stutter {body : Op Unit} {s t : State} {e : Exit} (h : body s = .error e t) : runEvent body s = .next s := by
  simp [runEvent, h]

/-! Registers. -/

theorem rdS_plain {r : BitVec 5} (h : plain r = true) (s : State) : rdS r s = .ok (s.src r) s := by
  have h' : r.toNat < 28 := by simpa [plain] using h
  have hne : ∀ k : BitVec 5, 28 ≤ k.toNat → r ≠ k := fun k hk e => by subst e; omega
  simp only [rdS]
  rw [if_neg (hne 28 (by decide)), if_neg (hne 29 (by decide)), if_neg (hne 30 (by decide)), if_neg (hne 31 (by decide))]
  rfl

theorem wrS_plain {d : BitVec 5} (h : plain d = true) (v : Word) (s : State) :
    wrS d v s = .ok () (s.setCtx (s.ctx.setS d.toNat v)) := by
  have h' : d.toNat < 28 := by simpa [plain] using h
  have hne : d ≠ 28 := fun e => by subst e; simp at h'
  simp only [wrS]
  rw [if_neg hne, if_neg (by omega)]
  rfl

/-! Instructions that change the executing context alone. -/

theorem State.calm_setCtx (s : State) (x : Context) : (s.setCtx x).calm = s.calm := by
  simp [State.calm]

@[simp] theorem State.starts_src (s : State) (i : Instr) (r : BitVec 5) : (s.starts i).src r = s.src r := rfl
@[simp] theorem State.starts_ctx (s : State) (i : Instr) : (s.starts i).ctx = s.ctx := rfl
@[simp] theorem State.starts_dbg (s : State) (i : Instr) : (s.starts i).tx.dbg = s.core.dbgctl := rfl
@[simp] theorem State.starts_core (s : State) (i : Instr) : (s.starts i).core = s.core := rfl
@[simp] theorem State.starts_calm (s : State) (i : Instr) : (s.starts i).calm = s.calm := rfl

theorem State.starts_quiet (s : State) (i : Instr) : (s.starts i).tx.quiet := ⟨rfl, rfl, rfl, rfl, rfl, rfl, rfl, rfl, rfl⟩

/-- An instruction whose effect is a new value of the executing context. -/
theorem runInstr_becomes {i : Instr} {body : Op Unit} {s : State} {x : Context} (hw : i.wf = true)
    (hu : s.hasUnit i = true) (hf : s.calm = true) (hb : body (s.starts i) = .ok () ((s.starts i).setCtx x)) :
    runInstr i body s = .next (s.becomes x) := by
  rw [runInstr_ok hw hu hb (by rw [State.setCtx_tx]; exact s.starts_quiet i) (by simp)
    (by rw [State.calm_setCtx]; exact hf)]
  rfl

/-- An instruction whose effect is to write one `s` register. -/
theorem runInstr_gives {i : Instr} {body : Op Unit} {s : State} {d : BitVec 5} {v : Word} (hw : i.wf = true)
    (hu : s.hasUnit i = true) (hf : s.calm = true)
    (hb : body (s.starts i) = .ok () ((s.starts i).setCtx (s.ctx.setS d.toNat v))) :
    runInstr i body s = .next (s.gives d v) := runInstr_becomes hw hu hf hb

/-- An instruction that traps before it has changed anything. -/
theorem runInstr_trapHere {i : Instr} {body : Op Unit} {s : State} {c : Cause} {v : Word} (hw : i.wf = true)
    (hu : s.hasUnit i = true) (hb : body (s.starts i) = .error (.trap c v) (s.starts i)) :
    runInstr i body s = .next (s.trapHere c.code v c.async) := by
  rw [runInstr_trap hw hu hb rfl]
  rfl

/-- An instruction that waits changes nothing but the state of its context. -/
theorem runInstr_wait {i : Instr} {body : Op Unit} {s t : State} (hw : i.wf = true) (hu : s.hasUnit i = true)
    (hb : body (s.starts i) = .error .wait t) :
    ∃ u, runInstr i body s = .next u ∧ u = (s.starts i).setCtx { s.ctx with st := .waiting } := by
  rw [runInstr_eq i body s hw hu, withRoom_error hb (by simp)]
  exact ⟨_, rfl, rfl⟩

theorem require_true {b : Bool} (h : b = true) (c : Cause) (v : Word) (s : State) : require b c v s = .ok () s := by
  simp [require, h]

theorem require_false {b : Bool} (h : b = false) (c : Cause) (v : Word) (s : State) :
    require b c v s = .error (.trap c v) s := by
  simp [require, h, raise]

end Sys2Proof.Machine
end

