-- ==== Sys2Proof/Laws/PerInstr.lean ====
section
/-! SUPPORT. PerInstr: for each constructor of Instr, decoding the words that encode an instruction gives it back. -/

set_option Elab.async false

namespace Sys2Proof.Laws.RoundTrip

/-- A well-formed instruction of the set, which every row with a word of its own is, decodes from its words. -/
def Statement (i : Instr) : Prop := i.wf = true → wordNat i ≠ 0 → decodeWords (encode i) = .ok i

/-- A field is read back from the word. -/
theorem field {n : Nat} (d : BitVec n) (x : Nat) (h : x % 2 ^ n = d.toNat) : BitVec.ofNat n x = d := by
  apply BitVec.eq_of_toNat_eq
  rw [BitVec.toNat_ofNat, h]

/-- A row without a word is no instruction of the set. -/
theorem wordless {i : Instr} (h : wordNat i = 0) : Statement i := fun _ n => absurd h n

/-- An instruction of one word. -/
theorem single {i : Instr} (hp : formPfx i = .none) (hw : wordNat i < 2 ^ 32) (h : decodeNat (wordNat i) = .ok i) : Statement i := by
  intro _ _
  have e : (BitVec.ofNat 32 (wordNat i)).toNat = wordNat i := by rw [BitVec.toNat_ofNat]; exact Nat.mod_eq_of_lt hw
  simp only [encode, hp, pfxWord, List.nil_append, List.map_cons, List.map_nil, decodeWords, e, h]

/-- An instruction that stands under the prefix of its form. -/
theorem paired {i j : Instr} {p : Pfx} (hf : formPfx i = p) (hv : pfxWord p = [wordNat j]) (ha : asPfx j = some p)
    (hj : wordNat j < 2 ^ 32) (hw : wordNat i < 2 ^ 32) (h1 : decodeNat (wordNat j) = .ok j)
    (h2 : decodeUnder p (wordNat i) = .ok i) : Statement i := by
  intro _ _
  have e : (BitVec.ofNat 32 (wordNat i)).toNat = wordNat i := by rw [BitVec.toNat_ofNat]; exact Nat.mod_eq_of_lt hw
  have e2 : (BitVec.ofNat 32 (wordNat j)).toNat = wordNat j := by rw [BitVec.toNat_ofNat]; exact Nat.mod_eq_of_lt hj
  simp only [encode, hf, hv, List.cons_append, List.nil_append, List.map_cons, List.map_nil, decodeWords, e, e2, h1, ha, h2]

theorem major01 {w : Nat} (h : w / 67108864 = 1) : decodeNat w = decodeMajor01 w := by
  unfold decodeNat; rw [h]; rfl
theorem major02 {w : Nat} (h : w / 67108864 = 2) : decodeNat w = decodeMajor02 w := by
  unfold decodeNat; rw [h]; rfl
theorem major03 {w : Nat} (h : w / 67108864 = 3) : decodeNat w = decodeMajor03 w := by
  unfold decodeNat; rw [h]; rfl
theorem major04 {w : Nat} (h : w / 67108864 = 4) : decodeNat w = decodeMajor04 w := by
  unfold decodeNat; rw [h]; rfl
theorem major05 {w : Nat} (h : w / 67108864 = 5) : decodeNat w = decodeMajor05 w := by
  unfold decodeNat; rw [h]; rfl
theorem major06 {w : Nat} (h : w / 67108864 = 6) : decodeNat w = decodeMajor06 w := by
  unfold decodeNat; rw [h]; rfl
theorem major07 {w : Nat} (h : w / 67108864 = 7) : decodeNat w = decodeMajor07 w := by
  unfold decodeNat; rw [h]; rfl
theorem major08 {w : Nat} (h : w / 67108864 = 8) : decodeNat w = decodeMajor08 w := by
  unfold decodeNat; rw [h]; rfl
theorem major09 {w : Nat} (h : w / 67108864 = 9) : decodeNat w = decodeMajor09 w := by
  unfold decodeNat; rw [h]; rfl
theorem major0A {w : Nat} (h : w / 67108864 = 10) : decodeNat w = decodeMajor0A w := by
  unfold decodeNat; rw [h]; rfl
theorem major0B {w : Nat} (h : w / 67108864 = 11) : decodeNat w = decodeMajor0B w := by
  unfold decodeNat; rw [h]; rfl
theorem major0C {w : Nat} (h : w / 67108864 = 12) : decodeNat w = decodeMajor0C w := by
  unfold decodeNat; rw [h]; rfl
theorem major0D {w : Nat} (h : w / 67108864 = 13) : decodeNat w = decodeMajor0D w := by
  unfold decodeNat; rw [h]; rfl
theorem major0E {w : Nat} (h : w / 67108864 = 14) : decodeNat w = decodeMajor0E w := by
  unfold decodeNat; rw [h]; rfl
theorem major10 {w : Nat} (h : w / 67108864 = 16) : decodeNat w = decodeMajor10 w := by
  unfold decodeNat; rw [h]; rfl
theorem major11 {w : Nat} (h : w / 67108864 = 17) : decodeNat w = decodeMajor11 w := by
  unfold decodeNat; rw [h]; rfl
theorem major12 {w : Nat} (h : w / 67108864 = 18) : decodeNat w = decodeMajor12 w := by
  unfold decodeNat; rw [h]; rfl
theorem major13 {w : Nat} (h : w / 67108864 = 19) : decodeNat w = decodeMajor13 w := by
  unfold decodeNat; rw [h]; rfl
theorem major14 {w : Nat} (h : w / 67108864 = 20) : decodeNat w = decodeMajor14 w := by
  unfold decodeNat; rw [h]; rfl
theorem major15 {w : Nat} (h : w / 67108864 = 21) : decodeNat w = decodeMajor15 w := by
  unfold decodeNat; rw [h]; rfl
theorem major16 {w : Nat} (h : w / 67108864 = 22) : decodeNat w = decodeMajor16 w := by
  unfold decodeNat; rw [h]; rfl
theorem major17 {w : Nat} (h : w / 67108864 = 23) : decodeNat w = decodeMajor17 w := by
  unfold decodeNat; rw [h]; rfl
theorem major18 {w : Nat} (h : w / 67108864 = 24) : decodeNat w = decodeMajor18 w := by
  unfold decodeNat; rw [h]; rfl
theorem major19 {w : Nat} (h : w / 67108864 = 25) : decodeNat w = decodeMajor19 w := by
  unfold decodeNat; rw [h]; rfl
theorem major1A {w : Nat} (h : w / 67108864 = 26) : decodeNat w = decodeMajor1A w := by
  unfold decodeNat; rw [h]; rfl
theorem major1B {w : Nat} (h : w / 67108864 = 27) : decodeNat w = decodeMajor1B w := by
  unfold decodeNat; rw [h]; rfl
theorem major1C {w : Nat} (h : w / 67108864 = 28) : decodeNat w = decodeMajor1C w := by
  unfold decodeNat; rw [h]; rfl
theorem major1D {w : Nat} (h : w / 67108864 = 29) : decodeNat w = decodeMajor1D w := by
  unfold decodeNat; rw [h]; rfl
theorem major1E {w : Nat} (h : w / 67108864 = 30) : decodeNat w = decodeMajor1E w := by
  unfold decodeNat; rw [h]; rfl
theorem major20 {w : Nat} (h : w / 67108864 = 32) : decodeNat w = decodeMajor20 w := by
  unfold decodeNat; rw [h]; rfl
theorem major21 {w : Nat} (h : w / 67108864 = 33) : decodeNat w = decodeMajor21 w := by
  unfold decodeNat; rw [h]; rfl
theorem major22 {w : Nat} (h : w / 67108864 = 34) : decodeNat w = decodeMajor22 w := by
  unfold decodeNat; rw [h]; rfl
theorem major23 {w : Nat} (h : w / 67108864 = 35) : decodeNat w = decodeMajor23 w := by
  unfold decodeNat; rw [h]; rfl
theorem major24 {w : Nat} (h : w / 67108864 = 36) : decodeNat w = decodeMajor24 w := by
  unfold decodeNat; rw [h]; rfl
theorem major25 {w : Nat} (h : w / 67108864 = 37) : decodeNat w = decodeMajor25 w := by
  unfold decodeNat; rw [h]; rfl
theorem major26 {w : Nat} (h : w / 67108864 = 38) : decodeNat w = decodeMajor26 w := by
  unfold decodeNat; rw [h]; rfl
theorem major27 {w : Nat} (h : w / 67108864 = 39) : decodeNat w = decodeMajor27 w := by
  unfold decodeNat; rw [h]; rfl
theorem major28 {w : Nat} (h : w / 67108864 = 40) : decodeNat w = decodeMajor28 w := by
  unfold decodeNat; rw [h]; rfl
theorem major29 {w : Nat} (h : w / 67108864 = 41) : decodeNat w = decodeMajor29 w := by
  unfold decodeNat; rw [h]; rfl
theorem major2A {w : Nat} (h : w / 67108864 = 42) : decodeNat w = decodeMajor2A w := by
  unfold decodeNat; rw [h]; rfl
theorem major2B {w : Nat} (h : w / 67108864 = 43) : decodeNat w = decodeMajor2B w := by
  unfold decodeNat; rw [h]; rfl
theorem major2C {w : Nat} (h : w / 67108864 = 44) : decodeNat w = decodeMajor2C w := by
  unfold decodeNat; rw [h]; rfl
theorem major2E {w : Nat} (h : w / 67108864 = 46) : decodeNat w = decodeMajor2E w := by
  unfold decodeNat; rw [h]; rfl
theorem major2F {w : Nat} (h : w / 67108864 = 47) : decodeNat w = decodeMajor2F w := by
  unfold decodeNat; rw [h]; rfl
theorem major30 {w : Nat} (h : w / 67108864 = 48) : decodeNat w = decodeMajor30 w := by
  unfold decodeNat; rw [h]; rfl
theorem major32 {w : Nat} (h : w / 67108864 = 50) : decodeNat w = decodeMajor32 w := by
  unfold decodeNat; rw [h]; rfl
theorem major3F {w : Nat} (h : w / 67108864 = 63) : decodeNat w = decodeMajor3F w := by
  unfold decodeNat; rw [h]; rfl

/-! The words of one layout of fields: what the decoder looks at is what the word was made of. -/

theorem layout0 {m c0 w : Nat} {x0 : BitVec 5} {x1 : BitVec 5} {x2 : BitVec 5} (hm : m < 64) (hc0 : c0 < 2048)
    (h : m * 67108864 + c0 * 1 + x0.toNat * 2097152 + x1.toNat * 65536 + x2.toNat * 2048 = w) :
    w < 2 ^ 32 ∧ w / 67108864 = m ∧ w % 2048 = c0 ∧ BitVec.ofNat 5 (w / 2097152) = x0 ∧ BitVec.ofNat 5 (w / 65536) = x1 ∧ BitVec.ofNat 5 (w / 2048) = x2 := by
  have hxx0 := x0.isLt
  have hxx1 := x1.isLt
  have hxx2 := x2.isLt
  refine ⟨?_, ?_, ?_, field _ _ ?_, field _ _ ?_, field _ _ ?_⟩ <;> omega
theorem layout1 {m c0 w : Nat} {x0 : BitVec 5} {x1 : BitVec 5} (hm : m < 64) (hc0 : c0 < 65536)
    (h : m * 67108864 + c0 * 1 + x0.toNat * 2097152 + x1.toNat * 65536 = w) :
    w < 2 ^ 32 ∧ w / 67108864 = m ∧ w % 65536 = c0 ∧ BitVec.ofNat 5 (w / 2097152) = x0 ∧ BitVec.ofNat 5 (w / 65536) = x1 := by
  have hxx0 := x0.isLt
  have hxx1 := x1.isLt
  refine ⟨?_, ?_, ?_, field _ _ ?_, field _ _ ?_⟩ <;> omega
theorem layout2 {m c0 w : Nat} {x0 : BitVec 5} {x1 : BitVec 5} {x2 : BitVec 5} {x3 : BitVec 5} (hm : m < 64) (hc0 : c0 < 64)
    (h : m * 67108864 + c0 * 1 + x0.toNat * 2097152 + x1.toNat * 65536 + x2.toNat * 2048 + x3.toNat * 64 = w) :
    w < 2 ^ 32 ∧ w / 67108864 = m ∧ w % 64 = c0 ∧ BitVec.ofNat 5 (w / 2097152) = x0 ∧ BitVec.ofNat 5 (w / 65536) = x1 ∧ BitVec.ofNat 5 (w / 2048) = x2 ∧ BitVec.ofNat 5 (w / 64) = x3 := by
  have hxx0 := x0.isLt
  have hxx1 := x1.isLt
  have hxx2 := x2.isLt
  have hxx3 := x3.isLt
  refine ⟨?_, ?_, ?_, field _ _ ?_, field _ _ ?_, field _ _ ?_, field _ _ ?_⟩ <;> omega
theorem layout3 {m w : Nat} {x0 : BitVec 5} {x1 : BitVec 5} {x2 : BitVec 16} (hm : m < 64)
    (h : m * 67108864 + x0.toNat * 2097152 + x1.toNat * 65536 + x2.toNat = w) :
    w < 2 ^ 32 ∧ w / 67108864 = m ∧ BitVec.ofNat 5 (w / 2097152) = x0 ∧ BitVec.ofNat 5 (w / 65536) = x1 ∧ BitVec.ofNat 16 w = x2 := by
  have hxx0 := x0.isLt
  have hxx1 := x1.isLt
  have hxx2 := x2.isLt
  refine ⟨?_, ?_, field _ _ ?_, field _ _ ?_, field _ _ ?_⟩ <;> omega
theorem layout4 {m c0 c1 w : Nat} {x0 : BitVec 5} {x1 : BitVec 5} {x2 : BitVec 5} {x3 : BitVec 1} (hm : m < 64) (hc0 : c0 < 16) (hc1 : c1 < 64)
    (h : m * 67108864 + c0 * 128 + c1 * 1 + x0.toNat * 2097152 + x1.toNat * 65536 + x2.toNat * 2048 + x3.toNat * 64 = w) :
    w < 2 ^ 32 ∧ w / 67108864 = m ∧ w / 128 % 16 = c0 ∧ w % 64 = c1 ∧ BitVec.ofNat 5 (w / 2097152) = x0 ∧ BitVec.ofNat 5 (w / 65536) = x1 ∧ BitVec.ofNat 5 (w / 2048) = x2 ∧ BitVec.ofNat 1 (w / 64) = x3 := by
  have hxx0 := x0.isLt
  have hxx1 := x1.isLt
  have hxx2 := x2.isLt
  have hxx3 := x3.isLt
  refine ⟨?_, ?_, ?_, ?_, field _ _ ?_, field _ _ ?_, field _ _ ?_, field _ _ ?_⟩ <;> omega
theorem layout5 {m c0 w : Nat} {x0 : BitVec 5} {x1 : BitVec 2} {x2 : BitVec 16} (hm : m < 64) (hc0 : c0 < 8)
    (h : m * 67108864 + c0 * 262144 + x0.toNat * 2097152 + x1.toNat * 65536 + x2.toNat = w) :
    w < 2 ^ 32 ∧ w / 67108864 = m ∧ w / 262144 % 8 = c0 ∧ BitVec.ofNat 5 (w / 2097152) = x0 ∧ BitVec.ofNat 2 (w / 65536) = x1 ∧ BitVec.ofNat 16 w = x2 := by
  have hxx0 := x0.isLt
  have hxx1 := x1.isLt
  have hxx2 := x2.isLt
  refine ⟨?_, ?_, ?_, field _ _ ?_, field _ _ ?_, field _ _ ?_⟩ <;> omega
theorem layout6 {m c0 w : Nat} {x0 : BitVec 5} {x1 : BitVec 5} {x2 : BitVec 13} (hm : m < 64) (hc0 : c0 < 8)
    (h : m * 67108864 + c0 * 8192 + x0.toNat * 2097152 + x1.toNat * 65536 + x2.toNat = w) :
    w < 2 ^ 32 ∧ w / 67108864 = m ∧ w / 8192 % 8 = c0 ∧ BitVec.ofNat 5 (w / 2097152) = x0 ∧ BitVec.ofNat 5 (w / 65536) = x1 ∧ BitVec.ofNat 13 w = x2 := by
  have hxx0 := x0.isLt
  have hxx1 := x1.isLt
  have hxx2 := x2.isLt
  refine ⟨?_, ?_, ?_, field _ _ ?_, field _ _ ?_, field _ _ ?_⟩ <;> omega
theorem layout7 {m w : Nat} {x0 : BitVec 5} {x1 : BitVec 21} (hm : m < 64)
    (h : m * 67108864 + x0.toNat * 2097152 + x1.toNat = w) :
    w < 2 ^ 32 ∧ w / 67108864 = m ∧ BitVec.ofNat 5 (w / 2097152) = x0 ∧ BitVec.ofNat 21 w = x1 := by
  have hxx0 := x0.isLt
  have hxx1 := x1.isLt
  refine ⟨?_, ?_, field _ _ ?_, field _ _ ?_⟩ <;> omega
theorem layout8 {m c0 c1 w : Nat} {x0 : BitVec 5} {x1 : BitVec 5} {x2 : BitVec 3} (hm : m < 64) (hc0 : c0 < 128) (hc1 : c1 < 64)
    (h : m * 67108864 + c0 * 512 + c1 * 1 + x0.toNat * 2097152 + x1.toNat * 65536 + x2.toNat * 64 = w) :
    w < 2 ^ 32 ∧ w / 67108864 = m ∧ w / 512 % 128 = c0 ∧ w % 64 = c1 ∧ BitVec.ofNat 5 (w / 2097152) = x0 ∧ BitVec.ofNat 5 (w / 65536) = x1 ∧ BitVec.ofNat 3 (w / 64) = x2 := by
  have hxx0 := x0.isLt
  have hxx1 := x1.isLt
  have hxx2 := x2.isLt
  refine ⟨?_, ?_, ?_, ?_, field _ _ ?_, field _ _ ?_, field _ _ ?_⟩ <;> omega
theorem layout9 {m c0 c1 w : Nat} {x0 : BitVec 5} {x1 : BitVec 4} {x2 : BitVec 5} (hm : m < 64) (hc0 : c0 < 2) (hc1 : c1 < 2048)
    (h : m * 67108864 + c0 * 1048576 + c1 * 1 + x0.toNat * 2097152 + x1.toNat * 65536 + x2.toNat * 2048 = w) :
    w < 2 ^ 32 ∧ w / 67108864 = m ∧ w / 1048576 % 2 = c0 ∧ w % 2048 = c1 ∧ BitVec.ofNat 5 (w / 2097152) = x0 ∧ BitVec.ofNat 4 (w / 65536) = x1 ∧ BitVec.ofNat 5 (w / 2048) = x2 := by
  have hxx0 := x0.isLt
  have hxx1 := x1.isLt
  have hxx2 := x2.isLt
  refine ⟨?_, ?_, ?_, ?_, field _ _ ?_, field _ _ ?_, field _ _ ?_⟩ <;> omega
theorem layout10 {m c0 w : Nat} {x0 : BitVec 5} {x1 : BitVec 12} (hm : m < 64) (hc0 : c0 < 512)
    (h : m * 67108864 + c0 * 4096 + x0.toNat * 2097152 + x1.toNat = w) :
    w < 2 ^ 32 ∧ w / 67108864 = m ∧ w / 4096 % 512 = c0 ∧ BitVec.ofNat 5 (w / 2097152) = x0 ∧ BitVec.ofNat 12 w = x1 := by
  have hxx0 := x0.isLt
  have hxx1 := x1.isLt
  refine ⟨?_, ?_, ?_, field _ _ ?_, field _ _ ?_⟩ <;> omega
theorem layout11 {m c0 w : Nat} {x0 : BitVec 5} {x1 : BitVec 5} {x2 : BitVec 12} (hm : m < 64) (hc0 : c0 < 16)
    (h : m * 67108864 + c0 * 4096 + x0.toNat * 2097152 + x1.toNat * 65536 + x2.toNat = w) :
    w < 2 ^ 32 ∧ w / 67108864 = m ∧ w / 4096 % 16 = c0 ∧ BitVec.ofNat 5 (w / 2097152) = x0 ∧ BitVec.ofNat 5 (w / 65536) = x1 ∧ BitVec.ofNat 12 w = x2 := by
  have hxx0 := x0.isLt
  have hxx1 := x1.isLt
  have hxx2 := x2.isLt
  refine ⟨?_, ?_, ?_, field _ _ ?_, field _ _ ?_, field _ _ ?_⟩ <;> omega
theorem layout12 {m w : Nat} {x0 : BitVec 5} {x1 : BitVec 4} {x2 : BitVec 5} {x3 : BitVec 2} {x4 : BitVec 10} (hm : m < 64)
    (h : m * 67108864 + x0.toNat * 2097152 + x1.toNat * 131072 + x2.toNat * 4096 + x3.toNat * 1024 + x4.toNat = w) :
    w < 2 ^ 32 ∧ w / 67108864 = m ∧ BitVec.ofNat 5 (w / 2097152) = x0 ∧ BitVec.ofNat 4 (w / 131072) = x1 ∧ BitVec.ofNat 5 (w / 4096) = x2 ∧ BitVec.ofNat 2 (w / 1024) = x3 ∧ BitVec.ofNat 10 w = x4 := by
  have hxx0 := x0.isLt
  have hxx1 := x1.isLt
  have hxx2 := x2.isLt
  have hxx3 := x3.isLt
  have hxx4 := x4.isLt
  refine ⟨?_, ?_, field _ _ ?_, field _ _ ?_, field _ _ ?_, field _ _ ?_, field _ _ ?_⟩ <;> omega
theorem layout13 {m c0 c1 w : Nat} {x0 : BitVec 4} {x1 : BitVec 4} {x2 : BitVec 5} {x3 : BitVec 10} (hm : m < 64) (hc0 : c0 < 2) (hc1 : c1 < 4)
    (h : m * 67108864 + c0 * 33554432 + c1 * 1024 + x0.toNat * 2097152 + x1.toNat * 131072 + x2.toNat * 4096 + x3.toNat = w) :
    w < 2 ^ 32 ∧ w / 67108864 = m ∧ w / 33554432 % 2 = c0 ∧ w / 1024 % 4 = c1 ∧ BitVec.ofNat 4 (w / 2097152) = x0 ∧ BitVec.ofNat 4 (w / 131072) = x1 ∧ BitVec.ofNat 5 (w / 4096) = x2 ∧ BitVec.ofNat 10 w = x3 := by
  have hxx0 := x0.isLt
  have hxx1 := x1.isLt
  have hxx2 := x2.isLt
  have hxx3 := x3.isLt
  refine ⟨?_, ?_, ?_, ?_, field _ _ ?_, field _ _ ?_, field _ _ ?_, field _ _ ?_⟩ <;> omega
theorem layout14 {m c0 c1 w : Nat} {x0 : BitVec 5} {x1 : BitVec 4} (hm : m < 64) (hc0 : c0 < 2) (hc1 : c1 < 65536)
    (h : m * 67108864 + c0 * 1048576 + c1 * 1 + x0.toNat * 2097152 + x1.toNat * 65536 = w) :
    w < 2 ^ 32 ∧ w / 67108864 = m ∧ w / 1048576 % 2 = c0 ∧ w % 65536 = c1 ∧ BitVec.ofNat 5 (w / 2097152) = x0 ∧ BitVec.ofNat 4 (w / 65536) = x1 := by
  have hxx0 := x0.isLt
  have hxx1 := x1.isLt
  refine ⟨?_, ?_, ?_, ?_, field _ _ ?_, field _ _ ?_⟩ <;> omega
theorem layout15 {m c0 c1 w : Nat} {x0 : BitVec 4} {x1 : BitVec 5} {x2 : BitVec 5} (hm : m < 64) (hc0 : c0 < 2) (hc1 : c1 < 2048)
    (h : m * 67108864 + c0 * 33554432 + c1 * 1 + x0.toNat * 2097152 + x1.toNat * 65536 + x2.toNat * 2048 = w) :
    w < 2 ^ 32 ∧ w / 67108864 = m ∧ w / 33554432 % 2 = c0 ∧ w % 2048 = c1 ∧ BitVec.ofNat 4 (w / 2097152) = x0 ∧ BitVec.ofNat 5 (w / 65536) = x1 ∧ BitVec.ofNat 5 (w / 2048) = x2 := by
  have hxx0 := x0.isLt
  have hxx1 := x1.isLt
  have hxx2 := x2.isLt
  refine ⟨?_, ?_, ?_, ?_, field _ _ ?_, field _ _ ?_, field _ _ ?_⟩ <;> omega
theorem layout16 {m c0 c1 c2 w : Nat} {x0 : BitVec 4} {x1 : BitVec 4} {x2 : BitVec 5} (hm : m < 64) (hc0 : c0 < 2) (hc1 : c1 < 2) (hc2 : c2 < 2048)
    (h : m * 67108864 + c0 * 33554432 + c1 * 1048576 + c2 * 1 + x0.toNat * 2097152 + x1.toNat * 65536 + x2.toNat * 2048 = w) :
    w < 2 ^ 32 ∧ w / 67108864 = m ∧ w / 33554432 % 2 = c0 ∧ w / 1048576 % 2 = c1 ∧ w % 2048 = c2 ∧ BitVec.ofNat 4 (w / 2097152) = x0 ∧ BitVec.ofNat 4 (w / 65536) = x1 ∧ BitVec.ofNat 5 (w / 2048) = x2 := by
  have hxx0 := x0.isLt
  have hxx1 := x1.isLt
  have hxx2 := x2.isLt
  refine ⟨?_, ?_, ?_, ?_, ?_, field _ _ ?_, field _ _ ?_, field _ _ ?_⟩ <;> omega
theorem layout17 {m c0 c1 c2 w : Nat} {x0 : BitVec 5} {x1 : BitVec 4} {x2 : BitVec 2} (hm : m < 64) (hc0 : c0 < 2) (hc1 : c1 < 256) (hc2 : c2 < 64)
    (h : m * 67108864 + c0 * 1048576 + c1 * 256 + c2 * 1 + x0.toNat * 2097152 + x1.toNat * 65536 + x2.toNat * 64 = w) :
    w < 2 ^ 32 ∧ w / 67108864 = m ∧ w / 1048576 % 2 = c0 ∧ w / 256 % 256 = c1 ∧ w % 64 = c2 ∧ BitVec.ofNat 5 (w / 2097152) = x0 ∧ BitVec.ofNat 4 (w / 65536) = x1 ∧ BitVec.ofNat 2 (w / 64) = x2 := by
  have hxx0 := x0.isLt
  have hxx1 := x1.isLt
  have hxx2 := x2.isLt
  refine ⟨?_, ?_, ?_, ?_, ?_, field _ _ ?_, field _ _ ?_, field _ _ ?_⟩ <;> omega
theorem layout18 {m c0 c1 w : Nat} {x0 : BitVec 4} (hm : m < 64) (hc0 : c0 < 64) (hc1 : c1 < 65536)
    (h : m * 67108864 + c0 * 1048576 + c1 * 1 + x0.toNat * 65536 = w) :
    w < 2 ^ 32 ∧ w / 67108864 = m ∧ w / 1048576 % 64 = c0 ∧ w % 65536 = c1 ∧ BitVec.ofNat 4 (w / 65536) = x0 := by
  have hxx0 := x0.isLt
  refine ⟨?_, ?_, ?_, ?_, field _ _ ?_⟩ <;> omega
theorem layout19 {m c0 c1 c2 w : Nat} {x0 : BitVec 5} {x1 : BitVec 4} {x2 : BitVec 3} (hm : m < 64) (hc0 : c0 < 2) (hc1 : c1 < 128) (hc2 : c2 < 64)
    (h : m * 67108864 + c0 * 1048576 + c1 * 512 + c2 * 1 + x0.toNat * 2097152 + x1.toNat * 65536 + x2.toNat * 64 = w) :
    w < 2 ^ 32 ∧ w / 67108864 = m ∧ w / 1048576 % 2 = c0 ∧ w / 512 % 128 = c1 ∧ w % 64 = c2 ∧ BitVec.ofNat 5 (w / 2097152) = x0 ∧ BitVec.ofNat 4 (w / 65536) = x1 ∧ BitVec.ofNat 3 (w / 64) = x2 := by
  have hxx0 := x0.isLt
  have hxx1 := x1.isLt
  have hxx2 := x2.isLt
  refine ⟨?_, ?_, ?_, ?_, ?_, field _ _ ?_, field _ _ ?_, field _ _ ?_⟩ <;> omega
theorem layout20 {m c0 w : Nat} {x0 : BitVec 5} {x1 : BitVec 1} {x2 : BitVec 1} {x3 : BitVec 3} (hm : m < 64) (hc0 : c0 < 65536)
    (h : m * 67108864 + c0 * 32 + x0.toNat * 2097152 + x1.toNat * 16 + x2.toNat * 8 + x3.toNat = w) :
    w < 2 ^ 32 ∧ w / 67108864 = m ∧ w / 32 % 65536 = c0 ∧ BitVec.ofNat 5 (w / 2097152) = x0 ∧ BitVec.ofNat 1 (w / 16) = x1 ∧ BitVec.ofNat 1 (w / 8) = x2 ∧ BitVec.ofNat 3 w = x3 := by
  have hxx0 := x0.isLt
  have hxx1 := x1.isLt
  have hxx2 := x2.isLt
  have hxx3 := x3.isLt
  refine ⟨?_, ?_, ?_, field _ _ ?_, field _ _ ?_, field _ _ ?_, field _ _ ?_⟩ <;> omega
theorem layout21 {m c0 c1 w : Nat} {x0 : BitVec 5} {x1 : BitVec 4} {x2 : BitVec 3} {x3 : BitVec 2} {x4 : BitVec 5} (hm : m < 64) (hc0 : c0 < 2) (hc1 : c1 < 64)
    (h : m * 67108864 + c0 * 1048576 + c1 * 1 + x0.toNat * 2097152 + x1.toNat * 65536 + x2.toNat * 8192 + x3.toNat * 2048 + x4.toNat * 64 = w) :
    w < 2 ^ 32 ∧ w / 67108864 = m ∧ w / 1048576 % 2 = c0 ∧ w % 64 = c1 ∧ BitVec.ofNat 5 (w / 2097152) = x0 ∧ BitVec.ofNat 4 (w / 65536) = x1 ∧ BitVec.ofNat 3 (w / 8192) = x2 ∧ BitVec.ofNat 2 (w / 2048) = x3 ∧ BitVec.ofNat 5 (w / 64) = x4 := by
  have hxx0 := x0.isLt
  have hxx1 := x1.isLt
  have hxx2 := x2.isLt
  have hxx3 := x3.isLt
  have hxx4 := x4.isLt
  refine ⟨?_, ?_, ?_, ?_, field _ _ ?_, field _ _ ?_, field _ _ ?_, field _ _ ?_, field _ _ ?_⟩ <;> omega
theorem layout22 {m c0 c1 c2 w : Nat} {x0 : BitVec 5} {x1 : BitVec 4} {x2 : BitVec 5} {x3 : BitVec 2} (hm : m < 64) (hc0 : c0 < 2) (hc1 : c1 < 8) (hc2 : c2 < 64)
    (h : m * 67108864 + c0 * 1048576 + c1 * 256 + c2 * 1 + x0.toNat * 2097152 + x1.toNat * 65536 + x2.toNat * 2048 + x3.toNat * 64 = w) :
    w < 2 ^ 32 ∧ w / 67108864 = m ∧ w / 1048576 % 2 = c0 ∧ w / 256 % 8 = c1 ∧ w % 64 = c2 ∧ BitVec.ofNat 5 (w / 2097152) = x0 ∧ BitVec.ofNat 4 (w / 65536) = x1 ∧ BitVec.ofNat 5 (w / 2048) = x2 ∧ BitVec.ofNat 2 (w / 64) = x3 := by
  have hxx0 := x0.isLt
  have hxx1 := x1.isLt
  have hxx2 := x2.isLt
  have hxx3 := x3.isLt
  refine ⟨?_, ?_, ?_, ?_, ?_, field _ _ ?_, field _ _ ?_, field _ _ ?_, field _ _ ?_⟩ <;> omega
theorem layout23 {m c0 c1 c2 c3 w : Nat} {x0 : BitVec 4} {x1 : BitVec 4} {x2 : BitVec 5} {x3 : BitVec 4} (hm : m < 64) (hc0 : c0 < 2) (hc1 : c1 < 2) (hc2 : c2 < 2) (hc3 : c3 < 64)
    (h : m * 67108864 + c0 * 33554432 + c1 * 1048576 + c2 * 1024 + c3 * 1 + x0.toNat * 2097152 + x1.toNat * 65536 + x2.toNat * 2048 + x3.toNat * 64 = w) :
    w < 2 ^ 32 ∧ w / 67108864 = m ∧ w / 33554432 % 2 = c0 ∧ w / 1048576 % 2 = c1 ∧ w / 1024 % 2 = c2 ∧ w % 64 = c3 ∧ BitVec.ofNat 4 (w / 2097152) = x0 ∧ BitVec.ofNat 4 (w / 65536) = x1 ∧ BitVec.ofNat 5 (w / 2048) = x2 ∧ BitVec.ofNat 4 (w / 64) = x3 := by
  have hxx0 := x0.isLt
  have hxx1 := x1.isLt
  have hxx2 := x2.isLt
  have hxx3 := x3.isLt
  refine ⟨?_, ?_, ?_, ?_, ?_, ?_, field _ _ ?_, field _ _ ?_, field _ _ ?_, field _ _ ?_⟩ <;> omega
theorem layout24 {m c0 c1 w : Nat} {x0 : BitVec 5} {x1 : BitVec 5} (hm : m < 64) (hc0 : c0 < 32) (hc1 : c1 < 2048)
    (h : m * 67108864 + c0 * 2097152 + c1 * 1 + x0.toNat * 65536 + x1.toNat * 2048 = w) :
    w < 2 ^ 32 ∧ w / 67108864 = m ∧ w / 2097152 % 32 = c0 ∧ w % 2048 = c1 ∧ BitVec.ofNat 5 (w / 65536) = x0 ∧ BitVec.ofNat 5 (w / 2048) = x1 := by
  have hxx0 := x0.isLt
  have hxx1 := x1.isLt
  refine ⟨?_, ?_, ?_, ?_, field _ _ ?_, field _ _ ?_⟩ <;> omega
theorem layout25 {m c0 c1 w : Nat} {x0 : BitVec 5} (hm : m < 64) (hc0 : c0 < 32) (hc1 : c1 < 65536)
    (h : m * 67108864 + c0 * 2097152 + c1 * 1 + x0.toNat * 65536 = w) :
    w < 2 ^ 32 ∧ w / 67108864 = m ∧ w / 2097152 % 32 = c0 ∧ w % 65536 = c1 ∧ BitVec.ofNat 5 (w / 65536) = x0 := by
  have hxx0 := x0.isLt
  refine ⟨?_, ?_, ?_, ?_, field _ _ ?_⟩ <;> omega
theorem layout26 {m c0 c1 c2 w : Nat} {x0 : BitVec 5} {x1 : BitVec 4} {x2 : BitVec 5} {x3 : BitVec 3} (hm : m < 64) (hc0 : c0 < 2) (hc1 : c1 < 4) (hc2 : c2 < 64)
    (h : m * 67108864 + c0 * 1048576 + c1 * 512 + c2 * 1 + x0.toNat * 2097152 + x1.toNat * 65536 + x2.toNat * 2048 + x3.toNat * 64 = w) :
    w < 2 ^ 32 ∧ w / 67108864 = m ∧ w / 1048576 % 2 = c0 ∧ w / 512 % 4 = c1 ∧ w % 64 = c2 ∧ BitVec.ofNat 5 (w / 2097152) = x0 ∧ BitVec.ofNat 4 (w / 65536) = x1 ∧ BitVec.ofNat 5 (w / 2048) = x2 ∧ BitVec.ofNat 3 (w / 64) = x3 := by
  have hxx0 := x0.isLt
  have hxx1 := x1.isLt
  have hxx2 := x2.isLt
  have hxx3 := x3.isLt
  refine ⟨?_, ?_, ?_, ?_, ?_, field _ _ ?_, field _ _ ?_, field _ _ ?_, field _ _ ?_⟩ <;> omega
theorem layout27 {m c0 w : Nat} {x0 : BitVec 5} (hm : m < 64) (hc0 : c0 < 2097152)
    (h : m * 67108864 + c0 * 1 + x0.toNat * 2097152 = w) :
    w < 2 ^ 32 ∧ w / 67108864 = m ∧ w % 2097152 = c0 ∧ BitVec.ofNat 5 (w / 2097152) = x0 := by
  have hxx0 := x0.isLt
  refine ⟨?_, ?_, ?_, field _ _ ?_⟩ <;> omega
theorem layout28 {m c0 w : Nat} (hm : m < 64) (hc0 : c0 < 67108864)
    (h : m * 67108864 + c0 * 1 = w) :
    w < 2 ^ 32 ∧ w / 67108864 = m ∧ w % 67108864 = c0 := by
  refine ⟨?_, ?_, ?_⟩ <;> omega
theorem layout29 {m c0 c1 c2 w : Nat} {x0 : BitVec 5} {x1 : BitVec 5} {x2 : BitVec 3} (hm : m < 64) (hc0 : c0 < 32) (hc1 : c1 < 4) (hc2 : c2 < 64)
    (h : m * 67108864 + c0 * 2097152 + c1 * 512 + c2 * 1 + x0.toNat * 65536 + x1.toNat * 2048 + x2.toNat * 64 = w) :
    w < 2 ^ 32 ∧ w / 67108864 = m ∧ w / 2097152 % 32 = c0 ∧ w / 512 % 4 = c1 ∧ w % 64 = c2 ∧ BitVec.ofNat 5 (w / 65536) = x0 ∧ BitVec.ofNat 5 (w / 2048) = x1 ∧ BitVec.ofNat 3 (w / 64) = x2 := by
  have hxx0 := x0.isLt
  have hxx1 := x1.isLt
  have hxx2 := x2.isLt
  refine ⟨?_, ?_, ?_, ?_, ?_, field _ _ ?_, field _ _ ?_, field _ _ ?_⟩ <;> omega
theorem layout30 {m c0 c1 c2 w : Nat} {x0 : BitVec 5} {x1 : BitVec 5} {x2 : BitVec 3} (hm : m < 64) (hc0 : c0 < 32) (hc1 : c1 < 4) (hc2 : c2 < 64)
    (h : m * 67108864 + c0 * 65536 + c1 * 512 + c2 * 1 + x0.toNat * 2097152 + x1.toNat * 2048 + x2.toNat * 64 = w) :
    w < 2 ^ 32 ∧ w / 67108864 = m ∧ w / 65536 % 32 = c0 ∧ w / 512 % 4 = c1 ∧ w % 64 = c2 ∧ BitVec.ofNat 5 (w / 2097152) = x0 ∧ BitVec.ofNat 5 (w / 2048) = x1 ∧ BitVec.ofNat 3 (w / 64) = x2 := by
  have hxx0 := x0.isLt
  have hxx1 := x1.isLt
  have hxx2 := x2.isLt
  refine ⟨?_, ?_, ?_, ?_, ?_, field _ _ ?_, field _ _ ?_, field _ _ ?_⟩ <;> omega
theorem layout31 {m c0 w : Nat} {x0 : BitVec 5} {x1 : BitVec 5} {x2 : BitVec 5} {x3 : BitVec 3} {x4 : BitVec 2} (hm : m < 64) (hc0 : c0 < 64)
    (h : m * 67108864 + c0 * 1 + x0.toNat * 2097152 + x1.toNat * 65536 + x2.toNat * 2048 + x3.toNat * 256 + x4.toNat * 64 = w) :
    w < 2 ^ 32 ∧ w / 67108864 = m ∧ w % 64 = c0 ∧ BitVec.ofNat 5 (w / 2097152) = x0 ∧ BitVec.ofNat 5 (w / 65536) = x1 ∧ BitVec.ofNat 5 (w / 2048) = x2 ∧ BitVec.ofNat 3 (w / 256) = x3 ∧ BitVec.ofNat 2 (w / 64) = x4 := by
  have hxx0 := x0.isLt
  have hxx1 := x1.isLt
  have hxx2 := x2.isLt
  have hxx3 := x3.isLt
  have hxx4 := x4.isLt
  refine ⟨?_, ?_, ?_, field _ _ ?_, field _ _ ?_, field _ _ ?_, field _ _ ?_, field _ _ ?_⟩ <;> omega
theorem layout32 {m c0 c1 w : Nat} {x0 : BitVec 5} {x1 : BitVec 5} {x2 : BitVec 3} {x3 : BitVec 2} (hm : m < 64) (hc0 : c0 < 32) (hc1 : c1 < 64)
    (h : m * 67108864 + c0 * 2048 + c1 * 1 + x0.toNat * 2097152 + x1.toNat * 65536 + x2.toNat * 256 + x3.toNat * 64 = w) :
    w < 2 ^ 32 ∧ w / 67108864 = m ∧ w / 2048 % 32 = c0 ∧ w % 64 = c1 ∧ BitVec.ofNat 5 (w / 2097152) = x0 ∧ BitVec.ofNat 5 (w / 65536) = x1 ∧ BitVec.ofNat 3 (w / 256) = x2 ∧ BitVec.ofNat 2 (w / 64) = x3 := by
  have hxx0 := x0.isLt
  have hxx1 := x1.isLt
  have hxx2 := x2.isLt
  have hxx3 := x3.isLt
  refine ⟨?_, ?_, ?_, ?_, field _ _ ?_, field _ _ ?_, field _ _ ?_, field _ _ ?_⟩ <;> omega
theorem layout33 {m c0 c1 c2 c3 w : Nat} {x0 : BitVec 3} {x1 : BitVec 3} {x2 : BitVec 3} (hm : m < 64) (hc0 : c0 < 4) (hc1 : c1 < 4) (hc2 : c2 < 4) (hc3 : c3 < 2048)
    (h : m * 67108864 + c0 * 16777216 + c1 * 524288 + c2 * 16384 + c3 * 1 + x0.toNat * 2097152 + x1.toNat * 65536 + x2.toNat * 2048 = w) :
    w < 2 ^ 32 ∧ w / 67108864 = m ∧ w / 16777216 % 4 = c0 ∧ w / 524288 % 4 = c1 ∧ w / 16384 % 4 = c2 ∧ w % 2048 = c3 ∧ BitVec.ofNat 3 (w / 2097152) = x0 ∧ BitVec.ofNat 3 (w / 65536) = x1 ∧ BitVec.ofNat 3 (w / 2048) = x2 := by
  have hxx0 := x0.isLt
  have hxx1 := x1.isLt
  have hxx2 := x2.isLt
  refine ⟨?_, ?_, ?_, ?_, ?_, ?_, field _ _ ?_, field _ _ ?_, field _ _ ?_⟩ <;> omega
theorem layout34 {m c0 c1 c2 w : Nat} {x0 : BitVec 3} {x1 : BitVec 3} (hm : m < 64) (hc0 : c0 < 4) (hc1 : c1 < 4) (hc2 : c2 < 65536)
    (h : m * 67108864 + c0 * 16777216 + c1 * 524288 + c2 * 1 + x0.toNat * 2097152 + x1.toNat * 65536 = w) :
    w < 2 ^ 32 ∧ w / 67108864 = m ∧ w / 16777216 % 4 = c0 ∧ w / 524288 % 4 = c1 ∧ w % 65536 = c2 ∧ BitVec.ofNat 3 (w / 2097152) = x0 ∧ BitVec.ofNat 3 (w / 65536) = x1 := by
  have hxx0 := x0.isLt
  have hxx1 := x1.isLt
  refine ⟨?_, ?_, ?_, ?_, ?_, field _ _ ?_, field _ _ ?_⟩ <;> omega
theorem layout35 {m c0 w : Nat} {x0 : BitVec 5} {x1 : BitVec 5} {x2 : BitVec 5} {x3 : BitVec 3} (hm : m < 64) (hc0 : c0 < 256)
    (h : m * 67108864 + c0 * 1 + x0.toNat * 2097152 + x1.toNat * 65536 + x2.toNat * 2048 + x3.toNat * 256 = w) :
    w < 2 ^ 32 ∧ w / 67108864 = m ∧ w % 256 = c0 ∧ BitVec.ofNat 5 (w / 2097152) = x0 ∧ BitVec.ofNat 5 (w / 65536) = x1 ∧ BitVec.ofNat 5 (w / 2048) = x2 ∧ BitVec.ofNat 3 (w / 256) = x3 := by
  have hxx0 := x0.isLt
  have hxx1 := x1.isLt
  have hxx2 := x2.isLt
  have hxx3 := x3.isLt
  refine ⟨?_, ?_, ?_, field _ _ ?_, field _ _ ?_, field _ _ ?_, field _ _ ?_⟩ <;> omega
theorem layout36 {m c0 w : Nat} {x0 : BitVec 5} {x1 : BitVec 4} {x2 : BitVec 5} {x3 : BitVec 3} {x4 : BitVec 2} {x5 : BitVec 5} (hm : m < 64) (hc0 : c0 < 4)
    (h : m * 67108864 + c0 * 32 + x0.toNat * 2097152 + x1.toNat * 131072 + x2.toNat * 4096 + x3.toNat * 512 + x4.toNat * 128 + x5.toNat = w) :
    w < 2 ^ 32 ∧ w / 67108864 = m ∧ w / 32 % 4 = c0 ∧ BitVec.ofNat 5 (w / 2097152) = x0 ∧ BitVec.ofNat 4 (w / 131072) = x1 ∧ BitVec.ofNat 5 (w / 4096) = x2 ∧ BitVec.ofNat 3 (w / 512) = x3 ∧ BitVec.ofNat 2 (w / 128) = x4 ∧ BitVec.ofNat 5 w = x5 := by
  have hxx0 := x0.isLt
  have hxx1 := x1.isLt
  have hxx2 := x2.isLt
  have hxx3 := x3.isLt
  have hxx4 := x4.isLt
  have hxx5 := x5.isLt
  refine ⟨?_, ?_, ?_, field _ _ ?_, field _ _ ?_, field _ _ ?_, field _ _ ?_, field _ _ ?_, field _ _ ?_⟩ <;> omega
theorem layout37 {m c0 c1 w : Nat} {x0 : BitVec 5} {x1 : BitVec 5} {x2 : BitVec 5} {x3 : BitVec 2} (hm : m < 64) (hc0 : c0 < 8) (hc1 : c1 < 64)
    (h : m * 67108864 + c0 * 256 + c1 * 1 + x0.toNat * 2097152 + x1.toNat * 65536 + x2.toNat * 2048 + x3.toNat * 64 = w) :
    w < 2 ^ 32 ∧ w / 67108864 = m ∧ w / 256 % 8 = c0 ∧ w % 64 = c1 ∧ BitVec.ofNat 5 (w / 2097152) = x0 ∧ BitVec.ofNat 5 (w / 65536) = x1 ∧ BitVec.ofNat 5 (w / 2048) = x2 ∧ BitVec.ofNat 2 (w / 64) = x3 := by
  have hxx0 := x0.isLt
  have hxx1 := x1.isLt
  have hxx2 := x2.isLt
  have hxx3 := x3.isLt
  refine ⟨?_, ?_, ?_, ?_, field _ _ ?_, field _ _ ?_, field _ _ ?_, field _ _ ?_⟩ <;> omega
theorem layout38 {m c0 c1 c2 w : Nat} {x0 : BitVec 5} {x1 : BitVec 5} {x2 : BitVec 3} {x3 : BitVec 2} (hm : m < 64) (hc0 : c0 < 4) (hc1 : c1 < 8) (hc2 : c2 < 64)
    (h : m * 67108864 + c0 * 16384 + c1 * 256 + c2 * 1 + x0.toNat * 2097152 + x1.toNat * 65536 + x2.toNat * 2048 + x3.toNat * 64 = w) :
    w < 2 ^ 32 ∧ w / 67108864 = m ∧ w / 16384 % 4 = c0 ∧ w / 256 % 8 = c1 ∧ w % 64 = c2 ∧ BitVec.ofNat 5 (w / 2097152) = x0 ∧ BitVec.ofNat 5 (w / 65536) = x1 ∧ BitVec.ofNat 3 (w / 2048) = x2 ∧ BitVec.ofNat 2 (w / 64) = x3 := by
  have hxx0 := x0.isLt
  have hxx1 := x1.isLt
  have hxx2 := x2.isLt
  have hxx3 := x3.isLt
  refine ⟨?_, ?_, ?_, ?_, ?_, field _ _ ?_, field _ _ ?_, field _ _ ?_, field _ _ ?_⟩ <;> omega
theorem layout39 {m c0 c1 w : Nat} {x0 : BitVec 5} {x1 : BitVec 5} {x2 : BitVec 3} (hm : m < 64) (hc0 : c0 < 4) (hc1 : c1 < 2048)
    (h : m * 67108864 + c0 * 16384 + c1 * 1 + x0.toNat * 2097152 + x1.toNat * 65536 + x2.toNat * 2048 = w) :
    w < 2 ^ 32 ∧ w / 67108864 = m ∧ w / 16384 % 4 = c0 ∧ w % 2048 = c1 ∧ BitVec.ofNat 5 (w / 2097152) = x0 ∧ BitVec.ofNat 5 (w / 65536) = x1 ∧ BitVec.ofNat 3 (w / 2048) = x2 := by
  have hxx0 := x0.isLt
  have hxx1 := x1.isLt
  have hxx2 := x2.isLt
  refine ⟨?_, ?_, ?_, ?_, field _ _ ?_, field _ _ ?_, field _ _ ?_⟩ <;> omega
theorem layout40 {m c0 c1 c2 w : Nat} {x0 : BitVec 2} {x1 : BitVec 4} {x2 : BitVec 5} (hm : m < 64) (hc0 : c0 < 8) (hc1 : c1 < 2) (hc2 : c2 < 2048)
    (h : m * 67108864 + c0 * 8388608 + c1 * 1048576 + c2 * 1 + x0.toNat * 2097152 + x1.toNat * 65536 + x2.toNat * 2048 = w) :
    w < 2 ^ 32 ∧ w / 67108864 = m ∧ w / 8388608 % 8 = c0 ∧ w / 1048576 % 2 = c1 ∧ w % 2048 = c2 ∧ BitVec.ofNat 2 (w / 2097152) = x0 ∧ BitVec.ofNat 4 (w / 65536) = x1 ∧ BitVec.ofNat 5 (w / 2048) = x2 := by
  have hxx0 := x0.isLt
  have hxx1 := x1.isLt
  have hxx2 := x2.isLt
  refine ⟨?_, ?_, ?_, ?_, ?_, field _ _ ?_, field _ _ ?_, field _ _ ?_⟩ <;> omega
theorem layout41 {m c0 c1 c2 w : Nat} {x0 : BitVec 2} {x1 : BitVec 5} {x2 : BitVec 2} (hm : m < 64) (hc0 : c0 < 8) (hc1 : c1 < 256) (hc2 : c2 < 64)
    (h : m * 67108864 + c0 * 8388608 + c1 * 256 + c2 * 1 + x0.toNat * 2097152 + x1.toNat * 65536 + x2.toNat * 64 = w) :
    w < 2 ^ 32 ∧ w / 67108864 = m ∧ w / 8388608 % 8 = c0 ∧ w / 256 % 256 = c1 ∧ w % 64 = c2 ∧ BitVec.ofNat 2 (w / 2097152) = x0 ∧ BitVec.ofNat 5 (w / 65536) = x1 ∧ BitVec.ofNat 2 (w / 64) = x2 := by
  have hxx0 := x0.isLt
  have hxx1 := x1.isLt
  have hxx2 := x2.isLt
  refine ⟨?_, ?_, ?_, ?_, ?_, field _ _ ?_, field _ _ ?_, field _ _ ?_⟩ <;> omega
theorem layout42 {m c0 c1 c2 c3 w : Nat} {x0 : BitVec 2} {x1 : BitVec 4} {x2 : BitVec 2} (hm : m < 64) (hc0 : c0 < 8) (hc1 : c1 < 2) (hc2 : c2 < 256) (hc3 : c3 < 64)
    (h : m * 67108864 + c0 * 8388608 + c1 * 1048576 + c2 * 256 + c3 * 1 + x0.toNat * 2097152 + x1.toNat * 65536 + x2.toNat * 64 = w) :
    w < 2 ^ 32 ∧ w / 67108864 = m ∧ w / 8388608 % 8 = c0 ∧ w / 1048576 % 2 = c1 ∧ w / 256 % 256 = c2 ∧ w % 64 = c3 ∧ BitVec.ofNat 2 (w / 2097152) = x0 ∧ BitVec.ofNat 4 (w / 65536) = x1 ∧ BitVec.ofNat 2 (w / 64) = x2 := by
  have hxx0 := x0.isLt
  have hxx1 := x1.isLt
  have hxx2 := x2.isLt
  refine ⟨?_, ?_, ?_, ?_, ?_, ?_, field _ _ ?_, field _ _ ?_, field _ _ ?_⟩ <;> omega
theorem layout43 {m c0 c1 w : Nat} {x0 : BitVec 5} {x1 : BitVec 2} (hm : m < 64) (hc0 : c0 < 8) (hc1 : c1 < 65536)
    (h : m * 67108864 + c0 * 262144 + c1 * 1 + x0.toNat * 2097152 + x1.toNat * 65536 = w) :
    w < 2 ^ 32 ∧ w / 67108864 = m ∧ w / 262144 % 8 = c0 ∧ w % 65536 = c1 ∧ BitVec.ofNat 5 (w / 2097152) = x0 ∧ BitVec.ofNat 2 (w / 65536) = x1 := by
  have hxx0 := x0.isLt
  have hxx1 := x1.isLt
  refine ⟨?_, ?_, ?_, ?_, field _ _ ?_, field _ _ ?_⟩ <;> omega
theorem layout44 {m c0 c1 c2 w : Nat} {x0 : BitVec 3} {x1 : BitVec 5} {x2 : BitVec 5} {x3 : BitVec 3} (hm : m < 64) (hc0 : c0 < 4) (hc1 : c1 < 4) (hc2 : c2 < 64)
    (h : m * 67108864 + c0 * 16777216 + c1 * 512 + c2 * 1 + x0.toNat * 2097152 + x1.toNat * 65536 + x2.toNat * 2048 + x3.toNat * 64 = w) :
    w < 2 ^ 32 ∧ w / 67108864 = m ∧ w / 16777216 % 4 = c0 ∧ w / 512 % 4 = c1 ∧ w % 64 = c2 ∧ BitVec.ofNat 3 (w / 2097152) = x0 ∧ BitVec.ofNat 5 (w / 65536) = x1 ∧ BitVec.ofNat 5 (w / 2048) = x2 ∧ BitVec.ofNat 3 (w / 64) = x3 := by
  have hxx0 := x0.isLt
  have hxx1 := x1.isLt
  have hxx2 := x2.isLt
  have hxx3 := x3.isLt
  refine ⟨?_, ?_, ?_, ?_, ?_, field _ _ ?_, field _ _ ?_, field _ _ ?_, field _ _ ?_⟩ <;> omega
theorem layout45 {m c0 c1 c2 w : Nat} {x0 : BitVec 3} {x1 : BitVec 3} {x2 : BitVec 5} (hm : m < 64) (hc0 : c0 < 4) (hc1 : c1 < 4) (hc2 : c2 < 2048)
    (h : m * 67108864 + c0 * 16777216 + c1 * 524288 + c2 * 1 + x0.toNat * 2097152 + x1.toNat * 65536 + x2.toNat * 2048 = w) :
    w < 2 ^ 32 ∧ w / 67108864 = m ∧ w / 16777216 % 4 = c0 ∧ w / 524288 % 4 = c1 ∧ w % 2048 = c2 ∧ BitVec.ofNat 3 (w / 2097152) = x0 ∧ BitVec.ofNat 3 (w / 65536) = x1 ∧ BitVec.ofNat 5 (w / 2048) = x2 := by
  have hxx0 := x0.isLt
  have hxx1 := x1.isLt
  have hxx2 := x2.isLt
  refine ⟨?_, ?_, ?_, ?_, ?_, field _ _ ?_, field _ _ ?_, field _ _ ?_⟩ <;> omega
theorem layout46 {m c0 c1 c2 w : Nat} {x0 : BitVec 5} {x1 : BitVec 3} {x2 : BitVec 5} {x3 : BitVec 2} (hm : m < 64) (hc0 : c0 < 4) (hc1 : c1 < 8) (hc2 : c2 < 64)
    (h : m * 67108864 + c0 * 524288 + c1 * 256 + c2 * 1 + x0.toNat * 2097152 + x1.toNat * 65536 + x2.toNat * 2048 + x3.toNat * 64 = w) :
    w < 2 ^ 32 ∧ w / 67108864 = m ∧ w / 524288 % 4 = c0 ∧ w / 256 % 8 = c1 ∧ w % 64 = c2 ∧ BitVec.ofNat 5 (w / 2097152) = x0 ∧ BitVec.ofNat 3 (w / 65536) = x1 ∧ BitVec.ofNat 5 (w / 2048) = x2 ∧ BitVec.ofNat 2 (w / 64) = x3 := by
  have hxx0 := x0.isLt
  have hxx1 := x1.isLt
  have hxx2 := x2.isLt
  have hxx3 := x3.isLt
  refine ⟨?_, ?_, ?_, ?_, ?_, field _ _ ?_, field _ _ ?_, field _ _ ?_, field _ _ ?_⟩ <;> omega
theorem layout47 {m c0 c1 w : Nat} {x0 : BitVec 5} {x1 : BitVec 5} {x2 : BitVec 5} (hm : m < 64) (hc0 : c0 < 32) (hc1 : c1 < 64)
    (h : m * 67108864 + c0 * 2097152 + c1 * 1 + x0.toNat * 65536 + x1.toNat * 2048 + x2.toNat * 64 = w) :
    w < 2 ^ 32 ∧ w / 67108864 = m ∧ w / 2097152 % 32 = c0 ∧ w % 64 = c1 ∧ BitVec.ofNat 5 (w / 65536) = x0 ∧ BitVec.ofNat 5 (w / 2048) = x1 ∧ BitVec.ofNat 5 (w / 64) = x2 := by
  have hxx0 := x0.isLt
  have hxx1 := x1.isLt
  have hxx2 := x2.isLt
  refine ⟨?_, ?_, ?_, ?_, field _ _ ?_, field _ _ ?_, field _ _ ?_⟩ <;> omega
theorem layout48 {m c0 c1 w : Nat} {x0 : BitVec 5} {x1 : BitVec 1} (hm : m < 64) (hc0 : c0 < 16384) (hc1 : c1 < 64)
    (h : m * 67108864 + c0 * 128 + c1 * 1 + x0.toNat * 2097152 + x1.toNat * 64 = w) :
    w < 2 ^ 32 ∧ w / 67108864 = m ∧ w / 128 % 16384 = c0 ∧ w % 64 = c1 ∧ BitVec.ofNat 5 (w / 2097152) = x0 ∧ BitVec.ofNat 1 (w / 64) = x1 := by
  have hxx0 := x0.isLt
  have hxx1 := x1.isLt
  refine ⟨?_, ?_, ?_, ?_, field _ _ ?_, field _ _ ?_⟩ <;> omega
theorem layout49 {m c0 c1 c2 w : Nat} {x0 : BitVec 5} {x1 : BitVec 4} {x2 : BitVec 5} (hm : m < 64) (hc0 : c0 < 32) (hc1 : c1 < 2) (hc2 : c2 < 64)
    (h : m * 67108864 + c0 * 2097152 + c1 * 32768 + c2 * 1 + x0.toNat * 65536 + x1.toNat * 2048 + x2.toNat * 64 = w) :
    w < 2 ^ 32 ∧ w / 67108864 = m ∧ w / 2097152 % 32 = c0 ∧ w / 32768 % 2 = c1 ∧ w % 64 = c2 ∧ BitVec.ofNat 5 (w / 65536) = x0 ∧ BitVec.ofNat 4 (w / 2048) = x1 ∧ BitVec.ofNat 5 (w / 64) = x2 := by
  have hxx0 := x0.isLt
  have hxx1 := x1.isLt
  have hxx2 := x2.isLt
  refine ⟨?_, ?_, ?_, ?_, ?_, field _ _ ?_, field _ _ ?_, field _ _ ?_⟩ <;> omega
theorem layout50 {m c0 c1 c2 w : Nat} {x0 : BitVec 5} {x1 : BitVec 4} {x2 : BitVec 4} (hm : m < 64) (hc0 : c0 < 2) (hc1 : c1 < 2) (hc2 : c2 < 2048)
    (h : m * 67108864 + c0 * 1048576 + c1 * 32768 + c2 * 1 + x0.toNat * 2097152 + x1.toNat * 65536 + x2.toNat * 2048 = w) :
    w < 2 ^ 32 ∧ w / 67108864 = m ∧ w / 1048576 % 2 = c0 ∧ w / 32768 % 2 = c1 ∧ w % 2048 = c2 ∧ BitVec.ofNat 5 (w / 2097152) = x0 ∧ BitVec.ofNat 4 (w / 65536) = x1 ∧ BitVec.ofNat 4 (w / 2048) = x2 := by
  have hxx0 := x0.isLt
  have hxx1 := x1.isLt
  have hxx2 := x2.isLt
  refine ⟨?_, ?_, ?_, ?_, ?_, field _ _ ?_, field _ _ ?_, field _ _ ?_⟩ <;> omega
theorem layout51 {m c0 c1 w : Nat} {x0 : BitVec 5} {x1 : BitVec 5} (hm : m < 64) (hc0 : c0 < 1024) (hc1 : c1 < 64)
    (h : m * 67108864 + c0 * 65536 + c1 * 1 + x0.toNat * 2048 + x1.toNat * 64 = w) :
    w < 2 ^ 32 ∧ w / 67108864 = m ∧ w / 65536 % 1024 = c0 ∧ w % 64 = c1 ∧ BitVec.ofNat 5 (w / 2048) = x0 ∧ BitVec.ofNat 5 (w / 64) = x1 := by
  have hxx0 := x0.isLt
  have hxx1 := x1.isLt
  refine ⟨?_, ?_, ?_, ?_, field _ _ ?_, field _ _ ?_⟩ <;> omega
theorem layout52 {m c0 w : Nat} {x0 : BitVec 24} (hm : m < 64) (hc0 : c0 < 4)
    (h : m * 67108864 + c0 * 16777216 + x0.toNat = w) :
    w < 2 ^ 32 ∧ w / 67108864 = m ∧ w / 16777216 % 4 = c0 ∧ BitVec.ofNat 24 w = x0 := by
  have hxx0 := x0.isLt
  refine ⟨?_, ?_, ?_, field _ _ ?_⟩ <;> omega
theorem layout53 {m c0 w : Nat} {x0 : BitVec 5} (hm : m < 64) (hc0 : c0 < 2097152)
    (h : m * 67108864 + c0 * 32 + x0.toNat = w) :
    w < 2 ^ 32 ∧ w / 67108864 = m ∧ w / 32 % 2097152 = c0 ∧ BitVec.ofNat 5 w = x0 := by
  have hxx0 := x0.isLt
  refine ⟨?_, ?_, ?_, field _ _ ?_⟩ <;> omega
theorem layout54 {m c0 w : Nat} {x0 : BitVec 6} (hm : m < 64) (hc0 : c0 < 1048576)
    (h : m * 67108864 + c0 * 64 + x0.toNat = w) :
    w < 2 ^ 32 ∧ w / 67108864 = m ∧ w / 64 % 1048576 = c0 ∧ BitVec.ofNat 6 w = x0 := by
  have hxx0 := x0.isLt
  refine ⟨?_, ?_, ?_, field _ _ ?_⟩ <;> omega

theorem add (d a b : BitVec 5) : Statement (.add d a b) := by
  obtain ⟨hb, hm, c0, f0, f1, f2⟩ := layout0 (m := 1) (c0 := 0) (x0 := d) (x1 := a) (x2 := b) (Nat.le_of_ble_eq_true rfl) (Nat.le_of_ble_eq_true rfl) (rfl : _ = wordNat (.add d a b))
  exact single rfl hb <| (major01 hm).trans <| (if_pos c0).trans <| by rw [f0, f1, f2]
theorem sub (d a b : BitVec 5) : Statement (.sub d a b) := by
  obtain ⟨hb, hm, c0, f0, f1, f2⟩ := layout0 (m := 1) (c0 := 1) (x0 := d) (x1 := a) (x2 := b) (Nat.le_of_ble_eq_true rfl) (Nat.le_of_ble_eq_true rfl) (rfl : _ = wordNat (.sub d a b))
  exact single rfl hb <| (major01 hm).trans <| (if_neg fun h => absurd (c0.symm.trans h) (Nat.ne_of_beq_eq_false rfl)).trans <| (if_pos c0).trans <| by rw [f0, f1, f2]
theorem and (d a b : BitVec 5) : Statement (.and d a b) := by
  obtain ⟨hb, hm, c0, f0, f1, f2⟩ := layout0 (m := 1) (c0 := 2) (x0 := d) (x1 := a) (x2 := b) (Nat.le_of_ble_eq_true rfl) (Nat.le_of_ble_eq_true rfl) (rfl : _ = wordNat (.and d a b))
  exact single rfl hb <| (major01 hm).trans <| (if_neg fun h => absurd (c0.symm.trans h) (Nat.ne_of_beq_eq_false rfl)).trans <| (if_neg fun h => absurd (c0.symm.trans h) (Nat.ne_of_beq_eq_false rfl)).trans <| (if_pos c0).trans <| by rw [f0, f1, f2]
theorem or (d a b : BitVec 5) : Statement (.or d a b) := by
  obtain ⟨hb, hm, c0, f0, f1, f2⟩ := layout0 (m := 1) (c0 := 3) (x0 := d) (x1 := a) (x2 := b) (Nat.le_of_ble_eq_true rfl) (Nat.le_of_ble_eq_true rfl) (rfl : _ = wordNat (.or d a b))
  exact single rfl hb <| (major01 hm).trans <| (if_neg fun h => absurd (c0.symm.trans h) (Nat.ne_of_beq_eq_false rfl)).trans <| (if_neg fun h => absurd (c0.symm.trans h) (Nat.ne_of_beq_eq_false rfl)).trans <| (if_neg fun h => absurd (c0.symm.trans h) (Nat.ne_of_beq_eq_false rfl)).trans <| (if_pos c0).trans <| by rw [f0, f1, f2]
theorem xor (d a b : BitVec 5) : Statement (.xor d a b) := by
  obtain ⟨hb, hm, c0, f0, f1, f2⟩ := layout0 (m := 1) (c0 := 4) (x0 := d) (x1 := a) (x2 := b) (Nat.le_of_ble_eq_true rfl) (Nat.le_of_ble_eq_true rfl) (rfl : _ = wordNat (.xor d a b))
  exact single rfl hb <| (major01 hm).trans <| (if_neg fun h => absurd (c0.symm.trans h) (Nat.ne_of_beq_eq_false rfl)).trans <| (if_neg fun h => absurd (c0.symm.trans h) (Nat.ne_of_beq_eq_false rfl)).trans <| (if_neg fun h => absurd (c0.symm.trans h) (Nat.ne_of_beq_eq_false rfl)).trans <| (if_neg fun h => absurd (c0.symm.trans h) (Nat.ne_of_beq_eq_false rfl)).trans <| (if_pos c0).trans <| by rw [f0, f1, f2]
theorem sll (d a b : BitVec 5) : Statement (.sll d a b) := by
  obtain ⟨hb, hm, c0, f0, f1, f2⟩ := layout0 (m := 1) (c0 := 5) (x0 := d) (x1 := a) (x2 := b) (Nat.le_of_ble_eq_true rfl) (Nat.le_of_ble_eq_true rfl) (rfl : _ = wordNat (.sll d a b))
  exact single rfl hb <| (major01 hm).trans <| (if_neg fun h => absurd (c0.symm.trans h) (Nat.ne_of_beq_eq_false rfl)).trans <| (if_neg fun h => absurd (c0.symm.trans h) (Nat.ne_of_beq_eq_false rfl)).trans <| (if_neg fun h => absurd (c0.symm.trans h) (Nat.ne_of_beq_eq_false rfl)).trans <| (if_neg fun h => absurd (c0.symm.trans h) (Nat.ne_of_beq_eq_false rfl)).trans <| (if_neg fun h => absurd (c0.symm.trans h) (Nat.ne_of_beq_eq_false rfl)).trans <| (if_pos c0).trans <| by rw [f0, f1, f2]
theorem srl (d a b : BitVec 5) : Statement (.srl d a b) := by
  obtain ⟨hb, hm, c0, f0, f1, f2⟩ := layout0 (m := 1) (c0 := 6) (x0 := d) (x1 := a) (x2 := b) (Nat.le_of_ble_eq_true rfl) (Nat.le_of_ble_eq_true rfl) (rfl : _ = wordNat (.srl d a b))
  exact single rfl hb <| (major01 hm).trans <| (if_neg fun h => absurd (c0.symm.trans h) (Nat.ne_of_beq_eq_false rfl)).trans <| (if_neg fun h => absurd (c0.symm.trans h) (Nat.ne_of_beq_eq_false rfl)).trans <| (if_neg fun h => absurd (c0.symm.trans h) (Nat.ne_of_beq_eq_false rfl)).trans <| (if_neg fun h => absurd (c0.symm.trans h) (Nat.ne_of_beq_eq_false rfl)).trans <| (if_neg fun h => absurd (c0.symm.trans h) (Nat.ne_of_beq_eq_false rfl)).trans <| (if_neg fun h => absurd (c0.symm.trans h) (Nat.ne_of_beq_eq_false rfl)).trans <| (if_pos c0).trans <| by rw [f0, f1, f2]
theorem sra (d a b : BitVec 5) : Statement (.sra d a b) := by
  obtain ⟨hb, hm, c0, f0, f1, f2⟩ := layout0 (m := 1) (c0 := 7) (x0 := d) (x1 := a) (x2 := b) (Nat.le_of_ble_eq_true rfl) (Nat.le_of_ble_eq_true rfl) (rfl : _ = wordNat (.sra d a b))
  exact single rfl hb <| (major01 hm).trans <| (if_neg fun h => absurd (c0.symm.trans h) (Nat.ne_of_beq_eq_false rfl)).trans <| (if_neg fun h => absurd (c0.symm.trans h) (Nat.ne_of_beq_eq_false rfl)).trans <| (if_neg fun h => absurd (c0.symm.trans h) (Nat.ne_of_beq_eq_false rfl)).trans <| (if_neg fun h => absurd (c0.symm.trans h) (Nat.ne_of_beq_eq_false rfl)).trans <| (if_neg fun h => absurd (c0.symm.trans h) (Nat.ne_of_beq_eq_false rfl)).trans <| (if_neg fun h => absurd (c0.symm.trans h) (Nat.ne_of_beq_eq_false rfl)).trans <| (if_neg fun h => absurd (c0.symm.trans h) (Nat.ne_of_beq_eq_false rfl)).trans <| (if_pos c0).trans <| by rw [f0, f1, f2]
theorem slt (d a b : BitVec 5) : Statement (.slt d a b) := by
  obtain ⟨hb, hm, c0, f0, f1, f2⟩ := layout0 (m := 1) (c0 := 8) (x0 := d) (x1 := a) (x2 := b) (Nat.le_of_ble_eq_true rfl) (Nat.le_of_ble_eq_true rfl) (rfl : _ = wordNat (.slt d a b))
  exact single rfl hb <| (major01 hm).trans <| (if_neg fun h => absurd (c0.symm.trans h) (Nat.ne_of_beq_eq_false rfl)).trans <| (if_neg fun h => absurd (c0.symm.trans h) (Nat.ne_of_beq_eq_false rfl)).trans <| (if_neg fun h => absurd (c0.symm.trans h) (Nat.ne_of_beq_eq_false rfl)).trans <| (if_neg fun h => absurd (c0.symm.trans h) (Nat.ne_of_beq_eq_false rfl)).trans <| (if_neg fun h => absurd (c0.symm.trans h) (Nat.ne_of_beq_eq_false rfl)).trans <| (if_neg fun h => absurd (c0.symm.trans h) (Nat.ne_of_beq_eq_false rfl)).trans <| (if_neg fun h => absurd (c0.symm.trans h) (Nat.ne_of_beq_eq_false rfl)).trans <| (if_neg fun h => absurd (c0.symm.trans h) (Nat.ne_of_beq_eq_false rfl)).trans <| (if_pos c0).trans <| by rw [f0, f1, f2]
theorem sltu (d a b : BitVec 5) : Statement (.sltu d a b) := by
  obtain ⟨hb, hm, c0, f0, f1, f2⟩ := layout0 (m := 1) (c0 := 9) (x0 := d) (x1 := a) (x2 := b) (Nat.le_of_ble_eq_true rfl) (Nat.le_of_ble_eq_true rfl) (rfl : _ = wordNat (.sltu d a b))
  exact single rfl hb <| (major01 hm).trans <| (if_neg fun h => absurd (c0.symm.trans h) (Nat.ne_of_beq_eq_false rfl)).trans <| (if_neg fun h => absurd (c0.symm.trans h) (Nat.ne_of_beq_eq_false rfl)).trans <| (if_neg fun h => absurd (c0.symm.trans h) (Nat.ne_of_beq_eq_false rfl)).trans <| (if_neg fun h => absurd (c0.symm.trans h) (Nat.ne_of_beq_eq_false rfl)).trans <| (if_neg fun h => absurd (c0.symm.trans h) (Nat.ne_of_beq_eq_false rfl)).trans <| (if_neg fun h => absurd (c0.symm.trans h) (Nat.ne_of_beq_eq_false rfl)).trans <| (if_neg fun h => absurd (c0.symm.trans h) (Nat.ne_of_beq_eq_false rfl)).trans <| (if_neg fun h => absurd (c0.symm.trans h) (Nat.ne_of_beq_eq_false rfl)).trans <| (if_neg fun h => absurd (c0.symm.trans h) (Nat.ne_of_beq_eq_false rfl)).trans <| (if_pos c0).trans <| by rw [f0, f1, f2]
theorem min (d a b : BitVec 5) : Statement (.min d a b) := by
  obtain ⟨hb, hm, c0, f0, f1, f2⟩ := layout0 (m := 1) (c0 := 10) (x0 := d) (x1 := a) (x2 := b) (Nat.le_of_ble_eq_true rfl) (Nat.le_of_ble_eq_true rfl) (rfl : _ = wordNat (.min d a b))
  exact single rfl hb <| (major01 hm).trans <| (if_neg fun h => absurd (c0.symm.trans h) (Nat.ne_of_beq_eq_false rfl)).trans <| (if_neg fun h => absurd (c0.symm.trans h) (Nat.ne_of_beq_eq_false rfl)).trans <| (if_neg fun h => absurd (c0.symm.trans h) (Nat.ne_of_beq_eq_false rfl)).trans <| (if_neg fun h => absurd (c0.symm.trans h) (Nat.ne_of_beq_eq_false rfl)).trans <| (if_neg fun h => absurd (c0.symm.trans h) (Nat.ne_of_beq_eq_false rfl)).trans <| (if_neg fun h => absurd (c0.symm.trans h) (Nat.ne_of_beq_eq_false rfl)).trans <| (if_neg fun h => absurd (c0.symm.trans h) (Nat.ne_of_beq_eq_false rfl)).trans <| (if_neg fun h => absurd (c0.symm.trans h) (Nat.ne_of_beq_eq_false rfl)).trans <| (if_neg fun h => absurd (c0.symm.trans h) (Nat.ne_of_beq_eq_false rfl)).trans <| (if_neg fun h => absurd (c0.symm.trans h) (Nat.ne_of_beq_eq_false rfl)).trans <| (if_pos c0).trans <| by rw [f0, f1, f2]
theorem max (d a b : BitVec 5) : Statement (.max d a b) := by
  obtain ⟨hb, hm, c0, f0, f1, f2⟩ := layout0 (m := 1) (c0 := 11) (x0 := d) (x1 := a) (x2 := b) (Nat.le_of_ble_eq_true rfl) (Nat.le_of_ble_eq_true rfl) (rfl : _ = wordNat (.max d a b))
  exact single rfl hb <| (major01 hm).trans <| (if_neg fun h => absurd (c0.symm.trans h) (Nat.ne_of_beq_eq_false rfl)).trans <| (if_neg fun h => absurd (c0.symm.trans h) (Nat.ne_of_beq_eq_false rfl)).trans <| (if_neg fun h => absurd (c0.symm.trans h) (Nat.ne_of_beq_eq_false rfl)).trans <| (if_neg fun h => absurd (c0.symm.trans h) (Nat.ne_of_beq_eq_false rfl)).trans <| (if_neg fun h => absurd (c0.symm.trans h) (Nat.ne_of_beq_eq_false rfl)).trans <| (if_neg fun h => absurd (c0.symm.trans h) (Nat.ne_of_beq_eq_false rfl)).trans <| (if_neg fun h => absurd (c0.symm.trans h) (Nat.ne_of_beq_eq_false rfl)).trans <| (if_neg fun h => absurd (c0.symm.trans h) (Nat.ne_of_beq_eq_false rfl)).trans <| (if_neg fun h => absurd (c0.symm.trans h) (Nat.ne_of_beq_eq_false rfl)).trans <| (if_neg fun h => absurd (c0.symm.trans h) (Nat.ne_of_beq_eq_false rfl)).trans <| (if_neg fun h => absurd (c0.symm.trans h) (Nat.ne_of_beq_eq_false rfl)).trans <| (if_pos c0).trans <| by rw [f0, f1, f2]
theorem minu (d a b : BitVec 5) : Statement (.minu d a b) := by
  obtain ⟨hb, hm, c0, f0, f1, f2⟩ := layout0 (m := 1) (c0 := 12) (x0 := d) (x1 := a) (x2 := b) (Nat.le_of_ble_eq_true rfl) (Nat.le_of_ble_eq_true rfl) (rfl : _ = wordNat (.minu d a b))
  exact single rfl hb <| (major01 hm).trans <| (if_neg fun h => absurd (c0.symm.trans h) (Nat.ne_of_beq_eq_false rfl)).trans <| (if_neg fun h => absurd (c0.symm.trans h) (Nat.ne_of_beq_eq_false rfl)).trans <| (if_neg fun h => absurd (c0.symm.trans h) (Nat.ne_of_beq_eq_false rfl)).trans <| (if_neg fun h => absurd (c0.symm.trans h) (Nat.ne_of_beq_eq_false rfl)).trans <| (if_neg fun h => absurd (c0.symm.trans h) (Nat.ne_of_beq_eq_false rfl)).trans <| (if_neg fun h => absurd (c0.symm.trans h) (Nat.ne_of_beq_eq_false rfl)).trans <| (if_neg fun h => absurd (c0.symm.trans h) (Nat.ne_of_beq_eq_false rfl)).trans <| (if_neg fun h => absurd (c0.symm.trans h) (Nat.ne_of_beq_eq_false rfl)).trans <| (if_neg fun h => absurd (c0.symm.trans h) (Nat.ne_of_beq_eq_false rfl)).trans <| (if_neg fun h => absurd (c0.symm.trans h) (Nat.ne_of_beq_eq_false rfl)).trans <| (if_neg fun h => absurd (c0.symm.trans h) (Nat.ne_of_beq_eq_false rfl)).trans <| (if_neg fun h => absurd (c0.symm.trans h) (Nat.ne_of_beq_eq_false rfl)).trans <| (if_pos c0).trans <| by rw [f0, f1, f2]
theorem maxu (d a b : BitVec 5) : Statement (.maxu d a b) := by
  obtain ⟨hb, hm, c0, f0, f1, f2⟩ := layout0 (m := 1) (c0 := 13) (x0 := d) (x1 := a) (x2 := b) (Nat.le_of_ble_eq_true rfl) (Nat.le_of_ble_eq_true rfl) (rfl : _ = wordNat (.maxu d a b))
  exact single rfl hb <| (major01 hm).trans <| (if_neg fun h => absurd (c0.symm.trans h) (Nat.ne_of_beq_eq_false rfl)).trans <| (if_neg fun h => absurd (c0.symm.trans h) (Nat.ne_of_beq_eq_false rfl)).trans <| (if_neg fun h => absurd (c0.symm.trans h) (Nat.ne_of_beq_eq_false rfl)).trans <| (if_neg fun h => absurd (c0.symm.trans h) (Nat.ne_of_beq_eq_false rfl)).trans <| (if_neg fun h => absurd (c0.symm.trans h) (Nat.ne_of_beq_eq_false rfl)).trans <| (if_neg fun h => absurd (c0.symm.trans h) (Nat.ne_of_beq_eq_false rfl)).trans <| (if_neg fun h => absurd (c0.symm.trans h) (Nat.ne_of_beq_eq_false rfl)).trans <| (if_neg fun h => absurd (c0.symm.trans h) (Nat.ne_of_beq_eq_false rfl)).trans <| (if_neg fun h => absurd (c0.symm.trans h) (Nat.ne_of_beq_eq_false rfl)).trans <| (if_neg fun h => absurd (c0.symm.trans h) (Nat.ne_of_beq_eq_false rfl)).trans <| (if_neg fun h => absurd (c0.symm.trans h) (Nat.ne_of_beq_eq_false rfl)).trans <| (if_neg fun h => absurd (c0.symm.trans h) (Nat.ne_of_beq_eq_false rfl)).trans <| (if_neg fun h => absurd (c0.symm.trans h) (Nat.ne_of_beq_eq_false rfl)).trans <| (if_pos c0).trans <| by rw [f0, f1, f2]
theorem mul (d a b : BitVec 5) : Statement (.mul d a b) := by
  obtain ⟨hb, hm, c0, f0, f1, f2⟩ := layout0 (m := 1) (c0 := 14) (x0 := d) (x1 := a) (x2 := b) (Nat.le_of_ble_eq_true rfl) (Nat.le_of_ble_eq_true rfl) (rfl : _ = wordNat (.mul d a b))
  exact single rfl hb <| (major01 hm).trans <| (if_neg fun h => absurd (c0.symm.trans h) (Nat.ne_of_beq_eq_false rfl)).trans <| (if_neg fun h => absurd (c0.symm.trans h) (Nat.ne_of_beq_eq_false rfl)).trans <| (if_neg fun h => absurd (c0.symm.trans h) (Nat.ne_of_beq_eq_false rfl)).trans <| (if_neg fun h => absurd (c0.symm.trans h) (Nat.ne_of_beq_eq_false rfl)).trans <| (if_neg fun h => absurd (c0.symm.trans h) (Nat.ne_of_beq_eq_false rfl)).trans <| (if_neg fun h => absurd (c0.symm.trans h) (Nat.ne_of_beq_eq_false rfl)).trans <| (if_neg fun h => absurd (c0.symm.trans h) (Nat.ne_of_beq_eq_false rfl)).trans <| (if_neg fun h => absurd (c0.symm.trans h) (Nat.ne_of_beq_eq_false rfl)).trans <| (if_neg fun h => absurd (c0.symm.trans h) (Nat.ne_of_beq_eq_false rfl)).trans <| (if_neg fun h => absurd (c0.symm.trans h) (Nat.ne_of_beq_eq_false rfl)).trans <| (if_neg fun h => absurd (c0.symm.trans h) (Nat.ne_of_beq_eq_false rfl)).trans <| (if_neg fun h => absurd (c0.symm.trans h) (Nat.ne_of_beq_eq_false rfl)).trans <| (if_neg fun h => absurd (c0.symm.trans h) (Nat.ne_of_beq_eq_false rfl)).trans <| (if_neg fun h => absurd (c0.symm.trans h) (Nat.ne_of_beq_eq_false rfl)).trans <| (if_pos c0).trans <| by rw [f0, f1, f2]
theorem mulh (d a b : BitVec 5) : Statement (.mulh d a b) := by
  obtain ⟨hb, hm, c0, f0, f1, f2⟩ := layout0 (m := 1) (c0 := 15) (x0 := d) (x1 := a) (x2 := b) (Nat.le_of_ble_eq_true rfl) (Nat.le_of_ble_eq_true rfl) (rfl : _ = wordNat (.mulh d a b))
  exact single rfl hb <| (major01 hm).trans <| (if_neg fun h => absurd (c0.symm.trans h) (Nat.ne_of_beq_eq_false rfl)).trans <| (if_neg fun h => absurd (c0.symm.trans h) (Nat.ne_of_beq_eq_false rfl)).trans <| (if_neg fun h => absurd (c0.symm.trans h) (Nat.ne_of_beq_eq_false rfl)).trans <| (if_neg fun h => absurd (c0.symm.trans h) (Nat.ne_of_beq_eq_false rfl)).trans <| (if_neg fun h => absurd (c0.symm.trans h) (Nat.ne_of_beq_eq_false rfl)).trans <| (if_neg fun h => absurd (c0.symm.trans h) (Nat.ne_of_beq_eq_false rfl)).trans <| (if_neg fun h => absurd (c0.symm.trans h) (Nat.ne_of_beq_eq_false rfl)).trans <| (if_neg fun h => absurd (c0.symm.trans h) (Nat.ne_of_beq_eq_false rfl)).trans <| (if_neg fun h => absurd (c0.symm.trans h) (Nat.ne_of_beq_eq_false rfl)).trans <| (if_neg fun h => absurd (c0.symm.trans h) (Nat.ne_of_beq_eq_false rfl)).trans <| (if_neg fun h => absurd (c0.symm.trans h) (Nat.ne_of_beq_eq_false rfl)).trans <| (if_neg fun h => absurd (c0.symm.trans h) (Nat.ne_of_beq_eq_false rfl)).trans <| (if_neg fun h => absurd (c0.symm.trans h) (Nat.ne_of_beq_eq_false rfl)).trans <| (if_neg fun h => absurd (c0.symm.trans h) (Nat.ne_of_beq_eq_false rfl)).trans <| (if_neg fun h => absurd (c0.symm.trans h) (Nat.ne_of_beq_eq_false rfl)).trans <| (if_pos c0).trans <| by rw [f0, f1, f2]
theorem mulhu (d a b : BitVec 5) : Statement (.mulhu d a b) := by
  obtain ⟨hb, hm, c0, f0, f1, f2⟩ := layout0 (m := 1) (c0 := 16) (x0 := d) (x1 := a) (x2 := b) (Nat.le_of_ble_eq_true rfl) (Nat.le_of_ble_eq_true rfl) (rfl : _ = wordNat (.mulhu d a b))
  exact single rfl hb <| (major01 hm).trans <| (if_neg fun h => absurd (c0.symm.trans h) (Nat.ne_of_beq_eq_false rfl)).trans <| (if_neg fun h => absurd (c0.symm.trans h) (Nat.ne_of_beq_eq_false rfl)).trans <| (if_neg fun h => absurd (c0.symm.trans h) (Nat.ne_of_beq_eq_false rfl)).trans <| (if_neg fun h => absurd (c0.symm.trans h) (Nat.ne_of_beq_eq_false rfl)).trans <| (if_neg fun h => absurd (c0.symm.trans h) (Nat.ne_of_beq_eq_false rfl)).trans <| (if_neg fun h => absurd (c0.symm.trans h) (Nat.ne_of_beq_eq_false rfl)).trans <| (if_neg fun h => absurd (c0.symm.trans h) (Nat.ne_of_beq_eq_false rfl)).trans <| (if_neg fun h => absurd (c0.symm.trans h) (Nat.ne_of_beq_eq_false rfl)).trans <| (if_neg fun h => absurd (c0.symm.trans h) (Nat.ne_of_beq_eq_false rfl)).trans <| (if_neg fun h => absurd (c0.symm.trans h) (Nat.ne_of_beq_eq_false rfl)).trans <| (if_neg fun h => absurd (c0.symm.trans h) (Nat.ne_of_beq_eq_false rfl)).trans <| (if_neg fun h => absurd (c0.symm.trans h) (Nat.ne_of_beq_eq_false rfl)).trans <| (if_neg fun h => absurd (c0.symm.trans h) (Nat.ne_of_beq_eq_false rfl)).trans <| (if_neg fun h => absurd (c0.symm.trans h) (Nat.ne_of_beq_eq_false rfl)).trans <| (if_neg fun h => absurd (c0.symm.trans h) (Nat.ne_of_beq_eq_false rfl)).trans <| (if_neg fun h => absurd (c0.symm.trans h) (Nat.ne_of_beq_eq_false rfl)).trans <| (if_pos c0).trans <| by rw [f0, f1, f2]
theorem div (d a b : BitVec 5) : Statement (.div d a b) := by
  obtain ⟨hb, hm, c0, f0, f1, f2⟩ := layout0 (m := 1) (c0 := 17) (x0 := d) (x1 := a) (x2 := b) (Nat.le_of_ble_eq_true rfl) (Nat.le_of_ble_eq_true rfl) (rfl : _ = wordNat (.div d a b))
  exact single rfl hb <| (major01 hm).trans <| (if_neg fun h => absurd (c0.symm.trans h) (Nat.ne_of_beq_eq_false rfl)).trans <| (if_neg fun h => absurd (c0.symm.trans h) (Nat.ne_of_beq_eq_false rfl)).trans <| (if_neg fun h => absurd (c0.symm.trans h) (Nat.ne_of_beq_eq_false rfl)).trans <| (if_neg fun h => absurd (c0.symm.trans h) (Nat.ne_of_beq_eq_false rfl)).trans <| (if_neg fun h => absurd (c0.symm.trans h) (Nat.ne_of_beq_eq_false rfl)).trans <| (if_neg fun h => absurd (c0.symm.trans h) (Nat.ne_of_beq_eq_false rfl)).trans <| (if_neg fun h => absurd (c0.symm.trans h) (Nat.ne_of_beq_eq_false rfl)).trans <| (if_neg fun h => absurd (c0.symm.trans h) (Nat.ne_of_beq_eq_false rfl)).trans <| (if_neg fun h => absurd (c0.symm.trans h) (Nat.ne_of_beq_eq_false rfl)).trans <| (if_neg fun h => absurd (c0.symm.trans h) (Nat.ne_of_beq_eq_false rfl)).trans <| (if_neg fun h => absurd (c0.symm.trans h) (Nat.ne_of_beq_eq_false rfl)).trans <| (if_neg fun h => absurd (c0.symm.trans h) (Nat.ne_of_beq_eq_false rfl)).trans <| (if_neg fun h => absurd (c0.symm.trans h) (Nat.ne_of_beq_eq_false rfl)).trans <| (if_neg fun h => absurd (c0.symm.trans h) (Nat.ne_of_beq_eq_false rfl)).trans <| (if_neg fun h => absurd (c0.symm.trans h) (Nat.ne_of_beq_eq_false rfl)).trans <| (if_neg fun h => absurd (c0.symm.trans h) (Nat.ne_of_beq_eq_false rfl)).trans <| (if_neg fun h => absurd (c0.symm.trans h) (Nat.ne_of_beq_eq_false rfl)).trans <| (if_pos c0).trans <| by rw [f0, f1, f2]
theorem divu (d a b : BitVec 5) : Statement (.divu d a b) := by
  obtain ⟨hb, hm, c0, f0, f1, f2⟩ := layout0 (m := 1) (c0 := 18) (x0 := d) (x1 := a) (x2 := b) (Nat.le_of_ble_eq_true rfl) (Nat.le_of_ble_eq_true rfl) (rfl : _ = wordNat (.divu d a b))
  exact single rfl hb <| (major01 hm).trans <| (if_neg fun h => absurd (c0.symm.trans h) (Nat.ne_of_beq_eq_false rfl)).trans <| (if_neg fun h => absurd (c0.symm.trans h) (Nat.ne_of_beq_eq_false rfl)).trans <| (if_neg fun h => absurd (c0.symm.trans h) (Nat.ne_of_beq_eq_false rfl)).trans <| (if_neg fun h => absurd (c0.symm.trans h) (Nat.ne_of_beq_eq_false rfl)).trans <| (if_neg fun h => absurd (c0.symm.trans h) (Nat.ne_of_beq_eq_false rfl)).trans <| (if_neg fun h => absurd (c0.symm.trans h) (Nat.ne_of_beq_eq_false rfl)).trans <| (if_neg fun h => absurd (c0.symm.trans h) (Nat.ne_of_beq_eq_false rfl)).trans <| (if_neg fun h => absurd (c0.symm.trans h) (Nat.ne_of_beq_eq_false rfl)).trans <| (if_neg fun h => absurd (c0.symm.trans h) (Nat.ne_of_beq_eq_false rfl)).trans <| (if_neg fun h => absurd (c0.symm.trans h) (Nat.ne_of_beq_eq_false rfl)).trans <| (if_neg fun h => absurd (c0.symm.trans h) (Nat.ne_of_beq_eq_false rfl)).trans <| (if_neg fun h => absurd (c0.symm.trans h) (Nat.ne_of_beq_eq_false rfl)).trans <| (if_neg fun h => absurd (c0.symm.trans h) (Nat.ne_of_beq_eq_false rfl)).trans <| (if_neg fun h => absurd (c0.symm.trans h) (Nat.ne_of_beq_eq_false rfl)).trans <| (if_neg fun h => absurd (c0.symm.trans h) (Nat.ne_of_beq_eq_false rfl)).trans <| (if_neg fun h => absurd (c0.symm.trans h) (Nat.ne_of_beq_eq_false rfl)).trans <| (if_neg fun h => absurd (c0.symm.trans h) (Nat.ne_of_beq_eq_false rfl)).trans <| (if_neg fun h => absurd (c0.symm.trans h) (Nat.ne_of_beq_eq_false rfl)).trans <| (if_pos c0).trans <| by rw [f0, f1, f2]
theorem rem (d a b : BitVec 5) : Statement (.rem d a b) := by
  obtain ⟨hb, hm, c0, f0, f1, f2⟩ := layout0 (m := 1) (c0 := 19) (x0 := d) (x1 := a) (x2 := b) (Nat.le_of_ble_eq_true rfl) (Nat.le_of_ble_eq_true rfl) (rfl : _ = wordNat (.rem d a b))
  exact single rfl hb <| (major01 hm).trans <| (if_neg fun h => absurd (c0.symm.trans h) (Nat.ne_of_beq_eq_false rfl)).trans <| (if_neg fun h => absurd (c0.symm.trans h) (Nat.ne_of_beq_eq_false rfl)).trans <| (if_neg fun h => absurd (c0.symm.trans h) (Nat.ne_of_beq_eq_false rfl)).trans <| (if_neg fun h => absurd (c0.symm.trans h) (Nat.ne_of_beq_eq_false rfl)).trans <| (if_neg fun h => absurd (c0.symm.trans h) (Nat.ne_of_beq_eq_false rfl)).trans <| (if_neg fun h => absurd (c0.symm.trans h) (Nat.ne_of_beq_eq_false rfl)).trans <| (if_neg fun h => absurd (c0.symm.trans h) (Nat.ne_of_beq_eq_false rfl)).trans <| (if_neg fun h => absurd (c0.symm.trans h) (Nat.ne_of_beq_eq_false rfl)).trans <| (if_neg fun h => absurd (c0.symm.trans h) (Nat.ne_of_beq_eq_false rfl)).trans <| (if_neg fun h => absurd (c0.symm.trans h) (Nat.ne_of_beq_eq_false rfl)).trans <| (if_neg fun h => absurd (c0.symm.trans h) (Nat.ne_of_beq_eq_false rfl)).trans <| (if_neg fun h => absurd (c0.symm.trans h) (Nat.ne_of_beq_eq_false rfl)).trans <| (if_neg fun h => absurd (c0.symm.trans h) (Nat.ne_of_beq_eq_false rfl)).trans <| (if_neg fun h => absurd (c0.symm.trans h) (Nat.ne_of_beq_eq_false rfl)).trans <| (if_neg fun h => absurd (c0.symm.trans h) (Nat.ne_of_beq_eq_false rfl)).trans <| (if_neg fun h => absurd (c0.symm.trans h) (Nat.ne_of_beq_eq_false rfl)).trans <| (if_neg fun h => absurd (c0.symm.trans h) (Nat.ne_of_beq_eq_false rfl)).trans <| (if_neg fun h => absurd (c0.symm.trans h) (Nat.ne_of_beq_eq_false rfl)).trans <| (if_neg fun h => absurd (c0.symm.trans h) (Nat.ne_of_beq_eq_false rfl)).trans <| (if_pos c0).trans <| by rw [f0, f1, f2]
theorem remu (d a b : BitVec 5) : Statement (.remu d a b) := by
  obtain ⟨hb, hm, c0, f0, f1, f2⟩ := layout0 (m := 1) (c0 := 20) (x0 := d) (x1 := a) (x2 := b) (Nat.le_of_ble_eq_true rfl) (Nat.le_of_ble_eq_true rfl) (rfl : _ = wordNat (.remu d a b))
  exact single rfl hb <| (major01 hm).trans <| (if_neg fun h => absurd (c0.symm.trans h) (Nat.ne_of_beq_eq_false rfl)).trans <| (if_neg fun h => absurd (c0.symm.trans h) (Nat.ne_of_beq_eq_false rfl)).trans <| (if_neg fun h => absurd (c0.symm.trans h) (Nat.ne_of_beq_eq_false rfl)).trans <| (if_neg fun h => absurd (c0.symm.trans h) (Nat.ne_of_beq_eq_false rfl)).trans <| (if_neg fun h => absurd (c0.symm.trans h) (Nat.ne_of_beq_eq_false rfl)).trans <| (if_neg fun h => absurd (c0.symm.trans h) (Nat.ne_of_beq_eq_false rfl)).trans <| (if_neg fun h => absurd (c0.symm.trans h) (Nat.ne_of_beq_eq_false rfl)).trans <| (if_neg fun h => absurd (c0.symm.trans h) (Nat.ne_of_beq_eq_false rfl)).trans <| (if_neg fun h => absurd (c0.symm.trans h) (Nat.ne_of_beq_eq_false rfl)).trans <| (if_neg fun h => absurd (c0.symm.trans h) (Nat.ne_of_beq_eq_false rfl)).trans <| (if_neg fun h => absurd (c0.symm.trans h) (Nat.ne_of_beq_eq_false rfl)).trans <| (if_neg fun h => absurd (c0.symm.trans h) (Nat.ne_of_beq_eq_false rfl)).trans <| (if_neg fun h => absurd (c0.symm.trans h) (Nat.ne_of_beq_eq_false rfl)).trans <| (if_neg fun h => absurd (c0.symm.trans h) (Nat.ne_of_beq_eq_false rfl)).trans <| (if_neg fun h => absurd (c0.symm.trans h) (Nat.ne_of_beq_eq_false rfl)).trans <| (if_neg fun h => absurd (c0.symm.trans h) (Nat.ne_of_beq_eq_false rfl)).trans <| (if_neg fun h => absurd (c0.symm.trans h) (Nat.ne_of_beq_eq_false rfl)).trans <| (if_neg fun h => absurd (c0.symm.trans h) (Nat.ne_of_beq_eq_false rfl)).trans <| (if_neg fun h => absurd (c0.symm.trans h) (Nat.ne_of_beq_eq_false rfl)).trans <| (if_neg fun h => absurd (c0.symm.trans h) (Nat.ne_of_beq_eq_false rfl)).trans <| (if_pos c0).trans <| by rw [f0, f1, f2]
theorem clz (d a : BitVec 5) : Statement (.clz d a) := by
  obtain ⟨hb, hm, c0, f0, f1⟩ := layout1 (m := 1) (c0 := 21) (x0 := d) (x1 := a) (Nat.le_of_ble_eq_true rfl) (Nat.le_of_ble_eq_true rfl) (rfl : _ = wordNat (.clz d a))
  exact single rfl hb <| (major01 hm).trans <| (if_neg (by omega)).trans <| (if_neg (by omega)).trans <| (if_neg (by omega)).trans <| (if_neg (by omega)).trans <| (if_neg (by omega)).trans <| (if_neg (by omega)).trans <| (if_neg (by omega)).trans <| (if_neg (by omega)).trans <| (if_neg (by omega)).trans <| (if_neg (by omega)).trans <| (if_neg (by omega)).trans <| (if_neg (by omega)).trans <| (if_neg (by omega)).trans <| (if_neg (by omega)).trans <| (if_neg (by omega)).trans <| (if_neg (by omega)).trans <| (if_neg (by omega)).trans <| (if_neg (by omega)).trans <| (if_neg (by omega)).trans <| (if_neg (by omega)).trans <| (if_neg (by omega)).trans <| (if_pos c0).trans <| by rw [f0, f1]
theorem ctz (d a : BitVec 5) : Statement (.ctz d a) := by
  obtain ⟨hb, hm, c0, f0, f1⟩ := layout1 (m := 1) (c0 := 22) (x0 := d) (x1 := a) (Nat.le_of_ble_eq_true rfl) (Nat.le_of_ble_eq_true rfl) (rfl : _ = wordNat (.ctz d a))
  exact single rfl hb <| (major01 hm).trans <| (if_neg (by omega)).trans <| (if_neg (by omega)).trans <| (if_neg (by omega)).trans <| (if_neg (by omega)).trans <| (if_neg (by omega)).trans <| (if_neg (by omega)).trans <| (if_neg (by omega)).trans <| (if_neg (by omega)).trans <| (if_neg (by omega)).trans <| (if_neg (by omega)).trans <| (if_neg (by omega)).trans <| (if_neg (by omega)).trans <| (if_neg (by omega)).trans <| (if_neg (by omega)).trans <| (if_neg (by omega)).trans <| (if_neg (by omega)).trans <| (if_neg (by omega)).trans <| (if_neg (by omega)).trans <| (if_neg (by omega)).trans <| (if_neg (by omega)).trans <| (if_neg (by omega)).trans <| (if_neg fun h => absurd (c0.symm.trans h) (Nat.ne_of_beq_eq_false rfl)).trans <| (if_pos c0).trans <| by rw [f0, f1]
theorem popc (d a : BitVec 5) : Statement (.popc d a) := by
  obtain ⟨hb, hm, c0, f0, f1⟩ := layout1 (m := 1) (c0 := 23) (x0 := d) (x1 := a) (Nat.le_of_ble_eq_true rfl) (Nat.le_of_ble_eq_true rfl) (rfl : _ = wordNat (.popc d a))
  exact single rfl hb <| (major01 hm).trans <| (if_neg (by omega)).trans <| (if_neg (by omega)).trans <| (if_neg (by omega)).trans <| (if_neg (by omega)).trans <| (if_neg (by omega)).trans <| (if_neg (by omega)).trans <| (if_neg (by omega)).trans <| (if_neg (by omega)).trans <| (if_neg (by omega)).trans <| (if_neg (by omega)).trans <| (if_neg (by omega)).trans <| (if_neg (by omega)).trans <| (if_neg (by omega)).trans <| (if_neg (by omega)).trans <| (if_neg (by omega)).trans <| (if_neg (by omega)).trans <| (if_neg (by omega)).trans <| (if_neg (by omega)).trans <| (if_neg (by omega)).trans <| (if_neg (by omega)).trans <| (if_neg (by omega)).trans <| (if_neg fun h => absurd (c0.symm.trans h) (Nat.ne_of_beq_eq_false rfl)).trans <| (if_neg fun h => absurd (c0.symm.trans h) (Nat.ne_of_beq_eq_false rfl)).trans <| (if_pos c0).trans <| by rw [f0, f1]
theorem sel (d a b c : BitVec 5) : Statement (.sel d a b c) := by
  obtain ⟨hb, hm, c0, f0, f1, f2, f3⟩ := layout2 (m := 1) (c0 := 24) (x0 := d) (x1 := a) (x2 := b) (x3 := c) (Nat.le_of_ble_eq_true rfl) (Nat.le_of_ble_eq_true rfl) (rfl : _ = wordNat (.sel d a b c))
  exact single rfl hb <| (major01 hm).trans <| (if_neg (by omega)).trans <| (if_neg (by omega)).trans <| (if_neg (by omega)).trans <| (if_neg (by omega)).trans <| (if_neg (by omega)).trans <| (if_neg (by omega)).trans <| (if_neg (by omega)).trans <| (if_neg (by omega)).trans <| (if_neg (by omega)).trans <| (if_neg (by omega)).trans <| (if_neg (by omega)).trans <| (if_neg (by omega)).trans <| (if_neg (by omega)).trans <| (if_neg (by omega)).trans <| (if_neg (by omega)).trans <| (if_neg (by omega)).trans <| (if_neg (by omega)).trans <| (if_neg (by omega)).trans <| (if_neg (by omega)).trans <| (if_neg (by omega)).trans <| (if_neg (by omega)).trans <| (if_neg (by omega)).trans <| (if_neg (by omega)).trans <| (if_neg (by omega)).trans <| (if_pos c0).trans <| by rw [f0, f1, f2, f3]
theorem addi (d a : BitVec 5) (i : BitVec 16) : Statement (.addi d a i) := by
  obtain ⟨hb, hm, f0, f1, f2⟩ := layout3 (m := 2) (x0 := d) (x1 := a) (x2 := i) (Nat.le_of_ble_eq_true rfl) (rfl : _ = wordNat (.addi d a i))
  exact single rfl hb <| (major02 hm).trans <| by unfold decodeMajor02; rw [f0, f1, f2]
theorem andi (d a : BitVec 5) (i : BitVec 16) : Statement (.andi d a i) := by
  obtain ⟨hb, hm, f0, f1, f2⟩ := layout3 (m := 3) (x0 := d) (x1 := a) (x2 := i) (Nat.le_of_ble_eq_true rfl) (rfl : _ = wordNat (.andi d a i))
  exact single rfl hb <| (major03 hm).trans <| by unfold decodeMajor03; rw [f0, f1, f2]
theorem ori (d a : BitVec 5) (i : BitVec 16) : Statement (.ori d a i) := by
  obtain ⟨hb, hm, f0, f1, f2⟩ := layout3 (m := 4) (x0 := d) (x1 := a) (x2 := i) (Nat.le_of_ble_eq_true rfl) (rfl : _ = wordNat (.ori d a i))
  exact single rfl hb <| (major04 hm).trans <| by unfold decodeMajor04; rw [f0, f1, f2]
theorem xori (d a : BitVec 5) (i : BitVec 16) : Statement (.xori d a i) := by
  obtain ⟨hb, hm, f0, f1, f2⟩ := layout3 (m := 5) (x0 := d) (x1 := a) (x2 := i) (Nat.le_of_ble_eq_true rfl) (rfl : _ = wordNat (.xori d a i))
  exact single rfl hb <| (major05 hm).trans <| by unfold decodeMajor05; rw [f0, f1, f2]
theorem slti (d a : BitVec 5) (i : BitVec 16) : Statement (.slti d a i) := by
  obtain ⟨hb, hm, f0, f1, f2⟩ := layout3 (m := 6) (x0 := d) (x1 := a) (x2 := i) (Nat.le_of_ble_eq_true rfl) (rfl : _ = wordNat (.slti d a i))
  exact single rfl hb <| (major06 hm).trans <| by unfold decodeMajor06; rw [f0, f1, f2]
theorem sltiu (d a : BitVec 5) (i : BitVec 16) : Statement (.sltiu d a i) := by
  obtain ⟨hb, hm, f0, f1, f2⟩ := layout3 (m := 7) (x0 := d) (x1 := a) (x2 := i) (Nat.le_of_ble_eq_true rfl) (rfl : _ = wordNat (.sltiu d a i))
  exact single rfl hb <| (major07 hm).trans <| by unfold decodeMajor07; rw [f0, f1, f2]
theorem slli (d a s : BitVec 5) (h_ : BitVec 1) : Statement (.slli d a s h_) := by
  obtain ⟨hb, hm, c0, c1, f0, f1, f2, f3⟩ := layout4 (m := 8) (c0 := 0) (c1 := 0) (x0 := d) (x1 := a) (x2 := s) (x3 := h_) (Nat.le_of_ble_eq_true rfl) (Nat.le_of_ble_eq_true rfl) (Nat.le_of_ble_eq_true rfl) (rfl : _ = wordNat (.slli d a s h_))
  exact single rfl hb <| (major08 hm).trans <| (if_pos ⟨c0, c1⟩).trans <| by rw [f0, f1, f2, f3]
theorem srli (d a s : BitVec 5) (h_ : BitVec 1) : Statement (.srli d a s h_) := by
  obtain ⟨hb, hm, c0, c1, f0, f1, f2, f3⟩ := layout4 (m := 8) (c0 := 0) (c1 := 1) (x0 := d) (x1 := a) (x2 := s) (x3 := h_) (Nat.le_of_ble_eq_true rfl) (Nat.le_of_ble_eq_true rfl) (Nat.le_of_ble_eq_true rfl) (rfl : _ = wordNat (.srli d a s h_))
  exact single rfl hb <| (major08 hm).trans <| (if_neg fun h => absurd (c1.symm.trans h.2) (Nat.ne_of_beq_eq_false rfl)).trans <| (if_pos ⟨c0, c1⟩).trans <| by rw [f0, f1, f2, f3]
theorem srai (d a s : BitVec 5) (h_ : BitVec 1) : Statement (.srai d a s h_) := by
  obtain ⟨hb, hm, c0, c1, f0, f1, f2, f3⟩ := layout4 (m := 8) (c0 := 0) (c1 := 2) (x0 := d) (x1 := a) (x2 := s) (x3 := h_) (Nat.le_of_ble_eq_true rfl) (Nat.le_of_ble_eq_true rfl) (Nat.le_of_ble_eq_true rfl) (rfl : _ = wordNat (.srai d a s h_))
  exact single rfl hb <| (major08 hm).trans <| (if_neg fun h => absurd (c1.symm.trans h.2) (Nat.ne_of_beq_eq_false rfl)).trans <| (if_neg fun h => absurd (c1.symm.trans h.2) (Nat.ne_of_beq_eq_false rfl)).trans <| (if_pos ⟨c0, c1⟩).trans <| by rw [f0, f1, f2, f3]
theorem lhi (d : BitVec 5) (k : BitVec 2) (i : BitVec 16) : Statement (.lhi d k i) := by
  obtain ⟨hb, hm, c0, f0, f1, f2⟩ := layout5 (m := 9) (c0 := 0) (x0 := d) (x1 := k) (x2 := i) (Nat.le_of_ble_eq_true rfl) (Nat.le_of_ble_eq_true rfl) (rfl : _ = wordNat (.lhi d k i))
  exact single rfl hb <| (major09 hm).trans <| (if_pos c0).trans <| by rw [f0, f1, f2]
theorem beq (a b : BitVec 5) (o : BitVec 13) : Statement (.beq a b o) := by
  obtain ⟨hb, hm, c0, f0, f1, f2⟩ := layout6 (m := 10) (c0 := 0) (x0 := a) (x1 := b) (x2 := o) (Nat.le_of_ble_eq_true rfl) (Nat.le_of_ble_eq_true rfl) (rfl : _ = wordNat (.beq a b o))
  exact single rfl hb <| (major0A hm).trans <| (if_pos c0).trans <| by rw [f0, f1, f2]
theorem bne (a b : BitVec 5) (o : BitVec 13) : Statement (.bne a b o) := by
  obtain ⟨hb, hm, c0, f0, f1, f2⟩ := layout6 (m := 10) (c0 := 1) (x0 := a) (x1 := b) (x2 := o) (Nat.le_of_ble_eq_true rfl) (Nat.le_of_ble_eq_true rfl) (rfl : _ = wordNat (.bne a b o))
  exact single rfl hb <| (major0A hm).trans <| (if_neg fun h => absurd (c0.symm.trans h) (Nat.ne_of_beq_eq_false rfl)).trans <| (if_pos c0).trans <| by rw [f0, f1, f2]
theorem blt (a b : BitVec 5) (o : BitVec 13) : Statement (.blt a b o) := by
  obtain ⟨hb, hm, c0, f0, f1, f2⟩ := layout6 (m := 10) (c0 := 2) (x0 := a) (x1 := b) (x2 := o) (Nat.le_of_ble_eq_true rfl) (Nat.le_of_ble_eq_true rfl) (rfl : _ = wordNat (.blt a b o))
  exact single rfl hb <| (major0A hm).trans <| (if_neg fun h => absurd (c0.symm.trans h) (Nat.ne_of_beq_eq_false rfl)).trans <| (if_neg fun h => absurd (c0.symm.trans h) (Nat.ne_of_beq_eq_false rfl)).trans <| (if_pos c0).trans <| by rw [f0, f1, f2]
theorem bge (a b : BitVec 5) (o : BitVec 13) : Statement (.bge a b o) := by
  obtain ⟨hb, hm, c0, f0, f1, f2⟩ := layout6 (m := 10) (c0 := 3) (x0 := a) (x1 := b) (x2 := o) (Nat.le_of_ble_eq_true rfl) (Nat.le_of_ble_eq_true rfl) (rfl : _ = wordNat (.bge a b o))
  exact single rfl hb <| (major0A hm).trans <| (if_neg fun h => absurd (c0.symm.trans h) (Nat.ne_of_beq_eq_false rfl)).trans <| (if_neg fun h => absurd (c0.symm.trans h) (Nat.ne_of_beq_eq_false rfl)).trans <| (if_neg fun h => absurd (c0.symm.trans h) (Nat.ne_of_beq_eq_false rfl)).trans <| (if_pos c0).trans <| by rw [f0, f1, f2]
theorem bltu (a b : BitVec 5) (o : BitVec 13) : Statement (.bltu a b o) := by
  obtain ⟨hb, hm, c0, f0, f1, f2⟩ := layout6 (m := 10) (c0 := 4) (x0 := a) (x1 := b) (x2 := o) (Nat.le_of_ble_eq_true rfl) (Nat.le_of_ble_eq_true rfl) (rfl : _ = wordNat (.bltu a b o))
  exact single rfl hb <| (major0A hm).trans <| (if_neg fun h => absurd (c0.symm.trans h) (Nat.ne_of_beq_eq_false rfl)).trans <| (if_neg fun h => absurd (c0.symm.trans h) (Nat.ne_of_beq_eq_false rfl)).trans <| (if_neg fun h => absurd (c0.symm.trans h) (Nat.ne_of_beq_eq_false rfl)).trans <| (if_neg fun h => absurd (c0.symm.trans h) (Nat.ne_of_beq_eq_false rfl)).trans <| (if_pos c0).trans <| by rw [f0, f1, f2]
theorem bgeu (a b : BitVec 5) (o : BitVec 13) : Statement (.bgeu a b o) := by
  obtain ⟨hb, hm, c0, f0, f1, f2⟩ := layout6 (m := 10) (c0 := 5) (x0 := a) (x1 := b) (x2 := o) (Nat.le_of_ble_eq_true rfl) (Nat.le_of_ble_eq_true rfl) (rfl : _ = wordNat (.bgeu a b o))
  exact single rfl hb <| (major0A hm).trans <| (if_neg fun h => absurd (c0.symm.trans h) (Nat.ne_of_beq_eq_false rfl)).trans <| (if_neg fun h => absurd (c0.symm.trans h) (Nat.ne_of_beq_eq_false rfl)).trans <| (if_neg fun h => absurd (c0.symm.trans h) (Nat.ne_of_beq_eq_false rfl)).trans <| (if_neg fun h => absurd (c0.symm.trans h) (Nat.ne_of_beq_eq_false rfl)).trans <| (if_neg fun h => absurd (c0.symm.trans h) (Nat.ne_of_beq_eq_false rfl)).trans <| (if_pos c0).trans <| by rw [f0, f1, f2]
theorem jal (d : BitVec 5) (o : BitVec 21) : Statement (.jal d o) := by
  obtain ⟨hb, hm, f0, f1⟩ := layout7 (m := 11) (x0 := d) (x1 := o) (Nat.le_of_ble_eq_true rfl) (rfl : _ = wordNat (.jal d o))
  exact single rfl hb <| (major0B hm).trans <| by unfold decodeMajor0B; rw [f0, f1]
theorem jalr (d a : BitVec 5) (i : BitVec 16) : Statement (.jalr d a i) := by
  obtain ⟨hb, hm, f0, f1, f2⟩ := layout3 (m := 12) (x0 := d) (x1 := a) (x2 := i) (Nat.le_of_ble_eq_true rfl) (rfl : _ = wordNat (.jalr d a i))
  exact single rfl hb <| (major0C hm).trans <| by unfold decodeMajor0C; rw [f0, f1, f2]
theorem tidx (d a : BitVec 5) (k : BitVec 3) : Statement (.tidx d a k) := by
  obtain ⟨hb, hm, c0, c1, f0, f1, f2⟩ := layout8 (m := 13) (c0 := 0) (c1 := 0) (x0 := d) (x1 := a) (x2 := k) (Nat.le_of_ble_eq_true rfl) (Nat.le_of_ble_eq_true rfl) (Nat.le_of_ble_eq_true rfl) (rfl : _ = wordNat (.tidx d a k))
  exact single rfl hb <| (major0D hm).trans <| (if_pos ⟨c0, c1⟩).trans <| by rw [f0, f1, f2]
theorem shp (d : BitVec 5) (a : BitVec 4) (b : BitVec 5) : Statement (.shp d a b) := by
  obtain ⟨hb, hm, c0, c1, f0, f1, f2⟩ := layout9 (m := 13) (c0 := 0) (c1 := 1) (x0 := d) (x1 := a) (x2 := b) (Nat.le_of_ble_eq_true rfl) (Nat.le_of_ble_eq_true rfl) (Nat.le_of_ble_eq_true rfl) (rfl : _ = wordNat (.shp d a b))
  exact single rfl hb <| (major0D hm).trans <| (if_neg (by omega)).trans <| (if_pos ⟨c0, c1⟩).trans <| by rw [f0, f1, f2]
theorem crd (d : BitVec 5) (n : BitVec 12) : Statement (.crd d n) := by
  obtain ⟨hb, hm, c0, f0, f1⟩ := layout10 (m := 14) (c0 := 0) (x0 := d) (x1 := n) (Nat.le_of_ble_eq_true rfl) (Nat.le_of_ble_eq_true rfl) (rfl : _ = wordNat (.crd d n))
  exact single rfl hb <| (major0E hm).trans <| (if_pos c0).trans <| by rw [f0, f1]
theorem crw (d a : BitVec 5) (n : BitVec 12) : Statement (.crw d a n) := by
  obtain ⟨hb, hm, c0, f0, f1, f2⟩ := layout11 (m := 14) (c0 := 1) (x0 := d) (x1 := a) (x2 := n) (Nat.le_of_ble_eq_true rfl) (Nat.le_of_ble_eq_true rfl) (rfl : _ = wordNat (.crw d a n))
  exact single rfl hb <| (major0E hm).trans <| (if_neg (by omega)).trans <| (if_pos c0).trans <| by rw [f0, f1, f2]
theorem crs (d a : BitVec 5) (n : BitVec 12) : Statement (.crs d a n) := by
  obtain ⟨hb, hm, c0, f0, f1, f2⟩ := layout11 (m := 14) (c0 := 2) (x0 := d) (x1 := a) (x2 := n) (Nat.le_of_ble_eq_true rfl) (Nat.le_of_ble_eq_true rfl) (rfl : _ = wordNat (.crs d a n))
  exact single rfl hb <| (major0E hm).trans <| (if_neg (by omega)).trans <| (if_neg fun h => absurd (c0.symm.trans h) (Nat.ne_of_beq_eq_false rfl)).trans <| (if_pos c0).trans <| by rw [f0, f1, f2]
theorem crc (d a : BitVec 5) (n : BitVec 12) : Statement (.crc d a n) := by
  obtain ⟨hb, hm, c0, f0, f1, f2⟩ := layout11 (m := 14) (c0 := 3) (x0 := d) (x1 := a) (x2 := n) (Nat.le_of_ble_eq_true rfl) (Nat.le_of_ble_eq_true rfl) (rfl : _ = wordNat (.crc d a n))
  exact single rfl hb <| (major0E hm).trans <| (if_neg (by omega)).trans <| (if_neg fun h => absurd (c0.symm.trans h) (Nat.ne_of_beq_eq_false rfl)).trans <| (if_neg fun h => absurd (c0.symm.trans h) (Nat.ne_of_beq_eq_false rfl)).trans <| (if_pos c0).trans <| by rw [f0, f1, f2]
theorem ld (d : BitVec 5) (p : BitVec 4) (x : BitVec 5) (z : BitVec 2) (i : BitVec 10) : Statement (.ld d p x z i) := by
  obtain ⟨hb, hm, f0, f1, f2, f3, f4⟩ := layout12 (m := 16) (x0 := d) (x1 := p) (x2 := x) (x3 := z) (x4 := i) (Nat.le_of_ble_eq_true rfl) (rfl : _ = wordNat (.ld d p x z i))
  exact single rfl hb <| (major10 hm).trans <| by unfold decodeMajor10; rw [f0, f1, f2, f3, f4]
theorem st (d : BitVec 5) (p : BitVec 4) (x : BitVec 5) (z : BitVec 2) (i : BitVec 10) : Statement (.st d p x z i) := by
  obtain ⟨hb, hm, f0, f1, f2, f3, f4⟩ := layout12 (m := 17) (x0 := d) (x1 := p) (x2 := x) (x3 := z) (x4 := i) (Nat.le_of_ble_eq_true rfl) (rfl : _ = wordNat (.st d p x z i))
  exact single rfl hb <| (major11 hm).trans <| by unfold decodeMajor11; rw [f0, f1, f2, f3, f4]
theorem lda (d p : BitVec 4) (x : BitVec 5) (i : BitVec 10) : Statement (.lda d p x i) := by
  obtain ⟨hb, hm, c0, c1, f0, f1, f2, f3⟩ := layout13 (m := 18) (c0 := 0) (c1 := 0) (x0 := d) (x1 := p) (x2 := x) (x3 := i) (Nat.le_of_ble_eq_true rfl) (Nat.le_of_ble_eq_true rfl) (Nat.le_of_ble_eq_true rfl) (rfl : _ = wordNat (.lda d p x i))
  exact single rfl hb <| (major12 hm).trans <| (if_pos ⟨c0, c1⟩).trans <| by rw [f0, f1, f2, f3]
theorem sta (d p : BitVec 4) (x : BitVec 5) (i : BitVec 10) : Statement (.sta d p x i) := by
  obtain ⟨hb, hm, c0, c1, f0, f1, f2, f3⟩ := layout13 (m := 18) (c0 := 0) (c1 := 1) (x0 := d) (x1 := p) (x2 := x) (x3 := i) (Nat.le_of_ble_eq_true rfl) (Nat.le_of_ble_eq_true rfl) (Nat.le_of_ble_eq_true rfl) (rfl : _ = wordNat (.sta d p x i))
  exact single rfl hb <| (major12 hm).trans <| (if_neg fun h => absurd (c1.symm.trans h.2) (Nat.ne_of_beq_eq_false rfl)).trans <| (if_pos ⟨c0, c1⟩).trans <| by rw [f0, f1, f2, f3]
theorem touch (d : BitVec 5) (a : BitVec 4) : Statement (.touch d a) := by
  obtain ⟨hb, hm, c0, c1, f0, f1⟩ := layout14 (m := 19) (c0 := 0) (c1 := 0) (x0 := d) (x1 := a) (Nat.le_of_ble_eq_true rfl) (Nat.le_of_ble_eq_true rfl) (Nat.le_of_ble_eq_true rfl) (rfl : _ = wordNat (.touch d a))
  exact single rfl hb <| (major13 hm).trans <| (if_pos ⟨c0, c1⟩).trans <| by rw [f0, f1]
theorem alloc (d : BitVec 4) (a b : BitVec 5) : Statement (.alloc d a b) := by
  obtain ⟨hb, hm, c0, c1, f0, f1, f2⟩ := layout15 (m := 19) (c0 := 0) (c1 := 1) (x0 := d) (x1 := a) (x2 := b) (Nat.le_of_ble_eq_true rfl) (Nat.le_of_ble_eq_true rfl) (Nat.le_of_ble_eq_true rfl) (rfl : _ = wordNat (.alloc d a b))
  exact single rfl hb <| (major13 hm).trans <| (if_neg (by omega)).trans <| (if_pos ⟨c0, c1⟩).trans <| by rw [f0, f1, f2]
theorem acurSet (d a : BitVec 4) (b : BitVec 5) : Statement (.acurSet d a b) := by
  obtain ⟨hb, hm, c0, c1, c2, f0, f1, f2⟩ := layout16 (m := 19) (c0 := 0) (c1 := 0) (c2 := 2) (x0 := d) (x1 := a) (x2 := b) (Nat.le_of_ble_eq_true rfl) (Nat.le_of_ble_eq_true rfl) (Nat.le_of_ble_eq_true rfl) (Nat.le_of_ble_eq_true rfl) (rfl : _ = wordNat (.acurSet d a b))
  exact single rfl hb <| (major13 hm).trans <| (if_neg (by omega)).trans <| (if_neg fun h => absurd (c2.symm.trans h.2) (Nat.ne_of_beq_eq_false rfl)).trans <| (if_pos ⟨c0, c1, c2⟩).trans <| by rw [f0, f1, f2]
theorem acurAdd (d a : BitVec 4) (b : BitVec 5) : Statement (.acurAdd d a b) := by
  obtain ⟨hb, hm, c0, c1, c2, f0, f1, f2⟩ := layout16 (m := 19) (c0 := 0) (c1 := 0) (c2 := 66) (x0 := d) (x1 := a) (x2 := b) (Nat.le_of_ble_eq_true rfl) (Nat.le_of_ble_eq_true rfl) (Nat.le_of_ble_eq_true rfl) (Nat.le_of_ble_eq_true rfl) (rfl : _ = wordNat (.acurAdd d a b))
  exact single rfl hb <| (major13 hm).trans <| (if_neg (by omega)).trans <| (if_neg fun h => absurd (c2.symm.trans h.2) (Nat.ne_of_beq_eq_false rfl)).trans <| (if_neg fun h => absurd (c2.symm.trans h.2.2) (Nat.ne_of_beq_eq_false rfl)).trans <| (if_pos ⟨c0, c1, c2⟩).trans <| by rw [f0, f1, f2]
theorem olen (d : BitVec 5) (a : BitVec 4) (s : BitVec 2) : Statement (.olen d a s) := by
  obtain ⟨hb, hm, c0, c1, c2, f0, f1, f2⟩ := layout17 (m := 19) (c0 := 0) (c1 := 0) (c2 := 3) (x0 := d) (x1 := a) (x2 := s) (Nat.le_of_ble_eq_true rfl) (Nat.le_of_ble_eq_true rfl) (Nat.le_of_ble_eq_true rfl) (Nat.le_of_ble_eq_true rfl) (rfl : _ = wordNat (.olen d a s))
  exact single rfl hb <| (major13 hm).trans <| (if_neg (by omega)).trans <| (if_neg (by omega)).trans <| (if_neg (by omega)).trans <| (if_neg (by omega)).trans <| (if_pos ⟨c0, c1, c2⟩).trans <| by rw [f0, f1, f2]
theorem otype (d : BitVec 5) (a : BitVec 4) : Statement (.otype d a) := by
  obtain ⟨hb, hm, c0, c1, f0, f1⟩ := layout14 (m := 19) (c0 := 0) (c1 := 4) (x0 := d) (x1 := a) (Nat.le_of_ble_eq_true rfl) (Nat.le_of_ble_eq_true rfl) (Nat.le_of_ble_eq_true rfl) (rfl : _ = wordNat (.otype d a))
  exact single rfl hb <| (major13 hm).trans <| (if_neg fun h => absurd (c1.symm.trans h.2) (Nat.ne_of_beq_eq_false rfl)).trans <| (if_neg (by omega)).trans <| (if_neg (by omega)).trans <| (if_neg (by omega)).trans <| (if_neg (by omega)).trans <| (if_pos ⟨c0, c1⟩).trans <| by rw [f0, f1]
theorem root (a : BitVec 4) : Statement (.root a) := by
  obtain ⟨hb, hm, c0, c1, f0⟩ := layout18 (m := 19) (c0 := 0) (c1 := 5) (x0 := a) (Nat.le_of_ble_eq_true rfl) (Nat.le_of_ble_eq_true rfl) (Nat.le_of_ble_eq_true rfl) (rfl : _ = wordNat (.root a))
  exact single rfl hb <| (major13 hm).trans <| (if_neg fun h => absurd (c1.symm.trans h.2) (Nat.ne_of_beq_eq_false rfl)).trans <| (if_neg (by omega)).trans <| (if_neg (by omega)).trans <| (if_neg (by omega)).trans <| (if_neg (by omega)).trans <| (if_neg fun h => absurd (c1.symm.trans h.2) (Nat.ne_of_beq_eq_false rfl)).trans <| (if_pos ⟨c0, c1⟩).trans <| by rw [f0]
theorem unroot (a : BitVec 4) : Statement (.unroot a) := by
  obtain ⟨hb, hm, c0, c1, f0⟩ := layout18 (m := 19) (c0 := 0) (c1 := 6) (x0 := a) (Nat.le_of_ble_eq_true rfl) (Nat.le_of_ble_eq_true rfl) (Nat.le_of_ble_eq_true rfl) (rfl : _ = wordNat (.unroot a))
  exact single rfl hb <| (major13 hm).trans <| (if_neg fun h => absurd (c1.symm.trans h.2) (Nat.ne_of_beq_eq_false rfl)).trans <| (if_neg (by omega)).trans <| (if_neg (by omega)).trans <| (if_neg (by omega)).trans <| (if_neg (by omega)).trans <| (if_neg fun h => absurd (c1.symm.trans h.2) (Nat.ne_of_beq_eq_false rfl)).trans <| (if_neg fun h => absurd (c1.symm.trans h.2) (Nat.ne_of_beq_eq_false rfl)).trans <| (if_pos ⟨c0, c1⟩).trans <| by rw [f0]
theorem acq (d : BitVec 5) (a : BitVec 4) (s : BitVec 3) : Statement (.acq d a s) := by
  obtain ⟨hb, hm, c0, c1, c2, f0, f1, f2⟩ := layout19 (m := 19) (c0 := 0) (c1 := 0) (c2 := 7) (x0 := d) (x1 := a) (x2 := s) (Nat.le_of_ble_eq_true rfl) (Nat.le_of_ble_eq_true rfl) (Nat.le_of_ble_eq_true rfl) (Nat.le_of_ble_eq_true rfl) (rfl : _ = wordNat (.acq d a s))
  exact single rfl hb <| (major13 hm).trans <| (if_neg (by omega)).trans <| (if_neg (by omega)).trans <| (if_neg (by omega)).trans <| (if_neg (by omega)).trans <| (if_neg fun h => absurd (c2.symm.trans h.2.2) (Nat.ne_of_beq_eq_false rfl)).trans <| (if_neg (by omega)).trans <| (if_neg (by omega)).trans <| (if_neg (by omega)).trans <| (if_pos ⟨c0, c1, c2⟩).trans <| by rw [f0, f1, f2]
theorem rel (d : BitVec 5) (a : BitVec 4) (s : BitVec 3) : Statement (.rel d a s) := by
  obtain ⟨hb, hm, c0, c1, c2, f0, f1, f2⟩ := layout19 (m := 19) (c0 := 0) (c1 := 0) (c2 := 8) (x0 := d) (x1 := a) (x2 := s) (Nat.le_of_ble_eq_true rfl) (Nat.le_of_ble_eq_true rfl) (Nat.le_of_ble_eq_true rfl) (Nat.le_of_ble_eq_true rfl) (rfl : _ = wordNat (.rel d a s))
  exact single rfl hb <| (major13 hm).trans <| (if_neg (by omega)).trans <| (if_neg (by omega)).trans <| (if_neg (by omega)).trans <| (if_neg (by omega)).trans <| (if_neg fun h => absurd (c2.symm.trans h.2.2) (Nat.ne_of_beq_eq_false rfl)).trans <| (if_neg (by omega)).trans <| (if_neg (by omega)).trans <| (if_neg (by omega)).trans <| (if_neg fun h => absurd (c2.symm.trans h.2.2) (Nat.ne_of_beq_eq_false rfl)).trans <| (if_pos ⟨c0, c1, c2⟩).trans <| by rw [f0, f1, f2]
theorem fence (d : BitVec 5) (l e : BitVec 1) (s : BitVec 3) : Statement (.fence d l e s) := by
  obtain ⟨hb, hm, c0, f0, f1, f2, f3⟩ := layout20 (m := 20) (c0 := 0) (x0 := d) (x1 := l) (x2 := e) (x3 := s) (Nat.le_of_ble_eq_true rfl) (Nat.le_of_ble_eq_true rfl) (rfl : _ = wordNat (.fence d l e s))
  exact single rfl hb <| (major14 hm).trans <| (if_pos c0).trans <| by rw [f0, f1, f2, f3]
theorem amo (d : BitVec 5) (a : BitVec 4) (s : BitVec 3) (k : BitVec 2) (o : BitVec 5) : Statement (.amo d a s k o) := by
  obtain ⟨hb, hm, c0, c1, f0, f1, f2, f3, f4⟩ := layout21 (m := 21) (c0 := 0) (c1 := 0) (x0 := d) (x1 := a) (x2 := s) (x3 := k) (x4 := o) (Nat.le_of_ble_eq_true rfl) (Nat.le_of_ble_eq_true rfl) (Nat.le_of_ble_eq_true rfl) (rfl : _ = wordNat (.amo d a s k o))
  exact single rfl hb <| (major15 hm).trans <| (if_pos ⟨c0, c1⟩).trans <| by rw [f0, f1, f2, f3, f4]
theorem cas (d : BitVec 5) (a : BitVec 4) (s : BitVec 3) (k : BitVec 2) (c : BitVec 5) : Statement (.cas d a s k c) := by
  obtain ⟨hb, hm, c0, c1, f0, f1, f2, f3, f4⟩ := layout21 (m := 22) (c0 := 0) (c1 := 0) (x0 := d) (x1 := a) (x2 := s) (x3 := k) (x4 := c) (Nat.le_of_ble_eq_true rfl) (Nat.le_of_ble_eq_true rfl) (Nat.le_of_ble_eq_true rfl) (rfl : _ = wordNat (.cas d a s k c))
  exact single rfl hb <| (major16 hm).trans <| (if_pos ⟨c0, c1⟩).trans <| by rw [f0, f1, f2, f3, f4]
theorem red (d : BitVec 5) (a : BitVec 4) (s : BitVec 3) (k : BitVec 2) (o : BitVec 5) : Statement (.red d a s k o) := by
  obtain ⟨hb, hm, c0, c1, f0, f1, f2, f3, f4⟩ := layout21 (m := 22) (c0 := 0) (c1 := 1) (x0 := d) (x1 := a) (x2 := s) (x3 := k) (x4 := o) (Nat.le_of_ble_eq_true rfl) (Nat.le_of_ble_eq_true rfl) (Nat.le_of_ble_eq_true rfl) (rfl : _ = wordNat (.red d a s k o))
  exact single rfl hb <| (major16 hm).trans <| (if_neg fun h => absurd (c1.symm.trans h.2) (Nat.ne_of_beq_eq_false rfl)).trans <| (if_pos ⟨c0, c1⟩).trans <| by rw [f0, f1, f2, f3, f4]
theorem reductionPerformed (k : Nat) : Statement (.reductionPerformed k) := wordless rfl
theorem hrd (d : BitVec 5) (a : BitVec 4) (b : BitVec 5) (z : BitVec 2) : Statement (.hrd d a b z) := by
  obtain ⟨hb, hm, c0, c1, c2, f0, f1, f2, f3⟩ := layout22 (m := 23) (c0 := 0) (c1 := 0) (c2 := 0) (x0 := d) (x1 := a) (x2 := b) (x3 := z) (Nat.le_of_ble_eq_true rfl) (Nat.le_of_ble_eq_true rfl) (Nat.le_of_ble_eq_true rfl) (Nat.le_of_ble_eq_true rfl) (rfl : _ = wordNat (.hrd d a b z))
  exact single rfl hb <| (major17 hm).trans <| (if_pos ⟨c0, c1, c2⟩).trans <| by rw [f0, f1, f2, f3]
theorem hwr (d : BitVec 5) (a : BitVec 4) (b : BitVec 5) (z : BitVec 2) : Statement (.hwr d a b z) := by
  obtain ⟨hb, hm, c0, c1, c2, f0, f1, f2, f3⟩ := layout22 (m := 23) (c0 := 0) (c1 := 0) (c2 := 1) (x0 := d) (x1 := a) (x2 := b) (x3 := z) (Nat.le_of_ble_eq_true rfl) (Nat.le_of_ble_eq_true rfl) (Nat.le_of_ble_eq_true rfl) (Nat.le_of_ble_eq_true rfl) (rfl : _ = wordNat (.hwr d a b z))
  exact single rfl hb <| (major17 hm).trans <| (if_neg fun h => absurd (c2.symm.trans h.2.2) (Nat.ne_of_beq_eq_false rfl)).trans <| (if_pos ⟨c0, c1, c2⟩).trans <| by rw [f0, f1, f2, f3]
theorem cpost (d a : BitVec 4) (b : BitVec 5) : Statement (.cpost d a b) := by
  obtain ⟨hb, hm, c0, c1, c2, f0, f1, f2⟩ := layout16 (m := 23) (c0 := 0) (c1 := 0) (c2 := 2) (x0 := d) (x1 := a) (x2 := b) (Nat.le_of_ble_eq_true rfl) (Nat.le_of_ble_eq_true rfl) (Nat.le_of_ble_eq_true rfl) (Nat.le_of_ble_eq_true rfl) (rfl : _ = wordNat (.cpost d a b))
  exact single rfl hb <| (major17 hm).trans <| (if_neg (by omega)).trans <| (if_neg (by omega)).trans <| (if_pos ⟨c0, c1, c2⟩).trans <| by rw [f0, f1, f2]
theorem cpostBarrier (d a : BitVec 4) (b : BitVec 5) (c : BitVec 4) : Statement (.cpostBarrier d a b c) := by
  obtain ⟨hb, hm, c0, c1, c2, c3, f0, f1, f2, f3⟩ := layout23 (m := 23) (c0 := 0) (c1 := 0) (c2 := 1) (c3 := 2) (x0 := d) (x1 := a) (x2 := b) (x3 := c) (Nat.le_of_ble_eq_true rfl) (Nat.le_of_ble_eq_true rfl) (Nat.le_of_ble_eq_true rfl) (Nat.le_of_ble_eq_true rfl) (Nat.le_of_ble_eq_true rfl) (rfl : _ = wordNat (.cpostBarrier d a b c))
  exact single rfl hb <| (major17 hm).trans <| (if_neg fun h => absurd (c3.symm.trans h.2.2) (Nat.ne_of_beq_eq_false rfl)).trans <| (if_neg fun h => absurd (c3.symm.trans h.2.2) (Nat.ne_of_beq_eq_false rfl)).trans <| (if_neg (by omega)).trans <| (if_pos ⟨c0, c1, c2, c3⟩).trans <| by rw [f0, f1, f2, f3]
theorem cpostComplete (k : Nat) : Statement (.cpostComplete k) := wordless rfl
theorem cwait (d a : BitVec 5) : Statement (.cwait d a) := by
  obtain ⟨hb, hm, c0, f0, f1⟩ := layout1 (m := 23) (c0 := 3) (x0 := d) (x1 := a) (Nat.le_of_ble_eq_true rfl) (Nat.le_of_ble_eq_true rfl) (rfl : _ = wordNat (.cwait d a))
  exact single rfl hb <| (major17 hm).trans <| (if_neg (by omega)).trans <| (if_neg (by omega)).trans <| (if_neg (by omega)).trans <| (if_neg (by omega)).trans <| (if_pos c0).trans <| by rw [f0, f1]
theorem evw (d a : BitVec 5) : Statement (.evw d a) := by
  obtain ⟨hb, hm, c0, f0, f1⟩ := layout1 (m := 24) (c0 := 0) (x0 := d) (x1 := a) (Nat.le_of_ble_eq_true rfl) (Nat.le_of_ble_eq_true rfl) (rfl : _ = wordNat (.evw d a))
  exact single rfl hb <| (major18 hm).trans <| (if_pos c0).trans <| by rw [f0, f1]
theorem evsig (a b : BitVec 5) : Statement (.evsig a b) := by
  obtain ⟨hb, hm, c0, c1, f0, f1⟩ := layout24 (m := 24) (c0 := 0) (c1 := 1) (x0 := a) (x1 := b) (Nat.le_of_ble_eq_true rfl) (Nat.le_of_ble_eq_true rfl) (Nat.le_of_ble_eq_true rfl) (rfl : _ = wordNat (.evsig a b))
  exact single rfl hb <| (major18 hm).trans <| (if_neg (by omega)).trans <| (if_pos ⟨c0, c1⟩).trans <| by rw [f0, f1]
theorem eventWordAccepted (k : Nat) : Statement (.eventWordAccepted k) := wordless rfl
theorem mtxl (d a : BitVec 5) : Statement (.mtxl d a) := by
  obtain ⟨hb, hm, c0, f0, f1⟩ := layout1 (m := 24) (c0 := 2) (x0 := d) (x1 := a) (Nat.le_of_ble_eq_true rfl) (Nat.le_of_ble_eq_true rfl) (rfl : _ = wordNat (.mtxl d a))
  exact single rfl hb <| (major18 hm).trans <| (if_neg fun h => absurd (c0.symm.trans h) (Nat.ne_of_beq_eq_false rfl)).trans <| (if_neg (by omega)).trans <| (if_pos c0).trans <| by rw [f0, f1]
theorem mtxu (a : BitVec 5) : Statement (.mtxu a) := by
  obtain ⟨hb, hm, c0, c1, f0⟩ := layout25 (m := 24) (c0 := 0) (c1 := 3) (x0 := a) (Nat.le_of_ble_eq_true rfl) (Nat.le_of_ble_eq_true rfl) (Nat.le_of_ble_eq_true rfl) (rfl : _ = wordNat (.mtxu a))
  exact single rfl hb <| (major18 hm).trans <| (if_neg fun h => absurd (c1.symm.trans h) (Nat.ne_of_beq_eq_false rfl)).trans <| (if_neg (by omega)).trans <| (if_neg fun h => absurd (c1.symm.trans h) (Nat.ne_of_beq_eq_false rfl)).trans <| (if_pos ⟨c0, c1⟩).trans <| by rw [f0]
theorem binit (d : BitVec 5) (a : BitVec 4) (b : BitVec 5) (s : BitVec 3) : Statement (.binit d a b s) := by
  obtain ⟨hb, hm, c0, c1, c2, f0, f1, f2, f3⟩ := layout26 (m := 25) (c0 := 0) (c1 := 0) (c2 := 0) (x0 := d) (x1 := a) (x2 := b) (x3 := s) (Nat.le_of_ble_eq_true rfl) (Nat.le_of_ble_eq_true rfl) (Nat.le_of_ble_eq_true rfl) (Nat.le_of_ble_eq_true rfl) (rfl : _ = wordNat (.binit d a b s))
  exact single rfl hb <| (major19 hm).trans <| (if_pos ⟨c0, c1, c2⟩).trans <| by rw [f0, f1, f2, f3]
theorem bpost (d : BitVec 5) (a : BitVec 4) (b : BitVec 5) (s : BitVec 3) : Statement (.bpost d a b s) := by
  obtain ⟨hb, hm, c0, c1, c2, f0, f1, f2, f3⟩ := layout26 (m := 25) (c0 := 0) (c1 := 0) (c2 := 1) (x0 := d) (x1 := a) (x2 := b) (x3 := s) (Nat.le_of_ble_eq_true rfl) (Nat.le_of_ble_eq_true rfl) (Nat.le_of_ble_eq_true rfl) (Nat.le_of_ble_eq_true rfl) (rfl : _ = wordNat (.bpost d a b s))
  exact single rfl hb <| (major19 hm).trans <| (if_neg fun h => absurd (c2.symm.trans h.2.2) (Nat.ne_of_beq_eq_false rfl)).trans <| (if_pos ⟨c0, c1, c2⟩).trans <| by rw [f0, f1, f2, f3]
theorem barr (d : BitVec 5) (a : BitVec 4) (b : BitVec 5) (s : BitVec 3) : Statement (.barr d a b s) := by
  obtain ⟨hb, hm, c0, c1, c2, f0, f1, f2, f3⟩ := layout26 (m := 25) (c0 := 0) (c1 := 0) (c2 := 2) (x0 := d) (x1 := a) (x2 := b) (x3 := s) (Nat.le_of_ble_eq_true rfl) (Nat.le_of_ble_eq_true rfl) (Nat.le_of_ble_eq_true rfl) (Nat.le_of_ble_eq_true rfl) (rfl : _ = wordNat (.barr d a b s))
  exact single rfl hb <| (major19 hm).trans <| (if_neg fun h => absurd (c2.symm.trans h.2.2) (Nat.ne_of_beq_eq_false rfl)).trans <| (if_neg fun h => absurd (c2.symm.trans h.2.2) (Nat.ne_of_beq_eq_false rfl)).trans <| (if_pos ⟨c0, c1, c2⟩).trans <| by rw [f0, f1, f2, f3]
theorem bwait (d : BitVec 5) (a : BitVec 4) (b : BitVec 5) (s : BitVec 3) : Statement (.bwait d a b s) := by
  obtain ⟨hb, hm, c0, c1, c2, f0, f1, f2, f3⟩ := layout26 (m := 25) (c0 := 0) (c1 := 0) (c2 := 3) (x0 := d) (x1 := a) (x2 := b) (x3 := s) (Nat.le_of_ble_eq_true rfl) (Nat.le_of_ble_eq_true rfl) (Nat.le_of_ble_eq_true rfl) (Nat.le_of_ble_eq_true rfl) (rfl : _ = wordNat (.bwait d a b s))
  exact single rfl hb <| (major19 hm).trans <| (if_neg fun h => absurd (c2.symm.trans h.2.2) (Nat.ne_of_beq_eq_false rfl)).trans <| (if_neg fun h => absurd (c2.symm.trans h.2.2) (Nat.ne_of_beq_eq_false rfl)).trans <| (if_neg fun h => absurd (c2.symm.trans h.2.2) (Nat.ne_of_beq_eq_false rfl)).trans <| (if_pos ⟨c0, c1, c2⟩).trans <| by rw [f0, f1, f2, f3]
theorem dqpush (d : BitVec 5) (a : BitVec 4) (b : BitVec 5) (s : BitVec 3) : Statement (.dqpush d a b s) := by
  obtain ⟨hb, hm, c0, c1, c2, f0, f1, f2, f3⟩ := layout26 (m := 26) (c0 := 0) (c1 := 0) (c2 := 0) (x0 := d) (x1 := a) (x2 := b) (x3 := s) (Nat.le_of_ble_eq_true rfl) (Nat.le_of_ble_eq_true rfl) (Nat.le_of_ble_eq_true rfl) (Nat.le_of_ble_eq_true rfl) (rfl : _ = wordNat (.dqpush d a b s))
  exact single rfl hb <| (major1A hm).trans <| (if_pos ⟨c0, c1, c2⟩).trans <| by rw [f0, f1, f2, f3]
theorem dqpop (d : BitVec 5) (a : BitVec 4) (s : BitVec 3) : Statement (.dqpop d a s) := by
  obtain ⟨hb, hm, c0, c1, c2, f0, f1, f2⟩ := layout19 (m := 26) (c0 := 0) (c1 := 0) (c2 := 1) (x0 := d) (x1 := a) (x2 := s) (Nat.le_of_ble_eq_true rfl) (Nat.le_of_ble_eq_true rfl) (Nat.le_of_ble_eq_true rfl) (Nat.le_of_ble_eq_true rfl) (rfl : _ = wordNat (.dqpop d a s))
  exact single rfl hb <| (major1A hm).trans <| (if_neg fun h => absurd (c2.symm.trans h.2.2) (Nat.ne_of_beq_eq_false rfl)).trans <| (if_pos ⟨c0, c1, c2⟩).trans <| by rw [f0, f1, f2]
theorem dqsteal (d : BitVec 5) (a : BitVec 4) (s : BitVec 3) : Statement (.dqsteal d a s) := by
  obtain ⟨hb, hm, c0, c1, c2, f0, f1, f2⟩ := layout19 (m := 26) (c0 := 0) (c1 := 0) (c2 := 2) (x0 := d) (x1 := a) (x2 := s) (Nat.le_of_ble_eq_true rfl) (Nat.le_of_ble_eq_true rfl) (Nat.le_of_ble_eq_true rfl) (Nat.le_of_ble_eq_true rfl) (rfl : _ = wordNat (.dqsteal d a s))
  exact single rfl hb <| (major1A hm).trans <| (if_neg fun h => absurd (c2.symm.trans h.2.2) (Nat.ne_of_beq_eq_false rfl)).trans <| (if_neg fun h => absurd (c2.symm.trans h.2.2) (Nat.ne_of_beq_eq_false rfl)).trans <| (if_pos ⟨c0, c1, c2⟩).trans <| by rw [f0, f1, f2]
theorem sstep (d : BitVec 5) : Statement (.sstep d) := by
  obtain ⟨hb, hm, c0, f0⟩ := layout27 (m := 27) (c0 := 0) (x0 := d) (Nat.le_of_ble_eq_true rfl) (Nat.le_of_ble_eq_true rfl) (rfl : _ = wordNat (.sstep d))
  exact single rfl hb <| (major1B hm).trans <| (if_pos c0).trans <| by rw [f0]
theorem superstepAdvance (k : Nat) : Statement (.superstepAdvance k) := wordless rfl
theorem tenantSwitch (r : Nat) : Statement (.tenantSwitch r) := wordless rfl
theorem scree (d a : BitVec 5) : Statement (.scree d a) := by
  obtain ⟨hb, hm, c0, f0, f1⟩ := layout1 (m := 27) (c0 := 1) (x0 := d) (x1 := a) (Nat.le_of_ble_eq_true rfl) (Nat.le_of_ble_eq_true rfl) (rfl : _ = wordNat (.scree d a))
  exact single rfl hb <| (major1B hm).trans <| (if_neg (by omega)).trans <| (if_pos c0).trans <| by rw [f0, f1]
theorem heapPass (asid : Nat) : Statement (.heapPass asid) := wordless rfl
theorem sstat (d a : BitVec 5) : Statement (.sstat d a) := by
  obtain ⟨hb, hm, c0, f0, f1⟩ := layout1 (m := 27) (c0 := 2) (x0 := d) (x1 := a) (Nat.le_of_ble_eq_true rfl) (Nat.le_of_ble_eq_true rfl) (rfl : _ = wordNat (.sstat d a))
  exact single rfl hb <| (major1B hm).trans <| (if_neg (by omega)).trans <| (if_neg fun h => absurd (c0.symm.trans h) (Nat.ne_of_beq_eq_false rfl)).trans <| (if_pos c0).trans <| by rw [f0, f1]
theorem hstart (d a b : BitVec 5) : Statement (.hstart d a b) := by
  obtain ⟨hb, hm, c0, f0, f1, f2⟩ := layout0 (m := 28) (c0 := 0) (x0 := d) (x1 := a) (x2 := b) (Nat.le_of_ble_eq_true rfl) (Nat.le_of_ble_eq_true rfl) (rfl : _ = wordNat (.hstart d a b))
  exact single rfl hb <| (major1C hm).trans <| (if_pos c0).trans <| by rw [f0, f1, f2]
theorem hjoin (d a : BitVec 5) : Statement (.hjoin d a) := by
  obtain ⟨hb, hm, c0, f0, f1⟩ := layout1 (m := 28) (c0 := 1) (x0 := d) (x1 := a) (Nat.le_of_ble_eq_true rfl) (Nat.le_of_ble_eq_true rfl) (rfl : _ = wordNat (.hjoin d a))
  exact single rfl hb <| (major1C hm).trans <| (if_neg (by omega)).trans <| (if_pos c0).trans <| by rw [f0, f1]
theorem hexit (a : BitVec 5) : Statement (.hexit a) := by
  obtain ⟨hb, hm, c0, c1, f0⟩ := layout25 (m := 28) (c0 := 0) (c1 := 2) (x0 := a) (Nat.le_of_ble_eq_true rfl) (Nat.le_of_ble_eq_true rfl) (Nat.le_of_ble_eq_true rfl) (rfl : _ = wordNat (.hexit a))
  exact single rfl hb <| (major1C hm).trans <| (if_neg (by omega)).trans <| (if_neg fun h => absurd (c1.symm.trans h) (Nat.ne_of_beq_eq_false rfl)).trans <| (if_pos ⟨c0, c1⟩).trans <| by rw [f0]
theorem hid (d : BitVec 5) : Statement (.hid d) := by
  obtain ⟨hb, hm, c0, f0⟩ := layout27 (m := 28) (c0 := 3) (x0 := d) (Nat.le_of_ble_eq_true rfl) (Nat.le_of_ble_eq_true rfl) (rfl : _ = wordNat (.hid d))
  exact single rfl hb <| (major1C hm).trans <| (if_neg (by omega)).trans <| (if_neg (by omega)).trans <| (if_neg (by omega)).trans <| (if_pos c0).trans <| by rw [f0]
theorem yield : Statement (.yield) := by
  obtain ⟨hb, hm, c0⟩ := layout28 (m := 28) (c0 := 4) (Nat.le_of_ble_eq_true rfl) (Nat.le_of_ble_eq_true rfl) (rfl : _ = wordNat (.yield))
  exact single rfl hb <| (major1C hm).trans <| (if_neg (by omega)).trans <| (if_neg (by omega)).trans <| (if_neg (by omega)).trans <| (if_neg (by omega)).trans <| (if_pos c0).trans <| rfl
theorem park (a b : BitVec 5) (f : BitVec 3) : Statement (.park a b f) := by
  obtain ⟨hb, hm, c0, c1, c2, f0, f1, f2⟩ := layout29 (m := 28) (c0 := 0) (c1 := 0) (c2 := 5) (x0 := a) (x1 := b) (x2 := f) (Nat.le_of_ble_eq_true rfl) (Nat.le_of_ble_eq_true rfl) (Nat.le_of_ble_eq_true rfl) (Nat.le_of_ble_eq_true rfl) (rfl : _ = wordNat (.park a b f))
  exact single rfl hb <| (major1C hm).trans <| (if_neg (by omega)).trans <| (if_neg (by omega)).trans <| (if_neg (by omega)).trans <| (if_neg (by omega)).trans <| (if_neg (by omega)).trans <| (if_pos ⟨c0, c1, c2⟩).trans <| by rw [f0, f1, f2]
theorem unpark (d b : BitVec 5) (f : BitVec 3) : Statement (.unpark d b f) := by
  obtain ⟨hb, hm, c0, c1, c2, f0, f1, f2⟩ := layout30 (m := 28) (c0 := 0) (c1 := 0) (c2 := 6) (x0 := d) (x1 := b) (x2 := f) (Nat.le_of_ble_eq_true rfl) (Nat.le_of_ble_eq_true rfl) (Nat.le_of_ble_eq_true rfl) (Nat.le_of_ble_eq_true rfl) (rfl : _ = wordNat (.unpark d b f))
  exact single rfl hb <| (major1C hm).trans <| (if_neg (by omega)).trans <| (if_neg (by omega)).trans <| (if_neg (by omega)).trans <| (if_neg (by omega)).trans <| (if_neg (by omega)).trans <| (if_neg fun h => absurd (c2.symm.trans h.2.2) (Nat.ne_of_beq_eq_false rfl)).trans <| (if_pos ⟨c0, c1, c2⟩).trans <| by rw [f0, f1, f2]
theorem tuft (d a : BitVec 5) : Statement (.tuft d a) := by
  obtain ⟨hb, hm, c0, f0, f1⟩ := layout1 (m := 29) (c0 := 0) (x0 := d) (x1 := a) (Nat.le_of_ble_eq_true rfl) (Nat.le_of_ble_eq_true rfl) (rfl : _ = wordNat (.tuft d a))
  exact single rfl hb <| (major1D hm).trans <| (if_pos c0).trans <| by rw [f0, f1]
theorem split : Statement (.split) := by
  obtain ⟨hb, hm, c0⟩ := layout28 (m := 29) (c0 := 1) (Nat.le_of_ble_eq_true rfl) (Nat.le_of_ble_eq_true rfl) (rfl : _ = wordNat (.split))
  exact single rfl hb <| (major1D hm).trans <| (if_neg (by omega)).trans <| (if_pos c0).trans <| rfl
theorem glaunch (d : BitVec 5) (a : BitVec 4) : Statement (.glaunch d a) := by
  obtain ⟨hb, hm, c0, c1, f0, f1⟩ := layout14 (m := 30) (c0 := 0) (c1 := 0) (x0 := d) (x1 := a) (Nat.le_of_ble_eq_true rfl) (Nat.le_of_ble_eq_true rfl) (Nat.le_of_ble_eq_true rfl) (rfl : _ = wordNat (.glaunch d a))
  exact single rfl hb <| (major1E hm).trans <| (if_pos ⟨c0, c1⟩).trans <| by rw [f0, f1]
theorem vadd (d a b : BitVec 5) (p : BitVec 3) (e : BitVec 2) : Statement (.vadd d a b p e) := by
  obtain ⟨hb, hm, c0, f0, f1, f2, f3, f4⟩ := layout31 (m := 32) (c0 := 0) (x0 := d) (x1 := a) (x2 := b) (x3 := p) (x4 := e) (Nat.le_of_ble_eq_true rfl) (Nat.le_of_ble_eq_true rfl) (rfl : _ = wordNat (.vadd d a b p e))
  exact single rfl hb <| (major20 hm).trans <| (if_pos c0).trans <| by rw [f0, f1, f2, f3, f4]
theorem vsub (d a b : BitVec 5) (p : BitVec 3) (e : BitVec 2) : Statement (.vsub d a b p e) := by
  obtain ⟨hb, hm, c0, f0, f1, f2, f3, f4⟩ := layout31 (m := 32) (c0 := 1) (x0 := d) (x1 := a) (x2 := b) (x3 := p) (x4 := e) (Nat.le_of_ble_eq_true rfl) (Nat.le_of_ble_eq_true rfl) (rfl : _ = wordNat (.vsub d a b p e))
  exact single rfl hb <| (major20 hm).trans <| (if_neg fun h => absurd (c0.symm.trans h) (Nat.ne_of_beq_eq_false rfl)).trans <| (if_pos c0).trans <| by rw [f0, f1, f2, f3, f4]
theorem vmul (d a b : BitVec 5) (p : BitVec 3) (e : BitVec 2) : Statement (.vmul d a b p e) := by
  obtain ⟨hb, hm, c0, f0, f1, f2, f3, f4⟩ := layout31 (m := 32) (c0 := 2) (x0 := d) (x1 := a) (x2 := b) (x3 := p) (x4 := e) (Nat.le_of_ble_eq_true rfl) (Nat.le_of_ble_eq_true rfl) (rfl : _ = wordNat (.vmul d a b p e))
  exact single rfl hb <| (major20 hm).trans <| (if_neg fun h => absurd (c0.symm.trans h) (Nat.ne_of_beq_eq_false rfl)).trans <| (if_neg fun h => absurd (c0.symm.trans h) (Nat.ne_of_beq_eq_false rfl)).trans <| (if_pos c0).trans <| by rw [f0, f1, f2, f3, f4]
theorem vmin (d a b : BitVec 5) (p : BitVec 3) (e : BitVec 2) : Statement (.vmin d a b p e) := by
  obtain ⟨hb, hm, c0, f0, f1, f2, f3, f4⟩ := layout31 (m := 32) (c0 := 3) (x0 := d) (x1 := a) (x2 := b) (x3 := p) (x4 := e) (Nat.le_of_ble_eq_true rfl) (Nat.le_of_ble_eq_true rfl) (rfl : _ = wordNat (.vmin d a b p e))
  exact single rfl hb <| (major20 hm).trans <| (if_neg fun h => absurd (c0.symm.trans h) (Nat.ne_of_beq_eq_false rfl)).trans <| (if_neg fun h => absurd (c0.symm.trans h) (Nat.ne_of_beq_eq_false rfl)).trans <| (if_neg fun h => absurd (c0.symm.trans h) (Nat.ne_of_beq_eq_false rfl)).trans <| (if_pos c0).trans <| by rw [f0, f1, f2, f3, f4]
theorem vmax (d a b : BitVec 5) (p : BitVec 3) (e : BitVec 2) : Statement (.vmax d a b p e) := by
  obtain ⟨hb, hm, c0, f0, f1, f2, f3, f4⟩ := layout31 (m := 32) (c0 := 4) (x0 := d) (x1 := a) (x2 := b) (x3 := p) (x4 := e) (Nat.le_of_ble_eq_true rfl) (Nat.le_of_ble_eq_true rfl) (rfl : _ = wordNat (.vmax d a b p e))
  exact single rfl hb <| (major20 hm).trans <| (if_neg fun h => absurd (c0.symm.trans h) (Nat.ne_of_beq_eq_false rfl)).trans <| (if_neg fun h => absurd (c0.symm.trans h) (Nat.ne_of_beq_eq_false rfl)).trans <| (if_neg fun h => absurd (c0.symm.trans h) (Nat.ne_of_beq_eq_false rfl)).trans <| (if_neg fun h => absurd (c0.symm.trans h) (Nat.ne_of_beq_eq_false rfl)).trans <| (if_pos c0).trans <| by rw [f0, f1, f2, f3, f4]
theorem vabs (d a : BitVec 5) (p : BitVec 3) (e : BitVec 2) : Statement (.vabs d a p e) := by
  obtain ⟨hb, hm, c0, c1, f0, f1, f2, f3⟩ := layout32 (m := 32) (c0 := 0) (c1 := 5) (x0 := d) (x1 := a) (x2 := p) (x3 := e) (Nat.le_of_ble_eq_true rfl) (Nat.le_of_ble_eq_true rfl) (Nat.le_of_ble_eq_true rfl) (rfl : _ = wordNat (.vabs d a p e))
  exact single rfl hb <| (major20 hm).trans <| (if_neg fun h => absurd (c1.symm.trans h) (Nat.ne_of_beq_eq_false rfl)).trans <| (if_neg fun h => absurd (c1.symm.trans h) (Nat.ne_of_beq_eq_false rfl)).trans <| (if_neg fun h => absurd (c1.symm.trans h) (Nat.ne_of_beq_eq_false rfl)).trans <| (if_neg fun h => absurd (c1.symm.trans h) (Nat.ne_of_beq_eq_false rfl)).trans <| (if_neg fun h => absurd (c1.symm.trans h) (Nat.ne_of_beq_eq_false rfl)).trans <| (if_pos ⟨c0, c1⟩).trans <| by rw [f0, f1, f2, f3]
theorem vneg (d a : BitVec 5) (p : BitVec 3) (e : BitVec 2) : Statement (.vneg d a p e) := by
  obtain ⟨hb, hm, c0, c1, f0, f1, f2, f3⟩ := layout32 (m := 32) (c0 := 0) (c1 := 6) (x0 := d) (x1 := a) (x2 := p) (x3 := e) (Nat.le_of_ble_eq_true rfl) (Nat.le_of_ble_eq_true rfl) (Nat.le_of_ble_eq_true rfl) (rfl : _ = wordNat (.vneg d a p e))
  exact single rfl hb <| (major20 hm).trans <| (if_neg fun h => absurd (c1.symm.trans h) (Nat.ne_of_beq_eq_false rfl)).trans <| (if_neg fun h => absurd (c1.symm.trans h) (Nat.ne_of_beq_eq_false rfl)).trans <| (if_neg fun h => absurd (c1.symm.trans h) (Nat.ne_of_beq_eq_false rfl)).trans <| (if_neg fun h => absurd (c1.symm.trans h) (Nat.ne_of_beq_eq_false rfl)).trans <| (if_neg fun h => absurd (c1.symm.trans h) (Nat.ne_of_beq_eq_false rfl)).trans <| (if_neg fun h => absurd (c1.symm.trans h.2) (Nat.ne_of_beq_eq_false rfl)).trans <| (if_pos ⟨c0, c1⟩).trans <| by rw [f0, f1, f2, f3]
theorem vand (d a b : BitVec 5) (p : BitVec 3) (e : BitVec 2) : Statement (.vand d a b p e) := by
  obtain ⟨hb, hm, c0, f0, f1, f2, f3, f4⟩ := layout31 (m := 32) (c0 := 7) (x0 := d) (x1 := a) (x2 := b) (x3 := p) (x4 := e) (Nat.le_of_ble_eq_true rfl) (Nat.le_of_ble_eq_true rfl) (rfl : _ = wordNat (.vand d a b p e))
  exact single rfl hb <| (major20 hm).trans <| (if_neg fun h => absurd (c0.symm.trans h) (Nat.ne_of_beq_eq_false rfl)).trans <| (if_neg fun h => absurd (c0.symm.trans h) (Nat.ne_of_beq_eq_false rfl)).trans <| (if_neg fun h => absurd (c0.symm.trans h) (Nat.ne_of_beq_eq_false rfl)).trans <| (if_neg fun h => absurd (c0.symm.trans h) (Nat.ne_of_beq_eq_false rfl)).trans <| (if_neg fun h => absurd (c0.symm.trans h) (Nat.ne_of_beq_eq_false rfl)).trans <| (if_neg fun h => absurd (c0.symm.trans h.2) (Nat.ne_of_beq_eq_false rfl)).trans <| (if_neg fun h => absurd (c0.symm.trans h.2) (Nat.ne_of_beq_eq_false rfl)).trans <| (if_pos c0).trans <| by rw [f0, f1, f2, f3, f4]
theorem vor (d a b : BitVec 5) (p : BitVec 3) (e : BitVec 2) : Statement (.vor d a b p e) := by
  obtain ⟨hb, hm, c0, f0, f1, f2, f3, f4⟩ := layout31 (m := 32) (c0 := 8) (x0 := d) (x1 := a) (x2 := b) (x3 := p) (x4 := e) (Nat.le_of_ble_eq_true rfl) (Nat.le_of_ble_eq_true rfl) (rfl : _ = wordNat (.vor d a b p e))
  exact single rfl hb <| (major20 hm).trans <| (if_neg fun h => absurd (c0.symm.trans h) (Nat.ne_of_beq_eq_false rfl)).trans <| (if_neg fun h => absurd (c0.symm.trans h) (Nat.ne_of_beq_eq_false rfl)).trans <| (if_neg fun h => absurd (c0.symm.trans h) (Nat.ne_of_beq_eq_false rfl)).trans <| (if_neg fun h => absurd (c0.symm.trans h) (Nat.ne_of_beq_eq_false rfl)).trans <| (if_neg fun h => absurd (c0.symm.trans h) (Nat.ne_of_beq_eq_false rfl)).trans <| (if_neg fun h => absurd (c0.symm.trans h.2) (Nat.ne_of_beq_eq_false rfl)).trans <| (if_neg fun h => absurd (c0.symm.trans h.2) (Nat.ne_of_beq_eq_false rfl)).trans <| (if_neg fun h => absurd (c0.symm.trans h) (Nat.ne_of_beq_eq_false rfl)).trans <| (if_pos c0).trans <| by rw [f0, f1, f2, f3, f4]
theorem vxor (d a b : BitVec 5) (p : BitVec 3) (e : BitVec 2) : Statement (.vxor d a b p e) := by
  obtain ⟨hb, hm, c0, f0, f1, f2, f3, f4⟩ := layout31 (m := 32) (c0 := 9) (x0 := d) (x1 := a) (x2 := b) (x3 := p) (x4 := e) (Nat.le_of_ble_eq_true rfl) (Nat.le_of_ble_eq_true rfl) (rfl : _ = wordNat (.vxor d a b p e))
  exact single rfl hb <| (major20 hm).trans <| (if_neg fun h => absurd (c0.symm.trans h) (Nat.ne_of_beq_eq_false rfl)).trans <| (if_neg fun h => absurd (c0.symm.trans h) (Nat.ne_of_beq_eq_false rfl)).trans <| (if_neg fun h => absurd (c0.symm.trans h) (Nat.ne_of_beq_eq_false rfl)).trans <| (if_neg fun h => absurd (c0.symm.trans h) (Nat.ne_of_beq_eq_false rfl)).trans <| (if_neg fun h => absurd (c0.symm.trans h) (Nat.ne_of_beq_eq_false rfl)).trans <| (if_neg fun h => absurd (c0.symm.trans h.2) (Nat.ne_of_beq_eq_false rfl)).trans <| (if_neg fun h => absurd (c0.symm.trans h.2) (Nat.ne_of_beq_eq_false rfl)).trans <| (if_neg fun h => absurd (c0.symm.trans h) (Nat.ne_of_beq_eq_false rfl)).trans <| (if_neg fun h => absurd (c0.symm.trans h) (Nat.ne_of_beq_eq_false rfl)).trans <| (if_pos c0).trans <| by rw [f0, f1, f2, f3, f4]
theorem vsll (d a b : BitVec 5) (p : BitVec 3) (e : BitVec 2) : Statement (.vsll d a b p e) := by
  obtain ⟨hb, hm, c0, f0, f1, f2, f3, f4⟩ := layout31 (m := 32) (c0 := 10) (x0 := d) (x1 := a) (x2 := b) (x3 := p) (x4 := e) (Nat.le_of_ble_eq_true rfl) (Nat.le_of_ble_eq_true rfl) (rfl : _ = wordNat (.vsll d a b p e))
  exact single rfl hb <| (major20 hm).trans <| (if_neg fun h => absurd (c0.symm.trans h) (Nat.ne_of_beq_eq_false rfl)).trans <| (if_neg fun h => absurd (c0.symm.trans h) (Nat.ne_of_beq_eq_false rfl)).trans <| (if_neg fun h => absurd (c0.symm.trans h) (Nat.ne_of_beq_eq_false rfl)).trans <| (if_neg fun h => absurd (c0.symm.trans h) (Nat.ne_of_beq_eq_false rfl)).trans <| (if_neg fun h => absurd (c0.symm.trans h) (Nat.ne_of_beq_eq_false rfl)).trans <| (if_neg fun h => absurd (c0.symm.trans h.2) (Nat.ne_of_beq_eq_false rfl)).trans <| (if_neg fun h => absurd (c0.symm.trans h.2) (Nat.ne_of_beq_eq_false rfl)).trans <| (if_neg fun h => absurd (c0.symm.trans h) (Nat.ne_of_beq_eq_false rfl)).trans <| (if_neg fun h => absurd (c0.symm.trans h) (Nat.ne_of_beq_eq_false rfl)).trans <| (if_neg fun h => absurd (c0.symm.trans h) (Nat.ne_of_beq_eq_false rfl)).trans <| (if_pos c0).trans <| by rw [f0, f1, f2, f3, f4]
theorem vsrl (d a b : BitVec 5) (p : BitVec 3) (e : BitVec 2) : Statement (.vsrl d a b p e) := by
  obtain ⟨hb, hm, c0, f0, f1, f2, f3, f4⟩ := layout31 (m := 32) (c0 := 11) (x0 := d) (x1 := a) (x2 := b) (x3 := p) (x4 := e) (Nat.le_of_ble_eq_true rfl) (Nat.le_of_ble_eq_true rfl) (rfl : _ = wordNat (.vsrl d a b p e))
  exact single rfl hb <| (major20 hm).trans <| (if_neg fun h => absurd (c0.symm.trans h) (Nat.ne_of_beq_eq_false rfl)).trans <| (if_neg fun h => absurd (c0.symm.trans h) (Nat.ne_of_beq_eq_false rfl)).trans <| (if_neg fun h => absurd (c0.symm.trans h) (Nat.ne_of_beq_eq_false rfl)).trans <| (if_neg fun h => absurd (c0.symm.trans h) (Nat.ne_of_beq_eq_false rfl)).trans <| (if_neg fun h => absurd (c0.symm.trans h) (Nat.ne_of_beq_eq_false rfl)).trans <| (if_neg fun h => absurd (c0.symm.trans h.2) (Nat.ne_of_beq_eq_false rfl)).trans <| (if_neg fun h => absurd (c0.symm.trans h.2) (Nat.ne_of_beq_eq_false rfl)).trans <| (if_neg fun h => absurd (c0.symm.trans h) (Nat.ne_of_beq_eq_false rfl)).trans <| (if_neg fun h => absurd (c0.symm.trans h) (Nat.ne_of_beq_eq_false rfl)).trans <| (if_neg fun h => absurd (c0.symm.trans h) (Nat.ne_of_beq_eq_false rfl)).trans <| (if_neg fun h => absurd (c0.symm.trans h) (Nat.ne_of_beq_eq_false rfl)).trans <| (if_pos c0).trans <| by rw [f0, f1, f2, f3, f4]
theorem vsra (d a b : BitVec 5) (p : BitVec 3) (e : BitVec 2) : Statement (.vsra d a b p e) := by
  obtain ⟨hb, hm, c0, f0, f1, f2, f3, f4⟩ := layout31 (m := 32) (c0 := 12) (x0 := d) (x1 := a) (x2 := b) (x3 := p) (x4 := e) (Nat.le_of_ble_eq_true rfl) (Nat.le_of_ble_eq_true rfl) (rfl : _ = wordNat (.vsra d a b p e))
  exact single rfl hb <| (major20 hm).trans <| (if_neg fun h => absurd (c0.symm.trans h) (Nat.ne_of_beq_eq_false rfl)).trans <| (if_neg fun h => absurd (c0.symm.trans h) (Nat.ne_of_beq_eq_false rfl)).trans <| (if_neg fun h => absurd (c0.symm.trans h) (Nat.ne_of_beq_eq_false rfl)).trans <| (if_neg fun h => absurd (c0.symm.trans h) (Nat.ne_of_beq_eq_false rfl)).trans <| (if_neg fun h => absurd (c0.symm.trans h) (Nat.ne_of_beq_eq_false rfl)).trans <| (if_neg fun h => absurd (c0.symm.trans h.2) (Nat.ne_of_beq_eq_false rfl)).trans <| (if_neg fun h => absurd (c0.symm.trans h.2) (Nat.ne_of_beq_eq_false rfl)).trans <| (if_neg fun h => absurd (c0.symm.trans h) (Nat.ne_of_beq_eq_false rfl)).trans <| (if_neg fun h => absurd (c0.symm.trans h) (Nat.ne_of_beq_eq_false rfl)).trans <| (if_neg fun h => absurd (c0.symm.trans h) (Nat.ne_of_beq_eq_false rfl)).trans <| (if_neg fun h => absurd (c0.symm.trans h) (Nat.ne_of_beq_eq_false rfl)).trans <| (if_neg fun h => absurd (c0.symm.trans h) (Nat.ne_of_beq_eq_false rfl)).trans <| (if_pos c0).trans <| by rw [f0, f1, f2, f3, f4]
theorem vmov (d a : BitVec 5) (p : BitVec 3) (e : BitVec 2) : Statement (.vmov d a p e) := by
  obtain ⟨hb, hm, c0, c1, f0, f1, f2, f3⟩ := layout32 (m := 32) (c0 := 0) (c1 := 13) (x0 := d) (x1 := a) (x2 := p) (x3 := e) (Nat.le_of_ble_eq_true rfl) (Nat.le_of_ble_eq_true rfl) (Nat.le_of_ble_eq_true rfl) (rfl : _ = wordNat (.vmov d a p e))
  exact single rfl hb <| (major20 hm).trans <| (if_neg fun h => absurd (c1.symm.trans h) (Nat.ne_of_beq_eq_false rfl)).trans <| (if_neg fun h => absurd (c1.symm.trans h) (Nat.ne_of_beq_eq_false rfl)).trans <| (if_neg fun h => absurd (c1.symm.trans h) (Nat.ne_of_beq_eq_false rfl)).trans <| (if_neg fun h => absurd (c1.symm.trans h) (Nat.ne_of_beq_eq_false rfl)).trans <| (if_neg fun h => absurd (c1.symm.trans h) (Nat.ne_of_beq_eq_false rfl)).trans <| (if_neg fun h => absurd (c1.symm.trans h.2) (Nat.ne_of_beq_eq_false rfl)).trans <| (if_neg fun h => absurd (c1.symm.trans h.2) (Nat.ne_of_beq_eq_false rfl)).trans <| (if_neg fun h => absurd (c1.symm.trans h) (Nat.ne_of_beq_eq_false rfl)).trans <| (if_neg fun h => absurd (c1.symm.trans h) (Nat.ne_of_beq_eq_false rfl)).trans <| (if_neg fun h => absurd (c1.symm.trans h) (Nat.ne_of_beq_eq_false rfl)).trans <| (if_neg fun h => absurd (c1.symm.trans h) (Nat.ne_of_beq_eq_false rfl)).trans <| (if_neg fun h => absurd (c1.symm.trans h) (Nat.ne_of_beq_eq_false rfl)).trans <| (if_neg fun h => absurd (c1.symm.trans h) (Nat.ne_of_beq_eq_false rfl)).trans <| (if_pos ⟨c0, c1⟩).trans <| by rw [f0, f1, f2, f3]
theorem vbcast (d a : BitVec 5) (p : BitVec 3) (e : BitVec 2) : Statement (.vbcast d a p e) := by
  obtain ⟨hb, hm, c0, c1, f0, f1, f2, f3⟩ := layout32 (m := 32) (c0 := 0) (c1 := 14) (x0 := d) (x1 := a) (x2 := p) (x3 := e) (Nat.le_of_ble_eq_true rfl) (Nat.le_of_ble_eq_true rfl) (Nat.le_of_ble_eq_true rfl) (rfl : _ = wordNat (.vbcast d a p e))
  exact single rfl hb <| (major20 hm).trans <| (if_neg fun h => absurd (c1.symm.trans h) (Nat.ne_of_beq_eq_false rfl)).trans <| (if_neg fun h => absurd (c1.symm.trans h) (Nat.ne_of_beq_eq_false rfl)).trans <| (if_neg fun h => absurd (c1.symm.trans h) (Nat.ne_of_beq_eq_false rfl)).trans <| (if_neg fun h => absurd (c1.symm.trans h) (Nat.ne_of_beq_eq_false rfl)).trans <| (if_neg fun h => absurd (c1.symm.trans h) (Nat.ne_of_beq_eq_false rfl)).trans <| (if_neg fun h => absurd (c1.symm.trans h.2) (Nat.ne_of_beq_eq_false rfl)).trans <| (if_neg fun h => absurd (c1.symm.trans h.2) (Nat.ne_of_beq_eq_false rfl)).trans <| (if_neg fun h => absurd (c1.symm.trans h) (Nat.ne_of_beq_eq_false rfl)).trans <| (if_neg fun h => absurd (c1.symm.trans h) (Nat.ne_of_beq_eq_false rfl)).trans <| (if_neg fun h => absurd (c1.symm.trans h) (Nat.ne_of_beq_eq_false rfl)).trans <| (if_neg fun h => absurd (c1.symm.trans h) (Nat.ne_of_beq_eq_false rfl)).trans <| (if_neg fun h => absurd (c1.symm.trans h) (Nat.ne_of_beq_eq_false rfl)).trans <| (if_neg fun h => absurd (c1.symm.trans h) (Nat.ne_of_beq_eq_false rfl)).trans <| (if_neg fun h => absurd (c1.symm.trans h.2) (Nat.ne_of_beq_eq_false rfl)).trans <| (if_pos ⟨c0, c1⟩).trans <| by rw [f0, f1, f2, f3]
theorem vfadd (d a b : BitVec 5) (p : BitVec 3) (e : BitVec 2) : Statement (.vfadd d a b p e) := by
  obtain ⟨hb, hm, c0, f0, f1, f2, f3, f4⟩ := layout31 (m := 33) (c0 := 0) (x0 := d) (x1 := a) (x2 := b) (x3 := p) (x4 := e) (Nat.le_of_ble_eq_true rfl) (Nat.le_of_ble_eq_true rfl) (rfl : _ = wordNat (.vfadd d a b p e))
  exact single rfl hb <| (major21 hm).trans <| (if_pos c0).trans <| by rw [f0, f1, f2, f3, f4]
theorem vfsub (d a b : BitVec 5) (p : BitVec 3) (e : BitVec 2) : Statement (.vfsub d a b p e) := by
  obtain ⟨hb, hm, c0, f0, f1, f2, f3, f4⟩ := layout31 (m := 33) (c0 := 1) (x0 := d) (x1 := a) (x2 := b) (x3 := p) (x4 := e) (Nat.le_of_ble_eq_true rfl) (Nat.le_of_ble_eq_true rfl) (rfl : _ = wordNat (.vfsub d a b p e))
  exact single rfl hb <| (major21 hm).trans <| (if_neg fun h => absurd (c0.symm.trans h) (Nat.ne_of_beq_eq_false rfl)).trans <| (if_pos c0).trans <| by rw [f0, f1, f2, f3, f4]
theorem vfmul (d a b : BitVec 5) (p : BitVec 3) (e : BitVec 2) : Statement (.vfmul d a b p e) := by
  obtain ⟨hb, hm, c0, f0, f1, f2, f3, f4⟩ := layout31 (m := 33) (c0 := 2) (x0 := d) (x1 := a) (x2 := b) (x3 := p) (x4 := e) (Nat.le_of_ble_eq_true rfl) (Nat.le_of_ble_eq_true rfl) (rfl : _ = wordNat (.vfmul d a b p e))
  exact single rfl hb <| (major21 hm).trans <| (if_neg fun h => absurd (c0.symm.trans h) (Nat.ne_of_beq_eq_false rfl)).trans <| (if_neg fun h => absurd (c0.symm.trans h) (Nat.ne_of_beq_eq_false rfl)).trans <| (if_pos c0).trans <| by rw [f0, f1, f2, f3, f4]
theorem vfma (d a b : BitVec 5) (p : BitVec 3) (e : BitVec 2) : Statement (.vfma d a b p e) := by
  obtain ⟨hb, hm, c0, f0, f1, f2, f3, f4⟩ := layout31 (m := 33) (c0 := 3) (x0 := d) (x1 := a) (x2 := b) (x3 := p) (x4 := e) (Nat.le_of_ble_eq_true rfl) (Nat.le_of_ble_eq_true rfl) (rfl : _ = wordNat (.vfma d a b p e))
  exact single rfl hb <| (major21 hm).trans <| (if_neg fun h => absurd (c0.symm.trans h) (Nat.ne_of_beq_eq_false rfl)).trans <| (if_neg fun h => absurd (c0.symm.trans h) (Nat.ne_of_beq_eq_false rfl)).trans <| (if_neg fun h => absurd (c0.symm.trans h) (Nat.ne_of_beq_eq_false rfl)).trans <| (if_pos c0).trans <| by rw [f0, f1, f2, f3, f4]
theorem vfms (d a b : BitVec 5) (p : BitVec 3) (e : BitVec 2) : Statement (.vfms d a b p e) := by
  obtain ⟨hb, hm, c0, f0, f1, f2, f3, f4⟩ := layout31 (m := 33) (c0 := 4) (x0 := d) (x1 := a) (x2 := b) (x3 := p) (x4 := e) (Nat.le_of_ble_eq_true rfl) (Nat.le_of_ble_eq_true rfl) (rfl : _ = wordNat (.vfms d a b p e))
  exact single rfl hb <| (major21 hm).trans <| (if_neg fun h => absurd (c0.symm.trans h) (Nat.ne_of_beq_eq_false rfl)).trans <| (if_neg fun h => absurd (c0.symm.trans h) (Nat.ne_of_beq_eq_false rfl)).trans <| (if_neg fun h => absurd (c0.symm.trans h) (Nat.ne_of_beq_eq_false rfl)).trans <| (if_neg fun h => absurd (c0.symm.trans h) (Nat.ne_of_beq_eq_false rfl)).trans <| (if_pos c0).trans <| by rw [f0, f1, f2, f3, f4]
theorem vfmin (d a b : BitVec 5) (p : BitVec 3) (e : BitVec 2) : Statement (.vfmin d a b p e) := by
  obtain ⟨hb, hm, c0, f0, f1, f2, f3, f4⟩ := layout31 (m := 33) (c0 := 5) (x0 := d) (x1 := a) (x2 := b) (x3 := p) (x4 := e) (Nat.le_of_ble_eq_true rfl) (Nat.le_of_ble_eq_true rfl) (rfl : _ = wordNat (.vfmin d a b p e))
  exact single rfl hb <| (major21 hm).trans <| (if_neg fun h => absurd (c0.symm.trans h) (Nat.ne_of_beq_eq_false rfl)).trans <| (if_neg fun h => absurd (c0.symm.trans h) (Nat.ne_of_beq_eq_false rfl)).trans <| (if_neg fun h => absurd (c0.symm.trans h) (Nat.ne_of_beq_eq_false rfl)).trans <| (if_neg fun h => absurd (c0.symm.trans h) (Nat.ne_of_beq_eq_false rfl)).trans <| (if_neg fun h => absurd (c0.symm.trans h) (Nat.ne_of_beq_eq_false rfl)).trans <| (if_pos c0).trans <| by rw [f0, f1, f2, f3, f4]
theorem vfmax (d a b : BitVec 5) (p : BitVec 3) (e : BitVec 2) : Statement (.vfmax d a b p e) := by
  obtain ⟨hb, hm, c0, f0, f1, f2, f3, f4⟩ := layout31 (m := 33) (c0 := 6) (x0 := d) (x1 := a) (x2 := b) (x3 := p) (x4 := e) (Nat.le_of_ble_eq_true rfl) (Nat.le_of_ble_eq_true rfl) (rfl : _ = wordNat (.vfmax d a b p e))
  exact single rfl hb <| (major21 hm).trans <| (if_neg fun h => absurd (c0.symm.trans h) (Nat.ne_of_beq_eq_false rfl)).trans <| (if_neg fun h => absurd (c0.symm.trans h) (Nat.ne_of_beq_eq_false rfl)).trans <| (if_neg fun h => absurd (c0.symm.trans h) (Nat.ne_of_beq_eq_false rfl)).trans <| (if_neg fun h => absurd (c0.symm.trans h) (Nat.ne_of_beq_eq_false rfl)).trans <| (if_neg fun h => absurd (c0.symm.trans h) (Nat.ne_of_beq_eq_false rfl)).trans <| (if_neg fun h => absurd (c0.symm.trans h) (Nat.ne_of_beq_eq_false rfl)).trans <| (if_pos c0).trans <| by rw [f0, f1, f2, f3, f4]
theorem vfabs (d a : BitVec 5) (p : BitVec 3) (e : BitVec 2) : Statement (.vfabs d a p e) := by
  obtain ⟨hb, hm, c0, c1, f0, f1, f2, f3⟩ := layout32 (m := 33) (c0 := 0) (c1 := 7) (x0 := d) (x1 := a) (x2 := p) (x3 := e) (Nat.le_of_ble_eq_true rfl) (Nat.le_of_ble_eq_true rfl) (Nat.le_of_ble_eq_true rfl) (rfl : _ = wordNat (.vfabs d a p e))
  exact single rfl hb <| (major21 hm).trans <| (if_neg fun h => absurd (c1.symm.trans h) (Nat.ne_of_beq_eq_false rfl)).trans <| (if_neg fun h => absurd (c1.symm.trans h) (Nat.ne_of_beq_eq_false rfl)).trans <| (if_neg fun h => absurd (c1.symm.trans h) (Nat.ne_of_beq_eq_false rfl)).trans <| (if_neg fun h => absurd (c1.symm.trans h) (Nat.ne_of_beq_eq_false rfl)).trans <| (if_neg fun h => absurd (c1.symm.trans h) (Nat.ne_of_beq_eq_false rfl)).trans <| (if_neg fun h => absurd (c1.symm.trans h) (Nat.ne_of_beq_eq_false rfl)).trans <| (if_neg fun h => absurd (c1.symm.trans h) (Nat.ne_of_beq_eq_false rfl)).trans <| (if_pos ⟨c0, c1⟩).trans <| by rw [f0, f1, f2, f3]
theorem vfneg (d a : BitVec 5) (p : BitVec 3) (e : BitVec 2) : Statement (.vfneg d a p e) := by
  obtain ⟨hb, hm, c0, c1, f0, f1, f2, f3⟩ := layout32 (m := 33) (c0 := 0) (c1 := 8) (x0 := d) (x1 := a) (x2 := p) (x3 := e) (Nat.le_of_ble_eq_true rfl) (Nat.le_of_ble_eq_true rfl) (Nat.le_of_ble_eq_true rfl) (rfl : _ = wordNat (.vfneg d a p e))
  exact single rfl hb <| (major21 hm).trans <| (if_neg fun h => absurd (c1.symm.trans h) (Nat.ne_of_beq_eq_false rfl)).trans <| (if_neg fun h => absurd (c1.symm.trans h) (Nat.ne_of_beq_eq_false rfl)).trans <| (if_neg fun h => absurd (c1.symm.trans h) (Nat.ne_of_beq_eq_false rfl)).trans <| (if_neg fun h => absurd (c1.symm.trans h) (Nat.ne_of_beq_eq_false rfl)).trans <| (if_neg fun h => absurd (c1.symm.trans h) (Nat.ne_of_beq_eq_false rfl)).trans <| (if_neg fun h => absurd (c1.symm.trans h) (Nat.ne_of_beq_eq_false rfl)).trans <| (if_neg fun h => absurd (c1.symm.trans h) (Nat.ne_of_beq_eq_false rfl)).trans <| (if_neg fun h => absurd (c1.symm.trans h.2) (Nat.ne_of_beq_eq_false rfl)).trans <| (if_pos ⟨c0, c1⟩).trans <| by rw [f0, f1, f2, f3]
theorem vcmp (c a b : BitVec 5) (p : BitVec 3) (e : BitVec 2) : Statement (.vcmp c a b p e) := by
  obtain ⟨hb, hm, c0, f0, f1, f2, f3, f4⟩ := layout31 (m := 34) (c0 := 0) (x0 := c) (x1 := a) (x2 := b) (x3 := p) (x4 := e) (Nat.le_of_ble_eq_true rfl) (Nat.le_of_ble_eq_true rfl) (rfl : _ = wordNat (.vcmp c a b p e))
  exact single rfl hb <| (major22 hm).trans <| (if_pos c0).trans <| by rw [f0, f1, f2, f3, f4]
theorem vsel (d a b : BitVec 5) (p : BitVec 3) (e : BitVec 2) : Statement (.vsel d a b p e) := by
  obtain ⟨hb, hm, c0, f0, f1, f2, f3, f4⟩ := layout31 (m := 34) (c0 := 1) (x0 := d) (x1 := a) (x2 := b) (x3 := p) (x4 := e) (Nat.le_of_ble_eq_true rfl) (Nat.le_of_ble_eq_true rfl) (rfl : _ = wordNat (.vsel d a b p e))
  exact single rfl hb <| (major22 hm).trans <| (if_neg fun h => absurd (c0.symm.trans h) (Nat.ne_of_beq_eq_false rfl)).trans <| (if_pos c0).trans <| by rw [f0, f1, f2, f3, f4]
theorem pand (d a b : BitVec 3) : Statement (.pand d a b) := by
  obtain ⟨hb, hm, c0, c1, c2, c3, f0, f1, f2⟩ := layout33 (m := 34) (c0 := 0) (c1 := 0) (c2 := 0) (c3 := 2) (x0 := d) (x1 := a) (x2 := b) (Nat.le_of_ble_eq_true rfl) (Nat.le_of_ble_eq_true rfl) (Nat.le_of_ble_eq_true rfl) (Nat.le_of_ble_eq_true rfl) (Nat.le_of_ble_eq_true rfl) (rfl : _ = wordNat (.pand d a b))
  exact single rfl hb <| (major22 hm).trans <| (if_neg (by omega)).trans <| (if_neg (by omega)).trans <| (if_pos ⟨c0, c1, c2, c3⟩).trans <| by rw [f0, f1, f2]
theorem por (d a b : BitVec 3) : Statement (.por d a b) := by
  obtain ⟨hb, hm, c0, c1, c2, c3, f0, f1, f2⟩ := layout33 (m := 34) (c0 := 0) (c1 := 0) (c2 := 0) (c3 := 3) (x0 := d) (x1 := a) (x2 := b) (Nat.le_of_ble_eq_true rfl) (Nat.le_of_ble_eq_true rfl) (Nat.le_of_ble_eq_true rfl) (Nat.le_of_ble_eq_true rfl) (Nat.le_of_ble_eq_true rfl) (rfl : _ = wordNat (.por d a b))
  exact single rfl hb <| (major22 hm).trans <| (if_neg (by omega)).trans <| (if_neg (by omega)).trans <| (if_neg fun h => absurd (c3.symm.trans h.2.2.2) (Nat.ne_of_beq_eq_false rfl)).trans <| (if_pos ⟨c0, c1, c2, c3⟩).trans <| by rw [f0, f1, f2]
theorem pxor (d a b : BitVec 3) : Statement (.pxor d a b) := by
  obtain ⟨hb, hm, c0, c1, c2, c3, f0, f1, f2⟩ := layout33 (m := 34) (c0 := 0) (c1 := 0) (c2 := 0) (c3 := 4) (x0 := d) (x1 := a) (x2 := b) (Nat.le_of_ble_eq_true rfl) (Nat.le_of_ble_eq_true rfl) (Nat.le_of_ble_eq_true rfl) (Nat.le_of_ble_eq_true rfl) (Nat.le_of_ble_eq_true rfl) (rfl : _ = wordNat (.pxor d a b))
  exact single rfl hb <| (major22 hm).trans <| (if_neg (by omega)).trans <| (if_neg (by omega)).trans <| (if_neg fun h => absurd (c3.symm.trans h.2.2.2) (Nat.ne_of_beq_eq_false rfl)).trans <| (if_neg fun h => absurd (c3.symm.trans h.2.2.2) (Nat.ne_of_beq_eq_false rfl)).trans <| (if_pos ⟨c0, c1, c2, c3⟩).trans <| by rw [f0, f1, f2]
theorem pnot (d a : BitVec 3) : Statement (.pnot d a) := by
  obtain ⟨hb, hm, c0, c1, c2, f0, f1⟩ := layout34 (m := 34) (c0 := 0) (c1 := 0) (c2 := 5) (x0 := d) (x1 := a) (Nat.le_of_ble_eq_true rfl) (Nat.le_of_ble_eq_true rfl) (Nat.le_of_ble_eq_true rfl) (Nat.le_of_ble_eq_true rfl) (rfl : _ = wordNat (.pnot d a))
  exact single rfl hb <| (major22 hm).trans <| (if_neg (by omega)).trans <| (if_neg (by omega)).trans <| (if_neg (by omega)).trans <| (if_neg (by omega)).trans <| (if_neg (by omega)).trans <| (if_pos ⟨c0, c1, c2⟩).trans <| by rw [f0, f1]
theorem pmov (d a : BitVec 3) : Statement (.pmov d a) := by
  obtain ⟨hb, hm, c0, c1, c2, f0, f1⟩ := layout34 (m := 34) (c0 := 0) (c1 := 0) (c2 := 6) (x0 := d) (x1 := a) (Nat.le_of_ble_eq_true rfl) (Nat.le_of_ble_eq_true rfl) (Nat.le_of_ble_eq_true rfl) (Nat.le_of_ble_eq_true rfl) (rfl : _ = wordNat (.pmov d a))
  exact single rfl hb <| (major22 hm).trans <| (if_neg (by omega)).trans <| (if_neg (by omega)).trans <| (if_neg (by omega)).trans <| (if_neg (by omega)).trans <| (if_neg (by omega)).trans <| (if_neg fun h => absurd (c2.symm.trans h.2.2) (Nat.ne_of_beq_eq_false rfl)).trans <| (if_pos ⟨c0, c1, c2⟩).trans <| by rw [f0, f1]
theorem vperm (d a b : BitVec 5) (p : BitVec 3) (e : BitVec 2) : Statement (.vperm d a b p e) := by
  obtain ⟨hb, hm, c0, f0, f1, f2, f3, f4⟩ := layout31 (m := 35) (c0 := 0) (x0 := d) (x1 := a) (x2 := b) (x3 := p) (x4 := e) (Nat.le_of_ble_eq_true rfl) (Nat.le_of_ble_eq_true rfl) (rfl : _ = wordNat (.vperm d a b p e))
  exact single rfl hb <| (major23 hm).trans <| (if_pos c0).trans <| by rw [f0, f1, f2, f3, f4]
theorem vrsum (d a : BitVec 5) (p : BitVec 3) (e : BitVec 2) : Statement (.vrsum d a p e) := by
  obtain ⟨hb, hm, c0, c1, f0, f1, f2, f3⟩ := layout32 (m := 35) (c0 := 0) (c1 := 1) (x0 := d) (x1 := a) (x2 := p) (x3 := e) (Nat.le_of_ble_eq_true rfl) (Nat.le_of_ble_eq_true rfl) (Nat.le_of_ble_eq_true rfl) (rfl : _ = wordNat (.vrsum d a p e))
  exact single rfl hb <| (major23 hm).trans <| (if_neg fun h => absurd (c1.symm.trans h) (Nat.ne_of_beq_eq_false rfl)).trans <| (if_pos ⟨c0, c1⟩).trans <| by rw [f0, f1, f2, f3]
theorem vrmax (d a : BitVec 5) (p : BitVec 3) (e : BitVec 2) : Statement (.vrmax d a p e) := by
  obtain ⟨hb, hm, c0, c1, f0, f1, f2, f3⟩ := layout32 (m := 35) (c0 := 0) (c1 := 2) (x0 := d) (x1 := a) (x2 := p) (x3 := e) (Nat.le_of_ble_eq_true rfl) (Nat.le_of_ble_eq_true rfl) (Nat.le_of_ble_eq_true rfl) (rfl : _ = wordNat (.vrmax d a p e))
  exact single rfl hb <| (major23 hm).trans <| (if_neg fun h => absurd (c1.symm.trans h) (Nat.ne_of_beq_eq_false rfl)).trans <| (if_neg fun h => absurd (c1.symm.trans h.2) (Nat.ne_of_beq_eq_false rfl)).trans <| (if_pos ⟨c0, c1⟩).trans <| by rw [f0, f1, f2, f3]
theorem vrmin (d a : BitVec 5) (p : BitVec 3) (e : BitVec 2) : Statement (.vrmin d a p e) := by
  obtain ⟨hb, hm, c0, c1, f0, f1, f2, f3⟩ := layout32 (m := 35) (c0 := 0) (c1 := 3) (x0 := d) (x1 := a) (x2 := p) (x3 := e) (Nat.le_of_ble_eq_true rfl) (Nat.le_of_ble_eq_true rfl) (Nat.le_of_ble_eq_true rfl) (rfl : _ = wordNat (.vrmin d a p e))
  exact single rfl hb <| (major23 hm).trans <| (if_neg fun h => absurd (c1.symm.trans h) (Nat.ne_of_beq_eq_false rfl)).trans <| (if_neg fun h => absurd (c1.symm.trans h.2) (Nat.ne_of_beq_eq_false rfl)).trans <| (if_neg fun h => absurd (c1.symm.trans h.2) (Nat.ne_of_beq_eq_false rfl)).trans <| (if_pos ⟨c0, c1⟩).trans <| by rw [f0, f1, f2, f3]
theorem vscan (d a : BitVec 5) (p : BitVec 3) (e : BitVec 2) : Statement (.vscan d a p e) := by
  obtain ⟨hb, hm, c0, c1, f0, f1, f2, f3⟩ := layout32 (m := 35) (c0 := 0) (c1 := 4) (x0 := d) (x1 := a) (x2 := p) (x3 := e) (Nat.le_of_ble_eq_true rfl) (Nat.le_of_ble_eq_true rfl) (Nat.le_of_ble_eq_true rfl) (rfl : _ = wordNat (.vscan d a p e))
  exact single rfl hb <| (major23 hm).trans <| (if_neg fun h => absurd (c1.symm.trans h) (Nat.ne_of_beq_eq_false rfl)).trans <| (if_neg fun h => absurd (c1.symm.trans h.2) (Nat.ne_of_beq_eq_false rfl)).trans <| (if_neg fun h => absurd (c1.symm.trans h.2) (Nat.ne_of_beq_eq_false rfl)).trans <| (if_neg fun h => absurd (c1.symm.trans h.2) (Nat.ne_of_beq_eq_false rfl)).trans <| (if_pos ⟨c0, c1⟩).trans <| by rw [f0, f1, f2, f3]
theorem vsmm (d a b : BitVec 5) (p : BitVec 3) : Statement (.vsmm d a b p) := by
  obtain ⟨hb, hm, c0, f0, f1, f2, f3⟩ := layout35 (m := 35) (c0 := 133) (x0 := d) (x1 := a) (x2 := b) (x3 := p) (Nat.le_of_ble_eq_true rfl) (Nat.le_of_ble_eq_true rfl) (rfl : _ = wordNat (.vsmm d a b p))
  exact single rfl hb <| (major23 hm).trans <| (if_neg (by omega)).trans <| (if_neg (by omega)).trans <| (if_neg (by omega)).trans <| (if_neg (by omega)).trans <| (if_neg (by omega)).trans <| (if_pos c0).trans <| by rw [f0, f1, f2, f3]
theorem vld (v : BitVec 5) (p : BitVec 4) (x : BitVec 5) (q : BitVec 3) (w_ : BitVec 2) (i : BitVec 5) : Statement (.vld v p x q w_ i) := by
  obtain ⟨hb, hm, c0, f0, f1, f2, f3, f4, f5⟩ := layout36 (m := 36) (c0 := 0) (x0 := v) (x1 := p) (x2 := x) (x3 := q) (x4 := w_) (x5 := i) (Nat.le_of_ble_eq_true rfl) (Nat.le_of_ble_eq_true rfl) (rfl : _ = wordNat (.vld v p x q w_ i))
  exact single rfl hb <| (major24 hm).trans <| (if_pos c0).trans <| by rw [f0, f1, f2, f3, f4, f5]
theorem vst (v : BitVec 5) (p : BitVec 4) (x : BitVec 5) (q : BitVec 3) (w_ : BitVec 2) (i : BitVec 5) : Statement (.vst v p x q w_ i) := by
  obtain ⟨hb, hm, c0, f0, f1, f2, f3, f4, f5⟩ := layout36 (m := 36) (c0 := 1) (x0 := v) (x1 := p) (x2 := x) (x3 := q) (x4 := w_) (x5 := i) (Nat.le_of_ble_eq_true rfl) (Nat.le_of_ble_eq_true rfl) (rfl : _ = wordNat (.vst v p x q w_ i))
  exact single rfl hb <| (major24 hm).trans <| (if_neg fun h => absurd (c0.symm.trans h) (Nat.ne_of_beq_eq_false rfl)).trans <| (if_pos c0).trans <| by rw [f0, f1, f2, f3, f4, f5]
theorem vgth (v : BitVec 5) (p : BitVec 4) (x : BitVec 5) (q : BitVec 3) (w_ : BitVec 2) (i : BitVec 5) : Statement (.vgth v p x q w_ i) := by
  obtain ⟨hb, hm, c0, f0, f1, f2, f3, f4, f5⟩ := layout36 (m := 36) (c0 := 2) (x0 := v) (x1 := p) (x2 := x) (x3 := q) (x4 := w_) (x5 := i) (Nat.le_of_ble_eq_true rfl) (Nat.le_of_ble_eq_true rfl) (rfl : _ = wordNat (.vgth v p x q w_ i))
  exact single rfl hb <| (major24 hm).trans <| (if_neg fun h => absurd (c0.symm.trans h) (Nat.ne_of_beq_eq_false rfl)).trans <| (if_neg fun h => absurd (c0.symm.trans h) (Nat.ne_of_beq_eq_false rfl)).trans <| (if_pos c0).trans <| by rw [f0, f1, f2, f3, f4, f5]
theorem vsct (v : BitVec 5) (p : BitVec 4) (x : BitVec 5) (q : BitVec 3) (w_ : BitVec 2) (i : BitVec 5) : Statement (.vsct v p x q w_ i) := by
  obtain ⟨hb, hm, c0, f0, f1, f2, f3, f4, f5⟩ := layout36 (m := 36) (c0 := 3) (x0 := v) (x1 := p) (x2 := x) (x3 := q) (x4 := w_) (x5 := i) (Nat.le_of_ble_eq_true rfl) (Nat.le_of_ble_eq_true rfl) (rfl : _ = wordNat (.vsct v p x q w_ i))
  exact single rfl hb <| (major24 hm).trans <| (if_neg fun h => absurd (c0.symm.trans h) (Nat.ne_of_beq_eq_false rfl)).trans <| (if_neg fun h => absurd (c0.symm.trans h) (Nat.ne_of_beq_eq_false rfl)).trans <| (if_neg fun h => absurd (c0.symm.trans h) (Nat.ne_of_beq_eq_false rfl)).trans <| (if_pos c0).trans <| by rw [f0, f1, f2, f3, f4, f5]
theorem sbind (d : BitVec 5) (a : BitVec 4) (b : BitVec 5) : Statement (.sbind d a b) := by
  obtain ⟨hb, hm, c0, c1, f0, f1, f2⟩ := layout9 (m := 37) (c0 := 0) (c1 := 0) (x0 := d) (x1 := a) (x2 := b) (Nat.le_of_ble_eq_true rfl) (Nat.le_of_ble_eq_true rfl) (Nat.le_of_ble_eq_true rfl) (rfl : _ = wordNat (.sbind d a b))
  exact single rfl hb <| (major25 hm).trans <| (if_pos ⟨c0, c1⟩).trans <| by rw [f0, f1, f2]
theorem sbnd (d a b : BitVec 5) (j : BitVec 2) : Statement (.sbnd d a b j) := by
  obtain ⟨hb, hm, c0, c1, f0, f1, f2, f3⟩ := layout37 (m := 37) (c0 := 0) (c1 := 1) (x0 := d) (x1 := a) (x2 := b) (x3 := j) (Nat.le_of_ble_eq_true rfl) (Nat.le_of_ble_eq_true rfl) (Nat.le_of_ble_eq_true rfl) (rfl : _ = wordNat (.sbnd d a b j))
  exact single rfl hb <| (major25 hm).trans <| (if_neg (by omega)).trans <| (if_pos ⟨c0, c1⟩).trans <| by rw [f0, f1, f2, f3]
theorem sgo (d a : BitVec 5) : Statement (.sgo d a) := by
  obtain ⟨hb, hm, c0, f0, f1⟩ := layout1 (m := 37) (c0 := 2) (x0 := d) (x1 := a) (Nat.le_of_ble_eq_true rfl) (Nat.le_of_ble_eq_true rfl) (rfl : _ = wordNat (.sgo d a))
  exact single rfl hb <| (major25 hm).trans <| (if_neg (by omega)).trans <| (if_neg (by omega)).trans <| (if_pos c0).trans <| by rw [f0, f1]
theorem sstop (d a : BitVec 5) : Statement (.sstop d a) := by
  obtain ⟨hb, hm, c0, f0, f1⟩ := layout1 (m := 37) (c0 := 3) (x0 := d) (x1 := a) (Nat.le_of_ble_eq_true rfl) (Nat.le_of_ble_eq_true rfl) (rfl : _ = wordNat (.sstop d a))
  exact single rfl hb <| (major25 hm).trans <| (if_neg (by omega)).trans <| (if_neg (by omega)).trans <| (if_neg fun h => absurd (c0.symm.trans h) (Nat.ne_of_beq_eq_false rfl)).trans <| (if_pos c0).trans <| by rw [f0, f1]
theorem vexp (d a : BitVec 5) (p : BitVec 3) (e : BitVec 2) : Statement (.vexp d a p e) := by
  obtain ⟨hb, hm, c0, c1, f0, f1, f2, f3⟩ := layout32 (m := 38) (c0 := 0) (c1 := 0) (x0 := d) (x1 := a) (x2 := p) (x3 := e) (Nat.le_of_ble_eq_true rfl) (Nat.le_of_ble_eq_true rfl) (Nat.le_of_ble_eq_true rfl) (rfl : _ = wordNat (.vexp d a p e))
  exact single rfl hb <| (major26 hm).trans <| (if_pos ⟨c0, c1⟩).trans <| by rw [f0, f1, f2, f3]
theorem vlog (d a : BitVec 5) (p : BitVec 3) (e : BitVec 2) : Statement (.vlog d a p e) := by
  obtain ⟨hb, hm, c0, c1, f0, f1, f2, f3⟩ := layout32 (m := 38) (c0 := 0) (c1 := 1) (x0 := d) (x1 := a) (x2 := p) (x3 := e) (Nat.le_of_ble_eq_true rfl) (Nat.le_of_ble_eq_true rfl) (Nat.le_of_ble_eq_true rfl) (rfl : _ = wordNat (.vlog d a p e))
  exact single rfl hb <| (major26 hm).trans <| (if_neg fun h => absurd (c1.symm.trans h.2) (Nat.ne_of_beq_eq_false rfl)).trans <| (if_pos ⟨c0, c1⟩).trans <| by rw [f0, f1, f2, f3]
theorem vrcp (d a : BitVec 5) (p : BitVec 3) (e : BitVec 2) : Statement (.vrcp d a p e) := by
  obtain ⟨hb, hm, c0, c1, f0, f1, f2, f3⟩ := layout32 (m := 38) (c0 := 0) (c1 := 2) (x0 := d) (x1 := a) (x2 := p) (x3 := e) (Nat.le_of_ble_eq_true rfl) (Nat.le_of_ble_eq_true rfl) (Nat.le_of_ble_eq_true rfl) (rfl : _ = wordNat (.vrcp d a p e))
  exact single rfl hb <| (major26 hm).trans <| (if_neg fun h => absurd (c1.symm.trans h.2) (Nat.ne_of_beq_eq_false rfl)).trans <| (if_neg fun h => absurd (c1.symm.trans h.2) (Nat.ne_of_beq_eq_false rfl)).trans <| (if_pos ⟨c0, c1⟩).trans <| by rw [f0, f1, f2, f3]
theorem vrsqrt (d a : BitVec 5) (p : BitVec 3) (e : BitVec 2) : Statement (.vrsqrt d a p e) := by
  obtain ⟨hb, hm, c0, c1, f0, f1, f2, f3⟩ := layout32 (m := 38) (c0 := 0) (c1 := 3) (x0 := d) (x1 := a) (x2 := p) (x3 := e) (Nat.le_of_ble_eq_true rfl) (Nat.le_of_ble_eq_true rfl) (Nat.le_of_ble_eq_true rfl) (rfl : _ = wordNat (.vrsqrt d a p e))
  exact single rfl hb <| (major26 hm).trans <| (if_neg fun h => absurd (c1.symm.trans h.2) (Nat.ne_of_beq_eq_false rfl)).trans <| (if_neg fun h => absurd (c1.symm.trans h.2) (Nat.ne_of_beq_eq_false rfl)).trans <| (if_neg fun h => absurd (c1.symm.trans h.2) (Nat.ne_of_beq_eq_false rfl)).trans <| (if_pos ⟨c0, c1⟩).trans <| by rw [f0, f1, f2, f3]
theorem vtanh (d a : BitVec 5) (p : BitVec 3) (e : BitVec 2) : Statement (.vtanh d a p e) := by
  obtain ⟨hb, hm, c0, c1, f0, f1, f2, f3⟩ := layout32 (m := 38) (c0 := 0) (c1 := 4) (x0 := d) (x1 := a) (x2 := p) (x3 := e) (Nat.le_of_ble_eq_true rfl) (Nat.le_of_ble_eq_true rfl) (Nat.le_of_ble_eq_true rfl) (rfl : _ = wordNat (.vtanh d a p e))
  exact single rfl hb <| (major26 hm).trans <| (if_neg fun h => absurd (c1.symm.trans h.2) (Nat.ne_of_beq_eq_false rfl)).trans <| (if_neg fun h => absurd (c1.symm.trans h.2) (Nat.ne_of_beq_eq_false rfl)).trans <| (if_neg fun h => absurd (c1.symm.trans h.2) (Nat.ne_of_beq_eq_false rfl)).trans <| (if_neg fun h => absurd (c1.symm.trans h.2) (Nat.ne_of_beq_eq_false rfl)).trans <| (if_pos ⟨c0, c1⟩).trans <| by rw [f0, f1, f2, f3]
theorem vsin (d a : BitVec 5) (p : BitVec 3) (e : BitVec 2) : Statement (.vsin d a p e) := by
  obtain ⟨hb, hm, c0, c1, f0, f1, f2, f3⟩ := layout32 (m := 38) (c0 := 0) (c1 := 5) (x0 := d) (x1 := a) (x2 := p) (x3 := e) (Nat.le_of_ble_eq_true rfl) (Nat.le_of_ble_eq_true rfl) (Nat.le_of_ble_eq_true rfl) (rfl : _ = wordNat (.vsin d a p e))
  exact single rfl hb <| (major26 hm).trans <| (if_neg fun h => absurd (c1.symm.trans h.2) (Nat.ne_of_beq_eq_false rfl)).trans <| (if_neg fun h => absurd (c1.symm.trans h.2) (Nat.ne_of_beq_eq_false rfl)).trans <| (if_neg fun h => absurd (c1.symm.trans h.2) (Nat.ne_of_beq_eq_false rfl)).trans <| (if_neg fun h => absurd (c1.symm.trans h.2) (Nat.ne_of_beq_eq_false rfl)).trans <| (if_neg fun h => absurd (c1.symm.trans h.2) (Nat.ne_of_beq_eq_false rfl)).trans <| (if_pos ⟨c0, c1⟩).trans <| by rw [f0, f1, f2, f3]
theorem vgrant (d a : BitVec 5) (p : BitVec 3) (w_ : BitVec 2) : Statement (.vgrant d a p w_) := by
  obtain ⟨hb, hm, c0, c1, c2, f0, f1, f2, f3⟩ := layout38 (m := 39) (c0 := 0) (c1 := 0) (c2 := 0) (x0 := d) (x1 := a) (x2 := p) (x3 := w_) (Nat.le_of_ble_eq_true rfl) (Nat.le_of_ble_eq_true rfl) (Nat.le_of_ble_eq_true rfl) (Nat.le_of_ble_eq_true rfl) (rfl : _ = wordNat (.vgrant d a p w_))
  exact single rfl hb <| (major27 hm).trans <| (if_pos ⟨c0, c1, c2⟩).trans <| by rw [f0, f1, f2, f3]
theorem vgrantStream (d a : BitVec 5) (p : BitVec 3) : Statement (.vgrantStream d a p) := by
  obtain ⟨hb, hm, c0, c1, f0, f1, f2⟩ := layout39 (m := 39) (c0 := 0) (c1 := 256) (x0 := d) (x1 := a) (x2 := p) (Nat.le_of_ble_eq_true rfl) (Nat.le_of_ble_eq_true rfl) (Nat.le_of_ble_eq_true rfl) (rfl : _ = wordNat (.vgrantStream d a p))
  exact single rfl hb <| (major27 hm).trans <| (if_neg (by omega)).trans <| (if_pos ⟨c0, c1⟩).trans <| by rw [f0, f1, f2]
theorem cvt (d a b : BitVec 5) (p : BitVec 3) (e : BitVec 2) : Statement (.cvt d a b p e) := by
  obtain ⟨hb, hm, c0, f0, f1, f2, f3, f4⟩ := layout31 (m := 40) (c0 := 0) (x0 := d) (x1 := a) (x2 := b) (x3 := p) (x4 := e) (Nat.le_of_ble_eq_true rfl) (Nat.le_of_ble_eq_true rfl) (rfl : _ = wordNat (.cvt d a b p e))
  exact single rfl hb <| (major28 hm).trans <| (if_pos c0).trans <| by rw [f0, f1, f2, f3, f4]
theorem dec (d a b : BitVec 5) (p : BitVec 3) (t : BitVec 2) : Statement (.dec d a b p t) := by
  obtain ⟨hb, hm, c0, f0, f1, f2, f3, f4⟩ := layout31 (m := 40) (c0 := 1) (x0 := d) (x1 := a) (x2 := b) (x3 := p) (x4 := t) (Nat.le_of_ble_eq_true rfl) (Nat.le_of_ble_eq_true rfl) (rfl : _ = wordNat (.dec d a b p t))
  exact single rfl hb <| (major28 hm).trans <| (if_neg fun h => absurd (c0.symm.trans h) (Nat.ne_of_beq_eq_false rfl)).trans <| (if_pos c0).trans <| by rw [f0, f1, f2, f3, f4]
theorem enc (d a b : BitVec 5) (p : BitVec 3) (t : BitVec 2) : Statement (.enc d a b p t) := by
  obtain ⟨hb, hm, c0, f0, f1, f2, f3, f4⟩ := layout31 (m := 40) (c0 := 2) (x0 := d) (x1 := a) (x2 := b) (x3 := p) (x4 := t) (Nat.le_of_ble_eq_true rfl) (Nat.le_of_ble_eq_true rfl) (rfl : _ = wordNat (.enc d a b p t))
  exact single rfl hb <| (major28 hm).trans <| (if_neg fun h => absurd (c0.symm.trans h) (Nat.ne_of_beq_eq_false rfl)).trans <| (if_neg fun h => absurd (c0.symm.trans h) (Nat.ne_of_beq_eq_false rfl)).trans <| (if_pos c0).trans <| by rw [f0, f1, f2, f3, f4]
theorem bscale (d a b : BitVec 5) (p : BitVec 3) : Statement (.bscale d a b p) := by
  obtain ⟨hb, hm, c0, f0, f1, f2, f3⟩ := layout35 (m := 40) (c0 := 3) (x0 := d) (x1 := a) (x2 := b) (x3 := p) (Nat.le_of_ble_eq_true rfl) (Nat.le_of_ble_eq_true rfl) (rfl : _ = wordNat (.bscale d a b p))
  exact single rfl hb <| (major28 hm).trans <| (if_neg (by omega)).trans <| (if_neg (by omega)).trans <| (if_neg (by omega)).trans <| (if_pos c0).trans <| by rw [f0, f1, f2, f3]
theorem dtld (d : BitVec 5) (a : BitVec 4) (b : BitVec 5) : Statement (.dtld d a b) := by
  obtain ⟨hb, hm, c0, c1, f0, f1, f2⟩ := layout9 (m := 41) (c0 := 0) (c1 := 0) (x0 := d) (x1 := a) (x2 := b) (Nat.le_of_ble_eq_true rfl) (Nat.le_of_ble_eq_true rfl) (Nat.le_of_ble_eq_true rfl) (rfl : _ = wordNat (.dtld d a b))
  exact single rfl hb <| (major29 hm).trans <| (if_pos ⟨c0, c1⟩).trans <| by rw [f0, f1, f2]
theorem srseed (d a : BitVec 5) : Statement (.srseed d a) := by
  obtain ⟨hb, hm, c0, f0, f1⟩ := layout1 (m := 41) (c0 := 1) (x0 := d) (x1 := a) (Nat.le_of_ble_eq_true rfl) (Nat.le_of_ble_eq_true rfl) (rfl : _ = wordNat (.srseed d a))
  exact single rfl hb <| (major29 hm).trans <| (if_neg (by omega)).trans <| (if_pos c0).trans <| by rw [f0, f1]
theorem fclass (d a : BitVec 5) (f : BitVec 3) : Statement (.fclass d a f) := by
  obtain ⟨hb, hm, c0, c1, f0, f1, f2⟩ := layout8 (m := 41) (c0 := 0) (c1 := 2) (x0 := d) (x1 := a) (x2 := f) (Nat.le_of_ble_eq_true rfl) (Nat.le_of_ble_eq_true rfl) (Nat.le_of_ble_eq_true rfl) (rfl : _ = wordNat (.fclass d a f))
  exact single rfl hb <| (major29 hm).trans <| (if_neg (by omega)).trans <| (if_neg (by omega)).trans <| (if_pos ⟨c0, c1⟩).trans <| by rw [f0, f1, f2]
theorem kld (d : BitVec 2) (a : BitVec 4) (b : BitVec 5) : Statement (.kld d a b) := by
  obtain ⟨hb, hm, c0, c1, c2, f0, f1, f2⟩ := layout40 (m := 42) (c0 := 0) (c1 := 0) (c2 := 0) (x0 := d) (x1 := a) (x2 := b) (Nat.le_of_ble_eq_true rfl) (Nat.le_of_ble_eq_true rfl) (Nat.le_of_ble_eq_true rfl) (Nat.le_of_ble_eq_true rfl) (rfl : _ = wordNat (.kld d a b))
  exact single rfl hb <| (major2A hm).trans <| (if_pos ⟨c0, c1, c2⟩).trans <| by rw [f0, f1, f2]
theorem kst (d : BitVec 2) (a : BitVec 4) (b : BitVec 5) : Statement (.kst d a b) := by
  obtain ⟨hb, hm, c0, c1, c2, f0, f1, f2⟩ := layout40 (m := 42) (c0 := 0) (c1 := 0) (c2 := 1) (x0 := d) (x1 := a) (x2 := b) (Nat.le_of_ble_eq_true rfl) (Nat.le_of_ble_eq_true rfl) (Nat.le_of_ble_eq_true rfl) (Nat.le_of_ble_eq_true rfl) (rfl : _ = wordNat (.kst d a b))
  exact single rfl hb <| (major2A hm).trans <| (if_neg fun h => absurd (c2.symm.trans h.2.2) (Nat.ne_of_beq_eq_false rfl)).trans <| (if_pos ⟨c0, c1, c2⟩).trans <| by rw [f0, f1, f2]
theorem kset (d : BitVec 2) (a : BitVec 5) (q : BitVec 2) : Statement (.kset d a q) := by
  obtain ⟨hb, hm, c0, c1, c2, f0, f1, f2⟩ := layout41 (m := 42) (c0 := 0) (c1 := 0) (c2 := 2) (x0 := d) (x1 := a) (x2 := q) (Nat.le_of_ble_eq_true rfl) (Nat.le_of_ble_eq_true rfl) (Nat.le_of_ble_eq_true rfl) (Nat.le_of_ble_eq_true rfl) (rfl : _ = wordNat (.kset d a q))
  exact single rfl hb <| (major2A hm).trans <| (if_neg (by omega)).trans <| (if_neg (by omega)).trans <| (if_pos ⟨c0, c1, c2⟩).trans <| by rw [f0, f1, f2]
theorem ksetPointer (d : BitVec 2) (a : BitVec 4) (q : BitVec 2) : Statement (.ksetPointer d a q) := by
  obtain ⟨hb, hm, c0, c1, c2, c3, f0, f1, f2⟩ := layout42 (m := 42) (c0 := 0) (c1 := 0) (c2 := 1) (c3 := 2) (x0 := d) (x1 := a) (x2 := q) (Nat.le_of_ble_eq_true rfl) (Nat.le_of_ble_eq_true rfl) (Nat.le_of_ble_eq_true rfl) (Nat.le_of_ble_eq_true rfl) (Nat.le_of_ble_eq_true rfl) (rfl : _ = wordNat (.ksetPointer d a q))
  exact single rfl hb <| (major2A hm).trans <| (if_neg (by omega)).trans <| (if_neg (by omega)).trans <| (if_neg fun h => absurd (c2.symm.trans h.2.1) (Nat.ne_of_beq_eq_false rfl)).trans <| (if_pos ⟨c0, c1, c2, c3⟩).trans <| by rw [f0, f1, f2]
theorem wpush (d : BitVec 5) (k : BitVec 2) : Statement (.wpush d k) := by
  obtain ⟨hb, hm, c0, c1, f0, f1⟩ := layout43 (m := 43) (c0 := 0) (c1 := 0) (x0 := d) (x1 := k) (Nat.le_of_ble_eq_true rfl) (Nat.le_of_ble_eq_true rfl) (Nat.le_of_ble_eq_true rfl) (rfl : _ = wordNat (.wpush d k))
  exact single rfl hb <| (major2B hm).trans <| (if_pos ⟨c0, c1⟩).trans <| by rw [f0, f1]
theorem wcommit (d : BitVec 5) : Statement (.wcommit d) := by
  obtain ⟨hb, hm, c0, f0⟩ := layout27 (m := 43) (c0 := 1) (x0 := d) (Nat.le_of_ble_eq_true rfl) (Nat.le_of_ble_eq_true rfl) (rfl : _ = wordNat (.wcommit d))
  exact single rfl hb <| (major2B hm).trans <| (if_neg (by omega)).trans <| (if_pos c0).trans <| by rw [f0]
theorem wwait (d a : BitVec 5) : Statement (.wwait d a) := by
  obtain ⟨hb, hm, c0, f0, f1⟩ := layout1 (m := 43) (c0 := 2) (x0 := d) (x1 := a) (Nat.le_of_ble_eq_true rfl) (Nat.le_of_ble_eq_true rfl) (rfl : _ = wordNat (.wwait d a))
  exact single rfl hb <| (major2B hm).trans <| (if_neg fun h => absurd (c0.symm.trans h.2) (Nat.ne_of_beq_eq_false rfl)).trans <| (if_neg (by omega)).trans <| (if_pos c0).trans <| by rw [f0, f1]
theorem wrd (d : BitVec 5) (a : BitVec 4) (b : BitVec 5) : Statement (.wrd d a b) := by
  obtain ⟨hb, hm, c0, c1, f0, f1, f2⟩ := layout9 (m := 43) (c0 := 0) (c1 := 3) (x0 := d) (x1 := a) (x2 := b) (Nat.le_of_ble_eq_true rfl) (Nat.le_of_ble_eq_true rfl) (Nat.le_of_ble_eq_true rfl) (rfl : _ = wordNat (.wrd d a b))
  exact single rfl hb <| (major2B hm).trans <| (if_neg (by omega)).trans <| (if_neg (by omega)).trans <| (if_neg (by omega)).trans <| (if_pos ⟨c0, c1⟩).trans <| by rw [f0, f1, f2]
theorem wrdRow (d : BitVec 5) (a : BitVec 4) (b : BitVec 5) : Statement (.wrdRow d a b) := by
  obtain ⟨hb, hm, c0, c1, f0, f1, f2⟩ := layout9 (m := 43) (c0 := 0) (c1 := 67) (x0 := d) (x1 := a) (x2 := b) (Nat.le_of_ble_eq_true rfl) (Nat.le_of_ble_eq_true rfl) (Nat.le_of_ble_eq_true rfl) (rfl : _ = wordNat (.wrdRow d a b))
  exact single rfl hb <| (major2B hm).trans <| (if_neg (by omega)).trans <| (if_neg (by omega)).trans <| (if_neg (by omega)).trans <| (if_neg fun h => absurd (c1.symm.trans h.2) (Nat.ne_of_beq_eq_false rfl)).trans <| (if_pos ⟨c0, c1⟩).trans <| by rw [f0, f1, f2]
theorem wwr (d : BitVec 4) (a b : BitVec 5) : Statement (.wwr d a b) := by
  obtain ⟨hb, hm, c0, c1, f0, f1, f2⟩ := layout15 (m := 43) (c0 := 0) (c1 := 4) (x0 := d) (x1 := a) (x2 := b) (Nat.le_of_ble_eq_true rfl) (Nat.le_of_ble_eq_true rfl) (Nat.le_of_ble_eq_true rfl) (rfl : _ = wordNat (.wwr d a b))
  exact single rfl hb <| (major2B hm).trans <| (if_neg (by omega)).trans <| (if_neg (by omega)).trans <| (if_neg (by omega)).trans <| (if_neg fun h => absurd (c1.symm.trans h.2) (Nat.ne_of_beq_eq_false rfl)).trans <| (if_neg fun h => absurd (c1.symm.trans h.2) (Nat.ne_of_beq_eq_false rfl)).trans <| (if_pos ⟨c0, c1⟩).trans <| by rw [f0, f1, f2]
theorem wwrRow (d : BitVec 4) (a b : BitVec 5) : Statement (.wwrRow d a b) := by
  obtain ⟨hb, hm, c0, c1, f0, f1, f2⟩ := layout15 (m := 43) (c0 := 0) (c1 := 68) (x0 := d) (x1 := a) (x2 := b) (Nat.le_of_ble_eq_true rfl) (Nat.le_of_ble_eq_true rfl) (Nat.le_of_ble_eq_true rfl) (rfl : _ = wordNat (.wwrRow d a b))
  exact single rfl hb <| (major2B hm).trans <| (if_neg (by omega)).trans <| (if_neg (by omega)).trans <| (if_neg (by omega)).trans <| (if_neg fun h => absurd (c1.symm.trans h.2) (Nat.ne_of_beq_eq_false rfl)).trans <| (if_neg fun h => absurd (c1.symm.trans h.2) (Nat.ne_of_beq_eq_false rfl)).trans <| (if_neg fun h => absurd (c1.symm.trans h.2) (Nat.ne_of_beq_eq_false rfl)).trans <| (if_pos ⟨c0, c1⟩).trans <| by rw [f0, f1, f2]
theorem wzero (a : BitVec 5) : Statement (.wzero a) := by
  obtain ⟨hb, hm, c0, c1, f0⟩ := layout25 (m := 43) (c0 := 0) (c1 := 5) (x0 := a) (Nat.le_of_ble_eq_true rfl) (Nat.le_of_ble_eq_true rfl) (Nat.le_of_ble_eq_true rfl) (rfl : _ = wordNat (.wzero a))
  exact single rfl hb <| (major2B hm).trans <| (if_neg fun h => absurd (c1.symm.trans h.2) (Nat.ne_of_beq_eq_false rfl)).trans <| (if_neg (by omega)).trans <| (if_neg fun h => absurd (c1.symm.trans h) (Nat.ne_of_beq_eq_false rfl)).trans <| (if_neg (by omega)).trans <| (if_neg (by omega)).trans <| (if_neg (by omega)).trans <| (if_neg (by omega)).trans <| (if_pos ⟨c0, c1⟩).trans <| by rw [f0]
theorem wres (d a : BitVec 5) : Statement (.wres d a) := by
  obtain ⟨hb, hm, c0, f0, f1⟩ := layout1 (m := 43) (c0 := 6) (x0 := d) (x1 := a) (Nat.le_of_ble_eq_true rfl) (Nat.le_of_ble_eq_true rfl) (rfl : _ = wordNat (.wres d a))
  exact single rfl hb <| (major2B hm).trans <| (if_neg fun h => absurd (c0.symm.trans h.2) (Nat.ne_of_beq_eq_false rfl)).trans <| (if_neg (by omega)).trans <| (if_neg fun h => absurd (c0.symm.trans h) (Nat.ne_of_beq_eq_false rfl)).trans <| (if_neg (by omega)).trans <| (if_neg (by omega)).trans <| (if_neg (by omega)).trans <| (if_neg (by omega)).trans <| (if_neg fun h => absurd (c0.symm.trans h.2) (Nat.ne_of_beq_eq_false rfl)).trans <| (if_pos c0).trans <| by rw [f0, f1]
theorem wstat (d a : BitVec 5) : Statement (.wstat d a) := by
  obtain ⟨hb, hm, c0, f0, f1⟩ := layout1 (m := 43) (c0 := 7) (x0 := d) (x1 := a) (Nat.le_of_ble_eq_true rfl) (Nat.le_of_ble_eq_true rfl) (rfl : _ = wordNat (.wstat d a))
  exact single rfl hb <| (major2B hm).trans <| (if_neg fun h => absurd (c0.symm.trans h.2) (Nat.ne_of_beq_eq_false rfl)).trans <| (if_neg (by omega)).trans <| (if_neg fun h => absurd (c0.symm.trans h) (Nat.ne_of_beq_eq_false rfl)).trans <| (if_neg (by omega)).trans <| (if_neg (by omega)).trans <| (if_neg (by omega)).trans <| (if_neg (by omega)).trans <| (if_neg fun h => absurd (c0.symm.trans h.2) (Nat.ne_of_beq_eq_false rfl)).trans <| (if_neg fun h => absurd (c0.symm.trans h) (Nat.ne_of_beq_eq_false rfl)).trans <| (if_pos c0).trans <| by rw [f0, f1]
theorem pack (d : BitVec 3) (a b : BitVec 5) (t : BitVec 3) : Statement (.pack d a b t) := by
  obtain ⟨hb, hm, c0, c1, c2, f0, f1, f2, f3⟩ := layout44 (m := 44) (c0 := 0) (c1 := 0) (c2 := 0) (x0 := d) (x1 := a) (x2 := b) (x3 := t) (Nat.le_of_ble_eq_true rfl) (Nat.le_of_ble_eq_true rfl) (Nat.le_of_ble_eq_true rfl) (Nat.le_of_ble_eq_true rfl) (rfl : _ = wordNat (.pack d a b t))
  exact single rfl hb <| (major2C hm).trans <| (if_pos ⟨c0, c1, c2⟩).trans <| by rw [f0, f1, f2, f3]
theorem gwid (d a : BitVec 3) (b : BitVec 5) : Statement (.gwid d a b) := by
  obtain ⟨hb, hm, c0, c1, c2, f0, f1, f2⟩ := layout45 (m := 44) (c0 := 0) (c1 := 0) (c2 := 1) (x0 := d) (x1 := a) (x2 := b) (Nat.le_of_ble_eq_true rfl) (Nat.le_of_ble_eq_true rfl) (Nat.le_of_ble_eq_true rfl) (Nat.le_of_ble_eq_true rfl) (rfl : _ = wordNat (.gwid d a b))
  exact single rfl hb <| (major2C hm).trans <| (if_neg (by omega)).trans <| (if_pos ⟨c0, c1, c2⟩).trans <| by rw [f0, f1, f2]
theorem wmulp (d a b : BitVec 3) : Statement (.wmulp d a b) := by
  obtain ⟨hb, hm, c0, c1, c2, c3, f0, f1, f2⟩ := layout33 (m := 44) (c0 := 0) (c1 := 0) (c2 := 0) (c3 := 2) (x0 := d) (x1 := a) (x2 := b) (Nat.le_of_ble_eq_true rfl) (Nat.le_of_ble_eq_true rfl) (Nat.le_of_ble_eq_true rfl) (Nat.le_of_ble_eq_true rfl) (Nat.le_of_ble_eq_true rfl) (rfl : _ = wordNat (.wmulp d a b))
  exact single rfl hb <| (major2C hm).trans <| (if_neg (by omega)).trans <| (if_neg fun h => absurd (c3.symm.trans h.2.2) (Nat.ne_of_beq_eq_false rfl)).trans <| (if_pos ⟨c0, c1, c2, c3⟩).trans <| by rw [f0, f1, f2]
theorem wmacp (d a b : BitVec 3) : Statement (.wmacp d a b) := by
  obtain ⟨hb, hm, c0, c1, c2, c3, f0, f1, f2⟩ := layout33 (m := 44) (c0 := 0) (c1 := 0) (c2 := 0) (c3 := 3) (x0 := d) (x1 := a) (x2 := b) (Nat.le_of_ble_eq_true rfl) (Nat.le_of_ble_eq_true rfl) (Nat.le_of_ble_eq_true rfl) (Nat.le_of_ble_eq_true rfl) (Nat.le_of_ble_eq_true rfl) (rfl : _ = wordNat (.wmacp d a b))
  exact single rfl hb <| (major2C hm).trans <| (if_neg (by omega)).trans <| (if_neg fun h => absurd (c3.symm.trans h.2.2) (Nat.ne_of_beq_eq_false rfl)).trans <| (if_neg fun h => absurd (c3.symm.trans h.2.2.2) (Nat.ne_of_beq_eq_false rfl)).trans <| (if_pos ⟨c0, c1, c2, c3⟩).trans <| by rw [f0, f1, f2]
theorem extr (d : BitVec 5) (a : BitVec 3) (b : BitVec 5) (l : BitVec 2) : Statement (.extr d a b l) := by
  obtain ⟨hb, hm, c0, c1, c2, f0, f1, f2, f3⟩ := layout46 (m := 44) (c0 := 0) (c1 := 0) (c2 := 4) (x0 := d) (x1 := a) (x2 := b) (x3 := l) (Nat.le_of_ble_eq_true rfl) (Nat.le_of_ble_eq_true rfl) (Nat.le_of_ble_eq_true rfl) (Nat.le_of_ble_eq_true rfl) (rfl : _ = wordNat (.extr d a b l))
  exact single rfl hb <| (major2C hm).trans <| (if_neg fun h => absurd (c2.symm.trans h.2.2) (Nat.ne_of_beq_eq_false rfl)).trans <| (if_neg (by omega)).trans <| (if_neg (by omega)).trans <| (if_neg (by omega)).trans <| (if_pos ⟨c0, c1, c2⟩).trans <| by rw [f0, f1, f2, f3]
theorem cpush (d : BitVec 5) (k : BitVec 2) : Statement (.cpush d k) := by
  obtain ⟨hb, hm, c0, c1, f0, f1⟩ := layout43 (m := 46) (c0 := 0) (c1 := 0) (x0 := d) (x1 := k) (Nat.le_of_ble_eq_true rfl) (Nat.le_of_ble_eq_true rfl) (Nat.le_of_ble_eq_true rfl) (rfl : _ = wordNat (.cpush d k))
  exact single rfl hb <| (major2E hm).trans <| (if_pos ⟨c0, c1⟩).trans <| by rw [f0, f1]
theorem cpwait (d a : BitVec 5) : Statement (.cpwait d a) := by
  obtain ⟨hb, hm, c0, f0, f1⟩ := layout1 (m := 46) (c0 := 1) (x0 := d) (x1 := a) (Nat.le_of_ble_eq_true rfl) (Nat.le_of_ble_eq_true rfl) (rfl : _ = wordNat (.cpwait d a))
  exact single rfl hb <| (major2E hm).trans <| (if_neg fun h => absurd (c0.symm.trans h.2) (Nat.ne_of_beq_eq_false rfl)).trans <| (if_pos c0).trans <| by rw [f0, f1]
theorem cpstat (d a : BitVec 5) : Statement (.cpstat d a) := by
  obtain ⟨hb, hm, c0, f0, f1⟩ := layout1 (m := 46) (c0 := 2) (x0 := d) (x1 := a) (Nat.le_of_ble_eq_true rfl) (Nat.le_of_ble_eq_true rfl) (rfl : _ = wordNat (.cpstat d a))
  exact single rfl hb <| (major2E hm).trans <| (if_neg fun h => absurd (c0.symm.trans h.2) (Nat.ne_of_beq_eq_false rfl)).trans <| (if_neg fun h => absurd (c0.symm.trans h) (Nat.ne_of_beq_eq_false rfl)).trans <| (if_pos c0).trans <| by rw [f0, f1]
theorem cppage (d : BitVec 5) (a : BitVec 4) (b : BitVec 5) : Statement (.cppage d a b) := by
  obtain ⟨hb, hm, c0, c1, f0, f1, f2⟩ := layout9 (m := 46) (c0 := 0) (c1 := 3) (x0 := d) (x1 := a) (x2 := b) (Nat.le_of_ble_eq_true rfl) (Nat.le_of_ble_eq_true rfl) (Nat.le_of_ble_eq_true rfl) (rfl : _ = wordNat (.cppage d a b))
  exact single rfl hb <| (major2E hm).trans <| (if_neg (by omega)).trans <| (if_neg (by omega)).trans <| (if_neg (by omega)).trans <| (if_pos ⟨c0, c1⟩).trans <| by rw [f0, f1, f2]
theorem cppageRec (d : BitVec 5) (a : BitVec 4) (b : BitVec 5) : Statement (.cppageRec d a b) := by
  obtain ⟨hb, hm, c0, c1, f0, f1, f2⟩ := layout9 (m := 46) (c0 := 0) (c1 := 67) (x0 := d) (x1 := a) (x2 := b) (Nat.le_of_ble_eq_true rfl) (Nat.le_of_ble_eq_true rfl) (Nat.le_of_ble_eq_true rfl) (rfl : _ = wordNat (.cppageRec d a b))
  exact single rfl hb <| (major2E hm).trans <| (if_neg (by omega)).trans <| (if_neg (by omega)).trans <| (if_neg (by omega)).trans <| (if_neg fun h => absurd (c1.symm.trans h.2) (Nat.ne_of_beq_eq_false rfl)).trans <| (if_pos ⟨c0, c1⟩).trans <| by rw [f0, f1, f2]
theorem msend (a b c : BitVec 5) : Statement (.msend a b c) := by
  obtain ⟨hb, hm, c0, c1, f0, f1, f2⟩ := layout47 (m := 47) (c0 := 0) (c1 := 0) (x0 := a) (x1 := b) (x2 := c) (Nat.le_of_ble_eq_true rfl) (Nat.le_of_ble_eq_true rfl) (Nat.le_of_ble_eq_true rfl) (rfl : _ = wordNat (.msend a b c))
  exact single rfl hb <| (major2F hm).trans <| (if_pos ⟨c0, c1⟩).trans <| by rw [f0, f1, f2]
theorem mrecv (d a : BitVec 5) : Statement (.mrecv d a) := by
  obtain ⟨hb, hm, c0, f0, f1⟩ := layout1 (m := 47) (c0 := 1) (x0 := d) (x1 := a) (Nat.le_of_ble_eq_true rfl) (Nat.le_of_ble_eq_true rfl) (rfl : _ = wordNat (.mrecv d a))
  exact single rfl hb <| (major2F hm).trans <| (if_neg (by omega)).trans <| (if_pos c0).trans <| by rw [f0, f1]
theorem mcast (a b c : BitVec 5) : Statement (.mcast a b c) := by
  obtain ⟨hb, hm, c0, c1, f0, f1, f2⟩ := layout47 (m := 47) (c0 := 0) (c1 := 2) (x0 := a) (x1 := b) (x2 := c) (Nat.le_of_ble_eq_true rfl) (Nat.le_of_ble_eq_true rfl) (Nat.le_of_ble_eq_true rfl) (rfl : _ = wordNat (.mcast a b c))
  exact single rfl hb <| (major2F hm).trans <| (if_neg fun h => absurd (c1.symm.trans h.2) (Nat.ne_of_beq_eq_false rfl)).trans <| (if_neg (by omega)).trans <| (if_pos ⟨c0, c1⟩).trans <| by rw [f0, f1, f2]
theorem mpoll (d : BitVec 5) (s : BitVec 1) : Statement (.mpoll d s) := by
  obtain ⟨hb, hm, c0, c1, f0, f1⟩ := layout48 (m := 47) (c0 := 0) (c1 := 3) (x0 := d) (x1 := s) (Nat.le_of_ble_eq_true rfl) (Nat.le_of_ble_eq_true rfl) (Nat.le_of_ble_eq_true rfl) (rfl : _ = wordNat (.mpoll d s))
  exact single rfl hb <| (major2F hm).trans <| (if_neg fun h => absurd (c1.symm.trans h.2) (Nat.ne_of_beq_eq_false rfl)).trans <| (if_neg (by omega)).trans <| (if_neg fun h => absurd (c1.symm.trans h.2) (Nat.ne_of_beq_eq_false rfl)).trans <| (if_pos ⟨c0, c1⟩).trans <| by rw [f0, f1]
theorem xput (a : BitVec 5) (b : BitVec 4) (c : BitVec 5) : Statement (.xput a b c) := by
  obtain ⟨hb, hm, c0, c1, c2, f0, f1, f2⟩ := layout49 (m := 47) (c0 := 0) (c1 := 0) (c2 := 4) (x0 := a) (x1 := b) (x2 := c) (Nat.le_of_ble_eq_true rfl) (Nat.le_of_ble_eq_true rfl) (Nat.le_of_ble_eq_true rfl) (Nat.le_of_ble_eq_true rfl) (rfl : _ = wordNat (.xput a b c))
  exact single rfl hb <| (major2F hm).trans <| (if_neg fun h => absurd (c2.symm.trans h.2) (Nat.ne_of_beq_eq_false rfl)).trans <| (if_neg (by omega)).trans <| (if_neg fun h => absurd (c2.symm.trans h.2) (Nat.ne_of_beq_eq_false rfl)).trans <| (if_neg fun h => absurd (c2.symm.trans h.2) (Nat.ne_of_beq_eq_false rfl)).trans <| (if_pos ⟨c0, c1, c2⟩).trans <| by rw [f0, f1, f2]
theorem putPerformed (k : Nat) : Statement (.putPerformed k) := wordless rfl
theorem messageDelivery (k : Nat) : Statement (.messageDelivery k) := wordless rfl
theorem messageRefusalTimeout (k : Nat) : Statement (.messageRefusalTimeout k) := wordless rfl
theorem kvlk (d a : BitVec 5) : Statement (.kvlk d a) := by
  obtain ⟨hb, hm, c0, f0, f1⟩ := layout1 (m := 48) (c0 := 0) (x0 := d) (x1 := a) (Nat.le_of_ble_eq_true rfl) (Nat.le_of_ble_eq_true rfl) (rfl : _ = wordNat (.kvlk d a))
  exact single rfl hb <| (major30 hm).trans <| (if_pos c0).trans <| by rw [f0, f1]
theorem kvfill (d a b : BitVec 5) : Statement (.kvfill d a b) := by
  obtain ⟨hb, hm, c0, f0, f1, f2⟩ := layout0 (m := 48) (c0 := 1) (x0 := d) (x1 := a) (x2 := b) (Nat.le_of_ble_eq_true rfl) (Nat.le_of_ble_eq_true rfl) (rfl : _ = wordNat (.kvfill d a b))
  exact single rfl hb <| (major30 hm).trans <| (if_neg (by omega)).trans <| (if_pos c0).trans <| by rw [f0, f1, f2]
theorem kvinv (d a : BitVec 5) : Statement (.kvinv d a) := by
  obtain ⟨hb, hm, c0, f0, f1⟩ := layout1 (m := 48) (c0 := 2) (x0 := d) (x1 := a) (Nat.le_of_ble_eq_true rfl) (Nat.le_of_ble_eq_true rfl) (rfl : _ = wordNat (.kvinv d a))
  exact single rfl hb <| (major30 hm).trans <| (if_neg fun h => absurd (c0.symm.trans h) (Nat.ne_of_beq_eq_false rfl)).trans <| (if_neg (by omega)).trans <| (if_pos c0).trans <| by rw [f0, f1]
theorem kvinvAll (d : BitVec 5) : Statement (.kvinvAll d) := by
  obtain ⟨hb, hm, c0, f0⟩ := layout27 (m := 48) (c0 := 66) (x0 := d) (Nat.le_of_ble_eq_true rfl) (Nat.le_of_ble_eq_true rfl) (rfl : _ = wordNat (.kvinvAll d))
  exact single rfl hb <| (major30 hm).trans <| (if_neg (by omega)).trans <| (if_neg (by omega)).trans <| (if_neg (by omega)).trans <| (if_pos c0).trans <| by rw [f0]
theorem kvapp (d : BitVec 5) (a : BitVec 4) : Statement (.kvapp d a) := by
  obtain ⟨hb, hm, c0, c1, f0, f1⟩ := layout14 (m := 48) (c0 := 0) (c1 := 3) (x0 := d) (x1 := a) (Nat.le_of_ble_eq_true rfl) (Nat.le_of_ble_eq_true rfl) (Nat.le_of_ble_eq_true rfl) (rfl : _ = wordNat (.kvapp d a))
  exact single rfl hb <| (major30 hm).trans <| (if_neg fun h => absurd (c1.symm.trans h) (Nat.ne_of_beq_eq_false rfl)).trans <| (if_neg (by omega)).trans <| (if_neg fun h => absurd (c1.symm.trans h) (Nat.ne_of_beq_eq_false rfl)).trans <| (if_neg (by omega)).trans <| (if_pos ⟨c0, c1⟩).trans <| by rw [f0, f1]
theorem kvappLink (d : BitVec 5) (a : BitVec 4) : Statement (.kvappLink d a) := by
  obtain ⟨hb, hm, c0, c1, f0, f1⟩ := layout14 (m := 48) (c0 := 0) (c1 := 67) (x0 := d) (x1 := a) (Nat.le_of_ble_eq_true rfl) (Nat.le_of_ble_eq_true rfl) (Nat.le_of_ble_eq_true rfl) (rfl : _ = wordNat (.kvappLink d a))
  exact single rfl hb <| (major30 hm).trans <| (if_neg fun h => absurd (c1.symm.trans h) (Nat.ne_of_beq_eq_false rfl)).trans <| (if_neg (by omega)).trans <| (if_neg fun h => absurd (c1.symm.trans h) (Nat.ne_of_beq_eq_false rfl)).trans <| (if_neg (by omega)).trans <| (if_neg fun h => absurd (c1.symm.trans h.2) (Nat.ne_of_beq_eq_false rfl)).trans <| (if_pos ⟨c0, c1⟩).trans <| by rw [f0, f1]
theorem kvspec (d : BitVec 5) : Statement (.kvspec d) := by
  obtain ⟨hb, hm, c0, f0⟩ := layout27 (m := 48) (c0 := 4) (x0 := d) (Nat.le_of_ble_eq_true rfl) (Nat.le_of_ble_eq_true rfl) (rfl : _ = wordNat (.kvspec d))
  exact single rfl hb <| (major30 hm).trans <| (if_neg (by omega)).trans <| (if_neg (by omega)).trans <| (if_neg (by omega)).trans <| (if_neg fun h => absurd (c0.symm.trans h) (Nat.ne_of_beq_eq_false rfl)).trans <| (if_neg (by omega)).trans <| (if_neg (by omega)).trans <| (if_pos c0).trans <| by rw [f0]
theorem kvcommit (d a : BitVec 5) : Statement (.kvcommit d a) := by
  obtain ⟨hb, hm, c0, f0, f1⟩ := layout1 (m := 48) (c0 := 5) (x0 := d) (x1 := a) (Nat.le_of_ble_eq_true rfl) (Nat.le_of_ble_eq_true rfl) (rfl : _ = wordNat (.kvcommit d a))
  exact single rfl hb <| (major30 hm).trans <| (if_neg fun h => absurd (c0.symm.trans h) (Nat.ne_of_beq_eq_false rfl)).trans <| (if_neg (by omega)).trans <| (if_neg fun h => absurd (c0.symm.trans h) (Nat.ne_of_beq_eq_false rfl)).trans <| (if_neg (by omega)).trans <| (if_neg fun h => absurd (c0.symm.trans h.2) (Nat.ne_of_beq_eq_false rfl)).trans <| (if_neg fun h => absurd (c0.symm.trans h.2) (Nat.ne_of_beq_eq_false rfl)).trans <| (if_neg (by omega)).trans <| (if_pos c0).trans <| by rw [f0, f1]
theorem kvabort (d : BitVec 5) : Statement (.kvabort d) := by
  obtain ⟨hb, hm, c0, f0⟩ := layout27 (m := 48) (c0 := 6) (x0 := d) (Nat.le_of_ble_eq_true rfl) (Nat.le_of_ble_eq_true rfl) (rfl : _ = wordNat (.kvabort d))
  exact single rfl hb <| (major30 hm).trans <| (if_neg (by omega)).trans <| (if_neg (by omega)).trans <| (if_neg (by omega)).trans <| (if_neg fun h => absurd (c0.symm.trans h) (Nat.ne_of_beq_eq_false rfl)).trans <| (if_neg (by omega)).trans <| (if_neg (by omega)).trans <| (if_neg fun h => absurd (c0.symm.trans h) (Nat.ne_of_beq_eq_false rfl)).trans <| (if_neg (by omega)).trans <| (if_pos c0).trans <| by rw [f0]
theorem kvget (d a b : BitVec 5) : Statement (.kvget d a b) := by
  obtain ⟨hb, hm, c0, f0, f1, f2⟩ := layout0 (m := 48) (c0 := 7) (x0 := d) (x1 := a) (x2 := b) (Nat.le_of_ble_eq_true rfl) (Nat.le_of_ble_eq_true rfl) (rfl : _ = wordNat (.kvget d a b))
  exact single rfl hb <| (major30 hm).trans <| (if_neg (by omega)).trans <| (if_neg fun h => absurd (c0.symm.trans h) (Nat.ne_of_beq_eq_false rfl)).trans <| (if_neg (by omega)).trans <| (if_neg (by omega)).trans <| (if_neg (by omega)).trans <| (if_neg (by omega)).trans <| (if_neg (by omega)).trans <| (if_neg (by omega)).trans <| (if_neg (by omega)).trans <| (if_pos c0).trans <| by rw [f0, f1, f2]
theorem kvfree (d a : BitVec 5) : Statement (.kvfree d a) := by
  obtain ⟨hb, hm, c0, f0, f1⟩ := layout1 (m := 48) (c0 := 8) (x0 := d) (x1 := a) (Nat.le_of_ble_eq_true rfl) (Nat.le_of_ble_eq_true rfl) (rfl : _ = wordNat (.kvfree d a))
  exact single rfl hb <| (major30 hm).trans <| (if_neg fun h => absurd (c0.symm.trans h) (Nat.ne_of_beq_eq_false rfl)).trans <| (if_neg (by omega)).trans <| (if_neg fun h => absurd (c0.symm.trans h) (Nat.ne_of_beq_eq_false rfl)).trans <| (if_neg (by omega)).trans <| (if_neg fun h => absurd (c0.symm.trans h.2) (Nat.ne_of_beq_eq_false rfl)).trans <| (if_neg fun h => absurd (c0.symm.trans h.2) (Nat.ne_of_beq_eq_false rfl)).trans <| (if_neg (by omega)).trans <| (if_neg fun h => absurd (c0.symm.trans h) (Nat.ne_of_beq_eq_false rfl)).trans <| (if_neg (by omega)).trans <| (if_neg (by omega)).trans <| (if_pos c0).trans <| by rw [f0, f1]
theorem kvfreePub (d a : BitVec 5) : Statement (.kvfreePub d a) := by
  obtain ⟨hb, hm, c0, f0, f1⟩ := layout1 (m := 48) (c0 := 72) (x0 := d) (x1 := a) (Nat.le_of_ble_eq_true rfl) (Nat.le_of_ble_eq_true rfl) (rfl : _ = wordNat (.kvfreePub d a))
  exact single rfl hb <| (major30 hm).trans <| (if_neg fun h => absurd (c0.symm.trans h) (Nat.ne_of_beq_eq_false rfl)).trans <| (if_neg (by omega)).trans <| (if_neg fun h => absurd (c0.symm.trans h) (Nat.ne_of_beq_eq_false rfl)).trans <| (if_neg (by omega)).trans <| (if_neg fun h => absurd (c0.symm.trans h.2) (Nat.ne_of_beq_eq_false rfl)).trans <| (if_neg fun h => absurd (c0.symm.trans h.2) (Nat.ne_of_beq_eq_false rfl)).trans <| (if_neg (by omega)).trans <| (if_neg fun h => absurd (c0.symm.trans h) (Nat.ne_of_beq_eq_false rfl)).trans <| (if_neg (by omega)).trans <| (if_neg (by omega)).trans <| (if_neg fun h => absurd (c0.symm.trans h) (Nat.ne_of_beq_eq_false rfl)).trans <| (if_pos c0).trans <| by rw [f0, f1]
theorem kvfreePubx (d a : BitVec 5) : Statement (.kvfreePubx d a) := by
  obtain ⟨hb, hm, c0, f0, f1⟩ := layout1 (m := 48) (c0 := 200) (x0 := d) (x1 := a) (Nat.le_of_ble_eq_true rfl) (Nat.le_of_ble_eq_true rfl) (rfl : _ = wordNat (.kvfreePubx d a))
  exact single rfl hb <| (major30 hm).trans <| (if_neg fun h => absurd (c0.symm.trans h) (Nat.ne_of_beq_eq_false rfl)).trans <| (if_neg (by omega)).trans <| (if_neg fun h => absurd (c0.symm.trans h) (Nat.ne_of_beq_eq_false rfl)).trans <| (if_neg (by omega)).trans <| (if_neg fun h => absurd (c0.symm.trans h.2) (Nat.ne_of_beq_eq_false rfl)).trans <| (if_neg fun h => absurd (c0.symm.trans h.2) (Nat.ne_of_beq_eq_false rfl)).trans <| (if_neg (by omega)).trans <| (if_neg fun h => absurd (c0.symm.trans h) (Nat.ne_of_beq_eq_false rfl)).trans <| (if_neg (by omega)).trans <| (if_neg (by omega)).trans <| (if_neg fun h => absurd (c0.symm.trans h) (Nat.ne_of_beq_eq_false rfl)).trans <| (if_neg fun h => absurd (c0.symm.trans h) (Nat.ne_of_beq_eq_false rfl)).trans <| (if_pos c0).trans <| by rw [f0, f1]
theorem rsver (d : BitVec 5) (a b : BitVec 4) : Statement (.rsver d a b) := by
  obtain ⟨hb, hm, c0, c1, c2, f0, f1, f2⟩ := layout50 (m := 48) (c0 := 0) (c1 := 0) (c2 := 9) (x0 := d) (x1 := a) (x2 := b) (Nat.le_of_ble_eq_true rfl) (Nat.le_of_ble_eq_true rfl) (Nat.le_of_ble_eq_true rfl) (Nat.le_of_ble_eq_true rfl) (rfl : _ = wordNat (.rsver d a b))
  exact single rfl hb <| (major30 hm).trans <| (if_neg (by omega)).trans <| (if_neg fun h => absurd (c2.symm.trans h) (Nat.ne_of_beq_eq_false rfl)).trans <| (if_neg (by omega)).trans <| (if_neg (by omega)).trans <| (if_neg (by omega)).trans <| (if_neg (by omega)).trans <| (if_neg (by omega)).trans <| (if_neg (by omega)).trans <| (if_neg (by omega)).trans <| (if_neg fun h => absurd (c2.symm.trans h) (Nat.ne_of_beq_eq_false rfl)).trans <| (if_neg (by omega)).trans <| (if_neg (by omega)).trans <| (if_neg (by omega)).trans <| (if_pos ⟨c0, c1, c2⟩).trans <| by rw [f0, f1, f2]
theorem kvret (a : BitVec 5) : Statement (.kvret a) := by
  obtain ⟨hb, hm, c0, c1, f0⟩ := layout25 (m := 48) (c0 := 0) (c1 := 10) (x0 := a) (Nat.le_of_ble_eq_true rfl) (Nat.le_of_ble_eq_true rfl) (Nat.le_of_ble_eq_true rfl) (rfl : _ = wordNat (.kvret a))
  exact single rfl hb <| (major30 hm).trans <| (if_neg fun h => absurd (c1.symm.trans h) (Nat.ne_of_beq_eq_false rfl)).trans <| (if_neg (by omega)).trans <| (if_neg fun h => absurd (c1.symm.trans h) (Nat.ne_of_beq_eq_false rfl)).trans <| (if_neg (by omega)).trans <| (if_neg fun h => absurd (c1.symm.trans h.2) (Nat.ne_of_beq_eq_false rfl)).trans <| (if_neg fun h => absurd (c1.symm.trans h.2) (Nat.ne_of_beq_eq_false rfl)).trans <| (if_neg (by omega)).trans <| (if_neg fun h => absurd (c1.symm.trans h) (Nat.ne_of_beq_eq_false rfl)).trans <| (if_neg (by omega)).trans <| (if_neg (by omega)).trans <| (if_neg fun h => absurd (c1.symm.trans h) (Nat.ne_of_beq_eq_false rfl)).trans <| (if_neg fun h => absurd (c1.symm.trans h) (Nat.ne_of_beq_eq_false rfl)).trans <| (if_neg fun h => absurd (c1.symm.trans h) (Nat.ne_of_beq_eq_false rfl)).trans <| (if_neg (by omega)).trans <| (if_pos ⟨c0, c1⟩).trans <| by rw [f0]
theorem trap (h_ l : BitVec 5) : Statement (.trap h_ l) := by
  obtain ⟨hb, hm, c0, c1, f0, f1⟩ := layout51 (m := 50) (c0 := 0) (c1 := 0) (x0 := h_) (x1 := l) (Nat.le_of_ble_eq_true rfl) (Nat.le_of_ble_eq_true rfl) (Nat.le_of_ble_eq_true rfl) (rfl : _ = wordNat (.trap h_ l))
  exact single rfl hb <| (major32 hm).trans <| (if_pos ⟨c0, c1⟩).trans <| by rw [f0, f1]
theorem tret : Statement (.tret) := by
  obtain ⟨hb, hm, c0⟩ := layout28 (m := 50) (c0 := 1) (Nat.le_of_ble_eq_true rfl) (Nat.le_of_ble_eq_true rfl) (rfl : _ = wordNat (.tret))
  exact single rfl hb <| (major32 hm).trans <| (if_neg (by omega)).trans <| (if_pos c0).trans <| rfl
theorem brk (h_ l : BitVec 5) : Statement (.brk h_ l) := by
  obtain ⟨hb, hm, c0, c1, f0, f1⟩ := layout51 (m := 50) (c0 := 0) (c1 := 2) (x0 := h_) (x1 := l) (Nat.le_of_ble_eq_true rfl) (Nat.le_of_ble_eq_true rfl) (Nat.le_of_ble_eq_true rfl) (rfl : _ = wordNat (.brk h_ l))
  exact single rfl hb <| (major32 hm).trans <| (if_neg fun h => absurd (c1.symm.trans h.2) (Nat.ne_of_beq_eq_false rfl)).trans <| (if_neg (by omega)).trans <| (if_pos ⟨c0, c1⟩).trans <| by rw [f0, f1]
theorem halt : Statement (.halt) := by
  obtain ⟨hb, hm, c0⟩ := layout28 (m := 50) (c0 := 3) (Nat.le_of_ble_eq_true rfl) (Nat.le_of_ble_eq_true rfl) (rfl : _ = wordNat (.halt))
  exact single rfl hb <| (major32 hm).trans <| (if_neg (by omega)).trans <| (if_neg fun h => absurd (c0.symm.trans h) (Nat.ne_of_beq_eq_false rfl)).trans <| (if_neg (by omega)).trans <| (if_pos c0).trans <| rfl
theorem wfi : Statement (.wfi) := by
  obtain ⟨hb, hm, c0⟩ := layout28 (m := 50) (c0 := 4) (Nat.le_of_ble_eq_true rfl) (Nat.le_of_ble_eq_true rfl) (rfl : _ = wordNat (.wfi))
  exact single rfl hb <| (major32 hm).trans <| (if_neg (by omega)).trans <| (if_neg fun h => absurd (c0.symm.trans h) (Nat.ne_of_beq_eq_false rfl)).trans <| (if_neg (by omega)).trans <| (if_neg fun h => absurd (c0.symm.trans h) (Nat.ne_of_beq_eq_false rfl)).trans <| (if_pos c0).trans <| rfl
theorem ckpt (d a : BitVec 5) : Statement (.ckpt d a) := by
  obtain ⟨hb, hm, c0, f0, f1⟩ := layout1 (m := 50) (c0 := 5) (x0 := d) (x1 := a) (Nat.le_of_ble_eq_true rfl) (Nat.le_of_ble_eq_true rfl) (rfl : _ = wordNat (.ckpt d a))
  exact single rfl hb <| (major32 hm).trans <| (if_neg (by omega)).trans <| (if_neg (by omega)).trans <| (if_neg (by omega)).trans <| (if_neg (by omega)).trans <| (if_neg (by omega)).trans <| (if_pos c0).trans <| by rw [f0, f1]
theorem rstor (d : BitVec 5) : Statement (.rstor d) := by
  obtain ⟨hb, hm, c0, f0⟩ := layout27 (m := 50) (c0 := 6) (x0 := d) (Nat.le_of_ble_eq_true rfl) (Nat.le_of_ble_eq_true rfl) (rfl : _ = wordNat (.rstor d))
  exact single rfl hb <| (major32 hm).trans <| (if_neg (by omega)).trans <| (if_neg (by omega)).trans <| (if_neg (by omega)).trans <| (if_neg (by omega)).trans <| (if_neg (by omega)).trans <| (if_neg (by omega)).trans <| (if_pos c0).trans <| by rw [f0]
theorem xinv (d a b : BitVec 5) : Statement (.xinv d a b) := by
  obtain ⟨hb, hm, c0, f0, f1, f2⟩ := layout0 (m := 50) (c0 := 7) (x0 := d) (x1 := a) (x2 := b) (Nat.le_of_ble_eq_true rfl) (Nat.le_of_ble_eq_true rfl) (rfl : _ = wordNat (.xinv d a b))
  exact single rfl hb <| (major32 hm).trans <| (if_neg (by omega)).trans <| (if_neg (by omega)).trans <| (if_neg (by omega)).trans <| (if_neg (by omega)).trans <| (if_neg (by omega)).trans <| (if_neg (by omega)).trans <| (if_neg (by omega)).trans <| (if_pos c0).trans <| by rw [f0, f1, f2]
theorem pfxImm (p : BitVec 24) : Statement (.pfxImm p) := by
  obtain ⟨hb, hm, c0, f0⟩ := layout52 (m := 63) (c0 := 0) (x0 := p) (Nat.le_of_ble_eq_true rfl) (Nat.le_of_ble_eq_true rfl) (rfl : _ = wordNat (.pfxImm p))
  exact single rfl hb <| (major3F hm).trans <| (if_pos c0).trans <| by rw [f0]
theorem pfxReg (e : BitVec 5) : Statement (.pfxReg e) := by
  obtain ⟨hb, hm, c0, f0⟩ := layout53 (m := 63) (c0 := 524288) (x0 := e) (Nat.le_of_ble_eq_true rfl) (Nat.le_of_ble_eq_true rfl) (rfl : _ = wordNat (.pfxReg e))
  exact single rfl hb <| (major3F hm).trans <| (if_neg (by omega)).trans <| (if_pos c0).trans <| by rw [f0]
theorem pfxFn (x : BitVec 6) : Statement (.pfxFn x) := by
  obtain ⟨hb, hm, c0, f0⟩ := layout54 (m := 63) (c0 := 524288) (x0 := x) (Nat.le_of_ble_eq_true rfl) (Nat.le_of_ble_eq_true rfl) (rfl : _ = wordNat (.pfxFn x))
  exact single rfl hb <| (major3F hm).trans <| (if_neg (by omega)).trans <| (if_neg (by omega)).trans <| (if_pos c0).trans <| by rw [f0]
theorem mma (cl u : Nat) : Statement (.mma cl u) := wordless rfl
theorem mmaz (cl u : Nat) : Statement (.mmaz cl u) := wordless rfl
theorem mmat (cl u : Nat) : Statement (.mmat cl u) := wordless rfl
theorem accst (cl u : Nat) : Statement (.accst cl u) := wordless rfl
theorem accld (cl u : Nat) : Statement (.accld cl u) := wordless rfl
theorem pconv (cl u : Nat) : Statement (.pconv cl u) := wordless rfl
theorem pdot (cl u : Nat) : Statement (.pdot cl u) := wordless rfl
theorem wmbTileJobDispatch (cl u core : Nat) : Statement (.wmbTileJobDispatch cl u core) := wordless rfl
theorem wmbCommandComplete (core : Nat) : Statement (.wmbCommandComplete core) := wordless rfl
theorem copy (core e : Nat) : Statement (.copy core e) := wordless rfl
theorem xpose (core e : Nat) : Statement (.xpose core e) := wordless rfl
theorem gather (core e : Nat) : Statement (.gather core e) := wordless rfl
theorem fill (core e : Nat) : Statement (.fill core e) := wordless rfl
theorem pagein (core e : Nat) : Statement (.pagein core e) := wordless rfl
theorem migr (core e : Nat) : Statement (.migr core e) := wordless rfl
theorem copyCommandComplete (core e : Nat) : Statement (.copyCommandComplete core e) := wordless rfl
theorem copyInComplete (k : Nat) : Statement (.copyInComplete k) := wordless rfl
theorem pageRequestAnswer (k : Nat) (ans : PageAnswer) : Statement (.pageRequestAnswer k ans) := wordless rfl
theorem atsInvalidation (asid page count : Nat) : Statement (.atsInvalidation asid page count) := wordless rfl
theorem tierPoolRecall (asid page : Nat) : Statement (.tierPoolRecall asid page) := wordless rfl
theorem recordDispatch (q : Nat) : Statement (.recordDispatch q) := wordless rfl
theorem recordEnd (r : Nat) : Statement (.recordEnd r) := wordless rfl
theorem sliceEnd (vf : Nat) : Statement (.sliceEnd vf) := wordless rfl
theorem switchOutTimeout (r : Nat) : Statement (.switchOutTimeout r) := wordless rfl
theorem reservation (part : Nat) : Statement (.reservation part) := wordless rfl
theorem timer (core : Nat) : Statement (.timer core) := wordless rfl
theorem engineReportTimeout (core : Nat) : Statement (.engineReportTimeout core) := wordless rfl
theorem interruptPreempt (core : Nat) : Statement (.interruptPreempt core) := wordless rfl
theorem interruptResume (core r lc : Nat) : Statement (.interruptResume core r lc) := wordless rfl
theorem interruptDebug (core : Nat) (req : BitVec 32) : Statement (.interruptDebug core req) := wordless rfl
theorem corniceTrap (core : Nat) : Statement (.corniceTrap core) := wordless rfl
theorem corniceDiscard (k : Nat) : Statement (.corniceDiscard k) := wordless rfl
theorem corniceReport (k : Nat) : Statement (.corniceReport k) := wordless rfl
theorem pfDeadlinePost (pf vf : Nat) (at_ report : BitVec 64) : Statement (.pfDeadlinePost pf vf at_ report) := wordless rfl
theorem doorbell (q : Nat) (tail : BitVec 32) : Statement (.doorbell q tail) := wordless rfl
theorem featacc (fn : Nat) (value : BitVec 64) : Statement (.featacc fn value) := wordless rfl
theorem reqhead (vf : Nat) (value : BitVec 32) : Statement (.reqhead vf value) := wordless rfl
theorem evhead (vf : Nat) (value : BitVec 32) : Statement (.evhead vf value) := wordless rfl
theorem replyseq (vf : Nat) (seq : BitVec 64) : Statement (.replyseq vf seq) := wordless rfl
theorem registerWrite (reg : HostReg) (value : BitVec 64) : Statement (.registerWrite reg value) := wordless rfl
theorem queueCreate (vf num : Nat) (desc : BitVec 512) : Statement (.queueCreate vf num desc) := wordless rfl
theorem queueEnable (q : Nat) : Statement (.queueEnable q) := wordless rfl
theorem queueDisable (q : Nat) (del : Bool) : Statement (.queueDisable q del) := wordless rfl
theorem asidBind (asid vf pasid : Nat) (grants : List Nat) : Statement (.asidBind asid vf pasid grants) := wordless rfl
theorem asidUnbind (asid : Nat) : Statement (.asidUnbind asid) := wordless rfl
theorem snapshotRequest (vf : Nat) (area : SnapArea) (dlog : BitVec 64) : Statement (.snapshotRequest vf area dlog) := wordless rfl
theorem vfStop (vf : Nat) : Statement (.vfStop vf) := wordless rfl
theorem kvMigration (vf : Nat) (mig : KvMove) : Statement (.kvMigration vf mig) := wordless rfl
theorem hostCxlMemAccess (acc : HostAccess) : Statement (.hostCxlMemAccess acc) := wordless rfl
theorem spdmRequest (req : SpdmReq) : Statement (.spdmRequest req) := wordless rfl
theorem functionReset (fn : Nat) : Statement (.functionReset fn) := wordless rfl
theorem pcieConventionalReset : Statement (.pcieConventionalReset) := wordless rfl
theorem powerGood : Statement (.powerGood) := wordless rfl
theorem rom : Statement (.rom) := wordless rfl
theorem selftest (tests : List TestRun) : Statement (.selftest tests) := wordless rfl
theorem load (pass : Bool) : Statement (.load pass) := wordless rfl
theorem init : Statement (.init) := wordless rfl
theorem fatalFault (cls unit : Nat) : Statement (.fatalFault cls unit) := wordless rfl
theorem uncorrectableError (unit : ErrUnit) : Statement (.uncorrectableError unit) := wordless rfl
theorem status : Statement (.status) := wordless rfl
theorem log : Statement (.log) := wordless rfl
theorem ident : Statement (.ident) := wordless rfl
theorem imgload : Statement (.imgload) := wordless rfl
theorem imgcommit : Statement (.imgcommit) := wordless rfl
theorem reset : Statement (.reset) := wordless rfl
theorem partdef : Statement (.partdef) := wordless rfl
theorem region (secure : Bool) : Statement (.region secure) := wordless rfl
theorem deadline : Statement (.deadline) := wordless rfl
theorem retire : Statement (.retire) := wordless rfl
theorem powerLoss : Statement (.powerLoss) := wordless rfl
theorem palbelLinkDead (port : Nat) : Statement (.palbelLinkDead port) := wordless rfl
theorem palbelRequest (req : PalbelReq) : Statement (.palbelRequest req) := wordless rfl
theorem hwrPerformed (core : Nat) : Statement (.hwrPerformed core) := wordless rfl
theorem mailboxCommandDone : Statement (.mailboxCommandDone) := wordless rfl
theorem initTimeout (die : Nat) : Statement (.initTimeout die) := wordless rfl
theorem correctableError (unit : ErrUnit) : Statement (.correctableError unit) := wordless rfl

/-! The rows that are forms of another row's word under a prefix. -/

/-- What a row of one word gives by itself. -/
theorem alone {i : Instr} (s : Statement i) (hf : formPfx i = .none) (hw : i.wf = true) (h0 : wordNat i ≠ 0) (hb : wordNat i < 2 ^ 32) :
    decodeNat (wordNat i) = .ok i := by
  have h := s hw h0
  have e : (BitVec.ofNat 32 (wordNat i)).toNat = wordNat i := by rw [BitVec.toNat_ofNat]; exact Nat.mod_eq_of_lt hb
  simpa only [encode, hf, pfxWord, List.nil_append, List.map_cons, List.map_nil, decodeWords, e] using h

theorem fnWord (x : BitVec 6) : wordNat (.pfxFn x) < 2 ^ 32 ∧ decodeNat (wordNat (.pfxFn x)) = .ok (.pfxFn x) := by
  have h : wordNat (.pfxFn x) = 4261412864 + x.toNat := rfl
  have hx := x.isLt
  exact ⟨by omega, alone (pfxFn x) rfl rfl (by omega) (by omega)⟩

theorem regWord (e : BitVec 5) : wordNat (.pfxReg e) < 2 ^ 32 ∧ decodeNat (wordNat (.pfxReg e)) = .ok (.pfxReg e) := by
  have h : wordNat (.pfxReg e) = 4227858432 + 16777216 + e.toNat := rfl
  have hx := e.isLt
  exact ⟨by omega, alone (pfxReg e) rfl rfl (by omega) (by omega)⟩

/-- A move between an element and a scalar (R249). -/
theorem element {x : BitVec 6} {w : Nat} (hx : x ≠ 0) (hm : w / 67108864 = 32) (hl : w % 64 = 13) :
    decodeUnder (.fn x) w = vmovElement x.toNat w := by
  rw [decodeUnder, if_neg hx, if_pos ⟨hm, hl⟩]

theorem vmovExtract (d a b : BitVec 5) (p : BitVec 3) (e : BitVec 2) (sgn : Bool) : Statement (.vmovExtract d a b p e sgn) := by
  obtain ⟨hb, hm, c0, f0, f1, f2, f3, f4⟩ := layout31 (m := 32) (c0 := 13) (x0 := d) (x1 := a) (x2 := b) (x3 := p) (x4 := e) (Nat.le_of_ble_eq_true rfl) (Nat.le_of_ble_eq_true rfl) (rfl : _ = wordNat (.vmovInsert d a b p e))
  have hw : wordNat (.vmovExtract d a b p e sgn) = wordNat (.vmovInsert d a b p e) := by
    show _ + 0 * sgn.toNat = _
    rw [Nat.zero_mul]; rfl
  cases sgn
  · refine paired (j := .pfxFn 2) rfl rfl rfl (fnWord 2).1 (hw ▸ hb) (fnWord 2).2 ?_
    rw [hw]
    refine (element (x := 2) (by decide) hm c0).trans ?_
    rw [vmovElement, f0, f1, f2, f3, f4]
    rfl
  · refine paired (j := .pfxFn 1) rfl rfl rfl (fnWord 1).1 (hw ▸ hb) (fnWord 1).2 ?_
    rw [hw]
    refine (element (x := 1) (by decide) hm c0).trans ?_
    rw [vmovElement, f0, f1, f2, f3, f4]
    rfl

theorem vmovInsert (d a b : BitVec 5) (p : BitVec 3) (e : BitVec 2) : Statement (.vmovInsert d a b p e) := by
  obtain ⟨hb, hm, c0, f0, f1, f2, f3, f4⟩ := layout31 (m := 32) (c0 := 13) (x0 := d) (x1 := a) (x2 := b) (x3 := p) (x4 := e) (Nat.le_of_ble_eq_true rfl) (Nat.le_of_ble_eq_true rfl) (rfl : _ = wordNat (.vmovInsert d a b p e))
  refine paired (j := .pfxFn 3) rfl rfl rfl (fnWord 3).1 hb (fnWord 3).2 ?_
  refine (element (x := 3) (by decide) hm c0).trans ?_
  rw [vmovElement, f0, f1, f2, f3, f4]
  rfl

theorem vsmmStat (d a b : BitVec 5) (p : BitVec 3) : Statement (.vsmmStat d a b p) := by
  obtain ⟨hb, hm, _⟩ := layout35 (m := 35) (c0 := 133) (x0 := d) (x1 := a) (x2 := b) (x3 := p) (Nat.le_of_ble_eq_true rfl) (Nat.le_of_ble_eq_true rfl) (rfl : _ = wordNat (.vsmm d a b p))
  refine paired (i := .vsmmStat d a b p) (p := .fn 1) (j := .pfxFn 1) rfl rfl rfl (fnWord 1).1 hb (fnWord 1).2 ?_
  have h := alone (vsmm d a b p) rfl rfl (fun h => by rw [h] at hm; exact absurd hm (by decide)) hb
  have hw : wordNat (.vsmmStat d a b p) = wordNat (.vsmm d a b p) := rfl
  rw [hw, decodeUnder, if_neg (by decide), if_neg (fun c => absurd (hm.symm.trans c.1) (by decide)), h]
  rfl

theorem bscaleObject (d a b : BitVec 5) (p : BitVec 3) (e : BitVec 5) : Statement (.bscaleObject d a b p e) := by
  obtain ⟨hb, hm, _⟩ := layout35 (m := 40) (c0 := 3) (x0 := d) (x1 := a) (x2 := b) (x3 := p) (Nat.le_of_ble_eq_true rfl) (Nat.le_of_ble_eq_true rfl) (rfl : _ = wordNat (.bscale d a b p))
  have hw : wordNat (.bscaleObject d a b p e) = wordNat (.bscale d a b p) := by
    show _ + 0 * e.toNat = _
    rw [Nat.zero_mul]; rfl
  intro ok n
  refine paired (i := .bscaleObject d a b p e) (p := .reg e) (j := .pfxReg e) rfl rfl rfl (regWord e).1 (hw ▸ hb) (regWord e).2 ?_ ok n
  have h := alone (bscale d a b p) rfl (by simp only [Instr.wf, Bool.and_eq_true] at ok; exact ok.1)
    (fun h => by rw [h] at hm; exact absurd hm (by decide)) hb
  rw [hw, decodeUnder, h]

end Sys2Proof.Laws.RoundTrip
end

