-- ==== Sys2Proof/Tests/Slice0.lean ====
section
/-! SUPPORT. Slice0: tests of the model's own: ill-formed terms that are refused, words written out from the encodings of
the manual, one result for each kind of instruction, and for every statement a state and operands that meet its premises. -/

set_option Elab.async false

open Sys2Proof Sys2Proof.Machine

namespace Sys2Proof.Tests

/-! Small states. -/

/-- Core 0 runs context 0 of record 0, whose code is one word of zeros and the word of `add s0, s0, s0`. -/
def base : State :=
  let s := { State.reset.placeWord 0 with
    agenda := []
    flash := {}
    featOff := 0x3FFF }
  s.setRec 0 { s.recAt 0 with text := [0, 0, 0, 0, 0, 0, 0, 4] }

/-- Some `s` registers hold values. -/
def regs (l : List (Nat × Nat)) (s : State) : State :=
  s.setCtx (l.foldl (fun x e => x.setS e.1 (BitVec.ofNat 64 e.2)) s.ctx)

/-- The executing context, and the executing core, are changed. -/
def inCtx (f : Context → Context) (s : State) : State := s.setCtx (f s.ctx)
def inCore (f : Core → Core) (s : State) : State := s.setCore s.site (f s.core)
def inRec (f : Rec → Rec) (s : State) : State := s.setRec 0 (f (s.recAt 0))

/-- A pointer to offset `off` of the own core pad, and one to an address of the heap. -/
def padP (off : Nat) (hi : Nat := 0) : Word := mkPtr hi 3 off
def heapP (va : Nat) (hi : Nat := 0) : Word := mkPtr hi 0 va

/-- An object with its header word and body lies in the pad of the executing core, and register r points to it. -/
def object (r off w0 : Nat) (body : List Nat) (s : State) : State :=
  let k := corePadKey s.site + off
  let c := s.core
  let t := { s with mem := (s.mem.setHdr k { w0 := BitVec.ofNat 64 w0 }).setBytes (k + 32) (body.map (BitVec.ofNat 8)) }
  let u := t.setCore t.site { c with pad := { c.pad with hdrs := insertKey k c.pad.hdrs, bump := Nat.max c.pad.bump (off + 4096) } }
  u.setCtx (u.ctx.setA r { ptr := padP off (w0 / 2 ^ 48 % 256) })

/-- Page n of the heap of ASID 0 is mapped to frame n, for writing. -/
def pages (l : List Nat) (s : State) : State :=
  { s with ptes := l.foldl (fun m n => store (pageKey 0 n) { frame := n, write := true, hbm := true } m) s.ptes }

/-- An object lies in the heap at an address of a mapped page, and register r points to it. -/
def heapObject (r va w0 : Nat) (body : List Nat) (s : State) : State :=
  let t := pages [va / 4096] s
  let u := { t with mem := (t.mem.setHdr va { w0 := BitVec.ofNat 64 w0 }).setBytes (va + 32) (body.map (BitVec.ofNat 8)) }
  u.setCtx (u.ctx.setA r { ptr := heapP va (w0 / 2 ^ 48 % 256) })

/-- A header word: length, type, format and block exponent. -/
def hd (len typ fmt : Nat) (blog : Nat := 0) : Nat := len + typ * 2 ^ 40 + fmt * 2 ^ 51 + blog * 2 ^ 48

/-- The executing core is in the trap shadow of context 0. -/
def inShadow (s : State) : State := inCore (fun c => { c with tshadow := true, act := 11 }) s

/-- What belongs to two instructions under way is the same, field by field. -/
def sameTx (a b : Tx) : Bool :=
    decide (a.pops28 = b.pops28) && decide (a.pops29 = b.pops29) && decide (a.pops30 = b.pops30) && decide (a.pops31 =
    b.pops31) && decide (a.skip31 = b.skip31) && decide (a.deque = b.deque) && decide (a.spops = b.spops) && decide (a.word
    = b.word) && decide (a.bind = b.bind) && decide (a.dbg = b.dbg) && decide (a.ctag = b.ctag) && decide (a.sctx = b.sctx)
    && decide (a.pushes = b.pushes) && decide (a.npc = b.npc) && decide (a.watch = b.watch) && decide (a.after = b.after) &&
    decide (a.pushed = b.pushed) && decide (a.undone = b.undone)

theorem sameTx_eq {a b : Tx} (h : sameTx a b = true) : a = b := by
  cases a
  cases b
  simpa [sameTx, and_assoc] using h

/-- An operation that runs in the course of an instruction completes, with an answer and a state that satisfy `p`. -/
def finds {α : Type} (i : Instr) (x : Op α) (s : State) (p : α → State → Bool) : Bool :=
  match x (s.starts i) with
  | .ok a t => sameTx t.tx (t.starts i).tx && p a t
  | .error _ _ => false

/-- That is what `leads` says. -/
theorem finds_leads {α : Type} {i : Instr} {x : Op α} {s : State} {p : α → State → Bool} (h : finds i x s p = true) :
    ∃ a t, leads i x s a t ∧ p a t = true := by
  unfold leads
  unfold finds at h
  revert h
  cases x (s.starts i) with
  | ok a t =>
    intro h
    simp only [Bool.and_eq_true] at h
    refine ⟨a, t, ?_, h.2⟩
    show _ = EStateM.Result.ok a { t with tx := (t.starts i).tx }
    rw [← sameTx_eq h.1]
  | error e t => intro h; exact Bool.noConfusion h

/-- An operation that runs in the course of an instruction answers `a` and leaves `t`. -/
def leadsTo {α : Type} [DecidableEq α] (i : Instr) (x : Op α) (s : State) (a : α) (t : State) : Bool :=
  match x (s.starts i) with
  | .ok b u => decide (b = a) && decide (u = t.starts i)
  | .error _ _ => false

theorem leadsTo_leads {α : Type} [DecidableEq α] {i : Instr} {x : Op α} {s : State} {a : α} {t : State}
    (h : leadsTo i x s a t = true) : leads i x s a t := by
  unfold leads
  unfold leadsTo at h
  revert h
  cases x (s.starts i) with
  | ok b u =>
    intro h
    simp only [Bool.and_eq_true, decide_eq_true_eq] at h
    rw [h.1, h.2]
  | error e u => intro h; exact Bool.noConfusion h

/-- The same for an operation that answers a place, if any. -/
def findsAt (i : Instr) (x : Op (Option Loc)) (s : State) (p : Loc → State → Bool) : Bool :=
  finds i x s fun o t => match o with
    | some l => p l t
    | none => false

/-- The same for an operation that answers no place. -/
def findsNone (i : Instr) (x : Op (Option Loc)) (s : State) : Bool := finds i x s fun o _ => o.isNone

/-- The same for an operation that answers a place and offsets. -/
def findsVec (i : Instr) (x : Op (Loc × List (Nat × Int))) (s : State) (p : State → Bool) : Bool := finds i x s fun _ t => p t

/-- What an instruction leaves where it answers a next state. -/
def after (i : Instr) (s : State) (p : State → Bool) : Bool :=
  match exec i s with
  | .next t => p t
  | _ => false

def all (l : List Bool) : Bool := l.all id
def no {α : Type} (o : Option α) : Bool := o.isNone

/-! Well-formedness: each check refuses a term. -/

theorem wf_refuses : ∀ i ∈ ([.tidx 1 1 5, .olen 1 1 3, .acq 1 1 6, .rel 1 1 6, .park 16 0 1, .unpark 16 0 3, .park 8 0 4, .unpark 4 0 5,
    .vcmp 6 1 1 1 0, .vcmp 13 1 1 1 0, .vcmp 0 1 1 0 0, .pand 0 1 1, .por 0 1 1, .pxor 0 1 1, .pnot 0 1, .pmov 0 1,
    .vmovExtract 1 1 1 1 0 true, .vmovInsert 1 1 1 1 0, .vsmmStat 1 1 1 0, .vsmmStat 1 0 1 1, .sbind 23 1 1, .sbnd 23 1 1 0, .sgo 1 23,
    .sstop 1 23, .vgrantStream 1 23 0, .cvt 1 1 30 0 1, .bscale 1 1 6 0, .bscaleObject 1 1 6 0 0, .bscaleObject 1 1 0 0 16,
    .fclass 1 1 5, .pack 1 1 1 7, .extr 1 1 1 3] : List Instr), i.wf = false := by decide +kernel

theorem wf_accepts : ∀ i ∈ ([.tidx 1 1 4, .olen 1 1 2, .acq 1 1 5, .rel 1 1 5, .park 15 0 1, .unpark 15 0 3, .park 7 0 4, .unpark 3 0 5,
    .vcmp 5 1 1 1 0, .vcmp 12 1 1 1 0, .pand 1 0 0, .sbind 24 1 1, .sgo 1 24, .cvt 1 1 30 0 0, .bscale 1 1 5 0, .bscaleObject 1 1 5 0 15,
    .fclass 1 1 4, .pack 1 1 1 6, .extr 1 1 1 2] : List Instr), i.wf = true := by decide +kernel

/-! Words written out from the encodings of the manual, by its worked examples and the field positions of R40 to R45. -/

def decodesTo (ws : List (BitVec 32)) (i : Instr) : Bool := match decodeWords ws with | .ok j => decide (j = i) | .error _ => false

theorem decode_words_0 : (decodesTo [0x04642800] (.add 3 4 5)
    && decodesTo [0x08A53456] (.addi 5 5 0x3456)
    && decodesTo [0x24A24567] (.lhi 5 2 0x4567)
    && decodesTo [0x28803FFD] (.bne 4 0 0x1FFD)
    && decodesTo [0x40C65804] (.ld 6 3 5 2 4)
    && decodesTo [0x46E45800] (.st 23 2 5 2 0)
    && decodesTo [0x4CE20108] (.rel 7 2 4)
    && decodesTo [0x70000004] .yield
    && decodesTo [0x74000001] .split) = true := by decide +kernel

theorem decode_words_1 : (decodesTo [0x7295B000] (.hstart 20 21 22)
    && decodesTo [0x6E950001] (.scree 20 21)
    && decodesTo [0x5C43A582] (.cpostBarrier 2 3 20 6)
    && decodesTo [0xB8822843] (.cppageRec 4 2 5)
    && decodesTo [0x54828800] (.amo 4 2 4 1 0)
    && decodesTo [0x58A341C0] (.cas 5 3 2 0 7)
    && decodesTo [0x59247241] (.red 9 4 3 2 9)
    && decodesTo [0x50C00014] (.fence 6 1 0 4)
    && decodesTo [0x62950000] (.evw 20 21)) = true := by decide +kernel

theorem decode_words_2 : (decodesTo [0x6015B001] (.evsig 21 22)
    && decodesTo [0x60050003] (.mtxu 5)
    && decodesTo [0x64C23883] (.bwait 6 2 7 2)
    && decodesTo [0x692400C2] (.dqsteal 9 4 3)
    && decodesTo [0x6E800000] (.sstep 20)
    && decodesTo [0xFE000002, 0xA064D080] (.cvt 3 4 26 0 2)
    && decodesTo [0xFE000018, 0xA0A63881] (.dec 5 6 7 0 2)
    && decodesTo [0xA683A800] (.dtld 20 3 21)
    && decodesTo [0x85095283] (.vfma 8 9 10 2 2)) = true := by decide +kernel

theorem decode_words_3 : (decodesTo [0x90A66302] (.vld 5 3 6 1 2 2)
    && decodesTo [0x9715B041] (.sbnd 24 21 22 1)
    && decodesTo [0xFE000001, 0x8C601885] (.vsmmStat 3 0 3 0)
    && decodesTo [0xA8230142] (.ksetPointer 1 3 1)
    && decodesTo [0xAE810000] (.wpush 20 1)
    && decodesTo [0xAEB60002] (.wwait 21 22)
    && decodesTo [0xB0400802] (.wmulp 2 0 1)
    && decodesTo [0xB0C2B044] (.extr 6 2 22 1)
    && decodesTo [0xB000A801] (.gwid 0 0 21)) = true := by decide +kernel

theorem decode_words_4 : (decodesTo [0xBA810000] (.cpush 20 1)
    && decodesTo [0xBAB60001] (.cpwait 21 22)
    && decodesTo [0xBC02A540] (.msend 2 20 21)
    && decodesTo [0xBE810001] (.mrecv 20 1)
    && decodesTo [0xBF400043] (.mpoll 26 1)
    && decodesTo [0xBC01A642] (.mcast 1 20 25)
    && decodesTo [0xC2D51001] (.kvfill 22 21 2)
    && decodesTo [0xC0A20003] (.kvapp 5 2)
    && decodesTo [0xC0C70005] (.kvcommit 6 7)) = true := by decide +kernel

theorem decode_words_5 : (decodesTo [0xC3662809] (.rsver 27 6 5)
    && decodesTo [0xC2D50000] (.kvlk 22 21)
    && decodesTo [0x78000000] (.glaunch 0 0)
    && decodesTo [0xC8000140] (.trap 0 5)
    && decodesTo [0xC8000001] .tret
    && decodesTo [0xC8432007] (.xinv 2 3 4)
    && decodesTo [0xCA950005] (.ckpt 20 21)
    && decodesTo [0xCA800006] (.rstor 20)
    && decodesTo [0xFC000012] (.pfxImm 0x12)) = true := by decide +kernel

/-! The words of the shipped handler and of the boot program are the instructions that their listings give (R388, R463). -/

theorem firmware_words_0 : (decodesTo [0x3A800100] (.crd 20 0x100) && decodesTo [0x2A950016] (.beq 20 21 22) && decodesTo [0x0E9400FF] (.andi 20 20 255)
    && decodesTo [0xCA950005] (.ckpt 20 21) && decodesTo [0x2A803FFB] (.bne 20 0 0x1FFB) && decodesTo [0x38152000] (.crs 0 21 0)
    && decodesTo [0x2C1FFFFC] (.jal 0 0x1FFFFC) && decodesTo [0x38151106] (.crw 0 21 0x106) && decodesTo [0xC8000003] .halt) = true := by
  decide +kernel

theorem firmware_words_1 : (decodesTo [0x26818000] (.lhi 20 1 0x8000) && decodesTo [0xFE000001, 0x808100CD] (.vmovExtract 4 1 0 0 3 true)
    && decodesTo [0xFE000003, 0x8054B8CD] (.vmovInsert 2 20 23 0 3) && decodesTo [0xBC02C640] (.msend 2 24 25)
    && decodesTo [0x48400001] (.lda 2 0 0 1) && decodesTo [0x46C75800] (.st 22 3 21 2 0) && decodesTo [0x4CB5A001] (.alloc 5 21 20)
    && decodesTo [0x902B55A0] (.vst 1 5 21 2 3 0) && decodesTo [0x52C00003] (.fence 22 0 0 3)) = true := by decide +kernel

theorem decode_rejects : ([[0x00000000], [0x3C000000], [0x04000019], [0x50010000], [0xFE000000, 0x80000000], [0xFE000007, 0x84000000],
    [0xFC000001, 0x04000000], []] : List (List (BitVec 32))).all (fun ws => match decodeWords ws with | .ok _ => false | .error _ => true) = true := by
  decide +kernel

/-! For every statement with premises: states and operands that meet them, clause by clause. -/

/-- Areas of the record in a cluster pad and in a die pad. -/
def areas (s : State) : State :=
  inRec (fun r => { r with
    careas := [(0, { base := clusterPadKey 0, size := 65536, dirCap := 64 })]
    dareas := [(0, { base := diePadKey 0, size := 65536, dirCap := 64 })] }) s

/-- `a1` names a heap object whose body no pad takes. -/
def bigObject (typ fmt : Nat) : State := heapObject 1 0x1000 (hd (2 ^ 24 + 64) typ fmt) [] base

/-- A shape of one dimension of one element. -/
def shapeBytes : List Nat := [1, 0, 0, 0, 1, 0, 0, 0, 0, 0, 0, 0, 1] ++ List.replicate 51 0

theorem witness_ScalarResults : all [plain 0, plain 27, base.calm, ((inCore fun c => { c with act := 11, dbgctl := 1 }) base).calm,
    (regs [(1, 0)] base).src 1 = 0, (regs [(1, 1)] base).src 1 ≠ 0] = true := by decide +kernel

theorem witness_DivisionResults : all [plain 1, plain 2, plain 3, (regs [(1, 7)] base).calm, (regs [(1, 7)] base).src 2 = 0] = true := by
  decide +kernel

theorem witness_BranchAndJumpTargets : all [
    let s := regs [(1, 5), (2, 5), (3, 9)] base
    s.codeLen = 8 && s.ctx.pc = 0 && (s.src 1 = s.src 2) && s.src 1 ≠ s.src 3 && (s.src 1).toInt < (s.src 3).toInt,
    -- the last word of the code, the word after it, and the one before its first
    (0 : Int) + 4 * (1 : BitVec 13).toInt + 4 ≤ 8, !decide ((0 : Int) + 4 * (2 : BitVec 13).toInt + 4 ≤ 8),
    !decide ((0 : Int) ≤ 0 + 4 * (0x1FFF : BitVec 13).toInt),
    ((5 : Int) + (1 : BitVec 16).toInt) % 4 ≠ 0, ((5 : Int) + (0xFFFF : BitVec 16).toInt) % 4 = 0,
    (0 : Int) ≤ 5 + (0xFFFF : BitVec 16).toInt, 5 + (0xFFFF : BitVec 16).toInt + 4 ≤ (8 : Int),
    !decide (0 ≤ (5 : Int) + (0xFFF7 : BitVec 16).toInt)] = true := by decide +kernel

theorem witness_ShapeCoordinate : all [
    (4 : BitVec 3).toNat ≤ 4,
    let s := object 1 0x100 (hd 64 tSHAPES 0) shapeBytes base
    findsAt (.shp 2 1 3) (touch 1) s fun l t => t.calm && decide ((t.ctx.areg 1).sh.typ.toNat = tSHAPES)
      && decide ((t.ctx.areg 1).cur.toNat + 64 * (s.src 3).toNat + 64 ≤ (t.ctx.areg 1).sh.len.toNat)
      && (parseShape (t.bodyBytes l 0 64)).isSome,
    let s := object 1 0x100 (hd 64 tSHAPES 0) [6] base
    findsAt (.shp 2 1 3) (touch 1) s fun l t => t.calm && no (parseShape (t.bodyBytes l 0 64)),
    let s := regs [(3, 1)] (object 1 0x100 (hd 64 tSHAPES 0) shapeBytes base)
    findsAt (.shp 2 1 3) (touch 1) s fun _ t => decide ((t.ctx.areg 1).sh.len.toNat < 0 + 64 * (s.src 3).toNat + 64),
    let s := (object 1 0x100 (hd 64 tSHAPES 0) shapeBytes base)
    let s1 := s.setCtx (s.ctx.setA 1 { s.ctx.areg 1 with cur := 1 })
    findsAt (.shp 2 1 3) (touch 1) s1 fun _ t => decide ((t.ctx.areg 1).cur.toNat % 64 ≠ 0),
    findsAt (.shp 2 1 3) (touch 1) (object 1 0x100 (hd 64 tDATA 0) [] base) fun _ t => decide ((t.ctx.areg 1).sh.typ.toNat ≠ tSHAPES),
    findsNone (.shp 2 1 3) (touch 1) (bigObject tSHAPES 0),
    ({ n := 3, m := 5726623062, l := 2 } : Dim).valid] = true := by decide +kernel

theorem witness_ControlRegisters : all [
    let s := base
    let p := inCore (fun c => { c with act := 11, tshadow := true }) base
    !s.core.isPriv && p.core.isPriv && p.calm && crMap.any (fun e => e.2.1) && crMap.any (fun e => !e.2.1),
    !(crMap.map (·.1)).contains 0x108 && !(crMap.map (·.1)).contains 0x00C && !(crWrites.map (·.1)).contains 6,
    crWrites.all fun e => !crRefused e.1 4 && (e.2.2.2 base 4).calm,
    crWrites.any (fun e => e.2.1), crRefused 1 5, !crRefused 1 4,
    let p := inCore (fun c => { c with act := 11, tshadow := true, secure := true }) base
    p.core.isPriv && p.core.secure && !p.core.lock && p.calm,
    let p := inCore (fun c => { c with act := 11, tshadow := true, secure := true, lock := true }) base
    p.core.isPriv && !(p.core.secure && !p.core.lock)] = true := by decide +kernel

theorem witness_PrefixesAndQueuePorts : all [
    base.codeWord 4 = some 0x04000000, (match decodeUnder .none 0x04000000 with | .ok _ => true | .error _ => false),
    base.codeWord (base.ctx.pc.toNat + 4) = some 0x04000000,
    let s := inRec (fun r => { r with text := [3, 0, 0, 0xFE, 0, 0, 0, 8] }) base
    (match decodeUnder (.imm 1) 0x08000000 with | .ok _ => true | .error _ => false) && s.codeWord 4 = some 0x08000000,
    let w := wordNat (.bscale 3 4 2 1)
    let s := inRec (fun r => { r with text := [0, 0, 0, 0] ++ leBytes w 4 }) base
    s.codeWord (s.ctx.pc.toNat + 4) = some w && (match decodeUnder (.reg 3) w with | .ok _ => true | .error _ => false),
    let s := inRec (fun r => { r with text := [0, 0, 0, 0, 0x80, 0xD0, 0x64, 0xA0] }) base
    s.codeWord (s.ctx.pc.toNat + 4) = some 0xA064D080 && (match decodeUnder (.fn 2) 0xA064D080 with | .ok _ => true | .error _ => false),
    ([.imm 1, .reg 1, .fn 1] : List Pfx).all fun p => match decodeUnder p 0x04000000 with
      | .error e => decide (e = .badPair)
      | .ok _ => false,
    let s := base.setCtx { base.ctx with pc := 4 }
    no (s.codeWord (s.ctx.pc.toNat + 4)),
    let s := inCore (fun c => { c with rx := [{ hdr := 1, body := [7, 8] }], rxpos := 1 }) base
    s.core.rxWords[0]? = some 8,
    base.core.rxWords = [], !base.ctx.nonBlocking 32, ({ base.ctx with portbind := BitVec.ofNat 64 (2 ^ 32) }).nonBlocking 32,
    let s := inCtx (fun x => { x with recs := [{ word := 5 }] }) base
    s.ctx.recs[0]? = some { word := 5 } && s.core.act < 13,
    let s := inRec (fun r => r.setLine 0 0 [9]) base
    !isChan s.site && s.core.recId = some 0 && s.waitq = [] && ((s.recAt 0).wordsFor (clusterOf s.site) 0)[0]? = some 9,
    bitsOf base.ctx.portbind 0 13 < (base.tableRec.map Rec.tableSize).getD 0 && base.sendUsed base.site < 8] = true := by decide +kernel

theorem witness_PointerResults : all [
    let s := object 1 0x100 (hd 16 tDATA 1) [] base
    findsAt (.touch 2 1) (touch 1) (s.setCtx (s.ctx.setA 1 { s.ctx.areg 1 with sh := (s.mem.hdr (corePadKey 0 + 0x100)).shadow }))
      fun l t => decide (l = .pad (corePadKey 0 + 0x100)) && (t.ownObject 1).isSome && (t.ctx.areg 1).sh.valid && t.calm,
    ptrLevel (base.ctx.areg 1).ptr = 7,
    (regs [(3, 2 ^ 32 - 1)] base).src 3 = 0xFFFFFFFF, (base.ctx.areg 1).cur.toNat + (-1 : Int) < 0] = true := by decide +kernel

/-- The place of an object at offset 0x100 of the pad of core 0. -/
def place1 : Loc := .pad (corePadKey 0 + 0x100)

/-- A DATA object of 16 I8 elements, an offset of its last byte, and of the byte after it. -/
def dataObject (fmt len : Nat) (body : List Nat) : State := object 1 0x100 (hd len tDATA fmt) body base

theorem witness_LoadResults : all [
    let s := regs [(3, 15)] (dataObject 1 16 [1, 2, 3, 4, 5, 6, 7, 8, 9, 10, 11, 12, 13, 14, 15, 200])
    findsAt (.ld 2 1 3 0 0) (touch 1) s fun l t => t.calm && no (t.accessFault 1 l .ld 0 (s.accessAt 1 3 0 1))
      && t.clearOfReds l 15 1 && decide (s.accessAt 1 3 0 1 = 15),
    let s := regs [(3, 16)] (dataObject 1 16 [])
    findsAt (.ld 2 1 3 0 0) (touch 1) s fun l t => decide (t.accessFault 1 l .ld 0 (s.accessAt 1 3 0 1) = some (.bounds, 16)),
    let s := regs [(3, 0)] (dataObject 1 16 [])
    findsAt (.ld 2 1 3 1 0) (touch 1) s fun l t => decide (t.accessFault 1 l .ld 1 (s.accessAt 1 3 0 2) = some (.type, 0)),
    let s := dataObject 0 16 []
    let s1 := s.setCtx (s.ctx.setA 1 { s.ctx.areg 1 with cur := 1 })
    findsAt (.ld 2 1 3 1 0) (touch 1) s1 fun l t => decide (t.accessFault 1 l .ld 1 (s1.accessAt 1 3 0 2) = some (.misalign, 1)),
    let s := { dataObject 0 16 [] with poison := [(corePadKey 0 + 0x120) / 32] }
    findsAt (.ld 2 1 3 1 0) (touch 1) s fun l t => decide (t.accessFault 1 l .ld 1 (s.accessAt 1 3 0 2) = some (.poison, 0)),
    findsAt (.ld 2 1 3 2 0) (touch 1) (dataObject 10 16 []) fun l t => no (t.accessFault 1 l .ld 2 0),
    findsNone (.ld 2 1 3 2 0) (touch 1) (bigObject tDATA 10), findsNone (.st 2 1 3 2 0) (touch 1) (bigObject tDATA 10),
    findsNone (.lda 2 1 3 0) (touch 1) (bigObject tPTRS 17), findsNone (.sta 2 1 3 0) (touch 1) (bigObject tPTRS 17)] = true := by decide +kernel

theorem witness_StoreResults : all [
    let s := regs [(2, 200), (3, 15)] (dataObject 1 16 [])
    findsAt (.st 2 1 3 0 0) (touch 1) s fun l t => t.calm && no (t.accessFault 1 l .st 0 (s.accessAt 1 3 0 1))
      && t.clearOfReds l 15 1 && !t.watches (canonOf (t.ctx.areg 1).ptr (t.hdr l)),
    let s := regs [(3, 16)] (dataObject 1 16 [])
    findsAt (.st 2 1 3 0 0) (touch 1) s fun l t => decide (t.accessFault 1 l .st 0 (s.accessAt 1 3 0 1) = some (.bounds, 16)),
    let s := inCore (fun c => { c with dbgctl := 4, watch := padP 0x100 8 }) (dataObject 1 16 [])
    findsAt (.st 2 1 3 0 0) (touch 1) s fun l t => t.calm && t.watches (canonOf (t.ctx.areg 1).ptr (t.hdr l))] = true := by decide +kernel

theorem witness_PointerLoadsStoresAndRoots : all [
    let s := regs [(3, 1)] (object 1 0x100 (hd 16 tPTRS 17) [1] base)
    findsAt (.lda 2 1 3 0) (touch 1) s fun l t => t.calm && no (t.accessFault 1 l .lda 3 (s.accessAt 1 3 0 8)) && t.clearOfReds l 8 8,
    let s := regs [(3, 2)] (object 1 0x100 (hd 16 tPTRS 17) [1] base)
    findsAt (.lda 2 1 3 0) (touch 1) s fun l t => decide (t.accessFault 1 l .lda 3 (s.accessAt 1 3 0 8) = some (.bounds, 16))
      && decide (t.accessFault 1 l .sta 3 (s.accessAt 1 3 0 8) = some (.bounds, 16)),
    let s := object 1 0x100 (hd 16 tPTRS 17) [1] base
    let i : Instr := .sta 2 1 3 0
    findsAt i (touch 1) s fun l t => no (t.accessFault 1 l .sta 3 (s.accessAt 1 3 0 8)) && t.clearOfReds l 0 8
      && finds i (remember l 0 (t.ctx.areg 2).ptr) t fun q u => u.calm
        && !(u.putObj l 0 (leBytes q.toNat 8)).watches (canonOf (u.ctx.areg 1).ptr (u.hdr l)),
    let s := dataObject 1 16 []
    finds (.root 1) (locate (s.ctx.areg 1).ptr) s fun l t => t.calm && t.headerWritable l && !t.stackObjects.contains (t.hdrKey l),
    let s := inRec (fun r => { r with stackObjs := [corePadKey 0 + 0x100] }) (dataObject 1 16 [])
    finds (.unroot 1) (locate (s.ctx.areg 1).ptr) s fun l t => t.stackObjects.contains (t.hdrKey l)] = true := by decide +kernel

theorem witness_AllocationsVersionsAndCopies : all [
    let s := regs [(2, 32), (3, 3 * 2 ^ 16)] base
    s.calm && allocLegal 32 (3 * 2 ^ 16) && decide (32 ≤ copyLimit 3) && decide (s.core.act < 13)
      && (match s.areaFor (s.tableRecId.getD 0) s.site 3 with | some ar => decide (footprint 0 0 32 ≤ ar.free) | none => false),
    !allocLegal 32 (4 * 2 ^ 16), allocLegal 32769 (3 * 2 ^ 16) && decide (copyLimit 3 < 32769),
    let s := dataObject 1 16 []
    let canon := (s.ctx.areg 1).ptr
    leadsTo (.rel 2 1 1) (releaseTarget canon 1 canon place1) s place1 s && leadsTo (.rel 2 1 1) (writeBack canon canon place1 place1) s () s
      && !s.watches canon,
    let s := areas (object 1 0x100 (hd 64 tDATA 1) [1, 2, 3] base)
    let k := corePadKey 0 + 0x100
    match s.areaFor s.rid s.site 2 with
      | some ar => decide ((s.mem.hdr k).foot ≤ ar.free) && decide (ar.dir.length < ar.dirCap) && !isHandler k && s.clearOfReds (.pad k) 0 (s.mem.hdr k).span
          && decide (s.core.hwrs = [])
          && decide (k + (s.mem.hdr k).foot ≤ ar.base + ar.bump)
          && finds (.acq 2 1 2) (makeCopy 2 (s.ctx.areg 1).ptr (.pad k)) s fun key _ => decide (key = ar.base + ar.bump)
      | none => false] = true := by decide +kernel

/-- `a1` names an object of the own pad with a valid shadow. -/
def owned (typ : Nat) : State :=
  let s := object 1 0x100 (hd 16 typ 1) [] base
  s.setCtx (s.ctx.setA 1 { s.ctx.areg 1 with sh := (s.mem.hdr (corePadKey 0 + 0x100)).shadow })

/-- An object of the record lies in the cluster pad, and a context of core 0 has it copied in. -/
def shared : State :=
  let s := areas base
  let k := clusterPadKey 0
  let s1 := inRec (fun r => { r with careas := [(0, { base := k, size := 65536, dirCap := 64, bump := 4096, hdrs := [k] })] })
    { s with mem := (s.mem.setHdr k { w0 := BitVec.ofNat 64 (hd 16 tDATA 1) }).setBytes (k + 32) [7, 8, 9] }
  { s1 with copyins := [{ site := 0, ctx := 0, canon := s1.ptrTo (s1.mem.hdr k).hi (.pad k) }] }

theorem witness_ReleaseAcquireAndCopyIn : all [
    let s := dataObject 1 16 []
    let i : Instr := .rel 2 1 1
    finds i (scopeTarget 1 .rel) s fun _ t => !t.accessPending t.site t.core.act
      && finds i (escapeReg 1 1) t fun y u => finds i (cumulativePush 1) u fun _ v =>
        finds i (releaseObj (t.ctx.areg 1).ptr 1 y.1 y.2) v fun _ w => w.calm,
    let s := dataObject 1 16 []
    let i : Instr := .acq 2 1 5
    finds i (scopeTarget 1 .acq) s fun x t => finds i (acquireObj (t.ctx.areg 1).ptr 5 x.1 x.2) t fun _ w => w.calm,
    let s := owned tBARRIER
    let r := s.ctx.areg 1
    ([false, true] : List Bool).all fun rel =>
      let i : Instr := if rel then .rel 2 1 1 else .acq 2 1 1
      finds i (named r.ptr) s fun x u => decide (u = s.starts i) && finds i (nearestFrom r.ptr 3 x.1 x.2) s fun l t =>
        !typeAllows (t.hdr l).typ (if rel then .rel else .acq) (t.core.inMiss || t.core.isPriv) t.core.isPriv,
    let s := owned tDATA
    let k := corePadKey 0 + 0x100
    let h := s.mem.hdr k
    s.calm && decide (s.ownObject 1 = some k) && decide (s.site < siteCount) && (s.recs.all fun r => r.2.place.all fun x => decide (x < siteCount))
      && !h.padcopy && !h.poison && !s.watches (s.ptrTo h.hi (.pad k)) && typeAllows h.typ .rel false false && typeAllows h.typ .acq false false
      && !s.accessPending s.site s.core.act && decide (s.ctx.acquired = []) && s.clearOfReds (.pad k) 0 h.span
      && !s.bodyPoisoned (.pad k) 0 h.span && !s.secured s.asid (.pad k),
    (match (raise .translate 5 : Op Unit) base with | .error (.trap c _) _ => decide (c = .translate) | _ => false),
    let s := shared
    let src := clusterPadKey 0
    let canon := s.ptrTo (s.mem.hdr src).hi (.pad src)
    let s0 := ({ s with site := 0, copyins := [] } : State).setCore 0 { s.coreAt 0 with act := 0 }
    let h := s.mem.hdr src
    decide (s.copyins[0]? = some { site := 0, ctx := 0, canon := canon }) && decide (s0.objectOf 3 canon = some (canon, .pad src))
      && decide (ptrLevel canon ≤ 3) && decide (s0.nearest 2 canon (.pad src) = .pad src) && decide (h.touchLevel ≠ 0)
      && decide (keyLevel src < h.touchLevel) && no (s0.copyAt s0.rid 0 h.touchLevel canon) && (match s0.areaFor s0.rid 0 h.touchLevel with
        | some ar => decide (h.foot ≤ ar.free) && decide (ar.dir.length < ar.dirCap) && decide (ar.base + ar.bump + h.foot ≤ src)
        | none => false) && !isHandler src && s.clearOfReds (.pad src) 0 h.span && decide (s.core.hwrs = []),
    let s := { shared with copyins := [{ site := 5, ctx := 0, canon := mkPtr 0 2 0 }] }
    s.copyins.all fun c => no (s.coreAt c.site).recId && decide (ptrLevel c.canon = 2),
    no base.copyins[0]?] = true := by decide +kernel

/-- A BARRIER and a DEQUE for two elements in the own pad, named by `a1`. -/
def aBarrier : State := object 1 0x100 (hd 64 tBARRIER 0) [] base
def aDeque : State := object 1 0x100 (hd 48 tDEQUE 0) [] base

/-- The context runs on channel core 0, in a record whose partner is record 0. -/
def onChannel (s : State) : State :=
  let r : Rec := { l := { (s.recAt 0).l with code := slotCode }, st := .running, chan := true, place := [8192] }
  let c : Core := { s.core with recId := some 1, pad := { base := corePadKey 8192, size := padTop, dirCap := 1024 } }
  { (s.setRec 1 r).setCore 8192 c with site := 8192 }

/-- The read of `s30` takes from the DEQUE of `a1`. -/
def portDeque (nb : Bool) (s : State) : State :=
  inCtx (fun x => { x with portbind := BitVec.ofNat 64 (2 ^ 21 + 2 ^ 17 + if nb then 2 ^ 34 else 0) }) s

theorem witness_PrefixesAndQueuePorts_deque : all [
    base.calm && !base.ctx.portbind.getLsbD 21,
    let s := portDeque false (aDeque.setFieldAt place1 8 4 1)
    s.ctx.portbind.getLsbD 21 && decide (bitsOf s.ctx.portbind 17 4 = 1) && decide (ptrLevel (s.ctx.areg 1).ptr ≠ 7)
      && finds (.add 2 30 3) (syncCopy 1 (levelScope (ptrLevel (s.ctx.areg 1).ptr)) 32 dequeOk) s fun v t => decide (v = place1)
        && decide (t.waitq = []) && decide (t.core.act < 13) && t.calm && decide (t.dqCount v ≠ 0)
        && !t.bodyPoisoned v (32 + 8 * ((t.dqBottom v + 2 ^ 32 - 1) % 2)) 8,
    ([false, true] : List Bool).all fun nb =>
      let s := portDeque nb aDeque
      finds (.add 2 30 3) (syncCopy 1 (levelScope (ptrLevel (s.ctx.areg 1).ptr)) 32 dequeOk) s fun v t => t.calm
        && decide (t.waitq = []) && decide (t.dqCount v = 0) && decide (t.ctx.nonBlocking 34 = nb)] = true := by decide +kernel

theorem witness_AtomicsAndReductions : all [
    let s := dataObject 7 16 [5]
    let i : Instr := .amo 2 1 1 0 0
    finds i (atomicTarget 1 1 0 (atomicOpFits 0)) s fun x t => !t.deadTarget x.v x.off 8 && t.clearOfReds x.v x.off 8
      && !t.bodyPoisoned x.v x.off 8 && finds i (pathUpdate x (leBytes 5 8)) (t.putObj x.v x.off (leBytes 5 8)) fun _ u => u.calm,
    let s := { heapObject 1 0x1000 (hd 16 tDATA 7) [5] base with
      ptes := [(pageKey 0 1, { frame := 1, write := true, hbm := false, home := some 3 })]
      routes := [(3, BitVec.ofNat 64 (2 ^ 63 + 2 ^ (22 + 3)))]
      deadPorts := [3] }
    finds (.amo 2 1 4 0 0) (atomicTarget 1 4 0 (atomicOpFits 0)) s fun x t => t.deadTarget x.v x.off 8 && t.calm,
    let s := { dataObject 7 16 [5] with poison := [(corePadKey 0 + 0x120) / 32] }
    finds (.amo 2 1 1 0 0) (atomicTarget 1 1 0 (atomicOpFits 0)) s fun x t => !t.deadTarget x.v x.off 8
      && t.clearOfReds x.v x.off 8 && t.bodyPoisoned x.v x.off 8,
    let s := regs [(2, 5), (3, 9)] (dataObject 7 16 [5])
    let i : Instr := .cas 2 1 1 0 3
    finds i (atomicTarget 1 1 0 atomicFmt) s fun x t => !t.deadTarget x.v x.off 8 && t.clearOfReds x.v x.off 8
      && !t.bodyPoisoned x.v x.off 8 && decide (t.field x.v x.off 8 = (t.src 2).toNat)
      && finds i (pathUpdate x (leBytes 9 8)) (t.putObj x.v x.off (leBytes 9 8)) fun _ u => u.calm,
    let s := regs [(2, 6), (3, 9)] (dataObject 7 16 [5])
    finds (.cas 2 1 1 0 3) (atomicTarget 1 1 0 atomicFmt) s fun x t => !t.deadTarget x.v x.off 8 && t.clearOfReds x.v x.off 8
      && !t.bodyPoisoned x.v x.off 8 && t.calm && decide (t.field x.v x.off 8 ≠ (t.src 2).toNat),
    let s := regs [(2, 5), (3, 5)] (dataObject 7 16 [5])
    finds (.cas 2 1 1 0 3) (atomicTarget 1 1 0 atomicFmt) s fun x t => !t.deadTarget x.v x.off 8 && t.clearOfReds x.v x.off 8
      && !t.bodyPoisoned x.v x.off 8 && t.calm && decide (t.field x.v x.off 8 = (t.src 2).toNat) && decide (t.src 2 = t.src 3),
    finds (.red 2 1 1 0 12) (atomicTarget 1 1 0 (atomicOpFits 12)) (dataObject 10 16 []) fun _ t => t.calm,
    let x : RedTerm := { off := 0, val := 3, sender := some (0, 0) }
    let r : Red := { op := 0, scope := 1, v := place1, line := lineOf place1 0, fmt := 7, terms := [x] }
    let s := { dataObject 7 16 [5] with reds := [r] }
    decide (s.reds[0]? = some r) && !((s.reds.take 0).any fun y => y.holds r.v x)
      && !isHandler (corePadKey 0 + 0x100) && !s.poisoned (corePadKey 0 + 0x120) 8 && no s.reds[1]?,
    let r : Red := { op := 0, scope := 1, v := place1, line := lineOf place1 0, fmt := 7, terms := [{ off := 0, val := 3, sender := some (0, 0) }] }
    let s := { dataObject 7 16 [5] with reds := [r, { r with op := 4 }] }
    decide (s.reds[1]? = some { r with op := 4 }) && (s.reds.take 1).any fun x => r.terms.any (x.holds r.v)] = true := by decide +kernel

theorem witness_FenceAndPalbel : all [
    base.calm && !base.fencePending 5 base.site base.core.act && !base.core.enginePending && decide (base.core.faults = []),
    let r : Red := { op := 0, scope := 1, v := place1, line := lineOf place1 0, fmt := 7, terms := [{ off := 0, val := 3, sender := some (0, 0) }] }
    let s := { dataObject 7 16 [5] with reds := [r] }
    s.fencePending 5 s.site s.core.act,
    (inCore (fun c => { c with wmb := [{}] }) base).core.enginePending,
    let s := inCore (fun c => { c with faults := [{ ctx := 0, record := 5, at_ := 0, kind := 1, id := 0 }] }) base
    !s.fencePending 5 s.site s.core.act && !s.core.enginePending && (s.core.faults.find? fun f => decide (f.ctx = s.core.act)).isSome,
    let s := heapObject 1 0x1000 (hd 16 tDATA 7) [5] base
    let l := Loc.heap 0 0x1000
    (find (pageKey 0 1) s.ptes).isSome && decide (14 + 2 ≤ (s.hdr l).span) && s.writable 0 (0x1000 + 32 + 14) 2
      && s.clearOfReds l 14 2 && decide ((s.hdr l).typ = tDATA) && atomicOpFits 7 (s.hdr l).fmt && decide (8 + 8 ≤ (s.hdr l).len)
      && s.writable 0 (0x1000 + 32 + 8) 8 && !s.bodyPoisoned l 8 8 && s.clearOfReds l 8 8
      && atomicFmt (s.hdr l).fmt && decide (s.field l 8 8 = 0) && decide (s.field l 0 8 = 5) && decide ((s.hdr l).span < 64 + 2),
    no (find (pageKey 0 1) base.ptes)] = true := by decide +kernel

theorem witness_BarrierResults : all [
    let s := aBarrier
    finds (.binit 2 1 3 1) (syncCopy 1 1 64 barrierOk) s fun v t => decide (v = place1) && t.calm && decide (t.barPending v = 0)
      && decide (t.barWaiters v = 0) && (t.barReset v (t.src 3).toNat).calm && !isHandler (corePadKey 0 + 0x100),
    let s := aBarrier.barPendingUp place1
    finds (.binit 2 1 3 1) (syncCopy 1 1 64 barrierOk) s fun v t => decide (t.barPending v ≠ 0),
    let s := aBarrier.barWaitersUp place1
    finds (.binit 2 1 3 1) (syncCopy 1 1 64 barrierOk) s fun v t => decide (t.barPending v = 0) && decide (t.barWaiters v ≠ 0),
    let s := regs [(3, 2 ^ 48 - 1)] aBarrier
    finds (.bpost 2 1 3 1) (syncCopy 1 1 64 barrierOk) s fun v t => !t.barSerr v && !t.barPosted v && decide (t.src 3 ≠ 0)
      && decide ((t.src 3).toNat < 2 ^ 48) && !t.barStrict v && (t.barPost v (t.src 3).toNat).calm,
    let s := regs [(3, 1)] (aBarrier.barPost place1 7)
    finds (.bpost 2 1 3 1) (syncCopy 1 1 64 barrierOk) s fun v t => !t.barSerr v && t.barPosted v,
    let s := regs [(3, 2)] aBarrier
    let i : Instr := .barr 2 1 3 1
    finds i (syncCopy 1 1 64 barrierOk) s fun v t => !t.barSerr v && !t.fencePending 1 t.site t.core.act
      && finds i (releaseAll 1) t fun _ u => finds i (syncCopy 1 1 64 barrierOk) u fun v' w => (w.barCredit v' 2).calm,
    let s := regs [(3, 2 ^ 32 - 1)] aBarrier
    let i : Instr := .bwait 2 1 3 1
    finds i (syncCopy 1 1 64 barrierOk) s fun v t => !t.barSerr v && decide (t.waitq = []) && t.barDone v (2 ^ 32 - 1)
      && finds i (refreshClean 1) t fun _ u => u.calm,
    finds (.bwait 2 1 3 1) (syncCopy 1 1 64 barrierOk) aBarrier fun v t => !t.barSerr v && decide (t.waitq = []) && !t.barDone v 0] = true := by decide +kernel

theorem witness_DequesEventsAndMutexes : all [
    let s := regs [(3, 7)] aDeque
    finds (.dqpush 2 1 3 1) (syncCopy 1 1 32 dequeOk) s fun v t => decide (dqCap (t.hdr v).len = some 2) && decide (t.src 3 ≠ 0)
      && decide (t.dqCount v = 0) && t.calm && !t.fencePending 1 t.site t.core.act && decide (v = place1),
    let s := regs [(3, 7)] (aDeque.setFieldAt place1 8 4 2)
    finds (.dqpush 2 1 3 1) (syncCopy 1 1 32 dequeOk) s fun v t => decide (t.dqCount v = 2) && t.calm,
    finds (.dqpop 2 1 1) (syncCopy 1 1 32 dequeOk) (aDeque.setFieldAt place1 8 4 1) fun v t => decide (t.dqCount v = 1)
      && !t.bodyPoisoned v 32 8 && (t.setFieldAt v 8 4 (t.dqBottom v + 2 ^ 32 - 1)).calm,
    let s := { aDeque.setFieldAt place1 8 4 1 with poison := [(corePadKey 0 + 0x140) / 32] }
    finds (.dqpop 2 1 1) (syncCopy 1 1 32 dequeOk) s (fun v t => decide (t.dqCount v = 1) && t.bodyPoisoned v 32 8)
      && finds (.dqsteal 2 1 1) (syncCopy 1 1 32 dequeOk) s (fun v t => decide (t.dqCount v = 1) && t.bodyPoisoned v 32 8),
    finds (.dqpop 2 1 1) (syncCopy 1 1 32 dequeOk) aDeque fun v t => decide (t.dqCount v = 0) && t.calm,
    finds (.dqsteal 2 1 1) (syncCopy 1 1 32 dequeOk) (aDeque.setFieldAt place1 8 4 1) fun v t => decide (t.dqCount v = 1)
      && !t.bodyPoisoned v 32 8 && (t.setFieldAt v 0 4 (t.dqTop v + 1)).calm,
    finds (.dqsteal 2 1 1) (syncCopy 1 1 32 dequeOk) aDeque fun v t => decide (t.dqCount v = 0) && t.calm,
    let s := regs [(1, 31)] base
    s.calm && !isChan s.site && decide (s.core.recId = some 0) && decide ((s.src 1).toNat < 32) && s.foremost (.line 0 (clusterOf 0) 31)
      && decide ((s.recAt 0).wordsFor (clusterOf 0) 31 = []),
    let s := inRec (fun r => r.setLine (clusterOf 0) 4 [9]) (regs [(1, 4)] base)
    s.foremost (.line 0 (clusterOf 0) 4) && decide (((s.recAt 0).wordsFor (clusterOf 0) 4)[0]? = some 9),
    let s := regs [(1, 2 ^ 13 + 30 * 2 ^ 16), (2, 1)] base
    s.calm && decide ((s.src 1).toNat < 2 ^ 21) && decide (bitsOf (s.src 1) 14 2 = 0) && decide (bitsOf (s.src 1) 16 5 = 30)
      && finds (.evsig 1 2) (evTarget (s.src 1)) s (fun p t => decide (p = (0, clusterOf 0)) && decide (t = s.starts (.evsig 1 2))
        && decide (((s.recAt 0).line (clusterOf 0) 30).length < 16)),
    let s := inRec (fun r => r.setLine (clusterOf 0) 30 (List.replicate 16 1)) (regs [(1, 2 ^ 13 + 30 * 2 ^ 16), (2, 1)] base)
    decide (16 ≤ ((s.recAt 0).line (clusterOf 0) 30).length),
    let s := regs [(1, 15)] base
    decide (((s.recAt s.rid).mutex (clusterOf 0) 15).holder = none) && s.foremost (.mutex s.rid (clusterOf 0) 15) && s.calm,
    let s := inRec (fun r => r.setMutex (clusterOf 0) 15 { holder := some (5, 0) }) (regs [(1, 15)] base)
    decide (((s.recAt s.rid).mutex (clusterOf 0) 15).holder = some (5, 0)) && decide ((5, 0) ≠ s.holderName),
    let s := inRec (fun r => r.setMutex (clusterOf 0) 15 { holder := some (0, 0) }) (regs [(1, 15)] base)
    decide (((s.recAt s.rid).mutex (clusterOf 0) 15).holder = some s.holderName) && !s.fencePending 2 s.site s.core.act,
    let s := regs [(1, 2 ^ 13), (2, 1)] (inRec (fun r => { r with text := [1, 16, 1, 96] }) base)
    let w : Waiter := { key := .space 0 (clusterOf 0) 0, site := 0, ctx := 0 }
    let u := { s with waitq := [w] }
    decide (u.senders[0]? = some w) && decide (u.codeWord 0 = some (wordNat (.evsig 1 2)))
      && (match decodeUnder .none (wordNat (.evsig 1 2)) with | .ok j => decide (j = .evsig 1 2) | _ => false)
      && !u.core.tshadow && after (.evsig 1 2) u (fun _ => true) && u.calm && (u.src 1).getLsbD 13 && !isChan u.site
      && decide (u.tableRecId.getD 0 = 0) && decide (bitsOf (u.src 1) 16 5 ≠ 31) && decide (u.src 2 ≠ 0)
      && decide (((u.recAt 0).line (clusterOf 0) 0).length < 16),
    let s := regs [(1, 0), (2, 1)] base
    decide (s.tableRecId = some 0) && decide (((s.recAt 0).tableSite (bitsOf (s.src 1) 0 13)).map clusterOf = some (clusterOf 0))] = true := by decide +kernel

theorem witness_SuperstepResults : all [
    let s := base
    s.calm && decide (s.core.act ≠ 12) && decide (s.core.ctxNo = 0) && no ((s.recAt s.rid).arrivalOf s.arriving.lcore)
      && !s.fencePending (s.arriving.level + 1) s.site s.core.act,
    let t := base.setRec base.rid { base.recAt base.rid with arrivals := (base.recAt base.rid).arrivals ++ [base.arriving] }
    !t.disagrees base.rid base.arriving && t.stepReady base.rid base.arriving,
    let s := inCtx (fun x => { x with level := 3 }) (inRec (fun r => { r with place := [0, 1] }) base)
    let t := s.setRec s.rid { s.recAt s.rid with arrivals := [s.arriving] }
    !t.disagrees s.rid s.arriving && !t.stepReady s.rid s.arriving,
    let s := inCtx (fun x => { x with level := 3 }) (inRec (fun r => { r with
      place := [0, 1]
      arrivals := [{ lcore := 1, level := 3, count := 5, phase := false }] }) base)
    let t := s.setRec s.rid { s.recAt s.rid with arrivals := (s.recAt s.rid).arrivals ++ [s.arriving] }
    no ((s.recAt s.rid).arrivalOf s.arriving.lcore) && t.disagrees s.rid s.arriving,
    -- an exchange at a device-level boundary, and its end
    let s := inCtx (fun x => { x with level := 3, sphase := true }) base
    let t := s.setRec s.rid { s.recAt s.rid with arrivals := (s.recAt s.rid).arrivals ++ [s.arriving] }
    s.calm && !s.fencePending (s.arriving.level + 1) s.site s.core.act && s.arriving.phase && decide (3 ≤ s.arriving.level)
      && !t.disagrees s.rid s.arriving && t.stepReady s.rid s.arriving
      && ((t.moveOn s.rid s.arriving).recAt s.rid).arrivals.any fun x => x.moved,
    let s := inCtx (fun x => { x with level := 3, sphase := true }) base
    let x := { s.arriving with moved := true }
    let s1 := inRec (fun r => { r with arrivals := [x] }) s
    s1.calm && decide ((s1.recAt s1.rid).arrivalOf s1.arriving.lcore = some x) && x.moved,
    let s := inCore (fun c => { c with act := 1 }) base
    decide (s.core.act ≠ 12) && decide (s.core.ctxNo ≠ 0),
    let s := inRec (fun r => { r with arrivals := [base.arriving] }) base
    decide (((s.recs.map fun e => e.2.arrivals.map fun x => (e.1, x)).flatten)[0]? = some (0, base.arriving))
      && s.stepReady 0 base.arriving] = true := by decide +kernel

/-- The core in which a helper runs. -/
def helper : State := inCore (fun c => { c.setCtx 1 { c.ctxAt 0 with st := .ready } with act := 1 }) base

theorem witness_HelpersAndParking : all [
    let s := regs [(1, 4), (2, 1), (3, 8)] base
    s.calm && decide (s.core.act ≠ 12) && !s.core.tuft && decide (s.core.ctxNo = 0) && decide ((s.src 2).toNat % 4 ≠ 0)
      && decide ((s.src 1).toNat + 4 ≤ s.codeLen) && decide (s.codeLen < (s.src 3).toNat + 4) && decide (s.core.freeHelper = some 1),
    no ((List.range 11).foldl (fun (c : Core) n => c.setCtx n { c.ctxAt n with st := .ready }) base.core).freeHelper,
    (inCore (fun c => { c with tuft := true }) base).core.tuft,
    let s := helper
    s.calm && decide (s.core.ctxNo ≠ 0) && decide (s.core.act ≤ 10) && !s.accessPending s.site s.core.act
      && decide (s.core.commandsOf s.core.act = []) && decide (s.core.owed = []) && decide (s.core.recId = some 0),
    let s := regs [(1, 10)] base
    decide (1 ≤ (s.src 1).toNat) && decide ((s.src 1).toNat ≤ 10) && decide ((s.core.ctxAt 10).st = .free)
      && decide (((s.core.setCtx 10 { s.core.ctxAt 10 with st := .exited }).ctxAt 10).st = .exited)
      && decide (((s.core.setCtx 10 { s.core.ctxAt 10 with st := .waiting }).ctxAt 10).st = .waiting),
    -- the slot after the last that fits, a slot off its alignment, and a file that does not exist
    parkRegFits 0 31 && parkRegFits 1 15 && parkRegFits 3 15 && parkRegFits 4 7 && parkRegFits 5 3 && parkRegFits 6 0,
    decide (6 ≤ (6 : BitVec 3).toNat), decide (3071 + parkSlots 0 ≤ 3072 ∧ 3072 < 3072 + parkSlots 0), decide (1 % parkAlign 1 ≠ 0),
    decide (3008 % parkAlign 3 = 0 ∧ 3008 + parkSlots 3 ≤ 3072), !base.core.tileBusy 15,
    let s := inCore (fun c => { c with ptrSlots := [2] }) base
    decide (2 ∈ s.core.ptrSlots) && decide (0 ∉ s.core.ptrSlots) && decide (2 % parkAlign 1 = 0),
    ({ bits := 0, desc := 0 } : WReg).ok || ({ bits := 0, desc := 5 } : WReg).ok,
    !({ bits := 0, desc := BitVec.allOnes 64 } : WReg).ok || !({ bits := 1, desc := 0 } : WReg).ok] = true := by decide +kernel

/-- Four cores of a cluster's first row belong to the record. -/
def fourCores : State :=
  let s := inRec (fun r => { r with place := [0, 1, 2, 3] }) (regs [(1, 4)] base)
  let c := s.core
  let put := fun (t : State) n => t.setCore n { c.setCtx 0 { c.ctxAt 0 with lcore := BitVec.ofNat 13 n } with recId := some 0 }
  put (put (put s 1) 2) 3

theorem witness_TuftResults : all [
    let s := fourCores
    let ms := s.ownRec.tuftSites 4 s.site
    s.calm && decide (s.core.act = 0) && !s.core.tuft && no s.core.tuftFail && decide ((s.src 1).toNat = 4) && decide (ms.length = 4)
      && (ms.all fun m => !s.fused.contains m && decide ((s.coreAt m).recId = s.core.recId) && !(s.coreAt m).halted && !(s.coreAt m).tuft)
      && ms.contains s.site && (ms.any fun m => decide (m ≠ s.site) && no (s.coreAt m).tuftAsk)
      && (List.range 11).all fun n => n = 0 || decide ((s.core.ctxAt n).st = .free),
    let s := fourCores
    let ms := s.ownRec.tuftSites 4 s.site
    let t := ms.foldl (fun (u : State) m => if m = s.site then u else u.setCore m { u.coreAt m with tuftAsk := some 4 }) s
    ms.all fun m => decide (m = s.site) || decide ((t.coreAt m).tuftAsk = some (t.src 1)),
    decide (base.ownRec.tuftSites 4 base.site = [0]),
    let s := inCore (fun c => c.setCtx 10 { c.ctxAt 10 with st := .exited }) fourCores
    !(List.range 11).all fun n => n = 0 || decide ((s.core.ctxAt n).st = .free),
    let s := inCore (fun c => { c with tuft := true, tuftSize := 4, leader := true }) fourCores
    decide (s.core.act ≠ 12) && s.core.tuft && (s.dissolve s.site).calm,
    let s := inCore (fun c => { c with tuft := true, tuftSize := 4, leader := true, tuftAsk := some 4 }) fourCores
    s.calm && decide (s.core.act ≠ 12) && s.core.tuft && no s.core.tuftFail && s.core.tuftAsk.isSome
      && decide ((s.tuftOf s.site).headD s.site = s.site)] = true := by decide +kernel

theorem witness_CollectionResults : all [
    let s := regs [(1, 4), (2, 3), (3, 11), (4, 10)] base
    decide (4 ≤ (s.src 1).toNat) && s.calm && decide ((s.src 0).toNat = 0) && decide ((s.src 2).toNat < 4)
      && finds (.scree 5 2) (Machine.scree 3) s (fun _ t => t.calm)
      && decide (11 ≤ (s.src 3).toNat) && (sstatValue s (s.src 4).toNat).isSome,
    !base.heapPassDue 0,
    let a : AsidSt := { vf := 0, pasid := 0, regions := [{ base := 2 ^ 21, used := 64 }], objs := [2 ^ 21], passPending := some 1 }
    let s := { inRec (fun r => { r with boundary := true }) (pages [16] base) with asids := [(0, a)] }
    s.heapPassDue 0 && (s.passPages 0).isEmpty && !s.liveIn 0 (s.heapLive 0) { base := 2 ^ 21, used := 64 },
    -- a root names an object of an unmapped page, and the host has not answered for it yet
    let a : AsidSt := { vf := 0, pasid := 0, regions := [{ base := 0x200000, used := 64 }], objs := [0x200000], passPending := some 1 }
    let q : PageReq := { asid := 0, page := 512, write := false, owner := .device, refused := false }
    let s := { inCtx (fun x => x.setA 1 { ptr := heapP (2 ^ 21) }) (inRec (fun r => { r with boundary := true }) base) with
      asids := [(0, a)], pageReqs := [q] }
    s.heapPassDue 0 && (s.passPages 0).contains 0x200000 && (s.heapLive 0).contains (none, .heap 0 0x200000)
      && decide ((s.pageReqs.filter fun q => decide (q.asid = 0) && decide (q.page = 512) && decide (q.owner = .device)) = [q])] = true := by decide +kernel

theorem witness_ChannelCoreResults : all [
    let s := onChannel (heapObject 1 0x1000 (hd 16 tDATA 0) [1, 2, 3] base)
    isChan s.site && s.calm && finds (.hrd 2 1 3 2) (heapAccess 1 3 2 .ld) s (fun r t => t.calm
      && finds (.hrd 2 1 3 2) (ownWrites r.1) t fun _ u => decide (u = t)),
    let s := onChannel (regs [(3, 12)] (heapObject 1 0x1000 (hd 16 tDATA 0) [1, 2, 3] base))
    finds (.hwr 2 1 3 2) (heapAccess 1 3 2 .st) s fun r t => decide (r.2 = 12) && t.calm && decide (t.posts = [])
      && carriedByte (t.hdr r.1).typ r.2,
    let s := onChannel (regs [(3, 8)] (heapObject 1 0x1000 (hd 128 tKVTABLE 0) [] (inShadow base)))
    (s.core.inMiss || s.core.isPriv) && finds (.hwr 2 1 3 2) (heapAccess 1 3 2 .st) s fun r t => t.calm && decide (t.posts = [])
      && !carriedByte (t.hdr r.1).typ r.2,
    let h : HeapWrite := { ctx := 0, obj := .heap 0 0x1000, off := 0, bytes := [1] }
    base.clearOfReds h.obj h.off 1 && decide (((inCore (fun c => { c with hwrs := [h] }) base).coreAt 0).hwrs = h :: []) && decide ((base.coreAt 0).hwrs = []),
    let s0 := areas (heapObject 1 0x1000 (hd 16 tDATA 0) [1, 2, 3] base)
    let k := clusterPadKey 0
    let s1 := { s0 with mem := (s0.mem.setHdr k { w0 := BitVec.ofNat 64 (hd 16 tDATA 0) }).setHdr (k + 0x100) { w0 := BitVec.ofNat 64 (hd 64 tBARRIER 0) } }
    let s2 := inRec (fun r => { r with careas := [(0, { base := k, size := 65536, dirCap := 64, bump := 4096, hdrs := [k, k + 0x100] })] }) s1
    let s3 := s2.setCtx ((s2.ctx.setA 2 { ptr := padPtr (s2.recAt 0) 0 k }).setA 4 { ptr := padPtr (s2.recAt 0) 0 (k + 0x100) })
    let s := onChannel (regs [(3, 16)] s3)
    let i : Instr := .cpostBarrier 2 1 3 4
    finds i (Machine.heapObject 1) s fun ls t => typeAllows (t.hdr ls).typ .ld (t.core.inMiss || t.core.isPriv) t.core.isPriv
      && decide (16 ≤ (t.hdr ls).span) && decide (ptrLevel (s.ctx.areg 2).ptr = 2)
      && decide (ls = .heap 0 0x1000) && finds i (translateRead (.ctx t.site t.core.act) none ls 0 16 (s.ctx.areg 1).ptr) t (fun _ x =>
        !x.readPoisoned none ls 0 16 && finds i (ownWrites ls) x fun _ y => decide (y = x))
      && finds i (locate (s.ctx.areg 2).ptr) t fun ld u => decide ((u.hdr ld).typ = tDATA) && decide ((u.hdr ld).hi = (t.hdr ls).hi)
        && decide (16 ≤ (u.hdr ld).span) && finds i (locate (u.ctx.areg 4).ptr) u fun lb v => decide ((v.hdr lb).typ = tBARRIER)
          && v.calm && decide ((v.posts.filter fun q => decide (q.site = v.site)).length < 16),
    let s := onChannel base
    let p : Post := { site := 8192, ctx := 0, src := .heap 0 0x1000, srcOff := 0, dst := place1, dstOff := 0, n := 4, bar := none }
    s.calm && decide (s.posts = []) && decide (s.core.hwrs = []) && decide (s.core.faults = [])
      && decide (({ s with posts := [p] } : State).posts.filter (fun q => decide (q.site = s.site) && decide (q.ctx = s.core.act)) = [p]),
    let s := heapObject 1 0x1000 (hd 16 tDATA 0) [1, 2, 3] (dataObject 0 16 [])
    let p : Post := { site := 8192, ctx := 0, src := .heap 0 0x1000, srcOff := 0, dst := place1, dstOff := 0, n := 4, bar := none }
    decide (({ s with posts := [p] } : State).posts[0]? = some p) && decide (s.postReach p = 4)
      && s.clearOfReds p.src p.srcOff p.n && s.clearOfReds p.dst p.dstOff p.n
      && (pageStarts (0x1000 + 32) 4).all fun a => s.hbmResident 0 (a / 4096)] = true := by decide +kernel

theorem witness_VectorArithmetic : all [
    base.still 31 && base.still 0 && base.calm && !isChan base.site && plain 27,
    (onChannel base).core.recId = some 1 && isChan (onChannel base).site && (Instr.vadd 1 2 3 0 0).needsVector,
    !(inCore (fun c => { c with streams := c.streams.setIfInBounds 7 { run := true } }) base).still 31] = true := by decide +kernel

theorem witness_VectorComparesReductionsAndScans : all [
    base.still 31 && base.calm && !isChan base.site, decide ((7 : BitVec 3) ≠ 0) && decide ((12 : BitVec 5).toNat ≤ 12),
    decide (base.ctx.fn ≠ 1) && decide (base.ctx.fn ≠ 2), !(activeList (base.pred 0) 8 128).isEmpty] = true := by decide +kernel

/-- A stream bound to the object of `a1`, of four bytes. -/
def aStream (write run : Bool) (pos : Nat) : State :=
  let s := dataObject 0 16 [1, 2, 3, 4]
  let x : Stream :=
    { bound := true, run := run, dir := write, wcode := 0, n := [4, 1, 1, 1], pos := pos, loc := place1
      a := { s.ctx.areg 1 with sh := (s.mem.hdr (corePadKey 0 + 0x100)).shadow } }
  inCore (fun c => { c with streams := c.streams.setIfInBounds 7 x }) s

theorem witness_HelpersAndParking_streams : all [
    let s := regs [(2, 3056)] (aStream false true 1)
    s.calm && !s.still 31 && !(s.core.stream (31 - 24)).dir && (match rdV 31 (s.starts (.park 31 2 2)) with
      | .ok _ _ => true
      | .error _ _ => false) && decide ((s.src 2).toNat % 16 = 0) && decide ((s.src 2).toNat + 16 ≤ 3072),
    let s := regs [(2, 3056)] (aStream true true 1)
    !s.still 31 && (s.core.stream (31 - 24)).dir && finds (.unpark 31 2 2) (wrV 31 0) s fun _ t => t.calm,
    ((inCore (fun c => c.parkAt 0 [1, 2] (some (owned tDATA |>.ctx.areg 1).sh)) base).core.parkedShadow 0).valid] = true := by decide +kernel

theorem witness_VectorMemoryAndStreams : all [
    let s := dataObject 0 256 [1, 2, 3]
    findsVec (.vld 2 1 3 0 0 1) (vecAccess 1 0 8 true 128 (s.vecAt 1 3 1 8)) s fun t => s.still 2 && t.still 2 && t.calm && plain 3,
    let s := dataObject 0 256 [1, 2, 3]
    findsVec (.vgth 2 1 3 0 2 0) (vecAccess 1 0 32 true 32 (s.laneAt 1 3 0 32)) s fun t => s.still 3 && t.still 2 && t.calm,
    let s := dataObject 0 256 [1, 2, 3]
    findsVec (.vst 2 1 3 0 0 1) (vecAccess 1 0 8 false 128 (s.vecAt 1 3 1 8)) s fun t => t.still 2 && t.calm,
    let s := dataObject 0 256 [1, 2, 3]
    findsVec (.vsct 2 1 3 0 2 0) (vecAccess 1 0 32 false 32 (s.laneAt 1 3 0 32)) s fun t => t.still 2 && t.calm
      && !t.watches (canonOf (t.ctx.areg 1).ptr (t.hdr place1)),
    let s := regs [(3, 7)] (dataObject 0 256 [])
    findsAt (.sbind 31 1 3) (touch 1) s fun l t => t.calm && decide ((s.src 3).toNat < 8) && !(s.core.stream 7).bound
      && decide (l = place1) && typeAllows (t.ctx.areg 1).sh.typ.toNat .st (t.core.inMiss || t.core.isPriv) t.core.isPriv
      && decide ((t.ctx.areg 1).sh.typ.toNat ≠ tPTRS) && vecFits (t.ctx.areg 1).sh.fmt.toNat 64
      && decide ((t.ctx.areg 1).cur.toNat % 8 = 0),
    let s := dataObject 0 256 []
    let s1 := regs [(3, 6)] (s.setCtx (s.ctx.setA 1 { s.ctx.areg 1 with cur := 4 }))
    findsAt (.sbind 31 1 3) (touch 1) s1 fun _ t => decide ((t.ctx.areg 1).cur.toNat % 8 ≠ 0),
    let s := regs [(1, 2 ^ 24 - 1)] (aStream false false 0)
    (s.core.stream 7).bound && !(s.core.stream 7).run && s.calm && decide ((s.src 1).toNat < 2 ^ 24),
    !(base.core.stream 7).bound,
    let x := ((aStream false false 0).core.stream 7)
    decide (x.total = 4) && decide (0 ≤ (x.base : Int) + x.low) && decide ((x.base : Int) + (x.high + 1) ≤ vecLimit x.a.sh (!x.dir)),
    ((aStream true true 2).erefDown place1).calm,
    let s := aStream false true 1
    let x := s.core.stream 7
    x.run && !x.dir && decide (x.buf = []) && decide (x.pos < x.total)
      && (List.range (x.piece x.pos)).all fun j => !s.readPoisoned s.me x.loc (x.offset (x.pos + j)).toNat (x.width / 8)
        && s.clearOfReds x.loc (x.offset (x.pos + j)).toNat (x.width / 8),
    (aStream true true 4).calm && ((aStream true true 4).core.stream 7).run] = true := by decide +kernel

theorem witness_SpecialFunctionsAndFormats : all [
    base.still 31 && base.calm && !isChan base.site, decide ((30 : BitVec 5).toNat * 4 + (0 : BitVec 2).toNat ≤ 120),
    decide (base.ctx.fn / 8 < cvtParts 120) && decide (base.ctx.fn / 8 < codeParts 3),
    decide (cvtParts 120 ≤ (({ base.ctx with pfx := .fn 32 }).fn / 8)),
    decide ((5 : BitVec 5).toNat ≤ 5) && decide ((4 : BitVec 3).toNat ≤ 4),
    let s := object 5 0x200 (hd 64 tDATA (scaleFmt 5) 4) [] base
    findsAt (.bscaleObject 2 3 5 0 5) (touch 5) s fun l t => s.still 3 && t.still 2 && t.calm && decide ((t.ctx.areg 5).sh.typ.toNat = tDATA)
      && decide ((t.ctx.areg 5).sh.blog = 4) && decide ((t.ctx.areg 5).sh.fmt.toNat = scaleFmt 5)
      && decide (0 + 1 < scaleBytes (scaleFmt 5) 4 (t.ctx.areg 5).sh.len.toNat)
      && !t.watches (canonOf (t.ctx.areg 5).ptr (t.hdr l)),
    let s := regs [(3, 3)] (dataObject 6 64 ((shippedTable 3).map fun w => (leBytes w.toNat 4).map (·.toNat)).flatten)
    findsAt (.dtld 2 1 3) (touch 1) s fun l t => t.calm && decide ((s.src 3).toNat < 4) && decide ((t.ctx.areg 1).sh.fmt = 6)
      && decide (0 + 4 * 16 ≤ (t.ctx.areg 1).sh.len.toNat) && !t.bodyPoisoned l 0 64
      && t.clearOfReds l 0 64 && no (tableBad ((List.range 16).map fun i => BitVec.ofNat 32 (ofBytes (t.bodyBytes l (4 * i) 4)))),
    let s := regs [(3, 3)] (dataObject 6 64 [1, 0, 0, 0])
    findsAt (.dtld 2 1 3) (touch 1) s fun l t => decide (tableBad ((List.range 16).map fun i => BitVec.ofNat 32
        (ofBytes (t.bodyBytes l (4 * i) 4))) = some 0)] = true := by decide +kernel

/-- A command word from its fields: values and their lowest bits. -/
def kword (fields : List (Nat × Nat)) : KWord := BitVec.ofNat 256 (fields.map fun f => f.1 * 2 ^ f.2).sum

/-- Two matrices of a format in the own pad, `a1` and `a2`. -/
def matrices (fmt : Nat) (a b : List Nat) : State :=
  object 2 0x2000 (hd 4096 tDATA fmt) b (object 1 0x100 (hd 4096 tDATA fmt) a base)

/-- The word of a WMB operation of one tile on them. -/
def wmbWord (op fmt acc : Nat) (more : List (Nat × Nat)) : KWord :=
  kword ([(op, 0), (acc, 14), ((padP 0x100 (fmt * 8)).toNat, 64), ((padP 0x2000 (fmt * 8)).toNat, 128)] ++ more)

/-- One row stride of eight elements for both operands, and a depth of eight. -/
def square : List (Nat × Nat) := [(1, 216), (1, 228), (1, 240)]

def ka : Nat := corePadKey 0 + 0x100
def kb : Nat := corePadKey 0 + 0x2000

/-- The command's only tile job runs on multiplier 0 of cluster 0. -/
def aJob (op : Nat) (k : KWord) (s : State) : State :=
  let m : Cmd := { word := k, started := true, jobs := [(0, 0)], rows := [0], zeroed := [0]
                   erefs := if op = 4 ∨ op = 5 then [.pad ka] else [.pad ka, .pad kb] }
  inCore (fun c => { c with wmb := [m] }) s

def theJob (s : State) : Bool := decide (s.jobOn 0 0 = some (0, 0, 0)) && decide ((s.coreAt 0).wmb.length = 1)

theorem unpoisoned (s : State) (h : s.poison = []) (g : s.lostChannels = []) (l : Loc) (off n : Nat) : s.readPoisoned none l off n = false := by
  have hb : ∀ off n, s.bodyPoisoned l off n = false := by
    intro off n
    cases l <;> simp [State.bodyPoisoned, State.poisoned, State.channelLost, h, g]
  simp only [State.readPoisoned, hb, Bool.false_or]
  cases s.visibleSlot l none <;> simp

theorem fits_of {s : State} {m : Cmd} {la lb : Loc}
    (h : (((opRuns m.word 0 (s.hdr la)).all (runFits (opFmt m.word 0 (s.hdr la)) (opBlog m.word 0) (s.hdr la)))
      && ((opRuns m.word 1 (s.hdr lb)).all (runFits (opFmt m.word 1 (s.hdr lb)) (opBlog m.word 1) (s.hdr lb)))
      && decide (s.poison = [] ∧ s.lostChannels = []) && decide (s.reds = []) && decide (s.olds = []) && decide (m.readings = [])) = true) : s.operandsFit m la lb := by
  simp only [Bool.and_eq_true, List.all_eq_true, decide_eq_true_eq] at h
  obtain ⟨⟨⟨⟨⟨ha, hb⟩, hp, hg⟩, hq⟩, ho⟩, hr⟩ := h
  exact ⟨ha, hb, fun l _ off n => unpoisoned s hp hg l off n, by simp [hq], by simp [ho], hr⟩

def theCmd (s : State) : Cmd := (s.coreAt 0).wmb.headD {}

theorem witness_WmbCommands : all [
    let s := dataObject 0 64 [1, 2, 3]
    findsAt (.kld 1 1 3) (touch 1) s fun l t => t.calm && decide ((t.ctx.areg 1).sh.typ.toNat = tDATA) && decide ((t.ctx.areg 1).sh.fmt = 0)
      && decide (0 + 32 ≤ (t.ctx.areg 1).sh.len.toNat) && !t.bodyPoisoned l 0 32 && t.clearOfReds l 0 32,
    let s := dataObject 0 64 [1, 2, 3]
    findsAt (.kst 1 1 3) (touch 1) s fun l t => t.calm
      && !(t.putObj l 0 (leBytes 0 32)).watches (canonOf (t.ctx.areg 1).ptr (t.hdr l)),
    let s := inCore (fun c => { c with k := c.k.setIfInBounds 1 (wmbWord 1 11 1 square) }) (matrices 11 [] [])
    let i : Instr := .wpush 2 1
    wmbWordOk (s.core.kreg 1) && (wmbPointers (s.core.kreg 1)).all (fun p => finds i (pushPointer p) s fun _ t => decide (t = s.starts i))
      && !arriveNull (s.core.kreg 1) && !kArrive (s.core.kreg 1)
      && decide (s.core.wmbQueued < 2) && finds i (releaseAll (kScope (s.core.kreg 1))) s (fun _ t => t.calm),
    let w := kword [(4, 0), (1, 9), (1, 14), ((padP 0x100 88).toNat, 64), ((mkPtr 0 7 0).toNat, 128), (1, 216)]
    let s := inCore (fun c => { c with k := c.k.setIfInBounds 1 w }) (matrices 11 [] [])
    let i : Instr := .wpush 2 1
    wmbWordOk w && kArrive w && arriveNull w && (wmbPointers w).all (fun p => finds i (pushPointer p) s fun _ t => decide (t = s.starts i)),
    let b := corePadKey 0 + 0x3000
    let w := kword [(4, 0), (1, 9), (1, 14), ((padP 0x100 88).toNat, 64), ((padP 0x3000).toNat, 128), (1, 216)]
    let s := inCore (fun c => { c with k := c.k.setIfInBounds 1 w }) (object 3 0x3000 (hd 64 tBARRIER 0) [] (matrices 11 [] []))
    let i : Instr := .wpush 2 1
    wmbWordOk w && kArrive w && !arriveNull w && (wmbPointers w).all (fun p => finds i (pushPointer p) s fun _ t => decide (t = s.starts i))
      && finds i (releaseAll (kScope w)) s fun _ t => finds i (orNone (pushBarrier (kPtr w 128) (kScope w))) t fun x v =>
        decide (x = some (.pad b)) && v.calm,
    let s := inCore (fun c => { c with wmb := [{ fresh := [0] }, { fresh := [0] }] }) base
    decide (2 ≤ s.core.wmbQueued),
    !wmbWordOk (base.core.kreg 1),
    let s := regs [(1, 1), (2, 32767)] base
    decide (1 ≤ ((s.src 1).toNat + 65536 - s.ctx.wbatch.toNat) % 65536 ∧ ((s.src 1).toNat + 65536 - s.ctx.wbatch.toNat) % 65536 < 32768)
      && decide (((s.src 2).toNat + 65536 - s.ctx.wbatch.toNat) % 65536 < 32768) && decide (s.core.faults = []) && decide (s.core.wmb = [])
      && finds (.wwait 3 0) (acquireDests []) s (fun _ t => t.calm),
    let s := inCore (fun c => { c with wmb := [{}] }) base
    s.core.wmb.any fun m => decide (m.ctx = s.core.act) && covered m.batch 0,
    let s := inCore (fun c => { c with owed := [{ ctx := 0, batch := 0, record := { word := 1 } }] }) base
    (s.core.owed.any fun r => decide (r.ctx = s.core.act) && covered r.batch 0) && decide (s.core.faults = []),
    let x : Word × Loc × Nat × Nat := (padP 0x100, place1, 0, 8)
    let s := inCore (fun c => { c with wdone := [{ ctx := 0, batch := 0, dests := [x] }] }) (dataObject 0 16 [])
    decide (s.core.owed = []) && decide (s.core.wmb = []) && !s.redsOn x.2.1 x.2.2.1 x.2.2.2 && decide (s.ctx.acquired.length + 1 ≤ 16)
      && finds (.wwait 3 0) (acquireDests [x]) s (fun _ t => t.calm)] = true := by decide +kernel

theorem witness_WmbTilesAndJobs : all [
    let s := regs [(1, 64), (2, 63), (3, 7)] base
    s.calm && !isChan s.site && decide (64 ≤ (s.src 1).toNat) && decide ((s.src 2).toNat < 64) && decide ((s.src 3).toNat < 8)
      && !s.core.tileBusy 15 && s.still 3,
    (inCore (fun c => { c with wmb := [{ tiles := [15] }] }) base).core.tileBusy 15,
    (List.range 64).all (fun t => !base.core.tileBusy t),
    no base.core.haltedCmd,
    let s := regs [(1, 1)] (inCore (fun c => { c with wmb := [{ fault := some 10 }] }) base)
    (match s.core.haltedCmd with | some m => finds (.wres 2 1) (modify fun x => x.dropCmd m) s (fun _ t => t.calm) | none => false) && s.calm,
    let s := regs [(1, 3), (2, 9)] base
    (wstatValue s.core (s.sideSize s.site) (s.weight s.site) (s.src 1).toNat).isSome
      && s.calm && decide (s.src 0 = 0) && (inCore (fun c => { c with wmb := [{ fault := some 10 }] }) base).core.haltedCmd.isSome
      && no (wstatValue s.core (s.sideSize s.site) (s.weight s.site) 9999),
    -- the binary64 mode, an aligned mode, and the integer mode below and beyond the range
    theJob (aJob 1 (wmbWord 1 11 1 square) (matrices 11 [] [])) && decide (kMode (wmbWord 1 11 1 square) = some (1, 0)),
    theJob (aJob 1 (wmbWord 1 8 0 square) (matrices 8 [] [])) && decide (kMode (wmbWord 1 8 0 square) = some (3, 16)),
    theJob (aJob 1 (wmbWord 1 1 2 square) (matrices 1 [1] [1])) && decide (kMode (wmbWord 1 1 2 square) = some (8, 0)),
    let s := aJob 1 (wmbWord 1 1 2 square) (matrices 1 [1] [1])
    let ts := fun side n => (s.matTerms (theCmd s) (.pad ka) (.pad kb) side n 0 8).map fun t => signExt 8 t.1
    (List.range 64).all fun n => (addInts 3 0 ((s.coreAt 0).accSlot n) (ts 0 (n / 8)) (ts 1 (n % 8))).isSome,
    let s := inCore (fun c => c.setAcc 0 (BitVec.ofNat 64 (2 ^ 63 - 1))) (aJob 1 (wmbWord 1 1 2 square) (matrices 1 [1] [1]))
    let ts := fun side n => (s.matTerms (theCmd s) (.pad ka) (.pad kb) side n 0 8).map fun t => signExt 8 t.1
    no (addInts 3 0 ((s.coreAt 0).accSlot 0) (ts 0 0) (ts 1 0)),
    no (base.jobOn 0 0),
    theJob (aJob 4 (wmbWord 4 11 1 square) (matrices 11 [] [])) && !isHandler ka && decide (kOp (wmbWord 4 11 1 square) = 4),
    let s := aJob 5 (wmbWord 5 11 1 square) (matrices 11 [] [])
    theJob s && !s.readPoisoned none (.pad ka) 0 64 && decide (kOp (theCmd s).word = 5),
    let s := aJob 6 (wmbWord 6 1 0 [(63, 222), (7, 232)]) (matrices 1 [1] [1])
    theJob s && decide (kOp (theCmd s).word = 6) && decide ((streamFmt 6 0).1 = 1) && decide (kEntries (theCmd s).word 0 = 64),
    let s := aJob 7 (wmbWord 7 1 0 [(1, 216), (1, 228), (1, 240)]) (matrices 1 [1] [1])
    theJob s && decide (kOp (theCmd s).word = 7) && decide ((streamFmt 7 0).1 = 1) && decide (kEntries (theCmd s).word 0 = 64),
    inRange64 (2 ^ 63 - 1) && !inRange64 (2 ^ 63)] = true := by decide +kernel

theorem witness_WmbTilesAndJobs_operands :
    (∀ e ∈ ([(1, 11, 1), (2, 11, 1), (3, 11, 1), (1, 8, 0), (1, 1, 2)] : List (Nat × Nat × Nat)),
      let s := aJob e.1 (wmbWord e.1 e.2.1 e.2.2 square) (matrices e.2.1 [1] [1])
      s.operandsFit (theCmd s) (.pad ka) (.pad kb))
    ∧ (let s := aJob 6 (wmbWord 6 1 0 [(63, 222), (7, 232)]) (matrices 1 [1] [1])
      s.operandsFit (theCmd s) (.pad ka) (.pad kb))
    ∧ (let s := aJob 7 (wmbWord 7 1 0 square) (matrices 1 [1] [1])
      s.operandsFit (theCmd s) (.pad ka) (.pad kb)) := by
  refine ⟨?_, fits_of (by decide +kernel), fits_of (by decide +kernel)⟩
  intro e he
  simp only [List.mem_cons, List.not_mem_nil, or_false] at he
  rcases he with rfl | rfl | rfl | rfl | rfl <;> exact fits_of (by decide +kernel)

/-- `w1` holds two slots of eight bits, 3 and 4, and so does `w2`. -/
def packedPair : State :=
  inCore (fun c => { c with w := (c.w.setIfInBounds 1 { bits := 0x0403, desc := mkDesc 2 8 4 }).setIfInBounds 2 { bits := 0x0403, desc := mkDesc 2 8 4 } }) base

theorem witness_PackedResults : all [
    let s := regs [(1, 8 + 2 * 2 ^ 8), (2, 9 + 64 * 2 ^ 8), (3, 9 + 2 * 2 ^ 8), (4, 48 + 256 * 2 ^ 8)] base
    s.still 1 && s.calm && decide (bitsOf (s.src 1) 0 6 = 8) && decide (slotBound 8 < (packType 0).2.2)
      && decide ((packType 0).2.2 ≤ slotBound 9) && decide (64 * 9 > 512) && decide (2 * 9 ≤ 512) && decide (bitsOf (s.src 4) 8 9 = 256),
    let s := regs [(1, 4), (2, 48)] packedPair
    descValid (s.wide 1).desc && (s.wide 1).ok && decide (bitsOf (s.src 1) 0 6 = 4) && decide (4 ≤ slotBound 4)
      && !descValid (s.wide 3).desc && decide (descN (s.wide 1).desc * 48 ≤ 1024),
    decide (1024 < descN (mkDesc 256 4 1) * 48) && decide (slotBound 4 < descM (mkDesc 2 8 8)) && descValid (mkDesc 256 4 1),
    let s := packedPair
    let x := s.wide 1
    let m := Nat.min (descN x.desc) (descN x.desc) * descM x.desc * descM x.desc
    decide (descS (s.wide 2).desc = descS x.desc) && decide (descN x.desc * descS x.desc ≤ 512) && decide (m ≤ slotBound 8)
      && decide (slotBound 4 < m) && decide (descM x.desc + m ≤ slotBound 8),
    decide (descM (packedPair.wide 1).desc ≤ (laneType 0).2) && decide ((laneType 0).2 < descM (mkDesc 2 48 (2 ^ 46)))] = true := by decide +kernel

theorem witness_PackedProductIsPolynomialProduct : all [
    let s := packedPair
    let x := s.wide 1
    let y := s.wide 2
    s.calm && !isChan s.site && descValid x.desc && descValid y.desc && x.ok && y.ok && decide (descS y.desc = descS x.desc)
      && decide (descN x.desc * descS x.desc ≤ 512)
      && decide (Nat.min (descN x.desc) (descN y.desc) * descM x.desc * descM y.desc ≤ slotBound (descS x.desc))] = true := by decide +kernel

/-- A command at the head of the queue that has still to begin. -/
def aCommand (k : KWord) (started : Bool) (s : State) : State :=
  let m : Cmd := { word := k, started := started, todo := [0], rows := [0], tiles := [0]
                   erefs := if started then [.pad ka, .pad kb] else [] }
  inCore (fun c => { c with wmb := [m] }) s

def mayDispatch (s : State) : Bool :=
  no (s.jobOn 0 0) && (s.sideOf 0 0).contains 0 && s.dispatchable 0 && s.arbiterAllows (s.sideOf 0 0) 0
    && decide (s.nextJob 0 = some (0, 0))

/-- A record queue takes sixteen records at least, and no more than its capacity (R36). -/
theorem room {s : State} {site ctx : Nat} {w : Word} {ds : List (Word × Loc × Nat × Nat)}
    (h : ((s.coreAt site).ctxAt ctx).recs.length < 16) : (s.postRecord site ctx w ds).isSome = true := by
  unfold State.postRecord
  have h2 : ((s.coreAt site).ctxAt ctx).recs.length < recCapacity := Nat.lt_of_lt_of_le h (Nat.le_add_right _ _)
  rw [if_pos h2]
  rfl

theorem noRoom {s : State} {site ctx : Nat} {w : Word} {ds : List (Word × Loc × Nat × Nat)} {r : CompRec}
    (h : ((s.coreAt site).ctxAt ctx).recs = List.replicate recCapacity r) : s.postRecord site ctx w ds = none := by
  unfold State.postRecord
  rw [if_neg]
  rw [h, List.length_replicate]
  exact Nat.lt_irrefl _

/-- A finished command that posts a record, and a context whose record queue is full. -/
def doneCmd : State :=
  inCore (fun c => { c with wmb := [{ word := kword [(1, 0), (1, 8)], started := true, rows := [8] }] }) base
def fullRecords (s : State) : State := inCtx (fun x => { x with recs := List.replicate recCapacity { word := 1 } }) s

theorem witness_TileJobDispatchAndCompletion : all [
    let s := aCommand (wmbWord 2 11 1 square) false (matrices 11 [] [])
    mayDispatch s && (match startChecks 0 { s with site := 0 } with
      | .ok _ v => match (v.coreAt 0).wmb[0]? with
        | some n => !n.zeroed.contains 0
        | none => false
      | .error _ _ => false),
    mayDispatch (aCommand (wmbWord 1 11 1 square) true (matrices 11 [] [])),
    let s := aCommand (wmbWord 1 0 1 square) false (matrices 0 [] [])
    mayDispatch s && (match startChecks 0 { s with site := 0 } with
      | .error (.trap c _) v => decide (c = .type) && ((v.coreAt 0).wmb[0]?).isSome
      | _ => false),
    !base.dispatchable 0,
    let s := doneCmd
    decide ((s.coreAt 0).owed = []) && (((s.coreAt 0).wmb.zipIdx.find? fun e => e.1.complete).map (·.2) == some 0)
      && kRec (theCmd s).word] = true := by decide +kernel

theorem witness_TileJobDispatchAndCompletion_record :
    (let m := theCmd doneCmd; (doneCmd.postRecord 0 m.ctx (m.record 0) m.dests).isSome = true)
    ∧ (let s := fullRecords doneCmd; let m := theCmd s; s.postRecord 0 m.ctx (m.record 0) m.dests = none) :=
  ⟨room (by decide +kernel), noRoom rfl⟩

theorem recRoom_eq (s : State) (ctx : Nat) : s.recRoom ctx = (s.postRecord s.site ctx 0 []).isSome := by
  unfold State.recRoom State.postRecord State.core
  by_cases h : ((s.coreAt s.site).ctxAt ctx).recs.length < recCapacity <;> simp [h]

/-- A record that its context's queue could not take when its command halted. -/
def heldRecord : Owed := { ctx := 0, batch := 0, record := { word := 1 } }

theorem witness_TileJobDispatchAndCompletion_owed :
    (let s := inCore (fun c => { c with owed := [heldRecord] }) base;
      ((s.coreAt 0).owed.find? fun r => s.recRoom r.ctx) = some heldRecord
        ∧ (s.postRecord 0 heldRecord.ctx heldRecord.record.word heldRecord.record.dests).isSome = true)
    ∧ (let s := fullRecords (inCore (fun c => { c with owed := [heldRecord] }) base);
      ∀ r ∈ (s.coreAt 0).owed, s.recRoom r.ctx = false) := by
  refine ⟨?_, ?_⟩
  · have h : ((inCore (fun c => { c with owed := [heldRecord] }) base).coreAt 0).owed = [heldRecord] := by decide +kernel
    have r : (inCore (fun c => { c with owed := [heldRecord] }) base).recRoom heldRecord.ctx = true := by
      rw [recRoom_eq]
      exact room (by decide +kernel)
    simp only [h, List.find?_cons, r]
    exact ⟨trivial, room (by decide +kernel)⟩
  · have h : ((fullRecords (inCore (fun c => { c with owed := [heldRecord] }) base)).coreAt 0).owed = [heldRecord] := by decide +kernel
    intro s r hr
    simp only [s, h, List.mem_singleton] at hr
    rw [hr, recRoom_eq]
    simp only [s]
    rw [show (fullRecords (inCore (fun c => { c with owed := [heldRecord] }) base)).site = 0 from rfl]
    rw [noRoom (r := { word := 1 }) rfl]
    rfl

theorem witness_TileJobDispatchAndCompletion_next :
    (let s := doneCmd;
      ((s.coreAt 0).wmb.zipIdx.find? fun e => e.1.complete && (!kRec e.1.word || s.recRoom e.1.ctx)) = some (theCmd s, 0))
    ∧ (let s := fullRecords doneCmd;
      ((s.coreAt 0).wmb.zipIdx.find? fun e => e.1.complete && (!kRec e.1.word || s.recRoom e.1.ctx)) = none) := by
  have h : (doneCmd.coreAt 0).wmb = [theCmd doneCmd] := by decide +kernel
  have g : ((fullRecords doneCmd).coreAt 0).wmb = [theCmd doneCmd] := by decide +kernel
  have c : ((theCmd doneCmd).complete && kRec (theCmd doneCmd).word) = true := by decide +kernel
  simp only [Bool.and_eq_true] at c
  have r : doneCmd.recRoom (theCmd doneCmd).ctx = true := by rw [recRoom_eq]; exact room (by decide +kernel)
  have n : (fullRecords doneCmd).recRoom (theCmd doneCmd).ctx = false := by
    rw [recRoom_eq, noRoom (r := { word := 1 }) rfl]; rfl
  refine ⟨?_, ?_⟩
  · simp only [h, List.zipIdx_cons, List.find?_cons, c.1, r, Bool.or_true, Bool.and_self]
  · simp only [g, List.zipIdx_cons, List.zipIdx_nil, List.find?_cons, List.find?_nil, c.1, c.2, n, Bool.not_true, Bool.or_self, Bool.and_false]

/-- VF 0 and its PF have accepted every feature. -/
def features (s : State) : State := { s with vfs := [(0, { featAcc := 0x3FFF }), (256, { featAcc := 0x3FFF })] }

/-- The word of a copy of eight bytes from `a1` to `a2`. -/
def copyWord : KWord :=
  kword [(0x11, 0), ((padP 0x100).toNat, 64), ((padP 0x2000).toNat, 128), (7, 216), (1, 232), (1, 244)]

def withWord (k : KWord) (s : State) : State := inCore (fun c => { c with k := c.k.setIfInBounds 1 k }) s
def copying (m : Cmd) (s : State) : State := inCore (fun c => { c with copies := [m] }) s

theorem queues_of {i : Instr} {w : KWord} {u : State} (hb : ((kBar w).filter fun p => decide (ptrLevel p ≠ 7)) = none)
    (h : finds i ((kObjects w).mapM (copyPlace w)) u (fun ls v =>
      let y := (ls ++ []).foldl State.erefUp v
      (y.setCore y.site { y.core with works := y.core.works + 1, copies := y.core.copies ++ [{ y.newCmd w 0 with
        num := y.core.works, erefs := ls ++ [], barrier := none, started := true, order := y.groupedOrder w (ls.getD 0 (.pad 0)) }] }).calm) = true) :
    ∃ z, queues i w u z ∧ z.calm = true := by
  obtain ⟨ls, v, hl, hz⟩ := finds_leads h
  refine ⟨_, ⟨ls, u, v, none, ?_, hl, rfl⟩, ?_⟩
  · rw [hb]; exact ⟨rfl, rfl⟩
  · cases hc : kArrive w
    all_goals simpa [hc] using hz

theorem witness_CopyPushAndWait : all [
    let s := withWord copyWord (matrices 0 [1, 2, 3] [])
    copyWordOk (s.core.kreg 1) && finds (.cpush 2 1) (copyChecks (s.core.kreg 1)) s (fun _ t => decide (t.core.copies.length < 2)
      && finds (.cpush 2 1) (releaseAll (kScope (s.core.kreg 1))) t fun _ u => decide (u = t)),
    let s := withWord copyWord (copying {} (matrices 0 [1, 2, 3] []))
    let s2 := inCore (fun c => { c with copies := [{}, {}] }) s
    finds (.cpush 2 1) (copyChecks (s.core.kreg 1)) s2 fun _ t => decide (2 ≤ t.core.copies.length),
    !copyWordOk (base.core.kreg 1),
    let s := regs [(1, 1)] (copying {} base)
    decide (s.core.faults = []) && decide ((s.core.copies.filter fun m => decide (m.ctx = s.core.act)).length ≤ (s.src 1).toNat)
      && decide ((s.src 0).toNat < (s.core.copies.filter fun m => decide (m.ctx = s.core.act)).length)
      && finds (.cpwait 2 1) (acquireDests []) s (fun _ t => t.calm),
    let s := regs [(1, 4), (2, 5)] base
    (cpstatValue s.core (s.src 1).toNat).isSome && decide (5 ≤ (s.src 2).toNat) && s.calm,
    decide (ptrLevel (base.ctx.areg 1).ptr = 7), decide (ptrLevel ((matrices 0 [] []).ctx.areg 1).ptr = 3),
    let s := regs [(3, 2)] (pages [1, 2] (heapObject 1 0x1000 (hd 8160 tDATA 0) [] base))
    let p := (s.ctx.areg 1).ptr
    finds (.cppage 2 1 3) (locate p) s fun l t => decide (l = .heap t.asid (ptrLoc p)) && finds (.cppage 2 1 3) (worldCheck p l) t fun _ u =>
      decide (u = t) && t.calm && decide (2 ≤ pagesLeft (ptrLoc p) 0 (t.hdr l).span) && decide (pagesLeft (ptrLoc p) 0 (t.hdr l).span < 3)
        && t.hbmResident t.asid 1 && t.hbmResident t.asid 2 && !t.hbmResident t.asid 3 && decide (t.core.copies.length < 2)
        && copyTypesOk (cppageWord p 0 1 false) 0 (t.hdr l),
    -- a page in the host's memory, of an object that the push does not admit, and with a full engine
    let s := regs [(3, 1), (4, 513)] { heapObject 1 0x1000 (hd 64 tBARRIER 0) [] base with
      ptes := [(pageKey 0 1, { frame := 1, write := true, hbm := false })] }
    let p := (s.ctx.areg 1).ptr
    finds (.cppage 2 1 3) (locate p) s fun l t => finds (.cppage 2 1 3) (worldCheck p l) t fun _ u => decide (u = t)
      && !copyTypesOk (cppageWord p 0 1 false) 0 (t.hdr l) && !t.hbmResident t.asid 1 && decide (512 < (s.src 4).toNat)
      && decide (1 ≤ pagesLeft (ptrLoc p) 0 (t.hdr l).span) && decide ((s.src 0).toNat = 0),
    let s := regs [(3, 1)] (inCore (fun c => { c with copies := [{}, {}] }) { heapObject 1 0x1000 (hd 16 tDATA 0) [] base with
      ptes := [(pageKey 0 1, { frame := 1, write := true, hbm := false })] })
    let p := (s.ctx.areg 1).ptr
    finds (.cppageRec 2 1 3) (locate p) s fun l t => finds (.cppageRec 2 1 3) (worldCheck p l) t fun _ u => decide (u = t)
      && copyTypesOk (cppageWord p 0 1 true) 0 (t.hdr l) && !t.hbmResident t.asid 1 && decide (2 ≤ t.core.copies.length)] = true := by decide +kernel

theorem witness_CopyPushAndWait_queues :
    (∃ z, queues (.cpush 2 1) copyWord (withWord copyWord (matrices 0 [1, 2, 3] [])) z ∧ z.calm = true)
    ∧ (let s := { heapObject 1 0x1000 (hd 16 tDATA 0) [] base with ptes := [(pageKey 0 1, { frame := 1, write := true, hbm := false })] }
      s.hbmResident s.asid 1 = false ∧ ∃ z, queues (.cppage 2 1 3) (cppageWord (s.ctx.areg 1).ptr 0 1 false) s z ∧ z.calm = true) :=
  ⟨queues_of (by decide +kernel) (by decide +kernel), by decide +kernel, queues_of (by decide +kernel) (by decide +kernel)⟩

def engine (k : KWord) (es : List Loc) : Cmd := { word := k, erefs := es, started := true }
def copyObject (op : Nat) (more : List (Nat × Nat)) : KWord := kword ([(op, 0)] ++ more)
def readyCopy (m : Cmd) (op : Nat) : Bool := decide (kOp m.word = op) && decide (m.buf = []) && no m.stop && decide (m.prog < m.total)

theorem witness_CopyEngines : all [
    readyCopy (engine copyWord [.pad ka, .pad kb]) 0x11,
    readyCopy (engine (copyObject 0x12 [(7, 216), (1, 232), (1, 244)]) [.pad ka, .pad kb]) 0x12,
    let m := engine (copyObject 0x13 [(0, 32)]) [.pad ka, .pad kb, .pad (kb + 0x1100)]
    readyCopy m 0x13 && decide (16 * (0 + 1) ≤ engineLen ((matrices 0 [] []).hdr (.pad ka))) && decide (m.prog % kLam m.word = 0),
    let s := object 3 0x3100 (hd 64 tDATA 5) [0, 16] (matrices 0 [] [])
    decide (engineLen (s.hdr (.pad ka)) < 16 * (ofBytes (s.readBody none (.pad (corePadKey 0 + 0x3100)) 0 4) + 1)),
    readyCopy (engine (copyObject 0x14 [(64, 160), (5, 128)]) [.pad kb]) 0x14,
    let m := { engine copyWord [.pad ka, .pad kb] with buf := [(0, 1, 5), (1, 1, 6)] }
    decide (m.dst = .pad kb) && decide (m.buf = (0, 1, 5) :: [(1, 1, 6)]) && (copying m base).core.copies[0]?.isSome,
    decide (base.core.copies[0]? = none),
    let s := features (copying (engine (copyObject 0x15 [(0, 192)]) [.heap 0 0x1000]) ({ heapObject 1 0x1000 (hd 16 tDATA 0) [] base with
      ptes := [(pageKey 0 1, { frame := 1, write := true, hbm := false })] }))
    readyCopy (s.core.copies.getD 0 {}) 0x15 && s.feature 2 && !s.hbmResident 0 1
      && (match translateFor (.copy 0) 0 4096 false 0 { s with site := 0 } with
        | .ok f t => decide (f = 4096) && decide (t = { s with site := 0 })
        | .error _ _ => false),
    let x : TierPage := { asid := 0, page := 1, frame := 1, hbm := 5 }
    let s := { features (copying (engine (copyObject 0x16 [(0, 192), (3, 201)]) [.heap 0 0x1000]) (pages [1] base)) with tier := [x] }
    readyCopy (s.core.copies.getD 0 {}) 0x16 && s.feature 2 && decide (s.inTier 0 1 = some x) && !s.inFlight 0 1
      && !(s.core.copies.getD 0 {}).word.getLsbD 13 && !inGroup (kGroup (s.core.copies.getD 0 {}).word) x.hbm
      && inGroup 1 x.hbm && !inGroup 2 x.hbm && no (s.inTier 0 2),
    (engine (copyObject 0x16 [(1, 13)]) []).word.getLsbD 13,
    let p : Post := { site := 8192, ctx := 0, src := .heap 0 0x1000, srcOff := 0, dst := place1, dstOff := 0, n := 4, bar := none }
    ({ base with posts := [p] } : State).inFlight 0 1,
    let m : Cmd := { engine copyWord [.pad ka, .pad kb] with prog := 8 }
    decide (m.total ≤ m.prog) && decide (m.buf = []) && !kRec m.word,
    let m : Cmd := { engine copyWord [.pad ka, .pad kb] with stop := some 4 }
    m.stop.isSome && decide (m.buf = [])] = true := by decide +kernel

/-- A frame of the tier pool is free, and a page comes into it. -/
theorem witness_CopyEngines_pool (h : 0 < Config.tierFrames) : ∃ u, (pages [1] base).pageIn 0 1 0 = some u := by
  have hp : (find (pageKey 0 1) (pages [1] base).ptes).isSome = true := by decide +kernel
  obtain ⟨e, he⟩ := Option.isSome_iff_exists.1 hp
  have hm : Config.tierFrame 0 % hbmFrames ∈ (pages [1] base).poolFree := by
    refine List.mem_filter.2 ⟨List.mem_dedup.2 (List.mem_map.2 ⟨0, List.mem_range.2 h, rfl⟩), rfl⟩
  have hn : (pages [1] base).poolFree ≠ [] := List.ne_nil_of_mem hm
  have hf : ((pages [1] base).poolFree.find? (inGroup 0)).isSome = true :=
    List.find?_isSome.2 ⟨_, hm, rfl⟩
  obtain ⟨f, hf⟩ := Option.isSome_iff_exists.1 hf
  refine ⟨{ pages [1] base with tier := (pages [1] base).tier ++ [{ asid := 0, page := 1, frame := e.frame, hbm := f }] }, ?_⟩
  simp only [State.pageIn, if_pos hn, he, hf, Option.some_or, Option.map_some]

theorem witness_CopyEngines_operands (off len : Nat) :
    (copying (engine copyWord [.pad ka, .pad kb]) (matrices 0 [] [])).readPoisoned none (.pad ka) off len = false :=
  unpoisoned _ (by decide +kernel) (by decide +kernel) _ _ _

/-- A message of one word for logical core 0 of record 0, under way. -/
def aFlit : Flit := { put := false, srcSite := 0, srcCtx := 0, srcRec := 0, msg := { hdr := 0, body := [1] }, target := some 0, dst := 0 }

/-- A CTXBUF for the given number of messages at a heap address. -/
def aBuffer (n : Nat) (s : State) : State :=
  inRec (fun r => { r with ctxbufs := [(0, heapP 0x1000)] }) (heapObject 1 0x1000 (hd (64 + 64 * n) tCTXBUF 0) [] s)
def buffer : Loc := .heap 0 0x1000

theorem witness_Messages : all [
    let s := regs [(1, 0), (2, 1), (3, 2 ^ 25), (4, 2 ^ 40), (5, 7)] base
    let p := inCore (fun c => { c with act := 11, tshadow := true }) s
    s.still 1 && s.calm && descriptorOk (s.src 1) true && !descriptorOk (s.src 4) true && descriptorOk (s.src 3) false
      && descriptorOk (s.src 3) true && !s.core.isPriv && p.core.isPriv && decide (bitsOf (s.src 5) 0 3 = 7)
      && decide (0 < (s.tableRec.map Rec.tableSize).getD 0) && decide ((s.tableRec.map Rec.tableSize).getD 0 ≤ 1) && decide (s.sendUsed s.site < 8),
    decide (8 ≤ ({ base with net := List.replicate 8 aFlit } : State).sendUsed 0),
    let s := inCore (fun c => { c with rx := [{ hdr := 1, body := [7, 8] }] }) base
    decide (s.core.rx = { hdr := 1, body := [7, 8] } :: []) && decide (base.core.rx = []) && !base.ctx.nonBlocking 32,
    let s := regs [(2, 64), (3, 65)] (heapObject 1 0x1000 (hd 64 tDATA 0) [] base)
    decide ((s.src 2).toNat = 64) && decide (64 < (s.src 3).toNat) && decide (ptrLevel (s.ctx.areg 1).ptr = 0)
      && decide (ptrLevel (s.ctx.areg 2).ptr = 7) && decide (s.sendUsed s.site < 8),
    let s := matrices 0 [] []
    let f : Flit := { s.flit with put := true, target := s.core.recId, ptr := padP 0x100 }
    decide (ptrLevel f.ptr = 3) && decide (ptrTag f.ptr = (s.core.ctxAt 0).lcore.toNat) && decide (s.putKey f = some ka)
      && decide ((ka - 2 ^ 60) % 2 ^ 18 < padTop),
    let s := matrices 0 [] []
    decide (ptrLevel (mkPtr 0 2 (2 ^ 50)) = 2) && no (s.putKey { s.flit with put := true, target := s.tableRecId, ptr := mkPtr 0 2 (2 ^ 50) }),
    -- a place in the reserved area, from outside the trap shadow and in it
    let s := matrices 0 [] []
    let f : Flit := { s.flit with put := true, target := s.core.recId, ptr := padP 0x3C020 }
    decide (s.putKey f = some (corePadKey 0 + 0x3C020)) && decide (padTop ≤ 0x3C020) && !s.core.inTrap,
    let s := inShadow (matrices 0 [] [])
    let f : Flit := { s.flit with put := true, target := s.core.recId, ptr := padP 0x3C020 }
    s.calm && decide (s.putKey f = some (corePadKey 0 + 0x3C020)) && s.core.inTrap && reservedHeader s.site (corePadKey 0 + 0x3C020),
    -- a put into the heap, over a dead port, and at a page that the host refuses
    let f : Flit := { put := true, srcSite := 0, srcCtx := 0, srcRec := 0, msg := { hdr := 0, body := [] }, target := some 0, ptr := heapP 0x1000, off := 8, bytes := [1, 2] }
    let s := { heapObject 1 0x1000 (hd 16 tDATA 0) [] base with net := [f] }
    decide (ptrLevel f.ptr = 0) && s.headOfLine 0 f && !s.acrossDead 0 (0x1000 + 32 + 8) 2 && s.hbmResident 0 1
      && (match putTarget f s with
        | .ok l t => decide (l = .heap 0 0x1000) && decide (t = s)
        | .error _ _ => false),
    let f : Flit := { put := true, srcSite := 0, srcCtx := 0, srcRec := 0, msg := { hdr := 0, body := [] }, target := some 0, ptr := heapP 0x1000, off := 8, bytes := [1, 2] }
    let s := { heapObject 1 0x1000 (hd 16 tDATA 0) [] base with
      net := [f]
      ptes := [(pageKey 0 1, { frame := 1, write := true, hbm := false, home := some 3 })]
      routes := [(3, BitVec.ofNat 64 (2 ^ 63 + 2 ^ (22 + 3)))]
      deadPorts := [3] }
    s.acrossDead 0 (0x1000 + 32 + 8) 2 && (match putTarget f s with | .ok _ t => decide (t = s) | .error _ _ => false),
    let f : Flit := { put := true, srcSite := 0, srcCtx := 0, srcRec := 0, msg := { hdr := 0, body := [] }, target := some 0, ptr := heapP 0x1000, off := 8, bytes := [1, 2] }
    let s := { base with net := [f], pageReqs := [{ asid := 0, page := 1, write := false, owner := .device, refused := true }] }
    s.headOfLine 0 f && (match putTarget f s with | .error (.trap c _) _ => decide (c ≠ .poison) | _ => false),
    let s := { features (aBuffer 33 { base with net := [aFlit] }) with ptes := [] }
    match bufPages buffer s with | .error .waitKeep _ => true | _ => false,
    let s := { aBuffer 33 { base with net := [aFlit] } with ptes := [] }
    decide ((s.recAt 0).ctxbuf 0 = some buffer) && (match bufPages buffer { s with pageReqs := [
        { asid := 0, page := 1, write := true, owner := .device, refused := true }] } with | .error (.trap _ _) _ => true | _ => false),
    let s := { base with net := [aFlit] }
    decide (s.net[0]? = some aFlit) && s.headOfLine 0 aFlit && decide ((s.recAt 0).st ≠ .ended) && decide (0 < (s.recAt 0).place.length)
      && no ((s.recAt 0).ctxbuf 0) && decide (s.residentAt 0 0 = some 0) && decide ((s.coreAt 0).rx.length < 32)
      && decide ((s.recAt 0).place.length ≤ 1),
    let s := inCore (fun c => { c with rx := List.replicate 32 { hdr := 0, body := [0] } }) { base with net := [aFlit] }
    decide (32 ≤ (s.coreAt 0).rx.length) && s.headOfLine 0 aFlit,
    let s := aBuffer 33 { base with net := [aFlit] }
    decide ((s.recAt 0).ctxbuf 0 = some buffer) && (match bufPages buffer s with | .ok _ t => decide (t = s) | .error _ _ => false)
      && decide (s.bufCount buffer = 0) && decide (s.bufCap buffer = 33),
    let s := aBuffer 33 (inCore (fun c => { c with rx := List.replicate 32 { hdr := 0, body := [0] } }) { base with net := [aFlit] })
    decide (s.bufCount buffer + 32 ≤ s.bufCap buffer) && decide (32 ≤ (s.coreAt 0).rx.length) && decide ((s.recAt 0).ctxbuf 0 = some buffer),
    let s := inCore (fun c => { c with recId := none }) (aBuffer 0 { base with net := [aFlit] })
    no (s.residentAt 0 0) && !decide (s.bufCount buffer + 1 ≤ s.bufCap buffer),
    let f := { aFlit with target := none, site := some 0 }
    let s := { base with net := [f] }
    decide (s.net[0]? = some f) && s.headOfLine 0 f && decide ((s.coreAt 0).recId = some 0) && !s.fused.contains 0
      && decide ((s.recAt 0).ctxtag = bitsOf f.msg.hdr 0 16) && decide ((s.recAt 0).ctxtag ≠ bitsOf 5 0 16),
    let f := { aFlit with since := some 5 }
    let s : State := { base with
      net := [f]
      cycle := 4101 }
    decide (s.net[0]? = some f) && decide (5 + 4096 ≤ s.cycle.toNat) && decide ((4100 : Word).toNat < 5 + 4096),
    let s0 := matrices 0 [] []
    let f : Flit := { put := true, srcSite := 0, srcCtx := 0, srcRec := 0, msg := { hdr := 0, body := [] }, target := some 0, ptr := padP 0x100, off := 4092, bytes := [1, 2, 3, 4] }
    let s := { s0 with net := [f] }
    decide (s.net[0]? = some f) && s.headOfLine 0 f && !s.secured f.asid (.pad ka) && decide (padKeyOf (s.recAt 0) 0 f.ptr = some ka) && s.headerAt 0 ka
      && decide (f.off + f.bytes.length ≤ (s.hdr (.pad ka)).len) && decide ((s.hdr (.pad ka)).typ = tDATA) && !(s.hdr (.pad ka)).secure
      && !(s.hdr (.pad ka)).poison && !s.bodyPoisoned (.pad ka) f.off 4 && s.clearOfReds (.pad ka) f.off 4
      && decide ((s.hdr (.pad ka)).len < 4093 + 4),
    let s := { matrices 0 [] [] with poison := [(ka + 32 + 4092) / 32] }
    s.bodyPoisoned (.pad ka) 4092 4] = true := by decide +kernel

/-- A KVTABLE of two pages at `kvtbase`, with rows of 128 bytes: its token count and flags, its owner word, its handler and
its first page. -/
def table (w0 w8 entry : Nat) (p0 : Word) (s0 : State) : State :=
  let s := features (heapObject 2 0x1000 (hd 144 tKVTABLE 0) [] s0)
  let fields := [(0, w0), (8, w8), (0x18, nullPtr.toNat), (0x20, entry), (0x28, 1), (0x80, p0.toNat), (0x88, nullPtr.toNat)]
  let t := { s with mem := fields.foldl (fun (m : Mem) (e : Nat × Nat) => m.write (0x1020 + e.1) 8 e.2) s.mem }
  t.setCtx { t.ctx with kvtbase := heapP 0x1000 }

/-- Frame 0 of the pool holds a page of VF 0 with the given flags. -/
def frame0 (flags : Nat) (s : State) : State :=
  let k := kvFrameKey 0
  let m := s.mem.setHdr k { w0 := BitVec.ofNat 64 (tKVPAGE * 2 ^ 40 + pageLen 1) }
  { s with
    kvFrames := [0]
    mem := (m.write (k + 32) 8 (flags + 2 ^ 32)).write (k + 40) 8 1 }

def noEntry : Nat := 0xFFFFFFFF
def entry0 (stop : Bool) (limit : Nat) (p : Word) : KvtbEntry :=
  { valid := true, table := BitVec.ofNat 48 (0x1000 / 32), page := 0, stop := stop, limit := BitVec.ofNat 5 limit, rowq := 1, ptr := p }
def withEntry (e : KvtbEntry) (s : State) : State := inCore (fun c => c.putKvtb 5 e) s

/-- Bits of word 0 of an open table; its owner is context 0 of logical core 0. -/
def opened : Nat := 2 ^ 62

theorem witness_KvLookups : all [
    let s := table 5 0 noEntry (framePtr 0) (frame0 0 (regs [(1, 4), (3, 32), (4, 2 ^ 40), (5, 15)] base))
    s.feature 3 && !s.core.inMiss && decide (2 ^ 40 ≤ (s.src 4).toNat)
      && finds (.kvlk 6 3) (kvLookup (s.src 3) 0) s (fun r t => decide (r = .beyond) && t.calm)
      && finds (.kvlk 6 1) (kvLookup (s.src 1) 0) s (fun r t => t.calm && match r with
        | .entry _ c => decide (c = 0)
        | .beyond => false),
    let s := table 5 0 noEntry (framePtr 0) (frame0 0 (regs [(1, 4), (3, 0), (5, 5)] base))
    s.still 2 && finds (.kvget 2 1 3) (kvLookup (s.src 1) 1) s (fun r t => match r with
      | .entry e c => decide (c = 0) && decide ((s.src 3).toNat < e.rowq.toNat) && (pagePlace t.asid e.ptr).isSome
      | .beyond => false) && finds (.kvget 2 5 3) (kvLookup (s.src 5) 1) s (fun r _ => match r with
      | .entry e c => decide (c = 1) && decide (0 < e.rowq.toNat)
      | .beyond => false),
    let s := table 5 0 noEntry (heapP 0x3000) (heapObject 3 0x3000 (tKVPAGE * 2 ^ 40 + pageLen 1) [] (regs [(1, 4), (3, 0)] base))
    let i : Instr := .kvget 2 1 3
    finds i (kvLookup (s.src 1) 1) s (fun r t => match r with
      | .entry e c => decide (c = 0) && decide (pagePlace t.asid e.ptr = some (.heap 0 0x3000)) && finds i (translateRange t.asid 0x3000 32 false (s.src 1)) t
          fun _ u => finds i (translateRange t.asid (0x3000 + 32 + 64 + 128 * 4) 128 false (s.src 1)) u fun _ v => v.calm && v.still 2
      | .beyond => false),
    -- an entry of a table that the device does not know, so that nothing has to be stopped
    let s := { withEntry (entry0 false 5 (framePtr 0)) (inCtx (fun x => { x with kvtbase := heapP 0x1000 })
      (features (frame0 0 (regs [(1, 4)] base)))) with poison := [(kvFrameKey 0 + 32 + 64 + 128 * 4) / 32] }
    s.feature 3 && finds (.kvget 2 1 3) (kvLookup (s.src 1) 1) s (fun r _ => match r with
      | .entry _ c => decide (c = 4)
      | .beyond => false),
    let s := table (5 + 2 ^ 63) 0 noEntry (framePtr 0) (frame0 0 (regs [(1, 4)] base))
    finds (.kvget 2 1 3) (kvLookup (s.src 1) 1) s (fun r _ => match r with
      | .entry _ c => decide (c = 3)
      | .beyond => false)] = true := by decide +kernel

theorem witness_KvLookups_entries : all [
    let s := withEntry (entry0 false 5 (framePtr 0)) (table 5 0 noEntry (framePtr 0) (frame0 0 base))
    decide (s.core.kvHit (ptrLoc s.ctx.kvtbase) 0 s.core.ctxNo = some 5) && decide (ptrLevel s.ctx.kvtbase = 0)
      && decide (pagePlace s.asid (framePtr 0) = some (.pad (kvFrameKey 0))) && !(s.hdr (.pad (kvFrameKey 0))).poison
      && !s.bodyPoisoned (.pad (kvFrameKey 0)) (64 + 128 * 4) 128,
    decide ((withEntry (entry0 true 5 nullPtr) (table 5 0 noEntry nullPtr base)).core.kvHit 0x1000 0 0 = some 5),
    decide (pagePlace 0 nullPtr = none),
    let s := table 5 0 4 (framePtr 0) (frame0 0 (regs [(1, 4)] base))
    no (s.core.kvHit (ptrLoc s.ctx.kvtbase) 0 s.core.ctxNo) && finds (.kvlk 2 1) (kvTable false) s (fun r t =>
      decide (r = (0x1000, 2)) && decide (t.kvEntry (.heap t.asid r.1) = 4) && no s.core.miss && decide (4 + 4 ≤ t.codeLen)
        && decide (t.core.act = s.core.act)),
    let s := inCore (fun c => { c with act := 12, miss := some { ctx := 0, pos := 4 } })
      (table 5 0 4 (framePtr 0) (frame0 0 base))
    let s1 := s.setCtx { s.core.ctxAt 0 with s := (Vector.replicate 32 0).setIfInBounds 3 (framePtr 0) }
    s1.core.inMiss && finds (.kvfill 2 3 4) (kvTable false) s1 (fun r t => t.calm && decide (0 < r.2)
      && decide ((t.kvtbFor r.1 0 (s1.src 3)).limit = 5)
      && finds (.kvfill 2 3 4) (kvPageCheck (s1.src 3) (t.kvRowq (.heap t.asid r.1))) t (fun _ u => decide (u = t))
      && (List.range 64).all fun j => !(t.core.kvtb[j]?.getD {}).valid),
    let s := withEntry { entry0 false 1 nullPtr with page := 0 } (table 5 0 4 (framePtr 0) base)
    let e := s.kvtbFor 0x1000 0 (framePtr 0)
    (List.range 64).any (fun j => let x : KvtbEntry := s.core.kvtb[j]?.getD {}
      x.valid && decide (x.table = e.table) && decide (x.page = e.page) && decide (x.own = e.own)),
    let s := features base
    s.feature 3 && !s.core.inMiss && !s.core.isPriv && s.calm,
    let s := inCore (fun c => { c.setCtx 12 { s := (Vector.replicate 32 0).setIfInBounds 1 1 } with act := 12, miss := some { ctx := 0, pos := 4 } }) (features base)
    s.feature 3 && s.core.inMiss && decide (s.core.miss = some { ctx := 0, pos := 4 }) && s.calm && decide (s.src 0 = 0) && decide (s.src 1 = 1)] = true := by decide +kernel

/-- A table of five tokens whose page lies in frame 0, 128 bytes of data at `a1`; and the same table once it is known. -/
def appendable : State :=
  let s := table 5 0 noEntry (framePtr 0) (frame0 0 (object 1 0x100 (hd 128 tDATA 0) [7] base))
  s.setCtx (s.ctx.setA 1 { s.ctx.areg 1 with sh := { valid := true, len := 128 } })
def appending : State := { appendable with kvTabs := [{ asid := 0, va := 0x1000 }] }

theorem witness_KvAppendAndFree_append : all [appendable.feature 3 && !appendable.core.inMiss,
    leadsTo (.kvapp 3 1) (kvTable true) appendable (0x1000, 2) appending, decide (appending.kvRowq (.heap 0 0x1000) = 1),
    finds (.kvapp 3 1) (kvSource 1 128) appending fun bs u => decide (bs = 7 :: List.replicate 127 0) && decide (u = appending.starts (.kvapp 3 1)),
    leadsTo (.kvapp 3 1) (kvAppendAt 0x1000 2) appending (.heap 0 0x1000, 5, false) appending,
    leadsTo (.kvapp 3 1) (kvAppendPage (.heap 0 0x1000) 5 1) appending (.pad (kvFrameKey 0), false) appending,
    ((appending.putBody (.pad (kvFrameKey 0)) (64 + 128 * 5) [7]).kvCount (.heap 0 0x1000) false false 0 1).calm] = true := by decide +kernel

theorem witness_KvAppendAndFree : all [
    let s := table (5 + 2 ^ 63) 0 noEntry (framePtr 0) base
    !s.accessPending s.site s.core.act && s.kvStopped (.heap s.asid 0x1000),
    let s := table (5 + opened) (2 ^ 51) noEntry (framePtr 0) base
    let l := Loc.heap s.asid 0x1000
    !s.kvStopped l && s.kvOpen l && !s.kvOwns l (s.ctx.lcore.toNat, s.core.ctxNo),
    let s := table (32 + opened) 0 noEntry (framePtr 0) base
    let l := Loc.heap s.asid 0x1000
    !s.kvStopped l && s.kvOpen l && s.kvOwns l (s.ctx.lcore.toNat, s.core.ctxNo) && decide (2 ≤ s.kvEnd l true / 16),
    let s := table (31 + opened) 0 noEntry (framePtr 0) base
    decide (s.kvEnd (.heap s.asid 0x1000) true / 16 < 2),
    let s := table 16 0 noEntry (framePtr 0) (frame0 2 (object 1 0x100 (hd 128 tDATA 0) [7] base))
    let s1 := s.setCtx (s.ctx.setA 3 { ptr := framePtr 0 })
    let i : Instr := .kvappLink 4 3
    finds i (kvTable true) s1 (fun r t => decide (ptrLevel (t.ctx.areg 3).ptr ≠ 7)
      && finds i (kvPageCheck (t.ctx.areg 3).ptr (t.kvRowq (.heap t.asid r.1))) t fun l u => u.pagePub l
        && finds i (kvAppendAt r.1 r.2) u fun a v => decide (a.2.1 % 16 = 0) && poolPtr (framePtr 0) && decide (v.pageRefs l ≠ 4096)
          && (((v.setBodyField l 0 32 13 (v.pageRefs l + 1)).setKvPage a.1 1 (framePtr 0)).kvCount a.1 a.2.2 true 1 16).calm),
    let s := table 5 0 noEntry (framePtr 0) ((frame0 2 base).setBodyField (.pad (kvFrameKey 0)) 0 32 13 4096)
    decide (s.pageRefs (.pad (kvFrameKey 0)) = 4096) && decide ((5 : Nat) % 16 ≠ 0),
    let s := table 16 0 noEntry (framePtr 0) (frame0 2 (regs [(5, 0), (6, 2), (7, 3)] base))
    finds (.kvfree 4 5) (kvTable true) s (fun r t =>
      let tab := Loc.heap t.asid r.1
      !t.kvOpen tab && decide (r.2 < (s.src 7).toNat) && decide ((s.src 6).toNat ≤ r.2)
        && (((t.dropPages tab 0 r.2).1.shootTable t.asid r.1 fun e => decide (0 ≤ e.page.toNat)).shootFrames (t.dropPages tab 0 r.2).2).calm),
    let s := table opened 0 noEntry (framePtr 0) base
    finds (.kvfree 4 5) (kvTable true) s (fun r t => t.kvOpen (.heap t.asid r.1)),
    let s := inCore (fun c => { c with act := 11, tshadow := true }) (table 16 0 noEntry (framePtr 0) (frame0 0 base))
    let s1 := s.setCtx { s.core.ctxAt 0 with kvtbase := heapP 0x1000 }
    (s1.core.isPriv && s1.feature 12) && finds (.kvfreePubx 4 5) (kvTable false) s1 (fun r t =>
      let tab := Loc.heap t.asid r.1
      !t.kvOpen tab && decide (t.kvNtok tab / 16 = 1) && poolPtr (t.kvPage tab 0) && t.calm),
    let s := table 16 0 noEntry (heapP 0x3000) base
    finds (.kvfreePub 4 5) (kvTable false) s (fun r t => !poolPtr (t.kvPage (.heap t.asid r.1) 0)
      && decide (ptrLevel (t.kvPage (.heap t.asid r.1) 0) ≠ 7))] = true := by decide +kernel

/-- Whether the VF's quota or the pool lets an append take a frame is the driver's to say. -/
theorem witness_KvAppendAndFree_frames (hq : 0 < Config.kvQuota 0) (hp : 0 < poolFrames) :
    (let s := table 16 0 noEntry nullPtr base;
      ptrLevel (s.kvPage (.heap 0 0x1000) 0) = 7 ∧ (s.vfAt s.ownRec.l.vf).kvUsed < Config.kvQuota s.ownRec.l.vf ∧ s.kvFrames.length < poolFrames)
    ∧ (let s := base.setVf 0 { kvUsed := Config.kvQuota 0 };
      Config.kvQuota s.ownRec.l.vf ≤ (s.vfAt s.ownRec.l.vf).kvUsed)
    ∧ (let s : State := { base with kvFrames := List.range poolFrames };
      (s.vfAt s.ownRec.l.vf).kvUsed < Config.kvQuota s.ownRec.l.vf ∧ poolFrames ≤ s.kvFrames.length) := by
  refine ⟨⟨by decide +kernel, ?_, ?_⟩, ?_, ?_, ?_⟩
  · exact hq
  · exact hp
  · exact Nat.le_refl _
  · exact hq
  · simp

/-- A table with a recurrent state at 0x2000 of eight versions of 32 bytes, named by `a4`, and 32 bytes of data at `a1`. -/
def stateful (w0 w8 : Nat) (tags : List (Nat × Nat)) : State :=
  let s := heapObject 4 0x2000 (hd 384 tRSTATE 0) [] (object 1 0x100 (hd 128 tDATA 0) [7] base)
  let t := table w0 w8 noEntry nullPtr s
  { t with mem := tags.foldl (fun (m : Mem) e => m.write (0x2020 + e.1) 8 e.2) (t.mem.write (0x1020 + 0x18) 8 (heapP 0x2000).toNat) }

def used : Nat := 2 ^ 63

theorem witness_KvWindows : all [
    let s := stateful 5 0 []
    s.feature 3 && s.feature 4 && finds (.kvspec 6) (kvTable true) s (fun r t => !t.kvStopped (.heap t.asid r.1) && !t.kvOpen (.heap t.asid r.1)
      && decide (ptrLevel (t.kvRst (.heap t.asid r.1)) = 0)
      && finds (.kvspec 6) (translateRange t.asid (ptrLoc (t.kvRst (.heap t.asid r.1))) 160 true (t.kvRst (.heap t.asid r.1))) t fun _ u => u.calm),
    finds (.kvspec 6) (kvTable true) (table (5 + 2 ^ 63) 0 noEntry nullPtr base) (fun r t => t.kvStopped (.heap t.asid r.1)),
    finds (.kvspec 6) (kvTable true) (table (5 + opened) 0 noEntry nullPtr base) (fun r t => !t.kvStopped (.heap t.asid r.1) && t.kvOpen (.heap t.asid r.1)),
    let s := table (5 + opened) 3 noEntry (framePtr 0) (frame0 0 (regs [(1, 3), (2, 4)] base))
    finds (.kvcommit 6 1) (kvTable true) s (fun r t =>
      let tab := Loc.heap t.asid r.1
      !t.accessPending t.site t.core.act && decide (ptrLevel (t.kvRst tab) = 7) && t.kvOwns tab (0, 0) && decide (t.kvWtok tab = 3)
        && decide ((s.src 2).toNat = 4) && (t.closeWindow t.asid r.1 3).calm),
    finds (.kvabort 6) (kvTable true) (table 5 0 noEntry nullPtr base) (fun r t => !t.kvOwns (.heap t.asid r.1) (0, 0)),
    let s := stateful (5 + opened) 3 [(0x48, used + 2 ^ 62 + 8)]
    let i : Instr := .rsver 6 4 1
    finds i (kvTable false) s (fun q t =>
      let tab := Loc.heap t.asid q.1
      let p := (t.ctx.areg 4).ptr
      decide (ptrLevel (t.kvRst tab) = 0) && decide (ptrLevel p ≤ 3) && finds i (named p) t fun y u =>
        let canon := y.1
        let r := y.2
        decide (ptrLevel canon = 0) && decide (ptrLoc canon = ptrLoc (t.kvRst tab)) && finds i (readHeader p canon r) u fun _ v =>
          decide ((v.hdr r).typ = tRSTATE) && decide ((v.hdr r).len = 128 + 8 * 32)
            && finds i (translateRange t.asid (ptrLoc canon) (32 + (v.hdr r).len) true p) v fun _ w =>
              finds i (kvSource 1 32) w fun _ x => !x.accessPending x.site x.core.act && x.kvOwns tab (0, 0)
                && decide (x.versionSlot r true (x.kvEnd tab true) = some 1) && decide (x.pathCopies canon r r = []) && x.calm),
    let s := stateful 5 0 ((List.range 8).map fun j => (0x40 + 8 * j, used))
    no (s.versionSlot (.heap 0 0x2000) false 5),
    let s := stateful (5 + opened) (2 ^ 51) []
    s.kvOpen (.heap 0 0x1000) && !s.kvOwns (.heap 0 0x1000) (0, 0)] = true := by decide +kernel

/-- The executing core is in the miss shadow of context 0. -/
def inMissShadow (s : State) : State := inCore (fun c => { c with act := 12, miss := some { ctx := 0, pos := 4 } }) s

theorem witness_SystemInstructionModes : all [!base.core.inTrap && !base.core.inMiss, (inMissShadow base).core.inMiss,
    (inShadow base).core.inTrap] = true := by decide +kernel

theorem witness_TrapsAndReturns : all [
    !(base.coreAt 0).tshadow && decide (base.waitq = []), (inShadow base).core.inTrap,
    decide ((base.coreAt 0).recId = some 0), decide (base.log.length < 16384) && decide (base.phase = .ready)] = true := by decide +kernel

/-- A context in which helper 3 executes; helper 1 is ready. -/
def helperRuns : State := inCore (fun c => { c with act := 3 }) base
def helped : State := inCore (fun c => c.setCtx 1 { st := .ready }) base
def asked (r : Option Word) (s : State) : State := inCtx (fun x => { x with xinv := some 7, xreply := r }) (features s)
def stepping : State := inCore (fun c => { c with dbgctl := 1 }) base

theorem witness_SystemInstructions : all [
    !base.core.inTrap && !base.core.inMiss && decide (base.core.ctxNo = 0) && decide (base.core.faults = []),
    (inShadow base).core.inTrap, decide (helperRuns.core.ctxNo ≠ 0) && !helperRuns.core.inMiss,
    decide (helped.core.ctxNo = 0) && decide ((helped.core.ctxAt 1).st = .ready) && decide (helped.core.faults = []),
    (List.range 10).all fun n => decide ((base.core.ctxAt (n + 1)).st = .free),
    (let s1 := base.setCore base.site ((List.range 10).foldl (fun (c : Core) n => c.setCtx (n + 1) { c.ctxAt (n + 1) with st := .free }) base.core)
     let s2 := s1.kvAbortCtx s1.site 0
     decide (s2.core.wmb = []) && decide (s2.core.copies = []) && decide (s2.posts = []) && decide (s2.core.recId = some 0)),
    -- a command that has halted is dropped
    (let s := inCore (fun c => { c with wmb := [{ fault := some 10, num := 3 }], faults := [{ ctx := 1, record := 5, at_ := 0, kind := 1, id := 0, num := 3 }] }) base
     decide ((s.core.wmb.filter fun m => m.fault.isNone) = []) && decide (∀ f ∈ s.core.faults, f.ctx ≠ s.core.act)
       && (s.core.wmb.filter fun m => m.fault.isSome).all fun m => s.core.faults.any fun f => decide (m.num = f.num)),
    (let s := inCore (fun c => { c with timercmp := 0 }) base
     s.causePending s.core && s.calm),
    (let s := base
     !(s.causePending s.core || !s.core.rx.isEmpty || !(s.ownRec.wordsFor 0 (bitsOf s.ctx.portbind 22 5)).isEmpty)),
    plain 3 && base.calm && decide ((asked (some 9) base).ctx.xinv = some 7) && decide ((asked (some 9) base).ctx.xreply = some 9)
      && (asked (some 9) base).calm && decide ((asked none base).ctx.xreply = none),
    decide (base.ctx.xinv = none) && !base.fencePending 5 base.site base.core.act && !base.feature 9,
    (features base).feature 9 && !(features base).fencePending 5 0 0 && no ((features base).ringRoom true 0),
    -- a ring of two requests, empty and full
    (let s := (features base).setReg (.ringSize true 0) 2
     decide (s.ring true 0 = some (0, 2)) && !ringFull (s.vfAt 0).reqTail (s.vfAt 0).reqHead 2 && decide (s.core.act < 13)),
    (let s := (features base).setReg (.ringSize true 0) 2
     no ((s.setVf 0 { s.vfAt 0 with reqTail := 2 }).ringRoom true 0)),
    stepping.core.dbgctl.getLsbD 0 && decide (stepping.core.act ≤ 10) && !stepping.core.halted] = true := by decide +kernel

/-! Saving a core. The bytes of an image that the device keeps to itself are not known, so that its length is bounded. -/

theorem codeGranule_length {g : List Byte} (h : g.length = 64) : (codeGranule g).length ≤ 65 := by
  unfold codeGranule
  split
  · simp
  · split <;> simp [h]

theorem granules_length (n : Nat) (l : List Byte) : ∀ g ∈ granules n l, g.length = 64 := by
  induction n generalizing l with
  | zero => simp [granules]
  | succ n ih =>
    intro g hg
    simp only [granules, List.mem_cons] at hg
    rcases hg with rfl | hg
    · simp only [List.length_append, List.length_replicate, List.length_take]
      omega
    · exact ih _ g hg

theorem granules_count (n : Nat) (l : List Byte) : (granules n l).length = n := by
  induction n generalizing l with
  | zero => rfl
  | succ n ih => simp [granules, ih]

theorem coded_length (l : List (List Byte)) (h : ∀ g ∈ l, g.length = 64) : ((l.map codeGranule).flatten).length ≤ 65 * l.length := by
  induction l with
  | nil => simp
  | cons g l ih =>
    have h1 := codeGranule_length (h g (by simp))
    have h2 := ih fun x hx => h x (by simp [hx])
    simp only [List.map_cons, List.flatten_cons, List.length_append, List.length_cons]
    omega

theorem codeBytes_length (raw : List Byte) : (codeBytes raw).length ≤ 65 * ceilDiv raw.length 64 := by
  have h := coded_length _ (granules_length (ceilDiv raw.length 64) raw)
  rwa [granules_count] at h

theorem leBytes_length (v n : Nat) : (leBytes v n).length = n := by
  induction n generalizing v with
  | zero => rfl
  | succ n ih => simp [leBytes, ih]

theorem section_length (x : ImgSec) : x.bytes.length ≤ 16 + 65 * ceilDiv x.raw.length 64 := by
  have h := codeBytes_length x.raw
  simp only [ImgSec.bytes, List.length_append, leBytes_length]
  omega

theorem image_length (lc tag seed : Nat) (a b c : ImgSec) : (imageBytes lc tag seed [a, b, c]).length
    ≤ 112 + 65 * (ceilDiv a.raw.length 64 + ceilDiv b.raw.length 64 + ceilDiv c.raw.length 64) := by
  have ha := section_length a
  have hb := section_length b
  have hc := section_length c
  simp only [imageBytes, List.length_append, leBytes_length, List.length_cons, List.length_nil, List.length_replicate,
    List.map_cons, List.map_nil, List.flatten_cons, List.flatten_nil]
  omega

theorem pages_mapped {asid va n : Nat} {w : Bool} {v : Word} {s : State}
    (h : ∀ a ∈ pageStarts va n, ∃ e, find (pageKey asid (a / 4096)) s.ptes = some e ∧ e.write = true) :
    translateRange asid va n w v s = .ok () s := by
  unfold translateRange
  generalize pageStarts va n = l at h
  induction l with
  | nil => rfl
  | cons a l ih =>
    obtain ⟨e, he, hw⟩ := h a (by simp)
    have ht : Machine.translate asid a w v s = .ok (e.frame * 4096 + a % 4096) s := by
      unfold Machine.translate translateFor
      simp only [Op.bind_run, Op.get_run, he, hw, Bool.not_true, Bool.and_false]
      rfl
    have e := ih fun x hx => h x (by simp [hx])
    rw [List.forIn_cons]
    simp only [Op.bind_run, ht, Op.pure_run] at e ⊢
    exact e

/-- The queue of the record gives it a save object of 128 KiB at 0x100000, whose pages are mapped. -/
def savable (b : State) : State :=
  let s := inRec (fun r => { r with queue := some 0 }) (regs [(1, 1)] (inShadow (heapObject 1 0x100000 (hd 0x20000 0 0) [] b)))
  pages ((List.range 34).map (256 + ·)) { s with queues := [(0, { save := heapP 0x100000, saveSz := 0x20000, ctxSlots := 64 })] }
/-- It saves without a CTXBUF, and with one. -/
def saving (buf : Bool) : State := savable (if buf then aBuffer 33 base else base)

def saveLoc : Loc := .heap 0 0x100000
def savedImage (buf : Bool) : List Byte :=
  imageBytes 0 0 0 ((saving buf).sections ((saving buf).recAt 0) 0 0 (saving buf).free)

theorem saving_sections (buf : Bool) : (saving buf).sections ((saving buf).recAt 0) 0 0 (saving buf).free
    = [{ kind := 1, raw := leBytes (Config.freeNat (saving buf).free) 98304 }, { kind := 2, ctx := 0, raw := leBytes (Config.freeNat ((saving buf).free + 1)) 2048 },
       (saving buf).unitSection 3 (corePadKey 0) 224 64] := by
  have h1 : ((List.range 11).filter fun x => decide ((((saving buf).coreAt 0).ctxAt x).st ≠ .free)) = [0] := by
    cases buf <;> decide +kernel
  have h2 : ((saving buf).recAt 0).carea (clusterOf 0) = none := by cases buf <;> decide +kernel
  have h3 : ((saving buf).recAt 0).darea (dieOf 0) = none := by cases buf <;> decide +kernel
  simp only [State.sections, h1, h2, h3, Option.map_none, Option.toList_none, ite_self]
  rfl

theorem saving_units (buf : Bool) : ((saving buf).unitSection 3 (corePadKey 0) 224 64).raw.length = 64 := by
  cases buf <;> decide +kernel

theorem savedImage_fits (buf : Bool) : (savedImage buf).length ≤ 0x20000 := by
  unfold savedImage
  rw [saving_sections]
  have h := image_length 0 0 0 { kind := 1, raw := leBytes (Config.freeNat (saving buf).free) 98304 }
    { kind := 2, ctx := 0, raw := leBytes (Config.freeNat ((saving buf).free + 1)) 2048 } ((saving buf).unitSection 3 (corePadKey 0) 224 64)
  simp only [leBytes_length, saving_units] at h
  have e : ceilDiv 98304 64 + ceilDiv 2048 64 + ceilDiv 64 64 = 1569 := by decide +kernel
  rw [e] at h
  omega

theorem saving_ptes (buf : Bool) : ((List.range 34).all fun p => ((find (pageKey 0 (256 + p)) (saving buf).ptes).map (·.write)) == some true) = true := by
  cases buf <;> decide +kernel

theorem mapped_pages {s : State} (h : ((List.range 34).all fun p => ((find (pageKey 0 (256 + p)) s.ptes).map (·.write)) == some true) = true)
    (a n : Nat) (hn : n ≤ 0x20000) (ha : a ∈ pageStarts (0x100000 + 32) n) :
    ∃ e, find (pageKey 0 (a / 4096)) s.ptes = some e ∧ e.write = true := by
  have hp : ∀ p, p < 34 → ∃ e, find (pageKey 0 (256 + p)) s.ptes = some e ∧ e.write = true := by
    intro p hp
    have := List.all_eq_true.mp h p (List.mem_range.mpr hp)
    simpa using this
  unfold pageStarts at ha
  split at ha
  · simp at ha
  · simp only [List.mem_map, List.mem_range] at ha
    obtain ⟨i, hi, rfl⟩ := ha
    have e : Nat.max (0x100000 + 32) (((0x100000 + 32) / 4096 + i) * 4096) / 4096 = 256 + i := by
      rw [show Nat.max (0x100000 + 32) (((0x100000 + 32) / 4096 + i) * 4096) = max (0x100000 + 32) (((0x100000 + 32) / 4096 + i) * 4096) from rfl]
      omega
    rw [e]
    exact hp i (by omega)

theorem starts_ptes (s : State) (i : Instr) : (s.starts i).ptes = s.ptes := rfl

theorem saving_pages (buf : Bool) (i : Instr) (n : Nat) (hn : n ≤ 0x20000) (w : Bool) :
    leads i (savePages saveLoc 0 n w) (saving buf) () (saving buf) := by
  have h1 : Machine.translate 0 0x100000 false 0 ((saving buf).starts i) = .ok 0x100000 ((saving buf).starts i) := by
    cases buf <;> rfl
  have h2 : translateRange 0 (0x100000 + 32 + 0) n w 0 ((saving buf).starts i) = .ok () ((saving buf).starts i) := by
    apply pages_mapped
    intro a ha
    rw [starts_ptes]
    exact mapped_pages (saving_ptes buf) a n hn ha
  unfold leads savePages saveLoc
  simp only [Op.bind_run, h1, h2]

theorem find_mem {α : Type} {k : Nat} {v : α} {l : List (Nat × α)} (h : find k l = some v) : (k, v) ∈ l := by
  induction l with
  | nil => simp [find] at h
  | cons e l ih =>
    obtain ⟨j, u⟩ := e
    unfold find at h
    split at h
    · next e => simp_all
    · exact List.mem_cons_of_mem _ (ih h)

/-- The state that saves also satisfies what `ckpt` asks of the object; register 1 asks for a vacated core. -/
theorem witness_CheckpointAndRestore_saves (buf : Bool) :
    (saving buf).core.inTrap = true ∧ (saving buf).core.recId = some 0 ∧ (saving buf).saveObject = some (saveLoc, 0, 0x20000)
    ∧ (saving buf).padBusy (saving buf).site 0 = false ∧ (savedImage buf).length ≤ 0x20000
    ∧ leads (.ckpt 5 0) (savePages saveLoc 0 (savedImage buf).length true) (saving buf) () (saving buf)
    ∧ 0 + 0x20000 ≤ ((saving buf).hdr saveLoc).len ∧ ((saving buf).hdr saveLoc).poison = false
    ∧ (saving buf).bodyPoisoned saveLoc 0 (savedImage buf).length = false
    ∧ (∀ asid va, saveLoc = .heap asid va → (saving buf).acrossDead (saving buf).asid (va + 32 + 0) (savedImage buf).length = false)
    ∧ (saving buf).src 0 = 0 ∧ (saving buf).src 1 = 1 ∧ ((saving buf).recAt 0).ctxbuf 0 = if buf then some buffer else none := by
  refine ⟨by cases buf <;> decide +kernel, by cases buf <;> decide +kernel, by cases buf <;> decide +kernel,
    by cases buf <;> decide +kernel, savedImage_fits _, saving_pages _ _ _ (savedImage_fits _) _, by cases buf <;> decide +kernel,
    by cases buf <;> decide +kernel, ?_, ?_, by cases buf <;> decide +kernel, by cases buf <;> decide +kernel, by cases buf <;> decide +kernel⟩
  · have h : (saving buf).poison = [] := by cases buf <;> decide +kernel
    have g : (saving buf).lostChannels = [] := by cases buf <;> decide +kernel
    simp [State.bodyPoisoned, saveLoc, State.poisoned, State.channelLost, h, g]
  · rintro asid va ⟨⟩
    have hp : ∀ e ∈ (saving buf).ptes, e.2.home = none := by cases buf <;> decide +kernel
    simp only [State.acrossDead, List.any_eq_false]
    intro a _
    split
    · next e he =>
      simp [State.pteDead, show e.home = none from hp _ (find_mem he)]
    · simp

theorem witness_CheckpointAndRestore_spills : leadsTo (.ckpt 5 1) (bufPages buffer) (saving true) () (saving true) = true := by
  decide +kernel

def saved : State :=
  let saving := saving false
  let savedImage := savedImage false
  let ss := saving.sections (saving.recAt 0) 0 0 saving.free
  let s1 := State.putBody { saving with free := saving.free + ss.length } saveLoc 0 savedImage
  let s2 := s1.setHdr saveLoc { s1.hdr saveLoc with w1 := BitVec.ofNat 64 (((s1.hdr saveLoc).version + 1) % 2 ^ 32 + 4 * 2 ^ 32) }
  let s3 := s2.setRec 0 { s2.recAt 0 with lastCkpt := some ((ss.map fun x => x.raw.length).sum, savedImage.length) }
  let s4 := s3.setCore s3.site s3.core.engineStop
  let img := { s3.saveImage s3.site (s3.framed s3.site) false with areas := areaRaws ss }
  s4.setRec 0 { s4.recAt 0 with images := store 0 { img with core := { img.core with rx := [] } } (s4.recAt 0).images }

theorem witness_CheckpointAndRestore_calm : saved.calm = true := by decide +kernel

/-- Coded bytes of the smallest image: a CORE, a CONTEXT and a COREPAD section of zeros, by the spec's layout. -/
def smallImage (magic : Nat) : List Nat :=
  let u := fun (v n : Nat) => (List.range n).map fun i => v / 256 ^ i % 256
  [magic, 0x4B, 0x50, 0x31] ++ u 1 2 ++ u 3 2 ++ u 1681 8 ++ u 0 16 ++ List.replicate 32 0
    ++ (u 1 2 ++ u 0 2 ++ u 98304 4 ++ u 1536 4 ++ u 0 4 ++ List.replicate 1536 0)
    ++ (u 2 2 ++ u 0 2 ++ u 2048 4 ++ u 32 4 ++ u 0 4 ++ List.replicate 32 0)
    ++ (u 3 2 ++ u 0 2 ++ u 64 4 ++ u 1 4 ++ u 0 4 ++ [0])

def restorable (magic : Nat) : State :=
  let s := inRec (fun r => { r with queue := some 0, images := [(0, { core := base.core })] })
    (inShadow (pages [0x100, 0x101] (heapObject 1 0x100000 (hd 4096 0 0) (smallImage magic) base)))
  { s with queues := [(0, { save := heapP 0x100000, saveSz := 4096, ctxSlots := 64 })] }

theorem witness_CheckpointAndRestore : all [
    (let s := regs [(1, 2)] (inShadow base)
     s.core.inTrap && s.calm && no s.saveObject && decide ((s.src 0).toNat < 2) && decide (2 ≤ (s.src 1).toNat)),
    (let s := saving false
     s.core.inTrap && decide (s.saveObject = some (saveLoc, 0, 0x20000)) && no (find 0 (s.recAt 0).images) && s.calm)] = true := by
  decide +kernel

theorem witness_CheckpointAndRestore_restore : ((restorable 0x43).core.inTrap
    && decide ((restorable 0x43).saveObject = some (saveLoc, 0, 4096)) && (find 0 ((restorable 0x43).recAt 0).images).isSome
    && leadsTo (.rstor 5) (savePages saveLoc 0 64 false) (restorable 0x43) () (restorable 0x43)
    && decide (imageSpan ((restorable 0x43).bodyBytes saveLoc 0 64) 4096 = 1681)
    && leadsTo (.rstor 5) (savePages saveLoc 0 1681 false) (restorable 0x43) () (restorable 0x43)
    && !((restorable 0x43).hdr saveLoc).poison && !(restorable 0x43).bodyPoisoned saveLoc 0 1681) = true := by decide +kernel

/-- Poison behind the image, in the same share, does not count; within it, it does. -/
theorem witness_CheckpointAndRestore_poisoned : (
    let s := fun k => ({ restorable 0x43 with poison := [(0x100000 + k) / 32] } : State)
    (s 1700).bodyPoisoned saveLoc 0 1681 && !(s 1760).bodyPoisoned saveLoc 0 1681 && (s 1700).calm) = true := by decide +kernel

/-- The section of a cluster-pad area, as `ckpt` wrote it and changed since. -/
theorem witness_CheckpointAndRestore_areas : (
    let x : ImgSec := { kind := 4, raw := List.replicate 512 0 }
    let img : Image := { core := {}, areas := [(4, x.raw)] }
    decide ((([x] : List ImgSec).find? fun y => decide (y.kind = 4)) = some x) && decide (find 4 img.areas = some x.raw)
      && decide (find 4 ({ core := {} } : Image).areas ≠ some x.raw)) = true := by decide +kernel

theorem witness_CheckpointAndRestore_wrong : (match readImage ((restorable 0).bodyBytes saveLoc 0 1681) 0 0 with
  | .ok _ => false
  | .error w => decide (w = failWord 2 0)) && (restorable 0).calm = true := by decide +kernel

theorem witness_CheckpointAndRestore_read : (match readImage ((restorable 0x43).bodyBytes saveLoc 0 1681) 0 0 with
  | .ok ss => decide (ss.map (·.kind) = [1, 2, 3]) && ((restorable 0x43).restoreImage 0 0 0 { core := base.core } ss).calm
  | .error _ => false) = true := by decide +kernel

/-! What interrupts a core, and the switching of records. -/

def timed : State := inCore (fun c => { c with timercmp := 0 }) base
def stale : State := { inCore (fun c => { c with faults := [{ ctx := 0, record := 5, at_ := 0, kind := 1, id := 0 }] }) base with cycle := 70000 }
/-- A queue with a save object, from which record 0 was taken. -/
def queued (x : Queue) (s : State) : State := inRec (fun r => { r with queue := some 0 }) { s with queues := [(0, x)] }
/-- Its two logical cores have their CTXBUFs. -/
def tenant : State :=
  let s := heapObject 1 0x2000 (hd (64 + 64 * 33) tCTXBUF 0) [] (aBuffer 33 base)
  queued { save := heapP 0x100000, saveSz := 4096, ctxSlots := 64 } (inRec (fun r => { r with ctxbufs := [(0, heapP 0x1000), (1, heapP 0x2000)] }) s)
def dated : State :=
  { tenant with deadlines := [{ isVf := true, target := 0, at_ := 50000, report := nullPtr, posted := 0, queues := [{ q := 0, outcome := .checkpoint, recs := [0] }] }] }

theorem witness_AsynchronousCauses : all [
    (let c := { timed.core with ie := false, raised := [(Cause.interrupt.code, 1)] }
     !c.ie && decide ((timed.dueCauses c).length = 1)),
    (let s := inCore (fun c => { c with raised := [(Cause.interrupt.code, 1), (Cause.cornice.code, 7)] }) timed
     (s.coreAt 0).interruptible && decide ((s.dueCauses (s.coreAt 0)).length = 3)
       && (List.range 11).all fun n => decide (((s.coreAt 0).ctxAt n).st ≠ .waiting)),
    !((inShadow base).coreAt 0).interruptible, decide (base.dueCauses (base.coreAt 0) = []),
    (let c := timed.coreAt 0
     c.interruptible && c.ie && decide (c.timercmp.toNat ≤ timed.cycle.toNat) && decide (c.raised = []) && decide (c.pending = [])
       && decide (c.faults = [])),
    (let c := base.coreAt 0
     !(c.interruptible && c.ie && decide (c.timercmp.toNat ≤ base.cycle.toNat)) && !(c.interruptible && c.ie && (base.staleFault c).isSome)),
    (let c := stale.coreAt 0
     c.interruptible && c.ie && (stale.staleFault c).isSome),
    decide ((tenant.coreAt 0).recId = some 0) && !(tenant.coreAt 0).halted && tenant.preemptible (tenant.recAt 0) && !(tenant.coreAt 0).tuft
      && decide ((tenant.coreAt 0).raised = []),
    !base.preemptible (base.recAt 0), (features base).accepted 0 13, !base.accepted 0 13,
    (let p := fun (d : Deadline) => d.queues.any fun x => x.recs.contains 0 && decide (x.outcome = .checkpoint) && no x.vacant
     (dated.deadlines.find? p).isSome && decide (dated.deadlines.length = 1) && !(dated.coreAt 0).tshadow
       && decide ((dated.coreAt 0).raised = []) && decide (tenant.deadlines = [])),
    no (base.coreAt 1).recId] = true := by decide +kernel

/-- A record of two cores is to be switched out at a boundary. -/
def leaving : State :=
  let s := inRec (fun r => { r with place := [0, 1], switchAsked := some 0, boundary := true }) tenant
  { s.setCore 1 { s.coreAt 1 with recId := some 0 } with cycle := 14000 }
/-- Its core 1 has left; core 0 has left as well. -/
def halfAway (direct : Bool) : State :=
  inRec (fun r => { r with place := [0, 1], vacated := [1], images := [(1, { core := {}, direct := direct })] }) tenant
def away : State := inRec (fun r => { r with st := .switched, vacated := [0], images := [(0, { core := {}, direct := true })] }) tenant
def cleared (s : State) : State := s.setCore 0 { s.coreAt 0 with recId := none }

theorem witness_SwitchingRecords : all [
    (let x := leaving.recAt 0
     decide (x.st = .running) && leaving.preemptible x && x.switchAsked.isSome && x.boundary && decide (x.vacated = []) && decide (leaving.net = [])
       && no (leaving.corniceStop 0) && (match bufsReady (([0, 1] : List Nat).filterMap x.ctxbuf) leaving with
         | .ok b _ => b
         | .error _ _ => false)
       && (match bufsReady (([0, 1] : List Nat).filterMap x.ctxbuf) { features leaving with ptes := [] } with
         | .ok b _ => !b
         | .error _ _ => false)
       && [0, 1].all fun n => !(leaving.coreAt n).tshadow && !leaving.padBusy n 0),
    no (tenant.recAt 0).switchAsked && (dated.corniceStop 0).isSome, decide (leaving.cycle.toNat = 14000), decide (({ leaving with cycle := 3 } : State).cycle.toNat < 14000),
    decide (1 ∉ (leaving.recAt 0).ended) && decide ((leaving.recAt 0).place = [0, 1]) && decide (0 ∉ (leaving.recAt 0).vacated),
    (let s := halfAway true
     s.mayResume (s.recAt 0) && decide ((s.recAt 0).st = .running) && decide ((s.recAt 0).place[1]? = some 1)
       && decide (1 ∈ (s.recAt 0).vacated) && no (s.coreAt 1).recId && decide (((find 1 (s.recAt 0).images).map (·.direct)) = some true)),
    (let s := halfAway false
     s.mayResume (s.recAt 0) && decide (((find 1 (s.recAt 0).images).map (·.direct)) = some false)),
    (let s := cleared away
     s.mayResume (s.recAt 0) && decide ((s.recAt 0).st = .switched) && decide (s.resumePlace 0 16 0 = some [16])
       && (let s1 := (s.setRec 0 (relocRecord (s.recAt 0) [16])).restoreAreas 0
           decide ((s1.recAt 0).st = .running) && decide (0 ∈ (s1.recAt 0).vacated) && decide ((s1.recAt 0).place[0]? = some 16)
             && no (s1.coreAt 16).recId && (find 0 (s1.recAt 0).images).isSome)),
    !leaving.mayResume (leaving.recAt 0), no ((cleared away).resumePlace 0 1 0), decide ((tenant.recAt 0).vacated = [])] = true := by decide +kernel

/-! Records. -/

/-- An operation of the device answers, and what it answers and leaves satisfies `p`. -/
def runs {α : Type} (x : Op α) (s : State) (p : α → State → Bool) : Bool :=
  match x s with
  | .ok a t => p a t
  | .error _ _ => false

/-- The 128 bytes of a record of one core whose code lies at 0x20000, with its entry point (R113). -/
def recordBytes (entry : Nat) : List Nat :=
  [0, 0, 2] ++ List.replicate 5 0 ++ [entry] ++ List.replicate 23 0 ++ [1, 0, 1] ++ List.replicate 13 0
    ++ (List.replicate 8 [0, 0x20]).flatten ++ List.replicate 64 0

/-- A code object of 64 bytes lies at 0x20000; the queue's partition is core 0 to core 3. -/
def coded (s : State) : State :=
  { heapObject 3 0x20000 (hd 64 tCODE 0) [] s with partitions := [(0, { base := 0, len := 4 })] }

def launching (len cur : Nat) (bs : List Nat) : State :=
  let s := queued {} (object 1 0x100 (hd len tDATA 0) bs (coded base))
  s.setCtx (s.ctx.setA 1 { s.ctx.areg 1 with cur := BitVec.ofNat 32 cur })

def launchFields : List Nat := [0x00, 0x40, 0x48, 0x50, 0x58, 0x60, 0x70]

/-- The record at the cursor, its links made, has `res` as its first offending field. -/
def checkedFor (lim : State → Nat) (s : State) (res : Option Nat) (p : State → Bool) : Bool :=
  findsAt (.glaunch 2 1) (touch 1) s fun l t =>
    decide ((t.hdr l).typ = tDATA) && decide ((s.ctx.areg 1).cur.toNat % 128 = 0) && decide ((s.ctx.areg 1).cur.toNat + 128 ≤ (t.hdr l).len)
      && t.clearOfReds l 0 128 && !t.bodyPoisoned l 0 128 && finds (.glaunch 2 1) (linkFields (t.bodyBytes l 0 128) launchFields) t fun raw t1 =>
        decide (t1 = t) && finds (.glaunch 2 1) (checkLaunch (.ctx t.site t.core.act) t.ownRec.l.asid t.ownRec.l.vf (lim t) raw) t
          fun r u => decide (r = res) && finds (.glaunch 2 1) (countable (.ctx t.site t.core.act) t.ownRec.l.asid (parseLaunch raw).wait) u fun ws w =>
            finds (.glaunch 2 1) (releaseAll 4) w fun _ v => v.calm && p v && (v.queueRecord (newRecord v (parseLaunch raw) 0 false 0) ws).calm

def checked (s : State) (res : Option Nat) (p : State → Bool) : Bool := checkedFor (fun t => t.coreLimit t.ownRec.queue) s res p

theorem witness_LaunchFromDevice : all [
    plain 2 && !base.core.inMiss,
    findsAt (.glaunch 2 1) (touch 1) (object 1 0x100 (hd 64 tBARRIER 0) [] base) fun l t => decide ((t.hdr l).typ ≠ tDATA),
    findsAt (.glaunch 2 1) (touch 1) (launching 128 4 []) fun l t => decide ((t.hdr l).typ = tDATA) && decide (((launching 128 4 []).ctx.areg 1).cur.toNat = 4),
    findsAt (.glaunch 2 1) (touch 1) (launching 64 0 []) fun l t => decide ((t.hdr l).len < 128),
    (let s := { launching 128 0 [] with poison := [(corePadKey 0 + 0x120) / 32] }
     findsAt (.glaunch 2 1) (touch 1) s fun l t => t.clearOfReds l 0 128 && t.bodyPoisoned l 0 128),
    checked (launching 128 0 (recordBytes 2)) (some 8) fun _ => true] = true := by decide +kernel

/-- The device launch queue of queue 0 is full. -/
def fullQueue : State :=
  let s := launching 128 0 (recordBytes 4)
  { s with recs := s.recs ++ (List.range 64).map fun n => (n + 1, { s.recAt 0 with st := .waiting, fromHost := false }) }

theorem witness_LaunchFromDevice_queued : all [
    checked (launching 128 0 (recordBytes 4)) none fun v =>
      v.ownRec.fromHost && decide (v.ownRec.queue = some 0) && decide ((v.deviceRecs 0).length < 64),
    checked fullQueue none fun v => v.ownRec.fromHost && decide (v.ownRec.queue = some 0) && decide (64 ≤ (v.deviceRecs 0).length)] = true := by
  decide +kernel

theorem witness_LaunchFromDevice_without : all [
    checkedFor (fun _ => chanBase) (inRec (fun r => { r with queue := none }) (launching 128 0 (recordBytes 4))) none fun v =>
      decide (v.ownRec.queue = none) && decide (v.fused = []),
    checked (inRec (fun r => { r with fromHost := false }) (launching 128 0 (recordBytes 4))) none fun v => !v.ownRec.fromHost] = true := by
  decide +kernel

/-- Without a queue, the limit of the first of these is the number of cores of the package. -/
theorem witness_LaunchFromDevice_limit (s : State) (h : s.fused = []) : s.coreLimit none = chanBase := by
  simp [State.coreLimit, h]

/-- Queue 0 has one record in its ring at 0x30000. -/
def ringed (entry : Nat) : State :=
  let s := coded (inRec (fun r => { r with closed := true, st := .ended }) (base.setCore 0 {}))
  let t := pages [0x30] { s with mem := s.mem.setBytes 0x30000 ((recordBytes entry).map (BitVec.ofNat 8)) }
  { t with queues := [(0, { ring := 0x30000, tail := 1 })], asids := [(0, {})] }

/-- What `prepare` leaves in a state after fetching, the chosen record and its sites. -/
def dispatches (s : State) (p : Cand → State → Bool) : Bool :=
  runs (fetchQueue 0) s fun _ s1 => runs (noteAll 0) s1.fenceIdle fun _ s2 =>
    match s2.chosen 0 with
    | some c => p c s2
    | none => false

/-- Record 1 waits in queue 0, eligible since cycle 0; a record of one core. -/
def waiting : State :=
  let l : Launch := { code := heapP 0x20000, parts := List.replicate 8 8192 }
  let t := { ringed 0 with queues := [(0, {})], cycle := 700000 }
  t.setRec 1 { l := l, queue := some 0, eligibleAt := some 0 }

def lap (r : Option Nat) (s : State) : State := { s with slices := (r.map fun v => (0, { vf := v, start := 0 })).toList }

theorem witness_RecordDispatch : all [
    no (find 0 base.queues), (let x : Queue := {}; decide (x.head = x.tail)),
    runs (translateFor .device 0 0x30000 false 0) (ringed 0) fun _ t => runs (checkLaunch .device 0 0 (t.coreLimit (some 0)) (t.heapBytes 0 0x30000 128)) t
      fun r u => decide (r = none) && runs (countable .device 0 (parseLaunch (t.heapBytes 0 0x30000 128)).wait) u fun _ _ => true,
    runs (checkLaunch .device 0 0 ((ringed 2).coreLimit (some 0)) ((ringed 2).heapBytes 0 0x30000 128)) (ringed 2) fun r _ => decide (r = some 8),
    decide ((ringed 0).phase = .ready) && (find 0 (ringed 0).queues).isSome && dispatches (ringed 0) fun c s2 =>
      decide (c.q = 0) && s2.mayLoad 0 0 && runs (prepare c.rid) s2 fun _ _ => true,
    (let s := { waiting with ptes := [] }
     dispatches s fun c s2 => decide (c.q = 0) && s2.mayLoad 0 0 && match prepare c.rid s2 with
       | .error (.trap _ _) _ => true
       | _ => false),
    (let s := { ringed 0 with queues := [(0, {})] }
     runs (fetchQueue 0) s fun _ s1 => runs (noteAll 0) s1.fenceIdle fun _ s2 => no (s2.chosen 0)),
    decide ((find 0 waiting.resvs).isNone) && decide (waiting.lateHeads 0 ≠ []) && (waiting.lateHeads 0).all fun e =>
      decide ((waiting.recAt e.1).l.cores * (waiting.recAt e.1).l.groups ≤ (waiting.ridge 0 (waiting.recAt e.1).chan).length),
    decide ((ringed 0).lateHeads 0 = []), decide (waiting.slices = []),
    (let s := lap (some 5) { waiting with queues := [] }
     (s.slices.find? fun e => decide (e.2.vf = 5)).isSome && !s.hasWork 0 5 && !(s.recs.any fun r =>
       decide (r.2.part = 0) && decide (r.2.l.vf = 5) && decide (r.2.st = .running)) && decide (s.queues = [])),
    (let s := lap (some 0) waiting
     s.hasWork 0 0 && decide (((vfOrder (0 + 1) ((s.queues.filter fun q => decide (q.2.part = 0)).map fun q => q.2.vf)).find? fun v => s.hasWork 0 v) = some 0)),
    (let s := lap (some 5) waiting
     decide (((vfOrder (5 + 1) ((s.queues.filter fun q => decide (q.2.part = 0)).map fun q => q.2.vf)).find? fun v => s.hasWork 0 v) = some 0))] = true := by decide +kernel

/-- A slice lasts from 10 µs to 100 ms, whatever the driver sets: it is not over when it begins, and over later. -/
theorem witness_RecordDispatch_slices (vf : Nat) : (0 : Nat) < 0 + sliceCycles vf ∧ 0 + sliceCycles vf ≤ 80000000 := by
  unfold sliceCycles
  simp only [Nat.max_def, Nat.min_def]
  split <;> split <;> omega

/-- Record 0 of queue 0 with everything ended; its completion ring is at 0x30000. -/
def finished (x : Queue) (w : Bool) : State :=
  let s := queued x (inRec (fun r => { r with ended := [0] }) base)
  { s with ptes := store (pageKey 0 0x30) { frame := 0x30, write := w, hbm := true } s.ptes, asids := [(0, {})] }

theorem witness_RecordStartAndEnd : all [
    decide (0 < (base.recAt 0).place.length),
    decide ((base.recAt 0).status = none) && decide ((base.recAt 0).st = .running) && decide (0 ∉ (base.recAt 0).ended), no (find 7 base.recs),
    (let s := finished { cring := 0x30000 } true
     let r := s.recAt 0
     !r.closed && decide (r.status = none) && decide (r.st = .running) && decide (r.ended = [0]) && decide (r.place = [0]) && !s.recordBusy 0
       && no r.endFault && runs (tryRun (endRelease 0)) s fun n s1 => decide (n = .done) && decide ((s1.recAt 0).status = none)
         && runs (tryRun (completionPage (s1.recAt 0))) s1 fun n s2 => decide (n = .done)
           && runs (tryRun (signalPages (s1.recAt 0))) s2 fun n _ => decide (n = .done)),
    (let s := inRec (fun r => { r with status := some 3 }) (finished { cring := 0x30000 } true)
     runs (tryRun (completionPage (s.recAt 0))) s fun n _ => decide (n = .done)),
    (let s := finished { cring := 0x30000 } true
     (s.recAt 0).fromHost && decide ((s.recAt 0).queue = some 0) && (let x : Queue := lookup {} 0 s.queues
       decide (find 0 s.queues = some x) && s.writable x.asid x.nextEntry 16)),
    decide (0 ∈ (base.recAt 0).place) && decide ((base.coreAt 0).recId = some 0)] = true := by decide +kernel

/-- A window of the record that ends is still to be aborted; the page of its table is awaited. -/
theorem witness_RecordStartAndEnd_aborts : all [
    (let s := finished { cring := 0x30000 } true
     runs (finishAborts (s.abortsOf 0)) s fun b _ => !b),
    (let s := { features (inRec (fun r => { r with status := some 3 }) (finished { cring := 0x30000 } true)) with
       kvTabs := [{ asid := 0, va := 0x7000, rid := some 0, abort := true }] }
     runs (finishAborts (s.abortsOf 0)) s fun b _ => b),
    -- the record of a boot program
    (let s := inRec (fun r => { r with boot := true, status := some 0 }) (finished { cring := 0x30000 } true)
     (s.recAt 0).boot && runs (finishAborts (s.abortsOf 0)) s fun b _ => !b)] = true := by decide +kernel

theorem witness_IndexSharesCoverTheRange : let l : Launch := { count := 1000, parts := List.replicate 8 8192 }
    l.parts.length = 8 ∧ l.parts.sum = 65536 ∧ [3, 2000, 5000].Pairwise (· < ·) ∧ ∀ x ∈ [3, 2000, 5000], x < 8192 := by decide +kernel

/-! Pages, deadlines, the host. -/

def requesting : State := { features base with pageReqs := [{ asid := 0, page := 5, write := true, owner := .device }] }
/-- The first 2 MiB of memory are secure. -/
def guarded (s : State) : State := { s with regionTbl := [(0, { valid := true, base := 0, units := 1, secure := true })] }
def tiered (busy : Bool) : State :=
  let s := { pages [5] base with tier := [{ asid := 0, page := 5, frame := 5, hbm := 9 }] }
  if busy then inCore (fun c => { c with hwrs := [{ ctx := 0, obj := .heap 0 (5 * 4096), off := 0, bytes := [0] }] }) s else s

theorem witness_TranslationAnswers : all [
    decide (requesting.pageReqs[0]?.isSome) && decide (3 < hbmFrames) && !requesting.securePage (3 * 4096) && decide (hbmFrames - 1 < hbmFrames),
    (let s := { requesting with routes := [(3, BitVec.ofNat 64 (2 ^ 63 + 2 ^ 25))] }
     routeValid (s.route 3) && !routeValid (s.route 4)),
    (guarded requesting).securePage (3 * 4096) && (guarded requesting).accepted (lookup {} 0 (guarded requesting).asids : AsidSt).vf 11,
    (let s := { guarded requesting with vfs := [] }
     s.securePage (3 * 4096) && !s.accepted (lookup {} 0 s.asids : AsidSt).vf 11),
    -- a page of host memory in a secure region; two ASIDs of one PASID
    (let s := { requesting with regionTbl := [(0, { valid := true, base := hbmFrames / 512, units := 1, secure := true })], vfs := [] }
     s.securePage ((hbmFrames + 3) * 4096) && !s.accepted (lookup {} 0 s.asids : AsidSt).vf 11 && decide (3 < 2 ^ 43)),
    (let s := { requesting with asids := [(0, {}), (1, {}), (2, { pasid := 7 })] }
     s.oneTable 0 1 && !s.oneTable 0 2 && decide (s.tableMates 0 = [0, 1])),
    decide ((tiered false).invalidations 0 < 64) && decide ((tiered false).hostWaits = []),
    (let i : HostWait := .invalidation 0 5 1
     i ∈ ((tiered true).keepsWait i).hostWaits),
    (let s := { tiered false with hostWaits := (List.range 64).map fun n => .invalidation 0 (100 + n) 1 }
     decide (¬ (.invalidation 0 5 1 ∈ s.hostWaits)) && decide (64 ≤ s.invalidations 0)),
    decide (base.pageReqs.length ≤ 0), !(tiered false).inFlight 0 5 && decide ((tiered false).ptes ≠ []),
    (tiered true).inFlight 0 5 && decide ((pageKey 0 5, ({ frame := 5, write := true, hbm := true } : Pte)) ∈ (tiered true).ptes),
    (tiered false).tier.any (fun e => decide (e.asid = 0) && decide (e.page = 5)) && !base.tier.any fun e => decide (e.asid = 0) && decide (e.page = 5)] = true := by decide +kernel

/-- VF 0 has queue 0, in ASID 0, and a report object at 0x40000. -/
def deadlined (x : DlQueue) (now : Nat) : State :=
  let s := features (queued {} (heapObject 3 0x40000 (hd 128 0 0) [] base))
  { s with
    cycle := BitVec.ofNat 64 now
    asids := [(0, {})]
    deadlines := [{ isVf := true, target := 0, at_ := 100000, report := heapP 0x40000, posted := 1, queues := [x] }] }
def resident : DlQueue := { q := 0, recs := [0], outcome := .run }
def vacantQueue : DlQueue := { q := 0, outcome := .withdrawn, vacant := some 1 }

theorem witness_DeadlineResults : all [
    (let s := deadlined vacantQueue 0
     decide (s.phase = .ready) && decide (0 / 128 = 0) && s.deadlineTarget true 0 && (runs (tryAsk (reportOk (s.reportAsid true 0) (heapP 0x40000) (s.targetQueues true 0).length)) s
        fun a _ => decide (a = some true))
       && (runs (tryAsk (reportOk (s.reportAsid true 0) nullPtr (s.targetQueues true 0).length)) s fun a _ => decide (a = some false))
       && (runs (tryAsk (reportOk (s.reportAsid true 0) (heapP 0x50000) (s.targetQueues true 0).length)) s fun a _ => decide (a = none))),
    -- the choice: no time left, the rest runs, a checkpoint is taken, neither fits
    (let n := fun (b : Int) (m c : Est) => chooseOutcome b m c
     decide (n 0 (some (0, 1)) none = .discard) && decide (n 11 (some (10, 1)) none = .run) && decide (n 10 (some (10, 1)) (some (10, 1)) = .checkpoint)
       && decide (n 10 (some (10, 1)) (some (11, 1)) = .discard) && decide (n 10 none none = .discard)),
    (let s := { deadlined resident 0 with deadlines := [] }
     decide (s.residents 0 ≠ []) && decide (s.deadlines = []) && s.residents 0 = [(0, s.recAt 0)] && decide ((s.residents 1) = [])),
    -- a record that waits in a queue of the target; and a deadline that is to come
    (let s := { deadlined resident 0 with recs := [(1, { st := .waiting, queue := some 0 })] }
     (s.targetQueues true 0).all (fun e => decide (s.residents e.1 = [])) && decide (find 0 s.queues = some {}) && decide ((s.recAt 1).st = .waiting)),
    (let s := (deadlined resident 0).postDeadline true 0 100000 nullPtr
     decide ((deadlined resident 0).cycle.toNat < 100000) && s.barred 0 0),
    (let s := inRec (fun r => { r with place := [0] }) base
     decide (0 ∈ (s.recAt 0).place) && decide ((s.coreAt 0).recId = some 0)),
    !base.deadlineTarget true 0, decide (find 0 (deadlined vacantQueue 0).queues = some {}),
    (let s := deadlined resident 65000
     let late := fun (d : Deadline) => d.queues.filter fun x => x.vacant.isNone && x.recs.any fun r => decide ((s.recAt r).st = .running)
     (s.deadlines[0]?.map fun d => decide (d.at_ ≤ s.cycle.toNat + 35000) && decide (late d ≠ [])) = some true),
    (deadlined resident 64999).cycle.toNat + 35000 < 100000,
    (let s := (deadlined resident 0).noteVacant
     (s.deadlines[0]?.map fun d => d.queues.any fun x => no x.vacant) = some true),
    (let s := (deadlined vacantQueue 0).noteVacant
     (s.deadlines[0]?.map fun d => d.queues.all fun x => x.vacant.isSome) = some true
       && match s.deadlines[0]? with
         | some d => runs (tryRun (reportPages ((s.reportAsid d.isVf d.target).getD 0) (ptrLoc d.report) (reportBytes d).length)) s fun n _ => decide (n = .done)
         | none => false),
    -- the host refuses the page of the report object
    (let s := { (deadlined vacantQueue 0).noteVacant with ptes := [], pageReqs := [{ asid := 0, page := 0x40, write := true, owner := .device, refused := true }] }
     match s.deadlines[0]? with
       | some d => runs (tryRun (reportPages ((s.reportAsid d.isVf d.target).getD 0) (ptrLoc d.report) (reportBytes d).length)) s fun n _ =>
         match n with
           | .stopped _ => true
           | _ => false
       | none => false),
    (let s := { (deadlined vacantQueue 0).noteVacant with ptes := [] }
     match s.deadlines[0]? with
       | some d => runs (tryRun (reportPages ((s.reportAsid d.isVf d.target).getD 0) (ptrLoc d.report) (reportBytes d).length)) s fun n _ => decide (n = .parked)
       | none => false)] = true := by decide +kernel

theorem witness_FunctionRegisters : all [
    decide (base.phase = .ready) && decide (base.queues = []), decide ((deadlined resident 0).queues = [(0, {})]), decide (base.hostEvents = []),
    (let s := { base with hostEvents := [{ vf := 0, kind := 2 }] }
     decide (s.hostEvents = [{ vf := 0, kind := 2 }])), decide (base.phase ≠ .off),
    -- an event ring of two entries with room, a full one, and none; the largest ring and one that is too large
    (let s := { base.setReg (.ringSize false 0) 2 with hostEvents := [{ vf := 0, kind := 2 }] }
     decide (s.ring false 0 = some (0, 2)) && decide (((s.vfAt 0).evTail - 0).toNat ≠ 2) && decide (((s.vfAt 0).evTail - (0 - 2)).toNat = 2)),
    no (base.ring false 0), decide (2 ^ 12 = 4096) && ((base.setReg (.ringSize true 5) 4096).ring true 5).isSome,
    no ((base.setReg (.ringSize true 5) 8192).ring true 5), no ((base.setReg (.ringSize true 5) 1).ring true 5),
    -- a page of the secure world that the function may keep, and one that it may not
    (let s := { guarded (pages [3, 600] base) with asids := [(0, {})] }
     s.securePage (3 * 4096) && !s.accepted (lookup {} 0 s.asids : AsidSt).vf 11 && !s.securePage (600 * 4096) && decide (pageKey 0 3 / 2 ^ 41 < 8192))] = true := by
  decide +kernel

/-- A descriptor of a queue of two records, with a ring at 0x30000 and a completion ring at 0x31000, in ASID 0. -/
def descriptor (entries : Nat) : BitVec 512 := BitVec.ofNat 512 (0x30000 + 0x31000 * 2 ^ 64 + entries * 2 ^ 128 + 2 ^ 352)
def hosted : State := { features base with asids := [(0, {})], partitions := [(0, { len := 4 })] }

/-- The partition of a VF is what the driver set: these premises hold where VF 0 is assigned to partition 0. -/
theorem witness_QueuesAndAsids_create (h : Config.vfPartition 0 = some 0) :
    (let f := fun (off n : Nat) => (descriptor 2).toNat / 2 ^ (8 * off) % 2 ^ (8 * n);
      f 0 8 % 128 = 0 ∧ f 8 8 % 16 = 0 ∧ f 0x10 4 = 2 ^ 1 ∧ f 0x14 2 < 8192 ∧ (find (f 0x14 2) hosted.asids).map (·.vf) = some 0 ∧ f 0x16 1 < 8
        ∧ f 0x17 1 = 0 ∧ (find (f 0x18 1) hosted.partitions).isSome = true ∧ f 0x18 1 = 0 ∧ f 0x19 7 = 0 ∧ f 0x2E 18 = 0 ∧ f 0x28 4 = 0
        ∧ noPtr (BitVec.ofNat 64 (f 0x20 8)) = true ∧ f 0x2C 2 = 1 ∧ f 0 8 + 128 * 2 ≤ 2 ^ 53 ∧ f 8 8 + 16 * 2 ≤ 2 ^ 53)
    ∧ find (queueKey 0 0) hosted.queues = none ∧ Config.vfPartition 0 = some 0
    ∧ tryAsk (saveOk { save := nullPtr }) hosted = .ok (some true) hosted := by
  exact ⟨by decide +kernel, by decide +kernel, h, rfl⟩

theorem witness_QueuesAndAsids : all [
    !base.queueOk (parseQueue 0 0 (descriptor 3).toNat) (descriptor 3).toNat, no (find 0 base.queues),
    (let s := queued { tail := 1 } base
     decide (s.phase = .ready) && !(s.vfAt 0).stopping && (find 0 s.queues).isSome),
    (let s := (queued {} base).setVf 0 { stopping := true }
     (s.vfAt 0).stopping),
    (let s := (queued {} base).noteVacant
     runs (fetchQueue 0) { s with queues := store 0 { enabled := true } s.queues } fun _ _ => true),
    (let s := ringed 0
     runs (fetchQueue 0) { s with queues := store 0 { ring := 0x30000, tail := 2 } s.queues } fun _ _ => true),
    -- a tail behind the head, and a save object whose page is awaited, and one that is none
    decide ((2 : Nat) < ((0 : BitVec 32) - 1).toNat),
    (let s := { hosted with ptes := [] }
     runs (tryAsk (saveOk { save := heapP 0x50000, saveSz := 4096 })) s fun a _ => no a),
    runs (tryAsk (saveOk { save := padP 0x100, saveSz := 4096 })) hosted fun a _ => decide (a = some false),
    decide ((2 : Nat) < ((3 : BitVec 32) - 0).toNat) && decide (((1 : BitVec 32) - 0).toNat ≤ 2),
    no (find 4 base.asids) && decide ((2097152 : Nat) % 2097152 = 0), no (find 7 base.asids),
    -- a second ASID of a PASID; a PASID of its own
    (let s : State := { base with asids := [(0, {})] }
     s.asids.any (fun e => decide (e.2.vf = 0 ∧ e.2.pasid = 0)) && s.asids.all fun e => decide (e.2.pasid ≠ 9)),
    (let s : State := { base with asids := [(0, {})] }
     (find 0 s.asids).isSome && (s.recs.any fun r => decide (r.2.l.asid = 0) && !r.2.closed)),
    (let s := inRec (fun r => { r with closed := true }) { base with asids := [(0, {})] }
     decide (s.queues = []) && s.recs.all fun r => r.2.closed)] = true := by decide +kernel

/-! The host's side, start-up, errors, the mailbox. -/

def inVf (f : Vf → Vf) (s : State) : State := s.setVf 0 (f (s.vfAt 0))
def inPhase (p : Phase) : State := { base with phase := p }

theorem witness_StopsMigrationAndHostMemory : all [
    decide (base.phase = .ready) && (features base).accepted 0 6 && !base.accepted 0 6, no (base.vfAt 0).snap,
    ((inVf (fun v => { v with snap := some { epoch := 1, dlog := 0x9000, area := 0x50000, places := 2, written := [3, 9] } }) base).vfAt 0).snap.isSome,
    ((inVf (fun v => { v with stopped := true }) base).vfAt 0).stopped, !(base.vfAt 0).stopped && !(base.vfAt 0).stopping,
    (let s := inVf (fun v => { v with stopping := true }) base
     (s.vfAt 0).stopping && !(s.vfAt 0).stopped && s.vfBusy 0),
    (let s := inVf (fun v => { v with stopping := true }) (inRec (fun r => { r with closed := true, st := .ended }) base)
     (s.vfAt 0).stopping && !s.vfBusy 0),
    (let s := inVf (fun v => { v with tdisp := 1, stopped := true }) (features base)
     s.accepted 0 10 && decide ((s.vfAt 0).tdisp = 1) && (s.vfAt 0).stopped),
    (let s := inVf (fun v => { v with tdisp := 2 }) (features base)
     decide ((s.vfAt 0).tdisp = 2) && s.setFits 0 [] && !s.setFits 0 [.heap 0 1 [] []]),
    !base.accepted 0 10 && decide ((base.vfAt 0).tdisp = 0),
    (guarded base).securePage 0x40 && decide (((guarded base).vfAt 0).tdisp ≠ 2) && !base.securePage 0x40,
    -- an address of a channel other than 0, and the first and the last granule of the second port's memory
    (guarded base).securePage 0x10C0 && decide (homeChannel 0x10C0 ≠ 0),
    decide (hbmFrames * 2048 ≤ hbmFrames * 2048) && decide (2 * (hbmFrames * 2048) - 64 < (1 + 1) * (hbmFrames * 2048)) && decide (base.tier = []),
    -- an RSTATE with a version that is not committed
    no (base.hostSees 0x40),
    (let s : State := { base with tier := [{ asid := 0, page := 5, frame := 5, hbm := 9 }] }
     s.tier.any fun t => decide (t.hbm = (9 * 4096 + 64) / 4096)),
    no (base.measurement 0) && (base.measurement 3).isSome] = true := by decide +kernel

/-- Whether an image verifies is the signature's to say: the premises that ask for one hold of any image that does. -/
theorem witness_BringUp_images (b : List Byte) (h : imgVerifies b 0 = true) :
    (let f : Flash := { pend := b, commit := true }; f.commit = true ∧ imgVerifies f.pend f.counter = true)
    ∧ (let f : Flash := { active := b }; ¬ (f.commit = true ∧ imgVerifies f.pend f.counter = true) ∧ imgVerifies f.active f.counter = true)
    ∧ let f : Flash := { pend := b }; ¬ (f.commit = true ∧ imgVerifies f.pend f.counter = true) ∧ imgVerifies f.active f.counter = false
      ∧ imgVerifies f.pend f.counter = true := by
  have e : imgVerifies [] 0 = false := rfl
  exact ⟨⟨rfl, h⟩, ⟨fun x => Bool.noConfusion x.1, h⟩, fun x => Bool.noConfusion x.1, e, h⟩

/-- Every cluster is retired, so that no die has a core left. -/
def bareOf (l : List Nat) : State := { State.reset with phase := .init, flash := { clusters := l }, featOff := 0 }
def bare : State := bareOf (List.range 1024)
theorem bare_clusters (l : List Nat) : (bareOf l).flash.clusters = l := rfl

theorem off_all (s : State) (d : Nat) (hd : d < 8) {k : Nat} (h : s.flash.clusters = List.range k) (hc : ∀ x, x < 8192 → clusterOf x < k) :
    s.enabledOn d = 0 := by
  unfold State.enabledOn
  rw [List.length_eq_zero_iff, List.filter_eq_nil_iff]
  intro x hx
  simp only [List.mem_map, List.mem_range] at hx
  obtain ⟨i, hi, rfl⟩ := hx
  have h1 : i + d * 1024 < 8192 := by omega
  have h2 : i + d * 1024 ∈ s.offSites := by
    unfold State.offSites
    simp only [List.mem_append, List.mem_filter, List.mem_range, List.contains_iff_mem, h]
    exact .inl (.inr ⟨h1, hc _ h1⟩)
  simp [h2]

theorem clusters_below : (List.range 8192).all (fun x => decide (clusterOf x < 1024)) = true := by decide +kernel

theorem witness_BringUp : all [
    decide ((inPhase .off).phase = .off) && decide (base.phase ≠ .off), decide ((inPhase .rom).phase = .rom) && decide (base.phase ≠ .rom),
    -- a test that fails ends self-test; one of a retired cluster or of a link that does not exist is none
    (inPhase .selftest).testable 3 15871 && !(inPhase .selftest).testable 3 15872
      && !({ inPhase .selftest with flash := { clusters := [7] } } : State).testable 1 7,
    !imgVerifies [] 0, decide ((inPhase .selftest).phase = .selftest) && decide ((inPhase .load).phase = .load),
    decide ((inPhase .init).phase = .init) && decide (((inRec (fun r => { r with boot := true, l := { asid := bootAsid 0 } }) (inPhase .init)).recAt 0).boot = true)
      && !((inRec (fun r => { r with boot := true }) (inPhase .init)).recAt 0).closed, decide (bare.recs = [])] = true := by decide +kernel

/-- A test of every unit, each passed. -/
def allTests : List TestRun :=
  ((List.range 7).map fun k => (List.range (unitCount k)).map fun n => { kind := k, unit := n, passed := true }).flatten

theorem witness_BringUp_tests (k n : Nat) (hk : k < 7) (h : (inPhase .selftest).testable k n = true) :
    ∃ x ∈ allTests.filter fun x => (inPhase .selftest).testable x.kind x.unit, x.kind = k ∧ x.unit = n := by
  have hn : n < unitCount k := by
    simp only [State.testable, Bool.and_eq_true, decide_eq_true_eq] at h
    exact h.1
  refine ⟨{ kind := k, unit := n, passed := true }, List.mem_filter.2 ⟨?_, h⟩, rfl, rfl⟩
  exact List.mem_flatten.2 ⟨_, List.mem_map.2 ⟨k, List.mem_range.2 hk, rfl⟩, List.mem_map.2 ⟨n, List.mem_range.2 hn, rfl⟩⟩

/-- With no core left, empty maps are right, and a map that names a core is wrong. -/
theorem witness_BringUp_maps : (∀ d, d < 8 → bare.mapCount d = bare.enabledOn d)
    ∧ (let s : State := { bare with ptes := [(pageKey (bootAsid 0) (bootMap / 4096), { frame := 1, write := true, hbm := true })]
                                    mem := Mem.setBytes [] 0x1020 [0, 0, 0, 128] };
      s.mapCount 0 ≠ s.enabledOn 0) := by
  have hc : ∀ x, x < 8192 → clusterOf x < 1024 := fun x hx => by
    simpa using List.all_eq_true.mp clusters_below x (List.mem_range.mpr hx)
  have h0 : ∀ d : Fin 8, bare.mapCount d.val = 0 := by decide +kernel
  refine ⟨fun d hd => ?_, ?_⟩
  · rw [off_all bare d hd (k := 1024) (bare_clusters _) hc]
    exact h0 ⟨d, hd⟩
  · intro s
    rw [off_all s 0 (by decide) (k := 1024) (show bare.flash.clusters = _ from bare_clusters _) hc]
    decide +kernel

theorem witness_ErrorsAndRetirement : all [
    no (base.errUnit (.other 6 0)), decide (base.errUnit (.hbm 0x10C0) = some (.channel (homeChannel 0x10C0))), decide (base.errors = []),
    (let s := { base with errors := [(.channel 0, 2)] }
     decide (((((s.strike (.hbm 0)).addLog 2 5 0 0 0).errors.find? fun e => decide (e.1 = .channel 0)).map (·.2)) = some 2)),
    (let s := object 1 0x100 (hd 64 tDATA 0) [] base
     decide (s.padObject (corePadKey 0 + 0x100 + 40) = some (.pad (corePadKey 0 + 0x100))) && decide ((s.hdr (.pad (corePadKey 0 + 0x100))).typ ≠ tKVPAGE)),
    decide (base.log.length < 16384) && decide (base.fencing = []) && decide (base.flash.clusters = []) && decide (base.flash.channels = []),
    (RetUnit.channel 3).sites.all fun x => no (base.coreAt x).recId, decide (0 ∈ (RetUnit.cluster 0).sites) && (base.coreAt 0).recId.isSome,
    decide ((inPhase .safe).phase ≠ .ready) && decide ((inPhase .safe).phase ≠ .failing),
    -- a fatal fault, with no window to abort, and with one whose pages are awaited
    decide ((base.kvTabs.filter (·.abort)) = []),
    (let s := { features (inPhase .failing) with kvTabs := [{ asid := 0, va := 0x7000, abort := true }] }
     runs (finishAborts (s.kvTabs.filter (·.abort))) s fun b _ => b),
    runs (finishAborts (base.kvTabs.filter (·.abort))) base fun b _ => !b] = true := by decide +kernel

def commandedBy (args : List (Nat × Nat)) (s : State) : State :=
  { s with regs := args.foldl (fun l e => store e.1 (BitVec.ofNat 64 e.2) l) s.regs }
def running : State := { base with mailbox := { busy := true } }
/-- A valid descriptor of four cores for partition 1, in the data window. -/
def partitionRegs (valid : Nat) : List (Nat × Nat) := [(0, 1), (0x1000, 8 + 4 * 2 ^ 16), (0x1001, valid)]

theorem witness_MailboxCommands : all [
    running.mailbox.busy && decide (running.phase ≠ .off) && no running.mailbox.held,
    -- a DEADLINE that began and whose report page is awaited, refused or there
    (([(0x50000, none), (0x40000, some true)] : List (Nat × Option Bool)).all fun x =>
      let s := { deadlined vacantQueue 0 with mailbox := { busy := true, held := some (true, 0, 200000, heapP x.1) } }
      runs (tryAsk (reportOk (s.reportAsid true 0) (heapP x.1) (s.targetQueues true 0).length)) s fun a t =>
        decide (a = x.2) && decide (t.mailbox = s.mailbox)),
    (let s := { deadlined vacantQueue 0 with mailbox := { busy := true, held := some (true, 0, 200000, nullPtr) } }
     runs (tryAsk (reportOk (s.reportAsid true 0) nullPtr (s.targetQueues true 0).length)) s fun a t =>
        decide (a = some false) && decide (t.mailbox = s.mailbox)),
    decide ((inPhase .off).phase = .off),
    decide ((inPhase .safe).phase ≠ .ready) && !(inPhase .safe).mailbox.busy, !base.mailbox.busy && decide (base.phase ≠ .off),
    (let s := commandedBy [(0, 0), (1, 8)] base
     decide (s.mbarg 1 ≤ 4096) && decide (s.mbarg 0 ≤ s.flash.pend.length) && decide (s.mbarg 0 + s.mbarg 1 ≤ 0x1300 + 67108864)),
    (let s := commandedBy [(0, 1), (1, 8)] base
     decide (s.flash.pend.length < s.mbarg 0)), !imgGenuine base.flash.pend,
    (let s := commandedBy (partitionRegs 1) base
     let b := s.mbdata 16
     decide (s.mbarg 0 < 20) && decide (fieldAt b 8 1 < 4) && decide (fieldAt b 9 7 = 0) && !s.partBusy 1 && (fieldAt b 8 1).testBit 0
       && !s.partitionOk 1 {} && decide (parsePartition b = { base := 8, len := 4 })),
    (let s := commandedBy (partitionRegs 0) base
     !(fieldAt (s.mbdata 16) 8 1).testBit 0 && decide (s.queues = [])),
    (let s := commandedBy (partitionRegs 0) { base with queues := [(0, { part := 1 })] }
     !s.partBusy 1 && s.queues.any fun q => decide (q.2.part = 1)),
    !(decide ((commandedBy [(0, 20)] base).mbarg 0 < 20)),
    (let s := commandedBy [(0, 3), (1, 1 + 2 ^ 21), (2, 1)] base
     decide (s.mbarg 0 < 64) && decide (s.regionTbl = []) && decide (s.mbarg 1 / 2 ^ 3 % 2 ^ 18 = 0) && decide (s.mbarg 2 / 2 ^ 32 % 2 ^ 32 = 0)
       && (s.mbarg 1).testBit 0 && decide (s.mbarg 2 % 2 ^ 32 ≠ 0)),
    (let s := commandedBy [(0, 2), (1, 0), (3, (heapP 0x40000).toNat)] (deadlined vacantQueue 0)
     decide (s.mbarg 0 = 2) && s.deadlineTarget true 0 && (runs (tryAsk (reportOk (s.reportAsid true (s.mbarg 1)) (s.reg (.mbarg 3))
       (s.targetQueues true (s.mbarg 1)).length)) s fun a t => decide (a = some true) && decide (t.phase = .ready) && !t.mailbox.busy)),
    (let s := commandedBy [(0, 2), (1, 0), (3, nullPtr.toNat)] (deadlined vacantQueue 0)
     runs (tryAsk (reportOk (s.reportAsid true 0) (s.reg (.mbarg 3)) (s.targetQueues true 0).length)) s fun a t => decide (a = some false) && !t.mailbox.busy),
    (let s := commandedBy [(0, 2), (1, 0), (3, (heapP 0x50000).toNat)] (deadlined vacantQueue 0)
     runs (tryAsk (reportOk (s.reportAsid true 0) (s.reg (.mbarg 3)) (s.targetQueues true 0).length)) s fun a t => decide (a = none) && !t.mailbox.busy),
    !(decide (base.mbarg 0 = 1) || decide (base.mbarg 0 = 2)), decide ((commandedBy [(0, 1), (1, 5)] base).mbarg 0 = 1)
      && decide ((commandedBy [(0, 1), (1, 5)] base).mbarg 1 = 5), decide ((commandedBy [(0, 2), (1, 5)] base).mbarg 0 = 2)] = true := by decide +kernel

/-- A partition without minima is admitted, however many cores are fused off. -/
theorem witness_MailboxCommands_partition : (commandedBy (partitionRegs 1) base).partitionOk 1 { base := 8, len := 4 } = true := by
  have h : (commandedBy (partitionRegs 1) base).partitions = [] := by decide +kernel
  simp only [State.partitionOk, h]
  decide +kernel

/-- An image that is genuine and not too old, and one that is. -/
theorem witness_MailboxCommands_images (b : List Byte) (h : imgGenuine b = true) :
    imgGenuine (({ base with flash := { pend := b, counter := imgSvn b + 1 } } : State).flash.pend) = true ∧ imgSvn b < imgSvn b + 1
    ∧ imgGenuine (({ base with flash := { pend := b } } : State).flash.pend) = true ∧ (0 : Nat) ≤ imgSvn b :=
  ⟨h, Nat.lt_succ_self _, h, Nat.zero_le _⟩

/-! The machine as a whole. -/

def turned (pc : Nat) (text : List Nat) : State :=
  let s := inRec (fun r => { r with text := text.map (BitVec.ofNat 8) }) base
  { s.setCtx { s.ctx with pc := BitVec.ofNat 64 pc } with agenda := [.issue 0 0] }
/-- `add s0, s0, s0`; and a prefix before `addi s5, s5, 0x3456`. -/
def addText : List Nat := [0, 0, 0, 4]
def pairText : List Nat := [0x12, 0, 0, 0xFC, 0x56, 0x34, 0xA5, 0x08]

def turns (s : State) (p : Instr → State → Bool) : Bool :=
  let s0 := { s with agenda := [] }
  let c := s0.coreAt 0
  decide (s.agenda = [.issue 0 0]) && decide (s0.dueCauses c = []) && !s0.drains c && !c.tuft && decide (c.issuer 0 = some 0) && decide (c.round.head? = some 0)
    && match (s0.focus 0 0).fetched 0 with
      | .ok i => (match exec i (s0.focus 0 0) with
        | .next t => p i t
        | _ => false)
      | .error _ => false

theorem witness_StepRunsDecoded : all [
    turns (turned 0 addText) fun i t => decide (i = .add 0 0 0) && !t.latched 0,
    turns (turned 0 pairText) fun _ t => t.latched 0 && match t.fetched 0 with
      | .ok j => decide (j = .addi 5 5 0x3456)
      | .error _ => false,
    (let s := turned 0 [0, 0, 0, 0]
     let s0 := { s with agenda := [] }
     decide (s0.dueCauses (s0.coreAt 0) = []) && decide ((s0.coreAt 0).issuer 0 = some 0) && decide ((s0.coreAt 0).round.head? = some 0) && match (s0.focus 0 0).fetched 0 with
       | .ok _ => false
       | .error _ => true),
    (let s := inCore (fun c => { c.setCtx 1 { c.ctxAt 0 with st := .ready } with last := 0 }) { turned 0 addText with agenda := [] }
     decide ((s.coreAt 0).issuer 0 = some 0) && decide ((s.coreAt 0).round.head? = some 1)),
    -- `hjoin` waits for a helper that runs, and no longer for one that has exited
    ([.ready, .exited] : List CtxState).all (fun h =>
      let s0 := inRec (fun r => { r with text := leBytes (wordNat (.hjoin 2 1)) 4 }) (regs [(1, 1)] base)
      let s := inCore (fun c => c.setCtx 1 { st := h }) (inCtx (fun x => { x with st := .waiting }) s0)
      decide (((s.coreAt 0).ctxAt 0).st = .waiting) && (s.coreAt 0).recId.isSome && !(s.coreAt 0).halted && !s.atWfi 0 0 0
        && (s.awaited 0 0 == decide (h = .exited))),
    -- the copy that a stepped push put on its way is still under way
    (let p : Pending := { code := Cause.step.code, val := 0, pc := 4, ctx := 0, work := some 3 }
     let s := inCore (fun c => { c with copies := [{ num := 3 }], pending := [p] }) { turned 0 addText with agenda := [] }
     decide (s.dueCauses (s.coreAt 0) = []) && s.drains (s.coreAt 0) && !(s.coreAt 0).tuft),
    isEvent .init, (let s := { State.reset.withFetchWord 32 0x04642800 with agenda := [] }
     (match decodeNat 0x04642800 with
       | .ok i => no (asPfx i) && after i s fun t => !t.latched 0
       | .error _ => false))] = true := by decide +kernel

theorem witness_EveryInstructionAnswers : all [base.sitesOk, decide (wordNat (.tidx 1 1 5) ≠ 0) && !(Instr.tidx 1 1 5).wf,
    (let s := { base with site := chanBase }
     decide (wordNat (.vadd 1 2 3 0 0) ≠ 0) && !s.hasUnit (.vadd 1 2 3 0 0))] = true := by decide +kernel

theorem witness_DecodeEncode : all [(Instr.add 3 4 5).wf, decide (wordNat (.add 3 4 5) ≠ 0), decide (formPfx (.add 3 4 5) = .none),
    (match decodeNat (0x04642800#32).toNat with
      | .ok i => decide (i = .add 3 4 5)
      | .error _ => false)] = true := by decide +kernel

theorem witness_StepKeepsMemoryForm : base.mem.wf = true ∧ base.hostMem.wf = true ∧ (match step base with
    | .next _ => true
    | _ => false) = true := by decide +kernel

end Sys2Proof.Tests
end

section
/-! SUPPORT. The decoder and the encoder (R40, R44, R48): what each major opcode's decoder answers has the word that was decoded,
and every row of the table is read back from its words. -/

set_option Elab.async false

namespace Sys2Proof.Laws.Encoding

/-! From a word: the instruction that is decoded has that word. -/

/-- Every instruction that a decoder answers for `w` has `w` as its only word. -/
def Inverts (w : Nat) (r : Except Reject Instr) : Prop := ∀ i, r = .ok i → wordNat i = w ∧ formPfx i = .none

theorem Inverts.error {w : Nat} (e : Reject) : Inverts w (.error e) := fun _ h => nomatch h

/-- The number of a field, as a definitional equation that `dsimp` can use. -/
theorem toNat_field (n x : Nat) : (BitVec.ofNat n x).toNat = x % 2 ^ n := rfl

/-- An answer whose fields sum to the word: the sum is the same arithmetic for every row, and by default it is done here. -/
theorem Inverts.ok {w : Nat} {i : Instr} (hw : wordNat i = w := by delta wordNat; dsimp only [toNat_field]; omega)
    (hp : formPfx i = .none := by rfl) : Inverts w (.ok i) := by
  rintro _ ⟨⟩
  exact ⟨hw, hp⟩

theorem Inverts.ite {w : Nat} {c : Prop} [Decidable c] {r q : Except Reject Instr} (hr : c → Inverts w r)
    (hq : Inverts w q) : Inverts w (if c then r else q) := by
  split
  · exact hr ‹c›
  · exact hq

/-! The rows of each major opcode: under the row's condition the fields sum to the word. -/

theorem inverts01 {w : Nat} (h : w / 67108864 = 1) : Inverts w (decodeMajor01 w) := by
  unfold decodeMajor01
  repeat refine .ite (fun _ => .ok) ?_
  exact .error _

theorem inverts02 {w : Nat} (h : w / 67108864 = 2) : Inverts w (decodeMajor02 w) := .ok

theorem inverts03 {w : Nat} (h : w / 67108864 = 3) : Inverts w (decodeMajor03 w) := .ok

theorem inverts04 {w : Nat} (h : w / 67108864 = 4) : Inverts w (decodeMajor04 w) := .ok

theorem inverts05 {w : Nat} (h : w / 67108864 = 5) : Inverts w (decodeMajor05 w) := .ok

theorem inverts06 {w : Nat} (h : w / 67108864 = 6) : Inverts w (decodeMajor06 w) := .ok

theorem inverts07 {w : Nat} (h : w / 67108864 = 7) : Inverts w (decodeMajor07 w) := .ok

theorem inverts08 {w : Nat} (h : w / 67108864 = 8) : Inverts w (decodeMajor08 w) := by
  unfold decodeMajor08
  repeat refine .ite (fun _ => .ok) ?_
  exact .error _

theorem inverts09 {w : Nat} (h : w / 67108864 = 9) : Inverts w (decodeMajor09 w) := by
  unfold decodeMajor09
  repeat refine .ite (fun _ => .ok) ?_
  exact .error _

theorem inverts0A {w : Nat} (h : w / 67108864 = 10) : Inverts w (decodeMajor0A w) := by
  unfold decodeMajor0A
  repeat refine .ite (fun _ => .ok) ?_
  exact .error _

theorem inverts0B {w : Nat} (h : w / 67108864 = 11) : Inverts w (decodeMajor0B w) := .ok

theorem inverts0C {w : Nat} (h : w / 67108864 = 12) : Inverts w (decodeMajor0C w) := .ok

theorem inverts0D {w : Nat} (h : w / 67108864 = 13) : Inverts w (decodeMajor0D w) := by
  unfold decodeMajor0D
  repeat refine .ite (fun _ => .ok) ?_
  exact .error _

theorem inverts0E {w : Nat} (h : w / 67108864 = 14) : Inverts w (decodeMajor0E w) := by
  unfold decodeMajor0E
  repeat refine .ite (fun _ => .ok) ?_
  exact .error _

theorem inverts10 {w : Nat} (h : w / 67108864 = 16) : Inverts w (decodeMajor10 w) := .ok

theorem inverts11 {w : Nat} (h : w / 67108864 = 17) : Inverts w (decodeMajor11 w) := .ok

theorem inverts12 {w : Nat} (h : w / 67108864 = 18) : Inverts w (decodeMajor12 w) := by
  unfold decodeMajor12
  repeat refine .ite (fun _ => .ok) ?_
  exact .error _

theorem inverts13 {w : Nat} (h : w / 67108864 = 19) : Inverts w (decodeMajor13 w) := by
  unfold decodeMajor13
  repeat refine .ite (fun _ => .ok) ?_
  exact .error _

theorem inverts14 {w : Nat} (h : w / 67108864 = 20) : Inverts w (decodeMajor14 w) := by
  unfold decodeMajor14
  repeat refine .ite (fun _ => .ok) ?_
  exact .error _

theorem inverts15 {w : Nat} (h : w / 67108864 = 21) : Inverts w (decodeMajor15 w) := by
  unfold decodeMajor15
  repeat refine .ite (fun _ => .ok) ?_
  exact .error _

theorem inverts16 {w : Nat} (h : w / 67108864 = 22) : Inverts w (decodeMajor16 w) := by
  unfold decodeMajor16
  repeat refine .ite (fun _ => .ok) ?_
  exact .error _

theorem inverts17 {w : Nat} (h : w / 67108864 = 23) : Inverts w (decodeMajor17 w) := by
  unfold decodeMajor17
  repeat refine .ite (fun _ => .ok) ?_
  exact .error _

theorem inverts18 {w : Nat} (h : w / 67108864 = 24) : Inverts w (decodeMajor18 w) := by
  unfold decodeMajor18
  repeat refine .ite (fun _ => .ok) ?_
  exact .error _

theorem inverts19 {w : Nat} (h : w / 67108864 = 25) : Inverts w (decodeMajor19 w) := by
  unfold decodeMajor19
  repeat refine .ite (fun _ => .ok) ?_
  exact .error _

theorem inverts1A {w : Nat} (h : w / 67108864 = 26) : Inverts w (decodeMajor1A w) := by
  unfold decodeMajor1A
  repeat refine .ite (fun _ => .ok) ?_
  exact .error _

theorem inverts1B {w : Nat} (h : w / 67108864 = 27) : Inverts w (decodeMajor1B w) := by
  unfold decodeMajor1B
  repeat refine .ite (fun _ => .ok) ?_
  exact .error _

theorem inverts1C {w : Nat} (h : w / 67108864 = 28) : Inverts w (decodeMajor1C w) := by
  unfold decodeMajor1C
  repeat refine .ite (fun _ => .ok) ?_
  exact .error _

theorem inverts1D {w : Nat} (h : w / 67108864 = 29) : Inverts w (decodeMajor1D w) := by
  unfold decodeMajor1D
  repeat refine .ite (fun _ => .ok) ?_
  exact .error _

theorem inverts1E {w : Nat} (h : w / 67108864 = 30) : Inverts w (decodeMajor1E w) := by
  unfold decodeMajor1E
  repeat refine .ite (fun _ => .ok) ?_
  exact .error _

theorem inverts20 {w : Nat} (h : w / 67108864 = 32) : Inverts w (decodeMajor20 w) := by
  unfold decodeMajor20
  repeat refine .ite (fun _ => .ok) ?_
  exact .error _

theorem inverts21 {w : Nat} (h : w / 67108864 = 33) : Inverts w (decodeMajor21 w) := by
  unfold decodeMajor21
  repeat refine .ite (fun _ => .ok) ?_
  exact .error _

theorem inverts22 {w : Nat} (h : w / 67108864 = 34) : Inverts w (decodeMajor22 w) := by
  unfold decodeMajor22
  repeat refine .ite (fun _ => .ok) ?_
  exact .error _

theorem inverts23 {w : Nat} (h : w / 67108864 = 35) : Inverts w (decodeMajor23 w) := by
  unfold decodeMajor23
  repeat refine .ite (fun _ => .ok) ?_
  exact .error _

theorem inverts24 {w : Nat} (h : w / 67108864 = 36) : Inverts w (decodeMajor24 w) := by
  unfold decodeMajor24
  repeat refine .ite (fun _ => .ok) ?_
  exact .error _

theorem inverts25 {w : Nat} (h : w / 67108864 = 37) : Inverts w (decodeMajor25 w) := by
  unfold decodeMajor25
  repeat refine .ite (fun _ => .ok) ?_
  exact .error _

theorem inverts26 {w : Nat} (h : w / 67108864 = 38) : Inverts w (decodeMajor26 w) := by
  unfold decodeMajor26
  repeat refine .ite (fun _ => .ok) ?_
  exact .error _

theorem inverts27 {w : Nat} (h : w / 67108864 = 39) : Inverts w (decodeMajor27 w) := by
  unfold decodeMajor27
  repeat refine .ite (fun _ => .ok) ?_
  exact .error _

theorem inverts28 {w : Nat} (h : w / 67108864 = 40) : Inverts w (decodeMajor28 w) := by
  unfold decodeMajor28
  repeat refine .ite (fun _ => .ok) ?_
  exact .error _

theorem inverts29 {w : Nat} (h : w / 67108864 = 41) : Inverts w (decodeMajor29 w) := by
  unfold decodeMajor29
  repeat refine .ite (fun _ => .ok) ?_
  exact .error _

theorem inverts2A {w : Nat} (h : w / 67108864 = 42) : Inverts w (decodeMajor2A w) := by
  unfold decodeMajor2A
  repeat refine .ite (fun _ => .ok) ?_
  exact .error _

theorem inverts2B {w : Nat} (h : w / 67108864 = 43) : Inverts w (decodeMajor2B w) := by
  unfold decodeMajor2B
  repeat refine .ite (fun _ => .ok) ?_
  exact .error _

theorem inverts2C {w : Nat} (h : w / 67108864 = 44) : Inverts w (decodeMajor2C w) := by
  unfold decodeMajor2C
  repeat refine .ite (fun _ => .ok) ?_
  exact .error _

theorem inverts2E {w : Nat} (h : w / 67108864 = 46) : Inverts w (decodeMajor2E w) := by
  unfold decodeMajor2E
  repeat refine .ite (fun _ => .ok) ?_
  exact .error _

theorem inverts2F {w : Nat} (h : w / 67108864 = 47) : Inverts w (decodeMajor2F w) := by
  unfold decodeMajor2F
  repeat refine .ite (fun _ => .ok) ?_
  exact .error _

theorem inverts30 {w : Nat} (h : w / 67108864 = 48) : Inverts w (decodeMajor30 w) := by
  unfold decodeMajor30
  repeat refine .ite (fun _ => .ok) ?_
  exact .error _

theorem inverts32 {w : Nat} (h : w / 67108864 = 50) : Inverts w (decodeMajor32 w) := by
  unfold decodeMajor32
  repeat refine .ite (fun _ => .ok) ?_
  exact .error _

theorem inverts3F {w : Nat} (h : w / 67108864 = 63) : Inverts w (decodeMajor3F w) := by
  unfold decodeMajor3F
  repeat refine .ite (fun _ => .ok) ?_
  exact .error _

theorem inverts_decodeNat (w : Nat) : Inverts w (decodeNat w) :=
  .ite inverts01 <| .ite inverts02 <| .ite inverts03 <| .ite inverts04 <| .ite inverts05 <| .ite inverts06 <| .ite
    inverts07 <| .ite inverts08 <| .ite inverts09 <| .ite inverts0A <| .ite inverts0B <| .ite inverts0C <| .ite inverts0D <|
    .ite inverts0E <| .ite inverts10 <| .ite inverts11 <| .ite inverts12 <| .ite inverts13 <| .ite inverts14 <| .ite
    inverts15 <| .ite inverts16 <| .ite inverts17 <| .ite inverts18 <| .ite inverts19 <| .ite inverts1A <| .ite inverts1B <|
    .ite inverts1C <| .ite inverts1D <| .ite inverts1E <| .ite inverts20 <| .ite inverts21 <| .ite inverts22 <| .ite
    inverts23 <| .ite inverts24 <| .ite inverts25 <| .ite inverts26 <| .ite inverts27 <| .ite inverts28 <| .ite inverts29 <|
    .ite inverts2A <| .ite inverts2B <| .ite inverts2C <| .ite inverts2E <| .ite inverts2F <| .ite inverts30 <| .ite
    inverts32 <| .ite inverts3F <| .error _

/-- The word of an instruction is the only one that decodes to it. -/
theorem encode_of_decodeNat {w : BitVec 32} {i : Instr} (h : decodeNat w.toNat = .ok i) : encode i = [w] := by
  obtain ⟨hw, hp⟩ := inverts_decodeNat w.toNat i h
  simp [encode, hp, hw, pfxWord]

/-! From an instruction: its words decode to it. -/

/-- Every well-formed instruction of the set decodes from its words. -/
theorem roundTrip (i : Instr) : RoundTrip.Statement i := by
  cases i with
  | add d a b => exact RoundTrip.add d a b
  | sub d a b => exact RoundTrip.sub d a b
  | and d a b => exact RoundTrip.and d a b
  | or d a b => exact RoundTrip.or d a b
  | xor d a b => exact RoundTrip.xor d a b
  | sll d a b => exact RoundTrip.sll d a b
  | srl d a b => exact RoundTrip.srl d a b
  | sra d a b => exact RoundTrip.sra d a b
  | slt d a b => exact RoundTrip.slt d a b
  | sltu d a b => exact RoundTrip.sltu d a b
  | min d a b => exact RoundTrip.min d a b
  | max d a b => exact RoundTrip.max d a b
  | minu d a b => exact RoundTrip.minu d a b
  | maxu d a b => exact RoundTrip.maxu d a b
  | mul d a b => exact RoundTrip.mul d a b
  | mulh d a b => exact RoundTrip.mulh d a b
  | mulhu d a b => exact RoundTrip.mulhu d a b
  | div d a b => exact RoundTrip.div d a b
  | divu d a b => exact RoundTrip.divu d a b
  | rem d a b => exact RoundTrip.rem d a b
  | remu d a b => exact RoundTrip.remu d a b
  | clz d a => exact RoundTrip.clz d a
  | ctz d a => exact RoundTrip.ctz d a
  | popc d a => exact RoundTrip.popc d a
  | sel d a b c => exact RoundTrip.sel d a b c
  | addi d a i => exact RoundTrip.addi d a i
  | andi d a i => exact RoundTrip.andi d a i
  | ori d a i => exact RoundTrip.ori d a i
  | xori d a i => exact RoundTrip.xori d a i
  | slti d a i => exact RoundTrip.slti d a i
  | sltiu d a i => exact RoundTrip.sltiu d a i
  | slli d a s h => exact RoundTrip.slli d a s h
  | srli d a s h => exact RoundTrip.srli d a s h
  | srai d a s h => exact RoundTrip.srai d a s h
  | lhi d k i => exact RoundTrip.lhi d k i
  | beq a b o => exact RoundTrip.beq a b o
  | bne a b o => exact RoundTrip.bne a b o
  | blt a b o => exact RoundTrip.blt a b o
  | bge a b o => exact RoundTrip.bge a b o
  | bltu a b o => exact RoundTrip.bltu a b o
  | bgeu a b o => exact RoundTrip.bgeu a b o
  | jal d o => exact RoundTrip.jal d o
  | jalr d a i => exact RoundTrip.jalr d a i
  | tidx d a k => exact RoundTrip.tidx d a k
  | shp d a b => exact RoundTrip.shp d a b
  | crd d n => exact RoundTrip.crd d n
  | crw d a n => exact RoundTrip.crw d a n
  | crs d a n => exact RoundTrip.crs d a n
  | crc d a n => exact RoundTrip.crc d a n
  | ld d p x z i => exact RoundTrip.ld d p x z i
  | st d p x z i => exact RoundTrip.st d p x z i
  | lda d p x i => exact RoundTrip.lda d p x i
  | sta d p x i => exact RoundTrip.sta d p x i
  | touch d a => exact RoundTrip.touch d a
  | alloc d a b => exact RoundTrip.alloc d a b
  | acurSet d a b => exact RoundTrip.acurSet d a b
  | acurAdd d a b => exact RoundTrip.acurAdd d a b
  | olen d a s => exact RoundTrip.olen d a s
  | otype d a => exact RoundTrip.otype d a
  | root a => exact RoundTrip.root a
  | unroot a => exact RoundTrip.unroot a
  | acq d a s => exact RoundTrip.acq d a s
  | rel d a s => exact RoundTrip.rel d a s
  | fence d l e s => exact RoundTrip.fence d l e s
  | amo d a s k o => exact RoundTrip.amo d a s k o
  | cas d a s k c => exact RoundTrip.cas d a s k c
  | red d a s k o => exact RoundTrip.red d a s k o
  | hrd d a b z => exact RoundTrip.hrd d a b z
  | hwr d a b z => exact RoundTrip.hwr d a b z
  | cpost d a b => exact RoundTrip.cpost d a b
  | cpostBarrier d a b c => exact RoundTrip.cpostBarrier d a b c
  | cwait d a => exact RoundTrip.cwait d a
  | evw d a => exact RoundTrip.evw d a
  | evsig a b => exact RoundTrip.evsig a b
  | mtxl d a => exact RoundTrip.mtxl d a
  | mtxu a => exact RoundTrip.mtxu a
  | binit d a b s => exact RoundTrip.binit d a b s
  | bpost d a b s => exact RoundTrip.bpost d a b s
  | barr d a b s => exact RoundTrip.barr d a b s
  | bwait d a b s => exact RoundTrip.bwait d a b s
  | dqpush d a b s => exact RoundTrip.dqpush d a b s
  | dqpop d a s => exact RoundTrip.dqpop d a s
  | dqsteal d a s => exact RoundTrip.dqsteal d a s
  | sstep d => exact RoundTrip.sstep d
  | scree d a => exact RoundTrip.scree d a
  | sstat d a => exact RoundTrip.sstat d a
  | hstart d a b => exact RoundTrip.hstart d a b
  | hjoin d a => exact RoundTrip.hjoin d a
  | hexit a => exact RoundTrip.hexit a
  | hid d => exact RoundTrip.hid d
  | yield => exact RoundTrip.yield
  | park a b f => exact RoundTrip.park a b f
  | unpark d b f => exact RoundTrip.unpark d b f
  | tuft d a => exact RoundTrip.tuft d a
  | split => exact RoundTrip.split
  | glaunch d a => exact RoundTrip.glaunch d a
  | vadd d a b p e => exact RoundTrip.vadd d a b p e
  | vsub d a b p e => exact RoundTrip.vsub d a b p e
  | vmul d a b p e => exact RoundTrip.vmul d a b p e
  | vmin d a b p e => exact RoundTrip.vmin d a b p e
  | vmax d a b p e => exact RoundTrip.vmax d a b p e
  | vabs d a p e => exact RoundTrip.vabs d a p e
  | vneg d a p e => exact RoundTrip.vneg d a p e
  | vand d a b p e => exact RoundTrip.vand d a b p e
  | vor d a b p e => exact RoundTrip.vor d a b p e
  | vxor d a b p e => exact RoundTrip.vxor d a b p e
  | vsll d a b p e => exact RoundTrip.vsll d a b p e
  | vsrl d a b p e => exact RoundTrip.vsrl d a b p e
  | vsra d a b p e => exact RoundTrip.vsra d a b p e
  | vmov d a p e => exact RoundTrip.vmov d a p e
  | vmovExtract d a b p e sgn => exact RoundTrip.vmovExtract d a b p e sgn
  | vmovInsert d a b p e => exact RoundTrip.vmovInsert d a b p e
  | vbcast d a p e => exact RoundTrip.vbcast d a p e
  | vfadd d a b p e => exact RoundTrip.vfadd d a b p e
  | vfsub d a b p e => exact RoundTrip.vfsub d a b p e
  | vfmul d a b p e => exact RoundTrip.vfmul d a b p e
  | vfma d a b p e => exact RoundTrip.vfma d a b p e
  | vfms d a b p e => exact RoundTrip.vfms d a b p e
  | vfmin d a b p e => exact RoundTrip.vfmin d a b p e
  | vfmax d a b p e => exact RoundTrip.vfmax d a b p e
  | vfabs d a p e => exact RoundTrip.vfabs d a p e
  | vfneg d a p e => exact RoundTrip.vfneg d a p e
  | vcmp c a b p e => exact RoundTrip.vcmp c a b p e
  | vsel d a b p e => exact RoundTrip.vsel d a b p e
  | pand d a b => exact RoundTrip.pand d a b
  | por d a b => exact RoundTrip.por d a b
  | pxor d a b => exact RoundTrip.pxor d a b
  | pnot d a => exact RoundTrip.pnot d a
  | pmov d a => exact RoundTrip.pmov d a
  | vperm d a b p e => exact RoundTrip.vperm d a b p e
  | vrsum d a p e => exact RoundTrip.vrsum d a p e
  | vrmax d a p e => exact RoundTrip.vrmax d a p e
  | vrmin d a p e => exact RoundTrip.vrmin d a p e
  | vscan d a p e => exact RoundTrip.vscan d a p e
  | vsmm d a b p => exact RoundTrip.vsmm d a b p
  | vsmmStat d a b p => exact RoundTrip.vsmmStat d a b p
  | vld v p x q w i => exact RoundTrip.vld v p x q w i
  | vst v p x q w i => exact RoundTrip.vst v p x q w i
  | vgth v p x q w i => exact RoundTrip.vgth v p x q w i
  | vsct v p x q w i => exact RoundTrip.vsct v p x q w i
  | sbind d a b => exact RoundTrip.sbind d a b
  | sbnd d a b j => exact RoundTrip.sbnd d a b j
  | sgo d a => exact RoundTrip.sgo d a
  | sstop d a => exact RoundTrip.sstop d a
  | vexp d a p e => exact RoundTrip.vexp d a p e
  | vlog d a p e => exact RoundTrip.vlog d a p e
  | vrcp d a p e => exact RoundTrip.vrcp d a p e
  | vrsqrt d a p e => exact RoundTrip.vrsqrt d a p e
  | vtanh d a p e => exact RoundTrip.vtanh d a p e
  | vsin d a p e => exact RoundTrip.vsin d a p e
  | vgrant d a p w => exact RoundTrip.vgrant d a p w
  | vgrantStream d a p => exact RoundTrip.vgrantStream d a p
  | cvt d a b p e => exact RoundTrip.cvt d a b p e
  | dec d a b p t => exact RoundTrip.dec d a b p t
  | enc d a b p t => exact RoundTrip.enc d a b p t
  | bscale d a b p => exact RoundTrip.bscale d a b p
  | bscaleObject d a b p e => exact RoundTrip.bscaleObject d a b p e
  | dtld d a b => exact RoundTrip.dtld d a b
  | srseed d a => exact RoundTrip.srseed d a
  | fclass d a f => exact RoundTrip.fclass d a f
  | kld d a b => exact RoundTrip.kld d a b
  | kst d a b => exact RoundTrip.kst d a b
  | kset d a q => exact RoundTrip.kset d a q
  | ksetPointer d a q => exact RoundTrip.ksetPointer d a q
  | wpush d k => exact RoundTrip.wpush d k
  | wcommit d => exact RoundTrip.wcommit d
  | wwait d a => exact RoundTrip.wwait d a
  | wrd d a b => exact RoundTrip.wrd d a b
  | wrdRow d a b => exact RoundTrip.wrdRow d a b
  | wwr d a b => exact RoundTrip.wwr d a b
  | wwrRow d a b => exact RoundTrip.wwrRow d a b
  | wzero a => exact RoundTrip.wzero a
  | wres d a => exact RoundTrip.wres d a
  | wstat d a => exact RoundTrip.wstat d a
  | pack d a b t => exact RoundTrip.pack d a b t
  | gwid d a b => exact RoundTrip.gwid d a b
  | wmulp d a b => exact RoundTrip.wmulp d a b
  | wmacp d a b => exact RoundTrip.wmacp d a b
  | extr d a b l => exact RoundTrip.extr d a b l
  | cpush d k => exact RoundTrip.cpush d k
  | cpwait d a => exact RoundTrip.cpwait d a
  | cpstat d a => exact RoundTrip.cpstat d a
  | cppage d a b => exact RoundTrip.cppage d a b
  | cppageRec d a b => exact RoundTrip.cppageRec d a b
  | msend a b c => exact RoundTrip.msend a b c
  | mrecv d a => exact RoundTrip.mrecv d a
  | mcast a b c => exact RoundTrip.mcast a b c
  | mpoll d s => exact RoundTrip.mpoll d s
  | xput a b c => exact RoundTrip.xput a b c
  | kvlk d a => exact RoundTrip.kvlk d a
  | kvfill d a b => exact RoundTrip.kvfill d a b
  | kvinv d a => exact RoundTrip.kvinv d a
  | kvinvAll d => exact RoundTrip.kvinvAll d
  | kvapp d a => exact RoundTrip.kvapp d a
  | kvappLink d a => exact RoundTrip.kvappLink d a
  | kvspec d => exact RoundTrip.kvspec d
  | kvcommit d a => exact RoundTrip.kvcommit d a
  | kvabort d => exact RoundTrip.kvabort d
  | kvget d a b => exact RoundTrip.kvget d a b
  | kvfree d a => exact RoundTrip.kvfree d a
  | kvfreePub d a => exact RoundTrip.kvfreePub d a
  | kvfreePubx d a => exact RoundTrip.kvfreePubx d a
  | rsver d a b => exact RoundTrip.rsver d a b
  | kvret a => exact RoundTrip.kvret a
  | trap h l => exact RoundTrip.trap h l
  | tret => exact RoundTrip.tret
  | brk h l => exact RoundTrip.brk h l
  | halt => exact RoundTrip.halt
  | wfi => exact RoundTrip.wfi
  | ckpt d a => exact RoundTrip.ckpt d a
  | rstor d => exact RoundTrip.rstor d
  | xinv d a b => exact RoundTrip.xinv d a b
  | pfxImm p => exact RoundTrip.pfxImm p
  | pfxReg e => exact RoundTrip.pfxReg e
  | pfxFn x => exact RoundTrip.pfxFn x
  | _ => exact RoundTrip.wordless rfl

theorem bytesWord_of_word (w : BitVec 32) :
    bytesWord (w.extractLsb' 0 8) (w.extractLsb' 8 8) (w.extractLsb' 16 8) (w.extractLsb' 24 8) = w := by
  apply BitVec.eq_of_toNat_eq
  simp only [bytesWord, BitVec.toNat_ofNat, BitVec.extractLsb'_toNat, Nat.shiftRight_eq_div_pow]
  omega

/-- The decoder of bytes reads the word of the first four. (The two functions are named before they are unfolded: a
comparison of the unfolded ones would have the kernel evaluate the decoder at an open word.) -/
theorem decodeBytes_cons {b0 b1 b2 b3 : Byte} {i : Instr} (h : decodeNat (bytesWord b0 b1 b2 b3).toNat = .ok i) (rest : List Byte) :
    decodeBytes (b0 :: b1 :: b2 :: b3 :: rest) = .ok (i, rest) := by
  obtain ⟨g, hg⟩ : ∃ g, g = decodeBytes := ⟨_, rfl⟩
  obtain ⟨f, hf⟩ : ∃ f, f = decodeNat := ⟨_, rfl⟩
  rw [← hg]
  delta decodeBytes at hg
  rw [← hf] at hg h
  simp only [hg, h]

/-- An instruction that nothing governs decodes from its bytes, whatever bytes follow. -/
theorem decodeBytes_encode {i : Instr} (hp : formPfx i = .none) (h : decodeWords (encode i) = .ok i) (rest : List Byte) :
    decodeBytes ((encode i).flatMap wordBytes ++ rest) = .ok (i, rest) := by
  have he : encode i = [BitVec.ofNat 32 (wordNat i)] := by simp only [encode, hp, pfxWord, List.nil_append, List.map_cons, List.map_nil]
  rw [he] at h ⊢
  rw [List.flatMap_singleton]
  refine decodeBytes_cons ?_ rest
  rw [bytesWord_of_word]
  exact h

/-- Settles O56: the rows' own round trips from the instruction, the decoders' rows from the word. -/
theorem decodeEncode : Obligations.DecodeEncode :=
  ⟨roundTrip, fun i rest hw h0 hp => decodeBytes_encode hp (roundTrip i hw h0) rest, fun _ _ => encode_of_decodeNat⟩

end Sys2Proof.Laws.Encoding
end

section
/-! SUPPORT. Every instruction, event and turn answers a next state (R4, R33, R37, R49). -/

set_option Elab.async false

namespace Sys2Proof.Machine

/-- A turn that neither faults nor refuses. -/
abbrev Answers (r : Result) : Prop := ∃ t, r = .next t

theorem Answers.next (t : State) : Answers (.next t) := ⟨t, rfl⟩

theorem Answers.thenDo {r : Result} {f : State → Result} (hr : Answers r) (hf : ∀ t, Answers (f t)) : Answers (thenDo r f) := by
  obtain ⟨t, rfl⟩ := hr
  exact hf t

/-! Instructions and events. -/

theorem pfxBody_answers (i : Instr) (p : Pfx) (s : State) : Answers (pfxBody i p s) := by
  unfold pfxBody
  dsimp only
  split
  · exact .next _
  · split <;> exact .next _

theorem execEventWordAccepted_answers (k : Nat) (s : State) : Answers (execEventWordAccepted k s) := by
  unfold execEventWordAccepted
  dsimp only
  split
  · exact .next _
  split
  · exact .next _
  split
  · split
    · exact .next _
    · split
      · exact .next _
      · exact runInstr_next _ _ _
  · exact .next _

/-- What a row of the table is to the dispatch: an instruction with its effect, a `pfx`, an event with its effect, or a sender's
word that is accepted, which runs the sender's instruction. -/
inductive Row (i : Instr) : Prop
  | instr (h : ∀ s, ∃ body, exec i s = runInstr i body s)
  | pfx (p : Pfx) (hw : i.wf = true) (hu : ∀ s : State, s.hasUnit i = true) (h : ∀ s, exec i s = pfxBody i p s)
  | event (hw : wordNat i = 0) (h : ∀ s, ∃ body, exec i s = runEvent body s)
  | sender (k : Nat) (h : i = .eventWordAccepted k)

theorem hasUnit_of_plain {i : Instr} (hv : i.needsVector = false) (hc : i.needsChannel = false) (s : State) :
    s.hasUnit i = true := by
  simp [State.hasUnit, hv, hc]

theorem exec_row (i : Instr) : Row i := by
  cases i with
  | pfxImm p => exact .pfx (.imm p) rfl (hasUnit_of_plain rfl rfl) fun _ => rfl
  | pfxReg e => exact .pfx (.reg e) rfl (hasUnit_of_plain rfl rfl) fun _ => rfl
  | pfxFn x => exact .pfx (.fn x) rfl (hasUnit_of_plain rfl rfl) fun _ => rfl
  | eventWordAccepted k => exact .sender k rfl
  | mma cl u => exact .event rfl fun s => ⟨_, execMma.eq_1 cl u s⟩
  | mmaz cl u => exact .event rfl fun s => ⟨_, execMmaz.eq_1 cl u s⟩
  | mmat cl u => exact .event rfl fun s => ⟨_, execMmat.eq_1 cl u s⟩
  | accst cl u => exact .event rfl fun s => ⟨_, execAccst.eq_1 cl u s⟩
  | accld cl u => exact .event rfl fun s => ⟨_, execAccld.eq_1 cl u s⟩
  | pconv cl u => exact .event rfl fun s => ⟨_, execPconv.eq_1 cl u s⟩
  | pdot cl u => exact .event rfl fun s => ⟨_, execPdot.eq_1 cl u s⟩
  | wmbTileJobDispatch cl u core => exact .event rfl fun s => ⟨_, execWmbTileJobDispatch.eq_1 cl u core s⟩
  | powerLoss => exact .event rfl fun s => ⟨_, execPowerLoss.eq_1 s⟩
  | reductionPerformed | cpostComplete | superstepAdvance | tenantSwitch | heapPass | putPerformed | messageDelivery |
    messageRefusalTimeout | wmbCommandComplete |
    copy | xpose | gather | fill | pagein | migr | copyCommandComplete | copyInComplete | pageRequestAnswer |
    atsInvalidation | tierPoolRecall | recordDispatch | recordEnd | sliceEnd | switchOutTimeout | reservation | timer |
    engineReportTimeout | interruptPreempt | interruptResume | interruptDebug | corniceTrap | corniceDiscard | corniceReport
    | pfDeadlinePost | doorbell | featacc | reqhead | evhead | replyseq | registerWrite | queueCreate | queueEnable |
    queueDisable | asidBind | asidUnbind | snapshotRequest | vfStop | kvMigration | hostCxlMemAccess | spdmRequest |
    functionReset | pcieConventionalReset | powerGood | rom | selftest | load | init | fatalFault | uncorrectableError |
    status | log | ident | imgload | imgcommit | reset | partdef | region | deadline | retire | palbelLinkDead |
    palbelRequest | hwrPerformed | mailboxCommandDone | initTimeout | correctableError =>
    exact .event rfl fun _ => ⟨_, rfl⟩
  | _ => exact .instr fun _ => ⟨_, rfl⟩

theorem exec_answers (i : Instr) (s : State) : Answers (exec i s) := by
  cases exec_row i with
  | instr h =>
    obtain ⟨body, he⟩ := h s
    exact he ▸ runInstr_next i body s
  | pfx p _ _ h => exact h s ▸ pfxBody_answers i p s
  | event _ h =>
    obtain ⟨body, he⟩ := h s
    exact he ▸ runEvent_next body s
  | sender k h => exact h ▸ execEventWordAccepted_answers k s

/-- An instruction with a reserved field value, or of a unit that the core lacks, raises ILLEGAL with its word (R33, R49). -/
theorem exec_illegal {i : Instr} {s : State} (hw : wordNat i ≠ 0) (h : i.wf = false ∨ s.hasUnit i = false) :
    exec i s = .next (s.trapHere Cause.illegal.code (BitVec.ofNat 64 (wordNat i)) false) := by
  cases exec_row i with
  | instr he =>
    obtain ⟨body, he⟩ := he s
    rw [he, runInstr, if_pos]
    · rfl
    · rcases h with h | h
      · simp [h]
      · simp only [State.hasUnit, Bool.and_eq_false_iff, Bool.or_eq_false_iff, Bool.not_eq_false'] at h
        rcases h with h | h <;> simp [h]
  | pfx p hwf hu _ => simp [hwf, hu s] at h
  | event h0 _ => exact absurd h0 hw
  | sender _ h0 => exact absurd (h0 ▸ rfl) hw

/-! Turns of contexts, cores and Tufts. -/

theorem runWord_answers (s : State) (src : Nat) : Answers (s.runWord src) := by
  unfold State.runWord
  split
  · exact .next _
  · exact exec_answers _ _

theorem runNext_answers (s : State) (src site n : Nat) : Answers (s.runNext src site n) := by
  refine .thenDo (runWord_answers _ _) fun t => ?_
  split
  · exact .thenDo (runWord_answers _ _) fun u => .next _
  · exact .next _

theorem issue_answers (s : State) (site n : Nat) : Answers (s.issue site n) := .thenDo (runNext_answers _ _ _ _) fun _ => .next _

theorem issueFirst_answers (s : State) (site : Nat) (l : List Nat) : Answers (s.issueFirst site l) := by
  induction l generalizing s with
  | nil => exact .next _
  | cons n rest ih =>
    obtain ⟨t, ht⟩ := issue_answers s site n
    rw [State.issueFirst, ht]
    dsimp only
    split
    · exact ih t
    · exact .next _

theorem runAll_answers (s : State) (lead : Nat) (ms : List Nat) : Answers (s.runAll lead ms) := by
  induction ms generalizing s with
  | nil => exact .next _
  | cons m rest ih =>
    obtain ⟨t, ht⟩ := runNext_answers s lead m 0
    rw [State.runAll, ht]
    exact ih _

theorem lockStep_answers (s : State) (ms : List Nat) : Answers (s.lockStep ms) := by
  unfold State.lockStep
  dsimp only
  split
  · exact runAll_answers _ _ _
  · obtain ⟨r, hr⟩ := runAll_answers s (ms.headD 0) ms
    rw [hr]
    dsimp only
    split
    · exact .next _
    · split <;> exact .next _

theorem tuftTurn_answers (s : State) (site : Nat) : Answers (s.tuftTurn site) := by
  unfold State.tuftTurn
  dsimp only
  repeat' split
  all_goals first
    | exact .next _
    | exact issue_answers _ _ _
    | exact lockStep_answers _ _
    | exact .thenDo (issue_answers _ _ _) fun _ => .next _

theorem issueTurn_answers (s : State) (site n : Nat) : Answers (s.issueTurn site n) := by
  unfold State.issueTurn
  dsimp only
  split
  · exact .next _
  split
  · exact tuftTurn_answers _ _
  split
  · split
    · exact issue_answers _ _ _
    · exact .next _
  · exact .next _

theorem coreTurn_answers (s : State) (site : Nat) : Answers (s.coreTurn site) := by
  unfold State.coreTurn
  dsimp only
  split
  · exact .next _
  split
  · exact tuftTurn_answers _ _
  · exact issueFirst_answers _ _ _

/-! What the device does of itself. -/

/-- What `State.work` lists: the turn of a core, a row of the table, or a turn that the agenda can name as well. -/
inductive Chore : Work → Prop
  | core (site : Nat) : Chore fun s => s.coreTurn site
  | row (i : Instr) : Chore (exec i)
  | depart (k : Nat) : Chore (runTurn (.depart k))
  | refill (site : Nat) : Chore (runTurn (.refill site))

/-- A list of chores. -/
def Chores (l : List Work) : Prop := ∀ w ∈ l, Chore w

theorem Chores.nil : Chores [] := fun _ h => nomatch h

theorem Chores.cons {w : Work} {l : List Work} (h : Chore w) (hl : Chores l) : Chores (w :: l) := List.forall_mem_cons.2 ⟨h, hl⟩

theorem Chores.append {l m : List Work} (hl : Chores l) (hm : Chores m) : Chores (l ++ m) := List.forall_mem_append.2 ⟨hl, hm⟩

theorem Chores.map {α : Type} {f : α → Work} {l : List α} (h : ∀ x, Chore (f x)) : Chores (l.map f) :=
  List.forall_mem_map.2 fun x _ => h x

theorem Chores.flatten {α : Type} {f : α → List Work} {l : List α} (h : ∀ x, Chores (f x)) : Chores (l.map f).flatten := by
  intro w hw
  simp only [List.mem_flatten, List.mem_map] at hw
  obtain ⟨_, ⟨x, _, rfl⟩, hw⟩ := hw
  exact h x w hw

theorem engineWork_chores (e : Nat × Core) : Chores (engineWork e) := by
  refine .append ?_ (.flatten fun k => ?_)
  · exact .cons (.row (.wmbCommandComplete e.1)) <| .cons (.row (.hwrPerformed e.1)) <| .cons (.row (.timer e.1)) <|
      .cons (.row (.engineReportTimeout e.1)) <| .cons (.row (.corniceTrap e.1)) .nil
  · exact .cons (.row (.copy e.1 k)) <| .cons (.row (.xpose e.1 k)) <| .cons (.row (.gather e.1 k)) <| .cons (.row (.fill e.1 k)) <|
      .cons (.row (.pagein e.1 k)) <| .cons (.row (.migr e.1 k)) <| .cons (.row (.copyCommandComplete e.1 k)) .nil

theorem multiplierWork_chores (s : State) : Chores s.multiplierWork := by
  refine .flatten fun cl => .flatten fun u => .append ?_ (.map fun e => .row (.wmbTileJobDispatch cl u e.1))
  exact .cons (.row (.mma cl u)) <| .cons (.row (.mmaz cl u)) <| .cons (.row (.mmat cl u)) <| .cons (.row (.accst cl u)) <|
    .cons (.row (.accld cl u)) <| .cons (.row (.pconv cl u)) <| .cons (.row (.pdot cl u)) .nil

theorem retryHost_chore : (w : HostWait) → Chore (retryHost w)
  | .invalidation asid page count => .row (.atsInvalidation asid page count)
  | .deadline pf vf at_ report => .row (.pfDeadlinePost pf vf at_ report)
  | .queue vf num desc => .row (.queueCreate vf num desc)
  | .unbind asid => .row (.asidUnbind asid)
  | .fatal cls unit => .row (.fatalFault cls unit)

theorem work_chores (s : State) : Chores s.work := by
  unfold State.work
  refine .append (.append (.append (.append (.append (.append (.append (.append (.append (.append (.append (.append
    (.append (.append (.append (.append (.append (.append (.append (.append (.append (.append ?cores ?startup) ?reds)
    ?posts) ?senders) ?copyins) ?puts) ?messages) ?refusals) ?engines) ?multipliers) ?supersteps) ?passes) ?records)
    ?dispatches) ?reservations) ?slices) ?resumes) ?discards) ?reports) ?waits) ?departs) ?refills
  case cores => exact .map fun e => .core e.1
  case startup => exact .cons (.row .rom) <| .cons (.row .init) <| .cons (.row .mailboxCommandDone) .nil
  case reds => exact .map fun k => .row (.reductionPerformed k)
  case posts => exact .map fun k => .row (.cpostComplete k)
  case senders => exact .map fun k => .row (.eventWordAccepted k)
  case copyins => exact .map fun k => .row (.copyInComplete k)
  case puts => exact .map fun k => .row (.putPerformed k)
  case messages => exact .map fun k => .row (.messageDelivery k)
  case refusals => exact .map fun k => .row (.messageRefusalTimeout k)
  case engines => exact .flatten engineWork_chores
  case multipliers => exact multiplierWork_chores s
  case supersteps => exact .map fun k => .row (.superstepAdvance k)
  case passes => exact .map fun e => .row (.heapPass e.1)
  case records =>
    exact .flatten fun e => .cons (.row (.recordEnd e.1)) <| .cons (.row (.tenantSwitch e.1)) <|
      .cons (.row (.switchOutTimeout e.1)) .nil
  case dispatches => exact .map fun e => .row (.recordDispatch e.1)
  case reservations => exact .map fun e => .row (.reservation e.1)
  case slices => exact .map fun e => .row (.sliceEnd e.2.vf)
  case resumes => exact .flatten fun e => .flatten fun lc => .map fun c => .row (.interruptResume c.1 e.1 lc)
  case discards => exact .map fun k => .row (.corniceDiscard k)
  case reports => exact .map fun k => .row (.corniceReport k)
  case waits => exact .map retryHost_chore
  case departs => exact .map .depart
  case refills => exact .map fun e => .refill e.1

theorem Chore.answers {w : Work} (h : Chore w) (s : State) : Answers (w s) := by
  cases h with
  | core site => exact coreTurn_answers s site
  | row i => exact exec_answers i s
  | depart k => exact .next _
  | refill site => exact runEvent_next _ s

theorem firstWork_answers {s : State} {l : List Work} (h : Chores l) : Answers (s.firstWork l) := by
  induction l with
  | nil => exact .next s
  | cons w rest ih =>
    obtain ⟨hw, hr⟩ := List.forall_mem_cons.1 h
    obtain ⟨t, ht⟩ := hw.answers s
    rw [State.firstWork, ht]
    dsimp only
    split
    · exact ih hr
    · exact .next t

/-- A rotation of the work is made of the same chores. -/
theorem Chores.rotate {l : List Work} (h : Chores l) (k : Nat) : Chores (l.drop k ++ l.take k) :=
  .append (fun w hw => h w (List.mem_of_mem_drop hw)) fun w hw => h w (List.mem_of_mem_take hw)

theorem ownTurn_answers (s : State) : Answers s.ownTurn :=
  .thenDo (firstWork_answers ((work_chores s).rotate _)) fun _ => .next _

/-! A step. -/

/-- A turn of the agenda answers, if it names a site of the package. -/
theorem runTurn_answers {t : Turn} (ht : ∀ site n, t = .issue site n → site < siteCount) (s : State) : Answers (runTurn t s) := by
  cases t with
  | event i =>
    rw [runTurn]
    split
    · exact exec_answers i s
    · exact .next s
  | issue site n =>
    rw [runTurn, if_pos (ht site n rfl)]
    exact issueTurn_answers s site n
  | refill site => exact runEvent_next _ s
  | cycles | carry | fetch | depart => exact .next _

theorem step_safe {s : State} (h : s.sitesOk = true) : Safe s := by
  refine Answers.thenDo ?_ fun _ => .next _
  unfold turnOf
  split
  · exact ownTurn_answers s
  · rename_i t rest hs
    refine runTurn_answers (fun site n ht => ?_) _
    have hall := List.all_eq_true.1 h t (by simp [hs])
    subst ht
    simpa using hall

/-- Settles O58: the dispatch's rows for the instructions and events, the chores of the device for the steps. -/
theorem everyInstructionAnswers : Obligations.EveryInstructionAnswers :=
  ⟨exec_answers, fun _ => step_safe, fun _ _ => exec_illegal⟩

end Sys2Proof.Machine
end

section
/-! SUPPORT. The canonical form of memory: what an effect, a turn and a change of the state must keep (R3, R20), and the rules
by which the parts of an effect are put together. -/

namespace Sys2Proof.Machine

/-- Device memory, and what the device has written to host memory, are in canonical form. -/
@[simp] abbrev State.Canonical (s : State) : Prop := s.mem.wf = true ∧ s.hostMem.wf = true

/-- A state has the memory of another. -/
@[simp] abbrev State.SameMemory (t s : State) : Prop := t.mem = s.mem ∧ t.hostMem = s.hostMem

/-- The state of an answer of an effect is in canonical form, also where the effect leaves early. -/
@[simp] def EndsCanonical {α : Type} : EStateM.Result Exit State α → Prop
  | .ok _ t => t.Canonical
  | .error _ t => t.Canonical

/-- An effect that keeps the canonical form. -/
structure Op.Keeps {α : Type} (x : Op α) : Prop where
  run : ∀ s, s.Canonical → EndsCanonical (x s)

/-- A turn that keeps the canonical form where it answers a next state. -/
def TurnKeeps (f : State → Result) : Prop := ∀ s t, s.Canonical → f s = .next t → t.Canonical

namespace Op.Keeps
variable {α β : Type}

/-! The parts of an effect. -/

theorem pure (a : α) : Op.Keeps (Pure.pure a) := ⟨fun _ h => h⟩

theorem throw (e : Exit) : Op.Keeps (MonadExcept.throw e : Op α) := ⟨fun _ h => h⟩

theorem throw_bind (e : Exit) (f : α → Op β) : Op.Keeps (MonadExcept.throw e >>= f) := ⟨fun _ h => h⟩

theorem raise (c : Cause) (v : Word) : Op.Keeps (Machine.raise c v : Op α) := ⟨fun _ h => h⟩

theorem raise_bind (c : Cause) (v : Word) (f : α → Op β) : Op.Keeps (Machine.raise c v >>= f) := ⟨fun _ h => h⟩

theorem illegal (v : Word) : Op.Keeps (Machine.illegal v : Op α) := ⟨fun _ h => h⟩

theorem illegal_bind (v : Word) (f : α → Op β) : Op.Keeps (Machine.illegal v >>= f) := ⟨fun _ h => h⟩

theorem waitHere : Op.Keeps (Machine.waitHere : Op α) := ⟨fun _ h => h⟩

theorem waitHere_bind (f : α → Op β) : Op.Keeps (Machine.waitHere >>= f) := ⟨fun _ h => h⟩

theorem waitKeep : Op.Keeps (Machine.waitKeep : Op α) := ⟨fun _ h => h⟩

theorem waitKeep_bind (f : α → Op β) : Op.Keeps (Machine.waitKeep >>= f) := ⟨fun _ h => h⟩

theorem stutter : Op.Keeps (Machine.stutter : Op α) := ⟨fun _ h => h⟩

theorem stutter_bind (f : α → Op β) : Op.Keeps (Machine.stutter >>= f) := ⟨fun _ h => h⟩

theorem bind {x : Op α} {f : α → Op β} (hx : x.Keeps) (hf : ∀ a, (f a).Keeps) : Op.Keeps (x >>= f) := by
  refine ⟨fun s h => ?_⟩
  have hs := hx.run s h
  rcases e : x s with ⟨a, t⟩ | ⟨y, t⟩
  · rw [Op.bind_ok e]
    exact (hf a).run t (by rwa [e] at hs)
  · rw [Op.bind_error e]
    rwa [e] at hs

theorem pure_bind {a : α} {f : α → Op β} (h : (f a).Keeps) : Op.Keeps (Pure.pure a >>= f) := ⟨fun s hs => h.run s hs⟩

theorem get_bind {f : State → Op α} (hf : ∀ s, s.Canonical → (f s).Keeps) : Op.Keeps (MonadState.get >>= f) :=
  ⟨fun s h => (hf s h).run s h⟩

theorem set {t : State} (h : t.Canonical) : Op.Keeps (MonadStateOf.set t : Op PUnit) := ⟨fun _ _ => h⟩

theorem modify {f : State → State} (hf : ∀ s, s.Canonical → (f s).Canonical) : Op.Keeps (modify f : Op PUnit) :=
  ⟨fun s h => hf s h⟩

theorem ite {c : Prop} [Decidable c] {x y : Op α} (hx : x.Keeps) (hy : y.Keeps) : (if c then x else y).Keeps := by
  split
  · exact hx
  · exact hy

theorem forIn (l : List α) (b : β) {f : α → β → Op (ForInStep β)} (hf : ∀ a b, (f a b).Keeps) :
    Op.Keeps (ForIn.forIn l b f) := by
  induction l generalizing b with
  | nil => exact pure b
  | cons a l ih =>
    rw [List.forIn_cons]
    refine bind (hf a b) fun r => ?_
    cases r with
    | done b => exact pure b
    | yield b => exact ih b

theorem mapM (l : List α) {f : α → Op β} (hf : ∀ a, (f a).Keeps) : Op.Keeps (l.mapM f) := by
  induction l with
  | nil => exact pure []
  | cons a l ih =>
    rw [List.mapM_cons]
    exact bind (hf a) fun b => bind ih fun bs => pure (b :: bs)

/-! Effects that run another one. -/

theorem atSite (site : Nat) {f : Op α} (hf : f.Keeps) : (Machine.atSite site f).Keeps :=
  get_bind fun _ _ => bind (modify fun _ h => h) fun _ =>
    bind hf fun _ => bind (modify fun _ h => h) fun _ => pure _

theorem whole {f : Op α} (hf : f.Keeps) : (Machine.whole f).Keeps := by
  refine ⟨fun s h => ?_⟩
  have := hf.run s h
  unfold Machine.whole
  split <;> simp_all

theorem tryRun {f : Op Unit} (hf : f.Keeps) : (Machine.tryRun f).Keeps := by
  refine ⟨fun s h => ?_⟩
  have := hf.run s h
  unfold Machine.tryRun
  split <;> simp_all

theorem orNone {f : Op α} (hf : f.Keeps) : (Machine.orNone f).Keeps := by
  refine ⟨fun s h => ?_⟩
  have := hf.run s h
  unfold Machine.orNone
  split <;> simp_all

theorem attempt (code : Nat) {f : Op Unit} (hf : f.Keeps) : (Machine.attempt code f).Keeps := by
  refine ⟨fun s h => ?_⟩
  have := hf.run s h
  unfold Machine.attempt
  split <;> simp_all

theorem tryAsk {f : Op α} (hf : f.Keeps) : (Machine.tryAsk f).Keeps := by
  refine ⟨fun s h => ?_⟩
  have := hf.run s h
  unfold Machine.tryAsk
  split <;> simp_all

theorem keepTrying (i : HostWait) {f : Op Unit} (hf : f.Keeps) : (Machine.keepTrying i f).Keeps := by
  refine ⟨fun s h => ?_⟩
  have := hf.run s h
  unfold Machine.keepTrying
  dsimp only
  split <;> simp_all <;> split <;> simp_all

end Op.Keeps

end Sys2Proof.Machine
end

section
/-! SUPPORT. Changes of the state that leave its memory alone. -/

namespace Sys2Proof.Machine

@[simp] theorem State.mem_ite {c : Prop} [Decidable c] (s t : State) :
    (if c then s else t).mem = if c then s.mem else t.mem :=
  apply_ite State.mem c s t

@[simp] theorem State.hostMem_ite {c : Prop} [Decidable c] (s t : State) :
    (if c then s else t).hostMem = if c then s.hostMem else t.hostMem := apply_ite State.hostMem c s t

@[simp] theorem State.mem_foldl {α : Type} (l : List α) (s : State) {f : State → α → State} (h : ∀ t x, (f t x).mem = t.mem) :
    (l.foldl f s).mem = s.mem := by
  induction l generalizing s with
  | nil => rfl
  | cons x l ih => exact (ih _).trans (h s x)

@[simp] theorem State.hostMem_foldl {α : Type} (l : List α) (s : State) {f : State → α → State}
    (h : ∀ t x, (f t x).hostMem = t.hostMem) : (l.foldl f s).hostMem = s.hostMem := by
  induction l generalizing s with
  | nil => rfl
  | cons x l ih => exact (ih _).trans (h s x)

theorem State.SameMemory.foldl {α : Type} (l : List α) (s : State) {f : State → α → State} (h : ∀ t x, (f t x).SameMemory t) :
    (l.foldl f s).SameMemory s := ⟨mem_foldl l s fun t x => (h t x).1, hostMem_foldl l s fun t x => (h t x).2⟩

theorem State.SameMemory.of_parts {t s : State} (h : t.SameMemory s := by
    repeat' first
      | intro _
      | (refine ⟨?_, ?_⟩ <;> simp [*] <;> done)
      | with_reducible apply State.SameMemory.foldl
      | split
      | dsimp only) : t.SameMemory s := h

end Sys2Proof.Machine
end

section
/-! SUPPORT. Each change of the state that does not write memory leaves memory as it is. -/

set_option Elab.async false

namespace Sys2Proof.Machine

variable {s t : State}

@[simp] theorem State.setCore_memory {n c} : (s.setCore n c).SameMemory s := by
  unfold State.setCore; exact .of_parts

@[simp] theorem State.setCtx_memory {x} : (s.setCtx x).SameMemory s := by
  unfold State.setCtx; exact .of_parts

@[simp] theorem State.setRec_memory {r x} : (s.setRec r x).SameMemory s := by
  unfold State.setRec; exact .of_parts

@[simp] theorem State.addLog_memory {cls kind unit d0 d1} : (s.addLog cls kind unit d0 d1).SameMemory s := by
  unfold State.addLog; exact .of_parts

@[simp] theorem State.setVf_memory {v x} : (s.setVf v x).SameMemory s := by
  unfold State.setVf; exact .of_parts

@[simp] theorem State.setReg_memory {r v} : (s.setReg r v).SameMemory s := by
  unfold State.setReg; exact .of_parts

@[simp] theorem State.setArea_memory {rid site level a} : (s.setArea rid site level a).SameMemory s := by
  unfold State.setArea; exact .of_parts

@[simp] theorem State.markDirty_memory {key n} : (s.markDirty key n).SameMemory s := by
  unfold State.markDirty; exact .of_parts

@[simp] theorem State.copyPoison_memory {src key off n} : (s.copyPoison src key off n).SameMemory s := by
  unfold State.copyPoison; exact .of_parts

@[simp] theorem State.markClean_memory {key n} : (s.markClean key n).SameMemory s := by
  unfold State.markClean; exact .of_parts

@[simp] theorem State.markUnits_memory {key n} : (s.markUnits key n).SameMemory s := by
  unfold State.markUnits; exact .of_parts

@[simp] theorem State.noteOld_memory {l off n} : (s.noteOld l off n).SameMemory s := by
  unfold State.noteOld; exact .of_parts

@[simp] theorem State.dropOlds_memory : s.dropOlds.SameMemory s := by
  unfold State.dropOlds; exact .of_parts

@[simp] theorem State.relocate_memory {rid moves} : (s.relocate rid moves).SameMemory s := by
  unfold State.relocate; exact .of_parts

@[simp] theorem State.dropHeader_memory {rid site level key} : (s.dropHeader rid site level key).SameMemory s := by
  unfold State.dropHeader; exact .of_parts

@[simp] theorem State.askWrites_memory {o pages} : (s.askWrites o pages).SameMemory s := by
  unfold State.askWrites; exact .of_parts

@[simp] theorem State.enterCopy_memory {rid site level canon key} : (s.enterCopy rid site level canon key).SameMemory s := by
  unfold State.enterCopy; exact .of_parts

@[simp] theorem State.shootTable_memory {asid va p} : (s.shootTable asid va p).SameMemory s := by
  unfold State.shootTable; exact .of_parts

@[simp] theorem State.shootFrames_memory {fs} : (s.shootFrames fs).SameMemory s := by
  unfold State.shootFrames; exact .of_parts

@[simp] theorem State.knowTable_memory {asid va} : (s.knowTable asid va).SameMemory s := by
  unfold State.knowTable; exact .of_parts

@[simp] theorem State.suspect_memory {k page} : (s.suspect k page).SameMemory s := by
  unfold State.suspect; exact .of_parts

@[simp] theorem State.send_memory {f} : (s.send f).SameMemory s := by
  unfold State.send; exact .of_parts

@[simp] theorem State.popStream_memory {e} : (s.popStream e).SameMemory s := by
  unfold State.popStream; exact .of_parts

@[simp] theorem State.stepped_memory {t pc} : (s.stepped t pc).SameMemory s := by
  unfold State.stepped; exact .of_parts

@[simp] theorem State.starts_memory {i} : (s.starts i).SameMemory s := by
  unfold State.starts; exact .of_parts

@[simp] theorem State.trapReturn_memory : s.trapReturn.SameMemory s := by
  unfold State.trapReturn; exact .of_parts

@[simp] theorem State.dissolve_memory {site} : (s.dissolve site).SameMemory s := by
  unfold State.dissolve; exact .of_parts

@[simp] theorem State.moveOn_memory {rid me} : (s.moveOn rid me).SameMemory s := by
  unfold State.moveOn; exact .of_parts

@[simp] theorem State.stepPast_memory {rid me} : (s.stepPast rid me).SameMemory s := by
  unfold State.stepPast; exact .of_parts

@[simp] theorem State.fetchAhead_memory {site k i ctx} : (s.fetchAhead site k i ctx).SameMemory s := by
  unfold State.fetchAhead; exact .of_parts

@[simp] theorem State.arbiterNote_memory {side core} : (s.arbiterNote side core).SameMemory s := by
  unfold State.arbiterNote; exact .of_parts

@[simp] theorem State.postMsg_memory {mode dest dctx kind n utag body first} :
    (s.postMsg mode dest dctx kind n utag body first).SameMemory s := by
  unfold State.postMsg; exact .of_parts

@[simp] theorem State.departFlit_memory {k} : (s.departFlit k).SameMemory s := by
  unfold State.departFlit; exact .of_parts

@[simp] theorem State.countServed_memory {rid} : (s.countServed rid).SameMemory s := by
  unfold State.countServed; exact .of_parts

@[simp] theorem State.forgetSender_memory {site} : (s.forgetSender site).SameMemory s := by
  unfold State.forgetSender; exact .of_parts

@[simp] theorem State.reportShortfall_memory : s.reportShortfall.SameMemory s := by
  unfold State.reportShortfall; exact .of_parts

@[simp] theorem State.moveKv_memory {c} : (s.moveKv c).SameMemory s := by
  unfold State.moveKv; exact .of_parts

@[simp] theorem State.movePool_memory {c} : (s.movePool c).SameMemory s := by
  unfold State.movePool; exact .of_parts

@[simp] theorem State.addRecord_memory {r} : (s.addRecord r).SameMemory s := by
  unfold State.addRecord; exact .of_parts

@[simp] theorem State.fillRoutes_memory : s.fillRoutes.SameMemory s := by
  unfold State.fillRoutes; exact .of_parts

@[simp] theorem State.countPassed_memory {q} : (s.countPassed q).SameMemory s := by
  unfold State.countPassed; exact .of_parts

@[simp] theorem State.installHandlers_memory {rid} : (s.installHandlers rid).SameMemory s := by
  unfold State.installHandlers; exact .of_parts

@[simp] theorem State.disableQueue_memory {q} : (s.disableQueue q).SameMemory s := by
  unfold State.disableQueue; exact .of_parts

@[simp] theorem State.noteVacant_memory : s.noteVacant.SameMemory s := by
  unfold State.noteVacant; exact .of_parts

@[simp] theorem State.refuseSecure_memory : s.refuseSecure.SameMemory s := by
  unfold State.refuseSecure; exact .of_parts

@[simp] theorem State.shareTable_memory {asid} : (s.shareTable asid).SameMemory s := by
  unfold State.shareTable; exact .of_parts

@[simp] theorem State.endBoot_memory : s.endBoot.SameMemory s := by
  unfold State.endBoot; exact .of_parts

@[simp] theorem State.setMbdata_memory {bs} : (s.setMbdata bs).SameMemory s := by
  unfold State.setMbdata; exact .of_parts

@[simp] theorem State.focus_memory {site n} : (s.focus site n).SameMemory s := by
  unfold State.focus; exact .of_parts

@[simp] theorem State.unlatch_memory {site n} : (s.unlatch site n).SameMemory s := by
  unfold State.unlatch; exact .of_parts

@[simp] theorem State.noteIssue_memory {site n of} : (s.noteIssue site n of).SameMemory s := by
  unfold State.noteIssue; exact .of_parts

@[simp] theorem State.setHeld_memory {b m} : (s.setHeld b m).SameMemory s := by
  unfold State.setHeld; exact .of_parts

@[simp] theorem State.release_memory {ms} : (s.release ms).SameMemory s := by
  unfold State.release; exact .of_parts

@[simp] theorem State.rejoin_memory {site pc ms} : (s.rejoin site pc ms).SameMemory s := by
  unfold State.rejoin; exact .of_parts

@[simp] theorem State.holdRest_memory {ms} : (s.holdRest ms).SameMemory s := by
  unfold State.holdRest; exact .of_parts

end Sys2Proof.Machine
end

section
/-! SUPPORT. Changes of the state that write memory and keep its form. -/

namespace Sys2Proof.Machine

theorem State.Canonical.self {s : State} (h : s.Canonical) : s.Canonical := h

theorem State.Canonical.foldl {α : Type} (l : List α) {s : State} {f : State → α → State} (hs : s.Canonical)
    (hf : ∀ t x, t.Canonical → (f t x).Canonical) : (l.foldl f s).Canonical := by
  induction l generalizing s with
  | nil => exact hs
  | cons x l ih => exact ih (hf s x hs)

theorem State.Canonical.fst {α : Type} {s : State} {a : α} {x : State × α} (e : (s, a) = x) (h : s.Canonical) :
    x.1.Canonical := e ▸ h

theorem State.Canonical.foldl_fst {α β : Type} (l : List α) {s : State} {b : β} {f : State × β → α → State × β} (hs : s.Canonical)
    (hf : ∀ x a, x.1.Canonical → (f x a).1.Canonical) : (l.foldl f (s, b)).1.Canonical := by
  generalize e : (s, b) = x
  replace hs := State.Canonical.fst e hs
  clear e
  induction l generalizing x with
  | nil => exact hs
  | cons a l ih => exact ih _ (hf x a hs)

theorem State.Canonical.of_eq {s t : State} (hm : s.mem = t.mem) (hh : s.hostMem = t.hostMem) (h : t.Canonical) :
    s.Canonical :=
  ⟨hm ▸ h.1, hh ▸ h.2⟩

theorem State.SameMemory.canonical {s t : State} (e : t.SameMemory s) (h : s.Canonical) : t.Canonical := .of_eq e.1 e.2 h

theorem State.Canonical.withMem {s : State} (h : s.Canonical) {m : Mem} (w : m.wf = true) :
    { s with mem := m }.Canonical := ⟨w, h.2⟩

theorem State.Canonical.of_parts {s : State} (h : s.Canonical := by
    repeat' first
      | assumption
      | intro _
      | (refine ⟨?_, ?_⟩ <;> simp [*, Mem.wf_set, Mem.wf_clear, Mem.wf_setBytes, Mem.wf_copy, Mem.wf_write, Mem.wf_setHdr,
          Mem.wf_filter, Mem.wf_setBit] <;> done)
      | with_reducible apply State.Canonical.foldl
      | split
      | dsimp only
      | fail_if_no_progress refine State.Canonical.of_eq rfl rfl ?_
      | (refine ⟨?_, ?_⟩ <;> simp (disch := simp (disch := simp [*]) [*]) [*] <;> done)) : s.Canonical := h

end Sys2Proof.Machine
end

section
/-! SUPPORT. Each change of the state that writes memory keeps its canonical form. -/

set_option Elab.async false

namespace Sys2Proof.Machine

variable {s t : State}

@[simp] theorem State.Canonical.putEntry (h : s.Canonical) {ring index bs} : (s.putEntry ring index bs).Canonical := by
  unfold State.putEntry; exact .of_parts

@[simp] theorem State.Canonical.drainEvents (h : s.Canonical) : s.drainEvents.Canonical := by
  unfold State.drainEvents; exact .of_parts

@[simp] theorem State.Canonical.postEvent (h : s.Canonical) {e} : (s.postEvent e).Canonical := by
  unfold State.postEvent; exact .of_parts

@[simp] theorem State.Canonical.notePage (h : s.Canonical) {asid vf page} : (s.notePage asid vf page).Canonical := by
  obtain ⟨hh, hm, -⟩ := State.notePage_wf (asid := asid) (vf := vf) (page := page) h.2
  exact ⟨hm ▸ h.1, hh⟩

@[simp] theorem State.Canonical.noteHeap (h : s.Canonical) {asid va n} : (s.noteHeap asid va n).Canonical := by
  unfold State.noteHeap; exact .of_parts

@[simp] theorem State.Canonical.noteKey (h : s.Canonical) {key} : (s.noteKey key).Canonical := by
  unfold State.noteKey; exact .of_parts

@[simp] theorem State.Canonical.putHeap (h : s.Canonical) {asid va bs} : (s.putHeap asid va bs).Canonical :=
  ⟨Mem.wf_foldl _ (fun _ _ => Mem.wf_setBytes) _ h.1, h.noteHeap.2⟩

@[simp] theorem State.Canonical.putBody (h : s.Canonical) {l off bs} : (s.putBody l off bs).Canonical := by
  unfold State.putBody; exact .of_parts

@[simp] theorem State.Canonical.setHdr (h : s.Canonical) {l h} : (s.setHdr l h).Canonical := by
  unfold State.setHdr; exact .of_parts

@[simp] theorem State.Canonical.putPad (h : s.Canonical) {key off bs} : (s.putPad key off bs).Canonical := by
  unfold State.putPad; exact .of_parts

@[simp] theorem State.Canonical.putObj (h : s.Canonical) {l off bs} : (s.putObj l off bs).Canonical := by
  unfold State.putObj; exact .of_parts

theorem State.Canonical.heapAlloc (h : s.Canonical) {asid f t va} (e : s.heapAlloc asid f = some (t, va)) : t.Canonical := by
  unfold State.heapAlloc at e
  obtain ⟨⟨rs, va⟩, -, e⟩ := Option.map_eq_some_iff.1 e
  obtain ⟨rfl, -⟩ := Prod.mk.inj e
  exact h

@[simp] theorem State.Canonical.carryBytes (h : s.Canonical) {src ks dst} : (s.carryBytes src ks dst).Canonical := by
  unfold State.carryBytes; exact .of_parts

@[simp] theorem State.Canonical.carry (h : s.Canonical) {src n dst} : (s.carry src n dst).Canonical := by
  unfold State.carry; exact .of_parts

@[simp] theorem State.Canonical.moveBytes (h : s.Canonical) {src dst f} : (s.moveBytes src dst f).Canonical := by
  unfold State.moveBytes; exact .of_parts

theorem patchWords_wf {r : Rec} {site : Nat} {ms : List (Nat × Word)} {m : Mem} {k : Nat} (w : m.wf = true) :
    (patchWords r site ms m k).wf = true := by
  refine Mem.wf_foldl _ (fun m i w => ?_) _ w
  dsimp only
  split
  · exact w
  · exact Mem.wf_write w

theorem patchLink_wf {r : Rec} {site : Nat} {ms : List (Nat × Word)} {m : Mem} {k : Nat} (w : m.wf = true) :
    (patchLink r site ms m k).wf = true := by
  unfold patchLink
  dsimp only
  split
  · exact w
  · exact Mem.wf_setHdr w

@[simp] theorem State.Canonical.patchAll (h : s.Canonical) {rid sites m} : (s.patchAll rid sites m).Canonical := by
  unfold State.patchAll
  split
  · exact h
  · refine ⟨Mem.wf_foldl _ (fun _ _ w => ?_) _ (Mem.wf_foldl _ (fun _ _ => patchLink_wf) _
      (Mem.wf_foldl _ (fun _ _ w => ?_) _ h.1)), (State.Canonical.foldl _ h fun _ _ ht => ht.noteKey).2⟩
    · dsimp only
      split
      · exact w
      · exact Mem.wf_write w
    · split
      · exact patchWords_wf w
      · exact w

@[simp] theorem State.Canonical.moveInto (h : s.Canonical) {rid site level key x5} :
    (s.moveInto rid site level key x5).Canonical := by
  unfold State.moveInto; exact .of_parts

@[simp] theorem State.Canonical.refresh (h : s.Canonical) {c v n keepDirty} : (s.refresh c v n keepDirty).Canonical := by
  unfold State.refresh
  dsimp only
  split
  · simp [h, Mem.wf_setBytes]
  · exact ⟨Mem.wf_foldl _ (fun _ _ => Mem.wf_set) _ h.1, h.2⟩

@[simp] theorem State.Canonical.setFieldAt (h : s.Canonical) {v off n x} : (s.setFieldAt v off n x).Canonical := by
  unfold State.setFieldAt; exact .of_parts

@[simp] theorem State.Canonical.setBar0 (h : s.Canonical) {v lo width x} : (s.setBar0 v lo width x).Canonical := by
  unfold State.setBar0; exact .of_parts

@[simp] theorem State.Canonical.barWake (h : s.Canonical) {v} : (s.barWake v).Canonical := by
  unfold State.barWake; exact .of_parts

@[simp] theorem State.Canonical.barFinish (h : s.Canonical) {v} : (s.barFinish v).Canonical := by
  have h1 := (h.setBar0 (v := v) (lo := 0) (width := 32) (x := s.barPhase v + 1)).setBar0 (v := v) (lo := 32) (width := 1) (x := 0)
  unfold State.barFinish
  dsimp only
  split
  · split
    · split
      · exact h1.setFieldAt.setFieldAt.setBar0.setBar0
      · exact h1.setFieldAt.setFieldAt.setBar0.setFieldAt
    · exact h1.setFieldAt.setFieldAt
  · exact h

@[simp] theorem State.Canonical.barComplete (h : s.Canonical) {v} : (s.barComplete v).Canonical := by
  unfold State.barComplete; exact .of_parts

@[simp] theorem State.Canonical.barCredit (h : s.Canonical) {v n} : (s.barCredit v n).Canonical := by
  unfold State.barCredit
  dsimp only
  split
  · exact h.setFieldAt.setBar0.barComplete
  · exact h.setFieldAt.barComplete

@[simp] theorem State.Canonical.barPendingUp (h : s.Canonical) {v} : (s.barPendingUp v).Canonical := by
  unfold State.barPendingUp; exact .of_parts

@[simp] theorem State.Canonical.barPendingDown (h : s.Canonical) {v} : (s.barPendingDown v).Canonical := by
  unfold State.barPendingDown; exact .of_parts

@[simp] theorem State.Canonical.barWaitersUp (h : s.Canonical) {v} : (s.barWaitersUp v).Canonical := by
  unfold State.barWaitersUp; exact .of_parts

@[simp] theorem State.Canonical.barWaitersDown (h : s.Canonical) {v} : (s.barWaitersDown v).Canonical := by
  unfold State.barWaitersDown; exact .of_parts

@[simp] theorem State.Canonical.leaveLines (h : s.Canonical) {p} : (s.leaveLines p).Canonical := by
  unfold State.leaveLines
  refine .foldl _ h fun t w ht => ?_
  split
  · exact ht.barWaitersDown
  · exact ht

@[simp] theorem State.Canonical.erefUp (h : s.Canonical) {l} : (s.erefUp l).Canonical := by
  unfold State.erefUp; exact .of_parts

@[simp] theorem State.Canonical.erefDown (h : s.Canonical) {l} : (s.erefDown l).Canonical := by
  unfold State.erefDown; exact .of_parts

@[simp] theorem State.Canonical.dropCmd (h : s.Canonical) {c} : (s.dropCmd c).Canonical := by
  have h1 : (c.erefs.foldl State.erefDown s).Canonical := .foldl _ h fun _ _ ht => ht.erefDown
  unfold State.dropCmd
  dsimp only
  split
  · exact h1.barPendingDown
  · exact h1

@[simp] theorem State.Canonical.dropPost (h : s.Canonical) {p} : (s.dropPost p).Canonical := by
  unfold State.dropPost
  dsimp only
  split
  · exact h.erefDown.erefDown.barPendingDown.erefDown
  · exact h.erefDown.erefDown

@[simp] theorem State.Canonical.dqDropBottom (h : s.Canonical) {v} : (s.dqDropBottom v).Canonical := h.setFieldAt

@[simp] theorem State.Canonical.setBodyField (h : s.Canonical) {l off lo w v} : (s.setBodyField l off lo w v).Canonical := by
  unfold State.setBodyField; exact .of_parts

@[simp] theorem State.Canonical.setKvPage (h : s.Canonical) {l i p} : (s.setKvPage l i p).Canonical := h.setFieldAt

@[simp] theorem State.Canonical.takeFrame (h : s.Canonical) {vf rowq} : (s.takeFrame vf rowq).1.Canonical := by
  unfold State.takeFrame
  extract_lets f key hdr s1 l s2
  have h1 : s1.Canonical := ⟨Mem.wf_setHdr (Mem.wf_clear h.1), h.2⟩
  have h2 : s2.Canonical := h1.setFieldAt.setFieldAt
  exact h2

theorem State.Canonical.dropRef (h : s.Canonical) {f} : (s.dropRef f).1.Canonical := by
  generalize e : s.dropRef f = x
  unfold State.dropRef at e
  extract_lets l r s1 v w u at e
  have h1 : s1.Canonical := h.setBodyField
  have hu : u.Canonical := State.setVf_memory.canonical h1
  clear_value u s1
  split at e
  · exact .fst e hu
  · exact .fst e h1

@[simp] theorem State.Canonical.dropPages (h : s.Canonical) {l f cap} : (s.dropPages l f cap).1.Canonical := by
  refine State.Canonical.foldl_fst _ h fun x n hx => ?_
  dsimp only
  split
  · exact hx
  · split
    · exact hx.dropRef.setKvPage
    · exact hx.setKvPage

@[simp] theorem State.Canonical.setTag (h : s.Canonical) {r j used spec pos} : (s.setTag r j used spec pos).Canonical := by
  unfold State.setTag; exact .of_parts

@[simp] theorem State.Canonical.setCommitted (h : s.Canonical) {r j p} : (s.setCommitted r j p).Canonical :=
  h.setBodyField.setBodyField.setBodyField

@[simp] theorem State.Canonical.closeVersions (h : s.Canonical) {r E tie} : (s.closeVersions r E tie).Canonical := by
  unfold State.closeVersions
  extract_lets s1 cur s2
  have h1 : s1.Canonical := by
    unfold s1
    split
    · exact h.setCommitted.setTag
    · exact h
  refine (State.Canonical.foldl _ h1 fun t j ht => ?_ : s2.Canonical).setBodyField
  split
  · exact ht
  · exact ht.setBodyField

@[simp] theorem State.Canonical.closeWindow (h : s.Canonical) {asid va a} : (s.closeWindow asid va a).Canonical := by
  unfold State.closeWindow
  extract_lets t E tie s0
  split
  next s1 fs hx =>
  have h1 : s1.Canonical := by
    have hd := State.Canonical.dropPages (s := s0) h (l := t) (f := Nat.max (s.kvWpg0 t) (ceilDiv E 16))
      (cap := (kvCap (s.hdr t).len).getD 0)
    rwa [hx] at hd
  extract_lets s2 s3 s4
  have h2 : s2.Canonical := by
    unfold s2
    split
    · exact h1.closeVersions
    · exact h1
  have h4 : s4.Canonical := h2.setBodyField.setBodyField.setBodyField.setBodyField
  exact State.shootFrames_memory.canonical h4

@[simp] theorem State.Canonical.autoAbort (h : s.Canonical) {k} : (s.autoAbort k).Canonical := by
  unfold State.autoAbort; exact .of_parts

@[simp] theorem State.Canonical.kvAbortOwner (h : s.Canonical) {rid lc ctx} : (s.kvAbortOwner rid lc ctx).Canonical := by
  unfold State.kvAbortOwner; exact .of_parts

@[simp] theorem State.Canonical.kvAbortCtx (h : s.Canonical) {site ctx} : (s.kvAbortCtx site ctx).Canonical := by
  unfold State.kvAbortCtx; exact .of_parts

@[simp] theorem State.Canonical.markStopped (h : s.Canonical) {k} : (s.markStopped k).Canonical := by
  unfold State.markStopped; exact .of_parts

@[simp] theorem State.Canonical.stopTable (h : s.Canonical) {k} : (s.stopTable k).Canonical := by
  unfold State.stopTable
  extract_lets s1 s2 s3
  have h2 : s2.Canonical := by
    unfold s2
    split
    · exact h.markStopped.autoAbort
    · exact h.markStopped
  have h3 : s3.Canonical := State.shootTable_memory.canonical h2
  exact h3.postEvent

@[simp] theorem State.Canonical.poisonPage (h : s.Canonical) {page} : (s.poisonPage page).Canonical := by
  unfold State.poisonPage; exact .of_parts

@[simp] theorem State.Canonical.settleTable (h : s.Canonical) {k} : (s.settleTable k).Canonical := by
  unfold State.settleTable
  extract_lets now clear s1 s2
  have hc : clear.Canonical := h
  have h1 : s1.Canonical := by
    unfold s1
    split
    · exact h
    · split
      · exact hc.stopTable
      · exact hc
  have h2 : s2.Canonical := by
    unfold s2
    split
    · exact h1.markStopped
    · exact h1
  split
  · exact h2.autoAbort
  · exact h2

@[simp] theorem State.Canonical.settleTables (h : s.Canonical) : s.settleTables.Canonical := by
  unfold State.settleTables; exact .of_parts

@[simp] theorem State.Canonical.endCore (h : s.Canonical) {site fault} : (s.endCore site fault).Canonical := by
  unfold State.endCore
  extract_lets c s1 s2 mine t2 s2' s3 c3 freed c4 t3 s4 lc
  have h1 : s1.Canonical := .foldl _ h fun _ _ ht => ht.kvAbortCtx
  have h2 : s2.Canonical := .foldl _ (.foldl _ h1 fun _ _ ht => ht.dropCmd) fun _ _ ht => ht.erefDown
  have h2' : s2'.Canonical := State.Canonical.foldl _ h2 fun _ _ ht => ht.dropPost
  have h3 : s3.Canonical := h2'.leaveLines
  have h4 : s4.Canonical := h3
  clear_value s4
  split
  · exact h4
  · exact h4

@[simp] theorem State.Canonical.doubleFault (h : s.Canonical) {site code val} : (s.doubleFault site code val).Canonical := by
  unfold State.doubleFault; exact .of_parts

theorem reservedHeaders_wf {m : Mem} {site : Nat} (w : m.wf = true) : (reservedHeaders m site).wf = true := by
  unfold reservedHeaders
  split
  · exact w
  · exact Mem.wf_setHdr (Mem.wf_setHdr w)

@[simp] theorem State.Canonical.enterTrap (h : s.Canonical) {site X code val pc async pfx} :
    (s.enterTrap site X code val pc async pfx).Canonical := by
  unfold State.enterTrap
  extract_lets c s1 s2
  have h1 : s1.Canonical := h.leaveLines
  have h2 : s2.Canonical := h1.withMem (Mem.wf_setBytes (reservedHeaders_wf h1.1))
  clear_value s2
  split
  · exact h.doubleFault
  · exact h2

@[simp] theorem State.Canonical.trapHere (h : s.Canonical) {code val async} : (s.trapHere code val async).Canonical := by
  unfold State.trapHere; exact .of_parts

@[simp] theorem State.Canonical.acquireDest (h : t.Canonical) {d} : (t.acquireDest d).Canonical := by
  unfold State.acquireDest; exact .of_parts

@[simp] theorem State.Canonical.acquireRecord (h : s.Canonical) {r} : (s.acquireRecord r).Canonical := by
  unfold State.acquireRecord; exact .of_parts

@[simp] theorem State.Canonical.commitPorts (h : s.Canonical) : s.commitPorts.Canonical := by
  unfold State.commitPorts
  extract_lets t c me
  split
  extract_lets s1 s2 x s3 s4 s5 s6 s7 s8
  have h2 : s2.Canonical := State.Canonical.foldl _ (s := s1) h fun _ _ ht => ht.acquireRecord
  have h3 : s3.Canonical := h2
  have h4 : s4.Canonical := by
    unfold s4
    split
    · exact .foldl _ h3 fun _ _ ht => ht.dqDropBottom
    · exact h3
  have h5 : s5.Canonical := by
    unfold s5
    split
    · exact h4
    · split
      · exact h4
      · exact h4
  have h6 : s6.Canonical := .foldl _ h5 fun _ _ ht => State.send_memory.canonical ht
  have h7 : s7.Canonical := h6
  have h8 : s8.Canonical := .foldl _ h7 fun _ _ ht => State.popStream_memory.canonical ht
  exact h8

@[simp] theorem State.Canonical.retire (h : s.Canonical) : s.retire.Canonical := by
  unfold State.retire; exact .of_parts

@[simp] theorem State.Canonical.complete (h : s.Canonical) {pc pfx} : (s.complete pc pfx).Canonical := by
  unfold State.complete; exact .of_parts

@[simp] theorem State.Canonical.markRoot (h : s.Canonical) {l on} : (s.markRoot l on).Canonical := by
  unfold State.markRoot; exact .of_parts

@[simp] theorem State.Canonical.askHeapPass (h : s.Canonical) {asid} : (s.askHeapPass asid).1.Canonical := by
  unfold State.askHeapPass
  dsimp only
  split
  · exact h
  · exact h

@[simp] theorem State.Canonical.performTerms (h : s.Canonical) {r off} : (s.performTerms r off).Canonical := by
  unfold State.performTerms; exact .of_parts

@[simp] theorem State.Canonical.barReset (h : s.Canonical) {v m} : (s.barReset v m).Canonical :=
  h.setBar0.setBar0.setFieldAt.setFieldAt

@[simp] theorem State.Canonical.barPost (h : s.Canonical) {v n} : (s.barPost v n).Canonical :=
  h.setFieldAt.setBar0.setBar0.barComplete

@[simp] theorem State.Canonical.bufPush (h : s.Canonical) {l m} : (s.bufPush l m).Canonical := by
  unfold State.bufPush; exact .of_parts

@[simp] theorem State.Canonical.bufUnshift (h : s.Canonical) {l m} : (s.bufUnshift l m).Canonical := h.putBody.setFieldAt

@[simp] theorem State.Canonical.bufPop (h : s.Canonical) {l} : (s.bufPop l).Canonical := by
  unfold State.bufPop; exact .of_parts

@[simp] theorem State.Canonical.clearPad (h : s.Canonical) {key n} : (s.clearPad key n).Canonical := by
  unfold State.clearPad; exact .of_parts

@[simp] theorem State.Canonical.saveAreas (h : s.Canonical) {rid} : (s.saveAreas rid).Canonical := by
  have h1 : (s.countServed rid).Canonical := .of_eq (by simp) (by simp) h
  exact State.Canonical.of_eq rfl rfl (State.Canonical.foldl _ h1 fun _ _ ht => ht.clearPad)

@[simp] theorem State.Canonical.leave (h : s.Canonical) {site rid lc img} : (s.leave site rid lc img).Canonical := by
  unfold State.leave; exact .of_parts

@[simp] theorem State.Canonical.vacate (h : s.Canonical) {site rid lc img} : (s.vacate site rid lc img).Canonical := by
  unfold State.vacate
  dsimp only
  split
  · exact (State.Canonical.foldl _ h.leave fun _ _ ht => ht.leave).saveAreas
  · exact h.leave

@[simp] theorem State.Canonical.spill (h : s.Canonical) {site rid lc} : (s.spill site rid lc).Canonical := by
  unfold State.spill
  split
  · exact h
  · exact State.Canonical.foldl _ h fun _ _ ht => ht.bufUnshift

@[simp] theorem State.Canonical.restoreAreas (h : s.Canonical) {rid} : (s.restoreAreas rid).Canonical :=
  ⟨Mem.wf_foldl _ (fun _ _ => Mem.wf_set) _ h.1, h.2⟩

@[simp] theorem State.Canonical.restoreCore (h : s.Canonical) {site rid lc img pad} :
    (s.restoreCore site rid lc img pad).Canonical := by
  unfold State.restoreCore
  extract_lets c base s1 s2 g g0 g1 x s3 r
  have h1 : s1.Canonical := h.clearPad
  have h2 : s2.Canonical := h1.withMem (Mem.wf_foldl _ (fun _ _ => Mem.wf_set) _ h1.1)
  have h3 : s3.Canonical := h2.withMem (Mem.wf_setBytes h2.1)
  exact State.setRec_memory.canonical (State.setCore_memory.canonical h3)

@[simp] theorem State.Canonical.restoreArea (h : s.Canonical) {img ss kind a} : (s.restoreArea img ss kind a).Canonical := by
  unfold State.restoreArea
  split
  · split
    · exact h
    · refine ⟨Mem.wf_foldl _ (fun _ _ w => ?_) _ (Mem.wf_clear h.1), h.2⟩
      split
      · exact Mem.wf_set w
      · exact w
  · exact h

@[simp] theorem State.Canonical.restoreImage (h : s.Canonical) {site rid lc img ss} :
    (s.restoreImage site rid lc img ss).Canonical :=
  h.restoreCore.restoreArea.restoreArea

@[simp] theorem State.Canonical.kvCount (h : s.Canonical) {t own fresh i k} : (s.kvCount t own fresh i k).Canonical := by
  unfold State.kvCount; exact .of_parts

@[simp] theorem State.Canonical.switchCore (h : s.Canonical) {rid lc} : (s.switchCore rid lc).Canonical :=
  h.leaveLines.spill.vacate

@[simp] theorem State.Canonical.discardCore (h : s.Canonical) {site} : (s.discardCore site).Canonical := by
  unfold State.discardCore; exact .of_parts

@[simp] theorem State.Canonical.dropSaved (h : s.Canonical) {rid lc} : (s.dropSaved rid lc).Canonical := by
  have h1 : ((List.range 11).foldl (fun (t : State) i => t.kvAbortOwner rid lc i) s).Canonical :=
    .foldl _ h fun _ _ ht => ht.kvAbortOwner
  unfold State.dropSaved
  dsimp only
  split
  · exact h1
  · exact .foldl _ (.foldl _ h1 fun _ _ ht => ht.dropCmd) fun _ _ ht => ht.erefDown

@[simp] theorem State.Canonical.discardRecord (h : s.Canonical) {rid} : (s.discardRecord rid).Canonical := by
  have hc : (s.countServed rid).Canonical := .of_eq (by simp) (by simp) h
  exact State.Canonical.of_eq rfl rfl (State.Canonical.foldl _ (State.Canonical.foldl _
    (State.Canonical.foldl _ hc fun _ _ ht => ht.dropSaved) fun _ _ ht => ht.discardCore) fun _ _ ht => ht.clearPad)

@[simp] theorem State.Canonical.markLost (h : s.Canonical) {l} : (s.markLost l).Canonical := by
  unfold State.markLost; exact .of_parts

@[simp] theorem State.Canonical.loseChannel (h : s.Canonical) {c} : (s.loseChannel c).Canonical := by
  unfold State.loseChannel; exact .of_parts

@[simp] theorem State.Canonical.fence (h : s.Canonical) {u} : (s.fence u).Canonical := by
  unfold State.fence; exact .of_parts

@[simp] theorem State.Canonical.fenceIdle (h : s.Canonical) : s.fenceIdle.Canonical := by
  unfold State.fenceIdle; exact .of_parts

@[simp] theorem State.Canonical.retireUnit (h : s.Canonical) {u} : (s.retireUnit u).Canonical := by
  unfold State.retireUnit; exact .of_parts

@[simp] theorem State.Canonical.strike (h : s.Canonical) {u} : (s.strike u).Canonical := by
  unfold State.strike; exact .of_parts

@[simp] theorem State.Canonical.queueRecord (h : s.Canonical) {r ws} : (s.queueRecord r ws).Canonical := by
  unfold State.queueRecord; exact .of_parts

@[simp] theorem State.Canonical.uncount (h : s.Canonical) {rid} : (s.uncount rid).Canonical :=
  State.Canonical.of_eq rfl rfl (State.Canonical.foldl _ h fun _ _ ht => ht.barWaitersDown)

@[simp] theorem State.Canonical.noteEligibleAt (h : s.Canonical) {rid} : (s.noteEligibleAt rid).Canonical := by
  unfold State.noteEligibleAt; exact .of_parts

@[simp] theorem State.Canonical.noteEligible (h : s.Canonical) : s.noteEligible.Canonical := by
  unfold State.noteEligible; exact .of_parts

@[simp] theorem State.Canonical.startCore (h : s.Canonical) {rid lc} : (s.startCore rid lc).Canonical := by
  unfold State.startCore
  extract_lets r site base s1 area
  have h1 : s1.Canonical := h.clearPad
  clear_value s1 area
  generalize area.bumpAlloc _ = x
  obtain ⟨a1, key⟩ := x
  exact h1.withMem (Mem.wf_setHdr h1.1)

@[simp] theorem State.Canonical.startRecord (h : s.Canonical) {rid sites} : (s.startRecord rid sites).Canonical := by
  have hf : s.fillRoutes.Canonical := .of_eq (by simp) (by simp) h
  exact State.Canonical.of_eq rfl rfl (State.Canonical.foldl _ (State.Canonical.foldl _ hf fun _ _ ht => ht.clearPad)
    fun _ _ ht => ht.startCore)

@[simp] theorem State.Canonical.makeCtxbufs (h : s.Canonical) {rid slots} : (s.makeCtxbufs rid slots).Canonical := by
  refine State.Canonical.foldl _ h fun t lc ht => ?_
  split
  next t1 va e =>
    have h1 : t1.Canonical := ht.heapAlloc e
    exact h1
  · exact ht

@[simp] theorem State.Canonical.initCtxbuf (h : s.Canonical) {asid lc va slots} : (s.initCtxbuf asid lc va slots).Canonical :=
  h.putHeap.setHdr.setFieldAt

@[simp] theorem State.Canonical.freeCores (h : s.Canonical) {rid} : (s.freeCores rid).Canonical := by
  unfold State.freeCores
  extract_lets r sites s1 s2 bufs s2' x s3
  have h1 : s1.Canonical := .foldl _ h fun _ _ ht => State.Canonical.clearPad ht
  have h2 : s2.Canonical := .foldl _ h1 fun _ _ ht => ht.clearPad
  have h2' : s2'.Canonical := .of_eq (by simp [s2']) (by simp [s2']) h2
  exact h2'

@[simp] theorem State.Canonical.writeCompletion (h : s.Canonical) {rid status} :
    (s.writeCompletion rid status).Canonical := by
  unfold State.writeCompletion; exact .of_parts

@[simp] theorem State.Canonical.creditSignal (h : s.Canonical) {r} : (s.creditSignal r).Canonical := by
  unfold State.creditSignal; exact .of_parts

@[simp] theorem State.Canonical.withdraw (h : s.Canonical) {rid closed} : (s.withdraw rid closed).Canonical := by
  unfold State.withdraw; exact .of_parts

@[simp] theorem State.Canonical.withdrawDevice (h : s.Canonical) {q} : (s.withdrawDevice q).Canonical := by
  unfold State.withdrawDevice; exact .of_parts

@[simp] theorem State.Canonical.withdrawAll (h : s.Canonical) {q} : (s.withdrawAll q).Canonical := by
  unfold State.withdrawAll; exact .of_parts

@[simp] theorem State.Canonical.postDeadline (h : s.Canonical) {isVf target at_ report} :
    (s.postDeadline isVf target at_ report).Canonical := by
  unfold State.postDeadline
  extract_lets qs entries outcomeOf worsen s1 s2 new bars s3
  have h2 :
      s2.Canonical := State.Canonical.foldl _ (s := s1) h fun _ _ ht => State.disableQueue_memory.canonical ht.withdrawAll
  have h3 : s3.Canonical := h2
  exact State.noteVacant_memory.canonical (.foldl _ h3 fun _ _ ht => .foldl _ ht fun _ _ hu => hu.discardRecord)

@[simp] theorem State.Canonical.discardLate (h : s.Canonical) {k} : (s.discardLate k).Canonical := by
  unfold State.discardLate
  split
  · exact h
  · extract_lets late failed s1 qs mark
    have h1 : s1.Canonical := .foldl _ h fun _ _ ht => .foldl _ ht fun _ _ hu => hu.discardRecord
    exact .of_eq (by simp) (by simp) h1

@[simp] theorem State.Canonical.discardNow (h : s.Canonical) : s.discardNow.Canonical := by
  unfold State.discardNow; exact .of_parts

@[simp] theorem State.Canonical.wait (h : s.Canonical) {n} : (s.wait n).Canonical := by
  have h1 :
      ((s.discardPoints n).foldl (fun (t : State) p => ({ t with cycle := BitVec.ofNat 64 p } : State).discardNow) s).Canonical :=
    .foldl _ h fun _ _ ht => State.Canonical.discardNow ht
  exact State.Canonical.discardNow h1

@[simp] theorem State.Canonical.endSnapshot (h : s.Canonical) {vf} : (s.endSnapshot vf).Canonical := by
  unfold State.endSnapshot; exact .of_parts

@[simp] theorem State.Canonical.writeLog (h : s.Canonical) {vf} : (s.writeLog vf).Canonical := by
  unfold State.writeLog
  split
  · exact h
  · exact ⟨h.1, Mem.wf_foldl _ (fun _ _ => Mem.wf_setBit) _ h.2⟩

@[simp] theorem State.Canonical.moveAway (h : s.Canonical) {vf} : (s.moveAway vf).Canonical := by
  unfold State.moveAway
  extract_lets mine s1 gone s2
  have h1 : s1.Canonical := by
    refine .foldl _ h fun t k ht => ?_
    split
    · exact ht.dropPages
    · exact ht
  have h2 : s2.Canonical := .of_eq (by simp [s2]) (by simp [s2]) h1
  exact h2

@[simp] theorem State.Canonical.takePages (h : s.Canonical) {vf objs} : (s.takePages vf objs).1.Canonical := by
  refine State.Canonical.foldl_fst _ h fun x o hx => ?_
  split
  · exact hx.takeFrame.putBody.setBodyField
  · exact hx

@[simp] theorem State.Canonical.placeMoved (h : s.Canonical) {frames objs} : (s.placeMoved frames objs).Canonical := by
  refine State.Canonical.foldl _ h fun t o ht => ?_
  split
  · exact ht
  · extract_lets t1 t2
    have h2 : t2.Canonical := by
      refine .foldl _ ht.putHeap fun u e hu => ?_
      split
      · exact hu.setKvPage
      · exact hu
    split
    · exact h2
    · exact h2

@[simp] theorem State.Canonical.resetTo (h : s.Canonical) {p} : (s.resetTo p).Canonical := ⟨Mem.wf_filter h.1, rfl⟩

@[simp] theorem State.Canonical.bootObject (h : s.Canonical) {d va typ fmt root body} :
    (s.bootObject d va typ fmt root body).Canonical := by
  unfold State.bootObject; exact .of_parts

@[simp] theorem State.Canonical.startBoot (h : s.Canonical) {d} : (s.startBoot d).Canonical := by
  unfold State.startBoot
  extract_lets sites code s1 s2 s3 l r s4 rid s5 s6
  have h1 : s1.Canonical := h
  have h2 : s2.Canonical := h1.bootObject.bootObject.bootObject.bootObject
  have h3 : s3.Canonical := h2.bootObject
  have h4 : s4.Canonical := State.Canonical.foldl _ (State.addRecord_memory.canonical h3) fun _ _ ht => ht.initCtxbuf
  have h5 : s5.Canonical := h4.startRecord
  have h6 : s6.Canonical := .foldl _ h5 fun _ _ ht => State.Canonical.clearPad (State.setCore_memory.canonical ht)
  exact State.setRec_memory.canonical h6

@[simp] theorem State.Canonical.toSafe (h : s.Canonical) : s.toSafe.Canonical := by
  unfold State.toSafe; exact .of_parts

@[simp] theorem State.Canonical.endYields (h : s.Canonical) : s.endYields.Canonical := by
  unfold State.endYields; exact .of_parts

@[simp] theorem State.Canonical.diverge (h : s.Canonical) {ms} : (s.diverge ms).Canonical := by
  unfold State.diverge; exact .of_parts

end Sys2Proof.Machine
end

section
/-! SUPPORT. Effects of the model keep the canonical form. -/

namespace Sys2Proof.Machine

/-- An effect whose parts keep the canonical form keeps it: by the rules above for its parts, and by the lemmas about the
effects and the changes of the state that stand in it. -/
theorem Op.Keeps.of_parts {α : Type} {x : Op α} (h : x.Keeps := by
    repeat' first
      | intro _
      | with_reducible apply Op.Keeps.pure
      | with_reducible apply Op.Keeps.raise_bind
      | with_reducible apply Op.Keeps.illegal_bind
      | with_reducible apply Op.Keeps.waitHere_bind
      | with_reducible apply Op.Keeps.waitKeep_bind
      | with_reducible apply Op.Keeps.stutter_bind
      | with_reducible apply Op.Keeps.throw_bind
      | with_reducible apply Op.Keeps.get_bind
      | with_reducible apply Op.Keeps.bind
      | with_reducible apply Op.Keeps.ite
      | with_reducible apply Op.Keeps.set
      | with_reducible apply Op.Keeps.modify
      | with_reducible apply Op.Keeps.forIn
      | with_reducible apply Op.Keeps.mapM
      | with_reducible apply Op.Keeps.raise
      | with_reducible apply Op.Keeps.illegal
      | with_reducible apply Op.Keeps.waitHere
      | with_reducible apply Op.Keeps.waitKeep
      | with_reducible apply Op.Keeps.stutter
      | with_reducible apply Op.Keeps.throw
      | with_reducible apply Op.Keeps.atSite
      | with_reducible apply Op.Keeps.whole
      | with_reducible apply Op.Keeps.tryRun
      | with_reducible apply Op.Keeps.orNone
      | with_reducible apply Op.Keeps.attempt
      | with_reducible apply Op.Keeps.tryAsk
      | with_reducible apply Op.Keeps.keepTrying
      | (with_reducible apply State.Canonical.self; exact State.Canonical.of_parts)
      | split
      | dsimp only
      | simp [*]) : x.Keeps := h

end Sys2Proof.Machine
end

section
/-! SUPPORT. Each effect keeps the canonical form, in the order of the model: the parts that several instructions and events share
stand before them. -/

set_option Elab.async false

namespace Sys2Proof.Machine

section
variable {s t : State}

/-! Passes (R154 to R161). -/

theorem State.Canonical.reserve (h : s.Canonical) {rid site level hi f t l p}
    (e : s.reserve rid site level hi f = some (t, l, p)) : t.Canonical := by
  unfold State.reserve at e
  split at e
  · obtain ⟨⟨u, va⟩, e1, e2⟩ := Option.map_eq_some_iff.1 e
    obtain ⟨rfl, -⟩ := Prod.mk.inj e2
    exact h.heapAlloc e1
  · split at e
    · cases e
    · split at e
      · cases e
      · simp only [Option.some.injEq, Prod.mk.injEq] at e
        obtain ⟨rfl, -⟩ := e
        exact State.setArea_memory.canonical h

theorem State.Canonical.gone {acc : PassAcc} (h : acc.s.Canonical) {rid site level key sites p} :
    (acc.gone rid site level key sites p).s.Canonical := State.dropHeader_memory.canonical h.patchAll

theorem State.Canonical.passCarryDown {acc : PassAcc} (h : acc.s.Canonical) {rid site level key} :
    (acc.carryDown rid site level key).s.Canonical := by
  unfold PassAcc.carryDown
  extract_lets s hd dst held
  split
  · split
    · exact State.markClean_memory.canonical (State.Canonical.carry h)
    · exact h
    · exact h
  · exact h

theorem State.Canonical.moveDown {acc a : PassAcc} (h : acc.s.Canonical) {rid site level key sites}
    (e : acc.moveDown rid site level key sites = some a) : a.s.Canonical := by
  unfold PassAcc.moveDown at e
  extract_lets s hd at e
  split at e
  · cases e
  next t l p er =>
    have ht : t.Canonical := State.Canonical.reserve h er
    extract_lets go at e
    have hgo : go.s.Canonical := State.dropHeader_memory.canonical (State.relocate_memory.canonical ht.moveInto).patchAll
    clear_value go
    split at e
    · exact Option.some.inj e ▸ hgo
    · split at e
      · exact Option.some.inj e ▸ hgo
      · cases e
      · exact Option.some.inj e ▸ h

theorem State.Canonical.disposeOne {acc : PassAcc} (h : acc.s.Canonical) {rid site level sites live key} {down : PassAcc → PassAcc}
    (hd : ∀ a, a.s.Canonical → (down a).s.Canonical) : (disposeOne rid site level sites live down acc key).s.Canonical := by
  unfold Machine.disposeOne
  extract_lets hdr acc1 acc2
  have h1 : acc1.s.Canonical := h.passCarryDown
  have h2 : acc2.s.Canonical := hd _ h1
  split
  · exact h.gone
  split
  · exact State.dropHeader_memory.canonical h
  split
  · exact h1
  split
  · exact h1
  split
  · split
    · exact h1.gone
    · exact h1
  split
  next e => exact h1.moveDown e
  split
  next e => exact h2.moveDown e
  · exact h2

theorem State.Canonical.slide (h : s.Canonical) {l cur ms out} : (slide l cur s ms out).2.1.Canonical := by
  induction l generalizing cur s ms out with
  | nil => exact h
  | cons x l ih =>
    rw [Machine.slide]
    split
    · exact ih h
    · exact ih h.moveBytes

theorem State.Canonical.passWith {acc : PassAcc} (h : acc.s.Canonical) {rid site level} {down : PassAcc → PassAcc}
    (hd : ∀ a, a.s.Canonical → (down a).s.Canonical) : (acc.passWith rid site level down).s.Canonical := by
  unfold PassAcc.passWith
  extract_lets s sites
  split
  · exact h
  next a _ =>
  extract_lets acc0 live liveBytes acc1
  have h0 : acc0.s.Canonical := h
  have h1 : acc1.s.Canonical := by
    have hf : ∀ (l : List Nat) (b : PassAcc), b.s.Canonical →
        (l.foldl (Machine.disposeOne rid site level sites live down) b).s.Canonical := by
      intro l
      induction l with
      | nil => exact fun _ hb => hb
      | cons k l ih => exact fun b hb => ih _ (hb.disposeOne hd)
    exact hf _ _ h0
  have hs := h1.slide (l := acc1.stay.reverse) (cur := a.base) (ms := []) (out := [])
  split
  next top s1 ms keys e =>
  rw [e] at hs
  split
  · exact hs
  extract_lets placed r s2
  have h2 : s2.Canonical := (State.relocate_memory.canonical (State.setArea_memory.canonical hs)).patchAll
  split
  · exact h2
  · exact State.setArea_memory.canonical h2

@[simp] theorem State.Canonical.pass (h : s.Canonical) {o rid site level} : (s.pass o rid site level).s.Canonical := by
  have hdie : ∀ a : PassAcc, a.s.Canonical → (a.passWith rid site 1 id).s.Canonical := fun a ha => ha.passWith fun _ hb => hb
  unfold State.pass
  extract_lets die cluster acc
  split
  · exact State.Canonical.passWith h fun a ha => ha.passWith hdie
  split
  · exact State.Canonical.passWith h hdie
  · exact hdie _ h
end

@[simp] theorem require_keeps {b c v} : (require b c v).Keeps := by
  unfold require; exact .of_parts

@[simp] theorem notInMiss_keeps : notInMiss.Keeps := by
  refine ⟨fun s h => ?_⟩
  unfold notInMiss
  split <;> exact h

@[simp] theorem due_keeps {b} : (due b).Keeps := by
  unfold due; exact .of_parts

@[simp] theorem dueSome_keeps {α : Type} {x : Option α} : (dueSome x).Keeps := by
  unfold dueSome; exact .of_parts

@[simp] theorem getCore_keeps : getCore.Keeps := by
  unfold getCore; exact .of_parts

@[simp] theorem getCtx_keeps : getCtx.Keeps := by
  unfold getCtx; exact .of_parts

@[simp] theorem modCore_keeps {f} : (modCore f).Keeps := by
  unfold modCore; exact .of_parts

@[simp] theorem modCtx_keeps {f} : (modCtx f).Keeps := by
  unfold modCtx; exact .of_parts

@[simp] theorem modCoreAt_keeps {n f} : (modCoreAt n f).Keeps := by
  unfold modCoreAt; exact .of_parts

@[simp] theorem modCtxAt_keeps {n x f} : (modCtxAt n x f).Keeps := by
  unfold modCtxAt; exact .of_parts

@[simp] theorem modRec_keeps {r f} : (modRec r f).Keeps := by
  unfold modRec; exact .of_parts

@[simp] theorem modTx_keeps {f} : (modTx f).Keeps := by
  unfold modTx; exact .of_parts

@[simp] theorem ownRec_keeps : ownRec.Keeps := by
  unfold ownRec; exact .of_parts

@[simp] theorem firstInLine_keeps {k} : (firstInLine k).Keeps := by
  unfold firstInLine; exact .of_parts

@[simp] theorem enterLine_keeps {k phase} : (enterLine k phase).Keeps := by
  unfold enterLine; exact .of_parts

@[simp] theorem joinLine_keeps {α : Type} {k} : (joinLine k : Op α).Keeps := by
  unfold joinLine; exact .of_parts

@[simp] theorem leaveLine_keeps {k} : (leaveLine k).Keeps := by
  unfold leaveLine; exact .of_parts

@[simp] theorem port28_keeps : port28.Keeps := by
  unfold port28; exact .of_parts

@[simp] theorem lineWord_keeps {k n block} : (lineWord k n block).Keeps := by
  unfold lineWord; exact .of_parts

@[simp] theorem port31_keeps : port31.Keeps := by
  unfold port31; exact .of_parts

@[simp] theorem rdA_keeps {r} : (rdA r).Keeps := by
  unfold rdA; exact .of_parts

@[simp] theorem wrA_keeps {r v} : (wrA r v).Keeps := by
  unfold wrA; exact .of_parts

@[simp] theorem rdP_keeps {r} : (rdP r).Keeps := by
  unfold rdP; exact .of_parts

@[simp] theorem wrP_keeps {r v} : (wrP r v).Keeps := by
  unfold wrP; exact .of_parts

@[simp] theorem wrVraw_keeps {r v} : (wrVraw r v).Keeps := by
  unfold wrVraw; exact .of_parts

@[simp] theorem wrK_keeps {r v} : (wrK r v).Keeps := by
  unfold wrK; exact .of_parts

@[simp] theorem wrW_keeps {r v} : (wrW r v).Keeps := by
  unfold wrW; exact .of_parts

@[simp] theorem jump_keeps {t} : (jump t).Keeps := by
  unfold jump; exact .of_parts

@[simp] theorem postMissTo_keeps {unit site lc kind page} : (postMissTo unit site lc kind page).Keeps := by
  unfold postMissTo; exact .of_parts

@[simp] theorem postMissAt_keeps {site ctx kind page} : (postMissAt site ctx kind page).Keeps := by
  unfold postMissAt; exact .of_parts

theorem translateFor_ask_keeps {o asid write val page} {s : State} (h : s.Canonical) :
    (translateFor.ask o asid write val s page).Keeps := by
  unfold translateFor.ask; exact .of_parts

@[simp] theorem translateFor_keeps {o asid va write val} : (translateFor o asid va write val).Keeps := by
  refine .get_bind fun s h => ?_
  have ha := @translateFor_ask_keeps o asid write val (va / 4096) s h
  exact .of_parts

@[simp] theorem translate_keeps {asid va write val} : (translate asid va write val).Keeps := by
  unfold translate; exact .of_parts

@[simp] theorem translateRange_keeps {asid va n write val} : (translateRange asid va n write val).Keeps := by
  unfold translateRange; exact .of_parts

@[simp] theorem missRange_keeps {asid va n kind} : (missRange asid va n kind).Keeps := by
  unfold missRange; exact .of_parts

@[simp] theorem padLoc_keeps {p q} : (padLoc p q).Keeps := by
  unfold padLoc; exact .of_parts

@[simp] theorem readHeaderFor_keeps {o p q x3} : (readHeaderFor o p q x3).Keeps := by
  unfold readHeaderFor; exact .of_parts

@[simp] theorem readHeader_keeps {p q l} : (readHeader p q l).Keeps := by
  unfold readHeader; exact .of_parts

@[simp] theorem locateFrom_keeps {p n q} : (locateFrom p n q).Keeps := by
  induction n generalizing q with
  | zero => unfold locateFrom; exact .of_parts
  | succ n ih => unfold locateFrom; exact .of_parts

@[simp] theorem locate_keeps {p} : (locate p).Keeps := by
  unfold locate; exact .of_parts

@[simp] theorem worldCheck_keeps {p l} : (worldCheck p l).Keeps := by
  unfold worldCheck; exact .of_parts

@[simp] theorem poisonCheck_keeps {p l} : (poisonCheck p l).Keeps := by
  unfold poisonCheck; exact .of_parts

@[simp] theorem named_keeps {p} : (named p).Keeps := by
  unfold named; exact .of_parts

@[simp] theorem scree_keeps {level} : (scree level).Keeps := by
  unfold scree; exact .of_parts

@[simp] theorem needRoom_keeps {level f entry} : (needRoom level f entry).Keeps := by
  unfold needRoom; exact .of_parts

theorem withRoom_keeps {α : Type} {f : Op α} (hf : f.Keeps) {n passed} : (withRoom f n passed).Keeps := by
  refine ⟨fun s h => ?_⟩
  induction n generalizing s passed with
  | zero =>
    have hs := hf.run s h
    unfold withRoom
    split
    next e => rwa [e] at hs
    · exact hs
  | succ n ih =>
    have hs := hf.run s h
    unfold withRoom
    split
    next level _ _ e =>
      rw [e] at hs
      have hp := (scree_keeps (level := level)).run s h
      dsimp only
      split
      · exact hs
      · split
        next u e =>
          rw [e] at hp
          exact ih u hp
        next e => rwa [e] at hp
    · exact hs

@[simp] theorem takeRoom_keeps {rid site level f} : (takeRoom rid site level f).Keeps := by
  unfold takeRoom; exact .of_parts

@[simp] theorem nearestFrom_keeps {p top canon home} : (nearestFrom p top canon home).Keeps := by
  unfold nearestFrom; exact .of_parts

@[simp] theorem awaitReds_keeps {l off n} : (awaitReds l off n).Keeps := by
  unfold awaitReds; exact .of_parts

@[simp] theorem ownWrites_keeps {l} : (ownWrites l).Keeps := by
  unfold ownWrites; exact .of_parts

@[simp] theorem ownPosts_keeps {l} : (ownPosts l).Keeps := by
  unfold ownPosts; exact .of_parts

@[simp] theorem makeCopy_keeps {level canon src} : (makeCopy level canon src).Keeps := by
  unfold makeCopy; exact .of_parts

@[simp] theorem setPointer_keeps {r p h} : (setPointer r p h).Keeps := by
  unfold setPointer; exact .of_parts

@[simp] theorem touchFar_keeps {r p} : (touchFar r p).Keeps := by
  unfold touchFar; exact .of_parts

@[simp] theorem touch_keeps {r} : (touch r).Keeps := by
  unfold touch; exact .of_parts

@[simp] theorem touchBody_keeps {r off} : (touchBody r off).Keeps := by
  unfold touchBody; exact .of_parts

@[simp] theorem shadowOf_keeps {r} : (shadowOf r).Keeps := by
  unfold shadowOf; exact .of_parts

@[simp] theorem boundsCheck_keeps {off n len} : (boundsCheck off n len).Keeps := by
  unfold boundsCheck; exact .of_parts

@[simp] theorem waitAccesses_keeps : waitAccesses.Keeps := by
  unfold waitAccesses; exact .of_parts

@[simp] theorem setFenceAt_keeps {site ctx bit} : (setFenceAt site ctx bit).Keeps := by
  unfold setFenceAt; exact .of_parts

@[simp] theorem setFence_keeps {bit} : (setFence bit).Keeps := by
  unfold setFence; exact .of_parts

@[simp] theorem translateDirty_keeps {src n dst val} : (translateDirty src n dst val).Keeps := by
  unfold translateDirty; exact .of_parts

@[simp] theorem carryTo_keeps {src n dst} : (carryTo src n dst).Keeps := by
  unfold carryTo; exact .of_parts

@[simp] theorem releaseTarget_keeps {p scope canon home} : (releaseTarget p scope canon home).Keeps := by
  unfold releaseTarget; exact .of_parts

@[simp] theorem writeBack_keeps {p canon home v} : (writeBack p canon home v).Keeps := by
  unfold writeBack; exact .of_parts

@[simp] theorem pushEntry_keeps {scope e} : (pushEntry scope e).Keeps := by
  unfold pushEntry; exact .of_parts

@[simp] theorem cumulativePush_keeps {scope} : (cumulativePush scope).Keeps := by
  unfold cumulativePush; exact .of_parts

@[simp] theorem noteWatch_keeps {canon} : (noteWatch canon).Keeps := by
  unfold noteWatch; exact .of_parts

@[simp] theorem releaseObj_keeps {p scope canon home} : (releaseObj p scope canon home).Keeps := by
  unfold releaseObj; exact .of_parts

@[simp] theorem promote_keeps {p level total key} : (promote p level total key).Keeps := by
  unfold promote
  refine .get_bind fun s h => ?_
  dsimp only
  split
  · exact .raise _ _
  next t l q e =>
    have ht : t.Canonical := h.reserve e
    have mark : ∀ {u : State} {k hd a b}, u.Canonical → ({ u with mem := u.mem.setHdr k hd }.markClean a b).Canonical :=
      fun hu => State.markClean_memory.canonical (hu.withMem (Mem.wf_setHdr hu.1))
    have moved :
        ∀ {r rid site k hd ms sites ns}, ((({ t with pageReqs := r }.moveInto rid site level k l).setHdr l hd).relocate rid ms
        |>.patchAll rid sites ns).Canonical :=
      fun {r} {_} {_} {_} {_} {_} {_} {_} => (State.relocate_memory.canonical (State.Canonical.moveInto (s := { t with pageReqs := r }) ht).setHdr).patchAll
    split
    · exact .bind translateRange_keeps fun _ => .get_bind fun _ _ => .bind (.set (mark moved)) fun _ => .pure _
    · exact .get_bind fun _ _ => .bind (.set (mark moved)) fun _ => .pure _

@[simp] theorem awaitPage_keeps {asid va} : (awaitPage asid va).Keeps := by
  unfold awaitPage; exact .of_parts

@[simp] theorem forgetRefused_keeps : forgetRefused.Keeps := by
  unfold forgetRefused; exact .of_parts

@[simp] theorem escape_keeps {p scope canon home} : (escape p scope canon home).Keeps := by
  unfold escape; exact .of_parts

@[simp] theorem escapeReg_keeps {r scope} : (escapeReg r scope).Keeps := by
  unfold escapeReg; exact .of_parts

@[simp] theorem releaseAll_keeps {scope} : (releaseAll scope).Keeps := by
  unfold releaseAll; exact .of_parts

@[simp] theorem enterAcquired_keeps {canon level} : (enterAcquired canon level).Keeps := by
  unfold enterAcquired; exact .of_parts

@[simp] theorem acquireObj_keeps {p scope canon home} : (acquireObj p scope canon home).Keeps := by
  unfold acquireObj; exact .of_parts

@[simp] theorem atomicCopy_keeps {r scope big} : (atomicCopy r scope big).Keeps := by
  unfold atomicCopy; exact .of_parts

@[simp] theorem syncCopy_keeps {r scope n ok} : (syncCopy r scope n ok).Keeps := by
  unfold syncCopy; exact .of_parts

@[simp] theorem translateSpan_keeps {o asid va x write val} : (translateSpan o asid va x write val).Keeps := by
  unfold translateSpan; exact .of_parts

@[simp] theorem translateRead_keeps {o reader l off n val} : (translateRead o reader l off n val).Keeps := by
  unfold translateRead; exact .of_parts

@[simp] theorem takeSlot_keeps {p v cap i} : (takeSlot p v cap i).Keeps := by
  unfold takeSlot; exact .of_parts

@[simp] theorem readyDests_keeps {ds} : (readyDests ds).Keeps := by
  unfold readyDests; exact .of_parts

@[simp] theorem port29_keeps : port29.Keeps := by
  unfold port29; exact .of_parts

@[simp] theorem port30_keeps : port30.Keeps := by
  have slot : ∀ {p v cap n}, Op.Keeps (do
      let x ← takeSlot p v cap n
      modTx fun t => { t with pops30 := t.pops30 + 1, deque := some v }
      return x) := .bind takeSlot_keeps fun _ => .of_parts
  refine .get_bind fun s _ => ?_
  have pop : ∀ {p : Word}, Op.Keeps (do
      let v ← syncCopy (bitsOf s.tx.bind 17 4) (levelScope (ptrLevel p)) 32 dequeOk
      let s ← get
      if s.dqAhead v + s.tx.pops30 < s.dqCount v then
        let x ← takeSlot p v ((dqCap (s.hdr v).len).getD 2) (s.dqBottom v + 2 ^ 32 - 1 - s.tx.pops30)
        modTx fun t => { t with pops30 := t.pops30 + 1, deque := some v }
        return x
      else if !s.tx.nonBlocking 34 then joinLine (.deque v)
      else return 0) := .bind syncCopy_keeps fun v => .get_bind fun _ _ => .ite slot .of_parts
  dsimp only
  refine .ite (.raise_bind _ _ _) (.bind rdA_keeps fun a => .ite (.raise_bind _ _ _) pop)

@[simp] theorem rdS_keeps {r} : (rdS r).Keeps := by
  unfold rdS; exact .of_parts

@[simp] theorem sendRoom_keeps : sendRoom.Keeps := by
  unfold sendRoom; exact .of_parts

@[simp] theorem wrS_keeps {d v} : (wrS d v).Keeps := by
  unfold wrS; exact .of_parts

@[simp] theorem wrNat_keeps {d n} : (wrNat d n).Keeps := by
  unfold wrNat; exact .of_parts

@[simp] theorem alu2_keeps {f d a b} : (alu2 f d a b).Keeps := by
  unfold alu2; exact .of_parts

@[simp] theorem alu1_keeps {f d a} : (alu1 f d a).Keeps := by
  unfold alu1; exact .of_parts

@[simp] theorem immField_keeps {i} : (immField i).Keeps := by
  unfold immField; exact .of_parts

@[simp] theorem immSigned_keeps {i} : (immSigned i).Keeps := by
  unfold immSigned; exact .of_parts

@[simp] theorem immUnsigned_keeps {i} : (immUnsigned i).Keeps := by
  unfold immUnsigned; exact .of_parts

@[simp] theorem aluImm_keeps {f signed d a i} : (aluImm f signed d a i).Keeps := by
  unfold aluImm; exact .of_parts

@[simp] theorem aluShift_keeps {f d a s h} : (aluShift f d a s h).Keeps := by
  unfold aluShift; exact .of_parts

@[simp] theorem selBody_keeps {d a b c} : (selBody d a b c).Keeps := by
  unfold selBody; exact .of_parts

@[simp] theorem transfer_keeps {t} : (transfer t).Keeps := by
  unfold transfer; exact .of_parts

@[simp] theorem branch_keeps {test a b o} : (branch test a b o).Keeps := by
  unfold branch; exact .of_parts

@[simp] theorem setCr_keeps {n v} : (setCr n v).Keeps := by
  unfold setCr; exact .of_parts

@[simp] theorem crPermit_keeps {n write} : (crPermit n write).Keeps := by
  unfold crPermit; exact .of_parts

@[simp] theorem crUpdate_keeps {merge d a n} : (crUpdate merge d a n).Keeps := by
  unfold crUpdate; exact .of_parts

@[simp] theorem parkChecks_keeps {f n} : (parkChecks f n).Keeps := by
  unfold parkChecks; exact .of_parts

@[simp] theorem leaveWith_keeps {d} : (leaveWith d).Keeps := by
  unfold leaveWith; exact .of_parts

@[simp] theorem tuftLeave_keeps {d a} : (tuftLeave d a).Keeps := by
  unfold tuftLeave; exact .of_parts

@[simp] theorem tuftBody_keeps {d a} : (tuftBody d a).Keeps := by
  unfold tuftBody; exact .of_parts

@[simp] theorem noteFp_keeps {flags draws} : (noteFp flags draws).Keeps := by
  unfold noteFp; exact .of_parts

@[simp] theorem setStream_keeps {k x} : (setStream k x).Keeps := by
  unfold setStream; exact .of_parts

@[simp] theorem illegalWord_keeps {α : Type}  : (illegalWord : Op α).Keeps := by
  unfold illegalWord; exact .of_parts

@[simp] theorem rdV_keeps {r} : (rdV r).Keeps := by
  unfold rdV; exact .of_parts

@[simp] theorem checkVd_keeps {r} : (checkVd r).Keeps := by
  unfold checkVd; exact .of_parts

@[simp] theorem pushPiece_keeps {k v} : (pushPiece k v).Keeps := by
  unfold pushPiece; exact .of_parts

@[simp] theorem wrV_keeps {r v} : (wrV r v).Keeps := by
  unfold wrV; exact .of_parts

@[simp] theorem oldV_keeps {r} : (oldV r).Keeps := by
  unfold oldV; exact .of_parts

@[simp] theorem noStream_keeps {r} : (noStream r).Keeps := by
  unfold noStream; exact .of_parts

@[simp] theorem wrVfp_keeps {d p w n mode f} : (wrVfp d p w n mode f).Keeps := by
  unfold wrVfp; exact .of_parts

@[simp] theorem fnX_keeps : fnX.Keeps := by
  unfold fnX; exact .of_parts

@[simp] theorem fnMode_keeps : fnMode.Keeps := by
  unfold fnMode; exact .of_parts

@[simp] theorem allowed_keeps {typ k} : (allowed typ k).Keeps := by
  unfold allowed; exact .of_parts

@[simp] theorem dispField_keeps {i} : (dispField i).Keeps := by
  unfold dispField; exact .of_parts

@[simp] theorem accessOffset_keeps {r x i n} : (accessOffset r x i n).Keeps := by
  unfold accessOffset; exact .of_parts

@[simp] theorem accessChecks_keeps {r l kind size off} : (accessChecks r l kind size off).Keeps := by
  unfold accessChecks; exact .of_parts

@[simp] theorem remember_keeps {l off p} : (remember l off p).Keeps := by
  unfold remember; exact .of_parts

@[simp] theorem setCursor_keeps {d a k} : (setCursor d a k).Keeps := by
  unfold setCursor; exact .of_parts

@[simp] theorem rootBody_keeps {a on} : (rootBody a on).Keeps := by
  unfold rootBody; exact .of_parts

@[simp] theorem scopeTarget_keeps {a kind} : (scopeTarget a kind).Keeps := by
  unfold scopeTarget; exact .of_parts

@[simp] theorem copyInto_keeps {canon0} : (copyInto canon0).Keeps := by
  unfold copyInto; exact .of_parts

@[simp] theorem copyInBody_keeps {k} : (copyInBody k).Keeps := by
  refine ⟨fun s h => ?_⟩
  unfold copyInBody
  split
  · exact h
  next c _ =>
    extract_lets core s0 back
    have h0 : s0.Canonical := h
    have hback : ∀ t : State, t.Canonical → (back t).Canonical := fun _ ht => ht
    have hr := (withRoom_keeps (copyInto_keeps (canon0 := c.canon)) (n := 3) (passed := [])).run s0 h0
    split
    next e =>
      rw [e] at hr
      exact hback _ hr
    · exact h
    next e =>
      rw [e] at hr
      exact hback _ hr
    · exact hback _ h0

@[simp] theorem heapObject_keeps {a} : (heapObject a).Keeps := by
  unfold heapObject; exact .of_parts

@[simp] theorem heapAccess_keeps {a b size kind} : (heapAccess a b size kind).Keeps := by
  unfold heapAccess; exact .of_parts

@[simp] theorem hwrPerformedBody_keeps {core} : (hwrPerformedBody core).Keeps := by
  unfold hwrPerformedBody; exact .of_parts

@[simp] theorem cpostBody_keeps {d a b c} : (cpostBody d a b c).Keeps := by
  unfold cpostBody; exact .of_parts

@[simp] theorem cpostCompleteBody_keeps {k} : (cpostCompleteBody k).Keeps := by
  unfold cpostCompleteBody; exact .of_parts

@[simp] theorem reportFault_keeps {p} : (reportFault p).Keeps := by
  unfold reportFault; exact .of_parts

@[simp] theorem pageAnswerBody_keeps {k ans} : (pageAnswerBody k ans).Keeps := by
  unfold pageAnswerBody; exact .of_parts

@[simp] theorem atsInvalidationBody_keeps {asid page count} : (atsInvalidationBody asid page count).Keeps := by
  unfold atsInvalidationBody; exact .of_parts

@[simp] theorem tierPoolRecallBody_keeps {asid page} : (tierPoolRecallBody asid page).Keeps := by
  unfold tierPoolRecallBody; exact .of_parts

@[simp] theorem atomicTarget_keeps {a scope k fits} : (atomicTarget a scope k fits).Keeps := by
  unfold atomicTarget; exact .of_parts

@[simp] theorem pathUpdate_keeps {t bs} : (pathUpdate t bs).Keeps := by
  refine .get_bind fun _ _ => .bind (.forIn _ _ fun c _ => .bind (.modify fun s h => ?_) fun _ => .pure _) fun _ => .pure _
  split
  · exact State.markClean_memory.canonical (h.withMem (Mem.wf_setBytes h.1))
  · refine h.withMem (Mem.wf_foldl _ (fun m b w => ?_) _ h.1)
    split
    · exact w
    · exact Mem.wf_set w

@[simp] theorem atomicStep_keeps {t f path} : (atomicStep t f path).Keeps := by
  unfold atomicStep; exact .of_parts

@[simp] theorem atomicScope_keeps {sc} : (atomicScope sc).Keeps := by
  unfold atomicScope; exact .of_parts

@[simp] theorem reductionBody_keeps {k} : (reductionBody k).Keeps := by
  unfold reductionBody; exact .of_parts

@[simp] theorem palbelBody_keeps {q} : (palbelBody q).Keeps := by
  unfold palbelBody; exact .of_parts

@[simp] theorem evTarget_keeps {t} : (evTarget t).Keeps := by
  unfold evTarget; exact .of_parts

@[simp] theorem barrierCopy_keeps {a sc} : (barrierCopy a sc).Keeps := by
  unfold barrierCopy; exact .of_parts

@[simp] theorem reportOverrun_keeps {v} : (reportOverrun v).Keeps := by
  unfold reportOverrun; exact .of_parts

@[simp] theorem refreshClean_keeps {scope} : (refreshClean scope).Keeps := by
  unfold refreshClean; exact .of_parts

@[simp] theorem dequeCopy_keeps {a sc} : (dequeCopy a sc).Keeps := by
  unfold dequeCopy; exact .of_parts

@[simp] theorem superstepBody_keeps {k} : (superstepBody k).Keeps := by
  unfold superstepBody; exact .of_parts

@[simp] theorem vec2_keeps {f d a b p e} : (vec2 f d a b p e).Keeps := by
  unfold vec2; exact .of_parts

@[simp] theorem vec1_keeps {f d a p e} : (vec1 f d a p e).Keeps := by
  unfold vec1; exact .of_parts

@[simp] theorem fvec_keeps {g d a b p e} : (fvec g d a b p e).Keeps := by
  unfold fvec; exact .of_parts

@[simp] theorem signVec_keeps {g d a p e} : (signVec g d a p e).Keeps := by
  unfold signVec; exact .of_parts

@[simp] theorem predOp_keeps {f d a b} : (predOp f d a b).Keeps := by
  unfold predOp; exact .of_parts

@[simp] theorem reduction_keeps {kind d a p e} : (reduction kind d a p e).Keeps := by
  unfold reduction; exact .of_parts

@[simp] theorem dispVm_keeps {i} : (dispVm i).Keeps := by
  unfold dispVm; exact .of_parts

@[simp] theorem vecChecks_keeps {l sh load b offs} : (vecChecks l sh load b offs).Keeps := by
  unfold vecChecks; exact .of_parts

@[simp] theorem vecAccess_keeps {p q w load n off} : (vecAccess p q w load n off).Keeps := by
  unfold vecAccess; exact .of_parts

@[simp] theorem contiguous_keeps {p x i w} : (contiguous p x i w).Keeps := by
  unfold contiguous; exact .of_parts

@[simp] theorem indexed_keeps {p x i w} : (indexed p x i w).Keeps := by
  unfold indexed; exact .of_parts

@[simp] theorem vecLoad_keeps {v w l offs} : (vecLoad v w l offs).Keeps := by
  unfold vecLoad; exact .of_parts

@[simp] theorem vecStore_keeps {p val w l offs} : (vecStore p val w l offs).Keeps := by
  unfold vecStore; exact .of_parts

@[simp] theorem specialVec_keeps {fn d a p e} : (specialVec fn d a p e).Keeps := by
  unfold specialVec; exact .of_parts

@[simp] theorem engNamed_keeps {ctx p} : (engNamed ctx p).Keeps := by
  unfold engNamed; exact .of_parts

@[simp] theorem engHome_keeps {o ctx p} : (engHome o ctx p).Keeps := by
  unfold engHome; exact .of_parts

@[simp] theorem pushPointer_keeps {p} : (pushPointer p).Keeps := by
  unfold pushPointer; exact .of_parts

@[simp] theorem engCopy_keeps {o ctx p} : (engCopy o ctx p).Keeps := by
  unfold engCopy; exact .of_parts

@[simp] theorem engTranslate_keeps {o l off n write} : (engTranslate o l off n write).Keeps := by
  unfold engTranslate; exact .of_parts

@[simp] theorem engMissPages_keeps {ctx kind asid pages} : (engMissPages ctx kind asid pages).Keeps := by
  unfold engMissPages; exact .of_parts

@[simp] theorem engMiss_keeps {ctx kind l off n} : (engMiss ctx kind l off n).Keeps := by
  unfold engMiss; exact .of_parts

@[simp] theorem pushBarrier_keeps {p scope} : (pushBarrier p scope).Keeps := by
  unfold pushBarrier; exact .of_parts

@[simp] theorem freeBit_keeps : freeBit.Keeps := by
  unfold freeBit; exact .of_parts

@[simp] theorem pick_keeps {α : Type} {d : α} {l} : (pick d l).Keeps := by
  induction l with
  | nil => exact .pure _
  | cons x l ih =>
    cases l with
    | nil => exact .pure _
    | cons y l => unfold pick; exact .of_parts

@[simp] theorem raceBytes_keeps {m l off n} : (raceBytes m l off n).Keeps := by
  unfold raceBytes; exact .of_parts

@[simp] theorem raceElems_keeps {m l fmt e} : (raceElems m l fmt e).Keeps := by
  unfold raceElems; exact .of_parts

@[simp] theorem raceElem_keeps {m l fmt e} : (raceElem m l fmt e).Keeps := by
  unfold raceElem; exact .of_parts

@[simp] theorem acquireDests_keeps {ds} : (acquireDests ds).Keeps := by
  unfold acquireDests; exact .of_parts

@[simp] theorem kAccess_keeps {a b} : (kAccess a b).Keeps := by
  unfold kAccess; exact .of_parts

@[simp] theorem tileIndex_keeps {b limit} : (tileIndex b limit).Keeps := by
  unfold tileIndex; exact .of_parts

@[simp] theorem awaitTile_keeps {t} : (awaitTile t).Keeps := by
  unfold awaitTile; exact .of_parts

@[simp] theorem modCmd_keeps {i f} : (modCmd i f).Keeps := by
  unfold modCmd; exact .of_parts

theorem State.Canonical.postRecord {s t : State} (h : s.Canonical) {site ctx word dests}
    (e : s.postRecord site ctx word dests = some t) : t.Canonical := by
  unfold State.postRecord at e
  dsimp only at e
  split at e
  · exact Option.some.inj e ▸ h
  · cases e

@[simp] theorem haltCmd_keeps {i code} : (haltCmd i code).Keeps := by
  unfold haltCmd
  refine .get_bind fun s h => ?_
  dsimp only
  split
  · exact .pure _
  · split
    · split
      next e =>
        have ht := h.postRecord e
        exact .of_parts
      · exact .of_parts
    · exact .of_parts

@[simp] theorem checkRuns_keeps {o k side l} : (checkRuns o k side l).Keeps := by
  unfold checkRuns; exact .of_parts

@[simp] theorem checkOperand_keeps {o m side} : (checkOperand o m side).Keeps := by
  unfold checkOperand; exact .of_parts

@[simp] theorem missOperand_keeps {m side l} : (missOperand m side l).Keeps := by
  unfold missOperand; exact .of_parts

@[simp] theorem startChecks_keeps {i} : (startChecks i).Keeps := by
  unfold startChecks; exact .of_parts

@[simp] theorem tileJobDispatchBody_keeps {cl u core} : (tileJobDispatchBody cl u core).Keeps := by
  unfold tileJobDispatchBody; exact .of_parts

@[simp] theorem readTerms_keeps {m l a0 b0 side idx k0 k1} : (readTerms m l a0 b0 side idx k0 k1).Keeps := by
  unfold readTerms; exact .of_parts

@[simp] theorem pickTerms_keeps {ts} : (pickTerms ts).Keeps := by
  unfold pickTerms; exact .of_parts

@[simp] theorem blockTerms_keeps {i m l a0 b0 side idx k0 k1} : (blockTerms i m l a0 b0 side idx k0 k1).Keeps := by
  unfold blockTerms; exact .of_parts

@[simp] theorem matStep_keeps {i j} : (matStep i j).Keeps := by
  unfold matStep; exact .of_parts

@[simp] theorem accStep_keeps {i j} : (accStep i j).Keeps := by
  unfold accStep; exact .of_parts

@[simp] theorem dotBlock_keeps {m la lb fmt terms} : (dotBlock m la lb fmt terms).Keeps := by
  unfold dotBlock; exact .of_parts

@[simp] theorem polyStep_keeps {i j} : (polyStep i j).Keeps := by
  unfold polyStep; exact .of_parts

theorem jobBody_keeps {op cl u step} (h : ∀ i j, (step i j).Keeps) : (jobBody op cl u step).Keeps := by
  unfold jobBody; exact .of_parts

theorem dueSome_bind_keeps {α β : Type} {x : Option α} {f : α → Op β} (h : ∀ a, x = some a → (f a).Keeps) :
    Op.Keeps (dueSome x >>= f) := by
  cases x with
  | none => exact .stutter_bind _
  | some a => exact h a rfl

@[simp] theorem commandCompleteBody_keeps {core} : (commandCompleteBody core).Keeps := by
  refine .atSite _ (.get_bind fun s h => ?_)
  dsimp only
  split
  · exact dueSome_bind_keeps fun t e => .bind (.set (h.postRecord e)) fun _ => .of_parts
  · refine .bind .of_parts fun (m, i) => ?_
    have done : ∀ {t : State}, t.Canonical → State.Canonical (match m.barrier with
        | some v => ((m.erefs.foldl State.erefDown t).barCredit v m.bytes).barPendingDown v
        | none => m.erefs.foldl State.erefDown t) := by
      intro t ht
      have hf : (m.erefs.foldl State.erefDown t).Canonical := .foldl _ ht fun _ _ hu => hu.erefDown
      split
      · exact hf.barCredit.barPendingDown
      · exact hf
    dsimp only
    split
    · exact dueSome_bind_keeps fun t e => .bind (.set (done (h.postRecord e))) fun _ => .of_parts
    · exact .pure_bind (.bind (.set (done h)) fun _ => .of_parts)

@[simp] theorem rdPacked_keeps {r} : (rdPacked r).Keeps := by
  unfold rdPacked; exact .of_parts

@[simp] theorem packedProduct_keeps {a b d} : (packedProduct a b d).Keeps := by
  unfold packedProduct; exact .of_parts

@[simp] theorem boundsAt_keeps {x} : (boundsAt x).Keeps := by
  unfold boundsAt; exact .of_parts

@[simp] theorem copyPlace_keeps {k p} : (copyPlace k p).Keeps := by
  unfold copyPlace; exact .of_parts

@[simp] theorem copyChecks_keeps {k} : (copyChecks k).Keeps := by
  unfold copyChecks; exact .of_parts

@[simp] theorem copiesInFlight_keeps : copiesInFlight.Keeps := by
  unfold copiesInFlight; exact .of_parts

@[simp] theorem copyBarrier_keeps {k} : (copyBarrier k).Keeps := by
  unfold copyBarrier; exact .of_parts

@[simp] theorem queueCopy_keeps {k bar} : (queueCopy k bar).Keeps := by
  unfold queueCopy; exact .of_parts

@[simp] theorem awaitEntry_keeps : awaitEntry.Keeps := by
  unfold awaitEntry; exact .of_parts

@[simp] theorem cppageBody_keeps {d a b rec} : (cppageBody d a b rec).Keeps := by
  unfold cppageBody; exact .of_parts

@[simp] theorem modCopy_keeps {i f} : (modCopy i f).Keeps := by
  unfold modCopy; exact .of_parts

@[simp] theorem readPiece_keeps {m l size xs} : (readPiece m l size xs).Keeps := by
  induction xs with
  | nil => exact .pure _
  | cons x xs ih => unfold readPiece; exact .of_parts

@[simp] theorem missPiece_keeps {m l elems} : (missPiece m l elems).Keeps := by
  unfold missPiece; exact .of_parts

@[simp] theorem fetchPiece_keeps {i p} : (fetchPiece i p).Keeps := by
  unfold fetchPiece; exact .of_parts

@[simp] theorem drainBuf_keeps {i} : (drainBuf i).Keeps := by
  unfold drainBuf; exact .of_parts

theorem copyStep_keeps {op core e fetch} (h : ∀ m, (fetch m).Keeps) : (copyStep op core e fetch).Keeps := by
  unfold copyStep; exact .of_parts

@[simp] theorem gatherIndex_keeps {m i} : (gatherIndex m i).Keeps := by
  unfold gatherIndex; exact .of_parts

@[simp] theorem pageDone_keeps {e} : (pageDone e).Keeps := by
  unfold pageDone; exact .of_parts

@[simp] theorem copyCompleteBody_keeps {core e} : (copyCompleteBody core e).Keeps := by
  refine .get_bind fun _ _ => .bind .of_parts fun m => .bind .of_parts fun _ => .get_bind fun s h => ?_
  have done : ∀ {t : State}, t.Canonical → State.Canonical (match m.barrier with
      | some v => (if m.stop.isNone then (m.erefs.foldl State.erefDown t).barCredit v m.bytes
          else m.erefs.foldl State.erefDown t).barPendingDown v
      | none => m.erefs.foldl State.erefDown t) := by
    intro t ht
    have hf : (m.erefs.foldl State.erefDown t).Canonical := .foldl _ ht fun _ _ hu => hu.erefDown
    split
    · split
      · exact hf.barCredit.barPendingDown
      · exact hf.barPendingDown
    · exact hf
  dsimp only
  split
  · exact dueSome_bind_keeps fun t e => .bind (.set (done (h.postRecord e))) fun _ => .of_parts
  · exact .pure_bind (.bind (.set (done h)) fun _ => .of_parts)

@[simp] theorem bufPages_keeps {l} : (bufPages l).Keeps := by
  unfold bufPages; exact .of_parts

@[simp] theorem msgControl_keeps {c} : (msgControl c).Keeps := by
  unfold msgControl; exact .of_parts

@[simp] theorem msgDescriptor_keeps {b multi} : (msgDescriptor b multi).Keeps := by
  unfold msgDescriptor; exact .of_parts

@[simp] theorem sendBody_keeps {a b c multi} : (sendBody a b c multi).Keeps := by
  unfold sendBody; exact .of_parts

@[simp] theorem dropFlit_keeps {k} : (dropFlit k).Keeps := by
  unfold dropFlit; exact .of_parts

@[simp] theorem modSender_keeps {f g} : (modSender f g).Keeps := by
  unfold modSender; exact .of_parts

@[simp] theorem fenceOf_keeps {f bit} : (fenceOf f bit).Keeps := by
  unfold fenceOf; exact .of_parts

@[simp] theorem refuseFlit_keeps {k f bit} : (refuseFlit k f bit).Keeps := by
  unfold refuseFlit; exact .of_parts

@[simp] theorem enqueue_keeps {site m} : (enqueue site m).Keeps := by
  unfold enqueue; exact .of_parts

@[simp] theorem holdBack_keeps {k f} : (holdBack k f).Keeps := by
  unfold holdBack; exact .of_parts

@[simp] theorem deliverTo_keeps {k f rid} : (deliverTo k f rid).Keeps := by
  unfold deliverTo; exact .of_parts

@[simp] theorem deliverSite_keeps {k f site} : (deliverSite k f site).Keeps := by
  unfold deliverSite; exact .of_parts

@[simp] theorem messageDeliveryBody_keeps {k} : (messageDeliveryBody k).Keeps := by
  unfold messageDeliveryBody; exact .of_parts

@[simp] theorem messageTimeoutBody_keeps {k} : (messageTimeoutBody k).Keeps := by
  unfold messageTimeoutBody; exact .of_parts

@[simp] theorem putTarget_keeps {f} : (putTarget f).Keeps := by
  unfold putTarget; exact .of_parts

@[simp] theorem putMiss_keeps {f l} : (putMiss f l).Keeps := by
  unfold putMiss; exact .of_parts

@[simp] theorem performPut_keeps {k f} : (performPut k f).Keeps := by
  unfold performPut; exact .of_parts

@[simp] theorem putPerformedBody_keeps {k} : (putPerformedBody k).Keeps := by
  unfold putPerformedBody; exact .of_parts

@[simp] theorem refillBody_keeps {site} : (refillBody site).Keeps := by
  unfold refillBody; exact .of_parts

@[simp] theorem savePages_keeps {l off n write} : (savePages l off n write).Keeps := by
  unfold savePages; exact .of_parts

@[simp] theorem resumeBody_keeps {core rid lc} : (resumeBody core rid lc).Keeps := by
  unfold resumeBody; exact .of_parts

@[simp] theorem kvGuard_keeps {inShadow} : (kvGuard inShadow).Keeps := by
  unfold kvGuard; exact .of_parts

@[simp] theorem kvTable_keeps {write} : (kvTable write).Keeps := by
  unfold kvTable; exact .of_parts

@[simp] theorem kvMe_keeps : kvMe.Keeps := by
  unfold kvMe; exact .of_parts

@[simp] theorem kvVf_keeps : kvVf.Keeps := by
  unfold kvVf; exact .of_parts

@[simp] theorem kvPageCheck_keeps {q rowq} : (kvPageCheck q rowq).Keeps := by
  unfold kvPageCheck; exact .of_parts

@[simp] theorem kvInstall_keeps {va cap i q} : (kvInstall va cap i q).Keeps := by
  unfold kvInstall; exact .of_parts

@[simp] theorem kvResult_keeps {e p} : (kvResult e p).Keeps := by
  unfold kvResult; exact .of_parts

@[simp] theorem kvLookup_keeps {p kind} : (kvLookup p kind).Keeps := by
  unfold kvLookup; exact .of_parts

@[simp] theorem kvInvalidate_keeps {d p} : (kvInvalidate d p).Keeps := by
  unfold kvInvalidate; exact .of_parts

@[simp] theorem kvSource_keeps {r n} : (kvSource r n).Keeps := by
  unfold kvSource; exact .of_parts

@[simp] theorem kvAppendAt_keeps {va cap} : (kvAppendAt va cap).Keeps := by
  unfold kvAppendAt; exact .of_parts

@[simp] theorem kvAppended_keeps {d va e k own} : (kvAppended d va e k own).Keeps := by
  unfold kvAppended; exact .of_parts

@[simp] theorem kvAppendPage_keeps {t e rowq} : (kvAppendPage t e rowq).Keeps := by
  have take :
      ∀ {s : State}, s.Canonical → ∀ vf i, ((s.takeFrame vf rowq).1.setKvPage t i (framePtr (s.takeFrame vf rowq).2)).Canonical :=
    fun h _ _ => h.takeFrame.setKvPage
  unfold kvAppendPage; exact .of_parts

@[simp] theorem kvClose_keeps {d n} : (kvClose d n).Keeps := by
  unfold kvClose; exact .of_parts

@[simp] theorem kvPublish_keeps {d a x} : (kvPublish d a x).Keeps := by
  unfold kvPublish; exact .of_parts

@[simp] theorem dropHalted_keeps : dropHalted.Keeps := by
  unfold dropHalted; exact .of_parts

@[simp] theorem haltControl_keeps : haltControl.Keeps := by
  unfold haltControl; exact .of_parts

@[simp] theorem bufsReady_keeps {l} : (bufsReady l).Keeps := by
  induction l with
  | nil => exact .pure _
  | cons x l ih => unfold bufsReady; exact .of_parts

@[simp] theorem fieldObject_keeps {o asid p} : (fieldObject o asid p).Keeps := by
  unfold fieldObject; exact .of_parts

@[simp] theorem barrierField_keeps {o asid p} : (barrierField o asid p).Keeps := by
  unfold barrierField; exact .of_parts

theorem firstBad_keeps {l : List (Nat × Op Bool)} (h : ∀ x ∈ l, x.2.Keeps) : (firstBad l).Keeps := by
  induction l with
  | nil => exact .pure _
  | cons x l ih =>
    obtain ⟨hx, hl⟩ := List.forall_mem_cons.1 h
    have := ih hl
    unfold firstBad; exact .of_parts

@[simp] theorem checkLaunch_keeps {o asid vf limit raw} : (checkLaunch o asid vf limit raw).Keeps := by
  unfold checkLaunch
  refine .get_bind fun s h => firstBad_keeps ?_
  simp only [List.forall_mem_append, List.forall_mem_cons, List.forall_mem_map, List.not_mem_nil, false_imp_iff, implies_true, and_true]
  exact ⟨⟨⟨.of_parts, .of_parts, .pure _, .pure _, .pure _, .pure _, .pure _, .pure _, .pure _, .pure _⟩, fun _ _ => barrierField_keeps⟩,
    barrierField_keeps, .pure _, .pure _, .pure _⟩

@[simp] theorem countable_keeps {o asid l} : (countable o asid l).Keeps := by
  induction l with
  | nil => exact .pure _
  | cons x l ih => unfold countable; exact .of_parts

@[simp] theorem linkFields_keeps {raw l} : (linkFields raw l).Keeps := by
  induction l generalizing raw with
  | nil => exact .pure _
  | cons x l ih => unfold linkFields; exact .of_parts

@[simp] theorem fetchOne_keeps {q} : (fetchOne q).Keeps := by
  unfold fetchOne; exact .of_parts

@[simp] theorem fetchSome_keeps {q n} : (fetchSome q n).Keeps := by
  induction n with
  | zero => exact .pure _
  | succ n ih => unfold fetchSome; exact .of_parts

@[simp] theorem fetchQueue_keeps {q} : (fetchQueue q).Keeps := by
  unfold fetchQueue; exact .of_parts

@[simp] theorem askWaits_keeps {r} : (askWaits r).Keeps := by
  unfold askWaits; exact .of_parts

@[simp] theorem askQueued_keeps {q} : (askQueued q).Keeps := by
  unfold askQueued; exact .of_parts

@[simp] theorem prepare_keeps {rid} : (prepare rid).Keeps := by
  unfold prepare; exact .of_parts

@[simp] theorem dispatchBody_keeps {q} : (dispatchBody q).Keeps := by
  unfold dispatchBody; exact .of_parts

@[simp] theorem endCarry_keeps {rid canon copies} : (endCarry rid canon copies).Keeps := by
  unfold endCarry; exact .of_parts

@[simp] theorem endObject_keeps {rid canon copies scope} : (endObject rid canon copies scope).Keeps := by
  unfold endObject; exact .of_parts

@[simp] theorem endRelease_keeps {rid} : (endRelease rid).Keeps := by
  unfold endRelease; exact .of_parts

@[simp] theorem completionPage_keeps {r} : (completionPage r).Keeps := by
  unfold completionPage; exact .of_parts

@[simp] theorem signalPages_keeps {r} : (signalPages r).Keeps := by
  unfold signalPages; exact .of_parts

@[simp] theorem abortPages_keeps {k} : (abortPages k).Keeps := by
  unfold abortPages; exact .of_parts

@[simp] theorem finishAborts_keeps {l} : (finishAborts l).Keeps := by
  induction l with
  | nil => exact .pure _
  | cons x l ih => unfold finishAborts; exact .of_parts

@[simp] theorem recordEndBody_keeps {rid} : (recordEndBody rid).Keeps := by
  unfold recordEndBody; exact .of_parts

@[simp] theorem reportOk_keeps {asid report n} : (reportOk asid report n).Keeps := by
  unfold reportOk; exact .of_parts

@[simp] theorem reportPages_keeps {asid va n} : (reportPages asid va n).Keeps := by
  unfold reportPages; exact .of_parts

@[simp] theorem whenReady_keeps : whenReady.Keeps := by
  unfold whenReady; exact .of_parts

@[simp] theorem saveOk_keeps {x} : (saveOk x).Keeps := by
  unfold saveOk; exact .of_parts

theorem mailbox_keeps {readyOnly body} (h : body.Keeps) : (mailbox readyOnly body).Keeps := by
  unfold mailbox; exact .of_parts

@[simp] theorem deadlineCommand_keeps {isVf target at_ report} : (deadlineCommand isVf target at_ report).Keeps := by
  unfold deadlineCommand; exact .of_parts

theorem writeFlash_keeps {body} (h : body.Keeps) : (writeFlash body).Keeps := by
  unfold writeFlash; exact .of_parts

@[simp] theorem askPages_keeps {asid l} : (askPages asid l).Keeps := by
  induction l with
  | nil => exact .pure _
  | cons x l ih => unfold askPages; exact .of_parts

@[simp] theorem heapPassBody_keeps {asid} : (heapPassBody asid).Keeps := by
  unfold heapPassBody; exact .of_parts

@[simp] theorem parkWords_keeps {f a} : (parkWords f a).Keeps := by
  unfold parkWords; exact .of_parts

@[simp] theorem unparkReg_keeps {f d ws sh} : (unparkReg f d ws sh).Keeps := by
  unfold unparkReg; exact .of_parts

end Sys2Proof.Machine
end

section
/-! SUPPORT. Every instruction and every event keeps the canonical form. -/

set_option Elab.async false

namespace Sys2Proof.Machine

theorem EndsCanonical.finish {s : State} {r : EStateM.Result Exit State Unit} (h : s.Canonical) (hr : EndsCanonical r) {t : State}
    (e : finish s r = .next t) : t.Canonical := by
  unfold Machine.finish at e
  split at e <;> obtain rfl := Host.Outcome.next.inj e
  · exact State.Canonical.complete hr
  · split
    · exact h.trapHere
    · exact State.Canonical.trapHere hr
  · exact State.Canonical.trapHere hr
  · exact h
  · exact hr
  · exact hr
  · exact hr
  · exact h

/-- An instruction whose effect keeps the canonical form keeps it. -/
theorem TurnKeeps.instr {f : State → Result} {i : Instr} {body : State → Op Unit} (e : ∀ s, f s = runInstr i (body s) s)
    (hb : ∀ s, s.Canonical → (body s).Keeps) : TurnKeeps f := by
  intro s t h ht
  rw [e s, runInstr] at ht
  have h0 : (s.starts i).Canonical := State.starts_memory.canonical h
  split at ht
  · exact Host.Outcome.next.inj ht ▸ h0.trapHere
  · exact ((withRoom_keeps (hb s h)).run _ h0).finish h0 ht

/-- An event whose effect keeps the canonical form keeps it. -/
theorem TurnKeeps.event {f : State → Result} {body : Op Unit} (e : ∀ s, f s = runEvent body s) (hb : body.Keeps) :
    TurnKeeps f := by
  intro s t h ht
  have hs := hb.run s h
  rw [e s, runEvent] at ht
  split at ht
  next e =>
    rw [e] at hs
    exact Host.Outcome.next.inj ht ▸ hs
  · exact Host.Outcome.next.inj ht ▸ h

theorem execWfi_keeps : TurnKeeps execWfi := .instr (fun _ => rfl) fun _ _ => .of_parts

theorem State.Canonical.retireWfi {s : State} (h : s.Canonical) {site n} : (s.retireWfi site n).Canonical := by
  unfold State.retireWfi
  dsimp only
  split
  · split
    next u e =>
      have hu : u.Canonical := execWfi_keeps _ _ (by exact h) e
      split
      · exact h
      · exact hu
    · exact h
  · exact h

@[simp] theorem State.Canonical.takeDue {s : State} (h : s.Canonical) {site} : (s.takeDue site).Canonical := by
  unfold State.takeDue
  extract_lets c s1 c1
  have h1 : s1.Canonical := by
    unfold s1
    split
    · exact h
    · exact .foldl _ h fun _ _ ht => ht.retireWfi
  clear_value s1
  split
  · exact h
  · split
    · exact h1
    · exact (State.setCore_memory.canonical h1).enterTrap

@[simp] theorem State.Canonical.raiseAt {s : State} (h : s.Canonical) {site code val} : (s.raiseAt site code val).Canonical :=
  (State.setCore_memory.canonical h).takeDue

@[simp] theorem State.Canonical.raiseAll {s : State} (h : s.Canonical) {core code val} :
    (s.raiseAll core code val).Canonical :=
  .foldl _ h fun _ _ ht => ht.raiseAt

@[simp] theorem State.Canonical.preempt {s : State} (h : s.Canonical) {core} : (s.preempt core).Canonical := by
  refine .foldl _ h fun t n ht => ?_
  split
  · exact ht
  · exact ht.raiseAt

theorem pfxBody_keeps {i p} : TurnKeeps (pfxBody i p) := by
  intro s t h e
  unfold pfxBody at e
  extract_lets s0 x here at e
  have h1 : (s0.setCtx { x with pfx := p, pc := x.pc + 4 }).Canonical := State.setCtx_memory.canonical (by exact h)
  split at e
  · exact Host.Outcome.next.inj e ▸ h1.trapHere
  split at e
  · exact Host.Outcome.next.inj e ▸ h1
  · exact Host.Outcome.next.inj e ▸ h1.trapHere
  · exact Host.Outcome.next.inj e ▸ h1.trapHere

theorem execAdd_keeps {d a b} : TurnKeeps (execAdd d a b) := .instr (fun _ => rfl) fun _ _ => .of_parts

theorem execSub_keeps {d a b} : TurnKeeps (execSub d a b) := .instr (fun _ => rfl) fun _ _ => .of_parts

theorem execAnd_keeps {d a b} : TurnKeeps (execAnd d a b) := .instr (fun _ => rfl) fun _ _ => .of_parts

theorem execOr_keeps {d a b} : TurnKeeps (execOr d a b) := .instr (fun _ => rfl) fun _ _ => .of_parts

theorem execXor_keeps {d a b} : TurnKeeps (execXor d a b) := .instr (fun _ => rfl) fun _ _ => .of_parts

theorem execSll_keeps {d a b} : TurnKeeps (execSll d a b) := .instr (fun _ => rfl) fun _ _ => .of_parts

theorem execSrl_keeps {d a b} : TurnKeeps (execSrl d a b) := .instr (fun _ => rfl) fun _ _ => .of_parts

theorem execSra_keeps {d a b} : TurnKeeps (execSra d a b) := .instr (fun _ => rfl) fun _ _ => .of_parts

theorem execSlt_keeps {d a b} : TurnKeeps (execSlt d a b) := .instr (fun _ => rfl) fun _ _ => .of_parts

theorem execSltu_keeps {d a b} : TurnKeeps (execSltu d a b) := .instr (fun _ => rfl) fun _ _ => .of_parts

theorem execMin_keeps {d a b} : TurnKeeps (execMin d a b) := .instr (fun _ => rfl) fun _ _ => .of_parts

theorem execMax_keeps {d a b} : TurnKeeps (execMax d a b) := .instr (fun _ => rfl) fun _ _ => .of_parts

theorem execMinu_keeps {d a b} : TurnKeeps (execMinu d a b) := .instr (fun _ => rfl) fun _ _ => .of_parts

theorem execMaxu_keeps {d a b} : TurnKeeps (execMaxu d a b) := .instr (fun _ => rfl) fun _ _ => .of_parts

theorem execMul_keeps {d a b} : TurnKeeps (execMul d a b) := .instr (fun _ => rfl) fun _ _ => .of_parts

theorem execMulh_keeps {d a b} : TurnKeeps (execMulh d a b) := .instr (fun _ => rfl) fun _ _ => .of_parts

theorem execMulhu_keeps {d a b} : TurnKeeps (execMulhu d a b) := .instr (fun _ => rfl) fun _ _ => .of_parts

theorem execDiv_keeps {d a b} : TurnKeeps (execDiv d a b) := .instr (fun _ => rfl) fun _ _ => .of_parts

theorem execDivu_keeps {d a b} : TurnKeeps (execDivu d a b) := .instr (fun _ => rfl) fun _ _ => .of_parts

theorem execRem_keeps {d a b} : TurnKeeps (execRem d a b) := .instr (fun _ => rfl) fun _ _ => .of_parts

theorem execRemu_keeps {d a b} : TurnKeeps (execRemu d a b) := .instr (fun _ => rfl) fun _ _ => .of_parts

theorem execClz_keeps {d a} : TurnKeeps (execClz d a) := .instr (fun _ => rfl) fun _ _ => .of_parts

theorem execCtz_keeps {d a} : TurnKeeps (execCtz d a) := .instr (fun _ => rfl) fun _ _ => .of_parts

theorem execPopc_keeps {d a} : TurnKeeps (execPopc d a) := .instr (fun _ => rfl) fun _ _ => .of_parts

theorem execSel_keeps {d a b c} : TurnKeeps (execSel d a b c) := .instr (fun _ => rfl) fun _ _ => .of_parts

theorem execAddi_keeps {d a i} : TurnKeeps (execAddi d a i) := .instr (fun _ => rfl) fun _ _ => .of_parts

theorem execAndi_keeps {d a i} : TurnKeeps (execAndi d a i) := .instr (fun _ => rfl) fun _ _ => .of_parts

theorem execOri_keeps {d a i} : TurnKeeps (execOri d a i) := .instr (fun _ => rfl) fun _ _ => .of_parts

theorem execXori_keeps {d a i} : TurnKeeps (execXori d a i) := .instr (fun _ => rfl) fun _ _ => .of_parts

theorem execSlti_keeps {d a i} : TurnKeeps (execSlti d a i) := .instr (fun _ => rfl) fun _ _ => .of_parts

theorem execSltiu_keeps {d a i} : TurnKeeps (execSltiu d a i) := .instr (fun _ => rfl) fun _ _ => .of_parts

theorem execSlli_keeps {d a sh h} : TurnKeeps (execSlli d a sh h) := .instr (fun _ => rfl) fun _ _ => .of_parts

theorem execSrli_keeps {d a sh h} : TurnKeeps (execSrli d a sh h) := .instr (fun _ => rfl) fun _ _ => .of_parts

theorem execSrai_keeps {d a sh h} : TurnKeeps (execSrai d a sh h) := .instr (fun _ => rfl) fun _ _ => .of_parts

theorem execLhi_keeps {d k i} : TurnKeeps (execLhi d k i) := .instr (fun _ => rfl) fun _ _ => .of_parts

theorem execBeq_keeps {a b o} : TurnKeeps (execBeq a b o) := .instr (fun _ => rfl) fun _ _ => .of_parts

theorem execBne_keeps {a b o} : TurnKeeps (execBne a b o) := .instr (fun _ => rfl) fun _ _ => .of_parts

theorem execBlt_keeps {a b o} : TurnKeeps (execBlt a b o) := .instr (fun _ => rfl) fun _ _ => .of_parts

theorem execBge_keeps {a b o} : TurnKeeps (execBge a b o) := .instr (fun _ => rfl) fun _ _ => .of_parts

theorem execBltu_keeps {a b o} : TurnKeeps (execBltu a b o) := .instr (fun _ => rfl) fun _ _ => .of_parts

theorem execBgeu_keeps {a b o} : TurnKeeps (execBgeu a b o) := .instr (fun _ => rfl) fun _ _ => .of_parts

theorem execJal_keeps {d o} : TurnKeeps (execJal d o) := .instr (fun _ => rfl) fun _ _ => .of_parts

theorem execJalr_keeps {d a i} : TurnKeeps (execJalr d a i) := .instr (fun _ => rfl) fun _ _ => .of_parts

theorem execShp_keeps {d a b} : TurnKeeps (execShp d a b) := .instr (fun _ => rfl) fun _ _ => .of_parts

theorem execTidx_keeps {d a k} : TurnKeeps (execTidx d a k) := .instr (fun _ => rfl) fun _ _ => .of_parts

theorem execCrd_keeps {d n} : TurnKeeps (execCrd d n) := .instr (fun _ => rfl) fun _ _ => .of_parts

theorem execCrw_keeps {d a n} : TurnKeeps (execCrw d a n) := .instr (fun _ => rfl) fun _ _ => .of_parts

theorem execCrs_keeps {d a n} : TurnKeeps (execCrs d a n) := .instr (fun _ => rfl) fun _ _ => .of_parts

theorem execCrc_keeps {d a n} : TurnKeeps (execCrc d a n) := .instr (fun _ => rfl) fun _ _ => .of_parts

theorem execPfxImm_keeps {p} : TurnKeeps (execPfxImm p) := pfxBody_keeps

theorem execPfxReg_keeps {e} : TurnKeeps (execPfxReg e) := pfxBody_keeps

theorem execPfxFn_keeps {x} : TurnKeeps (execPfxFn x) := pfxBody_keeps

theorem execHstart_keeps {d a b} : TurnKeeps (execHstart d a b) := .instr (fun _ => rfl) fun _ _ => .of_parts

theorem execHexit_keeps {a} : TurnKeeps (execHexit a) := .instr (fun _ => rfl) fun _ _ => .of_parts

theorem execHjoin_keeps {d a} : TurnKeeps (execHjoin d a) := .instr (fun _ => rfl) fun _ _ => .of_parts

theorem execHid_keeps {d} : TurnKeeps (execHid d) := .instr (fun _ => rfl) fun _ _ => .of_parts

theorem execYield_keeps : TurnKeeps execYield := .instr (fun _ => rfl) fun _ _ => .of_parts

theorem execTuft_keeps {d a} : TurnKeeps (execTuft d a) := .instr (fun _ => rfl) fun _ _ => .of_parts

theorem execSplit_keeps : TurnKeeps execSplit := .instr (fun _ => rfl) fun _ _ => .of_parts

theorem execCvt_keeps {d a b p e} : TurnKeeps (execCvt d a b p e) := .instr (fun _ => rfl) fun _ _ => .of_parts

theorem execDec_keeps {d a b p t} : TurnKeeps (execDec d a b p t) := .instr (fun _ => rfl) fun _ _ => .of_parts

theorem execEnc_keeps {d a b p t} : TurnKeeps (execEnc d a b p t) := .instr (fun _ => rfl) fun _ _ => .of_parts

theorem execBscale_keeps {d a b p} : TurnKeeps (execBscale d a b p) := .instr (fun _ => rfl) fun _ _ => .of_parts

theorem execBscaleObject_keeps {d a b p e} : TurnKeeps (execBscaleObject d a b p e) :=
  .instr (fun _ => rfl) fun _ _ => .of_parts

theorem execDtld_keeps {d a b} : TurnKeeps (execDtld d a b) := .instr (fun _ => rfl) fun _ _ => .of_parts

theorem execSrseed_keeps {d a} : TurnKeeps (execSrseed d a) := .instr (fun _ => rfl) fun _ _ => .of_parts

theorem execFclass_keeps {d a f} : TurnKeeps (execFclass d a f) := .instr (fun _ => rfl) fun _ _ => .of_parts

theorem execLd_keeps {d p x z i} : TurnKeeps (execLd d p x z i) := .instr (fun _ => rfl) fun _ _ => .of_parts

theorem execSt_keeps {d p x z i} : TurnKeeps (execSt d p x z i) := .instr (fun _ => rfl) fun _ _ => .of_parts

theorem execLda_keeps {d p x i} : TurnKeeps (execLda d p x i) := .instr (fun _ => rfl) fun _ _ => .of_parts

theorem execSta_keeps {d p x i} : TurnKeeps (execSta d p x i) := .instr (fun _ => rfl) fun _ _ => .of_parts

theorem execTouch_keeps {d a} : TurnKeeps (execTouch d a) := .instr (fun _ => rfl) fun _ _ => .of_parts

theorem execAlloc_keeps {d a b} : TurnKeeps (execAlloc d a b) := by
  refine .instr (fun _ => rfl) fun _ _ => .bind rdS_keeps fun len => .bind rdS_keeps fun desc => .bind require_keeps fun _ =>
    .bind require_keeps fun _ => .get_bind fun s h => ?_
  dsimp only
  split
  · split
    · exact .raise _ _
    · refine .bind translateRange_keeps fun _ => .get_bind fun s h => ?_
      split
      · exact .raise _ _
      next s1 _ e =>
        have h1 : s1.Canonical := h.heapAlloc e
        exact .of_parts
  · exact .of_parts

theorem execAcurSet_keeps {d a b} : TurnKeeps (execAcurSet d a b) := .instr (fun _ => rfl) fun _ _ => .of_parts

theorem execAcurAdd_keeps {d a b} : TurnKeeps (execAcurAdd d a b) := .instr (fun _ => rfl) fun _ _ => .of_parts

theorem execOlen_keeps {d a sel} : TurnKeeps (execOlen d a sel) := .instr (fun _ => rfl) fun _ _ => .of_parts

theorem execOtype_keeps {d a} : TurnKeeps (execOtype d a) := .instr (fun _ => rfl) fun _ _ => .of_parts

theorem execRoot_keeps {a} : TurnKeeps (execRoot a) := .instr (fun _ => rfl) fun _ _ => .of_parts

theorem execUnroot_keeps {a} : TurnKeeps (execUnroot a) := .instr (fun _ => rfl) fun _ _ => .of_parts

theorem execRel_keeps {d a sc} : TurnKeeps (execRel d a sc) := .instr (fun _ => rfl) fun _ _ => .of_parts

theorem execAcq_keeps {d a sc} : TurnKeeps (execAcq d a sc) := .instr (fun _ => rfl) fun _ _ => .of_parts

theorem execCopyInComplete_keeps {k} : TurnKeeps (execCopyInComplete k) := .event (fun _ => rfl) .of_parts

theorem execScree_keeps {d a} : TurnKeeps (execScree d a) := .instr (fun _ => rfl) fun _ _ => .of_parts

theorem execSstat_keeps {d a} : TurnKeeps (execSstat d a) := .instr (fun _ => rfl) fun _ _ => .of_parts

theorem execHrd_keeps {d a b z} : TurnKeeps (execHrd d a b z) := .instr (fun _ => rfl) fun _ _ => .of_parts

theorem execHwr_keeps {d a b z} : TurnKeeps (execHwr d a b z) := .instr (fun _ => rfl) fun _ _ => .of_parts

theorem execHwrPerformed_keeps {core} : TurnKeeps (execHwrPerformed core) := .event (fun _ => rfl) .of_parts

theorem execCpost_keeps {d a b} : TurnKeeps (execCpost d a b) := .instr (fun _ => rfl) fun _ _ => .of_parts

theorem execCpostBarrier_keeps {d a b c} : TurnKeeps (execCpostBarrier d a b c) := .instr (fun _ => rfl) fun _ _ => .of_parts

theorem execCpostComplete_keeps {k} : TurnKeeps (execCpostComplete k) := .event (fun _ => rfl) .of_parts

theorem execCwait_keeps {d a} : TurnKeeps (execCwait d a) := .instr (fun _ => rfl) fun _ _ => .of_parts

theorem execPageRequestAnswer_keeps {k ans} : TurnKeeps (execPageRequestAnswer k ans) := .event (fun _ => rfl) .of_parts

theorem execAtsInvalidation_keeps {asid page count} : TurnKeeps (execAtsInvalidation asid page count) :=
  .event (fun _ => rfl) .of_parts

theorem execTierPoolRecall_keeps {asid page} : TurnKeeps (execTierPoolRecall asid page) := .event (fun _ => rfl) .of_parts

theorem execAmo_keeps {d a sc k o} : TurnKeeps (execAmo d a sc k o) := .instr (fun _ => rfl) fun _ _ => .of_parts

theorem execCas_keeps {d a sc k c} : TurnKeeps (execCas d a sc k c) := .instr (fun _ => rfl) fun _ _ => .of_parts

theorem execRed_keeps {d a sc k o} : TurnKeeps (execRed d a sc k o) := .instr (fun _ => rfl) fun _ _ => .of_parts

theorem execReductionPerformed_keeps {k} : TurnKeeps (execReductionPerformed k) := .event (fun _ => rfl) .of_parts

theorem execFence_keeps {d l e sc} : TurnKeeps (execFence d l e sc) := .instr (fun _ => rfl) fun _ _ => .of_parts

theorem execPalbelLinkDead_keeps {port} : TurnKeeps (execPalbelLinkDead port) := .event (fun _ => rfl) .of_parts

theorem execPalbelRequest_keeps {req} : TurnKeeps (execPalbelRequest req) := .event (fun _ => rfl) .of_parts

theorem execEvw_keeps {d a} : TurnKeeps (execEvw d a) := .instr (fun _ => rfl) fun _ _ => .of_parts

theorem execEvsig_keeps {a b} : TurnKeeps (execEvsig a b) := .instr (fun _ => rfl) fun _ _ => .of_parts

theorem execEventWordAccepted_keeps {k} : TurnKeeps (execEventWordAccepted k) := by
  intro s t h e
  unfold execEventWordAccepted at e
  split at e
  · exact Host.Outcome.next.inj e ▸ h
  extract_lets s1 c s2 at e
  have h2 : s2.Canonical := State.setCore_memory.canonical (by exact h)
  clear_value s2
  split at e
  · exact Host.Outcome.next.inj e ▸ h
  split at e
  · split at e
    · exact Host.Outcome.next.inj e ▸ h
    · split at e
      next u eu => exact Host.Outcome.next.inj e ▸ execEvsig_keeps s2 u h2 eu
      next o hn => exact absurd e (hn t)
  · exact Host.Outcome.next.inj e ▸ h

theorem execMtxl_keeps {d a} : TurnKeeps (execMtxl d a) := .instr (fun _ => rfl) fun _ _ => .of_parts

theorem execMtxu_keeps {a} : TurnKeeps (execMtxu a) := .instr (fun _ => rfl) fun _ _ => .of_parts

theorem execBinit_keeps {d a b sc} : TurnKeeps (execBinit d a b sc) := .instr (fun _ => rfl) fun _ _ => .of_parts

theorem execBpost_keeps {d a b sc} : TurnKeeps (execBpost d a b sc) := .instr (fun _ => rfl) fun _ _ => .of_parts

theorem execBarr_keeps {d a b sc} : TurnKeeps (execBarr d a b sc) := .instr (fun _ => rfl) fun _ _ => .of_parts

theorem execBwait_keeps {d a b sc} : TurnKeeps (execBwait d a b sc) := .instr (fun _ => rfl) fun _ _ => .of_parts

theorem execDqpush_keeps {d a b sc} : TurnKeeps (execDqpush d a b sc) := .instr (fun _ => rfl) fun _ _ => .of_parts

theorem execDqpop_keeps {d a sc} : TurnKeeps (execDqpop d a sc) := by
  refine .instr (fun _ => rfl) fun _ _ => .bind dequeCopy_keeps fun x => .get_bind fun s h => ?_
  have hs : ∀ v, (s.dqDropBottom v).Canonical := fun _ => h.dqDropBottom
  split
  · exact wrS_keeps
  · exact .bind rdA_keeps fun _ => .bind takeSlot_keeps fun _ => .of_parts

theorem execDqsteal_keeps {d a sc} : TurnKeeps (execDqsteal d a sc) := .instr (fun _ => rfl) fun _ _ => .of_parts

theorem execSstep_keeps {d} : TurnKeeps (execSstep d) := .instr (fun _ => rfl) fun _ _ => .of_parts

theorem execSuperstepAdvance_keeps {k} : TurnKeeps (execSuperstepAdvance k) := .event (fun _ => rfl) .of_parts

theorem execVadd_keeps {d a b p e} : TurnKeeps (execVadd d a b p e) := .instr (fun _ => rfl) fun _ _ => .of_parts

theorem execVsub_keeps {d a b p e} : TurnKeeps (execVsub d a b p e) := .instr (fun _ => rfl) fun _ _ => .of_parts

theorem execVmul_keeps {d a b p e} : TurnKeeps (execVmul d a b p e) := .instr (fun _ => rfl) fun _ _ => .of_parts

theorem execVmin_keeps {d a b p e} : TurnKeeps (execVmin d a b p e) := .instr (fun _ => rfl) fun _ _ => .of_parts

theorem execVmax_keeps {d a b p e} : TurnKeeps (execVmax d a b p e) := .instr (fun _ => rfl) fun _ _ => .of_parts

theorem execVabs_keeps {d a p e} : TurnKeeps (execVabs d a p e) := .instr (fun _ => rfl) fun _ _ => .of_parts

theorem execVneg_keeps {d a p e} : TurnKeeps (execVneg d a p e) := .instr (fun _ => rfl) fun _ _ => .of_parts

theorem execVand_keeps {d a b p e} : TurnKeeps (execVand d a b p e) := .instr (fun _ => rfl) fun _ _ => .of_parts

theorem execVor_keeps {d a b p e} : TurnKeeps (execVor d a b p e) := .instr (fun _ => rfl) fun _ _ => .of_parts

theorem execVxor_keeps {d a b p e} : TurnKeeps (execVxor d a b p e) := .instr (fun _ => rfl) fun _ _ => .of_parts

theorem execVsll_keeps {d a b p e} : TurnKeeps (execVsll d a b p e) := .instr (fun _ => rfl) fun _ _ => .of_parts

theorem execVsrl_keeps {d a b p e} : TurnKeeps (execVsrl d a b p e) := .instr (fun _ => rfl) fun _ _ => .of_parts

theorem execVsra_keeps {d a b p e} : TurnKeeps (execVsra d a b p e) := .instr (fun _ => rfl) fun _ _ => .of_parts

theorem execVmov_keeps {d a p e} : TurnKeeps (execVmov d a p e) := .instr (fun _ => rfl) fun _ _ => .of_parts

theorem execVmovExtract_keeps {d a b p e sgn} : TurnKeeps (execVmovExtract d a b p e sgn) :=
  .instr (fun _ => rfl) fun _ _ => .of_parts

theorem execVmovInsert_keeps {d a b p e} : TurnKeeps (execVmovInsert d a b p e) := .instr (fun _ => rfl) fun _ _ => .of_parts

theorem execVbcast_keeps {d a p e} : TurnKeeps (execVbcast d a p e) := .instr (fun _ => rfl) fun _ _ => .of_parts

theorem execVfadd_keeps {d a b p e} : TurnKeeps (execVfadd d a b p e) := .instr (fun _ => rfl) fun _ _ => .of_parts

theorem execVfsub_keeps {d a b p e} : TurnKeeps (execVfsub d a b p e) := .instr (fun _ => rfl) fun _ _ => .of_parts

theorem execVfmul_keeps {d a b p e} : TurnKeeps (execVfmul d a b p e) := .instr (fun _ => rfl) fun _ _ => .of_parts

theorem execVfma_keeps {d a b p e} : TurnKeeps (execVfma d a b p e) := .instr (fun _ => rfl) fun _ _ => .of_parts

theorem execVfms_keeps {d a b p e} : TurnKeeps (execVfms d a b p e) := .instr (fun _ => rfl) fun _ _ => .of_parts

theorem execVfmin_keeps {d a b p e} : TurnKeeps (execVfmin d a b p e) := .instr (fun _ => rfl) fun _ _ => .of_parts

theorem execVfmax_keeps {d a b p e} : TurnKeeps (execVfmax d a b p e) := .instr (fun _ => rfl) fun _ _ => .of_parts

theorem execVfabs_keeps {d a p e} : TurnKeeps (execVfabs d a p e) := .instr (fun _ => rfl) fun _ _ => .of_parts

theorem execVfneg_keeps {d a p e} : TurnKeeps (execVfneg d a p e) := .instr (fun _ => rfl) fun _ _ => .of_parts

theorem execVcmp_keeps {c a b p e} : TurnKeeps (execVcmp c a b p e) := .instr (fun _ => rfl) fun _ _ => .of_parts

theorem execVsel_keeps {d a b p e} : TurnKeeps (execVsel d a b p e) := .instr (fun _ => rfl) fun _ _ => .of_parts

theorem execPand_keeps {d a b} : TurnKeeps (execPand d a b) := .instr (fun _ => rfl) fun _ _ => .of_parts

theorem execPor_keeps {d a b} : TurnKeeps (execPor d a b) := .instr (fun _ => rfl) fun _ _ => .of_parts

theorem execPxor_keeps {d a b} : TurnKeeps (execPxor d a b) := .instr (fun _ => rfl) fun _ _ => .of_parts

theorem execPnot_keeps {d a} : TurnKeeps (execPnot d a) := .instr (fun _ => rfl) fun _ _ => .of_parts

theorem execPmov_keeps {d a} : TurnKeeps (execPmov d a) := .instr (fun _ => rfl) fun _ _ => .of_parts

theorem execVperm_keeps {d a b p e} : TurnKeeps (execVperm d a b p e) := .instr (fun _ => rfl) fun _ _ => .of_parts

theorem execVrsum_keeps {d a p e} : TurnKeeps (execVrsum d a p e) := .instr (fun _ => rfl) fun _ _ => .of_parts

theorem execVrmax_keeps {d a p e} : TurnKeeps (execVrmax d a p e) := .instr (fun _ => rfl) fun _ _ => .of_parts

theorem execVrmin_keeps {d a p e} : TurnKeeps (execVrmin d a p e) := .instr (fun _ => rfl) fun _ _ => .of_parts

theorem execVscan_keeps {d a p e} : TurnKeeps (execVscan d a p e) := .instr (fun _ => rfl) fun _ _ => .of_parts

theorem execVld_keeps {v p x q w i} : TurnKeeps (execVld v p x q w i) := .instr (fun _ => rfl) fun _ _ => .of_parts

theorem execVst_keeps {v p x q w i} : TurnKeeps (execVst v p x q w i) := .instr (fun _ => rfl) fun _ _ => .of_parts

theorem execVgth_keeps {v p x q w i} : TurnKeeps (execVgth v p x q w i) := .instr (fun _ => rfl) fun _ _ => .of_parts

theorem execVsct_keeps {v p x q w i} : TurnKeeps (execVsct v p x q w i) := .instr (fun _ => rfl) fun _ _ => .of_parts

theorem execVexp_keeps {d a p e} : TurnKeeps (execVexp d a p e) := .instr (fun _ => rfl) fun _ _ => .of_parts

theorem execVlog_keeps {d a p e} : TurnKeeps (execVlog d a p e) := .instr (fun _ => rfl) fun _ _ => .of_parts

theorem execVrcp_keeps {d a p e} : TurnKeeps (execVrcp d a p e) := .instr (fun _ => rfl) fun _ _ => .of_parts

theorem execVrsqrt_keeps {d a p e} : TurnKeeps (execVrsqrt d a p e) := .instr (fun _ => rfl) fun _ _ => .of_parts

theorem execVtanh_keeps {d a p e} : TurnKeeps (execVtanh d a p e) := .instr (fun _ => rfl) fun _ _ => .of_parts

theorem execVsin_keeps {d a p e} : TurnKeeps (execVsin d a p e) := .instr (fun _ => rfl) fun _ _ => .of_parts

theorem execVsmm_keeps {d a b p} : TurnKeeps (execVsmm d a b p) := .instr (fun _ => rfl) fun _ _ => .of_parts

theorem execVsmmStat_keeps {d a b p} : TurnKeeps (execVsmmStat d a b p) := .instr (fun _ => rfl) fun _ _ => .of_parts

theorem execSbind_keeps {d a b} : TurnKeeps (execSbind d a b) := .instr (fun _ => rfl) fun _ _ => .of_parts

theorem execSbnd_keeps {d a b j} : TurnKeeps (execSbnd d a b j) := .instr (fun _ => rfl) fun _ _ => .of_parts

theorem execSgo_keeps {d a} : TurnKeeps (execSgo d a) := .instr (fun _ => rfl) fun _ _ => .of_parts

theorem execSstop_keeps {d a} : TurnKeeps (execSstop d a) := .instr (fun _ => rfl) fun _ _ => .of_parts

theorem execVgrant_keeps {d a p w} : TurnKeeps (execVgrant d a p w) := .instr (fun _ => rfl) fun _ _ => .of_parts

theorem execVgrantStream_keeps {d a p} : TurnKeeps (execVgrantStream d a p) := .instr (fun _ => rfl) fun _ _ => .of_parts

theorem execKld_keeps {d a b} : TurnKeeps (execKld d a b) := .instr (fun _ => rfl) fun _ _ => .of_parts

theorem execKst_keeps {d a b} : TurnKeeps (execKst d a b) := .instr (fun _ => rfl) fun _ _ => .of_parts

theorem execKset_keeps {d a q} : TurnKeeps (execKset d a q) := .instr (fun _ => rfl) fun _ _ => .of_parts

theorem execKsetPointer_keeps {d a q} : TurnKeeps (execKsetPointer d a q) := .instr (fun _ => rfl) fun _ _ => .of_parts

theorem execWpush_keeps {d k} : TurnKeeps (execWpush d k) := .instr (fun _ => rfl) fun _ _ => .of_parts

theorem execWcommit_keeps {d} : TurnKeeps (execWcommit d) := .instr (fun _ => rfl) fun _ _ => .of_parts

theorem execWwait_keeps {d a} : TurnKeeps (execWwait d a) := .instr (fun _ => rfl) fun _ _ => .of_parts

theorem execWrd_keeps {d a b} : TurnKeeps (execWrd d a b) := .instr (fun _ => rfl) fun _ _ => .of_parts

theorem execWrdRow_keeps {d a b} : TurnKeeps (execWrdRow d a b) := .instr (fun _ => rfl) fun _ _ => .of_parts

theorem execWwr_keeps {d a b} : TurnKeeps (execWwr d a b) := .instr (fun _ => rfl) fun _ _ => .of_parts

theorem execWwrRow_keeps {d a b} : TurnKeeps (execWwrRow d a b) := .instr (fun _ => rfl) fun _ _ => .of_parts

theorem execWzero_keeps {a} : TurnKeeps (execWzero a) := .instr (fun _ => rfl) fun _ _ => .of_parts

theorem execWres_keeps {d a} : TurnKeeps (execWres d a) := .instr (fun _ => rfl) fun _ _ => .of_parts

theorem execWstat_keeps {d a} : TurnKeeps (execWstat d a) := .instr (fun _ => rfl) fun _ _ => .of_parts

theorem execWmbTileJobDispatch_keeps {cl u core} : TurnKeeps (execWmbTileJobDispatch cl u core) :=
  .event (fun _ => rfl) .of_parts

theorem execMma_keeps {cl u} : TurnKeeps (execMma cl u) := .event (fun _ => rfl) (jobBody_keeps fun _ _ => .of_parts)

theorem execMmaz_keeps {cl u} : TurnKeeps (execMmaz cl u) := .event (fun _ => rfl) (jobBody_keeps fun _ _ => .of_parts)

theorem execMmat_keeps {cl u} : TurnKeeps (execMmat cl u) := .event (fun _ => rfl) (jobBody_keeps fun _ _ => .of_parts)

theorem execAccst_keeps {cl u} : TurnKeeps (execAccst cl u) := .event (fun _ => rfl) (jobBody_keeps fun _ _ => .of_parts)

theorem execAccld_keeps {cl u} : TurnKeeps (execAccld cl u) := .event (fun _ => rfl) (jobBody_keeps fun _ _ => .of_parts)

theorem execPconv_keeps {cl u} : TurnKeeps (execPconv cl u) := .event (fun _ => rfl) (jobBody_keeps fun _ _ => .of_parts)

theorem execPdot_keeps {cl u} : TurnKeeps (execPdot cl u) := .event (fun _ => rfl) (jobBody_keeps fun _ _ => .of_parts)

theorem execWmbCommandComplete_keeps {core} : TurnKeeps (execWmbCommandComplete core) := .event (fun _ => rfl) .of_parts

theorem execPack_keeps {d a b t} : TurnKeeps (execPack d a b t) := .instr (fun _ => rfl) fun _ _ => .of_parts

theorem execGwid_keeps {d a b} : TurnKeeps (execGwid d a b) := .instr (fun _ => rfl) fun _ _ => .of_parts

theorem execWmulp_keeps {d a b} : TurnKeeps (execWmulp d a b) := .instr (fun _ => rfl) fun _ _ => .of_parts

theorem execWmacp_keeps {d a b} : TurnKeeps (execWmacp d a b) := .instr (fun _ => rfl) fun _ _ => .of_parts

theorem execExtr_keeps {d a b e} : TurnKeeps (execExtr d a b e) := .instr (fun _ => rfl) fun _ _ => .of_parts

theorem execCpush_keeps {d k} : TurnKeeps (execCpush d k) := .instr (fun _ => rfl) fun _ _ => .of_parts

theorem execCpwait_keeps {d a} : TurnKeeps (execCpwait d a) := .instr (fun _ => rfl) fun _ _ => .of_parts

theorem execCpstat_keeps {d a} : TurnKeeps (execCpstat d a) := .instr (fun _ => rfl) fun _ _ => .of_parts

theorem execCppage_keeps {d a b} : TurnKeeps (execCppage d a b) := .instr (fun _ => rfl) fun _ _ => .of_parts

theorem execCppageRec_keeps {d a b} : TurnKeeps (execCppageRec d a b) := .instr (fun _ => rfl) fun _ _ => .of_parts

theorem execCopy_keeps {core e} : TurnKeeps (execCopy core e) := .event (fun _ => rfl) (copyStep_keeps fun _ => .of_parts)

theorem execXpose_keeps {core e} : TurnKeeps (execXpose core e) := .event (fun _ => rfl) (copyStep_keeps fun _ => .of_parts)

theorem execGather_keeps {core e} : TurnKeeps (execGather core e) := .event (fun _ => rfl) (copyStep_keeps fun _ => .of_parts)

theorem execFill_keeps {core e} : TurnKeeps (execFill core e) := .event (fun _ => rfl) (copyStep_keeps fun _ => .of_parts)

theorem State.Canonical.pageIn {s t : State} (h : s.Canonical) {asid page grp} (e : s.pageIn asid page grp = some t) :
    t.Canonical := by
  unfold State.pageIn at e
  extract_lets room at e
  split at e
  next u _ hu _ =>
    have hc : u.Canonical := by
      unfold room at hu
      split at hu
      · exact Option.some.inj hu ▸ h
      · obtain ⟨_, -, rfl⟩ := Option.map_eq_some_iff.1 hu
        exact h
    obtain ⟨_, -, rfl⟩ := Option.map_eq_some_iff.1 e
    exact hc
  · cases e

theorem execPagein_keeps {core e} : TurnKeeps (execPagein core e) := by
  refine .event (fun _ => rfl) (copyStep_keeps fun m => .get_bind fun s _ => .ite (.bind translateFor_keeps fun _ =>
    .ite (.get_bind fun t ht => ?_) .of_parts) .of_parts)
  split
  next e =>
    have hu := ht.pageIn e
    exact .of_parts
  · exact .of_parts

theorem execMigr_keeps {core e} : TurnKeeps (execMigr core e) := .event (fun _ => rfl) (copyStep_keeps fun _ => .of_parts)

theorem execCopyCommandComplete_keeps {core e} : TurnKeeps (execCopyCommandComplete core e) := .event (fun _ => rfl) .of_parts

theorem execMsend_keeps {a b c} : TurnKeeps (execMsend a b c) := .instr (fun _ => rfl) fun _ _ => .of_parts

theorem execMcast_keeps {a b c} : TurnKeeps (execMcast a b c) := .instr (fun _ => rfl) fun _ _ => .of_parts

theorem execMrecv_keeps {d a} : TurnKeeps (execMrecv d a) := .instr (fun _ => rfl) fun _ _ => .of_parts

theorem execMpoll_keeps {d sel} : TurnKeeps (execMpoll d sel) := .instr (fun _ => rfl) fun _ _ => .of_parts

theorem execXput_keeps {a b c} : TurnKeeps (execXput a b c) := .instr (fun _ => rfl) fun _ _ => .of_parts

theorem execMessageDelivery_keeps {k} : TurnKeeps (execMessageDelivery k) := .event (fun _ => rfl) .of_parts

theorem execMessageRefusalTimeout_keeps {k} : TurnKeeps (execMessageRefusalTimeout k) := .event (fun _ => rfl) .of_parts

theorem execPutPerformed_keeps {k} : TurnKeeps (execPutPerformed k) := .event (fun _ => rfl) .of_parts

theorem execCkpt_keeps {d a} : TurnKeeps (execCkpt d a) := .instr (fun _ => rfl) fun _ _ => .of_parts

theorem execRstor_keeps {d} : TurnKeeps (execRstor d) := .instr (fun _ => rfl) fun _ _ => .of_parts

theorem execInterruptResume_keeps {core r lc} : TurnKeeps (execInterruptResume core r lc) := .event (fun _ => rfl) .of_parts

theorem execKvlk_keeps {d a} : TurnKeeps (execKvlk d a) := .instr (fun _ => rfl) fun _ _ => .of_parts

theorem execKvfill_keeps {d a b} : TurnKeeps (execKvfill d a b) := .instr (fun _ => rfl) fun _ _ => .of_parts

theorem execKvinv_keeps {d a} : TurnKeeps (execKvinv d a) := .instr (fun _ => rfl) fun _ _ => .of_parts

theorem execKvinvAll_keeps {d} : TurnKeeps (execKvinvAll d) := .instr (fun _ => rfl) fun _ _ => .of_parts

theorem execKvret_keeps {a} : TurnKeeps (execKvret a) := .instr (fun _ => rfl) fun _ _ => .of_parts

theorem execKvget_keeps {d a b} : TurnKeeps (execKvget d a b) := .instr (fun _ => rfl) fun _ _ => .of_parts

theorem execKvapp_keeps {d a} : TurnKeeps (execKvapp d a) := .instr (fun _ => rfl) fun _ _ => .of_parts

theorem execKvappLink_keeps {d a} : TurnKeeps (execKvappLink d a) := .instr (fun _ => rfl) fun _ _ => .of_parts

theorem execKvspec_keeps {d} : TurnKeeps (execKvspec d) := by
  have open4 : ∀ {s : State} {l a b c e a1 b1 c1 e1 a2 b2 c2 e2 a3 b3 c3 e3}, s.Canonical →
      ((((s.setBodyField l a b c e).setBodyField l a1 b1 c1 e1).setBodyField l a2 b2 c2 e2).setBodyField l a3 b3 c3 e3).Canonical :=
    fun h => h.setBodyField.setBodyField.setBodyField.setBodyField
  exact .instr (fun _ => rfl) fun _ _ => .of_parts

theorem execKvcommit_keeps {d a} : TurnKeeps (execKvcommit d a) := .instr (fun _ => rfl) fun _ _ => .of_parts

theorem execKvabort_keeps {d} : TurnKeeps (execKvabort d) := .instr (fun _ => rfl) fun _ _ => .of_parts

theorem execKvfree_keeps {d a} : TurnKeeps (execKvfree d a) := .instr (fun _ => rfl) fun _ _ => .of_parts

theorem execKvfreePub_keeps {d a} : TurnKeeps (execKvfreePub d a) := .instr (fun _ => rfl) fun _ _ => .of_parts

theorem execKvfreePubx_keeps {d a} : TurnKeeps (execKvfreePubx d a) := .instr (fun _ => rfl) fun _ _ => .of_parts

theorem execRsver_keeps {d a b} : TurnKeeps (execRsver d a b) := .instr (fun _ => rfl) fun _ _ => .of_parts

theorem execTimer_keeps {core} : TurnKeeps (execTimer core) := .event (fun _ => rfl) .of_parts

theorem execEngineReportTimeout_keeps {core} : TurnKeeps (execEngineReportTimeout core) := .event (fun _ => rfl) .of_parts

theorem execInterruptPreempt_keeps {core} : TurnKeeps (execInterruptPreempt core) := .event (fun _ => rfl) .of_parts

theorem execInterruptDebug_keeps {core req} : TurnKeeps (execInterruptDebug core req) := .event (fun _ => rfl) .of_parts

theorem execCorniceTrap_keeps {core} : TurnKeeps (execCorniceTrap core) := .event (fun _ => rfl) .of_parts

theorem execTrap_keeps {h l} : TurnKeeps (execTrap h l) := .instr (fun _ => rfl) fun _ _ => .of_parts

theorem execBrk_keeps {h l} : TurnKeeps (execBrk h l) := .instr (fun _ => rfl) fun _ _ => .of_parts

theorem execTret_keeps : TurnKeeps execTret := .instr (fun _ => rfl) fun _ _ => .of_parts

theorem execHalt_keeps : TurnKeeps execHalt := .instr (fun _ => rfl) fun _ _ => .of_parts

theorem execXinv_keeps {d a b} : TurnKeeps (execXinv d a b) := .instr (fun _ => rfl) fun _ _ => .of_parts

theorem execTenantSwitch_keeps {r} : TurnKeeps (execTenantSwitch r) := .event (fun _ => rfl) .of_parts

theorem execSwitchOutTimeout_keeps {r} : TurnKeeps (execSwitchOutTimeout r) := .event (fun _ => rfl) .of_parts

theorem execUncorrectableError_keeps {unit} : TurnKeeps (execUncorrectableError unit) := .event (fun _ => rfl) .of_parts

theorem execCorrectableError_keeps {unit} : TurnKeeps (execCorrectableError unit) := .event (fun _ => rfl) .of_parts

theorem execGlaunch_keeps {d a} : TurnKeeps (execGlaunch d a) := .instr (fun _ => rfl) fun _ _ => .of_parts

theorem execRecordDispatch_keeps {q} : TurnKeeps (execRecordDispatch q) := .event (fun _ => rfl) .of_parts

theorem execReservation_keeps {part} : TurnKeeps (execReservation part) := .event (fun _ => rfl) .of_parts

theorem execSliceEnd_keeps {vf} : TurnKeeps (execSliceEnd vf) := .event (fun _ => rfl) .of_parts

theorem execRecordEnd_keeps {r} : TurnKeeps (execRecordEnd r) := .event (fun _ => rfl) .of_parts

theorem execPfDeadlinePost_keeps {pf vf at_ report} : TurnKeeps (execPfDeadlinePost pf vf at_ report) :=
  .event (fun _ => rfl) .of_parts

theorem execCorniceDiscard_keeps {k} : TurnKeeps (execCorniceDiscard k) := .event (fun _ => rfl) .of_parts

theorem execCorniceReport_keeps {k} : TurnKeeps (execCorniceReport k) := .event (fun _ => rfl) .of_parts

theorem execFeatacc_keeps {fn value} : TurnKeeps (execFeatacc fn value) := .event (fun _ => rfl) .of_parts

theorem execReqhead_keeps {vf value} : TurnKeeps (execReqhead vf value) := .event (fun _ => rfl) .of_parts

theorem execEvhead_keeps {vf value} : TurnKeeps (execEvhead vf value) := .event (fun _ => rfl) .of_parts

theorem execRegisterWrite_keeps {reg value} : TurnKeeps (execRegisterWrite reg value) := .event (fun _ => rfl) .of_parts

theorem execReplyseq_keeps {vf seq} : TurnKeeps (execReplyseq vf seq) := .event (fun _ => rfl) .of_parts

theorem execFunctionReset_keeps {fn} : TurnKeeps (execFunctionReset fn) := .event (fun _ => rfl) .of_parts

theorem execQueueCreate_keeps {vf num desc} : TurnKeeps (execQueueCreate vf num desc) := .event (fun _ => rfl) .of_parts

theorem execQueueEnable_keeps {q} : TurnKeeps (execQueueEnable q) := .event (fun _ => rfl) .of_parts

theorem execQueueDisable_keeps {q del} : TurnKeeps (execQueueDisable q del) := .event (fun _ => rfl) .of_parts

theorem execDoorbell_keeps {q tail} : TurnKeeps (execDoorbell q tail) := .event (fun _ => rfl) .of_parts

theorem execAsidBind_keeps {asid vf pasid grants} : TurnKeeps (execAsidBind asid vf pasid grants) :=
  .event (fun _ => rfl) .of_parts

theorem execAsidUnbind_keeps {asid} : TurnKeeps (execAsidUnbind asid) := .event (fun _ => rfl) .of_parts

theorem execSnapshotRequest_keeps {vf area dlog} : TurnKeeps (execSnapshotRequest vf area dlog) :=
  .event (fun _ => rfl) .of_parts

theorem execVfStop_keeps {vf} : TurnKeeps (execVfStop vf) := by
  refine .event (fun _ => rfl) (.bind whenReady_keeps fun _ => .get_bind fun s h => .bind due_keeps fun _ => .ite ?_ .of_parts)
  dsimp only
  have h1 :
      ((s.queues.filter fun q => decide (q.2.vf = vf)).foldl (fun (t : State) q => (t.withdrawDevice q.1).disableQueue q.1) s).Canonical :=
    .foldl _ h fun _ _ ht => State.disableQueue_memory.canonical ht.withdrawDevice
  exact .set (.foldl _ (State.setVf_memory.canonical h1) fun _ _ ht => ht.preempt)

theorem execKvMigration_keeps {vf mig} : TurnKeeps (execKvMigration vf mig) := .event (fun _ => rfl) .of_parts

theorem execHostCxlMemAccess_keeps {acc} : TurnKeeps (execHostCxlMemAccess acc) := by
  refine .event (fun _ => rfl) (.bind whenReady_keeps fun _ => .get_bind fun s h => .bind due_keeps fun _ => ?_)
  dsimp only
  split
  · exact .of_parts
  next bs _ =>
    have hm : Mem.wf (bs.zipIdx.foldl (fun (m : Mem) b =>
        if (s.hostSees (acc.addr + b.2)).isSome then m else m.set (acc.addr + b.2) b.1) s.mem) = true := by
      refine Mem.wf_foldl _ (fun m b w => ?_) _ h.1
      split
      · exact w
      · exact Mem.wf_set w
    exact .of_parts

theorem execPowerGood_keeps : TurnKeeps execPowerGood := .event (fun _ => rfl) .of_parts

theorem execPowerLoss_keeps : TurnKeeps execPowerLoss := .event (fun _ => rfl) .of_parts

theorem execPcieConventionalReset_keeps : TurnKeeps execPcieConventionalReset := .event (fun _ => rfl) .of_parts

theorem execRom_keeps : TurnKeeps execRom := .event (fun _ => rfl) .of_parts

theorem execSelftest_keeps {tests} : TurnKeeps (execSelftest tests) := .event (fun _ => rfl) .of_parts

theorem execLoad_keeps {pass} : TurnKeeps (execLoad pass) := .event (fun _ => rfl) .of_parts

theorem execInit_keeps : TurnKeeps execInit := .event (fun _ => rfl) .of_parts

theorem execInitTimeout_keeps {die} : TurnKeeps (execInitTimeout die) := .event (fun _ => rfl) .of_parts

theorem execFatalFault_keeps {cls unit} : TurnKeeps (execFatalFault cls unit) := by
  refine .event (fun _ => rfl) (.keepTrying _ (.get_bind fun s h => .bind due_keeps fun _ => ?_))
  have hd : ∀ l : List Nat, (l.foldl State.discardRecord s).Canonical := fun _ => .foldl _ h fun _ _ ht => ht.discardRecord
  exact .of_parts

theorem execMailboxCommandDone_keeps : TurnKeeps execMailboxCommandDone := .event (fun _ => rfl) .of_parts

theorem execStatus_keeps : TurnKeeps execStatus := .event (fun _ => rfl) (mailbox_keeps .of_parts)

theorem execLog_keeps : TurnKeeps execLog := .event (fun _ => rfl) (mailbox_keeps .of_parts)

theorem execIdent_keeps : TurnKeeps execIdent :=
  .event (fun _ => rfl) (mailbox_keeps (.bind (.modify fun _ h => State.setMbdata_memory.canonical h) fun _ => .pure _))

theorem execImgload_keeps : TurnKeeps execImgload :=
  .event (fun _ => rfl) (mailbox_keeps (.get_bind fun _ _ => .ite (.pure _) (writeFlash_keeps .of_parts)))

theorem execImgcommit_keeps : TurnKeeps execImgcommit :=
  .event (fun _ => rfl) (mailbox_keeps (.get_bind fun _ _ => .ite (.pure _) (.ite (.pure _) (writeFlash_keeps .of_parts))))

theorem execReset_keeps : TurnKeeps execReset := .event (fun _ => rfl) .of_parts

theorem execPartdef_keeps : TurnKeeps execPartdef := .event (fun _ => rfl) (mailbox_keeps .of_parts)

theorem execRegion_keeps {secure} : TurnKeeps (execRegion secure) := .event (fun _ => rfl) (mailbox_keeps .of_parts)

theorem execDeadline_keeps : TurnKeeps execDeadline := .event (fun _ => rfl) (mailbox_keeps .of_parts)

theorem execRetire_keeps : TurnKeeps execRetire := .event (fun _ => rfl) (mailbox_keeps .of_parts)

theorem execSpdmRequest_keeps {req} : TurnKeeps (execSpdmRequest req) := .event (fun _ => rfl) .of_parts

theorem execHeapPass_keeps {asid} : TurnKeeps (execHeapPass asid) := .event (fun _ => rfl) .of_parts

theorem execPark_keeps {a b f} : TurnKeeps (execPark a b f) := .instr (fun _ => rfl) fun _ _ => .of_parts

theorem execUnpark_keeps {d b f} : TurnKeeps (execUnpark d b f) := .instr (fun _ => rfl) fun _ _ => .of_parts

end Sys2Proof.Machine
end

section
/-! SUPPORT. Every turn keeps the canonical form, and so does every step. -/

set_option Elab.async false

namespace Sys2Proof.Machine

theorem exec_keeps : (i : Instr) → TurnKeeps (exec i)
  | .add _ _ _ => execAdd_keeps
  | .sub _ _ _ => execSub_keeps
  | .and _ _ _ => execAnd_keeps
  | .or _ _ _ => execOr_keeps
  | .xor _ _ _ => execXor_keeps
  | .sll _ _ _ => execSll_keeps
  | .srl _ _ _ => execSrl_keeps
  | .sra _ _ _ => execSra_keeps
  | .slt _ _ _ => execSlt_keeps
  | .sltu _ _ _ => execSltu_keeps
  | .min _ _ _ => execMin_keeps
  | .max _ _ _ => execMax_keeps
  | .minu _ _ _ => execMinu_keeps
  | .maxu _ _ _ => execMaxu_keeps
  | .mul _ _ _ => execMul_keeps
  | .mulh _ _ _ => execMulh_keeps
  | .mulhu _ _ _ => execMulhu_keeps
  | .div _ _ _ => execDiv_keeps
  | .divu _ _ _ => execDivu_keeps
  | .rem _ _ _ => execRem_keeps
  | .remu _ _ _ => execRemu_keeps
  | .clz _ _ => execClz_keeps
  | .ctz _ _ => execCtz_keeps
  | .popc _ _ => execPopc_keeps
  | .sel _ _ _ _ => execSel_keeps
  | .addi _ _ _ => execAddi_keeps
  | .andi _ _ _ => execAndi_keeps
  | .ori _ _ _ => execOri_keeps
  | .xori _ _ _ => execXori_keeps
  | .slti _ _ _ => execSlti_keeps
  | .sltiu _ _ _ => execSltiu_keeps
  | .slli _ _ _ _ => execSlli_keeps
  | .srli _ _ _ _ => execSrli_keeps
  | .srai _ _ _ _ => execSrai_keeps
  | .lhi _ _ _ => execLhi_keeps
  | .beq _ _ _ => execBeq_keeps
  | .bne _ _ _ => execBne_keeps
  | .blt _ _ _ => execBlt_keeps
  | .bge _ _ _ => execBge_keeps
  | .bltu _ _ _ => execBltu_keeps
  | .bgeu _ _ _ => execBgeu_keeps
  | .jal _ _ => execJal_keeps
  | .jalr _ _ _ => execJalr_keeps
  | .tidx _ _ _ => execTidx_keeps
  | .shp _ _ _ => execShp_keeps
  | .crd _ _ => execCrd_keeps
  | .crw _ _ _ => execCrw_keeps
  | .crs _ _ _ => execCrs_keeps
  | .crc _ _ _ => execCrc_keeps
  | .ld _ _ _ _ _ => execLd_keeps
  | .st _ _ _ _ _ => execSt_keeps
  | .lda _ _ _ _ => execLda_keeps
  | .sta _ _ _ _ => execSta_keeps
  | .touch _ _ => execTouch_keeps
  | .alloc _ _ _ => execAlloc_keeps
  | .acurSet _ _ _ => execAcurSet_keeps
  | .acurAdd _ _ _ => execAcurAdd_keeps
  | .olen _ _ _ => execOlen_keeps
  | .otype _ _ => execOtype_keeps
  | .root _ => execRoot_keeps
  | .unroot _ => execUnroot_keeps
  | .acq _ _ _ => execAcq_keeps
  | .rel _ _ _ => execRel_keeps
  | .fence _ _ _ _ => execFence_keeps
  | .amo _ _ _ _ _ => execAmo_keeps
  | .cas _ _ _ _ _ => execCas_keeps
  | .red _ _ _ _ _ => execRed_keeps
  | .reductionPerformed _ => execReductionPerformed_keeps
  | .hrd _ _ _ _ => execHrd_keeps
  | .hwr _ _ _ _ => execHwr_keeps
  | .cpost _ _ _ => execCpost_keeps
  | .cpostBarrier _ _ _ _ => execCpostBarrier_keeps
  | .cpostComplete _ => execCpostComplete_keeps
  | .cwait _ _ => execCwait_keeps
  | .evw _ _ => execEvw_keeps
  | .evsig _ _ => execEvsig_keeps
  | .eventWordAccepted _ => execEventWordAccepted_keeps
  | .mtxl _ _ => execMtxl_keeps
  | .mtxu _ => execMtxu_keeps
  | .binit _ _ _ _ => execBinit_keeps
  | .bpost _ _ _ _ => execBpost_keeps
  | .barr _ _ _ _ => execBarr_keeps
  | .bwait _ _ _ _ => execBwait_keeps
  | .dqpush _ _ _ _ => execDqpush_keeps
  | .dqpop _ _ _ => execDqpop_keeps
  | .dqsteal _ _ _ => execDqsteal_keeps
  | .sstep _ => execSstep_keeps
  | .superstepAdvance _ => execSuperstepAdvance_keeps
  | .tenantSwitch _ => execTenantSwitch_keeps
  | .scree _ _ => execScree_keeps
  | .heapPass _ => execHeapPass_keeps
  | .sstat _ _ => execSstat_keeps
  | .hstart _ _ _ => execHstart_keeps
  | .hjoin _ _ => execHjoin_keeps
  | .hexit _ => execHexit_keeps
  | .hid _ => execHid_keeps
  | .yield => execYield_keeps
  | .park _ _ _ => execPark_keeps
  | .unpark _ _ _ => execUnpark_keeps
  | .tuft _ _ => execTuft_keeps
  | .split => execSplit_keeps
  | .glaunch _ _ => execGlaunch_keeps
  | .vadd _ _ _ _ _ => execVadd_keeps
  | .vsub _ _ _ _ _ => execVsub_keeps
  | .vmul _ _ _ _ _ => execVmul_keeps
  | .vmin _ _ _ _ _ => execVmin_keeps
  | .vmax _ _ _ _ _ => execVmax_keeps
  | .vabs _ _ _ _ => execVabs_keeps
  | .vneg _ _ _ _ => execVneg_keeps
  | .vand _ _ _ _ _ => execVand_keeps
  | .vor _ _ _ _ _ => execVor_keeps
  | .vxor _ _ _ _ _ => execVxor_keeps
  | .vsll _ _ _ _ _ => execVsll_keeps
  | .vsrl _ _ _ _ _ => execVsrl_keeps
  | .vsra _ _ _ _ _ => execVsra_keeps
  | .vmov _ _ _ _ => execVmov_keeps
  | .vmovExtract _ _ _ _ _ _ => execVmovExtract_keeps
  | .vmovInsert _ _ _ _ _ => execVmovInsert_keeps
  | .vbcast _ _ _ _ => execVbcast_keeps
  | .vfadd _ _ _ _ _ => execVfadd_keeps
  | .vfsub _ _ _ _ _ => execVfsub_keeps
  | .vfmul _ _ _ _ _ => execVfmul_keeps
  | .vfma _ _ _ _ _ => execVfma_keeps
  | .vfms _ _ _ _ _ => execVfms_keeps
  | .vfmin _ _ _ _ _ => execVfmin_keeps
  | .vfmax _ _ _ _ _ => execVfmax_keeps
  | .vfabs _ _ _ _ => execVfabs_keeps
  | .vfneg _ _ _ _ => execVfneg_keeps
  | .vcmp _ _ _ _ _ => execVcmp_keeps
  | .vsel _ _ _ _ _ => execVsel_keeps
  | .pand _ _ _ => execPand_keeps
  | .por _ _ _ => execPor_keeps
  | .pxor _ _ _ => execPxor_keeps
  | .pnot _ _ => execPnot_keeps
  | .pmov _ _ => execPmov_keeps
  | .vperm _ _ _ _ _ => execVperm_keeps
  | .vrsum _ _ _ _ => execVrsum_keeps
  | .vrmax _ _ _ _ => execVrmax_keeps
  | .vrmin _ _ _ _ => execVrmin_keeps
  | .vscan _ _ _ _ => execVscan_keeps
  | .vsmm _ _ _ _ => execVsmm_keeps
  | .vsmmStat _ _ _ _ => execVsmmStat_keeps
  | .vld _ _ _ _ _ _ => execVld_keeps
  | .vst _ _ _ _ _ _ => execVst_keeps
  | .vgth _ _ _ _ _ _ => execVgth_keeps
  | .vsct _ _ _ _ _ _ => execVsct_keeps
  | .sbind _ _ _ => execSbind_keeps
  | .sbnd _ _ _ _ => execSbnd_keeps
  | .sgo _ _ => execSgo_keeps
  | .sstop _ _ => execSstop_keeps
  | .vexp _ _ _ _ => execVexp_keeps
  | .vlog _ _ _ _ => execVlog_keeps
  | .vrcp _ _ _ _ => execVrcp_keeps
  | .vrsqrt _ _ _ _ => execVrsqrt_keeps
  | .vtanh _ _ _ _ => execVtanh_keeps
  | .vsin _ _ _ _ => execVsin_keeps
  | .vgrant _ _ _ _ => execVgrant_keeps
  | .vgrantStream _ _ _ => execVgrantStream_keeps
  | .cvt _ _ _ _ _ => execCvt_keeps
  | .dec _ _ _ _ _ => execDec_keeps
  | .enc _ _ _ _ _ => execEnc_keeps
  | .bscale _ _ _ _ => execBscale_keeps
  | .bscaleObject _ _ _ _ _ => execBscaleObject_keeps
  | .dtld _ _ _ => execDtld_keeps
  | .srseed _ _ => execSrseed_keeps
  | .fclass _ _ _ => execFclass_keeps
  | .kld _ _ _ => execKld_keeps
  | .kst _ _ _ => execKst_keeps
  | .kset _ _ _ => execKset_keeps
  | .ksetPointer _ _ _ => execKsetPointer_keeps
  | .wpush _ _ => execWpush_keeps
  | .wcommit _ => execWcommit_keeps
  | .wwait _ _ => execWwait_keeps
  | .wrd _ _ _ => execWrd_keeps
  | .wrdRow _ _ _ => execWrdRow_keeps
  | .wwr _ _ _ => execWwr_keeps
  | .wwrRow _ _ _ => execWwrRow_keeps
  | .wzero _ => execWzero_keeps
  | .wres _ _ => execWres_keeps
  | .wstat _ _ => execWstat_keeps
  | .pack _ _ _ _ => execPack_keeps
  | .gwid _ _ _ => execGwid_keeps
  | .wmulp _ _ _ => execWmulp_keeps
  | .wmacp _ _ _ => execWmacp_keeps
  | .extr _ _ _ _ => execExtr_keeps
  | .cpush _ _ => execCpush_keeps
  | .cpwait _ _ => execCpwait_keeps
  | .cpstat _ _ => execCpstat_keeps
  | .cppage _ _ _ => execCppage_keeps
  | .cppageRec _ _ _ => execCppageRec_keeps
  | .msend _ _ _ => execMsend_keeps
  | .mrecv _ _ => execMrecv_keeps
  | .mcast _ _ _ => execMcast_keeps
  | .mpoll _ _ => execMpoll_keeps
  | .xput _ _ _ => execXput_keeps
  | .putPerformed _ => execPutPerformed_keeps
  | .messageDelivery _ => execMessageDelivery_keeps
  | .messageRefusalTimeout _ => execMessageRefusalTimeout_keeps
  | .kvlk _ _ => execKvlk_keeps
  | .kvfill _ _ _ => execKvfill_keeps
  | .kvinv _ _ => execKvinv_keeps
  | .kvinvAll _ => execKvinvAll_keeps
  | .kvapp _ _ => execKvapp_keeps
  | .kvappLink _ _ => execKvappLink_keeps
  | .kvspec _ => execKvspec_keeps
  | .kvcommit _ _ => execKvcommit_keeps
  | .kvabort _ => execKvabort_keeps
  | .kvget _ _ _ => execKvget_keeps
  | .kvfree _ _ => execKvfree_keeps
  | .kvfreePub _ _ => execKvfreePub_keeps
  | .kvfreePubx _ _ => execKvfreePubx_keeps
  | .rsver _ _ _ => execRsver_keeps
  | .kvret _ => execKvret_keeps
  | .trap _ _ => execTrap_keeps
  | .tret => execTret_keeps
  | .brk _ _ => execBrk_keeps
  | .halt => execHalt_keeps
  | .wfi => execWfi_keeps
  | .ckpt _ _ => execCkpt_keeps
  | .rstor _ => execRstor_keeps
  | .xinv _ _ _ => execXinv_keeps
  | .pfxImm _ => execPfxImm_keeps
  | .pfxReg _ => execPfxReg_keeps
  | .pfxFn _ => execPfxFn_keeps
  | .mma _ _ => execMma_keeps
  | .mmaz _ _ => execMmaz_keeps
  | .mmat _ _ => execMmat_keeps
  | .accst _ _ => execAccst_keeps
  | .accld _ _ => execAccld_keeps
  | .pconv _ _ => execPconv_keeps
  | .pdot _ _ => execPdot_keeps
  | .wmbTileJobDispatch _ _ _ => execWmbTileJobDispatch_keeps
  | .wmbCommandComplete _ => execWmbCommandComplete_keeps
  | .copy _ _ => execCopy_keeps
  | .xpose _ _ => execXpose_keeps
  | .gather _ _ => execGather_keeps
  | .fill _ _ => execFill_keeps
  | .pagein _ _ => execPagein_keeps
  | .migr _ _ => execMigr_keeps
  | .copyCommandComplete _ _ => execCopyCommandComplete_keeps
  | .copyInComplete _ => execCopyInComplete_keeps
  | .pageRequestAnswer _ _ => execPageRequestAnswer_keeps
  | .atsInvalidation _ _ _ => execAtsInvalidation_keeps
  | .tierPoolRecall _ _ => execTierPoolRecall_keeps
  | .recordDispatch _ => execRecordDispatch_keeps
  | .recordEnd _ => execRecordEnd_keeps
  | .sliceEnd _ => execSliceEnd_keeps
  | .switchOutTimeout _ => execSwitchOutTimeout_keeps
  | .reservation _ => execReservation_keeps
  | .timer _ => execTimer_keeps
  | .engineReportTimeout _ => execEngineReportTimeout_keeps
  | .interruptPreempt _ => execInterruptPreempt_keeps
  | .interruptResume _ _ _ => execInterruptResume_keeps
  | .interruptDebug _ _ => execInterruptDebug_keeps
  | .corniceTrap _ => execCorniceTrap_keeps
  | .corniceDiscard _ => execCorniceDiscard_keeps
  | .corniceReport _ => execCorniceReport_keeps
  | .pfDeadlinePost _ _ _ _ => execPfDeadlinePost_keeps
  | .doorbell _ _ => execDoorbell_keeps
  | .featacc _ _ => execFeatacc_keeps
  | .reqhead _ _ => execReqhead_keeps
  | .evhead _ _ => execEvhead_keeps
  | .replyseq _ _ => execReplyseq_keeps
  | .registerWrite _ _ => execRegisterWrite_keeps
  | .queueCreate _ _ _ => execQueueCreate_keeps
  | .queueEnable _ => execQueueEnable_keeps
  | .queueDisable _ _ => execQueueDisable_keeps
  | .asidBind _ _ _ _ => execAsidBind_keeps
  | .asidUnbind _ => execAsidUnbind_keeps
  | .snapshotRequest _ _ _ => execSnapshotRequest_keeps
  | .vfStop _ => execVfStop_keeps
  | .kvMigration _ _ => execKvMigration_keeps
  | .hostCxlMemAccess _ => execHostCxlMemAccess_keeps
  | .spdmRequest _ => execSpdmRequest_keeps
  | .functionReset _ => execFunctionReset_keeps
  | .pcieConventionalReset => execPcieConventionalReset_keeps
  | .powerGood => execPowerGood_keeps
  | .rom => execRom_keeps
  | .selftest _ => execSelftest_keeps
  | .load _ => execLoad_keeps
  | .init => execInit_keeps
  | .fatalFault _ _ => execFatalFault_keeps
  | .uncorrectableError _ => execUncorrectableError_keeps
  | .status => execStatus_keeps
  | .log => execLog_keeps
  | .ident => execIdent_keeps
  | .imgload => execImgload_keeps
  | .imgcommit => execImgcommit_keeps
  | .reset => execReset_keeps
  | .partdef => execPartdef_keeps
  | .region _ => execRegion_keeps
  | .deadline => execDeadline_keeps
  | .retire => execRetire_keeps
  | .powerLoss => execPowerLoss_keeps
  | .palbelLinkDead _ => execPalbelLinkDead_keeps
  | .palbelRequest _ => execPalbelRequest_keeps
  | .hwrPerformed _ => execHwrPerformed_keeps
  | .mailboxCommandDone => execMailboxCommandDone_keeps
  | .initTimeout _ => execInitTimeout_keeps
  | .correctableError _ => execCorrectableError_keeps

theorem TurnKeeps.next {f : State → State} (hf : ∀ s, s.Canonical → (f s).Canonical) : TurnKeeps fun s => .next (f s) :=
  fun s _ h e => Host.Outcome.next.inj e ▸ hf s h

theorem thenDo_keeps {r : Result} {f : State → Result} {t : State} (hr : ∀ u, r = .next u → u.Canonical) (hf : TurnKeeps f)
    (e : thenDo r f = .next t) : t.Canonical := by
  cases r with
  | next u => exact hf u t (hr u rfl) e
  | fault _ | refused _ => cases e

theorem thenDo_next_keeps {r : Result} {f : State → State} {t : State} (hr : ∀ u, r = .next u → u.Canonical)
    (hf : ∀ u, u.Canonical → (f u).Canonical) (e : thenDo r (fun u => .next (f u)) = .next t) : t.Canonical :=
  thenDo_keeps hr (.next hf) e

/-! Turns of contexts. -/

theorem runWord_keeps {src} : TurnKeeps (State.runWord · src) := by
  intro s t h (e : s.runWord src = _)
  unfold State.runWord at e
  split at e
  · exact Host.Outcome.next.inj e ▸ h.trapHere
  · exact exec_keeps _ s t h e

theorem runNext_keeps {src site n} : TurnKeeps (State.runNext · src site n) := fun s t h e => by
  refine thenDo_keeps (fun u => runWord_keeps _ u (State.focus_memory.canonical h)) (fun u v hu eu => ?_) e
  split at eu
  · exact thenDo_next_keeps (fun w => runWord_keeps u w hu) (fun _ hw => State.unlatch_memory.canonical hw) eu
  · exact Host.Outcome.next.inj eu ▸ hu

theorem issue_keeps {site n} : TurnKeeps (State.issue · site n) := fun s _ h e =>
  thenDo_next_keeps (fun u => runNext_keeps s u h) (fun _ hu => State.noteIssue_memory.canonical hu) e

theorem issueFirst_keeps {site} (l : List Nat) : TurnKeeps (State.issueFirst · site l) := by
  induction l with
  | nil => exact .next fun _ h => h
  | cons n rest ih =>
    intro s t h (e : s.issueFirst site (n :: rest) = _)
    unfold State.issueFirst at e
    split at e
    next u eu =>
      have hu : u.Canonical := issue_keeps s u h eu
      split at e
      · exact ih u t hu e
      · exact Host.Outcome.next.inj e ▸ hu
    next r hr => exact absurd e (hr t)

theorem State.Canonical.poll {s : State} (h : s.Canonical) {site n} : (s.poll site n).Canonical := by
  unfold State.poll
  split
  · exact h
  split
  next t et =>
    have ht : t.Canonical := runNext_keeps s t h et
    split
    · exact ht
    · exact h
  · exact h

theorem State.Canonical.pollAll {s : State} (h : s.Canonical) {site} : (s.pollAll site).Canonical :=
  .foldl _ h fun _ _ ht => ht.poll

theorem State.Canonical.wakeCtx {s : State} (h : s.Canonical) {site n} : (s.wakeCtx site n).Canonical := by
  unfold State.wakeCtx
  extract_lets t c
  have ht : t.Canonical := by
    unfold t
    split
    · exact h
    · exact h.retireWfi
  split
  · exact State.setCore_memory.canonical ht
  · exact ht

theorem State.Canonical.wake {s : State} (h : s.Canonical) : s.wake.Canonical :=
  .foldl _ h fun _ _ ht => .foldl _ ht fun u _ hu => by
    split
    · exact hu.wakeCtx
    · exact hu

theorem State.Canonical.settled {s : State} (h : s.Canonical) : s.settled.Canonical :=
  (State.noteVacant_memory.canonical h.endYields.noteEligible).settleTables.wake

/-! Turns of Tufts. -/

theorem runAll_keeps {lead} (ms : List Nat) : TurnKeeps (State.runAll · lead ms) := by
  induction ms with
  | nil => exact .next fun _ h => h
  | cons m rest ih =>
    intro s t h (e : s.runAll lead (m :: rest) = _)
    unfold State.runAll at e
    split at e
    next u eu => exact ih _ t (State.noteIssue_memory.canonical (runNext_keeps s u h eu)) e
    next r hr => exact absurd e (hr t)

theorem State.Canonical.stepAll {s t : State} (h : t.Canonical) {ms} : (s.stepAll t ms).Canonical := by
  unfold State.stepAll
  extract_lets new
  split
  · exact h
  · refine .foldl _ h fun u m hu => ?_
    extract_lets c
    split
    · exact hu
    · exact State.setCore_memory.canonical hu

theorem lockStep_keeps {ms} : TurnKeeps (State.lockStep · ms) := by
  intro s t h (e : s.lockStep ms = _)
  unfold State.lockStep at e
  extract_lets lead late at e
  split at e
  · exact runAll_keeps _ s t h e
  split at e
  next r er =>
    extract_lets v at e
    have hv : v.Canonical := (runAll_keeps _ s r h er).stepAll
    split at e
    · exact Host.Outcome.next.inj e ▸ h.diverge
    split at e
    · exact Host.Outcome.next.inj e ▸ State.holdRest_memory.canonical hv
    · exact Host.Outcome.next.inj e ▸ hv
  next r hr => exact absurd e (hr t)

theorem tuftTurn_keeps {site} : TurnKeeps (State.tuftTurn · site) := by
  intro s t h (e : s.tuftTurn site = _)
  have stays : (.next s : Result) = .next t → t.Canonical := fun e => Host.Outcome.next.inj e ▸ h
  have issues : ∀ n, s.issue site n = .next t → t.Canonical := fun _ => issue_keeps s t h
  unfold State.tuftTurn at e
  extract_lets c ms at e
  split at e
  · exact stays e
  split at e
  · exact issues _ e
  split at e
  · exact issues _ e
  split at e
  · split at e
    · exact issues _ e
    · exact stays e
  split at e
  · exact stays e
  split at e
  · extract_lets pc at e
    split at e
    · exact stays e
    split at e
    · exact Host.Outcome.next.inj e ▸ State.release_memory.canonical (State.setHeld_memory.canonical h)
    · exact thenDo_next_keeps (fun u => issue_keeps s u h) (fun _ hu => State.rejoin_memory.canonical hu) e
  · split at e
    · exact Host.Outcome.next.inj e ▸ State.setHeld_memory.canonical h
    split at e
    · exact Host.Outcome.next.inj e ▸ State.dissolve_memory.canonical h
    · exact lockStep_keeps s t h e

/-! Turns of cores. -/

theorem State.Canonical.boundary {s : State} (h : s.Canonical) {site} : (s.boundary site).Canonical := by
  unfold State.boundary State.retireTuftWfi
  split
  · refine .foldl _ ?_ fun _ _ ht => ht.takeDue
    extract_lets lead
    split
    · exact .foldl _ h fun _ _ ht => ht.retireWfi
    · exact h
  · exact h.takeDue

theorem issueTurn_keeps {site n} : TurnKeeps (State.issueTurn · site n) := by
  intro s t h (e : s.issueTurn site n = _)
  unfold State.issueTurn at e
  extract_lets u at e
  have hu : u.Canonical := h.boundary
  split at e
  · exact Host.Outcome.next.inj e ▸ hu
  split at e
  · exact tuftTurn_keeps u t hu e
  split at e
  · split at e
    · exact issue_keeps u t hu e
    · exact Host.Outcome.next.inj e ▸ hu
  · exact Host.Outcome.next.inj e ▸ hu.poll

theorem coreTurn_keeps {site} : TurnKeeps (State.coreTurn · site) := by
  intro s t h (e : s.coreTurn site = _)
  unfold State.coreTurn at e
  extract_lets u v at e
  have hu : u.Canonical := h.boundary
  split at e
  · exact Host.Outcome.next.inj e ▸ hu
  split at e
  · exact tuftTurn_keeps u t hu e
  · exact issueFirst_keeps _ v t hu.pollAll e

/-! Turns of the agenda, and of the device by itself. -/

theorem State.Canonical.of_findSome? {α : Type} {l : List α} {f : α → Option State} {t : State}
    (hf : ∀ x u, f x = some u → u.Canonical) (e : l.findSome? f = some t) : t.Canonical := by
  obtain ⟨x, _, hx⟩ := List.exists_of_findSome?_eq_some e
  exact hf x t hx

theorem State.Canonical.carryDown {s : State} (h : s.Canonical) {rid key} : (s.carryDown rid key).Canonical := by
  unfold State.carryDown
  extract_lets r n go
  have hgo : ∀ level home e u, go level home e = some u → u.Canonical := by
    intro level home e u eu
    unfold go at eu
    split at eu
    · extract_lets dst at eu
      split at eu
      · cases eu
      split at eu
      · exact Option.some.inj eu ▸ State.markClean_memory.canonical h.carryBytes
      · exact Option.some.inj eu ▸ State.askWrites_memory.canonical h
      · cases eu
    · cases eu
  clear_value go
  split
  next t et => exact .of_findSome? (hgo _ _) et
  · cases e : r.dareas.findSome? (go 1 dieOf) with
    | none => exact h
    | some t => exact .of_findSome? (hgo _ _) e

theorem refill_keeps {site} : TurnKeeps (runTurn (.refill site)) := .event (fun _ => rfl) refillBody_keeps

theorem runTurn_keeps (t : Turn) : TurnKeeps (runTurn t) := by
  cases t with
  | event i =>
    intro s t h e
    rw [runTurn] at e
    split at e
    · exact exec_keeps i s t h e
    · exact Host.Outcome.next.inj e ▸ h
  | issue site n =>
    intro s t h e
    rw [runTurn] at e
    split at e
    · exact issueTurn_keeps s t h e
    · cases e
  | cycles n => exact .next fun _ h => h.wait
  | carry rid key => exact .next fun _ h => h.carryDown
  | fetch site k i ctx => exact .next fun _ h => State.fetchAhead_memory.canonical h
  | depart k => exact .next fun _ h => State.departFlit_memory.canonical h
  | refill site => exact refill_keeps

theorem Chore.keeps {w : Work} (h : Chore w) : TurnKeeps w := by
  cases h with
  | core site => exact coreTurn_keeps
  | row i => exact exec_keeps i
  | depart k => exact runTurn_keeps _
  | refill site => exact runTurn_keeps _

theorem firstWork_keeps {l : List Work} (hl : Chores l) : TurnKeeps (State.firstWork · l) := by
  induction l with
  | nil => exact .next fun _ h => h
  | cons w rest ih =>
    obtain ⟨hw, hr⟩ := List.forall_mem_cons.1 hl
    intro s t h (e : s.firstWork (w :: rest) = _)
    unfold State.firstWork at e
    split at e
    next u eu =>
      split at e
      · exact ih hr s t h e
      · exact Host.Outcome.next.inj e ▸ hw.keeps s u h eu
    next r hr => exact absurd e (hr t)

theorem ownTurn_keeps : TurnKeeps State.ownTurn := fun s _ h e =>
  thenDo_next_keeps (f := fun u => { u.wait 1 with turn := s.turn + 1 })
    (fun u => firstWork_keeps ((work_chores s).rotate _) s u h) (fun _ hu => hu.wait) e

theorem turnOf_keeps : TurnKeeps turnOf := by
  intro s t h e
  unfold turnOf at e
  split at e
  · exact ownTurn_keeps s t h e
  · exact runTurn_keeps _ _ t (by exact h) e

theorem step_keeps :
    TurnKeeps step := fun s _ h e => thenDo_next_keeps (fun u => turnOf_keeps s u h) (fun _ hu => hu.settled) e

/-- Settles O60: each instruction and event keeps the canonical form, hence each turn, and what comes to hold after it. -/
theorem stepKeepsMemoryForm : Obligations.StepKeepsMemoryForm := fun s t hm hh => step_keeps s t ⟨hm, hh⟩

end Sys2Proof.Machine
end

section
/-! SUPPORT. Words of the manual's examples, and the state right after reset (R40, R44, R48; R32, R88, R441). -/

namespace Sys2Proof.Laws.Examples

open Sys2Proof.Laws.Encoding

/-- Settles O55: each word is the encoding of its instruction (R40, R44), which decodes to it; major 0x00 is reserved (R48). -/
theorem decodeWords : Obligations.DecodeWords :=
  ⟨roundTrip (.add 3 4 5) rfl (by decide), roundTrip (.addi 5 5 0x3456) rfl (by decide),
    roundTrip (.ld 6 3 5 2 4) rfl (by decide), roundTrip (.rel 7 2 4) rfl (by decide),
    roundTrip (.hstart 20 21 22) rfl (by decide), roundTrip .tret rfl (by decide),
    roundTrip (.msend 2 20 21) rfl (by decide), roundTrip (.pfxImm 0x12) rfl (by decide), rfl⟩

end Sys2Proof.Laws.Examples

namespace Sys2Proof.Machine

/-- No core is listed at reset. -/
theorem State.coreAt_reset (site : Nat) : State.reset.coreAt site = {} := rfl

/-- Only the trap shadow begins with pointers of its own (R389). -/
theorem Core.ctxAt_reset {n : Nat} (h : n < 13) : Core.ctxAt {} n = if n = 11 then shadowStart else {} := by
  simp only [Core.ctxAt, Vector.getElem?_setIfInBounds, Vector.getElem?_replicate, h, eq_comm (a := 11)]
  split <;> rfl

theorem Context.sreg_of_zeros {x : Context} (h : x.s = Vector.replicate 32 0) {r : Nat} (hr : r < 32) : x.sreg r = 0 := by
  simp [Context.sreg, h, hr]

/-- Settles O59: every core is one after reset, whose contexts have zeros in their `s` registers. -/
theorem resetState : Obligations.ResetState := by
  refine ⟨rfl, rfl, rfl, rfl, fun _ => rfl, rfl, rfl, rfl, rfl, rfl, fun site => ?_, fun _ => rfl⟩
  refine ⟨rfl, rfl, rfl, rfl, rfl, rfl, rfl, fun n hn => ?_⟩
  rw [State.coreAt_reset, Core.ctxAt_reset hn]
  split
  · exact ⟨by omega, rfl, rfl, rfl, rfl, fun r hr => Context.sreg_of_zeros rfl hr⟩
  · exact ⟨fun _ => rfl, rfl, rfl, rfl, rfl, fun r hr => Context.sreg_of_zeros rfl hr⟩

end Sys2Proof.Machine
end

section
/-! SUPPORT. What the shared changes of the state leave unchanged: a write of an object's body changes memory and what goes
with it alone, and no change of the trap's course moves the executing site (R392, R402, R418). -/

namespace Sys2Proof.Machine

/-- The instruction under way has noted `x` (R37). -/
def State.noting (s : State) (x : Tx) : State := { s with tx := x }

/-! Writes of bodies. -/

/-- A change that writes memory and what is noted of writes (R406, R436), and that does not look at what the instruction under
way has noted. -/
def WritesMemory (f : State → State) : Prop :=
  ∀ s : State, ∃ m h v u, ∀ x : Tx, f { s with tx := x } = { s with tx := x, mem := m, hostMem := h, vfs := v, units := u }

namespace WritesMemory

theorem id : WritesMemory fun s => s := fun s => ⟨s.mem, s.hostMem, s.vfs, s.units, fun _ => rfl⟩

theorem comp {f g : State → State} (hg : WritesMemory g) (hf : WritesMemory f) : WritesMemory fun s => g (f s) := by
  intro s
  obtain ⟨m, h, v, u, hf⟩ := hf s
  obtain ⟨m', h', v', u', hg⟩ := hg { s with mem := m, hostMem := h, vfs := v, units := u }
  exact ⟨m', h', v', u', fun x => (congrArg g (hf x)).trans (hg x)⟩

theorem foldl {α : Type} (l : List α) {f : State → α → State} (hf : ∀ a, WritesMemory (f · a)) : WritesMemory (l.foldl f) := by
  induction l with
  | nil => exact id
  | cons a l ih => exact comp ih (hf a)

theorem notePage (asid vf page : Nat) : WritesMemory (State.notePage · asid vf page) := by
  intro s
  simp only [State.notePage, State.vfAt, State.setVf]
  split
  · split
    · exact ⟨_, _, _, _, fun _ => rfl⟩
    · split
      · exact ⟨_, _, _, _, fun _ => rfl⟩
      · exact ⟨_, _, _, _, fun _ => rfl⟩
  · exact id s

theorem noteHeap (asid va n : Nat) : WritesMemory (State.noteHeap · asid va n) := by
  intro s
  simp only [State.noteHeap, State.vfAt]
  split
  · exact id s
  · exact foldl _ (fun a => notePage asid _ (a / 4096)) s

theorem putHeap (asid va : Nat) (bs : List Byte) : WritesMemory (State.putHeap · asid va bs) := by
  intro s
  obtain ⟨m, h, v, u, hn⟩ := noteHeap asid va bs.length s
  exact ⟨(s.putHeap asid va bs).mem, h, v, u, fun x => by simp only [State.putHeap, hn]; rfl⟩

theorem putBody (l : Loc) (off : Nat) (bs : List Byte) : WritesMemory (State.putBody · l off bs) := by
  cases l with
  | pad k => exact fun s => ⟨s.mem.setBytes (k + 32 + off) bs, s.hostMem, s.vfs, s.units, fun _ => rfl⟩
  | heap asid va => exact putHeap asid (va + 32 + off) bs

theorem markUnits (key n : Nat) : WritesMemory (State.markUnits · key n) := by
  intro s
  simp only [State.markUnits]
  split
  · exact id s
  · exact ⟨_, _, _, _, fun _ => rfl⟩

theorem setFieldAt (l : Loc) (off n x : Nat) : WritesMemory (State.setFieldAt · l off n x) := by
  cases l with
  | pad k => exact comp (markUnits (k + 32 + off) n) (putBody (.pad k) off (leBytes x n))
  | heap asid va => exact putBody (.heap asid va) off (leBytes x n)

theorem dqDropBottom (v : Loc) : WritesMemory (State.dqDropBottom · v) := by
  intro s
  obtain ⟨m, h, vf, u, hw⟩ := setFieldAt v 8 4 (s.dqBottom v + 2 ^ 32 - 1) s
  exact ⟨m, h, vf, u, fun x => hw x⟩

theorem site {f : State → State} (hf : WritesMemory f) (s : State) : (f s).site = s.site := by
  obtain ⟨_, _, _, _, h⟩ := hf s
  exact (congrArg State.site (h s.tx) :)

theorem cores {f : State → State} (hf : WritesMemory f) (s : State) : (f s).cores = s.cores := by
  obtain ⟨_, _, _, _, h⟩ := hf s
  exact (congrArg State.cores (h s.tx) :)

/-- What an instruction has noted while it executes passes such a change by. -/
theorem noting {f : State → State} (hf : WritesMemory f) (s : State) (x : Tx) : f (s.noting x) = (f s).noting x := by
  obtain ⟨_, _, _, _, h⟩ := hf s
  exact (h x).trans (congrArg (State.noting · x) (h s.tx)).symm

end WritesMemory

/-! The executing site. -/

section
variable (s : State)

theorem State.site_foldl {α : Type} {f : State → α → State} (hf : ∀ t a, (f t a).site = t.site) (l : List α) :
    (l.foldl f s).site = s.site := by
  induction l generalizing s with
  | nil => rfl
  | cons a l ih => exact (ih _).trans (hf s a)

theorem State.site_fst {α : Type} {n : Nat} {t : State} {a : α} {x : State × α} (e : (t, a) = x) (h : t.site = n) :
    x.1.site = n := e ▸ h

@[simp] theorem State.setFieldAt_site (l : Loc) (off n x : Nat) : (s.setFieldAt l off n x).site = s.site :=
  (WritesMemory.setFieldAt l off n x).site s

@[simp] theorem State.setBodyField_site (l : Loc) (off lo w v : Nat) : (s.setBodyField l off lo w v).site = s.site :=
  s.setFieldAt_site l off 8 _

@[simp] theorem State.setHdr_site (l : Loc) (h : Hdr) : (s.setHdr l h).site = s.site := by
  cases l with
  | pad k => rfl
  | heap asid va => exact (WritesMemory.noteHeap asid va 32).site s

@[simp] theorem State.erefDown_site (l : Loc) : (s.erefDown l).site = s.site := s.setHdr_site l _

@[simp] theorem State.barPendingDown_site (v : Loc) : (s.barPendingDown v).site = s.site := s.setFieldAt_site v 0x18 4 _

@[simp] theorem State.barWaitersDown_site (v : Loc) : (s.barWaitersDown v).site = s.site := s.setFieldAt_site v 0x1C 4 _

@[simp] theorem State.leaveLines_site (p : Waiter → Bool) : (s.leaveLines p).site = s.site := by
  unfold State.leaveLines
  refine State.site_foldl _ (fun t w => ?_) _
  split
  · exact t.barWaitersDown_site _
  · rfl

@[simp] theorem State.dropCmd_site (c : Cmd) : (s.dropCmd c).site = s.site := by
  have h := s.site_foldl State.erefDown_site c.erefs
  unfold State.dropCmd
  dsimp only
  split
  · exact (State.barPendingDown_site _ _).trans h
  · exact h

@[simp] theorem State.dropPost_site (p : Post) : (s.dropPost p).site = s.site := by
  have h := ((s.erefDown p.src).erefDown_site p.dst).trans (s.erefDown_site p.src)
  unfold State.dropPost
  dsimp only
  split
  · exact (State.erefDown_site _ _).trans ((State.barPendingDown_site _ _).trans h)
  · exact h

/-! The windows of a table that close with a core's part of a record (R381). -/

@[simp] theorem State.setKvPage_site (t : Loc) (i : Nat) (p : Word) : (s.setKvPage t i p).site = s.site := s.setFieldAt_site t _ 8 _

@[simp] theorem State.dropRef_site (f : Nat) : (s.dropRef f).1.site = s.site := by
  generalize e : s.dropRef f = x
  unfold State.dropRef at e
  extract_lets l r s1 v w u at e
  have h1 : s1.site = s.site := s.setBodyField_site l 0 32 13 r
  have hu : u.site = s1.site := s1.setVf_site v _
  clear_value u s1
  split at e
  · exact State.site_fst e (hu.trans h1)
  · exact State.site_fst e h1

@[simp] theorem State.dropPages_site (t : Loc) (f cap : Nat) : (s.dropPages t f cap).1.site = s.site := by
  unfold State.dropPages
  generalize List.range (cap - f) = l
  suffices h : ∀ acc : State × List Nat, acc.1.site = s.site → (l.foldl _ acc).1.site = s.site from h (s, []) rfl
  induction l with
  | nil => exact fun _ h => h
  | cons n l ih =>
    intro acc h
    refine ih _ ?_
    dsimp only
    split
    · exact h
    · refine (State.setKvPage_site _ _ _ _).trans ?_
      split
      · exact (State.dropRef_site _ _).trans h
      · exact h

@[simp] theorem State.setCommitted_site (r : Loc) (j p : Nat) : (s.setCommitted r j p).site = s.site := by
  simp only [State.setCommitted, State.setBodyField_site]

@[simp] theorem State.closeVersions_site (r : Loc) (E : Nat) (tie : Bool) : (s.closeVersions r E tie).site = s.site := by
  unfold State.closeVersions
  extract_lets s1 cur s2
  have h1 : s1.site = s.site := by
    unfold s1
    split
    · exact (State.setFieldAt_site _ _ _ _ _).trans (State.setCommitted_site _ _ _ _)
    · rfl
  have h2 : s2.site = s1.site := by
    refine State.site_foldl s1 (fun t j => ?_) _
    split
    · rfl
    · exact t.setBodyField_site _ _ _ _ _
  exact (s2.setBodyField_site _ _ _ _ _).trans (h2.trans h1)

@[simp] theorem State.shootFrames_site (fs : List Nat) : (s.shootFrames fs).site = s.site := by
  unfold State.shootFrames
  split <;> rfl

@[simp] theorem State.closeWindow_site (asid va a : Nat) : (s.closeWindow asid va a).site = s.site := by
  unfold State.closeWindow
  extract_lets t E tie s0
  split
  rename_i s1 fs h
  extract_lets s2 s3 s4
  have h1 : s1.site = s.site := (congrArg (fun x : State × List Nat => x.1.site) h).symm.trans (s0.dropPages_site _ _ _)
  have h2 : s2.site = s1.site := by
    unfold s2
    split
    · exact s1.closeVersions_site _ _ _
    · rfl
  have h3 : s3.site = s2.site := by
    unfold s3
    simp only [State.setBodyField_site]
  exact (s4.shootFrames_site fs).trans (h3.trans (h2.trans h1))

@[simp] theorem State.autoAbort_site (k : KvTab) : (s.autoAbort k).site = s.site := by
  unfold State.autoAbort
  split
  · exact s.closeWindow_site _ _ _
  · rfl

@[simp] theorem State.kvAbortOwner_site (rid lc ctx : Nat) : (s.kvAbortOwner rid lc ctx).site = s.site :=
  s.site_foldl State.autoAbort_site _

@[simp] theorem State.kvAbortCtx_site (site ctx : Nat) : (s.kvAbortCtx site ctx).site = s.site := by
  unfold State.kvAbortCtx
  split
  · rfl
  · exact s.kvAbortOwner_site _ _ _

/-! The end of a core's part of a record, and traps (R392, R402, R418). -/

/-- After the end of a core's part of a record no shadow of it executes. -/
theorem State.endCore_act (fault : Option (BitVec 8 × Word)) : (s.endCore s.site fault).core.act = 0 := by
  unfold State.endCore
  extract_lets c s1 s2 mine dropped s2' s3 c3 freed c4 ended s4 lc
  have h1 : s1.site = s.site := State.site_foldl s (fun t i => t.kvAbortCtx_site s.site i) _
  have h2 : s2.site = s1.site := (State.site_foldl _ (fun t (x : Stream) => t.erefDown_site x.loc) _).trans (s1.site_foldl State.dropCmd_site _)
  have h2' : s2'.site = s2.site := s2.site_foldl State.dropPost_site _
  have h3 : s3.site = s.site := (s2'.leaveLines_site _).trans (h2'.trans (h2.trans h1))
  have h4 : s4.core.act = 0 := by
    show ((s3.setCore s.site c4).coreAt s3.site).act = 0
    rw [h3, State.coreAt_setCore_self]
  clear_value s4
  split
  · exact h4
  · exact h4

theorem State.addLog_core (cls kind unit : Nat) (d0 d1 : Word) : (s.addLog cls kind unit d0 d1).core = s.core := rfl

theorem State.doubleFault_act (code : BitVec 8) (val : Word) : (s.doubleFault s.site code val).core.act = 0 := by
  unfold State.doubleFault
  extract_lets c s1
  rw [State.addLog_core]
  exact s1.endCore_act _

theorem State.enterTrap_act (X : Nat) (code : BitVec 8) (val pc : Word) (async pfx : Bool) (h : s.core.tshadow = false) :
    (s.enterTrap s.site X code val pc async pfx).core.act = 11 := by
  unfold State.enterTrap
  extract_lets c s1 s2 c1 c2
  have h2 : s2.site = s.site := s.leaveLines_site _
  rw [if_neg (by rw [show c.tshadow = false from h]; decide)]
  show (State.coreAt (s2.setCore s.site _) s2.site).act = 11
  rw [h2, State.coreAt_setCore_self]

/-- A trap leaves the trap shadow executing, or, where that has trapped itself, context 0 of a core that has ended. -/
theorem State.trapHere_act (code : BitVec 8) (val : Word) (async : Bool) (h : s.core.act = 11 ↔ s.core.tshadow = true) :
    (s.trapHere code val async).core.act = if s.core.act = 11 then 0 else 11 := by
  unfold State.trapHere
  extract_lets c s1 x
  split
  · exact s1.doubleFault_act code val
  · rename_i hc
    exact s1.enterTrap_act x code val _ async _ (Bool.eq_false_iff.2 fun ht => hc (h.2 ht))

end

end Sys2Proof.Machine
end

section
/-! SUPPORT. The turn of a core (R68, R69, R95, R96, R46, R414): what a named issue turn and a step do. -/

namespace Sys2Proof.Machine

/-! Steps. -/

theorem step_of_turn {s t : State} {x : Turn} {rest : List Turn} (ha : s.agenda = x :: rest)
    (h : runTurn x { s with agenda := rest } = .next t) : step s = .next t.settled := by
  simp only [step, turnOf, ha, h, thenDo]

theorem step_of_issueTurn {s t : State} {site n : Nat} {rest : List Turn} (ha : s.agenda = .issue site n :: rest)
    (hs : site < siteCount) (h : State.issueTurn { s with agenda := rest } site n = .next t) : step s = .next t.settled :=
  step_of_turn ha (by simp only [runTurn, if_pos hs, h])

/-! The boundary of a core, and the choice of the context. -/

section
variable {s : State} {site n x : Nat}

/-- At a boundary where no cause is due nothing is taken (R396). -/
theorem State.boundary_of_none (hd : s.dueCauses (s.coreAt site) = []) (ht : (s.coreAt site).tuft = false) :
    s.boundary site = s := by
  simp [State.boundary, State.takeDue, ht, hd]

theorem State.drainsAt_of_alone (ht : (s.coreAt site).tuft = false) : s.drainsAt site = s.drains (s.coreAt site) := by
  simp [State.drainsAt, ht]

theorem tookCause_self (s : State) (site : Nat) : tookCause s s site = false := by
  simp [tookCause]

/-- While the engine work of a stepped push is under way nothing issues (R414). -/
theorem State.issueTurn_of_drains (hd : s.dueCauses (s.coreAt site) = []) (ht : (s.coreAt site).tuft = false)
    (hp : s.drains (s.coreAt site) = true) : s.issueTurn site n = .next s := by
  simp [State.issueTurn, State.boundary_of_none hd ht, State.drainsAt_of_alone ht, hp]

/-- Otherwise the context that takes the turn issues where the round-robin has come to it (R21, R96). -/
theorem State.issueTurn_of_issuer (hd : s.dueCauses (s.coreAt site) = []) (ht : (s.coreAt site).tuft = false)
    (hp : s.drains (s.coreAt site) = false) (hx : (s.coreAt site).issuer n = some x) :
    s.issueTurn site n = if (s.coreAt site).round.head? = some x then s.issue site x else .next s := by
  simp [State.issueTurn, State.boundary_of_none hd ht, State.drainsAt_of_alone ht, tookCause_self, hp, ht, hx]

/-- The trap shadow takes every turn while it executes, and no other (R96). -/
theorem Core.issuer_shadow {c : Core} (h : c.issuer n = some x) : x = 11 ↔ c.tshadow = true := by
  unfold Core.issuer at h
  split at h
  · cases h
  split at h
  next ht =>
    cases h
    simp [ht]
  next ht =>
    suffices hx : x ≠ 11 by simp [hx, ht]
    split at h
    next hn =>
      split at h
      · split at h <;> cases h
        decide
      · cases h
        simp only [Bool.and_eq_true, decide_eq_true_eq] at hn
        omega
    · cases h

end

/-! The word that a context issues, and the pair of a `pfx` and the word that it governs. -/

section
variable {s t u : State} {src site n x : Nat} {i j : Instr}

theorem State.runWord_of_instr (h : s.fetched src = .ok i) : s.runWord src = exec i s := by
  simp only [State.runWord, h]

theorem State.runWord_of_fault {code : BitVec 8} {v : Word} (h : s.fetched src = .error (code, v)) :
    s.runWord src = .next (s.trapHere code v false) := by
  simp only [State.runWord, h]

theorem State.issue_of_word (hw : (s.focus site x).runWord site = .next t) (hl : t.latched x = false) :
    s.issue site x = .next (t.noteIssue site x ((s.coreAt site).turnAt x)) := by
  simp [State.issue, State.runNext, thenDo, hw, hl]

/-- A `pfx` and the word that it governs issue together (R46). -/
theorem State.issue_of_pair (hw : (s.focus site x).runWord site = .next t) (hl : t.latched x = true)
    (hu : t.runWord site = .next u) :
    s.issue site x = .next ((u.unlatch site x).noteIssue site x ((s.coreAt site).turnAt x)) := by
  simp [State.issue, State.runNext, thenDo, hw, hl, hu]

theorem State.focus_core (s : State) (site n : Nat) : (s.focus site n).core = { s.coreAt site with act := n } :=
  State.core_setCore { s with site := site } _

/-- A fetch that faults leaves no `pfx` latched for the context that fetched. -/
theorem State.latched_of_fault {c : Core} (hc : s.core = { c with act := x }) (h : c.issuer n = some x) (code : BitVec 8)
    (v : Word) (async : Bool) : (s.trapHere code v async).latched x = false := by
  have ha := s.trapHere_act code v async (by rw [hc]; exact Core.issuer_shadow h)
  have hx : (s.trapHere code v async).core.act ≠ x := by
    rw [ha, hc]
    dsimp only
    split <;> omega
  simp [State.latched, hx]

end

/-! Waiting contexts. -/

theorem State.retireWfi_of_not {s : State} {site n : Nat} (h : s.atWfi site site n = false) : s.retireWfi site n = s := by
  simp [State.retireWfi, h]

/-- A waiting context that does not stand at `wfi` becomes READY when its condition holds, and else goes on waiting (R95). -/
theorem State.wakeCtx_of_waiting {s : State} {site n : Nat} (hn : n ≤ 10) (hw : ((s.coreAt site).ctxAt n).st = .waiting)
    (hr : (s.coreAt site).recId.isSome = true) (hh : (s.coreAt site).halted = false) (hf : s.atWfi site site n = false) :
    s.wakeCtx site n = if s.awaited site n = true then
      s.setCore site ((s.coreAt site).setCtx n { (s.coreAt site).ctxAt n with st := .ready }) else s := by
  have h12 : n ≠ 12 := by omega
  simp [State.wakeCtx, State.retireWfi_of_not hf, Core.waits, hw, hr, hh, h12]

/-! The word that is placed for the next step (R68). -/

/-- A core with no cause noted and its timer in the future has none due. -/
theorem State.dueCauses_idle {s : State} {c : Core} (hp : c.pending = []) (hr : c.raised = []) (hf : c.faults = [])
    (ht : s.cycle.toNat < c.timercmp.toNat) : s.dueCauses c = [] := by
  simp [State.dueCauses, State.staleFault, hp, hr, hf, ht]

theorem ofBytes_wordBytes (w : BitVec 32) : ofBytes (wordBytes w) = w.toNat := by
  simp only [wordBytes, ofBytes, BitVec.extractLsb'_toNat, Nat.shiftRight_eq_div_pow]
  omega

/-- The state right after reset with a word placed, once its turn has left the agenda. -/
def placed (w : Nat) : State := { State.reset.withFetchWord 32 w with agenda := [] }

/-- The core on which the word is placed does not depend on the word. -/
theorem placed_core (w : Nat) : (placed w).coreAt 0 = (placed 0).coreAt 0 := rfl

theorem placed_focus (w : Nat) : (placed w).focus 0 0 = placed w := rfl

theorem placed_codeWord {w : Nat} (hw : w < 2 ^ 32) : (placed w).codeWord 0 = some w := by
  have h : (placed w).codeWord 0 = some (ofBytes (wordBytes (BitVec.ofNat 32 w))) := rfl
  rw [h, ofBytes_wordBytes, BitVec.toNat_ofNat, Nat.mod_eq_of_lt hw]

theorem placed_fetched {w : Nat} {i : Instr} (hw : w < 2 ^ 32) (hi : decodeNat w = .ok i) : (placed w).fetched 0 = .ok i := by
  have h : (placed w).fetched 0 = match (placed w).codeWord 0 with
    | none => .error (Cause.bounds.code, 0)
    | some w => match decodeNat w with
      | .ok i => .ok i
      | .error _ => .error (Cause.illegal.code, illegalValue w false) := rfl
  rw [h, placed_codeWord hw]
  simp only [hi]

/-- The step after a placed word runs the instruction of that word. -/
theorem step_placed {w : Nat} {i : Instr} {t : State} (hw : w < 2 ^ 32) (hi : decodeNat w = .ok i)
    (ht : exec i (placed w) = .next t) (hl : t.latched 0 = false) :
    step (State.reset.withFetchWord 32 w) = .next (t.noteIssue 0 0 0).settled := by
  have hr : ((placed w).focus 0 0).runWord 0 = .next t := (State.runWord_of_instr (placed_fetched hw hi)).trans ht
  have hd : (placed w).dueCauses ((placed w).coreAt 0) = [] := State.dueCauses_idle rfl rfl rfl
    (show (0 : Word).toNat < ((placed 0).coreAt 0).timercmp.toNat by decide)
  have hx : ((placed w).coreAt 0).issuer 0 = some 0 := by rw [placed_core]; decide
  have hh : ((placed w).coreAt 0).round.head? = some 0 := by rw [placed_core]; decide
  refine step_of_issueTurn (s := State.reset.withFetchWord 32 w) rfl (by decide) ?_
  refine (State.issueTurn_of_issuer hd rfl rfl hx).trans ?_
  rw [if_pos hh]
  exact State.issue_of_word hr hl

/-- Settles O57: a named issue turn with no cause due is the issue of its context, which runs the word that is fetched. -/
theorem stepRunsDecoded : Obligations.StepRunsDecoded := by
  refine ⟨?_, ?_, ?_, fun _ _ => rfl, ?_, fun _ => rfl, ?_, ?_⟩
  · intro s site n x rest i t ha hs s0 c hd hp ht hx hh hf he
    have hr : (s0.focus site x).runWord site = .next t := (State.runWord_of_instr hf).trans he
    have hi : s0.issueTurn site n = s0.issue site x := (State.issueTurn_of_issuer hd ht hp hx).trans (if_pos hh)
    refine ⟨fun hl => step_of_issueTurn ha hs (hi.trans (State.issue_of_word hr hl)), fun j u hl hj hu => ?_⟩
    exact step_of_issueTurn ha hs (hi.trans (State.issue_of_pair hr hl ((State.runWord_of_instr hj).trans hu)))
  · intro s site n x rest ha hs s0 c hd hp ht hx
    have hi := State.issueTurn_of_issuer hd ht hp hx
    refine ⟨fun code v hh hf => step_of_issueTurn ha hs ((hi.trans (if_pos hh)).trans ?_),
      fun hh => step_of_issueTurn ha hs (hi.trans (if_neg hh))⟩
    exact State.issue_of_word (State.runWord_of_fault hf) (State.latched_of_fault (s0.focus_core site x) hx code v false)
  · intro s site n rest ha hs s0 c hd hp ht
    exact step_of_issueTurn ha hs (State.issueTurn_of_drains hd ht hp)
  · intro s i rest ha hi t ht
    exact step_of_turn ha (by simp only [runTurn, if_pos hi, ht])
  · intro s site n c hn hw hr hh hf
    exact State.wakeCtx_of_waiting hn hw hr hh hf
  · exact fun w i t hw hi _ ht hl => step_placed hw hi ht hl

end Sys2Proof.Machine
end

section
/-! SUPPORT. Prefixes (R44 to R46), the three-register instructions (R71), and what the ports that an instruction has used make of
the state when it retires (R37). -/

namespace Sys2Proof.Machine

/-! Prefixes (R45, R46). -/

section
variable {i : Instr} {p : Pfx} {s : State} {w : Nat}

theorem pfxBody_of_governs {j : Instr} (hw : s.codeWord (s.ctx.pc.toNat + 4) = some w) (hd : decodeUnder p w = .ok j) :
    pfxBody i p s = .next { s.setCtx { s.ctx with pfx := p, pc := s.ctx.pc + 4 } with tx := {} } := by
  simp only [pfxBody, hw, hd]
  rfl

theorem pfxBody_of_outside (hw : s.codeWord (s.ctx.pc.toNat + 4) = none) :
    pfxBody i p s = .next ((s.setCtx { s.ctx with pfx := p, pc := s.ctx.pc + 4 }).trapHere Cause.bounds.code (s.ctx.pc + 4) false) := by
  simp only [pfxBody, hw]
  rfl

theorem pfxBody_of_badPair (hw : s.codeWord (s.ctx.pc.toNat + 4) = some w) (hd : decodeUnder p w = .error .badPair) :
    pfxBody i p s = .next ((s.setCtx { s.ctx with pfx := p, pc := s.ctx.pc + 4 }).trapHere Cause.illegal.code
      (BitVec.ofNat 64 (wordNat i)) false) := by
  simp only [pfxBody, hw, hd]
  rfl

end

/-! The three-register instructions (R71). -/

theorem ofBool_decide (p : Word → Word → Prop) [∀ x y, Decidable (p x y)] :
    (fun x y => ofBool (decide (p x y))) = fun x y => if p x y then 1 else 0 := by
  funext x y
  simp [ofBool]

/-- Each of them reads its sources in the order a, b and writes the result (R37), on every core. -/
theorem exec_aluOps {e : (BitVec 5 → BitVec 5 → BitVec 5 → Instr) × (Word → Word → Word)} (he : e ∈ aluOps)
    (d a b : BitVec 5) (s : State) :
    exec (e.1 d a b) s = runInstr (e.1 d a b) (alu2 e.2 d a b) s ∧ (e.1 d a b).wf = true ∧ s.hasUnit (e.1 d a b) = true := by
  simp only [aluOps, List.mem_cons, List.not_mem_nil, or_false] at he
  rcases he with rfl | rfl | rfl | rfl | rfl | rfl | rfl | rfl | rfl | rfl | rfl | rfl | rfl | rfl | rfl | rfl | rfl
  -- the model writes the conditions of `slt` and `sltu`, the ninth and the tenth, as Booleans
  iterate 8 exact ⟨rfl, rfl, hasUnit_of_plain rfl rfl s⟩
  · exact ⟨congrArg (fun f => runInstr _ (alu2 f d a b) s) (ofBool_decide _), rfl, hasUnit_of_plain rfl rfl s⟩
  · exact ⟨congrArg (fun f => runInstr _ (alu2 f d a b) s) (ofBool_decide _), rfl, hasUnit_of_plain rfl rfl s⟩
  all_goals exact ⟨rfl, rfl, hasUnit_of_plain rfl rfl s⟩

/-- The second source and the destination are registers: what the first source leaves is read and written on. -/
theorem alu2_run {f : Word → Word → Word} {d a b : BitVec 5} {w : Word} {s t : State} (ha : rdS a s = .ok w t)
    (hb : plain b = true) (hd : plain d = true) :
    alu2 f d a b s = .ok () (t.setCtx (t.ctx.setS d.toNat (f w (t.src b)))) := by
  rw [alu2, Op.bind_ok ha, Op.bind_ok (rdS_plain hb t), wrS_plain hd]

theorem alu2_error {f : Word → Word → Word} {d a b : BitVec 5} {s t : State} {e : Exit} (ha : rdS a s = .error e t) :
    alu2 f d a b s = .error e t := by
  rw [alu2, Op.bind_error ha]

/-! Retiring with a port (R37). -/

@[simp] theorem Core.setCtx_ctxAt (c : Core) (n : Nat) : c.setCtx n (c.ctxAt n) = c := by
  simp only [Core.setCtx, Core.ctxAt]
  congr 1
  ext i hi : 1
  simp only [Vector.getElem_setIfInBounds]
  split
  · subst_vars
    simp [hi]
  · rfl

theorem State.setCtx_ctx (s : State) : s.setCtx s.ctx = s.setCore s.site s.core := by
  simp [State.setCtx, State.ctx]

/-- The executing core stands in the table of cores, as after every change of it. -/
def State.Listed (s : State) : Prop := s.setCore s.site s.core = s

theorem State.listed_setCore (s : State) (c : Core) : (s.setCore s.site c).Listed := by
  simp [State.Listed]

theorem State.listed_setCtx (s : State) (x : Context) : (s.setCtx x).Listed := s.listed_setCore _

theorem State.Listed.setCtx_ctx {s : State} (h : s.Listed) : s.setCtx s.ctx = s := s.setCtx_ctx.trans h

/-- The executing context has left every line in which it waited, and nothing is noted any longer. -/
def State.offLines (s : State) : State :=
  { s with waitq := s.waitq.filter fun w => !(decide (w.site = s.site) && decide (w.ctx = s.core.act)), tx := {} }

theorem State.retire_of_commitPorts {s u : State} (h : s.commitPorts = u.offLines) : s.retire = u.retiresTo s.tx.npc := by
  simp only [State.retire, h]
  rfl

section
variable (s : State) (x : Tx)

@[simp] theorem State.noting_core : (s.noting x).core = s.core := rfl
@[simp] theorem State.noting_ctx : (s.noting x).ctx = s.ctx := rfl
@[simp] theorem State.noting_src (r : BitVec 5) : (s.noting x).src r = s.src r := rfl
@[simp] theorem State.noting_setCtx (y : Context) : (s.noting x).setCtx y = (s.setCtx y).noting x := rfl
@[simp] theorem State.starts_noting (i : Instr) : (s.starts i).noting x = s.noting x := rfl

end

/-- An instruction whose effect ends in `t`, and whose ports make `u` of that, retires from `u`. -/
theorem runInstr_retires {i : Instr} {body : Op Unit} {s t u : State} (hi : i.wf = true) (hu : s.hasUnit i = true)
    (hb : body (s.starts i) = .ok () t) (hc : t.commitPorts = u.offLines) (hw : t.tx.watch = none) (ha : t.tx.after = none)
    (hd : t.tx.dbg = u.core.dbgctl) (hf : u.calm = true) : runInstr i body s = .next (u.retiresTo t.tx.npc) := by
  have hs : (u.retiresTo t.tx.npc).stepped t.tx (s.starts i).ctx.faultPc = u.retiresTo t.tx.npc := by
    simp only [State.calm, Bool.not_eq_true'] at hf
    simp only [State.stepped, State.core_retiresTo, Core.setCtx_act, Core.setCtx_halted, hd]
    exact if_neg (Bool.eq_false_iff.1 hf)
  rw [runInstr_eq i body s hi hu, withRoom_ok hb]
  simp only [finish, State.complete, State.retire_of_commitPorts hc, hw, ha, hs]

/-! The acquire of a completion record's destinations (R187) changes memory and the executing context. -/

section
variable (s : State)

theorem State.copyPoison_noting (l : Loc) (key off n : Nat) (x : Tx) :
    (s.noting x).copyPoison l key off n = (s.copyPoison l key off n).noting x := by
  unfold State.copyPoison
  split
  · rfl
  · rfl

/-- The core's own copy at key `c` takes the bytes of a destination and is clean there. -/
def State.refreshAt (t : State) (d : Word × Loc × Nat × Nat) (c : Nat) : State :=
  (State.copyPoison { t with mem := t.mem.setBytes (c + 32 + d.2.2.1) (t.bodyBytes d.2.1 d.2.2.1 d.2.2.2) }
    d.2.1 c d.2.2.1 d.2.2.2).markClean (c + 32 + d.2.2.1) d.2.2.2

/-- The state after a destination is read anew: nothing changes where the core has no copy of its object beside it. -/
def State.refreshDest (t : State) (d : Word × Loc × Nat × Nat) : State :=
  match t.core.pad.copyOf d.1 with
  | some c => if d.2.1 = Loc.pad c then t else t.refreshAt d c
  | none => t

theorem State.acquireDest_eq (d : Word × Loc × Nat × Nat) : s.acquireDest d = (s.refreshDest d).setCtx { (s.refreshDest d).ctx with
    acquired := (acquire (s.refreshDest d).ctx.acquired ((s.refreshDest d).acqEntry d.1 d.2.1.level)).1 } := rfl

theorem State.refreshAt_noting (d : Word × Loc × Nat × Nat) (c : Nat) (x : Tx) :
    (s.noting x).refreshAt d c = (s.refreshAt d c).noting x := by
  have h := State.copyPoison_noting { s with mem := s.mem.setBytes (c + 32 + d.2.2.1) (s.bodyBytes d.2.1 d.2.2.1 d.2.2.2) }
    d.2.1 c d.2.2.1 d.2.2.2 x
  exact (congrArg (fun u : State => u.markClean (c + 32 + d.2.2.1) d.2.2.2) h :)

theorem State.refreshDest_noting (d : Word × Loc × Nat × Nat) (x : Tx) : (s.noting x).refreshDest d = (s.refreshDest d).noting x := by
  unfold State.refreshDest
  rw [State.noting_core]
  split
  · split
    · rfl
    · exact s.refreshAt_noting d _ x
  · rfl

theorem State.acquireDest_noting (d : Word × Loc × Nat × Nat) (x : Tx) : (s.noting x).acquireDest d = (s.acquireDest d).noting x := by
  rw [State.acquireDest_eq, State.refreshDest_noting]
  rfl

/-- The same context of the same core executes, under the same debug control. -/
structure State.Follows (t s : State) : Prop where
  site : t.site = s.site
  act : t.core.act = s.core.act
  dbgctl : t.core.dbgctl = s.core.dbgctl
  halted : t.core.halted = s.core.halted

namespace State.Follows
variable {s t : State}

theorem refl (s : State) : s.Follows s := ⟨rfl, rfl, rfl, rfl⟩

theorem of_core (hs : t.site = s.site) (hc : t.core = s.core) : t.Follows s := ⟨hs, by rw [hc], by rw [hc], by rw [hc]⟩

theorem trans {u : State} (h : t.Follows s) (g : u.Follows t) : u.Follows s :=
  ⟨g.site.trans h.site, g.act.trans h.act, g.dbgctl.trans h.dbgctl, g.halted.trans h.halted⟩

theorem setCtx (s : State) (x : Context) : (s.setCtx x).Follows s := by
  constructor <;> simp

theorem calm (h : t.Follows s) : t.calm = s.calm := by
  simp only [State.calm, h.act, h.dbgctl, h.halted]

theorem copyPoison (s : State) (l : Loc) (key off n : Nat) : (s.copyPoison l key off n).Follows s := by
  unfold State.copyPoison
  split
  · exact refl s
  · exact of_core rfl rfl

theorem refreshAt (s : State) (d : Word × Loc × Nat × Nat) (c : Nat) : (s.refreshAt d c).Follows s := by
  have h := copyPoison { s with mem := s.mem.setBytes (c + 32 + d.2.2.1) (s.bodyBytes d.2.1 d.2.2.1 d.2.2.2) }
    d.2.1 c d.2.2.1 d.2.2.2
  exact ⟨h.site, h.act, h.dbgctl, h.halted⟩

theorem refreshDest (s : State) (d : Word × Loc × Nat × Nat) : (s.refreshDest d).Follows s := by
  unfold State.refreshDest
  split
  · split
    · exact refl s
    · exact refreshAt s d _
  · exact refl s

theorem acquireDest (s : State) (d : Word × Loc × Nat × Nat) : (s.acquireDest d).Follows s := (refreshDest s d).trans (setCtx _ _)

theorem acquireRecord (s : State) (r : CompRec) : (s.acquireRecord r).Follows s := by
  unfold State.acquireRecord
  induction r.dests generalizing s with
  | nil => exact refl s
  | cons d l ih => exact (acquireDest s d).trans (ih _)

end State.Follows

theorem State.acquireRecord_noting (r : CompRec) (x : Tx) : (s.noting x).acquireRecord r = (s.acquireRecord r).noting x := by
  unfold State.acquireRecord
  induction r.dests generalizing s with
  | nil => rfl
  | cons d l ih => rw [List.foldl_cons, State.acquireDest_noting, ih, List.foldl_cons]

end

/-! What the ports make of a state: each part, from the part that an instruction has noted. -/

/-- The n oldest completion records are popped (R187). -/
def State.tookRecs (s : State) (n : Nat) : State :=
  let t := (s.ctx.recs.take n).foldl State.acquireRecord s
  t.setCtx { t.ctx with recs := t.ctx.recs.drop n }

/-- The newest elements of the bound DEQUE are taken (R213). -/
def State.tookNewest (s : State) (x : Tx) : State :=
  match x.deque with
  | some v => (List.range x.pops30).foldl (fun (u : State) _ => u.dqDropBottom v) s
  | none => s

/-- Words of the bound event line are taken (R201). -/
def State.tookLine (s : State) (x : Tx) : State :=
  if x.pops31 = 0 then s else
    match s.core.recId with
    | some rid => s.setRec rid ((s.recAt rid).takeFor (clusterOf s.site) (bitsOf x.bind 22 5) x.skip31 x.pops31)
    | none => s

/-- One-word messages go to the bound destination (R354). -/
def State.sent (s : State) (x : Tx) : State := x.pushes.foldl (fun (u : State) w => u.send ((u.noting x).portMessage w)) s

/-- All of them, in the order in which they are made (R37). -/
def State.ported (s : State) (x : Tx) : State := ((((s.tookWords x.pops28).tookRecs x.pops29).tookNewest x).tookLine x).sent x

section
variable (s : State) (x y : Tx)

theorem State.foldl_noting {α : Type} {f : State → α → State} (hf : ∀ t a, f (t.noting y) a = (f t a).noting y) (l : List α) :
    l.foldl f (s.noting y) = (l.foldl f s).noting y := by
  induction l generalizing s with
  | nil => rfl
  | cons a l ih => rw [List.foldl_cons, hf, ih, List.foldl_cons]

theorem State.tookRecs_noting (n : Nat) : (s.noting y).tookRecs n = (s.tookRecs n).noting y := by
  have h := s.foldl_noting y (fun t r => t.acquireRecord_noting r y) (s.ctx.recs.take n)
  unfold State.tookRecs
  rw [State.noting_ctx, h]
  rfl

theorem State.tookNewest_noting : (s.noting y).tookNewest x = (s.tookNewest x).noting y := by
  unfold State.tookNewest
  split
  next v _ => exact s.foldl_noting y (fun t _ => (WritesMemory.dqDropBottom v).noting t y) _
  · rfl

theorem State.tookLine_noting : (s.noting y).tookLine x = (s.tookLine x).noting y := by
  unfold State.tookLine
  rw [State.noting_core]
  split
  · rfl
  · split
    · rfl
    · rfl

theorem State.sent_noting : (s.noting y).sent x = (s.sent x).noting y := s.foldl_noting y (fun _ _ => rfl) _

theorem State.ported_noting : (s.noting y).ported x = (s.ported x).noting y := by
  unfold State.ported
  rw [show (s.noting y).tookWords x.pops28 = (s.tookWords x.pops28).noting y from rfl, State.tookRecs_noting,
    State.tookNewest_noting, State.tookLine_noting, State.sent_noting]

/-- The ports of an instruction that used no stream. -/
theorem State.commitPorts_noting (hs : x.spops = []) (hf : (s.ported x).Follows s) : (s.noting x).commitPorts = (s.ported x).offLines := by
  have h : (s.noting x).commitPorts = { (s.noting x).ported x with
      waitq := ((s.noting x).ported x).waitq.filter fun w => !(decide (w.site = s.site) && decide (w.ctx = s.core.act)), tx := {} } := by
    cases x
    cases hs
    rfl
  rw [h, State.ported_noting, ← hf.site, ← hf.act]
  rfl

end

end Sys2Proof.Machine
end

section
/-! SUPPORT. The ports of the three-register instructions (R36 to R38, R91, R201, R213, R354): what a read of each port finds, and
what it leaves when the instruction retires. -/

namespace Sys2Proof.Machine

/-! What one port makes of a state. -/

section
variable {s : State} {x : Tx}

theorem State.tookWords_zero (s : State) : s.tookWords 0 = s.setCtx s.ctx := s.setCtx_ctx.symm

theorem State.tookRecs_zero (hl : s.Listed) : s.tookRecs 0 = s := hl.setCtx_ctx

/-- Where nothing is popped from the receive queue and no completion record is. -/
theorem State.took_none (s : State) : (s.tookWords 0).tookRecs 0 = s.setCtx s.ctx := by
  rw [State.tookWords_zero, State.tookRecs_zero (s.listed_setCtx _)]

theorem State.took_none_listed (hl : s.Listed) : (s.tookWords 0).tookRecs 0 = s := s.took_none.trans hl.setCtx_ctx

theorem State.ported_quiet (hx : x.quiet) : s.ported x = s.setCtx s.ctx := by
  cases x
  obtain ⟨rfl, rfl, rfl, rfl, -, rfl, -⟩ := hx
  exact s.took_none

theorem State.ported_word (hx : x.quiet) : s.ported { x with pops28 := 1 } = s.tookWord := by
  cases x
  obtain ⟨-, rfl, rfl, rfl, -, rfl, -⟩ := hx
  exact State.tookRecs_zero (s.listed_setCore _)

theorem State.ported_record (hl : s.Listed) (hx : x.quiet) {r : CompRec} (hr : s.ctx.recs[0]? = some r) :
    s.ported { x with pops29 := 1 } = s.tookRecord r := by
  cases x
  obtain ⟨rfl, -, rfl, rfl, -, rfl, -⟩ := hx
  have ht : s.ctx.recs.take 1 = [r] := by
    rw [List.take_one, List.head?_eq_getElem?, hr, Option.toList_some]
  have h : s.tookRecs 1 = s.tookRecord r := by
    rw [State.tookRecs, ht]
    rfl
  exact (congrArg (State.tookRecs · 1) (s.tookWords_zero.trans hl.setCtx_ctx)).trans h

theorem State.ported_newest (hl : s.Listed) (hx : x.quiet) (v : Loc) :
    s.ported { x with pops30 := 1, deque := some v } = s.dqDropBottom v := by
  cases x
  obtain ⟨rfl, rfl, rfl, -, -, rfl, -⟩ := hx
  exact congrArg (State.dqDropBottom · v) (State.took_none_listed hl)

theorem State.ported_line (hl : s.Listed) (hx : x.quiet) {rid : Nat} (hr : s.core.recId = some rid) :
    s.ported { x with pops31 := 1, skip31 := 0 }
      = s.setRec rid ((s.recAt rid).takeFor (clusterOf s.site) (bitsOf x.bind 22 5) 0 1) := by
  have h : s.tookLine { x with pops31 := 1, skip31 := 0 }
      = s.setRec rid ((s.recAt rid).takeFor (clusterOf s.site) (bitsOf x.bind 22 5) 0 1) := by
    rw [State.tookLine, if_neg Nat.one_ne_zero, hr]
  cases x
  obtain ⟨rfl, rfl, -, rfl, -, rfl, -⟩ := hx
  exact (congrArg (State.tookLine · _) (State.took_none_listed hl)).trans h

theorem State.ported_push (hx : x.quiet) (w : Word) : s.ported { x with pushes := [w] }
    = (s.setCtx s.ctx).send (((s.setCtx s.ctx).noting { x with pushes := [w] }).portMessage w) := by
  cases x
  obtain ⟨rfl, rfl, rfl, rfl, -⟩ := hx
  exact congrArg (State.sent · _) s.took_none

end

/-! What a read of a port finds. -/

section
variable {s : State}

theorem port28_word {w : Word} (h : s.core.rxWords[s.tx.pops28]? = some w) :
    port28 s = .ok w (s.noting { s.tx with pops28 := s.tx.pops28 + 1 }) := by
  simp only [port28, Op.bind_run, Op.get_run, h, modTx, Op.modify_run, Op.pure_run]
  rfl

theorem port28_empty (h : s.core.rxWords[s.tx.pops28]? = none) :
    port28 s = if s.tx.nonBlocking 32 = true then .ok 0 s else .error .wait s := by
  simp only [port28, Op.bind_run, Op.get_run, h]
  split <;> rfl

/-- A loop whose every pass goes on from the same state; the set that it carries has room for an entry of each pass. -/
theorem Op.forIn_acquired {f : Word × Loc × Nat × Nat → List AcqEntry → Op (ForInStep (List AcqEntry))}
    (hf : ∀ d b, b.length < 16 → ∃ b', f d b s = .ok (.yield b') s ∧ b'.length ≤ b.length + 1) :
    ∀ (l : List (Word × Loc × Nat × Nat)) (b : List AcqEntry), b.length + l.length ≤ 16 → ∃ b', forIn l b f s = .ok b' s
  | [], b, _ => ⟨b, rfl⟩
  | d :: l, b, hb => by
    rw [List.length_cons] at hb
    obtain ⟨b', hd, hl⟩ := hf d b (by omega)
    obtain ⟨b'', h⟩ := Op.forIn_acquired hf l b' (by omega)
    exact ⟨b'', by rw [List.forIn_cons, Op.bind_ok hd]; exact h⟩

/-- A loop that does nothing. -/
theorem Op.forIn_idle {α : Type} {f : α → PUnit → Op (ForInStep PUnit)} :
    ∀ l : List α, (∀ d ∈ l, f d ⟨⟩ s = .ok (.yield ⟨⟩) s) → forIn l ⟨⟩ f s = .ok ⟨⟩ s
  | [], _ => rfl
  | d :: l, h => by
    rw [List.forIn_cons, Op.bind_ok (h d (List.mem_cons_self ..))]
    exact Op.forIn_idle l fun e he => h e (List.mem_cons_of_mem d he)

theorem Op.loop_done {β : Type} {x : Op β} (h : ∃ b, x s = .ok b s) : (x >>= fun _ => pure PUnit.unit) s = .ok ⟨⟩ s := by
  obtain ⟨b, h⟩ := h
  rw [Op.bind_ok h]
  rfl

theorem awaitReds_of_none {l : Loc} {off n : Nat} (h : s.redsOn l off n = false) : awaitReds l off n s = .ok () s := by
  simp [awaitReds, Op.bind_run, h]

theorem acquire_of_room {l : List AcqEntry} {e : AcqEntry} (h : l.length < 16) :
    (acquire l e).2 = none ∧ (acquire l e).1.length ≤ l.length + 1 := by
  have hl := l.length_filter_le fun x => decide (x.obj ≠ e.obj)
  rw [acquire, if_pos (by omega)]
  simp only [List.length_append, List.length_singleton]
  exact ⟨trivial, by omega⟩

/-- Destinations with no pending reduction, for which the acquired set has room, are ready at once (R184, R195). -/
theorem readyDests_of_room {ds : List (Word × Loc × Nat × Nat)} (hr : ∀ d ∈ ds, s.redsOn d.2.1 d.2.2.1 d.2.2.2 = false)
    (hl : s.ctx.acquired.length + ds.length ≤ 16) : readyDests ds s = .ok () s := by
  unfold readyDests
  rw [Op.bind_ok (Op.forIn_idle ds fun d hd => Op.bind_ok (awaitReds_of_none (hr d hd)))]
  rw [Op.bind_ok (Op.get_run s)]
  refine Op.loop_done (Op.forIn_acquired (fun d b hb => ?_) ds _ hl)
  obtain ⟨hn, hle⟩ := acquire_of_room (e := s.acqEntry d.1 d.2.1.level) hb
  generalize acquire b (s.acqEntry d.1 d.2.1.level) = p at hn hle
  obtain ⟨l, o⟩ := p
  cases hn
  exact ⟨l, rfl, hle⟩

theorem port29_record {r : CompRec} (hr : s.ctx.recs[0]? = some r) (h0 : s.tx.pops29 = 0)
    (hd : ∀ d ∈ r.dests, s.redsOn d.2.1 d.2.2.1 d.2.2.2 = false) (hl : s.ctx.acquired.length + r.dests.length ≤ 16) :
    port29 s = .ok r.word (s.noting { s.tx with pops29 := s.tx.pops29 + 1 }) := by
  have ht : ((s.ctx.recs.take (s.tx.pops29 + 1)).map (·.dests)).flatten = r.dests := by
    rw [h0, List.take_one, List.head?_eq_getElem?, hr]
    simp
  rw [← h0] at hr
  simp only [port29, Op.bind_run, Op.get_run, hr, ht, readyDests_of_room hd hl]
  rfl

/-- A word that nobody waits for is read from the line (R200, R201). -/
theorem port31_word {w : Word} {k : Nat} (hk : bitsOf s.tx.bind 22 5 = k) (hc : isChan s.site = false)
    (ha : s.ahead (s.lineKey k) = 0) (h0 : s.tx.pops31 = 0) (hw : (s.ownRec.wordsFor (clusterOf s.site) k)[0]? = some w) (hne : w ≠ 0) :
    port31 s = .ok w (s.noting { s.tx with pops31 := s.tx.pops31 + 1, skip31 := 0 }) := by
  subst hk
  have hl : ∀ block, lineWord (bitsOf s.tx.bind 22 5) s.tx.pops31 block s = .ok w s := by
    intro block
    simp only [lineWord, Op.bind_run, Op.get_run, ha, h0, Nat.add_zero, hw, Op.pure_run]
  simp only [port31, Op.bind_run, Op.get_run, hc, Bool.false_eq_true, if_false, hl, if_pos hne, ha]
  rfl

theorem takeSlot_of_sound {v : Loc} {cap i : Nat} (h : s.bodyPoisoned v (32 + 8 * (i % cap)) 8 = false) (p : Word) :
    takeSlot p v cap i s = .ok (s.dqSlot v cap i) s := by
  simp only [takeSlot, Op.bind_run, Op.get_run, h, require_true, Bool.not_false, Op.pure_run]

theorem port30_unbound (h : s.tx.bind.getLsbD 21 = false) : port30 s = .error (.trap .type 0) s := by
  simp only [port30, Op.bind_run, Op.get_run, h]
  rfl

section
variable {t : State} {v : Loc} (hb : s.tx.bind.getLsbD 21 = true)
  (hp : ptrLevel (s.ctx.areg (bitsOf s.tx.bind 17 4)).ptr ≠ 7)
  (hv : syncCopy (bitsOf s.tx.bind 17 4) (levelScope (ptrLevel (s.ctx.areg (bitsOf s.tx.bind 17 4)).ptr)) 32 dequeOk s = .ok v t)
include hb hp hv

/-- The newest element of the DEQUE whose copy is found is taken (R213). -/
theorem port30_newest (hn : t.dqAhead v + t.tx.pops30 < t.dqCount v)
    (hs : t.bodyPoisoned v (32 + 8 * ((t.dqBottom v + 2 ^ 32 - 1 - t.tx.pops30) % (dqCap (t.hdr v).len).getD 2)) 8 = false) :
    port30 s = .ok (t.dqSlot v ((dqCap (t.hdr v).len).getD 2) (t.dqBottom v + 2 ^ 32 - 1 - t.tx.pops30))
      (t.noting { t.tx with pops30 := t.tx.pops30 + 1, deque := some v }) := by
  simp only [port30, Op.bind_run, Op.get_run, hb, Bool.not_true, Bool.false_eq_true, if_false, rdA, getCtx, Op.pure_run, if_neg hp,
    hv, if_pos hn, takeSlot_of_sound hs]
  rfl

theorem port30_empty (hn : ¬ t.dqAhead v + t.tx.pops30 < t.dqCount v) :
    port30 s = if t.tx.nonBlocking 34 = true then .ok 0 t else .error .waitKeep (t.inLine (.deque v) 0) := by
  simp only [port30, Op.bind_run, Op.get_run, hb, Bool.not_true, Bool.false_eq_true, if_false, rdA, getCtx, Op.pure_run, if_neg hp,
    hv, if_neg hn]
  cases t.tx.nonBlocking 34 <;> rfl

end

end

/-! The three-register instructions with a port as the first source, or as the destination. -/

section
variable {e : (BitVec 5 → BitVec 5 → BitVec 5 → Instr) × (Word → Word → Word)} (he : e ∈ aluOps)
  {d a b : BitVec 5} {s t : State}
include he

/-- The read has noted `x` in the course of the instruction, and the ports make `u` of the written register. -/
theorem exec_alu_of_read {w : Word} {x : Tx} {u : State} (hd : plain d = true) (hb : plain b = true)
    (hr : rdS a (s.starts (e.1 d a b)) = .ok w ((t.starts (e.1 d a b)).noting x))
    (hx : x.spops = [] ∧ x.watch = none ∧ x.after = none ∧ x.npc = none ∧ x.dbg = t.core.dbgctl)
    (hp : (t.setCtx (t.ctx.setS d.toNat (e.2 w (t.src b)))).ported x = u)
    (hu : u.Follows (t.setCtx (t.ctx.setS d.toNat (e.2 w (t.src b))))) (hf : t.calm = true) :
    exec (e.1 d a b) s = .next u.retires := by
  obtain ⟨hexec, hwf, hunit⟩ := exec_aluOps he d a b s
  obtain ⟨hs, hw, ha, hn, hdbg⟩ := hx
  have hrun := alu2_run (f := e.2) hr hb hd
  simp only [State.starts_noting, State.noting_ctx, State.noting_src, State.noting_setCtx] at hrun
  have hut : u.Follows t := (State.Follows.setCtx t _).trans hu
  subst hp
  rw [hexec, runInstr_retires hwf hunit hrun (State.commitPorts_noting _ x hs hu) hw ha
    (hdbg.trans hut.dbgctl.symm) (hut.calm.trans hf)]
  exact congrArg (fun n => Host.Outcome.next (State.retiresTo _ n)) hn

/-- A read that notes nothing. -/
theorem exec_alu_of_idle_read {w : Word} (hd : plain d = true) (hb : plain b = true)
    (hr : rdS a (s.starts (e.1 d a b)) = .ok w (t.starts (e.1 d a b))) (hf : t.calm = true) :
    exec (e.1 d a b) s = .next (t.gives d (e.2 w (t.src b))) :=
  exec_alu_of_read he hd hb hr ⟨rfl, rfl, rfl, rfl, rfl⟩
    ((State.ported_quiet (t.starts_quiet _)).trans (t.listed_setCtx _).setCtx_ctx) (.refl _) hf

theorem exec_alu_of_wait (hr : rdS a (s.starts (e.1 d a b)) = .error .wait (s.starts (e.1 d a b))) :
    ∃ x, exec (e.1 d a b) s = .next (s.waits x) := by
  obtain ⟨hexec, hwf, hunit⟩ := exec_aluOps he d a b s
  obtain ⟨u, hu, rfl⟩ := runInstr_wait hwf hunit (alu2_error (f := e.2) (b := b) (d := d) hr)
  exact ⟨(s.starts (e.1 d a b)).tx, hexec.trans hu⟩

/-- A read that joins a line and waits there. -/
theorem exec_alu_of_join {k : WaitKey} (hr : rdS a (s.starts (e.1 d a b)) = .error .waitKeep ((t.starts (e.1 d a b)).inLine k 0)) :
    exec (e.1 d a b) s = .next ((t.inLine k 0).waits {}) := by
  obtain ⟨hexec, hwf, hunit⟩ := exec_aluOps he d a b s
  rw [hexec, runInstr_eq _ _ s hwf hunit, withRoom_error (alu2_error hr) (by simp)]
  rfl

theorem exec_alu_of_trap {c : Cause} {v : Word} (hr : rdS a (s.starts (e.1 d a b)) = .error (.trap c v) (s.starts (e.1 d a b))) :
    exec (e.1 d a b) s = .next (s.trapHere c.code v c.async) := by
  obtain ⟨hexec, hwf, hunit⟩ := exec_aluOps he d a b s
  rw [hexec, runInstr_trapHere hwf hunit (alu2_error hr)]

end

/-! Writes of ports. -/

section
variable {s : State}

/-- A result that goes to `s28` is sent when the instruction retires (R354). -/
theorem wrS_port28 {v : Word} (ht : bitsOf s.tx.bind 0 13 < (s.tableRec.map Rec.tableSize).getD 0)
    (hr : s.sendUsed s.site + s.tx.pushes.length < 8) :
    wrS 28 v s = .ok () (s.noting { s.tx with pushes := s.tx.pushes ++ [v] }) := by
  have hr' : sendRoom s = .ok () s := by
    simp only [sendRoom, Op.bind_run, Op.get_run, if_neg (Nat.not_le.2 hr), Op.pure_run]
  simp only [wrS, if_true, Op.bind_run, Op.get_run, if_neg (Nat.not_le.2 ht), hr']
  rfl

/-- A result that goes to `s29`, `s30` or `s31` is discarded (R36). -/
theorem wrS_discards {z : BitVec 5} (hz : z ∈ ([29, 30, 31] : List (BitVec 5))) (v : Word) : wrS z v s = .ok () s := by
  simp only [List.mem_cons, List.not_mem_nil, or_false] at hz
  rcases hz with rfl | rfl | rfl <;> rfl

/-- What a message holds is what its sender's core, the records and what binds the port give. -/
theorem State.portMessage_congr {t : State} (hs : t.site = s.site) (hc : t.core = s.core) (hr : t.recs = s.recs)
    (hx : t.tx.bind = s.tx.bind ∧ t.tx.sctx = s.tx.sctx ∧ t.tx.ctag = s.tx.ctag) (w : Word) : t.portMessage w = s.portMessage w := by
  obtain ⟨hb, hsc, hg⟩ := hx
  have htable : t.tableRecId = s.tableRecId := by
    unfold State.tableRecId State.recAt
    rw [hc, hr]
  have hown : t.ownRec = s.ownRec := by
    unfold State.ownRec State.recAt
    rw [hc, hr]
  unfold State.portMessage State.flit State.asid State.ctx
  rw [hs, hc, hb, hsc, hg, htable, hown]

theorem State.portMessage_listed (x : Tx) (l : List Word) (w : Word) :
    ((s.setCtx s.ctx).noting { x with pushes := l }).portMessage w = (s.noting x).portMessage w := by
  have hc : (s.setCtx s.ctx).core = s.core := (s.core_setCtx s.ctx).trans (Core.setCtx_ctxAt _ _)
  apply State.portMessage_congr
  · rfl
  · rw [State.noting_core, State.noting_core, hc]
  · rfl
  · exact ⟨rfl, rfl, rfl⟩

variable {e : (BitVec 5 → BitVec 5 → BitVec 5 → Instr) × (Word → Word → Word)} (he : e ∈ aluOps) {a b : BitVec 5}
  (ha : plain a = true) (hb : plain b = true) (hf : s.calm = true)
include he ha hb hf

theorem exec_alu_sends (ht : bitsOf s.ctx.portbind 0 13 < (s.tableRec.map Rec.tableSize).getD 0) (hr : s.sendUsed s.site < 8) :
    exec (e.1 28 a b) s
      = .next ((s.setCtx s.ctx).send ((s.starts (e.1 28 a b)).portMessage (e.2 (s.src a) (s.src b)))).retires := by
  obtain ⟨hexec, hwf, hunit⟩ := exec_aluOps he 28 a b s
  have hrun : alu2 e.2 28 a b (s.starts (e.1 28 a b)) = .ok () ((s.starts (e.1 28 a b)).noting
      { (s.starts (e.1 28 a b)).tx with pushes := [e.2 (s.src a) (s.src b)] }) := by
    rw [alu2, Op.bind_ok (rdS_plain ha _), Op.bind_ok (rdS_plain hb _), wrS_port28 (s := s.starts (e.1 28 a b)) ht hr]
    rfl
  have hp := State.ported_push (s := s) (s.starts_quiet (e.1 28 a b)) (e.2 (s.src a) (s.src b))
  rw [State.portMessage_listed] at hp
  have hu : (s.ported { (s.starts (e.1 28 a b)).tx with pushes := [e.2 (s.src a) (s.src b)] }).Follows s := by
    rw [hp]
    exact (State.Follows.setCtx s s.ctx).trans (.of_core rfl rfl)
  have hc := State.commitPorts_noting s _ rfl hu
  rw [hexec, runInstr_retires hwf hunit hrun hc rfl rfl hu.dbgctl.symm (hu.calm.trans hf), hp]
  rfl

theorem exec_alu_discards {z : BitVec 5} (hz : z ∈ ([29, 30, 31] : List (BitVec 5))) : exec (e.1 z a b) s = .next s.retires := by
  obtain ⟨hexec, hwf, hunit⟩ := exec_aluOps he z a b s
  have hrun : alu2 e.2 z a b (s.starts (e.1 z a b)) = .ok () (s.starts (e.1 z a b)) := by
    rw [alu2, Op.bind_ok (rdS_plain ha _), Op.bind_ok (rdS_plain hb _), wrS_discards hz]
  rw [hexec, runInstr_ok hwf hunit hrun (s.starts_quiet _) rfl hf]
  rfl

end

/-! What the ports leave of the executing core, and the lines in which nobody waits. -/

/-- Where no context waits for a key, none stands before the executing one (R200). -/
theorem State.ahead_of_none {s : State} {k : WaitKey} (h : ∀ w ∈ s.waitq, w.key ≠ k) : s.ahead k = 0 := by
  have hf : (s.waitq.filter fun w => decide (w.key = k)) = [] := List.filter_eq_nil_iff.2 fun w hw => by simp [h w hw]
  simp [State.ahead, hf]

theorem State.dqAhead_of_none {s : State} {v : Loc} (h : ∀ w ∈ s.waitq, w.key ≠ .deque v) : s.dqAhead v = 0 := by
  simp [State.dqAhead, State.ahead_of_none h]

theorem State.Follows.dqDropBottom (s : State) (v : Loc) : (s.dqDropBottom v).Follows s := by
  have hs := (WritesMemory.dqDropBottom v).site s
  refine .of_core hs ?_
  rw [State.core, State.coreAt, hs, (WritesMemory.dqDropBottom v).cores s]
  rfl

theorem State.Follows.tookWord (s : State) : s.tookWord.Follows s := by
  constructor <;> simp [State.tookWord]

theorem State.Follows.tookRecord (s : State) (r : CompRec) : (s.tookRecord r).Follows s :=
  (State.Follows.acquireRecord s r).trans (.setCtx _ _)

/-! Each port, in the order of the statement. -/

section
variable {e : (BitVec 5 → BitVec 5 → BitVec 5 → Instr) × (Word → Word → Word)} (he : e ∈ aluOps) {d b : BitVec 5}
  (hd : plain d = true) (hb : plain b = true) {s : State}
include he hd hb

theorem exec_alu_port28 (hf : s.calm = true) {w : Word} (hw : s.core.rxWords[0]? = some w) :
    exec (e.1 d 28 b) s = .next (s.setCtx (s.ctx.setS d.toNat (e.2 w (s.src b)))).tookWord.retires :=
  exec_alu_of_read he hd hb (t := s) (port28_word hw) ⟨rfl, rfl, rfl, rfl, rfl⟩ (State.ported_word (s.starts_quiet _))
    (.tookWord _) hf

theorem exec_alu_port29 (hf : s.calm = true) {r : CompRec} (hr : s.ctx.recs[0]? = some r) (hact : s.core.act < 13)
    (hl : s.ctx.acquired.length + r.dests.length ≤ 16) (hds : ∀ x ∈ r.dests, s.redsOn x.2.1 x.2.2.1 x.2.2.2 = false) :
    exec (e.1 d 29 b) s = .next ((s.setCtx (s.ctx.setS d.toNat (e.2 r.word (s.src b)))).tookRecord r).retires := by
  have hr' : (s.setCtx (s.ctx.setS d.toNat (e.2 r.word (s.src b)))).ctx.recs[0]? = some r := by
    rw [State.ctx_setCtx s hact, Context.setS_recs, hr]
  exact exec_alu_of_read he hd hb (t := s) (port29_record hr rfl hds hl) ⟨rfl, rfl, rfl, rfl, rfl⟩
    (State.ported_record (s.listed_setCtx _) (s.starts_quiet _) hr') (.tookRecord _ r) hf

theorem exec_alu_port31 (hf : s.calm = true) {w : Word} {rid : Nat} (hc : isChan s.site = false) (hrid : s.core.recId = some rid)
    (hq : ∀ x ∈ s.waitq, x.key ≠ .line rid (clusterOf s.site) (bitsOf s.ctx.portbind 22 5)) (hne : w ≠ 0)
    (hw : ((s.recAt rid).wordsFor (clusterOf s.site) (bitsOf s.ctx.portbind 22 5))[0]? = some w) :
    exec (e.1 d 31 b) s = .next (((s.setCtx (s.ctx.setS d.toNat (e.2 w (s.src b)))).setRec rid
      ((s.recAt rid).takeFor (clusterOf s.site) (bitsOf s.ctx.portbind 22 5) 0 1)).retires) := by
  have hkey : s.lineKey (bitsOf s.ctx.portbind 22 5) = .line rid (clusterOf s.site) (bitsOf s.ctx.portbind 22 5) := by
    rw [State.lineKey, hrid, Option.getD_some]
  have hown : s.ownRec = s.recAt rid := by
    rw [State.ownRec, hrid]
  have ha : s.ahead (s.lineKey (bitsOf s.ctx.portbind 22 5)) = 0 := by
    rw [hkey]
    exact State.ahead_of_none hq
  rw [← hown] at hw
  refine exec_alu_of_read he hd hb (t := s) (port31_word rfl hc ha rfl hw hne) ⟨rfl, rfl, rfl, rfl, rfl⟩
    (State.ported_line (s.listed_setCtx _) (s.starts_quiet _) ?_) (.of_core rfl rfl) hf
  rw [State.core_setCtx]
  exact hrid

section
variable {t : State} {v : Loc} (hbound : s.ctx.portbind.getLsbD 21 = true)
  (hl : ptrLevel (s.ctx.areg (bitsOf s.ctx.portbind 17 4)).ptr ≠ 7)
  (hv : leads (e.1 d 30 b) (syncCopy (bitsOf s.ctx.portbind 17 4)
    (levelScope (ptrLevel (s.ctx.areg (bitsOf s.ctx.portbind 17 4)).ptr)) 32 dequeOk) s v t)
  (hq : ∀ x ∈ t.waitq, x.key ≠ .deque v)
include hbound hl hv hq

theorem exec_alu_port30 (hf : t.calm = true) (hn : t.dqCount v ≠ 0)
    (hs : t.bodyPoisoned v (32 + 8 * ((t.dqBottom v + 2 ^ 32 - 1) % (dqCap (t.hdr v).len).getD 2)) 8 = false) :
    exec (e.1 d 30 b) s = .next ((t.setCtx (t.ctx.setS d.toNat
      (e.2 (t.dqSlot v ((dqCap (t.hdr v).len).getD 2) (t.dqBottom v + 2 ^ 32 - 1)) (t.src b)))).dqDropBottom v).retires := by
  have h0 : t.dqAhead v + 0 < t.dqCount v := by
    rw [State.dqAhead_of_none hq]
    omega
  exact exec_alu_of_read he hd hb (port30_newest (s := s.starts _) (t := t.starts _) hbound hl hv h0 hs)
    ⟨rfl, rfl, rfl, rfl, rfl⟩ (State.ported_newest (t.listed_setCtx _) (t.starts_quiet _) v) (.dqDropBottom _ v) hf

end

end

/-- Of an empty DEQUE nothing is taken: the read gives 0, or its context joins the line (R213). -/
theorem rdS_port30_empty {i : Instr} {s t : State} {v : Loc} (hbound : s.ctx.portbind.getLsbD 21 = true)
    (hl : ptrLevel (s.ctx.areg (bitsOf s.ctx.portbind 17 4)).ptr ≠ 7)
    (hv : leads i (syncCopy (bitsOf s.ctx.portbind 17 4)
      (levelScope (ptrLevel (s.ctx.areg (bitsOf s.ctx.portbind 17 4)).ptr)) 32 dequeOk) s v t) (hn : t.dqCount v = 0) :
    rdS 30 (s.starts i) = if t.ctx.nonBlocking 34 = true then .ok 0 (t.starts i)
      else .error .waitKeep ((t.starts i).inLine (.deque v) 0) := by
  have h0 : ¬ t.dqAhead v + 0 < t.dqCount v := by omega
  exact port30_empty (s := s.starts i) (t := t.starts i) hbound hl hv h0

/-- Of an empty receive queue nothing is popped: the read gives 0, or its context waits (R37, R354). -/
theorem rdS_port28_empty {i : Instr} {s : State} (h : s.core.rxWords = []) : rdS 28 (s.starts i)
    = if s.ctx.nonBlocking 32 = true then .ok 0 (s.starts i) else .error .wait (s.starts i) :=
  port28_empty (s := s.starts i) (by rw [State.starts_core, h]; rfl)

/-- Settles O6: a `pfx` looks at the word that it governs; a port is read in the course of the instruction and popped as it
retires. -/
theorem prefixesAndQueuePorts : Obligations.PrefixesAndQueuePorts := by
  refine ⟨⟨fun p s w i hw hd => pfxBody_of_governs hw hd, fun r s w i hw hd => pfxBody_of_governs hw hd,
    fun x s w i hw hd => pfxBody_of_governs hw hd, fun e he p s => ?_⟩, fun e he d a b s hd ha hb hf => ?_⟩
  · simp only [List.mem_cons, List.not_mem_nil, or_false] at he
    rcases he with rfl | rfl | rfl <;>
      exact ⟨fun hw => pfxBody_of_outside hw, fun w hw hd => pfxBody_of_badPair hw hd⟩
  refine ⟨fun w hw => exec_alu_port28 he hd hb hf hw, fun h0 hn => ?_, fun h0 hn => ?_,
    fun r hr hact hl hds => exec_alu_port29 he hd hb hf hr hact hl hds,
    fun w rid hc hrid hq hne _ hw => exec_alu_port31 he hd hb hf hc hrid hq hne hw,
    fun hu => exec_alu_of_trap he (port30_unbound hu), ?_, fun ht hr => exec_alu_sends he ha hb hf ht hr,
    fun z hz => exec_alu_discards he ha hb hf hz⟩
  · exact exec_alu_of_idle_read he hd hb ((rdS_port28_empty h0).trans (if_pos hn)) hf
  · exact exec_alu_of_wait he ((rdS_port28_empty h0).trans (if_neg (Bool.eq_false_iff.1 hn)))
  · intro v t hbound r l i cap hl hv hq _ hft
    exact ⟨fun hn hs => exec_alu_port30 he hd hb hbound hl hv hq hft hn hs,
      fun h0 hn => exec_alu_of_idle_read he hd hb ((rdS_port30_empty hbound hl hv h0).trans (if_pos hn)) hft,
      fun h0 hn => exec_alu_of_join he ((rdS_port30_empty hbound hl hv h0).trans (if_neg (Bool.eq_false_iff.1 hn)))⟩

end Sys2Proof.Machine
end

section
/-! SUPPORT. The arithmetic group with its immediates, and the divisions (R71 to R75). -/

namespace Sys2Proof.Machine

/-! Instructions with two sources (R71, R72). -/

/-- Each division reads its sources in the order a, b and writes the result, on every core. -/
theorem exec_divOps {e : (BitVec 5 → BitVec 5 → BitVec 5 → Instr) × (Word → Word → Word)} (he : e ∈ divOps)
    (d a b : BitVec 5) (s : State) :
    exec (e.1 d a b) s = runInstr (e.1 d a b) (alu2 e.2 d a b) s ∧ (e.1 d a b).wf = true ∧ s.hasUnit (e.1 d a b) = true := by
  simp only [divOps, List.mem_cons, List.not_mem_nil, or_false] at he
  rcases he with rfl | rfl | rfl | rfl
  all_goals exact ⟨rfl, rfl, hasUnit_of_plain rfl rfl s⟩

/-- Settles O2: a division is a three-register instruction with the result of R72. -/
theorem divisionResults : Obligations.DivisionResults := by
  intro e he d a b s hd ha hb hf
  obtain ⟨hexec, hwf, hunit⟩ := exec_divOps he d a b s
  exact hexec.trans (runInstr_gives hwf hunit hf (alu2_run (rdS_plain ha _) hb hd))

/-! Instructions with one source: the bit counts (R71). -/

theorem alu1_run {f : Word → Word} {d a : BitVec 5} (ha : plain a = true) (hd : plain d = true) (s : State) :
    alu1 f d a s = .ok () (s.setCtx (s.ctx.setS d.toNat (f (s.src a)))) := by
  rw [alu1, Op.bind_ok (rdS_plain ha s), wrS_plain hd]

theorem leadingZeros_spec (x : Word) (n : Nat) : leadingZeros x n ≤ n
    ∧ (∀ k, k < leadingZeros x n → x.getLsbD (n - 1 - k) = false)
    ∧ (leadingZeros x n < n → x.getLsbD (n - 1 - leadingZeros x n) = true) := by
  induction n with
  | zero => simp [leadingZeros]
  | succ n ih =>
    obtain ⟨hle, hzero, hone⟩ := ih
    rw [leadingZeros]
    split
    next h => simp [h]
    next h =>
      refine ⟨by omega, fun k hk => ?_, fun hlt => ?_⟩
      · cases k with
        | zero => simpa using h
        | succ k => rw [show n + 1 - 1 - (k + 1) = n - 1 - k by omega]; exact hzero k (by omega)
      · rw [show n + 1 - 1 - (leadingZeros x n + 1) = n - 1 - leadingZeros x n by omega]
        exact hone (by omega)

theorem trailingZeros_spec (x : Word) (i n : Nat) : trailingZeros x i n ≤ n
    ∧ (∀ k, k < trailingZeros x i n → x.getLsbD (i + k) = false)
    ∧ (trailingZeros x i n < n → x.getLsbD (i + trailingZeros x i n) = true) := by
  induction n generalizing i with
  | zero => simp [trailingZeros]
  | succ n ih =>
    obtain ⟨hle, hzero, hone⟩ := ih (i + 1)
    rw [trailingZeros]
    split
    next h => simp [h]
    next h =>
      refine ⟨by omega, fun k hk => ?_, fun hlt => ?_⟩
      · cases k with
        | zero => simpa using h
        | succ k => rw [show i + (k + 1) = i + 1 + k by omega]; exact hzero k (by omega)
      · rw [show i + (trailingZeros x (i + 1) n + 1) = i + 1 + trailingZeros x (i + 1) n by omega]
        exact hone (by omega)

theorem onesCount_eq_length (x : Word) (n : Nat) : onesCount x n = ((List.range n).filter fun k => x.getLsbD k).length := by
  induction n with
  | zero => rfl
  | succ n ih =>
    rw [onesCount, ih, List.range_succ, List.filter_append, List.length_append]
    cases h : x.getLsbD n <;> simp [h, Nat.add_comm]

theorem selBody_run {d a b c : BitVec 5} (ha : plain a = true) (hb : plain b = true) (hc : plain c = true) (hd : plain d = true)
    (s : State) :
    selBody d a b c s = .ok () (s.setCtx (s.ctx.setS d.toNat (if s.src c ≠ 0 then s.src a else s.src b))) := by
  rw [selBody, Op.bind_ok (rdS_plain ha s), Op.bind_ok (rdS_plain hb s), Op.bind_ok (rdS_plain hc s), wrS_plain hd]

/-! Immediates (R73). -/

theorem signExt_eq_toInt {n : Nat} (hn : 0 < n) (v : BitVec n) : signExt n v.toNat = v.toInt := by
  obtain ⟨m, rfl⟩ : ∃ m, n = m + 1 := ⟨n - 1, by omega⟩
  rw [signExt, Nat.mod_eq_of_lt v.isLt, BitVec.toInt_eq_toNat_cond, Nat.add_sub_cancel]
  have h : 2 ^ (m + 1) = 2 * 2 ^ m := by rw [pow_succ, mul_comm]
  split <;> split <;> omega

/-- The field that a `pfx imm` makes longer is the payload before the sixteen bits (R44). -/
theorem toNat_prefixed (p : BitVec 24) (i : BitVec 16) : (p ++ i).toNat = p.toNat * 65536 + i.toNat := by
  rw [BitVec.toNat_append, ← Nat.shiftLeft_add_eq_or_of_lt i.isLt, Nat.shiftLeft_eq]

theorem immField_run (i : BitVec 16) (s : State) :
    ∃ n v, immField i s = .ok (n, v) s ∧ signExt n v = s.ctx.immS i ∧ v = s.ctx.immU i := by
  simp only [immField, getCtx, Op.bind_run, Op.get_run, Op.pure_run, Context.immS, Context.immU]
  generalize s.ctx.pfx = x
  cases x with
  | imm p => exact ⟨40, _, rfl, by rw [← toNat_prefixed, signExt_eq_toInt (by decide)], (toNat_prefixed p i).symm⟩
  | _ => exact ⟨16, _, rfl, signExt_eq_toInt (by decide) i, rfl⟩

theorem immSigned_run (i : BitVec 16) (s : State) : immSigned i s = .ok (BitVec.ofInt 64 (s.ctx.immS i)) s := by
  obtain ⟨n, v, hrun, hs, -⟩ := immField_run i s
  rw [immSigned, Op.bind_ok hrun, ← hs]
  rfl

theorem immUnsigned_run (i : BitVec 16) (s : State) : immUnsigned i s = .ok (BitVec.ofNat 64 (s.ctx.immU i)) s := by
  obtain ⟨n, v, hrun, -, hu⟩ := immField_run i s
  rw [immUnsigned, Op.bind_ok hrun, ← hu]
  rfl

theorem aluImm_signed_run {f : Word → Word → Word} {d a : BitVec 5} (ha : plain a = true) (hd : plain d = true) (i : BitVec 16)
    (s : State) : aluImm f true d a i s
      = .ok () (s.setCtx (s.ctx.setS d.toNat (f (s.src a) (BitVec.ofInt 64 (s.ctx.immS i))))) := by
  rw [aluImm, Op.bind_ok (rdS_plain ha s), if_pos rfl, Op.bind_ok (immSigned_run i s), wrS_plain hd]

theorem aluImm_unsigned_run {f : Word → Word → Word} {d a : BitVec 5} (ha : plain a = true) (hd : plain d = true) (i : BitVec 16)
    (s : State) : aluImm f false d a i s
      = .ok () (s.setCtx (s.ctx.setS d.toNat (f (s.src a) (BitVec.ofNat 64 (s.ctx.immU i))))) := by
  rw [aluImm, Op.bind_ok (rdS_plain ha s), if_neg Bool.false_ne_true, Op.bind_ok (immUnsigned_run i s), wrS_plain hd]

theorem exec_immSOps {e : (BitVec 5 → BitVec 5 → BitVec 16 → Instr) × (Word → Word → Word)} (he : e ∈ immSOps)
    (d a : BitVec 5) (i : BitVec 16) (s : State) :
    exec (e.1 d a i) s = runInstr (e.1 d a i) (aluImm e.2 true d a i) s ∧ (e.1 d a i).wf = true
      ∧ s.hasUnit (e.1 d a i) = true := by
  simp only [immSOps, List.mem_cons, List.not_mem_nil, or_false] at he
  rcases he with rfl | rfl | rfl
  · exact ⟨rfl, rfl, hasUnit_of_plain rfl rfl s⟩
  -- the model writes the conditions of `slti` and `sltiu` as Booleans
  all_goals exact ⟨congrArg (fun f => runInstr _ (aluImm f true d a i) s) (ofBool_decide _), rfl, hasUnit_of_plain rfl rfl s⟩

theorem exec_immUOps {e : (BitVec 5 → BitVec 5 → BitVec 16 → Instr) × (Word → Word → Word)} (he : e ∈ immUOps)
    (d a : BitVec 5) (i : BitVec 16) (s : State) :
    exec (e.1 d a i) s = runInstr (e.1 d a i) (aluImm e.2 false d a i) s ∧ (e.1 d a i).wf = true
      ∧ s.hasUnit (e.1 d a i) = true := by
  simp only [immUOps, List.mem_cons, List.not_mem_nil, or_false] at he
  rcases he with rfl | rfl | rfl
  all_goals exact ⟨rfl, rfl, hasUnit_of_plain rfl rfl s⟩

/-! Shifts by a constant (R74). -/

/-- The shift of R71 by the amount that the two fields make: they are never beyond 63. -/
theorem shiftAmount_mod (h : BitVec 1) (n : BitVec 5) :
    (BitVec.ofNat 64 (h.toNat * 32 + n.toNat)).toNat % 64 = 32 * h.toNat + n.toNat := by
  rw [BitVec.toNat_ofNat]
  omega

/-- Each of them is the shift of R71 by the constant. -/
theorem exec_shiftOps {e : (BitVec 5 → BitVec 5 → BitVec 5 → BitVec 1 → Instr) × (Word → Nat → Word)} (he : e ∈ shiftOps)
    (d a n : BitVec 5) (h : BitVec 1) (s : State) :
    exec (e.1 d a n h) s = runInstr (e.1 d a n h) (aluShift (fun x y => e.2 x (y.toNat % 64)) d a n h) s
      ∧ (e.1 d a n h).wf = true ∧ s.hasUnit (e.1 d a n h) = true := by
  simp only [shiftOps, List.mem_cons, List.not_mem_nil, or_false] at he
  rcases he with rfl | rfl | rfl
  all_goals exact ⟨rfl, rfl, hasUnit_of_plain rfl rfl s⟩

theorem aluShift_run {f : Word → Nat → Word} {d a n : BitVec 5} {h : BitVec 1} (ha : plain a = true) (hd : plain d = true)
    (s : State) : aluShift (fun x y => f x (y.toNat % 64)) d a n h s
      = .ok () (s.setCtx (s.ctx.setS d.toNat (f (s.src a) (32 * h.toNat + n.toNat)))) := by
  rw [aluShift, Op.bind_ok (rdS_plain ha s), shiftAmount_mod, wrS_plain hd]

/-! `lhi` (R75). -/

theorem lhiOld_plain {d : BitVec 5} (hd : plain d = true) (x : Context) : lhiOld x d = x.sreg d.toNat :=
  if_neg (Nat.not_le.2 (of_decide_eq_true hd))

theorem setQuarter_eq (old : Word) (k : BitVec 2) (i : BitVec 16) : setQuarter old k i = BitVec.ofNat 64 (old.toNat
    - old.toNat / 2 ^ (16 * k.toNat) % 2 ^ 16 * 2 ^ (16 * k.toNat) + i.toNat * 2 ^ (16 * k.toNat)) := by
  rw [setQuarter, setBits, fieldN, Nat.mod_eq_of_lt i.isLt]

theorem exec_lhi {d : BitVec 5} (hd : plain d = true) {s : State} (hf : s.calm = true) (k : BitVec 2) (i : BitVec 16) :
    exec (.lhi d k i) s = .next (s.gives d (setQuarter (s.src d) k i)) := by
  refine runInstr_gives rfl (hasUnit_of_plain rfl rfl s) hf ?_
  simp only [getCtx, Op.bind_run, Op.get_run, Op.pure_run, lhiOld_plain hd, wrS_plain hd]
  rfl

/-- Settles O1: each instruction reads its plain registers, and its result is written as it retires. -/
theorem scalarResults : Obligations.ScalarResults := by
  refine ⟨fun e he d a b s hd ha hb hf => exec_alu_of_idle_read he hd hb (rdS_plain ha _) hf,
    ⟨fun d a s hd ha hf => ?_, fun d a s hd ha hf => ?_, fun d a s hd ha hf => ?_, fun d a b c s hd ha hb hc hf => ?_⟩,
    fun e he d a i s hd ha hf => ?_, fun e he d a i s hd ha hf => ?_, fun e he d a n h s hd ha hf => ?_,
    fun d k i s hd hf => ?_⟩
  · exact ⟨leadingZeros (s.src a) 64, runInstr_gives rfl (hasUnit_of_plain rfl rfl s) hf (alu1_run ha hd _),
      leadingZeros_spec (s.src a) 64⟩
  · refine ⟨trailingZeros (s.src a) 0 64, runInstr_gives rfl (hasUnit_of_plain rfl rfl s) hf (alu1_run ha hd _), ?_⟩
    simpa only [Nat.zero_add] using trailingZeros_spec (s.src a) 0 64
  · rw [← onesCount_eq_length]
    exact runInstr_gives rfl (hasUnit_of_plain rfl rfl s) hf (alu1_run ha hd _)
  · exact runInstr_gives rfl (hasUnit_of_plain rfl rfl s) hf (selBody_run ha hb hc hd _)
  · obtain ⟨hexec, hwf, hunit⟩ := exec_immSOps he d a i s
    exact hexec.trans (runInstr_gives hwf hunit hf (aluImm_signed_run ha hd i _))
  · obtain ⟨hexec, hwf, hunit⟩ := exec_immUOps he d a i s
    exact hexec.trans (runInstr_gives hwf hunit hf (aluImm_unsigned_run ha hd i _))
  · obtain ⟨hexec, hwf, hunit⟩ := exec_shiftOps he d a n h s
    exact hexec.trans (runInstr_gives hwf hunit hf (aluShift_run ha hd _))
  · rw [← setQuarter_eq]
    exact exec_lhi hd hf k i

end Sys2Proof.Machine
end

section
/-! SUPPORT. Conditional branches and jumps (R76 to R78). -/

namespace Sys2Proof.Machine

/-- A control transfer is under way to this address. -/
def State.goingTo (s : State) (t : Word) : State := s.noting { s.tx with npc := some t }

/-- An instruction that retires leaves nothing noted. -/
theorem State.retiresTo_noting (s : State) (x : Tx) (n : Option Word) : (s.noting x).retiresTo n = s.retiresTo n := rfl

section
variable {s : State} {t : Int}

theorem transfer_inside (h0 : 0 ≤ t) (h1 : t + 4 ≤ s.codeLen) : transfer t s = .ok () (s.goingTo (BitVec.ofInt 64 t)) := by
  rw [transfer, Op.bind_ok (Op.get_run s), Op.bind_ok (require_true (by simp [h0, h1]) _ _ s)]
  rfl

theorem transfer_outside (h : ¬ (0 ≤ t ∧ t + 4 ≤ s.codeLen)) :
    transfer t s = .error (.trap .bounds (BitVec.ofInt 64 t)) s := by
  rw [transfer, Op.bind_ok (Op.get_run s), Op.bind_error (require_false (by simpa using h) _ _ s)]
  rfl

/-- An instruction whose effect is a new value of the executing context and a control transfer. -/
theorem runInstr_transfers {i : Instr} {body : Op Unit} {x : Context} {w : Word} (hw : i.wf = true) (hu : s.hasUnit i = true)
    (hf : s.calm = true) (hb : body (s.starts i) = .ok () (((s.starts i).goingTo w).setCtx x)) :
    runInstr i body s = .next ((s.setCtx x).retiresTo (some w)) := by
  rw [State.goingTo, State.starts_noting, State.noting_setCtx] at hb
  rw [runInstr_ok hw hu hb (s.starts_quiet i) (by rw [State.noting_core, State.core_setCtx, Core.setCtx_dbgctl]; rfl)
    ((s.calm_setCtx x).trans hf), State.retiresTo_noting]
  rfl

end

/-! Conditional branches (R76). -/

theorem exec_branchOps {e : (BitVec 5 → BitVec 5 → BitVec 13 → Instr) × (Word → Word → Bool)} (he : e ∈ branchOps)
    (a b : BitVec 5) (o : BitVec 13) (s : State) :
    exec (e.1 a b o) s = runInstr (e.1 a b o) (branch e.2 a b o) s ∧ (e.1 a b o).wf = true ∧ s.hasUnit (e.1 a b o) = true := by
  simp only [branchOps, List.mem_cons, List.not_mem_nil, or_false] at he
  rcases he with rfl | rfl | rfl | rfl | rfl | rfl
  all_goals exact ⟨rfl, rfl, hasUnit_of_plain rfl rfl s⟩

section
variable {test : Word → Word → Bool} {a b : BitVec 5} {o : BitVec 13} {s : State} (ha : plain a = true) (hb : plain b = true)
include ha hb

theorem branch_not_taken (h : test (s.src a) (s.src b) = false) : branch test a b o s = .ok () s := by
  rw [branch, Op.bind_ok (rdS_plain ha s), Op.bind_ok (rdS_plain hb s), h]
  rfl

theorem branch_taken (h : test (s.src a) (s.src b) = true) :
    branch test a b o s = transfer (s.ctx.pc.toNat + 4 * o.toInt) s := by
  rw [branch, Op.bind_ok (rdS_plain ha s), Op.bind_ok (rdS_plain hb s), h]
  rfl

end

/-! Jumps (R77). -/

theorem getCtx_run (s : State) : getCtx s = .ok s.ctx s := rfl

/-- The target is checked, and the link is written where it is inside the CODE object (R77, R78). -/
def jumpAndLink (d : BitVec 5) (link : Word) (t : Int) : Op Unit := do
  transfer t
  wrS d link

/-- The effect of `jalr`: the target is checked for its alignment first (R77). -/
def jalrBody (d a : BitVec 5) (i : BitVec 16) : Op Unit := do
  let x ← rdS a
  require (decide ((x.toNat + i.toInt) % 4 = 0)) .misalign (BitVec.ofInt 64 (x.toNat + i.toInt))
  let y ← getCtx
  jumpAndLink d (y.pc + 4) (x.toNat + i.toInt)

theorem exec_jal_eq (d : BitVec 5) (o : BitVec 21) (s : State) : exec (.jal d o) s
    = runInstr (.jal d o) (getCtx >>= fun x => jumpAndLink d (x.pc + 4) (x.pc.toNat + 4 * o.toInt)) s := rfl

theorem exec_jalr_eq (d a : BitVec 5) (i : BitVec 16) (s : State) :
    exec (.jalr d a i) s = runInstr (.jalr d a i) (jalrBody d a i) s := rfl

section
variable {d a : BitVec 5} {o : BitVec 21} {i : BitVec 16} {s : State} {t : Int} {link : Word}

theorem jumpAndLink_inside (hd : plain d = true) (h0 : 0 ≤ t) (h1 : t + 4 ≤ s.codeLen) :
    jumpAndLink d link t s = .ok () ((s.goingTo (BitVec.ofInt 64 t)).setCtx (s.ctx.setS d.toNat link)) := by
  rw [jumpAndLink, Op.bind_ok (transfer_inside h0 h1), wrS_plain hd]
  rfl

theorem jumpAndLink_outside (h : ¬ (0 ≤ t ∧ t + 4 ≤ s.codeLen)) :
    jumpAndLink d link t s = .error (.trap .bounds (BitVec.ofInt 64 t)) s := by
  rw [jumpAndLink, Op.bind_error (transfer_outside h)]

theorem jalrBody_run (ha : plain a = true) (s : State) : jalrBody d a i s
    = if ((s.src a).toNat + i.toInt) % 4 = 0 then jumpAndLink d (s.ctx.pc + 4) ((s.src a).toNat + i.toInt) s
      else .error (.trap .misalign (BitVec.ofInt 64 ((s.src a).toNat + i.toInt))) s := by
  rw [jalrBody, Op.bind_ok (rdS_plain ha s)]
  split
  next h => rw [Op.bind_ok (require_true (decide_eq_true h) _ _ s), Op.bind_ok (getCtx_run s)]
  next h => rw [Op.bind_error (require_false (decide_eq_false h) _ _ s)]

end

/-- Settles O3: a transfer is checked against the CODE object before anything is written. -/
theorem branchAndJumpTargets : Obligations.BranchAndJumpTargets := by
  refine ⟨fun e he a b o s ha hb hf => ?_, fun d o s hd hf => ?_, fun d a i s hd ha hf => ?_⟩
  · obtain ⟨hexec, hwf, hunit⟩ := exec_branchOps he a b o s
    refine ⟨fun h => ?_, fun h h0 h1 => ?_, fun h ht => ?_⟩
    · exact hexec.trans (runInstr_ok hwf hunit (branch_not_taken ha hb h) (s.starts_quiet _) rfl hf)
    · have hrun := (branch_taken (o := o) (s := s.starts (e.1 a b o)) ha hb h).trans (transfer_inside h0 h1)
      exact hexec.trans (runInstr_ok hwf hunit hrun (s.starts_quiet (e.1 a b o)) rfl hf)
    · have hrun := (branch_taken (o := o) (s := s.starts (e.1 a b o)) ha hb h).trans (transfer_outside ht)
      exact hexec.trans (runInstr_trapHere hwf hunit hrun)
  · have hunit := hasUnit_of_plain (i := .jal d o) rfl rfl s
    refine ⟨fun h0 h1 => (exec_jal_eq d o s).trans (runInstr_transfers rfl hunit hf ?_),
      fun ht => (exec_jal_eq d o s).trans (runInstr_trapHere rfl hunit ?_)⟩
    · exact (Op.bind_ok (getCtx_run _)).trans (jumpAndLink_inside hd h0 h1)
    · exact (Op.bind_ok (getCtx_run _)).trans (jumpAndLink_outside ht)
  · have hunit := hasUnit_of_plain (i := .jalr d a i) rfl rfl s
    have hrun := jalrBody_run (d := d) (i := i) ha (s.starts (.jalr d a i))
    refine ⟨fun hm => (exec_jalr_eq d a i s).trans (runInstr_trapHere rfl hunit (hrun.trans (if_neg hm))),
      fun hm h0 h1 => (exec_jalr_eq d a i s).trans (runInstr_transfers rfl hunit hf ?_),
      fun hm ht => (exec_jalr_eq d a i s).trans (runInstr_trapHere rfl hunit ?_)⟩
    · exact (hrun.trans (if_pos hm)).trans (jumpAndLink_inside hd h0 h1)
    · exact (hrun.trans (if_pos hm)).trans (jumpAndLink_outside ht)

end Sys2Proof.Machine
end

section
/-! SUPPORT. A touch moves no cursor of an address register (R130). -/

namespace Sys2Proof.Machine

/-- The address registers of the executing context have the cursors of another state. -/
def State.SameCursors (t s : State) : Prop := ∀ r, (t.ctx.areg r).cur = (s.ctx.areg r).cur

namespace State.SameCursors
variable {s t u : State}

theorem refl (s : State) : s.SameCursors s := fun _ => rfl

theorem trans (h : t.SameCursors s) (g : u.SameCursors t) : u.SameCursors s := fun r => (g r).trans (h r)

theorem setCtx {x : Context} (h : ∀ r, (x.areg r).cur = (s.ctx.areg r).cur) : (s.setCtx x).SameCursors s := by
  intro r
  by_cases ha : s.core.act < 13
  · rw [State.ctx_setCtx s ha, h]
  · have hctx : (s.setCtx x).ctx = s.ctx := by
      simp only [State.ctx, State.core_setCtx, Core.setCtx_act]
      simp [Core.ctxAt, Core.setCtx, Vector.getElem?_eq_none (Nat.le_of_not_lt ha)]
    rw [hctx]

end State.SameCursors

theorem Context.cur_setA {x : Context} {r : Nat} {v : AReg} (h : v.cur = (x.areg r).cur) (q : Nat) :
    ((x.setA r v).areg q).cur = (x.areg q).cur := by
  by_cases hq : q = r
  · subst hq
    by_cases hr : q < 16
    · rw [Context.areg_setA_self x hr, h]
    · simp [Context.areg, Context.setA, Vector.getElem?_eq_none (Nat.le_of_not_lt hr)]
  · rw [Context.areg_setA_ne x hq]

/-- An effect that always leaves early. -/
structure Op.Leaves {α : Type} (x : Op α) : Prop where
  run : ∀ s, ∃ e t, x s = .error e t

namespace Op.Leaves
variable {α β : Type}

theorem raise (c : Cause) (v : Word) : Op.Leaves (Machine.raise c v : Op α) := ⟨fun s => ⟨_, s, rfl⟩⟩

theorem waitHere : Op.Leaves (Machine.waitHere : Op α) := ⟨fun s => ⟨_, s, rfl⟩⟩

theorem waitKeep : Op.Leaves (Machine.waitKeep : Op α) := ⟨fun s => ⟨_, s, rfl⟩⟩

theorem bind_left {x : Op α} (hx : x.Leaves) (f : α → Op β) : Op.Leaves (x >>= f) := by
  refine ⟨fun s => ?_⟩
  obtain ⟨e, t, h⟩ := hx.run s
  exact ⟨e, t, Op.bind_error h⟩

theorem bind_right (x : Op α) {f : α → Op β} (hf : ∀ a, (f a).Leaves) : Op.Leaves (x >>= f) := by
  refine ⟨fun s => ?_⟩
  rcases h : x s with ⟨a, t⟩ | ⟨e, t⟩
  · obtain ⟨e, u, hu⟩ := (hf a).run t
    exact ⟨e, u, (Op.bind_ok h).trans hu⟩
  · exact ⟨e, t, Op.bind_error h⟩

theorem ite {c : Prop} [Decidable c] {x y : Op α} (hx : x.Leaves) (hy : y.Leaves) : (if c then x else y).Leaves := by
  split
  · exact hx
  · exact hy

end Op.Leaves

/-- An effect that, where it does not leave early, moves no cursor. -/
structure Op.KeepsCursors {α : Type} (x : Op α) : Prop where
  run : ∀ s a t, x s = .ok a t → t.SameCursors s

namespace Op.KeepsCursors
variable {α β : Type}

theorem pure (a : α) : Op.KeepsCursors (Pure.pure a) := by
  refine ⟨fun s _ t h => ?_⟩
  cases h
  exact .refl s

theorem of_leaves {x : Op α} (h : x.Leaves) : x.KeepsCursors := by
  refine ⟨fun s a t hok => ?_⟩
  obtain ⟨e, u, hs⟩ := h.run s
  rw [hs] at hok
  cases hok

theorem raise (c : Cause) (v : Word) : Op.KeepsCursors (Machine.raise c v : Op α) := of_leaves (.raise c v)

/-- A check: the effect goes on, or traps. -/
theorem check {c : Prop} [Decidable c] {x y : Op α} (hx : x.Leaves) (hy : y.KeepsCursors) : (if c then x else y).KeepsCursors := by
  split
  · exact of_leaves hx
  · exact hy

theorem bind {x : Op α} {f : α → Op β} (hx : x.KeepsCursors) (hf : ∀ a, (f a).KeepsCursors) : Op.KeepsCursors (x >>= f) := by
  refine ⟨fun s b u h => ?_⟩
  rcases e : x s with ⟨a, t⟩ | ⟨y, t⟩
  · rw [Op.bind_ok e] at h
    exact (hx.run s a t e).trans ((hf a).run t b u h)
  · rw [Op.bind_error e] at h
    cases h

theorem get_bind {f : State → Op α} (hf : ∀ s, (f s).KeepsCursors) : Op.KeepsCursors (MonadState.get >>= f) :=
  ⟨fun s => (hf s).run s⟩

theorem ite {c : Prop} [Decidable c] {x y : Op α} (hx : x.KeepsCursors) (hy : y.KeepsCursors) :
    (if c then x else y).KeepsCursors := by
  split
  · exact hx
  · exact hy

theorem modCtx {f : Context → Context} (hf : ∀ x r, ((f x).areg r).cur = (x.areg r).cur) : (Machine.modCtx f).KeepsCursors := by
  refine ⟨fun s _ t h => ?_⟩
  cases h
  exact .setCtx (hf s.ctx)

/-- An effect that changes no core. -/
theorem modify {f : State → State} (hc : ∀ s, (f s).core = s.core) : Op.KeepsCursors (modify f : Op PUnit) := by
  refine ⟨fun s _ t h r => ?_⟩
  cases h
  rw [State.ctx, hc]
  rfl

theorem require (b : Bool) (c : Cause) (v : Word) : (Machine.require b c v).KeepsCursors := ite (pure _) (raise c v)

end Op.KeepsCursors

/-! The parts of a touch, in the order of the model. -/

theorem rdA_keepsCursors (r : Nat) : (rdA r).KeepsCursors := .bind (.get_bind fun _ => .pure _) fun _ => .pure _

/-- Where a page is not mapped the instruction waits or traps (R136, R178). -/
theorem translateFor_ask_leaves (o : Owner) (asid : Nat) (write : Bool) (val : Word) (s : State) (page : Nat) :
    (translateFor.ask o asid write val s page).Leaves := by
  unfold translateFor.ask
  split
  · exact .ite (.bind_left (.raise _ _) _) (.ite (.bind_left .waitHere _) (.bind_right _ fun _ => .waitKeep))
  · exact .ite (.bind_right _ fun _ => .raise _ _) .waitKeep

theorem translateFor_keepsCursors (o : Owner) (asid va : Nat) (write : Bool) (val : Word) :
    (translateFor o asid va write val).KeepsCursors := by
  refine .get_bind fun s => ?_
  dsimp only
  split
  · exact .check (translateFor_ask_leaves ..) (.pure _)
  · exact .of_leaves (translateFor_ask_leaves ..)

theorem postMissTo_keepsCursors (unit : Option (Nat × Nat)) (site lc kind page : Nat) :
    (postMissTo unit site lc kind page).KeepsCursors := by
  refine .get_bind fun s => ?_
  dsimp only
  split
  · exact .modify fun _ => rfl
  · exact .ite (.modify fun _ => rfl) (.modify fun _ => rfl)

/-- The miss of the executing context is counted in that context (R175). -/
theorem postMissAt_keepsCursors {s t : State} {kind page : Nat} {a : Unit}
    (h : postMissAt s.site s.core.act kind page s = .ok a t) : t.SameCursors s := by
  have hm : modCtxAt s.site s.core.act (fun x => { x with misses := x.misses + 1 }) s
      = .ok () (s.setCtx { s.ctx with misses := s.ctx.misses + 1 }) := rfl
  rw [postMissAt, Op.bind_ok (Op.get_run s), Op.bind_ok hm] at h
  exact .trans (.setCtx (by exact fun _ => rfl)) ((postMissTo_keepsCursors ..).run _ _ _ h)

theorem missRange_keepsCursors (asid va n kind : Nat) : (missRange asid va n kind).KeepsCursors := by
  refine ⟨fun s a t h => ?_⟩
  rw [missRange, Op.bind_ok (Op.get_run s)] at h
  generalize (pageStarts va n).find? (fun a => !s.hbmResident asid (a / 4096)) = page at h
  cases page with
  | some page => exact postMissAt_keepsCursors h
  | none => exact (Op.KeepsCursors.pure ()).run s a t h

theorem padLoc_keepsCursors (p q : Word) : (padLoc p q).KeepsCursors := by
  refine .get_bind fun s => ?_
  split
  · exact .pure _
  · exact .raise _ _

theorem readHeader_keepsCursors (p q : Word) (l : Loc) : (readHeader p q l).KeepsCursors := by
  refine .get_bind fun s => ?_
  cases l with
  | pad k => exact .pure _
  | heap asid va => exact .bind (translateFor_keepsCursors ..) fun _ => .get_bind fun _ => .require ..

theorem worldCheck_keepsCursors (p : Word) (l : Loc) : (worldCheck p l).KeepsCursors :=
  .get_bind fun _ => .check (.raise _ _) (.pure _)

theorem poisonCheck_keepsCursors (p : Word) (l : Loc) : (poisonCheck p l).KeepsCursors :=
  .get_bind fun _ => .check (.raise _ _) (.pure _)

theorem named_keepsCursors (p : Word) : (named p).KeepsCursors := by
  refine .check (.bind_left (.raise _ _) _) (.check (.bind_left (.raise _ _) _) (.get_bind fun s => ?_))
  split
  · exact .pure _
  · exact .raise _ _

theorem nearestFrom_keepsCursors (p : Word) (top : Nat) (canon : Word) (home : Loc) :
    (nearestFrom p top canon home).KeepsCursors := .get_bind fun _ => .bind (readHeader_keepsCursors ..) fun _ => .pure _

theorem setPointer_keepsCursors (r : Nat) (p : Word) (h : Hdr) : (setPointer r p h).KeepsCursors :=
  .modCtx fun x => Context.cur_setA (x := x) rfl

theorem touchFar_keepsCursors (r : Nat) (p : Word) : (touchFar r p).KeepsCursors := by
  refine .bind (named_keepsCursors p) fun x => ?_
  refine .bind (nearestFrom_keepsCursors ..) fun src => .bind (worldCheck_keepsCursors ..) fun _ =>
    .bind (poisonCheck_keepsCursors ..) fun _ => .get_bind fun s => .bind (.require ..) fun _ => ?_
  refine .ite ?_ (.ite ?_ (.get_bind fun s => ?_))
  · have hshadow := Op.KeepsCursors.modCtx (f := fun x => x.setA r { x.areg r with sh := (s.hdr src).shadow })
      fun x => Context.cur_setA (x := x) rfl
    cases src with
    | heap asid va => exact .bind (missRange_keepsCursors ..) fun _ => .bind hshadow fun _ => .pure _
    | pad k => exact .bind hshadow fun _ => .pure _
  · exact .get_bind fun _ => .bind (setPointer_keepsCursors ..) fun _ => .pure _
  · dsimp only
    split
    · exact .bind (setPointer_keepsCursors ..) fun _ => .pure _
    next =>
      -- a copy-in begins or is under way: the instruction waits for it (R132)
      refine .of_leaves (.ite (.bind_left .waitKeep _) ?_)
      cases src with
      | heap asid va =>
        exact .bind_right _ fun _ => .bind_right _ fun _ => .bind_right _ fun _ => .bind_right _ fun _ => .waitKeep
      | pad k => exact .bind_right _ fun _ => .bind_right _ fun _ => .waitKeep

/-- A touch moves no cursor (R130). -/
theorem touch_keepsCursors (r : Nat) : (touch r).KeepsCursors := by
  refine .bind (rdA_keepsCursors r) fun x => .check (.bind_left (.raise _ _) _) (.check (.bind_left (.raise _ _) _) (.ite ?_ ?_))
  · refine .bind (padLoc_keepsCursors ..) fun k => .get_bind fun s => .check (.bind_left (.raise _ _) _) (.ite ?_ ?_)
    · exact touchFar_keepsCursors ..
    · exact .bind (rdA_keepsCursors r) fun y => .ite (.bind (setPointer_keepsCursors ..) fun _ => .pure _) (.pure _)
  · exact touchFar_keepsCursors ..

end Sys2Proof.Machine
end

section
/-! SUPPORT. Shapes (R81 to R84): `tidx` and `shp`, and the division by a dimension's constants. -/

namespace Sys2Proof.Machine

/-! Retiring from a state that the instruction has made. -/

/-- An instruction that writes one `s` register of a state `u` that its effect has made. What is noted is that of `w`: `u` may
have another debug control, which does not govern the instruction that writes it (R87, R413). -/
theorem runInstr_gives_from {i : Instr} {body : Op Unit} {s u w : State} {d : BitVec 5} {v : Word} (hw : i.wf = true)
    (hi : s.hasUnit i = true) (hb : body (s.starts i) = .ok () ((u.noting (w.starts i).tx).setCtx (u.ctx.setS d.toNat v)))
    (hact : u.core.act = w.core.act) (hhalt : u.core.halted = w.core.halted) (hf : w.calm = true) :
    runInstr i body s = .next (u.gives d v) := by
  rw [State.noting_setCtx] at hb
  have hstep : ∀ pc, (u.gives d v).stepped (w.starts i).tx pc = u.gives d v := by
    intro pc
    simp only [State.calm, Bool.not_eq_true', ← hact, ← hhalt] at hf
    simp only [State.stepped, State.gives, State.becomes, State.retires, State.core_retiresTo, State.core_setCtx, Core.setCtx_act,
      Core.setCtx_halted]
    exact if_neg (Bool.eq_false_iff.1 hf)
  rw [runInstr_eq i body s hw hi, withRoom_ok hb]
  simp only [finish, State.complete, State.retire_quiet ((u.setCtx (u.ctx.setS d.toNat v)).noting (w.starts i).tx) (w.starts_quiet i)]
  exact congrArg _ (hstep _)

/-! `tidx` (R84). -/

theorem exec_tidx {d a : BitVec 5} {k : BitVec 3} {s : State} (hd : plain d = true) (ha : plain a = true) (hk : k.toNat ≤ 4)
    (hf : s.calm = true) : exec (.tidx d a k) s = .next (s.gives d
      (BitVec.ofNat 64 (coordinate s.ctx.shape k.toNat s.ctx.shape.dims 0 ((s.src a).toNat % 2 ^ 32)))) := by
  refine runInstr_gives (decide_eq_true hk) (hasUnit_of_plain rfl rfl s) hf ?_
  rw [Op.bind_ok (rdS_plain ha _), Op.bind_ok (getCtx_run _), wrS_plain hd]
  rfl

/-! Division by the constants of a dimension (R81). -/

theorem le_two_pow_clog2 (n : Nat) : n ≤ 2 ^ clog2 n := by
  unfold clog2
  split
  next h => exact h
  next h =>
    have := Nat.lt_log2_self (n := n - 1)
    omega

/-- A reciprocal that is too great by less than one part in P gives the quotients of all numbers whose excess stays below P. -/
theorem mul_div_of_excess {N m P e n : Nat} (hN : 0 < N) (hm : m * N = P + e) (he : n * e < P) : n * m / P = n / N := by
  have hP : 0 < P := by omega
  calc n * m / P = n * m * N / (P * N) := (Nat.mul_div_mul_right _ _ hN).symm
    _ = (P * n + n * e) / P / N := by rw [mul_assoc, hm, mul_add, mul_comm n P, Nat.div_div_eq_div_mul]
    _ = n / N := by rw [Nat.mul_add_div hP, Nat.div_eq_of_lt he, add_zero]

theorem exists_excess_of_ceilDiv (P : Nat) {N : Nat} (hN : 0 < N) : ∃ e < N, ceilDiv P N * N = P + e := by
  have h := Nat.div_add_mod (P + N - 1) N
  have hlt := Nat.mod_lt (P + N - 1) hN
  rw [mul_comm] at h
  exact ⟨N - 1 - (P + N - 1) % N, by omega, by rw [ceilDiv]; omega⟩

/-- The constants of a valid dimension divide every 32-bit index exactly (R81). -/
theorem Dim.mul_div_eq {x : Dim} (hx : x.valid = true) {n : Nat} (hn : n < 2 ^ 32) :
    n * x.m.toNat / 2 ^ (32 + x.l.toNat) = n / x.n.toNat := by
  simp only [Dim.valid, Bool.and_eq_true, decide_eq_true_eq] at hx
  obtain ⟨⟨hN, hl⟩, hm⟩ := hx
  obtain ⟨e, he, hexc⟩ := exists_excess_of_ceilDiv (2 ^ (32 + clog2 x.n.toNat)) hN
  rw [hl, hm]
  refine mul_div_of_excess hN hexc ?_
  calc n * e < 2 ^ 32 * x.n.toNat := Nat.mul_lt_mul'' hn he
    _ ≤ 2 ^ 32 * 2 ^ clog2 x.n.toNat := Nat.mul_le_mul_left _ (le_two_pow_clog2 _)
    _ = 2 ^ (32 + clog2 x.n.toNat) := (pow_add _ _ _).symm

/-! `shp` (R82). -/

/-- A shape is loaded; an entry that holds none raises TYPE (R82). -/
def putShape (d : BitVec 5) (n : Word) : Option Shape → Op Unit
  | none => raise .type n
  | some sh => do
    modCtx fun x => { x with shape := sh }
    wrS d (BitVec.ofNat 64 sh.ndim)

/-- What `shp` does with the place that the touch of its object has found. -/
def shpLoad (d : BitVec 5) (a : BitVec 4) (n : Word) (off : Nat) (l : Loc) : Op Unit := do
  let r ← rdA a.toNat
  require (decide (r.sh.typ.toNat = tSHAPES)) .type n
  require (decide (off % 64 = 0)) .misalign (BitVec.ofNat 64 off)
  boundsCheck off 64 r.sh.len.toNat
  putShape d n (parseShape ((← get).bodyBytes l off 64))

/-- The effect of `shp`. -/
def shpBody (d : BitVec 5) (a : BitVec 4) (b : BitVec 5) : Op Unit := do
  let n ← rdS b
  let r ← rdA a.toNat
  let l ← touchBody a.toNat (r.cur.toNat + 64 * n.toNat : Nat)
  shpLoad d a n (r.cur.toNat + 64 * n.toNat) l

theorem exec_shp_eq (d : BitVec 5) (a : BitVec 4) (b : BitVec 5) (s : State) :
    exec (.shp d a b) s = runInstr (.shp d a b) (shpBody d a b) s := rfl

theorem rdA_run (r : Nat) (s : State) : rdA r s = .ok (s.ctx.areg r) s := rfl

section
variable {d b : BitVec 5} {a : BitVec 4} {n : Word} {off : Nat} {l : Loc} {s t : State}

theorem touchBody_some {r : Nat} {off : Int} (h : touch r s = .ok (some l) t) : touchBody r off s = .ok l t := by
  rw [touchBody, Op.bind_ok h]
  rfl

theorem touchBody_none {r : Nat} {off : Int} (h : touch r s = .ok none t) :
    touchBody r off s = .error (.trap .type (BitVec.ofInt 64 off)) t := by
  rw [touchBody, Op.bind_ok h]
  rfl

theorem shpBody_none (hb : plain b = true) (h : touch a.toNat s = .ok none t) : shpBody d a b s
    = .error (.trap .type (BitVec.ofNat 64 ((s.ctx.areg a.toNat).cur.toNat + 64 * (s.src b).toNat))) t := by
  rw [shpBody, Op.bind_ok (rdS_plain hb s), Op.bind_ok (rdA_run ..), Op.bind_error (touchBody_none h), BitVec.ofInt_natCast]

/-- The touch leaves the cursor, so the offset is that of the register after it as before it. -/
theorem shpBody_some (hb : plain b = true) (h : touch a.toNat s = .ok (some l) t) : shpBody d a b s
    = shpLoad d a (s.src b) ((t.ctx.areg a.toNat).cur.toNat + 64 * (s.src b).toNat) l t := by
  rw [shpBody, Op.bind_ok (rdS_plain hb s), Op.bind_ok (rdA_run ..), Op.bind_ok (touchBody_some h),
    (touch_keepsCursors _).run _ _ _ h]

theorem shpLoad_type (h : (t.ctx.areg a.toNat).sh.typ.toNat ≠ tSHAPES) :
    shpLoad d a n off l t = .error (.trap .type n) t := by
  rw [shpLoad, Op.bind_ok (rdA_run ..), Op.bind_error (require_false (decide_eq_false h) ..)]

section
variable (h : (t.ctx.areg a.toNat).sh.typ.toNat = tSHAPES)
include h

theorem shpLoad_misalign (hoff : off % 64 ≠ 0) :
    shpLoad d a n off l t = .error (.trap .misalign (BitVec.ofNat 64 off)) t := by
  rw [shpLoad, Op.bind_ok (rdA_run ..), Op.bind_ok (require_true (decide_eq_true h) ..),
    Op.bind_error (require_false (decide_eq_false hoff) ..)]

variable (hoff : off % 64 = 0)
include hoff

theorem shpLoad_bounds (hlen : (t.ctx.areg a.toNat).sh.len.toNat < off + 64) :
    shpLoad d a n off l t = .error (.trap .bounds (BitVec.ofNat 64 off)) t := by
  have hb : boundsCheck off 64 (t.ctx.areg a.toNat).sh.len.toNat t = .error (.trap .bounds (BitVec.ofNat 64 off)) t := by
    rw [boundsCheck, toWord, BitVec.ofInt_natCast]
    exact require_false (by simp; omega) _ _ t
  rw [shpLoad, Op.bind_ok (rdA_run ..), Op.bind_ok (require_true (decide_eq_true h) ..),
    Op.bind_ok (require_true (decide_eq_true hoff) ..), Op.bind_error hb]

variable (hlen : off + 64 ≤ (t.ctx.areg a.toNat).sh.len.toNat)
include hlen

theorem shpLoad_inside : shpLoad d a n off l t = putShape d n (parseShape (t.bodyBytes l off 64)) t := by
  have hb : boundsCheck off 64 (t.ctx.areg a.toNat).sh.len.toNat t = .ok () t := require_true (by simp; omega) _ _ t
  rw [shpLoad, Op.bind_ok (rdA_run ..), Op.bind_ok (require_true (decide_eq_true h) ..),
    Op.bind_ok (require_true (decide_eq_true hoff) ..), Op.bind_ok hb]
  rfl

theorem shpLoad_invalid (hx : parseShape (t.bodyBytes l off 64) = none) :
    shpLoad d a n off l t = .error (.trap .type n) t := by
  rw [shpLoad_inside h hoff hlen, hx]
  rfl

theorem shpLoad_valid (hd : plain d = true) {x : Shape} (hx : parseShape (t.bodyBytes l off 64) = some x) :
    shpLoad d a n off l t = .ok () ((t.setCtx { t.ctx with shape := x }).setCtx
      ((t.setCtx { t.ctx with shape := x }).ctx.setS d.toNat (BitVec.ofNat 64 x.ndim))) := by
  rw [shpLoad_inside h hoff hlen, hx]
  exact (Op.bind_ok rfl).trans (wrS_plain hd ..)

end

end

/-- Settles O4: `shp` by its checks in order, `tidx` by the model's loop, the constants by the excess of the reciprocal. -/
theorem shapeCoordinate : Obligations.ShapeCoordinate := by
  refine ⟨fun d a k s hd ha hk hf => exec_tidx hd ha hk hf, ?_⟩
  intro d a b s t l hd hb hf i n off sh hl
  have hunit := hasUnit_of_plain (i := i) rfl rfl s
  have hrun := shpBody_some (d := d) hb hl
  have htrap : ∀ {c v}, shpLoad d a n off l (t.starts i) = .error (.trap c v) (t.starts i) →
      exec i s = .next (t.trapHere c.code v c.async) :=
    fun h => (exec_shp_eq d a b s).trans (runInstr_trap (t := t.starts i) rfl hunit (hrun.trans h) rfl)
  refine ⟨fun ht => htrap (shpLoad_type ht), fun ht ho => htrap (shpLoad_misalign ht ho),
    fun ht ho hn => htrap (shpLoad_bounds ht ho hn),
    fun ht ho hn => ⟨fun hx => htrap (shpLoad_invalid ht ho hn hx), fun x hx => ?_⟩,
    fun d a b s t hb hl => (exec_shp_eq d a b s).trans
      (runInstr_trap (t := t.starts (.shp d a b)) rfl (hasUnit_of_plain rfl rfl s) (shpBody_none hb hl) rfl),
    fun x n hx hn => Dim.mul_div_eq hx hn⟩
  have hload := hrun.trans (shpLoad_valid (t := t.starts i) ht ho hn hd hx)
  exact (exec_shp_eq d a b s).trans (runInstr_gives_from (w := t) rfl hunit hload (by simp) (by simp) hf)

end Sys2Proof.Machine
end

section
/-! SUPPORT. Control registers (R85 to R94): the classes of access, the value that is read, and the merged value that is held. -/

namespace Sys2Proof.Machine

/-! The classes of the map (R86, R88). -/

/-- An access needs `status.PRIV`. -/
def crNeedsPriv (n : Nat) (write : Bool) : Bool :=
  decide (crAccess n = some .p) || (write && decide (crAccess n = some .uro))

theorem crMap_classes : ∀ e ∈ crMap, e.1 < 4096 ∧ e.2.1 = crNeedsPriv e.1 false ∧ crAccess e.1 ≠ none := by
  have h : ∀ x ∈ crMap.map fun e => (e.1, e.2.1), x.1 < 4096 ∧ x.2 = crNeedsPriv x.1 false ∧ crAccess x.1 ≠ none := by decide
  exact fun e he => h _ (List.mem_map_of_mem he)

theorem crWrites_classes : ∀ e ∈ crWrites, e.1 < 4096 ∧ e.2.1 = crNeedsPriv e.1 true ∧ e.2.2.1 = crMask e.1 ∧ crAccess e.1 ≠ none
    ∧ crAccess e.1 ≠ some .ro ∧ e.1 ≠ 0x107 := by
  have h : ∀ x ∈ crWrites.map fun e => (e.1, e.2.1, e.2.2.1), x.1 < 4096 ∧ x.2.1 = crNeedsPriv x.1 true ∧ x.2.2 = crMask x.1
    ∧ crAccess x.1 ≠ none ∧ crAccess x.1 ≠ some .ro ∧ x.1 ≠ 0x107 := by decide
  exact fun e he => h _ (List.mem_map_of_mem he)

theorem crAccess_of_unmapped {n : Nat} (h : n ∉ crMap.map (·.1)) : crAccess n = none := by
  simp only [crMap, List.map_cons, List.map_nil, List.mem_cons, List.not_mem_nil, or_false] at h
  unfold crAccess
  repeat rw [if_neg (by omega)]

/-- A number that no write reaches is outside the map, or that of a read-only register. -/
theorem crAccess_of_unwritten {n : Nat} (h : n ∉ crWrites.map (·.1)) (h7 : n ≠ 0x107) :
    crAccess n = none ∨ crAccess n = some .ro := by
  simp only [crWrites, List.map_cons, List.map_nil, List.mem_cons, List.not_mem_nil, or_false] at h
  unfold crAccess
  rw [if_neg (by omega), if_neg (by omega), if_neg (by omega)]
  split
  · exact .inr rfl
  · exact .inl (if_neg (by omega))

theorem toNat_crNumber {n : Nat} (h : n < 4096) : (BitVec.ofNat 12 n).toNat = n := by
  rw [BitVec.toNat_ofNat, Nat.mod_eq_of_lt h]

section
variable {n : Nat} {write : Bool} {s : State}

theorem crPermit_unmapped (h : crAccess n = none) :
    crPermit n write s = .error (.trap .illegal (BitVec.ofNat 64 n)) s := by
  simp only [crPermit, Op.bind_run, Op.get_run, h]
  rfl

theorem crPermit_readOnly (h : crAccess n = some .ro) :
    crPermit n true s = .error (.trap .illegal (BitVec.ofNat 64 n)) s := by
  simp only [crPermit, Op.bind_run, Op.get_run, h]
  exact require_false rfl _ _ s

theorem crPermit_denied (h : crNeedsPriv n write = true) (hp : s.core.isPriv = false) :
    crPermit n write s = .error (.trap .priv (BitVec.ofNat 64 n)) s := by
  simp only [crNeedsPriv, Bool.or_eq_true, Bool.and_eq_true, decide_eq_true_eq] at h
  rcases h with h | ⟨rfl, h⟩ <;> simp only [crPermit, Op.bind_run, Op.get_run, h]
  · rw [require_false hp]
  · exact require_false (by rw [hp]; rfl) _ _ s

theorem crPermit_granted (h : crAccess n ≠ none) (hw : write = true → crAccess n ≠ some .ro ∧ n ≠ 0x107)
    (hp : crNeedsPriv n write = true → s.core.isPriv = true) : crPermit n write s = .ok () s := by
  simp only [crPermit, Op.bind_run, Op.get_run]
  rcases hc : crAccess n with - | - | - | - | -
  · exact absurd hc h
  · rfl
  · refine require_true ?_ _ _ s
    cases write with
    | false => rfl
    | true => exact hp (by simp [crNeedsPriv, hc])
  · refine require_true ?_ _ _ s
    cases write with
    | false => rfl
    | true => exact absurd hc (hw rfl).1
  · have h7 : ¬ (write && decide (n = 0x107)) = true := by
      simp only [Bool.and_eq_true, decide_eq_true_eq]
      exact fun ⟨hwrite, hn⟩ => (hw hwrite).2 hn
    simp only [if_neg h7]
    exact Op.bind_ok (require_true (hp (by simp [crNeedsPriv, hc])) ..)

/-- Privileged code writes `world` in the secure world alone, and only while LOCK is 0 (R94). -/
theorem crPermit_world (hp : s.core.isPriv = true) : crPermit 0x107 true s
    = if (s.core.secure && !s.core.lock) = true then .ok () s else .error (.trap .world 0x107) s := by
  have h : crPermit 0x107 true s
      = (require s.core.isPriv .priv 0x107 >>= fun _ => require (s.core.secure && !s.core.lock) .world 0x107) s := rfl
  rw [h, Op.bind_ok (require_true hp ..)]
  split
  next hl => exact require_true hl _ _ s
  next hl => exact require_false (Bool.eq_false_iff.2 hl) _ _ s

end

/-! Reads (R85). -/

theorem crMap_value {e : Nat × Bool × (State → Word)} (he : e ∈ crMap) (s : State) : crValue s e.1 = e.2.2 s := by
  simp only [crMap, List.mem_cons, List.not_mem_nil, or_false] at he
  rcases he with rfl | rfl | rfl | rfl | rfl | rfl | rfl | rfl | rfl | rfl | rfl | rfl | rfl | rfl | rfl | rfl | rfl | rfl | rfl
    | rfl | rfl | rfl
  all_goals rfl

/-- The effect of `crd`. -/
def crRead (d : BitVec 5) (n : Nat) : Op Unit := do
  crPermit n false
  wrS d (crValue (← get) n)

theorem exec_crd_eq (d : BitVec 5) (n : BitVec 12) (s : State) :
    exec (.crd d n) s = runInstr (.crd d n) (crRead d n.toNat) s := rfl

theorem crRead_granted {d : BitVec 5} {n : Nat} {s : State} (hd : plain d = true) (hp : crPermit n false s = .ok () s) :
    crRead d n s = .ok () (s.setCtx (s.ctx.setS d.toNat (crValue s n))) := by
  rw [crRead, Op.bind_ok hp, Op.bind_ok (Op.get_run s), wrS_plain hd]

theorem crRead_refused {d : BitVec 5} {n : Nat} {s : State} {e : Exit} (hp : crPermit n false s = .error e s) :
    crRead d n s = .error e s := by
  rw [crRead, Op.bind_error hp]

/-! Writes (R85 to R94). -/

/-- The value that a write holds: the old one with the writable bits of the new one (R85). -/
def crMerged (n : Nat) (old new : Word) : Word := (old &&& ~~~crMask n) ||| (new &&& crMask n)

theorem exec_crOps {o : (BitVec 5 → BitVec 5 → BitVec 12 → Instr) × (Word → Word → Word)} (ho : o ∈ crOps)
    (d a : BitVec 5) (n : BitVec 12) (s : State) :
    exec (o.1 d a n) s = runInstr (o.1 d a n) (crUpdate o.2 d a n) s ∧ (o.1 d a n).wf = true ∧ s.hasUnit (o.1 d a n) = true := by
  simp only [crOps, List.mem_cons, List.not_mem_nil, or_false] at ho
  rcases ho with rfl | rfl | rfl
  all_goals exact ⟨rfl, rfl, hasUnit_of_plain rfl rfl s⟩

section
variable {merge : Word → Word → Word} {d a : BitVec 5} {n : BitVec 12} {s t : State}

theorem crUpdate_forbidden {e : Exit} (hp : crPermit n.toNat true s = .error e s) : crUpdate merge d a n s = .error e s := by
  rw [crUpdate, Op.bind_error hp]

variable (hp : crPermit n.toNat true s = .ok () s) (ha : plain a = true)
include hp ha

theorem crUpdate_refused (hr : crRefused n.toNat (merge (crValue s n.toNat) (s.src a)) = true) :
    crUpdate merge d a n s = .error (.trap .illegal (BitVec.ofNat 64 n.toNat)) s := by
  rw [crUpdate, Op.bind_ok hp, Op.bind_ok (rdS_plain ha s), Op.bind_ok (Op.get_run s),
    Op.bind_error (require_false (by rw [hr]; rfl) ..)]

theorem crUpdate_ok (hd : plain d = true) (hr : crRefused n.toNat (merge (crValue s n.toNat) (s.src a)) = false)
    (ht : setCr n.toNat (crMerged n.toNat (crValue s n.toNat) (merge (crValue s n.toNat) (s.src a))) s = .ok () t) :
    crUpdate merge d a n s = .ok () (t.setCtx (t.ctx.setS d.toNat (crValue s n.toNat))) := by
  rw [crUpdate, Op.bind_ok hp, Op.bind_ok (rdS_plain ha s), Op.bind_ok (Op.get_run s),
    Op.bind_ok (require_true (by rw [hr]; rfl) ..)]
  exact (Op.bind_ok ht).trans (wrS_plain hd _ t)

end

section
variable {e : Nat × Bool × Word × (State → Word → State)} (he : e ∈ crWrites) {s : State}
include he

/-- What is noted in the course of the instruction stays. -/
theorem setCr_run (s : State) (v : Word) (x : Tx) : setCr e.1 v (s.noting x) = .ok () ((e.2.2.2 s v).noting x) := by
  simp only [crWrites, List.mem_cons, List.not_mem_nil, or_false] at he
  rcases he with rfl | rfl | rfl | rfl | rfl | rfl | rfl | rfl | rfl | rfl | rfl | rfl | rfl | rfl | rfl
  all_goals rfl

/-- A register of the table is written where its class lets the access through. -/
theorem crPermit_write (hp : e.2.1 = true → s.core.isPriv = true) : crPermit e.1 true s = .ok () s := by
  obtain ⟨-, hclass, -, hmap, hro, h7⟩ := crWrites_classes e he
  exact crPermit_granted hmap (fun _ => ⟨hro, h7⟩) (hclass ▸ hp)

/-- The context that executes, and that its core has not halted, are in no control register. -/
theorem crWrites_executing (s : State) (v : Word) : (e.2.2.2 s v).core.act = s.core.act ∧ (e.2.2.2 s v).core.halted = s.core.halted := by
  simp only [crWrites, List.mem_cons, List.not_mem_nil, or_false] at he
  rcases he with rfl | rfl | rfl | rfl | rfl | rfl | rfl | rfl | rfl | rfl | rfl | rfl | rfl | rfl | rfl
  all_goals simp

end

/-- Of `world`, SW takes the value written and LOCK is only set (R93). -/
theorem setCr_world (s : State) (old new : Word) (x : Tx) : setCr 0x107 (crMerged 0x107 old new) (s.noting x)
    = .ok () ((s.setCore s.site { s.core with
        secure := new.getLsbD 0, lock := s.core.lock || new.getLsbD 1 }).noting x) := by
  have hsw : (crMerged 0x107 old new).getLsbD 0 = new.getLsbD 0 := by simp [crMerged, crMask]
  have hlock : (crMerged 0x107 old new).getLsbD 1 = new.getLsbD 1 := by simp [crMerged, crMask]
  rw [← hsw, ← hlock]
  rfl

/-! The instructions that write (R85). -/

section
variable {o : (BitVec 5 → BitVec 5 → BitVec 12 → Instr) × (Word → Word → Word)} (ho : o ∈ crOps) {d a : BitVec 5}
  {n : BitVec 12} {s : State}
include ho

theorem exec_crOp_forbidden {c : Cause} {v : Word} (hp : crPermit n.toNat true (s.starts (o.1 d a n))
    = .error (.trap c v) (s.starts (o.1 d a n))) : exec (o.1 d a n) s = .next (s.trapHere c.code v c.async) := by
  obtain ⟨hexec, hwf, hunit⟩ := exec_crOps ho d a n s
  exact hexec.trans (runInstr_trapHere hwf hunit (crUpdate_forbidden hp))

theorem exec_crOp_unwritten (h : n.toNat ∉ crWrites.map (·.1)) (h7 : n.toNat ≠ 0x107) :
    exec (o.1 d a n) s = .next (s.trapHere Cause.illegal.code (BitVec.ofNat 64 n.toNat) false) := by
  rcases crAccess_of_unwritten h h7 with hc | hc
  · exact exec_crOp_forbidden ho (crPermit_unmapped hc)
  · exact exec_crOp_forbidden ho (crPermit_readOnly hc)

section
variable {e : Nat × Bool × Word × (State → Word → State)} (he : e ∈ crWrites) (hn : n.toNat = e.1)
include he hn

theorem exec_crOp_denied (hneeds : e.2.1 = true) (hp : s.core.isPriv = false) :
    exec (o.1 d a n) s = .next (s.trapHere Cause.priv.code (BitVec.ofNat 64 e.1) false) := by
  obtain ⟨-, hclass, -⟩ := crWrites_classes e he
  rw [hclass] at hneeds
  rw [← hn] at hneeds ⊢
  exact exec_crOp_forbidden ho (crPermit_denied hneeds hp)

variable (ha : plain a = true) (hp : e.2.1 = true → s.core.isPriv = true)
include ha hp

theorem exec_crOp_refused (hr : crRefused e.1 (o.2 (crValue s e.1) (s.src a)) = true) :
    exec (o.1 d a n) s = .next (s.trapHere Cause.illegal.code (BitVec.ofNat 64 e.1) false) := by
  obtain ⟨hexec, hwf, hunit⟩ := exec_crOps ho d a n s
  have hgrant := crPermit_write he (s := s.starts (o.1 d a n)) hp
  rw [← hn] at hgrant hr ⊢
  exact hexec.trans (runInstr_trapHere hwf hunit (crUpdate_refused hgrant ha hr))

/-- The register takes the merged value, and `s[d]` the old one. -/
theorem exec_crOp_writes (hd : plain d = true) (hf : s.calm = true)
    (hr : crRefused e.1 (o.2 (crValue s e.1) (s.src a)) = false) :
    exec (o.1 d a n) s = .next ((e.2.2.2 s (crMerged e.1 (crValue s e.1) (o.2 (crValue s e.1) (s.src a)))).gives d
      (crValue s e.1)) := by
  obtain ⟨hexec, hwf, hunit⟩ := exec_crOps ho d a n s
  have hgrant := crPermit_write he (s := s.starts (o.1 d a n)) hp
  obtain ⟨hact, hhalt⟩ := crWrites_executing he s (crMerged e.1 (crValue s e.1) (o.2 (crValue s e.1) (s.src a)))
  have hset := setCr_run he s (crMerged e.1 (crValue s e.1) (o.2 (crValue s e.1) (s.src a))) (s.starts (o.1 d a n)).tx
  rw [← hn] at hgrant hr hact hhalt hset ⊢
  exact hexec.trans (runInstr_gives_from hwf hunit (crUpdate_ok hgrant ha hd hr hset) hact hhalt hf)

end

/-! `world` (R93, R94). -/

variable (hp : s.core.isPriv = true)
include hp

theorem exec_crOp_world_locked (hl : (s.core.secure && !s.core.lock) = false) :
    exec (o.1 d a 0x107) s = .next (s.trapHere Cause.world.code 0x107 false) :=
  exec_crOp_forbidden ho (c := .world) ((crPermit_world (s := s.starts (o.1 d a 0x107)) hp).trans (if_neg (Bool.eq_false_iff.1 hl)))

theorem exec_crOp_world (hd : plain d = true) (ha : plain a = true) (hf : s.calm = true)
    (hl : (s.core.secure && !s.core.lock) = true) :
    exec (o.1 d a 0x107) s = .next ((s.setCore s.site { s.core with
      secure := (o.2 (crValue s 0x107) (s.src a)).getLsbD 0
      lock := s.core.lock || (o.2 (crValue s 0x107) (s.src a)).getLsbD 1 }).gives d (crValue s 0x107)) := by
  obtain ⟨hexec, hwf, hunit⟩ := exec_crOps ho d a 0x107 s
  have hgrant := (crPermit_world (s := s.starts (o.1 d a 0x107)) hp).trans (if_pos hl)
  have hset := setCr_world s (crValue s 0x107) (o.2 (crValue s 0x107) (s.src a)) (s.starts (o.1 d a 0x107)).tx
  exact hexec.trans (runInstr_gives_from (w := s) hwf hunit (crUpdate_ok hgrant ha hd rfl hset) (by simp) (by simp) hf)

end

/-- Settles O5: the class of the register decides what stops an access, and the table of the map what it reads and holds. -/
theorem controlRegisters : Obligations.ControlRegisters := by
  refine ⟨⟨fun e he d s hd hf hp => ?_, fun e he d s hneeds hp => ?_, fun d n s hn => ?_⟩, ?_⟩
  · obtain ⟨hlt, hclass, hmap⟩ := crMap_classes e he
    rw [exec_crd_eq, toNat_crNumber hlt, ← crMap_value he]
    refine runInstr_gives rfl (hasUnit_of_plain rfl rfl s) hf (crRead_granted hd (crPermit_granted hmap nofun ?_))
    exact hclass ▸ hp
  · obtain ⟨hlt, hclass, -⟩ := crMap_classes e he
    rw [exec_crd_eq, toNat_crNumber hlt]
    exact runInstr_trapHere (c := .priv) rfl (hasUnit_of_plain rfl rfl s) (crRead_refused (crPermit_denied (hclass ▸ hneeds) hp))
  · rw [exec_crd_eq]
    exact runInstr_trapHere (c := .illegal) rfl (hasUnit_of_plain rfl rfl s)
      (crRead_refused (crPermit_unmapped (crAccess_of_unmapped hn)))
  have hnum : ∀ e ∈ crWrites, (BitVec.ofNat 12 e.1).toNat = e.1 := fun e he => toNat_crNumber (crWrites_classes e he).1
  refine ⟨?_, fun o ho e he d a s hneeds hp => exec_crOp_denied ho he (hnum e he) hneeds hp,
    fun o ho d a n s hn h7 => exec_crOp_unwritten ho hn h7,
    fun o ho e he d a s ha hp hr => exec_crOp_refused ho he (hnum e he) ha hp hr, fun v => ?_,
    fun o ho d a s hd ha hf hp hl => exec_crOp_world ho hp hd ha hf hl,
    fun o ho d a s hp hl => exec_crOp_world_locked ho hp hl⟩
  · intro o ho e he d a s hd ha hp old new t hr hf
    obtain ⟨-, -, hmask, -⟩ := crWrites_classes e he
    have h := exec_crOp_writes ho he (hnum e he) ha hp hd hf hr
    rw [crMerged, ← hmask] at h
    exact h
  · simp [crRefused, bitsOf, fieldN]

end Sys2Proof.Machine
end

section
/-! SUPPORT. The index shares of the cores of a record (R116). -/

namespace Sys2Proof.Machine

/-! Rising lists of numbers. -/

theorem mem_insertKey {k x : Nat} {l : List Nat} : x ∈ insertKey k l ↔ x = k ∨ x ∈ l := by
  induction l with
  | nil => simp [insertKey]
  | cons j l ih =>
    unfold insertKey
    split
    · simp
    · split
      next h => simp [h]
      next => simp only [List.mem_cons, ih, or_left_comm]

theorem pairwise_insertKey {k : Nat} {l : List Nat} (h : l.Pairwise (· < ·)) : (insertKey k l).Pairwise (· < ·) := by
  induction l with
  | nil => simp [insertKey]
  | cons j l ih =>
    obtain ⟨hj, hl⟩ := List.pairwise_cons.1 h
    unfold insertKey
    split
    next hk => exact List.pairwise_cons.2 ⟨fun x hx => (List.mem_cons.1 hx).elim (· ▸ hk) fun hx => hk.trans (hj x hx), h⟩
    next hk =>
      split
      · exact h
      next hne => exact List.pairwise_cons.2 ⟨fun x hx => (mem_insertKey.1 hx).elim (fun e => by omega) (hj x), ih hl⟩

theorem mem_foldl_insertKey {f : Nat → Nat} {x : Nat} (l acc : List Nat) :
    x ∈ l.foldl (fun t y => insertKey (f y) t) acc ↔ x ∈ acc ∨ ∃ y ∈ l, f y = x := by
  induction l generalizing acc with
  | nil => simp
  | cons y l ih =>
    rw [List.foldl_cons, ih, mem_insertKey]
    simp only [List.mem_cons, exists_eq_or_imp, eq_comm (a := f y), or_assoc, or_left_comm]

theorem pairwise_foldl_insertKey {f : Nat → Nat} (l : List Nat) {acc : List Nat} (h : acc.Pairwise (· < ·)) :
    (l.foldl (fun t y => insertKey (f y) t) acc).Pairwise (· < ·) := by
  induction l generalizing acc with
  | nil => exact h
  | cons y l ih => exact ih (pairwise_insertKey h)

/-- A rising list begins with its least number. -/
theorem headD_eq_of_least {l : List Nat} {d : Nat} (h : l.Pairwise (· < ·)) (hd : d ∈ l) (hle : ∀ e ∈ l, d ≤ e) (z : Nat) :
    l.headD z = d := by
  cases l with
  | nil => exact absurd hd List.not_mem_nil
  | cons x l =>
    have hx := hle x (List.mem_cons_self ..)
    rcases List.mem_cons.1 hd with rfl | hd
    · rfl
    · exact absurd ((List.pairwise_cons.1 h).1 d hd) (by omega)

/-! The dies of a record's cores. -/

theorem mem_diesOf {place : List Nat} {d : Nat} : d ∈ diesOf place ↔ ∃ x ∈ place, dieOf x = d :=
  (mem_foldl_insertKey place []).trans (by simp)

theorem diesOf_pairwise (place : List Nat) : (diesOf place).Pairwise (· < ·) := pairwise_foldl_insertKey place .nil

/-- A die has 1024 of the sites of ordinary cores (R13). -/
theorem dieOf_ordinary {x : Nat} (h : x < 8192) : dieOf x = x / 1024 := by
  have hchan : isChan x = false := decide_eq_false (by unfold chanBase; omega)
  rw [dieOf, hchan]
  rfl

/-- The indices of a record that lie before those of die `i` (R116). -/
def indexBefore (l : Launch) (i : Nat) : Nat := l.count * (l.parts.take i).sum / 65536

theorem indexBefore_zero (l : Launch) : indexBefore l 0 = 0 := by simp [indexBefore]

theorem indexBefore_mono (l : Launch) {i j : Nat} (h : i ≤ j) : indexBefore l i ≤ indexBefore l j := by
  refine Nat.div_le_div_right (Nat.mul_le_mul_left _ ?_)
  exact ((List.take_prefix_take_left h).sublist).sum_le_sum fun _ _ => Nat.zero_le _

theorem indexBefore_eight {l : Launch} (hn : l.parts.length = 8) (hs : l.parts.sum = 65536) : indexBefore l 8 = l.count := by
  rw [indexBefore, List.take_of_length_le (by omega), hs]
  omega

/-! The share of a core, as its first index and its end, counted from the base. -/

/-- The die of logical core `lc`. -/
def coreDie (place : List Nat) (lc : Nat) : Nat := dieOf (place.getD lc 0)

/-- The first die whose range the die of a core takes, and the die at which that ends. -/
def rangeFirst (place : List Nat) (lc : Nat) : Nat :=
  if (diesOf place).headD 0 = coreDie place lc then 0 else coreDie place lc
def rangeEnd (place : List Nat) (lc : Nat) : Nat := ((diesOf place).filter fun e => decide (coreDie place lc < e)).headD 8

/-- The cores of the die of a core among the first `n`. -/
def dieCores (place : List Nat) (lc n : Nat) : Nat := (place.take n).countP fun x => decide (dieOf x = coreDie place lc)

/-- The index at which the first `j` cores of the die of a core have their shares behind them. -/
def shareBound (l : Launch) (place : List Nat) (lc j : Nat) : Nat :=
  indexBefore l (rangeFirst place lc)
    + (indexBefore l (rangeEnd place lc) - indexBefore l (rangeFirst place lc)) * j / dieCores place lc place.length

def shareFirst (l : Launch) (place : List Nat) (lc : Nat) : Nat := shareBound l place lc (dieCores place lc lc)
def shareEnd (l : Launch) (place : List Nat) (lc : Nat) : Nat := shareBound l place lc (dieCores place lc lc + 1)

theorem coreShare_eq (l : Launch) (place : List Nat) (lc : Nat) : coreShare l place lc
    = (l.base + BitVec.ofNat 64 (shareFirst l place lc), shareEnd l place lc - shareFirst l place lc) := by
  simp only [shareFirst, shareEnd, shareBound, dieCores, List.take_length, List.countP_eq_length_filter, Nat.add_sub_add_left]
  rfl

theorem shareFirst_le_shareEnd (l : Launch) (place : List Nat) (lc : Nat) : shareFirst l place lc ≤ shareEnd l place lc :=
  Nat.add_le_add_left (Nat.div_le_div_right (Nat.mul_le_mul_left _ (Nat.le_succ _))) _

section
variable {l : Launch} {place : List Nat}

theorem coreDie_mem {lc : Nat} (h : lc < place.length) : coreDie place lc ∈ diesOf place := by
  rw [coreDie, List.getD_eq_getElem _ 0 h]
  exact mem_diesOf.2 ⟨_, List.getElem_mem h, rfl⟩

theorem exists_coreDie {d : Nat} (h : d ∈ diesOf place) : ∃ k < place.length, coreDie place k = d := by
  obtain ⟨x, hx, rfl⟩ := mem_diesOf.1 h
  obtain ⟨k, hk, rfl⟩ := List.mem_iff_getElem.1 hx
  exact ⟨k, hk, by rw [coreDie, List.getD_eq_getElem _ 0 hk]⟩

/-! The cores of a die among the first ones. -/

theorem dieCores_succ {lc n : Nat} (hn : n < place.length) :
    dieCores place lc (n + 1) = dieCores place lc n + if coreDie place n = coreDie place lc then 1 else 0 := by
  have hget : coreDie place n = dieOf place[n] := by rw [coreDie, List.getD_eq_getElem _ 0 hn]
  rw [dieCores, List.take_succ_eq_append_getElem hn, List.countP_append, hget]
  simp [dieCores]

/-- Behind the last core of a die stands no other core of it. -/
theorem dieCores_length {lc n : Nat} (hn : n ≤ place.length)
    (h : ∀ k, n ≤ k → k < place.length → coreDie place k ≠ coreDie place lc) :
    dieCores place lc place.length = dieCores place lc n := by
  obtain ⟨m, hm⟩ := Nat.exists_eq_add_of_le hn
  suffices hs : ∀ k ≤ m, dieCores place lc (n + k) = dieCores place lc n by rw [hm]; exact hs m le_rfl
  intro k hk
  induction k with
  | zero => rfl
  | succ k ih =>
    rw [← Nat.add_assoc, dieCores_succ (by omega), if_neg (h _ (by omega) (by omega)), ih (by omega)]
    rfl

theorem rangeFirst_le_rangeEnd (hsite : ∀ x ∈ place, x < 8192) {lc : Nat} (h : lc < place.length) :
    rangeFirst place lc ≤ rangeEnd place lc := by
  have hle : coreDie place lc ≤ rangeEnd place lc := by
    unfold rangeEnd
    generalize hl : (diesOf place).filter _ = r
    cases r with
    | nil =>
      rw [coreDie, List.getD_eq_getElem _ 0 h, dieOf_ordinary (hsite _ (List.getElem_mem h))]
      have := hsite _ (List.getElem_mem h)
      show _ ≤ 8
      omega
    | cons e r =>
      have he : e ∈ (diesOf place).filter fun e => decide (coreDie place lc < e) := by simp [hl]
      exact (of_decide_eq_true (List.mem_filter.1 he).2).le
  unfold rangeFirst
  split
  · exact Nat.zero_le _
  · exact hle

/-- The last core of a die ends where the range of the die does. -/
theorem shareEnd_of_last (hsite : ∀ x ∈ place, x < 8192) {lc : Nat} (hlc : lc < place.length)
    (h : ∀ k, lc + 1 ≤ k → k < place.length → coreDie place k ≠ coreDie place lc) :
    shareEnd l place lc = indexBefore l (rangeEnd place lc) := by
  have hall : dieCores place lc place.length = dieCores place lc lc + 1 := by
    rw [dieCores_length hlc h, dieCores_succ hlc, if_pos rfl]
  have hle := indexBefore_mono l (rangeFirst_le_rangeEnd hsite hlc)
  rw [shareEnd, shareBound, hall, Nat.mul_div_cancel _ (Nat.succ_pos _)]
  omega

end

/-! The sites rise, so the cores of a die stand together. -/

section
variable {l : Launch} {place : List Nat} (hrise : place.Pairwise (· < ·)) (hsite : ∀ x ∈ place, x < 8192)
include hrise hsite

theorem coreDie_mono {i j : Nat} (hij : i ≤ j) (hj : j < place.length) : coreDie place i ≤ coreDie place j := by
  simp only [coreDie, List.getD_eq_getElem _ 0 hj, List.getD_eq_getElem _ 0 (hij.trans_lt hj)]
  rw [dieOf_ordinary (hsite _ (List.getElem_mem _)), dieOf_ordinary (hsite _ (List.getElem_mem _))]
  refine Nat.div_le_div_right ?_
  rcases hij.eq_or_lt with rfl | hlt
  · exact le_rfl
  · exact (List.pairwise_iff_getElem.1 hrise i j _ hj hlt).le

/-- A core whose die begins with it has none of the die before it. -/
theorem dieCores_eq_zero {lc n : Nat} (hn : n < place.length) (h : coreDie place n < coreDie place lc) :
    dieCores place lc (n + 1) = 0 := by
  refine List.countP_eq_zero.2 fun x hx => ?_
  obtain ⟨k, hk, rfl⟩ := List.mem_iff_getElem.1 hx
  rw [List.length_take] at hk
  have hle := coreDie_mono hrise hsite (show k ≤ n by omega) hn
  rw [coreDie, List.getD_eq_getElem _ 0 (by omega)] at hle
  simp only [List.getElem_take, decide_eq_true_eq]
  omega

/-! The range of a die ends where that of the next one with cores begins. -/

theorem headD_diesOf (h : 0 < place.length) : (diesOf place).headD 0 = coreDie place 0 := by
  refine headD_eq_of_least (diesOf_pairwise place) (coreDie_mem h) (fun e he => ?_) 0
  obtain ⟨k, hk, rfl⟩ := exists_coreDie he
  exact coreDie_mono hrise hsite (Nat.zero_le k) hk

theorem rangeFirst_zero (h : 0 < place.length) : rangeFirst place 0 = 0 := if_pos (headD_diesOf hrise hsite h)

theorem rangeFirst_of_before {i lc : Nat} (hlc : lc < place.length) (h : coreDie place i < coreDie place lc) (hi : i < lc) :
    rangeFirst place lc = coreDie place lc := by
  have h0 := coreDie_mono hrise hsite (Nat.zero_le i) (hi.trans hlc)
  rw [rangeFirst, headD_diesOf hrise hsite (by omega), if_neg (by omega)]

theorem rangeEnd_of_next {lc : Nat} (hlc : lc + 1 < place.length) (h : coreDie place lc < coreDie place (lc + 1)) :
    rangeEnd place lc = coreDie place (lc + 1) := by
  refine headD_eq_of_least ((diesOf_pairwise place).filter _) ?_ (fun e he => ?_) 8
  · exact List.mem_filter.2 ⟨coreDie_mem hlc, decide_eq_true h⟩
  · obtain ⟨hmem, hlt⟩ := List.mem_filter.1 he
    obtain ⟨k, hk, rfl⟩ := exists_coreDie hmem
    have hlc' : lc < k := by
      by_contra hle
      have := coreDie_mono hrise hsite (Nat.le_of_not_lt hle) (by omega : lc < place.length)
      have := of_decide_eq_true hlt
      omega
    exact coreDie_mono hrise hsite hlc' hk

theorem rangeEnd_last {lc : Nat} (hlc : lc + 1 = place.length) : rangeEnd place lc = 8 := by
  have hnil : ((diesOf place).filter fun e => decide (coreDie place lc < e)) = [] := by
    refine List.filter_eq_nil_iff.2 fun e he => ?_
    obtain ⟨k, hk, rfl⟩ := exists_coreDie he
    have := coreDie_mono hrise hsite (show k ≤ lc by omega) (by omega)
    simpa using this
  rw [rangeEnd, hnil]
  rfl

/-! The shares meet, and together they are the whole range. -/

theorem shareFirst_zero (h : 0 < place.length) : shareFirst l place 0 = 0 := by
  simp [shareFirst, shareBound, dieCores, rangeFirst_zero hrise hsite h, indexBefore_zero]

theorem shareEnd_eq_shareFirst {lc : Nat} (hlc : lc + 1 < place.length) :
    shareEnd l place lc = shareFirst l place (lc + 1) := by
  have hmono := coreDie_mono hrise hsite (Nat.le_succ lc) hlc
  rcases hmono.eq_or_lt with heq | hlt
  · -- the two cores are of one die, and their shares are cut from the same range
    have hd : ∀ n, dieCores place (lc + 1) n = dieCores place lc n := fun n => by simp only [dieCores, heq]
    have hb : ∀ j, shareBound l place (lc + 1) j = shareBound l place lc j := fun j => by
      simp only [shareBound, rangeFirst, rangeEnd, hd, heq]
    rw [shareEnd, shareFirst, hb, hd, dieCores_succ (by omega), if_pos rfl]
  · -- the next core is the first of its die
    have hlast : ∀ k, lc + 1 ≤ k → k < place.length → coreDie place k ≠ coreDie place lc := fun k hk hkl =>
      (hlt.trans_le (coreDie_mono hrise hsite hk hkl)).ne'
    rw [shareEnd_of_last hsite (by omega) hlast, rangeEnd_of_next hrise hsite hlc hlt, shareFirst, shareBound,
      dieCores_eq_zero hrise hsite (by omega) hlt, rangeFirst_of_before hrise hsite hlc hlt (Nat.lt_succ_self lc)]
    simp

/-- The shares of the first cores add up to where the next one begins. -/
theorem sum_shares {n : Nat} (hn : n < place.length) :
    ((List.range (n + 1)).map fun lc => (coreShare l place lc).2).sum = shareEnd l place n := by
  induction n with
  | zero =>
    simp [coreShare_eq, shareFirst_zero hrise hsite hn]
  | succ n ih =>
    have hle := shareFirst_le_shareEnd l place (n + 1)
    rw [List.range_succ, List.map_append, List.sum_append, ih (by omega), shareEnd_eq_shareFirst hrise hsite hn, List.map_singleton,
      List.sum_singleton, coreShare_eq]
    dsimp only
    omega

end

/-- Settles O46: the bounds between the shares rise from the base to the count, and each is where the next share begins. -/
theorem indexSharesCoverTheRange : Obligations.IndexSharesCoverTheRange := by
  intro l place hne hrise hsite hparts hsum
  have hpos : 0 < place.length := List.length_pos_iff.2 hne
  refine ⟨?_, fun lc hlc => ?_, ?_⟩
  · simp [coreShare_eq, shareFirst_zero hrise hsite hpos]
  · have hle := shareFirst_le_shareEnd l place lc
    simp only [coreShare_eq, ← shareEnd_eq_shareFirst hrise hsite hlc]
    rw [BitVec.add_assoc, ← BitVec.ofNat_add]
    congr 2
    omega
  · obtain ⟨n, hn⟩ : ∃ n, place.length = n + 1 := ⟨place.length - 1, by omega⟩
    rw [hn, sum_shares hrise hsite (by omega), shareEnd_of_last hsite (by omega) (fun k hk hkl => by omega),
      rangeEnd_last hrise hsite hn.symm, indexBefore_eight hparts hsum]

end Sys2Proof.Machine
end

section
/-! SUPPORT. How an instruction retires from a state that its effect has made, and the checks that its effect begins with. -/

namespace Sys2Proof.Machine

/-- An instruction whose effect has made `u`, with nothing noted, retires from it. -/
theorem runInstr_retires_from {i : Instr} {body : Op Unit} {s u : State} (hw : i.wf = true) (hi : s.hasUnit i = true)
    (hb : body (s.starts i) = .ok () (u.noting (s.starts i).tx)) (hu : u.Follows s) (hf : s.calm = true) :
    runInstr i body s = .next u.retires := by
  rw [runInstr_ok hw hi hb (s.starts_quiet i) hu.dbgctl.symm (hu.calm.trans hf), State.retiresTo_noting]
  rfl

/-- An instruction whose effect leads on to a state `u` retires from it. -/
theorem runInstr_retires_of_leads {i : Instr} {body : Op Unit} {s u : State} (hw : i.wf = true) (hi : s.hasUnit i = true)
    (hb : leads i body s () u) (hf : u.calm = true) : runInstr i body s = .next u.retires :=
  (runInstr_ok hw hi hb (u.starts_quiet i) rfl hf).trans rfl

/-- An instruction that waits, with what it has done so far. -/
theorem runInstr_waitKeep {i : Instr} {body : Op Unit} {s u : State} {x : Tx} (hw : i.wf = true) (hi : s.hasUnit i = true)
    (hb : body (s.starts i) = .error .waitKeep (u.noting x)) : runInstr i body s = .next (u.waits {}) := by
  rw [runInstr_eq i body s hw hi, withRoom_error hb (by simp)]
  rfl

theorem State.Follows.setCore {s : State} {c : Core} (ha : c.act = s.core.act) (hd : c.dbgctl = s.core.dbgctl)
    (hh : c.halted = s.core.halted) : (s.setCore s.site c).Follows s := by
  refine ⟨rfl, ?_, ?_, ?_⟩
  all_goals rw [State.core_setCore]
  · exact ha
  · exact hd
  · exact hh

theorem State.Follows.setCoreCtx (s : State) (n : Nat) (x : Context) : (s.setCore s.site (s.core.setCtx n x)).Follows s :=
  .setCore (Core.setCtx_act ..) (Core.setCtx_dbgctl ..) (Core.setCtx_halted ..)

/-- Outside the miss shadow the check passes (R366). -/
theorem notInMiss_run {s : State} (h : s.core.act ≠ 12) : notInMiss s = .ok () s := if_neg h

theorem require_run (b : Bool) (c : Cause) (v : Word) (s : State) :
    require b c v s = if b then .ok () s else .error (.trap c v) s := by
  cases b <;> rfl

theorem modCore_run (f : Core → Core) (s : State) : modCore f s = .ok () (s.setCore s.site (f s.core)) := rfl
theorem modCtx_run (f : Context → Context) (s : State) : modCtx f s = .ok () (s.setCtx (f s.ctx)) := rfl
theorem modTx_run (f : Tx → Tx) (s : State) : modTx f s = .ok () { s with tx := f s.tx } := rfl
theorem modRec_run (r : Nat) (f : Rec → Rec) (s : State) : modRec r f s = .ok () (s.setRec r (f (s.recAt r))) := rfl
theorem getCore_run (s : State) : getCore s = .ok s.core s := rfl

end Sys2Proof.Machine
end

section
/-! SUPPORT. Helpers (R97 to R102): how each instruction of the group runs. -/

namespace Sys2Proof.Machine

/-! `hstart` (R97). -/

/-- A free helper takes the entry and its argument; without one the answer is 0. -/
def startHelper (d : BitVec 5) (e arg : Word) : Option Nat → Op Unit
  | none => wrS d 0
  | some h => do
    modCore fun c => c.setCtx h { helperStart (c.ctxAt 0) e arg with misses := (c.ctxAt h).misses }
    wrS d (BitVec.ofNat 64 h)

/-- The effect of `hstart`. -/
def hstartBody (d a b : BitVec 5) : Op Unit := do
  notInMiss
  let s ← get
  require (!s.core.tuft) .gang 5
  require (decide (s.core.ctxNo = 0)) .illegal 0
  let e ← rdS a
  let arg ← rdS b
  require (decide (e.toNat % 4 = 0)) .misalign e
  require (decide (e.toNat + 4 ≤ (← get).codeLen)) .bounds e
  startHelper d e arg (← get).core.freeHelper

theorem exec_hstart_eq (d a b : BitVec 5) (s : State) :
    exec (.hstart d a b) s = runInstr (.hstart d a b) (hstartBody d a b) s := rfl

section
variable {d a b : BitVec 5} {s : State}

theorem hstartBody_run (ha : plain a = true) (hb : plain b = true) (hact : s.core.act ≠ 12) (ht : s.core.tuft = false)
    (hc : s.core.ctxNo = 0) : hstartBody d a b s
      = if (s.src a).toNat % 4 ≠ 0 then .error (.trap .misalign (s.src a)) s
        else if s.codeLen < (s.src a).toNat + 4 then .error (.trap .bounds (s.src a)) s
        else startHelper d (s.src a) (s.src b) s.core.freeHelper s := by
  simp only [hstartBody, Op.bind_run, Op.get_run, notInMiss_run hact, require_run, ht, hc, rdS_plain ha, rdS_plain hb]
  by_cases hm : (s.src a).toNat % 4 = 0
  · by_cases hl : (s.src a).toNat + 4 ≤ s.codeLen
    · simp [hm, hl, Nat.not_lt.2 hl]
    · simp [hm, hl, Nat.lt_of_not_le hl]
  · simp [hm]

theorem hstartBody_tuft (hact : s.core.act ≠ 12) (ht : s.core.tuft = true) :
    hstartBody d a b s = .error (.trap .gang 5) s := by
  simp only [hstartBody, Op.bind_run, Op.get_run, notInMiss_run hact, require_run, ht]
  rfl

theorem exec_hstart_none (hd : plain d = true) (hf : s.calm = true)
    (hb : hstartBody d a b (s.starts (.hstart d a b)) = startHelper d (s.src a) (s.src b) none (s.starts (.hstart d a b))) :
    exec (.hstart d a b) s = .next (s.gives d 0) :=
  (exec_hstart_eq d a b s).trans (runInstr_gives rfl (hasUnit_of_plain rfl rfl s) hf (hb.trans (wrS_plain hd 0 _)))

/-- The helper takes its start, and the executing context its number. -/
theorem exec_hstart_some {h : Nat} (hd : plain d = true) (hf : s.calm = true)
    (hb : hstartBody d a b (s.starts (.hstart d a b)) = startHelper d (s.src a) (s.src b) (some h) (s.starts (.hstart d a b))) :
    exec (.hstart d a b) s = .next ((s.setCore s.site (s.core.setCtx h
      { helperStart (s.core.ctxAt 0) (s.src a) (s.src b) with misses := (s.core.ctxAt h).misses })).gives d (BitVec.ofNat 64 h)) := by
  refine (exec_hstart_eq d a b s).trans (runInstr_retires_from rfl (hasUnit_of_plain rfl rfl s) (hb.trans ?_) ?_ hf)
  · rw [startHelper, Op.bind_ok (modCore_run ..), wrS_plain hd]
    rfl
  · exact (State.Follows.setCoreCtx ..).trans (.setCtx _ _)

end

/-- The registers of a helper at its start (R97). -/
theorem helperStart_fields (x : Context) (e v : Word) (r : Nat) : (helperStart x e v).pc = e ∧ (helperStart x e v).st = .ready
    ∧ (helperStart x e v).sreg r = (if r = 2 then v else 0) ∧ (r < 8 → (helperStart x e v).areg r = x.areg r)
    ∧ (helperStart x e v).codeptr = x.codeptr ∧ (helperStart x e v).level = x.level := by
  refine ⟨rfl, rfl, ?_, fun hr => ?_, rfl, rfl⟩
  · unfold helperStart Context.sreg
    dsimp only
    rw [Vector.getElem?_setIfInBounds, Vector.getElem?_replicate]
    split
    next h => rw [if_neg (by omega)]
    next h =>
      by_cases h2 : r = 2
      · subst h2
        rfl
      · rw [if_neg (Ne.symm h2), if_neg h2]
        split <;> rfl
  · unfold helperStart Context.areg
    simp [hr, show r < 16 by omega]

/-! `hjoin` (R99). -/

/-- An exited helper is freed, and its value is the answer. -/
def joinHelper (d : BitVec 5) (site : Nat) (h : Word) (x : Context) : Op Unit := do
  if x.st ≠ .exited then waitHere
  modCtxAt site h.toNat fun x => { x with st := .free }
  wrS d x.exitval

/-- The effect of `hjoin`. -/
def hjoinBody (d a : BitVec 5) : Op Unit := do
  notInMiss
  let s ← get
  require (!s.core.tuft) .gang 5
  require (decide (s.core.ctxNo = 0)) .illegal 0
  let h ← rdS a
  require (decide (1 ≤ h.toNat) && decide (h.toNat ≤ 10) && decide ((s.core.ctxAt h.toNat).st ≠ .free)) .illegal h
  joinHelper d s.site h (s.core.ctxAt h.toNat)

theorem exec_hjoin_eq (d a : BitVec 5) (s : State) : exec (.hjoin d a) s = runInstr (.hjoin d a) (hjoinBody d a) s := rfl

section
variable {d a : BitVec 5} {s : State}

theorem hjoinBody_tuft (hact : s.core.act ≠ 12) (ht : s.core.tuft = true) : hjoinBody d a s = .error (.trap .gang 5) s := by
  simp only [hjoinBody, Op.bind_run, Op.get_run, notInMiss_run hact, require_run, ht]
  rfl

theorem hjoinBody_run (ha : plain a = true) (hact : s.core.act ≠ 12) (ht : s.core.tuft = false) (hc : s.core.ctxNo = 0)
    (h1 : 1 ≤ (s.src a).toNat) (h10 : (s.src a).toNat ≤ 10) : hjoinBody d a s
      = if (s.core.ctxAt (s.src a).toNat).st = .free then .error (.trap .illegal (s.src a)) s
        else joinHelper d s.site (s.src a) (s.core.ctxAt (s.src a).toNat) s := by
  simp only [hjoinBody, Op.bind_run, Op.get_run, notInMiss_run hact, require_run, ht, hc, rdS_plain ha]
  by_cases hx : (s.core.ctxAt (s.src a).toNat).st = .free
  · simp [hx]
  · simp [hx, h1, h10]

theorem joinHelper_exited {h : Word} (hd : plain d = true) (hx : (s.core.ctxAt h.toNat).st = .exited) :
    joinHelper d s.site h (s.core.ctxAt h.toNat) s = .ok () ((s.setCore s.site
      (s.core.setCtx h.toNat { s.core.ctxAt h.toNat with st := .free })).setCtx ((s.setCore s.site
      (s.core.setCtx h.toNat { s.core.ctxAt h.toNat with st := .free })).ctx.setS d.toNat (s.core.ctxAt h.toNat).exitval)) := by
  have hset : modCtxAt s.site h.toNat (fun x => { x with st := .free }) s
      = .ok () (s.setCore s.site (s.core.setCtx h.toNat { s.core.ctxAt h.toNat with st := .free })) := rfl
  rw [joinHelper, if_neg (by simpa using hx)]
  exact (Op.bind_ok hset).trans (wrS_plain hd _ _)

theorem joinHelper_busy {h : Word} {x : Context} (hx : x.st ≠ .exited) : joinHelper d s.site h x s = .error .wait s := by
  rw [joinHelper, if_pos hx]
  rfl

end

end Sys2Proof.Machine
end

section
/-! SUPPORT. The abort of a context's windows (R380, R381) passes by what the instruction under way has noted, and moves neither
the executing context nor its debug control. -/

namespace Sys2Proof.Machine

/-- A change that does not look at what the instruction under way has noted, and after which the same context executes. -/
structure PassesBy (f : State → State) : Prop where
  noting : ∀ (s : State) x, f (s.noting x) = (f s).noting x
  follows : ∀ s, (f s).Follows s

namespace PassesBy

theorem id : PassesBy fun s => s := ⟨fun _ _ => rfl, .refl⟩

theorem comp {f g : State → State} (hg : PassesBy g) (hf : PassesBy f) : PassesBy fun s => g (f s) :=
  ⟨fun s x => by rw [hf.noting, hg.noting], fun s => (hf.follows s).trans (hg.follows _)⟩

theorem foldl {α : Type} (l : List α) {f : State → α → State} (hf : ∀ a, PassesBy (f · a)) : PassesBy (l.foldl f) := by
  induction l with
  | nil => exact id
  | cons a l ih => exact comp ih (hf a)

/-- A change whose course depends on the state, but not on what is noted. -/
theorem choose {f : State → State} (h : ∀ s : State, ∃ g, PassesBy g ∧ ∀ x, f (s.noting x) = g (s.noting x)) : PassesBy f := by
  refine ⟨fun s x => ?_, fun s => ?_⟩ <;> obtain ⟨g, hg, hfg⟩ := h s
  · have hs : f s = g s := hfg s.tx
    rw [hfg, hg.noting, hs]
  · have hs : f s = g s := hfg s.tx
    exact hs ▸ hg.follows s

theorem of_writesMemory {f : State → State} (hf : WritesMemory f) : PassesBy f :=
  ⟨hf.noting, fun s => .of_core (hf.site s) (by rw [State.core, State.coreAt, hf.site, hf.cores]; rfl)⟩

theorem tables (g : List KvTab → List KvTab) : PassesBy fun s => { s with kvTabs := g s.kvTabs } :=
  ⟨fun _ _ => rfl, fun _ => .of_core rfl rfl⟩

end PassesBy

/-- A change of every listed core that leaves what executes on it. -/
theorem lookup_map {α : Type} (d : α) (g : α → α) (k : Nat) (l : List (Nat × α)) :
    lookup d k (l.map fun e => (e.1, g e.2)) = lookup d k l ∨ lookup d k (l.map fun e => (e.1, g e.2)) = g (lookup d k l) := by
  induction l with
  | nil => exact .inl rfl
  | cons e l ih =>
    obtain ⟨j, v⟩ := e
    simp only [List.map_cons, lookup]
    split
    · exact .inr rfl
    · exact ih

theorem State.Follows.mapCores (s : State) {g : Core → Core}
    (hg : ∀ c, (g c).act = c.act ∧ (g c).dbgctl = c.dbgctl ∧ (g c).halted = c.halted) :
    State.Follows { s with cores := s.cores.map fun e => (e.1, g e.2) } s := by
  obtain ⟨ha, hd, hh⟩ := hg s.core
  have h := lookup_map {} g s.site s.cores
  rcases h with h | h
  · exact .of_core rfl h
  · refine ⟨rfl, ?_, ?_, ?_⟩
    · exact (congrArg Core.act h).trans ha
    · exact (congrArg Core.dbgctl h).trans hd
    · exact (congrArg Core.halted h).trans hh

/-! The parts of a window's closing (R380). -/

theorem State.field_noting (s : State) (x : Tx) (l : Loc) (off n : Nat) : (s.noting x).field l off n = s.field l off n := by
  cases l <;> rfl

theorem setFieldAt_passesBy (l : Loc) (off n v : Nat) : PassesBy (State.setFieldAt · l off n v) :=
  .of_writesMemory (.setFieldAt l off n v)

theorem setBodyField_passesBy (l : Loc) (off lo w v : Nat) : PassesBy (State.setBodyField · l off lo w v) :=
  .choose fun s => ⟨_, setFieldAt_passesBy l off 8 (s.field l off 8 - fieldN (s.field l off 8) lo w * 2 ^ lo + v % 2 ^ w * 2 ^ lo),
    fun x => by simp only [State.setBodyField, State.field_noting]⟩

theorem setKvPage_passesBy (t : Loc) (i : Nat) (p : Word) : PassesBy (State.setKvPage · t i p) := setFieldAt_passesBy ..

section
variable (s : State) (x : Tx)

theorem State.bodyField_noting (l : Loc) (off lo w : Nat) : (s.noting x).bodyField l off lo w = s.bodyField l off lo w := by
  simp only [State.bodyField, State.field_noting]

theorem State.kvPage_noting (t : Loc) (i : Nat) : (s.noting x).kvPage t i = s.kvPage t i := by
  simp only [State.kvPage, State.field_noting]

theorem State.kvRstLoc_noting (asid : Nat) (t : Loc) : (s.noting x).kvRstLoc asid t = s.kvRstLoc asid t := by
  have hrst : (s.noting x).kvRst t = s.kvRst t := by simp only [State.kvRst, State.field_noting]
  unfold State.kvRstLoc
  rw [hrst]
  rfl

/-- The frame of a page whose last reference has gone is free again (R375, R380). -/
def State.freeFrame (s : State) (l : Loc) (f : Nat) : State :=
  { s.setVf (s.pageVf l) { s.vfAt (s.pageVf l) with kvUsed := (s.vfAt (s.pageVf l)).kvUsed - 1 } with
    kvFrames := s.kvFrames.filter fun x => x ≠ f }

theorem freeFrame_noting (l : Loc) (f : Nat) : (s.noting x).freeFrame l f = (s.freeFrame l f).noting x := by
  have hvf : (s.noting x).pageVf l = s.pageVf l := s.bodyField_noting x l 0 56 8
  unfold State.freeFrame
  rw [hvf]
  rfl

theorem dropRef_eq (f : Nat) : s.dropRef f
    = if s.pageRefs (.pad (kvFrameKey f)) - 1 = 0 then
        ((s.setBodyField (.pad (kvFrameKey f)) 0 32 13 (s.pageRefs (.pad (kvFrameKey f)) - 1)).freeFrame (.pad (kvFrameKey f)) f, some f)
      else (s.setBodyField (.pad (kvFrameKey f)) 0 32 13 (s.pageRefs (.pad (kvFrameKey f)) - 1), none) := rfl

theorem dropRef_noting (f : Nat) : (s.noting x).dropRef f = ((s.dropRef f).1.noting x, (s.dropRef f).2) := by
  have hrefs : (s.noting x).pageRefs (.pad (kvFrameKey f)) = s.pageRefs (.pad (kvFrameKey f)) := s.bodyField_noting x _ 0 32 13
  have hset := (setBodyField_passesBy (.pad (kvFrameKey f)) 0 32 13 (s.pageRefs (.pad (kvFrameKey f)) - 1)).noting s x
  simp only [dropRef_eq, hrefs, hset, freeFrame_noting]
  split
  · rfl
  · rfl

theorem freeFrame_follows (l : Loc) (f : Nat) : (s.freeFrame l f).Follows s := .of_core rfl rfl

theorem State.Follows.ite_fst {α : Type} {s : State} {c : Prop} [Decidable c] {a b : State × α} (ha : a.1.Follows s)
    (hb : b.1.Follows s) : (if c then a else b).1.Follows s := by
  split
  · exact ha
  · exact hb

theorem dropRef_follows (f : Nat) : (s.dropRef f).1.Follows s := by
  have h := (setBodyField_passesBy (.pad (kvFrameKey f)) 0 32 13 (s.pageRefs (.pad (kvFrameKey f)) - 1)).follows s
  rw [dropRef_eq]
  exact .ite_fst (h.trans (freeFrame_follows ..)) h

/-- One page entry is nulled, and the frame that its reference gave back is noted (R380). -/
def nullEntry (t : Loc) (i : Nat) (fs : List Nat) (d : State × Option Nat) : State × List Nat :=
  (d.1.setKvPage t i nullPtr, fs ++ d.2.toList)

theorem nullEntry_noting (t : Loc) (i : Nat) (fs : List Nat) (d : State × Option Nat) :
    nullEntry t i fs (d.1.noting x, d.2) = ((nullEntry t i fs d).1.noting x, (nullEntry t i fs d).2) :=
  congrArg (·, fs ++ d.2.toList) ((setKvPage_passesBy t i nullPtr).noting d.1 x)

theorem nullEntry_follows (t : Loc) (i : Nat) (fs : List Nat) (d : State × Option Nat) : (nullEntry t i fs d).1.Follows d.1 :=
  (setKvPage_passesBy t i nullPtr).follows d.1

def dropPage (t : Loc) (i : Nat) (s : State) (fs : List Nat) : State × List Nat :=
  if ptrLevel (s.kvPage t i) = 7 then (s, fs)
  else nullEntry t i fs (if poolPtr (s.kvPage t i) then s.dropRef (frameOf (s.kvPage t i)) else (s, none))

theorem dropPages_eq (t : Loc) (f cap : Nat) :
    s.dropPages t f cap = (List.range (cap - f)).foldl (fun acc n => dropPage t (f + n) acc.1 acc.2) (s, []) := rfl

theorem dropPage_noting (t : Loc) (i : Nat) (fs : List Nat) :
    dropPage t i (s.noting x) fs = ((dropPage t i s fs).1.noting x, (dropPage t i s fs).2) := by
  unfold dropPage
  rw [State.kvPage_noting, dropRef_noting]
  generalize s.kvPage t i = p
  split
  · rfl
  · split
    · exact nullEntry_noting x t i fs _
    · exact nullEntry_noting x t i fs (s, none)

theorem dropPage_follows (t : Loc) (i : Nat) (fs : List Nat) : (dropPage t i s fs).1.Follows s := by
  unfold dropPage
  refine .ite_fst (.refl s) (.trans ?_ (nullEntry_follows ..))
  exact .ite_fst (dropRef_follows s _) (.refl s)

/-- The pages of a window are nulled one by one, whatever is noted. -/
theorem dropPages_passesBy (t : Loc) (f cap : Nat) :
    (s.noting x).dropPages t f cap = ((s.dropPages t f cap).1.noting x, (s.dropPages t f cap).2)
      ∧ (s.dropPages t f cap).1.Follows s := by
  simp only [dropPages_eq]
  generalize List.range (cap - f) = l
  generalize ([] : List Nat) = fs
  induction l generalizing s fs with
  | nil => exact ⟨rfl, .refl s⟩
  | cons n l ih =>
    obtain ⟨hn, hf⟩ := ih (dropPage t (f + n) s fs).1 (dropPage t (f + n) s fs).2
    rw [List.foldl_cons, List.foldl_cons, dropPage_noting]
    exact ⟨hn, (dropPage_follows s t (f + n) fs).trans hf⟩

end

theorem setCommitted_passesBy (r : Loc) (j p : Nat) : PassesBy (State.setCommitted · r j p) :=
  .comp (setBodyField_passesBy r 8 0 40 p) (.comp (setBodyField_passesBy r 0 3 1 1) (setBodyField_passesBy r 0 0 3 j))

theorem closeVersions_passesBy (r : Loc) (E : Nat) (tie : Bool) : PassesBy (State.closeVersions · r E tie) := by
  have hfirst : PassesBy fun s => match s.closingSlot r E tie with
      | some j => (s.setCommitted r j (rsPos (s.rsTag r j))).setTag r j true false (rsPos (s.rsTag r j))
      | none => s := by
    refine .choose fun s => ?_
    cases h : s.closingSlot r E tie with
    | none =>
      refine ⟨_, .id, fun x => ?_⟩
      rw [show (s.noting x).closingSlot r E tie = none from h]
    | some j =>
      refine ⟨_, .comp (setFieldAt_passesBy r (0x40 + 8 * j) 8 (boolBit true 63 + boolBit false 62 + rsPos (s.rsTag r j) % 2 ^ 40))
        (setCommitted_passesBy r j (rsPos (s.rsTag r j))), fun x => ?_⟩
      rw [show (s.noting x).closingSlot r E tie = some j from h]
      rfl
  have hlast : PassesBy fun s => (List.range 8).foldl
      (fun t j => if j = s.rsCur r then t else t.setBodyField r (0x40 + 8 * j) 63 1 0) s := by
    refine .choose fun s => ⟨_, .foldl (List.range 8) (f := fun t j => if j = s.rsCur r then t
      else t.setBodyField r (0x40 + 8 * j) 63 1 0) fun j => ?_, fun _ => rfl⟩
    by_cases hj : j = s.rsCur r
    · simp only [hj, if_true]
      exact .id
    · simp only [hj, if_false]
      exact setBodyField_passesBy r (0x40 + 8 * j) 63 1 0
  exact .comp (setBodyField_passesBy r 0 30 1 0) (.comp hlast hfirst)

theorem shootFrames_passesBy (fs : List Nat) : PassesBy (State.shootFrames · fs) := by
  by_cases h : fs = []
  · simp only [State.shootFrames, h, if_true]
    exact .id
  · simp only [State.shootFrames, h, if_false]
    exact ⟨fun _ _ => rfl, fun s => .mapCores s (g := fun c => c.kvDrop fun e => poolPtr e.ptr && fs.contains (frameOf e.ptr))
      fun _ => ⟨rfl, rfl, rfl⟩⟩

/-- A window closes once its pages are gone: its versions, its fields and its owner (R380). -/
def State.closeFields (s : State) (asid va E : Nat) (tie : Bool) : State :=
  let t := Loc.heap asid va
  let s2 := match s.kvRstLoc asid t with
    | some r => s.closeVersions r E tie
    | none => s
  let s3 := (((s2.setBodyField t 0 0 40 E).setBodyField t 8 0 40 0).setBodyField t 0 62 1 0).setBodyField t 0x10 0 21 noPage
  { s3 with kvTabs := s3.kvTabs.map fun (x : KvTab) => if x.asid = asid ∧ x.va = va then { x with owner := none } else x }

theorem closeFields_passesBy (asid va E : Nat) (tie : Bool) : PassesBy (State.closeFields · asid va E tie) := by
  have hversions : PassesBy fun s => match s.kvRstLoc asid (.heap asid va) with
      | some r => s.closeVersions r E tie
      | none => s := by
    refine .choose fun s => ?_
    cases h : s.kvRstLoc asid (.heap asid va) with
    | none =>
      refine ⟨_, .id, fun x => ?_⟩
      rw [State.kvRstLoc_noting, h]
    | some r =>
      refine ⟨_, closeVersions_passesBy r E tie, fun x => ?_⟩
      rw [State.kvRstLoc_noting, h]
  have hfields : PassesBy fun s => (((s.setBodyField (.heap asid va) 0 0 40 E).setBodyField (.heap asid va) 8 0 40 0).setBodyField
      (.heap asid va) 0 62 1 0).setBodyField (.heap asid va) 0x10 0 21 noPage :=
    .comp (setBodyField_passesBy (.heap asid va) 0x10 0 21 noPage) (.comp (setBodyField_passesBy (.heap asid va) 0 62 1 0)
      (.comp (setBodyField_passesBy (.heap asid va) 8 0 40 0) (setBodyField_passesBy (.heap asid va) 0 0 40 E)))
  have howner : PassesBy fun s => { s with
      kvTabs := s.kvTabs.map fun (x : KvTab) => if x.asid = asid ∧ x.va = va then { x with owner := none } else x } := .tables _
  exact .comp howner (.comp hfields hversions)

/-- The pages and frames that the closing of a window gives back. -/
def State.closePages (s : State) (asid va E : Nat) : State × List Nat :=
  ({ s with free := s.free + 1 }).dropPages (.heap asid va) (Nat.max (s.kvWpg0 (.heap asid va)) (ceilDiv E 16))
    ((kvCap (s.hdr (.heap asid va)).len).getD 0)

theorem closeWindow_eq (s : State) (asid va a : Nat) : s.closeWindow asid va a
    = ((s.closePages asid va (s.kvNtok (.heap asid va) + a)).1.closeFields asid va (s.kvNtok (.heap asid va) + a)
      (decide (0 < a) && Config.freeBool s.free)).shootFrames (s.closePages asid va (s.kvNtok (.heap asid va) + a)).2 := rfl

theorem closeWindow_passesBy (asid va a : Nat) : PassesBy (State.closeWindow · asid va a) := by
  have hpages : ∀ (s : State) x E, (s.noting x).closePages asid va E
      = ((s.closePages asid va E).1.noting x, (s.closePages asid va E).2) := fun s x E =>
    (dropPages_passesBy ({ s with free := s.free + 1 } : State) x ..).1
  refine ⟨fun s x => ?_, fun s => ?_⟩ <;> simp only [closeWindow_eq]
  · rw [show (s.noting x).kvNtok (.heap asid va) = s.kvNtok (.heap asid va) from rfl, hpages,
      (closeFields_passesBy ..).noting, (shootFrames_passesBy _).noting]
    rfl
  · have h0 : State.Follows { s with free := s.free + 1 } s := .of_core rfl rfl
    have h1 := (dropPages_passesBy ({ s with free := s.free + 1 } : State) {} (.heap asid va)
      (Nat.max (s.kvWpg0 (.heap asid va)) (ceilDiv (s.kvNtok (.heap asid va) + a) 16)) ((kvCap (s.hdr (.heap asid va)).len).getD 0)).2
    exact (h0.trans h1).trans (((closeFields_passesBy ..).follows _).trans ((shootFrames_passesBy _).follows _))

theorem autoAbort_passesBy (k : KvTab) : PassesBy (State.autoAbort · k) := by
  have hshoot : PassesBy fun s1 => { s1 with
      cores := s1.cores.map fun (n, c) => if s1.coreAsid c = k.asid then (n, c.dropOwn k.va) else (n, c)
      kvTabs := s1.kvTabs.map fun x => if x.asid = k.asid ∧ x.va = k.va then { x with abort := false } else x } := by
    refine ⟨fun _ _ => rfl, fun s => ?_⟩
    have hmap : (s.cores.map fun (n, c) => if s.coreAsid c = k.asid then (n, c.dropOwn k.va) else (n, c))
        = s.cores.map fun e => (e.1, if s.coreAsid e.2 = k.asid then e.2.dropOwn k.va else e.2) :=
      List.map_congr_left fun e _ => by dsimp only; split <;> rfl
    have h := State.Follows.mapCores s (g := fun c => if s.coreAsid c = k.asid then c.dropOwn k.va else c) fun c => by
      split <;> exact ⟨rfl, rfl, rfl⟩
    rw [← hmap] at h
    exact h.trans (.of_core rfl rfl)
  have hmark : PassesBy fun s => { s with
      kvTabs := s.kvTabs.map fun x => if x.asid = k.asid ∧ x.va = k.va then { x with abort := true } else x } := .tables _
  refine .choose fun s => ?_
  by_cases h : s.closable k.asid k.va = true
  · refine ⟨_, .comp hshoot (closeWindow_passesBy k.asid k.va 0), fun x => ?_⟩
    exact if_pos h
  · refine ⟨_, hmark, fun x => ?_⟩
    exact if_neg h

theorem kvAbortOwner_passesBy (rid lc ctx : Nat) : PassesBy (State.kvAbortOwner · rid lc ctx) :=
  .choose fun s => ⟨_, .foldl (s.kvTabs.filter fun k => decide (k.asid = (s.recAt rid).l.asid) && decide (k.owner = some (lc, ctx))
    && (match k.rid with | some r => r = rid || decide ((s.recAt r).st = .ended) | none => true)) autoAbort_passesBy, fun _ => rfl⟩

/-- A context's windows are aborted, whatever the instruction under way has noted. -/
theorem kvAbortCtx_passesBy (site ctx : Nat) : PassesBy (State.kvAbortCtx · site ctx) := by
  refine .choose fun s => ?_
  cases h : (s.coreAt site).recId with
  | none =>
    refine ⟨_, .id, fun x => ?_⟩
    rw [State.kvAbortCtx, show ((s.noting x).coreAt site).recId = none from h]
  | some rid =>
    refine ⟨_, kvAbortOwner_passesBy rid ((s.coreAt site).ctxAt ctx).lcore.toNat ctx, fun x => ?_⟩
    rw [State.kvAbortCtx, show ((s.noting x).coreAt site).recId = some rid from h]
    rfl

end Sys2Proof.Machine
end

section
/-! SUPPORT. Helpers (R97 to R102): `hexit`, `hid` and `yield`. -/

namespace Sys2Proof.Machine

/-! `hexit` (R98). -/

/-- The mutexes of the executing context of a record become free (R203). -/
def State.dropsMutexes (s : State) (rid : Nat) : State :=
  s.setRec rid ((s.recAt rid).freeMutexes fun h => decide (h = (s.ctx.lcore.toNat, s.core.act)))

/-- The executing context's windows are aborted (R381). -/
def State.dropsWindows (s : State) : State := s.kvAbortCtx s.site s.core.act

/-- The effect of `hexit`. -/
def hexitBody (a : BitVec 5) : Op Unit := do
  let s ← get
  require (decide (s.core.ctxNo ≠ 0) && decide (s.core.act ≤ 10)) .illegal 0
  waitAccesses
  if !(s.core.commandsOf s.core.act).isEmpty || s.core.owed.any (fun r => decide (r.ctx = s.core.act)) then waitHere
  let v ← rdS a
  match s.core.recId with
  | some rid => modRec rid fun r => r.freeMutexes fun h => decide (h = (s.ctx.lcore.toNat, s.core.act))
  | none => pure ()
  modify State.dropsWindows
  modCtx fun x => { x with exitval := v, recs := [], st := .exited }
  modTx fun t => { t with pops29 := 0 }

theorem exec_hexit_eq (a : BitVec 5) (s : State) : exec (.hexit a) s = runInstr (.hexit a) (hexitBody a) s := rfl

theorem dropsWindows_noting (s : State) (x : Tx) : (s.noting x).dropsWindows = s.dropsWindows.noting x :=
  (kvAbortCtx_passesBy s.site s.core.act).noting s x

theorem dropsWindows_follows (s : State) : s.dropsWindows.Follows s := (kvAbortCtx_passesBy s.site s.core.act).follows s

/-- The context exits with its value; nothing that it has popped is left to take. -/
def State.exits (s : State) (v : Word) : State := s.setCtx { s.ctx with exitval := v, recs := [], st := .exited }

theorem hexitBody_run {a : BitVec 5} {s : State} {rid : Nat} (ha : plain a = true) (hctx : s.core.ctxNo ≠ 0) (hact : s.core.act ≤ 10)
    (hacc : s.accessPending s.site s.core.act = false) (hcmd : s.core.commandsOf s.core.act = [])
    (howed : ∀ r ∈ s.core.owed, r.ctx ≠ s.core.act) (hrid : s.core.recId = some rid) (hx : s.tx.pops29 = 0) :
    hexitBody a s = .ok () (((s.dropsMutexes rid).dropsWindows.exits (s.src a)).noting s.tx) := by
  have howed' : (s.core.owed.any fun r => decide (r.ctx = s.core.act)) = false := by
    simpa only [List.any_eq_false, decide_eq_true_eq] using howed
  have hdrop : (s.dropsMutexes rid).dropsWindows = (s.dropsMutexes rid).dropsWindows.noting s.tx :=
    dropsWindows_noting (s.dropsMutexes rid) s.tx
  have htx : ((s.dropsMutexes rid).dropsWindows.exits (s.src a)).tx = s.tx :=
    (congrArg (fun u : State => (u.exits (s.src a)).tx) hdrop).trans rfl
  have htx' : { s.tx with pops29 := 0 } = s.tx := by
    rw [← hx]
  simp only [hexitBody, Op.bind_run, Op.get_run, require_run, waitAccesses, hctx, hact, hacc, hcmd, howed', rdS_plain ha, hrid,
    modRec_run, Op.modify_run, modCtx_run, modTx_run, ne_eq, not_false_eq_true, decide_true, Bool.and_self, if_true, List.isEmpty_nil,
    Bool.not_true, Bool.or_self, Bool.false_eq_true, if_false, Op.pure_run]
  show EStateM.Result.ok () (((s.dropsMutexes rid).dropsWindows.exits (s.src a)).noting
    { ((s.dropsMutexes rid).dropsWindows.exits (s.src a)).tx with pops29 := 0 }) = _
  rw [htx, htx']

theorem exec_hexit {a : BitVec 5} {s : State} {rid : Nat} (ha : plain a = true) (hf : s.calm = true) (hctx : s.core.ctxNo ≠ 0)
    (hact : s.core.act ≤ 10) (hacc : s.accessPending s.site s.core.act = false) (hcmd : s.core.commandsOf s.core.act = [])
    (howed : ∀ r ∈ s.core.owed, r.ctx ≠ s.core.act) (hrid : s.core.recId = some rid) :
    exec (.hexit a) s = .next ((s.dropsMutexes rid).dropsWindows.exits (s.src a)).retires := by
  have hrun := hexitBody_run (s := s.starts (.hexit a)) ha hctx hact hacc hcmd howed hrid rfl
  have hdrop : ((s.starts (.hexit a)).dropsMutexes rid).dropsWindows
      = (s.dropsMutexes rid).dropsWindows.noting (s.starts (.hexit a)).tx :=
    dropsWindows_noting (s.dropsMutexes rid) (s.starts (.hexit a)).tx
  have hu : ((s.dropsMutexes rid).dropsWindows.exits (s.src a)).Follows s :=
    ((State.Follows.of_core (s := s) (t := s.dropsMutexes rid) rfl rfl).trans (dropsWindows_follows _)).trans (.setCtx _ _)
  refine (exec_hexit_eq a s).trans (runInstr_retires_from rfl (hasUnit_of_plain rfl rfl s) (hrun.trans ?_) hu hf)
  exact (congrArg (fun u : State => EStateM.Result.ok () ((u.exits (s.src a)).noting (s.starts (.hexit a)).tx)) hdrop).trans rfl

/-! `hid` (R101). -/

/-- The number with the bits that a test gives, of the first `k`. -/
def bitSum (q : Nat → Bool) (k : Nat) : Nat := ((List.range k).map fun n => if q n then 2 ^ n else 0).sum

theorem bitSum_succ (q : Nat → Bool) (k : Nat) : bitSum q (k + 1) = bitSum q k + if q k then 2 ^ k else 0 := by
  simp [bitSum, List.range_succ]

theorem bitSum_lt (q : Nat → Bool) (k : Nat) : bitSum q k < 2 ^ k := by
  induction k with
  | zero => simp [bitSum]
  | succ k ih =>
    rw [bitSum_succ, pow_succ]
    split <;> omega

theorem testBit_bitSum (q : Nat → Bool) {k n : Nat} (h : n < k) : (bitSum q k).testBit n = q n := by
  induction k with
  | zero => omega
  | succ k ih =>
    have hlt := bitSum_lt q k
    rw [bitSum_succ]
    rcases Nat.lt_succ_iff_lt_or_eq.1 h with hn | rfl
    · rw [← ih hn]
      split
      · rw [Nat.add_comm, Nat.testBit_two_pow_add_gt hn]
      · rfl
    · split
      next hq => rw [Nat.add_comm, Nat.testBit_two_pow_add_eq, Nat.testBit_lt_two_pow hlt, hq]; rfl
      next hq => rw [Nat.add_zero, Nat.testBit_lt_two_pow hlt]; simpa using hq

theorem hidWord_eq (c : Core) : hidWord c = BitVec.ofNat 64 (2 ^ 32 * bitSum (fun n => decide ((c.ctxAt n).st = .exited)) 11
    + (2 ^ 16 * (bitSum (fun n => (c.ctxAt n).st = .ready || (c.ctxAt n).st = .waiting) 11 ||| 1) + c.ctxNo)) := by
  unfold hidWord bitSum
  dsimp only
  congr 1
  ring

/-- The fields of `hid`: the executing context, those that run, with context 0, and those that have exited (R101). -/
theorem hidWord_fields {c : Core} (hc : c.ctxNo < 16) : (hidWord c).toNat % 16 = c.ctxNo ∧ ∀ n, n < 11 →
    (hidWord c).getLsbD (32 + n) = decide ((c.ctxAt n).st = .exited)
    ∧ (hidWord c).getLsbD (16 + n)
      = (decide (n = 0) || decide ((c.ctxAt n).st = .ready) || decide ((c.ctxAt n).st = .waiting)) := by
  have hE := fun n hn => testBit_bitSum (fun n => decide ((c.ctxAt n).st = .exited)) (k := 11) (n := n) hn
  have hL := fun n hn => testBit_bitSum (fun n => (c.ctxAt n).st = .ready || (c.ctxAt n).st = .waiting) (k := 11) (n := n) hn
  have hlt := bitSum_lt (fun n => (c.ctxAt n).st = .ready || (c.ctxAt n).st = .waiting) 11
  rw [hidWord_eq]
  generalize bitSum (fun n => decide ((c.ctxAt n).st = .exited)) 11 = E at hE ⊢
  generalize bitSum (fun n => (c.ctxAt n).st = .ready || (c.ctxAt n).st = .waiting) 11 = L at hL hlt ⊢
  have hlive : 2 ^ 16 * (L ||| 1) + c.ctxNo < 2 ^ 32 := by
    have : L ||| 1 < 2 ^ 11 := Nat.or_lt_two_pow hlt (by decide)
    omega
  refine ⟨?_, fun n hn => ⟨?_, ?_⟩⟩
  · rw [BitVec.toNat_ofNat]
    omega
  · have h64 : 32 + n < 64 := by omega
    rw [BitVec.getLsbD_ofNat, Nat.testBit_two_pow_mul_add _ hlive, if_neg (by omega), Nat.add_sub_cancel_left, hE n hn,
      decide_eq_true h64, Bool.true_and]
  · have h64 : 16 + n < 64 := by omega
    have hone : Nat.testBit 1 n = decide (n = 0) := by cases n <;> simp [Nat.testBit_succ]
    rw [BitVec.getLsbD_ofNat, Nat.testBit_two_pow_mul_add _ hlive, if_pos (by omega),
      Nat.testBit_two_pow_mul_add (i := 16) (b := c.ctxNo) _ (by omega), if_neg (by omega), Nat.add_sub_cancel_left, Nat.testBit_or,
      hL n hn, hone, decide_eq_true h64, Bool.true_and, Bool.or_comm, Bool.or_assoc]

end Sys2Proof.Machine
end

section
/-! SUPPORT. The statements about helpers (R97 to R102), one for each clause. -/

namespace Sys2Proof.Machine

/-! What `hstart` and `hjoin` do at context 0. -/

section
variable {d a b : BitVec 5} {s : State}

theorem exec_hstart_misaligned (ha : plain a = true) (hb : plain b = true) (hact : s.core.act ≠ 12) (ht : s.core.tuft = false)
    (hc : s.core.ctxNo = 0) (hm : (s.src a).toNat % 4 ≠ 0) :
    exec (.hstart d a b) s = .next (s.trapHere Cause.misalign.code (s.src a) false) :=
  (exec_hstart_eq d a b s).trans (runInstr_trapHere rfl (hasUnit_of_plain rfl rfl s)
    ((hstartBody_run (s := s.starts (.hstart d a b)) ha hb hact ht hc).trans (if_pos hm)))

theorem exec_hstart_outside (ha : plain a = true) (hb : plain b = true) (hact : s.core.act ≠ 12) (ht : s.core.tuft = false)
    (hc : s.core.ctxNo = 0) (hm : (s.src a).toNat % 4 = 0) (hl : s.codeLen < (s.src a).toNat + 4) :
    exec (.hstart d a b) s = .next (s.trapHere Cause.bounds.code (s.src a) false) :=
  (exec_hstart_eq d a b s).trans (runInstr_trapHere rfl (hasUnit_of_plain rfl rfl s)
    ((hstartBody_run (s := s.starts (.hstart d a b)) ha hb hact ht hc).trans ((if_neg (not_not.2 hm)).trans (if_pos hl))))

/-- With a good entry the lowest free helper is asked for. -/
theorem hstartBody_starts (ha : plain a = true) (hb : plain b = true) (hact : s.core.act ≠ 12) (ht : s.core.tuft = false)
    (hc : s.core.ctxNo = 0) (hm : (s.src a).toNat % 4 = 0) (hl : (s.src a).toNat + 4 ≤ s.codeLen) :
    hstartBody d a b (s.starts (.hstart d a b))
      = startHelper d (s.src a) (s.src b) s.core.freeHelper (s.starts (.hstart d a b)) :=
  (hstartBody_run (s := s.starts (.hstart d a b)) ha hb hact ht hc).trans
    ((if_neg (not_not.2 hm)).trans (if_neg (Nat.not_lt.2 hl)))

theorem exec_hstart_tuft (hact : s.core.act ≠ 12) (ht : s.core.tuft = true) :
    exec (.hstart d a b) s = .next (s.trapHere Cause.gang.code 5 false) :=
  (exec_hstart_eq d a b s).trans (runInstr_trapHere rfl (hasUnit_of_plain rfl rfl s)
    (hstartBody_tuft (s := s.starts (.hstart d a b)) hact ht))

theorem exec_hjoin_tuft (hact : s.core.act ≠ 12) (ht : s.core.tuft = true) :
    exec (.hjoin d a) s = .next (s.trapHere Cause.gang.code 5 false) :=
  (exec_hjoin_eq d a s).trans (runInstr_trapHere rfl (hasUnit_of_plain rfl rfl s)
    (hjoinBody_tuft (s := s.starts (.hjoin d a)) hact ht))

section
variable (ha : plain a = true) (hact : s.core.act ≠ 12) (ht : s.core.tuft = false) (hc : s.core.ctxNo = 0)
  (h1 : 1 ≤ (s.src a).toNat) (h10 : (s.src a).toNat ≤ 10)
include ha hact ht hc h1 h10

theorem exec_hjoin_free (hx : (s.core.ctxAt (s.src a).toNat).st = .free) :
    exec (.hjoin d a) s = .next (s.trapHere Cause.illegal.code (s.src a) false) :=
  (exec_hjoin_eq d a s).trans (runInstr_trapHere rfl (hasUnit_of_plain rfl rfl s)
    ((hjoinBody_run (s := s.starts (.hjoin d a)) ha hact ht hc h1 h10).trans (if_pos hx)))

/-- A helper that has been started is asked for its value. -/
theorem hjoinBody_joins (hx : (s.core.ctxAt (s.src a).toNat).st ≠ .free) : hjoinBody d a (s.starts (.hjoin d a))
    = joinHelper d s.site (s.src a) (s.core.ctxAt (s.src a).toNat) (s.starts (.hjoin d a)) :=
  (hjoinBody_run (s := s.starts (.hjoin d a)) ha hact ht hc h1 h10).trans (if_neg hx)

theorem exec_hjoin_exited (hd : plain d = true) (hf : s.calm = true) (hx : (s.core.ctxAt (s.src a).toNat).st = .exited) :
    exec (.hjoin d a) s = .next ((s.setCore s.site (s.core.setCtx (s.src a).toNat
      { s.core.ctxAt (s.src a).toNat with st := .free })).gives d (s.core.ctxAt (s.src a).toNat).exitval) := by
  have hfree : (s.core.ctxAt (s.src a).toNat).st ≠ .free := by simp [hx]
  refine (exec_hjoin_eq d a s).trans (runInstr_retires_from rfl (hasUnit_of_plain rfl rfl s)
    ((hjoinBody_joins ha hact ht hc h1 h10 hfree).trans (joinHelper_exited (s := s.starts (.hjoin d a)) hd hx)) ?_ hf)
  exact (State.Follows.setCoreCtx ..).trans (.setCtx _ _)

theorem exec_hjoin_busy (hx : (s.core.ctxAt (s.src a).toNat).st = .ready ∨ (s.core.ctxAt (s.src a).toNat).st = .waiting) :
    exec (.hjoin d a) s = .next (s.waits (s.starts (.hjoin d a)).tx) := by
  have hfree : (s.core.ctxAt (s.src a).toNat).st ≠ .free := by rcases hx with hx | hx <;> simp [hx]
  have hex : (s.core.ctxAt (s.src a).toNat).st ≠ .exited := by rcases hx with hx | hx <;> simp [hx]
  obtain ⟨u, hu, rfl⟩ := runInstr_wait rfl (hasUnit_of_plain rfl rfl s)
    ((hjoinBody_joins ha hact ht hc h1 h10 hfree).trans (joinHelper_busy (s := s.starts (.hjoin d a)) hex))
  exact (exec_hjoin_eq d a s).trans hu

end

end

/-! `hid` and `yield` (R101, R102). -/

theorem exec_hid {d : BitVec 5} {s : State} (hd : plain d = true) (hf : s.calm = true) :
    exec (.hid d) s = .next (s.gives d (hidWord s.core)) :=
  runInstr_gives rfl (hasUnit_of_plain rfl rfl s) hf ((Op.bind_ok (getCore_run _)).trans (wrS_plain hd _ _))

theorem exec_yield {s : State} (hf : s.calm = true) : exec .yield s = .next (s.setCore s.site (s.core.setCtx s.core.turnOf
    { s.core.ctxAt s.core.turnOf with
      passed := (List.range 11).filter fun n => decide (n ≠ s.core.turnOf) && decide ((s.core.ctxAt n).st = .ready) })).retires :=
  runInstr_retires_from rfl (hasUnit_of_plain rfl rfl s) rfl (State.Follows.setCoreCtx ..) hf

end Sys2Proof.Machine
end

section
/-! SUPPORT. Parking (R103, R104): the slots of a register, the checks, and the vector registers that are tied to no stream. -/

namespace Sys2Proof.Machine

/-! The number that slots make. -/

theorem slotsNat_append (l m : List Word) : slotsNat (l ++ m) = slotsNat l + 2 ^ (64 * l.length) * slotsNat m := by
  induction l with
  | nil => simp [slotsNat]
  | cons w l ih =>
    rw [List.cons_append, slotsNat, slotsNat, ih, List.length_cons]
    ring

/-- The first k slots of a number from bit 64 j on. -/
theorem slotsNat_slots {n : Nat} (v : BitVec n) (k j : Nat) :
    slotsNat ((List.range k).map fun i => v.extractLsb' (64 * (i + j)) 64) = v.toNat / 2 ^ (64 * j) % 2 ^ (64 * k) := by
  induction k generalizing j with
  | zero => simp [slotsNat, Nat.mod_one]
  | succ k ih =>
    have hshift : ((fun i => v.extractLsb' (64 * (i + j)) 64) ∘ Nat.succ) = fun i => v.extractLsb' (64 * (i + (j + 1))) 64 := by
      funext i
      simp only [Function.comp_apply, Nat.succ_eq_add_one, Nat.add_right_comm i 1 j, Nat.add_assoc]
    rw [List.range_succ_eq_map, List.map_cons, List.map_map, hshift, slotsNat, ih, Nat.zero_add, BitVec.extractLsb'_toNat,
      Nat.shiftRight_eq_div_pow, Nat.mul_succ 64 k, Nat.add_comm (64 * k) 64, pow_add 2 64, Nat.mod_mul, Nat.div_div_eq_div_mul,
      ← pow_add, Nat.mul_succ 64 j]

theorem ofNat_slots {n : Nat} (v : BitVec n) {k : Nat} (h : n = 64 * k) :
    BitVec.ofNat n (slotsNat ((List.range k).map fun i => v.extractLsb' (64 * i) 64)) = v := by
  have hs := slotsNat_slots v k 0
  simp only [Nat.add_zero, Nat.mul_zero, pow_zero, Nat.div_one, ← h, Nat.mod_eq_of_lt v.isLt] at hs
  rw [hs, BitVec.ofNat_toNat, BitVec.setWidth_eq]

/-- The first slots are the low part of the number. -/
theorem ofNat_take_slots {n k : Nat} {l : List Word} (hl : k ≤ l.length) (h : n = 64 * k) :
    BitVec.ofNat n (slotsNat l) = BitVec.ofNat n (slotsNat (l.take k)) := by
  conv_lhs => rw [← List.take_append_drop k l, slotsNat_append, List.length_take, Nat.min_eq_left hl, ← h]
  exact BitVec.eq_of_toNat_eq (by simp)

/-! Writing slots leaves what executes. -/

theorem Core.putSlots_fields (l : List Word) (n : Nat) (c : Core) : (c.putSlots n l).act = c.act
    ∧ (c.putSlots n l).dbgctl = c.dbgctl ∧ (c.putSlots n l).halted = c.halted ∧ (c.putSlots n l).ptrSlots = c.ptrSlots
    ∧ (c.putSlots n l).parked = c.parked := by
  induction l generalizing n c with
  | nil => exact ⟨rfl, rfl, rfl, rfl, rfl⟩
  | cons w l ih => exact ih (n + 1) (c.setAcc (1024 + n) w)

theorem setAcc_foldl_fields (g : Nat → Nat) (h : Nat → Word) (l : List Nat) (c : Core) :
    (l.foldl (fun (c : Core) i => c.setAcc (g i) (h i)) c).act = c.act
    ∧ (l.foldl (fun (c : Core) i => c.setAcc (g i) (h i)) c).dbgctl = c.dbgctl
    ∧ (l.foldl (fun (c : Core) i => c.setAcc (g i) (h i)) c).halted = c.halted := by
  induction l generalizing c with
  | nil => exact ⟨rfl, rfl, rfl⟩
  | cons i l ih => exact ih (c.setAcc (g i) (h i))

/-- The tags and shadows that a parked register leaves: its own replace those of the slots it covers. -/
theorem Core.parkAt_eq (c : Core) (n : Nat) (ws : List Word) (p : Prop) [Decidable p] (sh : Shadow) :
    c.parkAt n ws (if p then some sh else none) = { c.putSlots n ws with
      ptrSlots := if p then insertKey n (dropRange n ws.length c.ptrSlots) else dropRange n ws.length c.ptrSlots
      parked :=
        let kept := c.parked.filter fun e => !within n ws.length e.1
        if p ∧ sh.valid = true then store n sh kept else kept } := by
  unfold Core.parkAt
  by_cases hp : p
  · by_cases hv : sh.valid = true
    · simp [hp, hv, Option.filter]
    · simp [hp, hv, Option.filter]
  · simp [hp]

theorem State.Follows.parkAt (s : State) (n : Nat) (ws : List Word) (sh : Option Shadow) :
    (s.setCore s.site (s.core.parkAt n ws sh)).Follows s := by
  obtain ⟨ha, hd, hh, -, -⟩ := Core.putSlots_fields ws n s.core
  exact .setCore ha hd hh

theorem find_filter_ne {α : Type} {k : Nat} {p : Nat × α → Bool} (h : ∀ v, p (k, v) = false) (l : List (Nat × α)) :
    find k (l.filter p) = none := by
  induction l with
  | nil => rfl
  | cons e l ih =>
    obtain ⟨j, v⟩ := e
    rw [List.filter_cons]
    split
    next hp =>
      have hj : j ≠ k := by
        rintro rfl
        rw [h v] at hp
        cases hp
      rw [find, if_neg hj, ih]
    · exact ih

/-- A pointer comes back with its bounds shadow if that was valid (R104). -/
theorem Core.parkedShadow_parkAt (c : Core) (n : Nat) (w w' : Word) (sh : Shadow) :
    (c.parkAt n [w, w'] (some sh)).parkedShadow n = if sh.valid = true then sh else {} := by
  have h := c.parkAt_eq n [w, w'] True sh
  rw [if_pos trivial] at h
  rw [h, Core.parkedShadow]
  by_cases hv : sh.valid = true
  · simp [hv]
  · have hnone := find_filter_ne (k := n) (p := fun e => !within n 2 e.1) (fun v => by simp [within]) c.parked
    simp [hv, hnone]

/-! The checks of `park` and `unpark`. -/

theorem parkChecks_run (f n : Nat) (s : State) : parkChecks f n s
    = if 6 ≤ f then .error (.trap .illegal (BitVec.ofNat 64 f)) s
      else if n % parkAlign f ≠ 0 then .error (.trap .misalign (BitVec.ofNat 64 n)) s
      else if 3072 < n + parkSlots f then .error (.trap .bounds (BitVec.ofNat 64 n)) s
      else .ok () s := by
  simp only [parkChecks, Op.bind_run, require_run]
  by_cases hf : f < 6
  · by_cases hn : n % parkAlign f = 0
    · by_cases hs : n + parkSlots f ≤ 3072
      · simp [hf, hn, hs, Nat.not_lt.2 hs, Nat.not_le.2 hf]
      · simp [hf, hn, hs, Nat.lt_of_not_le hs, Nat.not_le.2 hf]
    · simp [hf, hn, Nat.not_le.2 hf]
  · simp [hf, Nat.le_of_not_lt hf]

theorem parkChecks_ok {f n : Nat} (hf : f < 6) (hn : n % parkAlign f = 0) (hs : n + parkSlots f ≤ 3072) (s : State) :
    parkChecks f n s = .ok () s := by
  rw [parkChecks_run, if_neg (Nat.not_le.2 hf), if_neg (not_not.2 hn), if_neg (Nat.not_lt.2 hs)]

/-! Vector registers that are tied to no running stream (R266). -/

theorem State.still_iff {s : State} {r : BitVec 5} : s.still r = true ↔ r.toNat < 24 ∨ (s.core.stream (r.toNat - 24)).run = false := by
  simp [State.still]

theorem rdV_still {r : BitVec 5} {s : State} (h : s.still r = true) : rdV r s = .ok (s.vec r) s := by
  rw [State.still_iff] at h
  by_cases hr : r.toNat < 24
  · simp only [rdV, Op.bind_run, Op.get_run, hr, if_true, Op.pure_run]
    rfl
  · simp only [rdV, Op.bind_run, Op.get_run, hr, if_false, h.resolve_left hr]
    rfl

theorem checkVd_still {r : BitVec 5} {s : State} (h : s.still r = true) : checkVd r s = .ok () s := by
  rw [State.still_iff] at h
  by_cases hr : r.toNat < 24
  · rw [checkVd, if_neg (Nat.not_le.2 hr)]
    rfl
  · simp only [checkVd, if_pos (Nat.le_of_not_lt hr), Op.bind_run, getCore_run, h.resolve_left hr]
    rfl

theorem wrV_still {r : BitVec 5} {s : State} (h : s.still r = true) (v : VWord) : wrV r v s = .ok () (s.setV r v) := by
  have hraw : wrVraw r.toNat v s = .ok () (s.setV r v) := rfl
  have hcore : (s.setV r v).core = { s.core with v := s.core.v.setIfInBounds r.toNat v } := State.core_setCore ..
  rw [wrV, Op.bind_ok (checkVd_still h), Op.bind_ok hraw]
  rw [State.still_iff] at h
  by_cases hr : r.toNat < 24
  · rw [if_neg (Nat.not_le.2 hr)]
    rfl
  · have hrun : ((s.setV r v).core.stream (r.toNat - 24)).run = false := by
      rw [hcore]
      exact h.resolve_left hr
    simp only [if_pos (Nat.le_of_not_lt hr), Op.bind_run, getCore_run, hrun]
    rfl

/-- A running read stream is no destination. -/
theorem wrV_read {r : BitVec 5} {s : State} (h : s.still r = false) (hd : (s.core.stream (r.toNat - 24)).dir = false) (v : VWord) :
    wrV r v s = .error (.trap .illegal s.tx.word) s := by
  obtain ⟨hr, hrun⟩ : 24 ≤ r.toNat ∧ (s.core.stream (r.toNat - 24)).run = true := by simpa [State.still] using h
  have hc : checkVd r s = .error (.trap .illegal s.tx.word) s := by
    simp only [checkVd, hr, if_true, Op.bind_run, getCore_run, hrun, hd]
    rfl
  rw [wrV, Op.bind_error hc]

end Sys2Proof.Machine
end

section
/-! SUPPORT. `park` and `unpark` of registers that are tied to no running stream (R103, R104). -/

namespace Sys2Proof.Machine

/-! `park`. -/

/-- The part of `park` after the checks. -/
def parkInto (a : BitVec 5) (f : BitVec 3) (n : Nat) (early : List Word) : Op Unit := do
  let c ← getCore
  if f = 3 && c.tileBusy a.toNat then waitHere
  let ws ← (if f = 0 || f = 2 then pure early else parkWords f.toNat a)
  let x ← getCtx
  modCore fun c => c.parkAt n ws (if f = 1 then some (x.areg a.toNat).sh else none)

/-- The effect of `park`. -/
def parkBody (a b : BitVec 5) (f : BitVec 3) : Op Unit := do
  let early ← (if f = 0 || f = 2 then parkWords f.toNat a else pure [])
  let n ← rdS b
  parkChecks f.toNat n.toNat
  parkInto a f n.toNat early

theorem exec_park_eq (a b : BitVec 5) (f : BitVec 3) (s : State) : exec (.park a b f) s = runInstr (.park a b f) (parkBody a b f) s := rfl

/-- The slots of a register of a file. -/
def State.parkSlotsOf (s : State) (f : BitVec 3) (a : BitVec 5) : List Word :=
  if f = 0 then [s.src a] else s.core.slotsOf s.ctx f.toNat a.toNat

section
variable {a b : BitVec 5} {f : BitVec 3} {s : State}

theorem parkWords_run (h0 : f = 0 → plain a = true) (h2 : f = 2 → s.still a = true) :
    parkWords f.toNat a s = .ok (s.parkSlotsOf f a) s := by
  by_cases hf0 : f = 0
  · subst hf0
    exact Op.bind_ok (rdS_plain (h0 rfl) s)
  by_cases hf2 : f = 2
  · subst hf2
    exact Op.bind_ok (rdV_still (h2 rfl))
  have hn0 : f.toNat ≠ 0 := fun h => hf0 (BitVec.eq_of_toNat_eq h)
  have hn2 : f.toNat ≠ 2 := fun h => hf2 (BitVec.eq_of_toNat_eq h)
  rw [parkWords, if_neg hn0, if_neg hn2, State.parkSlotsOf, if_neg hf0]
  rfl

theorem parkEarly_run (h0 : f = 0 → plain a = true) (h2 : f = 2 → s.still a = true) :
    (if f = 0 || f = 2 then parkWords f.toNat a else pure [] : Op (List Word)) s
      = .ok (if f = 0 || f = 2 then s.parkSlotsOf f a else []) s := by
  split
  · exact parkWords_run h0 h2
  · rfl

/-- After the register and the slot have been read, the checks come first. -/
theorem parkBody_run (hb : plain b = true) (h0 : f = 0 → plain a = true) (h2 : f = 2 → s.still a = true) : parkBody a b f s
    = (parkChecks f.toNat (s.src b).toNat >>= fun _ =>
        parkInto a f (s.src b).toNat (if f = 0 || f = 2 then s.parkSlotsOf f a else [])) s := by
  rw [parkBody, Op.bind_ok (parkEarly_run h0 h2), Op.bind_ok (rdS_plain hb s)]

theorem parkInto_run (n : Nat) (h0 : f = 0 → plain a = true) (h2 : f = 2 → s.still a = true)
    (h3 : f = 3 → s.core.tileBusy a.toNat = false) :
    parkInto a f n (if f = 0 || f = 2 then s.parkSlotsOf f a else []) s = .ok () (s.setCore s.site
      (s.core.parkAt n (s.parkSlotsOf f a) (if f = 1 then some (s.ctx.areg a.toNat).sh else none))) := by
  have hbusy : (f = 3 && s.core.tileBusy a.toNat) = false := by
    by_cases hf : f = 3
    · rw [h3 hf, Bool.and_false]
    · rw [decide_eq_false hf, Bool.false_and]
  have hws : (if f = 0 || f = 2 then pure (if f = 0 || f = 2 then s.parkSlotsOf f a else []) else parkWords f.toNat a : Op _) s
      = .ok (s.parkSlotsOf f a) s := by
    split
    · rfl
    · exact parkWords_run h0 h2
  rw [parkInto, Op.bind_ok (getCore_run s)]
  simp only [hbusy, Bool.false_eq_true, if_false]
  rw [Op.bind_ok hws, Op.bind_ok (getCtx_run s), modCore_run]

theorem parkBody_ok (hb : plain b = true) (h0 : f = 0 → plain a = true) (h2 : f = 2 → s.still a = true) (hf6 : f.toNat < 6)
    (hn : (s.src b).toNat % parkAlign f.toNat = 0) (hs : (s.src b).toNat + parkSlots f.toNat ≤ 3072)
    (h3 : f = 3 → s.core.tileBusy a.toNat = false) :
    parkBody a b f s = .ok () (s.setCore s.site (s.core.parkAt (s.src b).toNat (s.parkSlotsOf f a)
      (if f = 1 then some (s.ctx.areg a.toNat).sh else none))) := by
  rw [parkBody_run hb h0 h2, Op.bind_ok (parkChecks_ok hf6 hn hs s), parkInto_run _ h0 h2 h3]

variable (hwf : parkRegFits f a = true) (hb : plain b = true) (h0 : f = 0 → plain a = true) (h2 : f = 2 → s.still a = true)
include hwf hb h0 h2

/-- A check fails. -/
theorem exec_park_trap {c : Cause} {v : Word} (hc : parkChecks f.toNat (s.src b).toNat (s.starts (.park a b f))
    = .error (.trap c v) (s.starts (.park a b f))) : exec (.park a b f) s = .next (s.trapHere c.code v c.async) :=
  (exec_park_eq a b f s).trans (runInstr_trapHere hwf (hasUnit_of_plain rfl rfl s)
    ((parkBody_run (s := s.starts (.park a b f)) hb h0 h2).trans (Op.bind_error hc)))

theorem exec_park_ok (hf6 : f.toNat < 6) (hn : (s.src b).toNat % parkAlign f.toNat = 0)
    (hs : (s.src b).toNat + parkSlots f.toNat ≤ 3072) (h3 : f = 3 → s.core.tileBusy a.toNat = false) (hf : s.calm = true) :
    exec (.park a b f) s = .next (s.setCore s.site (s.core.parkAt (s.src b).toNat (s.parkSlotsOf f a)
      (if f = 1 then some (s.ctx.areg a.toNat).sh else none))).retires := by
  exact (exec_park_eq a b f s).trans (runInstr_retires_from hwf (hasUnit_of_plain rfl rfl s)
    (parkBody_ok (s := s.starts (.park a b f)) hb h0 h2 hf6 hn hs h3) (State.Follows.parkAt ..) hf)

end

/-! `unpark`. -/

/-- The part of `unpark` that writes the register of a file. -/
def unparkWrite (d : BitVec 5) (f : BitVec 3) (n : Nat) (ws : List Word) (sh : Shadow) : Op Unit := do
  if f = 4 then
    let w : WReg := { bits := BitVec.ofNat 1024 (slotsNat (ws.take 16)), desc := ws.getD 16 0 }
    require w.ok .type (BitVec.ofNat 64 n)
  if f = 0 then wrS d (ws.headD 0) else unparkReg f.toNat d ws sh

/-- The part of `unpark` after the checks. -/
def unparkFrom (d : BitVec 5) (f : BitVec 3) (n : Nat) : Op Unit := do
  let c ← getCore
  if f = 1 then require (c.ptrSlots.contains n) .type (BitVec.ofNat 64 n)
  if f = 3 && c.tileBusy d.toNat then waitHere
  unparkWrite d f n ((List.range (parkSlots f.toNat)).map fun i => c.accSlot (1024 + n + i)) (c.parkedShadow n)

/-- The effect of `unpark`. -/
def unparkBody (d b : BitVec 5) (f : BitVec 3) : Op Unit := do
  let n ← rdS b
  parkChecks f.toNat n.toNat
  unparkFrom d f n.toNat

theorem exec_unpark_eq (d b : BitVec 5) (f : BitVec 3) (s : State) :
    exec (.unpark d b f) s = runInstr (.unpark d b f) (unparkBody d b f) s := rfl

/-- The slots that a register of a file comes back from. -/
def State.slotsFrom (s : State) (f : BitVec 3) (n : Nat) : List Word :=
  (List.range (parkSlots f.toNat)).map fun i => s.core.accSlot (1024 + n + i)

section
variable {d b : BitVec 5} {f : BitVec 3} {s : State}

theorem unparkBody_run (hb : plain b = true) (hf6 : f.toNat < 6) (hn : (s.src b).toNat % parkAlign f.toNat = 0)
    (hs : (s.src b).toNat + parkSlots f.toNat ≤ 3072) : unparkBody d b f s = unparkFrom d f (s.src b).toNat s := by
  rw [unparkBody, Op.bind_ok (rdS_plain hb s), Op.bind_ok (parkChecks_ok hf6 hn hs s)]

/-- A pointer comes from slots with its tag, and a tile that no command names. -/
theorem unparkFrom_run {n : Nat} (h1 : f = 1 → n ∈ s.core.ptrSlots) (h3 : f = 3 → s.core.tileBusy d.toNat = false) :
    unparkFrom d f n s = unparkWrite d f n (s.slotsFrom f n) (s.core.parkedShadow n) s := by
  rw [unparkFrom, Op.bind_ok (getCore_run s)]
  by_cases hf1 : f = 1
  · have hf3 : (f = 3) = False := by simp [hf1]
    simp only [if_pos hf1, hf3, decide_false, Bool.false_and, Bool.false_eq_true, if_false]
    rw [Op.bind_ok (require_true (by simpa using h1 hf1) _ _ _)]
    rfl
  · have hbusy : (f = 3 && s.core.tileBusy d.toNat) = false := by
      by_cases hf : f = 3
      · rw [h3 hf, Bool.and_false]
      · rw [decide_eq_false hf, Bool.false_and]
    simp only [if_neg hf1, hbusy, Bool.false_eq_true, if_false]
    rfl

/-- Without a tag on its first slot no pointer comes back. -/
theorem unparkFrom_untagged {n : Nat} (h : n ∉ s.core.ptrSlots) :
    unparkFrom d 1 n s = .error (.trap .type (BitVec.ofNat 64 n)) s := by
  have htag : s.core.ptrSlots.contains n = false := by simpa using h
  rw [unparkFrom, Op.bind_ok (getCore_run s)]
  simp only [htag, if_true]
  rfl

/-- The registers of each file (R103). -/
theorem unparkWrite_s (hd : plain d = true) (n : Nat) (ws : List Word) (sh : Shadow) :
    unparkWrite d 0 n ws sh s = .ok () (s.setCtx (s.ctx.setS d.toNat (ws.headD 0))) := wrS_plain hd _ s

theorem unparkWrite_v (hd : s.still d = true) (n : Nat) (ws : List Word) (sh : Shadow) :
    unparkWrite d 2 n ws sh s = .ok () (s.setV d (BitVec.ofNat 1024 (slotsNat ws))) := wrV_still hd _

/-- A wide register comes back when its descriptor holds (R307). -/
theorem unparkWrite_w (n : Nat) (ws : List Word) (sh : Shadow) :
    unparkWrite d 4 n ws sh s
      = if WReg.ok { bits := BitVec.ofNat 1024 (slotsNat (ws.take 16)), desc := ws.getD 16 0 } = true then
          wrW d.toNat { bits := BitVec.ofNat 1024 (slotsNat ws % 2 ^ 1024), desc := ws.getD 16 0 } s
        else .error (.trap .type (BitVec.ofNat 64 n)) s := by
  have h : unparkWrite d 4 n ws sh = (do
      require (WReg.ok { bits := BitVec.ofNat 1024 (slotsNat (ws.take 16)), desc := ws.getD 16 0 }) .type (BitVec.ofNat 64 n)
      wrW d.toNat { bits := BitVec.ofNat 1024 (slotsNat ws % 2 ^ 1024), desc := ws.getD 16 0 }) := rfl
  rw [h]
  generalize WReg.ok _ = ok
  cases ok
  · rfl
  · rfl

end

end Sys2Proof.Machine
end

section
/-! SUPPORT. The outcomes of `unpark`, and the registers of running streams in `park` and `unpark` (R103, R104, R266). -/

namespace Sys2Proof.Machine

/-! The outcomes of `unpark`. -/

section
variable {d b : BitVec 5} {f : BitVec 3} {s : State} (hwf : parkRegFits f d = true) (hb : plain b = true) (hf6 : f.toNat < 6)
  (hn : (s.src b).toNat % parkAlign f.toNat = 0) (hs : (s.src b).toNat + parkSlots f.toNat ≤ 3072)
include hwf hb hf6 hn hs

/-- After the checks on file and slot the register is written from its slots. -/
theorem exec_unpark_of_from {u : State} (hfrom : unparkFrom d f (s.src b).toNat (s.starts (.unpark d b f))
    = .ok () (u.noting (s.starts (.unpark d b f)).tx)) (hu : u.Follows s) (hf : s.calm = true) :
    exec (.unpark d b f) s = .next u.retires :=
  (exec_unpark_eq d b f s).trans (runInstr_retires_from hwf (hasUnit_of_plain rfl rfl s)
    ((unparkBody_run (s := s.starts (.unpark d b f)) hb hf6 hn hs).trans hfrom) hu hf)

theorem exec_unpark_trap {c : Cause} {v : Word} (hfrom : unparkFrom d f (s.src b).toNat (s.starts (.unpark d b f))
    = .error (.trap c v) (s.starts (.unpark d b f))) : exec (.unpark d b f) s = .next (s.trapHere c.code v c.async) :=
  (exec_unpark_eq d b f s).trans (runInstr_trapHere hwf (hasUnit_of_plain rfl rfl s)
    ((unparkBody_run (s := s.starts (.unpark d b f)) hb hf6 hn hs).trans hfrom))

theorem exec_unpark_ok (h1 : f = 1 → (s.src b).toNat ∈ s.core.ptrSlots) (h3 : f = 3 → s.core.tileBusy d.toNat = false) {u : State}
    (hw : unparkWrite d f (s.src b).toNat (s.slotsFrom f (s.src b).toNat) (s.core.parkedShadow (s.src b).toNat)
      (s.starts (.unpark d b f)) = .ok () (u.noting (s.starts (.unpark d b f)).tx)) (hu : u.Follows s) (hf : s.calm = true) :
    exec (.unpark d b f) s = .next u.retires :=
  exec_unpark_of_from hwf hb hf6 hn hs ((unparkFrom_run (s := s.starts (.unpark d b f)) h1 h3).trans hw) hu hf

end

/-- A change of the executing core alone. -/
theorem State.Follows.setV (s : State) (d : BitVec 5) (v : VWord) : (s.setV d v).Follows s := .setCore rfl rfl rfl

/-! Unparking to a register of a running stream (R266). -/

/-- A vector register is written as by any instruction. -/
theorem unparkBody_v {d b : BitVec 5} {s : State} (hb : plain b = true) (hn : (s.src b).toNat % 16 = 0)
    (hs : (s.src b).toNat + 16 ≤ 3072) :
    unparkBody d b 2 s = wrV d (BitVec.ofNat 1024 (slotsNat (s.slotsFrom 2 (s.src b).toNat))) s := by
  rw [unparkBody_run hb (by decide) hn hs, unparkFrom_run (fun h => by cases h) (fun h => by cases h)]
  rfl

theorem exec_unpark_read {d b : BitVec 5} {s : State} (hb : plain b = true) (hn : (s.src b).toNat % 16 = 0)
    (hs : (s.src b).toNat + 16 ≤ 3072) (hst : s.still d = false) (hdir : (s.core.stream (d.toNat - 24)).dir = false) :
    exec (.unpark d b 2) s = .next (s.trapHere Cause.illegal.code (BitVec.ofNat 64 (wordNat (.unpark d b 2))) false) :=
  (exec_unpark_eq d b 2 s).trans (runInstr_trapHere rfl (hasUnit_of_plain rfl rfl s)
    ((unparkBody_v (s := s.starts (.unpark d b 2)) hb hn hs).trans (wrV_read (s := s.starts (.unpark d b 2)) hst hdir _)))

theorem exec_unpark_write {d b : BitVec 5} {s t : State} (hb : plain b = true) (hn : (s.src b).toNat % 16 = 0)
    (hs : (s.src b).toNat + 16 ≤ 3072) (hf : t.calm = true)
    (hw : leads (.unpark d b 2) (wrV d (BitVec.ofNat 1024 (slotsNat (s.slotsFrom 2 (s.src b).toNat)))) s () t) :
    exec (.unpark d b 2) s = .next t.retires :=
  (exec_unpark_eq d b 2 s).trans (runInstr_retires_of_leads rfl (hasUnit_of_plain rfl rfl s)
    ((unparkBody_v (s := s.starts (.unpark d b 2)) hb hn hs).trans hw) hf)

/-! Parking a register of a running read stream pops a piece (R266). -/

/-- An operation that reads and checks, and changes nothing. -/
def Op.Looks {α : Type} (x : Op α) : Prop := ∀ s a t, x s = .ok a t → t = s

namespace Op.Looks

theorem pure {α : Type} (a : α) : Looks (Pure.pure a : Op α) := by
  intro s b t h
  cases h
  rfl

theorem bind {α β : Type} {x : Op α} {f : α → Op β} (hx : Looks x) (hf : ∀ a, Looks (f a)) : Looks (x >>= f) := by
  intro s b t h
  rw [Op.bind_run] at h
  split at h
  next a u hxs => exact (hf a u b t h).trans (hx s a u hxs)
  · cases h

theorem ite {α : Type} {c : Prop} [Decidable c] {x y : Op α} (hx : Looks x) (hy : Looks y) : Looks (if c then x else y) := by
  split
  · exact hx
  · exact hy

theorem get : Looks (MonadState.get : Op State) := by
  intro s a t h
  cases h
  rfl

theorem raise {α : Type} (c : Cause) (v : Word) : Looks (Machine.raise c v : Op α) := by
  intro s a t h
  cases h

theorem require (b : Bool) (c : Cause) (v : Word) : Looks (Machine.require b c v) := by
  cases b
  · exact raise c v
  · exact pure ()

theorem forIn {α : Type} {f : α → PUnit → Op (ForInStep PUnit)} (hf : ∀ a b, Looks (f a b)) :
    ∀ (l : List α) (b : PUnit), Looks (ForIn.forIn l b f)
  | [], b => by
    rw [List.forIn_nil]
    exact pure b
  | a :: l, b => by
    rw [List.forIn_cons]
    refine bind (hf a b) fun r => ?_
    cases r with
    | done b => exact pure b
    | yield b => exact forIn hf l b

theorem awaitReds (l : Loc) (off n : Nat) : Looks (Machine.awaitReds l off n) := by
  intro s a t h
  simp only [Machine.awaitReds, Op.bind_run, Op.get_run] at h
  split at h
  · cases h
  · cases h
    rfl

end Op.Looks

/-- What comes before an operation that only looks has made no change. -/
theorem Op.Looks.bind_ok {α β : Type} {x : Op α} {f : α → Op β} {s t : State} {b : β} (hx : Op.Looks x)
    (h : (x >>= f) s = .ok b t) : ∃ a, f a s = .ok b t := by
  rw [Op.bind_run] at h
  split at h
  next a u hxs => exact ⟨a, hx s a u hxs ▸ h⟩
  · cases h

/-- A read of a register of a running read stream notes the piece that it takes. -/
theorem rdV_pops {a : BitVec 5} {s u : State} {v : VWord} (hst : s.still a = false)
    (hdir : (s.core.stream (a.toNat - 24)).dir = false) (htx : s.tx.spops = []) (h : rdV a s = .ok v u) :
    u = s.noting { s.tx with spops :=
      [(a.toNat - 24, (s.core.stream (a.toNat - 24)).piece (s.core.stream (a.toNat - 24)).pos, v)] } := by
  obtain ⟨hr, hrun⟩ : 24 ≤ a.toNat ∧ (s.core.stream (a.toNat - 24)).run = true := by simpa [State.still] using hst
  unfold rdV at h
  rw [Op.bind_ok (Op.get_run s)] at h
  simp only [if_neg (Nat.not_lt.2 hr), hrun, hdir, htx, Bool.not_true, Bool.or_self, Bool.false_eq_true, if_false,
    List.filter_nil, List.map_nil, List.sum_nil, Nat.add_zero] at h
  obtain ⟨_, h⟩ := Op.Looks.bind_ok (Op.Looks.require _ _ _) h
  have hlook : ∀ l off n, Op.Looks (awaitReds l off n >>= fun _ => (pure (.yield ⟨⟩) : Op (ForInStep PUnit))) :=
    fun l off n => .bind (.awaitReds l off n) fun _ => .pure _
  obtain ⟨_, h⟩ := Op.Looks.bind_ok
    (Op.Looks.forIn (fun _ _ => .ite (.ite (.bind (.raise _ _) fun _ => hlook _ _ _) (hlook _ _ _)) (.pure _)) _ _) h
  rw [Op.bind_ok (modTx_run _ _), htx] at h
  cases h
  rfl

/-! What the pop of a piece leaves. -/

/-- The core after a pop of a piece of stream `x`. -/
def Core.pops (c : Core) (x : Stream) (e : Nat × Nat × VWord) : Core :=
  { c with
    streams := c.streams.setIfInBounds e.1 { x with pos := x.pos + e.2.1, buf := x.buf.filter fun y => decide (x.pos + e.2.1 ≤ y.1) }
    v := c.v.setIfInBounds (24 + e.1) e.2.2 }

section
variable {s : State} {e : Nat × Nat × VWord}

theorem State.popStream_none (h : s.core.streams[e.1]? = none) : s.popStream e = s := by
  rw [State.popStream, h]

theorem State.popStream_some {x : Stream} (h : s.core.streams[e.1]? = some x) :
    s.popStream e = s.setCore s.site (s.core.pops x e) := by
  rw [State.popStream, h]
  rfl

variable (s e)

theorem State.popStream_follows : (s.popStream e).Follows s := by
  cases h : s.core.streams[e.1]? with
  | none =>
    rw [popStream_none h]
    exact .refl s
  | some x =>
    rw [popStream_some h]
    exact .setCore rfl rfl rfl

theorem State.popStream_noting (x : Tx) : (s.noting x).popStream e = (s.popStream e).noting x := by
  cases h : s.core.streams[e.1]? with
  | none => rw [popStream_none h, popStream_none (s := s.noting x) h]
  | some y =>
    rw [popStream_some h, popStream_some (s := s.noting x) h]
    rfl

/-- The executing context leaves its lines before the piece is popped, or after. -/
theorem State.popStream_offLines : s.offLines.popStream e = (s.popStream e).offLines := by
  cases h : s.core.streams[e.1]? with
  | none => rw [popStream_none h, popStream_none (s := s.offLines) h]
  | some x =>
    rw [popStream_some h, popStream_some (s := s.offLines) h]
    unfold State.offLines
    rw [State.core_setCore]
    rfl

end

/-- In a state that the ports have made, the context that executes in `s` has left its lines. -/
def State.leavesLines (s t : State) : State :=
  { t with waitq := t.waitq.filter fun w => !(decide (w.site = s.site) && decide (w.ctx = s.core.act)) }

/-- The ports of an instruction that has popped one piece. -/
theorem State.commitPorts_pop {s : State} {x : Tx} (hl : s.Listed) (hx : x.quiet) (e : Nat × Nat × VWord) :
    (s.noting { x with spops := [e] }).commitPorts = (s.popStream e).offLines := by
  have hported : s.ported { x with spops := [e] } = s := (State.ported_quiet (s := s) hx).trans hl.setCtx_ctx
  have h : (s.noting { x with spops := [e] }).commitPorts = ((s.leavesLines
      ((s.noting { x with spops := [e] }).ported { x with spops := [e] })).popStream e).noting {} := by
    cases x
    rfl
  rw [h, State.ported_noting, hported]
  refine (congrArg (State.noting · {}) (s.offLines.popStream_noting e { x with spops := [e] })).trans ?_
  rw [State.popStream_offLines]
  rfl

theorem parkBody_pops {a b : BitVec 5} {s u : State} {v : VWord} (hb : plain b = true) (hr : rdV a s = .ok v u) (hu : u.src b = s.src b)
    (hn : (s.src b).toNat % 16 = 0) (hs : (s.src b).toNat + 16 ≤ 3072) : parkBody a b 2 s
      = .ok () (u.setCore u.site (u.core.parkAt (s.src b).toNat ((List.range 16).map fun i => v.extractLsb' (64 * i) 64) none)) := by
  have hw : parkWords (2 : BitVec 3).toNat a s = .ok ((List.range 16).map fun i => v.extractLsb' (64 * i) 64) u := Op.bind_ok hr
  rw [parkBody]
  refine (Op.bind_ok hw).trans ?_
  rw [Op.bind_ok (rdS_plain hb u), hu, Op.bind_ok (parkChecks_ok (by decide) hn hs u)]
  rfl

/-- The piece is parked, and its stream moves on. -/
theorem exec_park_stream {a b : BitVec 5} {s u : State} {v : VWord} (hb : plain b = true) (hf : s.calm = true)
    (hst : s.still a = false) (hdir : (s.core.stream (a.toNat - 24)).dir = false)
    (hr : rdV a (s.starts (.park a b 2)) = .ok v u) (hn : (s.src b).toNat % 16 = 0) (hs : (s.src b).toNat + 16 ≤ 3072) :
    exec (.park a b 2) s = .next ((s.setCore s.site
      (s.core.parkAt (s.src b).toNat ((List.range 16).map fun i => v.extractLsb' (64 * i) 64) none)).popStream
        (a.toNat - 24, (s.core.stream (a.toNat - 24)).piece (s.core.stream (a.toNat - 24)).pos, v)).retires := by
  have hu : u = s.noting { (s.starts (.park a b 2)).tx with spops :=
      [(a.toNat - 24, (s.core.stream (a.toNat - 24)).piece (s.core.stream (a.toNat - 24)).pos, v)] } :=
    rdV_pops (s := s.starts (.park a b 2)) hst hdir rfl hr
  generalize (a.toNat - 24, (s.core.stream (a.toNat - 24)).piece (s.core.stream (a.toNat - 24)).pos, v) = e at hu ⊢
  subst hu
  have hrun := parkBody_pops (s := s.starts (.park a b 2)) hb hr rfl hn hs
  generalize (List.range 16).map (fun i => v.extractLsb' (64 * i) 64) = ws at hrun ⊢
  have hp := State.Follows.parkAt s (s.src b).toNat ws none
  have hl : (s.setCore s.site (s.core.parkAt (s.src b).toNat ws none)).Listed := s.listed_setCore _
  have hrun' : parkBody a b 2 (s.starts (.park a b 2)) = .ok () ((s.setCore s.site (s.core.parkAt (s.src b).toNat ws none)).noting
      { (s.starts (.park a b 2)).tx with spops := [e] }) := hrun
  generalize s.setCore s.site (s.core.parkAt (s.src b).toNat ws none) = t at hp hl hrun' ⊢
  have hfol := hp.trans (t.popStream_follows e)
  have hq := s.starts_quiet (.park a b 2)
  exact (exec_park_eq a b 2 s).trans (runInstr_retires rfl (hasUnit_of_plain rfl rfl s) hrun'
    (State.commitPorts_pop hl hq e) rfl rfl hfol.dbgctl.symm (hfol.calm.trans hf))

end Sys2Proof.Machine
end

section
/-! SUPPORT. The statement on helpers and parking, clause by clause (R97 to R104). -/

namespace Sys2Proof.Machine

/-- `hstart` at context 0 outside a Tuft: the checks of its entry, and the lowest free helper (R97). -/
theorem hstart_clauses {d a b : BitVec 5} {s : State} (hd : plain d = true) (ha : plain a = true) (hb : plain b = true)
    (hf : s.calm = true) (hact : s.core.act ≠ 12) (ht : s.core.tuft = false) (hc : s.core.ctxNo = 0) :
    ((s.src a).toNat % 4 ≠ 0 → exec (.hstart d a b) s = .next (s.trapHere Cause.misalign.code (s.src a) false))
    ∧ ((s.src a).toNat % 4 = 0 → s.codeLen < (s.src a).toNat + 4 →
      exec (.hstart d a b) s = .next (s.trapHere Cause.bounds.code (s.src a) false))
    ∧ ((s.src a).toNat % 4 = 0 → (s.src a).toNat + 4 ≤ s.codeLen →
      (s.core.freeHelper = none → exec (.hstart d a b) s = .next (s.gives d 0))
      ∧ ∀ h, s.core.freeHelper = some h → exec (.hstart d a b) s = .next ((s.setCore s.site (s.core.setCtx h
          { helperStart (s.core.ctxAt 0) (s.src a) (s.src b) with misses := (s.core.ctxAt h).misses })).gives d (BitVec.ofNat 64 h))) := by
  refine ⟨exec_hstart_misaligned ha hb hact ht hc, exec_hstart_outside ha hb hact ht hc, fun hm hl => ?_⟩
  have hbody := hstartBody_starts (d := d) ha hb hact ht hc hm hl
  refine ⟨fun hfree => ?_, fun h hfree => ?_⟩
  · rw [hfree] at hbody
    exact exec_hstart_none hd hf hbody
  · rw [hfree] at hbody
    exact exec_hstart_some hd hf hbody

/-- `park` of a register that is tied to no stream (R104). -/
theorem park_clauses (a b : BitVec 5) (f : BitVec 3) (s : State) (hwf : parkRegFits f a = true) (hb : plain b = true)
    (h0 : f = 0 → plain a = true) (h2 : f = 2 → s.still a = true) (hf : s.calm = true) :
    (6 ≤ f.toNat → exec (.park a b f) s = .next (s.trapHere Cause.illegal.code (BitVec.ofNat 64 f.toNat) false))
    ∧ (f.toNat < 6 → (s.src b).toNat % parkAlign f.toNat ≠ 0 →
      exec (.park a b f) s = .next (s.trapHere Cause.misalign.code (s.src b) false))
    ∧ (f.toNat < 6 → (s.src b).toNat % parkAlign f.toNat = 0 → 3072 < (s.src b).toNat + parkSlots f.toNat →
      exec (.park a b f) s = .next (s.trapHere Cause.bounds.code (s.src b) false))
    ∧ (f.toNat < 6 → (s.src b).toNat % parkAlign f.toNat = 0 → (s.src b).toNat + parkSlots f.toNat ≤ 3072 →
      (f = 3 → s.core.tileBusy a.toNat = false) → exec (.park a b f) s = .next (s.setCore s.site
        (s.core.parkAt (s.src b).toNat (s.parkSlotsOf f a) (if f = 1 then some (s.ctx.areg a.toNat).sh else none))).retires) := by
  have hval : BitVec.ofNat 64 (s.src b).toNat = s.src b := by simp
  refine ⟨fun h6 => ?_, fun h6 hn => ?_, fun h6 hn hs => ?_, fun h6 hn hs h3 => exec_park_ok hwf hb h0 h2 h6 hn hs h3 hf⟩
  · exact exec_park_trap hwf hb h0 h2 ((parkChecks_run ..).trans (if_pos h6))
  · have hc := (parkChecks_run f.toNat (s.src b).toNat (s.starts (.park a b f))).trans ((if_neg (Nat.not_le.2 h6)).trans (if_pos hn))
    rw [hval] at hc
    exact exec_park_trap hwf hb h0 h2 hc
  · have hc := (parkChecks_run f.toNat (s.src b).toNat (s.starts (.park a b f))).trans
      ((if_neg (Nat.not_le.2 h6)).trans ((if_neg (not_not.2 hn)).trans (if_pos hs)))
    rw [hval] at hc
    exact exec_park_trap hwf hb h0 h2 hc

theorem ofNat_mod_width (n x : Nat) : BitVec.ofNat n (x % 2 ^ n) = BitVec.ofNat n x := BitVec.eq_of_toNat_eq (by simp)

/-- `unpark` to each file (R104). -/
theorem unpark_clauses (d b : BitVec 5) (f : BitVec 3) (s : State) (hwf : parkRegFits f d = true) (hb : plain b = true)
    (h0 : f = 0 → plain d = true) (h2 : f = 2 → s.still d = true) (hf : s.calm = true) (h6 : f.toNat < 6)
    (hn : (s.src b).toNat % parkAlign f.toNat = 0) (hs : (s.src b).toNat + parkSlots f.toNat ≤ 3072) :
    let n := (s.src b).toNat
    let ws := s.slotsFrom f n
    (f = 0 → exec (.unpark d b f) s = .next (s.gives d (s.core.accSlot (1024 + n))))
    ∧ (f = 1 → n ∈ s.core.ptrSlots → exec (.unpark d b f) s = .next (s.becomes (s.ctx.setA d.toNat
        { ptr := s.core.accSlot (1024 + n), cur := (s.core.accSlot (1024 + n + 1)).setWidth 32, sh := s.core.parkedShadow n })))
    ∧ (f = 1 → n ∉ s.core.ptrSlots → exec (.unpark d b f) s = .next (s.trapHere Cause.type.code (s.src b) false))
    ∧ (f = 2 → exec (.unpark d b f) s = .next (s.setCore s.site { s.core with
        v := s.core.v.setIfInBounds d.toNat (BitVec.ofNat 1024 (slotsNat ws)) }).retires)
    ∧ (f = 3 → s.core.tileBusy d.toNat = false → exec (.unpark d b f) s = .next (s.setCore s.site
        ((List.range 64).foldl (fun (c : Core) i => c.setAcc (64 * d.toNat + i) (ws.getD i 0)) s.core)).retires)
    ∧ (f = 4 →
      let w : WReg := { bits := BitVec.ofNat 1024 (slotsNat (ws.take 16)), desc := ws.getD 16 0 }
      (w.ok = true → exec (.unpark d b f) s = .next (s.setCore s.site { s.core with w := s.core.w.setIfInBounds d.toNat w }).retires)
      ∧ (w.ok = false → exec (.unpark d b f) s = .next (s.trapHere Cause.type.code (s.src b) false)))
    ∧ (f = 5 → exec (.unpark d b f) s = .next (s.setCore s.site { s.core with
        k := s.core.k.setIfInBounds d.toNat (BitVec.ofNat 256 (slotsNat ws)) }).retires) := by
  dsimp only
  refine ⟨?_, ?_, ?_, ?_, ?_, ?_, ?_⟩
  · rintro rfl
    refine exec_unpark_ok hwf hb h6 hn hs nofun nofun (u := s.setCtx (s.ctx.setS d.toNat (s.core.accSlot (1024 + (s.src b).toNat))))
      ?_ (.setCtx _ _) hf
    exact unparkWrite_s (s := s.starts (.unpark d b 0)) (h0 rfl) _ _ _
  · rintro rfl htag
    exact exec_unpark_ok hwf hb h6 hn hs (fun _ => htag) nofun rfl (.setCtx _ _) hf
  · rintro rfl htag
    have hrun := unparkFrom_untagged (d := d) (s := s.starts (.unpark d b 1)) htag
    rw [BitVec.ofNat_toNat, BitVec.setWidth_eq] at hrun
    exact exec_unpark_trap hwf hb h6 hn hs hrun
  · rintro rfl
    exact exec_unpark_ok hwf hb h6 hn hs nofun nofun (unparkWrite_v (s := s.starts (.unpark d b 2)) (h2 rfl) _ _ _)
      (.setV _ _ _) hf
  · rintro rfl hbusy
    obtain ⟨ha, hd, hh⟩ := setAcc_foldl_fields (64 * d.toNat + ·) (fun i => (s.slotsFrom 3 (s.src b).toNat).getD i 0) (List.range 64)
      s.core
    exact exec_unpark_ok hwf hb h6 hn hs nofun (fun _ => hbusy) rfl (.setCore ha hd hh) hf
  · rintro rfl
    have hlen : 16 ≤ (s.slotsFrom 4 (s.src b).toNat).length := by simp [State.slotsFrom, parkSlots]
    have hlow : BitVec.ofNat 1024 (slotsNat (s.slotsFrom 4 (s.src b).toNat) % 2 ^ 1024)
        = BitVec.ofNat 1024 (slotsNat ((s.slotsFrom 4 (s.src b).toNat).take 16)) := by
      rw [← ofNat_take_slots hlen rfl, ofNat_mod_width]
    have hrun := unparkWrite_w (d := d) (s := s.starts (.unpark d b 4)) (s.src b).toNat (s.slotsFrom 4 (s.src b).toNat)
      (s.core.parkedShadow (s.src b).toNat)
    rw [hlow, BitVec.ofNat_toNat, BitVec.setWidth_eq] at hrun
    refine ⟨fun hok => ?_, fun hok => ?_⟩
    · exact exec_unpark_ok hwf hb h6 hn hs nofun nofun (hrun.trans (if_pos hok)) (.setCore rfl rfl rfl) hf
    · exact exec_unpark_trap hwf hb h6 hn hs ((unparkFrom_run (f := 4) (s := s.starts (.unpark d b 4)) nofun nofun).trans
        (hrun.trans (if_neg (Bool.eq_false_iff.1 hok))))
  · rintro rfl
    exact exec_unpark_ok hwf hb h6 hn hs nofun nofun rfl (.setCore rfl rfl rfl) hf

/-- The slots of a vector register and of a command register make it again (R103). -/
theorem ofNat_slotsOf (c : Core) (x : Context) (r : Nat) : BitVec.ofNat 1024 (slotsNat (c.slotsOf x 2 r)) = c.vreg r
    ∧ BitVec.ofNat 256 (slotsNat (c.slotsOf x 5 r)) = c.kreg r :=
  ⟨ofNat_slots (c.vreg r) (k := 16) rfl, ofNat_slots (c.kreg r) (k := 4) rfl⟩

/-- Settles O18: each instruction's effect is run on the state in which it begins, and retires from what it makes of it. -/
theorem helpersAndParking : Obligations.HelpersAndParking := by
  refine ⟨⟨fun d a b s => hstart_clauses, ?_, helperStart_fields, ?_, ?_, ?_, ?_⟩, ?_, ?_, ?_, ?_, Core.parkedShadow_parkAt, ofNat_slotsOf⟩
  · exact fun d a b s hact ht => ⟨exec_hstart_tuft hact ht, exec_hjoin_tuft hact ht⟩
  · exact fun a s rid ha hf hctx hact hacc hcmd howed hrid => exec_hexit ha hf hctx hact hacc hcmd howed hrid
  · exact fun d a s hd ha hf hact ht hc h1 h10 => ⟨exec_hjoin_exited ha hact ht hc h1 h10 hd hf,
      exec_hjoin_free ha hact ht hc h1 h10, exec_hjoin_busy ha hact ht hc h1 h10⟩
  · exact fun d s hd hf hc => ⟨_, exec_hid hd hf, hidWord_fields hc⟩
  · exact fun s hf => exec_yield hf
  · intro a b f s hwf hb h0 h2 hf
    obtain ⟨h6, halign, hbound, hok⟩ := park_clauses a b f s hwf hb h0 h2 hf
    refine ⟨h6, halign, hbound, fun hf6 hn hs h3 => ?_⟩
    rw [hok hf6 hn hs h3, Core.parkAt_eq]
    rfl
  · exact fun a b s u v hb hf hst hdir hr hn hs => exec_park_stream hb hf hst hdir hr hn hs
  · exact fun d b f s hwf hb h0 h2 hf h6 hn hs => unpark_clauses d b f s hwf hb h0 h2 hf h6 hn hs
  · exact fun d b s hb hst hn hs => ⟨exec_unpark_read hb hn hs hst, fun _ t hf hw => exec_unpark_write hb hn hs hf hw⟩

end Sys2Proof.Machine
end

section
/-! SUPPORT. Tufts (R105 to R107). -/

namespace Sys2Proof.Machine

/-! Changes of listed cores. -/

/-- Each listed core changes by its function. -/
def State.setCores (s : State) (f : Nat → Core → Core) (l : List Nat) : State := l.foldl (fun t m => t.setCore m (f m (t.coreAt m))) s

section
variable (s : State) (f : Nat → Core → Core)

/-- Nothing but the cores changes. -/
theorem State.setCores_eq (l : List Nat) : ∃ cs, s.setCores f l = { s with cores := cs } := by
  induction l generalizing s with
  | nil => exact ⟨s.cores, rfl⟩
  | cons m l ih => exact ih (s.setCore m (f m (s.coreAt m)))

theorem State.setCores_noting (l : List Nat) (x : Tx) : (s.noting x).setCores f l = (s.setCores f l).noting x := by
  induction l generalizing s with
  | nil => rfl
  | cons m l ih => exact ih (s.setCore m (f m (s.coreAt m)))

theorem State.setCores_site (l : List Nat) : (s.setCores f l).site = s.site := by
  obtain ⟨cs, h⟩ := s.setCores_eq f l
  rw [h]

/-- A listed core changes once, where its function does nothing more to what it has made. -/
theorem State.coreAt_setCores {f : Nat → Core → Core} (hf : ∀ m c, f m (f m c) = f m c) (m : Nat) (l : List Nat) :
    (s.setCores f l).coreAt m = if m ∈ l then f m (s.coreAt m) else s.coreAt m := by
  induction l generalizing s with
  | nil => rfl
  | cons k l ih =>
    have h := ih (s.setCore k (f k (s.coreAt k)))
    by_cases hk : m = k
    · subst hk
      rw [State.coreAt_setCore_self, hf, ite_self] at h
      simp only [List.mem_cons, true_or, if_true]
      exact h
    · rw [State.coreAt_setCore_ne _ hk] at h
      simp only [List.mem_cons, hk, false_or]
      exact h

theorem forIn_modCoreAt (l : List Nat) : (forIn l PUnit.unit (fun m _ => do modCoreAt m (f m); pure (.yield PUnit.unit)) : Op PUnit) s
    = .ok PUnit.unit (s.setCores f l) := by
  induction l generalizing s with
  | nil => rfl
  | cons m l ih =>
    rw [List.forIn_cons]
    exact ih (s.setCore m (f m (s.coreAt m)))

end

/-! `tuft` of a core that is in no Tuft (R106). -/

/-- A core as a member of a Tuft. -/
def tuftMember (ms : List Nat) (size : Nat) (m : Nat) (c : Core) : Core :=
  { c with tuft := true, leader := decide (rankOf m ms = 0), tidx := rankOf m ms, tuftSize := size }

/-- The last part of `tuft`, when the core has asked: the Tuft forms, or the core waits. -/
def tuftAsked (d : BitVec 5) (size : Word) (ms : List Nat) : Op Unit := do
  let s ← get
  let asks := ms.map fun m => (s.coreAt m).tuftAsk
  if asks.all fun x => x.isSome then
    if asks.all fun x => decide (x = some size) then
      for m in ms do modCoreAt m (tuftMember ms size.toNat m)
      leaveWith d
    else
      for m in ms do
        if m ≠ s.site then modCoreAt m fun k => { k with tuftFail := some 2 }
      modCore fun k => { k with tuftAsk := none }
      raise .gang 2
  else waitKeep

/-- No helper of the executing core is occupied. -/
def State.helpersFree (s : State) : Bool := (List.range 11).all fun n => n = 0 || decide ((s.core.ctxAt n).st = .free)

/-- Sites make a Tuft of a size: each has a core of the same record that runs and is in no Tuft. -/
def State.tuftFits (s : State) (ms : List Nat) (size : Nat) : Bool :=
  decide (ms.length = size) && ms.all fun m =>
    !s.fused.contains m && decide ((s.coreAt m).recId = s.core.recId) && !(s.coreAt m).halted && (!(s.coreAt m).tuft)

/-- The executing core has asked for a Tuft of a size. -/
def State.asksTuft (s : State) (size : Word) : State := s.setCore s.site { s.core with tuftAsk := some size }

theorem exec_tuft_eq (d a : BitVec 5) (s : State) : exec (.tuft d a) s = runInstr (.tuft d a) (tuftBody d a) s := rfl

theorem State.tuftFits_iff {s : State} {ms : List Nat} {size : Nat} : s.tuftFits ms size = true ↔ ms.length = size ∧ ∀ m ∈ ms,
    m ∉ s.fused ∧ (s.coreAt m).recId = s.core.recId ∧ (s.coreAt m).halted = false ∧ (s.coreAt m).tuft = false := by
  simp [State.tuftFits, and_assoc]

section
variable {d a : BitVec 5} {s : State}

theorem tuftBody_run (ha : plain a = true) (hact : s.core.act = 0) (ht : s.core.tuft = false) (hfail : s.core.tuftFail = none) :
    tuftBody d a s =
      if ¬ (s.src a = 2 ∨ s.src a = 4) then .error (.trap .gang 2) s
      else if s.helpersFree = false then .error (.trap .gang 4) s
      else if s.tuftFits (s.ownRec.tuftSites (s.src a).toNat s.site) (s.src a).toNat = false then .error (.trap .gang 1) s
      else tuftAsked d (s.src a) (s.ownRec.tuftSites (s.src a).toNat s.site) (s.asksTuft (s.src a)) := by
  have hctx : s.core.ctxNo = 0 := by simp [Core.ctxNo, hact]
  have hmiss : s.core.act ≠ 12 := by simp [hact]
  unfold tuftBody
  rw [Op.bind_ok (notInMiss_run hmiss), Op.bind_ok (Op.get_run s)]
  simp only [hfail, ht, hctx, Bool.false_and, Bool.false_eq_true, if_false]
  rw [Op.bind_ok (require_true (by simp) _ _ s), Op.bind_ok (require_true (by simp) _ _ s), Op.bind_ok (rdS_plain ha s)]
  by_cases hsize : s.src a = 2 ∨ s.src a = 4
  case neg =>
    rw [if_pos hsize]
    exact Op.bind_error (by rw [require_run, if_neg (by simpa using hsize)])
  rw [Op.bind_ok (require_true (by simpa using hsize) _ _ s), if_neg (not_not.2 hsize)]
  cases hfree : s.helpersFree with
  | false =>
    rw [if_pos rfl]
    refine Op.bind_error ?_
    rw [require_run]
    exact if_neg (Bool.eq_false_iff.1 hfree)
  | true =>
    refine (Op.bind_ok (require_true hfree _ _ s)).trans (Eq.trans ?_ (if_neg (by decide)).symm)
    cases hfit : s.tuftFits (s.ownRec.tuftSites (s.src a).toNat s.site) (s.src a).toNat with
    | false =>
      rw [if_pos rfl]
      refine Op.bind_error ?_
      rw [require_run]
      exact if_neg (Bool.eq_false_iff.1 hfit)
    | true =>
      exact (Op.bind_ok (require_true hfit _ _ s)).trans (if_neg (by decide)).symm

end

/-! What an ask leads to. -/

section
variable {d : BitVec 5} {size : Word} {ms : List Nat} {s : State}

theorem tuftAsked_waits (h : ∃ m ∈ ms, (s.coreAt m).tuftAsk = none) : tuftAsked d size ms s = .error .waitKeep s := by
  obtain ⟨m, hm, hnone⟩ := h
  have hall : (ms.map fun m => (s.coreAt m).tuftAsk).all (fun x => x.isSome) = false := by
    rw [List.all_eq_false]
    exact ⟨none, List.mem_map.2 ⟨m, hm, hnone⟩, by simp⟩
  rw [tuftAsked, Op.bind_ok (Op.get_run s)]
  simp only [hall, Bool.false_eq_true, if_false]
  rfl

theorem tuftAsked_forms (h : ∀ m ∈ ms, (s.coreAt m).tuftAsk = some size) :
    tuftAsked d size ms s = leaveWith d (s.setCores (tuftMember ms size.toNat) ms) := by
  have hsome : (ms.map fun m => (s.coreAt m).tuftAsk).all (fun x => x.isSome) = true := by
    rw [List.all_map, List.all_eq_true]
    exact fun m hm => by simp [h m hm]
  have hsize : (ms.map fun m => (s.coreAt m).tuftAsk).all (fun x => decide (x = some size)) = true := by
    rw [List.all_map, List.all_eq_true]
    exact fun m hm => by simp [h m hm]
  rw [tuftAsked, Op.bind_ok (Op.get_run s)]
  simp only [hsome, hsize, if_true]
  rw [Op.bind_ok (forIn_modCoreAt s _ ms)]

/-- The site of the leader of the executing core's Tuft. -/
def State.tuftLead (s : State) : Nat := (s.tuftOf s.site).headD s.site

/-- Where a member goes on: after the leader's instruction, or at it while the leader has yet to leave. -/
def State.tuftNext (s : State) : Word :=
  if s.tuftLead = s.site || (s.coreAt s.tuftLead).tuftAsk.isSome then ((s.coreAt s.tuftLead).ctxAt 0).pc + 4
  else ((s.coreAt s.tuftLead).ctxAt 0).pc

/-- The core of a member that leaves `tuft`. -/
def State.tuftAnswered (s : State) : State := s.setCore s.site { s.core with tuftAsk := none }

theorem leaveWith_run (hd : plain d = true) : leaveWith d s
    = .ok () ((s.tuftAnswered.setCtx (s.tuftAnswered.ctx.setS d.toNat (BitVec.ofNat 64 s.core.tidx))).goingTo s.tuftNext) := by
  rw [leaveWith, Op.bind_ok (Op.get_run s)]
  refine (Op.bind_ok (modCore_run _ s)).trans ?_
  rw [Op.bind_ok (wrS_plain hd _ _)]
  rfl

end

/-- An instruction that has made `u` and goes on at `w`. -/
theorem runInstr_goes_from {i : Instr} {body : Op Unit} {s u : State} {w : Word} (hw : i.wf = true) (hi : s.hasUnit i = true)
    (hb : body (s.starts i) = .ok () ((u.noting (s.starts i).tx).goingTo w)) (hu : u.Follows s) (hf : s.calm = true) :
    runInstr i body s = .next (u.retiresTo (some w)) := by
  have hcalm : ((u.noting (s.starts i).tx).goingTo w).calm = true := hu.calm.trans hf
  rw [runInstr_ok hw hi hb (s.starts_quiet i) hu.dbgctl.symm hcalm]
  rfl

/-- A member leaves `tuft` from the state `t` that its ask has made. -/
def State.leavesTuft (t : State) (d : BitVec 5) : State :=
  (t.tuftAnswered.setCtx (t.tuftAnswered.ctx.setS d.toNat (BitVec.ofNat 64 t.core.tidx))).retiresTo
    (some t.tuftNext)

theorem exec_tuft_leaves {d a : BitVec 5} {s t : State} (hd : plain d = true) (hf : s.calm = true) (ht : t.Follows s)
    (hb : tuftBody d a (s.starts (.tuft d a)) = leaveWith d (t.noting (s.starts (.tuft d a)).tx)) :
    exec (.tuft d a) s = .next (t.leavesTuft d) := by
  have hans : t.tuftAnswered.Follows t := .setCore rfl rfl rfl
  exact (exec_tuft_eq d a s).trans (runInstr_goes_from rfl (hasUnit_of_plain rfl rfl s) (hb.trans (leaveWith_run hd))
    (ht.trans (hans.trans (.setCtx _ _))) hf)

/-! The Tuft that forms. -/

theorem tuftMember_idem (ms : List Nat) (size m : Nat) (c : Core) :
    tuftMember ms size m (tuftMember ms size m c) = tuftMember ms size m c := rfl

section
variable (s : State) (size : Word) (ms : List Nat)

/-- The state in which the Tuft stands and the executing core has yet to leave. -/
def State.tuftFormed : State := (s.asksTuft size).setCores (tuftMember ms size.toNat) ms

theorem State.tuftFormed_site : (s.tuftFormed size ms).site = s.site := State.setCores_site ..

/-- A core of the Tuft before it changes. -/
theorem State.coreAt_asksTuft (m : Nat) :
    (s.asksTuft size).coreAt m = if m = s.site then { s.core with tuftAsk := some size } else s.coreAt m := by
  split
  next h =>
    subst h
    exact State.coreAt_setCore_self ..
  next h => exact State.coreAt_setCore_ne _ h _

theorem State.coreAt_tuftFormed {m : Nat} (hm : m ∈ ms) :
    (s.tuftFormed size ms).coreAt m = tuftMember ms size.toNat m ((s.asksTuft size).coreAt m) :=
  (State.coreAt_setCores _ (tuftMember_idem ms size.toNat) m ms).trans (if_pos hm)

variable {s size ms} (hsite : s.site ∈ ms)
include hsite

theorem State.core_tuftFormed : (s.tuftFormed size ms).core = tuftMember ms size.toNat s.site { s.core with tuftAsk := some size } := by
  rw [State.core, State.tuftFormed_site, State.coreAt_tuftFormed s size ms hsite, State.coreAt_asksTuft, if_pos rfl]

theorem State.tuftFormed_follows : (s.tuftFormed size ms).Follows s := by
  have hcore := State.core_tuftFormed (size := size) hsite
  exact ⟨State.tuftFormed_site .., by rw [hcore]; rfl, by rw [hcore]; rfl, by rw [hcore]; rfl⟩

/-- The sites of the Tuft, as the model finds them again. -/
theorem State.tuftOf_tuftFormed (hms : ms = s.ownRec.tuftSites size.toNat s.site) :
    (s.tuftFormed size ms).tuftOf (s.tuftFormed size ms).site = ms := by
  have hcore : (s.tuftFormed size ms).coreAt (s.tuftFormed size ms).site = _ := State.core_tuftFormed (size := size) hsite
  obtain ⟨cs, hcs⟩ := (s.asksTuft size).setCores_eq (tuftMember ms size.toNat) ms
  have hrecs : (s.tuftFormed size ms).recs = s.recs := (congrArg State.recs hcs).trans rfl
  have hrec : ∀ rid, (s.tuftFormed size ms).recAt rid = s.recAt rid := fun rid => by rw [State.recAt, hrecs]; rfl
  rw [State.tuftOf, hcore, State.tuftFormed_site]
  simp only [tuftMember]
  cases hrid : s.core.recId with
  | none =>
    have hempty : ms = [] := by
      rw [hms, State.ownRec, hrid]
      simp [Rec.tuftSites]
    rw [hempty] at hsite
    cases hsite
  | some rid =>
    rw [State.ownRec, hrid] at hms
    simp only [hrec]
    exact hms.symm

end

/-! What a member that leaves has become. -/

theorem State.coreAt_retiresTo_ne (s : State) (n : Option Word) {m : Nat} (h : m ≠ s.site) : (s.retiresTo n).coreAt m = s.coreAt m :=
  State.coreAt_setCore_ne _ h _

theorem State.ctx_retiresTo {s : State} (h : s.core.act < 13) (n : Option Word) : (s.retiresTo n).ctx = { s.ctx with
    pc := n.getD (s.ctx.pc + 4), pfx := .none, instret := s.ctx.instret + 1, st := if s.ctx.st = .waiting then .ready else s.ctx.st } := by
  rw [State.ctx, State.core_retiresTo, Core.setCtx_act, Core.ctxAt_setCtx_self _ h]

section
variable (t : State) (x : Context) (n : Option Word)

theorem State.coreAt_answered_ne {m : Nat} (h : m ≠ t.site) : ((t.tuftAnswered.setCtx x).retiresTo n).coreAt m = t.coreAt m := by
  refine (State.coreAt_retiresTo_ne (t.tuftAnswered.setCtx x) n h).trans ?_
  exact (State.coreAt_setCore_ne t.tuftAnswered h _).trans (State.coreAt_setCore_ne t h _)

/-- The core keeps its place in the Tuft; its request is answered. -/
theorem State.core_answered :
    ∃ xs, ((t.tuftAnswered.setCtx x).retiresTo n).coreAt t.site = { t.core with tuftAsk := none, ctxs := xs } := by
  have hcore : ((t.tuftAnswered.setCtx x).retiresTo n).coreAt t.site = ((t.tuftAnswered.setCtx x).retiresTo n).core := rfl
  rw [hcore, State.core_retiresTo, State.core_setCtx, State.tuftAnswered, State.core_setCore]
  exact ⟨_, rfl⟩

theorem State.ctx_answered (hact : t.core.act < 13) : ((t.tuftAnswered.setCtx x).retiresTo n).ctx = { x with
    pc := n.getD (x.pc + 4), pfx := .none, instret := x.instret + 1, st := if x.st = .waiting then .ready else x.st } := by
  have hans : t.tuftAnswered.core.act < 13 := by rwa [State.tuftAnswered, State.core_setCore]
  have hset : (t.tuftAnswered.setCtx x).core.act < 13 := by rwa [State.core_setCtx]
  rw [State.ctx_retiresTo hset, State.ctx_setCtx _ hans]

end

/-! The outcomes of `tuft` (R106). -/

theorem tuftSize_iff {w : Word} : (w = 2 ∨ w = 4) ↔ w.toNat = 2 ∨ w.toNat = 4 := by
  simp [← BitVec.toNat_inj]

section
variable {d a : BitVec 5} {s : State} (ha : plain a = true) (hact : s.core.act = 0) (ht : s.core.tuft = false)
  (hfail : s.core.tuftFail = none)
include ha hact ht hfail

theorem exec_tuft_badSize (hsize : ¬ ((s.src a).toNat = 2 ∨ (s.src a).toNat = 4)) :
    exec (.tuft d a) s = .next (s.trapHere Cause.gang.code 2 false) :=
  (exec_tuft_eq d a s).trans (runInstr_trapHere rfl (hasUnit_of_plain rfl rfl s)
    ((tuftBody_run (s := s.starts (.tuft d a)) ha hact ht hfail).trans (if_pos (mt tuftSize_iff.1 hsize))))

variable (hsize : (s.src a).toNat = 2 ∨ (s.src a).toNat = 4)
include hsize

theorem exec_tuft_occupied (hfree : s.helpersFree = false) : exec (.tuft d a) s = .next (s.trapHere Cause.gang.code 4 false) :=
  (exec_tuft_eq d a s).trans (runInstr_trapHere rfl (hasUnit_of_plain rfl rfl s)
    ((tuftBody_run (s := s.starts (.tuft d a)) ha hact ht hfail).trans
      ((if_neg (not_not.2 (tuftSize_iff.2 hsize))).trans (if_pos hfree))))

variable (hfree : s.helpersFree = true)
include hfree

theorem exec_tuft_unfit (hfit : s.tuftFits (s.ownRec.tuftSites (s.src a).toNat s.site) (s.src a).toNat = false) :
    exec (.tuft d a) s = .next (s.trapHere Cause.gang.code 1 false) :=
  (exec_tuft_eq d a s).trans (runInstr_trapHere rfl (hasUnit_of_plain rfl rfl s)
    ((tuftBody_run (s := s.starts (.tuft d a)) ha hact ht hfail).trans
      ((if_neg (not_not.2 (tuftSize_iff.2 hsize))).trans ((if_neg (Bool.eq_false_iff.1 · hfree)).trans (if_pos hfit)))))

variable (hfit : s.tuftFits (s.ownRec.tuftSites (s.src a).toNat s.site) (s.src a).toNat = true)
include hfit

/-- The core asks, and the Tuft forms or it waits. -/
theorem tuftBody_asks : tuftBody d a (s.starts (.tuft d a)) = tuftAsked d (s.src a) (s.ownRec.tuftSites (s.src a).toNat s.site)
    ((s.asksTuft (s.src a)).noting (s.starts (.tuft d a)).tx) :=
  (tuftBody_run (s := s.starts (.tuft d a)) ha hact ht hfail).trans ((if_neg (not_not.2 (tuftSize_iff.2 hsize))).trans
    ((if_neg (Bool.eq_false_iff.1 · hfree)).trans (if_neg (Bool.eq_false_iff.1 · hfit))))

theorem exec_tuft_waits (h : ∃ m ∈ s.ownRec.tuftSites (s.src a).toNat s.site, m ≠ s.site ∧ (s.coreAt m).tuftAsk = none) :
    exec (.tuft d a) s = .next ((s.asksTuft (s.src a)).waits {}) := by
  obtain ⟨m, hm, hne, hnone⟩ := h
  have hask : ∃ m ∈ s.ownRec.tuftSites (s.src a).toNat s.site,
      (((s.asksTuft (s.src a)).noting (s.starts (.tuft d a)).tx).coreAt m).tuftAsk = none := by
    refine ⟨m, hm, ?_⟩
    have hcore : ((s.asksTuft (s.src a)).noting (s.starts (.tuft d a)).tx).coreAt m = s.coreAt m :=
      (s.coreAt_asksTuft (s.src a) m).trans (if_neg hne)
    rw [hcore, hnone]
  exact (exec_tuft_eq d a s).trans (runInstr_waitKeep rfl (hasUnit_of_plain rfl rfl s)
    ((tuftBody_asks ha hact ht hfail hsize hfree hfit).trans (tuftAsked_waits hask)))

/-- The last to ask forms the Tuft and leaves. -/
theorem exec_tuft_forms (hd : plain d = true) (hf : s.calm = true) (hsite : s.site ∈ s.ownRec.tuftSites (s.src a).toNat s.site)
    (h : ∀ m ∈ s.ownRec.tuftSites (s.src a).toNat s.site, m ≠ s.site → (s.coreAt m).tuftAsk = some (s.src a)) :
    exec (.tuft d a) s = .next ((s.tuftFormed (s.src a) (s.ownRec.tuftSites (s.src a).toNat s.site)).leavesTuft d) := by
  have hask : ∀ m ∈ s.ownRec.tuftSites (s.src a).toNat s.site,
      (((s.asksTuft (s.src a)).noting (s.starts (.tuft d a)).tx).coreAt m).tuftAsk = some (s.src a) := by
    intro m hm
    have hcore : ((s.asksTuft (s.src a)).noting (s.starts (.tuft d a)).tx).coreAt m = _ := s.coreAt_asksTuft (s.src a) m
    rw [hcore]
    split
    · rfl
    next hne => exact h m hm hne
  refine exec_tuft_leaves hd hf (State.tuftFormed_follows hsite) ((tuftBody_asks ha hact ht hfail hsize hfree hfit).trans
    ((tuftAsked_forms hask).trans ?_))
  rw [State.setCores_noting]
  rfl

end

/-! The Tuft as its members find it. -/

section
variable {s : State} {size : Word} {ms : List Nat}

theorem mem_headD {l : List Nat} {m : Nat} (h : m ∈ l) (d : Nat) : l.headD d ∈ l ∧ l.headD d = l.headD 0 := by
  cases l with
  | nil => cases h
  | cons x l => exact ⟨List.mem_cons_self .., rfl⟩

/-- The executing core goes on after the leader's instruction. -/
theorem State.tuftNext_tuftFormed (hsite : s.site ∈ ms) (hms : ms = s.ownRec.tuftSites size.toNat s.site)
    (hask : ∀ m ∈ ms, m ≠ s.site → (s.coreAt m).tuftAsk = some size) :
    (s.tuftFormed size ms).tuftNext = ((s.coreAt (ms.headD 0)).ctxAt 0).pc + 4 := by
  obtain ⟨hmem, hhead⟩ := mem_headD hsite (s.tuftFormed size ms).site
  have hlead : (s.tuftFormed size ms).tuftLead = ms.headD 0 := by
    rw [State.tuftLead, State.tuftOf_tuftFormed hsite hms, hhead]
  rw [hhead] at hmem
  have hcore := State.coreAt_tuftFormed s size ms hmem
  rw [State.coreAt_asksTuft] at hcore
  have hask' : ((s.tuftFormed size ms).coreAt (ms.headD 0)).tuftAsk = some size := by
    rw [hcore]
    split
    · rfl
    next hne => exact hask _ hmem hne
  have hctx : ((s.tuftFormed size ms).coreAt (ms.headD 0)).ctxAt 0 = (s.coreAt (ms.headD 0)).ctxAt 0 := by
    rw [hcore]
    split
    next heq => rw [heq]; rfl
    · rfl
  rw [State.tuftNext, hlead, hask', hctx]
  simp

theorem State.tuftFormed_leaves {d : BitVec 5} (hact : s.core.act = 0) (hsite : s.site ∈ ms)
    (hms : ms = s.ownRec.tuftSites size.toNat s.site) (hask : ∀ m ∈ ms, m ≠ s.site → (s.coreAt m).tuftAsk = some size)
    (h0 : d ≠ 0) :
    let t := (s.tuftFormed size ms).leavesTuft d
    t.src d = BitVec.ofNat 64 (rankOf s.site ms) ∧ t.ctx.pc = ((s.coreAt (ms.headD 0)).ctxAt 0).pc + 4 ∧ t.mem = s.mem
      ∧ ∀ m ∈ ms, (t.coreAt m).tuft = true ∧ (t.coreAt m).tidx = rankOf m ms ∧ (t.coreAt m).tuftSize = size.toNat
        ∧ (t.coreAt m).leader = decide (rankOf m ms = 0) ∧ (t.coreAt m).tuftAsk = if m = s.site then none else some size := by
  have hcore := State.core_tuftFormed (size := size) hsite
  have hact' : (s.tuftFormed size ms).core.act < 13 := by
    rw [hcore]
    exact hact ▸ by decide
  have hd0 : d.toNat ≠ 0 := fun h => h0 (BitVec.eq_of_toNat_eq h)
  have hctx : ((s.tuftFormed size ms).leavesTuft d).ctx = _ := State.ctx_answered (s.tuftFormed size ms) _ _ hact'
  refine ⟨?_, ?_, ?_, fun m hm => ?_⟩
  · rw [State.src, hctx]
    refine (Context.sreg_setS_self _ hd0 d.isLt _).trans ?_
    rw [hcore]
    rfl
  · rw [hctx]
    exact State.tuftNext_tuftFormed hsite hms hask
  · obtain ⟨cs, hcs⟩ := (s.asksTuft size).setCores_eq (tuftMember ms size.toNat) ms
    exact (congrArg State.mem hcs).trans rfl
  · have hm' := State.coreAt_tuftFormed s size ms hm
    by_cases hne : m = s.site
    · obtain ⟨xs, hxs⟩ := State.core_answered (s.tuftFormed size ms)
        ((s.tuftFormed size ms).tuftAnswered.ctx.setS d.toNat (BitVec.ofNat 64 (s.tuftFormed size ms).core.tidx))
        (some (s.tuftFormed size ms).tuftNext)
      have hself : ((s.tuftFormed size ms).leavesTuft d).coreAt m = _ := hne ▸ s.tuftFormed_site size ms ▸ hxs
      rw [hself, hcore, if_pos hne, ← hne]
      exact ⟨rfl, rfl, rfl, rfl, rfl⟩
    · have hother : ((s.tuftFormed size ms).leavesTuft d).coreAt m = _ :=
        State.coreAt_answered_ne (s.tuftFormed size ms) _ _ (s.tuftFormed_site size ms ▸ hne)
      rw [hother, hm', State.coreAt_asksTuft, if_neg hne, if_neg hne]
      exact ⟨rfl, rfl, rfl, rfl, hask m hm hne⟩

end

/-! A member that has waited leaves, and `split` (R106, R107). -/

theorem tuftBody_leaves {d a : BitVec 5} {s : State} (ha : plain a = true) (hact : s.core.act ≠ 12) (ht : s.core.tuft = true)
    (hfail : s.core.tuftFail = none) (hask : s.core.tuftAsk.isSome = true) : tuftBody d a s = leaveWith d s := by
  unfold tuftBody
  rw [Op.bind_ok (notInMiss_run hact), Op.bind_ok (Op.get_run s)]
  simp only [hfail, ht, hask, Bool.and_self, if_true]
  exact Op.bind_ok (rdS_plain ha s)

/-- A core that is in no Tuft any longer. -/
def leftTuft (_ : Nat) (c : Core) : Core :=
  { c.setCtx 0 { c.ctxAt 0 with held := false } with tuft := false, leader := false, tidx := 0, tuftSize := 0 }

theorem State.dissolve_eq (s : State) (site : Nat) : s.dissolve site = s.setCores leftTuft (s.tuftOf site) := rfl

theorem State.dissolve_noting (s : State) (site : Nat) (x : Tx) : (s.noting x).dissolve site = (s.dissolve site).noting x :=
  s.setCores_noting leftTuft (s.tuftOf site) x

/-- Changes that leave what executes. -/
theorem State.setCores_follows {f : Nat → Core → Core}
    (hf : ∀ m c, (f m c).act = c.act ∧ (f m c).dbgctl = c.dbgctl ∧ (f m c).halted = c.halted) (l : List Nat) (s : State) :
    (s.setCores f l).Follows s := by
  induction l generalizing s with
  | nil => exact .refl s
  | cons m l ih =>
    refine State.Follows.trans ?_ (ih (s.setCore m (f m (s.coreAt m))))
    by_cases hm : m = s.site
    · subst hm
      obtain ⟨ha, hd, hh⟩ := hf s.site s.core
      exact .setCore ha hd hh
    · exact .of_core rfl (State.coreAt_setCore_ne s (Ne.symm hm) _)

theorem exec_split_tuft {s : State} (hact : s.core.act ≠ 12) (ht : s.core.tuft = true) (hf : (s.dissolve s.site).calm = true) :
    exec .split s = .next (s.dissolve s.site).retires := by
  have hu : (s.dissolve s.site).Follows s := by
    rw [State.dissolve_eq]
    exact State.setCores_follows (f := leftTuft) (fun _ _ => ⟨rfl, rfl, rfl⟩) _ s
  refine runInstr_retires_from rfl (hasUnit_of_plain rfl rfl s) ?_ hu (hu.calm.symm.trans hf)
  rw [Op.bind_ok (notInMiss_run (s := s.starts .split) hact), Op.bind_ok (getCore_run _)]
  simp only [State.starts_core, ht, if_true]
  exact congrArg (EStateM.Result.ok ()) (s.dissolve_noting s.site _)

theorem exec_split_alone {s : State} (hact : s.core.act ≠ 12) (ht : s.core.tuft = false) (hf : s.calm = true) :
    exec .split s = .next s.retires := by
  refine runInstr_retires_from rfl (hasUnit_of_plain rfl rfl s) ?_ (.refl s) hf
  rw [Op.bind_ok (notInMiss_run (s := s.starts .split) hact), Op.bind_ok (getCore_run _)]
  simp only [State.starts_core, ht]
  rfl

/-- Settles O19: the ask leads to a trap, to waiting or to the Tuft; what each member finds of that is read from the changed cores. -/
theorem tuftResults : Obligations.TuftResults := by
  refine ⟨?_, ?_, fun s hact => ⟨exec_split_tuft hact, exec_split_alone hact⟩⟩
  · intro d a s hd ha h0 hf hact ht hfail
    dsimp only
    refine ⟨fun h2 h4 => exec_tuft_badSize ha hact ht hfail (not_or.2 ⟨h2, h4⟩), exec_tuft_occupied ha hact ht hfail,
      fun hsize hfree hfit => exec_tuft_unfit ha hact ht hfail hsize hfree (Bool.eq_false_iff.2 (mt State.tuftFits_iff.1 hfit)),
      fun hsize hfree hfit hsite => ⟨exec_tuft_waits ha hact ht hfail hsize hfree (State.tuftFits_iff.2 hfit), fun hask => ?_⟩⟩
    exact ⟨_, exec_tuft_forms ha hact ht hfail hsize hfree (State.tuftFits_iff.2 hfit) hd hf hsite hask,
      State.tuftFormed_leaves hact hsite rfl hask h0⟩
  · intro d a s hd ha hf hact ht hfail hask
    have h := exec_tuft_leaves hd hf (.refl s) (tuftBody_leaves (d := d) (s := s.starts (.tuft d a)) ha hact ht hfail hask)
    rw [h]
    simp only [State.leavesTuft, State.tuftNext, Bool.or_eq_true, decide_eq_true_eq]
    rfl

end Sys2Proof.Machine
end

section
/-! SUPPORT. `glaunch` (R118): the course of the instruction after the object of the record has been found. -/

namespace Sys2Proof.Machine

/-- The acquired set is released, and the record goes to the device launch queue of the executing record's queue, if that was
taken from a host queue and has room. -/
def launchInto (d : BitVec 5) (r : Rec) (l : Launch) (ws : List Word) : Op Unit := do
  releaseAll 4
  let s ← get
  match if r.fromHost then r.queue else none with
  | none => wrS d 0
  | some q =>
    if (s.deviceRecs q).length ≥ 64 then wrS d 0
    else
      set (s.queueRecord (newRecord s l q false 0) ws)
      wrS d 1

/-- The offset of a field that R114 refuses is reported, and a good record is queued. -/
def launchChecked (d : BitVec 5) (r : Rec) (o : Owner) (raw : List Byte) : Option Nat → Op Unit
  | some bad => illegal (BitVec.ofNat 64 bad)
  | none => do launchInto d r (parseLaunch raw) (← countable o r.l.asid (parseLaunch raw).wait)

/-- The course of `glaunch` once its object has been found at `l`. -/
def launchAt (d : BitVec 5) (off : Nat) (l : Loc) : Op Unit := do
  let h := (← get).hdr l
  require (decide (h.typ = tDATA)) .type (BitVec.ofNat 64 off)
  require (decide (off % 128 = 0)) .misalign (BitVec.ofNat 64 off)
  boundsCheck off 128 h.len
  awaitReds l off 128
  require (!(← get).bodyPoisoned l off 128) .poison (BitVec.ofNat 64 off)
  let s ← get
  let raw ← linkFields (s.bodyBytes l off 128) [0x00, 0x40, 0x48, 0x50, 0x58, 0x60, 0x70]
  launchChecked d s.ownRec (.ctx s.site s.core.act) raw
    (← checkLaunch (.ctx s.site s.core.act) s.ownRec.l.asid s.ownRec.l.vf (s.coreLimit s.ownRec.queue) raw)

/-- The effect of `glaunch`. -/
def glaunchBody (d : BitVec 5) (a : BitVec 4) : Op Unit := do
  notInMiss
  let off := (← rdA a.toNat).cur.toNat
  launchAt d off (← touchBody a.toNat off)

theorem exec_glaunch_eq (d : BitVec 5) (a : BitVec 4) (s : State) :
    exec (.glaunch d a) s = runInstr (.glaunch d a) (glaunchBody d a) s := rfl

/-! The checks of the record's place. -/

section
variable {d : BitVec 5} {off : Nat} {l : Loc} {s : State}

theorem boundsCheck_nat (off n len : Nat) (s : State) : boundsCheck off n len s
    = if off + n ≤ len then .ok () s else .error (.trap .bounds (BitVec.ofNat 64 off)) s := by
  have hle : (decide (0 ≤ (off : Int)) && decide ((off : Int) + n ≤ len)) = decide (off + n ≤ len) := by
    rw [decide_eq_true (Int.natCast_nonneg off), Bool.true_and, decide_eq_decide]
    omega
  rw [boundsCheck, toWord, BitVec.ofInt_natCast, hle, require_run]
  simp only [decide_eq_true_eq]

theorem launchAt_type (h : (s.hdr l).typ ≠ tDATA) : launchAt d off l s = .error (.trap .type (BitVec.ofNat 64 off)) s := by
  rw [launchAt, Op.bind_ok (Op.get_run s), Op.bind_error (require_false (decide_eq_false h) ..)]

variable (h : (s.hdr l).typ = tDATA)
include h

theorem launchAt_misaligned (ha : off % 128 ≠ 0) : launchAt d off l s = .error (.trap .misalign (BitVec.ofNat 64 off)) s := by
  rw [launchAt, Op.bind_ok (Op.get_run s), Op.bind_ok (require_true (decide_eq_true h) ..),
    Op.bind_error (require_false (decide_eq_false ha) ..)]

variable (ha : off % 128 = 0)
include ha

theorem launchAt_outside (hb : (s.hdr l).len < off + 128) :
    launchAt d off l s = .error (.trap .bounds (BitVec.ofNat 64 off)) s := by
  rw [launchAt, Op.bind_ok (Op.get_run s), Op.bind_ok (require_true (decide_eq_true h) ..),
    Op.bind_ok (require_true (decide_eq_true ha) ..)]
  exact Op.bind_error ((boundsCheck_nat ..).trans (if_neg (Nat.not_le.2 hb)))

variable (hb : off + 128 ≤ (s.hdr l).len) (hr : s.redsOn l off 128 = false)
include hb hr

theorem launchAt_poisoned (hp : s.bodyPoisoned l off 128 = true) :
    launchAt d off l s = .error (.trap .poison (BitVec.ofNat 64 off)) s := by
  rw [launchAt, Op.bind_ok (Op.get_run s), Op.bind_ok (require_true (decide_eq_true h) ..),
    Op.bind_ok (require_true (decide_eq_true ha) ..)]
  refine (Op.bind_ok ((boundsCheck_nat ..).trans (if_pos hb))).trans ?_
  rw [Op.bind_ok (awaitReds_of_none hr), Op.bind_ok (Op.get_run s)]
  exact Op.bind_error (require_false (by rw [hp]; rfl) ..)

/-- The record has been read, with its links. -/
theorem launchAt_read {raw : List Byte} {u : State} {res : Option Nat} (hp : s.bodyPoisoned l off 128 = false)
    (hraw : linkFields (s.bodyBytes l off 128) [0x00, 0x40, 0x48, 0x50, 0x58, 0x60, 0x70] s = .ok raw s)
    (hres : checkLaunch (.ctx s.site s.core.act) s.ownRec.l.asid s.ownRec.l.vf (s.coreLimit s.ownRec.queue) raw s = .ok res u) :
    launchAt d off l s = launchChecked d s.ownRec (.ctx s.site s.core.act) raw res u := by
  rw [launchAt, Op.bind_ok (Op.get_run s), Op.bind_ok (require_true (decide_eq_true h) ..),
    Op.bind_ok (require_true (decide_eq_true ha) ..)]
  refine (Op.bind_ok ((boundsCheck_nat ..).trans (if_pos hb))).trans ?_
  rw [Op.bind_ok (awaitReds_of_none hr), Op.bind_ok (Op.get_run s), Op.bind_ok (require_true (by rw [hp]; rfl) ..),
    Op.bind_ok (Op.get_run s), Op.bind_ok hraw, Op.bind_ok hres]

end

/-! The queue that takes the record. -/

/-- WAITERS of the wait objects counts a queued record: memory changes, and the list of records. -/
theorem State.queueRecord_eq (s : State) (r : Rec) (ws : List Word) : ∃ f, WritesMemory f ∧ ∀ x, (s.noting x).queueRecord r ws
    = f ((s.addRecord { r with counted := ws }).noting x) := by
  refine ⟨_, .foldl ws (fun p => ?_), fun x => rfl⟩
  intro s
  have hset := WritesMemory.setFieldAt (.heap r.l.asid (ptrLoc p)) 0x1C 4 (s.barWaiters (.heap r.l.asid (ptrLoc p)) + 1)
  obtain ⟨m, h, vf, u, hw⟩ := hset s
  exact ⟨m, h, vf, u, fun x => hw x⟩

theorem State.queueRecord_noting (s : State) (r : Rec) (ws : List Word) (x : Tx) :
    (s.noting x).queueRecord r ws = (s.queueRecord r ws).noting x := by
  obtain ⟨f, hf, h⟩ := s.queueRecord_eq r ws
  have hs : s.queueRecord r ws = f (s.addRecord { r with counted := ws }) := h s.tx
  rw [h, hf.noting, hs]

theorem State.queueRecord_core (s : State) (r : Rec) (ws : List Word) : (s.queueRecord r ws).core = s.core := by
  obtain ⟨f, hf, h⟩ := s.queueRecord_eq r ws
  have hs : s.queueRecord r ws = f (s.addRecord { r with counted := ws }) := h s.tx
  rw [hs, State.core, State.coreAt, hf.site, hf.cores]
  rfl

section
variable {d : BitVec 5} {r : Rec} {l : Launch} {ws : List Word} {s v : State}

theorem launchInto_none (hd : plain d = true) (hrel : releaseAll 4 s = .ok () v) (hq : r.fromHost = false ∨ r.queue = none) :
    launchInto d r l ws s = .ok () (v.setCtx (v.ctx.setS d.toNat 0)) := by
  have hnone : (if r.fromHost then r.queue else none) = none := by
    rcases hq with hq | hq <;> simp [hq]
  rw [launchInto, Op.bind_ok hrel, Op.bind_ok (Op.get_run v), hnone]
  exact wrS_plain hd 0 v

section
variable {q : Nat} (hrel : releaseAll 4 s = .ok () v) (hh : r.fromHost = true) (hq : r.queue = some q)
include hrel hh hq

theorem launchInto_full (hd : plain d = true) (hn : 64 ≤ (v.deviceRecs q).length) :
    launchInto d r l ws s = .ok () (v.setCtx (v.ctx.setS d.toNat 0)) := by
  rw [launchInto, Op.bind_ok hrel, Op.bind_ok (Op.get_run v)]
  simp only [hh, hq, if_true, ge_iff_le, hn]
  exact wrS_plain hd 0 v

theorem launchInto_room (hd : plain d = true) (hn : (v.deviceRecs q).length < 64) : launchInto d r l ws s
    = .ok () ((v.queueRecord (newRecord v l q false 0) ws).setCtx
        ((v.queueRecord (newRecord v l q false 0) ws).ctx.setS d.toNat 1)) := by
  rw [launchInto, Op.bind_ok hrel, Op.bind_ok (Op.get_run v)]
  simp only [hh, hq, if_true, ge_iff_le, Nat.not_le.2 hn, if_false]
  rw [Op.bind_ok (Op.set_run _ _)]
  exact wrS_plain hd 1 _

end

end

/-! The course of `glaunch` in the terms of its statement. -/

theorem State.clearOfReds_iff {s : State} {l : Loc} {off n : Nat} : s.clearOfReds l off n = true ↔ s.redsOn l off n = false := by
  rw [State.clearOfReds, Bool.not_eq_true']
  rfl

section
variable {d : BitVec 5} {a : BitVec 4} {s t : State} {l : Loc} (hm : s.core.inMiss = false)
  (ht : leads (.glaunch d a) (touch a.toNat) s (some l) t)
include hm ht

theorem glaunchBody_at : glaunchBody d a (s.starts (.glaunch d a))
    = launchAt d (s.ctx.areg a.toNat).cur.toNat l (t.starts (.glaunch d a)) := by
  have hmiss : s.core.act ≠ 12 := of_decide_eq_false hm
  rw [glaunchBody, Op.bind_ok (notInMiss_run (s := s.starts (.glaunch d a)) hmiss), Op.bind_ok (rdA_run ..)]
  exact Op.bind_ok (touchBody_some ht)

theorem exec_glaunch_trap {c : Cause} {v : Word} {u : State}
    (h : launchAt d (s.ctx.areg a.toNat).cur.toNat l (t.starts (.glaunch d a)) = .error (.trap c v) (u.starts (.glaunch d a))) :
    exec (.glaunch d a) s = .next (u.trapHere c.code v c.async) := by
  rw [exec_glaunch_eq, runInstr_trap rfl (hasUnit_of_plain rfl rfl s) ((glaunchBody_at hm ht).trans h) rfl]
  rfl

theorem exec_glaunch_gives {u w : State} {v : Word}
    (h : launchAt d (s.ctx.areg a.toNat).cur.toNat l (t.starts (.glaunch d a))
      = .ok () ((u.noting (w.starts (.glaunch d a)).tx).setCtx (u.ctx.setS d.toNat v)))
    (hu : u.core = w.core) (hf : w.calm = true) : exec (.glaunch d a) s = .next (u.gives d v) :=
  (exec_glaunch_eq d a s).trans (runInstr_gives_from rfl (hasUnit_of_plain rfl rfl s) ((glaunchBody_at hm ht).trans h)
    (congrArg Core.act hu) (congrArg Core.halted hu) hf)

end

/-- Settles O43: each check of the record's place traps in its turn, and a good record goes through `launchInto`. -/
theorem launchFromDevice : Obligations.LaunchFromDevice := by
  intro d a s t l hd hm i off ht
  refine ⟨fun h => exec_glaunch_trap hm ht (launchAt_type (s := t.starts i) h),
    fun h ha => exec_glaunch_trap hm ht (launchAt_misaligned (s := t.starts i) h ha),
    fun h ha hb => exec_glaunch_trap hm ht (launchAt_outside (s := t.starts i) h ha hb), fun h ha hb hr => ?_⟩
  rw [State.clearOfReds_iff] at hr
  refine ⟨fun hp => exec_glaunch_trap hm ht (launchAt_poisoned (s := t.starts i) h ha hb hr hp), fun hp raw u res hraw hres => ?_⟩
  have hat := launchAt_read (d := d) (s := t.starts i) h ha hb hr hp hraw hres
  refine ⟨?_, ?_⟩
  · rintro bad rfl
    exact exec_glaunch_trap hm ht hat
  · rintro w v ws rfl hws hrel hf
    have hinto := hat.trans (Op.bind_ok hws)
    refine ⟨fun hq => ?_, fun q hh hq => ⟨fun hn => ?_, fun hn => ?_⟩⟩
    · exact exec_glaunch_gives hm ht (hinto.trans (launchInto_none hd hrel hq)) rfl hf
    · exact exec_glaunch_gives hm ht (hinto.trans (launchInto_full hrel hh hq hd hn)) rfl hf
    · intro x _
      have hx : (v.starts i).queueRecord (newRecord (v.starts i) (parseLaunch raw) q false 0) ws = x.noting (v.starts i).tx :=
        State.queueRecord_noting v (newRecord v (parseLaunch raw) q false 0) ws (v.starts i).tx
      have hrun := launchInto_room (l := parseLaunch raw) (ws := ws) hrel hh hq hd hn
      rw [hx] at hrun
      exact exec_glaunch_gives hm ht (hinto.trans hrun) (State.queueRecord_core v _ ws) hf

end Sys2Proof.Machine
end

section
/-! SUPPORT. The scheduler's choices (R427, R429): the first of a list in an order, the sites of a record that fits, and the
candidates of a queue. -/

namespace Sys2Proof.Machine

/-! The first of a list in an order. -/

section
variable {α : Type} {before : α → α → Bool}

theorem bestOf_mem {l : List α} {x : α} (h : bestOf before l = some x) : x ∈ l := by
  induction l generalizing x with
  | nil => cases h
  | cons y l ih =>
    unfold bestOf at h
    split at h
    next z hz =>
      split at h
      · cases h
        exact List.mem_cons_of_mem y (ih hz)
      · cases h
        exact List.mem_cons_self ..
    next => cases h; exact List.mem_cons_self ..

theorem bestOf_eq_none {l : List α} (h : bestOf before l = none) : l = [] := by
  cases l with
  | nil => rfl
  | cons y l =>
    unfold bestOf at h
    split at h
    · split at h
      · cases h
      · cases h
    · cases h

theorem exists_bestOf {l : List α} (h : l ≠ []) : ∃ x, bestOf before l = some x :=
  Option.ne_none_iff_exists'.1 (mt bestOf_eq_none h)

/-- In an order that goes by a number first, none has a lesser number than the first. -/
theorem bestOf_least {f : α → Nat} (ht : ∀ x y, before x y = true → f x ≤ f y) (hf : ∀ x y, before x y = false → f y ≤ f x)
    {l : List α} {x : α} (h : bestOf before l = some x) : ∀ y ∈ l, f x ≤ f y := by
  induction l generalizing x with
  | nil => cases h
  | cons y l ih =>
    intro w hw
    unfold bestOf at h
    split at h
    next z hz =>
      have hl := ih hz
      split at h
      next hb =>
        cases h
        rcases List.mem_cons.1 hw with rfl | hw
        · exact ht _ _ hb
        · exact hl w hw
      next hb =>
        cases h
        rcases List.mem_cons.1 hw with rfl | hw
        · exact le_rfl
        · exact (hf _ _ (Bool.eq_false_iff.2 hb)).trans (hl w hw)
    next hz =>
      cases h
      rw [bestOf_eq_none hz] at hw
      rw [List.mem_singleton.1 hw]

end

/-! The sites of a record that fits (R429). -/

theorem firstRun_good {n : Nat} {good : Nat → Bool} {l acc r : List Nat} (hacc : ∀ x ∈ acc, good x = true)
    (h : firstRun n good acc l = some r) : ∀ x ∈ r, good x = true := by
  induction l generalizing acc with
  | nil =>
    unfold firstRun at h
    split at h
    · cases h
      exact fun x hx => hacc x (List.mem_reverse.1 hx)
    · cases h
  | cons y l ih =>
    unfold firstRun at h
    split at h
    · cases h
      exact fun x hx => hacc x (List.mem_reverse.1 hx)
    · dsimp only at h
      split at h
      next hy => exact ih (fun x hx => (List.mem_cons.1 hx).elim (fun e => e ▸ hy) (hacc x)) h
      next => exact ih (fun x hx => absurd hx List.not_mem_nil) h

theorem State.fitSites_free {s : State} {rid : Nat} {l : List Nat} (h : s.fitSites rid = some l) : ∀ x ∈ l, s.freeSite x = true := by
  unfold State.fitSites at h
  dsimp only at h
  split at h
  · split at h
    next hall =>
      cases h
      exact List.all_eq_true.1 hall
    next => cases h
  · intro x hx
    have hgood := firstRun_good (fun y hy => absurd hy List.not_mem_nil) h x hx
    simp only [Bool.and_eq_true] at hgood
    exact hgood.1

/-! The candidate of a queue, and the choice of a partition (R427). -/

theorem State.candOf_spec {s : State} {q : Nat} {c : Cand} (h : s.candOf q = some c) : c.q = q ∧ c.rid ∈ s.headsOf q
    ∧ (s.recAt c.rid).eligibleAt.isSome = true ∧ s.barred (s.recAt c.rid).l.vf (s.recAt c.rid).part = false
    ∧ s.fitSites c.rid = some c.sites := by
  unfold State.candOf at h
  obtain ⟨rid, hmem, hc⟩ := List.exists_of_findSome?_eq_some h
  dsimp only at hc
  split at hc
  next hok =>
    simp only [Bool.and_eq_true, Bool.not_eq_true'] at hok
    obtain ⟨l, hl, rfl⟩ := Option.map_eq_some_iff.1 hc
    refine ⟨rfl, ?_, hok.1, hok.2, hl⟩
    rcases List.mem_append.1 hmem with hm | hm
    · exact List.mem_of_mem_filter hm
    · exact List.mem_of_mem_filter hm
  next => cases hc

/-- The choice is what some enabled queue of the partition puts up. -/
theorem State.chosen_cand {s : State} {part : Nat} {c : Cand} (h : s.chosen part = some c) :
    ∃ e ∈ s.partQueues part, s.candOf e.1 = some c := by
  unfold State.chosen at h
  obtain ⟨v, -, hc⟩ := List.exists_of_findSome?_eq_some h
  obtain ⟨e, he, hcand⟩ := List.mem_filterMap.1 (bestOf_mem hc)
  exact ⟨e, List.mem_of_mem_filter he, hcand⟩

theorem State.chosen_spec {s : State} {part : Nat} {c : Cand} (h : s.chosen part = some c) :
    (∃ x : Queue, (c.q, x) ∈ s.queues ∧ x.part = part ∧ x.enabled = true) ∧ c.rid ∈ s.headsOf c.q
    ∧ (s.recAt c.rid).eligibleAt.isSome = true ∧ s.barred (s.recAt c.rid).l.vf (s.recAt c.rid).part = false
    ∧ ∀ x ∈ c.sites, s.freeSite x = true := by
  obtain ⟨⟨q, x⟩, he, hcand⟩ := State.chosen_cand h
  obtain ⟨rfl, hhead, helig, hbar, hfit⟩ := State.candOf_spec hcand
  obtain ⟨hmem, hq⟩ := List.mem_filter.1 he
  simp only [Bool.and_eq_true, decide_eq_true_eq] at hq
  exact ⟨⟨x, hmem, hq⟩, hhead, helig, hbar, State.fitSites_free hfit⟩

/-! The windows of a ridge (R429). -/

theorem windows_ne_nil {n : Nat} {l : List Nat} (h : n ≤ l.length) : windows n l ≠ [] := by
  have hlen : (windows n l).length = l.length + 1 - n := by simp [windows]
  exact List.ne_nil_of_length_pos (by omega)

end Sys2Proof.Machine
end

section
/-! SUPPORT. Events of the scheduler (R115, R424, R427 to R429): fetching, dispatching, reserving, and the end of a slice. -/

namespace Sys2Proof.Machine

/-! Events that are due. -/

theorem due_run (b : Bool) (s : State) : due b s = if b then .ok () s else .error .stutter s := by
  cases b <;> rfl

theorem due_true {b : Bool} (h : b = true) (s : State) : due b s = .ok () s := by rw [due_run, if_pos h]
theorem due_false {b : Bool} (h : b = false) (s : State) : due b s = .error .stutter s := by rw [due_run, h]; rfl
theorem dueSome_some {α : Type} {o : Option α} {x : α} (h : o = some x) (s : State) : dueSome o s = .ok x s := by rw [h]; rfl
theorem dueSome_none {α : Type} {o : Option α} (h : o = none) (s : State) : dueSome o s = .error .stutter s := by rw [h]; rfl

theorem tryRun_ok {f : Op Unit} {s t : State} (h : f s = .ok () t) : tryRun f s = .ok .done t := by rw [tryRun, h]
theorem tryRun_trap {f : Op Unit} {s t : State} {c : Cause} {v : Word} (h : f s = .error (.trap c v) t) :
    tryRun f s = .ok (.stopped c.code) t := by rw [tryRun, h]

/-! Fetching (R424). -/

theorem fetchQueue_nothing {q : Nat} {s : State} (h : (lookup {} q s.queues : Queue).head = (lookup {} q s.queues : Queue).tail) :
    fetchQueue q s = .ok () s := by
  rw [fetchQueue, Op.bind_ok (Op.get_run s), h, BitVec.sub_self]
  rfl

/-- The ring's head moves on. -/
def State.headMoved (s : State) (q : Nat) (x : Queue) : State := { s with queues := store q { x with head := x.head + 1 } s.queues }

/-- A record is taken from the ring. -/
def takeRecord (q : Nat) (x : Queue) (r : Rec) (ws : List Word) : Op Unit := modify fun s => (s.headMoved q x).queueRecord r ws

/-- The record that the checks have admitted or refused is taken. -/
def fetchChecked (q : Nat) (x : Queue) (s : State) (raw : List Byte) : Op Unit := do
  match ← checkLaunch .device x.asid x.vf (s.coreLimit (some q)) raw with
  | some bad => takeRecord q x { newRecord s (parseLaunch raw) q true x.head.toNat with st := .ended, status := some 1, field := bad } []
  | none =>
    let ws ← countable .device x.asid (parseLaunch raw).wait
    takeRecord q x (newRecord (← get) (parseLaunch raw) q true x.head.toNat) ws

/-- What a fetch does when the record's page has been asked for. -/
def fetchRead (q : Nat) (x : Queue) (va : Nat) : Ran → Op Ran
  | .parked => return .parked
  | .stopped _ => do
    takeRecord q x { newRecord (← get) {} q true x.head.toNat with st := .ended, status := some 1 } []
    return .done
  | .done => do
    let s ← get
    tryRun (fetchChecked q x s (s.heapBytes x.asid va 128))

theorem fetchOne_eq (q : Nat) : fetchOne q = (do
    let x : Queue := lookup {} q (← get).queues
    let ran ← tryRun (do let _ ← translateFor .device x.asid (x.ring + 128 * (x.head.toNat % x.entries)) false 0)
    fetchRead q x (x.ring + 128 * (x.head.toNat % x.entries)) ran) := rfl

section
variable {q fr va : Nat} {x : Queue} {s t u v : State}

theorem fetchOne_run (hx : lookup {} q s.queues = x)
    (ht : translateFor .device x.asid (x.ring + 128 * (x.head.toNat % x.entries)) false 0 s = .ok fr t) :
    fetchOne q s = tryRun (fetchChecked q x t (t.heapBytes x.asid (x.ring + 128 * (x.head.toNat % x.entries)) 128)) t := by
  subst hx
  have hrun : (do let _ ← translateFor .device (lookup {} q s.queues : Queue).asid ((lookup {} q s.queues : Queue).ring
      + 128 * ((lookup {} q s.queues : Queue).head.toNat % (lookup {} q s.queues : Queue).entries)) false 0 : Op Unit) s = .ok () t :=
    Op.bind_ok ht
  rw [fetchOne_eq, Op.bind_ok (Op.get_run s)]
  exact Op.bind_ok (tryRun_ok hrun)

theorem fetchChecked_bad {raw : List Byte} {bad : Nat}
    (h : checkLaunch .device x.asid x.vf (t.coreLimit (some q)) raw t = .ok (some bad) u) :
    fetchChecked q x t raw t = .ok () ((u.headMoved q x).addRecord
      { newRecord t (parseLaunch raw) q true x.head.toNat with st := .ended, status := some 1, field := bad }) := by
  rw [fetchChecked, Op.bind_ok h]
  rfl

theorem fetchChecked_good {raw : List Byte} {ws : List Word}
    (h : checkLaunch .device x.asid x.vf (t.coreLimit (some q)) raw t = .ok none u)
    (hw : countable .device x.asid (parseLaunch raw).wait u = .ok ws v) :
    fetchChecked q x t raw t = .ok () ((v.headMoved q x).queueRecord (newRecord v (parseLaunch raw) q true x.head.toNat) ws) := by
  rw [fetchChecked, Op.bind_ok h]
  dsimp only
  rw [Op.bind_ok hw, Op.bind_ok (Op.get_run v)]
  rfl

end

/-! Dispatch (R115, R427). -/

/-- A record starts, and its VF takes the slice if nobody has it. -/
def startChosen (q : Nat) (x : Queue) (c : Cand) : Ran → Op Unit
  | .parked => pure ()
  | .stopped code => modRec c.rid fun r => { r with st := .ended, endFault := some (code, r.l.code), status := some 2 }
  | .done => do
    let s := (← get).startRecord c.rid c.sites
    let s1 := s.countPassed q
    set (if (find x.part s1.slices).isSome then s1
      else { s1 with slices := store x.part { vf := x.vf, start := s1.cycle.toNat } s1.slices })

/-- The choice falls on a record of this queue, or not. -/
def dispatchChosen (q : Nat) (x : Queue) : Op Unit := do
  match (← get).chosen x.part with
  | none => pure ()
  | some c => if c.q = q && (← get).mayLoad x.part x.vf then startChosen q x c (← tryRun (prepare c.rid))

theorem dispatchBody_eq (q : Nat) : dispatchBody q = (do
    let x ← dueSome (find q (← get).queues)
    due (decide ((← get).phase = .ready))
    fetchQueue q
    modify State.fenceIdle
    noteAll x.part
    dispatchChosen q x) := by
  simp only [noteAll, bind_assoc]
  rfl

section
variable {q : Nat} {x : Queue} {s s1 s2 : State}

theorem exec_recordDispatch_idle (h : find q s.queues = none ∨ s.phase ≠ .ready) : exec (.recordDispatch q) s = .next s := by
  have herr : dispatchBody q s = .error .stutter s := by
    rw [dispatchBody_eq, Op.bind_ok (Op.get_run s)]
    cases hq : find q s.queues with
    | none => exact Op.bind_error (dueSome_none rfl s)
    | some x =>
      have hphase : decide (s.phase = .ready) = false := decide_eq_false (h.resolve_left (by simp [hq]))
      rw [Op.bind_ok (dueSome_some rfl s), Op.bind_ok (Op.get_run s), Op.bind_error (due_false hphase s)]
  exact runEvent_stutter herr

section
variable (hq : find q s.queues = some x) (hp : s.phase = .ready) (hfetch : fetchQueue q s = .ok () s1)
  (hnote : noteAll x.part s1.fenceIdle = .ok () s2)
include hq hp hfetch hnote

theorem dispatchBody_chooses : dispatchBody q s = dispatchChosen q x s2 := by
  rw [dispatchBody_eq, Op.bind_ok (Op.get_run s), Op.bind_ok (dueSome_some hq s), Op.bind_ok (Op.get_run s),
    Op.bind_ok (due_true (decide_eq_true hp) s), Op.bind_ok hfetch, Op.bind_ok (Op.modify_run _ _), Op.bind_ok hnote]

theorem exec_recordDispatch_of {t : State} (h : dispatchChosen q x s2 = .ok () t) : exec (.recordDispatch q) s = .next t :=
  runEvent_ok ((dispatchBody_chooses hq hp hfetch hnote).trans h)

end

theorem dispatchChosen_passes (h : ∀ c, s.chosen x.part = some c → c.q ≠ q ∨ s.mayLoad x.part x.vf = false) :
    dispatchChosen q x s = .ok () s := by
  rw [dispatchChosen, Op.bind_ok (Op.get_run s)]
  cases hc : s.chosen x.part with
  | none => rfl
  | some c =>
    have hno : (c.q = q && s.mayLoad x.part x.vf) = false := by
      rcases h c hc with hne | hload
      · rw [decide_eq_false hne, Bool.false_and]
      · rw [hload, Bool.and_false]
    dsimp only
    rw [Op.bind_ok (Op.get_run s), hno]
    rfl

theorem dispatchChosen_starts {c : Cand} (hc : s.chosen x.part = some c) (hcq : c.q = q) (hload : s.mayLoad x.part x.vf = true) :
    dispatchChosen q x s = (tryRun (prepare c.rid) >>= startChosen q x c) s := by
  have hyes : (c.q = q && s.mayLoad x.part x.vf) = true := by rw [decide_eq_true hcq, Bool.true_and, hload]
  rw [dispatchChosen, Op.bind_ok (Op.get_run s), hc]
  dsimp only
  rw [Op.bind_ok (Op.get_run s), hyes]
  rfl

end

/-! Reservation (R429). -/

/-- The order of the heads that have waited: the longest first, and by number. -/
def waitedLonger (a b : Nat × Nat) : Bool := decide (a.2 < b.2) || (decide (a.2 = b.2) && decide (a.1 < b.1))

/-- The order of windows: the fewest busy sites first. -/
def State.lessBusy (s : State) (a b : List Nat) : Bool := decide (s.busyIn a < s.busyIn b)

/-- The windows that a head can reserve. -/
def State.windowsFor (s : State) (part rid : Nat) : List (List Nat) :=
  windows ((s.recAt rid).l.cores * (s.recAt rid).l.groups) (s.ridge part (s.recAt rid).chan)

/-- The effect of RESERVATION. -/
def reservationBody (part : Nat) : Op Unit := do
  let s ← get
  due ((find part s.resvs).isNone)
  let w ← dueSome (bestOf waitedLonger (s.lateHeads part))
  let window ← dueSome (bestOf s.lessBusy (s.windowsFor part w.1))
  set { s with resvs := store part { rid := w.1, sites := window } s.resvs }

theorem exec_reservation_eq (part : Nat) (s : State) : exec (.reservation part) s = runEvent (reservationBody part) s := rfl

section
variable {part : Nat} {s : State}

theorem waitedLonger_iff {a b : Nat × Nat} : waitedLonger a b = true ↔ a.2 < b.2 ∨ a.2 = b.2 ∧ a.1 < b.1 := by
  simp [waitedLonger]

theorem waitedLonger_least {l : List (Nat × Nat)} {w : Nat × Nat} (h : bestOf waitedLonger l = some w) : ∀ e ∈ l, w.2 ≤ e.2 :=
  bestOf_least (f := Prod.snd) (fun _ _ hb => by have := waitedLonger_iff.1 hb; omega)
    (fun _ _ hb => by have := mt waitedLonger_iff.2 (Bool.eq_false_iff.1 hb); omega) h

theorem lessBusy_least {l : List (List Nat)} {w : List Nat} (h : bestOf s.lessBusy l = some w) : ∀ m ∈ l, s.busyIn w ≤ s.busyIn m :=
  bestOf_least (f := s.busyIn) (fun _ _ hb => (of_decide_eq_true hb).le) (fun _ _ hb => Nat.le_of_not_lt (of_decide_eq_false hb)) h

theorem exec_reservation_idle (h : (find part s.resvs).isSome = true ∨ s.lateHeads part = []) :
    exec (.reservation part) s = .next s := by
  have herr : reservationBody part s = .error .stutter s := by
    rw [reservationBody, Op.bind_ok (Op.get_run s)]
    by_cases hr : (find part s.resvs).isSome = true
    · exact Op.bind_error (due_false (Option.isNone_eq_false_iff.2 hr) s)
    · rw [Op.bind_ok (due_true (by simpa using hr) s), h.resolve_left hr]
      exact Op.bind_error (dueSome_none rfl s)
  exact (exec_reservation_eq part s).trans (runEvent_stutter herr)

theorem exec_reservation_takes {w : Nat × Nat} {l : List Nat} (hr : find part s.resvs = none)
    (hw : bestOf waitedLonger (s.lateHeads part) = some w) (hl : bestOf s.lessBusy (s.windowsFor part w.1) = some l) :
    exec (.reservation part) s = .next { s with resvs := store part { rid := w.1, sites := l } s.resvs } := by
  refine (exec_reservation_eq part s).trans (runEvent_ok ?_)
  rw [reservationBody, Op.bind_ok (Op.get_run s), Op.bind_ok (due_true (by rw [hr]; rfl) s), Op.bind_ok (dueSome_some hw s),
    Op.bind_ok (dueSome_some hl s)]
  rfl

end

/-! The end of a slice (R427, R428). -/

section
variable (s : State) (part vf : Nat)

/-- A running record of a VF in a partition. -/
def runsIn (part vf : Nat) (r : Rec) : Bool := decide (r.part = part) && decide (r.l.vf = vf) && decide (r.st = .running)

/-- The VF has nothing to run in a partition. -/
def State.sliceIdle : Bool := !s.hasWork part vf && !(s.recs.any fun r => runsIn part vf r.2)

/-- The VF to which the slice passes. -/
def State.nextSlice : Option Nat :=
  (vfOrder (vf + 1) ((s.queues.filter fun q => decide (q.2.part = part)).map fun q => q.2.vf)).find? fun v => s.hasWork part v

/-- The pre-emptible records of the outgoing VF are to be switched out. -/
def State.asksSwitch : State :=
  { s with recs := s.recs.map fun r =>
      if runsIn part vf r.2 && s.preemptible r.2 && r.2.switchAsked.isNone then
        (r.1, { r.2 with switchAsked := some s.cycle.toNat })
      else r }

/-- The state after the slice has passed. -/
def State.passSlice : Option Nat → State
  | none =>
    if s.sliceIdle part vf then { s with slices := erase part s.slices }
    else { s with slices := store part { vf := vf, start := s.cycle.toNat } s.slices }
  | some v =>
    let asked := if v = vf then s else s.asksSwitch part vf
    { asked with slices := store part { vf := v, start := s.cycle.toNat } asked.slices }

/-- The effect of SLICE_END. -/
def sliceEndBody (vf : Nat) : Op Unit := do
  let s ← get
  let e ← dueSome (s.slices.find? fun e => decide (e.2.vf = vf))
  due (s.sliceIdle e.1 vf || decide (e.2.start + sliceCycles vf ≤ s.cycle.toNat))
  match s.nextSlice e.1 vf with
  | none => set (s.passSlice e.1 vf none)
  | some v => set (s.passSlice e.1 vf (some v))

theorem exec_sliceEnd_eq : exec (.sliceEnd vf) s = runEvent (sliceEndBody vf) s := rfl

end

section
variable {s : State} {part vf : Nat} {sl : Slice}

theorem exec_sliceEnd_none (h : ∀ e ∈ s.slices, e.2.vf ≠ vf) : exec (.sliceEnd vf) s = .next s := by
  have hnone : s.slices.find? (fun e => decide (e.2.vf = vf)) = none :=
    List.find?_eq_none.2 fun e he => by simpa using h e he
  refine (exec_sliceEnd_eq s vf).trans (runEvent_stutter (e := .stutter) (t := s) ?_)
  rw [sliceEndBody, Op.bind_ok (Op.get_run s), Op.bind_error (dueSome_none hnone s)]

variable (hsl : s.slices.find? (fun e => decide (e.2.vf = vf)) = some (part, sl))
include hsl

theorem exec_sliceEnd_early (hidle : s.sliceIdle part vf = false) (hnow : s.cycle.toNat < sl.start + sliceCycles vf) :
    exec (.sliceEnd vf) s = .next s := by
  refine (exec_sliceEnd_eq s vf).trans (runEvent_stutter (e := .stutter) (t := s) ?_)
  rw [sliceEndBody, Op.bind_ok (Op.get_run s), Op.bind_ok (dueSome_some hsl s)]
  refine Op.bind_error (due_false ?_ s)
  rw [hidle, Bool.false_or]
  exact decide_eq_false (Nat.not_le.2 hnow)

theorem exec_sliceEnd_passes (h : s.sliceIdle part vf = true ∨ sl.start + sliceCycles vf ≤ s.cycle.toNat) :
    exec (.sliceEnd vf) s = .next (s.passSlice part vf (s.nextSlice part vf)) := by
  have hdue : (s.sliceIdle part vf || decide (sl.start + sliceCycles vf ≤ s.cycle.toNat)) = true := by
    rw [Bool.or_eq_true, decide_eq_true_eq]
    exact h
  refine (exec_sliceEnd_eq s vf).trans (runEvent_ok ?_)
  rw [sliceEndBody, Op.bind_ok (Op.get_run s), Op.bind_ok (dueSome_some hsl s), Op.bind_ok (due_true hdue s)]
  cases s.nextSlice part vf with
  | none => rfl
  | some v => rfl

end

/-- Settles O44: each event is its body's run, and the choices are the first of a list in an order. -/
theorem recordDispatch : Obligations.RecordDispatch := by
  refine ⟨fun q s => exec_recordDispatch_idle, fun q s => fetchQueue_nothing, ?_, fun s part c => State.chosen_spec, ?_, ?_,
    fun vf s => exec_sliceEnd_none, ?_⟩
  · intro q fr s t u res x va raw taken ht hres
    have hone := fetchOne_run (q := q) rfl ht
    refine ⟨?_, ?_⟩
    · rintro bad rfl
      exact hone.trans (tryRun_ok (fetchChecked_bad hres))
    · rintro ws v rfl hw
      exact hone.trans (tryRun_ok (fetchChecked_good hres hw))
  · intro q x s s1 s2 hq hp hfetch hnote
    refine ⟨fun c hc hcq hload => ?_, fun h => exec_recordDispatch_of hq hp hfetch hnote (dispatchChosen_passes h)⟩
    have hstart := dispatchChosen_starts hc hcq hload
    refine ⟨fun s3 hprep => exec_recordDispatch_of hq hp hfetch hnote (hstart.trans ?_), fun k v s3 hprep =>
      exec_recordDispatch_of hq hp hfetch hnote (hstart.trans ?_)⟩
    · exact Op.bind_ok (tryRun_ok hprep)
    · exact Op.bind_ok (tryRun_trap hprep)
  · intro part s
    refine ⟨exec_reservation_idle, fun hr hlate hfit => ?_⟩
    obtain ⟨w, hw⟩ := exists_bestOf (before := waitedLonger) hlate
    have hmem := bestOf_mem hw
    obtain ⟨l, hl⟩ := exists_bestOf (before := s.lessBusy) (l := s.windowsFor part w.1) (windows_ne_nil (hfit w hmem))
    exact ⟨w, hmem, waitedLonger_least hw, l, bestOf_mem hl, lessBusy_least hl, exec_reservation_takes hr hw hl⟩
  · intro vf part sl s hsl
    refine ⟨exec_sliceEnd_early hsl, fun h => ?_⟩
    have hpass := exec_sliceEnd_passes hsl h
    refine ⟨fun hnext => ?_, fun hnext => ?_, fun v hnext hv => ⟨_, hpass, ?_⟩⟩
    · exact hpass.trans (congrArg (fun o => Host.Outcome.next (s.passSlice part vf o)) hnext)
    · refine hpass.trans ((congrArg (fun o => Host.Outcome.next (s.passSlice part vf o)) hnext).trans ?_)
      simp only [State.passSlice, if_true]
    · have hstate : s.passSlice part vf (s.nextSlice part vf) = { s.asksSwitch part vf with
          slices := store part { vf := v, start := s.cycle.toNat } s.slices } := by
        refine (congrArg (s.passSlice part vf) hnext).trans ?_
        simp only [State.passSlice, if_neg hv]
        rfl
      rw [hstate]
      exact ⟨rfl, rfl, rfl, rfl, rfl⟩

end Sys2Proof.Machine
end

section
/-! SUPPORT. Little-endian numbers in bytes and in memory (R3), headers, and cleared memory. -/

namespace Sys2Proof.Machine

/-! Bytes of a number. -/

@[simp] theorem length_leBytes (v n : Nat) : (leBytes v n).length = n := by
  induction n generalizing v with
  | zero => rfl
  | succ n ih => rw [leBytes, List.length_cons, ih]

theorem ofBytes_leBytes (v n : Nat) : ofBytes (leBytes v n) = v % 256 ^ n := by
  induction n generalizing v with
  | zero => simp [leBytes, ofBytes, Nat.mod_one]
  | succ n ih =>
    have hb : (2 : Nat) ^ 8 = 256 := rfl
    rw [leBytes, ofBytes, ih, BitVec.toNat_ofNat, hb, pow_succ' 256 n, Nat.mod_mul]

theorem leBytes_add (v n m : Nat) : leBytes v (n + m) = leBytes v n ++ leBytes (v / 256 ^ n) m := by
  induction n generalizing v with
  | zero => simp [leBytes]
  | succ n ih =>
    rw [Nat.succ_add, leBytes, ih, leBytes, List.cons_append, pow_succ', Nat.div_div_eq_div_mul]

/-- A field of a number in bytes: the bytes before it and behind it do not matter. -/
theorem fieldAt_leBytes {v off n w : Nat} (h : off + n ≤ w) : fieldAt (leBytes v w) off n = v / 256 ^ off % 256 ^ n := by
  obtain ⟨k, rfl⟩ := Nat.exists_eq_add_of_le h
  rw [fieldAt, Nat.add_assoc, leBytes_add, List.drop_left' (length_leBytes v off), leBytes_add,
    List.take_left' (length_leBytes _ n), ofBytes_leBytes]

theorem fieldAt_append_left {l m : List Byte} {off n : Nat} (h : off + n ≤ l.length) : fieldAt (l ++ m) off n = fieldAt l off n := by
  rw [fieldAt, fieldAt, List.drop_append_of_le_length (by omega), List.take_append_of_le_length (by rw [List.length_drop]; omega)]

theorem fieldAt_append_right {l m : List Byte} {off n : Nat} : fieldAt (l ++ m) (l.length + off) n = fieldAt m off n := by
  rw [fieldAt, fieldAt, List.drop_append, List.drop_eq_nil_of_le (by omega), List.nil_append, Nat.add_sub_cancel_left]

/-! Numbers in memory. -/

namespace Mem

variable {m m' : Mem} {a n k v : Nat}

theorem read_congr (h : ∀ i < n, m.byte (a + i) = m'.byte (a + i)) : m.read a n = m'.read a n := by
  induction n generalizing a with
  | zero => rfl
  | succ n ih =>
    have h0 := h 0 (Nat.succ_pos n)
    rw [Nat.add_zero] at h0
    rw [read, read, h0, ih fun i hi => by rw [Nat.add_assoc, Nat.add_comm 1]; exact h (i + 1) (Nat.succ_lt_succ hi)]

theorem read_setBytes (m : Mem) (a : Nat) (bs : List Byte) : (m.setBytes a bs).read a bs.length = ofBytes bs := by
  induction bs generalizing m a with
  | nil => rfl
  | cons b bs ih =>
    rw [setBytes, List.length_cons, read, ih, byte_setBytes_outside _ (.inl (Nat.lt_succ_self a)), byte_set_self, ofBytes]

theorem read_write_self (m : Mem) (a n v : Nat) : (m.write a n v).read a n = v % 256 ^ n := by
  have h := m.read_setBytes a (leBytes v n)
  rw [length_leBytes, ofBytes_leBytes] at h
  exact h

theorem byte_write_outside (h : k < a ∨ a + n ≤ k) : (m.write a n v).byte k = m.byte k :=
  m.byte_setBytes_outside (by rw [length_leBytes]; exact h)

theorem read_write_outside {w : Nat} (h : k + w ≤ a ∨ a + n ≤ k) : (m.write a n v).read k w = m.read k w :=
  read_congr fun i hi => byte_write_outside (by omega)

theorem ofNat_word (w : Word) : BitVec.ofNat 64 (w.toNat % 256 ^ 8) = w := by
  have hb : 256 ^ 8 = 2 ^ 64 := rfl
  rw [hb, Nat.mod_eq_of_lt w.isLt, BitVec.ofNat_toNat, BitVec.setWidth_eq]

theorem word_write_self (m : Mem) (a : Nat) (w : Word) : (m.write a 8 w.toNat).word a = w := by
  rw [word, read_write_self, ofNat_word]

theorem word_write_outside (h : k + 8 ≤ a ∨ a + n ≤ k) : (m.write a n v).word k = m.word k := by
  rw [word, word, read_write_outside h]

/-! Headers, and cleared memory. -/

theorem hdr_setHdr (m : Mem) (k : Nat) (h : Hdr) : (m.setHdr k h).hdr k = h := by
  unfold hdr setHdr
  rw [word_write_outside (by omega), word_write_outside (by omega), word_write_outside (by omega), word_write_self,
    word_write_outside (by omega), word_write_outside (by omega), word_write_self, word_write_outside (by omega), word_write_self,
    word_write_self]

theorem byte_setHdr_outside {h : Hdr} (hk : k < a ∨ a + 32 ≤ k) : (m.setHdr a h).byte k = m.byte k := by
  unfold setHdr
  rw [byte_write_outside (by omega), byte_write_outside (by omega), byte_write_outside (by omega), byte_write_outside (by omega)]

theorem byte_clear (m : Mem) (a n k : Nat) : (m.clear a n).byte k = if within a n k then 0 else m.byte k := by
  induction m with
  | nil => exact (ite_self _).symm
  | cons c m ih =>
    obtain ⟨j, b⟩ := c
    have hcons : ∀ l : Mem, Mem.byte ((j, b) :: l) k = if j = k then b else Mem.byte l k := fun _ => rfl
    rw [clear, List.filter_cons]
    by_cases hj : within a n j = true
    · rw [if_neg (by simp [hj]), hcons]
      refine ih.trans ?_
      by_cases hjk : j = k
      · rw [← hjk, if_pos hj, if_pos hj]
      · rw [if_neg hjk]
    · rw [if_pos (by simp [hj]), hcons, hcons]
      by_cases hjk : j = k
      · rw [if_pos hjk, if_pos hjk, ← hjk, if_neg hj]
      · rw [if_neg hjk, if_neg hjk]
        exact ih

end Mem

end Sys2Proof.Machine
end

section
/-! SUPPORT. The state in which a core of a record starts (R115 to R117). -/

namespace Sys2Proof.Machine

/-! The memory of the core's pad: empty but for the header of the stack. -/

/-- The header of the stack object (R117). -/
def stackHdr : Hdr := { w0 := BitVec.ofNat 64 (stackLen + 2 ^ 57) }

/-- The area of a core pad with its stack, and the key of the stack's header. -/
def stackArea (site : Nat) : Area × Nat := ({ base := corePadKey site, size := padTop, dirCap := 1024 } : Area).bumpAlloc (32 + stackLen)

theorem stackArea_key (site : Nat) : (stackArea site).2 = corePadKey site := Nat.add_zero _

/-- The core of a record as it starts, from the core as it was. -/
def Core.started (c : Core) (r : Rec) (rid lc site : Nat) : Core :=
  { c.bare.setCtx 0 (startContext r lc (mkPtr 0 3 (lc * 2 ^ 40))) with
    recId := some rid, pad := (stackArea site).1, dt := Vector.ofFn fun (i : Fin 4) => shippedTable i.val }

/-- An empty core pad in which a header stands. -/
def State.headedPad (s : State) (base key : Nat) (h : Hdr) : State :=
  ({ s.clearPad base padTop with mem := (s.clearPad base padTop).mem.setHdr key h } : State).markUnits key 32

theorem State.startCore_eq (s : State) (rid lc : Nat) {site : Nat} (hs : (s.recAt rid).place.getD lc 0 = site) : s.startCore rid lc
    = ((s.headedPad (corePadKey site) (stackArea site).2 stackHdr).setCore site
        (((s.headedPad (corePadKey site) (stackArea site).2 stackHdr).coreAt site).started (s.recAt rid) rid lc site)).setRec rid
      { s.recAt rid with stackObjs := (s.recAt rid).stackObjs ++ [(stackArea site).2] } := by
  subst hs
  rfl

theorem State.headedPad_mem (s : State) (base key : Nat) (h : Hdr) :
    (s.headedPad base key h).mem = (s.mem.clear base padTop).setHdr key h := by
  have hclear : (s.clearPad base padTop).mem = s.mem.clear base padTop := rfl
  rw [State.headedPad, State.markUnits_memory.1, hclear]

theorem State.headedPad_coreAt (s : State) (base key : Nat) (h : Hdr) (n : Nat) : (s.headedPad base key h).coreAt n = s.coreAt n := by
  have hcores : (s.headedPad base key h).cores = s.cores := by
    rw [State.headedPad, (WritesMemory.markUnits key 32).cores]
    rfl
  rw [State.coreAt, hcores]
  rfl

section
variable {s : State} {rid lc site : Nat} (hs : (s.recAt rid).place.getD lc 0 = site)
include hs

theorem State.startCore_mem : (s.startCore rid lc).mem = (s.mem.clear (corePadKey site) padTop).setHdr (corePadKey site) stackHdr := by
  rw [State.startCore_eq s rid lc hs, State.setRec_mem, State.setCore_mem, State.headedPad_mem, stackArea_key]

theorem State.startCore_core : (s.startCore rid lc).coreAt site = (s.coreAt site).started (s.recAt rid) rid lc site := by
  have h := State.startCore_eq s rid lc hs
  have hc := s.headedPad_coreAt (corePadKey site) (stackArea site).2 stackHdr site
  generalize s.headedPad (corePadKey site) (stackArea site).2 stackHdr = u at h hc
  rw [h, hc]
  exact State.coreAt_setCore_self ..

theorem State.startCore_other {n : Nat} (hn : n ≠ site) : (s.startCore rid lc).coreAt n = s.coreAt n := by
  have h := State.startCore_eq s rid lc hs
  have hc := s.headedPad_coreAt (corePadKey site) (stackArea site).2 stackHdr n
  generalize s.headedPad (corePadKey site) (stackArea site).2 stackHdr = u at h hc
  rw [h, ← hc]
  exact State.coreAt_setCore_ne _ hn _

/-- The pad beside the stack's header is empty, and other memory stands (R117, R406). -/
theorem State.startCore_byte (a : Nat) (ha : a < corePadKey site ∨ corePadKey site + 32 ≤ a) :
    (s.startCore rid lc).mem.byte a = if within (corePadKey site) padTop a then 0 else s.mem.byte a := by
  rw [State.startCore_mem hs, Mem.byte_setHdr_outside ha, Mem.byte_clear]

theorem State.startCore_hdr : (s.startCore rid lc).mem.hdr (corePadKey site) = stackHdr := by
  rw [State.startCore_mem hs, Mem.hdr_setHdr]

end

/-! The control context at its start (R117), and the rest of the core. -/

section
variable (r : Rec) (lc : Nat) (stack : Word)

theorem startContext_s : (startContext r lc stack).sreg 2 = (coreShare r.l r.place lc).1
    ∧ (startContext r lc stack).sreg 3 = BitVec.ofNat 64 (coreShare r.l r.place lc).2
    ∧ (startContext r lc stack).sreg 4 = BitVec.ofNat 64 (lc / r.l.cores)
    ∧ (startContext r lc stack).sreg 5 = BitVec.ofNat 64 (lc % r.l.cores)
    ∧ (startContext r lc stack).sreg 6 = BitVec.ofNat 64 r.l.cores := by
  simp [Context.sreg, startContext]

theorem startContext_s_zero {n : Nat} (h : n < 32) (hn : n < 2 ∨ 6 < n) : (startContext r lc stack).sreg n = 0 := by
  have hne : ∀ k, 2 ≤ k → k ≤ 6 → k ≠ n := fun k h2 h6 => by omega
  simp [Context.sreg, startContext, hne 2, hne 3, hne 4, hne 5, hne 6, h]

theorem startContext_a : (startContext r lc stack).areg 0 = { ptr := r.l.arg } ∧ (startContext r lc stack).areg 15 = { ptr := stack }
    ∧ ∀ n, 1 ≤ n → n < 15 → (startContext r lc stack).areg n = {} := by
  refine ⟨by simp [Context.areg, startContext], by simp [Context.areg, startContext], fun n h1 h15 => ?_⟩
  simp [Context.areg, startContext, show 0 ≠ n by omega, show 15 ≠ n by omega, show n < 16 by omega]

theorem getD_replicate {α : Type} (k n : Nat) (x : α) : (Vector.replicate k x)[n]?.getD x = x := by
  rw [Vector.getElem?_replicate]
  split <;> rfl

theorem startContext_p {n : Nat} (h1 : 1 ≤ n) : (startContext r lc stack).preg n = 0 := by
  rw [Context.preg, if_neg (by omega)]
  exact getD_replicate 8 n 0

end

theorem Core.started_ctxAt (c : Core) (r : Rec) (rid lc site : Nat) : (c.started r rid lc site).ctxAt 0
    = startContext r lc (mkPtr 0 3 (lc * 2 ^ 40)) := Core.ctxAt_setCtx_self c.bare (by decide) _

theorem Core.started_helper (c : Core) (r : Rec) (rid lc site : Nat) {n : Nat} (h1 : 1 ≤ n) (h10 : n ≤ 10) :
    ((c.started r rid lc site).ctxAt n).st = .free := by
  have h : (c.started r rid lc site).ctxAt n = {} := by
    simp [Core.started, Core.ctxAt, Core.setCtx, Core.bare, show 0 ≠ n by omega, show 11 ≠ n by omega,
      show n < 13 by omega]
  rw [h]

theorem Core.started_vreg (c : Core) (r : Rec) (rid lc site n : Nat) : (c.started r rid lc site).vreg n = 0 :=
  getD_replicate 32 n 0

end Sys2Proof.Machine
end

section
/-! SUPPORT. Heap bytes that are written and read back where they lie in at most two pages. -/

namespace Sys2Proof.Machine

/-! Bytes of memory. -/

namespace Mem

variable {m m' : Mem} {a n : Nat}

theorem bytes_congr (h : ∀ i < n, m.byte (a + i) = m'.byte (a + i)) : m.bytes a n = m'.bytes a n := by
  induction n generalizing a with
  | zero => rfl
  | succ n ih =>
    have h0 := h 0 (Nat.succ_pos n)
    rw [Nat.add_zero] at h0
    rw [bytes, bytes, h0, ih fun i hi => by rw [Nat.add_assoc, Nat.add_comm 1]; exact h (i + 1) (Nat.succ_lt_succ hi)]

theorem bytes_setBytes_self (m : Mem) (a : Nat) (bs : List Byte) : (m.setBytes a bs).bytes a bs.length = bs := by
  induction bs generalizing m a with
  | nil => rfl
  | cons b bs ih =>
    rw [setBytes, List.length_cons, bytes, ih, byte_setBytes_outside _ (.inl (Nat.lt_succ_self a)), byte_set_self]

theorem bytes_setBytes_outside {k : Nat} {bs : List Byte} (m : Mem) (h : k + n ≤ a ∨ a + bs.length ≤ k) :
    (m.setBytes a bs).bytes k n = m.bytes k n :=
  bytes_congr fun _ _ => m.byte_setBytes_outside (by omega)

end Mem

/-! The chunks of a range within a page, and of one that ends in the next. -/

section
variable {s : State} {asid va n : Nat} {e f : Pte}

theorem pageStarts_one (h0 : 0 < n) (h : va % 4096 + n ≤ 4096) : pageStarts va n = [va] := by
  have hcount : (va + n - 1) / 4096 - va / 4096 + 1 = 1 := by omega
  rw [pageStarts, if_neg (by omega), hcount, List.range_one, List.map_singleton, Nat.add_zero]
  exact congrArg ([·]) (Nat.max_eq_left (Nat.div_mul_le_self va 4096))

theorem pageStarts_two (h1 : 4096 < va % 4096 + n) (h2 : va % 4096 + n ≤ 8192) :
    pageStarts va n = [va, (va / 4096 + 1) * 4096] := by
  have hcount : (va + n - 1) / 4096 - va / 4096 + 1 = 2 := by omega
  have hfirst : Nat.max va ((va / 4096 + 0) * 4096) = va := Nat.max_eq_left (by omega)
  have hnext : Nat.max va ((va / 4096 + 1) * 4096) = (va / 4096 + 1) * 4096 := Nat.max_eq_right (by omega)
  rw [pageStarts, if_neg (by omega), hcount]
  simp only [List.range_succ, List.range_zero, List.nil_append, List.cons_append, List.map_cons, List.map_nil, hfirst, hnext]

theorem chunks_one (h0 : 0 < n) (h : va % 4096 + n ≤ 4096) (he : find (pageKey asid (va / 4096)) s.ptes = some e) :
    s.chunks asid va n = [(e.frame * 4096 + va % 4096, 0, n)] := by
  have hlen : Nat.min (va + n) ((va / 4096 + 1) * 4096) - va = n :=
    (congrArg (· - va) (Nat.min_eq_left (by omega))).trans (by omega)
  rw [State.chunks, pageStarts_one h0 h]
  simp [he, hlen]

theorem chunks_two (h1 : 4096 < va % 4096 + n) (h2 : va % 4096 + n ≤ 8192) (he : find (pageKey asid (va / 4096)) s.ptes = some e)
    (hf : find (pageKey asid (va / 4096 + 1)) s.ptes = some f) :
    s.chunks asid va n = [(e.frame * 4096 + va % 4096, 0, 4096 - va % 4096), (f.frame * 4096, 4096 - va % 4096, va % 4096 + n - 4096)] := by
  have hfirst : Nat.min (va + n) ((va / 4096 + 1) * 4096) - va = 4096 - va % 4096 :=
    (congrArg (· - va) (Nat.min_eq_right (by omega))).trans (by omega)
  have hpage : (va / 4096 + 1) * 4096 / 4096 = va / 4096 + 1 := Nat.mul_div_cancel _ (by decide)
  have hoff : (va / 4096 + 1) * 4096 % 4096 = 0 := Nat.mul_mod_left ..
  have hback : (va / 4096 + 1) * 4096 - va = 4096 - va % 4096 := by omega
  have hlen : Nat.min (va + n) ((va / 4096 + 1 + 1) * 4096) - (va / 4096 + 1) * 4096 = va % 4096 + n - 4096 :=
    (congrArg (· - (va / 4096 + 1) * 4096) (Nat.min_eq_left (by omega))).trans (by omega)
  rw [State.chunks, pageStarts_two h1 h2]
  simp [he, hf, hpage, hoff, hfirst, hback, hlen]

end

/-! Written and read back. -/

theorem putHeap_mem (s : State) (asid va : Nat) (bs : List Byte) : (s.putHeap asid va bs).mem
    = (s.chunks asid va bs.length).foldl (fun m c => m.setBytes c.1 ((bs.drop c.2.1).take c.2.2)) s.mem := rfl

theorem putHeap_ptes (s : State) (asid va : Nat) (bs : List Byte) : (s.putHeap asid va bs).ptes = s.ptes := by
  obtain ⟨m, h, v, u, hn⟩ := WritesMemory.putHeap asid va bs s
  exact (congrArg State.ptes (hn s.tx) :)

theorem putHeap_chunks (s : State) (asid va : Nat) (bs : List Byte) (asid' va' n : Nat) :
    (s.putHeap asid va bs).chunks asid' va' n = s.chunks asid' va' n := by
  rw [State.chunks, putHeap_ptes]
  rfl

/-- The pages of a writable range are translated. -/
theorem exists_pte_of_writable {s : State} {asid va n a : Nat} (hw : s.writable asid va n = true) (ha : a ∈ pageStarts va n) :
    ∃ e, find (pageKey asid (a / 4096)) s.ptes = some e := by
  have h := List.all_eq_true.1 hw a ha
  split at h
  next e he => exact ⟨e, he⟩
  · cases h

/-- Bytes at a writable place are read back: of two pages' frames, which may be one, they fill the end and the beginning. -/
theorem heapBytes_putHeap {s : State} {asid va : Nat} {bs : List Byte} (h0 : 0 < bs.length) (h : bs.length ≤ 2048)
    (hw : s.writable asid va bs.length = true) : (s.putHeap asid va bs).heapBytes asid va bs.length = bs := by
  have hr : va % 4096 < 4096 := Nat.mod_lt _ (by decide)
  rw [State.heapBytes, putHeap_chunks, putHeap_mem]
  by_cases hone : va % 4096 + bs.length ≤ 4096
  · obtain ⟨e, he⟩ := exists_pte_of_writable (a := va) hw (by rw [pageStarts_one h0 hone]; exact List.mem_singleton_self va)
    rw [chunks_one h0 hone he]
    simp [Mem.bytes_setBytes_self]
  · have h1 : 4096 < va % 4096 + bs.length := Nat.lt_of_not_le hone
    have h2 : va % 4096 + bs.length ≤ 8192 := by omega
    obtain ⟨e, he⟩ := exists_pte_of_writable (a := va) hw (by rw [pageStarts_two h1 h2]; exact List.mem_cons_self ..)
    obtain ⟨f, hf⟩ := exists_pte_of_writable (a := (va / 4096 + 1) * 4096) hw (by rw [pageStarts_two h1 h2]; simp)
    rw [Nat.mul_div_cancel _ (by decide)] at hf
    have hlow : (bs.take (4096 - va % 4096)).length = 4096 - va % 4096 := by rw [List.length_take]; omega
    have hhigh : ((bs.drop (4096 - va % 4096)).take (va % 4096 + bs.length - 4096)) = bs.drop (4096 - va % 4096) :=
      List.take_of_length_le (by rw [List.length_drop]; omega)
    have hhighlen : (bs.drop (4096 - va % 4096)).length = va % 4096 + bs.length - 4096 := by rw [List.length_drop]; omega
    rw [chunks_two h1 h2 he hf]
    simp only [List.foldl_cons, List.foldl_nil, List.map_cons, List.map_nil, List.flatten_cons, List.flatten_nil, List.append_nil,
      List.drop_zero, hhigh]
    have hmid : (s.mem.setBytes (e.frame * 4096 + va % 4096) (bs.take (4096 - va % 4096))).bytes (e.frame * 4096 + va % 4096)
        (4096 - va % 4096) = bs.take (4096 - va % 4096) := by
      have hself := s.mem.bytes_setBytes_self (e.frame * 4096 + va % 4096) (bs.take (4096 - va % 4096))
      rwa [hlow] at hself
    have hlast := fun m : Mem => m.bytes_setBytes_self (f.frame * 4096) (bs.drop (4096 - va % 4096))
    rw [hhighlen] at hlast
    rw [hlast, Mem.bytes_setBytes_outside _ (by rw [hhighlen]; omega), hmid, List.take_append_drop]

end Sys2Proof.Machine
end

section
/-! SUPPORT. The end of a record (R115, R425). -/

namespace Sys2Proof.Machine

/-! A completion entry. -/

theorem completionWords_fields (x : Queue) (index status field cause : Nat) (v : Word) :
    let bs := completionWords x index status field cause v
    bs.length = 16 ∧ fieldAt bs 0 1 = status % 256 ∧ fieldAt bs 1 1 = cause % 256 ∧ fieldAt bs 2 2 = field % 65536
      ∧ fieldAt bs 4 4 = index % 2 ^ 31 + (if x.chead.toNat / x.entries % 2 = 0 then 2 ^ 31 else 0) ∧ fieldAt bs 8 8 = v.toNat := by
  have hbit : boolBit (decide (x.chead.toNat / x.entries % 2 = 0)) 63
      = 2 ^ 32 * if x.chead.toNat / x.entries % 2 = 0 then 2 ^ 31 else 0 := by
    unfold boolBit
    split <;> simp_all
  have hlap : (if x.chead.toNat / x.entries % 2 = 0 then 2 ^ 31 else 0) ≤ 2 ^ 31 := by split <;> decide
  have hlow := fun off n (h : off + n ≤ 8) (w : Nat) =>
    (fieldAt_append_left (l := leBytes w 8) (m := leBytes v.toNat 8) (by simpa using h)).trans (fieldAt_leBytes h)
  have hhigh := fun w : Nat => (fieldAt_append_right (l := leBytes w 8) (m := leBytes v.toNat 8) (off := 0) (n := 8)).trans
    (fieldAt_leBytes (by decide))
  simp only [length_leBytes, Nat.add_zero, pow_zero, Nat.div_one] at hhigh
  simp only [completionWords, hbit]
  generalize (if x.chead.toNat / x.entries % 2 = 0 then 2 ^ 31 else 0) = lap at hlap ⊢
  refine ⟨by simp, ?_, ?_, ?_, ?_, (hhigh _).trans (Nat.mod_eq_of_lt v.isLt)⟩
  · refine (hlow 0 1 (by decide) _).trans ?_
    omega
  · refine (hlow 1 1 (by decide) _).trans ?_
    omega
  · refine (hlow 2 2 (by decide) _).trans ?_
    omega
  · refine (hlow 4 4 (by decide) _).trans ?_
    omega

/-! The course of RECORD_END. -/

theorem lookup_of_find {α : Type} {d v : α} {k : Nat} {l : List (Nat × α)} (h : find k l = some v) : lookup d k l = v := by
  induction l with
  | nil => cases h
  | cons e l ih =>
    obtain ⟨j, u⟩ := e
    unfold find at h
    unfold lookup
    split at h
    next hj => rw [if_pos hj]; exact Option.some.inj h
    next hj => rw [if_neg hj]; exact ih h

/-- A record that has not been cleared away has ended. -/
def State.endDue (s : State) (rid : Nat) (r : Rec) : Bool :=
  !r.status.isNone || (decide (r.st = .running) && decide (0 < r.place.length)
    && ((List.range r.place.length).all fun n => r.ended.contains n) && !s.recordBusy rid
    && (r.endFault.map (·.1)) ≠ some Cause.cornice.code)

/-- The status that the end of a record reports. -/
def Rec.endStatus (r : Rec) : Nat := r.status.getD (if r.endFault.isSome then 2 else 0)

/-- Whether the end of a record counts at its signal. -/
def Rec.signals (r : Rec) : Bool := decide (r.endStatus = 0) || decide (r.endStatus = 2)

/-- The record is reported and cleared away. -/
def State.reported (s : State) (rid : Nat) (r : Rec) : State :=
  let s0 := if r.boot then s.installHandlers rid else s
  let s1 := s0.writeCompletion rid r.endStatus
  let s2 := if r.signals then s1.creditSignal r else s1
  ({ s2.freeCores rid with resvs := s2.resvs.filter fun e => decide (e.2.rid ≠ rid) } : State).fenceIdle

/-- The course of RECORD_END after the release. -/
def reportEnd (rid : Nat) (r : Rec) : Op Unit := do
  let page ← tryRun (completionPage r)
  if page = .parked then return
  let sig ← (if r.signals then tryRun (signalPages r) else pure .done)
  if sig = .parked then return
  set ((← get).reported rid r)

/-- The course of RECORD_END once no window is to be aborted. -/
def releaseEnd (rid : Nat) (byItself : Bool) : Op Unit := do
  let released ← (if byItself then tryRun (endRelease rid) else pure .done)
  if released = .parked then return
  reportEnd rid ((← get).recAt rid)

theorem recordEndBody_eq (rid : Nat) : recordEndBody rid = (do
    let s ← get
    let r ← dueSome (find rid s.recs)
    due (!r.closed)
    due (s.endDue rid r)
    if ← finishAborts ((← get).abortsOf rid) then return
    releaseEnd rid r.status.isNone) := rfl

section
variable {rid : Nat} {r : Rec} {s t : State}

theorem State.endDue_iff : s.endDue rid r = true ↔ r.status.isSome = true ∨ (r.st = .running ∧ 0 < r.place.length
    ∧ (∀ n, n < r.place.length → n ∈ r.ended) ∧ s.recordBusy rid = false
    ∧ r.endFault.map (·.1) ≠ some Cause.cornice.code) := by
  simp [State.endDue, and_assoc]

theorem exec_recordEnd_of {u : State} (h : recordEndBody rid s = .ok () u) : exec (.recordEnd rid) s = .next u := runEvent_ok h

/-- A record that is cleared away, or has not ended, stays as it is. -/
theorem exec_recordEnd_stays (h : ∀ r, find rid s.recs = some r → r.closed = true ∨ s.endDue rid r = false) :
    exec (.recordEnd rid) s = .next s := by
  have herr : recordEndBody rid s = .error .stutter s := by
    rw [recordEndBody_eq, Op.bind_ok (Op.get_run s)]
    cases hr : find rid s.recs with
    | none => exact Op.bind_error (dueSome_none rfl s)
    | some r =>
      rw [Op.bind_ok (dueSome_some rfl s)]
      cases hc : r.closed with
      | true => exact Op.bind_error (due_false rfl s)
      | false =>
        refine (Op.bind_ok (due_true rfl s)).trans ?_
        exact Op.bind_error (due_false ((h r hr).resolve_left (by simp [hc])) s)
  exact runEvent_stutter herr

section
variable (hr : find rid s.recs = some r) (hc : r.closed = false) (hd : s.endDue rid r = true)
include hr hc hd

theorem recordEndBody_aborts (ha : finishAborts (s.abortsOf rid) s = .ok true t) : recordEndBody rid s = .ok () t := by
  rw [recordEndBody_eq, Op.bind_ok (Op.get_run s), Op.bind_ok (dueSome_some hr s), Op.bind_ok (due_true (by rw [hc]; rfl) s),
    Op.bind_ok (due_true hd s), Op.bind_ok (Op.get_run s), Op.bind_ok ha]
  rfl

theorem recordEndBody_releases (ha : finishAborts (s.abortsOf rid) s = .ok false t) :
    recordEndBody rid s = releaseEnd rid r.status.isNone t := by
  rw [recordEndBody_eq, Op.bind_ok (Op.get_run s), Op.bind_ok (dueSome_some hr s), Op.bind_ok (due_true (by rw [hc]; rfl) s),
    Op.bind_ok (due_true hd s), Op.bind_ok (Op.get_run s), Op.bind_ok ha]
  rfl

end

/-- A record that ended otherwise has nothing to release. -/
theorem releaseEnd_other : releaseEnd rid false s = reportEnd rid (s.recAt rid) s := by
  rw [releaseEnd]
  rfl

theorem releaseEnd_self {n : Ran} (h : tryRun (endRelease rid) s = .ok n t) (hn : n ≠ .parked) :
    releaseEnd rid true s = reportEnd rid (t.recAt rid) t := by
  rw [releaseEnd, if_pos rfl, Op.bind_ok h, if_neg hn, Op.bind_ok (Op.get_run t)]

theorem reportEnd_run {n2 n3 : Ran} {s2 s3 : State} (hpage : tryRun (completionPage r) s = .ok n2 s2) (hn2 : n2 ≠ .parked)
    (hsig : if r.signals then tryRun (signalPages r) s2 = .ok n3 s3 ∧ n3 ≠ .parked else s3 = s2) :
    reportEnd rid r s = .ok () (s3.reported rid r) := by
  rw [reportEnd, Op.bind_ok hpage, if_neg hn2]
  cases hs : r.signals with
  | true =>
    rw [hs, if_pos rfl] at hsig
    rw [if_pos rfl, Op.bind_ok hsig.1, if_neg hsig.2]
    rfl
  | false =>
    rw [hs, if_neg (by decide)] at hsig
    rw [hsig]
    rfl

end

/-! The completion entry in the ring (R425). -/

theorem writeCompletion_writes {s : State} {rid q : Nat} (status : Nat) {x : Queue} (hq : (s.recAt rid).queue = some q)
    (hx : find q s.queues = some x) (hh : (s.recAt rid).fromHost = true) (hw : s.writable x.asid x.nextEntry 16 = true) :
    let r := s.recAt rid
    let t := s.writeCompletion rid status
    let f := if status = 2 then r.endFault else none
    t.heapBytes x.asid x.nextEntry 16 = completionWords x r.index status (if status = 1 then r.field else 0)
        ((f.map fun e => e.1.toNat).getD 0) ((f.map fun e => e.2).getD 0)
      ∧ (lookup {} q t.queues : Queue).chead = x.chead + 1 := by
  dsimp only
  generalize hbs : completionWords x (s.recAt rid).index status (if status = 1 then (s.recAt rid).field else 0) _ _ = bs
  have hlen : bs.length = 16 := hbs ▸ (completionWords_fields ..).1
  have ht : s.writeCompletion rid status = { s.putHeap x.asid x.nextEntry bs with
      queues := store q { x with chead := x.chead + 1 } (s.putHeap x.asid x.nextEntry bs).queues } := by
    simp only [State.writeCompletion, hq, hx, Option.bind_some, Option.map_some, hh, hw, hbs, Bool.not_true, Bool.false_eq_true,
      if_false, if_true]
  have hread := heapBytes_putHeap (s := s) (asid := x.asid) (va := x.nextEntry) (bs := bs) (by omega) (by omega) (by rw [hlen]; exact hw)
  rw [hlen] at hread
  rw [ht]
  refine ⟨hread, ?_⟩
  rw [lookup_store_self]

/-! The cores of a record that has ended. -/

theorem State.coreAt_clearPad (s : State) (key n x : Nat) : (s.clearPad key n).coreAt x = s.coreAt x := rfl

/-- A core of the record is free again. -/
def State.freeCore (s : State) (x : Nat) : State := (s.setCore x (s.coreAt x).bare).clearPad (corePadKey x) padTop

theorem State.recId_freeCore {s : State} {x y : Nat} (h : x = y ∨ (s.coreAt x).recId = none) :
    ((s.freeCore y).coreAt x).recId = none := by
  rw [State.freeCore, State.coreAt_clearPad]
  by_cases hxy : x = y
  · rw [hxy, State.coreAt_setCore_self]
    rfl
  · rw [State.coreAt_setCore_ne _ hxy]
    exact h.resolve_left hxy

theorem State.recId_freedCores {x : Nat} (l : List Nat) {s : State} (h : x ∈ l ∨ (s.coreAt x).recId = none) :
    ((l.foldl State.freeCore s).coreAt x).recId = none := by
  induction l generalizing s with
  | nil => exact h.resolve_left List.not_mem_nil
  | cons y l ih =>
    refine ih ?_
    rcases h with h | h
    · rcases List.mem_cons.1 h with h | h
      · exact .inr (State.recId_freeCore (.inl h))
      · exact .inl h
    · exact .inr (State.recId_freeCore (.inr h))

theorem State.coreAt_clearPads (l : List (Nat × Nat)) (s : State) (x : Nat) :
    (l.foldl (fun (t : State) a => t.clearPad a.1 a.2) s).coreAt x = s.coreAt x := by
  induction l generalizing s with
  | nil => rfl
  | cons a l ih => exact (ih _).trans (State.coreAt_clearPad ..)

theorem State.coreAt_countServed (s : State) (rid x : Nat) : (s.countServed rid).coreAt x = s.coreAt x := by
  unfold State.countServed
  dsimp only
  split
  · rfl
  · rfl

/-- The state of a record whose cores have been freed, before the record itself is cleared. -/
def State.freedCores (s : State) (rid : Nat) : State :=
  (((s.recAt rid).areaKeys.foldl (fun (t : State) a => t.clearPad a.1 a.2)
    (((s.recAt rid).place.filter fun x => decide ((s.coreAt x).recId = some rid)).foldl State.freeCore s)).countServed rid)

theorem State.freeCores_eq (s : State) (rid : Nat) : ∃ (as : List (Nat × AsidSt)) (y : Rec), y.closed = true ∧ y.st = .ended
    ∧ s.freeCores rid = ({ s.freedCores rid with asids := as } : State).setRec rid y :=
  ⟨_, _, rfl, rfl, rfl⟩

theorem freeCores_frees {s : State} {rid x : Nat} (hx : x ∈ (s.recAt rid).place) (hr : (s.coreAt x).recId = some rid) :
    ((s.freeCores rid).coreAt x).recId = none ∧ ((s.freeCores rid).recAt rid).closed = true
    ∧ ((s.freeCores rid).recAt rid).st = .ended := by
  obtain ⟨as, y, hclosed, hended, h⟩ := s.freeCores_eq rid
  have hrec : (s.freeCores rid).recAt rid = y := by
    rw [h]
    exact lookup_store_self ..
  have hcore : (s.freeCores rid).coreAt x = (s.freedCores rid).coreAt x := by
    rw [h]
    rfl
  refine ⟨?_, hrec ▸ hclosed, hrec ▸ hended⟩
  rw [hcore, State.freedCores, State.coreAt_countServed, State.coreAt_clearPads]
  exact State.recId_freedCores _ (.inl (List.mem_filter.2 ⟨hx, decide_eq_true hr⟩))

/-! The start of a core (R117), clause by clause. -/

theorem startCore_starts (s : State) (rid lc : Nat) :
    let r := s.recAt rid
    let site := r.place.getD lc 0
    let t := s.startCore rid lc
    let c := t.coreAt site
    let x := c.ctxAt 0
    c.recId = some rid ∧ x.st = .ready ∧ x.pc = BitVec.ofNat 64 r.l.entry ∧ x.level = BitVec.ofNat 3 r.l.domain
      ∧ x.jobseed = r.l.seed ∧ x.codeptr = r.l.code ∧ x.lcore = BitVec.ofNat 13 lc ∧ x.priv = r.boot
      ∧ x.sreg 2 = (coreShare r.l r.place lc).1 ∧ x.sreg 3 = BitVec.ofNat 64 (coreShare r.l r.place lc).2
      ∧ x.sreg 4 = BitVec.ofNat 64 (lc / r.l.cores) ∧ x.sreg 5 = BitVec.ofNat 64 (lc % r.l.cores)
      ∧ x.sreg 6 = BitVec.ofNat 64 r.l.cores
      ∧ (∀ n, n < 32 → n < 2 ∨ 6 < n → x.sreg n = 0)
      ∧ x.areg 0 = { ptr := r.l.arg } ∧ x.areg 15 = { ptr := mkPtr 0 3 (lc * 2 ^ 40) }
      ∧ (∀ n, 1 ≤ n → n < 15 → x.areg n = {}) ∧ (∀ n, 1 ≤ n → n < 8 → x.preg n = 0)
      ∧ (∀ n, 1 ≤ n → n ≤ 10 → (c.ctxAt n).st = .free) ∧ (∀ n, n < 32 → c.vreg n = 0) ∧ c.tshadow = false ∧ c.ie = true
      ∧ (t.mem.hdr (corePadKey site)).len = 8192 ∧ (t.mem.hdr (corePadKey site)).root = true
      ∧ (∀ n, n ≠ site → t.coreAt n = s.coreAt n)
      ∧ (∀ a, corePadKey site + 32 ≤ a → a < corePadKey site + padTop → t.mem.byte a = 0)
      ∧ ∀ a, (a < corePadKey site ∨ corePadKey site + padTop ≤ a) → t.mem.byte a = s.mem.byte a := by
  dsimp only
  generalize hs : (s.recAt rid).place.getD lc 0 = site
  have hcore := State.startCore_core hs
  have hhdr := State.startCore_hdr hs
  obtain ⟨h2, h3, h4, h5, h6⟩ := startContext_s (s.recAt rid) lc (mkPtr 0 3 (lc * 2 ^ 40))
  obtain ⟨ha0, ha15, ha⟩ := startContext_a (s.recAt rid) lc (mkPtr 0 3 (lc * 2 ^ 40))
  have hbyte := State.startCore_byte hs
  rw [hcore, Core.started_ctxAt, hhdr]
  refine ⟨rfl, rfl, rfl, rfl, rfl, rfl, rfl, rfl, h2, h3, h4, h5, h6, fun n => startContext_s_zero _ _ _, ha0, ha15, ha,
    fun n h1 _ => startContext_p _ _ _ h1, fun n h1 h10 => Core.started_helper _ _ _ _ _ h1 h10,
    fun n _ => Core.started_vreg .., rfl, rfl, by decide, by decide, fun n => State.startCore_other hs, fun a h32 htop => ?_, fun a h => ?_⟩
  · rw [hbyte a (.inr h32), if_pos (by simp [within]; omega)]
  · rw [hbyte a (h.imp_right fun h => by unfold padTop at h; omega), if_neg (by simp [within]; omega)]

theorem State.endDue_of {s : State} {rid : Nat} {r : Rec} (hr : find rid s.recs = some r)
    (h : r.status.isSome = true ∨ s.endsByItself rid) : s.endDue rid r = true := by
  refine State.endDue_iff.2 (h.imp_right fun h => ?_)
  have hrec : s.recAt rid = r := lookup_of_find hr
  rw [State.endsByItself, hrec] at h
  exact h.2

/-- Settles O45: the start of a core is read off its pad and its context; the end of a record is run part by part. -/
theorem recordStartAndEnd : Obligations.RecordStartAndEnd := by
  refine ⟨fun s rid lc _ => startCore_starts s rid lc, completionWords_fields, ?_, ?_, ?_,
    fun s rid x q status hq hx hh hw => writeCompletion_writes status hq hx hh hw, fun s rid x => freeCores_frees⟩
  · intro rid s h
    refine exec_recordEnd_stays fun r hr => (h r hr).imp_right fun h => ?_
    refine Bool.eq_false_iff.2 fun hd => ?_
    rw [State.endDue_iff] at hd
    rcases h with ⟨hst, hrun⟩ | ⟨hst, hbusy⟩ | ⟨hst, n, hn, hmem⟩
    · simp [hst, hrun] at hd
    · simp [hst, hbusy] at hd
    · rcases hd with hd | ⟨-, -, hall, -⟩
      · simp [hst] at hd
      · exact hmem (hall n hn)
  · intro rid r s t hr hc hend ha
    exact exec_recordEnd_of (recordEndBody_aborts hr hc (State.endDue_of hr hend) ha)
  · intro rid r s s0 s1 s2 s3 n1 n2 n3 hr hc ha hrel q status signals hpage hn2 hsig
    have hend : r.status.isSome = true ∨ s.endsByItself rid := hrel.imp And.left And.left
    have hrelease : releaseEnd rid r.status.isNone s0 = reportEnd rid q s1 := by
      rcases hrel with ⟨hst, rfl⟩ | ⟨hself, hrun, hn1⟩
      · have hnone : r.status.isNone = false := Option.isNone_eq_false_iff.2 hst
        rw [hnone]
        exact releaseEnd_other
      · have hrec : s.recAt rid = r := lookup_of_find hr
        rw [State.endsByItself, hrec] at hself
        rw [hself.1]
        exact releaseEnd_self hrun hn1
    exact exec_recordEnd_of ((recordEndBody_releases hr hc (State.endDue_of hr hend) ha).trans
      (hrelease.trans (reportEnd_run hpage hn2 hsig)))

end Sys2Proof.Machine
end

section
/-! SUPPORT. How an instruction ends whose effect has made a state on its way. -/

namespace Sys2Proof.Machine

theorem waitHere_run {α : Type} (s : State) : (waitHere : Op α) s = .error .wait s := rfl

/-- An instruction whose effect traps from a state `t` that it has made. -/
theorem runInstr_of_traps {i : Instr} {body : Op Unit} {s t : State} {c : Cause} {v : Word} (hw : i.wf = true)
    (hu : s.hasUnit i = true) (hb : traps i body s c v t) : runInstr i body s = .next (t.trapHere c.code v c.async) :=
  (runInstr_trap hw hu hb rfl).trans rfl

/-- An instruction whose effect writes one `s` register of a state `t` that it has made. -/
theorem runInstr_gives_of_leads {i : Instr} {body : Op Unit} {s t : State} {d : BitVec 5} {v : Word} (hw : i.wf = true)
    (hi : s.hasUnit i = true) (hb : body (s.starts i) = .ok () ((t.starts i).setCtx (t.ctx.setS d.toNat v))) (hf : t.calm = true) :
    runInstr i body s = .next (t.gives d v) :=
  runInstr_gives_from (w := t) hw hi hb rfl rfl hf

/-- An instruction that waits with nothing done. -/
theorem runInstr_waits {i : Instr} {body : Op Unit} {s t : State} (hw : i.wf = true) (hi : s.hasUnit i = true)
    (hb : body (s.starts i) = .error .wait t) : runInstr i body s = .next (s.waits (s.starts i).tx) := by
  rw [runInstr_eq i body s hw hi, withRoom_error hb (by simp)]
  rfl

end Sys2Proof.Machine
end

section
/-! SUPPORT. An object of the core's own pad (R123, R125, R130), and the instructions that read a pointer register
    (R143, R146, R147). -/

namespace Sys2Proof.Machine

/-! What the statements' `ownObject` says. -/

/-- A register that names an object of the executing core's own pad: the object's key, and what lets a touch leave it there. -/
theorem State.ownObject_spec {s : State} {r k : Nat} (h : s.ownObject r = some k) :
    ptrLevel (s.ctx.areg r).ptr = 3 ∧ ptrLoc (s.ctx.areg r).ptr % 2 ^ 40 < padTop
      ∧ ptrTag (s.ctx.areg r).ptr = (s.core.ctxAt 0).lcore.toNat ∧ k = corePadKey s.site + ptrLoc (s.ctx.areg r).ptr % 2 ^ 40
      ∧ k ∈ s.core.pad.hdrs ∧ (s.mem.hdr k).forward = false ∧ (s.ctx.areg r).sh.valid = true := by
  rw [State.ownObject] at h
  split at h
  next hown =>
    obtain ⟨hlevel, hoff, htag, hmem, hforward, hvalid⟩ := hown
    cases h
    exact ⟨hlevel, hoff, htag, rfl, hmem, hforward, hvalid⟩
  · cases h

/-- A header begins where a pointer into the own pad names it (R124). -/
theorem State.padFind_own {s : State} {p : Word} (hlevel : ptrLevel p = 3) (hoff : ptrLoc p % 2 ^ 40 < padTop)
    (htag : ptrTag p = (s.core.ctxAt 0).lcore.toNat) (hmem : corePadKey s.site + ptrLoc p % 2 ^ 40 ∈ s.core.pad.hdrs) :
    s.padFind p = some (corePadKey s.site + ptrLoc p % 2 ^ 40) := by
  have hres : ¬ (decide (ptrLevel p = 3) && decide (padTop ≤ ptrLoc p % 2 ^ 40) && decide (ptrLoc p % 2 ^ 40 < 2 ^ 18)) = true := by
    rw [decide_eq_false (Nat.not_le.2 hoff), Bool.and_false, Bool.false_and]
    exact Bool.false_ne_true
  rw [State.padFind, if_neg hres, if_pos (by simp [hlevel, htag]), if_pos (List.contains_iff_mem.2 hmem)]

theorem State.padFind_of_ownObject {s : State} {r k : Nat} (h : s.ownObject r = some k) : s.padFind (s.ctx.areg r).ptr
    = some k := by
  obtain ⟨hlevel, hoff, htag, rfl, hmem, -, -⟩ := State.ownObject_spec h
  exact State.padFind_own hlevel hoff htag hmem

theorem site_of_corePadKey {site off : Nat} (h : off < padTop) : (corePadKey site + off - 2 ^ 60) / 2 ^ 18 = site := by
  have hkey : corePadKey site = 2 ^ 60 + site * 2 ^ 18 := rfl
  have htop : padTop = 229376 := rfl
  omega

theorem padLoc_run {p q : Word} {s : State} {k : Nat} (h : s.padFind q = some k) : padLoc p q s = .ok k s := by
  rw [padLoc, Op.bind_ok (Op.get_run s), h]
  rfl

/-! A touch (R130). -/

theorem touch_null {r : Nat} {s : State} (h : ptrLevel (s.ctx.areg r).ptr = 7) :
    touch r s = .error (.trap .nullptr (s.ctx.areg r).ptr) s := by
  rw [touch, Op.bind_ok (rdA_run r s), if_pos h]
  rfl

/-- An object of the own pad that has not moved away stays where it is, and its shadow is valid already. -/
theorem touch_own {r k : Nat} {s : State} (h : s.ownObject r = some k) : touch r s = .ok (some (.pad k)) s := by
  have hfind := State.padFind_of_ownObject h
  obtain ⟨hlevel, hoff, -, hk, -, hforward, hvalid⟩ := State.ownObject_spec h
  have hsite : (k - 2 ^ 60) / 2 ^ 18 = s.site := hk ▸ site_of_corePadKey hoff
  rw [touch, Op.bind_ok (rdA_run r s), if_neg (by omega), if_neg (by omega), if_pos hlevel]
  refine (Op.bind_ok (padLoc_run hfind)).trans ((Op.bind_ok (Op.get_run s)).trans ?_)
  rw [if_neg (not_not.2 hsite), if_neg (by simp [hforward])]
  refine (Op.bind_ok (rdA_run r s)).trans ?_
  rw [hvalid]
  rfl

/-! The instructions. -/

theorem exec_touch_null {d : BitVec 5} {a : BitVec 4} {s : State} (h : ptrLevel (s.ctx.areg a.toNat).ptr = 7) :
    exec (.touch d a) s = .next (s.trapHere Cause.nullptr.code (s.ctx.areg a.toNat).ptr false) :=
  runInstr_trapHere rfl (hasUnit_of_plain rfl rfl s) (Op.bind_error (touch_null (s := s.starts _) h))

theorem exec_touch_own {d : BitVec 5} {a : BitVec 4} {s : State} (h : (s.ownObject a.toNat).isSome = true) (hd : plain d = true)
    (hf : s.calm = true) : exec (.touch d a) s = .next (s.gives d 3) := by
  obtain ⟨k, hk⟩ := Option.isSome_iff_exists.1 h
  have hlevel := (State.ownObject_spec hk).1
  refine runInstr_gives rfl (hasUnit_of_plain rfl rfl s) hf ((Op.bind_ok (touch_own (s := s.starts _) hk)).trans ?_)
  rw [Op.bind_ok (rdA_run ..), wrNat, wrS_plain hd, State.starts_ctx, hlevel]
  rfl

/-- A cursor is set where it fits 32 bits, and else raises BOUNDS (R146). -/
theorem setCursor_run (d a : BitVec 4) (k : Int) (s : State) : setCursor d a k s = if 0 ≤ k ∧ k < 2 ^ 32 then
    .ok () (s.setCtx (s.ctx.setA d.toNat { s.ctx.areg a.toNat with cur := BitVec.ofInt 32 k }))
    else .error (.trap .bounds (BitVec.ofInt 64 k)) s := by
  have hfit : (decide (0 ≤ k) && decide (k < 2 ^ 32)) = decide (0 ≤ k ∧ k < 2 ^ 32) := by simp
  rw [setCursor, Op.bind_run, require_run, hfit]
  by_cases h : 0 ≤ k ∧ k < 2 ^ 32
  · rw [if_pos h, if_pos (decide_eq_true h)]
    rfl
  · rw [if_neg h, if_neg (by simpa using h)]
    rfl

/-- An instruction that sets a cursor. -/
theorem runInstr_setCursor {i : Instr} {body : Op Unit} {s : State} {d a : BitVec 4} {k : Int} (hw : i.wf = true)
    (hu : s.hasUnit i = true) (hf : s.calm = true) (hb : body (s.starts i) = setCursor d a k (s.starts i)) :
    runInstr i body s = .next (if 0 ≤ k ∧ k < 2 ^ 32 then
      s.becomes (s.ctx.setA d.toNat { s.ctx.areg a.toNat with cur := BitVec.ofInt 32 k })
      else s.trapHere Cause.bounds.code (BitVec.ofInt 64 k) false) := by
  rw [setCursor_run] at hb
  split
  next h =>
    rw [if_pos h] at hb
    exact runInstr_becomes hw hu hf hb
  next h =>
    rw [if_neg h] at hb
    exact runInstr_trapHere hw hu hb

theorem exec_acurSet {d a : BitVec 4} {b : BitVec 5} {s : State} (hb : plain b = true) (hf : s.calm = true) :
    exec (.acurSet d a b) s = .next (if (s.src b).toNat < 2 ^ 32 then
      s.becomes (s.ctx.setA d.toNat { s.ctx.areg a.toNat with cur := (s.src b).setWidth 32 })
      else s.trapHere Cause.bounds.code (s.src b) false) := by
  have hfit : (0 ≤ ((s.src b).toNat : Int) ∧ ((s.src b).toNat : Int) < 2 ^ 32) ↔ (s.src b).toNat < 2 ^ 32 := by omega
  have hcur : BitVec.ofInt 32 (s.src b).toNat = (s.src b).setWidth 32 := by rw [BitVec.ofInt_natCast, BitVec.ofNat_toNat]
  have hval : BitVec.ofInt 64 (s.src b).toNat = s.src b := by rw [BitVec.ofInt_natCast, BitVec.ofNat_toNat, BitVec.setWidth_eq]
  have hset : exec (.acurSet d a b) s = _ := runInstr_setCursor (i := .acurSet d a b) (d := d) (a := a) (k := (s.src b).toNat) rfl
    (hasUnit_of_plain rfl rfl s) hf (Op.bind_ok (rdS_plain hb (s.starts (.acurSet d a b))))
  rw [hset, hcur, hval]
  simp only [hfit]

theorem exec_acurAdd {d a : BitVec 4} {b : BitVec 5} {s : State} (hb : plain b = true) (hf : s.calm = true) :
    exec (.acurAdd d a b) s = .next (if 0 ≤ ((s.ctx.areg a.toNat).cur.toNat : Int) + (s.src b).toInt
        ∧ ((s.ctx.areg a.toNat).cur.toNat : Int) + (s.src b).toInt < 2 ^ 32 then
      s.becomes (s.ctx.setA d.toNat { s.ctx.areg a.toNat with
        cur := BitVec.ofInt 32 (((s.ctx.areg a.toNat).cur.toNat : Int) + (s.src b).toInt) })
      else s.trapHere Cause.bounds.code (BitVec.ofInt 64 (((s.ctx.areg a.toNat).cur.toNat : Int) + (s.src b).toInt)) false) :=
  runInstr_setCursor rfl (hasUnit_of_plain rfl rfl s) hf ((Op.bind_ok (rdS_plain hb (s.starts (.acurAdd d a b)))).trans
    (Op.bind_ok (rdA_run ..)))

/-- A valid shadow needs no touch (R125). -/
theorem shadowOf_valid {r : Nat} {s : State} (h : (s.ctx.areg r).sh.valid = true) : shadowOf r s = .ok (s.ctx.areg r).sh s := by
  rw [shadowOf, Op.bind_ok (rdA_run r s), if_neg (by simp [h])]
  rfl

theorem exec_olen {d : BitVec 5} {a : BitVec 4} {sel : BitVec 2} {s : State} (hv : (s.ctx.areg a.toNat).sh.valid = true)
    (hsel : sel ≠ 3)
    (hd : plain d = true) (hf : s.calm = true) : exec (.olen d a sel) s = .next (s.gives d
      (if sel = 0 then (s.ctx.areg a.toNat).sh.len.setWidth 64 else if sel = 1 then (s.ctx.areg a.toNat).cur.setWidth 64
        else BitVec.ofNat 64 (scaleBytes (s.ctx.areg a.toNat).sh.fmt.toNat (s.ctx.areg a.toNat).sh.blog.toNat
          (s.ctx.areg a.toNat).sh.len.toNat))) := by
  have hwf : (Instr.olen d a sel).wf = true := decide_eq_true fun h => hsel (BitVec.eq_of_toNat_eq h)
  refine runInstr_gives hwf (hasUnit_of_plain rfl rfl s) hf ((Op.bind_ok (shadowOf_valid (s := s.starts _) hv)).trans ?_)
  rw [Op.bind_ok (rdA_run ..), wrNat, wrS_plain hd]
  by_cases h0 : sel = 0
  · rw [if_pos h0, if_pos h0, BitVec.ofNat_toNat]
    rfl
  · by_cases h1 : sel = 1
    · rw [if_neg h0, if_neg h0, if_pos h1, if_pos h1, BitVec.ofNat_toNat]
      rfl
    · rw [if_neg h0, if_neg h0, if_neg h1, if_neg h1]
      rfl

theorem exec_otype {d : BitVec 5} {a : BitVec 4} {s : State} (hv : (s.ctx.areg a.toNat).sh.valid = true) (hd : plain d = true)
    (hf : s.calm = true) : exec (.otype d a) s = .next (s.gives d (BitVec.ofNat 64 ((s.ctx.areg a.toNat).sh.typ.toNat
      + 2 ^ 8 * (s.ctx.areg a.toNat).sh.fmt.toNat + 2 ^ 13 * (s.ctx.areg a.toNat).sh.blog.toNat
      + 2 ^ 16 * ptrLevel (s.ctx.areg a.toNat).ptr + 2 ^ 19 * (s.ctx.areg a.toNat).sh.flags.toNat))) := by
  refine runInstr_gives rfl (hasUnit_of_plain rfl rfl s) hf ((Op.bind_ok (shadowOf_valid (s := s.starts _) hv)).trans ?_)
  rw [Op.bind_ok (rdA_run ..), wrNat, wrS_plain hd, State.starts_ctx]
  have hsum : ∀ t f b l g : Nat, g * 2 ^ 19 + l * 2 ^ 16 + b * 2 ^ 13 + f * 2 ^ 8 + t
      = t + 2 ^ 8 * f + 2 ^ 13 * b + 2 ^ 16 * l + 2 ^ 19 * g := by omega
  rw [hsum]

/-- Settles O7: each instruction is run on its register, and the touch of an object of the own pad by `touch_own`. -/
theorem pointerResults : Obligations.PointerResults :=
  ⟨fun i _ _ s h => touch_own (s := s.starts i) h, fun _ _ _ h hd hf => exec_touch_own h hd hf, fun _ _ _ h => exec_touch_null h,
    fun _ _ _ _ hb hf => exec_acurSet hb hf, fun _ _ _ _ hb hf => exec_acurAdd hb hf,
    fun _ _ _ _ hv hsel hd hf => exec_olen hv hsel hd hf, fun _ _ _ hv hd hf => exec_otype hv hd hf⟩

end Sys2Proof.Machine
end

section
/-! SUPPORT. Changes that stores make, and instructions that end with WATCH (R37, R140). -/

namespace Sys2Proof.Machine

/-! What passes by what the instruction under way has noted. -/

namespace PassesBy

/-- A change of the state that leaves its cores and what is noted. -/
theorem of_parts {f : State → State} (hn : ∀ (s : State) x, f (s.noting x) = (f s).noting x) (hs : ∀ s, (f s).site = s.site)
    (hc : ∀ s, (f s).cores = s.cores) : PassesBy f :=
  ⟨hn, fun s => .of_core (hs s) (by rw [State.core, State.coreAt, hs, hc]; rfl)⟩

theorem noteOld (l : Loc) (off n : Nat) : PassesBy (State.noteOld · l off n) := by
  refine .choose fun s => ?_
  by_cases h : s.engineBusy = true
  · exact ⟨fun t => { t with olds := { v := l, off := off, bytes := s.bodyBytes l off n } :: t.olds },
      .of_parts (fun _ _ => rfl) (fun _ => rfl) (fun _ => rfl), fun x => if_pos h⟩
  · exact ⟨fun t => t, .id, fun x => if_neg h⟩

theorem markDirty (key n : Nat) : PassesBy (State.markDirty · key n) := .of_parts (fun _ _ => rfl) (fun _ => rfl) (fun _ => rfl)

theorem putPad (k off : Nat) (bs : List Byte) : PassesBy (State.putPad · k off bs) :=
  .comp (markDirty (k + 32 + off) bs.length)
    (.of_writesMemory (.comp (.markUnits (k + 32 + off) bs.length) (.putBody (.pad k) off bs)))

theorem putObj (l : Loc) (off : Nat) (bs : List Byte) : PassesBy (State.putObj · l off bs) := by
  cases l with
  | pad k => exact .comp (putPad k off bs) (noteOld (.pad k) off bs.length)
  | heap asid va => exact .comp (.of_writesMemory (.putBody (.heap asid va) off bs)) (noteOld (.heap asid va) off bs.length)

end PassesBy

theorem State.noted_follows (s : State) (flags draws : Nat) : (s.noted flags draws).Follows s := .setCtx s _

/-! How an instruction ends that writes an object. -/

/-- An instruction retires from a state that its effect has made on the way from `w`. -/
theorem runInstr_retires_via {i : Instr} {body : Op Unit} {s u w : State} (hw : i.wf = true) (hi : s.hasUnit i = true)
    (hb : body (s.starts i) = .ok () (u.noting (w.starts i).tx)) (hu : u.Follows w) (hf : w.calm = true) :
    runInstr i body s = .next u.retires := by
  rw [runInstr_ok hw hi hb (w.starts_quiet i) hu.dbgctl.symm (hu.calm.trans hf), State.retiresTo_noting]
  rfl

/-- After a write of the watched object the instruction retires, and then WATCH is taken (R140, R391). -/
def State.watchTaken (w : State) (canon : Word) (pfx : Bool) : State :=
  w.enterTrap w.site w.core.act Cause.watch.code canon w.ctx.pc false pfx

/-- The note of a write of the watched object. -/
def State.noteWatched (s : State) (canon : Word) : State := s.noting { s.tx with watch := some canon }

theorem noteWatch_run (canon : Word) (s : State) :
    noteWatch canon s = .ok () (if s.watches canon then s.noteWatched canon else s) := by
  rw [noteWatch, Op.bind_ok (Op.get_run s)]
  by_cases h : s.watches canon = true
  · rw [if_pos h]
    exact (congrFun (if_pos h : _ = (modTx fun t => { t with watch := some canon })) s).trans rfl
  · rw [if_neg h]
    exact (congrFun (if_neg h : _ = (pure () : Op Unit)) s).trans rfl

theorem runInstr_watch {i : Instr} {body : Op Unit} {s u w : State} {canon : Word} (hw : i.wf = true) (hi : s.hasUnit i = true)
    (hl : u.Listed) (hb : body (s.starts i) = .ok () ((u.noting (w.starts i).tx).noteWatched canon)) :
    runInstr i body s = .next (u.retires.watchTaken canon (decide (s.ctx.pfx ≠ .none))) := by
  have hported : u.ported { (w.starts i).tx with watch := some canon } = u :=
    (State.ported_quiet (s := u) (w.starts_quiet i)).trans hl.setCtx_ctx
  have hcommit : ((u.noting (w.starts i).tx).noteWatched canon).commitPorts = u.offLines := by
    refine (State.commitPorts_noting u { (w.starts i).tx with watch := some canon } rfl ?_).trans (by rw [hported])
    rw [hported]
    exact .refl u
  rw [runInstr_eq i body s hw hi, withRoom_ok hb]
  simp only [finish, State.complete, State.retire_of_commitPorts hcommit]
  rfl

/-! The bytes of a pad that a store writes. -/

theorem getElem_leBytes {v n i : Nat} (h : i < (leBytes v n).length) : (leBytes v n)[i] = BitVec.ofNat 8 (v / 256 ^ i) := by
  induction n generalizing v i with
  | zero => cases h
  | succ n ih =>
    cases i with
    | zero => simp [leBytes]
    | succ i =>
      have hi : i < (leBytes (v / 256) n).length := by
        rw [length_leBytes] at h ⊢
        omega
      have hstep := ih hi
      rw [Nat.div_div_eq_div_mul, ← pow_succ'] at hstep
      exact hstep

/-- A byte of the object is that of the number written, and every other byte is as it was. -/
theorem byte_putObj_pad (s : State) (k off n v a : Nat) : (s.putObj (.pad k) off (leBytes v n)).mem.byte a
    = if k + 32 + off ≤ a ∧ a < k + 32 + off + n then BitVec.ofNat 8 (v / 256 ^ (a - (k + 32 + off))) else s.mem.byte a := by
  have hmem : (s.putObj (.pad k) off (leBytes v n)).mem = s.mem.setBytes (k + 32 + off) (leBytes v n) := by
    have hold : (s.noteOld (.pad k) off (leBytes v n).length).mem = s.mem := by
      unfold State.noteOld
      split
      · rfl
      · rfl
    have hunits : ∀ t : State, (t.markUnits (k + 32 + off) (leBytes v n).length).mem = t.mem := by
      intro t
      unfold State.markUnits
      split
      · rfl
      · rfl
    exact (hunits _).trans (congrArg (Mem.setBytes · (k + 32 + off) (leBytes v n)) hold)
  rw [hmem]
  split
  next h =>
    obtain ⟨i, rfl⟩ := Nat.exists_eq_add_of_le h.1
    have hi : i < (leBytes v n).length := by
      rw [length_leBytes]
      omega
    rw [Mem.byte_setBytes_inside _ hi, getElem_leBytes, Nat.add_sub_cancel_left]
  next h => exact Mem.byte_setBytes_outside _ (by rw [length_leBytes]; omega)

end Sys2Proof.Machine
end

section
/-! SUPPORT. Accesses to the elements of an object (R137): the offset, the touch, and the checks in order; `ld` (R138). -/

namespace Sys2Proof.Machine

/-! The offset (R44, R137). -/

theorem dispField_run (i : BitVec 10) (s : State) : dispField i s = .ok (s.ctx.disp i) s := by
  have hlong : ∀ p : BitVec 24, signExt 34 (p.toNat * 1024 + i.toNat) = (p ++ i).toInt := by
    intro p
    have happ : (p ++ i).toNat = p.toNat * 1024 + i.toNat := by
      rw [BitVec.toNat_append, ← Nat.shiftLeft_add_eq_or_of_lt i.isLt, Nat.shiftLeft_eq]
    rw [← happ, signExt_eq_toInt (by decide)]
  simp only [dispField, getCtx, Op.bind_run, Op.get_run, Op.pure_run, Context.disp]
  generalize s.ctx.pfx = x
  cases x with
  | imm p => exact congrArg (EStateM.Result.ok · s) (hlong p)
  | _ => exact congrArg (EStateM.Result.ok · s) (signExt_eq_toInt (by decide) i)

theorem accessOffset_run {x : BitVec 5} (hx : plain x = true) (p : BitVec 4) (i : BitVec 10) (n : Nat) (s : State) :
    accessOffset p.toNat x i n s = .ok (s.accessAt p x i n) s := by
  rw [accessOffset, Op.bind_ok (rdS_plain hx s), Op.bind_ok (dispField_run i s), Op.bind_ok (rdA_run ..)]
  rfl

/-! The checks. -/

/-- What stands after a check is reached only past it. -/
theorem require_then {P : Prop} [Decidable P] {b : Bool} (hb : b = true ↔ ¬ P) (c : Cause) (v : Word) (m : Op Unit) (s : State) :
    (require b c v >>= fun _ => m) s = if P then .error (.trap c v) s else m s := by
  by_cases h : P
  · rw [if_pos h]
    exact Op.bind_error (require_false (Bool.eq_false_iff.2 fun ht => hb.1 ht h) c v s)
  · rw [if_neg h]
    exact Op.bind_ok (require_true (hb.2 h) c v s)

/-- The checks of R137 in their order: the first that fails traps. -/
theorem accessChecks_run (r : Nat) (l : Loc) (kind : ObjAccess) (size : Nat) (off : Int) (s : State) :
    accessChecks r l kind size off s = match s.accessFault r l kind size off with
      | some (c, v) => .error (.trap c v) s
      | none => awaitReds l off.toNat (2 ^ size) s := by
  have hallowed : allowed (s.ctx.areg r).sh.typ.toNat kind s
      = .ok (typeAllows (s.ctx.areg r).sh.typ.toNat kind (s.core.inMiss || s.core.isPriv) s.core.isPriv) s := rfl
  rw [accessChecks, Op.bind_ok (rdA_run r s), Op.bind_ok hallowed, State.accessFault]
  refine (require_then (b := _) (P := (!_) = true) (by rw [Bool.not_eq_true', Bool.not_eq_false]) ..).trans ?_
  generalize (!_ : Bool) = badType
  generalize (if kind = .ld then readLen _ _ else _ : Nat) = len
  cases badType with
  | true => rfl
  | false =>
    refine (require_then (P := off < 0 ∨ (len : Int) < off + (2 ^ size : Nat)) (by simp) ..).trans ?_
    by_cases hb : off < 0 ∨ (len : Int) < off + (2 ^ size : Nat)
    · simp only [if_pos hb]
      rfl
    · simp only [if_neg hb]
      refine (require_then (P := off % (2 ^ size : Nat) ≠ 0) (by simp) ..).trans ?_
      by_cases ha : off % (2 ^ size : Nat) ≠ 0
      · simp only [if_pos ha]
        rfl
      · simp only [if_neg ha]
        refine (Op.bind_ok (Op.get_run s)).trans ((require_then (P := s.readPoisoned s.me l off.toNat (2 ^ size) = true)
            (by simp) ..).trans ?_)
        by_cases hp : s.readPoisoned s.me l off.toNat (2 ^ size) = true
        · simp only [if_pos hp]
          rfl
        · simp only [if_neg hp]
          rfl

/-- The course of an access: the offset, what is read before the touch, the touch, the checks, and what is done at the place. -/
def access {α : Type} (p : BitVec 4) (x : BitVec 5) (i : BitVec 10) (n size : Nat) (kind : ObjAccess) (before : Op α)
    (act : α → Int → Loc → Op Unit) : Op Unit := do
  let off ← accessOffset p.toNat x i n
  let w ← before
  let l ← touchBody p.toNat off
  accessChecks p.toNat l kind size off
  act w off l

section
variable {α : Type} {p : BitVec 4} {x : BitVec 5} {i : BitVec 10} {n size : Nat} {kind : ObjAccess} {before : Op α}
  {act : α → Int → Loc → Op Unit} {s t : State} {w : α} (hx : plain x = true) (hbefore : before s = .ok w s)
include hx hbefore

theorem access_touches : access p x i n size kind before act s = (touchBody p.toNat (s.accessAt p x i n) >>= fun l =>
    accessChecks p.toNat l kind size (s.accessAt p x i n) >>= fun _ => act w (s.accessAt p x i n) l) s := by
  rw [access, Op.bind_ok (accessOffset_run hx p i n s), Op.bind_ok hbefore]

/-- A body that no pad takes raises TYPE with the offset (R136). -/
theorem access_big (ht : touch p.toNat s = .ok none t) : access p x i n size kind before act s
    = .error (.trap .type (BitVec.ofInt 64 (s.accessAt p x i n))) t := by
  rw [access_touches hx hbefore, Op.bind_error (touchBody_none ht)]

variable {l : Loc} (ht : touch p.toNat s = .ok (some l) t)
include ht

theorem access_faults {c : Cause} {v : Word} (h : t.accessFault p.toNat l kind size (s.accessAt p x i n) = some (c, v)) :
    access p x i n size kind before act s = .error (.trap c v) t := by
  rw [access_touches hx hbefore, Op.bind_ok (touchBody_some ht)]
  refine Op.bind_error ?_
  rw [accessChecks_run, h]

theorem access_acts (h : t.accessFault p.toNat l kind size (s.accessAt p x i n) = none)
    (hr : t.clearOfReds l (s.accessAt p x i n).toNat (2 ^ size) = true) :
    access p x i n size kind before act s = act w (s.accessAt p x i n) l t := by
  rw [access_touches hx hbefore, Op.bind_ok (touchBody_some ht)]
  have hchecks : accessChecks p.toNat l kind size (s.accessAt p x i n) t = .ok () t := by
    rw [accessChecks_run, h]
    exact awaitReds_of_none (State.clearOfReds_iff.1 hr)
  exact Op.bind_ok hchecks

end

/-- The first failing check traps with its cause, which none of R137 is asynchronous. -/
theorem accessFault_sync {s : State} {r : Nat} {l : Loc} {kind : ObjAccess} {size : Nat} {off : Int} {c : Cause} {v : Word}
    (h : s.accessFault r l kind size off = some (c, v)) : c.async = false := by
  have hsync : ∀ {k : Cause} {y : Word}, some (k, y) = some (c, v) → k.async = false → c.async = false := by
    rintro k y ⟨⟩ hk
    exact hk
  simp only [State.accessFault] at h
  generalize (if kind = .ld then readLen _ _ else _ : Nat) = len at h
  split at h
  · exact hsync h rfl
  · split at h
    · exact hsync h rfl
    · split at h
      · exact hsync h rfl
      · split at h
        · exact hsync h rfl
        · cases h

/-- An instruction that is an access whose check fails. -/
theorem runInstr_access_faults {α : Type} {j : Instr} {p : BitVec 4} {x : BitVec 5} {i : BitVec 10} {n size : Nat}
    {kind : ObjAccess}
    {before : Op α} {act : α → Int → Loc → Op Unit} {s t : State} {w : α} {l : Loc} {c : Cause} {v : Word} (hw : j.wf = true)
    (hu : s.hasUnit j = true) (hx : plain x = true) (hbefore : before (s.starts j) = .ok w (s.starts j))
    (ht : leads j (touch p.toNat) s (some l) t) (h : t.accessFault p.toNat l kind size (s.accessAt p x i n) = some (c, v)) :
    runInstr j (access p x i n size kind before act) s = .next (t.trapHere c.code v false) := by
  have hrun := runInstr_of_traps (t := t) hw hu (access_faults (act := act) hx hbefore ht h)
  rwa [accessFault_sync h] at hrun

/-- And one whose body no pad takes. -/
theorem runInstr_access_big {α : Type} {j : Instr} {p : BitVec 4} {x : BitVec 5} {i : BitVec 10} {n size : Nat} {kind : ObjAccess}
    {before : Op α} {act : α → Int → Loc → Op Unit} {s t : State} {w : α} (hw : j.wf = true)
    (hu : s.hasUnit j = true) (hx : plain x = true) (hbefore : before (s.starts j) = .ok w (s.starts j))
    (ht : leads j (touch p.toNat) s none t) : runInstr j (access p x i n size kind before act) s
      = .next (t.trapHere Cause.type.code (BitVec.ofInt 64 (s.accessAt p x i n)) false) :=
  runInstr_of_traps hw hu (access_big hx hbefore ht)

/-! `ld` (R138). -/

/-- What `ld` gives for the element at an offset of the object at `l`: value and flags. -/
def State.loaded (s : State) (p : BitVec 4) (size : Nat) (off : Int) (l : Loc) : Nat × Nat :=
  loadValue s.core (s.ctx.areg p.toNat).sh.fmt.toNat (s.ctx.areg p.toNat).sh.blog.toNat (2 ^ size)
    (ofBytes (s.readBody s.me l off.toNat (2 ^ size))) (s.scaleAt l (s.ctx.areg p.toNat).sh off.toNat)

def loadInto (d : BitVec 5) (p : BitVec 4) (z : BitVec 2) (off : Int) (l : Loc) : Op Unit := do
  let r := (← get).loaded p z.toNat off l
  noteFp r.2 0
  wrNat d r.1

theorem exec_ld_eq (d : BitVec 5) (p : BitVec 4) (x : BitVec 5) (z : BitVec 2) (i : BitVec 10) (s : State) : exec (.ld d p x z i) s
    = runInstr (.ld d p x z i) (access p x i (2 ^ z.toNat) z.toNat .ld (pure ()) fun _ off l => loadInto d p z off l) s := rfl

theorem loadInto_run {d : BitVec 5} (hd : plain d = true) (p : BitVec 4) (z : BitVec 2) (off : Int) (l : Loc) (s : State) :
    loadInto d p z off l s = .ok () ((s.noted (s.loaded p z.toNat off l).2 0).setCtx
      ((s.noted (s.loaded p z.toNat off l).2 0).ctx.setS d.toNat (BitVec.ofNat 64 (s.loaded p z.toNat off l).1))) := by
  have hnote : noteFp (s.loaded p z.toNat off l).2 0 s = .ok () (s.noted (s.loaded p z.toNat off l).2 0) := rfl
  rw [loadInto, Op.bind_ok (Op.get_run s), Op.bind_ok hnote]
  exact wrS_plain hd ..

/-- Integer elements are sign-extended (R138). -/
theorem loadValue_signed {f blog : Nat} (h : (f = 1 ∧ blog = 0) ∨ f = 3 ∨ f = 5 ∨ f = 7) (c : Core) (n v sc : Nat) :
    loadValue c f blog n v sc = (intBits 64 (signExt (8 * n) v), 0) := by
  rcases h with ⟨rfl, rfl⟩ | rfl | rfl | rfl <;> rfl

/-- N elements, U8, floating elements of full size and pointers are the bytes themselves. -/
theorem loadValue_plain {f : Nat} (h : f = 0 ∨ f = 2 ∨ f = 4 ∨ f = 6 ∨ f = 10 ∨ f = 11 ∨ f = 17) (c : Core) (blog n v sc : Nat) :
    loadValue c f blog n v sc = (v, 0) := by
  rcases h with rfl | rfl | rfl | rfl | rfl | rfl | rfl <;> rfl

theorem ofNat_intBits (x : Int) : BitVec.ofNat 64 (intBits 64 x) = BitVec.ofInt 64 x := by
  refine BitVec.eq_of_toNat_eq ?_
  rw [BitVec.toNat_ofNat, BitVec.toNat_ofInt, intBits]
  exact Nat.mod_eq_of_lt (by omega)

theorem exec_ld_gives {d x : BitVec 5} {p : BitVec 4} {z : BitVec 2} {i : BitVec 10} {s t : State} {l : Loc} (hd : plain d = true)
    (hx : plain x = true) (hf : t.calm = true) (ht : leads (.ld d p x z i) (touch p.toNat) s (some l) t)
    (h : t.accessFault p.toNat l .ld z.toNat (s.accessAt p x i (2 ^ z.toNat)) = none)
    (hr : t.clearOfReds l (s.accessAt p x i (2 ^ z.toNat)).toNat (2 ^ z.toNat) = true) :
    exec (.ld d p x z i) s = .next ((t.noted (t.loaded p z.toNat (s.accessAt p x i (2 ^ z.toNat)) l).2 0).gives d
      (BitVec.ofNat 64 (t.loaded p z.toNat (s.accessAt p x i (2 ^ z.toNat)) l).1)) := by
  have hbody := (access_acts (i := i) (n := 2 ^ z.toNat) (act := fun _ off l => loadInto d p z off l) hx
    (Op.pure_run () (s.starts (.ld d p x z i))) ht h hr).trans (loadInto_run hd ..)
  exact (exec_ld_eq ..).trans (runInstr_gives_from (w := t) rfl (hasUnit_of_plain rfl rfl s) hbody (t.noted_follows _ _).act
    (t.noted_follows _ _).halted hf)

/-! `st` (R139, R140). -/

theorem State.watches_noting (s : State) (x : Tx) (canon : Word) : (s.noting x).watches canon = s.watches canon := rfl

/-- What `st` makes of a word for the element at an offset of the object at `l`: the bytes, flags and draws. -/
def State.stored (s : State) (p : BitVec 4) (size : Nat) (w : Word) (off : Int) (l : Loc) : Nat × Nat × Nat :=
  storeValue s.core (s.ctx.areg p.toNat).sh.fmt.toNat (s.ctx.areg p.toNat).sh.blog.toNat (2 ^ size) s.ctx.rm w.toNat
    (s.scaleAt l (s.ctx.areg p.toNat).sh off.toNat) s.draw

def storeFrom (p : BitVec 4) (z : BitVec 2) (w : Word) (off : Int) (l : Loc) : Op Unit := do
  let s ← get
  let y := s.stored p z.toNat w off l
  set (s.putObj l off.toNat (leBytes y.1 (2 ^ z.toNat)))
  noteFp y.2.1 y.2.2
  noteWatch (canonOf (s.ctx.areg p.toNat).ptr (s.hdr l))

theorem exec_st_eq (d : BitVec 5) (p : BitVec 4) (x : BitVec 5) (z : BitVec 2) (i : BitVec 10) (s : State) : exec (.st d p x z i) s
    = runInstr (.st d p x z i) (access p x i (2 ^ z.toNat) z.toNat .st (rdS d) fun w off l => storeFrom p z w off l) s := rfl

/-- The state after the element and what its conversion notes have been written. -/
def State.stores (s : State) (p : BitVec 4) (size : Nat) (w : Word) (off : Int) (l : Loc) : State :=
  (s.putObj l off.toNat (leBytes (s.stored p size w off l).1 (2 ^ size))).noted (s.stored p size w off l).2.1
      (s.stored p size w off l).2.2

theorem State.stores_noting (s : State) (p : BitVec 4) (size : Nat) (w : Word) (off : Int) (l : Loc) (x : Tx) :
    (s.noting x).stores p size w off l = (s.stores p size w off l).noting x :=
  congrArg (fun u : State => u.noted (s.stored p size w off l).2.1 (s.stored p size w off l).2.2)
    ((PassesBy.putObj l off.toNat (leBytes (s.stored p size w off l).1 (2 ^ size))).noting s x)

theorem State.stores_follows (s : State) (p : BitVec 4) (size : Nat) (w : Word) (off : Int) (l : Loc) :
    (s.stores p size w off l).Follows s := 
  ((PassesBy.putObj l off.toNat _).follows s).trans (State.noted_follows (s.putObj l off.toNat _) _ _)

theorem storeFrom_run (p : BitVec 4) (z : BitVec 2) (w : Word) (off : Int) (l : Loc) (s : State) : storeFrom p z w off l s
    = noteWatch (canonOf (s.ctx.areg p.toNat).ptr (s.hdr l)) (s.stores p z.toNat w off l) := by
  have hnote : ∀ (f n : Nat) (t : State), noteFp f n t = .ok () (t.noted f n) := fun _ _ _ => rfl
  rw [storeFrom, Op.bind_ok (Op.get_run s), Op.bind_ok (Op.set_run ..), Op.bind_ok (hnote ..)]
  rfl

section
variable {d x : BitVec 5} {p : BitVec 4} {z : BitVec 2} {i : BitVec 10} {s t : State} {l : Loc} (hd : plain d = true)
  (hx : plain x = true) (ht : leads (.st d p x z i) (touch p.toNat) s (some l) t)
  (h : t.accessFault p.toNat l .st z.toNat (s.accessAt p x i (2 ^ z.toNat)) = none)
  (hr : t.clearOfReds l (s.accessAt p x i (2 ^ z.toNat)).toNat (2 ^ z.toNat) = true)
include hd hx ht h hr

theorem st_run : access p x i (2 ^ z.toNat) z.toNat .st (rdS d) (fun w off l => storeFrom p z w off l) (s.starts (.st d p x z i))
    = noteWatch (canonOf (t.ctx.areg p.toNat).ptr (t.hdr l))
        ((t.stores p z.toNat (s.src d) (s.accessAt p x i (2 ^ z.toNat)) l).noting (t.starts (.st d p x z i)).tx) := by
  rw [← State.stores_noting]
  exact (access_acts (i := i) (n := 2 ^ z.toNat) (act := fun w off l => storeFrom p z w off l) hx
    (rdS_plain hd (s.starts (.st d p x z i))) ht h hr).trans (storeFrom_run ..)

theorem exec_st_stores (hf : t.calm = true) (hwatch : (t.stores p z.toNat (s.src d) (s.accessAt p x i (2 ^ z.toNat)) l).watches
      (canonOf (t.ctx.areg p.toNat).ptr (t.hdr l)) = false) :
    exec (.st d p x z i) s = .next (t.stores p z.toNat (s.src d) (s.accessAt p x i (2 ^ z.toNat)) l).retires := by
  have hbody := st_run hd hx ht h hr
  rw [noteWatch_run, State.watches_noting, if_neg (Bool.eq_false_iff.1 hwatch)] at hbody
  exact (exec_st_eq ..).trans (runInstr_retires_via rfl (hasUnit_of_plain rfl rfl s) hbody (State.stores_follows ..) hf)

theorem exec_st_watch (hwatch : (t.stores p z.toNat (s.src d) (s.accessAt p x i (2 ^ z.toNat)) l).watches
      (canonOf (t.ctx.areg p.toNat).ptr (t.hdr l)) = true) :
    exec (.st d p x z i) s = .next ((t.stores p z.toNat (s.src d) (s.accessAt p x i (2 ^ z.toNat)) l).retires.watchTaken
      (canonOf (t.ctx.areg p.toNat).ptr (t.hdr l)) (decide (s.ctx.pfx ≠ .none))) := by
  have hbody := st_run hd hx ht h hr
  rw [noteWatch_run, State.watches_noting, if_pos hwatch] at hbody
  exact (exec_st_eq ..).trans (runInstr_watch rfl (hasUnit_of_plain rfl rfl s) (State.listed_setCtx ..) hbody)

end

/-- Integer, N and pointer elements, and floating ones of full size, are the low bytes of the word (R139). -/
theorem storeValue_plain {f : Nat} (h : f ≤ 7 ∨ f = 10 ∨ f = 11 ∨ f = 17) {blog : Nat} (hb : f = 1 → blog = 0) (c : Core)
    (n mode w sc : Nat) (draw : Nat → Nat) : storeValue c f blog n mode w sc draw = (w % 2 ^ (8 * n), 0, 0) := by
  have h1 : ¬ (f = 1 ∧ blog ≠ 0) := fun ⟨hf, hne⟩ => hne (hb hf)
  simp only [storeValue]
  rw [if_neg h1, if_neg (by omega), if_neg (by omega), if_neg (by omega), if_neg (by omega), if_neg (by omega)]

/-! `lda` (R142). -/

def loadPointer (d : BitVec 4) (off : Int) (l : Loc) : Op Unit := do
  let w := BitVec.ofNat 64 (ofBytes ((← get).bodyBytes l off.toNat 8))
  wrA d.toNat { ptr := w }

theorem exec_lda_eq (d p : BitVec 4) (x : BitVec 5) (i : BitVec 10) (s : State) : exec (.lda d p x i) s
    = runInstr (.lda d p x i) (access p x i 8 3 .lda (pure ()) fun _ off l => loadPointer d off l) s := rfl

theorem exec_lda_becomes {d p : BitVec 4} {x : BitVec 5} {i : BitVec 10} {s t : State} {l : Loc} (hx : plain x = true)
    (hf : t.calm = true) (ht : leads (.lda d p x i) (touch p.toNat) s (some l) t)
    (h : t.accessFault p.toNat l .lda 3 (s.accessAt p x i 8) = none)
    (hr : t.clearOfReds l (s.accessAt p x i 8).toNat 8 = true) :
    exec (.lda d p x i) s = .next (t.becomes (t.ctx.setA d.toNat
      { ptr := BitVec.ofNat 64 (ofBytes (t.bodyBytes l (s.accessAt p x i 8).toNat 8)), cur := 0, sh := {} })) := by
  have hbody := access_acts (i := i) (n := 8) (size := 3) (act := fun _ off l => loadPointer d off l) hx
    (Op.pure_run () (s.starts (.lda d p x i))) ht h hr
  refine (exec_lda_eq ..).trans (runInstr_retires_via (w := t) rfl (hasUnit_of_plain rfl rfl s) (hbody.trans ?_) (.setCtx t _) hf)
  rfl

/-! `sta` (R142, R158). -/

def storePointer (d p : BitVec 4) (off : Int) (l : Loc) : Op Unit := do
  let w ← remember l off.toNat (← rdA d.toNat).ptr
  let s ← get
  set (s.putObj l off.toNat (leBytes w.toNat 8))
  noteWatch (canonOf (s.ctx.areg p.toNat).ptr (s.hdr l))

theorem exec_sta_eq (d p : BitVec 4) (x : BitVec 5) (i : BitVec 10) (s : State) : exec (.sta d p x i) s
    = runInstr (.sta d p x i) (access p x i 8 3 .sta (pure ()) fun _ off l => storePointer d p off l) s := rfl

theorem exec_sta_stores {d p : BitVec 4} {x : BitVec 5} {i : BitVec 10} {s t u : State} {l : Loc} {q : Word} (hx : plain x = true)
    (hf : u.calm = true) (ht : leads (.sta d p x i) (touch p.toNat) s (some l) t)
    (h : t.accessFault p.toNat l .sta 3 (s.accessAt p x i 8) = none) (hr : t.clearOfReds l (s.accessAt p x i 8).toNat 8 = true)
    (hq : leads (.sta d p x i) (remember l (s.accessAt p x i 8).toNat (t.ctx.areg d.toNat).ptr) t q u)
    (hwatch : (u.putObj l (s.accessAt p x i 8).toNat (leBytes q.toNat 8)).watches (canonOf (u.ctx.areg p.toNat).ptr (u.hdr l))
        = false) :
    exec (.sta d p x i) s = .next (u.putObj l (s.accessAt p x i 8).toNat (leBytes q.toNat 8)).retires := by
  have hput := PassesBy.putObj l (s.accessAt p x i 8).toNat (leBytes q.toNat 8)
  have hstore : storePointer d p (s.accessAt p x i 8) l (t.starts (.sta d p x i)) = .ok ()
      ((u.putObj l (s.accessAt p x i 8).toNat (leBytes q.toNat 8)).noting (u.starts (.sta d p x i)).tx) := by
    rw [storePointer, Op.bind_ok (rdA_run ..), ← hput.noting]
    refine (Op.bind_ok hq).trans ((Op.bind_ok (Op.get_run _)).trans ((Op.bind_ok (Op.set_run ..)).trans ?_))
    refine (noteWatch_run ..).trans (congrArg (EStateM.Result.ok ()) (if_neg ?_))
    have hw : (((u.noting (u.starts (.sta d p x i)).tx).putObj l (s.accessAt p x i 8).toNat (leBytes q.toNat 8)).watches
        (canonOf (u.ctx.areg p.toNat).ptr (u.hdr l))) = false := by
      rw [hput.noting, State.watches_noting, hwatch]
    exact Bool.eq_false_iff.1 hw
  have hbody := (access_acts (i := i) (n := 8) (size := 3) (act := fun _ off l => storePointer d p off l) hx
    (Op.pure_run () (s.starts (.sta d p x i))) ht h hr).trans hstore
  exact (exec_sta_eq ..).trans (runInstr_retires_via rfl (hasUnit_of_plain rfl rfl s) hbody (hput.follows u) hf)

/-- Settles O8: the checks are `accessChecks_run`, and what is loaded is read off `loadValue`. -/
theorem loadResults : Obligations.LoadResults := by
  refine ⟨?_, ?_⟩
  · intro d p x z i s t l hd hx hf n off f blog v r ht
    refine ⟨fun c w h => (exec_ld_eq ..).trans
        (runInstr_access_faults rfl (hasUnit_of_plain rfl rfl s) hx (Op.pure_run () _) ht h),
      fun h hr => exec_ld_gives hd hx hf ht h hr, fun h => ?_, fun h => loadValue_plain h ..⟩
    have hr : r = (intBits 64 (signExt (8 * n) v), 0) := loadValue_signed h ..
    rw [hr]
    exact ⟨rfl, ofNat_intBits _⟩
  · intro d e p x z i s y hd hx trapped trapped8
    exact ⟨fun ht => (exec_ld_eq ..).trans (runInstr_access_big rfl (hasUnit_of_plain rfl rfl s) hx (Op.pure_run () _) ht),
      fun ht => (exec_st_eq ..).trans (runInstr_access_big rfl (hasUnit_of_plain rfl rfl s) hx (rdS_plain hd _) ht),
      fun ht => (exec_lda_eq ..).trans (runInstr_access_big rfl (hasUnit_of_plain rfl rfl s) hx (Op.pure_run () _) ht),
      fun ht => (exec_sta_eq ..).trans (runInstr_access_big rfl (hasUnit_of_plain rfl rfl s) hx (Op.pure_run () _) ht)⟩

/-- Settles O9: the checks are `accessChecks_run`, and the bytes of a pad those of `byte_putObj_pad`. -/
theorem storeResults : Obligations.StoreResults := by
  intro d p x z i s t l hd hx hf n off f blog y u ht
  refine ⟨fun c w h => (exec_st_eq ..).trans
      (runInstr_access_faults rfl (hasUnit_of_plain rfl rfl s) hx (rdS_plain hd _) ht h),
    fun h hr => ⟨exec_st_stores hd hx ht h hr hf, exec_st_watch hd hx ht h hr⟩, fun h hb => storeValue_plain h hb .., ?_⟩
  rintro k rfl a
  exact byte_putObj_pad ..

end Sys2Proof.Machine
end

section
/-! SUPPORT. Headers written (R126), and the ROOT mark of `root` and `unroot` (R148). -/

namespace Sys2Proof.Machine

/-! Bits of a word with one field replaced. -/

theorem fieldN_mul_le (v lo width : Nat) : fieldN v lo width * 2 ^ lo ≤ v :=
  calc fieldN v lo width * 2 ^ lo ≤ v / 2 ^ lo * 2 ^ lo := Nat.mul_le_mul_right _ (Nat.mod_le ..)
    _ ≤ v := Nat.div_mul_le_self ..

/-- A number is made of the bits below a field, of the field, and of the bits above it. -/
theorem fieldN_split (v lo width : Nat) :
    v = v % 2 ^ lo + fieldN v lo width * 2 ^ lo + v / 2 ^ (lo + width) * 2 ^ (lo + width) := by
  have hlow := Nat.mod_add_div v (2 ^ lo)
  have hhigh := Nat.mod_add_div (v / 2 ^ lo) (2 ^ width)
  rw [Nat.div_div_eq_div_mul, ← pow_add] at hhigh
  calc v = v % 2 ^ lo + 2 ^ lo * (v / 2 ^ lo) := hlow.symm
    _ = v % 2 ^ lo + 2 ^ lo * (v / 2 ^ lo % 2 ^ width + 2 ^ width * (v / 2 ^ (lo + width))) := by rw [hhigh]
    _ = v % 2 ^ lo + fieldN v lo width * 2 ^ lo + v / 2 ^ (lo + width) * 2 ^ (lo + width) := by
      rw [fieldN, pow_add]
      ring

/-- With the field replaced, the bits below it and above it stay. -/
theorem toNat_setBits (w : Word) {lo width : Nat} (v : Nat) (h : lo + width ≤ 64) : (setBits w lo width v).toNat
    = w.toNat % 2 ^ lo + v % 2 ^ width * 2 ^ lo + w.toNat / 2 ^ (lo + width) * 2 ^ (lo + width) := by
  have hsplit := fieldN_split w.toNat lo width
  have hle := fieldN_mul_le w.toNat lo width
  have heq : w.toNat - fieldN w.toNat lo width * 2 ^ lo + v % 2 ^ width * 2 ^ lo
      = w.toNat % 2 ^ lo + v % 2 ^ width * 2 ^ lo + w.toNat / 2 ^ (lo + width) * 2 ^ (lo + width) := by omega
  rw [setBits, BitVec.toNat_ofNat, heq]
  refine Nat.mod_eq_of_lt ?_
  have hlow : w.toNat % 2 ^ lo + v % 2 ^ width * 2 ^ lo < 2 ^ (lo + width) := by
    have h1 := Nat.mod_lt w.toNat (Nat.two_pow_pos lo)
    have h2 : (v % 2 ^ width + 1) * 2 ^ lo ≤ 2 ^ width * 2 ^ lo := Nat.mul_le_mul_right _ (Nat.mod_lt v (Nat.two_pow_pos width))
    rw [pow_add, mul_comm (2 ^ lo)]
    linarith
  have hhigh : (w.toNat / 2 ^ (lo + width) + 1) * 2 ^ (lo + width) ≤ 2 ^ 64 := by
    have hdiv : w.toNat / 2 ^ (lo + width) < 2 ^ (64 - (lo + width)) := by
      refine Nat.div_lt_of_lt_mul ?_
      rw [← pow_add, Nat.add_sub_cancel' h]
      exact w.isLt
    calc (w.toNat / 2 ^ (lo + width) + 1) * 2 ^ (lo + width)
        ≤ 2 ^ (64 - (lo + width)) * 2 ^ (lo + width) := Nat.mul_le_mul_right _ hdiv
      _ = 2 ^ 64 := by rw [← pow_add, Nat.sub_add_cancel h]
  linarith

theorem setBits_below (w : Word) {lo width : Nat} (v : Nat) (h : lo + width ≤ 64) :
    (setBits w lo width v).toNat % 2 ^ lo = w.toNat % 2 ^ lo := by
  rw [toNat_setBits w v h, pow_add,
    show w.toNat % 2 ^ lo + v % 2 ^ width * 2 ^ lo + w.toNat / (2 ^ lo * 2 ^ width) * (2 ^ lo * 2 ^ width)
      = w.toNat % 2 ^ lo + 2 ^ lo * (v % 2 ^ width + w.toNat / (2 ^ lo * 2 ^ width) * 2 ^ width) by ring,
    Nat.add_mul_mod_self_left, Nat.mod_mod]

/-- The field itself. -/
theorem setBits_field (w : Word) {lo width : Nat} (v : Nat) (h : lo + width ≤ 64) :
    bitsOf (setBits w lo width v) lo width = v % 2 ^ width := by
  rw [bitsOf, fieldN, toNat_setBits w v h, pow_add,
    show w.toNat % 2 ^ lo + v % 2 ^ width * 2 ^ lo + w.toNat / (2 ^ lo * 2 ^ width) * (2 ^ lo * 2 ^ width)
      = w.toNat % 2 ^ lo + 2 ^ lo * (v % 2 ^ width + 2 ^ width * (w.toNat / (2 ^ lo * 2 ^ width))) by ring,
    Nat.add_mul_div_left _ _ (Nat.two_pow_pos lo), Nat.div_eq_of_lt (Nat.mod_lt _ (Nat.two_pow_pos lo)), Nat.zero_add,
    Nat.add_mul_mod_self_left, Nat.mod_mod]

/-- A field that lies below the one replaced. -/
theorem setBits_lower (w : Word) {lo width a n : Nat} (v : Nat) (h : lo + width ≤ 64) (ha : a + n ≤ lo) :
    bitsOf (setBits w lo width v) a n = bitsOf w a n := by
  have hmod : ∀ x : Nat, fieldN x a n = fieldN (x % 2 ^ lo) a n := by
    intro x
    obtain ⟨c, rfl⟩ := Nat.exists_eq_add_of_le ha
    rw [fieldN, fieldN, add_assoc, pow_add 2 a, Nat.mod_mul_right_div_self, pow_add 2 n, Nat.mod_mul_right_mod]
  rw [bitsOf, bitsOf, hmod, setBits_below w v h, ← hmod]

theorem getLsbD_eq_bitsOf (w : Word) (i : Nat) : w.getLsbD i = decide (bitsOf w i 1 = 1) := by
  rw [BitVec.getLsbD, Nat.testBit_eq_decide_div_mod_eq]
  rfl

theorem getLsbD_setFlag (h : Hdr) {bit : Nat} (b : Bool) (hbit : bit + 1 ≤ 64) : (h.setFlag bit b).w0.getLsbD bit = b := by
  rw [getLsbD_eq_bitsOf, Hdr.setFlag, setBits_field _ _ hbit]
  cases b <;> rfl

theorem bitsOf_setFlag (h : Hdr) {bit a n : Nat} (b : Bool) (hbit : bit + 1 ≤ 64) (ha : a + n ≤ bit) :
    bitsOf (h.setFlag bit b).w0 a n = bitsOf h.w0 a n := setBits_lower h.w0 _ hbit ha

/-! Headers. -/

namespace PassesBy

theorem setMem (m : Mem) : PassesBy fun s => { s with mem := m } := .of_parts (fun _ _ => rfl) (fun _ => rfl) (fun _ => rfl)

theorem setAsids (l : List (Nat × AsidSt)) : PassesBy fun s => { s with asids := l } :=
  .of_parts (fun _ _ => rfl) (fun _ => rfl) (fun _ => rfl)

theorem setHdr (l : Loc) (h : Hdr) : PassesBy (State.setHdr · l h) := by
  cases l with
  | pad k => exact .choose fun s => ⟨_, setMem (s.mem.setHdr k h), fun _ => rfl⟩
  | heap asid va =>
    exact .choose fun s => ⟨_, .comp (setMem (s.mem.setHdr (s.hdrKey (.heap asid va)) h)) (.of_writesMemory (.noteHeap asid va 32)),
      fun _ => rfl⟩

end PassesBy

/-! `root` and `unroot`. -/

theorem PassesBy.markRoot (l : Loc) (on : Bool) : PassesBy (State.markRoot · l on) := by
  cases l with
  | pad k => exact .choose fun s => ⟨_, .setHdr (.pad k) ((s.hdr (.pad k)).setFlag 57 on), fun _ => rfl⟩
  | heap asid va =>
    refine .choose fun s => ?_
    have hset := PassesBy.setHdr (.heap asid va) ((s.hdr (.heap asid va)).setFlag 57 on)
    have hasids : ∀ x, ((s.noting x).setHdr (.heap asid va) ((s.hdr (.heap asid va)).setFlag 57 on)).asids = s.asids := by
      intro x
      obtain ⟨m, hm, v, u, hn⟩ := WritesMemory.noteHeap asid va 32 s
      exact (congrArg State.asids (hn x) :)
    by_cases h : (on && !(lookup {} asid s.asids).objs.contains va) = true
    · refine ⟨_, .comp (setAsids (store asid
        { lookup {} asid s.asids with roots := insertKey va (lookup {} asid s.asids).roots } s.asids))
        hset, fun x => ?_⟩
      have h' := h
      rw [← hasids x] at h' ⊢
      exact if_pos h'
    · refine ⟨_, hset, fun x => ?_⟩
      rw [← hasids x] at h
      exact if_neg h

theorem State.markRoot_mem (s : State) (l : Loc) (on : Bool) :
    (s.markRoot l on).mem = s.mem.setHdr (s.hdrKey l) ((s.hdr l).setFlag 57 on) := by
  cases l with
  | pad k => rfl
  | heap asid va =>
    unfold State.markRoot
    dsimp only
    split
    · rfl
    · rfl

theorem State.root_markRoot (s : State) (l : Loc) (on : Bool) : ((s.markRoot l on).mem.hdr (s.hdrKey l)).root = on := by
  rw [State.markRoot_mem, Mem.hdr_setHdr]
  exact getLsbD_setFlag _ on (by decide)

/-- The header page of an object that the device may write is translated. -/
theorem translate_header {s : State} {asid va : Nat} (h : s.headerWritable (.heap asid va) = true) (val : Word) :
    translate asid va true val s = .ok (s.hdrKey (.heap asid va)) s := by
  simp only [State.headerWritable] at h
  rw [translate, Op.bind_ok (Op.get_run s), translateFor, Op.bind_ok (Op.get_run s), State.hdrKey]
  split at h
  next e he =>
    simp only [he, h]
    rfl
  next => cases h

section
variable {a : BitVec 4} {on : Bool} {s t : State} {l : Loc} (hl : locate (s.ctx.areg a.toNat).ptr s = .ok l t)
include hl

theorem rootBody_marks (hs : (on || !t.stackObjects.contains (t.hdrKey l)) = true) (hw : t.headerWritable l = true) :
    rootBody a on s = .ok () (t.markRoot l on) := by
  rw [rootBody, Op.bind_ok (rdA_run ..), Op.bind_ok hl, Op.bind_ok (Op.get_run t)]
  have hput : ∀ l' : Loc, (modify fun u : State => u.markRoot l' on : Op Unit) t = .ok () (t.markRoot l' on) := fun _ => rfl
  cases on with
  | true =>
    cases l with
    | pad k => exact hput _
    | heap asid va => exact (Op.bind_ok (translate_header hw _)).trans (hput _)
  | false =>
    refine (Op.bind_ok (require_true hs ..)).trans ?_
    cases l with
    | pad k => exact hput _
    | heap asid va => exact (Op.bind_ok (translate_header hw _)).trans (hput _)

theorem rootBody_stack (hs : (on || !t.stackObjects.contains (t.hdrKey l)) = false) :
    rootBody a on s = .error (.trap .type (s.ctx.areg a.toNat).ptr) t := by
  rw [rootBody, Op.bind_ok (rdA_run ..), Op.bind_ok hl, Op.bind_ok (Op.get_run t)]
  cases on with
  | true => cases hs
  | false => exact Op.bind_error (require_false hs ..)

end


/-- The instruction that sets ROOT or clears it. -/
def rootInstr (a : BitVec 4) (on : Bool) : Instr := if on then .root a else .unroot a

theorem exec_rootInstr_eq (a : BitVec 4) (on : Bool) (s : State) :
    exec (rootInstr a on) s = runInstr (rootInstr a on) (rootBody a on) s := by
  cases on <;> rfl

section
variable {a : BitVec 4} {on : Bool} {s t : State} {l : Loc}
  (hl : leads (rootInstr a on) (locate (s.ctx.areg a.toNat).ptr) s l t)
include hl

theorem exec_rootInstr_marks (hf : t.calm = true) (hs : (on || !t.stackObjects.contains (t.hdrKey l)) = true)
    (hw : t.headerWritable l = true) : exec (rootInstr a on) s = .next (t.markRoot l on).retires := by
  have hmark := PassesBy.markRoot l on
  have hbody := rootBody_marks (s := s.starts (rootInstr a on)) (t := t.starts (rootInstr a on)) hl hs hw
  rw [show t.starts (rootInstr a on) = t.noting (t.starts (rootInstr a on)).tx from rfl, hmark.noting] at hbody
  rw [exec_rootInstr_eq]
  exact runInstr_retires_via (by cases on <;> rfl) (by cases on <;> exact hasUnit_of_plain rfl rfl s) hbody (hmark.follows t) hf

theorem exec_rootInstr_stack (hs : (on || !t.stackObjects.contains (t.hdrKey l)) = false) :
    exec (rootInstr a on) s = .next (t.trapHere Cause.type.code (s.ctx.areg a.toNat).ptr false) := by
  rw [exec_rootInstr_eq]
  exact runInstr_of_traps (by cases on <;> rfl) (by cases on <;> exact hasUnit_of_plain rfl rfl s)
    (rootBody_stack (s := s.starts (rootInstr a on)) (t := t.starts (rootInstr a on)) hl hs)

end

/-- Settles O10: the accesses go by `access`, and the mark is a header written with one bit replaced. -/
theorem pointerLoadsStoresAndRoots : Obligations.PointerLoadsStoresAndRoots := by
  refine ⟨⟨?_, ?_⟩, ?_⟩
  · intro d p x i s t l hx hf off ht
    exact ⟨fun c w h => (exec_lda_eq ..).trans
      (runInstr_access_faults rfl (hasUnit_of_plain rfl rfl s) hx (Op.pure_run () _) ht h), exec_lda_becomes hx hf ht⟩
  · intro d p x i s t u l q hx hf off ht
    refine ⟨fun c w h => (exec_sta_eq ..).trans
      (runInstr_access_faults rfl (hasUnit_of_plain rfl rfl s) hx (Op.pure_run () _) ht h), fun h hr hq => ?_⟩
    intro v hwatch
    refine ⟨exec_sta_stores hx hf ht h hr hq hwatch, ?_⟩
    rintro k rfl b
    exact byte_putObj_pad ..
  · intro a on s t l hf i p hl stack u
    refine ⟨exec_rootInstr_marks hl hf, exec_rootInstr_stack hl, State.root_markRoot t l on, fun k hk => ?_⟩
    exact (congrArg (Mem.byte · k) (t.markRoot_mem l on)).trans (Mem.byte_setHdr_outside hk)

end Sys2Proof.Machine
end

section
/-! SUPPORT. Areas of pads, and room taken in them (R131, R145, R162). -/

namespace Sys2Proof.Machine

/-! States whose executing core differs in its pad alone. -/

/-- The executing core differs from that of another state in its pad area at most. -/
structure State.PadOnly (t s : State) : Prop where
  site : t.site = s.site
  core : ∃ a, t.core = { s.core with pad := a }

namespace State.PadOnly
variable {s t u : State}

theorem of_cores (hs : t.site = s.site) (hc : t.cores = s.cores) : t.PadOnly s :=
  ⟨hs, s.core.pad, by rw [State.core, State.coreAt, hs, hc]; rfl⟩

theorem trans (h : t.PadOnly s) (g : u.PadOnly t) : u.PadOnly s := by
  obtain ⟨hs, a, ha⟩ := h
  obtain ⟨gs, b, hb⟩ := g
  exact ⟨gs.trans hs, b, by rw [hb, ha]⟩

theorem ctx (h : t.PadOnly s) : t.ctx = s.ctx := by
  obtain ⟨a, ha⟩ := h.core
  rw [State.ctx, ha]
  rfl

theorem follows (h : t.PadOnly s) : t.Follows s := by
  obtain ⟨a, ha⟩ := h.core
  exact ⟨h.site, by rw [ha], by rw [ha], by rw [ha]⟩

/-- An instruction that starts notes the same of the core. -/
theorem starts (h : t.PadOnly s) (i : Instr) : t.starts i = t.noting (s.starts i).tx := by
  obtain ⟨a, ha⟩ := h.core
  rw [State.starts, h.ctx, ha]
  rfl

end State.PadOnly

/-! The area of a level. -/

section
variable (s : State) (rid n level : Nat) (a : Area)

/-- An area lies in a core or in a record. -/
theorem State.setArea_parts : ∃ c r, s.setArea rid n level a = { s with cores := c, recs := r } := by
  unfold State.setArea
  split
  · exact ⟨_, s.recs, rfl⟩
  · dsimp only
    split
    · exact ⟨s.cores, _, rfl⟩
    · exact ⟨s.cores, _, rfl⟩

theorem State.padOnly_setArea : (s.setArea rid n level a).PadOnly s := by
  unfold State.setArea
  split
  · refine ⟨rfl, ?_⟩
    by_cases hn : n = s.site
    · subst hn
      exact ⟨a, s.core_setCore _⟩
    · exact ⟨s.core.pad, s.coreAt_setCore_ne (Ne.symm hn) _⟩
  · dsimp only
    split
    · exact .of_cores rfl rfl
    · exact .of_cores rfl rfl

theorem State.areaFor_setArea (h1 : 1 ≤ level) (h3 : level ≤ 3) : (s.setArea rid n level a).areaFor rid n level = some a := by
  unfold State.setArea State.areaFor
  by_cases hl : level = 3
  · rw [if_pos hl, if_pos hl, State.coreAt_setCore_self]
  · rw [if_neg hl, if_neg hl]
    have hself : ∀ x, (s.setRec rid x).recAt rid = x := fun x => lookup_store_self ..
    by_cases h2 : level = 2
    · rw [if_pos h2, if_pos h2, hself]
      exact find_store_self ..
    · rw [if_neg h2, if_neg h2, if_pos (by omega), hself]
      exact find_store_self ..

end

theorem State.areaFor_congr {s t : State} {rid n : Nat} (hp : (t.coreAt n).pad = (s.coreAt n).pad) (hr : t.recs = s.recs)
    (level : Nat) :
    t.areaFor rid n level = s.areaFor rid n level := by
  rw [State.areaFor, State.areaFor, hp, State.recAt, State.recAt, hr]

/-! The pointer of a pad object does not depend on the areas (R123). -/

theorem padPtr_congr {r r' : Rec} (h : r'.place = r.place) (hi8 k : Nat) : padPtr r' hi8 k = padPtr r hi8 k := by
  rw [padPtr, padPtr, h]

/-- Replacing an entry that a filter drops, by one that it drops. -/
theorem filter_store {α : Type} {p : Nat × α → Bool} {k : Nat} {v : α} {l : List (Nat × α)} (hv : p (k, v) = false)
    (hold : ∀ u, find k l = some u → p (k, u) = false) : (store k v l).filter p = l.filter p := by
  have hnew : ¬ p (k, v) = true := by rw [hv]; decide
  induction l with
  | nil => rw [store, List.filter_cons_of_neg hnew]
  | cons e l ih =>
    obtain ⟨j, u⟩ := e
    rw [store]
    split
    · rw [List.filter_cons_of_neg hnew]
    · split
      next hk =>
        subst hk
        have hu : ¬ p (k, u) = true := by
          rw [hold u (by rw [find, if_pos rfl])]
          decide
        rw [List.filter_cons_of_neg hnew, List.filter_cons_of_neg hu]
      next hk =>
        rw [List.filter_cons, List.filter_cons, ih fun w hw => hold w (by rw [find, if_neg (Ne.symm hk)]; exact hw)]

theorem State.recAt_of_find {s : State} {r : Nat} {u : Rec} (h : find r s.recs = some u) : s.recAt r = u := by
  rw [State.recAt]
  generalize s.recs = l at h
  induction l with
  | nil => cases h
  | cons e l ih =>
    obtain ⟨j, v⟩ := e
    rw [find] at h
    rw [lookup]
    split at h
    next hj => rw [if_pos hj]; exact Option.some.inj h
    next hj => rw [if_neg hj]; exact ih h

/-- The record that resolves pad pointers keeps its places when a record's areas change. -/
theorem State.place_tableRec_setRec (s : State) {x : Rec} (hchan : x.chan = (s.recAt s.rid).chan) (hl : x.l = (s.recAt s.rid).l)
    (hplace : x.place = (s.recAt s.rid).place) :
    (((s.setRec s.rid x).tableRec).getD {}).place = (s.tableRec.getD {}).place := by
  have hself : (s.setRec s.rid x).recAt s.rid = x := lookup_store_self ..
  have hcore : (s.setRec s.rid x).core = s.core := rfl
  unfold State.tableRec
  rw [hcore]
  cases hr : s.core.recId with
  | none => rfl
  | some r =>
    have hrid : s.rid = r := by rw [State.rid, hr]; rfl
    rw [hrid] at hself hchan hl hplace ⊢
    dsimp only
    rw [hself, hchan]
    cases hc : (s.recAt r).chan with
    | false => exact hplace
    | true =>
      have hfilter : ∀ q : Nat × Rec → Bool, ((s.setRec r x).recs.filter fun y => !y.2.chan && q y)
          = s.recs.filter fun y => !y.2.chan && q y := by
        intro q
        refine filter_store (by rw [hchan, hc]; rfl) fun u hu => ?_
        rw [← State.recAt_of_find hu, hc]
        rfl
      have hpartner : (s.setRec r x).partner x = s.partner (s.recAt r) := by
        unfold State.partner
        simp only [Bool.and_assoc]
        rw [hfilter, hl]
      exact congrArg (fun o : Option Rec => (o.getD {}).place) hpartner

theorem State.ptrTo_congr {s t : State} (h : t.PadOnly s) (hp : (t.tableRec.getD {}).place = (s.tableRec.getD {}).place)
    (hi8 : Nat) (l : Loc) :
    t.ptrTo hi8 l = s.ptrTo hi8 l := by
  cases l with
  | heap asid va => rfl
  | pad k =>
    obtain ⟨a, ha⟩ := h.core
    rw [State.ptrTo, State.ptrTo, h.site, ha, padPtr_congr hp]
    rfl

theorem State.ptrTo_setArea (s : State) (level : Nat) (a : Area) (hi8 : Nat) (l : Loc) :
    (s.setArea s.rid s.site level a).ptrTo hi8 l = s.ptrTo hi8 l := by
  refine State.ptrTo_congr (s.padOnly_setArea ..) ?_ hi8 l
  have hpad := s.padOnly_setArea s.rid s.site level a
  unfold State.setArea at hpad ⊢
  split at hpad
  · rw [if_pos ‹_›]
    obtain ⟨b, hb⟩ := hpad.core
    unfold State.tableRec
    rw [hb]
    rfl
  · rw [if_neg ‹_›]
    dsimp only
    split
    · exact s.place_tableRec_setRec rfl rfl rfl
    · exact s.place_tableRec_setRec rfl rfl rfl

/-! Room taken in an area. -/

/-- A range of memory is zero, clean and not poisoned. -/
def State.emptied (s : State) (key f : Nat) : State :=
  ({ s with mem := s.mem.clear key f, poison := dropRange (key / 32) (f / 32) s.poison } : State).markClean key f

/-- The state after room for footprint f has been taken at the bump pointer of an area. -/
def State.taken (s : State) (rid n level f : Nat) (a : Area) : State :=
  ((s.setArea rid n level (a.bumpAlloc f).1).emptied (a.base + a.bump) f).markUnits (a.base + a.bump) f

theorem takeRoom_run {s : State} {rid n level : Nat} {a : Area} (h : s.areaFor rid n level = some a) (f : Nat) :
    takeRoom rid n level f s = .ok (a.base + a.bump) (s.taken rid n level f a) := by
  rw [takeRoom, Op.bind_ok (Op.get_run s), h]
  rfl

theorem needRoom_of_free {s : State} {level f : Nat} {entry : Bool} {a : Area} (h : s.areaFor s.rid s.site level = some a)
    (hf : f ≤ a.free) (he : entry = true → a.dir.length < a.dirCap) : needRoom level f entry s = .ok () s := by
  have h' : s.areaFor (s.core.recId.getD 0) s.site level = some a := h
  have hroom : (decide (f ≤ a.free) && (!entry || decide (a.dir.length < a.dirCap))) = true := by
    cases entry with
    | false => simp [hf]
    | true => simp [hf, he rfl]
  rw [needRoom, Op.bind_ok (Op.get_run s), h']
  exact congrFun (if_pos hroom) s

theorem State.markUnits_parts (s : State) (key n : Nat) : ∃ u, s.markUnits key n = { s with units := u } := by
  unfold State.markUnits
  split
  · exact ⟨s.units, rfl⟩
  · exact ⟨_, rfl⟩

section
variable (s : State) (rid n level f : Nat) (a : Area)

theorem State.taken_parts : ∃ p d u, s.taken rid n level f a = { s.setArea rid n level (a.bumpAlloc f).1 with
    mem := (s.setArea rid n level (a.bumpAlloc f).1).mem.clear (a.base + a.bump) f, poison := p, dirty := d, units := u } := by
  obtain ⟨u, hu⟩ := State.markUnits_parts _ (a.base + a.bump) f
  exact ⟨_, _, u, hu⟩

theorem State.taken_mem : (s.taken rid n level f a).mem = s.mem.clear (a.base + a.bump) f := by
  obtain ⟨p, d, u, h⟩ := s.taken_parts rid n level f a
  obtain ⟨c, r, hset⟩ := s.setArea_parts rid n level (a.bumpAlloc f).1
  rw [h, hset]

theorem State.padOnly_taken : (s.taken rid n level f a).PadOnly s := by
  obtain ⟨p, d, u, h⟩ := s.taken_parts rid n level f a
  rw [h]
  exact (s.padOnly_setArea ..).trans (.of_cores rfl rfl)

theorem State.areaFor_taken (h1 : 1 ≤ level) (h3 : level ≤ 3) :
    (s.taken rid n level f a).areaFor rid n level = some (a.bumpAlloc f).1 := by
  obtain ⟨p, d, u, h⟩ := s.taken_parts rid n level f a
  rw [h]
  exact s.areaFor_setArea rid n level _ h1 h3

theorem State.ptrTo_taken (hi8 : Nat) (l : Loc) : (s.taken s.rid s.site level f a).ptrTo hi8 l = s.ptrTo hi8 l := by
  obtain ⟨p, d, u, h⟩ := s.taken_parts s.rid s.site level f a
  rw [h]
  exact (State.ptrTo_congr (.of_cores rfl rfl) rfl hi8 l).trans (s.ptrTo_setArea level _ hi8 l)

theorem State.taken_tx : (s.taken rid n level f a).tx = s.tx := by
  obtain ⟨p, d, u, h⟩ := s.taken_parts rid n level f a
  obtain ⟨c, r, hset⟩ := s.setArea_parts rid n level (a.bumpAlloc f).1
  rw [h, hset]

end

/-! Memory of an object that is placed whole. -/

namespace Mem

theorem hdr_congr {m m' : Mem} {k : Nat} (h : ∀ i < 32, m.byte (k + i) = m'.byte (k + i)) : m.hdr k = m'.hdr k := by
  have hword : ∀ off, off + 8 ≤ 32 → m.word (k + off) = m'.word (k + off) := by
    intro off hoff
    refine congrArg (BitVec.ofNat 64) (read_congr fun i hi => ?_)
    rw [Nat.add_assoc]
    exact h (off + i) (by omega)
  rw [hdr, hdr, hword 8 (by decide), hword 16 (by decide), hword 24 (by decide), show m.word k = m'.word k from hword 0 (by decide)]

theorem length_bytes (m : Mem) (a n : Nat) : (m.bytes a n).length = n := by
  induction n generalizing a with
  | zero => rfl
  | succ n ih => rw [bytes, List.length_cons, ih]

theorem getElem_bytes (m : Mem) (a : Nat) {n i : Nat} (h : i < (m.bytes a n).length) : (m.bytes a n)[i] = m.byte (a + i) := by
  induction n generalizing a i with
  | zero => cases h
  | succ n ih =>
    cases i with
    | zero => rfl
    | succ i =>
      rw [length_bytes] at h
      have hi := ih (a + 1) (i := i) (by rw [length_bytes]; omega)
      rw [Nat.add_assoc, Nat.add_comm 1] at hi
      exact hi

/-- Memory with a range emptied, a header at its beginning, and bytes behind the header at an offset. -/
def place (m : Mem) (key f : Nat) (h : Hdr) (off : Nat) (bs : List Byte) : Mem :=
  ((m.clear key f).setHdr key h).setBytes (key + 32 + off) bs

section
variable (m : Mem) (key f : Nat) (h : Hdr) (off : Nat) (bs : List Byte)

theorem hdr_place : (m.place key f h off bs).hdr key = h := by
  rw [place, hdr_congr (m' := (m.clear key f).setHdr key h) fun i hi => byte_setBytes_outside _ (by omega), hdr_setHdr]

theorem byte_place_inside {i : Nat} (hi : i < bs.length) : (m.place key f h off bs).byte (key + 32 + off + i) = bs[i] :=
  byte_setBytes_inside _ hi

theorem byte_place_zero {k : Nat} (hk : key + 32 ≤ k) (hf : k < key + f)
    (ho : k < key + 32 + off ∨ key + 32 + off + bs.length ≤ k) :
    (m.place key f h off bs).byte k = 0 := by
  rw [place, byte_setBytes_outside _ ho, byte_setHdr_outside (.inr hk), byte_clear, if_pos]
  simp only [within, Bool.and_eq_true, decide_eq_true_eq]
  omega

theorem byte_place_outside {k : Nat} (hf : 32 + off + bs.length ≤ f) (hk : k < key ∨ key + f ≤ k) :
    (m.place key f h off bs).byte k = m.byte k := by
  rw [place, byte_setBytes_outside _ (by omega), byte_setHdr_outside (by omega), byte_clear, if_neg]
  simp only [within, Bool.and_eq_true, decide_eq_true_eq]
  omega

end

end Mem

theorem le_footprint (fmt blog len : Nat) : 32 + len + scaleBytes fmt blog len ≤ footprint fmt blog len := by
  rw [footprint, ceilDiv]
  omega

end Sys2Proof.Machine
end

section
/-! SUPPORT. `alloc` at a pad level (R145), the version of a release (R149), and fresh copies (R130). -/

namespace Sys2Proof.Machine

theorem State.noting_of_tx {s : State} {x : Tx} (h : s.tx = x) : s.noting x = s := by
  subst h
  rfl

/-! `alloc` (R145). -/

/-- The state in which an object of `alloc` stands at the bump pointer of an area. -/
def State.allocated (s : State) (level len : Nat) (desc : Word) (ar : Area) : State :=
  let t := s.taken s.rid s.site level (footprint (bitsOf desc 8 5) (bitsOf desc 13 3) len) ar
  let h := newHeader len desc.toNat ar.passes.toNat false s.core.secure
  let scales := List.replicate (scaleBytes (bitsOf desc 8 5) (bitsOf desc 13 3) len) 127#8
  { t with mem := (t.mem.setHdr (ar.base + ar.bump) h).setBytes (ar.base + ar.bump + 32 + len) scales }

/-- The pointer register that it loads. -/
def State.allocatedReg (s : State) (len : Nat) (desc : Word) (ar : Area) : AReg :=
  { ptr := s.ptrTo (bitsOf desc 8 5 * 8 + bitsOf desc 13 3) (.pad (ar.base + ar.bump))
    sh := (newHeader len desc.toNat ar.passes.toNat false s.core.secure).shadow }

section
variable (s : State) (level len : Nat) (desc : Word) (ar : Area)

theorem State.padOnly_allocated : (s.allocated level len desc ar).PadOnly s :=
  (s.padOnly_taken ..).trans (.of_cores rfl rfl)

theorem State.allocated_mem : (s.allocated level len desc ar).mem = s.mem.place (ar.base + ar.bump)
    (footprint (bitsOf desc 8 5) (bitsOf desc 13 3) len) (newHeader len desc.toNat ar.passes.toNat false s.core.secure) len
    (List.replicate (scaleBytes (bitsOf desc 8 5) (bitsOf desc 13 3) len) 127) := by
  rw [Mem.place, ← State.taken_mem s s.rid s.site level]
  rfl

theorem State.allocated_tx : (s.allocated level len desc ar).tx = s.tx := State.taken_tx ..

theorem State.ptrTo_allocated (hi8 : Nat) (l : Loc) : (s.allocated level len desc ar).ptrTo hi8 l = s.ptrTo hi8 l :=
  (State.ptrTo_congr (.of_cores rfl rfl) rfl hi8 l).trans (s.ptrTo_taken level _ ar hi8 l)

end

theorem allocLegal_level {len desc : Nat} (h : allocLegal len desc = true) : fieldN desc 16 3 ≤ 3 := by
  simp only [allocLegal, Bool.and_eq_true, decide_eq_true_eq] at h
  omega

theorem copyLimit_lt {level : Nat} (h0 : level ≠ 0) (h3 : level ≤ 3) : copyLimit level < 2 ^ 40 := by
  unfold copyLimit
  split
  · decide
  · split
    · decide
    · rw [if_pos (by omega)]
      decide

/-- Length and type of a new header (R126). -/
theorem newHeader_fields {len : Nat} (hlen : len < 2 ^ 40) (desc epoch : Nat) (heap secure : Bool) :
    (newHeader len desc epoch heap secure).len = len ∧ (newHeader len desc epoch heap secure).typ = fieldN desc 0 8 := by
  have htyp : fieldN desc 0 8 < 2 ^ 8 := Nat.mod_lt _ (by decide)
  have hfmt : fieldN desc 8 5 < 2 ^ 5 := Nat.mod_lt _ (by decide)
  have hblog : fieldN desc 13 3 < 2 ^ 3 := Nat.mod_lt _ (by decide)
  have hbit : ∀ (b : Bool) (n : Nat), boolBit b n = 2 ^ n ∨ boolBit b n = 0 := by
    intro b n
    cases b
    · exact .inr rfl
    · exact .inl rfl
  have h56 := hbit heap 56
  have h57 := hbit (desc.testBit 19) 57
  have h58 := hbit secure 58
  simp only [Hdr.len, Hdr.typ, newHeader, bitsOf, BitVec.toNat_ofNat]
  generalize fieldN desc 0 8 = typ at *
  generalize fieldN desc 8 5 = fmt at *
  generalize fieldN desc 13 3 = blog at *
  generalize boolBit heap 56 = x at *
  generalize boolBit (desc.testBit 19) 57 = y at *
  generalize boolBit secure 58 = z at *
  simp only [fieldN]
  omega

section
variable (s : State) {len : Nat} (hlen : len < 2 ^ 40) (desc : Word) (ar : Area)
include hlen

theorem State.len_allocatedReg : (s.allocatedReg len desc ar).sh.len.toNat = len := by
  rw [State.allocatedReg, Hdr.shadow, (newHeader_fields hlen ..).1, BitVec.toNat_ofNat, Nat.mod_eq_of_lt hlen]

theorem State.typ_allocatedReg : (s.allocatedReg len desc ar).sh.typ.toNat = fieldN desc.toNat 0 8 := by
  rw [State.allocatedReg, Hdr.shadow, (newHeader_fields hlen ..).2, BitVec.toNat_ofNat, fieldN, Nat.mod_mod]

end

section
variable {d : BitVec 4} {a b : BitVec 5} {s : State} (ha : plain a = true) (hb : plain b = true)
include ha hb

theorem exec_alloc_illegal (h : allocLegal (s.src a).toNat (s.src b).toNat = false) :
    exec (.alloc d a b) s = .next (s.trapHere Cause.type.code (s.src b) false) := by
  refine runInstr_trapHere (i := .alloc d a b) rfl (hasUnit_of_plain rfl rfl s) ?_
  exact (Op.bind_ok (rdS_plain ha _)).trans ((Op.bind_ok (rdS_plain hb _)).trans (Op.bind_error (require_false h ..)))

variable (h : allocLegal (s.src a).toNat (s.src b).toNat = true) (h0 : fieldN (s.src b).toNat 16 3 ≠ 0)
include h h0

theorem exec_alloc_long (hlen : copyLimit (fieldN (s.src b).toNat 16 3) < (s.src a).toNat) :
    exec (.alloc d a b) s = .next (s.trapHere Cause.bounds.code (s.src a) false) := by
  refine runInstr_trapHere (i := .alloc d a b) rfl (hasUnit_of_plain rfl rfl s) ?_
  refine (Op.bind_ok (rdS_plain ha _)).trans ((Op.bind_ok (rdS_plain hb _)).trans ((Op.bind_ok (require_true h ..)).trans
    (Op.bind_error (require_false ?_ ..))))
  exact (if_neg h0).trans (decide_eq_false (Nat.not_le.2 hlen))

variable (hlen : (s.src a).toNat ≤ copyLimit (fieldN (s.src b).toNat 16 3)) {ar : Area}
  (har : s.areaFor s.rid s.site (fieldN (s.src b).toNat 16 3) = some ar)
  (hfree : footprint (fieldN (s.src b).toNat 8 5) (fieldN (s.src b).toNat 13 3) (s.src a).toNat ≤ ar.free)
include hlen har hfree

theorem exec_alloc_places (hf : s.calm = true) : exec (.alloc d a b) s
    = .next ((((s.starts (.alloc d a b)).allocated (fieldN (s.src b).toNat 16 3) (s.src a).toNat (s.src b) ar).becomes
        (s.ctx.setA d.toNat (s.allocatedReg (s.src a).toNat (s.src b) ar)))) := by
  have hlevel := allocLegal_level h
  have hstart : (s.starts (.alloc d a b)).PadOnly s := .of_cores rfl rfl
  have hpad := hstart.trans
    (State.padOnly_allocated (s.starts (.alloc d a b)) (fieldN (s.src b).toNat 16 3) (s.src a).toNat (s.src b) ar)
  have hepoch : (((s.starts (.alloc d a b)).areaFor ((s.starts (.alloc d a b)).core.recId.getD 0) (s.starts (.alloc d a b)).site
      (fieldN (s.src b).toNat 16 3)).map (·.passes.toNat)).getD 0 = ar.passes.toNat := congrArg
          (fun o : Option Area => (o.map _).getD 0) har
  have hptr := (State.ptrTo_allocated (s.starts (.alloc d a b)) (fieldN (s.src b).toNat 16 3) (s.src a).toNat (s.src b) ar
    (bitsOf (s.src b) 8 5 * 8 + bitsOf (s.src b) 13 3) (.pad (ar.base + ar.bump))).trans (State.ptrTo_congr hstart rfl _ _)
  have htx := State.allocated_tx (s.starts (.alloc d a b)) (fieldN (s.src b).toNat 16 3) (s.src a).toNat (s.src b) ar
  have hbound : (if bitsOf (s.src b) 16 3 = 0 then decide ((s.src a).toNat < 2 ^ 40)
      else decide ((s.src a).toNat ≤ copyLimit (bitsOf (s.src b) 16 3))) = true := (if_neg h0).trans (decide_eq_true hlen)
  have hroom := needRoom_of_free (s := s.starts (.alloc d a b)) (entry := false) har hfree fun he => Bool.noConfusion he
  have htake := takeRoom_run (s := s.starts (.alloc d a b)) har
      (footprint (bitsOf (s.src b) 8 5) (bitsOf (s.src b) 13 3) (s.src a).toNat)
  refine runInstr_retires_via (i := .alloc d a b) (w := s) (u := State.setCtx _ _) rfl (hasUnit_of_plain rfl rfl s) ?_ 
    (hpad.follows.trans (.setCtx _ _)) hf
  refine (Op.bind_ok (rdS_plain ha _)).trans ((Op.bind_ok (rdS_plain hb _)).trans ((Op.bind_ok (require_true h ..)).trans ?_))
  refine (Op.bind_ok (require_true hbound ..)).trans ((Op.bind_ok (Op.get_run _)).trans ((congrFun (if_neg h0) _).trans ?_))
  refine (Op.bind_ok hroom).trans ((Op.bind_ok (Op.get_run _)).trans ((Op.bind_ok htake).trans ?_))
  refine (Op.bind_ok (a := ()) (t := (s.starts (.alloc d a b)).allocated (fieldN (s.src b).toNat 16 3) (s.src a).toNat (s.src b) ar)
    ?_).trans ((Op.bind_ok (Op.get_run _)).trans ?_)
  · rw [State.allocated, ← hepoch]
    rfl
  · rw [State.noting_of_tx ((State.setCtx_tx ..).trans htx), State.allocatedReg, ← hepoch, ← hpad.ctx, ← hptr]
    rfl

end

/-! What an instruction that retires leaves. -/

theorem State.ctx_becomes {s : State} (h : s.core.act < 13) (x : Context) : (s.becomes x).ctx = { x with
    pc := x.pc + 4, pfx := .none, instret := x.instret + 1, st := if x.st = .waiting then .ready else x.st } := by
  have hset : (s.setCtx x).core.act < 13 := by rwa [State.core_setCtx]
  rw [State.becomes, State.retires, State.ctx_retiresTo hset, State.ctx_setCtx _ h]
  rfl

theorem State.pad_becomes (s : State) (x : Context) (n : Nat) : ((s.becomes x).coreAt n).pad = (s.coreAt n).pad := by
  by_cases hn : n = s.site
  · subst hn
    have hcore : (s.becomes x).coreAt s.site = (s.becomes x).core := rfl
    rw [hcore, State.becomes, State.retires, State.core_retiresTo, State.core_setCtx]
    rfl
  · exact congrArg Core.pad ((State.coreAt_retiresTo_ne (s.setCtx x) none hn).trans (State.coreAt_setCore_ne _ hn _))

theorem State.areaFor_becomes (s : State) (x : Context) (rid n level : Nat) :
    (s.becomes x).areaFor rid n level = s.areaFor rid n level := State.areaFor_congr (s.pad_becomes x n) rfl level

/-- What `alloc` leaves at a pad level with room (R145). -/
theorem alloc_leaves {d : BitVec 4} {a b : BitVec 5} {s : State} {ar : Area} (ha : plain a = true) (hb : plain b = true)
    (hf : s.calm = true)
    (h : allocLegal (s.src a).toNat (s.src b).toNat = true) (h0 : fieldN (s.src b).toNat 16 3 ≠ 0)
    (hlen : (s.src a).toNat ≤ copyLimit (fieldN (s.src b).toNat 16 3)) (hact : s.core.act < 13)
    (har : s.areaFor s.rid s.site (fieldN (s.src b).toNat 16 3) = some ar)
    (hfree : footprint (fieldN (s.src b).toNat 8 5) (fieldN (s.src b).toNat 13 3) (s.src a).toNat ≤ ar.free) :
    ∃ t, exec (.alloc d a b) s = .next t
      ∧ t.mem = s.mem.place (ar.base + ar.bump) (footprint (fieldN (s.src b).toNat 8 5) (fieldN (s.src b).toNat 13 3)
          (s.src a).toNat)
        (newHeader (s.src a).toNat (s.src b).toNat ar.passes.toNat false s.core.secure) (s.src a).toNat
        (List.replicate (scaleBytes (fieldN (s.src b).toNat 8 5) (fieldN (s.src b).toNat 13 3) (s.src a).toNat) 127)
      ∧ t.areaFor s.rid s.site (fieldN (s.src b).toNat 16 3)
        = some (ar.bumpAlloc (footprint (fieldN (s.src b).toNat 8 5) (fieldN (s.src b).toNat 13 3) (s.src a).toNat)).1
      ∧ t.ctx.areg d.toNat = s.allocatedReg (s.src a).toNat (s.src b) ar ∧ t.ctx.s = s.ctx.s ∧ t.ctx.pc = s.ctx.pc + 4 := by
  refine ⟨_, exec_alloc_places ha hb h h0 hlen har hfree hf, State.allocated_mem .., ?_, ?_⟩
  · have hlevel := allocLegal_level h
    refine (State.areaFor_becomes ..).trans ((State.areaFor_congr rfl rfl _).trans
      (State.areaFor_taken (s.starts (.alloc d a b)) _ _ _ _ _ (by omega) hlevel))
  · have hact' : ((s.starts (.alloc d a b)).allocated (fieldN (s.src b).toNat 16 3) (s.src a).toNat (s.src b) ar).core.act
        < 13 := by
      rw [(State.padOnly_allocated ..).follows.act]
      exact hact
    rw [State.ctx_becomes hact']
    exact ⟨Context.areg_setA_self _ d.isLt _, rfl, rfl⟩

/-! A release at the object's own place (R149). -/

theorem releaseObj_pad_run {p canon : Word} {sc k : Nat} {s : State} (ht : releaseTarget p sc canon (.pad k) s = .ok (.pad k) s)
    (hb : writeBack p canon (.pad k) (.pad k) s = .ok () s) (hw : s.watches canon = false) :
    releaseObj p sc canon (.pad k) s = .ok (((s.mem.hdr k).version + 1) % 2 ^ 32)
      { s with mem := s.mem.setHdr k { (if 2 ≤ sc then (s.mem.hdr k).setFlag 56 true else s.mem.hdr k) with
        w1 := BitVec.ofNat 64 (((s.mem.hdr k).version + 1) % 2 ^ 32 + sc % 8 * 2 ^ 32) } } := by
  refine (Op.bind_ok ht).trans ((Op.bind_ok hb).trans ((Op.bind_ok (Op.get_run _)).trans ((Op.bind_ok (Op.set_run ..)).trans ?_)))
  refine (Op.bind_ok ((noteWatch_run ..).trans (congrArg (EStateM.Result.ok ()) (if_neg ?_)))).trans rfl
  exact Bool.eq_false_iff.1 hw

/-! A fresh copy (R130). -/

/-- The header of a copy: the object's own, with PADCOPY set, LINK to its home, and the epoch of the area. -/
def Hdr.copied (h : Hdr) (canon : Word) (epoch : Nat) : Hdr :=
  { h.setFlag 60 true with w2 := canon, w3 := BitVec.ofNat 64 epoch }

/-- The state in which a copy of the pad object at `src` stands at the bump pointer of an area and in its directory. -/
def State.copied (s : State) (level : Nat) (canon : Word) (src : Nat) (ar : Area) : State :=
  let h := s.mem.hdr src
  let t := s.taken s.rid s.site level h.foot ar
  let key := ar.base + ar.bump
  let m := (t.mem.setHdr key (h.copied canon ar.passes.toNat)).setBytes (key + 32) (t.mem.bytes (src + 32) h.span)
  let t1 : State := { t with mem := m }
  ((t1.copyPoison (.pad src) key 0 h.span).markUnits key h.foot).setArea s.rid s.site level
    { (ar.bumpAlloc h.foot).1 with dir := store canon.toNat key ar.dir }

theorem State.copyPoison_parts (s : State) (src : Loc) (key off n : Nat) : ∃ p, s.copyPoison src key off n =
    { s with poison := p } := by
  unfold State.copyPoison
  split
  · exact ⟨s.poison, rfl⟩
  · exact ⟨_, rfl⟩

theorem State.areaFor_copyPoison (s : State) (src : Loc) (key off n rid m level : Nat) :
    (s.copyPoison src key off n).areaFor rid m level = s.areaFor rid m level := by
  obtain ⟨p, hp⟩ := s.copyPoison_parts src key off n
  rw [hp]
  rfl

theorem State.areaFor_markUnits (s : State) (key n rid m level : Nat) : (s.markUnits key n).areaFor rid m level
    = s.areaFor rid m level := by
  obtain ⟨u, hu⟩ := s.markUnits_parts key n
  rw [hu]
  rfl

theorem State.enterCopy_of_area {s : State} {rid n level key : Nat} {canon : Word} {a : Area} (h : s.areaFor rid n level = some a) :
    s.enterCopy rid n level canon key = s.setArea rid n level { a with dir := store canon.toNat key a.dir } := by
  rw [State.enterCopy, h]

/-- An own `hwr` to the object does not stand before its copy. -/
theorem ownWrites_of_none {s : State} {l : Loc} (h : ∀ w ∈ s.core.hwrs, w.obj ≠ l) : ownWrites l s = .ok () s := by
  have hany : s.core.hwrs.any (fun w => decide (w.ctx = s.core.act) && decide (w.obj = l)) = false := by
    rw [List.any_eq_false]
    intro w hw
    simp [h w hw]
  exact congrFun (if_neg (Bool.eq_false_iff.1 hany)) s

section
variable {s : State} {level src : Nat} {canon : Word} {ar : Area} (har : s.areaFor s.rid s.site level = some ar)
  (hfree : (s.mem.hdr src).foot ≤ ar.free) (hdir : ar.dir.length < ar.dirCap) (hh : isHandler src = false)
  (hr : s.clearOfReds (.pad src) 0 (s.mem.hdr src).span = true) (hw : ∀ h ∈ s.core.hwrs, h.obj ≠ .pad src)
  (h1 : 1 ≤ level) (h3 : level ≤ 3)
include har hfree hdir hh hr hw h1 h3

theorem makeCopy_run : makeCopy level canon (.pad src) s = .ok (ar.base + ar.bump) (s.copied level canon src ar) := by
  have hroom := needRoom_of_free (entry := true) har hfree fun _ => hdir
  have htake := takeRoom_run har (s.mem.hdr src).foot
  have hafter := s.areaFor_taken s.rid s.site level (s.mem.hdr src).foot ar h1 h3
  have hsite := (s.padOnly_taken s.rid s.site level (s.mem.hdr src).foot ar).site
  have hepoch : (((s.taken s.rid s.site level (s.mem.hdr src).foot ar).areaFor s.rid
      (s.taken s.rid s.site level (s.mem.hdr src).foot ar).site level).map (·.passes.toNat)).getD 0 = ar.passes.toNat := by
    rw [hsite, hafter]
    rfl
  have hbytes : (s.taken s.rid s.site level (s.mem.hdr src).foot ar).bodyBytes (.pad src) 0 (s.mem.hdr src).span
      = (s.taken s.rid s.site level (s.mem.hdr src).foot ar).mem.bytes (src + 32) (s.mem.hdr src).span :=
    if_neg (Bool.eq_false_iff.1 hh)
  refine (Op.bind_ok (Op.get_run s)).trans ((Op.bind_ok (ownWrites_of_none hw)).trans ?_)
  refine (Op.bind_ok (awaitReds_of_none (State.clearOfReds_iff.1 hr))).trans
      ((Op.bind_ok hroom).trans ((Op.bind_ok htake).trans ?_))
  refine (Op.bind_ok (Op.get_run _)).trans ((Op.bind_ok (Op.set_run ..)).trans ?_)
  refine congrArg (EStateM.Result.ok (ar.base + ar.bump)) ?_
  refine (State.enterCopy_of_area (a := (ar.bumpAlloc (s.mem.hdr src).foot).1) ?_).trans ?_
  · rw [State.areaFor_markUnits, State.areaFor_copyPoison, hsite]
    exact hafter
  · refine (congrArg (fun n => State.setArea _ _ n _ _) hsite).trans ?_
    rw [State.copied, Hdr.copied, ← hepoch, ← hbytes]
    rfl

end

section
variable (s : State) (level : Nat) (canon : Word) (src : Nat) (ar : Area)

/-- The copy before its entry in the directory. -/
theorem State.copied_eq : ∃ p u, s.copied level canon src ar = ({ s.taken s.rid s.site level (s.mem.hdr src).foot ar with
      poison := p, units := u
      mem := s.mem.place (ar.base + ar.bump) (s.mem.hdr src).foot ((s.mem.hdr src).copied canon ar.passes.toNat) 0
        ((s.mem.clear (ar.base + ar.bump) (s.mem.hdr src).foot).bytes (src + 32) (s.mem.hdr src).span) } : State).setArea s.rid s.site level
    { (ar.bumpAlloc (s.mem.hdr src).foot).1 with dir := store canon.toNat (ar.base + ar.bump) ar.dir } := by
  rw [State.copied]
  dsimp only
  obtain ⟨u, hu⟩ := State.markUnits_parts (State.copyPoison _ (.pad src) (ar.base + ar.bump) 0 (s.mem.hdr src).span)
      (ar.base + ar.bump) (s.mem.hdr src).foot
  rw [hu]
  obtain ⟨p, hp⟩ := State.copyPoison_parts _ (.pad src) (ar.base + ar.bump) 0 (s.mem.hdr src).span
  rw [hp, State.taken_mem]
  exact ⟨p, u, rfl⟩

theorem State.padOnly_copied : (s.copied level canon src ar).PadOnly s := by
  obtain ⟨p, u, h⟩ := s.copied_eq level canon src ar
  rw [h]
  refine State.PadOnly.trans ?_ (State.padOnly_setArea ..)
  exact (s.padOnly_taken ..).trans (.of_cores rfl rfl)

theorem State.copied_mem : (s.copied level canon src ar).mem = s.mem.place (ar.base + ar.bump) (s.mem.hdr src).foot
    ((s.mem.hdr src).copied canon ar.passes.toNat) 0
    ((s.mem.clear (ar.base + ar.bump) (s.mem.hdr src).foot).bytes (src + 32) (s.mem.hdr src).span) := by
  obtain ⟨p, u, h⟩ := s.copied_eq level canon src ar
  obtain ⟨c, r, hset⟩ := State.setArea_parts (_ : State) s.rid s.site level
    { (ar.bumpAlloc (s.mem.hdr src).foot).1 with dir := store canon.toNat (ar.base + ar.bump) ar.dir }
  rw [h, hset]

theorem State.copied_tx : (s.copied level canon src ar).tx = s.tx := by
  obtain ⟨p, u, h⟩ := s.copied_eq level canon src ar
  obtain ⟨c, r, hset⟩ := State.setArea_parts (_ : State) s.rid s.site level
    { (ar.bumpAlloc (s.mem.hdr src).foot).1 with dir := store canon.toNat (ar.base + ar.bump) ar.dir }
  rw [h, hset]
  exact s.taken_tx ..

theorem State.copyAt_copied (h1 : 1 ≤ level) (h3 : level ≤ 3) :
    (s.copied level canon src ar).copyAt s.rid s.site level canon = some (ar.base + ar.bump) := by
  rw [State.copyAt, State.copied, State.areaFor_setArea _ _ _ _ _ h1 h3]
  exact find_store_self ..

end

/-- A copy's header tells the object's length and type (R126). -/
theorem Hdr.copied_fields (h : Hdr) (canon : Word) (epoch : Nat) : (h.copied canon epoch).len = h.len
    ∧ (h.copied canon epoch).typ = h.typ ∧ (h.copied canon epoch).padcopy = true ∧ (h.copied canon epoch).link = canon := by
  have hw0 : (h.copied canon epoch).w0 = (h.setFlag 60 true).w0 := rfl
  rw [Hdr.len, Hdr.typ, Hdr.padcopy, hw0]
  exact ⟨bitsOf_setFlag h true (by decide) (by decide), bitsOf_setFlag h true (by decide) (by decide), getLsbD_setFlag h true
      (by decide), rfl⟩

section
variable (s : State) (level : Nat) (canon : Word) (src : Nat) (ar : Area)

theorem State.hdr_copied : (s.copied level canon src ar).mem.hdr (ar.base + ar.bump) =
    (s.mem.hdr src).copied canon ar.passes.toNat := by
  rw [State.copied_mem, Mem.hdr_place]

/-- The copy's body is the object's, which lies beside it. -/
theorem State.byte_copied (h : src + (s.mem.hdr src).foot ≤ ar.base + ar.bump ∨ ar.base + ar.bump + (s.mem.hdr src).foot ≤ src)
    {j : Nat}
    (hj : j < (s.mem.hdr src).span) :
    (s.copied level canon src ar).mem.byte (ar.base + ar.bump + 32 + j) = s.mem.byte (src + 32 + j) := by
  have hfoot := le_footprint (s.mem.hdr src).fmt (s.mem.hdr src).blog (s.mem.hdr src).len
  have hspan : 32 + (s.mem.hdr src).span ≤ (s.mem.hdr src).foot := by
    rw [Hdr.span, Hdr.scales, Hdr.foot]
    omega
  have hlen : j < ((s.mem.clear (ar.base + ar.bump) (s.mem.hdr src).foot).bytes (src + 32) (s.mem.hdr src).span).length := by
    rwa [Mem.length_bytes]
  have hin := Mem.byte_place_inside s.mem (ar.base + ar.bump) (s.mem.hdr src).foot ((s.mem.hdr src).copied canon ar.passes.toNat) 0
    _ hlen
  rw [State.copied_mem]
  refine hin.trans ?_
  rw [Mem.getElem_bytes, Mem.byte_clear, if_neg]
  simp only [within, Bool.and_eq_true, decide_eq_true_eq]
  omega

end

/-- Settles O11: `alloc` and a copy are placed whole at the bump pointer; a release writes one header. -/
theorem allocationsVersionsAndCopies : Obligations.AllocationsVersionsAndCopies := by
  refine ⟨?_, ?_, ?_⟩
  · intro d a b s ar ha hb hf len desc level fmt blog key
    refine ⟨exec_alloc_illegal ha hb, exec_alloc_long ha hb, fun h h0 hlen hact har hfree => ?_⟩
    obtain ⟨t, hexec, hmem, harea, hreg, hs, hpc⟩ := alloc_leaves ha hb hf h h0 hlen hact har hfree
    have hfoot : 32 + len + scaleBytes fmt blog len ≤ footprint fmt blog len := le_footprint fmt blog len
    have hlen40 : len < 2 ^ 40 := by
      have hlevel := allocLegal_level h
      have hlimit : copyLimit level < 2 ^ 40 := copyLimit_lt h0 hlevel
      exact Nat.lt_of_le_of_lt hlen hlimit
    refine ⟨t, hexec, ?_, ?_, ?_, ?_, harea, ?_, ?_, ?_, ?_, ?_, hs, hpc⟩
    · rw [hmem, Mem.hdr_place]
    · intro k h1 h2
      have hk : k < key + footprint fmt blog len := by omega
      rw [hmem]
      exact Mem.byte_place_zero _ _ _ _ _ _ h1 hk (.inl h2)
    · intro k h1 h2
      obtain ⟨j, rfl⟩ := Nat.exists_eq_add_of_le h1
      have hj : j < (List.replicate (scaleBytes fmt blog len) 127#8).length := by
        rw [List.length_replicate]
        omega
      rw [hmem]
      exact (Mem.byte_place_inside _ _ _ _ _ _ hj).trans (List.getElem_replicate ..)
    · intro k hk
      rw [hmem]
      exact Mem.byte_place_outside _ _ _ _ _ _ (by rw [List.length_replicate]; exact hfoot) hk
    · rw [hreg]
      rfl
    · rw [hreg]
      rfl
    · rw [hreg]
      rfl
    · rw [hreg]
      exact s.len_allocatedReg hlen40 _ ar
    · rw [hreg]
      exact s.typ_allocatedReg hlen40 _ ar
  · intro sc p canon i s k
    exact releaseObj_pad_run (s := s.starts i)
  · intro i level k canon s ar har hfree hdir hh hr hw hdis h1 h3
    obtain ⟨hlen, htyp, hcopy, hlink⟩ := (s.mem.hdr k).copied_fields canon ar.passes.toNat
    have hrun := makeCopy_run (s := s.starts i) (canon := canon) har hfree hdir hh hr hw h1 h3
    have hpad : ((s.starts i).copied level canon k ar).PadOnly s :=
      State.PadOnly.trans (t := s.starts i) (.of_cores rfl rfl) (State.padOnly_copied ..)
    have hhdr := (s.starts i).hdr_copied level canon k ar
    refine ⟨_, (s.starts i).copied level canon k ar, ?_, rfl, ?_, ?_, ?_, ?_, fun j hj => ?_, ?_⟩
    · rw [leads, hpad.starts, State.noting_of_tx (State.copied_tx ..)]
      exact hrun
    · rw [hhdr]
      exact hlen
    · rw [hhdr]
      exact htyp
    · rw [hhdr]
      exact hcopy
    · rw [hhdr]
      exact hlink
    · exact State.byte_copied (s.starts i) level canon k ar hdis hj
    · exact (s.starts i).copyAt_copied level canon k ar h1 h3

end Sys2Proof.Machine
end

section
/-! SUPPORT. Releases and acquires (R149, R152, R184). -/

namespace Sys2Proof.Machine

theorem whole_ok {α : Type} {f : Op α} {s t : State} {a : α} (h : f s = .ok a t) : whole f s = .ok a t := by
  rw [whole, h]

theorem whole_error {α : Type} {f : Op α} {s t : State} {e : Exit} (h : f s = .error e t) :
    whole f s = .error e { s with pageReqs := t.pageReqs } := by
  rw [whole, h]

theorem waitAccesses_none {s : State} (h : s.accessPending s.site s.core.act = false) : waitAccesses s = .ok () s :=
  congrFun (if_neg (Bool.eq_false_iff.1 h)) s

/-! The two instructions by their parts. -/

section
variable {d : BitVec 5} {a : BitVec 4} {sc : BitVec 3} {s t u v w : State} {n : Nat}

theorem scope_wf (hsc : sc.toNat < 6) : (Instr.rel d a sc).wf = true ∧ (Instr.acq d a sc).wf = true :=
  ⟨decide_eq_true (Nat.le_of_lt_succ hsc), decide_eq_true (Nat.le_of_lt_succ hsc)⟩

theorem exec_rel_gives {x y : Word × Loc} (hd : plain d = true) (hsc : sc.toNat < 6) (hf : w.calm = true)
    (hx : leads (.rel d a sc) (scopeTarget a .rel) s x t) (hp : t.accessPending t.site t.core.act = false)
    (hy : leads (.rel d a sc) (escapeReg a.toNat sc.toNat) t y u) (hc : leads (.rel d a sc) (cumulativePush sc.toNat) u ⟨⟩ v)
    (hr : leads (.rel d a sc) (releaseObj (t.ctx.areg a.toNat).ptr sc.toNat y.1 y.2) v n w) :
    exec (.rel d a sc) s = .next (w.gives d (BitVec.ofNat 64 n)) := by
  refine runInstr_gives_of_leads (i := .rel d a sc) (scope_wf hsc).1 (hasUnit_of_plain rfl rfl s) ?_ hf
  refine (Op.bind_ok hx).trans ((Op.bind_ok (waitAccesses_none (s := t.starts (.rel d a sc)) hp)).trans
      ((Op.bind_ok (rdA_run ..)).trans ?_))
  refine (Op.bind_ok (a := n) (t := w.starts (.rel d a sc)) (whole_ok ?_)).trans (wrS_plain hd ..)
  refine (Op.bind_ok hy).trans ?_
  exact (Op.bind_ok hc).trans hr

theorem exec_acq_gives {x : Word × Loc} (hd : plain d = true) (hsc : sc.toNat < 6) (hf : w.calm = true)
    (hx : leads (.acq d a sc) (scopeTarget a .acq) s x t)
    (hq : leads (.acq d a sc) (acquireObj (t.ctx.areg a.toNat).ptr sc.toNat x.1 x.2) t n w) :
    exec (.acq d a sc) s = .next (w.gives d (BitVec.ofNat 64 n)) := by
  refine runInstr_gives_of_leads (i := .acq d a sc) (scope_wf hsc).2 (hasUnit_of_plain rfl rfl s) ?_ hf
  refine (Op.bind_ok hx).trans ((Op.bind_ok (rdA_run ..)).trans ((Op.bind_ok (whole_ok hq)).trans ?_))
  exact wrS_plain hd ..

end

/-- The object's type does not permit the instruction (R127). -/
theorem scopeTarget_type {a : BitVec 4} {kind : ObjAccess} {s u t : State} {x : Word × Loc} {l : Loc}
    (hx : named (s.ctx.areg a.toNat).ptr s = .ok x u) (hl : nearestFrom (s.ctx.areg a.toNat).ptr 3 x.1 x.2 u = .ok l t)
    (h : typeAllows (t.hdr l).typ kind (t.core.inMiss || t.core.isPriv) t.core.isPriv = false) :
    scopeTarget a kind s = .error (.trap .type ((s.ctx.areg a.toNat).cur.setWidth 64)) t := by
  have hallowed : allowed (t.hdr l).typ kind t = .ok (typeAllows (t.hdr l).typ kind
      (t.core.inMiss || t.core.isPriv) t.core.isPriv) t := rfl
  refine (Op.bind_ok (rdA_run ..)).trans ((Op.bind_ok hx).trans ((Op.bind_ok hl).trans ((Op.bind_ok (Op.get_run t)).trans ?_)))
  exact (Op.bind_ok hallowed).trans (Op.bind_error (require_false h ..))

/-! An object that lies at its home in the executing core's own pad. -/

/-- The object at key k lies in the executing core's own pad. -/
def State.inOwnPad (s : State) (k : Nat) : Prop := keyLevel k = 3 ∧ ownPlace s.site k = true

theorem State.inOwnPad_of_ownObject {s : State} {r k : Nat} (h : s.ownObject r = some k) (hs : s.site < siteCount) :
    s.inOwnPad k := by
  obtain ⟨-, hoff, -, hk, -, -, -⟩ := State.ownObject_spec h
  have hsite : (k - 2 ^ 60) / 2 ^ 18 = s.site := hk ▸ site_of_corePadKey hoff
  have hcount : siteCount = 8448 := rfl
  have htop : padTop = 229376 := rfl
  have hkey : corePadKey s.site = 2 ^ 60 + s.site * 2 ^ 18 := rfl
  have hlevel : keyLevel k = 3 := by
    rw [keyLevel, if_neg (by omega), if_pos (by omega)]
  refine ⟨hlevel, ?_⟩
  unfold ownPlace
  dsimp only
  rw [hlevel, if_pos rfl]
  exact decide_eq_true hsite

section
variable {s : State} {k sc : Nat} {p canon : Word} (h : s.inOwnPad k)
include h

theorem State.copyHere_own : s.copyHere 3 canon (.pad k) = some (.pad k) := by
  have hhere : (decide (Loc.level (.pad k) = 3) && ownPlace s.site k) = true := by
    rw [Loc.level, h.1, h.2]
    rfl
  exact if_pos hhere

theorem nearestFrom_own : nearestFrom p 3 canon (.pad k) s = .ok (.pad k) s := by
  have hnear : s.nearest 3 canon (.pad k) = .pad k := by
    have hlevels : ([3, 2, 1].filter fun lv => decide (lv ≤ 3)) = [3, 2, 1] := rfl
    rw [State.nearest, hlevels, List.findSome?_cons, State.copyHere_own h]
    rfl
  rw [nearestFrom, Op.bind_ok (Op.get_run s), hnear]
  rfl

theorem releaseTarget_own (hsc : sc ≤ 1) : releaseTarget p sc canon (.pad k) s = .ok (.pad k) s := by
  have hlv : scopeLevel sc = 3 := if_pos hsc
  rw [releaseTarget, hlv]
  refine (Op.bind_ok (Op.get_run s)).trans ?_
  rw [State.copyHere_own h]
  rfl

theorem State.pathCopies_own : s.pathCopies canon (.pad k) (.pad k) = [] := by
  rw [State.pathCopies, Loc.level, h.1]
  rfl

theorem writeBack_own (hr : s.clearOfReds (.pad k) 0 (s.mem.hdr k).span = true) (hp : (s.mem.hdr k).poison = false)
    (hb : s.bodyPoisoned (.pad k) 0 (s.mem.hdr k).span = false) : writeBack p canon (.pad k) (.pad k) s = .ok () s := by
  have hlost : ((s.hdr (.pad k)).poison || s.bodyPoisoned (.pad k) 0 (s.hdr (.pad k)).span) = false := by
    rw [Bool.or_eq_false_iff]
    exact ⟨hp, hb⟩
  refine (Op.bind_ok (Op.get_run s)).trans ?_
  rw [State.pathCopies_own h]
  refine (Op.bind_ok (Op.get_run s)).trans ?_
  refine (Op.bind_ok (awaitReds_of_none (State.clearOfReds_iff.1 hr))).trans ((Op.bind_ok (Op.get_run s)).trans ?_)
  exact congrFun (if_neg (Bool.eq_false_iff.1 hlost)) s

end

/-! The parts of `rel` and `acq` on such an object. -/

/-- Entries that lie within the scope stay in the acquired set (R184). -/
theorem pushEntry_within {sc : Nat} {e : AcqEntry} (h : e.level ≤ scopeLevel sc) (s : State) : pushEntry sc e s = .ok (some e) s :=
  (Op.bind_ok (Op.get_run s)).trans (congrFun (if_pos h) s)

/-- A loop that keeps every element collects them. -/
theorem Op.forIn_collect {α : Type} {f : α → List α → Op (ForInStep (List α))} {s : State} :
    ∀ (l out : List α), (∀ e ∈ l, ∀ o, f e o s = .ok (.yield (o ++ [e])) s) → forIn l out f s = .ok (out ++ l) s
  | [], out, _ => by
    rw [List.append_nil]
    rfl
  | e :: l, out, h => by
    rw [List.forIn_cons, Op.bind_ok (h e (List.mem_cons_self ..) out)]
    refine (Op.forIn_collect l (out ++ [e]) fun x hx => h x (List.mem_cons_of_mem e hx)).trans ?_
    rw [List.append_assoc, List.singleton_append]

theorem cumulativePush_within {sc : Nat} {s : State} (h : ∀ e ∈ s.ctx.acquired, e.level ≤ scopeLevel sc) :
    cumulativePush sc s = .ok ⟨⟩ (s.setCtx s.ctx) := by
  refine (Op.bind_ok (getCtx_run s)).trans ?_
  refine (Op.bind_ok (Op.forIn_collect s.ctx.acquired [] fun e he o => ?_)).trans ?_
  · exact (Op.bind_ok (pushEntry_within (h e he) s)).trans rfl
  · rfl

theorem named_own {p : Word} {k : Nat} {s : State} (hlevel : ptrLevel p = 3) (hk : s.padFind p = some k)
    (hcopy : (s.mem.hdr k).padcopy = false) (hforward : (s.mem.hdr k).forward = false) :
    named p s = .ok (s.ptrTo (s.mem.hdr k).hi (.pad k), .pad k) s := by
  have hobj : s.objectOf 3 p = some (s.ptrTo (s.mem.hdr k).hi (.pad k), .pad k) := by
    rw [State.objectOf, if_neg (by omega), hk]
    dsimp only
    rw [if_neg (by rw [hcopy]; decide), if_neg (by rw [hforward]; decide)]
  rw [named, if_neg (by omega)]
  refine (congrFun (if_neg (by omega)) s).trans ((Op.bind_ok (Op.get_run s)).trans ?_)
  rw [hobj]
  rfl

/-- The version that a release gives an object. -/
def Hdr.nextVersion (h : Hdr) : Nat := (h.version + 1) % 2 ^ 32

/-- The state after a release at a scope within the core of the object at key k. -/
def State.released (s : State) (k sc : Nat) : State :=
  { s with mem := s.mem.setHdr k { s.mem.hdr k with w1 := BitVec.ofNat 64 ((s.mem.hdr k).nextVersion + sc * 2 ^ 32) } }

section
variable {s : State} {a : BitVec 4} {k sc : Nat} {p canon : Word}

theorem escape_within (hsc : sc ≤ 1) (home : Loc) (s : State) : escape p sc canon home s = .ok (canon, home) s := by
  have hlv : scopeLevel sc = 3 := if_pos hsc
  rw [escape, hlv]
  rfl

theorem escapeReg_own (hsc : sc ≤ 1) {home : Loc} (hn : named (s.ctx.areg a.toNat).ptr s = .ok (canon, home) s) :
    escapeReg a.toNat sc s = .ok (canon, home) s := by
  refine (Op.bind_ok (rdA_run ..)).trans ((Op.bind_ok hn).trans ((Op.bind_ok (escape_within hsc home s)).trans ?_))
  exact (congrFun (if_neg (not_not.2 rfl)) s).trans rfl

variable (h : s.inOwnPad k)
include h

theorem enterAcquired_own {canon : Word} (hl : s.ctx.acquired.length < 16) : enterAcquired canon (keyLevel k) s
    = .ok () (s.setCtx { s.ctx with
      acquired := (s.ctx.acquired.filter fun e => decide (e.obj ≠ canon)) ++ [{ obj := canon, level := 3, place := 0 }] }) := by
  have hentry : s.acqEntry canon 3 = { obj := canon, level := 3, place := 0 } := rfl
  have hset : acquire s.ctx.acquired (s.acqEntry canon 3)
      = ((s.ctx.acquired.filter fun e => decide (e.obj ≠ canon)) ++ [s.acqEntry canon 3], none) := by
    have hl' := s.ctx.acquired.length_filter_le fun x => decide (x.obj ≠ (s.acqEntry canon 3).obj)
    exact if_pos (by omega)
  rw [h.1]
  refine (Op.bind_ok (Op.get_run s)).trans ?_
  rw [hset]
  refine (modCtx_run ..).trans ?_
  rw [hset, hentry]

theorem scopeTarget_own {kind : ObjAccess} (hn : named (s.ctx.areg a.toNat).ptr s = .ok (canon, .pad k) s)
    (hty : typeAllows (s.mem.hdr k).typ kind (s.core.inMiss || s.core.isPriv) s.core.isPriv = true) :
    scopeTarget a kind s = .ok (canon, .pad k) s := by
  have hallowed : allowed (s.mem.hdr k).typ kind s = .ok
      (typeAllows (s.mem.hdr k).typ kind (s.core.inMiss || s.core.isPriv) s.core.isPriv) s := rfl
  refine (Op.bind_ok (rdA_run ..)).trans ((Op.bind_ok hn).trans
      ((Op.bind_ok (nearestFrom_own h)).trans ((Op.bind_ok (Op.get_run s)).trans ?_)))
  exact (Op.bind_ok hallowed).trans ((Op.bind_ok (require_true hty ..)).trans rfl)

theorem releaseObj_own (hsc : sc ≤ 1) (hr : s.clearOfReds (.pad k) 0 (s.mem.hdr k).span = true) (hp : (s.mem.hdr k).poison = false)
    (hb : s.bodyPoisoned (.pad k) 0 (s.mem.hdr k).span = false) (hw : s.watches canon = false) :
    releaseObj p sc canon (.pad k) s = .ok (s.mem.hdr k).nextVersion (s.released k sc) := by
  have hrun := releaseObj_pad_run (p := p) (releaseTarget_own h hsc) (writeBack_own h hr hp hb) hw
  have hmod : sc % 8 = sc := Nat.mod_eq_of_lt (by omega)
  rwa [if_neg (by omega), hmod] at hrun

theorem acquireObj_own (hsc : sc ≤ 1) (hp : (s.mem.hdr k).poison = false)
    (hw : s.secured s.asid (.pad k) = true → s.core.secure = true)
    (hl : s.ctx.acquired.length < 16) : acquireObj p sc canon (.pad k) s = .ok (s.mem.hdr k).version (s.setCtx { s.ctx with
      acquired := (s.ctx.acquired.filter fun e => decide (e.obj ≠ canon)) ++ [{ obj := canon, level := 3, place := 0 }] }) := by
  have hworld : worldCheck p (.pad k) s = .ok () s := by
    refine (Op.bind_ok (Op.get_run s)).trans (congrFun (if_neg ?_) s)
    cases hs : s.secured s.asid (.pad k) with
    | false => exact Bool.false_ne_true
    | true => simp [hw hs]
  have hpoison : poisonCheck p (.pad k) s = .ok () s := by
    refine (Op.bind_ok (Op.get_run s)).trans (congrFun (if_neg ?_) s)
    rw [State.lost, State.hdr, State.hdrKey, hp]
    exact Bool.false_ne_true
  have hscope : scopeLevel sc = 3 := if_pos hsc
  rw [acquireObj, hscope]
  refine (Op.bind_ok (nearestFrom_own h)).trans ((Op.bind_ok hworld).trans
      ((Op.bind_ok hpoison).trans ((Op.bind_ok (Op.get_run s)).trans ?_)))
  have hpath : (if sc ≥ 2 then s.pathCopies canon (.pad k) (.pad k) else []) = [] := if_neg (by omega)
  rw [hpath]
  refine (congrFun (if_neg (by decide)) s).trans ((congrFun (if_pos (by omega)) s).trans ?_)
  exact (Op.bind_ok (enterAcquired_own h hl)).trans rfl

end

/-! `rel` and `acq` of an object of the own pad. -/

section
variable {d : BitVec 5} {a : BitVec 4} {sc : BitVec 3} {s : State} {k : Nat} (hd : plain d = true) (hsc : sc.toNat ≤ 1)
    (hf : s.calm = true)
  (ho : s.ownObject a.toNat = some k) (hs : s.site < siteCount) (hcopy : (s.mem.hdr k).padcopy = false)
  (hp : (s.mem.hdr k).poison = false)
include hd hsc hf ho hs hcopy hp

theorem exec_rel_own (hw : s.watches (s.ptrTo (s.mem.hdr k).hi (.pad k)) = false)
    (hty : typeAllows (s.mem.hdr k).typ .rel (s.core.inMiss || s.core.isPriv) s.core.isPriv = true)
    (hacc : s.accessPending s.site s.core.act = false) (hacq : ∀ e ∈ s.ctx.acquired, e.level ≤ 3)
    (hr : s.clearOfReds (.pad k) 0 (s.mem.hdr k).span = true) (hb : s.bodyPoisoned (.pad k) 0 (s.mem.hdr k).span = false) :
    exec (.rel d a sc) s = .next ((s.released k sc.toNat).gives d (BitVec.ofNat 64 (s.mem.hdr k).nextVersion)) := by
  obtain ⟨hlevel, -, -, -, -, hforward, -⟩ := State.ownObject_spec ho
  have hown := State.inOwnPad_of_ownObject ho hs
  have hown0 : (s.starts (.rel d a sc)).inOwnPad k := hown
  have hname := named_own (s := s.starts (.rel d a sc)) hlevel (State.padFind_of_ownObject ho) hcopy hforward
  have hlv : scopeLevel sc.toNat = 3 := if_pos hsc
  have hpush := cumulativePush_within (sc := sc.toNat) (s := s.starts (.rel d a sc)) (by rw [hlv]; exact hacq)
  have hwatch : ((s.starts (.rel d a sc)).setCtx (s.starts (.rel d a sc)).ctx).watches (s.ptrTo (s.mem.hdr k).hi (.pad k))
      = false := by
    rw [State.watches, State.core_setCtx]
    exact hw
  have hrel := releaseObj_own (s := (s.starts (.rel d a sc)).setCtx (s.starts (.rel d a sc)).ctx)
      (p := (s.ctx.areg a.toNat).ptr) hown hsc hr hp hb hwatch
  refine runInstr_gives_from (i := .rel d a sc) (w := s) (u := s.released k sc.toNat) (scope_wf (by omega)).1
      (hasUnit_of_plain rfl rfl s)
    ?_ rfl rfl hf
  refine (Op.bind_ok (scopeTarget_own hown0 hname hty)).trans ?_
  refine (Op.bind_ok (waitAccesses_none (s := s.starts (.rel d a sc)) hacc)).trans ((Op.bind_ok (rdA_run ..)).trans ?_)
  refine (Op.bind_ok (a := (s.mem.hdr k).nextVersion)
    (t := ((s.starts (.rel d a sc)).released k sc.toNat).setCtx (s.starts (.rel d a sc)).ctx) (whole_ok ?_)).trans ?_
  · refine (Op.bind_ok (escapeReg_own hsc hname)).trans ?_
    exact (Op.bind_ok hpush).trans hrel
  · refine (wrS_plain hd ..).trans ?_
    have hctx : (((s.starts (.rel d a sc)).released k sc.toNat).setCtx (s.starts (.rel d a sc)).ctx).ctx = s.ctx :=
      State.ctx_setCtx_ctx (s.starts (.rel d a sc))
    rw [hctx, State.setCtx_setCtx]
    rfl

theorem exec_acq_own (hty : typeAllows (s.mem.hdr k).typ .acq (s.core.inMiss || s.core.isPriv) s.core.isPriv = true)
    (hw : s.secured s.asid (.pad k) = true → s.core.secure = true) (hl : s.ctx.acquired.length < 16) :
    exec (.acq d a sc) s = .next ((s.setCtx { s.ctx with acquired :=
      (s.ctx.acquired.filter fun e => decide (e.obj ≠ s.ptrTo (s.mem.hdr k).hi (.pad k)))
        ++ [{ obj := s.ptrTo (s.mem.hdr k).hi (.pad k), level := 3, place := 0 }] }).gives d
            (BitVec.ofNat 64 (s.mem.hdr k).version)) := by
  obtain ⟨hlevel, -, -, -, -, hforward, -⟩ := State.ownObject_spec ho
  have hown : (s.starts (.acq d a sc)).inOwnPad k := State.inOwnPad_of_ownObject ho hs
  have hname := named_own (s := s.starts (.acq d a sc)) hlevel (State.padFind_of_ownObject ho) hcopy hforward
  have hacq := acquireObj_own (s := s.starts (.acq d a sc)) (p := (s.ctx.areg a.toNat).ptr)
      (canon := s.ptrTo (s.mem.hdr k).hi (.pad k))
    hown hsc hp hw hl
  refine runInstr_gives_from (i := .acq d a sc) (w := s) (u := s.setCtx _) (scope_wf (by omega)).2 (hasUnit_of_plain rfl rfl s) ?_
    (by rw [State.core_setCtx]; rfl) (by rw [State.core_setCtx]; rfl) hf
  refine (Op.bind_ok (scopeTarget_own hown hname hty)).trans ((Op.bind_ok (rdA_run ..)).trans ?_)
  exact (Op.bind_ok (whole_ok hacq)).trans (wrS_plain hd ..)

end

/-! Copy-ins (R130, R132). -/

/-- The state in which a copy-in is made: at its site and context, and no longer under way. -/
def State.copyInStart (s : State) (c : CopyIn) : State :=
  ({ s with site := c.site, copyins := s.copyins.filter fun x => decide (x ≠ c) } : State).setCore c.site
    { s.coreAt c.site with act := c.ctx }

/-- What executed before executes again. -/
def State.copyInBack (s : State) (c : CopyIn) (t : State) : State :=
  ({ t with site := s.site } : State).setCore c.site { t.coreAt c.site with act := (s.coreAt c.site).act }

theorem State.core_copyInStart (s : State) (c : CopyIn) : (s.copyInStart c).core = { s.coreAt c.site with act := c.ctx } :=
  State.coreAt_setCore_self ..

/-- How a copy-in ends, by what making the copy answers. -/
def State.copyInEnds (s : State) (c : CopyIn) : EStateM.Result Exit State Unit → EStateM.Result Exit State Unit
  | .ok _ t => .ok () (s.copyInBack c t)
  | .error .wait _ => .error .stutter s
  | .error (.trap .padfull _) t => .ok () (s.copyInBack c t)
  | .error _ _ => .ok () (s.copyInBack c (s.copyInStart c))

theorem copyInBody_run {s : State} {k : Nat} {c : CopyIn} (hc : s.copyins[k]? = some c) :
    copyInBody k s = s.copyInEnds c (withRoom (copyInto c.canon) 3 [] (s.copyInStart c)) := by
  rw [copyInBody, hc]
  rfl

section
variable {s : State} {k : Nat} {c : CopyIn} (hc : s.copyins[k]? = some c)
include hc

theorem exec_copyIn_made {t : State} (h : copyInto c.canon (s.copyInStart c) = .ok () t) :
    exec (.copyInComplete k) s = .next (s.copyInBack c t) := by
  refine runEvent_ok (body := copyInBody k) ?_
  rw [copyInBody_run hc, withRoom_ok h]
  rfl

theorem exec_copyIn_gone {w : Word} {cause : Cause} (h : copyInto c.canon (s.copyInStart c) = .error (.trap cause w)
    (s.copyInStart c))
    (hcause : cause = .nullptr ∨ cause = .type) : exec (.copyInComplete k) s = .next (s.copyInBack c (s.copyInStart c)) := by
  refine runEvent_ok (body := copyInBody k) ?_
  rw [copyInBody_run hc, withRoom_error h fun _ _ he => Exit.noConfusion he]
  rcases hcause with rfl | rfl <;> rfl

end

theorem touchLevel_le (typ n : Nat) : touchLevel typ n ≤ 3 := by
  unfold touchLevel
  split
  · omega
  · split
    · omega
    · split
      · omega
      · split <;> omega

theorem nearestFrom_pad {p canon : Word} {top src : Nat} {home : Loc} {s : State} (h : s.nearest top canon home = .pad src) :
    nearestFrom p top canon home s = .ok (.pad src) s := by
  rw [nearestFrom, Op.bind_ok (Op.get_run s), h]
  rfl

theorem named_of_object {p : Word} {x : Word × Loc} {s : State} (h : s.objectOf 3 p = some x) (hp : ptrLevel p ≤ 3) : named p s
    = .ok x s := by
  rw [named, if_neg (by omega)]
  refine (congrFun (if_neg (by omega)) s).trans ((Op.bind_ok (Op.get_run s)).trans ?_)
  rw [h]
  rfl

/-- A copy-in that finds the object and room makes the copy. -/
theorem copyInto_run {s : State} {p canon : Word} {home : Loc} {src : Nat} {ar : Area} (hobj : s.objectOf 3 p = some (canon, home))
    (hp : ptrLevel p ≤ 3) (hnear : s.nearest 2 canon home = .pad src) (h0 : (s.mem.hdr src).touchLevel ≠ 0)
    (hlevel : keyLevel src < (s.mem.hdr src).touchLevel) (hnone : s.copyAt s.rid s.site (s.mem.hdr src).touchLevel canon = none)
    (har : s.areaFor s.rid s.site (s.mem.hdr src).touchLevel = some ar) (hfree : (s.mem.hdr src).foot ≤ ar.free)
    (hdir : ar.dir.length < ar.dirCap) (hh : isHandler src = false) (hr : s.clearOfReds (.pad src) 0 (s.mem.hdr src).span = true)
    (hw : ∀ w ∈ s.core.hwrs, w.obj ≠ .pad src) :
    copyInto p s = .ok () (s.copied (s.mem.hdr src).touchLevel canon src ar) := by
  have hmake := makeCopy_run (canon := canon) har hfree hdir hh hr hw (Nat.pos_of_ne_zero h0) (touchLevel_le ..)
  have hcond : (decide ((s.mem.hdr src).touchLevel ≠ 0) && decide (Loc.level (.pad src) < (s.mem.hdr src).touchLevel)
      && (s.copyAt (s.core.recId.getD 0) s.site (s.mem.hdr src).touchLevel canon).isNone) = true := by
    rw [show s.copyAt (s.core.recId.getD 0) s.site (s.mem.hdr src).touchLevel canon = none from hnone, decide_eq_true h0,
      show decide (Loc.level (.pad src) < (s.mem.hdr src).touchLevel) = true from decide_eq_true hlevel]
    rfl
  refine (Op.bind_ok (named_of_object hobj hp)).trans ((Op.bind_ok (nearestFrom_pad hnear)).trans
      ((Op.bind_ok (Op.get_run s)).trans ?_))
  refine (congrFun (if_pos hcond) s).trans ?_
  exact (Op.bind_ok hmake).trans rfl

/-- Without a record no pad pointer but one into the own pad names an object. -/
theorem State.padFind_none {s : State} {p : Word} (hr : s.core.recId = none)
    (hp : ptrLevel p = 3 → ptrTag p ≠ (s.core.ctxAt 0).lcore.toNat ∧ ptrLoc p % 2 ^ 40 < padTop) : s.padFind p = none := by
  have htable : s.tableRecId = none := by
    rw [State.tableRecId, hr]
  have hres : ¬ (decide (ptrLevel p = 3) && decide (padTop ≤ ptrLoc p % 2 ^ 40) && decide (ptrLoc p % 2 ^ 40 < 2 ^ 18)) = true := by
    simp only [Bool.and_eq_true, decide_eq_true_eq]
    rintro ⟨⟨h3, htop⟩, -⟩
    exact Nat.not_le.2 (hp h3).2 htop
  have hown : ¬ (decide (ptrLevel p = 3) && decide (ptrTag p = (s.core.ctxAt 0).lcore.toNat)) = true := by
    simp only [Bool.and_eq_true, decide_eq_true_eq]
    rintro ⟨h3, htag⟩
    exact (hp h3).1 htag
  rw [State.padFind, if_neg hres, if_neg hown, htable]
  rfl

theorem named_gone {s : State} {p : Word} (hr : s.core.recId = none) (h1 : 1 ≤ ptrLevel p)
    (hp : ptrLevel p = 3 → ptrTag p ≠ (s.core.ctxAt 0).lcore.toNat ∧ ptrLoc p % 2 ^ 40 < padTop) :
    ∃ c, (c = .nullptr ∨ c = .type) ∧ named p s = .error (.trap c p) s := by
  rw [named]
  by_cases h7 : ptrLevel p = 7
  · exact ⟨_, .inl rfl, by rw [if_pos h7]; rfl⟩
  · rw [if_neg h7]
    refine ⟨_, .inr rfl, ?_⟩
    by_cases h4 : ptrLevel p ≥ 4
    · exact (congrFun (if_pos h4) s).trans rfl
    · have hobj : s.objectOf 3 p = none := by
        rw [State.objectOf, if_neg (by omega), State.padFind_none hr hp]
      refine (congrFun (if_neg h4) s).trans ((Op.bind_ok (Op.get_run s)).trans ?_)
      rw [hobj]
      rfl

/-! What the device keeps of a copy-in. -/

section
variable (s : State) (c : CopyIn) (level : Nat) (canon : Word) (src : Nat) (ar : Area)

theorem State.copied_copyins : (s.copied level canon src ar).copyins = s.copyins := by
  obtain ⟨p, u, h⟩ := s.copied_eq level canon src ar
  obtain ⟨e, r, hset⟩ := State.setArea_parts (_ : State) s.rid s.site level
    { (ar.bumpAlloc (s.mem.hdr src).foot).1 with dir := store canon.toNat (ar.base + ar.bump) ar.dir }
  obtain ⟨p', d', u', h'⟩ := s.taken_parts s.rid s.site level (s.mem.hdr src).foot ar
  obtain ⟨e', r', hset'⟩ := s.setArea_parts s.rid s.site level (ar.bumpAlloc (s.mem.hdr src).foot).1
  rw [h, hset, h', hset']

theorem State.coreAt_copyInBack (t : State) :
    (s.copyInBack c t).coreAt c.site = { t.coreAt c.site with act := (s.coreAt c.site).act } := State.coreAt_setCore_self ..

theorem State.copyAt_copyInBack (t : State) (rid : Nat) :
    (s.copyInBack c t).copyAt rid c.site level canon = t.copyAt rid c.site level canon := by
  have hpad : ((s.copyInBack c t).coreAt c.site).pad = (t.coreAt c.site).pad := by rw [State.coreAt_copyInBack]
  rw [State.copyAt, State.copyAt, State.areaFor_congr hpad rfl]

/-- The core that holds the copy differs from before in its pad. -/
theorem State.coreAt_copyIn : ∃ a, (s.copyInBack c ((s.copyInStart c).copied level canon src ar)).coreAt c.site
    = { s.coreAt c.site with pad := a } := by
  have hpad := State.padOnly_copied (s.copyInStart c) level canon src ar
  obtain ⟨a, ha⟩ := hpad.core
  have hcore : ((s.copyInStart c).copied level canon src ar).coreAt c.site =
      ((s.copyInStart c).copied level canon src ar).core := by
    rw [State.core, hpad.site]
    rfl
  exact ⟨a, by rw [State.coreAt_copyInBack, hcore, ha, State.core_copyInStart]⟩

end

/-- Settles O12: the two instructions by their parts, and a copy-in by the run of `makeCopy`. -/
theorem releaseAcquireAndCopyIn : Obligations.ReleaseAcquireAndCopyIn := by
  refine ⟨⟨?_, ?_, ?_, ?_, ?_⟩, ?_, ?_, ?_⟩
  · intro d a sc s t u v w x y n hd hsc hf i hx hp hy hc hr
    exact exec_rel_gives hd hsc hf hx hp hy hc hr
  · intro d a sc s t w x n hd hsc hf i hx hq
    exact exec_acq_gives hd hsc hf hx hq
  · intro d a sc rel s t x l hsc i r hx hl hty
    have htarget := scopeTarget_type (s := s.starts i) (u := s.starts i) (t := t.starts i) hx hl hty
    cases rel with
    | true => exact runInstr_of_traps (scope_wf hsc).1 (hasUnit_of_plain rfl rfl s) (Op.bind_error htarget)
    | false => exact runInstr_of_traps (scope_wf hsc).2 (hasUnit_of_plain rfl rfl s) (Op.bind_error htarget)
  · intro d a sc s k hd hsc hf ho hs _ h canon n hcopy hp hw
    exact ⟨exec_rel_own hd hsc hf ho hs hcopy hp hw, exec_acq_own hd hsc hf ho hs hcopy hp⟩
  · intro α x s t e h
    exact whole_error h
  · intro k c s canon home src ar hc core s0 h level hobj hp hnear h0 hlevel hnone har hfree hdir hdis hh hr hw
    have hw0 : ∀ w ∈ (s.copyInStart c).core.hwrs, w.obj ≠ .pad src := by
      rw [State.core_copyInStart]
      exact hw
    have hrun := copyInto_run (s := s.copyInStart c) hobj hp hnear h0 hlevel hnone har hfree hdir hh hr hw0
    have hhdr := (s.copyInStart c).hdr_copied level canon src ar
    obtain ⟨-, -, hcopy, hlink⟩ := h.copied_fields canon ar.passes.toNat
    obtain ⟨a, ha⟩ := s.coreAt_copyIn c level canon src ar
    refine ⟨_, exec_copyIn_made hc hrun, rfl, State.copied_copyins _ level canon src ar, ?_, ?_, ?_, fun j hj => ?_, ?_, ?_⟩
    · refine (State.copyAt_copyInBack ..).trans ?_
      exact (s.copyInStart c).copyAt_copied level canon src ar (Nat.pos_of_ne_zero h0) (touchLevel_le ..)
    · exact (congrArg Hdr.padcopy hhdr).trans hcopy
    · exact (congrArg Hdr.link hhdr).trans hlink
    · exact State.byte_copied (s.copyInStart c) level canon src ar hdis hj
    · exact (congrArg Core.ctxs ha :)
    · exact (congrArg Core.act ha :)
  · intro k c s hc hrec h1 hp
    have hcore := s.core_copyInStart c
    obtain ⟨cause, hcause, hnamed⟩ := named_gone (s := s.copyInStart c) (by rw [hcore]; exact hrec) h1 (by rw [hcore]; exact hp)
    exact ⟨_, exec_copyIn_gone hc (Op.bind_error hnamed) hcause, rfl, rfl⟩
  · intro k s hnone
    exact runEvent_stutter (body := copyInBody k) (e := .stutter) (t := s) (by rw [copyInBody, hnone])

end Sys2Proof.Machine
end

section
/-! SUPPORT. Fences (R198): the report of an engine fault, and the course of `fence`. -/

namespace Sys2Proof.Machine

/-! The report of a fault (R397). -/

section
variable {p : EngFault → Bool} {s : State}

theorem reportFault_none (h : (s.core.faults.find? fun f => decide (f.ctx = s.core.act) && p f) = none) :
    reportFault p s = .ok () s := by
  rw [reportFault, Op.bind_ok (getCore_run s), h]
  rfl

theorem reportFault_some {f : EngFault} (h : (s.core.faults.find? fun f => decide (f.ctx = s.core.act) && p f) = some f) :
    reportFault p s = .error (.trap .engine f.record) (s.reports f) := by
  rw [reportFault, Op.bind_ok (getCore_run s), h]
  rfl

end

/-! The course of `fence`. -/

/-- What `fence` does once nothing that it waits for is under way. -/
def fenceAnswer (d : BitVec 5) (l : BitVec 1) : Op Unit := do
  reportFault fun _ => true
  let st := (← getCtx).fence
  if l = 1 then modCtx fun x => { x with fence := 0 }
  wrNat d st.toNat

/-- The status bits that an instruction asks to clear are cleared (R197, R198). -/
def State.fenceCleared (s : State) (l : BitVec 1) : State := if l = 1 then s.setCtx { s.ctx with fence := 0 } else s

theorem State.fenceCleared_follows (s : State) (l : BitVec 1) : (s.fenceCleared l).Follows s := by
  unfold State.fenceCleared
  split
  · exact .setCtx s _
  · exact .refl s

section
variable {d : BitVec 5} {l : BitVec 1} {s : State}

theorem fenceAnswer_gives (hd : plain d = true) (hn : ∀ f ∈ s.core.faults, f.ctx ≠ s.core.act) : fenceAnswer d l s
    = .ok () ((s.fenceCleared l).setCtx ((s.fenceCleared l).ctx.setS d.toNat (s.ctx.fence.setWidth 64))) := by
  have hnone : (s.core.faults.find? fun f => decide (f.ctx = s.core.act) && true) = none :=
    List.find?_eq_none.2 fun f hf => by simpa using hn f hf
  have hst : BitVec.ofNat 64 s.ctx.fence.toNat = s.ctx.fence.setWidth 64 := BitVec.ofNat_toNat ..
  rw [fenceAnswer, Op.bind_ok (reportFault_none hnone), Op.bind_ok (getCtx_run s), State.fenceCleared, ← hst]
  by_cases hl : l = 1
  · rw [if_pos hl, if_pos hl, Op.bind_ok (modCtx_run ..)]
    exact wrS_plain hd ..
  · rw [if_neg hl, if_neg hl]
    exact wrS_plain hd ..

theorem fenceAnswer_reports {f : EngFault} (h : (s.core.faults.find? fun f => decide (f.ctx = s.core.act)) = some f) :
    fenceAnswer d l s = .error (.trap .engine f.record) (s.reports f) := by
  have hsome : (s.core.faults.find? fun f => decide (f.ctx = s.core.act) && true) = some f := by simpa using h
  rw [fenceAnswer, Op.bind_error (reportFault_some hsome)]

end

/-- The effect of `fence`. -/
def fenceBody (d : BitVec 5) (l e : BitVec 1) (sc : BitVec 3) : Op Unit := do
  require (decide (sc.toNat < 6)) .illegal (BitVec.ofNat 64 (l.toNat * 16 + e.toNat * 8 + sc.toNat))
  let s ← get
  if s.fencePending sc.toNat s.site s.core.act then waitHere
  if e = 1 && s.core.enginePending then waitHere
  fenceAnswer d l

theorem exec_fence_eq (d : BitVec 5) (l e : BitVec 1) (sc : BitVec 3) (s : State) :
    exec (.fence d l e sc) s = runInstr (.fence d l e sc) (fenceBody d l e sc) s := rfl

section
variable {d : BitVec 5} {l e : BitVec 1} {sc : BitVec 3} {s : State}

/-- A scope code that is none (R198). -/
theorem fenceBody_illegal (h : 6 ≤ sc.toNat) : fenceBody d l e sc s
    = .error (.trap .illegal (BitVec.ofNat 64 (l.toNat * 16 + e.toNat * 8 + sc.toNat))) s := by
  rw [fenceBody, Op.bind_error (require_false (decide_eq_false (by omega)) ..)]

variable (hsc : sc.toNat < 6)
include hsc

theorem fenceBody_waits (h : s.fencePending sc.toNat s.site s.core.act = true ∨ (e = 1 ∧ s.core.enginePending = true)) :
    fenceBody d l e sc s = .error .wait s := by
  rw [fenceBody, Op.bind_ok (require_true (decide_eq_true hsc) ..), Op.bind_ok (Op.get_run s)]
  by_cases ha : s.fencePending sc.toNat s.site s.core.act = true
  · rw [if_pos ha]
    exact Op.bind_error (waitHere_run s)
  · obtain ⟨he, hp⟩ := h.resolve_left ha
    rw [if_neg ha, if_pos (by simp [he, hp])]
    exact Op.bind_error (waitHere_run s)

variable (ha : s.fencePending sc.toNat s.site s.core.act = false) (he : e = 1 → s.core.enginePending = false)
include ha he

theorem fenceBody_goes : fenceBody d l e sc s = fenceAnswer d l s := by
  have hengine : ¬ (decide (e = 1) && s.core.enginePending) = true := by
    rw [Bool.and_eq_true, decide_eq_true_eq]
    exact fun h => Bool.false_ne_true ((he h.1).symm.trans h.2)
  rw [fenceBody, Op.bind_ok (require_true (decide_eq_true hsc) ..), Op.bind_ok (Op.get_run s), if_neg (by simp [ha]),
      if_neg hengine]

theorem exec_fence_gives (hd : plain d = true) (hf : s.calm = true) (hn : ∀ f ∈ s.core.faults, f.ctx ≠ s.core.act) :
    exec (.fence d l e sc) s = .next ((s.fenceCleared l).gives d (s.ctx.fence.setWidth 64)) := by
  refine (exec_fence_eq ..).trans (runInstr_gives_from (w := s) rfl (hasUnit_of_plain rfl rfl s) ?_
    (s.fenceCleared_follows l).act (s.fenceCleared_follows l).halted hf)
  rw [fenceBody_goes (s := s.starts (.fence d l e sc)) hsc ha he, fenceAnswer_gives (s := s.starts (.fence d l e sc)) hd hn]
  unfold State.fenceCleared
  split
  · rfl
  · rfl

theorem exec_fence_reports {f : EngFault} (hfault : (s.core.faults.find? fun f => decide (f.ctx = s.core.act)) = some f) :
    exec (.fence d l e sc) s = .next ((s.reports f).trapHere Cause.engine.code f.record true) :=
  (exec_fence_eq ..).trans ((runInstr_trap rfl (hasUnit_of_plain rfl rfl s)
    ((fenceBody_goes (s := s.starts (.fence d l e sc)) hsc ha he).trans
      (fenceAnswer_reports (s := s.starts (.fence d l e sc)) hfault)) rfl).trans rfl)

end

end Sys2Proof.Machine
end

section
/-! SUPPORT. What comes from other modules (R151, R189): dead ports, and the writes and atomics that the heap port serves. -/

namespace Sys2Proof.Machine

/-- The port of the heap writes an element, where nothing hinders it (R189). -/
def palbelPut (s : State) (l : Loc) (q : PalbelReq) (n v : Nat) : Op Unit := do
  due (s.writable q.asid (q.va + 32 + q.off) n && !s.bodyPoisoned l q.off n)
  awaitReds l q.off n
  set (s.putObj l q.off (leBytes v n))

/-- What the port does with a request whose object has a header at `l`. -/
def palbelServe (s : State) (l : Loc) (q : PalbelReq) : PalbelOp → Op Unit
  | .write bs => do
    due (decide (q.off + bs.length ≤ (s.hdr l).span) && s.writable q.asid (q.va + 32 + q.off) bs.length)
    awaitReds l q.off bs.length
    set (s.putObj l q.off bs)
  | .amo op x => do
    let n := atomicBytes (s.hdr l).fmt
    due (decide ((s.hdr l).typ = tDATA) && atomicOpFits op (s.hdr l).fmt && decide (op < 13) && decide (q.off + n ≤ (s.hdr l).len)
      && decide (q.off % n = 0))
    palbelPut s l q n (atomicOp op (s.hdr l).fmt (s.field l q.off n) (x.toNat % 2 ^ fmtBits (s.hdr l).fmt))
  | .cas e new => do
    let n := atomicBytes (s.hdr l).fmt
    due (decide ((s.hdr l).typ = tDATA) && atomicFmt (s.hdr l).fmt && decide (q.off + n ≤ (s.hdr l).len) && decide (q.off % n = 0))
    awaitReds l q.off n
    if s.field l q.off n = e.toNat % 2 ^ fmtBits (s.hdr l).fmt then palbelPut s l q n (new.toNat % 2 ^ fmtBits (s.hdr l).fmt)

theorem palbelBody_run (q : PalbelReq) (s : State) : palbelBody q s
    = if (find (pageKey q.asid (q.va / 4096)) s.ptes).isSome then palbelServe s (.heap q.asid q.va) q q.op s
      else .error .stutter s := by
  obtain ⟨asid, va, off, op⟩ := q
  rw [palbelBody, Op.bind_ok (Op.get_run s)]
  by_cases h : (find (pageKey asid (va / 4096)) s.ptes).isSome = true
  · rw [if_pos h, Op.bind_ok (due_true h s)]
    cases op <;> rfl
  · rw [if_neg h, Op.bind_error (due_false (Bool.eq_false_iff.2 h) s)]

theorem exec_palbelRequest_eq (q : PalbelReq) (s : State) : exec (.palbelRequest q) s = runEvent (palbelBody q) s := rfl

theorem exec_palbelLinkDead (port : Nat) (s : State) : exec (.palbelLinkDead port) s
    = .next (if port < 16 then { s with deadPorts := insertKey port s.deadPorts } else s) := by
  by_cases h : port < 16
  · rw [if_pos h]
    exact runEvent_ok (Op.bind_ok (due_true (decide_eq_true h) s))
  · rw [if_neg h]
    exact runEvent_stutter (Op.bind_error (due_false (decide_eq_false h) s))

section
variable {q : PalbelReq} {s : State}

/-- A page that is not mapped serves nothing. -/
theorem exec_palbelRequest_unmapped (h : find (pageKey q.asid (q.va / 4096)) s.ptes = none) : exec (.palbelRequest q) s
    = .next s := by
  refine runEvent_stutter (e := .stutter) (t := s) ((palbelBody_run q s).trans (if_neg ?_))
  simp [h]

/-- Nor does a request that the port does not serve. -/
theorem exec_palbelRequest_unserved {e : Exit} {t : State} (h : palbelServe s (.heap q.asid q.va) q q.op s = .error e t) :
    exec (.palbelRequest q) s = .next s := by
  rw [exec_palbelRequest_eq, runEvent, palbelBody_run]
  split
  next u hu =>
    split at hu
    · rw [h] at hu
      cases hu
    · cases hu
  · rfl

theorem exec_palbelRequest_served {t : State} (hp : (find (pageKey q.asid (q.va / 4096)) s.ptes).isSome = true)
    (h : palbelServe s (.heap q.asid q.va) q q.op s = .ok () t) : exec (.palbelRequest q) s = .next t :=
  runEvent_ok ((palbelBody_run q s).trans ((if_pos hp).trans h))

end

section
variable {q : PalbelReq} {s : State} {l : Loc}

theorem palbelPut_writes {n v : Nat} (hw : s.writable q.asid (q.va + 32 + q.off) n = true) (hp : s.bodyPoisoned l q.off n = false)
    (hr : s.clearOfReds l q.off n = true) : palbelPut s l q n v s = .ok () (s.putObj l q.off (leBytes v n)) := by
  rw [palbelPut, Op.bind_ok (due_true (by simp [hw, hp]) s), Op.bind_ok (awaitReds_of_none (State.clearOfReds_iff.1 hr))]
  rfl

theorem palbelPut_unwritable {n v : Nat} (hw : s.writable q.asid (q.va + 32 + q.off) n = false) :
    palbelPut s l q n v s = .error .stutter s := by
  rw [palbelPut, Op.bind_error (due_false (by simp [hw]) s)]

theorem palbelServe_write {bs : List Byte} (hb : q.off + bs.length ≤ (s.hdr l).span)
    (hw : s.writable q.asid (q.va + 32 + q.off) bs.length = true) (hr : s.clearOfReds l q.off bs.length = true) :
    palbelServe s l q (.write bs) s = .ok () (s.putObj l q.off bs) := by
  rw [palbelServe, Op.bind_ok (due_true (by simp [hb, hw]) s), Op.bind_ok (awaitReds_of_none (State.clearOfReds_iff.1 hr))]
  rfl

theorem palbelServe_unwritten {bs : List Byte}
    (h : (s.hdr l).span < q.off + bs.length ∨ s.writable q.asid (q.va + 32 + q.off) bs.length = false) :
    palbelServe s l q (.write bs) s = .error .stutter s := by
  rw [palbelServe, Op.bind_error (due_false ?_ s)]
  rcases h with h | h
  · simp [Nat.not_le.2 h]
  · simp [h]

section
variable (ht : (s.hdr l).typ = tDATA) (hb : q.off + atomicBytes (s.hdr l).fmt ≤ (s.hdr l).len)
  (ha : q.off % atomicBytes (s.hdr l).fmt = 0)
include ht hb ha

theorem palbelServe_amo {op : Nat} {x : Word} (hfit : atomicOpFits op (s.hdr l).fmt = true) (hop : op < 13) :
    palbelServe s l q (.amo op x) s = palbelPut s l q (atomicBytes (s.hdr l).fmt) (atomicOp op (s.hdr l).fmt
      (s.field l q.off (atomicBytes (s.hdr l).fmt)) (x.toNat % 2 ^ fmtBits (s.hdr l).fmt)) s := by
  rw [palbelServe, Op.bind_ok (due_true (by simp [ht, hfit, hop, hb, ha]) s)]

theorem palbelServe_cas {old new : Word} (hfit : atomicFmt (s.hdr l).fmt = true)
    (hr : s.clearOfReds l q.off (atomicBytes (s.hdr l).fmt) = true) : palbelServe s l q (.cas old new) s
      = (if s.field l q.off (atomicBytes (s.hdr l).fmt) = old.toNat % 2 ^ fmtBits (s.hdr l).fmt then
          palbelPut s l q (atomicBytes (s.hdr l).fmt) (new.toNat % 2 ^ fmtBits (s.hdr l).fmt) else pure ()) s := by
  rw [palbelServe, Op.bind_ok (due_true (by simp [ht, hfit, hb, ha]) s), Op.bind_ok
      (awaitReds_of_none (State.clearOfReds_iff.1 hr))]

/-- A `cas` that finds another value serves nothing, at once or once the reductions on its line are done. -/
theorem exec_palbelRequest_cas_differs {old new : Word} (hl : l = .heap q.asid q.va) (hq : q.op = .cas old new)
    (hp : (find (pageKey q.asid (q.va / 4096)) s.ptes).isSome = true) (hfit : atomicFmt (s.hdr l).fmt = true)
    (hne : s.field l q.off (atomicBytes (s.hdr l).fmt) ≠ old.toNat % 2 ^ fmtBits (s.hdr l).fmt) :
    exec (.palbelRequest q) s = .next s := by
  by_cases hr : s.clearOfReds l q.off (atomicBytes (s.hdr l).fmt) = true
  · refine exec_palbelRequest_served hp ?_
    rw [← hl, hq, palbelServe_cas ht hb ha hfit hr, if_neg hne]
    rfl
  · refine exec_palbelRequest_unserved (e := .wait) (t := s) ?_
    have hreds : s.redsOn l q.off (atomicBytes (s.hdr l).fmt) = true := by
      rw [State.clearOfReds_iff] at hr
      simpa using hr
    rw [← hl, hq, palbelServe, Op.bind_ok (due_true (by simp [ht, hfit, hb, ha]) s)]
    refine Op.bind_error ?_
    simp [awaitReds, Op.bind_run, hreds, waitHere]

end

/-- An operation that does not fit the element, or a page that is not writable, serves nothing. -/
theorem exists_palbelServe_amo_unfit {op : Nat} {x : Word}
    (h : (s.hdr l).typ ≠ tDATA ∨ atomicOpFits op (s.hdr l).fmt = false ∨ (s.hdr l).len < q.off + atomicBytes (s.hdr l).fmt
      ∨ s.writable q.asid (q.va + 32 + q.off) (atomicBytes (s.hdr l).fmt) = false) :
    ∃ e, palbelServe s l q (.amo op x) s = .error e s := by
  have hshut : ∀ b : Bool, b = false → ∃ e, (due b >>= fun _ => palbelPut s l q (atomicBytes (s.hdr l).fmt)
      (atomicOp op (s.hdr l).fmt (s.field l q.off (atomicBytes (s.hdr l).fmt)) (x.toNat % 2 ^ fmtBits (s.hdr l).fmt))) s
      = .error e s := fun b hb => ⟨_, Op.bind_error (due_false hb s)⟩
  rw [palbelServe]
  rcases h with h | h | h | h
  · exact hshut _ (by simp [h])
  · exact hshut _ (by simp [h])
  · exact hshut _ (by simp [Nat.not_le.2 h])
  · rw [Op.bind_run, due_run]
    split
    next u hu =>
      split at hu
      · cases hu
        exact ⟨_, palbelPut_unwritable h⟩
      · cases hu
    next e u hu =>
      split at hu
      · cases hu
      · cases hu
        exact ⟨_, rfl⟩

end

/-- Settles O14: `fence` goes by its checks in order, and a request of another module is served or leaves the state. -/
theorem fenceAndPalbel : Obligations.FenceAndPalbel := by
  refine ⟨fun d l e sc s hd hf hsc ha he hn => exec_fence_gives hsc ha he hd hf hn, ?_, ?_,
    fun d l e sc s f hsc ha he hfault => exec_fence_reports hsc ha he hfault, exec_palbelLinkDead, ?_, ?_, ?_, ?_, ?_,
    fun q s h => exec_palbelRequest_unmapped h⟩
  · intro d l e sc s hsc h
    exact runInstr_waits rfl (hasUnit_of_plain rfl rfl s) (fenceBody_waits (s := s.starts (.fence d l e sc)) hsc h)
  · intro d l e sc s hsc
    exact runInstr_trapHere rfl (hasUnit_of_plain rfl rfl s) (fenceBody_illegal hsc)
  · intro q bs s hq hp l hb hw hr
    exact exec_palbelRequest_served hp (hq ▸ palbelServe_write hb hw hr)
  · intro q bs s hq l h
    exact exec_palbelRequest_unserved (e := .stutter) (t := s) (hq ▸ palbelServe_unwritten h)
  · intro q op x s hq hp l f n ht hfit hop hb ha hw hpo hr
    refine exec_palbelRequest_served hp ?_
    rw [hq, palbelServe_amo ht hb ha hfit hop]
    exact palbelPut_writes hw hpo hr
  · intro q op x s hq l f h
    obtain ⟨e, he⟩ := exists_palbelServe_amo_unfit (x := x) h
    exact exec_palbelRequest_unserved (hq ▸ he)
  · intro q old new s hq hp l f n ht hfit hb ha
    refine ⟨fun hne => exec_palbelRequest_cas_differs ht hb ha rfl hq hp hfit hne, fun heq hw hpo hr => ?_⟩
    refine exec_palbelRequest_served hp ?_
    rw [hq, palbelServe_cas ht hb ha hfit hr, if_pos heq]
    exact palbelPut_writes hw hpo hr

end Sys2Proof.Machine
end

section
/-! SUPPORT. The host's side of translation (R136, R176, R178, R179): answers to page requests, invalidations, and recalls. -/

namespace Sys2Proof.Machine

/-! Tables. -/

theorem mem_of_find {α : Type} {k : Nat} {v : α} {l : List (Nat × α)} (h : find k l = some v) : (k, v) ∈ l := by
  induction l with
  | nil => cases h
  | cons e l ih =>
    obtain ⟨j, u⟩ := e
    rw [find] at h
    split at h
    next hj =>
      cases h
      rw [hj]
      exact List.mem_cons_self ..
    · exact List.mem_cons_of_mem _ (ih h)

theorem find_eq_none_of_forall {α : Type} {k : Nat} {l : List (Nat × α)} (h : ∀ e ∈ l, e.1 ≠ k) : find k l = none := by
  cases hf : find k l with
  | none => rfl
  | some v => exact absurd rfl (h _ (mem_of_find hf))

/-- One entry stored under many keys is found under each of them, and what lies under another key stays. -/
theorem find_foldl_store {α : Type} {key : Nat → Nat} {v : α} {j : Nat} (as : List Nat) (l : List (Nat × α)) :
    find j (as.foldl (fun l a => store (key a) v l) l) = if ∃ a ∈ as, key a = j then some v else find j l := by
  induction as generalizing l with
  | nil => simp
  | cons a as ih =>
    rw [List.foldl_cons, ih]
    by_cases has : ∃ b ∈ as, key b = j
    · rw [if_pos has, if_pos (by obtain ⟨b, hb, hj⟩ := has; exact ⟨b, List.mem_cons_of_mem a hb, hj⟩)]
    · rw [if_neg has]
      by_cases ha : key a = j
      · rw [if_pos ⟨a, List.mem_cons_self .., ha⟩, ha, find_store_self]
      · rw [find_store_ne (Ne.symm ha), if_neg]
        rintro ⟨b, hb, hj⟩
        rcases List.mem_cons.1 hb with rfl | hb
        · exact ha hj
        · exact has ⟨b, hb, hj⟩

/-! Page tables (R178, R420). -/

theorem State.oneTable_iff (s : State) (a b : Nat) : s.oneTable a b = true ↔ a = b ∨ ∃ x y, find a s.asids = some x
    ∧ find b s.asids = some y ∧ x.vf = y.vf ∧ x.pasid = y.pasid := by
  rw [State.oneTable, Bool.or_eq_true, decide_eq_true_eq]
  refine or_congr_right ?_
  cases ha : find a s.asids <;> cases hb : find b s.asids <;> simp

theorem State.mem_tableMates {s : State} {a b : Nat} : b ∈ s.tableMates a ↔ s.oneTable a b = true := by
  rw [State.tableMates, List.mem_cons, List.mem_map]
  refine ⟨?_, fun h => ?_⟩
  · rintro (rfl | ⟨e, he, rfl⟩)
    · exact (s.oneTable_iff b b).2 (.inl rfl)
    · exact (Bool.and_eq_true_iff.1 (List.mem_filter.1 he).2).2
  · by_cases hba : b = a
    · exact .inl hba
    · rcases (s.oneTable_iff a b).1 h with hab | ⟨x, y, -, hy, -⟩
      · exact absurd hab.symm hba
      · exact .inr ⟨(b, y), List.mem_filter.2 ⟨mem_of_find hy, by simp [hba, h]⟩, rfl⟩

/-! Answers (R178, R422, R440). -/

/-- The requests for a page of one page table are refused. -/
def State.refusal (s : State) (q : PageReq) : State :=
  { s with pageReqs := s.pageReqs.map fun x =>
      if s.oneTable q.asid x.asid && decide (x.page = q.page) then { x with refused := true } else x }

/-- A mapping enters the page table, and satisfies the requests for its page that ask for no permission it lacks. -/
def State.answered (s : State) (q : PageReq) (e : Pte) : State :=
  let same := fun (x : PageReq) => s.oneTable q.asid x.asid && decide (x.page = q.page)
  { s with
    ptes := (s.tableMates q.asid).foldl (fun l a => store (pageKey a q.page) e l) s.ptes
    pageReqs := (s.pageReqs.filter fun x => !same x || (x.write && !e.write)).map fun x =>
      if same x then { x with refused := true } else x }

/-- The entry that the host's answer makes. -/
def answerPte (frame : Nat) (w hbm : Bool) (home : Option Nat) : Pte :=
  { frame := if hbm then frame else hbmFrames + frame, write := w, hbm := hbm, home := home }

/-- The host's answer names a page that there is (R13, R120). -/
def State.answerFits (s : State) (frame : Nat) (hbm : Bool) (home : Option Nat) : Bool :=
  decide (frame < if hbm then hbmFrames else 2 ^ 43) && (home.map fun m => !hbm && routeValid (s.route m)).getD true

theorem State.answerFits_iff {s : State} {frame : Nat} {hbm : Bool} {home : Option Nat} : s.answerFits frame hbm home = true
    ↔ frame < (if hbm then hbmFrames else 2 ^ 43) ∧ ∀ m, home = some m → hbm = false ∧ routeValid (s.route m) = true := by
  rw [State.answerFits, Bool.and_eq_true, decide_eq_true_eq]
  cases home <;> simp

theorem State.refusesPage_iff {s : State} {asid frame : Nat} : s.refusesPage asid frame = true
    ↔ s.securePage (frame * 4096) = true ∧ s.accepted (lookup {} asid s.asids : AsidSt).vf 11 = false := by
  rw [State.refusesPage, Bool.and_eq_true, Bool.not_eq_true']

section
variable {k : Nat} {s : State}

theorem exec_pageRequestAnswer_none (ans : PageAnswer) (h : s.pageReqs.length ≤ k) :
    exec (.pageRequestAnswer k ans) s = .next s :=
  runEvent_stutter ((Op.bind_ok (Op.get_run s)).trans (Op.bind_error (dueSome_none (List.getElem?_eq_none h) s)))

variable {q : PageReq} (hq : s.pageReqs[k]? = some q)
include hq

theorem exec_pageRequestAnswer_invalid : exec (.pageRequestAnswer k .invalid) s = .next (s.refusal q) :=
  runEvent_ok ((Op.bind_ok (Op.get_run s)).trans (Op.bind_ok (dueSome_some hq s)))

variable {frame : Nat} {w hbm : Bool} {home : Option Nat}

theorem pageAnswerBody_mapped : pageAnswerBody k (.mapped frame w hbm home) s = (due (s.answerFits frame hbm home) >>= fun _ =>
    if s.refusesPage q.asid (answerPte frame w hbm home).frame then set (s.refusal q)
    else set (s.answered q (answerPte frame w hbm home))) s :=
  (Op.bind_ok (Op.get_run s)).trans (Op.bind_ok (dueSome_some hq s))

theorem exec_pageRequestAnswer_unfit (h : s.answerFits frame hbm home = false) :
    exec (.pageRequestAnswer k (.mapped frame w hbm home)) s = .next s :=
  runEvent_stutter ((pageAnswerBody_mapped hq).trans (Op.bind_error (due_false h s)))

variable (h : s.answerFits frame hbm home = true)
include h

theorem exec_pageRequestAnswer_barred (hb : s.refusesPage q.asid (answerPte frame w hbm home).frame = true) :
    exec (.pageRequestAnswer k (.mapped frame w hbm home)) s = .next (s.refusal q) := by
  refine runEvent_ok ((pageAnswerBody_mapped hq).trans ((Op.bind_ok (due_true h s)).trans ?_))
  rw [if_pos hb]
  rfl

theorem exec_pageRequestAnswer_mapped (hb : ¬ s.refusesPage q.asid (answerPte frame w hbm home).frame = true) :
    exec (.pageRequestAnswer k (.mapped frame w hbm home)) s = .next (s.answered q (answerPte frame w hbm home)) := by
  refine runEvent_ok ((pageAnswerBody_mapped hq).trans ((Op.bind_ok (due_true h s)).trans ?_))
  rw [if_neg hb]
  rfl

end

theorem State.find_answered (s : State) (q : PageReq) (e : Pte) (j : Nat) : find j (s.answered q e).ptes
    = if ∃ a ∈ s.tableMates q.asid, pageKey a q.page = j then some e else find j s.ptes := find_foldl_store ..

/-! Invalidations (R179, R419). -/

/-- The page-table keys of the range of an invalidation. -/
def State.invalidates (s : State) (asid page count k : Nat) : Bool :=
  (s.tableMates asid).any fun a => within (pageKey a page) (Nat.min count (2 ^ 41 - page % 2 ^ 41)) k

/-- The range ends with its count, and with the address space. -/
theorem State.invalidates_eq (s : State) (asid count : Nat) {page : Nat} (hp : page < 2 ^ 41) :
    s.invalidates asid page count = fun j => (s.tableMates asid).any fun a => decide (pageKey a page ≤ j)
      && decide (j < pageKey a page + count) && decide (j < pageKey a page + (2 ^ 41 - page)) := by
  funext j
  refine congrArg (s.tableMates asid).any (funext fun a => Bool.eq_iff_iff.2 ?_)
  have hmin : Nat.min count (2 ^ 41 - page) = min count (2 ^ 41 - page) := rfl
  simp only [within, Nat.mod_eq_of_lt hp, hmin, Bool.and_eq_true, decide_eq_true_eq]
  omega

/-- There is room at the port for one more invalidation, or this one is outstanding. -/
def State.invalidationRoom (s : State) (i : HostWait) (asid : Nat) : Bool := s.hostWaits.contains i || decide
    (s.invalidations asid < 64)

theorem atsInvalidationBody_eq (asid page count : Nat) (s : State) : atsInvalidationBody asid page count s
    = (due (s.invalidationRoom (.invalidation asid page count) asid) >>= fun _ =>
        if !((s.ptes.filter fun e => s.invalidates asid page count e.1).all fun e => !s.inFlight (e.1 / 2 ^ 41) (e.1 % 2 ^ 41)) then
          (waitHere : Op PUnit) >>= fun _ => set { s with ptes := s.ptes.filter fun e => !s.invalidates asid page count e.1 }
        else set { s with ptes := s.ptes.filter fun e => !s.invalidates asid page count e.1 }) s := rfl

theorem exec_atsInvalidation_eq (asid page count : Nat) (s : State) : exec (.atsInvalidation asid page count) s
    = runEvent (keepTrying (.invalidation asid page count) (atsInvalidationBody asid page count)) s := rfl

theorem State.dropsWait_of_not_mem {s : State} {i : HostWait} (h : i ∉ s.hostWaits) : s.dropsWait i = s := by
  have hall : s.hostWaits.filter (fun j => decide (j ≠ i)) = s.hostWaits :=
    List.filter_eq_self.2 fun j hj => decide_eq_true fun e => h (e ▸ hj)
  rw [State.dropsWait, hall]

section
variable {asid page count : Nat} {s : State}

theorem exec_atsInvalidation_full (h : ¬ s.invalidationRoom (.invalidation asid page count) asid = true) :
    exec (.atsInvalidation asid page count) s = .next s := by
  have hmem : HostWait.invalidation asid page count ∉ s.hostWaits := by
    intro hm
    rw [State.invalidationRoom, Bool.or_eq_true] at h
    exact h (.inl (List.contains_iff_mem.2 hm))
  have hbody : atsInvalidationBody asid page count s = .error .stutter s :=
    (atsInvalidationBody_eq ..).trans (Op.bind_error (due_false (Bool.eq_false_iff.2 h) s))
  have hkeep : keepTrying (.invalidation asid page count) (atsInvalidationBody asid page count) s
      = .ok () (s.dropsWait (.invalidation asid page count)) := by
    simp only [keepTrying, hbody]
    rfl
  rw [exec_atsInvalidation_eq, runEvent_ok hkeep, State.dropsWait_of_not_mem hmem]

variable (hroom : s.invalidationRoom (.invalidation asid page count) asid = true)
include hroom

/-- An access in flight uses a translation of the range: the invalidation is kept. -/
theorem exec_atsInvalidation_waits
    (h : ∃ e ∈ s.ptes, s.invalidates asid page count e.1 = true ∧ s.inFlight (e.1 / 2 ^ 41) (e.1 % 2 ^ 41) = true) :
    exec (.atsInvalidation asid page count) s = .next (s.keepsWait (.invalidation asid page count)) := by
  have hbusy : ¬ ((s.ptes.filter fun e => s.invalidates asid page count e.1).all
      fun e => !s.inFlight (e.1 / 2 ^ 41) (e.1 % 2 ^ 41)) = true := by
    obtain ⟨e, he, hmine, hfly⟩ := h
    intro hall
    have hquiet := List.all_eq_true.1 hall e (List.mem_filter.2 ⟨he, hmine⟩)
    rw [hfly] at hquiet
    cases hquiet
  have hbody : atsInvalidationBody asid page count s = .error .wait s := by
    rw [atsInvalidationBody_eq, Op.bind_ok (due_true hroom s), if_pos (by simpa using hbusy)]
    exact Op.bind_error (waitHere_run s)
  rw [exec_atsInvalidation_eq, runEvent_ok (keepTrying_wait hbody), State.keepsWait]
  simp only [List.contains_iff_mem]

theorem exec_atsInvalidation_ends
    (h : ∀ e ∈ s.ptes, s.invalidates asid page count e.1 = true → s.inFlight (e.1 / 2 ^ 41) (e.1 % 2 ^ 41) = false) :
    exec (.atsInvalidation asid page count) s
      = .next (({ s with ptes := s.ptes.filter fun e => !s.invalidates asid page count e.1 } : State).dropsWait
          (.invalidation asid page count)) := by
  have hquiet : ((s.ptes.filter fun e => s.invalidates asid page count e.1).all
      fun e => !s.inFlight (e.1 / 2 ^ 41) (e.1 % 2 ^ 41)) = true := by
    refine List.all_eq_true.2 fun e he => ?_
    obtain ⟨hmem, hmine⟩ := List.mem_filter.1 he
    rw [h e hmem hmine]
    rfl
  have hbody : atsInvalidationBody asid page count s
      = .ok () { s with ptes := s.ptes.filter fun e => !s.invalidates asid page count e.1 } := by
    rw [atsInvalidationBody_eq, Op.bind_ok (due_true hroom s), hquiet]
    rfl
  rw [exec_atsInvalidation_eq, runEvent_ok (keepTrying_ok hbody)]
  rfl

end

/-! Recalls (R176). -/

/-- The page leaves the pool where it lies in it and no access in flight uses it. -/
theorem exec_tierPoolRecall (asid page : Nat) (s : State) : exec (.tierPoolRecall asid page) s
    = .next (if (s.tier.any fun t => decide (t.asid = asid) && decide (t.page = page)) && !s.inFlight asid page then
        { s with tier := s.tier.filter fun t => !(decide (t.asid = asid) && decide (t.page = page)) } else s) := by
  by_cases h : ((s.tier.any fun t => decide (t.asid = asid) && decide (t.page = page)) && !s.inFlight asid page) = true
  · rw [if_pos h]
    exact runEvent_ok ((Op.bind_ok (Op.get_run s)).trans (Op.bind_ok (due_true h s)))
  · rw [if_neg h]
    exact runEvent_stutter ((Op.bind_ok (Op.get_run s)).trans (Op.bind_error (due_false (Bool.eq_false_iff.2 h) s)))

theorem State.invalidationRoom_iff {s : State} {i : HostWait} {asid : Nat} :
    s.invalidationRoom i asid = true ↔ i ∈ s.hostWaits ∨ s.invalidations asid < 64 := by
  rw [State.invalidationRoom, Bool.or_eq_true, List.contains_iff_mem, decide_eq_true_eq]

/-- Settles O47: each answer is the run of its event, and a key of the page table is found as `find_foldl_store` gives it. -/
theorem translationAnswers : Obligations.TranslationAnswers := by
  refine ⟨?_, State.oneTable_iff, fun k ans s h => exec_pageRequestAnswer_none ans h, ?_, ?_⟩
  · intro k q s hq same refusal
    refine ⟨exec_pageRequestAnswer_invalid hq, ?_⟩
    intro frame w hbm home vf at_ ok barred
    refine ⟨fun hok hb => ?_, fun hok hb => ?_, fun hok => ?_⟩
    · refine ⟨_, exec_pageRequestAnswer_mapped hq (State.answerFits_iff.2 hok) fun h => hb (State.refusesPage_iff.1 h),
        fun a ha => ?_, fun j hj => ?_, rfl, rfl, rfl, rfl⟩
      · rw [State.find_answered, if_pos ⟨a, State.mem_tableMates.2 ha, rfl⟩]
        rfl
      · rw [State.find_answered, if_neg]
        rintro ⟨a, ha, rfl⟩
        exact hj a (State.mem_tableMates.1 ha) rfl
    · exact exec_pageRequestAnswer_barred hq (State.answerFits_iff.2 hok) (State.refusesPage_iff.2 hb)
    · exact exec_pageRequestAnswer_unfit hq (Bool.eq_false_iff.2 fun h => hok (State.answerFits_iff.1 h))
  · intro asid page count s hp i mine room
    have hmine : s.invalidates asid page count = mine := s.invalidates_eq asid count hp
    refine ⟨fun hroom h => ?_, fun hroom h => ?_, fun hroom => ?_⟩
    · refine ⟨_, exec_atsInvalidation_ends (State.invalidationRoom_iff.2 hroom) (by rw [hmine]; exact h), by rw [hmine]; rfl,
        rfl, ?_,
        fun j hj => ?_, rfl, rfl, rfl⟩
      · exact fun hi => of_decide_eq_true (List.mem_filter.1 hi).2 rfl
      · refine find_eq_none_of_forall fun e he hej => ?_
        have hkept := (List.mem_filter.1 he).2
        rw [hmine, hej, hj] at hkept
        cases hkept
    · exact exec_atsInvalidation_waits (State.invalidationRoom_iff.2 hroom) (by rw [hmine]; exact h)
    · exact exec_atsInvalidation_full fun h => hroom (State.invalidationRoom_iff.1 h)
  · intro asid page s mine
    refine ⟨fun hin hfly => ?_, fun h => ?_⟩
    · rw [exec_tierPoolRecall, if_pos (Bool.and_eq_true_iff.2 ⟨hin, by rw [hfly]; rfl⟩)]
    · rw [exec_tierPoolRecall, if_neg]
      rintro hboth
      obtain ⟨hin, hfly⟩ := Bool.and_eq_true_iff.1 hboth
      rcases h with h | h
      · exact Bool.false_ne_true (h.symm.trans hin)
      · rw [h] at hfly
        cases hfly

end Sys2Proof.Machine
end

section
/-! SUPPORT. The controller's log while the discard of a fatal fault is under way (R417, R450). -/

namespace Sys2Proof.Machine

/-- A device whose phase is `failing` one cycle after reset. -/
def failingState : State := { State.reset with phase := .failing, cycle := 1 }

/-- The entry that the model writes holds the cycle. -/
theorem failingState_log (cls kind unit : Nat) (a b : Word) : (failingState.addLog cls kind unit a b).log
    = [{ cycle := 1, cls := cls, kind := kind, unit := unit, d0 := a, d1 := b }] := rfl

/-- Refutes O53: between a fatal fault and its discards the phase is `failing`, in which an entry of the log holds the cycle
(`failingState_log`); the statement has it hold 0 in every phase but READY. -/
theorem not_errorsAndRetirement : ¬ Obligations.ErrorsAndRetirement := by
  rintro ⟨-, -, hlog, -, -, -⟩
  obtain ⟨hroom, -, -, -, -, -⟩ := hlog failingState 0 0 0 0 0
  obtain ⟨hentry, -⟩ := hroom (by decide)
  rw [failingState_log] at hentry
  exact absurd hentry (by decide)

end Sys2Proof.Machine
end

section
/-! SUPPORT. A heap pass over a table of records that lists one number twice (R165). -/

namespace Sys2Proof.Machine

/-- The device's request for page 3 of ASID 0, which the host has not answered for. -/
def awaitedPage : PageReq := { asid := 0, page := 3, write := false, owner := .device }

/-- A heap pass of ASID 0 is due. The table of records lists number 1 twice: a record of ASID 7, whose ARG names an object on
page 3, before one of ASID 0. Page 3 is mapped for ASID 0 and not for ASID 7. -/
def twiceListed : State :=
  { asids := [(0, { passPending := some 1 })]
    recs := [(1, { l := { asid := 7, arg := 0x3000 } }), (1, {})]
    ptes := [(pageKey 0 3, { frame := 3, write := true, hbm := true })]
    pageReqs := [awaitedPage] }

/-- The pass finds under number 1 the record of ASID 7 and counts page 3 as one that it needs, but asks for it in ASID 0, where it
is mapped, and takes place. -/
theorem exec_heapPass_twiceListed : (match exec (.heapPass 0) twiceListed with
    | .next t => decide ((lookup {} 0 t.asids : AsidSt).passPending = none)
    | _ => false) = true := by decide +kernel

/-- Refutes O20: the third clause has every page that a pass needs hold it up while the host has not answered for it. In a state
whose table of records has two entries of one number a pass needs a page of another ASID, and does not wait for it. -/
theorem not_collectionResults : ¬ Obligations.CollectionResults := by
  rintro ⟨-, -, hpass⟩
  obtain ⟨-, hwaits, -⟩ := hpass 0 twiceListed
  obtain ⟨t, ht, -, -, -, hkept⟩ := hwaits (by decide +kernel)
  obtain ⟨hasids, -⟩ := hkept 0x3000 (by decide +kernel) awaitedPage (by decide +kernel) rfl
  have hdone := exec_heapPass_twiceListed
  rw [ht] at hdone
  dsimp only at hdone
  rw [hasids] at hdone
  exact absurd hdone (by decide)

end Sys2Proof.Machine
end

section
/-! SUPPORT. Instructions that push engine work or posts, and those of channel cores (R49, R413). -/

namespace Sys2Proof.Machine

theorem hasUnit_channel {i : Instr} {s : State} (hc : isChan s.site = true) (hv : i.needsVector = false) : s.hasUnit i = true := by
  simp [State.hasUnit, hc, hv]

/-- An instruction that has noted a push retires as one that has noted nothing: the push matters to a single step alone (R414). -/
theorem runInstr_pushes {i : Instr} {body : Op Unit} {s u w : State} (hw : i.wf = true) (hi : s.hasUnit i = true) (hl : u.Listed)
    (hb : body (s.starts i) = .ok () (u.noting { (w.starts i).tx with pushed := true })) (hu : u.Follows w) (hf : w.calm = true) :
    runInstr i body s = .next u.retires := by
  have hported : u.ported { (w.starts i).tx with pushed := true } = u :=
    (State.ported_quiet (s := u) (w.starts_quiet i)).trans hl.setCtx_ctx
  have hcommit : (u.noting { (w.starts i).tx with pushed := true }).commitPorts = u.offLines := by
    refine (State.commitPorts_noting u _ rfl ?_).trans (by rw [hported])
    rw [hported]
    exact .refl u
  exact runInstr_retires hw hi hb hcommit rfl rfl hu.dbgctl.symm (hu.calm.trans hf)

theorem wrNat_run {d : BitVec 5} (hd : plain d = true) (n : Nat) (s : State) :
    wrNat d n s = .ok () (s.setCtx (s.ctx.setS d.toNat (BitVec.ofNat 64 n))) := wrS_plain hd ..

end Sys2Proof.Machine
end

section
/-! SUPPORT. Heap accesses of channel cores (R171, R173): `hrd`, `hwr`, and the later performance of an `hwr`. -/

namespace Sys2Proof.Machine

section
variable {d : BitVec 5} {a : BitVec 4} {b : BitVec 5} {z : BitVec 2} {s t : State} {l : Loc} {off : Nat} (hd : plain d = true)
  (hc : isChan s.site = true) (hf : t.calm = true)
include hd hc hf

theorem exec_hrd_gives (ht : leads (.hrd d a b z) (heapAccess a b z.toNat .ld) s (l, off) t)
    (hown : leads (.hrd d a b z) (ownWrites l) t () t) : exec (.hrd d a b z) s
      = .next (t.gives d (BitVec.ofNat 64 (ofBytes (t.readBody t.me l off (2 ^ z.toNat))))) :=
  runInstr_gives_of_leads rfl (hasUnit_channel hc rfl) ((Op.bind_ok ht).trans ((Op.bind_ok hown).trans
    ((Op.bind_ok (Op.get_run _)).trans (wrNat_run hd ..)))) hf

/-- The write is under way once no post of the context reads the object. -/
theorem exec_hwr_retires (ht : leads (.hwr d a b z) (heapAccess a b z.toNat .st) s (l, off) t)
    (hp : ∀ q ∈ t.posts, q.site = t.site → q.ctx = t.core.act → q.src ≠ l) : exec (.hwr d a b z) s
      = .next (t.setCore t.site { t.core with hwrs := t.core.hwrs ++
          [{ ctx := t.core.act, obj := l, off := off, bytes := leBytes (t.src d).toNat (2 ^ z.toNat) }] }).retires := by
  have hfree : ¬ (t.posts.any fun q => decide (q.site = t.site) && decide (q.ctx = t.core.act) && decide (q.src = l)) = true := by
    intro h
    obtain ⟨q, hq, hmine⟩ := List.any_eq_true.1 h
    simp only [Bool.and_eq_true, decide_eq_true_eq] at hmine
    exact hp q hq hmine.1.1 hmine.1.2 hmine.2
  refine runInstr_retires_via (w := t) rfl (hasUnit_channel hc rfl) ?_ (.setCore rfl rfl rfl) hf
  refine (Op.bind_ok ht).trans ((Op.bind_ok (rdS_plain hd _)).trans ((Op.bind_ok (Op.get_run _)).trans ?_))
  exact (congrFun (if_neg hfree) _).trans rfl

end

section
variable {core : Nat} {s : State}

/-- The oldest `hwr` is performed where no reduction is queued on its lines (R195); a word that a KVTABLE keeps is not
written (R360). -/
theorem exec_hwrPerformed_oldest {h : HeapWrite} {rest : List HeapWrite} (hw : (s.coreAt core).hwrs = h :: rest) :
    exec (.hwrPerformed core) s = .next (if s.clearOfReds h.obj h.off h.bytes.length = true then
      if carriedByte (s.hdr h.obj).typ h.off = true then
        (s.setCore core { s.coreAt core with hwrs := rest }).putObj h.obj h.off h.bytes
      else s.setCore core { s.coreAt core with hwrs := rest }
      else s) := by
  have hbody : hwrPerformedBody core s = (due (s.clearOfReds h.obj h.off h.bytes.length) >>= fun _ =>
      modCoreAt core (fun c => { c with hwrs := rest }) >>= fun _ =>
      modify fun s => if carriedByte (s.hdr h.obj).typ h.off then s.putObj h.obj h.off h.bytes else s) s := by
    rw [hwrPerformedBody, Op.bind_ok (Op.get_run s), hw]
    rfl
  by_cases hr : s.clearOfReds h.obj h.off h.bytes.length = true
  · rw [if_pos hr]
    exact runEvent_ok (hbody.trans (Op.bind_ok (due_true hr s)))
  · rw [if_neg hr]
    exact runEvent_stutter (hbody.trans (Op.bind_error (due_false (Bool.eq_false_iff.2 hr) s)))

theorem exec_hwrPerformed_none (hw : (s.coreAt core).hwrs = []) : exec (.hwrPerformed core) s = .next s := by
  have hbody : hwrPerformedBody core s = .error .stutter s := by
    rw [hwrPerformedBody, Op.bind_ok (Op.get_run s), hw]
    rfl
  exact runEvent_stutter hbody

end

end Sys2Proof.Machine
end

section
/-! SUPPORT. Posts of channel cores (R172): `cpost`, and the completion of a post. -/

namespace Sys2Proof.Machine

/-! `cpost`. -/

/-- The barrier that a `cpost` names. -/
def cpostBar : Option (BitVec 4) → Op (Option Loc)
  | none => pure none
  | some r => do
    let p := (← rdA r.toNat).ptr
    let l ← locate p
    require (decide (((← get).hdr l).typ = tBARRIER)) .type p
    pure (some l)

/-- The state in which the copies of a post are counted (R126, R205). -/
def State.postCounted (s : State) (ls ld : Loc) : Option Loc → State
  | some v => (((s.erefUp ls).erefUp ld).erefUp v).barPendingUp v
  | none => (s.erefUp ls).erefUp ld

/-- The post of the executing context of a channel core. -/
def State.postOf (s : State) (ls : Loc) (src : AReg) (ld : Loc) (dst : AReg) (n : Nat) (bar : Option Loc) : Post :=
  { site := s.site, ctx := s.core.act, src := ls, srcOff := src.cur.toNat, dst := ld, dstOff := dst.cur.toNat, n := n, bar := bar
    num := s.core.works }

/-- What `cpost` does once its operands have been checked. -/
def cpostPush (ls : Loc) (src : AReg) (ld : Loc) (dst : AReg) (n : Nat) (bar : Option Loc) : Op Unit := do
  let s ← get
  if (s.posts.filter fun q => decide (q.site = s.site)).length ≥ 16 then waitHere
  set { s.postCounted ls ld bar with posts := (s.postCounted ls ld bar).posts ++ [s.postOf ls src ld dst n bar] }
  modCore fun c => { c with works := c.works + 1 }
  modTx fun t => { t with pushed := true }

/-- What `cpost` does once its source has been checked. -/
def cpostDest (c : Option (BitVec 4)) (len : Word) (ls : Loc) (hs : Hdr) (src dst : AReg) : Op Unit := do
  require (decide (ptrLevel dst.ptr = 1) || decide (ptrLevel dst.ptr = 2)) .type dst.ptr
  let ld ← locate dst.ptr
  let hd := (← get).hdr ld
  require (decide (hd.typ = tDATA) && decide (hd.hi = hs.hi)) .type dst.ptr
  require (decide (1 ≤ len.toNat) && decide (len.toNat ≤ 524288)) .bounds len
  boundsCheck dst.cur.toNat len.toNat hd.span
  let bar ← cpostBar c
  cpostPush ls src ld dst len.toNat bar

theorem cpostBody_eq (d a : BitVec 4) (b : BitVec 5) (c : Option (BitVec 4)) : cpostBody d a b c = (do
    let len ← rdS b
    let src ← rdA a.toNat
    let dst ← rdA d.toNat
    let ls ← heapObject a
    let hs := (← get).hdr ls
    let ok ← allowed hs.typ .ld
    require ok .type (src.cur.setWidth 64)
    boundsCheck src.cur.toNat len.toNat (if hs.typ = tRSTATE then readLen hs.typ hs.len else hs.span)
    let s ← get
    translateRead (.ctx s.site s.core.act) none ls src.cur.toNat len.toNat src.ptr
    require (!(← get).readPoisoned none ls src.cur.toNat len.toNat) .poison (src.cur.setWidth 64)
    ownWrites ls
    cpostDest c len ls hs src dst) := by
  cases c <;> rfl

theorem PassesBy.erefUp (l : Loc) : PassesBy (State.erefUp · l) :=
  .choose fun s => ⟨_, .setHdr l { s.hdr l with w3 := setBits (s.hdr l).w3 32 16 ((s.hdr l).eref + 1) }, fun _ => rfl⟩

theorem State.barPending_noting (s : State) (x : Tx) (v : Loc) : (s.noting x).barPending v = s.barPending v := s.field_noting x v ..

theorem PassesBy.barPendingUp (v : Loc) : PassesBy (State.barPendingUp · v) :=
  .choose fun s => ⟨_, setFieldAt_passesBy v 0x18 4 (s.barPending v + 1),
    fun x => by rw [State.barPendingUp, State.barPending_noting]⟩

theorem PassesBy.postCounted (ls ld : Loc) (bar : Option Loc) : PassesBy (State.postCounted · ls ld bar) := by
  cases bar with
  | none => exact .comp (.erefUp ld) (.erefUp ls)
  | some v => exact .comp (.barPendingUp v) (.comp (.erefUp v) (.comp (.erefUp ld) (.erefUp ls)))

/-- The state in which a further post is queued. -/
def State.queuesPost (w : State) (q : Post) : State :=
  { w with posts := w.posts ++ [q] }.setCore w.site { w.core with works := w.core.works + 1 }

theorem State.queuesPost_follows (w : State) (q : Post) : (w.queuesPost q).Follows w := by
  have hqueue : State.Follows { w with posts := w.posts ++ [q] } w := ⟨rfl, rfl, rfl, rfl⟩
  exact hqueue.trans (State.Follows.setCore (s := { w with posts := w.posts ++ [q] })
    (c := { w.core with works := w.core.works + 1 }) rfl rfl rfl)

/-- The state in which a post is under way. -/
def State.posted (v : State) (ls : Loc) (src : AReg) (ld : Loc) (dst : AReg) (n : Nat) (bar : Option Loc) : State :=
  (v.postCounted ls ld bar).queuesPost (v.postOf ls src ld dst n bar)

section
variable {i : Instr} {s t x u v : State} {ls ld : Loc} {src dst : AReg} {n : Nat} {len : Word} {bar : Option Loc}

theorem State.posted_follows (v : State) (ls : Loc) (src : AReg) (ld : Loc) (dst : AReg) (n : Nat) (bar : Option Loc) :
    (v.posted ls src ld dst n bar).Follows v :=
  ((PassesBy.postCounted ls ld bar).follows v).trans (State.queuesPost_follows ..)

theorem cpostPush_run (h : (v.posts.filter fun q => decide (q.site = v.site)).length < 16) :
    cpostPush ls src ld dst n bar (v.starts i)
      = .ok () ((v.posted ls src ld dst n bar).noting { (v.starts i).tx with pushed := true }) := by
  have hcount : (v.starts i).postCounted ls ld bar = (v.postCounted ls ld bar).noting (v.starts i).tx :=
    (PassesBy.postCounted ls ld bar).noting v _
  refine (Op.bind_ok (Op.get_run _)).trans ((congrFun (if_neg (Nat.not_le.2 h)) _).trans ?_)
  simp only [hcount]
  rfl

theorem cpostDest_run {hs : Hdr} {c : Option (BitVec 4)} (hlevel : ptrLevel dst.ptr = 1 ∨ ptrLevel dst.ptr = 2)
    (hld : leads i (locate dst.ptr) x ld u) (htyp : (u.hdr ld).typ = tDATA) (hhi : (u.hdr ld).hi = hs.hi) (h1 : 1 ≤ len.toNat)
    (hmax : len.toNat ≤ 524288) (hfit : dst.cur.toNat + len.toNat ≤ (u.hdr ld).span) (hbar : leads i (cpostBar c) u bar v) :
    cpostDest c len ls hs src dst (x.starts i) = cpostPush ls src ld dst len.toNat bar (v.starts i) := by
  have hdata : (decide (((u.starts i).hdr ld).typ = tDATA) && decide (((u.starts i).hdr ld).hi = hs.hi)) = true :=
    Bool.and_eq_true_iff.2 ⟨decide_eq_true htyp, decide_eq_true hhi⟩
  rw [cpostDest, Op.bind_ok (require_true (by simpa using hlevel) ..)]
  refine (Op.bind_ok hld).trans ((Op.bind_ok (Op.get_run _)).trans ?_)
  refine (Op.bind_ok (require_true hdata ..)).trans ((Op.bind_ok (require_true (by simp [h1, hmax]) ..)).trans ?_)
  exact (Op.bind_ok ((boundsCheck_nat ..).trans (if_pos hfit))).trans (Op.bind_ok hbar)

end

section
variable {i : Instr} {d a : BitVec 4} {b : BitVec 5} {c : Option (BitVec 4)} {s t x u v : State} {ls ld : Loc} {bar : Option Loc}

theorem cpostBody_run (hb : plain b = true) (hls : leads i (heapObject a) s ls t)
    (hty : typeAllows (t.hdr ls).typ .ld (t.core.inMiss || t.core.isPriv) t.core.isPriv = true)
    (hfit : (s.ctx.areg a.toNat).cur.toNat + (s.src b).toNat
      ≤ (if (t.hdr ls).typ = tRSTATE then readLen (t.hdr ls).typ (t.hdr ls).len else (t.hdr ls).span))
    (hpages : leads i (translateRead (.ctx t.site t.core.act) none ls (s.ctx.areg a.toNat).cur.toNat (s.src b).toNat
      (s.ctx.areg a.toNat).ptr) t ⟨⟩ x)
    (hpoison : x.readPoisoned none ls (s.ctx.areg a.toNat).cur.toNat (s.src b).toNat = false)
    (hown : leads i (ownWrites ls) x ⟨⟩ x) : cpostBody d a b c (s.starts i)
      = cpostDest c (s.src b) ls (t.hdr ls) (s.ctx.areg a.toNat) (s.ctx.areg d.toNat) (x.starts i) := by
  have hallowed : allowed (t.hdr ls).typ .ld (t.starts i) = .ok true (t.starts i) :=
    congrArg (EStateM.Result.ok · (t.starts i)) hty
  have hclean : (!(x.starts i).readPoisoned none ls (s.ctx.areg a.toNat).cur.toNat (s.src b).toNat) = true :=
    congrArg not hpoison
  rw [cpostBody_eq, Op.bind_ok (rdS_plain hb _), Op.bind_ok (rdA_run ..), Op.bind_ok (rdA_run ..)]
  refine (Op.bind_ok hls).trans ((Op.bind_ok (Op.get_run _)).trans ((Op.bind_ok hallowed).trans ?_))
  refine (Op.bind_ok (require_true rfl ..)).trans ((Op.bind_ok ((boundsCheck_nat ..).trans (if_pos hfit))).trans ?_)
  refine (Op.bind_ok (Op.get_run _)).trans ((Op.bind_ok hpages).trans ((Op.bind_ok (Op.get_run _)).trans ?_))
  exact (Op.bind_ok (require_true hclean ..)).trans (Op.bind_ok hown)

theorem cpostBar_none : leads i (cpostBar none) u none u := rfl

theorem cpostBar_some {r : BitVec 4} {lb : Loc} (hlb : leads i (locate (u.ctx.areg r.toNat).ptr) u lb v)
    (htyp : (v.hdr lb).typ = tBARRIER) : leads i (cpostBar (some r)) u (some lb) v := by
  refine (Op.bind_ok (rdA_run ..)).trans ((Op.bind_ok hlb).trans ((Op.bind_ok (Op.get_run _)).trans ?_))
  exact Op.bind_ok (require_true (decide_eq_true htyp) ..)

/-- A `cpost` that passes its checks, and finds fewer than 16 posts of its core under way, is one more of them. -/
theorem runInstr_cpost (hw : i.wf = true) (hi : s.hasUnit i = true) (hb : plain b = true) (hf : v.calm = true)
    (hls : leads i (heapObject a) s ls t)
    (hty : typeAllows (t.hdr ls).typ .ld (t.core.inMiss || t.core.isPriv) t.core.isPriv = true)
    (hfit : (s.ctx.areg a.toNat).cur.toNat + (s.src b).toNat
      ≤ (if (t.hdr ls).typ = tRSTATE then readLen (t.hdr ls).typ (t.hdr ls).len else (t.hdr ls).span))
    (hpages : leads i (translateRead (.ctx t.site t.core.act) none ls (s.ctx.areg a.toNat).cur.toNat (s.src b).toNat
      (s.ctx.areg a.toNat).ptr) t ⟨⟩ x)
    (hpoison : x.readPoisoned none ls (s.ctx.areg a.toNat).cur.toNat (s.src b).toNat = false)
    (hown : leads i (ownWrites ls) x ⟨⟩ x)
    (hlevel : ptrLevel (s.ctx.areg d.toNat).ptr = 1 ∨ ptrLevel (s.ctx.areg d.toNat).ptr = 2)
    (hld : leads i (locate (s.ctx.areg d.toNat).ptr) x ld u) (htyp : (u.hdr ld).typ = tDATA)
    (hhi : (u.hdr ld).hi = (t.hdr ls).hi) (h1 : 1 ≤ (s.src b).toNat) (hmax : (s.src b).toNat ≤ 524288)
    (hdfit : (s.ctx.areg d.toNat).cur.toNat + (s.src b).toNat ≤ (u.hdr ld).span) (hbar : leads i (cpostBar c) u bar v)
    (hroom : (v.posts.filter fun q => decide (q.site = v.site)).length < 16) :
    runInstr i (cpostBody d a b c) s = .next
      (v.posted ls (s.ctx.areg a.toNat) ld (s.ctx.areg d.toNat) (s.src b).toNat bar).retires :=
  runInstr_pushes hw hi (State.listed_setCore ..) ((cpostBody_run hb hls hty hfit hpages hpoison hown).trans
    ((cpostDest_run hlevel hld htyp hhi h1 hmax hdfit hbar).trans (cpostPush_run hroom))) (State.posted_follows ..) hf

end

/-! Completion (R172). -/

/-- A completed post has written its bytes and credited its barrier, and its copies are counted no longer. -/
def State.postDone (s : State) (k : Nat) (p : Post) : State :=
  let s1 := s.putObj p.dst p.dstOff (s.readBody none p.src p.srcOff p.n)
  let s2 := match p.bar with
    | some v => s1.barCredit v p.n
    | none => s1
  { s2 with posts := s2.posts.eraseIdx k }.dropPost p

/-- The misses on the pages of the host that a completing post reads. -/
def postNear (s : State) (p : Post) (m : Nat) : Op Unit :=
  match p.src with
  | .heap asid va => match (pageStarts (va + 32 + p.srcOff) m).find? fun a => !s.hbmResident asid (a / 4096) with
    | some a => postMissAt p.site p.ctx 5 (a / 4096)
    | none => pure ()
  | .pad _ => pure ()

/-- The end of a post of which `m` bytes could be read. -/
def postEnds (k : Nat) (p : Post) (m : Nat) : Op Unit := do
  let s ← get
  let s1 := s.putObj p.dst p.dstOff (s.readBody none p.src p.srcOff m)
  let s2 := match p.bar with
    | some v => if m = p.n then s1.barCredit v p.n else s1
    | none => s1
  set ({ s2 with posts := s2.posts.eraseIdx k }.dropPost p)
  if m < p.n then
    let code := if s.readPoisoned none p.src (p.srcOff + m) 1 then Cause.poison.code else Cause.translate.code
    modCoreAt p.site fun c => { c with faults := c.faults ++ [
      { ctx := p.ctx, record := cpostRecord code, at_ := s.cycle.toNat, kind := 3, id := 0, num := p.num }] }

theorem cpostCompleteBody_eq (k : Nat) : cpostCompleteBody k = (do
    let s ← get
    let p ← dueSome s.posts[k]?
    due (!s.redsOn p.src p.srcOff p.n && !s.redsOn p.dst p.dstOff p.n)
    postNear s p (s.postReach p)
    postEnds k p (s.postReach p)) := by
  refine bind_congr fun s => bind_congr fun p => bind_congr fun _ => ?_
  generalize s.postReach p = m
  obtain ⟨site, ctx, src, srcOff, dst, dstOff, n, bar, num⟩ := p
  cases src with
  | pad c => rfl
  | heap asid va =>
    simp only [postNear]
    cases (pageStarts (va + 32 + srcOff) m).find? fun a => !s.hbmResident asid (a / 4096) with
    | none => rfl
    | some a => rfl

section
variable {k : Nat} {p : Post} {s : State}

theorem postNear_run (h : ∀ asid va, p.src = .heap asid va → ∀ a ∈ pageStarts (va + 32 + p.srcOff) p.n,
    s.hbmResident asid (a / 4096) = true) : postNear s p p.n = pure () := by
  rw [postNear]
  cases hl : p.src with
  | pad c => rfl
  | heap asid va =>
    have hnone : ((pageStarts (va + 32 + p.srcOff) p.n).find? fun a => !s.hbmResident asid (a / 4096)) = none :=
      List.find?_eq_none.2 fun a ha => by simp [h asid va hl a ha]
    simp only [hnone]

theorem postEnds_whole : postEnds k p p.n s = .ok () (s.postDone k p) := by
  obtain ⟨site, ctx, src, srcOff, dst, dstOff, n, bar, num⟩ := p
  refine (congrFun (if_neg (Nat.lt_irrefl n)) _).trans ?_
  cases bar with
  | none => rfl
  | some v => exact congrArg (EStateM.Result.ok ()) (by simp only [if_true]; rfl)

theorem exec_cpostComplete_whole (hp : s.posts[k]? = some p) (hreach : s.postReach p = p.n)
    (hsrc : s.clearOfReds p.src p.srcOff p.n = true) (hdst : s.clearOfReds p.dst p.dstOff p.n = true)
    (hnear : ∀ asid va, p.src = .heap asid va → ∀ a ∈ pageStarts (va + 32 + p.srcOff) p.n, s.hbmResident asid (a / 4096) = true) :
    exec (.cpostComplete k) s = .next (s.postDone k p) := by
  have hclear : (!s.redsOn p.src p.srcOff p.n && !s.redsOn p.dst p.dstOff p.n) = true := Bool.and_eq_true_iff.2 ⟨hsrc, hdst⟩
  have hbody : cpostCompleteBody k s = .ok () (s.postDone k p) := by
    rw [cpostCompleteBody_eq, Op.bind_ok (Op.get_run s), Op.bind_ok (dueSome_some hp s), Op.bind_ok (due_true hclear s), hreach,
      postNear_run hnear]
    exact postEnds_whole
  exact runEvent_ok hbody

end

/-! `cwait` (R173). -/

/-- The posts and writes of the executing context that are under way. -/
def State.outstanding (s : State) : Nat :=
  (s.posts.filter fun q => decide (q.site = s.site) && decide (q.ctx = s.core.act)).length
    + (s.core.hwrs.filter fun h => decide (h.ctx = s.core.act)).length

section
variable {d a : BitVec 5} {s : State} (ha : plain a = true) (hc : isChan s.site = true)
include ha hc

theorem exec_cwait_waits (h : (s.src a).toNat < s.outstanding) :
    exec (.cwait d a) s = .next (s.waits (s.starts (.cwait d a)).tx) := by
  refine runInstr_waits (t := s.starts (.cwait d a)) rfl (hasUnit_channel hc rfl) ?_
  refine (Op.bind_ok (rdS_plain ha _)).trans ((Op.bind_ok (Op.get_run _)).trans ?_)
  exact (congrFun (if_pos h) _).trans (Op.bind_error (waitHere_run _))

/-- Before it goes on it reports a fault of a post, where it waits for all of them. -/
theorem exec_cwait_gives (hd : plain d = true) (hf : s.calm = true) (h : s.outstanding ≤ (s.src a).toNat)
    (hn : s.src a = 0 → ∀ f ∈ s.core.faults, f.ctx = s.core.act → f.kind ≠ 3) :
    exec (.cwait d a) s = .next (s.gives d (BitVec.ofNat 64 s.outstanding)) := by
  refine runInstr_gives rfl (hasUnit_channel hc rfl) hf ?_
  refine (Op.bind_ok (rdS_plain ha _)).trans ((Op.bind_ok (Op.get_run _)).trans ?_)
  refine (congrFun (if_neg (Nat.not_lt.2 h)) _).trans ?_
  by_cases h0 : s.src a = 0
  · have hnone : (s.core.faults.find? fun f => decide (f.ctx = s.core.act) && decide (f.kind = 3)) = none :=
      List.find?_eq_none.2 fun f hmem => by simpa using hn h0 f hmem
    refine (congrFun (if_pos h0) _).trans ((Op.bind_ok (reportFault_none (s := s.starts _) hnone)).trans ?_)
    exact wrNat_run hd ..
  · exact (congrFun (if_neg h0) _).trans (wrNat_run hd ..)

end

/-- Settles O21: each instruction by its checks in order, a post by what it counts and notes. -/
theorem channelCoreResults : Obligations.ChannelCoreResults := by
  refine ⟨fun _ _ _ _ _ _ _ _ hd hc hf ht hown => exec_hrd_gives hd hc hf ht hown,
    fun _ _ _ _ _ _ _ _ hd hc hf ht hp => exec_hwr_retires hd hc hf ht hp, fun _ _ _ _ hw => exec_hwrPerformed_oldest hw,
    fun _ _ hw => exec_hwrPerformed_none hw, ?_, ?_, ?_⟩
  · intro d a b c named s t x u v ls ld bar hb hc hf i n src dst hls hty hfit hpages hpoison hown hlevel hld htyp hhi h1 hmax hdfit
      hbar hroom p w
    cases named with
    | false =>
      obtain ⟨rfl, rfl⟩ := hbar
      exact runInstr_cpost rfl (hasUnit_channel hc rfl) hb hf hls hty hfit hpages hpoison hown hlevel hld htyp hhi h1 hmax
        hdfit cpostBar_none hroom
    | true =>
      obtain ⟨lb, rfl, hlb, hbarrier⟩ := hbar
      exact runInstr_cpost rfl (hasUnit_channel hc rfl) hb hf hls hty hfit hpages hpoison hown hlevel hld htyp hhi h1 hmax
        hdfit (cpostBar_some hlb hbarrier) hroom
  · intro d a s hd ha hc hf out
    exact ⟨fun h hn => exec_cwait_gives ha hc hd hf h hn, fun h => exec_cwait_waits ha hc h⟩
  · intro k p s hp hreach hsrc hdst hnear
    exact exec_cpostComplete_whole hp hreach hsrc hdst hnear

end Sys2Proof.Machine
end

section
/-! SUPPORT. Queues (R423, R424, R434, R468): creation, enabling, disabling and doorbells. -/

namespace Sys2Proof.Machine

/-! Effects that must be READY, and those that may wait for a page. -/

theorem whenReady_ready {s : State} (h : s.phase = .ready) : whenReady s = .ok () s :=
  (Op.bind_ok (Op.get_run s)).trans (due_true (decide_eq_true h) s)

theorem whenReady_early {s : State} (h : s.phase ≠ .ready) : whenReady s = .error .stutter s :=
  (Op.bind_ok (Op.get_run s)).trans (due_false (decide_eq_false h) s)

theorem tryAsk_some {α : Type} {f : Op α} {s t : State} {a : α} (h : tryAsk f s = .ok (some a) t) : f s = .ok a t := by
  rw [tryAsk] at h
  split at h
  next hf => cases h; exact hf
  next => cases h
  next => cases h
  next => cases h

/-- What is asked for and not yet known has been waited for, with a request noted or with nothing done. -/
theorem tryAsk_none {α : Type} {f : Op α} {s t : State} (h : tryAsk f s = .ok none t) :
    f s = .error .waitKeep t ∨ t = s ∧ ∃ u, f s = .error .wait u := by
  rw [tryAsk] at h
  split at h
  next => cases h
  next hf => cases h; exact .inl hf
  next u hf => cases h; exact .inr ⟨rfl, u, hf⟩
  next => cases h

section
variable {i : HostWait} {body : Op Unit} {s t : State}

theorem runEvent_keepTrying_done (h : body s = .ok () t) : runEvent (keepTrying i body) s = .next (t.dropsWait i) :=
  runEvent_ok (keepTrying_ok h)

theorem runEvent_keepTrying_undue (h : body s = .error .stutter t) : runEvent (keepTrying i body) s = .next (s.dropsWait i) := by
  have hkeep : keepTrying i body s = .ok () (s.dropsWait i) := by
    simp only [keepTrying, h]
    rfl
  exact runEvent_ok hkeep

theorem State.keepsWait_eq (s : State) (i : HostWait) :
    (if s.hostWaits.contains i then s else { s with hostWaits := s.hostWaits ++ [i] }) = s.keepsWait i := by
  simp only [State.keepsWait, List.contains_iff_mem]

theorem runEvent_keepTrying_waitKeep (h : body s = .error .waitKeep t) :
    runEvent (keepTrying i body) s = .next (t.keepsWait i) := by
  rw [runEvent_ok (keepTrying_waitKeep h), State.keepsWait_eq]

theorem runEvent_keepTrying_wait (h : body s = .error .wait t) : runEvent (keepTrying i body) s = .next (s.keepsWait i) := by
  rw [runEvent_ok (keepTrying_wait h), State.keepsWait_eq]

end

/-! Creation (R423). -/

theorem State.queueOk_iff {s : State} {x : Queue} {d : Nat} : s.queueOk x d = true ↔ x.ring % 128 = 0 ∧ x.cring % 16 = 0
    ∧ x.ring + 128 * x.entries ≤ 2 ^ 53 ∧ x.cring + 16 * x.entries ≤ 2 ^ 53 ∧ x.entries = 2 ^ Nat.log2 x.entries ∧ 2 ≤ x.entries
    ∧ x.entries ≤ 65536 ∧ x.asid < 8192 ∧ (find x.asid s.asids).map (·.vf) = some x.vf ∧ x.prio < 8
    ∧ fieldN d (8 * 0x17) 8 < 2 ∧ (x.chan = true → s.accepted x.vf 8 = true)
    ∧ (x.part < 20 ∧ (find x.part s.partitions).isSome = true ∧ Config.vfPartition x.vf = some x.part)
    ∧ fieldN d (8 * 0x19) 56 = 0 ∧ fieldN d (8 * 0x2E) 144 = 0 ∧ x.saveSz % 4096 = 0 ∧ (x.save = nullPtr → x.saveSz = 0)
    ∧ 1 ≤ x.ctxSlots ∧ x.ctxSlots ≤ 4096 := by
  simp only [State.queueOk, State.partOf, Bool.and_eq_true, Bool.or_eq_true, Bool.not_eq_true', decide_eq_true_eq, and_assoc,
    ← imp_iff_not_or, ne_eq, Nat.reduceMul]
  cases x.chan <;> simp

/-- The effect of QUEUE_CREATE. -/
def queueCreateBody (vf num : Nat) (desc : BitVec 512) : Op Unit := do
  whenReady
  let s ← get
  due (decide (vf < 256) && decide (num < 64) && (find (queueKey vf num) s.queues).isNone
    && s.queueOk (parseQueue vf num desc.toNat) desc.toNat)
  if ← saveOk (parseQueue vf num desc.toNat) then
    modify fun s => { s with queues := store (queueKey vf num) (parseQueue vf num desc.toNat) s.queues }

section
variable {vf num : Nat} {desc : BitVec 512} {s t : State}

theorem exec_queueCreate_undue (h : s.phase ≠ .ready ∨ 256 ≤ vf ∨ 64 ≤ num ∨ (find (queueKey vf num) s.queues).isSome = true
    ∨ s.queueOk (parseQueue vf num desc.toNat) desc.toNat = false) :
    exec (.queueCreate vf num desc) s = .next (s.dropsWait (.queue vf num desc)) := by
  refine runEvent_keepTrying_undue (t := s) (?_ : queueCreateBody vf num desc s = _)
  by_cases hready : s.phase = .ready
  · have hbad : (decide (vf < 256) && decide (num < 64) && (find (queueKey vf num) s.queues).isNone
        && s.queueOk (parseQueue vf num desc.toNat) desc.toNat) = false := by
      rcases h with h | h | h | h | h
      · exact absurd hready h
      · simp [Nat.not_lt.2 h]
      · simp [Nat.not_lt.2 h]
      · simp [Option.isSome_iff_ne_none.1 h]
      · simp [h]
    exact (Op.bind_ok (whenReady_ready hready)).trans ((Op.bind_ok (Op.get_run s)).trans (Op.bind_error (due_false hbad s)))
  · exact Op.bind_error (whenReady_early hready)

variable (hready : s.phase = .ready) (hvf : vf < 256) (hnum : num < 64) (hfree : find (queueKey vf num) s.queues = none)
  (hok : s.queueOk (parseQueue vf num desc.toNat) desc.toNat = true)
include hready hvf hnum hfree hok

theorem queueCreateBody_asks : queueCreateBody vf num desc s = (saveOk (parseQueue vf num desc.toNat) >>= fun ok =>
    if ok = true then modify fun s => { s with queues := store (queueKey vf num) (parseQueue vf num desc.toNat) s.queues }
    else pure ⟨⟩ : Op Unit) s := by
  have hdue : (decide (vf < 256) && decide (num < 64) && (find (queueKey vf num) s.queues).isNone
      && s.queueOk (parseQueue vf num desc.toNat) desc.toNat) = true := by
    simp [hvf, hnum, hfree, hok]
  exact (Op.bind_ok (whenReady_ready hready)).trans ((Op.bind_ok (Op.get_run s)).trans (Op.bind_ok (due_true hdue s)))

theorem exec_queueCreate_made (h : tryAsk (saveOk (parseQueue vf num desc.toNat)) s = .ok (some true) t) :
    exec (.queueCreate vf num desc) s
      = .next (State.dropsWait { t with queues := store (queueKey vf num) (parseQueue vf num desc.toNat) t.queues }
          (.queue vf num desc)) :=
  runEvent_keepTrying_done ((queueCreateBody_asks hready hvf hnum hfree hok).trans (Op.bind_ok (tryAsk_some h)))

theorem exec_queueCreate_refused (h : tryAsk (saveOk (parseQueue vf num desc.toNat)) s = .ok (some false) t) :
    exec (.queueCreate vf num desc) s = .next (t.dropsWait (.queue vf num desc)) :=
  runEvent_keepTrying_done ((queueCreateBody_asks hready hvf hnum hfree hok).trans (Op.bind_ok (tryAsk_some h)))

theorem exec_queueCreate_waits (h : tryAsk (saveOk (parseQueue vf num desc.toNat)) s = .ok none t) :
    exec (.queueCreate vf num desc) s = .next (t.keepsWait (.queue vf num desc)) := by
  have hasks := queueCreateBody_asks hready hvf hnum hfree hok
  rcases tryAsk_none h with hw | ⟨rfl, u, hw⟩
  · exact runEvent_keepTrying_waitKeep (hasks.trans (Op.bind_error hw))
  · exact runEvent_keepTrying_wait (hasks.trans (Op.bind_error hw))

end

/-! Enabling, disabling, doorbells (R424, R434, R468). -/

section
variable {q : Nat} {s t : State}

/-- An event of a queue that the device does not have, or that comes before READY, changes nothing. -/
theorem runEvent_noQueue {f : State → Queue → Op Unit} (h : s.phase ≠ .ready ∨ find q s.queues = none) :
    runEvent (do
      whenReady
      let s ← get
      let x ← dueSome (find q s.queues)
      f s x) s = .next s := by
  by_cases hready : s.phase = .ready
  · exact runEvent_stutter ((Op.bind_ok (whenReady_ready hready)).trans ((Op.bind_ok (Op.get_run s)).trans
      (Op.bind_error (dueSome_none (h.resolve_left (not_not.2 hready)) s))))
  · exact runEvent_stutter (Op.bind_error (whenReady_early hready))

variable {x : Queue} (hready : s.phase = .ready) (hx : find q s.queues = some x)
include hready hx

theorem queueEvent_run (f : State → Queue → Op Unit) : (do
    whenReady
    let s ← get
    let x ← dueSome (find q s.queues)
    f s x : Op Unit) s = f s x s :=
  (Op.bind_ok (whenReady_ready hready)).trans ((Op.bind_ok (Op.get_run s)).trans (Op.bind_ok (dueSome_some hx s)))

theorem exec_queueEnable_stopping (h : (s.vfAt x.vf).stopping = true) : exec (.queueEnable q) s = .next s := by
  have hundue : (!(s.vfAt x.vf).stopping) = false := by rw [h]; rfl
  exact runEvent_stutter ((queueEvent_run hready hx _).trans (Op.bind_error (due_false hundue s)))

theorem exec_queueEnable_fetches (h : (s.vfAt x.vf).stopping = false)
    (hfetch : fetchQueue q { s with queues := store q { x with enabled := true } s.queues } = .ok () t) :
    exec (.queueEnable q) s = .next t := by
  have hdue : (!(s.vfAt x.vf).stopping) = true := by rw [h]; rfl
  exact runEvent_ok ((queueEvent_run hready hx _).trans ((Op.bind_ok (due_true hdue s)).trans ((Op.bind_ok (Op.set_run ..)).trans
    hfetch)))

/-- A queue that is to be deleted goes once none of its records is left. -/
theorem exec_queueDisable (del : Bool) : exec (.queueDisable q del) s
    = .next (if (del && (decide (x.head = x.tail)
          && ((s.withdrawDevice q).disableQueue q).recs.all fun r => decide (r.2.queue ≠ some q) || r.2.closed)) = true then
        { (s.withdrawDevice q).disableQueue q with queues := erase q ((s.withdrawDevice q).disableQueue q).queues }
      else (s.withdrawDevice q).disableQueue q) :=
  runEvent_ok (queueEvent_run hready hx _)

theorem exec_queueDisable_deletes : exec (.queueDisable q true) s
    = .next (if x.head = x.tail ∧ ∀ r ∈ ((s.withdrawDevice q).disableQueue q).recs, r.2.queue ≠ some q ∨ r.2.closed = true then
        { (s.withdrawDevice q).disableQueue q with queues := erase q ((s.withdrawDevice q).disableQueue q).queues }
      else (s.withdrawDevice q).disableQueue q) := by
  rw [exec_queueDisable hready hx true]
  simp only [Bool.true_and, Bool.and_eq_true, List.all_eq_true, Bool.or_eq_true, decide_eq_true_eq]

theorem exec_doorbell_fits {tail : BitVec 32} (hc : (tail - x.chead).toNat ≤ x.entries) (hh : (tail - x.head).toNat ≤ x.entries)
    (hfetch : fetchQueue q { s with queues := store q { x with tail := tail } s.queues } = .ok () t) :
    exec (.doorbell q tail) s = .next t := by
  have hfits : ¬ (decide ((tail - x.chead).toNat > x.entries) || decide ((tail - x.head).toNat > x.entries)) = true := by
    rw [Bool.or_eq_true, decide_eq_true_eq, decide_eq_true_eq]
    exact not_or.2 ⟨Nat.not_lt.2 hc, Nat.not_lt.2 hh⟩
  refine runEvent_ok ((queueEvent_run hready hx _).trans ((congrFun (if_neg hfits) s).trans ?_))
  exact (Op.bind_ok (Op.set_run ..)).trans hfetch

theorem exec_doorbell_overruns {tail : BitVec 32} (h : x.entries < (tail - x.chead).toNat ∨ x.entries < (tail - x.head).toNat) :
    exec (.doorbell q tail) s
      = .next (((s.withdrawDevice q).disableQueue q).postEvent { vf := x.vf, kind := 3, data := x.num }) := by
  have hover : (decide ((tail - x.chead).toNat > x.entries) || decide ((tail - x.head).toNat > x.entries)) = true := by
    rwa [Bool.or_eq_true, decide_eq_true_eq, decide_eq_true_eq]
  exact runEvent_ok ((queueEvent_run hready hx _).trans (congrFun (if_pos hover) s))

end

end Sys2Proof.Machine
end

section
/-! SUPPORT. ASIDs (R165, R420): bound and unbound. -/

namespace Sys2Proof.Machine

/-! Binding. -/

/-- An ASID that shares no PASID has a page table of its own. -/
theorem State.shareTable_alone {s : State} {asid : Nat} {x : AsidSt} (hx : find asid s.asids = some x)
    (h : ∀ e ∈ s.asids, e.1 ≠ asid → e.2.vf ≠ x.vf ∨ e.2.pasid ≠ x.pasid) : s.shareTable asid = s := by
  have hmates : s.tableMates asid = [asid] := by
    rw [State.tableMates, List.filter_eq_nil_iff.2]
    · rfl
    rintro e he hmate
    obtain ⟨hne, hone⟩ := Bool.and_eq_true_iff.1 hmate
    have hne : e.1 ≠ asid := of_decide_eq_true hne
    rcases (s.oneTable_iff asid e.1).1 hone with heq | ⟨y, z, hy, hz, hvf, hpasid⟩
    · exact hne heq.symm
    · cases hx.symm.trans hy
      rcases h _ (mem_of_find hz) hne with h | h
      · exact h hvf.symm
      · exact h hpasid.symm
  rw [State.shareTable, hmates]
  rfl

theorem mem_of_mem_store {α : Type} {k : Nat} {v : α} {e : Nat × α} {l : List (Nat × α)} (h : e ∈ store k v l) (hk : e.1 ≠ k) :
    e ∈ l := by
  induction l with
  | nil => exact absurd (congrArg Prod.fst (List.mem_singleton.1 h)) hk
  | cons c l ih =>
    obtain ⟨j, u⟩ := c
    rw [store] at h
    split at h
    · exact (List.mem_cons.1 h).resolve_left fun he => hk (congrArg Prod.fst he)
    · split at h
      · exact List.mem_cons_of_mem _ ((List.mem_cons.1 h).resolve_left fun he => hk (congrArg Prod.fst he))
      · rcases List.mem_cons.1 h with rfl | h
        · exact List.mem_cons_self ..
        · exact List.mem_cons_of_mem _ (ih h)

/-- What the driver may bind (R165, R420). -/
def State.bindable (s : State) (asid vf pasid : Nat) (grants : List Nat) : Prop :=
  s.phase = .ready ∧ asid < 8192 ∧ vf < 256 ∧ pasid < 2 ^ 20 ∧ find asid s.asids = none
    ∧ ∀ b ∈ grants, b % 2097152 = 0 ∧ b + 2097152 ≤ 2 ^ 53

/-- What the device holds of an ASID with nothing in its heap. -/
def freshAsid (vf pasid : Nat) (grants : List Nat) : AsidSt := { vf := vf, pasid := pasid, regions := grants.map fun b => { base := b } }

section
variable {asid vf pasid : Nat} {grants : List Nat} {s : State}

theorem exec_asidBind_binds (h : s.bindable asid vf pasid grants) : exec (.asidBind asid vf pasid grants) s
    = .next (State.shareTable { s with asids := store asid (freshAsid vf pasid grants) s.asids } asid) := by
  obtain ⟨hready, hasid, hvf, hpasid, hfree, hgrants⟩ := h
  have hdue : (decide (asid < 8192) && decide (vf < 256) && decide (pasid < 2 ^ 20) && (find asid s.asids).isNone
      && grants.all fun b => decide (b % 2097152 = 0) && decide (b + 2097152 ≤ 2 ^ 53)) = true := by
    simp only [Bool.and_eq_true, List.all_eq_true, decide_eq_true_eq, Option.isNone_iff_eq_none]
    exact ⟨⟨⟨⟨hasid, hvf⟩, hpasid⟩, hfree⟩, hgrants⟩
  exact runEvent_ok ((Op.bind_ok (whenReady_ready hready)).trans ((Op.bind_ok (Op.get_run s)).trans (Op.bind_ok (due_true hdue s))))

theorem exec_asidBind_unfit (h : ¬ s.bindable asid vf pasid grants) : exec (.asidBind asid vf pasid grants) s = .next s := by
  by_cases hready : s.phase = .ready
  · have hundue : (decide (asid < 8192) && decide (vf < 256) && decide (pasid < 2 ^ 20) && (find asid s.asids).isNone
        && grants.all fun b => decide (b % 2097152 = 0) && decide (b + 2097152 ≤ 2 ^ 53)) = false := by
      refine Bool.eq_false_iff.2 fun hdue => h ?_
      simp only [Bool.and_eq_true, List.all_eq_true, decide_eq_true_eq, Option.isNone_iff_eq_none] at hdue
      obtain ⟨⟨⟨⟨hasid, hvf⟩, hpasid⟩, hfree⟩, hgrants⟩ := hdue
      exact ⟨hready, hasid, hvf, hpasid, hfree, hgrants⟩
    exact runEvent_stutter ((Op.bind_ok (whenReady_ready hready)).trans ((Op.bind_ok (Op.get_run s)).trans
      (Op.bind_error (due_false hundue s))))
  · exact runEvent_stutter (Op.bind_error (whenReady_early hready))

theorem exec_asidBind_alone (h : s.bindable asid vf pasid grants) (hown : ∀ e ∈ s.asids, e.2.vf ≠ vf ∨ e.2.pasid ≠ pasid) :
    exec (.asidBind asid vf pasid grants) s = .next { s with asids := store asid (freshAsid vf pasid grants) s.asids } := by
  rw [exec_asidBind_binds h, State.shareTable_alone (find_store_self ..) fun e he hne => hown e (mem_of_mem_store he hne)]

end

/-! Unbinding. -/

theorem WritesMemory.barWaitersDown (v : Loc) : WritesMemory (State.barWaitersDown · v) := by
  intro s
  obtain ⟨m, h, vf, u, hw⟩ := setFieldAt v 0x1C 4 (s.barWaiters v - 1) s
  exact ⟨m, h, vf, u, fun x => hw x⟩

theorem State.withdraw_cores (s : State) (rid : Nat) (closed : Bool) : (s.withdraw rid closed).cores = s.cores :=
  (WritesMemory.foldl _ fun p => .barWaitersDown (.heap (s.recAt rid).l.asid (ptrLoc p))).cores s

theorem State.withdrawDevice_cores (s : State) (q : Nat) : (s.withdrawDevice q).cores = s.cores := by
  unfold State.withdrawDevice
  generalize s.deviceRecs q = l
  induction l generalizing s with
  | nil => rfl
  | cons e l ih => exact (ih _).trans (s.withdraw_cores e.1 true)

/-- The queues of an ASID. -/
def State.asidQueues (s : State) (asid : Nat) : List (Nat × Queue) := s.queues.filter fun q => decide (q.2.asid = asid)

/-- The records of those queues that the device has queued are withdrawn. -/
def State.asidWithdrawn (s : State) (asid : Nat) : State :=
  (s.asidQueues asid).foldl (fun (t : State) q => t.withdrawDevice q.1) s

theorem State.asidWithdrawn_cores (s : State) (asid : Nat) : (s.asidWithdrawn asid).cores = s.cores := by
  unfold State.asidWithdrawn
  generalize s.asidQueues asid = l
  induction l generalizing s with
  | nil => rfl
  | cons q l ih => exact (ih _).trans (s.withdrawDevice_cores q.1)

/-- No record of an ASID is resident or queued. -/
def State.asidIdle (s : State) (asid : Nat) : Bool :=
  ((s.asidWithdrawn asid).recs.all fun r => decide (r.2.l.asid ≠ asid) || r.2.closed)
    && (s.asidQueues asid).all fun q => decide (q.2.head = q.2.tail)

theorem State.asidIdle_iff {s : State} {asid : Nat} : s.asidIdle asid = true
    ↔ (∀ r ∈ (s.asidWithdrawn asid).recs, r.2.l.asid = asid → r.2.closed = true) ∧ ∀ q ∈ s.asidQueues asid, q.2.head = q.2.tail := by
  simp only [State.asidIdle, Bool.and_eq_true, List.all_eq_true, Bool.or_eq_true, decide_eq_true_eq, ne_eq, ← imp_iff_not_or]

/-- The device forgets an ASID. -/
def State.asidGone (s : State) (asid : Nat) : State := { s with
  asids := erase asid s.asids
  tier := s.tier.filter fun e => e.asid ≠ asid
  ptes := s.ptes.filter fun e => e.1 / 2 ^ 41 ≠ asid
  pageReqs := s.pageReqs.filter fun r => r.asid ≠ asid
  kvTabs := s.kvTabs.filter fun k => k.asid ≠ asid }

/-- The effect of ASID_UNBIND. -/
def asidUnbindBody (asid : Nat) : Op Unit := do
  whenReady
  let s ← get
  due ((find asid s.asids).isSome)
  set (s.asidWithdrawn asid)
  if !s.asidIdle asid then waitKeep
  set ((s.asidWithdrawn asid).asidGone asid)

section
variable {asid : Nat} {s : State}

theorem exec_asidUnbind_undue (h : s.phase ≠ .ready ∨ find asid s.asids = none) :
    exec (.asidUnbind asid) s = .next (s.dropsWait (.unbind asid)) := by
  refine runEvent_keepTrying_undue (t := s) (?_ : asidUnbindBody asid s = _)
  by_cases hready : s.phase = .ready
  · have hnone : (find asid s.asids).isSome = false := by rw [h.resolve_left (not_not.2 hready)]; rfl
    exact (Op.bind_ok (whenReady_ready hready)).trans ((Op.bind_ok (Op.get_run s)).trans (Op.bind_error (due_false hnone s)))
  · exact Op.bind_error (whenReady_early hready)

variable (hready : s.phase = .ready) (hbound : (find asid s.asids).isSome = true)
include hready hbound

theorem asidUnbindBody_run : asidUnbindBody asid s = if s.asidIdle asid = true then
    .ok () ((s.asidWithdrawn asid).asidGone asid) else .error .waitKeep (s.asidWithdrawn asid) := by
  refine (Op.bind_ok (whenReady_ready hready)).trans ((Op.bind_ok (Op.get_run s)).trans ((Op.bind_ok (due_true hbound s)).trans
    ((Op.bind_ok (Op.set_run ..)).trans ?_)))
  cases hidle : s.asidIdle asid
  · rfl
  · rfl

theorem exec_asidUnbind_waits (h : ¬ s.asidIdle asid = true) :
    exec (.asidUnbind asid) s = .next ((s.asidWithdrawn asid).keepsWait (.unbind asid)) :=
  runEvent_keepTrying_waitKeep ((asidUnbindBody_run hready hbound).trans (if_neg h))

theorem exec_asidUnbind_ends (h : s.asidIdle asid = true) :
    exec (.asidUnbind asid) s = .next (((s.asidWithdrawn asid).asidGone asid).dropsWait (.unbind asid)) :=
  runEvent_keepTrying_done ((asidUnbindBody_run hready hbound).trans (if_pos h))

end

theorem find_erase_self {α : Type} (k : Nat) (l : List (Nat × α)) : find k (erase k l) = none := by
  induction l with
  | nil => rfl
  | cons e l ih =>
    obtain ⟨j, v⟩ := e
    rw [erase]
    split
    · exact ih
    next hj => rw [find, if_neg hj, ih]

/-- What a filter keeps of a key is found as before. -/
theorem find_filter_kept {α : Type} {k : Nat} {p : Nat × α → Bool} (h : ∀ v, p (k, v) = true) (l : List (Nat × α)) :
    find k (l.filter p) = find k l := by
  induction l with
  | nil => rfl
  | cons e l ih =>
    obtain ⟨j, v⟩ := e
    by_cases hj : j = k
    · subst hj
      rw [List.filter_cons_of_pos (h v), find, find, if_pos rfl, if_pos rfl]
    · rw [find, if_neg hj, ← ih, List.filter_cons]
      split
      · rw [find, if_neg hj]
      · rfl

/-- Nothing of the ASID is left, and the rest is as it was. -/
theorem State.asidGone_leaves (t : State) (asid : Nat) :
    find asid (t.asidGone asid).asids = none ∧ (∀ e ∈ (t.asidGone asid).tier, e.asid ≠ asid)
      ∧ (∀ j, j / 2 ^ 41 = asid → find j (t.asidGone asid).ptes = none)
      ∧ (∀ j, j / 2 ^ 41 ≠ asid → find j (t.asidGone asid).ptes = find j t.ptes)
      ∧ ∀ k ∈ (t.asidGone asid).kvTabs, k.asid ≠ asid :=
  ⟨find_erase_self .., fun _ he => of_decide_eq_true (List.mem_filter.1 he).2,
    fun _ hj => find_filter_ne (fun _ => decide_eq_false (not_not.2 hj)) _,
    fun _ hj => find_filter_kept (fun _ => decide_eq_true hj) _, fun _ hk => of_decide_eq_true (List.mem_filter.1 hk).2⟩

/-- Settles O50: a queue by the checks of its descriptor, an ASID by what the device holds of it. -/
theorem queuesAndAsids : Obligations.QueuesAndAsids := by
  refine ⟨?_, fun vf num desc s h => exec_queueCreate_undue h, ?_, ?_, ?_, ?_⟩
  · intro vf num desc s t hready hvf hnum hfree f save x hring hcring hentries hasid hbound hprio hchan hfeature hpart hvalid
      hassigned hzero1 hzero2 hsz hnull hslots hslotsMax hringEnd hcringEnd i
    have hok : s.queueOk (parseQueue vf num desc.toNat) desc.toNat = true := by
      obtain ⟨k, hk1, hk16, hk⟩ := hentries
      have hk : (parseQueue vf num desc.toNat).entries = 2 ^ k := hk
      have hlow : 2 ^ 1 ≤ 2 ^ k := Nat.pow_le_pow_right (by decide) hk1
      have hhigh : 2 ^ k ≤ 2 ^ 16 := Nat.pow_le_pow_right (by decide) hk16
      refine State.queueOk_iff.2 ⟨hring, hcring, hringEnd, hcringEnd, ?_, ?_, ?_, hasid, hbound, hprio, hchan, hfeature,
        ⟨hpart, hvalid, hassigned⟩, hzero1, hzero2, hsz, hnull, hslots, hslotsMax⟩
      · rw [hk, Nat.log2_two_pow]
      · rw [hk]; exact hlow
      · rw [hk]; exact hhigh
    exact ⟨fun h => exec_queueCreate_made hready hvf hnum hfree hok h, fun h => exec_queueCreate_refused hready hvf hnum hfree hok h,
      fun h => exec_queueCreate_waits hready hvf hnum hfree hok h⟩
  · intro q s h tail del i hi
    simp only [List.mem_cons, List.not_mem_nil, or_false] at hi
    rcases hi with rfl | rfl | rfl
    · exact runEvent_noQueue h
    · exact runEvent_noQueue h
    · exact runEvent_noQueue h
  · intro q x s t hready hx
    exact ⟨exec_queueEnable_stopping hready hx, exec_queueEnable_fetches hready hx, exec_queueDisable hready hx false,
      exec_queueDisable_deletes hready hx, fun tail => ⟨exec_doorbell_fits hready hx, exec_doorbell_overruns hready hx⟩⟩
  · intro asid vf pasid grants s ok x
    exact ⟨fun h => ⟨exec_asidBind_binds h, exec_asidBind_alone h⟩, exec_asidBind_unfit⟩
  · intro asid s
    refine ⟨exec_asidUnbind_undue, ?_⟩
    intro hready hbound mine t idle
    have hidle : s.asidIdle asid = true ↔ idle := State.asidIdle_iff
    refine ⟨fun h => exec_asidUnbind_waits hready hbound (mt hidle.1 h),
      fun h => ⟨_, exec_asidUnbind_ends hready hbound (hidle.2 h), ?_⟩⟩
    obtain ⟨hasids, htier, hptes, hothers, htabs⟩ := (s.asidWithdrawn asid).asidGone_leaves asid
    exact ⟨hasids, htier, hptes, hothers, htabs, rfl, rfl, s.asidWithdrawn_cores asid⟩

end Sys2Proof.Machine
end

section
/-! SUPPORT. A push whose barrier moves: the promotion of the barrier (R149) patches the command register (R150). -/

namespace Sys2Proof.Machine

/-- A `FILL` of an object in the own pad, with ARRIVE at the scope of the cluster, on a barrier in the own pad. -/
def arrivingFill : KWord := BitVec.ofNat 256 (0x14 + 2 ^ 9 + 2 * 2 ^ 16 + (mkPtr 0 3 0x100).toNat * 2 ^ 64 + 5 * 2 ^ 128 + 64 * 2 ^ 160
  + (mkPtr 0 3 0x2000).toNat * 2 ^ 192)

/-- `k1` of the executing core is that word; its two objects lie in the own pad, and the record has an area of the cluster pad. -/
def arriving : State :=
  let s := ({} : State).placeWord 0
  let s1 := s.setRec 0 { s.recAt 0 with careas := [(0, { base := clusterPadKey 0, size := 65536, dirCap := 64 })] }
  let c := s1.coreAt 0
  let pad := { c.pad with hdrs := [corePadKey 0 + 0x100, corePadKey 0 + 0x2000], bump := 0x3000 }
  let s2 := s1.setCore 0 { c with k := c.k.setIfInBounds 1 arrivingFill, pad := pad }
  let filled := s2.mem.setHdr (corePadKey 0 + 0x100) { w0 := BitVec.ofNat 64 (4096 + tDATA * 2 ^ 40) }
  { s2 with mem := filled.setHdr (corePadKey 0 + 0x2000) { w0 := BitVec.ofNat 64 (64 + tBARRIER * 2 ^ 40) } }

/-- The state in which the barrier has been moved to the cluster pad. -/
def barrierMoved : State :=
  match pushBarrier (mkPtr 0 3 0x2000) 2 (arriving.starts (.cpush 2 1)) with
  | .ok _ t => t
  | .error _ t => t

/-- The operation leads from one state to another, by evaluation. -/
def runsTo {α : Type} [DecidableEq α] (i : Instr) (x : Op α) (s : State) (a : α) (t : State) : Bool :=
  match x (s.starts i) with
  | .ok b u => decide (b = a) && decide (u = t.starts i)
  | .error _ _ => false

theorem leads_of_runsTo {α : Type} [DecidableEq α] {i : Instr} {x : Op α} {s t : State} {a : α} (h : runsTo i x s a t = true) :
    leads i x s a t := by
  unfold leads
  unfold runsTo at h
  split at h
  · next b u hu =>
    rw [Bool.and_eq_true, decide_eq_true_eq, decide_eq_true_eq] at h
    rw [hu, h.1, h.2]
  · cases h

/-- The words of the commands that the executing core has in flight after an instruction. -/
def copyWordsAfter (i : Instr) (s : State) : List KWord :=
  match exec i s with
  | .next (t : State) => t.core.copies.map (·.word)
  | _ => []

theorem State.copies_gives (s : State) (d : BitVec 5) (v : Word) : (s.gives d v).core.copies = s.core.copies := by
  simp [State.gives, State.becomes, State.retires, State.core_retiresTo]

/-- From the word that `k1` held when its barrier was looked for, the engine would take a command with that word. -/
theorem exists_queues_arrivingFill : ∃ z, queues (.cpush 2 1) (arriving.core.kreg 1) arriving z ∧ z.calm = true
    ∧ z.core.copies.map (·.word) = [arrivingFill] := by
  have hbar : leads (.cpush 2 1) (pushBarrier (mkPtr 0 3 0x2000) 2) arriving (.pad (clusterPadKey 0)) barrierMoved :=
    leads_of_runsTo (by decide +kernel)
  have hplaces : leads (.cpush 2 1) ((kObjects arrivingFill).mapM (copyPlace arrivingFill)) barrierMoved
      [.pad (corePadKey 0 + 0x100)] barrierMoved := leads_of_runsTo (by decide +kernel)
  exact ⟨_, ⟨_, _, _, some _, ⟨_, rfl, hbar⟩, hplaces, rfl⟩, by decide +kernel, by decide +kernel⟩

/-- Refutes O31: the second clause has `cpush` queue the word that the command register held before its barrier was brought to
the scope. The promotion of a barrier in the own pad patches the pointers in the command registers, and the word that is queued
is the patched one. -/
theorem not_copyPushAndWait : ¬ Obligations.CopyPushAndWait := by
  rintro ⟨hpush, -⟩
  obtain ⟨z, hz, hcalm, hwords⟩ := exists_queues_arrivingFill
  have hchecks : leads (.cpush 2 1) (copyChecks (arriving.core.kreg 1)) arriving () arriving := leads_of_runsTo (by decide +kernel)
  have hrelease : leads (.cpush 2 1) (releaseAll (kScope (arriving.core.kreg 1))) arriving () arriving :=
    leads_of_runsTo (by decide +kernel)
  obtain ⟨-, hok⟩ := hpush 2 1 arriving arriving arriving z rfl rfl
  obtain ⟨-, hqueues⟩ := hok (by decide +kernel) hchecks
  have hexec := hqueues (by decide +kernel) hrelease hz hcalm
  have hafter : copyWordsAfter (.cpush 2 1) arriving = [arrivingFill] := by
    rw [copyWordsAfter, hexec]
    exact (congrArg (List.map (·.word)) (z.copies_gives ..)).trans hwords
  exact absurd hafter (by decide +kernel)

end Sys2Proof.Machine
end

section
/-! SUPPORT. Steps of the copy engine (R325, R333): how a step of a command runs, and the entry that it changes. -/

namespace Sys2Proof.Machine

/-! Effects at a core's site. -/

/-- A core's site executes. -/
def State.onSite (s : State) (site : Nat) : State := { s with site := site }

theorem atSite_ok {site : Nat} {f : Op Unit} {s t : State} (h : f (s.onSite site) = .ok () t) :
    atSite site f s = .ok () (t.onSite s.site) :=
  (Op.bind_ok (Op.get_run s)).trans ((Op.bind_ok (Op.modify_run ..)).trans (Op.bind_ok h))

theorem tryRun_wait {f : Op Unit} {s t : State} (h : f s = .error .wait t) : tryRun f s = .ok .parked s := by rw [tryRun, h]

/-! The entry of a command. -/

/-- An entry of the copy engine of the executing core has become `m`. -/
def State.withCopy (s : State) (e : Nat) (m : Cmd) : State := s.setCore s.site { s.core with copies := s.core.copies.set e m }

section
variable {s : State} {e : Nat} {m m' : Cmd}

theorem State.core_withCopy (s : State) (e : Nat) (m : Cmd) :
    (s.withCopy e m).core = { s.core with copies := s.core.copies.set e m } := State.core_setCore ..

theorem modify_eq_set_of_getElem? {α : Type} {l : List α} {n : Nat} {x : α} (h : l[n]? = some x) (f : α → α) :
    l.modify n f = l.set n (f x) := by
  rw [List.modify_eq_set_getElem?, h]
  rfl

theorem modCopy_run (h : s.core.copies[e]? = some m) (f : Cmd → Cmd) : modCopy e f s = .ok () (s.withCopy e (f m)) := by
  have hset : modCopy e f s = .ok () (s.setCore s.site { s.core with copies := s.core.copies.modify e f }) := rfl
  rw [hset, modify_eq_set_of_getElem? h]
  rfl

theorem State.copies_withCopy (h : s.core.copies[e]? = some m) : (s.withCopy e m').core.copies[e]? = some m' := by
  obtain ⟨hlt, -⟩ := List.getElem?_eq_some_iff.1 h
  rw [State.core_withCopy]
  exact List.getElem?_set_self hlt

theorem State.withCopy_withCopy (s : State) (e : Nat) (m m' : Cmd) : (s.withCopy e m).withCopy e m' = s.withCopy e m' := by
  rw [State.withCopy, State.core_withCopy, State.withCopy, State.withCopy]
  simp only [State.setCore_site, State.setCore_setCore, List.set_set]

end

/-! A step. -/

/-- What a step runs at the core's site: it reads on, or writes what has been read. -/
def copyWork (e : Nat) (fetch : Cmd → Op Unit) (m : Cmd) : Op Unit := if m.buf = [] then fetch m else drainBuf e

/-- A command has something to do: it has something to write, or has not stopped and not read everything. -/
def Cmd.unfinished (m : Cmd) : Prop := m.buf ≠ [] ∨ m.stop = none ∧ m.prog < m.total

section
variable {op core e : Nat} {fetch : Cmd → Op Unit} {m : Cmd} {s t : State}

theorem copyStep_none (h : (s.coreAt core).copies[e]? = none) : runEvent (copyStep op core e fetch) s = .next s :=
  runEvent_stutter ((Op.bind_ok (Op.get_run s)).trans (Op.bind_error (dueSome_none h s)))

variable (hm : (s.coreAt core).copies[e]? = some m) (hop : kOp m.word = op) (hdue : m.unfinished)
include hm hop hdue

theorem copyStep_works : copyStep op core e fetch s = atSite core (do
    match ← tryRun (copyWork e fetch m) with
    | .stopped c => modCopy e fun m => { m with stop := some c }
    | _ => pure ()) s := by
  have hdue : (decide (kOp m.word = op) && !(decide (m.buf = []) && (m.stop.isSome || decide (m.total ≤ m.prog)))) = true := by
    rcases hdue with hbuf | ⟨hstop, hprog⟩
    · simp [hop, hbuf]
    · simp [hop, hstop, Nat.not_le.2 hprog]
  exact (Op.bind_ok (Op.get_run s)).trans ((Op.bind_ok (dueSome_some hm s)).trans (Op.bind_ok (due_true hdue s)))

theorem copyStep_done (h : copyWork e fetch m (s.onSite core) = .ok () t) :
    runEvent (copyStep op core e fetch) s = .next (t.onSite s.site) :=
  runEvent_ok ((copyStep_works hm hop hdue).trans (atSite_ok (Op.bind_ok (tryRun_ok h))))

/-- A step that must wait changes nothing. -/
theorem copyStep_waits (h : copyWork e fetch m (s.onSite core) = .error .wait t) :
    runEvent (copyStep op core e fetch) s = .next s :=
  runEvent_ok ((copyStep_works hm hop hdue).trans (atSite_ok (t := s.onSite core) (Op.bind_ok (tryRun_wait h))))

/-- A step that traps stops the command. -/
theorem copyStep_stops {c : Cause} {v : Word} (h : copyWork e fetch m (s.onSite core) = .error (.trap c v) (s.onSite core)) :
    runEvent (copyStep op core e fetch) s
      = .next (((s.onSite core).withCopy e { m with stop := some c.code }).onSite s.site) :=
  runEvent_ok ((copyStep_works hm hop hdue).trans (atSite_ok ((Op.bind_ok (tryRun_trap h)).trans
    (modCopy_run (s := s.onSite core) hm _))))

end

/-- A step has made `t` of the state in which the core's site executes: the entry has become `m`, and the contexts are as they
were. -/
def State.stepOf (s t : State) (core e : Nat) (m : Cmd) : Prop :=
  t.site = core ∧ t.core.copies = (s.coreAt core).copies.set e m ∧ t.core.ctxs = (s.coreAt core).ctxs

theorem State.stepOf.copyStepTo {s t : State} {core e : Nat} {m : Cmd} (h : s.stepOf t core e m) :
    copyStepTo s (t.onSite s.site) core e m := by
  obtain ⟨rfl, hcopies, hctxs⟩ := h
  exact ⟨hcopies, rfl, hctxs⟩

theorem State.stepOf_withCopy (s : State) (core e : Nat) (m : Cmd) : s.stepOf ((s.onSite core).withCopy e m) core e m := by
  refine ⟨rfl, ?_, ?_⟩
  · rw [State.core_withCopy]
    rfl
  · rw [State.core_withCopy]
    rfl

/-- A step that has changed the entry of its command alone. -/
theorem copyStep_changes {op core e : Nat} {fetch : Cmd → Op Unit} {m m' : Cmd} {s : State}
    (hm : (s.coreAt core).copies[e]? = some m) (hop : kOp m.word = op) (hdue : m.unfinished)
    (h : copyWork e fetch m (s.onSite core) = .ok () ((s.onSite core).withCopy e m')) :
    ∃ t, runEvent (copyStep op core e fetch) s = .next t ∧ t.mem = s.mem ∧ t.tier = s.tier
      ∧ (t.coreAt core).cppages = (s.coreAt core).cppages ∧ copyStepTo s t core e m' := by
  refine ⟨_, copyStep_done hm hop hdue h, rfl, rfl, ?_, (s.stepOf_withCopy core e m').copyStepTo⟩
  exact (congrArg Core.cppages (State.core_withCopy (s.onSite core) e m')).trans rfl

end Sys2Proof.Machine
end

section
/-! SUPPORT. Pieces that a copy command reads from pads (R333 to R336). -/

namespace Sys2Proof.Machine

/-- A pad object of which no byte is poisoned and on which no reduction is queued, and which nothing has been stored over since
the push of a command. -/
structure State.Readable (s : State) (m : Cmd) (k : Nat) : Prop where
  since : s.olds.length ≤ m.since
  clean : ∀ off len, s.readPoisoned none (.pad k) off len = false
  quiet : ∀ r ∈ s.reds, r.v ≠ .pad k

theorem State.redsOn_quiet {s : State} {l : Loc} (h : ∀ r ∈ s.reds, r.v ≠ l) (off n : Nat) : s.redsOn l off n = false :=
  List.any_eq_false.2 fun r hr => by simp [h r hr]

section
variable {s : State} {m : Cmd} {k : Nat}

/-- What is read is what stands there (R342). -/
theorem raceBytes_run (h : s.olds.length ≤ m.since) (l : Loc) (off n : Nat) :
    raceBytes m l off n s = .ok (s.readBody none l off n) s := by
  have hreads : s.raceReads m l off n = [s.readBody none l off n] := by
    rw [State.raceReads, Nat.sub_eq_zero_of_le h, List.take_zero]
    rfl
  rw [raceBytes, Op.bind_ok (Op.get_run s), hreads]
  rfl

variable (h : s.Readable m k)
include h

theorem readPiece_run (size : Nat) (elems : List (Nat × Nat)) : readPiece m (.pad k) size elems s
    = .ok (elems.map fun x => (x.2, size, ofBytes (s.readBody none (.pad k) x.1 size)), none) s := by
  induction elems with
  | nil => rfl
  | cons x elems ih =>
    rw [readPiece, Op.bind_ok (awaitReds_of_none (State.redsOn_quiet h.quiet ..)), Op.bind_ok (Op.get_run s),
      if_neg (Bool.eq_false_iff.1 (h.clean ..)), Op.bind_ok (raceBytes_run h.since ..), Op.bind_ok ih]
    rfl

end

/-- A loop that collects elements, with no fault on its way. -/
theorem Op.forIn_collect_ok {α φ : Type} {f : α → List α × Option φ → Op (ForInStep (List α × Option φ))} {s : State}
    (hf : ∀ x out, f x (out, none) s = .ok (.yield (out ++ [x], none)) s) :
    ∀ l out, forIn l (out, none) f s = .ok (out ++ l, none) s
  | [], out => by
    rw [List.append_nil]
    rfl
  | x :: l, out => by
    rw [List.forIn_cons, Op.bind_ok (hf x out)]
    refine (Op.forIn_collect_ok hf l (out ++ [x])).trans ?_
    rw [List.append_assoc, List.singleton_append]

end Sys2Proof.Machine
end

section
/-! SUPPORT. Steps that read a piece (R333 to R336). -/

namespace Sys2Proof.Machine

/-! A piece is read (R333, R342). -/

/-- The elements of a piece as they stand in a pad object. -/
def State.pieceBytes (s : State) (k : Nat) (p : Piece) : List (Nat × Nat × Nat) :=
  p.elems.map fun x => (x.2, p.size, ofBytes (s.readBody none (.pad k) x.1 p.size))

/-- A command that has read a piece of a pad object. -/
def Cmd.fetched (m : Cmd) (p : Piece) (got : List (Nat × Nat × Nat)) : Cmd := { m with
  buf := if p.whole then p.writes.filterMap fun d => got.find? fun x => decide (x.1 = d) else got
  stop := none, prog := p.next
  seen := (p.elems.getLast?.map fun _ => 0).or m.seen }

section
variable {s : State} {m : Cmd} {e k : Nat}

theorem fetchPiece_run (hm : s.core.copies[e]? = some m) (hsrc : m.erefs[0]? = some (.pad k)) (h : s.Readable m k) (p : Piece) :
    fetchPiece e p s = .ok () (s.withCopy e (m.fetched p (s.pieceBytes k p))) := by
  have hcmd : s.core.copies.getD e {} = m := by rw [List.getD_eq_getElem?_getD, hm]; rfl
  have hloc : m.erefs.getD 0 (.pad 0) = .pad k := by rw [List.getD_eq_getElem?_getD, hsrc]; rfl
  have helems : (if (p.whole && kGrouped m.word) = true then s.grouped (.pad k) (·.1) p.elems else p.elems) = p.elems := ite_self _
  rw [fetchPiece, Op.bind_ok (Op.get_run s)]
  simp only [hcmd, hloc, helems]
  refine (Op.bind_ok (Op.forIn_collect_ok (fun x out => rfl) p.elems [])).trans ?_
  refine (Op.bind_ok (readPiece_run h p.size p.elems)).trans ?_
  refine (Op.bind_ok (Op.pure_run () s : missPiece m (.pad k) p.elems s = _)).trans ((Op.bind_ok (modCopy_run hm _)).trans ?_)
  refine (modCopy_run (State.copies_withCopy hm) _).trans ?_
  rw [State.withCopy_withCopy]
  rfl

end

/-! `GATHER` finds its row (R335). -/

/-- The index of a row, as it stands in a pad object. -/
def State.gatherRowNo (s : State) (m : Cmd) (ki i : Nat) : Int :=
  let v := ofBytes (s.readBody none (.pad ki) (4 * (kCi m.word + i)) 4)
  if (s.hdr (.pad ki)).fmt = 5 then signExt 32 v else (v : Int)

/-- A row lies in the source. -/
abbrev State.rowInside (s : State) (m : Cmd) (ks : Nat) (x : Int) : Prop :=
  0 ≤ x ∧ kLam m.word * (x.toNat + 1) ≤ engineLen (s.hdr (.pad ks))

/-- An effect that is to be done only at times, and changes nothing. -/
theorem Op.ite_bind_noop {α : Type} {c : Prop} [Decidable c] {x : Op Unit} {f : Unit → Op α} {s : State} (h : x s = .ok () s) :
    (if c then x >>= f else f ()) s = f () s := by
  split
  · exact Op.bind_ok h
  · rfl

section
variable {s : State} {m : Cmd} {e ks ki : Nat}

/-- The row of an index that lies in the source is answered, and of another none. -/
theorem gatherIndex_run (hks : m.erefs[0]? = some (.pad ks)) (hki : m.erefs[2]? = some (.pad ki)) (h : s.Readable m ki) (i : Nat) :
    gatherIndex m i s = .ok (if s.rowInside m ks (s.gatherRowNo m ki i) then some (s.gatherRowNo m ki i).toNat else none) s := by
  have hsrc : m.erefs.getD 0 (.pad 0) = .pad ks := by rw [List.getD_eq_getElem?_getD, hks]; rfl
  have hidx : m.erefs.getD 2 (.pad 0) = .pad ki := by rw [List.getD_eq_getElem?_getD, hki]; rfl
  have hrun : gatherIndex m i s = (if s.gatherRowNo m ki i < 0 then return none
      else if kLam m.word * ((s.gatherRowNo m ki i).toNat + 1) ≤ engineLen (s.hdr (.pad ks)) then
        return some (s.gatherRowNo m ki i).toNat else return none : Op (Option Nat)) s := by
    rw [gatherIndex, Op.bind_ok (Op.get_run s)]
    simp only [hsrc, hidx]
    refine (Op.bind_ok (Op.pure_run () s : engTranslate (.copy s.site) (.pad ki) (4 * (kCi m.word + i)) 4 false s = _)).trans ?_
    refine (Op.bind_ok (Op.get_run s)).trans ((congrFun (if_neg (Bool.eq_false_iff.1 (h.clean ..))) s).trans ?_)
    refine (Op.ite_bind_noop (Op.pure_run () s)).trans ?_
    refine (Op.bind_ok (awaitReds_of_none (State.redsOn_quiet h.quiet ..))).trans ?_
    exact Op.bind_ok (raceBytes_run h.since ..)
  rw [hrun]
  by_cases hneg : s.gatherRowNo m ki i < 0
  · rw [if_pos hneg, if_neg fun hin : s.rowInside m ks _ => absurd hneg (not_lt.2 hin.1)]
    rfl
  · rw [if_neg hneg]
    by_cases hfits : kLam m.word * ((s.gatherRowNo m ki i).toNat + 1) ≤ engineLen (s.hdr (.pad ks))
    · rw [if_pos hfits, if_pos (show s.rowInside m ks _ from ⟨not_lt.1 hneg, hfits⟩)]
      rfl
    · rw [if_neg hfits, if_neg fun hin : s.rowInside m ks _ => hfits hin.2]
      rfl

end

end Sys2Proof.Machine
end

section
/-! SUPPORT. What the pieces of a command are read from and written to, step by step (R325, R333 to R336). -/

namespace Sys2Proof.Machine

/-! `COPY` and `XPOSE` (R333, R334). -/

section
variable {op core e k : Nat} {fetch : Cmd → Op Unit} {m : Cmd} {s : State}

theorem State.Readable.of_hyps (hsince : s.olds.length ≤ m.since) (hclean : ∀ off len, s.readPoisoned none (.pad k) off len = false)
    (hquiet : ∀ r ∈ s.reds, r.v ≠ .pad k) : (s.onSite core).Readable m k := ⟨hsince, hclean, hquiet⟩

theorem copyWork_reads (hbuf : m.buf = []) : copyWork e fetch m = fetch m := if_pos hbuf

theorem copyStep_reads {p : Piece} (hm : (s.coreAt core).copies[e]? = some m) (hop : kOp m.word = op) (hbuf : m.buf = [])
    (hstop : m.stop = none) (hprog : m.prog < m.total) (hsrc : m.erefs[0]? = some (.pad k)) (h : (s.onSite core).Readable m k)
    (hfetch : fetch m = fetchPiece e p) : ∃ t, runEvent (copyStep op core e fetch) s = .next t ∧ t.mem = s.mem
      ∧ copyStepTo s t core e (m.fetched p (s.pieceBytes k p)) := by
  have hread : copyWork e fetch m (s.onSite core) = .ok () ((s.onSite core).withCopy e (m.fetched p (s.pieceBytes k p))) := by
    rw [copyWork_reads hbuf, hfetch]
    exact fetchPiece_run (s := s.onSite core) hm hsrc h p
  obtain ⟨t, ht, hmem, -, -, hstep⟩ := copyStep_changes hm hop (.inr ⟨hstop, hprog⟩) hread
  exact ⟨t, ht, hmem, hstep⟩

/-! `FILL` (R336). -/

/-- A `FILL` that has the next bytes of its pattern to write. -/
def Cmd.filling (m : Cmd) : Cmd :=
  let g := Nat.min 64 (kFillLen m.word - m.prog)
  { m with
    buf := (List.range (g / kE m.word)).map fun i =>
      (kFillAt m.word + m.prog + i * kE m.word, kE m.word, kFillVal m.word % 2 ^ (8 * kE m.word))
    prog := m.prog + g }

/-- What a `FILL` with nothing to write does. -/
def fillFetch (e : Nat) (m : Cmd) : Op Unit :=
  let k := m.word
  let g := Nat.min 64 (kFillLen k - m.prog)
  modCopy e fun m => { m with
    buf := (List.range (g / kE k)).map fun i => (kFillAt k + m.prog + i * kE k, kE k, kFillVal k % 2 ^ (8 * kE k))
    prog := m.prog + g }

theorem exec_fill_eq (core e : Nat) : exec (.fill core e) = runEvent (copyStep 0x14 core e (fillFetch e)) := rfl

theorem exec_fill_fills (hm : (s.coreAt core).copies[e]? = some m) (hop : kOp m.word = 0x14) (hbuf : m.buf = [])
    (hstop : m.stop = none) (hprog : m.prog < m.total) :
    ∃ t, exec (.fill core e) s = .next t ∧ t.mem = s.mem ∧ copyStepTo s t core e m.filling := by
  have hrun : copyWork e (fillFetch e) m (s.onSite core) = .ok () ((s.onSite core).withCopy e m.filling) := by
    rw [copyWork_reads hbuf]
    exact modCopy_run (s := s.onSite core) hm _
  obtain ⟨t, ht, hmem, -, -, hstep⟩ := copyStep_changes hm hop (.inr ⟨hstop, hprog⟩) hrun
  exact ⟨t, by rw [exec_fill_eq, ht], hmem, hstep⟩

end

/-! `GATHER` (R335). -/

/-- A `GATHER` whose row is known reads its next piece. -/
def gatherReads (e : Nat) (src : Loc) : Op Unit := do
  let m ← dueSome (← getCore).copies[e]?
  let row := gatherRow (kLam m.word)
  let x := (m.cur.map (·.2)).getD 0
  fetchPiece e (gatherPiece m.word (gatherSize ((← get).hdr src)) x m.prog
    (if m.order = [] then row else m.order.filterMap fun j => row[j]?))

/-- What a `GATHER` with nothing to write does. -/
def gatherFetch (e : Nat) (m : Cmd) : Op Unit := do
  let i := m.prog / kLam m.word
  let src := m.erefs.getD 0 (.pad 0)
  if (m.cur.filter fun c => decide (c.1 = i)).isNone then
    match ← gatherIndex m i with
    | none => raise .bounds 0
    | some x =>
      let s ← get
      modCopy e fun m => { m with cur := some (i, x), order := s.rowOrder m.word src x }
  let m ← dueSome (← getCore).copies[e]?
  let row := gatherRow (kLam m.word)
  let x := (m.cur.map (·.2)).getD 0
  fetchPiece e (gatherPiece m.word (gatherSize ((← get).hdr src)) x m.prog
    (if m.order = [] then row else m.order.filterMap fun j => row[j]?))

theorem exec_gather_eq (core e : Nat) : exec (.gather core e) = runEvent (copyStep 0x13 core e (gatherFetch e)) := rfl

/-- A command at a row of its source. -/
def Cmd.atRow (m : Cmd) (i row : Nat) (ord : List Nat) : Cmd := { m with cur := some (i, row), order := ord }

/-- The piece of a row that a `GATHER` reads next. -/
def State.rowPiece (s : State) (m : Cmd) (ks row : Nat) (ord : List Nat) : Piece :=
  let parts := gatherRow (kLam m.word)
  gatherPiece m.word (gatherSize (s.hdr (.pad ks))) row m.prog (if ord = [] then parts else ord.filterMap fun j => parts[j]?)

/-- A command that has read the next piece of a row. -/
def Cmd.rowRead (m : Cmd) (s : State) (ks row : Nat) (ord : List Nat) : Cmd :=
  (m.atRow (m.prog / kLam m.word) row ord).fetched (s.rowPiece m ks row ord) (s.pieceBytes ks (s.rowPiece m ks row ord))

/-- The order of the pieces of a row that begins: channel-grouped reads keep that of a pad (R339). -/
def Cmd.rowOrd (m : Cmd) : List Nat := if kGrouped m.word then List.range (gatherRow (kLam m.word)).length else []

section
variable {s : State} {m : Cmd} {e ks ki i row : Nat} {ord : List Nat}

theorem State.Readable.withCopy {k : Nat} (h : s.Readable m k) (e : Nat) (i row : Nat) (ord : List Nat) :
    (s.withCopy e (m.atRow i row ord)).Readable (m.atRow i row ord) k := ⟨h.since, h.clean, h.quiet⟩

theorem gatherReads_run (hm : s.core.copies[e]? = some (m.atRow (m.prog / kLam m.word) row ord))
    (hks : m.erefs[0]? = some (.pad ks)) (h : s.Readable (m.atRow (m.prog / kLam m.word) row ord) ks) :
    gatherReads e (.pad ks) s = .ok () (s.withCopy e (m.rowRead s ks row ord)) := by
  rw [gatherReads, Op.bind_ok (getCore_run s), Op.bind_ok (dueSome_some hm s), Op.bind_ok (Op.get_run s)]
  exact fetchPiece_run hm hks h _

theorem gatherFetch_known (h : m.cur = some (m.prog / kLam m.word, row)) : gatherFetch e m = gatherReads e (m.erefs.getD 0 (.pad 0)) := by
  have hknown : ¬ (m.cur.filter fun c => decide (c.1 = m.prog / kLam m.word)).isNone = true := by
    rw [h, Option.filter_some_pos (by simp)]
    exact Bool.false_ne_true
  exact if_neg hknown

variable (hnew : m.cur.filter (fun c => decide (c.1 = m.prog / kLam m.word)) = none)
  (hks : m.erefs[0]? = some (.pad ks)) (hki : m.erefs[2]? = some (.pad ki)) (h : s.Readable m ki)
include hnew hks hki h

theorem gatherFetch_outside (hout : ¬ s.rowInside m ks (s.gatherRowNo m ki (m.prog / kLam m.word))) :
    gatherFetch e m s = .error (.trap .bounds 0) s := by
  have hindex := gatherIndex_run hks hki h (m.prog / kLam m.word)
  rw [if_neg hout] at hindex
  refine (congrFun (if_pos (by rw [hnew]; rfl)) s).trans ?_
  exact (Op.bind_ok hindex).trans (Op.bind_error rfl)

theorem gatherFetch_inside (hm : s.core.copies[e]? = some m)
    (hin : s.rowInside m ks (s.gatherRowNo m ki (m.prog / kLam m.word))) : gatherFetch e m s
      = gatherReads e (.pad ks) (s.withCopy e (m.atRow (m.prog / kLam m.word) (s.gatherRowNo m ki (m.prog / kLam m.word)).toNat
        m.rowOrd)) := by
  have hsrc : m.erefs.getD 0 (.pad 0) = .pad ks := by rw [List.getD_eq_getElem?_getD, hks]; rfl
  have hindex := gatherIndex_run hks hki h (m.prog / kLam m.word)
  rw [if_pos hin] at hindex
  refine (congrFun (if_pos (by rw [hnew]; rfl)) s).trans ?_
  refine (Op.bind_ok hindex).trans ((Op.bind_ok (Op.get_run s)).trans ((Op.bind_ok (modCopy_run hm _)).trans ?_))
  rw [hsrc]
  rfl

end

section
variable {core e ks ki row : Nat} {m : Cmd} {s : State} (hm : (s.coreAt core).copies[e]? = some m) (hop : kOp m.word = 0x13)
  (hbuf : m.buf = []) (hstop : m.stop = none) (hprog : m.prog < m.total)
include hm hop hbuf hstop hprog

theorem exec_gather_reads {ord : List Nat}
    (hrun : gatherFetch e m (s.onSite core) = .ok () ((s.onSite core).withCopy e (m.rowRead s ks row ord))) :
    ∃ t, exec (.gather core e) s = .next t ∧ t.mem = s.mem ∧ copyStepTo s t core e (m.rowRead s ks row ord) := by
  have hwork : copyWork e (gatherFetch e) m (s.onSite core) = .ok () ((s.onSite core).withCopy e (m.rowRead s ks row ord)) := by
    rw [copyWork_reads hbuf, hrun]
  obtain ⟨t, ht, hmem, -, -, hstep⟩ := copyStep_changes hm hop (.inr ⟨hstop, hprog⟩) hwork
  exact ⟨t, by rw [exec_gather_eq, ht], hmem, hstep⟩

variable (hks : m.erefs[0]? = some (.pad ks)) (hread : (s.onSite core).Readable m ks)
include hks hread

theorem exec_gather_known (hcur : m.cur = some (m.prog / kLam m.word, row)) :
    ∃ t, exec (.gather core e) s = .next t ∧ t.mem = s.mem ∧ copyStepTo s t core e (m.rowRead s ks row m.order) := by
  have hsrc : m.erefs.getD 0 (.pad 0) = .pad ks := by rw [List.getD_eq_getElem?_getD, hks]; rfl
  have hsame : m.atRow (m.prog / kLam m.word) row m.order = m := by rw [Cmd.atRow, ← hcur]
  refine exec_gather_reads hm hop hbuf hstop hprog ?_
  rw [gatherFetch_known hcur, hsrc]
  exact gatherReads_run (s := s.onSite core) (by rw [hsame]; exact hm) hks (by rw [hsame]; exact hread)

section
variable (hki : m.erefs[2]? = some (.pad ki)) (hindex : (s.onSite core).Readable m ki)
  (hnew : m.cur.filter (fun c => decide (c.1 = m.prog / kLam m.word)) = none)
include hki hindex hnew

theorem exec_gather_fresh (hin : s.rowInside m ks (s.gatherRowNo m ki (m.prog / kLam m.word))) :
    ∃ t, exec (.gather core e) s = .next t ∧ t.mem = s.mem
      ∧ copyStepTo s t core e (m.rowRead s ks (s.gatherRowNo m ki (m.prog / kLam m.word)).toNat m.rowOrd) := by
  refine exec_gather_reads hm hop hbuf hstop hprog ?_
  rw [gatherFetch_inside hnew hks hki hindex hm hin]
  refine (gatherReads_run (m := m) (State.copies_withCopy (s := s.onSite core) hm) hks (hread.withCopy ..)).trans ?_
  rw [State.withCopy_withCopy]
  rfl

omit hread in
theorem exec_gather_stops (hout : ¬ s.rowInside m ks (s.gatherRowNo m ki (m.prog / kLam m.word))) :
    ∃ t, exec (.gather core e) s = .next t ∧ t.mem = s.mem ∧ copyStepTo s t core e { m with stop := some Cause.bounds.code } := by
  have hwork : copyWork e (gatherFetch e) m (s.onSite core) = .error (.trap .bounds 0) (s.onSite core) := by
    rw [copyWork_reads hbuf]
    exact gatherFetch_outside hnew hks hki hindex hout
  exact ⟨_, copyStep_stops hm hop (.inr ⟨hstop, hprog⟩) hwork, rfl, (s.stepOf_withCopy core e _).copyStepTo⟩

end

end

end Sys2Proof.Machine
end

section
/-! SUPPORT. Steps that write what has been read into a pad (R325, R333 to R336). -/

namespace Sys2Proof.Machine

/-! A write of a pad object leaves the cores. -/

theorem State.cores_putObj_pad (s : State) (k off : Nat) (bs : List Byte) :
    (s.putObj (.pad k) off bs).cores = s.cores ∧ (s.putObj (.pad k) off bs).site = s.site := by
  have hold : (s.noteOld (.pad k) off bs.length).cores = s.cores ∧ (s.noteOld (.pad k) off bs.length).site = s.site := by
    unfold State.noteOld
    split
    · exact ⟨rfl, rfl⟩
    · exact ⟨rfl, rfl⟩
  exact ⟨((WritesMemory.markUnits (k + 32 + off) bs.length).cores _).trans hold.1,
    ((WritesMemory.markUnits (k + 32 + off) bs.length).site _).trans hold.2⟩

theorem bytes_putObj_pad (s : State) (k off n v : Nat) :
    (s.putObj (.pad k) off (leBytes v n)).mem.bytes (k + 32 + off) n = leBytes v n := by
  have hself := s.mem.bytes_setBytes_self (k + 32 + off) (leBytes v n)
  rw [length_leBytes] at hself
  refine (Mem.bytes_congr fun i hi => ?_).trans hself
  have hbyte := s.mem.byte_setBytes_inside (a := k + 32 + off) (bs := leBytes v n) (i := i) (by rw [length_leBytes]; exact hi)
  rw [byte_putObj_pad, if_pos ⟨Nat.le_add_right .., Nat.add_lt_add_left hi _⟩, hbyte, getElem_leBytes, Nat.add_sub_cancel_left]

/-! Elements written one after another. -/

/-- Elements of a buffer are written to a pad object. -/
def State.putElems (s : State) (k : Nat) (l : List (Nat × Nat × Nat)) : State :=
  l.foldl (fun t x => t.putObj (.pad k) x.1 (leBytes x.2.2 x.2.1)) s

section
variable {s : State} {k a : Nat}

theorem State.cores_putElems (s : State) (k : Nat) (l : List (Nat × Nat × Nat)) :
    (s.putElems k l).cores = s.cores ∧ (s.putElems k l).site = s.site := by
  induction l generalizing s with
  | nil => exact ⟨rfl, rfl⟩
  | cons x l ih =>
    obtain ⟨hcores, hsite⟩ := s.cores_putObj_pad k x.1 (leBytes x.2.2 x.2.1)
    obtain ⟨ihcores, ihsite⟩ := ih (s.putObj (.pad k) x.1 (leBytes x.2.2 x.2.1))
    exact ⟨ihcores.trans hcores, ihsite.trans hsite⟩

/-- A byte beside the elements is as it was. -/
theorem State.byte_putElems {l : List (Nat × Nat × Nat)} (h : ∀ y ∈ l, a < k + 32 + y.1 ∨ k + 32 + y.1 + y.2.1 ≤ a) :
    (s.putElems k l).mem.byte a = s.mem.byte a := by
  induction l generalizing s with
  | nil => rfl
  | cons x l ih =>
    have hx := h x (List.mem_cons_self ..)
    refine (ih fun y hy => h y (List.mem_cons_of_mem _ hy)).trans ?_
    rw [byte_putObj_pad, if_neg (by omega)]

/-- Where no two elements overlap, each stands at its place. -/
theorem State.bytes_putElems {l : List (Nat × Nat × Nat)} {y : Nat × Nat × Nat}
    (h : l.Pairwise fun y z => y.1 + y.2.1 ≤ z.1 ∨ z.1 + z.2.1 ≤ y.1) (hy : y ∈ l) :
    (s.putElems k l).mem.bytes (k + 32 + y.1) y.2.1 = leBytes y.2.2 y.2.1 := by
  induction l generalizing s with
  | nil => cases hy
  | cons x l ih =>
    obtain ⟨hx, hl⟩ := List.pairwise_cons.1 h
    rcases List.mem_cons.1 hy with rfl | hy
    · refine (Mem.bytes_congr fun i hi => State.byte_putElems (l := l) fun z hz => ?_).trans
        (bytes_putObj_pad s k y.1 y.2.1 y.2.2)
      have hapart := hx z hz
      omega
    · exact ih hl hy

end

/-! The front of the buffer. -/

/-- How many elements a step writes: one, or as many as 64 bytes hold. -/
def Cmd.granule (m : Cmd) : Nat := match m.buf with | x :: _ => Nat.max 1 (64 / x.2.1) | [] => 0

theorem Cmd.granule_cons {m : Cmd} {x : Nat × Nat × Nat} {rest : List (Nat × Nat × Nat)} (h : m.buf = x :: rest) :
    m.granule = Nat.max 1 (64 / x.2.1) := by rw [Cmd.granule, h]

/-- The elements that a step writes. -/
def Cmd.front (m : Cmd) : List (Nat × Nat × Nat) := m.buf.take m.granule

/-- The bytes of some elements. -/
def elemBytes (l : List (Nat × Nat × Nat)) : Nat := (l.map fun x => x.2.1).sum

/-- A command that has written the front of its buffer. -/
def Cmd.drained (m : Cmd) (ds : List (Word × Loc × Nat × Nat)) : Cmd :=
  { m with buf := m.buf.drop m.granule, bytes := m.bytes + elemBytes m.front, dests := m.dests ++ ds }

/-- The state in which the front of a buffer has been written. -/
def State.drained (s : State) (k e : Nat) (m : Cmd) (ds : List (Word × Loc × Nat × Nat)) : State :=
  let t := s.putElems k m.front
  (t.setCore t.site { t.core with cpbytes := t.core.cpbytes + elemBytes m.front }).withCopy e (m.drained ds)

section
variable {s : State} {m : Cmd} {e k : Nat}

theorem drainBuf_run (hm : s.core.copies[e]? = some m) (hdst : m.dst = .pad k) (hquiet : ∀ r ∈ s.reds, r.v ≠ .pad k) :
    ∃ ds, drainBuf e s = .ok () (s.drained k e m ds) := by
  have hcmd : s.core.copies.getD e {} = m := by rw [List.getD_eq_getElem?_getD, hm]; rfl
  have hcores := s.cores_putElems k m.front
  have hcore : (s.putElems k m.front).core = s.core := by
    rw [State.core, State.coreAt, hcores.1, hcores.2]
    rfl
  have hfree : tryRun (do for x in m.front do { engTranslate (.copy s.site) (.pad k) x.1 x.2.1 true; awaitReds (.pad k) x.1 x.2.1 }) s
      = .ok .done s := tryRun_ok (Op.loop_done ⟨_, Op.forIn_idle m.front fun x _ =>
        (Op.bind_ok (Op.pure_run () s)).trans (Op.bind_ok (awaitReds_of_none (State.redsOn_quiet hquiet ..)))⟩)
  refine ⟨m.front.map fun x => (s.canonAt (.pad k), .pad k, x.1, x.2.1), ?_⟩
  rw [drainBuf, Op.bind_ok (Op.get_run s)]
  simp only [hcmd, hdst]
  refine (Op.bind_ok hfree).trans ((Op.bind_ok (Op.get_run s)).trans ((Op.bind_ok (Op.modify_run ..)).trans ?_))
  refine (Op.bind_ok (modCore_run ..)).trans (modCopy_run ?_ _)
  refine (congrArg (fun c : Core => c.copies[e]?) (State.core_setCore (s.putElems k m.front) _)).trans ?_
  exact (congrArg (fun c : Core => c.copies[e]?) hcore).trans hm

/-- What the state of a drained buffer has. -/
theorem State.drained_has (s : State) (k e : Nat) (m : Cmd) (ds : List (Word × Loc × Nat × Nat)) :
    (s.drained k e m ds).site = s.site ∧ (s.drained k e m ds).mem = (s.putElems k m.front).mem
      ∧ (s.drained k e m ds).core = { s.core with
        cpbytes := s.core.cpbytes + elemBytes m.front, copies := s.core.copies.set e (m.drained ds) } := by
  obtain ⟨hcores, hsite⟩ := s.cores_putElems k m.front
  have hcore : (s.putElems k m.front).core = s.core := by
    rw [State.core, State.coreAt, hcores, hsite]
    rfl
  refine ⟨hsite, rfl, ?_⟩
  rw [State.drained, State.core_withCopy, State.core_setCore, hcore]

end

/-- A step of a command that has something to write. -/
theorem copyStep_writes {op core e k : Nat} {fetch : Cmd → Op Unit} {m : Cmd} {s : State}
    (hm : (s.coreAt core).copies[e]? = some m) (hop : kOp m.word = op) (hbuf : m.buf ≠ []) (hdst : m.dst = .pad k)
    (hquiet : ∀ r ∈ s.reds, r.v ≠ .pad k) : ∃ t ds, runEvent (copyStep op core e fetch) s = .next t
      ∧ copyStepTo s t core e (m.drained ds) ∧ (t.coreAt core).cpbytes = (s.coreAt core).cpbytes + elemBytes m.front
      ∧ t.mem = ((s.onSite core).putElems k m.front).mem := by
  obtain ⟨ds, hrun⟩ := drainBuf_run (s := s.onSite core) hm hdst hquiet
  obtain ⟨hsite, hmem, hcore⟩ := (s.onSite core).drained_has k e m ds
  have hwork : copyWork e fetch m (s.onSite core) = .ok () ((s.onSite core).drained k e m ds) :=
    (congrFun (if_neg hbuf) _).trans hrun
  have hat : (((s.onSite core).drained k e m ds).onSite s.site).coreAt core = ((s.onSite core).drained k e m ds).core := by
    rw [State.core, hsite]
    rfl
  refine ⟨_, ds, copyStep_done hm hop (.inl hbuf) hwork, State.stepOf.copyStepTo ⟨hsite, ?_, ?_⟩, ?_, hmem⟩
  · rw [hcore]; rfl
  · rw [hcore]; rfl
  · rw [hat, hcore]; rfl

/-- Beside the elements that the step writes memory is as it was, and each of them stands at its place unless they overlap. -/
theorem copyStep_drains {op core e k c : Nat} {fetch : Cmd → Op Unit} {m : Cmd} {s : State}
    (hm : (s.coreAt core).copies[e]? = some m) (hop : kOp m.word = op) (hbuf : m.buf ≠ []) (hdst : m.dst = .pad k)
    (hquiet : ∀ r ∈ s.reds, r.v ≠ .pad k) (hc : m.granule = c) : ∃ t ds, runEvent (copyStep op core e fetch) s = .next t
      ∧ copyStepTo s t core e { m with
        buf := m.buf.drop c, bytes := m.bytes + elemBytes (m.buf.take c), dests := m.dests ++ ds }
      ∧ (t.coreAt core).cpbytes = (s.coreAt core).cpbytes + elemBytes (m.buf.take c)
      ∧ (∀ a, (∀ y ∈ m.buf.take c, a < k + 32 + y.1 ∨ k + 32 + y.1 + y.2.1 ≤ a) → t.mem.byte a = s.mem.byte a)
      ∧ ((m.buf.take c).Pairwise (fun y z => y.1 + y.2.1 ≤ z.1 ∨ z.1 + z.2.1 ≤ y.1) →
        ∀ y ∈ m.buf.take c, ofBytes (t.mem.bytes (k + 32 + y.1) y.2.1) = y.2.2 % 256 ^ y.2.1) := by
  subst hc
  obtain ⟨t, ds, ht, hstep, hbytes, hmem⟩ := copyStep_writes (fetch := fetch) hm hop hbuf hdst hquiet
  refine ⟨t, ds, ht, hstep, hbytes, fun a hbeside => ?_, fun hapart y hy => ?_⟩
  · rw [hmem]
    exact State.byte_putElems hbeside
  · rw [hmem, State.bytes_putElems (l := m.front) hapart hy, ofBytes_leBytes]

end Sys2Proof.Machine
end

section
/-! SUPPORT. Pages that a command brings into the tier pool, takes out or moves (R176, R337, R338). -/

namespace Sys2Proof.Machine

/-- The tier pool has become `l`. -/
def State.withTier (s : State) (l : List TierPage) : State := { s with tier := l }

/-- A command that has gone on by a page. -/
def Cmd.pageOn (m : Cmd) : Cmd := { m with prog := m.prog + 1, bytes := m.bytes + 4096 }

/-- The page of an object of the heap that a command is at. -/
def Cmd.pageAt (m : Cmd) (va : Nat) : Nat := (va + 32 + kPageAt m.word) / 4096 + m.prog

/-- A step after which the core is as it was but for the entry and the pages counted. -/
theorem State.stepOf_core {s t : State} {core e n : Nat} {m : Cmd} (hsite : t.site = core)
    (hcore : t.core = { s.coreAt core with cppages := n, copies := (s.coreAt core).copies.set e m }) :
    copyStepTo s (t.onSite s.site) core e m ∧ ((t.onSite s.site).coreAt core).cppages = n := by
  have hat : (t.onSite s.site).coreAt core = t.core := by rw [State.core, hsite]; rfl
  refine ⟨State.stepOf.copyStepTo ⟨hsite, ?_, ?_⟩, ?_⟩
  · rw [hcore]
  · rw [hcore]
  · rw [hat, hcore]

section
variable {s u : State} {m : Cmd} {e asid va page grp : Nat}

theorem Cmd.pageNo_heap (h : m.erefs[0]? = some (.heap asid va)) : m.pageNo m.prog = (asid, m.pageAt va) := by
  rw [Cmd.pageNo, List.getD_eq_getElem?_getD, h]
  rfl

theorem pageDone_run (hm : s.core.copies[e]? = some m) : pageDone e s = .ok () (s.withCopy e m.pageOn) := modCopy_run hm _

/-! What comes into the tier pool (R176). -/

/-- A page that comes in takes a free frame, or that of a page that no access in flight reads. -/
theorem State.pageIn_some (h : s.pageIn asid page grp = some u) : ∃ old f x, find (pageKey asid page) s.ptes = some x
    ∧ u = s.withTier (old ++ [{ asid := asid, page := page, frame := x.frame, hbm := f }])
    ∧ (s.poolFree ≠ [] ∧ old = s.tier ∧ (s.poolFree.find? (inGroup grp)).or s.poolFree.head? = some f
      ∨ s.poolFree = [] ∧ ∃ y, s.inFlight y.asid y.page = false ∧ old = s.tier.erase y) := by
  unfold State.pageIn at h
  by_cases hfree : s.poolFree = []
  · rw [if_neg (not_not.2 hfree)] at h
    cases hy : s.tier.find? fun t => !s.inFlight t.asid t.page with
    | none => simp [hy] at h
    | some y =>
      cases hx : find (pageKey asid page) s.ptes with
      | none => simp [hy, hx] at h
      | some x =>
        have hquiet := List.find?_some hy
        simp only [hy, hx, Option.map_some, Option.map_eq_some_iff] at h
        obtain ⟨f, -, rfl⟩ := h
        exact ⟨_, f, x, rfl, rfl, .inr ⟨hfree, y, by simpa using hquiet, rfl⟩⟩
  · rw [if_pos hfree] at h
    cases hx : find (pageKey asid page) s.ptes with
    | none => simp [hx] at h
    | some x =>
      simp only [hx, Option.map_eq_some_iff] at h
      obtain ⟨f, hf, rfl⟩ := h
      exact ⟨_, f, x, rfl, rfl, .inl ⟨hfree, rfl, hf⟩⟩

theorem State.pageIn_frame (h : s.pageIn asid page grp = some u) : ∃ x ∈ u.tier, x.asid = asid ∧ x.page = page
    ∧ ((∃ f ∈ s.poolFree, inGroup grp f = true) → inGroup grp x.hbm = true ∧ x.hbm ∈ s.poolFree) := by
  obtain ⟨old, f, x, -, rfl, hroom⟩ := State.pageIn_some h
  refine ⟨_, List.mem_append_right _ (List.mem_singleton_self _), rfl, rfl, fun ⟨g, hg, hgrp⟩ => ?_⟩
  rcases hroom with ⟨-, -, hf⟩ | ⟨hnone, -⟩
  · obtain ⟨g', hg'⟩ := Option.isSome_iff_exists.1 (List.find?_isSome.2 ⟨g, hg, hgrp⟩)
    rw [hg', Option.some_or, Option.some.injEq] at hf
    exact hf ▸ ⟨List.find?_some hg', List.mem_of_find?_eq_some hg'⟩
  · rw [hnone] at hg
    cases hg

theorem State.pageIn_drops (h : s.pageIn asid page grp = some u) {x : TierPage} (hx : x ∈ s.tier) (hgone : x ∉ u.tier) :
    s.poolFree = [] ∧ s.inFlight x.asid x.page = false := by
  obtain ⟨old, f, y, -, rfl, hroom⟩ := State.pageIn_some h
  have hold : x ∉ old := fun hmem => hgone (List.mem_append_left _ hmem)
  rcases hroom with ⟨-, rfl, -⟩ | ⟨hnone, z, hquiet, rfl⟩
  · exact absurd hx hold
  · have hxz : x = z := by
      by_contra hne
      exact hold ((List.mem_erase_of_ne hne).2 hx)
    exact ⟨hnone, hxz ▸ hquiet⟩

theorem State.pageIn_resident (h : s.pageIn asid page grp = some u) {t : State} (htier : t.tier = u.tier) (hptes : t.ptes = s.ptes) :
    t.hbmResident asid page = true := by
  obtain ⟨old, f, x, hx, rfl, -⟩ := State.pageIn_some h
  have hin : (t.inTier asid page).isSome = true := by
    rw [State.inTier, htier, hptes, hx]
    exact List.find?_isSome.2 ⟨_, List.mem_append_right _ (List.mem_singleton_self _), by simp⟩
  rw [State.hbmResident, hin, Bool.or_true]

end

/-! `PAGEIN` (R337). -/

/-- What a `PAGEIN` does at a page of its object. -/
def pageinAt (e asid page : Nat) (m : Cmd) : Op Unit := do
  let s ← get
  if s.feature 2 && !s.hbmResident asid page then
    let _ ← translateFor (.copy s.site) asid (page * 4096) false 0
    if 0 < Config.tierFrames then
      match (← get).pageIn asid page (kGroup m.word) with
      | some t =>
        set t
        modCore fun c => { c with cppages := c.cppages + 1 }
      | none => waitHere
  pageDone e

theorem exec_pagein_eq (core e : Nat) : exec (.pagein core e)
    = runEvent (copyStep 0x15 core e fun m => pageinAt e (m.pageNo m.prog).1 (m.pageNo m.prog).2 m) := rfl

section
variable {s : State} {m : Cmd} {e asid page frame : Nat} (hm : s.core.copies[e]? = some m)
  (ht : (s.feature 2 && !s.hbmResident asid page) = true → translateFor (.copy s.site) asid (page * 4096) false 0 s = .ok frame s)
include hm

/-- The state in which a page has been brought in. -/
def State.broughtIn (u : State) (e : Nat) (m : Cmd) : State :=
  (u.setCore u.site { u.core with cppages := u.core.cppages + 1 }).withCopy e m.pageOn

omit hm in
theorem State.core_broughtIn (u : State) (e : Nat) (m : Cmd) : (u.broughtIn e m).core
    = { u.core with cppages := u.core.cppages + 1, copies := u.core.copies.set e m.pageOn } := by
  rw [State.broughtIn, State.core_withCopy, State.core_setCore]

include ht

theorem pageinAt_stays (h : (s.feature 2 && !s.hbmResident asid page && decide (0 < Config.tierFrames)) = false) :
    pageinAt e asid page m s = .ok () (s.withCopy e m.pageOn) := by
  refine (Op.bind_ok (Op.get_run s)).trans ?_
  by_cases hgo : (s.feature 2 && !s.hbmResident asid page) = true
  · have hpool : ¬ 0 < Config.tierFrames := by
      rw [hgo, Bool.true_and] at h
      exact of_decide_eq_false h
    refine (congrFun (if_pos hgo) s).trans ((Op.bind_ok (ht hgo)).trans ((congrFun (if_neg hpool) s).trans ?_))
    exact pageDone_run hm
  · exact (congrFun (if_neg hgo) s).trans (pageDone_run hm)

variable (h : (s.feature 2 && !s.hbmResident asid page && decide (0 < Config.tierFrames)) = true)
include h

omit hm in
theorem pageinAt_waits (hfull : s.pageIn asid page (kGroup m.word) = none) :
    pageinAt e asid page m s = .error .wait s := by
  obtain ⟨hgo, hpool⟩ := Bool.and_eq_true_iff.1 h
  refine (Op.bind_ok (Op.get_run s)).trans ((congrFun (if_pos hgo) s).trans ((Op.bind_ok (ht hgo)).trans ?_))
  refine (congrFun (if_pos (of_decide_eq_true hpool)) s).trans ((Op.bind_ok (Op.get_run s)).trans ?_)
  rw [hfull]
  rfl

theorem pageinAt_brings {u : State} (hu : s.pageIn asid page (kGroup m.word) = some u) :
    pageinAt e asid page m s = .ok () (u.broughtIn e m) := by
  obtain ⟨hgo, hpool⟩ := Bool.and_eq_true_iff.1 h
  obtain ⟨old, f, x, -, rfl, -⟩ := State.pageIn_some hu
  refine (Op.bind_ok (Op.get_run s)).trans ((congrFun (if_pos hgo) s).trans ((Op.bind_ok (ht hgo)).trans ?_))
  refine (congrFun (if_pos (of_decide_eq_true hpool)) s).trans ((Op.bind_ok (Op.get_run s)).trans ?_)
  rw [hu]
  refine (Op.bind_ok (Op.set_run ..)).trans ((Op.bind_ok (modCore_run ..)).trans (pageDone_run ?_))
  rw [State.core_setCore]
  exact hm

end

section
variable {core e asid va : Nat} {m : Cmd} {s : State} (hm : (s.coreAt core).copies[e]? = some m) (hop : kOp m.word = 0x15)
  (hbuf : m.buf = []) (hstop : m.stop = none) (hprog : m.prog < m.total) (hsrc : m.erefs[0]? = some (.heap asid va)) {frame : Nat}
  (ht : ((s.onSite core).feature 2 && !s.hbmResident asid (m.pageAt va)) = true →
    translateFor (.copy core) asid (m.pageAt va * 4096) false 0 (s.onSite core) = .ok frame (s.onSite core))
include hm hop hbuf hstop hprog hsrc ht

omit hm hop hstop hprog ht in
theorem pagein_work : copyWork e (fun m => pageinAt e (m.pageNo m.prog).1 (m.pageNo m.prog).2 m) m
    = pageinAt e asid (m.pageAt va) m := by
  rw [copyWork_reads hbuf, Cmd.pageNo_heap hsrc]

theorem exec_pagein_stays
    (h : ((s.onSite core).feature 2 && !s.hbmResident asid (m.pageAt va) && decide (0 < Config.tierFrames)) = false) :
    ∃ t, (exec (.pagein core e) s = .next t ∧ t.mem = s.mem ∧ copyStepTo s t core e m.pageOn) ∧ t.tier = s.tier
      ∧ (t.coreAt core).cppages = (s.coreAt core).cppages := by
  have hrun := (congrFun (pagein_work hbuf hsrc) _).trans (pageinAt_stays (s := s.onSite core) hm ht h)
  obtain ⟨t, hexec, hmem, htier, hpages, hstep⟩ := copyStep_changes hm hop (.inr ⟨hstop, hprog⟩) hrun
  exact ⟨t, ⟨by rw [exec_pagein_eq, hexec], hmem, hstep⟩, htier, hpages⟩

variable (h : ((s.onSite core).feature 2 && !s.hbmResident asid (m.pageAt va) && decide (0 < Config.tierFrames)) = true)
include h

theorem exec_pagein_waits (hfull : (s.onSite core).pageIn asid (m.pageAt va) (kGroup m.word) = none) :
    exec (.pagein core e) s = .next s := by
  rw [exec_pagein_eq]
  exact copyStep_waits hm hop (.inr ⟨hstop, hprog⟩) ((congrFun (pagein_work hbuf hsrc) _).trans
    (pageinAt_waits (s := s.onSite core) ht h hfull))

theorem exec_pagein_brings {u : State} (hu : (s.onSite core).pageIn asid (m.pageAt va) (kGroup m.word) = some u) :
    ∃ t, (exec (.pagein core e) s = .next t ∧ t.mem = s.mem ∧ copyStepTo s t core e m.pageOn) ∧ t.tier = u.tier
      ∧ t.hbmResident asid (m.pageAt va) = true ∧ (t.coreAt core).cppages = (s.coreAt core).cppages + 1 := by
  have hrun := (congrFun (pagein_work hbuf hsrc) _).trans (pageinAt_brings (s := s.onSite core) hm ht h hu)
  obtain ⟨old, f, x, -, rfl, -⟩ := State.pageIn_some hu
  obtain ⟨hstep, hpages⟩ := State.stepOf_core (s := s) (core := core)
    (t := ((s.onSite core).withTier _).broughtIn e m) rfl (State.core_broughtIn ..)
  exact ⟨_, ⟨(congrFun (exec_pagein_eq core e) s).trans (copyStep_done hm hop (.inr ⟨hstop, hprog⟩) hrun), rfl, hstep⟩, rfl,
    State.pageIn_resident hu rfl rfl, hpages⟩

end

/-! `MIGR` (R338). -/

/-- What a `MIGR` does at a page of its object. -/
def migrAt (e asid page : Nat) (m : Cmd) : Op Unit := do
  let s ← get
  match (if s.feature 2 then s.inTier asid page else none) with
  | none => pure ()
  | some t =>
    if m.word.getLsbD 13 then
      if s.inFlight asid page then waitHere
      modify fun s => { s with tier := s.tier.erase t }
    else if !inGroup (kGroup m.word) t.hbm then
      match s.poolFree.find? (inGroup (kGroup m.word)) with
      | none => pure ()
      | some f =>
        if s.inFlight asid page then waitHere
        modify fun s => { s with tier := s.tier.map fun x => if x = t then { x with hbm := f } else x }
  pageDone e

theorem exec_migr_eq (core e : Nat) : exec (.migr core e)
    = runEvent (copyStep 0x16 core e fun m => migrAt e (m.pageNo m.prog).1 (m.pageNo m.prog).2 m) := rfl

/-- The state in which a page of the tier pool has been taken out or moved. -/
def State.migrated (s : State) (l : List TierPage) (e : Nat) (m : Cmd) : State := (s.withTier l).withCopy e m.pageOn

section
variable {s : State} {m : Cmd} {e asid page : Nat} {x : TierPage} (hm : s.core.copies[e]? = some m)

include hm in
theorem migrAt_stays (h : s.feature 2 = false ∨ s.inTier asid page = none) :
    migrAt e asid page m s = .ok () (s.withCopy e m.pageOn) := by
  have hnone : (if s.feature 2 then s.inTier asid page else none) = none := by
    rcases h with h | h
    · rw [h]; rfl
    · rw [h, ite_self]
  rw [migrAt, Op.bind_ok (Op.get_run s), hnone]
  exact pageDone_run hm

variable (hon : s.feature 2 = true) (hx : s.inTier asid page = some x)
include hon hx

theorem migrAt_some : migrAt e asid page m s = (do
    if m.word.getLsbD 13 then
      if s.inFlight asid page then waitHere
      modify fun s => { s with tier := s.tier.erase x }
    else if !inGroup (kGroup m.word) x.hbm then
      match s.poolFree.find? (inGroup (kGroup m.word)) with
      | none => pure ()
      | some f =>
        if s.inFlight asid page then waitHere
        modify fun s => { s with tier := s.tier.map fun y => if y = x then { y with hbm := f } else y }
    pageDone e : Op Unit) s := by
  rw [migrAt, Op.bind_ok (Op.get_run s), if_pos hon, hx]

theorem migrAt_out (hout : m.word.getLsbD 13 = true) : (s.inFlight asid page = true → migrAt e asid page m s = .error .wait s)
    ∧ (s.inFlight asid page = false → s.core.copies[e]? = some m →
      migrAt e asid page m s = .ok () (s.migrated (s.tier.erase x) e m)) := by
  have hrun := (migrAt_some (e := e) (m := m) hon hx).trans (congrFun (if_pos hout) s)
  refine ⟨fun hbusy => hrun.trans ((congrFun (if_pos hbusy) s).trans rfl), fun hfree hm => ?_⟩
  refine hrun.trans ((congrFun (if_neg (Bool.eq_false_iff.1 hfree)) s).trans ((Op.bind_ok (Op.modify_run ..)).trans ?_))
  exact pageDone_run (s := s.withTier (s.tier.erase x)) hm

section
variable (hin : m.word.getLsbD 13 = false)
include hin

theorem migrAt_kept (hm : s.core.copies[e]? = some m)
    (h : inGroup (kGroup m.word) x.hbm = true ∨ s.poolFree.find? (inGroup (kGroup m.word)) = none) :
    migrAt e asid page m s = .ok () (s.withCopy e m.pageOn) := by
  have hrun := (migrAt_some (e := e) (m := m) hon hx).trans (congrFun (if_neg (Bool.eq_false_iff.1 hin)) s)
  by_cases hgrp : inGroup (kGroup m.word) x.hbm = true
  · have hstay : ¬ (!inGroup (kGroup m.word) x.hbm) = true := by rw [hgrp]; exact Bool.false_ne_true
    exact hrun.trans ((congrFun (if_neg hstay) s).trans (pageDone_run hm))
  · have hgo : (!inGroup (kGroup m.word) x.hbm) = true := by rw [Bool.eq_false_iff.2 hgrp]; rfl
    refine hrun.trans ((congrFun (if_pos hgo) s).trans ?_)
    rw [h.resolve_left hgrp]
    exact pageDone_run hm

theorem migrAt_moves {f : Nat} (hgrp : inGroup (kGroup m.word) x.hbm = false)
    (hf : s.poolFree.find? (inGroup (kGroup m.word)) = some f) :
    (s.inFlight asid page = true → migrAt e asid page m s = .error .wait s)
    ∧ (s.inFlight asid page = false → s.core.copies[e]? = some m → migrAt e asid page m s
      = .ok () (s.migrated (s.tier.map fun y => if y = x then { y with hbm := f } else y) e m)) := by
  have hgo : (!inGroup (kGroup m.word) x.hbm) = true := by rw [hgrp]; rfl
  have hrun := ((migrAt_some (e := e) (m := m) hon hx).trans (congrFun (if_neg (Bool.eq_false_iff.1 hin)) s)).trans
    (congrFun (if_pos hgo) s)
  rw [hf] at hrun
  refine ⟨fun hbusy => hrun.trans ((congrFun (if_pos hbusy) s).trans rfl), fun hfree hm => ?_⟩
  refine hrun.trans ((congrFun (if_neg (Bool.eq_false_iff.1 hfree)) s).trans ((Op.bind_ok (Op.modify_run ..)).trans ?_))
  exact pageDone_run (s := s.withTier (s.tier.map fun y => if y = x then { y with hbm := f } else y)) hm

end

end

section
variable {core e asid va : Nat} {m : Cmd} {s : State} {l : List TierPage} (hm : (s.coreAt core).copies[e]? = some m)
  (hop : kOp m.word = 0x16) (hbuf : m.buf = []) (hstop : m.stop = none) (hprog : m.prog < m.total)
  (hsrc : m.erefs[0]? = some (.heap asid va))
include hm hop hbuf hstop hprog hsrc

omit hm hop hstop hprog in
theorem migr_work : copyWork e (fun m => migrAt e (m.pageNo m.prog).1 (m.pageNo m.prog).2 m) m = migrAt e asid (m.pageAt va) m := by
  rw [copyWork_reads hbuf, Cmd.pageNo_heap hsrc]

theorem exec_migr_waits (h : migrAt e asid (m.pageAt va) m (s.onSite core) = .error .wait (s.onSite core)) :
    exec (.migr core e) s = .next s := by
  rw [exec_migr_eq]
  exact copyStep_waits hm hop (.inr ⟨hstop, hprog⟩) ((congrFun (migr_work hbuf hsrc) _).trans h)

theorem exec_migr_done (h : migrAt e asid (m.pageAt va) m (s.onSite core) = .ok () ((s.onSite core).migrated l e m)) :
    ∃ t, exec (.migr core e) s = .next t ∧ t.mem = s.mem ∧ copyStepTo s t core e m.pageOn ∧ t.tier = l := by
  obtain ⟨hstep, -⟩ := State.stepOf_core (s := s) (core := core) (t := (s.onSite core).migrated l e m) rfl (State.core_withCopy ..)
  exact ⟨_, (congrFun (exec_migr_eq core e) s).trans (copyStep_done hm hop (.inr ⟨hstop, hprog⟩)
    ((congrFun (migr_work hbuf hsrc) _).trans h)), rfl, hstep, rfl⟩

theorem exec_migr_stays (h : migrAt e asid (m.pageAt va) m (s.onSite core) = .ok () ((s.onSite core).withCopy e m.pageOn)) :
    ∃ t, exec (.migr core e) s = .next t ∧ t.mem = s.mem ∧ copyStepTo s t core e m.pageOn ∧ t.tier = s.tier :=
  exec_migr_done (l := s.tier) hm hop hbuf hstop hprog hsrc h

end

end Sys2Proof.Machine
end

section
/-! SUPPORT. The end of a command of the copy engine (R340). -/

namespace Sys2Proof.Machine

/-- The state in which a command that has ended gives back what it counts. -/
def State.copyEnded (s1 : State) (m : Cmd) : State :=
  let s2 := m.erefs.foldl State.erefDown s1
  match m.barrier with
  | some v => (if m.stop.isNone then s2.barCredit v m.bytes else s2).barPendingDown v
  | none => s2

/-- The core from whose engine a command has gone. -/
def Core.copyGone (c : Core) (m : Cmd) (e cycle : Nat) : Core :=
  if m.stop.isNone then
    { c with copies := c.copies.eraseIdx e, cpdone := c.cpdone ++ [{ ctx := m.ctx, batch := 0, dests := m.dests }] }
  else { c with copies := c.copies.eraseIdx e, faults := c.faults ++ [
    { ctx := m.ctx, record := m.record (m.stop.getD 0), at_ := cycle, kind := 2, id := 0, num := m.num }] }

section
variable {core e : Nat} {m : Cmd} {s s1 : State} (hm : (s.coreAt core).copies[e]? = some m)
include hm

theorem exec_copyCommandComplete_ends (hbuf : m.buf = []) (hend : m.stop.isSome = true ∨ m.total ≤ m.prog)
    (hrec : (if kRec m.word then s.postRecord core m.ctx (m.record (m.stop.getD 0)) m.dests else some s) = some s1) :
    exec (.copyCommandComplete core e) s = .next (((s1.copyEnded m).setCore core
      (((s1.copyEnded m).coreAt core).copyGone m e s.cycle.toNat)).dropOlds) := by
  have hdue : (decide (m.buf = []) && (m.stop.isSome || decide (m.total ≤ m.prog))) = true := by
    rcases hend with hstop | hprog
    · simp [hbuf, hstop]
    · simp [hbuf, hprog]
  have hposted : (if kRec m.word then dueSome (s.postRecord core m.ctx (m.record (m.stop.getD 0)) m.dests) else pure s : Op State) s
      = .ok s1 s := by
    cases hk : kRec m.word with
    | true =>
      rw [hk, if_pos rfl] at hrec
      exact dueSome_some hrec s
    | false =>
      rw [hk, if_neg Bool.false_ne_true, Option.some.injEq] at hrec
      rw [hrec]
      rfl
  refine runEvent_ok ((Op.bind_ok (Op.get_run s)).trans ((Op.bind_ok (dueSome_some hm s)).trans ((Op.bind_ok (due_true hdue s)).trans
    ((Op.bind_ok (Op.get_run s)).trans ((Op.bind_ok hposted).trans ?_)))))
  exact (Op.bind_ok (Op.set_run ..)).trans rfl

/-- One with something left to do, or whose record finds no room, stays. -/
theorem exec_copyCommandComplete_stays (h : m.buf ≠ [] ∨ (m.stop = none ∧ m.prog < m.total) ∨ (kRec m.word = true
    ∧ s.postRecord core m.ctx (m.record (m.stop.getD 0)) m.dests = none)) : exec (.copyCommandComplete core e) s = .next s := by
  have hbody : copyCompleteBody core e s = .error .stutter s := by
    refine (Op.bind_ok (Op.get_run s)).trans ((Op.bind_ok (dueSome_some hm s)).trans ?_)
    by_cases hdue : (decide (m.buf = []) && (m.stop.isSome || decide (m.total ≤ m.prog))) = true
    · obtain ⟨hk, hfull⟩ : kRec m.word = true ∧ s.postRecord core m.ctx (m.record (m.stop.getD 0)) m.dests = none := by
        rcases h with hbuf | ⟨hstop, hprog⟩ | hrec
        · simp [hbuf] at hdue
        · simp [hstop, Nat.not_le.2 hprog] at hdue
        · exact hrec
      refine (Op.bind_ok (due_true hdue s)).trans ((Op.bind_ok (Op.get_run s)).trans (Op.bind_error ?_))
      exact (congrFun (if_pos hk) s).trans (dueSome_none hfull s)
    · exact Op.bind_error (due_false (Bool.eq_false_iff.2 hdue) s)
  exact runEvent_stutter hbody

end

end Sys2Proof.Machine
end

section
/-! SUPPORT. The steps of the copy engine together (R333 to R340). -/

namespace Sys2Proof.Machine

/-- A step of a command that the engine does not hold changes nothing. -/
theorem exec_copyStep_none {f : Nat → Nat → Instr} {core e : Nat} {s : State}
    (hf : f ∈ ([.copy, .xpose, .gather, .fill, .pagein, .migr, .copyCommandComplete] : List _))
    (h : (s.coreAt core).copies[e]? = none) : exec (f core e) s = .next s := by
  simp only [List.mem_cons, List.not_mem_nil, or_false] at hf
  rcases hf with rfl | rfl | rfl | rfl | rfl | rfl | rfl
  · exact copyStep_none h
  · exact copyStep_none h
  · exact copyStep_none h
  · exact copyStep_none h
  · exact copyStep_none h
  · exact copyStep_none h
  · exact runEvent_stutter ((Op.bind_ok (Op.get_run s)).trans (Op.bind_error (dueSome_none h s)))

/-- Settles O32: what a step reads is what stands in the pad, what it writes the front of its buffer, and a page that it takes up
comes into the tier pool, goes or moves as the pool allows. -/
theorem copyEngines : Obligations.CopyEngines := by
  refine ⟨⟨?_, ?_, ?_, ?_, fun f core n s hf h => exec_copyStep_none hf h⟩, ?_, ?_, ?_, ?_, ?_⟩
  · intro x hx core n k m s hm hop hbuf hstop hprog hsrc hsince hclean hquiet p got
    have hread := State.Readable.of_hyps (core := core) hsince hclean hquiet
    simp only [List.mem_cons, List.not_mem_nil, or_false] at hx
    rcases hx with rfl | rfl
    · exact copyStep_reads hm hop hbuf hstop hprog hsrc hread rfl
    · exact copyStep_reads hm hop hbuf hstop hprog hsrc hread rfl
  · intro core n ks ki m s hm hop hbuf hstop hprog hks hki hsince hclean hquiet lam i v x inside known row parts ord p
    have hsource := State.Readable.of_hyps (core := core) hsince (hclean _ (by simp)) fun r hr => (hquiet r hr).1
    have hindex := State.Readable.of_hyps (core := core) hsince (hclean _ (by simp)) fun r hr => (hquiet r hr).2
    refine ⟨fun hin => ?_, fun hnew hout => exec_gather_stops hm hop hbuf hstop hprog hks hki hindex hnew hout⟩
    have hgoal : ∃ t, exec (.gather core n) s = .next t ∧ t.mem = s.mem ∧ copyStepTo s t core n (m.rowRead s ks row ord) := by
      cases hknown : known with
      | none =>
        have hrow : row = x.toNat := by rw [show row = (known.map (·.2)).getD x.toNat from rfl, hknown]; rfl
        have hord : ord = m.rowOrd := if_pos hknown
        rw [hrow, hord]
        exact exec_gather_fresh hm hop hbuf hstop hprog hks hsource hki hindex hknown (hin hknown)
      | some c =>
        have hrow : row = c.2 := by rw [show row = (known.map (·.2)).getD x.toNat from rfl, hknown]; rfl
        have hord : ord = m.order := if_neg (by rw [hknown]; exact Option.some_ne_none c)
        obtain ⟨hcur, hi⟩ := Option.filter_eq_some_iff.1 hknown
        have hcur : m.cur = some (i, c.2) := by rw [hcur, ← of_decide_eq_true hi]
        rw [hrow, hord]
        exact exec_gather_known hm hop hbuf hstop hprog hks hsource hcur
    exact hgoal
  · intro core n m s hm hop hbuf hstop hprog w g
    exact exec_fill_fills hm hop hbuf hstop hprog
  · intro x hx core n k m y rest s hm hop hbuf hdst hquiet c front bytes
    have hne : m.buf ≠ [] := hbuf ▸ List.cons_ne_nil y rest
    have hc := Cmd.granule_cons hbuf
    simp only [List.mem_cons, List.not_mem_nil, or_false] at hx
    rcases hx with rfl | rfl | rfl | rfl
    · exact copyStep_drains hm hop hne hdst hquiet hc
    · exact copyStep_drains hm hop hne hdst hquiet hc
    · exact copyStep_drains hm hop hne hdst hquiet hc
    · exact copyStep_drains hm hop hne hdst hquiet hc
  · intro core n asid va frame m s hm hop hbuf hstop hprog hsrc s1 page goes ht moved done
    exact ⟨exec_pagein_stays hm hop hbuf hstop hprog hsrc ht, exec_pagein_waits hm hop hbuf hstop hprog hsrc ht,
      fun u hmoved hu => exec_pagein_brings hm hop hbuf hstop hprog hsrc ht hmoved hu⟩
  · intro asid page grp s u h
    exact ⟨State.pageIn_frame h, fun x hx hgone => State.pageIn_drops h hx hgone⟩
  · intro core n asid va m s hm hop hbuf hstop hprog hsrc page on done
    have hwaits := exec_migr_waits hm hop hbuf hstop hprog hsrc
    refine ⟨fun h => exec_migr_stays hm hop hbuf hstop hprog hsrc (migrAt_stays (s := s.onSite core) hm h), fun x hon hx =>
      ⟨fun hout => ?_, fun hin => ⟨fun h => ?_, fun f hgrp hf => ?_⟩⟩⟩
    · obtain ⟨hbusy, hfree⟩ := migrAt_out (s := s.onSite core) (e := n) hon hx hout
      exact ⟨fun h => hwaits (hbusy h), fun h => exec_migr_done hm hop hbuf hstop hprog hsrc (hfree h hm)⟩
    · exact exec_migr_stays hm hop hbuf hstop hprog hsrc (migrAt_kept (s := s.onSite core) hon hx hin hm h)
    · obtain ⟨hbusy, hfree⟩ := migrAt_moves (s := s.onSite core) (e := n) hon hx hin hgrp hf
      exact ⟨fun h => hwaits (hbusy h), fun h => exec_migr_done hm hop hbuf hstop hprog hsrc (hfree h hm)⟩
  · intro core n m s s1 hm hbuf hend hrec
    exact exec_copyCommandComplete_ends hm hbuf hend hrec
  · intro core n m s hm h
    exact exec_copyCommandComplete_stays hm h

end Sys2Proof.Machine
end
